-- ==== Sys2Proof/Word.lean ====
section
/-!
DEFINITION. Word.lean: the word types of the device and their plainest arithmetic. Registers are 32 bits wide (R431);
bytes are the unit of packets, buffers and host memory (R10). Counts, indices, turn numbers, times and addresses are
natural numbers here; where the spec gives one a width, the operation that holds it applies that width.
-/

namespace Sys2Proof

/-- A register of BAR0 (R431). -/
abbrev Word := BitVec 32

/-- A byte of a packet, a buffer or host memory. -/
abbrev Byte := BitVec 8

/-- A list of key and value pairs in one canonical form: keys strictly rising. -/
abbrev Sparse (α : Type) := List (Nat × α)

/-- Addition that stops at the largest value of `w` bits (the saturating counters of R24, R201, R425 and others). -/
def satAdd (w a b : Nat) : Nat := min (a + b) (2 ^ w - 1)

/-- Bit `i` of `n`. -/
def bitAt (n i : Nat) : Bool := (n / 2 ^ i) % 2 == 1

/-- Bits `lo` to `lo + w - 1` of `n`. -/
def bitsAt (n lo w : Nat) : Nat := (n / 2 ^ lo) % 2 ^ w

/-- The value of a Boolean as a bit. -/
def bit01 (b : Bool) : Nat := if b then 1 else 0

/-- Division rounded up; 0 for a zero divisor. -/
def ceilDiv (a b : Nat) : Nat := if b = 0 then 0 else (a + b - 1) / b

end Sys2Proof
end

