-- ==== Sys2Proof/Syntax.lean ====
section
/-!
DEFINITION. Syntax.lean: the commands of the block, one constructor for each row of spec/opcode_table.json, with the
operands the environment decides: which object, the values written, the bytes received. The types above the commands are
the data those operands carry.
-/

namespace Sys2Proof.Machine

/-- Where a command came from (R449, R386): a command ring of a function, a request of a remote device, or the
device's own firmware (R89). The completion of the command goes back there. -/
inductive Src where
  | ring (fn ring tag : Nat)
  | remote (device id fn : Nat)
  | firmware
  deriving DecidableEq, Repr

/-- The common header of a command (R451), with its source: scope 0 local, 1 system. -/
structure Cmd where
  src    : Src
  system : Bool
  deriving DecidableEq, Repr


/-! ### What a Recipe image holds (chapter 3, chapter 4, chapter 5, chapter 6, chapter 7, chapter 8) -/

/-- A field of a header: its first bit counted from the header's first byte in network order, and its width. -/
structure HFld where
  bit   : Nat
  width : Nat
  deriving DecidableEq, Repr

/-- A computed length: field x scale + base (R95). -/
structure LenExpr where
  field : HFld
  scale : Nat
  base  : Int
  deriving DecidableEq, Repr

/-- A declared value check: the field under a mask must equal the value (R95, R99). -/
structure ValueCheck where
  field : HFld
  mask  : Nat
  value : Nat
  deriving DecidableEq, Repr

/-- A header type (R95): its instance limit, its fixed part, its computed length, its length check (the total length a
field states), its value checks, and whether it declares a checksum check. -/
structure HdrType where
  maxInst  : Nat
  fixedLen : Nat
  length   : Option LenExpr
  lenCheck : Option LenExpr
  values   : List ValueCheck
  checksum : Bool
  deriving DecidableEq, Repr

/-- A part of a transition key, from the current header or from the 32 bytes that follow it (R95). -/
structure KeyPart where
  look  : Bool
  field : HFld
  deriving DecidableEq, Repr

/-- A transition (R96): taken when the key under the mask equals the value. -/
structure Transition where
  mask  : Nat
  value : Nat
  next  : Nat
  deriving DecidableEq, Repr

/-- A parse state: the header type it extracts, the bytes it skips, its key and transitions; a state without transitions
is terminal and names a scan profile. -/
structure ParseState where
  header  : Option Nat
  skip    : Option LenExpr
  key     : List KeyPart
  trans   : List Transition
  profile : Nat
  deriving DecidableEq, Repr

/-- A place in a container: container index (R180) and lowest bit. -/
structure Place where
  cont : Nat
  bit  : Nat
  deriving DecidableEq, Repr

/-- What PHV_LAYOUT places in a container (R97): a field of instance `inst` of header type `htype`, or that instance's
offset. -/
inductive PhvSrc where
  | field (htype inst : Nat) (f : HFld)
  | offset (htype inst : Nat)
  deriving DecidableEq, Repr

/-- An item of PHV_LAYOUT. -/
structure PhvItem where
  src   : PhvSrc
  place : Place
  deriving DecidableEq, Repr

/-- An insertable header instance, emit bits 24 to 31 (R185): its length, the header type it is inserted before (at the
end of the headers when none), and its mapped fields. -/
structure Insertable where
  len    : Nat
  before : Option Nat
  fields : List (HFld × Place)
  deriving DecidableEq, Repr

/-- Where a set's results go (R103, R106). -/
structure ScanDst where
  index : Option Place
  off   : Option Place
  count : Option Place
  deriving DecidableEq, Repr

/-- The start of a scan region (R103): byte 0, payload_off, or the offset of a header instance. -/
inductive ScanFrom where
  | byte0
  | payload
  | header (htype inst : Nat)
  deriving DecidableEq, Repr

/-- A scan profile (R103). -/
structure ScanProfile where
  sets   : Nat
  start  : ScanFrom
  maxLen : Nat
  stop   : Nat
  dst    : List ScanDst
  deriving DecidableEq, Repr

/-- A pattern (R104): its bytes, their masks, and a fixed anchor or none. -/
structure Pattern where
  bytes  : List Byte
  mask   : List Byte
  anchor : Option Nat
  deriving DecidableEq, Repr

/-- DROP_ACTIONS of one class or of scan timeout (R100): the code, the mirror session, the scan profile. -/
structure DropAction where
  code    : Nat
  session : Nat
  profile : Nat
  deriving DecidableEq, Repr

/-- A field of a key profile (R172): header-vector bytes `off` to `off + len - 1` under a byte mask, placed from key byte
`dst`. -/
structure KeyField where
  off  : Nat
  len  : Nat
  mask : Nat
  dst  : Nat
  deriving DecidableEq, Repr

/-- A key profile (R172): its fields and the bindings its key is looked up in, lookup 0 first (R174). -/
structure KeyProfile where
  fields  : List KeyField
  lookups : List Nat
  deriving DecidableEq, Repr

/-- A binding of a stage (R174, R175): the table by identifier (a classifier by its own), customer or vendor, where the
action index lies in the result, the miss word, whether hits refresh (R155), and the lookups per CCLK it demands (R143). -/
structure Binding where
  table    : Nat
  rate     : Nat
  customer : Bool
  indexLsb : Nat
  missWord : Nat
  refresh  : Bool
  deriving DecidableEq, Repr

/-- STAGE_BIND of one stage: its key profiles, the default one, its bindings, the word of a packet without a lookup, and
whether that word is marked customer (R172, R175). -/
structure StageBind where
  profiles : List KeyProfile
  dflt     : Nat
  bindings : List Binding
  fixed    : Nat
  customer : Bool
  deriving DecidableEq, Repr

/-- An associative table's type (R117); a ternary table's bank width in units. -/
inductive AsmType where
  | lpm4
  | lpm6
  | ternary (units : Nat)
  deriving DecidableEq, Repr

/-- How a learn builds an entry (R186): fields of the operand copied into the entry, (entry bit, width, operand bit). -/
structure LearnMap where
  fields : List (Nat × Nat × Nat)
  idxAt  : Nat
  deriving DecidableEq, Repr

/-- An exact-match table's declaration beyond its identifier (R141 to R157): key bits K, entry width W, buckets nb, in
HBM, first engine and engine group size, learning with its delay d (0: immediate publication), ageing exponent a, port field (lowest bit
and width), learn map, seeds, and for a classifier subtable its classifier, number, mask and priority's lowest bit. -/
structure ExmDecl where
  keyBits  : Nat
  width    : Nat
  buckets  : Nat
  hbm      : Bool
  engine   : Nat
  group    : Nat
  learning : Bool
  delay    : Nat
  ageing   : Option Nat
  port     : Option HFld
  learn    : LearnMap
  seed1    : Nat
  seed2    : Nat
  subOf    : Option (Nat × Nat)
  subMask  : Nat
  prioLsb  : Nat
  deriving DecidableEq, Repr

/-- A table's kind; an associative table's type, the width it sets its banks to, in units (R116, R117), and its banks in order. -/
inductive TableKind where
  | asm (type : AsmType) (width : Nat) (banks : List Nat)
  | exm (d : ExmDecl)
  deriving DecidableEq, Repr

/-- A table declaration of TABLE_DECL: identifier, kind, declared capacity (notes/assumptions/168.md), DMA access mode, customer-owned; `digest` stands
for the parts of the canonical declaration that decide nothing else here, such as the names of key fields (R78,
notes/assumptions/157.md). -/
structure TableDecl where
  id       : Nat
  kind     : TableKind
  capacity : Nat
  dma      : Bool
  customer : Bool
  digest   : Nat
  deriving DecidableEq, Repr

/-- The kinds of stateful array (R202). -/
inductive ArrKind where
  | meter
  | counter
  | register
  | flow
  deriving DecidableEq, Repr

/-- A stateful array of TABLE_DECL (R202), or a learning table's number for LEARN intents (`learns`). -/
structure ArrayDecl where
  num      : Nat
  kind     : ArrKind
  width    : Nat
  size     : Nat
  first    : Nat
  group    : Nat
  customer : Bool
  learns   : Option Nat
  digest   : Nat
  deriving DecidableEq, Repr

/-- A transaction class (R214). -/
structure TxnClass where
  admission : Bool
  drop      : Bool
  anyway    : Nat
  deriving DecidableEq, Repr

/-- An entry of INITIAL_ENTRIES: of an associative table, or of an exact-match table. -/
inductive InitEntry where
  | asm (table vrf len key mask prio result : Nat)
  | exm (table bits : Nat)
  deriving DecidableEq, Repr

/-- The sections of a Recipe with their contents. Action words are the 80 bytes of the image (R177), keyed by stage x 4096 + word; a word
not listed is zero, a NOP. `customerWritable` and `customerEdit` are the container indices and instances PHV_LAYOUT marks (R189);
`punt` and `parsePunt` are the forwarding records of the punt destinations (R100, R184). -/
structure Recipe where
  states    : List ParseState
  starts    : List (Option Nat)
  headers   : List HdrType
  phv       : List PhvItem
  inserts   : List Insertable
  customerWritable : List Nat
  customerEdit     : List Nat
  profiles  : List ScanProfile
  sets      : List (List Pattern)
  drops     : List DropAction
  timeout   : DropAction
  stages    : List StageBind
  tables    : List TableDecl
  arrays    : List ArrayDecl
  classes   : List TxnClass
  seeds     : List Nat
  words     : List (Nat × List Byte)
  initial   : List InitEntry
  punt      : Nat
  parsePunt : Nat
  deriving DecidableEq, Repr

/-- A fetched Recipe image (R66 to R71): its header, the entries of its section table and its signature block as bytes, how many bytes
were fetched; what the hash unit finds (notes/assumptions/156.md): the SHA-384 of each section as stored, in the table's order, of bytes
0 to sig_off - 1, and of the sub-header and ciphertext of VENDOR_ACTIONS; that section's sub-header and trailer (R71, R522); whether the
GCM tag agrees under the family key; and the contents of its sections. -/
structure Image where
  header    : List Byte
  sections  : List (List Byte)
  sigBlock  : List Byte
  fetched   : Nat
  hashes    : List (List Byte)
  signed    : List Byte
  vendorHash : List Byte
  vendorHead : List Byte
  trailer   : List Byte
  gcmOk     : Bool
  recipe    : Recipe
  deriving DecidableEq, Repr

/-! ### What the environment of a command decides -/

/-- A pointer or owner name that a dequeue or a visit presents and that is not the stored one (R246, R247, R251): the pointer of the read,
the owner name of the release, the pointer at a position of the chain that the release frees, the pointer of the spill mover. -/
inductive PtrFault where
  | read (ptr : Nat)
  | name (n : Nat)
  | chain (pos ptr : Nat)
  | mover (ptr : Nat)
  deriving DecidableEq, Repr

/-- A soft error in the on-die buffer that strikes a queue's head copy (R298): bits flipped in a buffer word, data below check bits, or an
uncorrectable word, of that index, in its descriptor. -/
inductive HeadUpset where
  | data (word bits : Nat)
  | descriptor (word : Nat)
  deriving DecidableEq, Repr

/-- A visit of the VOQ selector: the VOQ, and what its head copy meets. -/
structure VoqTurn where
  q     : Nat
  fault : Option PtrFault
  upset : Option HeadUpset
  deriving DecidableEq, Repr

/-- A delivery from reassembly: out of a group's stream or the data stream, and the pointer that a spill mover presents. -/
structure Delivery where
  group : Option Nat
  ptr   : Option Nat
  deriving DecidableEq, Repr

/-- A write of the DICE_CTRL of a unit. -/
structure DiceWrite where
  unit : Nat
  val  : Nat
  deriving DecidableEq, Repr

/-- The memories of the ASM that soft errors strike (R116, R124, R125, R136): the units and control field of an entry, their copy in SRAM,
the associated word, a bucket slot. -/
inductive AsmPart where
  | units | copy | word | slot
  deriving DecidableEq, Repr

/-- A soft error in the ASM (R136 to R139): the memory; the place, bank x 8192 + unit, or for a slot first block x 64 + slot; the bits
flipped: of the units the value bits, then the mask bits, then the control field; of the SECDED memories, 72 bits a word. -/
structure Upset where
  part : AsmPart
  loc  : Nat
  bits : Nat
  deriving DecidableEq, Repr

/-- What a lookup meets (R139, R167, R315, R316): an uncorrectable word of the table SRAM or a poisoned stripe of the HBM that it read, and
soft errors that have struck the ASM. -/
structure LookupFaults where
  poison : Option Nat
  upsets : List Upset
  deriving DecidableEq, Repr

/-- What lies in a SECDED word that the patrol reads in error: nothing a packet or command uses, an entry of a stateful array
(instance and index), the descriptor of a copy on-die (queue and place), a word of the ASM's memories, or a slot of an exact-match table in
SRAM (table index and cell). What a buffer word holds follows from its address. -/
inductive WordUse where
  | unused
  | array (arr index : Nat)
  | descriptor (q n : Nat)
  | asm (u : Upset)
  | exm (t cell : Nat)
  deriving DecidableEq, Repr

/-- What the path monitoring of a terminated client ODUflex brings in a frame (R415 to R417): the client port, the BIP-8 of the frame's
OPU, the BIP-8 and BEI received, BDI, the status, the multiframe number, the trace byte, the payload type where the frame carries it. -/
structure ClientOh where
  client : Nat
  bip    : Nat
  rxBip  : Nat
  rxBei  : Nat
  rxBdi  : Bool
  stat   : Nat
  mfas   : Nat
  tti    : Nat
  pt     : Option Nat
  deriving DecidableEq, Repr

/-- An OTUC frame of a slice as the framer reads it (R414 to R417): whether the FlexO instance has lost lock, whether the skew exceeds
2 us, whether the FAS is correct, MFAS; the BIP-8 of its OPU; SM and PM: BIP-8, BEI, BDI, IAE, the PM status, trace bytes; the
payload type (in the frame of multiframe number 0) and the MSI as the TPN of each slot (where a multiframe has ended); the frames of
client ODUflexes that ended in it. -/
structure OtnFrame where
  flexoLost : Bool
  skewed    : Bool
  fasOk     : Bool
  mfas      : Nat
  bip       : Nat
  smBip     : Nat
  smBei     : Nat
  smBdi     : Bool
  smIae     : Bool
  smTti     : Nat
  pmBip     : Nat
  pmBei     : Nat
  pmBdi     : Bool
  pmStat    : Nat
  pmTti     : Nat
  pt        : Option Nat
  msi       : Option (List (Option Nat))
  clients   : List ClientOh
  deriving DecidableEq, Repr

/-- A GFP frame as the demapper finds it (R421): whether its core header was corrected, idle, payload type, user payload identifier,
tHEC, PFI and pFCS. -/
structure GfpHead where
  corrected : Bool
  idle      : Bool
  pti       : Nat
  upi       : Nat
  thecOk    : Bool
  pfi       : Bool
  pfcsOk    : Bool
  deriving DecidableEq, Repr

/-- What the security engine finds in a firmware image as it decrypts it under the family key, which no tool holds (R523): whether
every component's GCM tag agrees. -/
structure FwChecks where
  gcmOk     : Bool
  deriving DecidableEq, Repr

/-- What a transfer unit of the die bridge carries (R19): bytes of a packet, a packet's descriptor, a verdict, the answer to a register
read, a register write, a part of a command. -/
inductive BrgLoad where
  | bytes (pkt : Nat)
  | descriptor (pkt : Nat)
  | verdict (pkt : Nat)
  | readData (fn addr : Nat)
  | write (fn addr : Nat)
  | command (c : Cmd)
  deriving DecidableEq, Repr

end Sys2Proof.Machine

namespace Sys2Proof

open Machine

/-- The commands (rows of spec/opcode_table.json). -/
inductive Instr where
  /-- BRIDGE_UNIT_RECEIVE (R18): A transfer unit arrives on the receiving die; its check code and sequence number
    are checked, and a replay is requested on error. -/
  | bridgeUnitReceive (g : Nat) (good : Bool) (load : BrgLoad)
  /-- BRIDGE_REPLAY_REQUEST (R18): The sending die receives a replay request and resends the unit from its replay
    buffer. -/
  | bridgeReplayRequest (g : Nat)
  /-- BRIDGE_LANE_FAILURE (R21): A bridge lane fails or passes its error threshold; its lane group leaves service
    while a spare is switched in. -/
  | bridgeLaneFailure (g : Nat)
  /-- SPARE_LANE_SWITCH_DONE (R21): The spare switch ends and the lane group returns at full capacity, with an INFO
    event. -/
  | spareLaneSwitchDone (g : Nat)
  /-- TD_TIME_TRANSFER (R47): The TD time base receives the handshaked FD time transfer in the bridge time class
    and follows it. -/
  | tdTimeTransfer
  /-- FRAME_RECEIVE (R402): The MAC checks a received frame and discards it, consumes it or passes it to the port
    ingress FIFO, stamping it at the first byte. -/
  | frameReceive (port : Nat) (bytes : List Byte) (arrived : Nat) (fcsOk : Bool) (corrected uncorrectable : Nat)
  /-- PFC_XOFF_REPEAT (R407): Half the pause time after an XOFF, the MAC repeats the frame while the account stays
    above XOFF. -/
  | pfcXoffRepeat (port priority : Nat)
  /-- PFC_FRAME_RECEIVE (R406): A valid PFC or PAUSE frame sets or ends the pause timers of its priorities, and the
    pause state reaches the scheduler. -/
  | pfcFrameReceive (port : Nat) (bytes : List Byte)
  /-- PFC_PAUSE_EXPIRE (R406): A priority's pause timer runs out and its queues become active again. -/
  | pfcPauseExpire (port priority : Nat)
  /-- EOP_STATUS_ARRIVE (R404): The end-of-packet status of a long frame arrives; a good status releases the held
    transaction, and a bad one aborts it and discards the packet. -/
  | eopStatusArrive (id : Nat) (good : Bool)
  /-- PARSE_ACCEPT (R94): A parse engine accepts a packet once its first 512 bytes, or all of a shorter packet, are
    in the FIFO. -/
  | parseAccept (id : Nat)
  /-- PARSE_COMPLETE (R93): After 40 CCLK the parser hands the header vector to the scanner hold or stage 0, or
    applies a malformed-packet action. -/
  | parseComplete (id : Nat)
  /-- CAPTURE_ARM (R102): A write of arm to PRS_CAP_CTRL_pl arms the malformed-packet capture. -/
  | captureArm (fn be pl val : Nat)
  /-- PORT_START_WRITE (R96): A write to PRS_PORT_START_p sets the start state for packets tagged after the turn of
    acceptance. -/
  | portStartWrite (fn be port val : Nat)
  /-- SCAN_SHIFT (R105): A scan engine tests every requested set at 32 start offsets of its window, or stalls when
    bytes are missing. -/
  | scanShift (id : Nat) (poison : Bool) (ptr : Option Nat)
  /-- SCAN_STALL_RESUME (R109): The missing bytes arrive from the line or the TD and a stalled shift resumes. -/
  | scanStallResume (id arrived staged : Nat)
  /-- SCAN_TIMEOUT (R112): A scan that has not ended within the scanner timeout ends with partial results and the
    scan-timeout action. -/
  | scanTimeout (id : Nat)
  /-- SCANNER_RELEASE (R108): A packet leaves the scanner hold for ingress stage 0 in arrival order per port. -/
  | scannerRelease (id : Nat)
  /-- SET_ENABLE (R114): An enable written to PRS_SET_LC_s puts a DOWN pattern set into STARTING, or sets pend_up
    during DRAINING. -/
  | setEnable (fn be set : Nat)
  /-- SET_DISABLE (R114): A disable written to PRS_SET_LC_s puts an UP pattern set into DRAINING for packets tagged
    later. -/
  | setDisable (fn be set : Nat)
  /-- SET_DRAIN_DONE (R114): No earlier-tagged packet still scans a draining set, so it becomes DOWN or restarts
    under pend_up. -/
  | setDrainDone (set : Nat)
  /-- STAGE_ISSUE (R170): A stage accepts a packet into an issue slot, builds its key and issues its lookups, or
    accounts the slot as starved. -/
  | stageIssue (pl stage : Nat) (id : Option Nat) (cause : Nat)
  /-- STAGE_LOOKUP_RETURN (R170): An associative or exact-match lookup result returns to the stage holding the
    packet. -/
  | stageLookupReturn (id lookup : Nat) (faults : LookupFaults)
  /-- STAGE_ACTION (R182): The stage fetches and parity-checks the action word, executes its micro-operations and
    issues its intents. -/
  | stageAction (id upset : Nat) (ucode : Option Nat)
  /-- PIPELINE_DRAIN_DONE (R26): The packets of a draining pipeline have finished; it becomes DOWN and raises ERR.
    -/
  | pipelineDrainDone (pl : Nat)
  /-- LANE_RETURN_COMPLETE (R29): The buddy holds no packet of the returning lanes, and their FIFOs release
    arrivals to the returned pipeline. -/
  | laneReturnComplete (pl : Nat)
  /-- PIPELINE_ENABLE (R198): An enable written to PPL_LC starts a full reload of both banks from the protected
    copy. -/
  | pipelineEnable (fn be pl : Nat)
  /-- PIPELINE_DISABLE (R198): A disable written to PPL_LC moves the lanes to the buddy, or is refused with
    BUDDY_DOWN. -/
  | pipelineDisable (fn be pl : Nat)
  /-- PIPELINE_RELOAD_DONE (R198): The full reload of a starting pipeline ends and it becomes UP. -/
  | pipelineReloadDone (pl : Nat)
  /-- CONTROL_WORD_RELOAD_DONE (R193): A bad control-store word is rewritten from the protected copy, clearing its
    mark and completing its log entry. -/
  | controlWordReloadDone (pl stage bank word : Nat) (ucode readable : Bool)
  /-- CONTROL_STORE_PATROL (R194): The patrol reads a control-store word, checks parity and CRC, and schedules a
    reload on a finding. -/
  | controlStorePatrol (pl stage bank word upset : Nat) (last : Bool)
  /-- INGRESS_SECTION_EXIT (R216): A packet leaves ingress stage 23; its forwarding record is read and its
    transaction commits, aborts or waits for a verdict or end of packet. -/
  | ingressSectionExit (id : Nat)
  /-- EGRESS_SECTION_EXIT (R219): A packet leaves egress stage 11, its egress transaction ends, and its MTU is
    checked. -/
  | egressSectionExit (id : Nat)
  /-- INTENT_EXECUTE (R206): A state unit executes an arriving intent against the key's working value, returns its
    result and chains it. -/
  | intentExecute (id stage num : Nat) (poison : Bool)
  /-- INTENT_SETTLE (R208): A committed intent below every watermark folds into the committed value and leaves the
    chain. -/
  | intentSettle (arr index : Nat) (replay : Option Nat)
  /-- CHAIN_WAIT_TIMEOUT (R213): After 64 CCLK of waiting for chain room, the class's conflict-limit action
    applies. -/
  | chainWaitTimeout (id stage num : Nat)
  /-- CHAIN_ROOM_RESUME (R213): Room appears in a chain or state unit and a waiting intent is issued. -/
  | chainRoomResume (id stage num : Nat)
  /-- VERDICT_RECEIVE (R217): The FD receives the TD's admission verdict and commits or aborts the packet's
    transaction. -/
  | verdictReceive (id : Nat) (poisoned : Bool)
  /-- TXN_OPEN (R222): Command TXN_OPEN opens an update transaction on a handle for the issuing function. -/
  | txnOpen (c : Cmd) (handle : Nat)
  /-- TXN_STAGE_ASM_INSERT (R127): TXN_STAGE with target ASM and op INSERT stages a route or rule insert. -/
  | txnStageAsmInsert (c : Cmd) (handle slot table vrf len key mask prio result param : Nat)
  /-- TXN_STAGE_ASM_DELETE (R127): TXN_STAGE with target ASM and op DELETE stages a route or rule delete. -/
  | txnStageAsmDelete (c : Cmd) (handle slot table vrf len key mask prio param : Nat)
  /-- TXN_STAGE_ASM_MODIFY (R127): TXN_STAGE with target ASM and op MODIFY stages a result change. -/
  | txnStageAsmModify (c : Cmd) (handle slot table vrf len key mask prio result param : Nat)
  /-- TXN_STAGE_ASM_REWRITE (R139): TXN_STAGE with target ASM and op REWRITE stages an in-place repair of an entry,
    slot or copy. -/
  | txnStageAsmRewrite (c : Cmd) (handle slot table vrf len key mask prio param : Nat)
  /-- TXN_STAGE_EXM_INSERT (R149): TXN_STAGE with target EXM and op INSERT stages a static entry insert. -/
  | txnStageExmInsert (c : Cmd) (handle slot table param bits : Nat)
  /-- TXN_STAGE_EXM_DELETE (R149): TXN_STAGE with target EXM and op DELETE stages an entry delete. -/
  | txnStageExmDelete (c : Cmd) (handle slot table param bits : Nat)
  /-- TXN_STAGE_EXM_MODIFY (R149): TXN_STAGE with target EXM and op MODIFY stages a data change. -/
  | txnStageExmModify (c : Cmd) (handle slot table param bits : Nat)
  /-- TXN_STAGE_ARRAY_WRITE (R223): TXN_STAGE with target array and op WRITE stages a new entry value, including
    meter profiles. -/
  | txnStageArrayWrite (c : Cmd) (handle slot array index param value : Nat)
  /-- TXN_STAGE_ARRAY_CLEAR (R223): TXN_STAGE with target array and op CLEAR stages an entry clear. -/
  | txnStageArrayClear (c : Cmd) (handle slot array index : Nat)
  /-- TXN_STAGE_TD_WRITE (R223): TXN_STAGE with target TD table and op WRITE stages a TD table record. -/
  | txnStageTdWrite (c : Cmd) (handle table index param : Nat) (rec : List Byte)
  /-- TXN_PREPARE (R225): Command TXN_PREPARE starts checking and placing every staged write of an OPEN
    transaction. -/
  | txnPrepare (c : Cmd) (handle : Nat)
  /-- TXN_PREPARE_COMPLETE (R225): Placement ends and the transaction becomes PREPARED, or returns to OPEN with
    TABLE_FULL, INVALID or BUSY_RETRY. -/
  | txnPrepareComplete (handle : Nat)
  /-- TXN_COMMIT (R226): Command TXN_COMMIT schedules a prepared transaction for turn C. -/
  | txnCommit (c : Cmd) (handle turn : Nat)
  /-- TXN_COMMIT_CANCEL (R226): TXN_COMMIT with cancel set withdraws a scheduled commit, returning the transaction
    to PREPARED. -/
  | txnCommitCancel (c : Cmd) (handle : Nat)
  /-- TXN_ABORT (R228): Command TXN_ABORT removes a transaction's prepared parts and frees the handle. -/
  | txnAbort (c : Cmd) (handle : Nat)
  /-- ASM_OVERLAP_CLOSE (R132): No packet tagged before C can still search the table, so old-only entries are
    removed and the selector flips. -/
  | asmOverlapClose (t : Nat)
  /-- ASM_WALKER_VISIT (R136): The walker compares an associative entry with its SRAM copy and repairs or logs a
    difference. -/
  | asmWalkerVisit (bank unit addr : Nat) (upsets : List Upset) (last : Bool)
  /-- SEARCH (R159): Command SEARCH looks a key up in a command-mode ASM or EXM table as a packet of the acceptance
    turn would. -/
  | search (c : Cmd) (slot table pipe : Nat) (all : Bool) (key keyAddr resultAddr : Nat) (poison : List Nat)
  /-- NEXT (R160): Command NEXT opens or continues an iteration and returns the next entries in canonical order. -/
  | next (c : Cmd) (slot table pipe count context resultAddr : Nat) (after : Option (Nat × Nat × Nat)) (poison : List Nat)
  /-- ITERATION_CONTEXT_EXPIRE (R160): An iteration context idle for 1 s closes. -/
  | iterationContextExpire (k : Nat)
  /-- FLUSH_PORT (R161): Command FLUSH_PORT starts a sweep deleting entries whose port field equals the port. -/
  | flushPort (c : Cmd) (slot table port : Nat) (incl : Bool) (resultAddr : Nat)
  /-- FLUSH_PORT_DONE (R161): A flush sweep ends and its command completes DONE. -/
  | flushPortDone (t : Nat)
  /-- LEARN_PLACE (R152): The engine group places a committed learn as learn pending, or drops it for rate, lock or
    lack of room. -/
  | learnPlace (k : Nat) (rate : Bool)
  /-- LEARN_STATE_ALWAYS (R153): A published learned entry is rewritten as always within two turns and its LEARN or
    MOVE record is queued. -/
  | learnStateAlways (t cell : Nat)
  /-- AGEING_SWEEP_VISIT (R155): The ageing sweep visits a bucket, freeing expired entries with AGE records or
    rewriting lagging stamps. -/
  | ageingSweepVisit (t copy bucket : Nat)
  /-- AGE_LIMIT_WRITE (R156): A write to EXM_AGE_t sets limit or en for packets tagged after the turn of
    acceptance. -/
  | ageLimitWrite (fn be t val : Nat)
  /-- LEARN_RECORD_DELIVER (R157): A learn FIFO record is written by DMA into the host ring when the ring has room.
    -/
  | learnRecordDeliver
  /-- HOST_RING_TAIL_WRITE (R568): The host writes the tail of a device-written ring, freeing room for further
    records. -/
  | hostRingTailWrite (fn addr be val : Nat)
  /-- BUCKET_LOCK (R163): A write of lock = 1 through the BAR2 window locks a free bucket to the writing function.
    -/
  | bucketLock (fn addr be : Nat)
  /-- BUCKET_STAGING_WRITE (R163): The lock owner's write merges into the bucket's staging copy. -/
  | bucketStagingWrite (fn addr : Nat) (data : List Byte)
  /-- BUCKET_UNLOCK_COMMIT (R163): A write of lock = 0 with commit = 1 schedules the staging copy for the next turn
    boundary. -/
  | bucketUnlockCommit (fn addr be : Nat)
  /-- BUCKET_UNLOCK_DISCARD (R163): A write of lock = 0 with commit = 0 discards the staging copy at once. -/
  | bucketUnlockDiscard (fn addr be : Nat)
  /-- BUCKET_LOCK_EXPIRE (R163): A lock not ended within 100 µs expires, discarding the staging copy with a
    LOCK_EXPIRED entry. -/
  | bucketLockExpire (t copy bucket : Nat)
  /-- BUCKET_ENTRY_WRITE (R165): A whole-entry write to an unlocked bucket acts as lock, write and commit; a
    partial one is refused. -/
  | bucketEntryWrite (fn addr : Nat) (data : List Byte)
  /-- BAR2_READ (R439): A BAR2 read of a 64-byte table entry returns it atomically, or Completer Abort on poison.
    -/
  | bar2Read (fn addr : Nat) (poison : Bool)
  /-- SHADOW_COMPARE_START (R166): A write of start to EXM_CMP_CTRL begins comparing the host shadow with a table.
    -/
  | shadowCompareStart (fn be val : Nat)
  /-- SHADOW_COMPARE_DONE (R166): The shadow compare ends, or stops on a full output buffer. -/
  | shadowCompareDone (shadow : List Byte)
  /-- POOL_SIZE_WRITE (R237): A write to BPM_POOL_k.size_4mib resizes the pools when accepted. -/
  | poolSizeWrite (fn be pool val : Nat)
  /-- POOL_LIMIT_WRITE (R240): A write of hard_limit or egress_reserve is applied or refused by the pool sum rule.
    -/
  | poolLimitWrite (fn be pool val : Nat) (reserve : Bool)
  /-- BODY_STAGING_WRITE (R241): The TD writes packet body bytes into staged cells as they arrive per lane. -/
  | bodyStagingWrite (id upto : Nat)
  /-- DISCARD_NOTICE (R241): A discard notice from the FD frees the packet's staged cells. -/
  | discardNotice (id : Nat)
  /-- STAGING_EXPIRE (R241): No descriptor arrives within 64 µs of the last body byte; the staged cells are freed.
    -/
  | stagingExpire (id : Nat)
  /-- ADMISSION_DECISION (R253): On descriptor arrival the QMG decides each copy by pool limit, dynamic threshold
    and WRED, and enqueues admitted copies. -/
  | admissionDecision (id engine : Nat) (ptr : Option Nat)
  /-- QUEUE_STATE_CAPTURE (R262): A write of QMG_QSEL captures the selected VOQ's state as one handshaked capture.
    -/
  | queueStateCapture (fn be val : Nat)
  /-- WRED_SEED_WRITE (R257): A write of QMG_WRED_SEED reseeds every admission engine's generator. -/
  | wredSeedWrite (fn be val : Nat)
  /-- AUDIT_START (R248): A write of start to BPM_AUDIT_CTRL begins an audit at the next turn boundary. -/
  | auditStart (fn be val : Nat)
  /-- AUDIT_DONE (R248): The audit frees unreached cells, counts them and clears BPM_LEAKED. -/
  | auditDone
  /-- DEQUEUE_DECISION (R337): A scheduler engine walks from a port node to a queue, takes its next copy and
    charges the path. -/
  | dequeueDecision (port : Nat) (fault : Option PtrFault) (upset : Option HeadUpset)
  /-- TILE_READ_RETURN (R276): An HBM or reservoir tile read returns and is decoded; lost descriptors are dropped
    with TIER_LOST. -/
  | tileReadReturn (q : Nat) (res : Bool) (tile : Nat) (flips : List (List Byte)) (cxlPoison media : Bool)
  /-- CA_PARITY_ERROR (R306): A channel signals a command/address parity error on a command to a rank, retiring it.
    -/
  | caParityError (stack rank : Nat)
  /-- MIGRATION_DONE (R307): The last slot is copied; the spare takes the ring index and the old rank becomes DOWN
    retired. -/
  | migrationDone (stack : Nat)
  /-- RANK_CE_WINDOW_END (R305): A correctable-count window ends and the rank counts clear. -/
  | rankCeWindowEnd (stack : Nat)
  /-- RANK_ENABLE (R311): An enable written to HBC_RANK_LC_r starts a pattern test of a DOWN retired rank, or sets
    pend_up. -/
  | rankEnable (fn be stack rank : Nat)
  /-- RANK_DISABLE (R311): A disable written to HBC_RANK_LC_r retires a spare or a ring rank, or is refused with
    NO_SPARE. -/
  | rankDisable (fn be stack rank : Nat)
  /-- RANK_TEST_DONE (R311): A rank's pattern test ends; it becomes a spare or returns to DOWN. -/
  | rankTestDone (stack rank : Nat) (pass : Bool)
  /-- HBM_PATROL_VISIT (R304): The table-partition patrol decodes a stripe and reports uncorrectable ones. -/
  | hbmPatrolVisit (stack stripe : Nat) (flips : List (List Byte))
  /-- SRAM_PATROL_VISIT (R317): The SRAM patrol reads a SECDED word, reports errors and rewrites correctable
    state-unit words. -/
  | sramPatrolVisit (kind unit addr : Nat) (uncorrectable : Bool) (holds : WordUse)
  /-- PATROL_RECORD_DELIVER (R319): A patrol record is written by DMA into the host ring, or counted lost when the
    ring is full. -/
  | patrolRecordDeliver
  /-- HBM_TEMP_BAND_CHANGE (R272): A stack crosses a temperature band edge and firmware writes the new delay set.
    -/
  | hbmTempBandChange (stack band : Nat)
  /-- HBM_DELAY_APPLY (R272): A controller applies a new delay set to a channel at its next refresh. -/
  | hbmDelayApply (stack : Nat)
  /-- HBM_MAP_WRITE (R268): A write to HBC_MAP.grain is applied or refused by the partition rule. -/
  | hbmMapWrite (fn be val : Nat)
  /-- HBM_PART_WRITE (R268): A write to HBC_PART.table_pages is applied or refused by the partition rule. -/
  | hbmPartWrite (fn be val : Nat)
  /-- DIAG_READ_RAW (R323): MIF_DIAG_CTRL op READ_RAW reads a word or stripe uncorrected into the host buffer. -/
  | diagReadRaw (fn be val : Nat) (raw : List Byte)
  /-- DIAG_WRITE_RAW (R323): MIF_DIAG_CTRL op WRITE_RAW writes data and check bits exactly as given. -/
  | diagWriteRaw (fn be val : Nat) (buf : List Byte)
  /-- DIAG_WRITE_ENCODED (R323): MIF_DIAG_CTRL op WRITE_ENCODED writes data with correct check bits, clearing
    poison. -/
  | diagWriteEncoded (fn be val : Nat) (buf : List Byte)
  /-- DIAG_DONE (R323): A diagnostic operation completes and MIF_DIAG_STATUS reports done and the verdict. -/
  | diagDone
  /-- RSV_PORT_ENABLE (R284): An enable of RSV_PORT_LC_n trains the CXL link and starts the background fill. -/
  | rsvPortEnable (fn be n : Nat)
  /-- RSV_PORT_DISABLE (R284): A disable of RSV_PORT_LC_n puts the port into DRAINING. -/
  | rsvPortDisable (fn be n : Nat)
  /-- RSV_PORT_FILL_DONE (R284): The background fill ends; the port becomes UP and its pages join the free list. -/
  | rsvPortFillDone (n : Nat)
  /-- RSV_PORT_DRAIN_DONE (R284): A draining reservoir port holds no page in use and becomes DOWN. -/
  | rsvPortDrainDone (n : Nat)
  /-- RSV_PORT_LOSS (R288): A reservoir port loses its link or reports a media failure; its pages are declared
    lost. -/
  | rsvPortLoss (n : Nat)
  /-- RESERVOIR_PAGE_COPY (R286): A queue's 64 full staging pages are copied into one reservoir page and freed. -/
  | reservoirPageCopy (q : Nat)
  /-- HOLD_DEST (R291): Command HOLD_DEST schedules a hold on an entry or applies the lifecycle rule to it. -/
  | holdDest (c : Cmd) (entry device : Nat) (portOk : Bool) (port tcMask limit turn : Nat)
  /-- HOLD_DEST_CANCEL (R291): HOLD_DEST with cancel set withdraws a scheduled hold. -/
  | holdDestCancel (c : Cmd) (entry : Nat)
  /-- RELEASE_DEST (R291): Command RELEASE_DEST schedules the release of a hold entry. -/
  | releaseDest (c : Cmd) (entry turn rate : Nat)
  /-- RELEASE_DEST_CANCEL (R291): RELEASE_DEST with cancel set withdraws a scheduled release. -/
  | releaseDestCancel (c : Cmd) (entry : Nat)
  /-- SHAPER_REFILL (R344): At a level's refill instant each bucket gains rate × I / 8 bytes, capped at its burst.
    -/
  | shaperRefill (level : Nat)
  /-- VOQ_VISIT (R342): The VOQ selector visits a ready VOQ and sends its head copies up to 2 KiB or its credit. -/
  | voqVisit (v : VoqTurn)
  /-- QUEUE_ENABLE (R334): An enable written to SCH_LC starts the selected queue, UP at the next turn boundary. -/
  | queueEnable (fn be : Nat)
  /-- QUEUE_DISABLE (R334): A disable written to SCH_LC puts the selected queue into DRAINING. -/
  | queueDisable (fn be : Nat)
  /-- QUEUE_DISABLE_FLUSH (R334): A disable with flush releases the queue's copies at dequeue without transmission.
    -/
  | queueDisableFlush (fn be : Nat)
  /-- QUEUE_DRAIN_DONE (R334): A draining queue holds no copy in any tier and becomes DOWN. -/
  | queueDrainDone (q : Nat)
  /-- QUEUE_LC_SELECT (R354): A write of SCH_LC_SEL captures the selected queue's lifecycle state into SCH_LC. -/
  | queueLcSelect (fn be val : Nat)
  /-- NODE_STATE_CAPTURE (R354): A write of SCH_NSEL captures the selected node's state and credits. -/
  | nodeStateCapture (fn be val : Nat)
  /-- REFILL_INTERVAL_WRITE (R353): A write of the refill intervals in SCH_CFG is applied only while no port node
    is attached to an UP port. -/
  | refillIntervalWrite (fn be val : Nat)
  /-- LINK_ENABLE (R357): An enable of FAB_LINK_LC_l starts training, FEC lock and the hello exchange. -/
  | linkEnable (fn be l : Nat)
  /-- LINK_DISABLE (R357): A disable of FAB_LINK_LC_l removes the link from the spray sets and drains it. -/
  | linkDisable (fn be l : Nat)
  /-- LINK_DRAIN_DONE (R357): A draining link's transmit queue is sent or moved and the link becomes DOWN. -/
  | linkDrainDone (l : Nat)
  /-- LANE_MARKER_CHECK (R356): A lane marker is found or missed at its place, acquiring or losing FEC lock after
    three. -/
  | laneMarkerCheck (l : Nat) (slot : List Byte)
  /-- HELLO_SEND (R358): A link sends a hello, every 2 µs in STARTING and every 10 µs while UP. -/
  | helloSend (l : Nat)
  /-- HELLO_RECEIVE (R377): A received hello recovers credit totals and can take the link to UP or flag a mismatch.
    -/
  | helloReceive (l : Nat)
  /-- HELLO_TIMEOUT (R382): No hello for 50 µs while UP isolates the link. -/
  | helloTimeout (l : Nat)
  /-- CELL_TRANSMIT (R362): A link slot comes up and the transmitter closes and sends a cell, a control cell or an
    idle cell. -/
  | cellTransmit (l : Nat)
  /-- CELL_RECEIVE (R367): A received cell is checked, its credits honoured, and it is written into its stream,
    relayed or discarded. -/
  | cellReceive (l : Nat) (bytes : List Byte) (fec : Bool)
  /-- REORDER_GAP_TIMEOUT (R368): A gap unfilled for the reorder timeout is declared lost and affected copies are
    dropped. -/
  | reorderGapTimeout (src : Nat) (ctl : Bool)
  /-- REASSEMBLY_DELIVER (R367): A copy whose bytes and predecessors are all present passes from the stream to
    egress queueing. -/
  | reassemblyDeliver (src : Nat) (d : Delivery)
  /-- EXCHANGE_SET_SEND (R370): Every 2 µs a device sends each reachable device an exchange set with its tag
    report, requests and grants. -/
  | exchangeSetSend (d : Nat)
  /-- EXCHANGE_SET_RECEIVE (R370): A received exchange set updates demand, returned credit and VOQ credit balances.
    -/
  | exchangeSetReceive (src : Nat)
  /-- TAG_REPORT_APPLY (R87): A tag report is applied once every cell the sender sent before it has been
    reassembled or lost. -/
  | tagReportApply (src : Nat)
  /-- CREDIT_GENERATE (R371): A port's credit generator makes a unit and grants it to a (source, class) pair with
    demand. -/
  | creditGenerate (port : Nat)
  /-- VOQ_CREDIT_RETURN (R369): A VOQ holding no copy for 8 µs returns its whole credit units. -/
  | voqCreditReturn (q : Nat)
  /-- GRANT_FORGIVE (R371): Grants unused 16 µs after the source became unreachable leave the outstanding count. -/
  | grantForgive (src : Nat)
  /-- REACH_RECEIVE (R373): A reachability message updates which devices a link reaches and their feature bits. -/
  | reachReceive (l : Nat)
  /-- REACH_LAPSE (R373): Three periods without a message lapse a link's reachability, possibly making devices
    unreachable. -/
  | reachLapse (l : Nat)
  /-- LINK_STATUS_SEND (R381): Every 10 µs an UP link sends its discard count and counters to its peer. -/
  | linkStatusSend (l : Nat)
  /-- LINK_STATUS_RECEIVE (R381): A received link status raises TEC by the peer's reported discards. -/
  | linkStatusReceive (l : Nat)
  /-- LINK_RECOVER (R382): A degraded link below the recovery level for recover_ms returns to carrying data. -/
  | linkRecover (l : Nat)
  /-- LINK_AUTO_RESTART (R382): With auto_restart set, the device enables an isolated link 100 ms after it became
    DOWN. -/
  | linkAutoRestart (l : Nat)
  /-- REMOTE_RD (R385): Command REMOTE_RD reads registers on another device through the control class. -/
  | remoteRd (c : Cmd) (device count offset result : Nat)
  /-- REMOTE_WR (R385): Command REMOTE_WR with kind registers writes registers on another device. -/
  | remoteWr (c : Cmd) (device count offset param : Nat) (data : List Byte)
  /-- REMOTE_WR_COMMAND (R385): Command REMOTE_WR with kind command runs a command on another device's command
    engine. -/
  | remoteWrCommand (c : Cmd) (device param result : Nat) (desc : List Byte)
  /-- REMOTE_REQ_RECEIVE (R386): A target checks a REMOTE_REQ against its allow list and executes or refuses it. -/
  | remoteReqReceive
  /-- REMOTE_RSP_RECEIVE (R387): A REMOTE_RSP completes its request, or is discarded as late. -/
  | remoteRspReceive
  /-- REMOTE_TIMEOUT (R387): No response within the remote timeout completes the request PEER_UNAVAILABLE. -/
  | remoteTimeout (id : Nat)
  /-- LATE_ERR_RECEIVE (R445): A LATE_ERR message makes a late-error entry tagged with the remote device. -/
  | lateErrReceive
  /-- LEVEL_SEND (R531): Every 100 ms, and within 1 ms of an activation, a device sends its level announcement. -/
  | levelSend
  /-- LEVEL_RECEIVE (R531): A received level announcement records a known peer and its accepted range. -/
  | levelReceive
  /-- PEER_FORGET (R531): A peer silent for forget_s seconds stops being a known peer. -/
  | peerForget (peer : Nat)
  /-- DICE_ARM (R392): A write of arm to DICE_CTRL schedules a Dice window in a scheduler slot. -/
  | diceArm (fn be unit val : Nat)
  /-- DICE_CANCEL (R392): A write of cancel to DICE_CTRL withdraws a scheduled Dice window. -/
  | diceCancel (fn be : Nat) (w : DiceWrite)
  /-- PORT_ENABLE (R400): An enable of LIF_PORT_LC_p trains the port's SerDes and acquires lock. -/
  | portEnable (fn be p : Nat)
  /-- PORT_DISABLE (R400): A disable of LIF_PORT_LC_p puts the port into DRAINING and flushes its egress queues. -/
  | portDisable (fn be p : Nat)
  /-- PORT_DRAIN_DONE (R400): A draining port's queues and FD egress path are empty; it becomes DOWN or restarts
    under pend_up. -/
  | portDrainDone (p : Nat)
  /-- LINE_LINK_UP (R401): A port's PCS, FEC or OTN alignment conditions are met and its link comes up. -/
  | lineLinkUp (p : Nat)
  /-- LINE_LINK_DOWN (R401): A port's link goes down and the MAC discards packets handed to it. -/
  | lineLinkDown (p : Nat) (lock fec hiSer : Bool)
  /-- FRAME_TRANSMIT (R405): The MAC sends a packet once it, or 2,048 bytes under cut-through, is present. -/
  | frameTransmit (id : Nat) (begun : Bool) (underrun : Option Nat)
  /-- TS_FIFO_POP (R410): A full read of LIF_TS_POP_p pops the oldest timestamp entry into the capture registers.
    -/
  | tsFifoPop (fn be p : Nat)
  /-- OTN_FRAME_RECEIVE (R414): An OTUC frame is received; FAS, MFAS, BIP, BEI and overhead are processed. -/
  | otnFrameReceive (slice : Nat) (frame : OtnFrame)
  /-- OTN_DEFECT_TIMER (R414): A 3 ms persistence timer declares or clears dLOF, dLOM or dLOL. -/
  | otnDefectTimer (slice : Nat)
  /-- GMP_JC_PERIOD (R418): A tributary slot multiframe's justification control is applied or counted as an error.
    -/
  | gmpJcPeriod (slot : Nat) (transmit good : Bool) (cm : Nat)
  /-- CLIENT_FRAME_DEMAP (R421): A client frame is extracted from its ODUflex by GFP-F or IMP and handed to the
    pipeline. -/
  | clientFrameDemap (client : Nat) (gfp : GfpHead) (bytes : List Byte) (arrived : Nat) (fcsOk : Bool)
  /-- CM_PAGE_WRITE (R422): A write to OTN_CM_A_g or OTN_CM_B_g is accepted on the standby page or refused
    PAGE_LOCKED. -/
  | cmPageWrite (fn be page slot val : Nat)
  /-- TSI_SWAP_ARM (R423): A write of arm to OTN_TSI_CTRL checks the standby page and schedules a swap. -/
  | tsiSwapArm (fn be val : Nat)
  /-- TSI_SWAP_CANCEL (R423): A write of cancel to OTN_TSI_CTRL withdraws a scheduled swap. -/
  | tsiSwapCancel (fn be val : Nat)
  /-- TSI_PORT_PAGE_CHANGE (R424): An UP OTN port changes page at its multiframe boundary; the last one flips the
    active page. -/
  | tsiPortPageChange (p : Nat)
  /-- TBS_CTRL_WRITE (R45): A write to TBS_CTRL changes the time source, restarting the lock count or going to
    FREE. -/
  | tbsCtrlWrite (fn be val : Nat)
  /-- TOD_ARM (R37): A write of TBS_TOD_NEXT_SEC_HI arms the seconds value for the next pulse. -/
  | todArm (fn be val : Nat) (low : Option Nat)
  /-- PPS_PULSE (R37): A TIME_1PPS_IN edge applies an armed time of day or measures and slews the offset. -/
  | ppsPulse (offset : Int)
  /-- SERVO_OFFSET_WRITE (R44): A write of TBS_SERVO_OFFSET is a PTP measurement that drives the turn state. -/
  | servoOffsetWrite (fn be val : Nat)
  /-- PHASE_ADJUST (R38): A write of TBS_PHASE_ADJ starts a clamped slew spread over 1 s. -/
  | phaseAdjust (fn be val : Nat)
  /-- TIME_STEP (R39): A write of TBS_STEP_HI steps system time while FREE, or sets step_refused. -/
  | timeStep (fn be val : Nat) (low : Option Nat)
  /-- TURN_LENGTH_WRITE (R42): A write of TBS_TURN_LEN_LOG2 renumbers turns when its conditions hold, or sets
    t_write_refused. -/
  | turnLengthWrite (fn be val : Nat)
  /-- MEASUREMENT_TIMEOUT (R44): No measurement for 2 s moves a LOCKED time base to LOCKING. -/
  | measurementTimeout
  /-- UNLOCK_TIMEOUT (R44): No measurement within ±1 µs for unlock_timeout moves a LOCKING time base to FREE. -/
  | unlockTimeout
  /-- TURN_BOUNDARY (R50): A turn boundary passes and the scheduled events for the new turn fire in table order. -/
  | turnBoundary (causes : List (Nat × Nat))
  /-- TIME_CAPTURE (R55): A write of go to TBS_CAPTURE captures time, turn and fraction at one instant. -/
  | timeCapture (fn be val : Nat)
  /-- CLKMON_PERIOD_END (R57): A clock monitor period ends and each source's count is judged against its window. -/
  | clkmonPeriodEnd (ref0 ref1 tref xtal : Int)
  /-- CLKMON_SELECT (R60): A write of TBS_CLKMON_SEL switches the SerDes reference or returns the time base to
    TIME_REF_IN. -/
  | clkmonSelect (fn be val : Nat)
  /-- FMEAS_START (R65): A write of start to TBS_FMEAS_CTRL begins a frequency measurement gate. -/
  | fmeasStart (fn be val : Nat)
  /-- FMEAS_GATE_END (R65): The measurement gate ends and the count pair is updated, or error is set. -/
  | fmeasGateEnd (count : Nat) (stopped : Bool)
  /-- CLOCK_ENABLE_WRITE (R63): A write of GLB_CLKEN changes block clock enables, refusing bits that break the
    rules. -/
  | clockEnableWrite (fn be val : Nat)
  /-- CLOCK_STATUS_SETTLE (R61): GLB_CLKSTAT follows GLB_CLKEN within 1 µs as the block clock starts or stops. -/
  | clockStatusSettle
  /-- RECIPE_LOAD (R77): Command RECIPE_LOAD starts loading an image into a version slot. -/
  | recipeLoad (c : Cmd) (slot source store entry addr length : Nat)
  /-- RECIPE_FETCH_DONE (R72): The whole image has been fetched and is checked in order. -/
  | recipeFetchDone (slot : Nat) (fetched : Image)
  /-- RECIPE_AUTH_FAIL_COMPLETE (R73): 250 ms after the last byte, a load that failed authentication completes
    INVALID. -/
  | recipeAuthFailComplete (slot : Nat)
  /-- RECIPE_SLOT_READY (R75): The slot's programs are resident in all pipelines and it becomes READY. -/
  | recipeSlotReady (slot : Nat)
  /-- RECIPE_STORE_WRITE_DONE (R77): The background flash write of a stored Recipe ends and the entry becomes
    valid. -/
  | recipeStoreWriteDone (entry : Nat)
  /-- RECIPE_ACTIVATE (R81): Command RECIPE_ACTIVATE schedules a slot's activation and reserves capacity. -/
  | recipeActivate (c : Cmd) (slot turn : Nat)
  /-- RECIPE_ACTIVATE_CANCEL (R82): RECIPE_ACTIVATE with cancel set withdraws a scheduled activation. -/
  | recipeActivateCancel (c : Cmd) (slot : Nat)
  /-- RECIPE_SLOT_RELEASE (R86): The release conditions hold and a RETIRING slot becomes EMPTY. -/
  | recipeSlotRelease
  /-- RECIPE_AUTOSTART (R89): At stage 4 firmware loads and activates the boot entry into slot A. -/
  | recipeAutostart
  /-- MIN_SERIAL_WRITE (R90): A write of FWS_RCP_MIN_SERIAL_HI raises the minimum serial, or is ignored if lower.
    -/
  | minSerialWrite (fn be val : Nat) (low : Option Nat)
  /-- RECIPE_BOOT_WRITE (R92): A write of FWS_RCP_BOOT sets the boot entry and autostart, or is ignored and logged.
    -/
  | recipeBootWrite (fn be val : Nat)
  /-- REPLAY_START (R233): A write of start to TXF_RPL_CTRL begins fetching replay records. -/
  | replayStart (fn be val : Nat)
  /-- REPLAY_TAIL_WRITE (R233): A write of TXF_RPL_TAIL tells the injector more records are available. -/
  | replayTailWrite (fn be val : Nat)
  /-- REPLAY_RECORD_FETCH (R233): The injector fetches a record and discards it on stamp-order or port errors. -/
  | replayRecordFetch (data : List Byte)
  /-- REPLAY_RECORD_RELEASE (R233): System time reaches a record's offset stamp and the packet enters its port
    FIFO. -/
  | replayRecordRelease
  /-- REGISTER_WRITE (R433): A register write with no behaviour of its own is checked and merged, or dropped and
    logged. -/
  | registerWrite (fn bar addr be val : Nat) (high : Option Nat)
  /-- REGISTER_READ_CLEAR (R432): A full read of an RC register returns its value and clears it. -/
  | registerReadClear (fn bar addr be : Nat)
  /-- PAIR_LOW_READ (R434): A full read of a pair's low word returns it and latches the high word for the function.
    -/
  | pairLowRead (fn addr be : Nat) (wide : Bool)
  /-- PAIR_HIGH_READ (R434): A read of a pair's high word returns the latched value and releases the latch. -/
  | pairHighRead (fn addr be : Nat)
  /-- HOST_ACCESS_TIMEOUT (R438): A TD-space access unanswered for 30 µs completes with Completer Abort and
    TIMEOUT. -/
  | hostAccessTimeout (fn addr : Nat) (isRead : Bool)
  /-- FENCE_READ (R444): A full read of HAC_FENCE is held until the function's earlier posted writes have taken
    effect. -/
  | fenceRead (fn be : Nat)
  /-- FENCE_COMPLETE (R444): The last earlier write has taken effect or been logged and the fence read completes.
    -/
  | fenceComplete (fn : Nat)
  /-- RULE_WRITE (R446): A write to an access-rule register increments HAC_RULE_EPOCH and applies to later
    accesses. -/
  | ruleWrite (fn addr be val : Nat)
  /-- COMMAND_TAIL_DOORBELL (R449): A write of a command tail doorbell advances the ring's producer index. -/
  | commandTailDoorbell (fn ring be val : Nat)
  /-- COMPLETION_HEAD_DOORBELL (R449): A write of a completion head doorbell frees consumed completion entries. -/
  | completionHeadDoorbell (fn ring be val : Nat)
  /-- COMMAND_FETCH (R450): The command engine fetches the next descriptor of a ring and checks its header. -/
  | commandFetch (fn ring : Nat) (desc : List Byte) (otherWaits : Bool)
  /-- COMPLETION_POST (R454): A completion is written to the completion ring when it has room, then its MSI-X
    message. -/
  | completionPost (fn ring : Nat)
  /-- REFUSAL_COMPLETE (R457): 5 µs after submission, a PF1 command or read refused on security grounds completes.
    -/
  | refusalComplete
  /-- EVENT_RECORD_DELIVER (R462): An event record is written into the function's event ring, or counted lost when
    full. -/
  | eventRecordDeliver (fn : Nat)
  /-- CRIT_PEND_CLEAR (R461): A PF0 write of 1 to a bit of HAC_CRIT_PEND clears a pending CRIT event. -/
  | critPendClear (fn be val : Nat)
  /-- FUNCTION_LEVEL_RESET (R498): A function-level reset resets the endpoint state of that function only. -/
  | functionLevelReset (fn : Nat)
  /-- COUNTER_SELECT (R469): A write of CNT_SEL captures the selected counter's value and status. -/
  | counterSelect (fn be val : Nat) (poison : Bool)
  /-- COUNTER_WRITE (R470): CNT_OP op WRITE sets the selected counter from CNT_WPKTS and CNT_WBYTES. -/
  | counterWrite (fn be : Nat) (clearWrap : Bool)
  /-- COUNTER_CLEAR (R470): CNT_OP op CLEAR sets the selected counter to zero. -/
  | counterClear (fn be : Nat) (clearWrap : Bool)
  /-- COUNTER_CLEAR_STRIPE (R470): CNT_OP op CLEAR_STRIPE clears the 32 counters of the selected home stripe,
    clearing poison. -/
  | counterClearStripe (fn be : Nat) (clearWrap : Bool)
  /-- SNAP_AT (R477): Command SNAP_AT schedules a counter snapshot for turn N and reserves a buffer. -/
  | snapAt (c : Cmd) (mask turn dest arrMask len : Nat)
  /-- SNAPSHOT_FINAL (R475): The collection window ends and the snapshot becomes final. -/
  | snapshotFinal (buf : Nat)
  /-- SNAPSHOT_WRITE_DONE (R477): The snapshot has been written to dest_addr, the buffer is freed and SNAP_AT
    completes DONE. -/
  | snapshotWriteDone (buf : Nat)
  /-- PMU_EVSEL_WRITE (R483): A write of PMx_EVSEL_i changes the counted event at the next CCLK edge. -/
  | pmuEvselWrite (fn be d k val : Nat)
  /-- PMU_COUNTER_WRITE (R482): A write of a PMU counter pair sets its value and ovf. -/
  | pmuCounterWrite (fn be d k val : Nat) (low : Option Nat)
  /-- SAMPLE_RECORD_DELIVER (R486): A PMU sample record is written by DMA to the sample ring, or counted lost. -/
  | sampleRecordDeliver
  /-- PMU_FREEZE_ARM (R485): PMF_FRZ_CTRL arm with kind 0 schedules a PMU freeze on both dies. -/
  | pmuFreezeArm (fn be val : Nat)
  /-- PMU_RESUME_ARM (R485): PMF_FRZ_CTRL arm with kind 1 schedules a PMU resume. -/
  | pmuResumeArm (fn be val : Nat)
  /-- PMU_FREEZE_CANCEL (R485): PMF_FRZ_CTRL cancel withdraws a scheduled freeze or resume. -/
  | pmuFreezeCancel (fn be val : Nat)
  /-- PMU_FREEZE_FINAL (R485): Every earlier packet has resolved and pmu_final is set on both dies. -/
  | pmuFreezeFinal
  /-- PMU_RUN_WRITE (R485): A write of run = 1 to PMx_CTRL resumes that die's counting at once. -/
  | pmuRunWrite (fn be d val : Nat)
  /-- POR_RELEASE (R551): POR_N rises while power good holds; straps are sampled and stage 1 begins. -/
  | porRelease (recoveryN testMode : Bool) (addr : BitVec 2)
  /-- BROWNOUT (R552): A rail below 92 % for over 2 µs makes an internal power-on reset and sets brownout. -/
  | brownout (rail : Nat)
  /-- POWER_LOSS (R552): VDD_AON is lost and every state of the device is lost. -/
  | powerLoss
  /-- PLL_LOCK (R489): The core and SerDes PLLs lock, ending stage 1 and starting the ROM boot. -/
  | pllLock (banks : FwChecks × FwChecks) (recoveryN : Bool)
  /-- FIRMWARE_RUNNING (R524): Firmware runs on both dies; the boot watchdog stops and stage 2 ends. -/
  | firmwareRunning
  /-- BOOT_WATCHDOG_EXPIRE (R524): The 5 s boot watchdog expires, causing a warm reset and incrementing the expiry
    count. -/
  | bootWatchdogExpire
  /-- MEMORY_FILL_DONE (R320): The SRAM and HBM fills end and MIF_STATUS reports them. -/
  | memoryFillDone (which : Nat) (failed : List (Nat × Nat))
  /-- WARM_RESET_REQUEST (R496): GLB_RESET_CTRL warm with the key makes a warm reset of both dies. -/
  | warmResetRequest (fn be val : Nat)
  /-- TD_RESET_REQUEST (R499): GLB_RESET_CTRL td with the key resets the TD. -/
  | tdResetRequest (fn be val : Nat)
  /-- PERST_ASSERT (R496): PERST# asserts, making a warm reset under perst_full or an endpoint reset otherwise. -/
  | perstAssert
  /-- TD_HEARTBEAT (R499): The TD management complex's 10 ms report reaches the FD. -/
  | tdHeartbeat
  /-- TD_WATCHDOG_EXPIRE (R499): No TD report for 100 ms with td_wd_en set makes the FD reset the TD. -/
  | tdWatchdogExpire
  /-- TD_RESTART_DONE (R500): The TD fills, reloads firmware, rewrites the protected copy and forwarding resumes in
    stage 5. -/
  | tdRestartDone
  /-- BLOCK_RESET (R501): A write of a GLB_BLKRST bit resets one block and advances its epoch, when its condition
    holds. -/
  | blockReset (fn be val : Nat)
  /-- BLOCK_RESET_DONE (R501): The reset block is ready and its GLB_BLKRST bit clears. -/
  | blockResetDone
  /-- I2C_WARM_RESET_REQUEST (R558): An I2C reset request with the warm bit and key makes a warm reset. -/
  | i2cWarmResetRequest (val : Nat)
  /-- I2C_TD_RESET_REQUEST (R558): An I2C reset request with the TD bit and key resets the TD. -/
  | i2cTdResetRequest (val : Nat)
  /-- I2C_BROWNOUT_CLEAR (R558): An I2C write of 1 in bit 16 of GLB_PWR_STATUS clears brownout. -/
  | i2cBrownoutClear (val : Nat)
  /-- FW_CRUMB (R527): Command FW_CRUMB takes one crumb into staging. -/
  | fwCrumb (c : Cmd) (addr : Nat) (bytes : List Byte)
  /-- FW_CRUMB_RESTART (R527): FW_CRUMB with restart set empties staging before taking the crumb. -/
  | fwCrumbRestart (c : Cmd) (addr : Nat) (bytes : List Byte)
  /-- INBAND_CRUMB_RECEIVE (R528): A punted packet holding a crumb is taken into staging by the management cores.
    -/
  | inbandCrumbReceive (payload : List Byte)
  /-- FW_VERIFY_QUERY (R529): FW_VERIFY with query set writes the crumb bitmap and the missing count. -/
  | fwVerifyQuery (c : Cmd) (dest : Nat)
  /-- FW_VERIFY (R529): Command FW_VERIFY starts checking the staged image for writing to the standby bank. -/
  | fwVerify (c : Cmd)
  /-- FW_VERIFY_AUTH_FAIL (R529): 3 s after acceptance, an image that failed authentication completes INVALID. -/
  | fwVerifyAuthFail
  /-- FW_BANK_WRITE_DONE (R529): The verified image has been written and read back; the bank is STAGED and
    FW_VERIFY completes DONE. -/
  | fwBankWriteDone
  /-- FW_ACTIVATE (R532): Command FW_ACTIVATE schedules the staged bank's activation for a turn. -/
  | fwActivate (c : Cmd) (turn : Nat)
  /-- FW_ACTIVATE_CANCEL (R532): FW_ACTIVATE with cancel set withdraws a scheduled activation. -/
  | fwActivateCancel (c : Cmd)
  /-- FW_SHADOW_READY (R533): The shadow microcode copies of every stage and queue engine have been written. -/
  | fwShadowReady
  /-- DATA_PATH_PAUSE_END (R535): Every stage and queue engine is on its new copy and the data path resumes. -/
  | dataPathPauseEnd
  /-- FW_MGMT_RESUME (R534): The management cores resume under the new image, the journal is updated and
    FW_ACTIVATE completes DONE. -/
  | fwMgmtResume
  /-- FW_REVERT (R536): Command FW_REVERT schedules activation of the PREVIOUS bank. -/
  | fwRevert (c : Cmd) (turn : Nat)
  /-- FW_REVERT_CANCEL (R536): FW_REVERT with cancel set withdraws a scheduled revert. -/
  | fwRevertCancel (c : Cmd)
  /-- ARB_RAISE (R518): A keyed write of FWS_ARB_RAISE blows anti-rollback fuses up to the value. -/
  | arbRaise (fn be val : Nat)
  /-- KEY_PROGRAM (R519): A keyed write of FWS_KEY_CTRL with program blows a customer key hash into an unprogrammed
    slot. -/
  | keyProgram (fn be val : Nat) (hash : List Byte)
  /-- KEY_REVOKE (R519): A keyed write of FWS_KEY_CTRL with revoke blows a slot's revocation bit. -/
  | keyRevoke (fn be val : Nat)
  /-- FUSE_OPERATION_DONE (R519): A fuse operation ends, busy clears and an INFO event is raised. -/
  | fuseOperationDone
  /-- RECOVERY_GO (R539): A write of go to FWS_REC_CTRL takes the window's crumbs into staging. -/
  | recoveryGo (fn be val : Nat) (window : List Byte)
  /-- RECOVERY_VERIFY (R539): A write of verify to FWS_REC_CTRL checks the staged image and starts writing a bank.
    -/
  | recoveryVerify (fn be val : Nat) (checks : FwChecks)
  /-- RECOVERY_VERIFY_DONE (R539): The recovery bank write ends DONE, or INVALID after 3 s, and last_status is set.
    -/
  | recoveryVerifyDone
  /-- RECOVERY_REBOOT (R539): A write of reboot to FWS_REC_CTRL makes a warm reset. -/
  | recoveryReboot (fn be val : Nat)
  /-- MGMT_CRUMB_FRAME (R540): A recovery CRUMB frame on the management port delivers one crumb. -/
  | mgmtCrumbFrame (bytes : List Byte)
  /-- MGMT_QUERY_FRAME (R540): A recovery QUERY frame is answered with the crumb count and bitmap. -/
  | mgmtQueryFrame (bytes : List Byte)
  /-- MGMT_VERIFY_FRAME (R540): A recovery VERIFY frame verifies and writes a bank and replies with last_status. -/
  | mgmtVerifyFrame (bytes : List Byte) (checks : FwChecks)
  /-- MGMT_REBOOT_FRAME (R540): A recovery REBOOT frame makes a warm reset. -/
  | mgmtRebootFrame (bytes : List Byte)
  /-- BOOT_CONFIG_STORE (R542): A write of store to FWS_BCFG_CTRL fetches and checks the boot configuration record.
    -/
  | bootConfigStore (fn be val : Nat) (record : List Byte)
  /-- BOOT_CONFIG_STORE_DONE (R542): The record is written to the journal with done set, or refused with error. -/
  | bootConfigStoreDone
  /-- SENSOR_UPDATE (R560): Every 1 ms the sensors update and warn or crit events are raised on crossings. -/
  | sensorUpdate (temps : List Int) (rails : List Nat)
  /-- THERMAL_TRIP (R561): A sensor reaches the trip level; THERMTRIP_N latches low and the clocks and transmitters
    stop. -/
  | thermalTrip (temps : List Int)
  /-- LED_FRAME_SHIFT (R556): Every 10 ms firmware shifts the 256-bit port LED frame out on LED_DATA. -/
  | ledFrameShift
  /-- CALIBRATION_USER_WRITE (R563): A write of a calibration user word updates the effective word within 1 µs. -/
  | calibrationUserWrite (fn be k val : Nat)
  /-- EXM_OVERLAP_CLOSE (R150): No packet tagged before C can still look up an exact-match table, so its old-only
    slots are freed and its new-only slots become always. -/
  | exmOverlapClose (t : Nat)
  /-- CXL_LINK_TRAINING_DONE (R284): A STARTING reservoir port's CXL link finishes training, and the port either
    reads the device's identity and capacity and starts its fill, or stays DOWN on a link narrower or slower than
    x4 at 32 GT/s. -/
  | cxlLinkTrainingDone (n : Nat) (usable x4 gt32 : Bool) (pages : Nat)
  /-- PERST_RELEASE (R427): PERST# is released, ending the endpoint reset, and the endpoint answers configuration
    requests from 100 ms later. -/
  | perstRelease
  /-- RAIL_RECOVERY (R552): After a brownout, the sagging rail recovers above 92 % of nominal and the device begins
    again at stage 1. -/
  | railRecovery
  /-- STAGED_IMAGE_CHECK_DONE (R529): The check of an accepted FW_VERIFY ends, so the standby bank becomes WRITING
    and its write begins, or the command completes INCOMPATIBLE for the vendor library range. -/
  | stagedImageCheckDone (checks : FwChecks)
  deriving DecidableEq, Repr

end Sys2Proof
end

