-- ==== Sys2Proof/Decode.lean ====
section
/-!
DEFINITION. Decode.lean: the commands that a word spells. spec/opcode_table.json gives none of its rows bits or fields (the
rows are accesses, descriptors, events and messages of the block, with no common encoding), so no word spells a command.
-/

namespace Sys2Proof

/-- The command spelt by the `nbits` low bits of `w`, numbered as spec/opcode_table.json numbers them: none, as no row of the
table gives bits. -/
def decodeTableWord (_nbits _w : Nat) : Option Instr := none

end Sys2Proof
end

