-- ==== Sys2Proof/Machine/RegTypes.lean ====
section
/-!
DEFINITION. Machine/RegTypes.lean: what a register, a field and a register table are (R11, R12, R431, R433, R434).
-/

namespace Sys2Proof.Machine

/-- A field of a register: the register's byte address, the field's lowest bit and its width. -/
structure Fld where
  addr  : Nat
  lsb   : Nat
  width : Nat
  deriving DecidableEq, Repr

/-- The access codes of R11. -/
inductive Access where
  | ro | rw | w1c | w1s | rc | wo | rws
  deriving DecidableEq, Repr

/-- A row of a register table: a field, its access code and its reset value. -/
structure FieldDesc where
  lsb   : Nat
  width : Nat
  acc   : Access
  reset : Nat
  deriving DecidableEq, Repr

/-- Whether a register is one word of a documented 64-bit pair (R434). -/
inductive PairRole where
  | single | low | high
  deriving DecidableEq, Repr

/-- One index of an indexed register: the bytes between neighbours, the first index and how many there are. -/
structure Stride where
  bytes : Nat
  first : Nat
  count : Nat
  deriving DecidableEq, Repr

/-- A register of a block, or a family of indexed registers: offset in the block, its indices (widest stride first),
whether it is a trigger register (R433), its part in a pair, and its fields. Bits in no field are reserved: they read
as zero and ignore writes (R12). -/
structure RegDesc where
  off     : Nat
  idx     : List Stride
  trigger : Bool
  pair    : PairRole
  fields  : List FieldDesc
  deriving DecidableEq, Repr

end Sys2Proof.Machine
end

