-- ==== Sys2Proof/Machine/Bits.lean ====
section
/-!
DEFINITION. Machine/Bits.lean: byte orders, bit fields of words, two's complement, and the sparse lists that hold tables,
buffers and registers. Structures in host memory are little-endian, wire formats most significant byte first (R10).
-/

namespace Sys2Proof.Machine

/-- The `n` low bytes of `v`, least significant first (R10, host memory). -/
def leBytes : Nat → Nat → List Byte
  | 0, _ => []
  | n + 1, v => BitVec.ofNat 8 v :: leBytes n (v / 256)

/-- The `n` low bytes of `v`, most significant first (R10, wire formats). -/
def beBytes (n v : Nat) : List Byte := (leBytes n v).reverse

/-- The number that bytes spell, least significant first. -/
def leNat : List Byte → Nat
  | [] => 0
  | b :: bs => b.toNat + 256 * leNat bs

/-- The number that bytes spell, most significant first. -/
def beNat (bs : List Byte) : Nat := leNat bs.reverse

/-- Byte `i` of a list; 0 beyond its end. -/
def byteAt (bs : List Byte) (i : Nat) : Nat := (bs.getD i 0).toNat

/-- `n` bytes from offset `o`, as far as the list goes. -/
def slice (bs : List Byte) (o n : Nat) : List Byte := (bs.drop o).take n

/-- `n` bytes from offset `o` as a little-endian number. -/
def leAt (bs : List Byte) (o n : Nat) : Nat := leNat (slice bs o n)

/-- `n` bytes from offset `o` as a big-endian number. -/
def beAt (bs : List Byte) (o n : Nat) : Nat := beNat (slice bs o n)

/-- A list of bytes with `new` written over it from offset `o`; bytes beyond the end are zero before the write. -/
def overlay (bs : List Byte) (o : Nat) (new : List Byte) : List Byte :=
  let padded := bs ++ List.replicate (o + new.length - bs.length) 0
  padded.take o ++ new ++ padded.drop (o + new.length)

/-- A `w`-bit number read as two's complement. -/
def signedOf (w n : Nat) : Int :=
  let m := n % 2 ^ w
  if m < 2 ^ (w - 1) then (m : Int) else (m : Int) - (2 ^ w : Nat)

/-- An integer as a `w`-bit two's complement number. -/
def ofSigned (w : Nat) (x : Int) : Nat := (x % ((2 ^ w : Nat) : Int)).toNat

/-- An integer held to a range. -/
def clampInt (lo hi x : Int) : Int := if x < lo then lo else if hi < x then hi else x

/-- A field of a register word. -/
def wordGet (w : Word) (lsb width : Nat) : Nat := (w >>> lsb).toNat % 2 ^ width

/-- The mask of a field. -/
def wordMask (lsb width : Nat) : Word := BitVec.ofNat 32 ((2 ^ width - 1) * 2 ^ lsb)

/-- A register word with a field replaced; the value is taken modulo the field's width. -/
def wordPut (w : Word) (lsb width v : Nat) : Word :=
  (w &&& ~~~ wordMask lsb width) ||| (BitVec.ofNat 32 (v * 2 ^ lsb) &&& wordMask lsb width)

/-- The value at a key of a sparse list, if it is listed. -/
def mget {α : Type} : Sparse α → Nat → Option α
  | [], _ => none
  | (k', v) :: t, k => if k' = k then some v else mget t k

/-- A sparse list without a key. -/
def mdel {α : Type} (m : Sparse α) (k : Nat) : Sparse α := m.filter fun e => e.1 != k

/-- A key and value put in front of the first larger key. -/
def mins {α : Type} : Sparse α → Nat → α → Sparse α
  | [], k, v => [(k, v)]
  | (k', v') :: t, k, v => if k < k' then (k, v) :: (k', v') :: t else (k', v') :: mins t k v

/-- A sparse list with the value of a key set. -/
def mput {α : Type} (m : Sparse α) (k : Nat) (v : α) : Sparse α := mins (mdel m k) k v

/-- The value at a key, the default where it is not listed. -/
def sread {α : Type} (dflt : Nat → α) (m : Sparse α) (k : Nat) : α := (mget m k).getD (dflt k)

/-- A sparse list with the value of a key set; a value equal to the default is not listed. -/
def swrite {α : Type} [DecidableEq α] (dflt : Nat → α) (m : Sparse α) (k : Nat) (v : α) : Sparse α :=
  if v = dflt k then mdel m k else mput m k v

/-- The canonical form of a sparse list: keys strictly rising. -/
def risingKeys {α : Type} : Sparse α → Bool
  | [] => true
  | [_] => true
  | (k, _) :: (k', v') :: t => k < k' && risingKeys ((k', v') :: t)

/-- The canonical form of a sparse list with a default: keys strictly rising and no default listed. -/
def canonical {α : Type} [DecidableEq α] (dflt : Nat → α) (m : Sparse α) : Bool :=
  risingKeys m && m.all fun e => e.2 != dflt e.1

/-- The first index below `n` that a test accepts. -/
def firstIdx (n : Nat) (p : Nat → Bool) : Option Nat := (List.range n).find? p

/-- Whether the lowest `n` bits of a number hold an odd number of ones. -/
def oddBits (n w : Nat) : Bool := (List.range n).foldl (fun b i => b != bitAt w i) false

/-- The number of a set of bits. -/
def bitsWhere (n : Nat) (p : Nat → Bool) : Nat := (List.range n).foldl (fun m i => m + 2 ^ i * bit01 (p i)) 0

/-- A list with its element at an index replaced. -/
def setAt {α : Type} (l : List α) (i : Nat) (v : α) : List α := l.set i v

/-- The elements in rising order of a key, elements of one key in the order they stand in (a stable insertion sort). -/
def sortOn {α : Type} (key : α → Nat) : List α → List α
  | [] => []
  | x :: xs => ins x (sortOn key xs)
where
  ins (x : α) : List α → List α
    | [] => [x]
    | y :: ys => if key x ≤ key y then x :: y :: ys else y :: ins x ys

/-- The sum of a measure over copies. -/
def sumOf {α : Type} (f : α → Nat) (l : List α) : Nat := (l.map f).foldl (· + ·) 0

end Sys2Proof.Machine
end

