-- ==== Sys2Proof/Machine/Crc.lean ====
section
/-!
DEFINITION. Machine/Crc.lean: the CRC-32C of R144 and the ones' complement checksum arithmetic of R95, R181 and R567.
-/

namespace Sys2Proof.Machine

/-- One bit of the reflected CRC-32C (polynomial 0x1EDC_6F41, reflected 0x82F6_3B78). -/
def crcBit (c : Nat) : Nat := if c % 2 = 1 then (c / 2) ^^^ 0x82F63B78 else c / 2

/-- One byte of the CRC-32C. -/
def crcByte (c b : Nat) : Nat :=
  crcBit (crcBit (crcBit (crcBit (crcBit (crcBit (crcBit (crcBit (c ^^^ b))))))))

/-- The CRC-32C of bytes: initial value and final XOR 0xFFFF_FFFF (R144). -/
def crc32c (bs : List Byte) : Nat := (bs.foldl (fun c b => crcByte c b.toNat) 0xFFFFFFFF) ^^^ 0xFFFFFFFF

/-- A sum folded into 16 bits with end-around carry. -/
def fold16 (n : Nat) : Nat :=
  let a := n % 65536 + n / 65536
  let b := a % 65536 + a / 65536
  b % 65536 + b / 65536

/-- The sum of bytes as 16-bit words, most significant byte first, an odd last byte padded with zero. -/
def sum16 : List Byte → Nat
  | [] => 0
  | [a] => a.toNat * 256
  | a :: b :: t => a.toNat * 256 + b.toNat + sum16 t

/-- Whether a header's 16-bit ones' complement sum is that of a correct checksum. -/
def checksumOk (bs : List Byte) : Bool := fold16 (sum16 bs) == 0xFFFF

/-- The checksum updated for the replacement of a 16-bit word by another, as RFC 1624 computes it: ~(~HC + ~m + m'). -/
def rfc1624 (hc old new : Nat) : Nat :=
  if old = new then hc else 0xFFFF - fold16 ((0xFFFF - hc) + (0xFFFF - old) + new)

/-- The checksum updated for the replacement of a 64-bit field, word by word from bit 0 upward (R567). -/
def csum64 (hc a b : Nat) : Nat :=
  (List.range 4).foldl (fun c i => rfc1624 c (bitsAt a (16 * i) 16) (bitsAt b (16 * i) 16)) hc

/-- The frame check sequence of IEEE 802.3, as the four bytes that follow the frame. -/
def fcs32 (bs : List Byte) : Nat :=
  let bit (c : Nat) : Nat := if c % 2 = 1 then (c / 2) ^^^ 0xEDB88320 else c / 2
  let byte (c b : Nat) : Nat := (List.range 8).foldl (fun c _ => bit c) (c ^^^ b)
  (bs.foldl (fun c b => byte c b.toNat) 0xFFFFFFFF) ^^^ 0xFFFFFFFF

end Sys2Proof.Machine
end

