-- ==== Sys2Proof/Config.lean ====
section
/-!
DEFINITION. Config.lean: the constants the spec fixes for the whole device, and the free values: results the spec leaves
open. A free value is an opaque constant applied to a counter of the state (State.freeCtr) or to the operands it depends
on; nothing in Lean can evaluate it, so whatever is proved holds for every value (notes/assumptions/3.md).
-/

namespace Sys2Proof.Config

/-- A free value of one register width, one for every use: applied to the state's counter of uses. -/
opaque freeWord : Nat → BitVec 32

/-- A free natural number, one for every use: applied to the state's counter of uses. -/
opaque freeNat : Nat → Nat

/-- The successor of the 32-bit xorshift generator of an admission engine. R257 names a 32-bit xorshift generator and
does not give its shifts. -/
opaque wredNext : BitVec 32 → BitVec 32

/-- What a vendor operation of the action processor (opcodes 0x20 to 0x3F, R181) computes from its two sources: its
semantics lie in the vendor library, outside the spec. -/
opaque vendorOp : Nat → Nat → Nat → Nat

/-- The new value a FLOW intent writes (R186 gives FLOW no operation): of the old value and the operand. -/
opaque flowNew : Nat → Nat → Nat

/-- The VOQ that a mirror session's copies go to: the spec numbers the sessions 0 to 15 and does not say where one leads. -/
opaque mirrorDest : Nat → Nat

/-- The check bits of a SECDED (72,64) word: R298 names the code and not its matrix. -/
opaque secdedCheck : Nat → Nat

/-- Whether data and check bits that do not agree hold one wrong bit (R316), under that code. -/
opaque secdedSingle : Nat → Nat → Bool

/-- The byte of the trail trace a layer expects, by layer (as in LifSt) and position: R416 compares the accepted trace with the expected
values, and no register of the spec holds them. -/
opaque expectedTrace : Nat → Nat → Nat

/-- The bit at which a Dice corruption begins (R393 draws it at random and does not say how), of the state of the unit's generator: the same
for the same seed, settings and traffic. -/
opaque diceBit : Nat → Nat

/-- Nanoseconds in a second. -/
def nsPerSec : Nat := 1000000000

/-- A write sequence number, an event sequence number: 32 bits. -/
def mod32 : Nat := 2 ^ 32

/-- The patch level that a firmware image's sequencer microcode reports (PPL_UCODE, R201): of the bytes of component 3, whose content the
spec does not give. -/
opaque patchLevel : List (BitVec 8) → Nat

/-- The device's fused MAC address (R540): the spec gives no value. -/
opaque macAddress : Nat

/-- A byte of a record of the reservoir page table (R283): owning queue, successor, packet count, stored bytes, youngest age base, the byte's
place. The spec names what the 32 bytes hold and not where. -/
opaque pageRecord : Nat → Nat → Nat → Nat → Nat → Nat → Nat

/-- The adjustment, a signed byte, that firmware's table adds to a byte of an HBM delay set in a temperature band (R272, R564): of the
stack, the band, the calibration item and the byte. The spec does not give the table. -/
opaque bandAdjust : Nat → Nat → Nat → Nat → BitVec 8

/-- How far a background task has come at an elapsed instant (R296, R326, R543): the fill of reservoir port n (n), the migration of a stack
(8 + stack), the security engine (14). -/
opaque progress : Nat → Nat → Nat

end Sys2Proof.Config
end

