-- ==== Sys2Proof/Machine/Fields.lean ====
section
/-!
DEFINITION. Machine/Fields.lean: the register fields of BAR0 by the names the manual gives them, one definition a
field, written from the register tables of spec/ (R1, R24, R64, R65, R91, R115, R140, R168, R201, R234, R235, R261,
R262, R295 to R297, R325, R326, R354, R396, R397, R425, R426, R464, R487, R488, R513, R543, R565, R566). A register
kept per function stands, for function 1, at its offset plus 2^28, above BAR0 (R464 says such registers return and set
the values of the accessing function). A field of PMx takes the die (0 PMF, 1 PMT), a field of a Dice unit the address
of the unit.
-/

namespace Sys2Proof.Machine


/-- TGL_BRG_STATUS, R24 (01_architecture.md). -/
def R.TGL_BRG_STATUS : Nat := 0x8001000
def R.TGL_BRG_STATUS_grp_up_ft : Fld := ⟨R.TGL_BRG_STATUS, 0, 12⟩
def R.TGL_BRG_STATUS_grp_up_tf : Fld := ⟨R.TGL_BRG_STATUS, 12, 12⟩
def R.TGL_BRG_STATUS_degraded : Fld := ⟨R.TGL_BRG_STATUS, 24, 1⟩

/-- TGL_BRG_RETRY_LO, R24 (01_architecture.md). -/
def R.TGL_BRG_RETRY_LO : Nat := 0x8001010
def R.TGL_BRG_RETRY_LO_retries_lo : Fld := ⟨R.TGL_BRG_RETRY_LO, 0, 32⟩

/-- TGL_BRG_RETRY_HI, R24 (01_architecture.md). -/
def R.TGL_BRG_RETRY_HI : Nat := 0x8001014
def R.TGL_BRG_RETRY_HI_retries_hi : Fld := ⟨R.TGL_BRG_RETRY_HI, 0, 32⟩

/-- TGL_BRG_UNRECOV, R24 (01_architecture.md). -/
def R.TGL_BRG_UNRECOV : Nat := 0x8001018
def R.TGL_BRG_UNRECOV_count : Fld := ⟨R.TGL_BRG_UNRECOV, 0, 32⟩

/-- TGL_BRG_REQUERY, R24 (01_architecture.md). -/
def R.TGL_BRG_REQUERY : Nat := 0x800101c
def R.TGL_BRG_REQUERY_count : Fld := ⟨R.TGL_BRG_REQUERY, 0, 32⟩

/-- TGL_BRG_GRP, R24 (01_architecture.md). -/
def R.TGL_BRG_GRP (g : Nat) : Nat := 0x8001100 + 0x4 * g
def R.TGL_BRG_GRP_spares_used (g : Nat) : Fld := ⟨R.TGL_BRG_GRP g, 0, 2⟩
def R.TGL_BRG_GRP_retired (g : Nat) : Fld := ⟨R.TGL_BRG_GRP g, 2, 1⟩
def R.TGL_BRG_GRP_switches (g : Nat) : Fld := ⟨R.TGL_BRG_GRP g, 16, 16⟩

/-- GLB_CLKEN, R64 (02_system_time_turns_clocks.md). -/
def R.GLB_CLKEN : Nat := 0x10
def R.GLB_CLKEN_glb_tbs_hac_fws : Fld := ⟨R.GLB_CLKEN, 0, 4⟩
def R.GLB_CLKEN_lif_otn_prs_ppl_asm_exm_txf_pmf_mif_dcf : Fld := ⟨R.GLB_CLKEN, 4, 10⟩
def R.GLB_CLKEN_tgl : Fld := ⟨R.GLB_CLKEN, 16, 1⟩
def R.GLB_CLKEN_bpm_hbc_rsv_qmg_sch_fab_cnt_txt_pmt_dct : Fld := ⟨R.GLB_CLKEN, 17, 10⟩

/-- GLB_CLKSTAT, R64 (02_system_time_turns_clocks.md). -/
def R.GLB_CLKSTAT : Nat := 0x14
def R.GLB_CLKSTAT_running : Fld := ⟨R.GLB_CLKSTAT, 0, 32⟩

/-- TBS_CTRL, R65 (02_system_time_turns_clocks.md). -/
def R.TBS_CTRL : Nat := 0x100000
def R.TBS_CTRL_src_sel : Fld := ⟨R.TBS_CTRL, 0, 2⟩
def R.TBS_CTRL_ref_freq : Fld := ⟨R.TBS_CTRL, 2, 1⟩
def R.TBS_CTRL_pps_edge : Fld := ⟨R.TBS_CTRL, 3, 1⟩

/-- TBS_TURN_LEN_LOG2, R65 (02_system_time_turns_clocks.md). -/
def R.TBS_TURN_LEN_LOG2 : Nat := 0x100004
def R.TBS_TURN_LEN_LOG2_t : Fld := ⟨R.TBS_TURN_LEN_LOG2, 0, 5⟩

/-- TBS_TURN_STATUS, R65 (02_system_time_turns_clocks.md). -/
def R.TBS_TURN_STATUS : Nat := 0x100008
def R.TBS_TURN_STATUS_turn_state : Fld := ⟨R.TBS_TURN_STATUS, 0, 2⟩
def R.TBS_TURN_STATUS_holdover : Fld := ⟨R.TBS_TURN_STATUS, 2, 1⟩
def R.TBS_TURN_STATUS_on_osc : Fld := ⟨R.TBS_TURN_STATUS, 3, 1⟩
def R.TBS_TURN_STATUS_no_meas : Fld := ⟨R.TBS_TURN_STATUS, 4, 1⟩
def R.TBS_TURN_STATUS_t_write_refused : Fld := ⟨R.TBS_TURN_STATUS, 8, 1⟩
def R.TBS_TURN_STATUS_tod_mismatch : Fld := ⟨R.TBS_TURN_STATUS, 9, 1⟩
def R.TBS_TURN_STATUS_step_refused : Fld := ⟨R.TBS_TURN_STATUS, 10, 1⟩
def R.TBS_TURN_STATUS_fd_pending : Fld := ⟨R.TBS_TURN_STATUS, 16, 7⟩
def R.TBS_TURN_STATUS_td_pending : Fld := ⟨R.TBS_TURN_STATUS, 23, 7⟩

/-- TBS_LOCK_CFG, R65 (02_system_time_turns_clocks.md). -/
def R.TBS_LOCK_CFG : Nat := 0x10000c
def R.TBS_LOCK_CFG_lock_count : Fld := ⟨R.TBS_LOCK_CFG, 0, 4⟩
def R.TBS_LOCK_CFG_unlock_timeout : Fld := ⟨R.TBS_LOCK_CFG, 8, 8⟩

/-- TBS_TOD_NEXT_SEC_LO, R65 (02_system_time_turns_clocks.md). -/
def R.TBS_TOD_NEXT_SEC_LO : Nat := 0x100010
def R.TBS_TOD_NEXT_SEC_LO_sec_lo : Fld := ⟨R.TBS_TOD_NEXT_SEC_LO, 0, 32⟩

/-- TBS_TOD_NEXT_SEC_HI, R65 (02_system_time_turns_clocks.md). -/
def R.TBS_TOD_NEXT_SEC_HI : Nat := 0x100014
def R.TBS_TOD_NEXT_SEC_HI_sec_hi : Fld := ⟨R.TBS_TOD_NEXT_SEC_HI, 0, 16⟩

/-- TBS_PPS_OFFSET, R65 (02_system_time_turns_clocks.md). -/
def R.TBS_PPS_OFFSET : Nat := 0x100018
def R.TBS_PPS_OFFSET_offset_ns : Fld := ⟨R.TBS_PPS_OFFSET, 0, 32⟩

/-- TBS_SERVO_OFFSET, R65 (02_system_time_turns_clocks.md). -/
def R.TBS_SERVO_OFFSET : Nat := 0x10001c
def R.TBS_SERVO_OFFSET_offset_ns : Fld := ⟨R.TBS_SERVO_OFFSET, 0, 32⟩

/-- TBS_FREQ_ADJ, R65 (02_system_time_turns_clocks.md). -/
def R.TBS_FREQ_ADJ : Nat := 0x100020
def R.TBS_FREQ_ADJ_adj : Fld := ⟨R.TBS_FREQ_ADJ, 0, 32⟩

/-- TBS_PHASE_ADJ, R65 (02_system_time_turns_clocks.md). -/
def R.TBS_PHASE_ADJ : Nat := 0x100024
def R.TBS_PHASE_ADJ_adj_ns : Fld := ⟨R.TBS_PHASE_ADJ, 0, 32⟩

/-- TBS_STEP_LO, R65 (02_system_time_turns_clocks.md). -/
def R.TBS_STEP_LO : Nat := 0x100028
def R.TBS_STEP_LO_step_lo : Fld := ⟨R.TBS_STEP_LO, 0, 32⟩

/-- TBS_STEP_HI, R65 (02_system_time_turns_clocks.md). -/
def R.TBS_STEP_HI : Nat := 0x10002c
def R.TBS_STEP_HI_step_hi : Fld := ⟨R.TBS_STEP_HI, 0, 32⟩

/-- TBS_CAPTURE, R65 (02_system_time_turns_clocks.md). -/
def R.TBS_CAPTURE : Nat := 0x100030
def R.TBS_CAPTURE_go : Fld := ⟨R.TBS_CAPTURE, 0, 1⟩

/-- TBS_CAP_NS, R65 (02_system_time_turns_clocks.md). -/
def R.TBS_CAP_NS : Nat := 0x100034
def R.TBS_CAP_NS_ns : Fld := ⟨R.TBS_CAP_NS, 0, 30⟩
def R.TBS_CAP_NS_valid : Fld := ⟨R.TBS_CAP_NS, 31, 1⟩

/-- TBS_CAP_SEC_LO, R65 (02_system_time_turns_clocks.md). -/
def R.TBS_CAP_SEC_LO : Nat := 0x100038
def R.TBS_CAP_SEC_LO_sec_lo : Fld := ⟨R.TBS_CAP_SEC_LO, 0, 32⟩

/-- TBS_CAP_SEC_HI, R65 (02_system_time_turns_clocks.md). -/
def R.TBS_CAP_SEC_HI : Nat := 0x10003c
def R.TBS_CAP_SEC_HI_sec_hi : Fld := ⟨R.TBS_CAP_SEC_HI, 0, 16⟩
def R.TBS_CAP_SEC_HI_frac : Fld := ⟨R.TBS_CAP_SEC_HI, 16, 16⟩

/-- TBS_CAP_TURN_LO, R65 (02_system_time_turns_clocks.md). -/
def R.TBS_CAP_TURN_LO : Nat := 0x100040
def R.TBS_CAP_TURN_LO_turn_lo : Fld := ⟨R.TBS_CAP_TURN_LO, 0, 32⟩

/-- TBS_CAP_TURN_HI, R65 (02_system_time_turns_clocks.md). -/
def R.TBS_CAP_TURN_HI : Nat := 0x100044
def R.TBS_CAP_TURN_HI_turn_hi : Fld := ⟨R.TBS_CAP_TURN_HI, 0, 32⟩

/-- TBS_SLOT_FD_LO, R65 (02_system_time_turns_clocks.md). -/
def R.TBS_SLOT_FD_LO (s : Nat) : Nat := 0x100100 + 0x10 * s
def R.TBS_SLOT_FD_LO_turn_lo (s : Nat) : Fld := ⟨R.TBS_SLOT_FD_LO s, 0, 32⟩

/-- TBS_SLOT_FD_HI, R65 (02_system_time_turns_clocks.md). -/
def R.TBS_SLOT_FD_HI (s : Nat) : Nat := 0x100104 + 0x10 * s
def R.TBS_SLOT_FD_HI_turn_hi (s : Nat) : Fld := ⟨R.TBS_SLOT_FD_HI s, 0, 32⟩

/-- TBS_SLOT_FD_w2, R65 (02_system_time_turns_clocks.md). -/
def R.TBS_SLOT_FD_w2 (s : Nat) : Nat := 0x100108 + 0x10 * s
def R.TBS_SLOT_FD_w2_valid (s : Nat) : Fld := ⟨R.TBS_SLOT_FD_w2 s, 0, 1⟩
def R.TBS_SLOT_FD_w2_scope (s : Nat) : Fld := ⟨R.TBS_SLOT_FD_w2 s, 1, 1⟩
def R.TBS_SLOT_FD_w2_owner (s : Nat) : Fld := ⟨R.TBS_SLOT_FD_w2 s, 2, 1⟩
def R.TBS_SLOT_FD_w2_kind (s : Nat) : Fld := ⟨R.TBS_SLOT_FD_w2 s, 8, 8⟩
def R.TBS_SLOT_FD_w2_seq (s : Nat) : Fld := ⟨R.TBS_SLOT_FD_w2 s, 24, 8⟩

/-- TBS_SLOT_TD_w0, R65 (02_system_time_turns_clocks.md). -/
def R.TBS_SLOT_TD_w0 (s : Nat) : Nat := 0x100c00 + 0x10 * s
def R.TBS_SLOT_TD_w0_turn_lo (s : Nat) : Fld := ⟨R.TBS_SLOT_TD_w0 s, 0, 32⟩

/-- TBS_SLOT_TD_w1, R65 (02_system_time_turns_clocks.md). -/
def R.TBS_SLOT_TD_w1 (s : Nat) : Nat := 0x100c04 + 0x10 * s
def R.TBS_SLOT_TD_w1_turn_hi (s : Nat) : Fld := ⟨R.TBS_SLOT_TD_w1 s, 0, 32⟩

/-- TBS_SLOT_TD_w2, R65 (02_system_time_turns_clocks.md). -/
def R.TBS_SLOT_TD_w2 (s : Nat) : Nat := 0x100c08 + 0x10 * s
def R.TBS_SLOT_TD_w2_valid (s : Nat) : Fld := ⟨R.TBS_SLOT_TD_w2 s, 0, 1⟩
def R.TBS_SLOT_TD_w2_scope (s : Nat) : Fld := ⟨R.TBS_SLOT_TD_w2 s, 1, 1⟩
def R.TBS_SLOT_TD_w2_owner (s : Nat) : Fld := ⟨R.TBS_SLOT_TD_w2 s, 2, 1⟩
def R.TBS_SLOT_TD_w2_kind (s : Nat) : Fld := ⟨R.TBS_SLOT_TD_w2 s, 8, 8⟩
def R.TBS_SLOT_TD_w2_seq (s : Nat) : Fld := ⟨R.TBS_SLOT_TD_w2 s, 24, 8⟩

/-- TBS_CLKMON_CFG, R65 (02_system_time_turns_clocks.md). -/
def R.TBS_CLKMON_CFG : Nat := 0x100800
def R.TBS_CLKMON_CFG_window_ppm : Fld := ⟨R.TBS_CLKMON_CFG, 0, 10⟩
def R.TBS_CLKMON_CFG_period_ms : Fld := ⟨R.TBS_CLKMON_CFG, 10, 6⟩
def R.TBS_CLKMON_CFG_revert : Fld := ⟨R.TBS_CLKMON_CFG, 16, 1⟩

/-- TBS_CLKMON_STATUS, R65 (02_system_time_turns_clocks.md). -/
def R.TBS_CLKMON_STATUS : Nat := 0x100804
def R.TBS_CLKMON_STATUS_fail : Fld := ⟨R.TBS_CLKMON_STATUS, 0, 4⟩
def R.TBS_CLKMON_STATUS_core_ref : Fld := ⟨R.TBS_CLKMON_STATUS, 4, 1⟩
def R.TBS_CLKMON_STATUS_tb_src : Fld := ⟨R.TBS_CLKMON_STATUS, 5, 2⟩
def R.TBS_CLKMON_STATUS_fail_seen : Fld := ⟨R.TBS_CLKMON_STATUS, 8, 4⟩

/-- TBS_CLKMON_SEL, R65 (02_system_time_turns_clocks.md). -/
def R.TBS_CLKMON_SEL : Nat := 0x100808
def R.TBS_CLKMON_SEL_core_ref : Fld := ⟨R.TBS_CLKMON_SEL, 0, 1⟩
def R.TBS_CLKMON_SEL_tb_ref : Fld := ⟨R.TBS_CLKMON_SEL, 1, 1⟩

/-- TBS_FMEAS_CTRL, R65 (02_system_time_turns_clocks.md). -/
def R.TBS_FMEAS_CTRL : Nat := 0x100900
def R.TBS_FMEAS_CTRL_meas_sel : Fld := ⟨R.TBS_FMEAS_CTRL, 0, 8⟩
def R.TBS_FMEAS_CTRL_ref_sel : Fld := ⟨R.TBS_FMEAS_CTRL, 8, 8⟩
def R.TBS_FMEAS_CTRL_gate_log2 : Fld := ⟨R.TBS_FMEAS_CTRL, 16, 5⟩
def R.TBS_FMEAS_CTRL_start : Fld := ⟨R.TBS_FMEAS_CTRL, 31, 1⟩

/-- TBS_FMEAS_STATUS, R65 (02_system_time_turns_clocks.md). -/
def R.TBS_FMEAS_STATUS : Nat := 0x100904
def R.TBS_FMEAS_STATUS_done : Fld := ⟨R.TBS_FMEAS_STATUS, 0, 1⟩
def R.TBS_FMEAS_STATUS_busy : Fld := ⟨R.TBS_FMEAS_STATUS, 1, 1⟩
def R.TBS_FMEAS_STATUS_error : Fld := ⟨R.TBS_FMEAS_STATUS, 2, 1⟩

/-- TBS_FMEAS_COUNT_LO, R65 (02_system_time_turns_clocks.md). -/
def R.TBS_FMEAS_COUNT_LO : Nat := 0x100908
def R.TBS_FMEAS_COUNT_LO_count_lo : Fld := ⟨R.TBS_FMEAS_COUNT_LO, 0, 32⟩

/-- TBS_FMEAS_COUNT_HI, R65 (02_system_time_turns_clocks.md). -/
def R.TBS_FMEAS_COUNT_HI : Nat := 0x10090c
def R.TBS_FMEAS_COUNT_HI_count_hi : Fld := ⟨R.TBS_FMEAS_COUNT_HI, 0, 32⟩

/-- TBS_RCLK_CFG, R65 (02_system_time_turns_clocks.md). -/
def R.TBS_RCLK_CFG (k : Nat) : Nat := 0x100a00 + 0x4 * k
def R.TBS_RCLK_CFG_lane (k : Nat) : Fld := ⟨R.TBS_RCLK_CFG k, 0, 7⟩
def R.TBS_RCLK_CFG_div (k : Nat) : Fld := ⟨R.TBS_RCLK_CFG k, 8, 2⟩
def R.TBS_RCLK_CFG_en (k : Nat) : Fld := ⟨R.TBS_RCLK_CFG k, 10, 1⟩
def R.TBS_RCLK_CFG_squelch (k : Nat) : Fld := ⟨R.TBS_RCLK_CFG k, 11, 1⟩

/-- FWS_RCP_STATUS, R91 (03_recipe_images.md). -/
def R.FWS_RCP_STATUS : Nat := 0x340000
def R.FWS_RCP_STATUS_active_slot : Fld := ⟨R.FWS_RCP_STATUS, 0, 1⟩
def R.FWS_RCP_STATUS_slot_a_state : Fld := ⟨R.FWS_RCP_STATUS, 1, 3⟩
def R.FWS_RCP_STATUS_slot_b_state : Fld := ⟨R.FWS_RCP_STATUS, 4, 3⟩
def R.FWS_RCP_STATUS_act_pending : Fld := ⟨R.FWS_RCP_STATUS, 8, 1⟩
def R.FWS_RCP_STATUS_act_slot : Fld := ⟨R.FWS_RCP_STATUS, 9, 1⟩

/-- FWS_RCP_ACT_TURN_LO, R91 (03_recipe_images.md). -/
def R.FWS_RCP_ACT_TURN_LO : Nat := 0x340008
def R.FWS_RCP_ACT_TURN_LO_turn_lo : Fld := ⟨R.FWS_RCP_ACT_TURN_LO, 0, 32⟩

/-- FWS_RCP_ACT_TURN_HI, R91 (03_recipe_images.md). -/
def R.FWS_RCP_ACT_TURN_HI : Nat := 0x34000c
def R.FWS_RCP_ACT_TURN_HI_turn_hi : Fld := ⟨R.FWS_RCP_ACT_TURN_HI, 0, 32⟩

/-- FWS_RCP_REL_TURN_LO, R91 (03_recipe_images.md). -/
def R.FWS_RCP_REL_TURN_LO : Nat := 0x340010
def R.FWS_RCP_REL_TURN_LO_turn_lo : Fld := ⟨R.FWS_RCP_REL_TURN_LO, 0, 32⟩

/-- FWS_RCP_REL_TURN_HI, R91 (03_recipe_images.md). -/
def R.FWS_RCP_REL_TURN_HI : Nat := 0x340014
def R.FWS_RCP_REL_TURN_HI_turn_hi : Fld := ⟨R.FWS_RCP_REL_TURN_HI, 0, 32⟩

/-- FWS_RCP_OLD_INGRESS, R91 (03_recipe_images.md). -/
def R.FWS_RCP_OLD_INGRESS : Nat := 0x340018
def R.FWS_RCP_OLD_INGRESS_count : Fld := ⟨R.FWS_RCP_OLD_INGRESS, 0, 18⟩

/-- FWS_RCP_OLD_EGRESS, R91 (03_recipe_images.md). -/
def R.FWS_RCP_OLD_EGRESS : Nat := 0x34001c
def R.FWS_RCP_OLD_EGRESS_count : Fld := ⟨R.FWS_RCP_OLD_EGRESS, 0, 22⟩

/-- FWS_RCP_OLD_SOURCES, R91 (03_recipe_images.md). -/
def R.FWS_RCP_OLD_SOURCES : Nat := 0x340020
def R.FWS_RCP_OLD_SOURCES_count : Fld := ⟨R.FWS_RCP_OLD_SOURCES, 0, 10⟩

/-- FWS_RCP_STRAYS, R91 (03_recipe_images.md). -/
def R.FWS_RCP_STRAYS : Nat := 0x340024
def R.FWS_RCP_STRAYS_count : Fld := ⟨R.FWS_RCP_STRAYS, 0, 32⟩

/-- FWS_RCP_MIN_SERIAL_LO, R91 (03_recipe_images.md). -/
def R.FWS_RCP_MIN_SERIAL_LO : Nat := 0x340030
def R.FWS_RCP_MIN_SERIAL_LO_serial_lo : Fld := ⟨R.FWS_RCP_MIN_SERIAL_LO, 0, 32⟩

/-- FWS_RCP_MIN_SERIAL_HI, R91 (03_recipe_images.md). -/
def R.FWS_RCP_MIN_SERIAL_HI : Nat := 0x340034
def R.FWS_RCP_MIN_SERIAL_HI_serial_hi : Fld := ⟨R.FWS_RCP_MIN_SERIAL_HI, 0, 32⟩

/-- FWS_RCP_STORE_w0, R91 (03_recipe_images.md). -/
def R.FWS_RCP_STORE_w0 (k : Nat) : Nat := 0x340040 + 0x10 * k
def R.FWS_RCP_STORE_w0_valid (k : Nat) : Fld := ⟨R.FWS_RCP_STORE_w0 k, 0, 1⟩
def R.FWS_RCP_STORE_w0_writing (k : Nat) : Fld := ⟨R.FWS_RCP_STORE_w0 k, 1, 1⟩

/-- FWS_RCP_STORE_w1, R91 (03_recipe_images.md). -/
def R.FWS_RCP_STORE_w1 (k : Nat) : Nat := 0x340044 + 0x10 * k
def R.FWS_RCP_STORE_w1_length (k : Nat) : Fld := ⟨R.FWS_RCP_STORE_w1 k, 0, 32⟩

/-- FWS_RCP_STORE_LO, R91 (03_recipe_images.md). -/
def R.FWS_RCP_STORE_LO (k : Nat) : Nat := 0x340048 + 0x10 * k
def R.FWS_RCP_STORE_LO_serial_lo (k : Nat) : Fld := ⟨R.FWS_RCP_STORE_LO k, 0, 32⟩

/-- FWS_RCP_STORE_HI, R91 (03_recipe_images.md). -/
def R.FWS_RCP_STORE_HI (k : Nat) : Nat := 0x34004c + 0x10 * k
def R.FWS_RCP_STORE_HI_serial_hi (k : Nat) : Fld := ⟨R.FWS_RCP_STORE_HI k, 0, 32⟩

/-- FWS_RCP_BOOT, R91 (03_recipe_images.md). -/
def R.FWS_RCP_BOOT : Nat := 0x340070
def R.FWS_RCP_BOOT_entry : Fld := ⟨R.FWS_RCP_BOOT, 0, 2⟩
def R.FWS_RCP_BOOT_autostart : Fld := ⟨R.FWS_RCP_BOOT, 2, 1⟩

/-- PRS_CTRL, R115 (04_parser_and_payload_scanner.md). -/
def R.PRS_CTRL : Nat := 0xc00000
def R.PRS_CTRL_scan_timeout : Fld := ⟨R.PRS_CTRL, 0, 8⟩

/-- PRS_SET_LC, R115 (04_parser_and_payload_scanner.md). -/
def R.PRS_SET_LC (s : Nat) : Nat := 0xc00100 + 0x4 * s
def R.PRS_SET_LC_state (s : Nat) : Fld := ⟨R.PRS_SET_LC s, 0, 2⟩
def R.PRS_SET_LC_pend_up (s : Nat) : Fld := ⟨R.PRS_SET_LC s, 2, 1⟩
def R.PRS_SET_LC_enable (s : Nat) : Fld := ⟨R.PRS_SET_LC s, 8, 1⟩
def R.PRS_SET_LC_disable (s : Nat) : Fld := ⟨R.PRS_SET_LC s, 9, 1⟩

/-- PRS_SET_INFO, R115 (04_parser_and_payload_scanner.md). -/
def R.PRS_SET_INFO (s : Nat) : Nat := 0xc00140 + 0x4 * s
def R.PRS_SET_INFO_patterns_a (s : Nat) : Fld := ⟨R.PRS_SET_INFO s, 0, 15⟩
def R.PRS_SET_INFO_patterns_b (s : Nat) : Fld := ⟨R.PRS_SET_INFO s, 16, 15⟩

/-- PRS_PORT_START, R115 (04_parser_and_payload_scanner.md). -/
def R.PRS_PORT_START (p : Nat) : Nat := 0xc00200 + 0x4 * p
def R.PRS_PORT_START_start (p : Nat) : Fld := ⟨R.PRS_PORT_START p, 0, 3⟩

/-- PRS_MAL_CNT, R115 (04_parser_and_payload_scanner.md). -/
def R.PRS_MAL_CNT (pl : Nat) (c : Nat) : Nat := 0xc01000 + 0x40 * pl + 0x4 * c
def R.PRS_MAL_CNT_count (pl : Nat) (c : Nat) : Fld := ⟨R.PRS_MAL_CNT pl c, 0, 32⟩

/-- PRS_SCAN_PKTS, R115 (04_parser_and_payload_scanner.md). -/
def R.PRS_SCAN_PKTS (pl : Nat) : Nat := 0xc02000 + 0x20 * pl
def R.PRS_SCAN_PKTS_count (pl : Nat) : Fld := ⟨R.PRS_SCAN_PKTS pl, 0, 32⟩

/-- PRS_SCAN_TIMEOUTS, R115 (04_parser_and_payload_scanner.md). -/
def R.PRS_SCAN_TIMEOUTS (pl : Nat) : Nat := 0xc02004 + 0x20 * pl
def R.PRS_SCAN_TIMEOUTS_count (pl : Nat) : Fld := ⟨R.PRS_SCAN_TIMEOUTS pl, 0, 32⟩

/-- PRS_SCAN_STALLS, R115 (04_parser_and_payload_scanner.md). -/
def R.PRS_SCAN_STALLS (pl : Nat) : Nat := 0xc02008 + 0x20 * pl
def R.PRS_SCAN_STALLS_count (pl : Nat) : Fld := ⟨R.PRS_SCAN_STALLS pl, 0, 32⟩

/-- PRS_SCAN_PEER_RESET, R115 (04_parser_and_payload_scanner.md). -/
def R.PRS_SCAN_PEER_RESET (pl : Nat) : Nat := 0xc0200c + 0x20 * pl
def R.PRS_SCAN_PEER_RESET_count (pl : Nat) : Fld := ⟨R.PRS_SCAN_PEER_RESET pl, 0, 32⟩

/-- PRS_SCAN_OCC, R115 (04_parser_and_payload_scanner.md). -/
def R.PRS_SCAN_OCC (pl : Nat) : Nat := 0xc02010 + 0x20 * pl
def R.PRS_SCAN_OCC_held (pl : Nat) : Fld := ⟨R.PRS_SCAN_OCC pl, 0, 8⟩
def R.PRS_SCAN_OCC_engines (pl : Nat) : Fld := ⟨R.PRS_SCAN_OCC pl, 8, 4⟩

/-- PRS_CAP_CTRL, R115 (04_parser_and_payload_scanner.md). -/
def R.PRS_CAP_CTRL (pl : Nat) : Nat := 0xc03000 + 0x100 * pl
def R.PRS_CAP_CTRL_arm (pl : Nat) : Fld := ⟨R.PRS_CAP_CTRL pl, 0, 1⟩
def R.PRS_CAP_CTRL_valid (pl : Nat) : Fld := ⟨R.PRS_CAP_CTRL pl, 1, 1⟩

/-- PRS_CAP_INFO, R115 (04_parser_and_payload_scanner.md). -/
def R.PRS_CAP_INFO (pl : Nat) : Nat := 0xc03004 + 0x100 * pl
def R.PRS_CAP_INFO_class (pl : Nat) : Fld := ⟨R.PRS_CAP_INFO pl, 0, 4⟩
def R.PRS_CAP_INFO_state (pl : Nat) : Fld := ⟨R.PRS_CAP_INFO pl, 4, 8⟩
def R.PRS_CAP_INFO_offset (pl : Nat) : Fld := ⟨R.PRS_CAP_INFO pl, 12, 10⟩
def R.PRS_CAP_INFO_port (pl : Nat) : Fld := ⟨R.PRS_CAP_INFO pl, 22, 7⟩
def R.PRS_CAP_INFO_version (pl : Nat) : Fld := ⟨R.PRS_CAP_INFO pl, 29, 1⟩

/-- PRS_CAP_TURN_LO, R115 (04_parser_and_payload_scanner.md). -/
def R.PRS_CAP_TURN_LO (pl : Nat) : Nat := 0xc03008 + 0x100 * pl
def R.PRS_CAP_TURN_LO_turn_lo (pl : Nat) : Fld := ⟨R.PRS_CAP_TURN_LO pl, 0, 32⟩

/-- PRS_CAP_TURN_HI, R115 (04_parser_and_payload_scanner.md). -/
def R.PRS_CAP_TURN_HI (pl : Nat) : Nat := 0xc0300c + 0x100 * pl
def R.PRS_CAP_TURN_HI_turn_hi (pl : Nat) : Fld := ⟨R.PRS_CAP_TURN_HI pl, 0, 32⟩

/-- PRS_CAP_DATA, R115 (04_parser_and_payload_scanner.md). -/
def R.PRS_CAP_DATA (pl : Nat) (w : Nat) : Nat := 0xc03080 + 0x100 * pl + 0x4 * w
def R.PRS_CAP_DATA_data (pl : Nat) (w : Nat) : Fld := ⟨R.PRS_CAP_DATA pl w, 0, 32⟩

/-- ASM_BANK, R140 (05_associative_search_and_prefixes.md). -/
def R.ASM_BANK (b : Nat) : Nat := 0x2000000 + 0x4 * b
def R.ASM_BANK_width (b : Nat) : Fld := ⟨R.ASM_BANK b, 0, 2⟩
def R.ASM_BANK_table (b : Nat) : Fld := ⟨R.ASM_BANK b, 8, 5⟩
def R.ASM_BANK_use_a (b : Nat) : Fld := ⟨R.ASM_BANK b, 13, 1⟩
def R.ASM_BANK_use_b (b : Nat) : Fld := ⟨R.ASM_BANK b, 14, 1⟩
def R.ASM_BANK_table_b (b : Nat) : Fld := ⟨R.ASM_BANK b, 16, 5⟩

/-- ASM_TBL_w0, R140 (05_associative_search_and_prefixes.md). -/
def R.ASM_TBL_w0 (t : Nat) : Nat := 0x2000100 + 0x20 * t
def R.ASM_TBL_w0_type (t : Nat) : Fld := ⟨R.ASM_TBL_w0 t, 0, 2⟩
def R.ASM_TBL_w0_overlap (t : Nat) : Fld := ⟨R.ASM_TBL_w0 t, 2, 1⟩
def R.ASM_TBL_w0_prepared (t : Nat) : Fld := ⟨R.ASM_TBL_w0 t, 3, 1⟩
def R.ASM_TBL_w0_sel (t : Nat) : Fld := ⟨R.ASM_TBL_w0 t, 4, 1⟩
def R.ASM_TBL_w0_table_id (t : Nat) : Fld := ⟨R.ASM_TBL_w0 t, 16, 16⟩

/-- ASM_TBL_w1, R140 (05_associative_search_and_prefixes.md). -/
def R.ASM_TBL_w1 (t : Nat) : Nat := 0x2000104 + 0x20 * t
def R.ASM_TBL_w1_entries (t : Nat) : Fld := ⟨R.ASM_TBL_w1 t, 0, 19⟩

/-- ASM_TBL_w2, R140 (05_associative_search_and_prefixes.md). -/
def R.ASM_TBL_w2 (t : Nat) : Nat := 0x2000108 + 0x20 * t
def R.ASM_TBL_w2_heads (t : Nat) : Fld := ⟨R.ASM_TBL_w2 t, 0, 19⟩

/-- ASM_TBL_w3, R140 (05_associative_search_and_prefixes.md). -/
def R.ASM_TBL_w3 (t : Nat) : Nat := 0x200010c + 0x20 * t
def R.ASM_TBL_w3_slots (t : Nat) : Fld := ⟨R.ASM_TBL_w3 t, 0, 24⟩

/-- ASM_TBL_w4, R140 (05_associative_search_and_prefixes.md). -/
def R.ASM_TBL_w4 (t : Nat) : Nat := 0x2000110 + 0x20 * t
def R.ASM_TBL_w4_route_units (t : Nat) : Fld := ⟨R.ASM_TBL_w4 t, 0, 24⟩

/-- ASM_TBL_w5, R140 (05_associative_search_and_prefixes.md). -/
def R.ASM_TBL_w5 (t : Nat) : Nat := 0x2000114 + 0x20 * t
def R.ASM_TBL_w5_rated_units (t : Nat) : Fld := ⟨R.ASM_TBL_w5 t, 0, 24⟩

/-- ASM_TBL_w6, R140 (05_associative_search_and_prefixes.md). -/
def R.ASM_TBL_w6 (t : Nat) : Nat := 0x2000118 + 0x20 * t
def R.ASM_TBL_w6_turn_lo (t : Nat) : Fld := ⟨R.ASM_TBL_w6 t, 0, 32⟩

/-- ASM_TBL_w7, R140 (05_associative_search_and_prefixes.md). -/
def R.ASM_TBL_w7 (t : Nat) : Nat := 0x200011c + 0x20 * t
def R.ASM_TBL_w7_turn_hi (t : Nat) : Fld := ⟨R.ASM_TBL_w7 t, 0, 32⟩

/-- ASM_WALK_CFG, R140 (05_associative_search_and_prefixes.md). -/
def R.ASM_WALK_CFG : Nat := 0x2001000
def R.ASM_WALK_CFG_period_ms : Fld := ⟨R.ASM_WALK_CFG, 0, 8⟩
def R.ASM_WALK_CFG_en : Fld := ⟨R.ASM_WALK_CFG, 8, 1⟩

/-- ASM_WALK_CYCLES, R140 (05_associative_search_and_prefixes.md). -/
def R.ASM_WALK_CYCLES : Nat := 0x2001004
def R.ASM_WALK_CYCLES_count : Fld := ⟨R.ASM_WALK_CYCLES, 0, 32⟩

/-- ASM_WALK_FIXED, R140 (05_associative_search_and_prefixes.md). -/
def R.ASM_WALK_FIXED : Nat := 0x2001008
def R.ASM_WALK_FIXED_count : Fld := ⟨R.ASM_WALK_FIXED, 0, 32⟩

/-- ASM_WALK_COPY_UE, R140 (05_associative_search_and_prefixes.md). -/
def R.ASM_WALK_COPY_UE : Nat := 0x200100c
def R.ASM_WALK_COPY_UE_count : Fld := ⟨R.ASM_WALK_COPY_UE, 0, 32⟩

/-- ASM_WALK_LOG_CTRL, R140 (05_associative_search_and_prefixes.md). -/
def R.ASM_WALK_LOG_CTRL : Nat := 0x2001010
def R.ASM_WALK_LOG_CTRL_next : Fld := ⟨R.ASM_WALK_LOG_CTRL, 0, 4⟩
def R.ASM_WALK_LOG_CTRL_wrapped : Fld := ⟨R.ASM_WALK_LOG_CTRL, 4, 1⟩

/-- ASM_WALK_LOG_w0, R140 (05_associative_search_and_prefixes.md). -/
def R.ASM_WALK_LOG_w0 (i : Nat) : Nat := 0x2001100 + 0x10 * i
def R.ASM_WALK_LOG_w0_bank (i : Nat) : Fld := ⟨R.ASM_WALK_LOG_w0 i, 0, 5⟩
def R.ASM_WALK_LOG_w0_unit (i : Nat) : Fld := ⟨R.ASM_WALK_LOG_w0 i, 5, 13⟩
def R.ASM_WALK_LOG_w0_kind (i : Nat) : Fld := ⟨R.ASM_WALK_LOG_w0 i, 18, 2⟩
def R.ASM_WALK_LOG_w0_valid (i : Nat) : Fld := ⟨R.ASM_WALK_LOG_w0 i, 31, 1⟩

/-- ASM_WALK_LOG_LO, R140 (05_associative_search_and_prefixes.md). -/
def R.ASM_WALK_LOG_LO (i : Nat) : Nat := 0x2001104 + 0x10 * i
def R.ASM_WALK_LOG_LO_turn_lo (i : Nat) : Fld := ⟨R.ASM_WALK_LOG_LO i, 0, 32⟩

/-- ASM_WALK_LOG_HI, R140 (05_associative_search_and_prefixes.md). -/
def R.ASM_WALK_LOG_HI (i : Nat) : Nat := 0x2001108 + 0x10 * i
def R.ASM_WALK_LOG_HI_turn_hi (i : Nat) : Fld := ⟨R.ASM_WALK_LOG_HI i, 0, 32⟩

/-- ASM_MOVES, R140 (05_associative_search_and_prefixes.md). -/
def R.ASM_MOVES : Nat := 0x2001200
def R.ASM_MOVES_count : Fld := ⟨R.ASM_MOVES, 0, 32⟩

/-- ASM_SPLITS, R140 (05_associative_search_and_prefixes.md). -/
def R.ASM_SPLITS : Nat := 0x2001204
def R.ASM_SPLITS_count : Fld := ⟨R.ASM_SPLITS, 0, 32⟩

/-- ASM_BKT_POISON, R140 (05_associative_search_and_prefixes.md). -/
def R.ASM_BKT_POISON : Nat := 0x2001208
def R.ASM_BKT_POISON_count : Fld := ⟨R.ASM_BKT_POISON, 0, 32⟩

/-- ASM_BKT_FREE, R140 (05_associative_search_and_prefixes.md). -/
def R.ASM_BKT_FREE : Nat := 0x2001210
def R.ASM_BKT_FREE_blocks : Fld := ⟨R.ASM_BKT_FREE, 0, 19⟩

/-- EXM_TBL_w0, R168 (06_exact_match_and_learning.md). -/
def R.EXM_TBL_w0 (t : Nat) : Nat := 0x2400000 + 0x20 * t
def R.EXM_TBL_w0_kind (t : Nat) : Fld := ⟨R.EXM_TBL_w0 t, 0, 2⟩
def R.EXM_TBL_w0_hbm (t : Nat) : Fld := ⟨R.EXM_TBL_w0 t, 2, 1⟩
def R.EXM_TBL_w0_width (t : Nat) : Fld := ⟨R.EXM_TBL_w0 t, 3, 2⟩
def R.EXM_TBL_w0_use_a (t : Nat) : Fld := ⟨R.EXM_TBL_w0 t, 5, 1⟩
def R.EXM_TBL_w0_use_b (t : Nat) : Fld := ⟨R.EXM_TBL_w0 t, 6, 1⟩
def R.EXM_TBL_w0_overlap (t : Nat) : Fld := ⟨R.EXM_TBL_w0 t, 7, 1⟩
def R.EXM_TBL_w0_dma_mode (t : Nat) : Fld := ⟨R.EXM_TBL_w0 t, 8, 1⟩
def R.EXM_TBL_w0_delay (t : Nat) : Fld := ⟨R.EXM_TBL_w0 t, 9, 4⟩
def R.EXM_TBL_w0_table_id (t : Nat) : Fld := ⟨R.EXM_TBL_w0 t, 16, 16⟩

/-- EXM_TBL_w1, R168 (06_exact_match_and_learning.md). -/
def R.EXM_TBL_w1 (t : Nat) : Nat := 0x2400004 + 0x20 * t
def R.EXM_TBL_w1_buckets (t : Nat) : Fld := ⟨R.EXM_TBL_w1 t, 0, 27⟩

/-- EXM_TBL_w2, R168 (06_exact_match_and_learning.md). -/
def R.EXM_TBL_w2 (t : Nat) : Nat := 0x2400008 + 0x20 * t
def R.EXM_TBL_w2_entries (t : Nat) : Fld := ⟨R.EXM_TBL_w2 t, 0, 29⟩

/-- EXM_TBL_w3, R168 (06_exact_match_and_learning.md). -/
def R.EXM_TBL_w3 (t : Nat) : Nat := 0x240000c + 0x20 * t
def R.EXM_TBL_w3_stash (t : Nat) : Fld := ⟨R.EXM_TBL_w3 t, 0, 8⟩
def R.EXM_TBL_w3_locked (t : Nat) : Fld := ⟨R.EXM_TBL_w3 t, 8, 7⟩

/-- EXM_TBL_w4, R168 (06_exact_match_and_learning.md). -/
def R.EXM_TBL_w4 (t : Nat) : Nat := 0x2400010 + 0x20 * t
def R.EXM_TBL_w4_moves (t : Nat) : Fld := ⟨R.EXM_TBL_w4 t, 0, 32⟩

/-- EXM_TBL_w5, R168 (06_exact_match_and_learning.md). -/
def R.EXM_TBL_w5 (t : Nat) : Nat := 0x2400014 + 0x20 * t
def R.EXM_TBL_w5_full (t : Nat) : Fld := ⟨R.EXM_TBL_w5 t, 0, 32⟩

/-- EXM_LEARN_w0, R168 (06_exact_match_and_learning.md). -/
def R.EXM_LEARN_w0 (pl : Nat) : Nat := 0x2401000 + 0x20 * pl
def R.EXM_LEARN_w0_learned (pl : Nat) : Fld := ⟨R.EXM_LEARN_w0 pl, 0, 32⟩

/-- EXM_LEARN_w1, R168 (06_exact_match_and_learning.md). -/
def R.EXM_LEARN_w1 (pl : Nat) : Nat := 0x2401004 + 0x20 * pl
def R.EXM_LEARN_w1_full (pl : Nat) : Fld := ⟨R.EXM_LEARN_w1 pl, 0, 32⟩

/-- EXM_LEARN_w2, R168 (06_exact_match_and_learning.md). -/
def R.EXM_LEARN_w2 (pl : Nat) : Nat := 0x2401008 + 0x20 * pl
def R.EXM_LEARN_w2_locked (pl : Nat) : Fld := ⟨R.EXM_LEARN_w2 pl, 0, 32⟩

/-- EXM_LEARN_w3, R168 (06_exact_match_and_learning.md). -/
def R.EXM_LEARN_w3 (pl : Nat) : Nat := 0x240100c + 0x20 * pl
def R.EXM_LEARN_w3_rate (pl : Nat) : Fld := ⟨R.EXM_LEARN_w3 pl, 0, 32⟩

/-- EXM_LEARN_w4, R168 (06_exact_match_and_learning.md). -/
def R.EXM_LEARN_w4 (pl : Nat) : Nat := 0x2401010 + 0x20 * pl
def R.EXM_LEARN_w4_late (pl : Nat) : Fld := ⟨R.EXM_LEARN_w4 pl, 0, 32⟩

/-- EXM_AGE, R168 (06_exact_match_and_learning.md). -/
def R.EXM_AGE (t : Nat) : Nat := 0x2401800 + 0x10 * t
def R.EXM_AGE_tick_log2 (t : Nat) : Fld := ⟨R.EXM_AGE t, 0, 5⟩
def R.EXM_AGE_limit (t : Nat) : Fld := ⟨R.EXM_AGE t, 8, 8⟩
def R.EXM_AGE_en (t : Nat) : Fld := ⟨R.EXM_AGE t, 16, 1⟩

/-- EXM_LFIFO_BASE_LO, R168 (06_exact_match_and_learning.md). -/
def R.EXM_LFIFO_BASE_LO : Nat := 0x2402000
def R.EXM_LFIFO_BASE_LO_addr_lo : Fld := ⟨R.EXM_LFIFO_BASE_LO, 0, 32⟩

/-- EXM_LFIFO_BASE_HI, R168 (06_exact_match_and_learning.md). -/
def R.EXM_LFIFO_BASE_HI : Nat := 0x2402004
def R.EXM_LFIFO_BASE_HI_addr_hi : Fld := ⟨R.EXM_LFIFO_BASE_HI, 0, 32⟩

/-- EXM_LFIFO_CFG, R168 (06_exact_match_and_learning.md). -/
def R.EXM_LFIFO_CFG : Nat := 0x2402008
def R.EXM_LFIFO_CFG_size_log2 : Fld := ⟨R.EXM_LFIFO_CFG, 0, 5⟩
def R.EXM_LFIFO_CFG_vector : Fld := ⟨R.EXM_LFIFO_CFG, 8, 6⟩
def R.EXM_LFIFO_CFG_en : Fld := ⟨R.EXM_LFIFO_CFG, 14, 1⟩

/-- EXM_LFIFO_HEAD, R168 (06_exact_match_and_learning.md). -/
def R.EXM_LFIFO_HEAD : Nat := 0x240200c
def R.EXM_LFIFO_HEAD_head : Fld := ⟨R.EXM_LFIFO_HEAD, 0, 20⟩

/-- EXM_LFIFO_TAIL, R168 (06_exact_match_and_learning.md). -/
def R.EXM_LFIFO_TAIL : Nat := 0x2402010
def R.EXM_LFIFO_TAIL_tail : Fld := ⟨R.EXM_LFIFO_TAIL, 0, 20⟩

/-- EXM_LFIFO_STATUS, R168 (06_exact_match_and_learning.md). -/
def R.EXM_LFIFO_STATUS : Nat := 0x2402014
def R.EXM_LFIFO_STATUS_fill : Fld := ⟨R.EXM_LFIFO_STATUS, 0, 17⟩
def R.EXM_LFIFO_STATUS_lost : Fld := ⟨R.EXM_LFIFO_STATUS, 17, 1⟩

/-- EXM_LFIFO_LOST, R168 (06_exact_match_and_learning.md). -/
def R.EXM_LFIFO_LOST : Nat := 0x2402018
def R.EXM_LFIFO_LOST_count : Fld := ⟨R.EXM_LFIFO_LOST, 0, 32⟩

/-- EXM_WIN, R168 (06_exact_match_and_learning.md). -/
def R.EXM_WIN (f : Nat) : Nat := 0x2403000 + 0x10 * f
def R.EXM_WIN_table (f : Nat) : Fld := ⟨R.EXM_WIN f, 0, 6⟩
def R.EXM_WIN_slot (f : Nat) : Fld := ⟨R.EXM_WIN f, 6, 1⟩
def R.EXM_WIN_pipeline (f : Nat) : Fld := ⟨R.EXM_WIN f, 7, 3⟩

/-- EXM_WIN_BASE, R168 (06_exact_match_and_learning.md). -/
def R.EXM_WIN_BASE (f : Nat) : Nat := 0x2403004 + 0x10 * f
def R.EXM_WIN_BASE_bucket (f : Nat) : Fld := ⟨R.EXM_WIN_BASE f, 0, 27⟩

/-- EXM_LOCK_EXPIRED, R168 (06_exact_match_and_learning.md). -/
def R.EXM_LOCK_EXPIRED : Nat := 0x2403100
def R.EXM_LOCK_EXPIRED_count : Fld := ⟨R.EXM_LOCK_EXPIRED, 0, 32⟩

/-- EXM_ITER_OPEN, R168 (06_exact_match_and_learning.md). -/
def R.EXM_ITER_OPEN : Nat := 0x2403104
def R.EXM_ITER_OPEN_contexts : Fld := ⟨R.EXM_ITER_OPEN, 0, 16⟩

/-- EXM_CMP_CTRL, R168 (06_exact_match_and_learning.md). -/
def R.EXM_CMP_CTRL : Nat := 0x2404000
def R.EXM_CMP_CTRL_start : Fld := ⟨R.EXM_CMP_CTRL, 0, 1⟩
def R.EXM_CMP_CTRL_exclude_learned : Fld := ⟨R.EXM_CMP_CTRL, 1, 1⟩
def R.EXM_CMP_CTRL_table : Fld := ⟨R.EXM_CMP_CTRL, 2, 6⟩
def R.EXM_CMP_CTRL_slot : Fld := ⟨R.EXM_CMP_CTRL, 8, 1⟩
def R.EXM_CMP_CTRL_pipeline : Fld := ⟨R.EXM_CMP_CTRL, 9, 3⟩

/-- EXM_CMP_SRC_LO, R168 (06_exact_match_and_learning.md). -/
def R.EXM_CMP_SRC_LO : Nat := 0x2404008
def R.EXM_CMP_SRC_LO_addr_lo : Fld := ⟨R.EXM_CMP_SRC_LO, 0, 32⟩

/-- EXM_CMP_SRC_HI, R168 (06_exact_match_and_learning.md). -/
def R.EXM_CMP_SRC_HI : Nat := 0x240400c
def R.EXM_CMP_SRC_HI_addr_hi : Fld := ⟨R.EXM_CMP_SRC_HI, 0, 32⟩

/-- EXM_CMP_FIRST, R168 (06_exact_match_and_learning.md). -/
def R.EXM_CMP_FIRST : Nat := 0x2404010
def R.EXM_CMP_FIRST_bucket : Fld := ⟨R.EXM_CMP_FIRST, 0, 27⟩

/-- EXM_CMP_COUNT, R168 (06_exact_match_and_learning.md). -/
def R.EXM_CMP_COUNT : Nat := 0x2404014
def R.EXM_CMP_COUNT_buckets : Fld := ⟨R.EXM_CMP_COUNT, 0, 27⟩

/-- EXM_CMP_OUT_LO, R168 (06_exact_match_and_learning.md). -/
def R.EXM_CMP_OUT_LO : Nat := 0x2404018
def R.EXM_CMP_OUT_LO_addr_lo : Fld := ⟨R.EXM_CMP_OUT_LO, 0, 32⟩

/-- EXM_CMP_OUT_HI, R168 (06_exact_match_and_learning.md). -/
def R.EXM_CMP_OUT_HI : Nat := 0x240401c
def R.EXM_CMP_OUT_HI_addr_hi : Fld := ⟨R.EXM_CMP_OUT_HI, 0, 32⟩

/-- EXM_CMP_OUT_LEN, R168 (06_exact_match_and_learning.md). -/
def R.EXM_CMP_OUT_LEN : Nat := 0x2404020
def R.EXM_CMP_OUT_LEN_records : Fld := ⟨R.EXM_CMP_OUT_LEN, 0, 24⟩

/-- EXM_CMP_STATUS, R168 (06_exact_match_and_learning.md). -/
def R.EXM_CMP_STATUS : Nat := 0x2404024
def R.EXM_CMP_STATUS_busy : Fld := ⟨R.EXM_CMP_STATUS, 0, 1⟩
def R.EXM_CMP_STATUS_done : Fld := ⟨R.EXM_CMP_STATUS, 1, 1⟩
def R.EXM_CMP_STATUS_overflow : Fld := ⟨R.EXM_CMP_STATUS, 2, 1⟩

/-- EXM_CMP_DIFFS, R168 (06_exact_match_and_learning.md). -/
def R.EXM_CMP_DIFFS : Nat := 0x2404028
def R.EXM_CMP_DIFFS_count : Fld := ⟨R.EXM_CMP_DIFFS, 0, 32⟩

/-- PPL_LC, R201 (07_action_stages_and_control_stores.md). -/
def R.PPL_LC (pl : Nat) : Nat := 0x1000000 + 0x200000 * pl
def R.PPL_LC_state (pl : Nat) : Fld := ⟨R.PPL_LC pl, 0, 2⟩
def R.PPL_LC_pend_up (pl : Nat) : Fld := ⟨R.PPL_LC pl, 2, 1⟩
def R.PPL_LC_enable (pl : Nat) : Fld := ⟨R.PPL_LC pl, 8, 1⟩
def R.PPL_LC_disable (pl : Nat) : Fld := ⟨R.PPL_LC pl, 9, 1⟩

/-- PPL_STATUS, R201 (07_action_stages_and_control_stores.md). -/
def R.PPL_STATUS (pl : Nat) : Nat := 0x1000004 + 0x200000 * pl
def R.PPL_STATUS_lanes_moved (pl : Nat) : Fld := ⟨R.PPL_STATUS pl, 0, 1⟩
def R.PPL_STATUS_serving_buddy (pl : Nat) : Fld := ⟨R.PPL_STATUS pl, 1, 1⟩
def R.PPL_STATUS_retire_cause (pl : Nat) : Fld := ⟨R.PPL_STATUS pl, 2, 2⟩
def R.PPL_STATUS_reloading (pl : Nat) : Fld := ⟨R.PPL_STATUS pl, 4, 1⟩

/-- PPL_MC_CFG, R201 (07_action_stages_and_control_stores.md). -/
def R.PPL_MC_CFG (pl : Nat) : Nat := 0x1000008 + 0x200000 * pl
def R.PPL_MC_CFG_patrol_ms (pl : Nat) : Fld := ⟨R.PPL_MC_CFG pl, 0, 8⟩
def R.PPL_MC_CFG_patrol_en (pl : Nat) : Fld := ⟨R.PPL_MC_CFG pl, 8, 1⟩

/-- PPL_MC_COUNT, R201 (07_action_stages_and_control_stores.md). -/
def R.PPL_MC_COUNT (pl : Nat) : Nat := 0x1000010 + 0x200000 * pl
def R.PPL_MC_COUNT_count (pl : Nat) : Fld := ⟨R.PPL_MC_COUNT pl, 0, 32⟩

/-- PPL_MC_DROPS, R201 (07_action_stages_and_control_stores.md). -/
def R.PPL_MC_DROPS (pl : Nat) : Nat := 0x1000014 + 0x200000 * pl
def R.PPL_MC_DROPS_count (pl : Nat) : Fld := ⟨R.PPL_MC_DROPS pl, 0, 32⟩

/-- PPL_RELOADS, R201 (07_action_stages_and_control_stores.md). -/
def R.PPL_RELOADS (pl : Nat) : Nat := 0x1000018 + 0x200000 * pl
def R.PPL_RELOADS_count (pl : Nat) : Fld := ⟨R.PPL_RELOADS pl, 0, 32⟩

/-- PPL_PATROL_FIXED, R201 (07_action_stages_and_control_stores.md). -/
def R.PPL_PATROL_FIXED (pl : Nat) : Nat := 0x100001c + 0x200000 * pl
def R.PPL_PATROL_FIXED_count (pl : Nat) : Fld := ⟨R.PPL_PATROL_FIXED pl, 0, 32⟩

/-- PPL_PATROL_PASSES, R201 (07_action_stages_and_control_stores.md). -/
def R.PPL_PATROL_PASSES (pl : Nat) : Nat := 0x1000020 + 0x200000 * pl
def R.PPL_PATROL_PASSES_count (pl : Nat) : Fld := ⟨R.PPL_PATROL_PASSES pl, 0, 32⟩

/-- PPL_RELOAD_PEND, R201 (07_action_stages_and_control_stores.md). -/
def R.PPL_RELOAD_PEND (pl : Nat) : Nat := 0x1000024 + 0x200000 * pl
def R.PPL_RELOAD_PEND_words (pl : Nat) : Fld := ⟨R.PPL_RELOAD_PEND pl, 0, 6⟩

/-- PPL_BAD_INDEX, R201 (07_action_stages_and_control_stores.md). -/
def R.PPL_BAD_INDEX (pl : Nat) : Nat := 0x1000028 + 0x200000 * pl
def R.PPL_BAD_INDEX_count (pl : Nat) : Fld := ⟨R.PPL_BAD_INDEX pl, 0, 32⟩

/-- PPL_MC_TURN, R201 (07_action_stages_and_control_stores.md). -/
def R.PPL_MC_TURN (pl : Nat) (s : Nat) : Nat := 0x1000100 + 0x200000 * pl + 0x4 * s
def R.PPL_MC_TURN_count (pl : Nat) (s : Nat) : Fld := ⟨R.PPL_MC_TURN pl s, 0, 2⟩

/-- PPL_MC_LOG_CTRL, R201 (07_action_stages_and_control_stores.md). -/
def R.PPL_MC_LOG_CTRL (pl : Nat) : Nat := 0x1000200 + 0x200000 * pl
def R.PPL_MC_LOG_CTRL_next (pl : Nat) : Fld := ⟨R.PPL_MC_LOG_CTRL pl, 0, 3⟩
def R.PPL_MC_LOG_CTRL_wrapped (pl : Nat) : Fld := ⟨R.PPL_MC_LOG_CTRL pl, 3, 1⟩

/-- PPL_MC_LOG_w0, R201 (07_action_stages_and_control_stores.md). -/
def R.PPL_MC_LOG_w0 (pl : Nat) (i : Nat) : Nat := 0x1000210 + 0x200000 * pl + 0x10 * i
def R.PPL_MC_LOG_w0_stage (pl : Nat) (i : Nat) : Fld := ⟨R.PPL_MC_LOG_w0 pl i, 0, 6⟩
def R.PPL_MC_LOG_w0_bank (pl : Nat) (i : Nat) : Fld := ⟨R.PPL_MC_LOG_w0 pl i, 6, 1⟩
def R.PPL_MC_LOG_w0_word (pl : Nat) (i : Nat) : Fld := ⟨R.PPL_MC_LOG_w0 pl i, 7, 12⟩
def R.PPL_MC_LOG_w0_source (pl : Nat) (i : Nat) : Fld := ⟨R.PPL_MC_LOG_w0 pl i, 19, 1⟩
def R.PPL_MC_LOG_w0_outcome (pl : Nat) (i : Nat) : Fld := ⟨R.PPL_MC_LOG_w0 pl i, 20, 2⟩
def R.PPL_MC_LOG_w0_ucode (pl : Nat) (i : Nat) : Fld := ⟨R.PPL_MC_LOG_w0 pl i, 22, 1⟩
def R.PPL_MC_LOG_w0_valid (pl : Nat) (i : Nat) : Fld := ⟨R.PPL_MC_LOG_w0 pl i, 31, 1⟩

/-- PPL_MC_LOG_LO, R201 (07_action_stages_and_control_stores.md). -/
def R.PPL_MC_LOG_LO (pl : Nat) (i : Nat) : Nat := 0x1000214 + 0x200000 * pl + 0x10 * i
def R.PPL_MC_LOG_LO_turn_lo (pl : Nat) (i : Nat) : Fld := ⟨R.PPL_MC_LOG_LO pl i, 0, 32⟩

/-- PPL_MC_LOG_HI, R201 (07_action_stages_and_control_stores.md). -/
def R.PPL_MC_LOG_HI (pl : Nat) (i : Nat) : Nat := 0x1000218 + 0x200000 * pl + 0x10 * i
def R.PPL_MC_LOG_HI_turn_hi (pl : Nat) (i : Nat) : Fld := ⟨R.PPL_MC_LOG_HI pl i, 0, 32⟩

/-- PPL_UCODE, R201 (07_action_stages_and_control_stores.md). -/
def R.PPL_UCODE (pl : Nat) : Nat := 0x1000300 + 0x200000 * pl
def R.PPL_UCODE_patch_level (pl : Nat) : Fld := ⟨R.PPL_UCODE pl, 0, 16⟩
def R.PPL_UCODE_shadow_valid (pl : Nat) : Fld := ⟨R.PPL_UCODE pl, 16, 1⟩

/-- PPL_UCODE_BASE, R201 (07_action_stages_and_control_stores.md). -/
def R.PPL_UCODE_BASE (pl : Nat) : Nat := 0x1000304 + 0x200000 * pl
def R.PPL_UCODE_BASE_base_level (pl : Nat) : Fld := ⟨R.PPL_UCODE_BASE pl, 0, 16⟩

/-- PPL_HOLD, R201 (07_action_stages_and_control_stores.md). -/
def R.PPL_HOLD (pl : Nat) (s : Nat) : Nat := 0x1000400 + 0x200000 * pl + 0x4 * s
def R.PPL_HOLD_held (pl : Nat) (s : Nat) : Fld := ⟨R.PPL_HOLD pl s, 0, 14⟩

/-- TXF_PL_INFLIGHT, R234 (08_transactions_and_determinism.md). -/
def R.TXF_PL_INFLIGHT (pl : Nat) : Nat := 0x2800000 + 0x20 * pl
def R.TXF_PL_INFLIGHT_numbers (pl : Nat) : Fld := ⟨R.TXF_PL_INFLIGHT pl, 0, 15⟩

/-- TXF_COMMITS, R234 (08_transactions_and_determinism.md). -/
def R.TXF_COMMITS (pl : Nat) : Nat := 0x2800004 + 0x20 * pl
def R.TXF_COMMITS_count (pl : Nat) : Fld := ⟨R.TXF_COMMITS pl, 0, 32⟩

/-- TXF_ABORTS, R234 (08_transactions_and_determinism.md). -/
def R.TXF_ABORTS (pl : Nat) : Nat := 0x2800008 + 0x20 * pl
def R.TXF_ABORTS_count (pl : Nat) : Fld := ⟨R.TXF_ABORTS pl, 0, 32⟩

/-- TXF_CONFLICT_STALLS, R234 (08_transactions_and_determinism.md). -/
def R.TXF_CONFLICT_STALLS (pl : Nat) : Nat := 0x280000c + 0x20 * pl
def R.TXF_CONFLICT_STALLS_count (pl : Nat) : Fld := ⟨R.TXF_CONFLICT_STALLS pl, 0, 32⟩

/-- TXF_CONFLICT_DROPS, R234 (08_transactions_and_determinism.md). -/
def R.TXF_CONFLICT_DROPS (pl : Nat) : Nat := 0x2800010 + 0x20 * pl
def R.TXF_CONFLICT_DROPS_count (pl : Nat) : Fld := ⟨R.TXF_CONFLICT_DROPS pl, 0, 32⟩

/-- TXF_POOL_STALLS, R234 (08_transactions_and_determinism.md). -/
def R.TXF_POOL_STALLS (pl : Nat) : Nat := 0x2800014 + 0x20 * pl
def R.TXF_POOL_STALLS_count (pl : Nat) : Fld := ⟨R.TXF_POOL_STALLS pl, 0, 32⟩

/-- TXF_CLASS_MISMATCH, R234 (08_transactions_and_determinism.md). -/
def R.TXF_CLASS_MISMATCH (pl : Nat) : Nat := 0x2800018 + 0x20 * pl
def R.TXF_CLASS_MISMATCH_count (pl : Nat) : Fld := ⟨R.TXF_CLASS_MISMATCH pl, 0, 32⟩

/-- TXF_REAPPLY, R234 (08_transactions_and_determinism.md). -/
def R.TXF_REAPPLY : Nat := 0x2800400
def R.TXF_REAPPLY_count : Fld := ⟨R.TXF_REAPPLY, 0, 32⟩

/-- TXF_LATE_INSERT, R234 (08_transactions_and_determinism.md). -/
def R.TXF_LATE_INSERT : Nat := 0x2800404
def R.TXF_LATE_INSERT_count : Fld := ⟨R.TXF_LATE_INSERT, 0, 32⟩

/-- TXF_RESULT_DIFF, R234 (08_transactions_and_determinism.md). -/
def R.TXF_RESULT_DIFF : Nat := 0x2800408
def R.TXF_RESULT_DIFF_count : Fld := ⟨R.TXF_RESULT_DIFF, 0, 32⟩

/-- TXF_SU, R234 (08_transactions_and_determinism.md). -/
def R.TXF_SU (u : Nat) : Nat := 0x2800800 + 0x4 * u
def R.TXF_SU_chain (u : Nat) : Fld := ⟨R.TXF_SU u, 0, 13⟩

/-- TXF_RPL_CTRL, R234 (08_transactions_and_determinism.md). -/
def R.TXF_RPL_CTRL : Nat := 0x2801000
def R.TXF_RPL_CTRL_en : Fld := ⟨R.TXF_RPL_CTRL, 0, 1⟩
def R.TXF_RPL_CTRL_start : Fld := ⟨R.TXF_RPL_CTRL, 1, 1⟩
def R.TXF_RPL_CTRL_size_log2 : Fld := ⟨R.TXF_RPL_CTRL, 2, 5⟩

/-- TXF_RPL_STATUS, R234 (08_transactions_and_determinism.md). -/
def R.TXF_RPL_STATUS : Nat := 0x2801004
def R.TXF_RPL_STATUS_busy : Fld := ⟨R.TXF_RPL_STATUS, 0, 1⟩
def R.TXF_RPL_STATUS_order_err : Fld := ⟨R.TXF_RPL_STATUS, 1, 1⟩
def R.TXF_RPL_STATUS_port_err : Fld := ⟨R.TXF_RPL_STATUS, 2, 1⟩

/-- TXF_RPL_BASE_LO, R234 (08_transactions_and_determinism.md). -/
def R.TXF_RPL_BASE_LO : Nat := 0x2801008
def R.TXF_RPL_BASE_LO_addr_lo : Fld := ⟨R.TXF_RPL_BASE_LO, 0, 32⟩

/-- TXF_RPL_BASE_HI, R234 (08_transactions_and_determinism.md). -/
def R.TXF_RPL_BASE_HI : Nat := 0x280100c
def R.TXF_RPL_BASE_HI_addr_hi : Fld := ⟨R.TXF_RPL_BASE_HI, 0, 32⟩

/-- TXF_RPL_HEAD, R234 (08_transactions_and_determinism.md). -/
def R.TXF_RPL_HEAD : Nat := 0x2801010
def R.TXF_RPL_HEAD_head : Fld := ⟨R.TXF_RPL_HEAD, 0, 24⟩

/-- TXF_RPL_TAIL, R234 (08_transactions_and_determinism.md). -/
def R.TXF_RPL_TAIL : Nat := 0x2801014
def R.TXF_RPL_TAIL_tail : Fld := ⟨R.TXF_RPL_TAIL, 0, 24⟩

/-- TXF_RPL_OFFSET_LO, R234 (08_transactions_and_determinism.md). -/
def R.TXF_RPL_OFFSET_LO : Nat := 0x2801018
def R.TXF_RPL_OFFSET_LO_turns_lo : Fld := ⟨R.TXF_RPL_OFFSET_LO, 0, 32⟩

/-- TXF_RPL_OFFSET_HI, R234 (08_transactions_and_determinism.md). -/
def R.TXF_RPL_OFFSET_HI : Nat := 0x280101c
def R.TXF_RPL_OFFSET_HI_turns_hi : Fld := ⟨R.TXF_RPL_OFFSET_HI, 0, 32⟩

/-- TXF_RPL_DISCARDS, R234 (08_transactions_and_determinism.md). -/
def R.TXF_RPL_DISCARDS : Nat := 0x2801020
def R.TXF_RPL_DISCARDS_count : Fld := ⟨R.TXF_RPL_DISCARDS, 0, 32⟩

/-- TXF_RPL_PORTS, R234 (08_transactions_and_determinism.md). -/
def R.TXF_RPL_PORTS (w : Nat) : Nat := 0x2801030 + 0x4 * w
def R.TXF_RPL_PORTS_ports (w : Nat) : Fld := ⟨R.TXF_RPL_PORTS w, 0, 32⟩

/-- TXT_TXN_w0, R235 (08_transactions_and_determinism.md). -/
def R.TXT_TXN_w0 (h : Nat) : Nat := 0xa000000 + 0x10 * h
def R.TXT_TXN_w0_state (h : Nat) : Fld := ⟨R.TXT_TXN_w0 h, 0, 3⟩
def R.TXT_TXN_w0_owner (h : Nat) : Fld := ⟨R.TXT_TXN_w0 h, 3, 1⟩
def R.TXT_TXN_w0_scope (h : Nat) : Fld := ⟨R.TXT_TXN_w0 h, 4, 1⟩
def R.TXT_TXN_w0_writes (h : Nat) : Fld := ⟨R.TXT_TXN_w0 h, 16, 13⟩

/-- TXT_TXN_w1, R235 (08_transactions_and_determinism.md). -/
def R.TXT_TXN_w1 (h : Nat) : Nat := 0xa000004 + 0x10 * h
def R.TXT_TXN_w1_last_status (h : Nat) : Fld := ⟨R.TXT_TXN_w1 h, 0, 8⟩
def R.TXT_TXN_w1_fail_cause (h : Nat) : Fld := ⟨R.TXT_TXN_w1 h, 8, 3⟩

/-- TXT_TXN_LO, R235 (08_transactions_and_determinism.md). -/
def R.TXT_TXN_LO (h : Nat) : Nat := 0xa000008 + 0x10 * h
def R.TXT_TXN_LO_turn_lo (h : Nat) : Fld := ⟨R.TXT_TXN_LO h, 0, 32⟩

/-- TXT_TXN_HI, R235 (08_transactions_and_determinism.md). -/
def R.TXT_TXN_HI (h : Nat) : Nat := 0xa00000c + 0x10 * h
def R.TXT_TXN_HI_turn_hi (h : Nat) : Fld := ⟨R.TXT_TXN_HI h, 0, 32⟩

/-- TXT_VERDICTS, R235 (08_transactions_and_determinism.md). -/
def R.TXT_VERDICTS : Nat := 0xa001000
def R.TXT_VERDICTS_count : Fld := ⟨R.TXT_VERDICTS, 0, 32⟩

/-- TXT_VERDICT_MAX, R235 (08_transactions_and_determinism.md). -/
def R.TXT_VERDICT_MAX : Nat := 0xa001004
def R.TXT_VERDICT_MAX_ns : Fld := ⟨R.TXT_VERDICT_MAX, 0, 13⟩

/-- TXT_FAILED_PREPARED, R235 (08_transactions_and_determinism.md). -/
def R.TXT_FAILED_PREPARED : Nat := 0xa001008
def R.TXT_FAILED_PREPARED_count : Fld := ⟨R.TXT_FAILED_PREPARED, 0, 32⟩

/-- TXT_STAGED, R235 (08_transactions_and_determinism.md). -/
def R.TXT_STAGED : Nat := 0xa00100c
def R.TXT_STAGED_writes : Fld := ⟨R.TXT_STAGED, 0, 17⟩

/-- BPM_STATUS, R261 (09_on_die_buffer_and_admission.md). -/
def R.BPM_STATUS : Nat := 0x8400000
def R.BPM_STATUS_empty : Fld := ⟨R.BPM_STATUS, 0, 1⟩
def R.BPM_STATUS_audit_busy : Fld := ⟨R.BPM_STATUS, 1, 1⟩

/-- BPM_POOL_w0, R261 (09_on_die_buffer_and_admission.md). -/
def R.BPM_POOL_w0 (k : Nat) : Nat := 0x8400100 + 0x20 * k
def R.BPM_POOL_w0_size_4mib (k : Nat) : Fld := ⟨R.BPM_POOL_w0 k, 0, 8⟩

/-- BPM_POOL_w1, R261 (09_on_die_buffer_and_admission.md). -/
def R.BPM_POOL_w1 (k : Nat) : Nat := 0x8400104 + 0x20 * k
def R.BPM_POOL_w1_base (k : Nat) : Fld := ⟨R.BPM_POOL_w1 k, 0, 28⟩

/-- BPM_POOL_w2, R261 (09_on_die_buffer_and_admission.md). -/
def R.BPM_POOL_w2 (k : Nat) : Nat := 0x8400108 + 0x20 * k
def R.BPM_POOL_w2_cells (k : Nat) : Fld := ⟨R.BPM_POOL_w2 k, 0, 19⟩

/-- BPM_POOL_w3, R261 (09_on_die_buffer_and_admission.md). -/
def R.BPM_POOL_w3 (k : Nat) : Nat := 0x840010c + 0x20 * k
def R.BPM_POOL_w3_hard_limit (k : Nat) : Fld := ⟨R.BPM_POOL_w3 k, 0, 19⟩

/-- BPM_POOL_w4, R261 (09_on_die_buffer_and_admission.md). -/
def R.BPM_POOL_w4 (k : Nat) : Nat := 0x8400110 + 0x20 * k
def R.BPM_POOL_w4_egress_reserve (k : Nat) : Fld := ⟨R.BPM_POOL_w4 k, 0, 19⟩

/-- BPM_POOL_w5, R261 (09_on_die_buffer_and_admission.md). -/
def R.BPM_POOL_w5 (k : Nat) : Nat := 0x8400114 + 0x20 * k
def R.BPM_POOL_w5_ingress_use (k : Nat) : Fld := ⟨R.BPM_POOL_w5 k, 0, 19⟩

/-- BPM_POOL_w6, R261 (09_on_die_buffer_and_admission.md). -/
def R.BPM_POOL_w6 (k : Nat) : Nat := 0x8400118 + 0x20 * k
def R.BPM_POOL_w6_egress_use (k : Nat) : Fld := ⟨R.BPM_POOL_w6 k, 0, 19⟩

/-- BPM_POOL_w7, R261 (09_on_die_buffer_and_admission.md). -/
def R.BPM_POOL_w7 (k : Nat) : Nat := 0x840011c + 0x20 * k
def R.BPM_POOL_w7_ingress_peak (k : Nat) : Fld := ⟨R.BPM_POOL_w7 k, 0, 19⟩

/-- BPM_DESC_LIMIT, R261 (09_on_die_buffer_and_admission.md). -/
def R.BPM_DESC_LIMIT : Nat := 0x8400200
def R.BPM_DESC_LIMIT_limit : Fld := ⟨R.BPM_DESC_LIMIT, 0, 22⟩

/-- BPM_DESC_INGRESS, R261 (09_on_die_buffer_and_admission.md). -/
def R.BPM_DESC_INGRESS : Nat := 0x8400204
def R.BPM_DESC_INGRESS_count : Fld := ⟨R.BPM_DESC_INGRESS, 0, 22⟩

/-- BPM_DESC_EGRESS, R261 (09_on_die_buffer_and_admission.md). -/
def R.BPM_DESC_EGRESS : Nat := 0x8400208
def R.BPM_DESC_EGRESS_count : Fld := ⟨R.BPM_DESC_EGRESS, 0, 22⟩

/-- BPM_PTR_RANGE, R261 (09_on_die_buffer_and_admission.md). -/
def R.BPM_PTR_RANGE : Nat := 0x8400300
def R.BPM_PTR_RANGE_count : Fld := ⟨R.BPM_PTR_RANGE, 0, 32⟩

/-- BPM_PTR_ALIGN, R261 (09_on_die_buffer_and_admission.md). -/
def R.BPM_PTR_ALIGN : Nat := 0x8400304
def R.BPM_PTR_ALIGN_count : Fld := ⟨R.BPM_PTR_ALIGN, 0, 32⟩

/-- BPM_PTR_STATE, R261 (09_on_die_buffer_and_admission.md). -/
def R.BPM_PTR_STATE : Nat := 0x8400308
def R.BPM_PTR_STATE_count : Fld := ⟨R.BPM_PTR_STATE, 0, 32⟩

/-- BPM_OWNER_VIOL, R261 (09_on_die_buffer_and_admission.md). -/
def R.BPM_OWNER_VIOL : Nat := 0x840030c
def R.BPM_OWNER_VIOL_count : Fld := ⟨R.BPM_OWNER_VIOL, 0, 32⟩

/-- BPM_STAGE_EXPIRED, R261 (09_on_die_buffer_and_admission.md). -/
def R.BPM_STAGE_EXPIRED : Nat := 0x8400310
def R.BPM_STAGE_EXPIRED_count : Fld := ⟨R.BPM_STAGE_EXPIRED, 0, 32⟩

/-- BPM_LEAKED, R261 (09_on_die_buffer_and_admission.md). -/
def R.BPM_LEAKED : Nat := 0x8400314
def R.BPM_LEAKED_cells : Fld := ⟨R.BPM_LEAKED, 0, 22⟩

/-- BPM_PTR_LOG_CTRL, R261 (09_on_die_buffer_and_admission.md). -/
def R.BPM_PTR_LOG_CTRL : Nat := 0x8400400
def R.BPM_PTR_LOG_CTRL_next : Fld := ⟨R.BPM_PTR_LOG_CTRL, 0, 4⟩
def R.BPM_PTR_LOG_CTRL_wrapped : Fld := ⟨R.BPM_PTR_LOG_CTRL, 4, 1⟩

/-- BPM_PTR_LOG_w0, R261 (09_on_die_buffer_and_admission.md). -/
def R.BPM_PTR_LOG_w0 (i : Nat) : Nat := 0x8400410 + 0x10 * i
def R.BPM_PTR_LOG_w0_pointer (i : Nat) : Fld := ⟨R.BPM_PTR_LOG_w0 i, 0, 30⟩

/-- BPM_PTR_LOG_w1, R261 (09_on_die_buffer_and_admission.md). -/
def R.BPM_PTR_LOG_w1 (i : Nat) : Nat := 0x8400414 + 0x10 * i
def R.BPM_PTR_LOG_w1_kind (i : Nat) : Fld := ⟨R.BPM_PTR_LOG_w1 i, 0, 2⟩
def R.BPM_PTR_LOG_w1_requester (i : Nat) : Fld := ⟨R.BPM_PTR_LOG_w1 i, 2, 3⟩
def R.BPM_PTR_LOG_w1_owner (i : Nat) : Fld := ⟨R.BPM_PTR_LOG_w1 i, 5, 6⟩
def R.BPM_PTR_LOG_w1_valid (i : Nat) : Fld := ⟨R.BPM_PTR_LOG_w1 i, 31, 1⟩

/-- BPM_PTR_LOG_LO, R261 (09_on_die_buffer_and_admission.md). -/
def R.BPM_PTR_LOG_LO (i : Nat) : Nat := 0x8400418 + 0x10 * i
def R.BPM_PTR_LOG_LO_turn_lo (i : Nat) : Fld := ⟨R.BPM_PTR_LOG_LO i, 0, 32⟩

/-- BPM_PTR_LOG_HI, R261 (09_on_die_buffer_and_admission.md). -/
def R.BPM_PTR_LOG_HI (i : Nat) : Nat := 0x840041c + 0x10 * i
def R.BPM_PTR_LOG_HI_turn_hi (i : Nat) : Fld := ⟨R.BPM_PTR_LOG_HI i, 0, 32⟩

/-- BPM_AUDIT_CTRL, R261 (09_on_die_buffer_and_admission.md). -/
def R.BPM_AUDIT_CTRL : Nat := 0x8400600
def R.BPM_AUDIT_CTRL_start : Fld := ⟨R.BPM_AUDIT_CTRL, 0, 1⟩

/-- BPM_AUDIT_STATUS, R261 (09_on_die_buffer_and_admission.md). -/
def R.BPM_AUDIT_STATUS : Nat := 0x8400604
def R.BPM_AUDIT_STATUS_done : Fld := ⟨R.BPM_AUDIT_STATUS, 0, 1⟩

/-- BPM_AUDIT_FREED, R261 (09_on_die_buffer_and_admission.md). -/
def R.BPM_AUDIT_FREED : Nat := 0x8400608
def R.BPM_AUDIT_FREED_cells : Fld := ⟨R.BPM_AUDIT_FREED, 0, 22⟩

/-- QMG_ECN_CFG, R262 (09_on_die_buffer_and_admission.md). -/
def R.QMG_ECN_CFG : Nat := 0x9000000
def R.QMG_ECN_CFG_ect_bit : Fld := ⟨R.QMG_ECN_CFG, 0, 6⟩
def R.QMG_ECN_CFG_ce_bit : Fld := ⟨R.QMG_ECN_CFG, 8, 6⟩
def R.QMG_ECN_CFG_en : Fld := ⟨R.QMG_ECN_CFG, 16, 1⟩

/-- QMG_WRED_SEED, R262 (09_on_die_buffer_and_admission.md). -/
def R.QMG_WRED_SEED : Nat := 0x9000004
def R.QMG_WRED_SEED_seed : Fld := ⟨R.QMG_WRED_SEED, 0, 32⟩

/-- QMG_DROP_MIRROR, R262 (09_on_die_buffer_and_admission.md). -/
def R.QMG_DROP_MIRROR : Nat := 0x9000010
def R.QMG_DROP_MIRROR_reasons : Fld := ⟨R.QMG_DROP_MIRROR, 0, 5⟩
def R.QMG_DROP_MIRROR_session : Fld := ⟨R.QMG_DROP_MIRROR, 8, 4⟩
def R.QMG_DROP_MIRROR_sample_log2 : Fld := ⟨R.QMG_DROP_MIRROR, 12, 5⟩

/-- QMG_DROP_MIRROR_LOST, R262 (09_on_die_buffer_and_admission.md). -/
def R.QMG_DROP_MIRROR_LOST : Nat := 0x9000014
def R.QMG_DROP_MIRROR_LOST_count : Fld := ⟨R.QMG_DROP_MIRROR_LOST, 0, 32⟩

/-- QMG_REFUSED, R262 (09_on_die_buffer_and_admission.md). -/
def R.QMG_REFUSED (r : Nat) : Nat := 0x9000020 + 0x4 * r
def R.QMG_REFUSED_count (r : Nat) : Fld := ⟨R.QMG_REFUSED r, 0, 32⟩

/-- QMG_ECN_MARKED, R262 (09_on_die_buffer_and_admission.md). -/
def R.QMG_ECN_MARKED : Nat := 0x9000040
def R.QMG_ECN_MARKED_count : Fld := ⟨R.QMG_ECN_MARKED, 0, 32⟩

/-- QMG_DECISIONS, R262 (09_on_die_buffer_and_admission.md). -/
def R.QMG_DECISIONS : Nat := 0x9000044
def R.QMG_DECISIONS_count : Fld := ⟨R.QMG_DECISIONS, 0, 32⟩

/-- QMG_QSEL, R262 (09_on_die_buffer_and_admission.md). -/
def R.QMG_QSEL : Nat := 0x9000100
def R.QMG_QSEL_voq : Fld := ⟨R.QMG_QSEL, 0, 19⟩

/-- QMG_QINFO, R262 (09_on_die_buffer_and_admission.md). -/
def R.QMG_QINFO : Nat := 0x9000104
def R.QMG_QINFO_profile : Fld := ⟨R.QMG_QINFO, 0, 8⟩
def R.QMG_QINFO_spill : Fld := ⟨R.QMG_QINFO, 8, 1⟩
def R.QMG_QINFO_held : Fld := ⟨R.QMG_QINFO, 9, 1⟩
def R.QMG_QINFO_empty : Fld := ⟨R.QMG_QINFO, 10, 1⟩
def R.QMG_QINFO_valid : Fld := ⟨R.QMG_QINFO, 31, 1⟩

/-- QMG_QDEPTH_ONDIE_LO, R262 (09_on_die_buffer_and_admission.md). -/
def R.QMG_QDEPTH_ONDIE_LO : Nat := 0x9000108
def R.QMG_QDEPTH_ONDIE_LO_bytes_lo : Fld := ⟨R.QMG_QDEPTH_ONDIE_LO, 0, 32⟩

/-- QMG_QDEPTH_ONDIE_HI, R262 (09_on_die_buffer_and_admission.md). -/
def R.QMG_QDEPTH_ONDIE_HI : Nat := 0x900010c
def R.QMG_QDEPTH_ONDIE_HI_bytes_hi : Fld := ⟨R.QMG_QDEPTH_ONDIE_HI, 0, 32⟩

/-- QMG_QDEPTH_TOTAL_LO, R262 (09_on_die_buffer_and_admission.md). -/
def R.QMG_QDEPTH_TOTAL_LO : Nat := 0x9000110
def R.QMG_QDEPTH_TOTAL_LO_bytes_lo : Fld := ⟨R.QMG_QDEPTH_TOTAL_LO, 0, 32⟩

/-- QMG_QDEPTH_TOTAL_HI, R262 (09_on_die_buffer_and_admission.md). -/
def R.QMG_QDEPTH_TOTAL_HI : Nat := 0x9000114
def R.QMG_QDEPTH_TOTAL_HI_bytes_hi : Fld := ⟨R.QMG_QDEPTH_TOTAL_HI, 0, 32⟩

/-- QMG_QAVG, R262 (09_on_die_buffer_and_admission.md). -/
def R.QMG_QAVG : Nat := 0x9000118
def R.QMG_QAVG_avg : Fld := ⟨R.QMG_QAVG, 0, 32⟩

/-- HBC_STATUS, R295 (10_hbm_tier_reservoir_holdover.md). -/
def R.HBC_STATUS (s : Nat) : Nat := 0x8800000 + 0x40000 * s
def R.HBC_STATUS_ready (s : Nat) : Fld := ⟨R.HBC_STATUS s, 0, 1⟩
def R.HBC_STATUS_panic (s : Nat) : Fld := ⟨R.HBC_STATUS s, 1, 1⟩

/-- HBC_RD_OUT, R295 (10_hbm_tier_reservoir_holdover.md). -/
def R.HBC_RD_OUT (s : Nat) : Nat := 0x8800004 + 0x40000 * s
def R.HBC_RD_OUT_reads (s : Nat) : Fld := ⟨R.HBC_RD_OUT s, 0, 15⟩

/-- HBC_QOS, R295 (10_hbm_tier_reservoir_holdover.md). -/
def R.HBC_QOS (s : Nat) : Nat := 0x8800010 + 0x40000 * s
def R.HBC_QOS_w_deq (s : Nat) : Fld := ⟨R.HBC_QOS s, 0, 4⟩
def R.HBC_QOS_w_wr (s : Nat) : Fld := ⟨R.HBC_QOS s, 4, 4⟩
def R.HBC_QOS_w_tbl (s : Nat) : Fld := ⟨R.HBC_QOS s, 8, 4⟩
def R.HBC_QOS_w_mig (s : Nat) : Fld := ⟨R.HBC_QOS s, 12, 4⟩
def R.HBC_QOS_panic_wm (s : Nat) : Fld := ⟨R.HBC_QOS s, 16, 7⟩

/-- HBC_PANIC, R295 (10_hbm_tier_reservoir_holdover.md). -/
def R.HBC_PANIC (s : Nat) : Nat := 0x8800014 + 0x40000 * s
def R.HBC_PANIC_count (s : Nat) : Fld := ⟨R.HBC_PANIC s, 0, 32⟩

/-- HBC_TEMP, R295 (10_hbm_tier_reservoir_holdover.md). -/
def R.HBC_TEMP (s : Nat) : Nat := 0x8800018 + 0x40000 * s
def R.HBC_TEMP_band (s : Nat) : Fld := ⟨R.HBC_TEMP s, 0, 3⟩

/-- HBC_RD_BYTES_LO, R295 (10_hbm_tier_reservoir_holdover.md). -/
def R.HBC_RD_BYTES_LO (s : Nat) : Nat := 0x8800020 + 0x40000 * s
def R.HBC_RD_BYTES_LO_bytes_lo (s : Nat) : Fld := ⟨R.HBC_RD_BYTES_LO s, 0, 32⟩

/-- HBC_RD_BYTES_HI, R295 (10_hbm_tier_reservoir_holdover.md). -/
def R.HBC_RD_BYTES_HI (s : Nat) : Nat := 0x8800024 + 0x40000 * s
def R.HBC_RD_BYTES_HI_bytes_hi (s : Nat) : Fld := ⟨R.HBC_RD_BYTES_HI s, 0, 32⟩

/-- HBC_WR_BYTES_LO, R295 (10_hbm_tier_reservoir_holdover.md). -/
def R.HBC_WR_BYTES_LO (s : Nat) : Nat := 0x8800028 + 0x40000 * s
def R.HBC_WR_BYTES_LO_bytes_lo (s : Nat) : Fld := ⟨R.HBC_WR_BYTES_LO s, 0, 32⟩

/-- HBC_WR_BYTES_HI, R295 (10_hbm_tier_reservoir_holdover.md). -/
def R.HBC_WR_BYTES_HI (s : Nat) : Nat := 0x880002c + 0x40000 * s
def R.HBC_WR_BYTES_HI_bytes_hi (s : Nat) : Fld := ⟨R.HBC_WR_BYTES_HI s, 0, 32⟩

/-- HBC_MAP, R295 (10_hbm_tier_reservoir_holdover.md). -/
def R.HBC_MAP : Nat := 0x883f000
def R.HBC_MAP_grain : Fld := ⟨R.HBC_MAP, 0, 2⟩

/-- HBC_PART, R295 (10_hbm_tier_reservoir_holdover.md). -/
def R.HBC_PART : Nat := 0x883f004
def R.HBC_PART_table_pages : Fld := ⟨R.HBC_PART, 0, 22⟩

/-- HBC_FREE_PAGES, R295 (10_hbm_tier_reservoir_holdover.md). -/
def R.HBC_FREE_PAGES : Nat := 0x883f008
def R.HBC_FREE_PAGES_pages : Fld := ⟨R.HBC_FREE_PAGES, 0, 25⟩

/-- HBC_EGRESS_RESERVE, R295 (10_hbm_tier_reservoir_holdover.md). -/
def R.HBC_EGRESS_RESERVE : Nat := 0x883f00c
def R.HBC_EGRESS_RESERVE_pages : Fld := ⟨R.HBC_EGRESS_RESERVE, 0, 25⟩

/-- RSV_PORT_LC, R296 (10_hbm_tier_reservoir_holdover.md). -/
def R.RSV_PORT_LC (n : Nat) : Nat := 0x8c00000 + 0x40 * n
def R.RSV_PORT_LC_state (n : Nat) : Fld := ⟨R.RSV_PORT_LC n, 0, 2⟩
def R.RSV_PORT_LC_pend_up (n : Nat) : Fld := ⟨R.RSV_PORT_LC n, 2, 1⟩
def R.RSV_PORT_LC_enable (n : Nat) : Fld := ⟨R.RSV_PORT_LC n, 8, 1⟩
def R.RSV_PORT_LC_disable (n : Nat) : Fld := ⟨R.RSV_PORT_LC n, 9, 1⟩

/-- RSV_PORT_STATUS, R296 (10_hbm_tier_reservoir_holdover.md). -/
def R.RSV_PORT_STATUS (n : Nat) : Nat := 0x8c00004 + 0x40 * n
def R.RSV_PORT_STATUS_link_up (n : Nat) : Fld := ⟨R.RSV_PORT_STATUS n, 0, 1⟩
def R.RSV_PORT_STATUS_x4 (n : Nat) : Fld := ⟨R.RSV_PORT_STATUS n, 1, 1⟩
def R.RSV_PORT_STATUS_gt32 (n : Nat) : Fld := ⟨R.RSV_PORT_STATUS n, 2, 1⟩
def R.RSV_PORT_STATUS_fill_done (n : Nat) : Fld := ⟨R.RSV_PORT_STATUS n, 3, 1⟩
def R.RSV_PORT_STATUS_fill_pct (n : Nat) : Fld := ⟨R.RSV_PORT_STATUS n, 4, 7⟩

/-- RSV_PORT_CAP, R296 (10_hbm_tier_reservoir_holdover.md). -/
def R.RSV_PORT_CAP (n : Nat) : Nat := 0x8c00008 + 0x40 * n
def R.RSV_PORT_CAP_pages (n : Nat) : Fld := ⟨R.RSV_PORT_CAP n, 0, 23⟩

/-- RSV_PORT_FREE, R296 (10_hbm_tier_reservoir_holdover.md). -/
def R.RSV_PORT_FREE (n : Nat) : Nat := 0x8c0000c + 0x40 * n
def R.RSV_PORT_FREE_pages (n : Nat) : Fld := ⟨R.RSV_PORT_FREE n, 0, 23⟩

/-- RSV_PORT_POISON, R296 (10_hbm_tier_reservoir_holdover.md). -/
def R.RSV_PORT_POISON (n : Nat) : Nat := 0x8c00010 + 0x40 * n
def R.RSV_PORT_POISON_count (n : Nat) : Fld := ⟨R.RSV_PORT_POISON n, 0, 32⟩

/-- RSV_PORT_LOST, R296 (10_hbm_tier_reservoir_holdover.md). -/
def R.RSV_PORT_LOST (n : Nat) : Nat := 0x8c00014 + 0x40 * n
def R.RSV_PORT_LOST_count (n : Nat) : Fld := ⟨R.RSV_PORT_LOST n, 0, 32⟩

/-- RSV_STATUS, R296 (10_hbm_tier_reservoir_holdover.md). -/
def R.RSV_STATUS : Nat := 0x8c01000
def R.RSV_STATUS_ready : Fld := ⟨R.RSV_STATUS, 0, 1⟩

/-- RSV_HOLD_w0, R296 (10_hbm_tier_reservoir_holdover.md). -/
def R.RSV_HOLD_w0 (e : Nat) : Nat := 0x8c01100 + 0x10 * e
def R.RSV_HOLD_w0_state (e : Nat) : Fld := ⟨R.RSV_HOLD_w0 e, 0, 2⟩
def R.RSV_HOLD_w0_pend_up (e : Nat) : Fld := ⟨R.RSV_HOLD_w0 e, 2, 1⟩
def R.RSV_HOLD_w0_port_valid (e : Nat) : Fld := ⟨R.RSV_HOLD_w0 e, 3, 1⟩
def R.RSV_HOLD_w0_tc_mask (e : Nat) : Fld := ⟨R.RSV_HOLD_w0 e, 4, 8⟩
def R.RSV_HOLD_w0_port (e : Nat) : Fld := ⟨R.RSV_HOLD_w0 e, 12, 7⟩
def R.RSV_HOLD_w0_device (e : Nat) : Fld := ⟨R.RSV_HOLD_w0 e, 19, 9⟩
def R.RSV_HOLD_w0_auto (e : Nat) : Fld := ⟨R.RSV_HOLD_w0 e, 28, 1⟩

/-- RSV_HOLD_w1, R296 (10_hbm_tier_reservoir_holdover.md). -/
def R.RSV_HOLD_w1 (e : Nat) : Nat := 0x8c01104 + 0x10 * e
def R.RSV_HOLD_w1_limit_s (e : Nat) : Fld := ⟨R.RSV_HOLD_w1 e, 0, 10⟩
def R.RSV_HOLD_w1_rate (e : Nat) : Fld := ⟨R.RSV_HOLD_w1 e, 10, 15⟩

/-- RSV_HOLD_LO, R296 (10_hbm_tier_reservoir_holdover.md). -/
def R.RSV_HOLD_LO (e : Nat) : Nat := 0x8c01108 + 0x10 * e
def R.RSV_HOLD_LO_held_bytes_lo (e : Nat) : Fld := ⟨R.RSV_HOLD_LO e, 0, 32⟩

/-- RSV_HOLD_HI, R296 (10_hbm_tier_reservoir_holdover.md). -/
def R.RSV_HOLD_HI (e : Nat) : Nat := 0x8c0110c + 0x10 * e
def R.RSV_HOLD_HI_held_bytes_hi (e : Nat) : Fld := ⟨R.RSV_HOLD_HI e, 0, 32⟩

/-- RSV_AUTO_HOLD, R296 (10_hbm_tier_reservoir_holdover.md). -/
def R.RSV_AUTO_HOLD (w : Nat) : Nat := 0x8c02000 + 0x4 * w
def R.RSV_AUTO_HOLD_devices (w : Nat) : Fld := ⟨R.RSV_AUTO_HOLD w, 0, 32⟩

/-- RSV_AUTO_CFG, R296 (10_hbm_tier_reservoir_holdover.md). -/
def R.RSV_AUTO_CFG : Nat := 0x8c02040
def R.RSV_AUTO_CFG_tc_mask : Fld := ⟨R.RSV_AUTO_CFG, 0, 8⟩
def R.RSV_AUTO_CFG_limit_s : Fld := ⟨R.RSV_AUTO_CFG, 8, 10⟩
def R.RSV_AUTO_CFG_auto_release : Fld := ⟨R.RSV_AUTO_CFG, 18, 1⟩
def R.RSV_AUTO_CFG_rate_gbps : Fld := ⟨R.RSV_AUTO_CFG, 20, 12⟩

/-- RSV_AUTO_MISSED, R296 (10_hbm_tier_reservoir_holdover.md). -/
def R.RSV_AUTO_MISSED : Nat := 0x8c02044
def R.RSV_AUTO_MISSED_count : Fld := ⟨R.RSV_AUTO_MISSED, 0, 32⟩

/-- QMG_AGE_LIMIT, R297 (10_hbm_tier_reservoir_holdover.md). -/
def R.QMG_AGE_LIMIT (t : Nat) : Nat := 0x9000200 + 0x4 * t
def R.QMG_AGE_LIMIT_ms (t : Nat) : Fld := ⟨R.QMG_AGE_LIMIT t, 0, 16⟩

/-- QMG_SPILL_WM, R297 (10_hbm_tier_reservoir_holdover.md). -/
def R.QMG_SPILL_WM : Nat := 0x9000220
def R.QMG_SPILL_WM_mib : Fld := ⟨R.QMG_SPILL_WM, 0, 8⟩

/-- QMG_SPILL_ENTRIES, R297 (10_hbm_tier_reservoir_holdover.md). -/
def R.QMG_SPILL_ENTRIES : Nat := 0x9000224
def R.QMG_SPILL_ENTRIES_count : Fld := ⟨R.QMG_SPILL_ENTRIES, 0, 32⟩

/-- QMG_SPILLING, R297 (10_hbm_tier_reservoir_holdover.md). -/
def R.QMG_SPILLING : Nat := 0x9000228
def R.QMG_SPILLING_queues : Fld := ⟨R.QMG_SPILLING, 0, 21⟩

/-- MIF_STATUS, R325 (11_memory_integrity.md). -/
def R.MIF_STATUS : Nat := 0x3000000
def R.MIF_STATUS_fd_fill_done : Fld := ⟨R.MIF_STATUS, 0, 1⟩
def R.MIF_STATUS_td_fill_done : Fld := ⟨R.MIF_STATUS, 1, 1⟩
def R.MIF_STATUS_hbm_fill_done : Fld := ⟨R.MIF_STATUS, 2, 1⟩

/-- MIF_PATROL_CFG, R325 (11_memory_integrity.md). -/
def R.MIF_PATROL_CFG : Nat := 0x3000010
def R.MIF_PATROL_CFG_period_s : Fld := ⟨R.MIF_PATROL_CFG, 0, 8⟩
def R.MIF_PATROL_CFG_en : Fld := ⟨R.MIF_PATROL_CFG, 8, 1⟩
def R.MIF_PATROL_CFG_hbm_period_s : Fld := ⟨R.MIF_PATROL_CFG, 16, 8⟩
def R.MIF_PATROL_CFG_hbm_en : Fld := ⟨R.MIF_PATROL_CFG, 24, 1⟩

/-- MIF_PR_BASE_LO, R325 (11_memory_integrity.md). -/
def R.MIF_PR_BASE_LO : Nat := 0x3000020
def R.MIF_PR_BASE_LO_addr_lo : Fld := ⟨R.MIF_PR_BASE_LO, 0, 32⟩

/-- MIF_PR_BASE_HI, R325 (11_memory_integrity.md). -/
def R.MIF_PR_BASE_HI : Nat := 0x3000024
def R.MIF_PR_BASE_HI_addr_hi : Fld := ⟨R.MIF_PR_BASE_HI, 0, 32⟩

/-- MIF_PR_CFG, R325 (11_memory_integrity.md). -/
def R.MIF_PR_CFG : Nat := 0x3000028
def R.MIF_PR_CFG_size_log2 : Fld := ⟨R.MIF_PR_CFG, 0, 5⟩
def R.MIF_PR_CFG_vector : Fld := ⟨R.MIF_PR_CFG, 8, 6⟩
def R.MIF_PR_CFG_en : Fld := ⟨R.MIF_PR_CFG, 14, 1⟩

/-- MIF_PR_HEAD, R325 (11_memory_integrity.md). -/
def R.MIF_PR_HEAD : Nat := 0x300002c
def R.MIF_PR_HEAD_head : Fld := ⟨R.MIF_PR_HEAD, 0, 16⟩

/-- MIF_PR_TAIL, R325 (11_memory_integrity.md). -/
def R.MIF_PR_TAIL : Nat := 0x3000030
def R.MIF_PR_TAIL_tail : Fld := ⟨R.MIF_PR_TAIL, 0, 16⟩

/-- MIF_PR_LOST, R325 (11_memory_integrity.md). -/
def R.MIF_PR_LOST : Nat := 0x3000034
def R.MIF_PR_LOST_count : Fld := ⟨R.MIF_PR_LOST, 0, 32⟩

/-- MIF_CE, R325 (11_memory_integrity.md). -/
def R.MIF_CE (m : Nat) : Nat := 0x3000100 + 0x8 * m
def R.MIF_CE_count (m : Nat) : Fld := ⟨R.MIF_CE m, 0, 32⟩

/-- MIF_UE, R325 (11_memory_integrity.md). -/
def R.MIF_UE (m : Nat) : Nat := 0x3000104 + 0x8 * m
def R.MIF_UE_count (m : Nat) : Fld := ⟨R.MIF_UE m, 0, 32⟩

/-- MIF_POISON_SRC, R325 (11_memory_integrity.md). -/
def R.MIF_POISON_SRC (o : Nat) : Nat := 0x3000200 + 0x4 * o
def R.MIF_POISON_SRC_count (o : Nat) : Fld := ⟨R.MIF_POISON_SRC o, 0, 32⟩

/-- MIF_POISON_CONSUMED, R325 (11_memory_integrity.md). -/
def R.MIF_POISON_CONSUMED : Nat := 0x3000220
def R.MIF_POISON_CONSUMED_count : Fld := ⟨R.MIF_POISON_CONSUMED, 0, 32⟩

/-- MIF_POISON_STOMPED, R325 (11_memory_integrity.md). -/
def R.MIF_POISON_STOMPED : Nat := 0x3000224
def R.MIF_POISON_STOMPED_count : Fld := ⟨R.MIF_POISON_STOMPED, 0, 32⟩

/-- MIF_ELOG_CTRL, R325 (11_memory_integrity.md). -/
def R.MIF_ELOG_CTRL : Nat := 0x3000300
def R.MIF_ELOG_CTRL_next : Fld := ⟨R.MIF_ELOG_CTRL, 0, 5⟩
def R.MIF_ELOG_CTRL_wrapped : Fld := ⟨R.MIF_ELOG_CTRL, 5, 1⟩

/-- MIF_ELOG_w0, R325 (11_memory_integrity.md). -/
def R.MIF_ELOG_w0 (i : Nat) : Nat := 0x3000400 + 0x10 * i
def R.MIF_ELOG_w0_kind (i : Nat) : Fld := ⟨R.MIF_ELOG_w0 i, 0, 4⟩
def R.MIF_ELOG_w0_memory (i : Nat) : Fld := ⟨R.MIF_ELOG_w0 i, 4, 4⟩
def R.MIF_ELOG_w0_stack (i : Nat) : Fld := ⟨R.MIF_ELOG_w0 i, 8, 3⟩
def R.MIF_ELOG_w0_rank (i : Nat) : Fld := ⟨R.MIF_ELOG_w0 i, 11, 7⟩
def R.MIF_ELOG_w0_rank_valid (i : Nat) : Fld := ⟨R.MIF_ELOG_w0 i, 18, 1⟩
def R.MIF_ELOG_w0_valid (i : Nat) : Fld := ⟨R.MIF_ELOG_w0 i, 31, 1⟩

/-- MIF_ELOG_w1, R325 (11_memory_integrity.md). -/
def R.MIF_ELOG_w1 (i : Nat) : Nat := 0x3000404 + 0x10 * i
def R.MIF_ELOG_w1_address (i : Nat) : Fld := ⟨R.MIF_ELOG_w1 i, 0, 32⟩

/-- MIF_ELOG_LO, R325 (11_memory_integrity.md). -/
def R.MIF_ELOG_LO (i : Nat) : Nat := 0x3000408 + 0x10 * i
def R.MIF_ELOG_LO_turn_lo (i : Nat) : Fld := ⟨R.MIF_ELOG_LO i, 0, 32⟩

/-- MIF_ELOG_HI, R325 (11_memory_integrity.md). -/
def R.MIF_ELOG_HI (i : Nat) : Nat := 0x300040c + 0x10 * i
def R.MIF_ELOG_HI_turn_hi (i : Nat) : Fld := ⟨R.MIF_ELOG_HI i, 0, 32⟩

/-- MIF_DIAG_CTRL, R325 (11_memory_integrity.md). -/
def R.MIF_DIAG_CTRL : Nat := 0x3000800
def R.MIF_DIAG_CTRL_op : Fld := ⟨R.MIF_DIAG_CTRL, 0, 2⟩
def R.MIF_DIAG_CTRL_memory : Fld := ⟨R.MIF_DIAG_CTRL, 2, 3⟩
def R.MIF_DIAG_CTRL_go : Fld := ⟨R.MIF_DIAG_CTRL, 5, 1⟩
def R.MIF_DIAG_CTRL_seg_mask : Fld := ⟨R.MIF_DIAG_CTRL, 6, 10⟩
def R.MIF_DIAG_CTRL_key : Fld := ⟨R.MIF_DIAG_CTRL, 16, 16⟩

/-- MIF_DIAG_ADDR, R325 (11_memory_integrity.md). -/
def R.MIF_DIAG_ADDR : Nat := 0x3000804
def R.MIF_DIAG_ADDR_address : Fld := ⟨R.MIF_DIAG_ADDR, 0, 32⟩

/-- MIF_DIAG_UNIT, R325 (11_memory_integrity.md). -/
def R.MIF_DIAG_UNIT : Nat := 0x3000808
def R.MIF_DIAG_UNIT_unit : Fld := ⟨R.MIF_DIAG_UNIT, 0, 6⟩

/-- MIF_DIAG_BUF_LO, R325 (11_memory_integrity.md). -/
def R.MIF_DIAG_BUF_LO : Nat := 0x3000810
def R.MIF_DIAG_BUF_LO_addr_lo : Fld := ⟨R.MIF_DIAG_BUF_LO, 0, 32⟩

/-- MIF_DIAG_BUF_HI, R325 (11_memory_integrity.md). -/
def R.MIF_DIAG_BUF_HI : Nat := 0x3000814
def R.MIF_DIAG_BUF_HI_addr_hi : Fld := ⟨R.MIF_DIAG_BUF_HI, 0, 32⟩

/-- MIF_DIAG_STATUS, R325 (11_memory_integrity.md). -/
def R.MIF_DIAG_STATUS : Nat := 0x3000818
def R.MIF_DIAG_STATUS_busy : Fld := ⟨R.MIF_DIAG_STATUS, 0, 1⟩
def R.MIF_DIAG_STATUS_done : Fld := ⟨R.MIF_DIAG_STATUS, 1, 1⟩
def R.MIF_DIAG_STATUS_error : Fld := ⟨R.MIF_DIAG_STATUS, 2, 1⟩
def R.MIF_DIAG_STATUS_verdict : Fld := ⟨R.MIF_DIAG_STATUS, 3, 3⟩
def R.MIF_DIAG_STATUS_segment : Fld := ⟨R.MIF_DIAG_STATUS, 6, 4⟩

/-- HBC_RANK_CFG, R326 (11_memory_integrity.md). -/
def R.HBC_RANK_CFG (s : Nat) : Nat := 0x8800040 + 0x40000 * s
def R.HBC_RANK_CFG_ce_threshold (s : Nat) : Fld := ⟨R.HBC_RANK_CFG s, 0, 16⟩
def R.HBC_RANK_CFG_window_s (s : Nat) : Fld := ⟨R.HBC_RANK_CFG s, 16, 8⟩
def R.HBC_RANK_CFG_ue_threshold (s : Nat) : Fld := ⟨R.HBC_RANK_CFG s, 24, 4⟩

/-- HBC_SPARES, R326 (11_memory_integrity.md). -/
def R.HBC_SPARES (s : Nat) : Nat := 0x8800044 + 0x40000 * s
def R.HBC_SPARES_free (s : Nat) : Fld := ⟨R.HBC_SPARES s, 0, 3⟩
def R.HBC_SPARES_exposed (s : Nat) : Fld := ⟨R.HBC_SPARES s, 3, 1⟩
def R.HBC_SPARES_erased (s : Nat) : Fld := ⟨R.HBC_SPARES s, 4, 2⟩

/-- HBC_MIG_STATUS, R326 (11_memory_integrity.md). -/
def R.HBC_MIG_STATUS (s : Nat) : Nat := 0x8800048 + 0x40000 * s
def R.HBC_MIG_STATUS_busy (s : Nat) : Fld := ⟨R.HBC_MIG_STATUS s, 0, 1⟩
def R.HBC_MIG_STATUS_rank (s : Nat) : Fld := ⟨R.HBC_MIG_STATUS s, 1, 7⟩
def R.HBC_MIG_STATUS_target (s : Nat) : Fld := ⟨R.HBC_MIG_STATUS s, 8, 7⟩
def R.HBC_MIG_STATUS_pct (s : Nat) : Fld := ⟨R.HBC_MIG_STATUS s, 15, 7⟩

/-- HBC_STRIPE_UE, R326 (11_memory_integrity.md). -/
def R.HBC_STRIPE_UE (s : Nat) : Nat := 0x8800050 + 0x40000 * s
def R.HBC_STRIPE_UE_count (s : Nat) : Fld := ⟨R.HBC_STRIPE_UE s, 0, 32⟩

/-- HBC_ERASURE_FIX, R326 (11_memory_integrity.md). -/
def R.HBC_ERASURE_FIX (s : Nat) : Nat := 0x8800054 + 0x40000 * s
def R.HBC_ERASURE_FIX_count (s : Nat) : Fld := ⟨R.HBC_ERASURE_FIX s, 0, 32⟩

/-- HBC_CORRECTED, R326 (11_memory_integrity.md). -/
def R.HBC_CORRECTED (s : Nat) : Nat := 0x8800058 + 0x40000 * s
def R.HBC_CORRECTED_count (s : Nat) : Fld := ⟨R.HBC_CORRECTED s, 0, 32⟩

/-- HBC_RANK_LC, R326 (11_memory_integrity.md). -/
def R.HBC_RANK_LC (s : Nat) (r : Nat) : Nat := 0x8801000 + 0x40000 * s + 0x4 * r
def R.HBC_RANK_LC_state (s : Nat) (r : Nat) : Fld := ⟨R.HBC_RANK_LC s r, 0, 2⟩
def R.HBC_RANK_LC_pend_up (s : Nat) (r : Nat) : Fld := ⟨R.HBC_RANK_LC s r, 2, 1⟩
def R.HBC_RANK_LC_role (s : Nat) (r : Nat) : Fld := ⟨R.HBC_RANK_LC s r, 3, 2⟩
def R.HBC_RANK_LC_erased (s : Nat) (r : Nat) : Fld := ⟨R.HBC_RANK_LC s r, 5, 1⟩
def R.HBC_RANK_LC_enable (s : Nat) (r : Nat) : Fld := ⟨R.HBC_RANK_LC s r, 8, 1⟩
def R.HBC_RANK_LC_disable (s : Nat) (r : Nat) : Fld := ⟨R.HBC_RANK_LC s r, 9, 1⟩
def R.HBC_RANK_LC_ring_index (s : Nat) (r : Nat) : Fld := ⟨R.HBC_RANK_LC s r, 16, 7⟩

/-- HBC_RANK_CNT, R326 (11_memory_integrity.md). -/
def R.HBC_RANK_CNT (s : Nat) (r : Nat) : Nat := 0x8801200 + 0x40000 * s + 0x4 * r
def R.HBC_RANK_CNT_ce (s : Nat) (r : Nat) : Fld := ⟨R.HBC_RANK_CNT s r, 0, 16⟩
def R.HBC_RANK_CNT_ue (s : Nat) (r : Nat) : Fld := ⟨R.HBC_RANK_CNT s r, 16, 4⟩

/-- SCH_CFG, R354 (12_queues_scheduling_shaping.md). -/
def R.SCH_CFG : Nat := 0x9400000
def R.SCH_CFG_refill_port : Fld := ⟨R.SCH_CFG, 0, 4⟩
def R.SCH_CFG_refill_l1 : Fld := ⟨R.SCH_CFG, 4, 4⟩
def R.SCH_CFG_refill_l2 : Fld := ⟨R.SCH_CFG, 8, 4⟩
def R.SCH_CFG_refill_l3 : Fld := ⟨R.SCH_CFG, 12, 4⟩
def R.SCH_CFG_refill_queue : Fld := ⟨R.SCH_CFG, 16, 4⟩
def R.SCH_CFG_hier_ready : Fld := ⟨R.SCH_CFG, 20, 1⟩

/-- SCH_QSEL_CFG, R354 (12_queues_scheduling_shaping.md). -/
def R.SCH_QSEL_CFG : Nat := 0x9400004
def R.SCH_QSEL_CFG_sel_bit : Fld := ⟨R.SCH_QSEL_CFG, 0, 6⟩

/-- SCH_LC_SEL, R354 (12_queues_scheduling_shaping.md). -/
def R.SCH_LC_SEL : Nat := 0x9400010
def R.SCH_LC_SEL_index : Fld := ⟨R.SCH_LC_SEL, 0, 20⟩
def R.SCH_LC_SEL_kind : Fld := ⟨R.SCH_LC_SEL, 20, 1⟩

/-- SCH_LC, R354 (12_queues_scheduling_shaping.md). -/
def R.SCH_LC : Nat := 0x9400014
def R.SCH_LC_state : Fld := ⟨R.SCH_LC, 0, 2⟩
def R.SCH_LC_pend_up : Fld := ⟨R.SCH_LC, 2, 1⟩
def R.SCH_LC_enable : Fld := ⟨R.SCH_LC, 8, 1⟩
def R.SCH_LC_disable : Fld := ⟨R.SCH_LC, 9, 1⟩
def R.SCH_LC_flush : Fld := ⟨R.SCH_LC, 10, 1⟩
def R.SCH_LC_valid : Fld := ⟨R.SCH_LC, 31, 1⟩

/-- SCH_NSEL, R354 (12_queues_scheduling_shaping.md). -/
def R.SCH_NSEL : Nat := 0x9400020
def R.SCH_NSEL_index : Fld := ⟨R.SCH_NSEL, 0, 20⟩
def R.SCH_NSEL_level : Fld := ⟨R.SCH_NSEL, 20, 3⟩

/-- SCH_NINFO, R354 (12_queues_scheduling_shaping.md). -/
def R.SCH_NINFO : Nat := 0x9400024
def R.SCH_NINFO_active : Fld := ⟨R.SCH_NINFO, 0, 1⟩
def R.SCH_NINFO_cir_ok : Fld := ⟨R.SCH_NINFO, 1, 1⟩
def R.SCH_NINFO_pir_ok : Fld := ⟨R.SCH_NINFO, 2, 1⟩
def R.SCH_NINFO_paused : Fld := ⟨R.SCH_NINFO, 3, 1⟩
def R.SCH_NINFO_complete : Fld := ⟨R.SCH_NINFO, 4, 1⟩
def R.SCH_NINFO_band : Fld := ⟨R.SCH_NINFO, 5, 3⟩
def R.SCH_NINFO_valid : Fld := ⟨R.SCH_NINFO, 31, 1⟩

/-- SCH_NCC, R354 (12_queues_scheduling_shaping.md). -/
def R.SCH_NCC : Nat := 0x9400028
def R.SCH_NCC_bytes : Fld := ⟨R.SCH_NCC, 0, 32⟩

/-- SCH_NCP, R354 (12_queues_scheduling_shaping.md). -/
def R.SCH_NCP : Nat := 0x940002c
def R.SCH_NCP_bytes : Fld := ⟨R.SCH_NCP, 0, 32⟩

/-- SCH_ENG_w0, R354 (12_queues_scheduling_shaping.md). -/
def R.SCH_ENG_w0 (e : Nat) : Nat := 0x9400100 + 0x10 * e
def R.SCH_ENG_w0_decisions (e : Nat) : Fld := ⟨R.SCH_ENG_w0 e, 0, 32⟩

/-- SCH_ENG_w1, R354 (12_queues_scheduling_shaping.md). -/
def R.SCH_ENG_w1 (e : Nat) : Nat := 0x9400104 + 0x10 * e
def R.SCH_ENG_w1_empty (e : Nat) : Fld := ⟨R.SCH_ENG_w1 e, 0, 32⟩

/-- SCH_ENG_w2, R354 (12_queues_scheduling_shaping.md). -/
def R.SCH_ENG_w2 (e : Nat) : Nat := 0x9400108 + 0x10 * e
def R.SCH_ENG_w2_idle (e : Nat) : Fld := ⟨R.SCH_ENG_w2 e, 0, 32⟩

/-- SCH_MISROUTE, R354 (12_queues_scheduling_shaping.md). -/
def R.SCH_MISROUTE : Nat := 0x9400200
def R.SCH_MISROUTE_count : Fld := ⟨R.SCH_MISROUTE, 0, 32⟩

/-- SCH_VOQ_VISITS, R354 (12_queues_scheduling_shaping.md). -/
def R.SCH_VOQ_VISITS : Nat := 0x9400204
def R.SCH_VOQ_VISITS_count : Fld := ⟨R.SCH_VOQ_VISITS, 0, 32⟩

/-- SCH_PFC, R354 (12_queues_scheduling_shaping.md). -/
def R.SCH_PFC (p : Nat) : Nat := 0x9400300 + 0x4 * p
def R.SCH_PFC_paused (p : Nat) : Fld := ⟨R.SCH_PFC p, 0, 8⟩

/-- FAB_CFG, R396 (13_fabric_interface.md). -/
def R.FAB_CFG : Nat := 0x9800000
def R.FAB_CFG_device : Fld := ⟨R.FAB_CFG, 0, 9⟩
def R.FAB_CFG_dev_valid : Fld := ⟨R.FAB_CFG, 9, 1⟩
def R.FAB_CFG_mesh : Fld := ⟨R.FAB_CFG, 10, 1⟩

/-- FAB_CTL_CFG, R396 (13_fabric_interface.md). -/
def R.FAB_CTL_CFG : Nat := 0x9800004
def R.FAB_CTL_CFG_ctl_div : Fld := ⟨R.FAB_CTL_CFG, 0, 6⟩

/-- FAB_CREDIT_CFG, R396 (13_fabric_interface.md). -/
def R.FAB_CREDIT_CFG : Nat := 0x9800008
def R.FAB_CREDIT_CFG_rate_pct : Fld := ⟨R.FAB_CREDIT_CFG, 0, 8⟩
def R.FAB_CREDIT_CFG_window_us : Fld := ⟨R.FAB_CREDIT_CFG, 8, 8⟩
def R.FAB_CREDIT_CFG_port_stop : Fld := ⟨R.FAB_CREDIT_CFG, 16, 8⟩

/-- FAB_REORDER_CFG, R396 (13_fabric_interface.md). -/
def R.FAB_REORDER_CFG : Nat := 0x980000c
def R.FAB_REORDER_CFG_timeout_us : Fld := ⟨R.FAB_REORDER_CFG, 0, 8⟩

/-- FAB_ERR_CFG, R396 (13_fabric_interface.md). -/
def R.FAB_ERR_CFG : Nat := 0x9800010
def R.FAB_ERR_CFG_degrade : Fld := ⟨R.FAB_ERR_CFG, 0, 8⟩
def R.FAB_ERR_CFG_isolate : Fld := ⟨R.FAB_ERR_CFG, 8, 8⟩
def R.FAB_ERR_CFG_recover : Fld := ⟨R.FAB_ERR_CFG, 16, 8⟩
def R.FAB_ERR_CFG_recover_ms : Fld := ⟨R.FAB_ERR_CFG, 24, 8⟩

/-- FAB_SPARE_CFG, R396 (13_fabric_interface.md). -/
def R.FAB_SPARE_CFG : Nat := 0x9800014
def R.FAB_SPARE_CFG_spares : Fld := ⟨R.FAB_SPARE_CFG, 0, 8⟩
def R.FAB_SPARE_CFG_auto_restart : Fld := ⟨R.FAB_SPARE_CFG, 8, 1⟩

/-- FAB_REACH_CFG, R396 (13_fabric_interface.md). -/
def R.FAB_REACH_CFG : Nat := 0x9800018
def R.FAB_REACH_CFG_period_us : Fld := ⟨R.FAB_REACH_CFG, 0, 8⟩

/-- FAB_MESH_PEERS, R396 (13_fabric_interface.md). -/
def R.FAB_MESH_PEERS : Nat := 0x9800020
def R.FAB_MESH_PEERS_peer0 : Fld := ⟨R.FAB_MESH_PEERS, 0, 9⟩
def R.FAB_MESH_PEERS_peer1 : Fld := ⟨R.FAB_MESH_PEERS, 9, 9⟩
def R.FAB_MESH_PEERS_peer2 : Fld := ⟨R.FAB_MESH_PEERS, 18, 9⟩

/-- FAB_MESH_CFG, R396 (13_fabric_interface.md). -/
def R.FAB_MESH_CFG : Nat := 0x9800024
def R.FAB_MESH_CFG_valid : Fld := ⟨R.FAB_MESH_CFG, 0, 3⟩
def R.FAB_MESH_CFG_spare_bundle : Fld := ⟨R.FAB_MESH_CFG, 3, 2⟩
def R.FAB_MESH_CFG_indirect_pct : Fld := ⟨R.FAB_MESH_CFG, 5, 6⟩
def R.FAB_MESH_CFG_relay_wm : Fld := ⟨R.FAB_MESH_CFG, 11, 11⟩

/-- FAB_REMOTE_CFG, R396 (13_fabric_interface.md). -/
def R.FAB_REMOTE_CFG : Nat := 0x9800030
def R.FAB_REMOTE_CFG_timeout_us : Fld := ⟨R.FAB_REMOTE_CFG, 0, 16⟩
def R.FAB_REMOTE_CFG_accept : Fld := ⟨R.FAB_REMOTE_CFG, 16, 1⟩

/-- FAB_REMOTE_ALLOW, R396 (13_fabric_interface.md). -/
def R.FAB_REMOTE_ALLOW (w : Nat) : Nat := 0x9800040 + 0x4 * w
def R.FAB_REMOTE_ALLOW_devices (w : Nat) : Fld := ⟨R.FAB_REMOTE_ALLOW w, 0, 32⟩

/-- FAB_REACH, R396 (13_fabric_interface.md). -/
def R.FAB_REACH (w : Nat) : Nat := 0x9800080 + 0x4 * w
def R.FAB_REACH_devices (w : Nat) : Fld := ⟨R.FAB_REACH w, 0, 32⟩

/-- FAB_REASM_DROPS, R396 (13_fabric_interface.md). -/
def R.FAB_REASM_DROPS : Nat := 0x9800100
def R.FAB_REASM_DROPS_count : Fld := ⟨R.FAB_REASM_DROPS, 0, 32⟩

/-- FAB_OUT_OF_WINDOW, R396 (13_fabric_interface.md). -/
def R.FAB_OUT_OF_WINDOW : Nat := 0x9800104
def R.FAB_OUT_OF_WINDOW_count : Fld := ⟨R.FAB_OUT_OF_WINDOW, 0, 32⟩

/-- FAB_GAPS, R396 (13_fabric_interface.md). -/
def R.FAB_GAPS : Nat := 0x9800108
def R.FAB_GAPS_count : Fld := ⟨R.FAB_GAPS, 0, 32⟩

/-- FAB_CTL_STUCK, R396 (13_fabric_interface.md). -/
def R.FAB_CTL_STUCK : Nat := 0x980010c
def R.FAB_CTL_STUCK_cells : Fld := ⟨R.FAB_CTL_STUCK, 0, 13⟩

/-- FAB_RELAY_CELLS, R396 (13_fabric_interface.md). -/
def R.FAB_RELAY_CELLS : Nat := 0x9800110
def R.FAB_RELAY_CELLS_count : Fld := ⟨R.FAB_RELAY_CELLS, 0, 32⟩

/-- FAB_RELAY_DROPS, R396 (13_fabric_interface.md). -/
def R.FAB_RELAY_DROPS : Nat := 0x9800114
def R.FAB_RELAY_DROPS_count : Fld := ⟨R.FAB_RELAY_DROPS, 0, 32⟩

/-- FAB_MC_UNREACHED, R396 (13_fabric_interface.md). -/
def R.FAB_MC_UNREACHED : Nat := 0x9800118
def R.FAB_MC_UNREACHED_count : Fld := ⟨R.FAB_MC_UNREACHED, 0, 32⟩

/-- FAB_REMOTE_LATE, R396 (13_fabric_interface.md). -/
def R.FAB_REMOTE_LATE : Nat := 0x980011c
def R.FAB_REMOTE_LATE_count : Fld := ⟨R.FAB_REMOTE_LATE, 0, 32⟩

/-- FAB_LINK_LC, R396 (13_fabric_interface.md). -/
def R.FAB_LINK_LC (l : Nat) : Nat := 0x9801000 + 0x40 * l
def R.FAB_LINK_LC_state (l : Nat) : Fld := ⟨R.FAB_LINK_LC l, 0, 2⟩
def R.FAB_LINK_LC_pend_up (l : Nat) : Fld := ⟨R.FAB_LINK_LC l, 2, 1⟩
def R.FAB_LINK_LC_enable (l : Nat) : Fld := ⟨R.FAB_LINK_LC l, 8, 1⟩
def R.FAB_LINK_LC_disable (l : Nat) : Fld := ⟨R.FAB_LINK_LC l, 9, 1⟩

/-- FAB_LINK_CFG, R396 (13_fabric_interface.md). -/
def R.FAB_LINK_CFG (l : Nat) : Nat := 0x9801004 + 0x40 * l
def R.FAB_LINK_CFG_gen (l : Nat) : Fld := ⟨R.FAB_LINK_CFG l, 0, 2⟩

/-- FAB_LINK_STATUS, R396 (13_fabric_interface.md). -/
def R.FAB_LINK_STATUS (l : Nat) : Nat := 0x9801008 + 0x40 * l
def R.FAB_LINK_STATUS_fec_lock (l : Nat) : Fld := ⟨R.FAB_LINK_STATUS l, 0, 1⟩
def R.FAB_LINK_STATUS_in_spray (l : Nat) : Fld := ⟨R.FAB_LINK_STATUS l, 1, 1⟩
def R.FAB_LINK_STATUS_degraded (l : Nat) : Fld := ⟨R.FAB_LINK_STATUS l, 2, 1⟩
def R.FAB_LINK_STATUS_isolated (l : Nat) : Fld := ⟨R.FAB_LINK_STATUS l, 3, 1⟩
def R.FAB_LINK_STATUS_gen_mismatch (l : Nat) : Fld := ⟨R.FAB_LINK_STATUS l, 4, 1⟩
def R.FAB_LINK_STATUS_peer_device (l : Nat) : Fld := ⟨R.FAB_LINK_STATUS l, 5, 1⟩
def R.FAB_LINK_STATUS_peer (l : Nat) : Fld := ⟨R.FAB_LINK_STATUS l, 6, 11⟩

/-- FAB_LINK_ERR, R396 (13_fabric_interface.md). -/
def R.FAB_LINK_ERR (l : Nat) : Nat := 0x980100c + 0x40 * l
def R.FAB_LINK_ERR_tec (l : Nat) : Fld := ⟨R.FAB_LINK_ERR l, 0, 8⟩
def R.FAB_LINK_ERR_rec (l : Nat) : Fld := ⟨R.FAB_LINK_ERR l, 8, 8⟩

/-- FAB_LINK_RXDISC, R396 (13_fabric_interface.md). -/
def R.FAB_LINK_RXDISC (l : Nat) : Nat := 0x9801010 + 0x40 * l
def R.FAB_LINK_RXDISC_count (l : Nat) : Fld := ⟨R.FAB_LINK_RXDISC l, 0, 32⟩

/-- FAB_LINK_CTLMOVED, R396 (13_fabric_interface.md). -/
def R.FAB_LINK_CTLMOVED (l : Nat) : Nat := 0x9801014 + 0x40 * l
def R.FAB_LINK_CTLMOVED_count (l : Nat) : Fld := ⟨R.FAB_LINK_CTLMOVED l, 0, 32⟩

/-- DICE_CTRL, R397 (13_fabric_interface.md). -/
def R.DICE_CTRL (u : Nat) : Nat := 0x0 + u
def R.DICE_CTRL_arm (u : Nat) : Fld := ⟨R.DICE_CTRL u, 0, 1⟩
def R.DICE_CTRL_drop_en (u : Nat) : Fld := ⟨R.DICE_CTRL u, 1, 1⟩
def R.DICE_CTRL_corrupt_en (u : Nat) : Fld := ⟨R.DICE_CTRL u, 2, 1⟩
def R.DICE_CTRL_reorder_en (u : Nat) : Fld := ⟨R.DICE_CTRL u, 3, 1⟩
def R.DICE_CTRL_corrupt_kind (u : Nat) : Fld := ⟨R.DICE_CTRL u, 4, 2⟩
def R.DICE_CTRL_burst_m1 (u : Nat) : Fld := ⟨R.DICE_CTRL u, 6, 6⟩
def R.DICE_CTRL_hold_m1 (u : Nat) : Fld := ⟨R.DICE_CTRL u, 12, 6⟩
def R.DICE_CTRL_scope (u : Nat) : Fld := ⟨R.DICE_CTRL u, 18, 1⟩
def R.DICE_CTRL_cancel (u : Nat) : Fld := ⟨R.DICE_CTRL u, 19, 1⟩

/-- DICE_DROP_PPM, R397 (13_fabric_interface.md). -/
def R.DICE_DROP_PPM (u : Nat) : Nat := 0x4 + u
def R.DICE_DROP_PPM_ppm (u : Nat) : Fld := ⟨R.DICE_DROP_PPM u, 0, 20⟩

/-- DICE_CORRUPT_PPM, R397 (13_fabric_interface.md). -/
def R.DICE_CORRUPT_PPM (u : Nat) : Nat := 0x8 + u
def R.DICE_CORRUPT_PPM_ppm (u : Nat) : Fld := ⟨R.DICE_CORRUPT_PPM u, 0, 20⟩

/-- DICE_REORDER_PPM, R397 (13_fabric_interface.md). -/
def R.DICE_REORDER_PPM (u : Nat) : Nat := 0xc + u
def R.DICE_REORDER_PPM_ppm (u : Nat) : Fld := ⟨R.DICE_REORDER_PPM u, 0, 20⟩

/-- DICE_SEED, R397 (13_fabric_interface.md). -/
def R.DICE_SEED (u : Nat) : Nat := 0x10 + u
def R.DICE_SEED_seed (u : Nat) : Fld := ⟨R.DICE_SEED u, 0, 32⟩

/-- DICE_START_LO, R397 (13_fabric_interface.md). -/
def R.DICE_START_LO (u : Nat) : Nat := 0x14 + u
def R.DICE_START_LO_turn_lo (u : Nat) : Fld := ⟨R.DICE_START_LO u, 0, 32⟩

/-- DICE_START_HI, R397 (13_fabric_interface.md). -/
def R.DICE_START_HI (u : Nat) : Nat := 0x18 + u
def R.DICE_START_HI_turn_hi (u : Nat) : Fld := ⟨R.DICE_START_HI u, 0, 32⟩

/-- DICE_END_LO, R397 (13_fabric_interface.md). -/
def R.DICE_END_LO (u : Nat) : Nat := 0x1c + u
def R.DICE_END_LO_turn_lo (u : Nat) : Fld := ⟨R.DICE_END_LO u, 0, 32⟩

/-- DICE_END_HI, R397 (13_fabric_interface.md). -/
def R.DICE_END_HI (u : Nat) : Nat := 0x20 + u
def R.DICE_END_HI_turn_hi (u : Nat) : Fld := ⟨R.DICE_END_HI u, 0, 32⟩

/-- DICE_STATUS, R397 (13_fabric_interface.md). -/
def R.DICE_STATUS (u : Nat) : Nat := 0x24 + u
def R.DICE_STATUS_state (u : Nat) : Fld := ⟨R.DICE_STATUS u, 0, 2⟩
def R.DICE_STATUS_last_status (u : Nat) : Fld := ⟨R.DICE_STATUS u, 8, 8⟩

/-- DICE_SEEN, R397 (13_fabric_interface.md). -/
def R.DICE_SEEN (u : Nat) : Nat := 0x28 + u
def R.DICE_SEEN_count (u : Nat) : Fld := ⟨R.DICE_SEEN u, 0, 32⟩

/-- DICE_DROPS, R397 (13_fabric_interface.md). -/
def R.DICE_DROPS (u : Nat) : Nat := 0x2c + u
def R.DICE_DROPS_count (u : Nat) : Fld := ⟨R.DICE_DROPS u, 0, 32⟩

/-- DICE_CORRUPTS, R397 (13_fabric_interface.md). -/
def R.DICE_CORRUPTS (u : Nat) : Nat := 0x30 + u
def R.DICE_CORRUPTS_count (u : Nat) : Fld := ⟨R.DICE_CORRUPTS u, 0, 32⟩

/-- DICE_REORDERS, R397 (13_fabric_interface.md). -/
def R.DICE_REORDERS (u : Nat) : Nat := 0x34 + u
def R.DICE_REORDERS_count (u : Nat) : Fld := ⟨R.DICE_REORDERS u, 0, 32⟩

/-- LIF_PORT_LC, R425 (14_line_interface.md). -/
def R.LIF_PORT_LC (p : Nat) : Nat := 0x400000 + 0x2000 * p
def R.LIF_PORT_LC_state (p : Nat) : Fld := ⟨R.LIF_PORT_LC p, 0, 2⟩
def R.LIF_PORT_LC_pend_up (p : Nat) : Fld := ⟨R.LIF_PORT_LC p, 2, 1⟩
def R.LIF_PORT_LC_enable (p : Nat) : Fld := ⟨R.LIF_PORT_LC p, 8, 1⟩
def R.LIF_PORT_LC_disable (p : Nat) : Fld := ⟨R.LIF_PORT_LC p, 9, 1⟩

/-- LIF_PORT_CFG, R425 (14_line_interface.md). -/
def R.LIF_PORT_CFG (p : Nat) : Nat := 0x400004 + 0x2000 * p
def R.LIF_PORT_CFG_mode (p : Nat) : Fld := ⟨R.LIF_PORT_CFG p, 0, 4⟩
def R.LIF_PORT_CFG_otn_lanes (p : Nat) : Fld := ⟨R.LIF_PORT_CFG p, 4, 2⟩
def R.LIF_PORT_CFG_fec (p : Nat) : Fld := ⟨R.LIF_PORT_CFG p, 6, 2⟩
def R.LIF_PORT_CFG_max_frame (p : Nat) : Fld := ⟨R.LIF_PORT_CFG p, 8, 16⟩

/-- LIF_PORT_MTU, R425 (14_line_interface.md). -/
def R.LIF_PORT_MTU (p : Nat) : Nat := 0x400008 + 0x2000 * p
def R.LIF_PORT_MTU_tx_mtu (p : Nat) : Fld := ⟨R.LIF_PORT_MTU p, 0, 16⟩
def R.LIF_PORT_MTU_cut_through (p : Nat) : Fld := ⟨R.LIF_PORT_MTU p, 16, 1⟩

/-- LIF_PORT_STATUS, R425 (14_line_interface.md). -/
def R.LIF_PORT_STATUS (p : Nat) : Nat := 0x40000c + 0x2000 * p
def R.LIF_PORT_STATUS_link_up (p : Nat) : Fld := ⟨R.LIF_PORT_STATUS p, 0, 1⟩
def R.LIF_PORT_STATUS_pcs_lock (p : Nat) : Fld := ⟨R.LIF_PORT_STATUS p, 1, 1⟩
def R.LIF_PORT_STATUS_fec_lock (p : Nat) : Fld := ⟨R.LIF_PORT_STATUS p, 2, 1⟩
def R.LIF_PORT_STATUS_hi_ser (p : Nat) : Fld := ⟨R.LIF_PORT_STATUS p, 3, 1⟩

/-- LIF_LANE_CFG, R425 (14_line_interface.md). -/
def R.LIF_LANE_CFG (p : Nat) : Nat := 0x400010 + 0x2000 * p
def R.LIF_LANE_CFG_tx_invert (p : Nat) : Fld := ⟨R.LIF_LANE_CFG p, 0, 1⟩
def R.LIF_LANE_CFG_rx_invert (p : Nat) : Fld := ⟨R.LIF_LANE_CFG p, 1, 1⟩
def R.LIF_LANE_CFG_loopback (p : Nat) : Fld := ⟨R.LIF_LANE_CFG p, 2, 2⟩

/-- LIF_PFC_CFG, R425 (14_line_interface.md). -/
def R.LIF_PFC_CFG (p : Nat) : Nat := 0x400020 + 0x2000 * p
def R.LIF_PFC_CFG_rx_en (p : Nat) : Fld := ⟨R.LIF_PFC_CFG p, 0, 8⟩
def R.LIF_PFC_CFG_tx_en (p : Nat) : Fld := ⟨R.LIF_PFC_CFG p, 8, 8⟩
def R.LIF_PFC_CFG_default_pri (p : Nat) : Fld := ⟨R.LIF_PFC_CFG p, 16, 3⟩
def R.LIF_PFC_CFG_link_pause (p : Nat) : Fld := ⟨R.LIF_PFC_CFG p, 19, 1⟩

/-- LIF_PFC_XOFF, R425 (14_line_interface.md). -/
def R.LIF_PFC_XOFF (p : Nat) : Nat := 0x400024 + 0x2000 * p
def R.LIF_PFC_XOFF_level (p : Nat) : Fld := ⟨R.LIF_PFC_XOFF p, 0, 24⟩

/-- LIF_PFC_XON, R425 (14_line_interface.md). -/
def R.LIF_PFC_XON (p : Nat) : Nat := 0x400028 + 0x2000 * p
def R.LIF_PFC_XON_level (p : Nat) : Fld := ⟨R.LIF_PFC_XON p, 0, 24⟩

/-- LIF_PFC_STATUS, R425 (14_line_interface.md). -/
def R.LIF_PFC_STATUS (p : Nat) : Nat := 0x40002c + 0x2000 * p
def R.LIF_PFC_STATUS_rx_paused (p : Nat) : Fld := ⟨R.LIF_PFC_STATUS p, 0, 8⟩
def R.LIF_PFC_STATUS_tx_xoff (p : Nat) : Fld := ⟨R.LIF_PFC_STATUS p, 8, 8⟩

/-- LIF_TS_ADJ_RX, R425 (14_line_interface.md). -/
def R.LIF_TS_ADJ_RX (p : Nat) : Nat := 0x400030 + 0x2000 * p
def R.LIF_TS_ADJ_RX_adj (p : Nat) : Fld := ⟨R.LIF_TS_ADJ_RX p, 0, 32⟩

/-- LIF_TS_ADJ_TX, R425 (14_line_interface.md). -/
def R.LIF_TS_ADJ_TX (p : Nat) : Nat := 0x400034 + 0x2000 * p
def R.LIF_TS_ADJ_TX_adj (p : Nat) : Fld := ⟨R.LIF_TS_ADJ_TX p, 0, 32⟩

/-- LIF_TS_POP, R425 (14_line_interface.md). -/
def R.LIF_TS_POP (p : Nat) : Nat := 0x400040 + 0x2000 * p
def R.LIF_TS_POP_tag (p : Nat) : Fld := ⟨R.LIF_TS_POP p, 0, 16⟩
def R.LIF_TS_POP_valid (p : Nat) : Fld := ⟨R.LIF_TS_POP p, 16, 1⟩

/-- LIF_TS_NS, R425 (14_line_interface.md). -/
def R.LIF_TS_NS (p : Nat) : Nat := 0x400044 + 0x2000 * p
def R.LIF_TS_NS_ns (p : Nat) : Fld := ⟨R.LIF_TS_NS p, 0, 30⟩

/-- LIF_TS_SEC_LO, R425 (14_line_interface.md). -/
def R.LIF_TS_SEC_LO (p : Nat) : Nat := 0x400048 + 0x2000 * p
def R.LIF_TS_SEC_LO_sec_lo (p : Nat) : Fld := ⟨R.LIF_TS_SEC_LO p, 0, 32⟩

/-- LIF_TS_SEC_HI, R425 (14_line_interface.md). -/
def R.LIF_TS_SEC_HI (p : Nat) : Nat := 0x40004c + 0x2000 * p
def R.LIF_TS_SEC_HI_sec_hi (p : Nat) : Fld := ⟨R.LIF_TS_SEC_HI p, 0, 16⟩
def R.LIF_TS_SEC_HI_frac (p : Nat) : Fld := ⟨R.LIF_TS_SEC_HI p, 16, 16⟩

/-- LIF_TS_STATUS, R425 (14_line_interface.md). -/
def R.LIF_TS_STATUS (p : Nat) : Nat := 0x400050 + 0x2000 * p
def R.LIF_TS_STATUS_fill (p : Nat) : Fld := ⟨R.LIF_TS_STATUS p, 0, 7⟩
def R.LIF_TS_STATUS_overflow (p : Nat) : Fld := ⟨R.LIF_TS_STATUS p, 7, 1⟩

/-- LIF_RX_RUNT, R425 (14_line_interface.md). -/
def R.LIF_RX_RUNT (p : Nat) : Nat := 0x400100 + 0x2000 * p
def R.LIF_RX_RUNT_count (p : Nat) : Fld := ⟨R.LIF_RX_RUNT p, 0, 32⟩

/-- LIF_RX_FCS, R425 (14_line_interface.md). -/
def R.LIF_RX_FCS (p : Nat) : Nat := 0x400104 + 0x2000 * p
def R.LIF_RX_FCS_count (p : Nat) : Fld := ⟨R.LIF_RX_FCS p, 0, 32⟩

/-- LIF_RX_FCS_LATE, R425 (14_line_interface.md). -/
def R.LIF_RX_FCS_LATE (p : Nat) : Nat := 0x400108 + 0x2000 * p
def R.LIF_RX_FCS_LATE_count (p : Nat) : Fld := ⟨R.LIF_RX_FCS_LATE p, 0, 32⟩

/-- LIF_RX_OVERSIZE, R425 (14_line_interface.md). -/
def R.LIF_RX_OVERSIZE (p : Nat) : Nat := 0x40010c + 0x2000 * p
def R.LIF_RX_OVERSIZE_count (p : Nat) : Fld := ⟨R.LIF_RX_OVERSIZE p, 0, 32⟩

/-- LIF_RX_FIFO_OVF, R425 (14_line_interface.md). -/
def R.LIF_RX_FIFO_OVF (p : Nat) : Nat := 0x400110 + 0x2000 * p
def R.LIF_RX_FIFO_OVF_count (p : Nat) : Fld := ⟨R.LIF_RX_FIFO_OVF p, 0, 32⟩

/-- LIF_RX_DRAINING, R425 (14_line_interface.md). -/
def R.LIF_RX_DRAINING (p : Nat) : Nat := 0x400114 + 0x2000 * p
def R.LIF_RX_DRAINING_count (p : Nat) : Fld := ⟨R.LIF_RX_DRAINING p, 0, 32⟩

/-- LIF_TX_UNDERRUN, R425 (14_line_interface.md). -/
def R.LIF_TX_UNDERRUN (p : Nat) : Nat := 0x400118 + 0x2000 * p
def R.LIF_TX_UNDERRUN_count (p : Nat) : Fld := ⟨R.LIF_TX_UNDERRUN p, 0, 32⟩

/-- LIF_TX_LINK_DOWN, R425 (14_line_interface.md). -/
def R.LIF_TX_LINK_DOWN (p : Nat) : Nat := 0x40011c + 0x2000 * p
def R.LIF_TX_LINK_DOWN_count (p : Nat) : Fld := ⟨R.LIF_TX_LINK_DOWN p, 0, 32⟩

/-- LIF_FEC_CORR, R425 (14_line_interface.md). -/
def R.LIF_FEC_CORR (p : Nat) : Nat := 0x400120 + 0x2000 * p
def R.LIF_FEC_CORR_count (p : Nat) : Fld := ⟨R.LIF_FEC_CORR p, 0, 32⟩

/-- LIF_FEC_UNCORR, R425 (14_line_interface.md). -/
def R.LIF_FEC_UNCORR (p : Nat) : Nat := 0x400124 + 0x2000 * p
def R.LIF_FEC_UNCORR_count (p : Nat) : Fld := ⟨R.LIF_FEC_UNCORR p, 0, 32⟩

/-- LIF_PFC_RX, R425 (14_line_interface.md). -/
def R.LIF_PFC_RX (p : Nat) : Nat := 0x400128 + 0x2000 * p
def R.LIF_PFC_RX_count (p : Nat) : Fld := ⟨R.LIF_PFC_RX p, 0, 32⟩

/-- LIF_PFC_TX, R425 (14_line_interface.md). -/
def R.LIF_PFC_TX (p : Nat) : Nat := 0x40012c + 0x2000 * p
def R.LIF_PFC_TX_count (p : Nat) : Fld := ⟨R.LIF_PFC_TX p, 0, 32⟩

/-- LIF_TS_BAD, R425 (14_line_interface.md). -/
def R.LIF_TS_BAD (p : Nat) : Nat := 0x400130 + 0x2000 * p
def R.LIF_TS_BAD_count (p : Nat) : Fld := ⟨R.LIF_TS_BAD p, 0, 32⟩

/-- OTN_PORT_CFG, R426 (14_line_interface.md). -/
def R.OTN_PORT_CFG (p : Nat) : Nat := 0x800000 + 0x40 * p
def R.OTN_PORT_CFG_n (p : Nat) : Fld := ⟨R.OTN_PORT_CFG p, 0, 5⟩
def R.OTN_PORT_CFG_exp_pt (p : Nat) : Fld := ⟨R.OTN_PORT_CFG p, 5, 8⟩

/-- OTN_SLICE_STATUS, R426 (14_line_interface.md). -/
def R.OTN_SLICE_STATUS (s : Nat) : Nat := 0x810000 + 0x40 * s
def R.OTN_SLICE_STATUS_flexo_lost (s : Nat) : Fld := ⟨R.OTN_SLICE_STATUS s, 0, 1⟩
def R.OTN_SLICE_STATUS_lol (s : Nat) : Fld := ⟨R.OTN_SLICE_STATUS s, 1, 1⟩
def R.OTN_SLICE_STATUS_oof (s : Nat) : Fld := ⟨R.OTN_SLICE_STATUS s, 2, 1⟩
def R.OTN_SLICE_STATUS_lof (s : Nat) : Fld := ⟨R.OTN_SLICE_STATUS s, 3, 1⟩
def R.OTN_SLICE_STATUS_oom (s : Nat) : Fld := ⟨R.OTN_SLICE_STATUS s, 4, 1⟩
def R.OTN_SLICE_STATUS_lom (s : Nat) : Fld := ⟨R.OTN_SLICE_STATUS s, 5, 1⟩
def R.OTN_SLICE_STATUS_tim (s : Nat) : Fld := ⟨R.OTN_SLICE_STATUS s, 6, 1⟩
def R.OTN_SLICE_STATUS_bdi_rx (s : Nat) : Fld := ⟨R.OTN_SLICE_STATUS s, 7, 1⟩
def R.OTN_SLICE_STATUS_plm (s : Nat) : Fld := ⟨R.OTN_SLICE_STATUS s, 8, 1⟩
def R.OTN_SLICE_STATUS_acc_pt (s : Nat) : Fld := ⟨R.OTN_SLICE_STATUS s, 16, 8⟩

/-- OTN_SLICE_CFG, R426 (14_line_interface.md). -/
def R.OTN_SLICE_CFG (s : Nat) : Nat := 0x810004 + 0x40 * s
def R.OTN_SLICE_CFG_tim_mode (s : Nat) : Fld := ⟨R.OTN_SLICE_CFG s, 0, 2⟩
def R.OTN_SLICE_CFG_tim_act (s : Nat) : Fld := ⟨R.OTN_SLICE_CFG s, 2, 1⟩

/-- OTN_SM_BIP, R426 (14_line_interface.md). -/
def R.OTN_SM_BIP (s : Nat) : Nat := 0x810008 + 0x40 * s
def R.OTN_SM_BIP_count (s : Nat) : Fld := ⟨R.OTN_SM_BIP s, 0, 32⟩

/-- OTN_SM_BEI, R426 (14_line_interface.md). -/
def R.OTN_SM_BEI (s : Nat) : Nat := 0x81000c + 0x40 * s
def R.OTN_SM_BEI_count (s : Nat) : Fld := ⟨R.OTN_SM_BEI s, 0, 32⟩

/-- OTN_PM_BIP, R426 (14_line_interface.md). -/
def R.OTN_PM_BIP (s : Nat) : Nat := 0x810010 + 0x40 * s
def R.OTN_PM_BIP_count (s : Nat) : Fld := ⟨R.OTN_PM_BIP s, 0, 32⟩

/-- OTN_PM_BEI, R426 (14_line_interface.md). -/
def R.OTN_PM_BEI (s : Nat) : Nat := 0x810014 + 0x40 * s
def R.OTN_PM_BEI_count (s : Nat) : Fld := ⟨R.OTN_PM_BEI s, 0, 32⟩

/-- OTN_RX_SLOT, R426 (14_line_interface.md). -/
def R.OTN_RX_SLOT (g : Nat) : Nat := 0x820000 + 0x4 * g
def R.OTN_RX_SLOT_valid (g : Nat) : Fld := ⟨R.OTN_RX_SLOT g, 0, 1⟩
def R.OTN_RX_SLOT_type (g : Nat) : Fld := ⟨R.OTN_RX_SLOT g, 1, 4⟩
def R.OTN_RX_SLOT_tpn (g : Nat) : Fld := ⟨R.OTN_RX_SLOT g, 5, 11⟩
def R.OTN_RX_SLOT_msim (g : Nat) : Fld := ⟨R.OTN_RX_SLOT g, 16, 1⟩

/-- OTN_CM_A, R426 (14_line_interface.md). -/
def R.OTN_CM_A (g : Nat) : Nat := 0x840000 + 0x4 * g
def R.OTN_CM_A_src (g : Nat) : Fld := ⟨R.OTN_CM_A g, 0, 13⟩
def R.OTN_CM_A_valid (g : Nat) : Fld := ⟨R.OTN_CM_A g, 13, 1⟩
def R.OTN_CM_A_type (g : Nat) : Fld := ⟨R.OTN_CM_A g, 14, 4⟩
def R.OTN_CM_A_tpn (g : Nat) : Fld := ⟨R.OTN_CM_A g, 18, 11⟩

/-- OTN_CM_B, R426 (14_line_interface.md). -/
def R.OTN_CM_B (g : Nat) : Nat := 0x860000 + 0x4 * g
def R.OTN_CM_B_src (g : Nat) : Fld := ⟨R.OTN_CM_B g, 0, 13⟩
def R.OTN_CM_B_valid (g : Nat) : Fld := ⟨R.OTN_CM_B g, 13, 1⟩
def R.OTN_CM_B_type (g : Nat) : Fld := ⟨R.OTN_CM_B g, 14, 4⟩
def R.OTN_CM_B_tpn (g : Nat) : Fld := ⟨R.OTN_CM_B g, 18, 11⟩

/-- OTN_TSI_CTRL, R426 (14_line_interface.md). -/
def R.OTN_TSI_CTRL : Nat := 0x880000
def R.OTN_TSI_CTRL_arm : Fld := ⟨R.OTN_TSI_CTRL, 0, 1⟩
def R.OTN_TSI_CTRL_cancel : Fld := ⟨R.OTN_TSI_CTRL, 1, 1⟩
def R.OTN_TSI_CTRL_scope : Fld := ⟨R.OTN_TSI_CTRL, 2, 1⟩

/-- OTN_TSI_TURN_LO, R426 (14_line_interface.md). -/
def R.OTN_TSI_TURN_LO : Nat := 0x880004
def R.OTN_TSI_TURN_LO_turn_lo : Fld := ⟨R.OTN_TSI_TURN_LO, 0, 32⟩

/-- OTN_TSI_TURN_HI, R426 (14_line_interface.md). -/
def R.OTN_TSI_TURN_HI : Nat := 0x880008
def R.OTN_TSI_TURN_HI_turn_hi : Fld := ⟨R.OTN_TSI_TURN_HI, 0, 32⟩

/-- OTN_TSI_STATUS, R426 (14_line_interface.md). -/
def R.OTN_TSI_STATUS : Nat := 0x88000c
def R.OTN_TSI_STATUS_active : Fld := ⟨R.OTN_TSI_STATUS, 0, 1⟩
def R.OTN_TSI_STATUS_state : Fld := ⟨R.OTN_TSI_STATUS, 1, 2⟩
def R.OTN_TSI_STATUS_last_status : Fld := ⟨R.OTN_TSI_STATUS, 8, 8⟩
def R.OTN_TSI_STATUS_ports_pending : Fld := ⟨R.OTN_TSI_STATUS, 16, 8⟩

/-- OTN_GMP_JCERR, R426 (14_line_interface.md). -/
def R.OTN_GMP_JCERR : Nat := 0x880010
def R.OTN_GMP_JCERR_count : Fld := ⟨R.OTN_GMP_JCERR, 0, 32⟩

/-- OTN_GMP_AIS, R426 (14_line_interface.md). -/
def R.OTN_GMP_AIS : Nat := 0x880014
def R.OTN_GMP_AIS_count : Fld := ⟨R.OTN_GMP_AIS, 0, 32⟩

/-- OTN_CLIENT_w0, R426 (14_line_interface.md). -/
def R.OTN_CLIENT_w0 (c : Nat) : Nat := 0x890000 + 0x20 * c
def R.OTN_CLIENT_w0_en (c : Nat) : Fld := ⟨R.OTN_CLIENT_w0 c, 0, 1⟩
def R.OTN_CLIENT_w0_map (c : Nat) : Fld := ⟨R.OTN_CLIENT_w0 c, 1, 1⟩
def R.OTN_CLIENT_w0_tx_pfi (c : Nat) : Fld := ⟨R.OTN_CLIENT_w0 c, 2, 1⟩
def R.OTN_CLIENT_w0_otn_port (c : Nat) : Fld := ⟨R.OTN_CLIENT_w0 c, 4, 7⟩
def R.OTN_CLIENT_w0_tpn (c : Nat) : Fld := ⟨R.OTN_CLIENT_w0 c, 11, 11⟩

/-- OTN_CLIENT_w1, R426 (14_line_interface.md). -/
def R.OTN_CLIENT_w1 (c : Nat) : Nat := 0x890004 + 0x20 * c
def R.OTN_CLIENT_w1_tx_pt (c : Nat) : Fld := ⟨R.OTN_CLIENT_w1 c, 0, 8⟩
def R.OTN_CLIENT_w1_exp_pt (c : Nat) : Fld := ⟨R.OTN_CLIENT_w1 c, 8, 8⟩
def R.OTN_CLIENT_w1_acc_pt (c : Nat) : Fld := ⟨R.OTN_CLIENT_w1 c, 16, 8⟩
def R.OTN_CLIENT_w1_plm (c : Nat) : Fld := ⟨R.OTN_CLIENT_w1 c, 24, 1⟩
def R.OTN_CLIENT_w1_tim (c : Nat) : Fld := ⟨R.OTN_CLIENT_w1 c, 25, 1⟩

/-- OTN_CLIENT_BIP, R426 (14_line_interface.md). -/
def R.OTN_CLIENT_BIP (c : Nat) : Nat := 0x890008 + 0x20 * c
def R.OTN_CLIENT_BIP_count (c : Nat) : Fld := ⟨R.OTN_CLIENT_BIP c, 0, 32⟩

/-- OTN_CLIENT_BEI, R426 (14_line_interface.md). -/
def R.OTN_CLIENT_BEI (c : Nat) : Nat := 0x89000c + 0x20 * c
def R.OTN_CLIENT_BEI_count (c : Nat) : Fld := ⟨R.OTN_CLIENT_BEI c, 0, 32⟩

/-- OTN_CLIENT_HEC, R426 (14_line_interface.md). -/
def R.OTN_CLIENT_HEC (c : Nat) : Nat := 0x890010 + 0x20 * c
def R.OTN_CLIENT_HEC_count (c : Nat) : Fld := ⟨R.OTN_CLIENT_HEC c, 0, 32⟩

/-- OTN_CLIENT_DISC, R426 (14_line_interface.md). -/
def R.OTN_CLIENT_DISC (c : Nat) : Nat := 0x890014 + 0x20 * c
def R.OTN_CLIENT_DISC_count (c : Nat) : Fld := ⟨R.OTN_CLIENT_DISC c, 0, 32⟩

/-- HAC_WSEQ, R464 (15_host_access.md). -/
def R.HAC_WSEQ (f : Nat) : Nat := 0x200000 + 0x10000000 * f
def R.HAC_WSEQ_seq (f : Nat) : Fld := ⟨R.HAC_WSEQ f, 0, 32⟩

/-- HAC_FENCE, R464 (15_host_access.md). -/
def R.HAC_FENCE (f : Nat) : Nat := 0x200004 + 0x10000000 * f
def R.HAC_FENCE_seq (f : Nat) : Fld := ⟨R.HAC_FENCE f, 0, 32⟩

/-- HAC_RULE_EPOCH, R464 (15_host_access.md). -/
def R.HAC_RULE_EPOCH : Nat := 0x200010
def R.HAC_RULE_EPOCH_epoch : Fld := ⟨R.HAC_RULE_EPOCH, 0, 32⟩

/-- HAC_RULE_DRAINED, R464 (15_host_access.md). -/
def R.HAC_RULE_DRAINED : Nat := 0x200014
def R.HAC_RULE_DRAINED_epoch : Fld := ⟨R.HAC_RULE_DRAINED, 0, 32⟩

/-- HAC_PF1_RIGHTS, R464 (15_host_access.md). -/
def R.HAC_PF1_RIGHTS : Nat := 0x200020
def R.HAC_PF1_RIGHTS_recipe : Fld := ⟨R.HAC_PF1_RIGHTS, 0, 1⟩
def R.HAC_PF1_RIGHTS_hold : Fld := ⟨R.HAC_PF1_RIGHTS, 1, 1⟩
def R.HAC_PF1_RIGHTS_txn : Fld := ⟨R.HAC_PF1_RIGHTS, 2, 1⟩
def R.HAC_PF1_RIGHTS_snap : Fld := ⟨R.HAC_PF1_RIGHTS, 3, 1⟩
def R.HAC_PF1_RIGHTS_remote : Fld := ⟨R.HAC_PF1_RIGHTS, 4, 1⟩
def R.HAC_PF1_RIGHTS_fw_crumb : Fld := ⟨R.HAC_PF1_RIGHTS, 5, 1⟩
def R.HAC_PF1_RIGHTS_flush : Fld := ⟨R.HAC_PF1_RIGHTS, 6, 1⟩
def R.HAC_PF1_RIGHTS_dma_write : Fld := ⟨R.HAC_PF1_RIGHTS, 7, 1⟩

/-- HAC_PF1_BLK_RD, R464 (15_host_access.md). -/
def R.HAC_PF1_BLK_RD : Nat := 0x200024
def R.HAC_PF1_BLK_RD_blocks : Fld := ⟨R.HAC_PF1_BLK_RD, 0, 32⟩

/-- HAC_PF1_BLK_WR, R464 (15_host_access.md). -/
def R.HAC_PF1_BLK_WR : Nat := 0x200028
def R.HAC_PF1_BLK_WR_blocks : Fld := ⟨R.HAC_PF1_BLK_WR, 0, 32⟩

/-- HAC_PF1_ASM, R464 (15_host_access.md). -/
def R.HAC_PF1_ASM : Nat := 0x200030
def R.HAC_PF1_ASM_tables : Fld := ⟨R.HAC_PF1_ASM, 0, 32⟩

/-- HAC_PF1_EXM_LO, R464 (15_host_access.md). -/
def R.HAC_PF1_EXM_LO : Nat := 0x200034
def R.HAC_PF1_EXM_LO_tables : Fld := ⟨R.HAC_PF1_EXM_LO, 0, 32⟩

/-- HAC_PF1_EXM_HI, R464 (15_host_access.md). -/
def R.HAC_PF1_EXM_HI : Nat := 0x200038
def R.HAC_PF1_EXM_HI_tables : Fld := ⟨R.HAC_PF1_EXM_HI, 0, 32⟩

/-- HAC_PF1_ARR_LO, R464 (15_host_access.md). -/
def R.HAC_PF1_ARR_LO : Nat := 0x20003c
def R.HAC_PF1_ARR_LO_arrays : Fld := ⟨R.HAC_PF1_ARR_LO, 0, 32⟩

/-- HAC_PF1_ARR_HI, R464 (15_host_access.md). -/
def R.HAC_PF1_ARR_HI : Nat := 0x200040
def R.HAC_PF1_ARR_HI_arrays : Fld := ⟨R.HAC_PF1_ARR_HI, 0, 32⟩

/-- HAC_PF1_TDT, R464 (15_host_access.md). -/
def R.HAC_PF1_TDT : Nat := 0x200044
def R.HAC_PF1_TDT_groups : Fld := ⟨R.HAC_PF1_TDT, 0, 5⟩

/-- HAC_BAR2_SEL, R464 (15_host_access.md). -/
def R.HAC_BAR2_SEL (f : Nat) : Nat := 0x200048 + 0x4 * f
def R.HAC_BAR2_SEL_target (f : Nat) : Fld := ⟨R.HAC_BAR2_SEL f, 0, 1⟩

/-- HAC_DMAW_w0, R464 (15_host_access.md). -/
def R.HAC_DMAW_w0 (f : Nat) (w : Nat) : Nat := 0x200100 + 0x80 * f + 0x10 * w
def R.HAC_DMAW_w0_en (f : Nat) (w : Nat) : Fld := ⟨R.HAC_DMAW_w0 f w, 0, 1⟩
def R.HAC_DMAW_w0_base_lo (f : Nat) (w : Nat) : Fld := ⟨R.HAC_DMAW_w0 f w, 12, 20⟩

/-- HAC_DMAW_w1, R464 (15_host_access.md). -/
def R.HAC_DMAW_w1 (f : Nat) (w : Nat) : Nat := 0x200104 + 0x80 * f + 0x10 * w
def R.HAC_DMAW_w1_base_hi (f : Nat) (w : Nat) : Fld := ⟨R.HAC_DMAW_w1 f w, 0, 32⟩

/-- HAC_DMAW_w2, R464 (15_host_access.md). -/
def R.HAC_DMAW_w2 (f : Nat) (w : Nat) : Nat := 0x200108 + 0x80 * f + 0x10 * w
def R.HAC_DMAW_w2_limit_lo (f : Nat) (w : Nat) : Fld := ⟨R.HAC_DMAW_w2 f w, 12, 20⟩

/-- HAC_DMAW_w3, R464 (15_host_access.md). -/
def R.HAC_DMAW_w3 (f : Nat) (w : Nat) : Nat := 0x20010c + 0x80 * f + 0x10 * w
def R.HAC_DMAW_w3_limit_hi (f : Nat) (w : Nat) : Fld := ⟨R.HAC_DMAW_w3 f w, 0, 32⟩

/-- HAC_CMD_BASE_LO, R464 (15_host_access.md). -/
def R.HAC_CMD_BASE_LO (f : Nat) (r : Nat) : Nat := 0x200400 + 0x10000000 * f + 0x20 * r
def R.HAC_CMD_BASE_LO_addr_lo (f : Nat) (r : Nat) : Fld := ⟨R.HAC_CMD_BASE_LO f r, 0, 32⟩

/-- HAC_CMD_BASE_HI, R464 (15_host_access.md). -/
def R.HAC_CMD_BASE_HI (f : Nat) (r : Nat) : Nat := 0x200404 + 0x10000000 * f + 0x20 * r
def R.HAC_CMD_BASE_HI_addr_hi (f : Nat) (r : Nat) : Fld := ⟨R.HAC_CMD_BASE_HI f r, 0, 32⟩

/-- HAC_CPL_BASE_LO, R464 (15_host_access.md). -/
def R.HAC_CPL_BASE_LO (f : Nat) (r : Nat) : Nat := 0x200408 + 0x10000000 * f + 0x20 * r
def R.HAC_CPL_BASE_LO_addr_lo (f : Nat) (r : Nat) : Fld := ⟨R.HAC_CPL_BASE_LO f r, 0, 32⟩

/-- HAC_CPL_BASE_HI, R464 (15_host_access.md). -/
def R.HAC_CPL_BASE_HI (f : Nat) (r : Nat) : Nat := 0x20040c + 0x10000000 * f + 0x20 * r
def R.HAC_CPL_BASE_HI_addr_hi (f : Nat) (r : Nat) : Fld := ⟨R.HAC_CPL_BASE_HI f r, 0, 32⟩

/-- HAC_RING, R464 (15_host_access.md). -/
def R.HAC_RING (f : Nat) (r : Nat) : Nat := 0x200410 + 0x10000000 * f + 0x20 * r
def R.HAC_RING_en (f : Nat) (r : Nat) : Fld := ⟨R.HAC_RING f r, 0, 1⟩
def R.HAC_RING_head (f : Nat) (r : Nat) : Fld := ⟨R.HAC_RING f r, 4, 12⟩
def R.HAC_RING_cpl_tail (f : Nat) (r : Nat) : Fld := ⟨R.HAC_RING f r, 16, 12⟩

/-- HAC_EVQ_BASE_LO, R464 (15_host_access.md). -/
def R.HAC_EVQ_BASE_LO (f : Nat) : Nat := 0x200600 + 0x10000000 * f
def R.HAC_EVQ_BASE_LO_addr_lo (f : Nat) : Fld := ⟨R.HAC_EVQ_BASE_LO f, 0, 32⟩

/-- HAC_EVQ_BASE_HI, R464 (15_host_access.md). -/
def R.HAC_EVQ_BASE_HI (f : Nat) : Nat := 0x200604 + 0x10000000 * f
def R.HAC_EVQ_BASE_HI_addr_hi (f : Nat) : Fld := ⟨R.HAC_EVQ_BASE_HI f, 0, 32⟩

/-- HAC_EVQ_CFG, R464 (15_host_access.md). -/
def R.HAC_EVQ_CFG (f : Nat) : Nat := 0x200608 + 0x10000000 * f
def R.HAC_EVQ_CFG_size_log2 (f : Nat) : Fld := ⟨R.HAC_EVQ_CFG f, 0, 5⟩
def R.HAC_EVQ_CFG_vector (f : Nat) : Fld := ⟨R.HAC_EVQ_CFG f, 8, 6⟩
def R.HAC_EVQ_CFG_en (f : Nat) : Fld := ⟨R.HAC_EVQ_CFG f, 14, 1⟩

/-- HAC_EVQ_HEAD, R464 (15_host_access.md). -/
def R.HAC_EVQ_HEAD (f : Nat) : Nat := 0x20060c + 0x10000000 * f
def R.HAC_EVQ_HEAD_head (f : Nat) : Fld := ⟨R.HAC_EVQ_HEAD f, 0, 16⟩

/-- HAC_EVQ_TAIL, R464 (15_host_access.md). -/
def R.HAC_EVQ_TAIL (f : Nat) : Nat := 0x200610 + 0x10000000 * f
def R.HAC_EVQ_TAIL_tail (f : Nat) : Fld := ⟨R.HAC_EVQ_TAIL f, 0, 16⟩

/-- HAC_EVQ_LOST, R464 (15_host_access.md). -/
def R.HAC_EVQ_LOST (f : Nat) : Nat := 0x200614 + 0x10000000 * f
def R.HAC_EVQ_LOST_count (f : Nat) : Fld := ⟨R.HAC_EVQ_LOST f, 0, 32⟩

/-- HAC_CRIT_PEND, R464 (15_host_access.md). -/
def R.HAC_CRIT_PEND : Nat := 0x200620
def R.HAC_CRIT_PEND_pending : Fld := ⟨R.HAC_CRIT_PEND, 0, 32⟩

/-- HAC_LEL_CTRL, R464 (15_host_access.md). -/
def R.HAC_LEL_CTRL : Nat := 0x201000
def R.HAC_LEL_CTRL_next : Fld := ⟨R.HAC_LEL_CTRL, 0, 6⟩
def R.HAC_LEL_CTRL_wrapped : Fld := ⟨R.HAC_LEL_CTRL, 6, 1⟩

/-- HAC_LEL, R464 (15_host_access.md). -/
def R.HAC_LEL (i : Nat) (w : Nat) : Nat := 0x201100 + 0x20 * i + 0x4 * w
def R.HAC_LEL_word (i : Nat) (w : Nat) : Fld := ⟨R.HAC_LEL i w, 0, 32⟩

/-- CNT_SEL, R487 (16_counters_snapshots_pmu.md). -/
def R.CNT_SEL : Nat := 0x9c00000
def R.CNT_SEL_index : Fld := ⟨R.CNT_SEL, 0, 20⟩
def R.CNT_SEL_set : Fld := ⟨R.CNT_SEL, 20, 3⟩
def R.CNT_SEL_slot : Fld := ⟨R.CNT_SEL, 23, 6⟩

/-- CNT_STAT, R487 (16_counters_snapshots_pmu.md). -/
def R.CNT_STAT : Nat := 0x9c00004
def R.CNT_STAT_valid : Fld := ⟨R.CNT_STAT, 0, 1⟩
def R.CNT_STAT_wrap_p : Fld := ⟨R.CNT_STAT, 1, 1⟩
def R.CNT_STAT_wrap_b : Fld := ⟨R.CNT_STAT, 2, 1⟩
def R.CNT_STAT_poison : Fld := ⟨R.CNT_STAT, 3, 1⟩

/-- CNT_PKTS_LO, R487 (16_counters_snapshots_pmu.md). -/
def R.CNT_PKTS_LO : Nat := 0x9c00008
def R.CNT_PKTS_LO_pkts_lo : Fld := ⟨R.CNT_PKTS_LO, 0, 32⟩

/-- CNT_PKTS_HI, R487 (16_counters_snapshots_pmu.md). -/
def R.CNT_PKTS_HI : Nat := 0x9c0000c
def R.CNT_PKTS_HI_pkts_hi : Fld := ⟨R.CNT_PKTS_HI, 0, 32⟩

/-- CNT_BYTES_LO, R487 (16_counters_snapshots_pmu.md). -/
def R.CNT_BYTES_LO : Nat := 0x9c00010
def R.CNT_BYTES_LO_bytes_lo : Fld := ⟨R.CNT_BYTES_LO, 0, 32⟩

/-- CNT_BYTES_HI, R487 (16_counters_snapshots_pmu.md). -/
def R.CNT_BYTES_HI : Nat := 0x9c00014
def R.CNT_BYTES_HI_bytes_hi : Fld := ⟨R.CNT_BYTES_HI, 0, 32⟩

/-- CNT_OP, R487 (16_counters_snapshots_pmu.md). -/
def R.CNT_OP : Nat := 0x9c00018
def R.CNT_OP_op : Fld := ⟨R.CNT_OP, 0, 2⟩
def R.CNT_OP_clear_wrap : Fld := ⟨R.CNT_OP, 2, 1⟩

/-- CNT_WPKTS_LO, R487 (16_counters_snapshots_pmu.md). -/
def R.CNT_WPKTS_LO : Nat := 0x9c00020
def R.CNT_WPKTS_LO_pkts_lo : Fld := ⟨R.CNT_WPKTS_LO, 0, 32⟩

/-- CNT_WPKTS_HI, R487 (16_counters_snapshots_pmu.md). -/
def R.CNT_WPKTS_HI : Nat := 0x9c00024
def R.CNT_WPKTS_HI_pkts_hi : Fld := ⟨R.CNT_WPKTS_HI, 0, 32⟩

/-- CNT_WBYTES_LO, R487 (16_counters_snapshots_pmu.md). -/
def R.CNT_WBYTES_LO : Nat := 0x9c00028
def R.CNT_WBYTES_LO_bytes_lo : Fld := ⟨R.CNT_WBYTES_LO, 0, 32⟩

/-- CNT_WBYTES_HI, R487 (16_counters_snapshots_pmu.md). -/
def R.CNT_WBYTES_HI : Nat := 0x9c0002c
def R.CNT_WBYTES_HI_bytes_hi : Fld := ⟨R.CNT_WBYTES_HI, 0, 32⟩

/-- CNT_LATE_ATTR, R487 (16_counters_snapshots_pmu.md). -/
def R.CNT_LATE_ATTR : Nat := 0x9c00030
def R.CNT_LATE_ATTR_count : Fld := ⟨R.CNT_LATE_ATTR, 0, 32⟩

/-- CNT_SNAP_STATUS, R487 (16_counters_snapshots_pmu.md). -/
def R.CNT_SNAP_STATUS : Nat := 0x9c00034
def R.CNT_SNAP_STATUS_busy : Fld := ⟨R.CNT_SNAP_STATUS, 0, 2⟩
def R.CNT_SNAP_STATUS_open : Fld := ⟨R.CNT_SNAP_STATUS, 2, 1⟩

/-- CNT_LAST_SNAP_LO, R487 (16_counters_snapshots_pmu.md). -/
def R.CNT_LAST_SNAP_LO : Nat := 0x9c00040
def R.CNT_LAST_SNAP_LO_turn_lo : Fld := ⟨R.CNT_LAST_SNAP_LO, 0, 32⟩

/-- CNT_LAST_SNAP_HI, R487 (16_counters_snapshots_pmu.md). -/
def R.CNT_LAST_SNAP_HI : Nat := 0x9c00044
def R.CNT_LAST_SNAP_HI_turn_hi : Fld := ⟨R.CNT_LAST_SNAP_HI, 0, 32⟩

/-- PMx_CTRL, R488 (16_counters_snapshots_pmu.md). -/
def R.PMx_CTRL (d : Nat) : Nat := 0x2c00000 + 0x7800000 * d
def R.PMx_CTRL_run (d : Nat) : Fld := ⟨R.PMx_CTRL d, 0, 1⟩
def R.PMx_CTRL_frozen (d : Nat) : Fld := ⟨R.PMx_CTRL d, 1, 1⟩
def R.PMx_CTRL_pmu_final (d : Nat) : Fld := ⟨R.PMx_CTRL d, 2, 1⟩

/-- PMx_FRZ_TURN_LO, R488 (16_counters_snapshots_pmu.md). -/
def R.PMx_FRZ_TURN_LO (d : Nat) : Nat := 0x2c00008 + 0x7800000 * d
def R.PMx_FRZ_TURN_LO_turn_lo (d : Nat) : Fld := ⟨R.PMx_FRZ_TURN_LO d, 0, 32⟩

/-- PMx_FRZ_TURN_HI, R488 (16_counters_snapshots_pmu.md). -/
def R.PMx_FRZ_TURN_HI (d : Nat) : Nat := 0x2c0000c + 0x7800000 * d
def R.PMx_FRZ_TURN_HI_turn_hi (d : Nat) : Fld := ⟨R.PMx_FRZ_TURN_HI d, 0, 32⟩

/-- PMx_FRZ_CTRL, R488 (16_counters_snapshots_pmu.md). -/
def R.PMx_FRZ_CTRL (d : Nat) : Nat := 0x2c00010 + 0x7800000 * d
def R.PMx_FRZ_CTRL_arm (d : Nat) : Fld := ⟨R.PMx_FRZ_CTRL d, 0, 1⟩
def R.PMx_FRZ_CTRL_cancel (d : Nat) : Fld := ⟨R.PMx_FRZ_CTRL d, 1, 1⟩
def R.PMx_FRZ_CTRL_scope (d : Nat) : Fld := ⟨R.PMx_FRZ_CTRL d, 2, 1⟩
def R.PMx_FRZ_CTRL_kind (d : Nat) : Fld := ⟨R.PMx_FRZ_CTRL d, 3, 1⟩
def R.PMx_FRZ_CTRL_last_status (d : Nat) : Fld := ⟨R.PMx_FRZ_CTRL d, 8, 8⟩

/-- PMx_CNT_LO, R488 (16_counters_snapshots_pmu.md). -/
def R.PMx_CNT_LO (d : Nat) (i : Nat) : Nat := 0x2c00100 + 0x7800000 * d + 0x8 * i
def R.PMx_CNT_LO_value_lo (d : Nat) (i : Nat) : Fld := ⟨R.PMx_CNT_LO d i, 0, 32⟩

/-- PMx_CNT_HI, R488 (16_counters_snapshots_pmu.md). -/
def R.PMx_CNT_HI (d : Nat) (i : Nat) : Nat := 0x2c00104 + 0x7800000 * d + 0x8 * i
def R.PMx_CNT_HI_value_hi (d : Nat) (i : Nat) : Fld := ⟨R.PMx_CNT_HI d i, 0, 32⟩

/-- PMx_EVSEL, R488 (16_counters_snapshots_pmu.md). -/
def R.PMx_EVSEL (d : Nat) (i : Nat) : Nat := 0x2c00200 + 0x7800000 * d + 0x4 * i
def R.PMx_EVSEL_event (d : Nat) (i : Nat) : Fld := ⟨R.PMx_EVSEL d i, 0, 10⟩
def R.PMx_EVSEL_unit (d : Nat) (i : Nat) : Fld := ⟨R.PMx_EVSEL d i, 10, 4⟩
def R.PMx_EVSEL_stage (d : Nat) (i : Nat) : Fld := ⟨R.PMx_EVSEL d i, 14, 6⟩
def R.PMx_EVSEL_en (d : Nat) (i : Nat) : Fld := ⟨R.PMx_EVSEL d i, 20, 1⟩
def R.PMx_EVSEL_sample_en (d : Nat) (i : Nat) : Fld := ⟨R.PMx_EVSEL d i, 21, 1⟩

/-- PMF_FIX_cycles_LO, R488 (16_counters_snapshots_pmu.md). -/
def R.PMF_FIX_cycles_LO (pl : Nat) (sec : Nat) : Nat := 0x2c00400 + 0x80 * pl + 0x40 * sec
def R.PMF_FIX_cycles_LO_cycles_lo (pl : Nat) (sec : Nat) : Fld := ⟨R.PMF_FIX_cycles_LO pl sec, 0, 32⟩

/-- PMF_FIX_cycles_HI, R488 (16_counters_snapshots_pmu.md). -/
def R.PMF_FIX_cycles_HI (pl : Nat) (sec : Nat) : Nat := 0x2c00404 + 0x80 * pl + 0x40 * sec
def R.PMF_FIX_cycles_HI_cycles_hi (pl : Nat) (sec : Nat) : Fld := ⟨R.PMF_FIX_cycles_HI pl sec, 0, 32⟩

/-- PMF_FIX_retired_LO, R488 (16_counters_snapshots_pmu.md). -/
def R.PMF_FIX_retired_LO (pl : Nat) (sec : Nat) : Nat := 0x2c00408 + 0x80 * pl + 0x40 * sec
def R.PMF_FIX_retired_LO_retired_lo (pl : Nat) (sec : Nat) : Fld := ⟨R.PMF_FIX_retired_LO pl sec, 0, 32⟩

/-- PMF_FIX_retired_HI, R488 (16_counters_snapshots_pmu.md). -/
def R.PMF_FIX_retired_HI (pl : Nat) (sec : Nat) : Nat := 0x2c0040c + 0x80 * pl + 0x40 * sec
def R.PMF_FIX_retired_HI_retired_hi (pl : Nat) (sec : Nat) : Fld := ⟨R.PMF_FIX_retired_HI pl sec, 0, 32⟩

/-- PMF_FIX_wasted_LO, R488 (16_counters_snapshots_pmu.md). -/
def R.PMF_FIX_wasted_LO (pl : Nat) (sec : Nat) : Nat := 0x2c00410 + 0x80 * pl + 0x40 * sec
def R.PMF_FIX_wasted_LO_wasted_lo (pl : Nat) (sec : Nat) : Fld := ⟨R.PMF_FIX_wasted_LO pl sec, 0, 32⟩

/-- PMF_FIX_wasted_HI, R488 (16_counters_snapshots_pmu.md). -/
def R.PMF_FIX_wasted_HI (pl : Nat) (sec : Nat) : Nat := 0x2c00414 + 0x80 * pl + 0x40 * sec
def R.PMF_FIX_wasted_HI_wasted_hi (pl : Nat) (sec : Nat) : Fld := ⟨R.PMF_FIX_wasted_HI pl sec, 0, 32⟩

/-- PMF_FIX_starved_front_LO, R488 (16_counters_snapshots_pmu.md). -/
def R.PMF_FIX_starved_front_LO (pl : Nat) (sec : Nat) : Nat := 0x2c00418 + 0x80 * pl + 0x40 * sec
def R.PMF_FIX_starved_front_LO_starved_front_lo (pl : Nat) (sec : Nat) : Fld := ⟨R.PMF_FIX_starved_front_LO pl sec, 0, 32⟩

/-- PMF_FIX_starved_front_HI, R488 (16_counters_snapshots_pmu.md). -/
def R.PMF_FIX_starved_front_HI (pl : Nat) (sec : Nat) : Nat := 0x2c0041c + 0x80 * pl + 0x40 * sec
def R.PMF_FIX_starved_front_HI_starved_front_hi (pl : Nat) (sec : Nat) : Fld := ⟨R.PMF_FIX_starved_front_HI pl sec, 0, 32⟩

/-- PMF_FIX_starved_back_LO, R488 (16_counters_snapshots_pmu.md). -/
def R.PMF_FIX_starved_back_LO (pl : Nat) (sec : Nat) : Nat := 0x2c00420 + 0x80 * pl + 0x40 * sec
def R.PMF_FIX_starved_back_LO_starved_back_lo (pl : Nat) (sec : Nat) : Fld := ⟨R.PMF_FIX_starved_back_LO pl sec, 0, 32⟩

/-- PMF_FIX_starved_back_HI, R488 (16_counters_snapshots_pmu.md). -/
def R.PMF_FIX_starved_back_HI (pl : Nat) (sec : Nat) : Nat := 0x2c00424 + 0x80 * pl + 0x40 * sec
def R.PMF_FIX_starved_back_HI_starved_back_hi (pl : Nat) (sec : Nat) : Fld := ⟨R.PMF_FIX_starved_back_HI pl sec, 0, 32⟩

/-- PMF_SMP_BASE_LO, R488 (16_counters_snapshots_pmu.md). -/
def R.PMF_SMP_BASE_LO : Nat := 0x2c00800
def R.PMF_SMP_BASE_LO_addr_lo : Fld := ⟨R.PMF_SMP_BASE_LO, 0, 32⟩

/-- PMF_SMP_BASE_HI, R488 (16_counters_snapshots_pmu.md). -/
def R.PMF_SMP_BASE_HI : Nat := 0x2c00804
def R.PMF_SMP_BASE_HI_addr_hi : Fld := ⟨R.PMF_SMP_BASE_HI, 0, 32⟩

/-- PMF_SMP_CFG, R488 (16_counters_snapshots_pmu.md). -/
def R.PMF_SMP_CFG : Nat := 0x2c00808
def R.PMF_SMP_CFG_size_log2 : Fld := ⟨R.PMF_SMP_CFG, 0, 5⟩
def R.PMF_SMP_CFG_vector : Fld := ⟨R.PMF_SMP_CFG, 8, 6⟩
def R.PMF_SMP_CFG_en : Fld := ⟨R.PMF_SMP_CFG, 14, 1⟩

/-- PMF_SMP_HEAD, R488 (16_counters_snapshots_pmu.md). -/
def R.PMF_SMP_HEAD : Nat := 0x2c0080c
def R.PMF_SMP_HEAD_head : Fld := ⟨R.PMF_SMP_HEAD, 0, 16⟩

/-- PMF_SMP_TAIL, R488 (16_counters_snapshots_pmu.md). -/
def R.PMF_SMP_TAIL : Nat := 0x2c00810
def R.PMF_SMP_TAIL_tail : Fld := ⟨R.PMF_SMP_TAIL, 0, 16⟩

/-- PMF_SMP_LOST, R488 (16_counters_snapshots_pmu.md). -/
def R.PMF_SMP_LOST : Nat := 0x2c00814
def R.PMF_SMP_LOST_count : Fld := ⟨R.PMF_SMP_LOST, 0, 32⟩

/-- GLB_SERVICE, R513 (17_bringup_reset_power_states.md). -/
def R.GLB_SERVICE : Nat := 0x20
def R.GLB_SERVICE_stage : Fld := ⟨R.GLB_SERVICE, 0, 3⟩
def R.GLB_SERVICE_autostart_ok : Fld := ⟨R.GLB_SERVICE, 3, 1⟩
def R.GLB_SERVICE_autostart_failed : Fld := ⟨R.GLB_SERVICE, 4, 1⟩
def R.GLB_SERVICE_no_recipe : Fld := ⟨R.GLB_SERVICE, 8, 1⟩
def R.GLB_SERVICE_no_lock : Fld := ⟨R.GLB_SERVICE, 9, 1⟩
def R.GLB_SERVICE_no_hier : Fld := ⟨R.GLB_SERVICE, 10, 1⟩
def R.GLB_SERVICE_no_reservoir : Fld := ⟨R.GLB_SERVICE, 11, 1⟩
def R.GLB_SERVICE_hbm_fault : Fld := ⟨R.GLB_SERVICE, 12, 1⟩
def R.GLB_SERVICE_td_down : Fld := ⟨R.GLB_SERVICE, 13, 1⟩
def R.GLB_SERVICE_copy_missing : Fld := ⟨R.GLB_SERVICE, 14, 1⟩

/-- GLB_SVC_CFG, R513 (17_bringup_reset_power_states.md). -/
def R.GLB_SVC_CFG : Nat := 0x24
def R.GLB_SVC_CFG_no_reservoir : Fld := ⟨R.GLB_SVC_CFG, 0, 1⟩

/-- GLB_RESET_CTRL, R513 (17_bringup_reset_power_states.md). -/
def R.GLB_RESET_CTRL : Nat := 0x30
def R.GLB_RESET_CTRL_warm : Fld := ⟨R.GLB_RESET_CTRL, 0, 1⟩
def R.GLB_RESET_CTRL_td : Fld := ⟨R.GLB_RESET_CTRL, 1, 1⟩
def R.GLB_RESET_CTRL_key : Fld := ⟨R.GLB_RESET_CTRL, 16, 16⟩

/-- GLB_RESET_CFG, R513 (17_bringup_reset_power_states.md). -/
def R.GLB_RESET_CFG : Nat := 0x34
def R.GLB_RESET_CFG_perst_full : Fld := ⟨R.GLB_RESET_CFG, 0, 1⟩
def R.GLB_RESET_CFG_td_wd_en : Fld := ⟨R.GLB_RESET_CFG, 1, 1⟩

/-- GLB_RESET_CAUSE, R513 (17_bringup_reset_power_states.md). -/
def R.GLB_RESET_CAUSE : Nat := 0x38
def R.GLB_RESET_CAUSE_last_warm : Fld := ⟨R.GLB_RESET_CAUSE, 0, 4⟩
def R.GLB_RESET_CAUSE_last_td : Fld := ⟨R.GLB_RESET_CAUSE, 4, 4⟩
def R.GLB_RESET_CAUSE_warm_count : Fld := ⟨R.GLB_RESET_CAUSE, 8, 8⟩
def R.GLB_RESET_CAUSE_td_count : Fld := ⟨R.GLB_RESET_CAUSE, 16, 8⟩

/-- GLB_BLKRST, R513 (17_bringup_reset_power_states.md). -/
def R.GLB_BLKRST : Nat := 0x3c
def R.GLB_BLKRST_lif : Fld := ⟨R.GLB_BLKRST, 4, 1⟩
def R.GLB_BLKRST_otn : Fld := ⟨R.GLB_BLKRST, 5, 1⟩
def R.GLB_BLKRST_pmf : Fld := ⟨R.GLB_BLKRST, 11, 1⟩
def R.GLB_BLKRST_dcf : Fld := ⟨R.GLB_BLKRST, 13, 1⟩
def R.GLB_BLKRST_rsv : Fld := ⟨R.GLB_BLKRST, 19, 1⟩
def R.GLB_BLKRST_fab : Fld := ⟨R.GLB_BLKRST, 22, 1⟩
def R.GLB_BLKRST_pmt : Fld := ⟨R.GLB_BLKRST, 25, 1⟩
def R.GLB_BLKRST_dct : Fld := ⟨R.GLB_BLKRST, 26, 1⟩

/-- GLB_EPOCH, R513 (17_bringup_reset_power_states.md). -/
def R.GLB_EPOCH : Nat := 0x40
def R.GLB_EPOCH_td_epoch : Fld := ⟨R.GLB_EPOCH, 0, 16⟩

/-- GLB_STALE_FD, R513 (17_bringup_reset_power_states.md). -/
def R.GLB_STALE_FD : Nat := 0x44
def R.GLB_STALE_FD_count : Fld := ⟨R.GLB_STALE_FD, 0, 32⟩

/-- GLB_STALE_TD, R513 (17_bringup_reset_power_states.md). -/
def R.GLB_STALE_TD : Nat := 0x48
def R.GLB_STALE_TD_count : Fld := ⟨R.GLB_STALE_TD, 0, 32⟩

/-- GLB_LOST_CPL, R513 (17_bringup_reset_power_states.md). -/
def R.GLB_LOST_CPL : Nat := 0x4c
def R.GLB_LOST_CPL_count : Fld := ⟨R.GLB_LOST_CPL, 0, 32⟩

/-- FWS_FW_STATUS, R543 (18_firmware_security_update.md). -/
def R.FWS_FW_STATUS : Nat := 0x300000
def R.FWS_FW_STATUS_active_bank : Fld := ⟨R.FWS_FW_STATUS, 0, 1⟩
def R.FWS_FW_STATUS_bank_a : Fld := ⟨R.FWS_FW_STATUS, 1, 3⟩
def R.FWS_FW_STATUS_bank_b : Fld := ⟨R.FWS_FW_STATUS, 4, 3⟩
def R.FWS_FW_STATUS_act_pending : Fld := ⟨R.FWS_FW_STATUS, 7, 1⟩
def R.FWS_FW_STATUS_interop : Fld := ⟨R.FWS_FW_STATUS, 16, 16⟩

/-- FWS_FW_LEVELS, R543 (18_firmware_security_update.md). -/
def R.FWS_FW_LEVELS : Nat := 0x300004
def R.FWS_FW_LEVELS_peer_min : Fld := ⟨R.FWS_FW_LEVELS, 0, 16⟩
def R.FWS_FW_LEVELS_peer_max : Fld := ⟨R.FWS_FW_LEVELS, 16, 16⟩

/-- FWS_FW_SECVER, R543 (18_firmware_security_update.md). -/
def R.FWS_FW_SECVER : Nat := 0x300008
def R.FWS_FW_SECVER_sec_version : Fld := ⟨R.FWS_FW_SECVER, 0, 7⟩
def R.FWS_FW_SECVER_arb_count : Fld := ⟨R.FWS_FW_SECVER, 8, 7⟩

/-- FWS_FW_DP_PAUSE, R543 (18_firmware_security_update.md). -/
def R.FWS_FW_DP_PAUSE : Nat := 0x30000c
def R.FWS_FW_DP_PAUSE_ns : Fld := ⟨R.FWS_FW_DP_PAUSE, 0, 12⟩

/-- FWS_FW_MGMT_PAUSE, R543 (18_firmware_security_update.md). -/
def R.FWS_FW_MGMT_PAUSE : Nat := 0x300010
def R.FWS_FW_MGMT_PAUSE_us : Fld := ⟨R.FWS_FW_MGMT_PAUSE, 0, 16⟩

/-- FWS_BOOT_STATUS, R543 (18_firmware_security_update.md). -/
def R.FWS_BOOT_STATUS : Nat := 0x300014
def R.FWS_BOOT_STATUS_boot_bank : Fld := ⟨R.FWS_BOOT_STATUS, 0, 1⟩
def R.FWS_BOOT_STATUS_expiries : Fld := ⟨R.FWS_BOOT_STATUS, 1, 2⟩
def R.FWS_BOOT_STATUS_a_failed : Fld := ⟨R.FWS_BOOT_STATUS, 3, 1⟩
def R.FWS_BOOT_STATUS_b_failed : Fld := ⟨R.FWS_BOOT_STATUS, 4, 1⟩
def R.FWS_BOOT_STATUS_recovery_cause : Fld := ⟨R.FWS_BOOT_STATUS, 5, 2⟩

/-- FWS_STG_STATUS, R543 (18_firmware_security_update.md). -/
def R.FWS_STG_STATUS : Nat := 0x300020
def R.FWS_STG_STATUS_present : Fld := ⟨R.FWS_STG_STATUS, 0, 15⟩
def R.FWS_STG_STATUS_count : Fld := ⟨R.FWS_STG_STATUS, 15, 15⟩
def R.FWS_STG_STATUS_complete : Fld := ⟨R.FWS_STG_STATUS, 30, 1⟩
def R.FWS_STG_STATUS_bound : Fld := ⟨R.FWS_STG_STATUS, 31, 1⟩

/-- FWS_STG_ID, R543 (18_firmware_security_update.md). -/
def R.FWS_STG_ID (w : Nat) : Nat := 0x300028 + 0x4 * w
def R.FWS_STG_ID_id (w : Nat) : Fld := ⟨R.FWS_STG_ID w, 0, 32⟩

/-- FWS_STG_DUPS, R543 (18_firmware_security_update.md). -/
def R.FWS_STG_DUPS : Nat := 0x300038
def R.FWS_STG_DUPS_count : Fld := ⟨R.FWS_STG_DUPS, 0, 32⟩

/-- FWS_STG_BAD, R543 (18_firmware_security_update.md). -/
def R.FWS_STG_BAD : Nat := 0x30003c
def R.FWS_STG_BAD_count : Fld := ⟨R.FWS_STG_BAD, 0, 32⟩

/-- FWS_INB_DROP, R543 (18_firmware_security_update.md). -/
def R.FWS_INB_DROP : Nat := 0x300040
def R.FWS_INB_DROP_count : Fld := ⟨R.FWS_INB_DROP, 0, 32⟩

/-- FWS_INB_CFG, R543 (18_firmware_security_update.md). -/
def R.FWS_INB_CFG : Nat := 0x300050
def R.FWS_INB_CFG_en : Fld := ⟨R.FWS_INB_CFG, 0, 1⟩

/-- FWS_PEER_RANGE, R543 (18_firmware_security_update.md). -/
def R.FWS_PEER_RANGE : Nat := 0x300060
def R.FWS_PEER_RANGE_min_level : Fld := ⟨R.FWS_PEER_RANGE, 0, 16⟩
def R.FWS_PEER_RANGE_max_level : Fld := ⟨R.FWS_PEER_RANGE, 16, 16⟩

/-- FWS_PEER_ACC, R543 (18_firmware_security_update.md). -/
def R.FWS_PEER_ACC : Nat := 0x300064
def R.FWS_PEER_ACC_acc_min : Fld := ⟨R.FWS_PEER_ACC, 0, 16⟩
def R.FWS_PEER_ACC_acc_max : Fld := ⟨R.FWS_PEER_ACC, 16, 16⟩

/-- FWS_PEER_CFG, R543 (18_firmware_security_update.md). -/
def R.FWS_PEER_CFG : Nat := 0x300068
def R.FWS_PEER_CFG_forget_s : Fld := ⟨R.FWS_PEER_CFG, 0, 10⟩

/-- FWS_SEC_STATUS, R543 (18_firmware_security_update.md). -/
def R.FWS_SEC_STATUS : Nat := 0x301000
def R.FWS_SEC_STATUS_busy : Fld := ⟨R.FWS_SEC_STATUS, 0, 1⟩
def R.FWS_SEC_STATUS_progress : Fld := ⟨R.FWS_SEC_STATUS, 1, 7⟩

/-- FWS_ARB_RAISE, R543 (18_firmware_security_update.md). -/
def R.FWS_ARB_RAISE : Nat := 0x301004
def R.FWS_ARB_RAISE_value : Fld := ⟨R.FWS_ARB_RAISE, 0, 7⟩
def R.FWS_ARB_RAISE_key : Fld := ⟨R.FWS_ARB_RAISE, 16, 16⟩

/-- FWS_KEY_STATUS, R543 (18_firmware_security_update.md). -/
def R.FWS_KEY_STATUS : Nat := 0x301008
def R.FWS_KEY_STATUS_programmed : Fld := ⟨R.FWS_KEY_STATUS, 0, 4⟩
def R.FWS_KEY_STATUS_revoked : Fld := ⟨R.FWS_KEY_STATUS, 4, 4⟩

/-- FWS_KEY_CTRL, R543 (18_firmware_security_update.md). -/
def R.FWS_KEY_CTRL : Nat := 0x30100c
def R.FWS_KEY_CTRL_slot : Fld := ⟨R.FWS_KEY_CTRL, 0, 2⟩
def R.FWS_KEY_CTRL_program : Fld := ⟨R.FWS_KEY_CTRL, 2, 1⟩
def R.FWS_KEY_CTRL_revoke : Fld := ⟨R.FWS_KEY_CTRL, 3, 1⟩
def R.FWS_KEY_CTRL_key : Fld := ⟨R.FWS_KEY_CTRL, 16, 16⟩

/-- FWS_KEY_BUF_LO, R543 (18_firmware_security_update.md). -/
def R.FWS_KEY_BUF_LO : Nat := 0x301010
def R.FWS_KEY_BUF_LO_addr_lo : Fld := ⟨R.FWS_KEY_BUF_LO, 0, 32⟩

/-- FWS_KEY_BUF_HI, R543 (18_firmware_security_update.md). -/
def R.FWS_KEY_BUF_HI : Nat := 0x301014
def R.FWS_KEY_BUF_HI_addr_hi : Fld := ⟨R.FWS_KEY_BUF_HI, 0, 32⟩

/-- FWS_CKEY_HASH, R543 (18_firmware_security_update.md). -/
def R.FWS_CKEY_HASH (s : Nat) (j : Nat) : Nat := 0x301100 + 0x40 * s + 0x4 * j
def R.FWS_CKEY_HASH_hash (s : Nat) (j : Nat) : Fld := ⟨R.FWS_CKEY_HASH s j, 0, 32⟩

/-- FWS_VKEY_HASH, R543 (18_firmware_security_update.md). -/
def R.FWS_VKEY_HASH (j : Nat) : Nat := 0x301200 + 0x4 * j
def R.FWS_VKEY_HASH_hash (j : Nat) : Fld := ⟨R.FWS_VKEY_HASH j, 0, 32⟩

/-- FWS_SLOG_CTRL, R543 (18_firmware_security_update.md). -/
def R.FWS_SLOG_CTRL : Nat := 0x302000
def R.FWS_SLOG_CTRL_next : Fld := ⟨R.FWS_SLOG_CTRL, 0, 8⟩
def R.FWS_SLOG_CTRL_wrapped : Fld := ⟨R.FWS_SLOG_CTRL, 8, 1⟩

/-- FWS_SLOG_w0, R543 (18_firmware_security_update.md). -/
def R.FWS_SLOG_w0 (i : Nat) : Nat := 0x302100 + 0x20 * i
def R.FWS_SLOG_w0_reason (i : Nat) : Fld := ⟨R.FWS_SLOG_w0 i, 0, 8⟩
def R.FWS_SLOG_w0_function (i : Nat) : Fld := ⟨R.FWS_SLOG_w0 i, 8, 1⟩
def R.FWS_SLOG_w0_remote_valid (i : Nat) : Fld := ⟨R.FWS_SLOG_w0 i, 9, 1⟩
def R.FWS_SLOG_w0_remote_device (i : Nat) : Fld := ⟨R.FWS_SLOG_w0 i, 10, 9⟩
def R.FWS_SLOG_w0_opcode (i : Nat) : Fld := ⟨R.FWS_SLOG_w0 i, 19, 8⟩
def R.FWS_SLOG_w0_valid (i : Nat) : Fld := ⟨R.FWS_SLOG_w0 i, 31, 1⟩

/-- FWS_SLOG_w1, R543 (18_firmware_security_update.md). -/
def R.FWS_SLOG_w1 (i : Nat) : Nat := 0x302104 + 0x20 * i
def R.FWS_SLOG_w1_address (i : Nat) : Fld := ⟨R.FWS_SLOG_w1 i, 0, 32⟩

/-- FWS_SLOG_LO, R543 (18_firmware_security_update.md). -/
def R.FWS_SLOG_LO (i : Nat) : Nat := 0x302108 + 0x20 * i
def R.FWS_SLOG_LO_turn_lo (i : Nat) : Fld := ⟨R.FWS_SLOG_LO i, 0, 32⟩

/-- FWS_SLOG_HI, R543 (18_firmware_security_update.md). -/
def R.FWS_SLOG_HI (i : Nat) : Nat := 0x30210c + 0x20 * i
def R.FWS_SLOG_HI_turn_hi (i : Nat) : Fld := ⟨R.FWS_SLOG_HI i, 0, 32⟩

/-- FWS_BCFG_ADDR_LO, R543 (18_firmware_security_update.md). -/
def R.FWS_BCFG_ADDR_LO : Nat := 0x305000
def R.FWS_BCFG_ADDR_LO_addr_lo : Fld := ⟨R.FWS_BCFG_ADDR_LO, 0, 32⟩

/-- FWS_BCFG_ADDR_HI, R543 (18_firmware_security_update.md). -/
def R.FWS_BCFG_ADDR_HI : Nat := 0x305004
def R.FWS_BCFG_ADDR_HI_addr_hi : Fld := ⟨R.FWS_BCFG_ADDR_HI, 0, 32⟩

/-- FWS_BCFG_CTRL, R543 (18_firmware_security_update.md). -/
def R.FWS_BCFG_CTRL : Nat := 0x305008
def R.FWS_BCFG_CTRL_store : Fld := ⟨R.FWS_BCFG_CTRL, 0, 1⟩
def R.FWS_BCFG_CTRL_busy : Fld := ⟨R.FWS_BCFG_CTRL, 1, 1⟩
def R.FWS_BCFG_CTRL_done : Fld := ⟨R.FWS_BCFG_CTRL, 2, 1⟩
def R.FWS_BCFG_CTRL_error : Fld := ⟨R.FWS_BCFG_CTRL, 3, 1⟩

/-- FWS_REC_CTRL, R543 (18_firmware_security_update.md). -/
def R.FWS_REC_CTRL : Nat := 0x305100
def R.FWS_REC_CTRL_go : Fld := ⟨R.FWS_REC_CTRL, 0, 1⟩
def R.FWS_REC_CTRL_verify : Fld := ⟨R.FWS_REC_CTRL, 1, 1⟩
def R.FWS_REC_CTRL_reboot : Fld := ⟨R.FWS_REC_CTRL, 2, 1⟩
def R.FWS_REC_CTRL_last_status : Fld := ⟨R.FWS_REC_CTRL, 8, 8⟩

/-- FWS_REC_COUNT, R543 (18_firmware_security_update.md). -/
def R.FWS_REC_COUNT : Nat := 0x305104
def R.FWS_REC_COUNT_crumbs : Fld := ⟨R.FWS_REC_COUNT, 0, 15⟩

/-- GLB_STRAPS, R565 (19_package_pins_electrical.md). -/
def R.GLB_STRAPS : Nat := 0x100
def R.GLB_STRAPS_recovery_n : Fld := ⟨R.GLB_STRAPS, 0, 1⟩
def R.GLB_STRAPS_i2c_addr : Fld := ⟨R.GLB_STRAPS, 1, 2⟩

/-- GLB_PWR_STATUS, R565 (19_package_pins_electrical.md). -/
def R.GLB_PWR_STATUS : Nat := 0x104
def R.GLB_PWR_STATUS_rail_ok : Fld := ⟨R.GLB_PWR_STATUS, 0, 10⟩
def R.GLB_PWR_STATUS_brownout : Fld := ⟨R.GLB_PWR_STATUS, 16, 1⟩

/-- GLB_RAIL, R565 (19_package_pins_electrical.md). -/
def R.GLB_RAIL (v : Nat) : Nat := 0x110 + 0x4 * v
def R.GLB_RAIL_mv (v : Nat) : Fld := ⟨R.GLB_RAIL v, 0, 16⟩

/-- GLB_THERM_CFG, R565 (19_package_pins_electrical.md). -/
def R.GLB_THERM_CFG : Nat := 0x140
def R.GLB_THERM_CFG_die_warn : Fld := ⟨R.GLB_THERM_CFG, 0, 8⟩
def R.GLB_THERM_CFG_die_crit : Fld := ⟨R.GLB_THERM_CFG, 8, 8⟩
def R.GLB_THERM_CFG_hbm_warn : Fld := ⟨R.GLB_THERM_CFG, 16, 8⟩
def R.GLB_THERM_CFG_hbm_crit : Fld := ⟨R.GLB_THERM_CFG, 24, 8⟩

/-- GLB_THERM_STATUS, R565 (19_package_pins_electrical.md). -/
def R.GLB_THERM_STATUS : Nat := 0x144
def R.GLB_THERM_STATUS_warn : Fld := ⟨R.GLB_THERM_STATUS, 0, 1⟩
def R.GLB_THERM_STATUS_crit : Fld := ⟨R.GLB_THERM_STATUS, 1, 1⟩
def R.GLB_THERM_STATUS_trip : Fld := ⟨R.GLB_THERM_STATUS, 2, 1⟩
def R.GLB_THERM_STATUS_hottest : Fld := ⟨R.GLB_THERM_STATUS, 3, 5⟩
def R.GLB_THERM_STATUS_temp : Fld := ⟨R.GLB_THERM_STATUS, 16, 16⟩

/-- GLB_TEMP, R565 (19_package_pins_electrical.md). -/
def R.GLB_TEMP (x : Nat) : Nat := 0x180 + 0x4 * x
def R.GLB_TEMP_temp (x : Nat) : Fld := ⟨R.GLB_TEMP x, 0, 16⟩
def R.GLB_TEMP_valid (x : Nat) : Fld := ⟨R.GLB_TEMP x, 16, 1⟩

/-- GLB_INT_STATUS, R565 (19_package_pins_electrical.md). -/
def R.GLB_INT_STATUS : Nat := 0x200
def R.GLB_INT_STATUS_err_fd : Fld := ⟨R.GLB_INT_STATUS, 0, 1⟩
def R.GLB_INT_STATUS_err_td : Fld := ⟨R.GLB_INT_STATUS, 1, 1⟩
def R.GLB_INT_STATUS_crit : Fld := ⟨R.GLB_INT_STATUS, 2, 1⟩
def R.GLB_INT_STATUS_therm : Fld := ⟨R.GLB_INT_STATUS, 3, 1⟩

/-- GLB_INT_MASK, R565 (19_package_pins_electrical.md). -/
def R.GLB_INT_MASK : Nat := 0x204
def R.GLB_INT_MASK_mask : Fld := ⟨R.GLB_INT_MASK, 0, 4⟩

/-- GLB_OUT_CTRL, R565 (19_package_pins_electrical.md). -/
def R.GLB_OUT_CTRL : Nat := 0x208
def R.GLB_OUT_CTRL_fab_rdy_hold : Fld := ⟨R.GLB_OUT_CTRL, 0, 1⟩

/-- GLB_LED_CFG, R565 (19_package_pins_electrical.md). -/
def R.GLB_LED_CFG : Nat := 0x20c
def R.GLB_LED_CFG_en : Fld := ⟨R.GLB_LED_CFG, 0, 1⟩

/-- GLB_GPIO_OE, R565 (19_package_pins_electrical.md). -/
def R.GLB_GPIO_OE : Nat := 0x210
def R.GLB_GPIO_OE_oe : Fld := ⟨R.GLB_GPIO_OE, 0, 16⟩

/-- GLB_GPIO_OUT, R565 (19_package_pins_electrical.md). -/
def R.GLB_GPIO_OUT : Nat := 0x214
def R.GLB_GPIO_OUT_out : Fld := ⟨R.GLB_GPIO_OUT, 0, 16⟩

/-- GLB_GPIO_IN, R565 (19_package_pins_electrical.md). -/
def R.GLB_GPIO_IN : Nat := 0x218
def R.GLB_GPIO_IN_in : Fld := ⟨R.GLB_GPIO_IN, 0, 16⟩

/-- FWS_CAL_FAC, R566 (19_package_pins_electrical.md). -/
def R.FWS_CAL_FAC (k : Nat) : Nat := 0x308000 + 0x4 * k
def R.FWS_CAL_FAC_factory (k : Nat) : Fld := ⟨R.FWS_CAL_FAC k, 0, 32⟩

/-- FWS_CAL_USER, R566 (19_package_pins_electrical.md). -/
def R.FWS_CAL_USER (k : Nat) : Nat := 0x30a000 + 0x4 * k
def R.FWS_CAL_USER_user (k : Nat) : Fld := ⟨R.FWS_CAL_USER k, 0, 32⟩

/-- FWS_CAL_EFF, R566 (19_package_pins_electrical.md). -/
def R.FWS_CAL_EFF (k : Nat) : Nat := 0x30c000 + 0x4 * k
def R.FWS_CAL_EFF_effective (k : Nat) : Fld := ⟨R.FWS_CAL_EFF k, 0, 32⟩

/-- GLB_ID, R1 (00_scope.md). -/
def R.GLB_ID : Nat := 0x0
def R.GLB_ID_part_code : Fld := ⟨R.GLB_ID, 16, 16⟩
def R.GLB_ID_revision : Fld := ⟨R.GLB_ID, 8, 8⟩

end Sys2Proof.Machine
end

