-- ==== Sys2Proof/Machine/RegTable.lean ====
section
/-!
DEFINITION. Machine/RegTable.lean: the register tables of the device, block by block, as data: the block map (R430), and
for every register its offset, indices, access codes and reset values (R24, R64, R65, R91, R115, R140, R168, R201, R234,
R235, R261, R262, R295 to R297, R325, R326, R354, R396, R397, R425, R426, R464, R487, R488, R513, R543, R565, R566), then
the functions that look a register up. Where the tables give no reset value, the value is 0 (notes/assumptions/2.md).
-/

namespace Sys2Proof.Machine

def regsGlb0 : List RegDesc := [
  ⟨0x10, [], false, .single, [⟨0, 4, .ro, 0xf⟩, ⟨4, 10, .rw, 0⟩, ⟨16, 1, .rw, 0⟩, ⟨17, 10, .rw, 0⟩]⟩,
  ⟨0x14, [], false, .single, [⟨0, 32, .ro, 0xf⟩]⟩,
  ⟨0x20, [], false, .single, [⟨0, 3, .ro, 1⟩, ⟨3, 1, .ro, 0⟩, ⟨4, 1, .ro, 0⟩, ⟨8, 1, .ro, 1⟩, ⟨9, 1, .ro, 1⟩, ⟨10, 1, .ro, 1⟩, ⟨11, 1, .ro, 1⟩, ⟨12, 1, .ro, 0⟩, ⟨13, 1, .ro, 0⟩, ⟨14, 1, .ro, 0⟩]⟩,
  ⟨0x24, [], false, .single, [⟨0, 1, .rws, 0⟩]⟩,
  ⟨0x30, [], true, .single, [⟨0, 1, .wo, 0⟩, ⟨1, 1, .wo, 0⟩, ⟨16, 16, .wo, 0⟩]⟩,
  ⟨0x34, [], false, .single, [⟨0, 1, .rws, 0⟩, ⟨1, 1, .rws, 1⟩]⟩,
  ⟨0x38, [], false, .single, [⟨0, 4, .rws, 0⟩, ⟨4, 4, .rws, 0⟩, ⟨8, 8, .rws, 0⟩, ⟨16, 8, .rws, 0⟩]⟩,
  ⟨0x3c, [], true, .single, [⟨4, 1, .w1s, 0⟩, ⟨5, 1, .w1s, 0⟩, ⟨11, 1, .w1s, 0⟩, ⟨13, 1, .w1s, 0⟩, ⟨19, 1, .w1s, 0⟩, ⟨22, 1, .w1s, 0⟩, ⟨25, 1, .w1s, 0⟩, ⟨26, 1, .w1s, 0⟩]⟩,
  ⟨0x40, [], false, .single, [⟨0, 16, .ro, 0⟩]⟩,
  ⟨0x44, [], false, .single, [⟨0, 32, .rc, 0⟩]⟩,
  ⟨0x48, [], false, .single, [⟨0, 32, .rc, 0⟩]⟩,
  ⟨0x4c, [], false, .single, [⟨0, 32, .rc, 0⟩]⟩,
  ⟨0x100, [], false, .single, [⟨0, 1, .ro, 1⟩, ⟨1, 2, .ro, 3⟩]⟩,
  ⟨0x104, [], false, .single, [⟨0, 10, .ro, 0x3ff⟩, ⟨16, 1, .w1c, 0⟩]⟩,
  ⟨0x110, [⟨0x4, 0, 10⟩], false, .single, [⟨0, 16, .ro, 0⟩]⟩,
  ⟨0x140, [], false, .single, [⟨0, 8, .rw, 0x5f⟩, ⟨8, 8, .rw, 0x69⟩, ⟨16, 8, .rw, 0x55⟩, ⟨24, 8, .rw, 0x5f⟩]⟩,
  ⟨0x144, [], false, .single, [⟨0, 1, .ro, 0⟩, ⟨1, 1, .ro, 0⟩, ⟨2, 1, .ro, 0⟩, ⟨3, 5, .ro, 0⟩, ⟨16, 16, .ro, 0⟩]⟩,
  ⟨0x180, [⟨0x4, 0, 26⟩], false, .single, [⟨0, 16, .ro, 0⟩, ⟨16, 1, .ro, 0⟩]⟩,
  ⟨0x200, [], false, .single, [⟨0, 1, .w1c, 0⟩, ⟨1, 1, .w1c, 0⟩, ⟨2, 1, .w1c, 0⟩, ⟨3, 1, .w1c, 0⟩]⟩,
  ⟨0x204, [], false, .single, [⟨0, 4, .rw, 0xf⟩]⟩,
  ⟨0x208, [], false, .single, [⟨0, 1, .rw, 0⟩]⟩,
  ⟨0x20c, [], false, .single, [⟨0, 1, .rw, 0⟩]⟩,
  ⟨0x210, [], false, .single, [⟨0, 16, .rw, 0⟩]⟩,
  ⟨0x214, [], false, .single, [⟨0, 16, .rw, 0⟩]⟩]

def regsGlb1 : List RegDesc := [
  ⟨0x218, [], false, .single, [⟨0, 16, .ro, 0⟩]⟩,
  ⟨0x0, [], false, .single, [⟨16, 16, .ro, 0x7260⟩, ⟨8, 8, .ro, 0xb0⟩]⟩]

/-- The registers of block GLB. -/
def regsGlb : List RegDesc := regsGlb0 ++ regsGlb1

def regsTbs0 : List RegDesc := [
  ⟨0x0, [], false, .single, [⟨0, 2, .rw, 0⟩, ⟨2, 1, .rw, 0⟩, ⟨3, 1, .rw, 0⟩]⟩,
  ⟨0x4, [], false, .single, [⟨0, 5, .rw, 0xe⟩]⟩,
  ⟨0x8, [], false, .single, [⟨0, 2, .ro, 0⟩, ⟨2, 1, .ro, 0⟩, ⟨3, 1, .ro, 0⟩, ⟨4, 1, .ro, 0⟩, ⟨8, 1, .w1c, 0⟩, ⟨9, 1, .w1c, 0⟩, ⟨10, 1, .w1c, 0⟩, ⟨16, 7, .ro, 0⟩, ⟨23, 7, .ro, 0⟩]⟩,
  ⟨0xc, [], false, .single, [⟨0, 4, .rw, 4⟩, ⟨8, 8, .rw, 0x10⟩]⟩,
  ⟨0x10, [], false, .low, [⟨0, 32, .rw, 0⟩]⟩,
  ⟨0x14, [], true, .high, [⟨0, 16, .rw, 0⟩]⟩,
  ⟨0x18, [], false, .single, [⟨0, 32, .ro, 0⟩]⟩,
  ⟨0x1c, [], false, .single, [⟨0, 32, .wo, 0⟩]⟩,
  ⟨0x20, [], false, .single, [⟨0, 32, .rw, 0⟩]⟩,
  ⟨0x24, [], true, .single, [⟨0, 32, .wo, 0⟩]⟩,
  ⟨0x28, [], false, .low, [⟨0, 32, .rw, 0⟩]⟩,
  ⟨0x2c, [], true, .high, [⟨0, 32, .rw, 0⟩]⟩,
  ⟨0x30, [], true, .single, [⟨0, 1, .wo, 0⟩]⟩,
  ⟨0x34, [], false, .single, [⟨0, 30, .ro, 0⟩, ⟨31, 1, .ro, 0⟩]⟩,
  ⟨0x38, [], false, .low, [⟨0, 32, .ro, 0⟩]⟩,
  ⟨0x3c, [], false, .high, [⟨0, 16, .ro, 0⟩, ⟨16, 16, .ro, 0⟩]⟩,
  ⟨0x40, [], false, .low, [⟨0, 32, .ro, 0⟩]⟩,
  ⟨0x44, [], false, .high, [⟨0, 32, .ro, 0⟩]⟩,
  ⟨0x100, [⟨0x10, 0, 64⟩], false, .low, [⟨0, 32, .ro, 0⟩]⟩,
  ⟨0x104, [⟨0x10, 0, 64⟩], false, .high, [⟨0, 32, .ro, 0⟩]⟩,
  ⟨0x108, [⟨0x10, 0, 64⟩], false, .single, [⟨0, 1, .ro, 0⟩, ⟨1, 1, .ro, 0⟩, ⟨2, 1, .ro, 0⟩, ⟨8, 8, .ro, 0⟩, ⟨24, 8, .ro, 0⟩]⟩,
  ⟨0xc00, [⟨0x10, 0, 64⟩], false, .low, [⟨0, 32, .ro, 0⟩]⟩,
  ⟨0xc04, [⟨0x10, 0, 64⟩], false, .high, [⟨0, 32, .ro, 0⟩]⟩,
  ⟨0xc08, [⟨0x10, 0, 64⟩], false, .single, [⟨0, 1, .ro, 0⟩, ⟨1, 1, .ro, 0⟩, ⟨2, 1, .ro, 0⟩, ⟨8, 8, .ro, 0⟩, ⟨24, 8, .ro, 0⟩]⟩]

def regsTbs1 : List RegDesc := [
  ⟨0x800, [], false, .single, [⟨0, 10, .rw, 0xc8⟩, ⟨10, 6, .rw, 1⟩, ⟨16, 1, .rw, 0⟩]⟩,
  ⟨0x804, [], false, .single, [⟨0, 4, .ro, 0⟩, ⟨4, 1, .ro, 0⟩, ⟨5, 2, .ro, 0⟩, ⟨8, 4, .w1c, 0⟩]⟩,
  ⟨0x808, [], false, .single, [⟨0, 1, .wo, 0⟩, ⟨1, 1, .wo, 0⟩]⟩,
  ⟨0x900, [], true, .single, [⟨0, 8, .rw, 0⟩, ⟨8, 8, .rw, 0⟩, ⟨16, 5, .rw, 0xa⟩, ⟨31, 1, .w1s, 0⟩]⟩,
  ⟨0x904, [], false, .single, [⟨0, 1, .w1c, 0⟩, ⟨1, 1, .ro, 0⟩, ⟨2, 1, .w1c, 0⟩]⟩,
  ⟨0x908, [], false, .low, [⟨0, 32, .ro, 0⟩]⟩,
  ⟨0x90c, [], false, .high, [⟨0, 32, .ro, 0⟩]⟩,
  ⟨0xa00, [⟨0x4, 0, 2⟩], false, .single, [⟨0, 7, .rw, 0⟩, ⟨8, 2, .rw, 0⟩, ⟨10, 1, .rw, 0⟩, ⟨11, 1, .rw, 1⟩]⟩]

/-- The registers of block TBS. -/
def regsTbs : List RegDesc := regsTbs0 ++ regsTbs1

def regsHac0 : List RegDesc := [
  ⟨0x0, [⟨0x10000000, 0, 2⟩], false, .single, [⟨0, 32, .ro, 0⟩]⟩,
  ⟨0x4, [⟨0x10000000, 0, 2⟩], false, .single, [⟨0, 32, .ro, 0⟩]⟩,
  ⟨0x10, [], false, .single, [⟨0, 32, .ro, 0⟩]⟩,
  ⟨0x14, [], false, .single, [⟨0, 32, .ro, 0⟩]⟩,
  ⟨0x20, [], false, .single, [⟨0, 1, .rw, 0⟩, ⟨1, 1, .rw, 0⟩, ⟨2, 1, .rw, 0⟩, ⟨3, 1, .rw, 0⟩, ⟨4, 1, .rw, 0⟩, ⟨5, 1, .rw, 0⟩, ⟨6, 1, .rw, 0⟩, ⟨7, 1, .rw, 0⟩]⟩,
  ⟨0x24, [], false, .single, [⟨0, 32, .rw, 0⟩]⟩,
  ⟨0x28, [], false, .single, [⟨0, 32, .rw, 0⟩]⟩,
  ⟨0x30, [], false, .single, [⟨0, 32, .rw, 0⟩]⟩,
  ⟨0x34, [], false, .single, [⟨0, 32, .rw, 0⟩]⟩,
  ⟨0x38, [], false, .single, [⟨0, 32, .rw, 0⟩]⟩,
  ⟨0x3c, [], false, .single, [⟨0, 32, .rw, 0⟩]⟩,
  ⟨0x40, [], false, .single, [⟨0, 32, .rw, 0⟩]⟩,
  ⟨0x44, [], false, .single, [⟨0, 5, .rw, 0⟩]⟩,
  ⟨0x48, [⟨0x4, 0, 2⟩], false, .single, [⟨0, 1, .rw, 0⟩]⟩,
  ⟨0x100, [⟨0x80, 0, 2⟩, ⟨0x10, 0, 8⟩], false, .single, [⟨0, 1, .rw, 0⟩, ⟨12, 20, .rw, 0⟩]⟩,
  ⟨0x104, [⟨0x80, 0, 2⟩, ⟨0x10, 0, 8⟩], false, .single, [⟨0, 32, .rw, 0⟩]⟩,
  ⟨0x108, [⟨0x80, 0, 2⟩, ⟨0x10, 0, 8⟩], false, .single, [⟨12, 20, .rw, 0xfffff⟩]⟩,
  ⟨0x10c, [⟨0x80, 0, 2⟩, ⟨0x10, 0, 8⟩], false, .single, [⟨0, 32, .rw, 0xffffffff⟩]⟩,
  ⟨0x400, [⟨0x10000000, 0, 2⟩, ⟨0x20, 0, 4⟩], false, .low, [⟨0, 32, .rw, 0⟩]⟩,
  ⟨0x404, [⟨0x10000000, 0, 2⟩, ⟨0x20, 0, 4⟩], false, .high, [⟨0, 32, .rw, 0⟩]⟩,
  ⟨0x408, [⟨0x10000000, 0, 2⟩, ⟨0x20, 0, 4⟩], false, .low, [⟨0, 32, .rw, 0⟩]⟩,
  ⟨0x40c, [⟨0x10000000, 0, 2⟩, ⟨0x20, 0, 4⟩], false, .high, [⟨0, 32, .rw, 0⟩]⟩,
  ⟨0x410, [⟨0x10000000, 0, 2⟩, ⟨0x20, 0, 4⟩], false, .single, [⟨0, 1, .rw, 0⟩, ⟨4, 12, .ro, 0⟩, ⟨16, 12, .ro, 0⟩]⟩,
  ⟨0x600, [⟨0x10000000, 0, 2⟩], false, .low, [⟨0, 32, .rw, 0⟩]⟩]

def regsHac1 : List RegDesc := [
  ⟨0x604, [⟨0x10000000, 0, 2⟩], false, .high, [⟨0, 32, .rw, 0⟩]⟩,
  ⟨0x608, [⟨0x10000000, 0, 2⟩], false, .single, [⟨0, 5, .rw, 0xa⟩, ⟨8, 6, .rw, 7⟩, ⟨14, 1, .rw, 0⟩]⟩,
  ⟨0x60c, [⟨0x10000000, 0, 2⟩], false, .single, [⟨0, 16, .ro, 0⟩]⟩,
  ⟨0x610, [⟨0x10000000, 0, 2⟩], false, .single, [⟨0, 16, .rw, 0⟩]⟩,
  ⟨0x614, [⟨0x10000000, 0, 2⟩], false, .single, [⟨0, 32, .rc, 0⟩]⟩,
  ⟨0x620, [], false, .single, [⟨0, 32, .w1c, 0⟩]⟩,
  ⟨0x1000, [], false, .single, [⟨0, 6, .ro, 0⟩, ⟨6, 1, .w1c, 0⟩]⟩,
  ⟨0x1100, [⟨0x20, 0, 64⟩, ⟨0x4, 0, 8⟩], false, .single, [⟨0, 32, .ro, 0⟩]⟩]

/-- The registers of block HAC. -/
def regsHac : List RegDesc := regsHac0 ++ regsHac1

def regsFws0 : List RegDesc := [
  ⟨0x40000, [], false, .single, [⟨0, 1, .ro, 0⟩, ⟨1, 3, .ro, 0⟩, ⟨4, 3, .ro, 0⟩, ⟨8, 1, .ro, 0⟩, ⟨9, 1, .ro, 0⟩]⟩,
  ⟨0x40008, [], false, .low, [⟨0, 32, .ro, 0⟩]⟩,
  ⟨0x4000c, [], false, .high, [⟨0, 32, .ro, 0⟩]⟩,
  ⟨0x40010, [], false, .low, [⟨0, 32, .ro, 0⟩]⟩,
  ⟨0x40014, [], false, .high, [⟨0, 32, .ro, 0⟩]⟩,
  ⟨0x40018, [], false, .single, [⟨0, 18, .ro, 0⟩]⟩,
  ⟨0x4001c, [], false, .single, [⟨0, 22, .ro, 0⟩]⟩,
  ⟨0x40020, [], false, .single, [⟨0, 10, .ro, 0⟩]⟩,
  ⟨0x40024, [], false, .single, [⟨0, 32, .rc, 0⟩]⟩,
  ⟨0x40030, [], false, .low, [⟨0, 32, .rws, 0⟩]⟩,
  ⟨0x40034, [], false, .high, [⟨0, 32, .rws, 0⟩]⟩,
  ⟨0x40040, [⟨0x10, 0, 3⟩], false, .single, [⟨0, 1, .ro, 0⟩, ⟨1, 1, .ro, 0⟩]⟩,
  ⟨0x40044, [⟨0x10, 0, 3⟩], false, .single, [⟨0, 32, .ro, 0⟩]⟩,
  ⟨0x40048, [⟨0x10, 0, 3⟩], false, .low, [⟨0, 32, .ro, 0⟩]⟩,
  ⟨0x4004c, [⟨0x10, 0, 3⟩], false, .high, [⟨0, 32, .ro, 0⟩]⟩,
  ⟨0x40070, [], false, .single, [⟨0, 2, .rws, 3⟩, ⟨2, 1, .rws, 1⟩]⟩,
  ⟨0x0, [], false, .single, [⟨0, 1, .ro, 0⟩, ⟨1, 3, .ro, 0⟩, ⟨4, 3, .ro, 0⟩, ⟨7, 1, .ro, 0⟩, ⟨16, 16, .ro, 0⟩]⟩,
  ⟨0x4, [], false, .single, [⟨0, 16, .ro, 0⟩, ⟨16, 16, .ro, 0⟩]⟩,
  ⟨0x8, [], false, .single, [⟨0, 7, .ro, 0⟩, ⟨8, 7, .ro, 0⟩]⟩,
  ⟨0xc, [], false, .single, [⟨0, 12, .ro, 0⟩]⟩,
  ⟨0x10, [], false, .single, [⟨0, 16, .ro, 0⟩]⟩,
  ⟨0x14, [], false, .single, [⟨0, 1, .rws, 0⟩, ⟨1, 2, .rws, 0⟩, ⟨3, 1, .ro, 0⟩, ⟨4, 1, .ro, 0⟩, ⟨5, 2, .ro, 0⟩]⟩,
  ⟨0x20, [], false, .single, [⟨0, 15, .ro, 0⟩, ⟨15, 15, .ro, 0⟩, ⟨30, 1, .ro, 0⟩, ⟨31, 1, .ro, 0⟩]⟩,
  ⟨0x28, [⟨0x4, 0, 4⟩], false, .single, [⟨0, 32, .ro, 0⟩]⟩]

def regsFws1 : List RegDesc := [
  ⟨0x38, [], false, .single, [⟨0, 32, .rc, 0⟩]⟩,
  ⟨0x3c, [], false, .single, [⟨0, 32, .rc, 0⟩]⟩,
  ⟨0x40, [], false, .single, [⟨0, 32, .rc, 0⟩]⟩,
  ⟨0x50, [], false, .single, [⟨0, 1, .rw, 0⟩]⟩,
  ⟨0x60, [], false, .single, [⟨0, 16, .ro, 0⟩, ⟨16, 16, .ro, 0⟩]⟩,
  ⟨0x64, [], false, .single, [⟨0, 16, .ro, 0⟩, ⟨16, 16, .ro, 0xffff⟩]⟩,
  ⟨0x68, [], false, .single, [⟨0, 10, .rw, 0x258⟩]⟩,
  ⟨0x1000, [], false, .single, [⟨0, 1, .ro, 0⟩, ⟨1, 7, .ro, 0⟩]⟩,
  ⟨0x1004, [], true, .single, [⟨0, 7, .wo, 0⟩, ⟨16, 16, .wo, 0⟩]⟩,
  ⟨0x1008, [], false, .single, [⟨0, 4, .ro, 0⟩, ⟨4, 4, .ro, 0⟩]⟩,
  ⟨0x100c, [], true, .single, [⟨0, 2, .wo, 0⟩, ⟨2, 1, .wo, 0⟩, ⟨3, 1, .wo, 0⟩, ⟨16, 16, .wo, 0⟩]⟩,
  ⟨0x1010, [], false, .low, [⟨0, 32, .rw, 0⟩]⟩,
  ⟨0x1014, [], false, .high, [⟨0, 32, .rw, 0⟩]⟩,
  ⟨0x1100, [⟨0x40, 0, 4⟩, ⟨0x4, 0, 12⟩], false, .single, [⟨0, 32, .ro, 0⟩]⟩,
  ⟨0x1200, [⟨0x4, 0, 12⟩], false, .single, [⟨0, 32, .ro, 0⟩]⟩,
  ⟨0x2000, [], false, .single, [⟨0, 8, .ro, 0⟩, ⟨8, 1, .w1c, 0⟩]⟩,
  ⟨0x2100, [⟨0x20, 0, 256⟩], false, .single, [⟨0, 8, .ro, 0⟩, ⟨8, 1, .ro, 0⟩, ⟨9, 1, .ro, 0⟩, ⟨10, 9, .ro, 0⟩, ⟨19, 8, .ro, 0⟩, ⟨31, 1, .ro, 0⟩]⟩,
  ⟨0x2104, [⟨0x20, 0, 256⟩], false, .single, [⟨0, 32, .ro, 0⟩]⟩,
  ⟨0x2108, [⟨0x20, 0, 256⟩], false, .low, [⟨0, 32, .ro, 0⟩]⟩,
  ⟨0x210c, [⟨0x20, 0, 256⟩], false, .high, [⟨0, 32, .ro, 0⟩]⟩,
  ⟨0x5000, [], false, .low, [⟨0, 32, .rw, 0⟩]⟩,
  ⟨0x5004, [], false, .high, [⟨0, 32, .rw, 0⟩]⟩,
  ⟨0x5008, [], true, .single, [⟨0, 1, .wo, 0⟩, ⟨1, 1, .ro, 0⟩, ⟨2, 1, .w1c, 0⟩, ⟨3, 1, .w1c, 0⟩]⟩,
  ⟨0x5100, [], true, .single, [⟨0, 1, .wo, 0⟩, ⟨1, 1, .wo, 0⟩, ⟨2, 1, .wo, 0⟩, ⟨8, 8, .ro, 0⟩]⟩]

def regsFws2 : List RegDesc := [
  ⟨0x5104, [], false, .single, [⟨0, 15, .rw, 0⟩]⟩,
  ⟨0x8000, [⟨0x4, 0, 1166⟩], false, .single, [⟨0, 32, .ro, 0⟩]⟩,
  ⟨0xa000, [⟨0x4, 0, 1166⟩], false, .single, [⟨0, 32, .rws, 0⟩]⟩,
  ⟨0xc000, [⟨0x4, 0, 1166⟩], false, .single, [⟨0, 32, .ro, 0⟩]⟩]

/-- The registers of block FWS. -/
def regsFws : List RegDesc := regsFws0 ++ regsFws1 ++ regsFws2

def regsLif0 : List RegDesc := [
  ⟨0x0, [⟨0x2000, 0, 128⟩], true, .single, [⟨0, 2, .ro, 0⟩, ⟨2, 1, .ro, 0⟩, ⟨8, 1, .wo, 0⟩, ⟨9, 1, .wo, 0⟩]⟩,
  ⟨0x4, [⟨0x2000, 0, 128⟩], false, .single, [⟨0, 4, .rw, 0xf⟩, ⟨4, 2, .rw, 0⟩, ⟨6, 2, .rw, 1⟩, ⟨8, 16, .rw, 0x2580⟩]⟩,
  ⟨0x8, [⟨0x2000, 0, 128⟩], false, .single, [⟨0, 16, .rw, 0x2580⟩, ⟨16, 1, .rw, 1⟩]⟩,
  ⟨0xc, [⟨0x2000, 0, 128⟩], false, .single, [⟨0, 1, .ro, 0⟩, ⟨1, 1, .ro, 0⟩, ⟨2, 1, .ro, 0⟩, ⟨3, 1, .ro, 0⟩]⟩,
  ⟨0x10, [⟨0x2000, 0, 128⟩], false, .single, [⟨0, 1, .rw, 0⟩, ⟨1, 1, .rw, 0⟩, ⟨2, 2, .rw, 0⟩]⟩,
  ⟨0x20, [⟨0x2000, 0, 128⟩], false, .single, [⟨0, 8, .rw, 0⟩, ⟨8, 8, .rw, 0⟩, ⟨16, 3, .rw, 0⟩, ⟨19, 1, .rw, 0⟩]⟩,
  ⟨0x24, [⟨0x2000, 0, 128⟩], false, .single, [⟨0, 24, .rw, 0⟩]⟩,
  ⟨0x28, [⟨0x2000, 0, 128⟩], false, .single, [⟨0, 24, .rw, 0⟩]⟩,
  ⟨0x2c, [⟨0x2000, 0, 128⟩], false, .single, [⟨0, 8, .ro, 0⟩, ⟨8, 8, .ro, 0⟩]⟩,
  ⟨0x30, [⟨0x2000, 0, 128⟩], false, .single, [⟨0, 32, .rw, 0⟩]⟩,
  ⟨0x34, [⟨0x2000, 0, 128⟩], false, .single, [⟨0, 32, .rw, 0⟩]⟩,
  ⟨0x40, [⟨0x2000, 0, 128⟩], false, .single, [⟨0, 16, .ro, 0⟩, ⟨16, 1, .ro, 0⟩]⟩,
  ⟨0x44, [⟨0x2000, 0, 128⟩], false, .single, [⟨0, 30, .ro, 0⟩]⟩,
  ⟨0x48, [⟨0x2000, 0, 128⟩], false, .low, [⟨0, 32, .ro, 0⟩]⟩,
  ⟨0x4c, [⟨0x2000, 0, 128⟩], false, .high, [⟨0, 16, .ro, 0⟩, ⟨16, 16, .ro, 0⟩]⟩,
  ⟨0x50, [⟨0x2000, 0, 128⟩], false, .single, [⟨0, 7, .ro, 0⟩, ⟨7, 1, .w1c, 0⟩]⟩,
  ⟨0x100, [⟨0x2000, 0, 128⟩], false, .single, [⟨0, 32, .rc, 0⟩]⟩,
  ⟨0x104, [⟨0x2000, 0, 128⟩], false, .single, [⟨0, 32, .rc, 0⟩]⟩,
  ⟨0x108, [⟨0x2000, 0, 128⟩], false, .single, [⟨0, 32, .rc, 0⟩]⟩,
  ⟨0x10c, [⟨0x2000, 0, 128⟩], false, .single, [⟨0, 32, .rc, 0⟩]⟩,
  ⟨0x110, [⟨0x2000, 0, 128⟩], false, .single, [⟨0, 32, .rc, 0⟩]⟩,
  ⟨0x114, [⟨0x2000, 0, 128⟩], false, .single, [⟨0, 32, .rc, 0⟩]⟩,
  ⟨0x118, [⟨0x2000, 0, 128⟩], false, .single, [⟨0, 32, .rc, 0⟩]⟩,
  ⟨0x11c, [⟨0x2000, 0, 128⟩], false, .single, [⟨0, 32, .rc, 0⟩]⟩]

def regsLif1 : List RegDesc := [
  ⟨0x120, [⟨0x2000, 0, 128⟩], false, .single, [⟨0, 32, .rc, 0⟩]⟩,
  ⟨0x124, [⟨0x2000, 0, 128⟩], false, .single, [⟨0, 32, .rc, 0⟩]⟩,
  ⟨0x128, [⟨0x2000, 0, 128⟩], false, .single, [⟨0, 32, .rc, 0⟩]⟩,
  ⟨0x12c, [⟨0x2000, 0, 128⟩], false, .single, [⟨0, 32, .rc, 0⟩]⟩,
  ⟨0x130, [⟨0x2000, 0, 128⟩], false, .single, [⟨0, 32, .rc, 0⟩]⟩]

/-- The registers of block LIF. -/
def regsLif : List RegDesc := regsLif0 ++ regsLif1

def regsOtn0 : List RegDesc := [
  ⟨0x0, [⟨0x40, 0, 128⟩], false, .single, [⟨0, 5, .rw, 0⟩, ⟨5, 8, .rw, 0x22⟩]⟩,
  ⟨0x10000, [⟨0x40, 0, 256⟩], false, .single, [⟨0, 1, .ro, 0⟩, ⟨1, 1, .ro, 0⟩, ⟨2, 1, .ro, 0⟩, ⟨3, 1, .ro, 0⟩, ⟨4, 1, .ro, 0⟩, ⟨5, 1, .ro, 0⟩, ⟨6, 1, .ro, 0⟩, ⟨7, 1, .ro, 0⟩, ⟨8, 1, .ro, 0⟩, ⟨16, 8, .ro, 0⟩]⟩,
  ⟨0x10004, [⟨0x40, 0, 256⟩], false, .single, [⟨0, 2, .rw, 0⟩, ⟨2, 1, .rw, 0⟩]⟩,
  ⟨0x10008, [⟨0x40, 0, 256⟩], false, .single, [⟨0, 32, .rc, 0⟩]⟩,
  ⟨0x1000c, [⟨0x40, 0, 256⟩], false, .single, [⟨0, 32, .rc, 0⟩]⟩,
  ⟨0x10010, [⟨0x40, 0, 256⟩], false, .single, [⟨0, 32, .rc, 0⟩]⟩,
  ⟨0x10014, [⟨0x40, 0, 256⟩], false, .single, [⟨0, 32, .rc, 0⟩]⟩,
  ⟨0x20000, [⟨0x4, 0, 5120⟩], false, .single, [⟨0, 1, .rw, 0⟩, ⟨1, 4, .rw, 0⟩, ⟨5, 11, .rw, 0⟩, ⟨16, 1, .ro, 0⟩]⟩,
  ⟨0x40000, [⟨0x4, 0, 5120⟩], false, .single, [⟨0, 13, .rw, 0⟩, ⟨13, 1, .rw, 0⟩, ⟨14, 4, .rw, 0⟩, ⟨18, 11, .rw, 0⟩]⟩,
  ⟨0x60000, [⟨0x4, 0, 5120⟩], false, .single, [⟨0, 13, .rw, 0⟩, ⟨13, 1, .rw, 0⟩, ⟨14, 4, .rw, 0⟩, ⟨18, 11, .rw, 0⟩]⟩,
  ⟨0x80000, [], true, .single, [⟨0, 1, .wo, 0⟩, ⟨1, 1, .wo, 0⟩, ⟨2, 1, .rw, 0⟩]⟩,
  ⟨0x80004, [], false, .low, [⟨0, 32, .rw, 0⟩]⟩,
  ⟨0x80008, [], false, .high, [⟨0, 32, .rw, 0⟩]⟩,
  ⟨0x8000c, [], false, .single, [⟨0, 1, .ro, 0⟩, ⟨1, 2, .ro, 0⟩, ⟨8, 8, .ro, 0⟩, ⟨16, 8, .ro, 0⟩]⟩,
  ⟨0x80010, [], false, .single, [⟨0, 32, .rc, 0⟩]⟩,
  ⟨0x80014, [], false, .single, [⟨0, 32, .rc, 0⟩]⟩,
  ⟨0x90000, [⟨0x20, 0, 128⟩], false, .single, [⟨0, 1, .rw, 0⟩, ⟨1, 1, .rw, 0⟩, ⟨2, 1, .rw, 0⟩, ⟨4, 7, .rw, 0⟩, ⟨11, 11, .rw, 0⟩]⟩,
  ⟨0x90004, [⟨0x20, 0, 128⟩], false, .single, [⟨0, 8, .rw, 5⟩, ⟨8, 8, .rw, 5⟩, ⟨16, 8, .ro, 0⟩, ⟨24, 1, .ro, 0⟩, ⟨25, 1, .ro, 0⟩]⟩,
  ⟨0x90008, [⟨0x20, 0, 128⟩], false, .single, [⟨0, 32, .rc, 0⟩]⟩,
  ⟨0x9000c, [⟨0x20, 0, 128⟩], false, .single, [⟨0, 32, .rc, 0⟩]⟩,
  ⟨0x90010, [⟨0x20, 0, 128⟩], false, .single, [⟨0, 32, .rc, 0⟩]⟩,
  ⟨0x90014, [⟨0x20, 0, 128⟩], false, .single, [⟨0, 32, .rc, 0⟩]⟩]

/-- The registers of block OTN. -/
def regsOtn : List RegDesc := regsOtn0

def regsPrs0 : List RegDesc := [
  ⟨0x0, [], false, .single, [⟨0, 8, .rw, 0x14⟩]⟩,
  ⟨0x100, [⟨0x4, 0, 8⟩], true, .single, [⟨0, 2, .ro, 0⟩, ⟨2, 1, .ro, 0⟩, ⟨8, 1, .wo, 0⟩, ⟨9, 1, .wo, 0⟩]⟩,
  ⟨0x140, [⟨0x4, 0, 8⟩], false, .single, [⟨0, 15, .ro, 0⟩, ⟨16, 15, .ro, 0⟩]⟩,
  ⟨0x200, [⟨0x4, 0, 128⟩], false, .single, [⟨0, 3, .rw, 0⟩]⟩,
  ⟨0x1000, [⟨0x40, 0, 8⟩, ⟨0x4, 1, 10⟩], false, .single, [⟨0, 32, .rc, 0⟩]⟩,
  ⟨0x2000, [⟨0x20, 0, 8⟩], false, .single, [⟨0, 32, .rc, 0⟩]⟩,
  ⟨0x2004, [⟨0x20, 0, 8⟩], false, .single, [⟨0, 32, .rc, 0⟩]⟩,
  ⟨0x2008, [⟨0x20, 0, 8⟩], false, .single, [⟨0, 32, .rc, 0⟩]⟩,
  ⟨0x200c, [⟨0x20, 0, 8⟩], false, .single, [⟨0, 32, .rc, 0⟩]⟩,
  ⟨0x2010, [⟨0x20, 0, 8⟩], false, .single, [⟨0, 8, .ro, 0⟩, ⟨8, 4, .ro, 0⟩]⟩,
  ⟨0x3000, [⟨0x100, 0, 8⟩], false, .single, [⟨0, 1, .w1s, 0⟩, ⟨1, 1, .w1c, 0⟩]⟩,
  ⟨0x3004, [⟨0x100, 0, 8⟩], false, .single, [⟨0, 4, .ro, 0⟩, ⟨4, 8, .ro, 0⟩, ⟨12, 10, .ro, 0⟩, ⟨22, 7, .ro, 0⟩, ⟨29, 1, .ro, 0⟩]⟩,
  ⟨0x3008, [⟨0x100, 0, 8⟩], false, .low, [⟨0, 32, .ro, 0⟩]⟩,
  ⟨0x300c, [⟨0x100, 0, 8⟩], false, .high, [⟨0, 32, .ro, 0⟩]⟩,
  ⟨0x3080, [⟨0x100, 0, 8⟩, ⟨0x4, 0, 32⟩], false, .single, [⟨0, 32, .ro, 0⟩]⟩]

/-- The registers of block PRS. -/
def regsPrs : List RegDesc := regsPrs0

def regsPpl0 : List RegDesc := [
  ⟨0x0, [⟨0x200000, 0, 8⟩], true, .single, [⟨0, 2, .ro, 0⟩, ⟨2, 1, .ro, 0⟩, ⟨8, 1, .wo, 0⟩, ⟨9, 1, .wo, 0⟩]⟩,
  ⟨0x4, [⟨0x200000, 0, 8⟩], false, .single, [⟨0, 1, .ro, 0⟩, ⟨1, 1, .ro, 0⟩, ⟨2, 2, .ro, 0⟩, ⟨4, 1, .ro, 0⟩]⟩,
  ⟨0x8, [⟨0x200000, 0, 8⟩], false, .single, [⟨0, 8, .rw, 0xa⟩, ⟨8, 1, .rw, 1⟩]⟩,
  ⟨0x10, [⟨0x200000, 0, 8⟩], false, .single, [⟨0, 32, .rc, 0⟩]⟩,
  ⟨0x14, [⟨0x200000, 0, 8⟩], false, .single, [⟨0, 32, .rc, 0⟩]⟩,
  ⟨0x18, [⟨0x200000, 0, 8⟩], false, .single, [⟨0, 32, .rc, 0⟩]⟩,
  ⟨0x1c, [⟨0x200000, 0, 8⟩], false, .single, [⟨0, 32, .rc, 0⟩]⟩,
  ⟨0x20, [⟨0x200000, 0, 8⟩], false, .single, [⟨0, 32, .ro, 0⟩]⟩,
  ⟨0x24, [⟨0x200000, 0, 8⟩], false, .single, [⟨0, 6, .ro, 0⟩]⟩,
  ⟨0x28, [⟨0x200000, 0, 8⟩], false, .single, [⟨0, 32, .rc, 0⟩]⟩,
  ⟨0x100, [⟨0x200000, 0, 8⟩, ⟨0x4, 0, 36⟩], false, .single, [⟨0, 2, .ro, 0⟩]⟩,
  ⟨0x200, [⟨0x200000, 0, 8⟩], false, .single, [⟨0, 3, .ro, 0⟩, ⟨3, 1, .w1c, 0⟩]⟩,
  ⟨0x210, [⟨0x200000, 0, 8⟩, ⟨0x10, 0, 8⟩], false, .single, [⟨0, 6, .ro, 0⟩, ⟨6, 1, .ro, 0⟩, ⟨7, 12, .ro, 0⟩, ⟨19, 1, .ro, 0⟩, ⟨20, 2, .ro, 0⟩, ⟨22, 1, .ro, 0⟩, ⟨31, 1, .ro, 0⟩]⟩,
  ⟨0x214, [⟨0x200000, 0, 8⟩, ⟨0x10, 0, 8⟩], false, .low, [⟨0, 32, .ro, 0⟩]⟩,
  ⟨0x218, [⟨0x200000, 0, 8⟩, ⟨0x10, 0, 8⟩], false, .high, [⟨0, 32, .ro, 0⟩]⟩,
  ⟨0x300, [⟨0x200000, 0, 8⟩], false, .single, [⟨0, 16, .ro, 0⟩, ⟨16, 1, .ro, 0⟩]⟩,
  ⟨0x304, [⟨0x200000, 0, 8⟩], false, .single, [⟨0, 16, .ro, 0⟩]⟩,
  ⟨0x400, [⟨0x200000, 0, 8⟩, ⟨0x4, 0, 36⟩], false, .single, [⟨0, 14, .ro, 0⟩]⟩]

/-- The registers of block PPL. -/
def regsPpl : List RegDesc := regsPpl0

def regsAsm0 : List RegDesc := [
  ⟨0x0, [⟨0x4, 0, 32⟩], false, .single, [⟨0, 2, .ro, 0⟩, ⟨8, 5, .ro, 0⟩, ⟨13, 1, .ro, 0⟩, ⟨14, 1, .ro, 0⟩, ⟨16, 5, .ro, 0⟩]⟩,
  ⟨0x100, [⟨0x20, 0, 32⟩], false, .single, [⟨0, 2, .ro, 0⟩, ⟨2, 1, .ro, 0⟩, ⟨3, 1, .ro, 0⟩, ⟨4, 1, .ro, 0⟩, ⟨16, 16, .ro, 0⟩]⟩,
  ⟨0x104, [⟨0x20, 0, 32⟩], false, .single, [⟨0, 19, .ro, 0⟩]⟩,
  ⟨0x108, [⟨0x20, 0, 32⟩], false, .single, [⟨0, 19, .ro, 0⟩]⟩,
  ⟨0x10c, [⟨0x20, 0, 32⟩], false, .single, [⟨0, 24, .ro, 0⟩]⟩,
  ⟨0x110, [⟨0x20, 0, 32⟩], false, .single, [⟨0, 24, .ro, 0⟩]⟩,
  ⟨0x114, [⟨0x20, 0, 32⟩], false, .single, [⟨0, 24, .ro, 0⟩]⟩,
  ⟨0x118, [⟨0x20, 0, 32⟩], false, .low, [⟨0, 32, .ro, 0⟩]⟩,
  ⟨0x11c, [⟨0x20, 0, 32⟩], false, .high, [⟨0, 32, .ro, 0⟩]⟩,
  ⟨0x1000, [], false, .single, [⟨0, 8, .rw, 0x32⟩, ⟨8, 1, .rw, 1⟩]⟩,
  ⟨0x1004, [], false, .single, [⟨0, 32, .ro, 0⟩]⟩,
  ⟨0x1008, [], false, .single, [⟨0, 32, .rc, 0⟩]⟩,
  ⟨0x100c, [], false, .single, [⟨0, 32, .rc, 0⟩]⟩,
  ⟨0x1010, [], false, .single, [⟨0, 4, .ro, 0⟩, ⟨4, 1, .w1c, 0⟩]⟩,
  ⟨0x1100, [⟨0x10, 0, 16⟩], false, .single, [⟨0, 5, .ro, 0⟩, ⟨5, 13, .ro, 0⟩, ⟨18, 2, .ro, 0⟩, ⟨31, 1, .ro, 0⟩]⟩,
  ⟨0x1104, [⟨0x10, 0, 16⟩], false, .low, [⟨0, 32, .ro, 0⟩]⟩,
  ⟨0x1108, [⟨0x10, 0, 16⟩], false, .high, [⟨0, 32, .ro, 0⟩]⟩,
  ⟨0x1200, [], false, .single, [⟨0, 32, .rc, 0⟩]⟩,
  ⟨0x1204, [], false, .single, [⟨0, 32, .rc, 0⟩]⟩,
  ⟨0x1208, [], false, .single, [⟨0, 32, .rc, 0⟩]⟩,
  ⟨0x1210, [], false, .single, [⟨0, 19, .ro, 0x40000⟩]⟩]

/-- The registers of block ASM. -/
def regsAsm : List RegDesc := regsAsm0

def regsExm0 : List RegDesc := [
  ⟨0x0, [⟨0x20, 0, 64⟩], false, .single, [⟨0, 2, .ro, 0⟩, ⟨2, 1, .ro, 0⟩, ⟨3, 2, .ro, 0⟩, ⟨5, 1, .ro, 0⟩, ⟨6, 1, .ro, 0⟩, ⟨7, 1, .ro, 0⟩, ⟨8, 1, .ro, 0⟩, ⟨9, 4, .ro, 0⟩, ⟨16, 16, .ro, 0⟩]⟩,
  ⟨0x4, [⟨0x20, 0, 64⟩], false, .single, [⟨0, 27, .ro, 0⟩]⟩,
  ⟨0x8, [⟨0x20, 0, 64⟩], false, .single, [⟨0, 29, .ro, 0⟩]⟩,
  ⟨0xc, [⟨0x20, 0, 64⟩], false, .single, [⟨0, 8, .ro, 0⟩, ⟨8, 7, .ro, 0⟩]⟩,
  ⟨0x10, [⟨0x20, 0, 64⟩], false, .single, [⟨0, 32, .rc, 0⟩]⟩,
  ⟨0x14, [⟨0x20, 0, 64⟩], false, .single, [⟨0, 32, .rc, 0⟩]⟩,
  ⟨0x1000, [⟨0x20, 0, 8⟩], false, .single, [⟨0, 32, .rc, 0⟩]⟩,
  ⟨0x1004, [⟨0x20, 0, 8⟩], false, .single, [⟨0, 32, .rc, 0⟩]⟩,
  ⟨0x1008, [⟨0x20, 0, 8⟩], false, .single, [⟨0, 32, .rc, 0⟩]⟩,
  ⟨0x100c, [⟨0x20, 0, 8⟩], false, .single, [⟨0, 32, .rc, 0⟩]⟩,
  ⟨0x1010, [⟨0x20, 0, 8⟩], false, .single, [⟨0, 32, .rc, 0⟩]⟩,
  ⟨0x1800, [⟨0x10, 0, 64⟩], false, .single, [⟨0, 5, .ro, 0⟩, ⟨8, 8, .rw, 0xfe⟩, ⟨16, 1, .rw, 0⟩]⟩,
  ⟨0x2000, [], false, .low, [⟨0, 32, .rw, 0⟩]⟩,
  ⟨0x2004, [], false, .high, [⟨0, 32, .rw, 0⟩]⟩,
  ⟨0x2008, [], false, .single, [⟨0, 5, .rw, 0xc⟩, ⟨8, 6, .rw, 7⟩, ⟨14, 1, .rw, 0⟩]⟩,
  ⟨0x200c, [], false, .single, [⟨0, 20, .ro, 0⟩]⟩,
  ⟨0x2010, [], false, .single, [⟨0, 20, .rw, 0⟩]⟩,
  ⟨0x2014, [], false, .single, [⟨0, 17, .ro, 0⟩, ⟨17, 1, .w1c, 0⟩]⟩,
  ⟨0x2018, [], false, .single, [⟨0, 32, .rc, 0⟩]⟩,
  ⟨0x3000, [⟨0x10, 0, 2⟩], false, .single, [⟨0, 6, .rw, 0⟩, ⟨6, 1, .rw, 0⟩, ⟨7, 3, .rw, 0⟩]⟩,
  ⟨0x3004, [⟨0x10, 0, 2⟩], false, .single, [⟨0, 27, .rw, 0⟩]⟩,
  ⟨0x3100, [], false, .single, [⟨0, 32, .rc, 0⟩]⟩,
  ⟨0x3104, [], false, .single, [⟨0, 16, .ro, 0⟩]⟩,
  ⟨0x4000, [], true, .single, [⟨0, 1, .w1s, 0⟩, ⟨1, 1, .rw, 0⟩, ⟨2, 6, .rw, 0⟩, ⟨8, 1, .rw, 0⟩, ⟨9, 3, .rw, 0⟩]⟩]

def regsExm1 : List RegDesc := [
  ⟨0x4008, [], false, .low, [⟨0, 32, .rw, 0⟩]⟩,
  ⟨0x400c, [], false, .high, [⟨0, 32, .rw, 0⟩]⟩,
  ⟨0x4010, [], false, .single, [⟨0, 27, .rw, 0⟩]⟩,
  ⟨0x4014, [], false, .single, [⟨0, 27, .rw, 0⟩]⟩,
  ⟨0x4018, [], false, .low, [⟨0, 32, .rw, 0⟩]⟩,
  ⟨0x401c, [], false, .high, [⟨0, 32, .rw, 0⟩]⟩,
  ⟨0x4020, [], false, .single, [⟨0, 24, .rw, 0⟩]⟩,
  ⟨0x4024, [], false, .single, [⟨0, 1, .ro, 0⟩, ⟨1, 1, .w1c, 0⟩, ⟨2, 1, .w1c, 0⟩]⟩,
  ⟨0x4028, [], false, .single, [⟨0, 32, .ro, 0⟩]⟩]

/-- The registers of block EXM. -/
def regsExm : List RegDesc := regsExm0 ++ regsExm1

def regsTxf0 : List RegDesc := [
  ⟨0x0, [⟨0x20, 0, 8⟩], false, .single, [⟨0, 15, .ro, 0⟩]⟩,
  ⟨0x4, [⟨0x20, 0, 8⟩], false, .single, [⟨0, 32, .rc, 0⟩]⟩,
  ⟨0x8, [⟨0x20, 0, 8⟩], false, .single, [⟨0, 32, .rc, 0⟩]⟩,
  ⟨0xc, [⟨0x20, 0, 8⟩], false, .single, [⟨0, 32, .rc, 0⟩]⟩,
  ⟨0x10, [⟨0x20, 0, 8⟩], false, .single, [⟨0, 32, .rc, 0⟩]⟩,
  ⟨0x14, [⟨0x20, 0, 8⟩], false, .single, [⟨0, 32, .rc, 0⟩]⟩,
  ⟨0x18, [⟨0x20, 0, 8⟩], false, .single, [⟨0, 32, .rc, 0⟩]⟩,
  ⟨0x400, [], false, .single, [⟨0, 32, .rc, 0⟩]⟩,
  ⟨0x404, [], false, .single, [⟨0, 32, .rc, 0⟩]⟩,
  ⟨0x408, [], false, .single, [⟨0, 32, .rc, 0⟩]⟩,
  ⟨0x800, [⟨0x4, 0, 64⟩], false, .single, [⟨0, 13, .ro, 0⟩]⟩,
  ⟨0x1000, [], true, .single, [⟨0, 1, .rw, 0⟩, ⟨1, 1, .w1s, 0⟩, ⟨2, 5, .rw, 0xc⟩]⟩,
  ⟨0x1004, [], false, .single, [⟨0, 1, .ro, 0⟩, ⟨1, 1, .w1c, 0⟩, ⟨2, 1, .w1c, 0⟩]⟩,
  ⟨0x1008, [], false, .low, [⟨0, 32, .rw, 0⟩]⟩,
  ⟨0x100c, [], false, .high, [⟨0, 32, .rw, 0⟩]⟩,
  ⟨0x1010, [], false, .single, [⟨0, 24, .ro, 0⟩]⟩,
  ⟨0x1014, [], false, .single, [⟨0, 24, .rw, 0⟩]⟩,
  ⟨0x1018, [], false, .low, [⟨0, 32, .rw, 0⟩]⟩,
  ⟨0x101c, [], false, .high, [⟨0, 32, .rw, 0⟩]⟩,
  ⟨0x1020, [], false, .single, [⟨0, 32, .rc, 0⟩]⟩,
  ⟨0x1030, [⟨0x4, 0, 4⟩], false, .single, [⟨0, 32, .rw, 0⟩]⟩]

/-- The registers of block TXF. -/
def regsTxf : List RegDesc := regsTxf0

def regsPmf0 : List RegDesc := [
  ⟨0x0, [], false, .single, [⟨0, 1, .rw, 1⟩, ⟨1, 1, .ro, 0⟩, ⟨2, 1, .ro, 0⟩]⟩,
  ⟨0x8, [], false, .low, [⟨0, 32, .rw, 0⟩]⟩,
  ⟨0xc, [], false, .high, [⟨0, 32, .rw, 0⟩]⟩,
  ⟨0x10, [], true, .single, [⟨0, 1, .wo, 0⟩, ⟨1, 1, .wo, 0⟩, ⟨2, 1, .rw, 0⟩, ⟨3, 1, .rw, 0⟩, ⟨8, 8, .ro, 0⟩]⟩,
  ⟨0x100, [⟨0x8, 0, 16⟩], false, .low, [⟨0, 32, .rw, 0⟩]⟩,
  ⟨0x104, [⟨0x8, 0, 16⟩], false, .high, [⟨0, 32, .rw, 0⟩]⟩,
  ⟨0x200, [⟨0x4, 0, 16⟩], false, .single, [⟨0, 10, .rw, 0⟩, ⟨10, 4, .rw, 0xf⟩, ⟨14, 6, .rw, 0x3f⟩, ⟨20, 1, .rw, 0⟩, ⟨21, 1, .rw, 0⟩]⟩,
  ⟨0x400, [⟨0x80, 0, 8⟩, ⟨0x40, 0, 2⟩], false, .low, [⟨0, 32, .ro, 0⟩]⟩,
  ⟨0x404, [⟨0x80, 0, 8⟩, ⟨0x40, 0, 2⟩], false, .high, [⟨0, 32, .ro, 0⟩]⟩,
  ⟨0x408, [⟨0x80, 0, 8⟩, ⟨0x40, 0, 2⟩], false, .low, [⟨0, 32, .ro, 0⟩]⟩,
  ⟨0x40c, [⟨0x80, 0, 8⟩, ⟨0x40, 0, 2⟩], false, .high, [⟨0, 32, .ro, 0⟩]⟩,
  ⟨0x410, [⟨0x80, 0, 8⟩, ⟨0x40, 0, 2⟩], false, .low, [⟨0, 32, .ro, 0⟩]⟩,
  ⟨0x414, [⟨0x80, 0, 8⟩, ⟨0x40, 0, 2⟩], false, .high, [⟨0, 32, .ro, 0⟩]⟩,
  ⟨0x418, [⟨0x80, 0, 8⟩, ⟨0x40, 0, 2⟩], false, .low, [⟨0, 32, .ro, 0⟩]⟩,
  ⟨0x41c, [⟨0x80, 0, 8⟩, ⟨0x40, 0, 2⟩], false, .high, [⟨0, 32, .ro, 0⟩]⟩,
  ⟨0x420, [⟨0x80, 0, 8⟩, ⟨0x40, 0, 2⟩], false, .low, [⟨0, 32, .ro, 0⟩]⟩,
  ⟨0x424, [⟨0x80, 0, 8⟩, ⟨0x40, 0, 2⟩], false, .high, [⟨0, 32, .ro, 0⟩]⟩,
  ⟨0x800, [], false, .low, [⟨0, 32, .rw, 0⟩]⟩,
  ⟨0x804, [], false, .high, [⟨0, 32, .rw, 0⟩]⟩,
  ⟨0x808, [], false, .single, [⟨0, 5, .rw, 0xa⟩, ⟨8, 6, .rw, 7⟩, ⟨14, 1, .rw, 0⟩]⟩,
  ⟨0x80c, [], false, .single, [⟨0, 16, .ro, 0⟩]⟩,
  ⟨0x810, [], false, .single, [⟨0, 16, .rw, 0⟩]⟩,
  ⟨0x814, [], false, .single, [⟨0, 32, .rc, 0⟩]⟩]

/-- The registers of block PMF. -/
def regsPmf : List RegDesc := regsPmf0

def regsMif0 : List RegDesc := [
  ⟨0x0, [], false, .single, [⟨0, 1, .ro, 0⟩, ⟨1, 1, .ro, 0⟩, ⟨2, 1, .ro, 0⟩]⟩,
  ⟨0x10, [], false, .single, [⟨0, 8, .rw, 0xa⟩, ⟨8, 1, .rw, 1⟩, ⟨16, 8, .rw, 0x3c⟩, ⟨24, 1, .rw, 1⟩]⟩,
  ⟨0x20, [], false, .low, [⟨0, 32, .rw, 0⟩]⟩,
  ⟨0x24, [], false, .high, [⟨0, 32, .rw, 0⟩]⟩,
  ⟨0x28, [], false, .single, [⟨0, 5, .rw, 0xa⟩, ⟨8, 6, .rw, 7⟩, ⟨14, 1, .rw, 0⟩]⟩,
  ⟨0x2c, [], false, .single, [⟨0, 16, .ro, 0⟩]⟩,
  ⟨0x30, [], false, .single, [⟨0, 16, .rw, 0⟩]⟩,
  ⟨0x34, [], false, .single, [⟨0, 32, .rc, 0⟩]⟩,
  ⟨0x100, [⟨0x8, 0, 7⟩], false, .single, [⟨0, 32, .rc, 0⟩]⟩,
  ⟨0x104, [⟨0x8, 0, 7⟩], false, .single, [⟨0, 32, .rc, 0⟩]⟩,
  ⟨0x200, [⟨0x4, 0, 6⟩], false, .single, [⟨0, 32, .rc, 0⟩]⟩,
  ⟨0x220, [], false, .single, [⟨0, 32, .rc, 0⟩]⟩,
  ⟨0x224, [], false, .single, [⟨0, 32, .rc, 0⟩]⟩,
  ⟨0x300, [], false, .single, [⟨0, 5, .ro, 0⟩, ⟨5, 1, .w1c, 0⟩]⟩,
  ⟨0x400, [⟨0x10, 0, 32⟩], false, .single, [⟨0, 4, .ro, 0⟩, ⟨4, 4, .ro, 0⟩, ⟨8, 3, .ro, 0⟩, ⟨11, 7, .ro, 0⟩, ⟨18, 1, .ro, 0⟩, ⟨31, 1, .ro, 0⟩]⟩,
  ⟨0x404, [⟨0x10, 0, 32⟩], false, .single, [⟨0, 32, .ro, 0⟩]⟩,
  ⟨0x408, [⟨0x10, 0, 32⟩], false, .low, [⟨0, 32, .ro, 0⟩]⟩,
  ⟨0x40c, [⟨0x10, 0, 32⟩], false, .high, [⟨0, 32, .ro, 0⟩]⟩,
  ⟨0x800, [], true, .single, [⟨0, 2, .wo, 0⟩, ⟨2, 3, .wo, 0⟩, ⟨5, 1, .wo, 0⟩, ⟨6, 10, .wo, 0⟩, ⟨16, 16, .wo, 0⟩]⟩,
  ⟨0x804, [], false, .single, [⟨0, 32, .rw, 0⟩]⟩,
  ⟨0x808, [], false, .single, [⟨0, 6, .rw, 0⟩]⟩,
  ⟨0x810, [], false, .low, [⟨0, 32, .rw, 0⟩]⟩,
  ⟨0x814, [], false, .high, [⟨0, 32, .rw, 0⟩]⟩,
  ⟨0x818, [], false, .single, [⟨0, 1, .ro, 0⟩, ⟨1, 1, .w1c, 0⟩, ⟨2, 1, .w1c, 0⟩, ⟨3, 3, .ro, 0⟩, ⟨6, 4, .ro, 0⟩]⟩]

/-- The registers of block MIF. -/
def regsMif : List RegDesc := regsMif0

def regsDcf0 : List RegDesc := [
  ⟨0x0, [⟨0x40, 0, 128⟩], true, .single, [⟨0, 1, .wo, 0⟩, ⟨1, 1, .rw, 0⟩, ⟨2, 1, .rw, 0⟩, ⟨3, 1, .rw, 0⟩, ⟨4, 2, .rw, 0⟩, ⟨6, 6, .rw, 0⟩, ⟨12, 6, .rw, 0⟩, ⟨18, 1, .rw, 0⟩, ⟨19, 1, .wo, 0⟩]⟩,
  ⟨0x4, [⟨0x40, 0, 128⟩], false, .single, [⟨0, 20, .rw, 0⟩]⟩,
  ⟨0x8, [⟨0x40, 0, 128⟩], false, .single, [⟨0, 20, .rw, 0⟩]⟩,
  ⟨0xc, [⟨0x40, 0, 128⟩], false, .single, [⟨0, 20, .rw, 0⟩]⟩,
  ⟨0x10, [⟨0x40, 0, 128⟩], false, .single, [⟨0, 32, .rw, 1⟩]⟩,
  ⟨0x14, [⟨0x40, 0, 128⟩], false, .low, [⟨0, 32, .rw, 0⟩]⟩,
  ⟨0x18, [⟨0x40, 0, 128⟩], false, .high, [⟨0, 32, .rw, 0⟩]⟩,
  ⟨0x1c, [⟨0x40, 0, 128⟩], false, .low, [⟨0, 32, .rw, 0⟩]⟩,
  ⟨0x20, [⟨0x40, 0, 128⟩], false, .high, [⟨0, 32, .rw, 0⟩]⟩,
  ⟨0x24, [⟨0x40, 0, 128⟩], false, .single, [⟨0, 2, .ro, 0⟩, ⟨8, 8, .ro, 0⟩]⟩,
  ⟨0x28, [⟨0x40, 0, 128⟩], false, .single, [⟨0, 32, .rc, 0⟩]⟩,
  ⟨0x2c, [⟨0x40, 0, 128⟩], false, .single, [⟨0, 32, .rc, 0⟩]⟩,
  ⟨0x30, [⟨0x40, 0, 128⟩], false, .single, [⟨0, 32, .rc, 0⟩]⟩,
  ⟨0x34, [⟨0x40, 0, 128⟩], false, .single, [⟨0, 32, .rc, 0⟩]⟩]

/-- The registers of block DCF. -/
def regsDcf : List RegDesc := regsDcf0

def regsTgl0 : List RegDesc := [
  ⟨0x1000, [], false, .single, [⟨0, 12, .ro, 0xfff⟩, ⟨12, 12, .ro, 0xfff⟩, ⟨24, 1, .ro, 0⟩]⟩,
  ⟨0x1010, [], false, .low, [⟨0, 32, .ro, 0⟩]⟩,
  ⟨0x1014, [], false, .high, [⟨0, 32, .ro, 0⟩]⟩,
  ⟨0x1018, [], false, .single, [⟨0, 32, .rc, 0⟩]⟩,
  ⟨0x101c, [], false, .single, [⟨0, 32, .rc, 0⟩]⟩,
  ⟨0x1100, [⟨0x4, 0, 24⟩], false, .single, [⟨0, 2, .ro, 0⟩, ⟨2, 1, .ro, 0⟩, ⟨16, 16, .ro, 0⟩]⟩]

/-- The registers of block TGL. -/
def regsTgl : List RegDesc := regsTgl0

def regsBpm0 : List RegDesc := [
  ⟨0x0, [], false, .single, [⟨0, 1, .ro, 1⟩, ⟨1, 1, .ro, 0⟩]⟩,
  ⟨0x100, [⟨0x20, 0, 4⟩], false, .single, [⟨0, 8, .rw, 0⟩]⟩,
  ⟨0x104, [⟨0x20, 0, 4⟩], false, .single, [⟨0, 28, .ro, 0⟩]⟩,
  ⟨0x108, [⟨0x20, 0, 4⟩], false, .single, [⟨0, 19, .ro, 0⟩]⟩,
  ⟨0x10c, [⟨0x20, 0, 4⟩], false, .single, [⟨0, 19, .rw, 0⟩]⟩,
  ⟨0x110, [⟨0x20, 0, 4⟩], false, .single, [⟨0, 19, .rw, 0⟩]⟩,
  ⟨0x114, [⟨0x20, 0, 4⟩], false, .single, [⟨0, 19, .ro, 0⟩]⟩,
  ⟨0x118, [⟨0x20, 0, 4⟩], false, .single, [⟨0, 19, .ro, 0⟩]⟩,
  ⟨0x11c, [⟨0x20, 0, 4⟩], false, .single, [⟨0, 19, .rc, 0⟩]⟩,
  ⟨0x200, [], false, .single, [⟨0, 22, .rw, 0x1c0000⟩]⟩,
  ⟨0x204, [], false, .single, [⟨0, 22, .ro, 0⟩]⟩,
  ⟨0x208, [], false, .single, [⟨0, 22, .ro, 0⟩]⟩,
  ⟨0x300, [], false, .single, [⟨0, 32, .rc, 0⟩]⟩,
  ⟨0x304, [], false, .single, [⟨0, 32, .rc, 0⟩]⟩,
  ⟨0x308, [], false, .single, [⟨0, 32, .rc, 0⟩]⟩,
  ⟨0x30c, [], false, .single, [⟨0, 32, .rc, 0⟩]⟩,
  ⟨0x310, [], false, .single, [⟨0, 32, .rc, 0⟩]⟩,
  ⟨0x314, [], false, .single, [⟨0, 22, .ro, 0⟩]⟩,
  ⟨0x400, [], false, .single, [⟨0, 4, .ro, 0⟩, ⟨4, 1, .w1c, 0⟩]⟩,
  ⟨0x410, [⟨0x10, 0, 16⟩], false, .single, [⟨0, 30, .ro, 0⟩]⟩,
  ⟨0x414, [⟨0x10, 0, 16⟩], false, .single, [⟨0, 2, .ro, 0⟩, ⟨2, 3, .ro, 0⟩, ⟨5, 6, .ro, 0⟩, ⟨31, 1, .ro, 0⟩]⟩,
  ⟨0x418, [⟨0x10, 0, 16⟩], false, .low, [⟨0, 32, .ro, 0⟩]⟩,
  ⟨0x41c, [⟨0x10, 0, 16⟩], false, .high, [⟨0, 32, .ro, 0⟩]⟩,
  ⟨0x600, [], true, .single, [⟨0, 1, .w1s, 0⟩]⟩]

def regsBpm1 : List RegDesc := [
  ⟨0x604, [], false, .single, [⟨0, 1, .w1c, 0⟩]⟩,
  ⟨0x608, [], false, .single, [⟨0, 22, .ro, 0⟩]⟩]

/-- The registers of block BPM. -/
def regsBpm : List RegDesc := regsBpm0 ++ regsBpm1

def regsHbc0 : List RegDesc := [
  ⟨0x0, [⟨0x40000, 0, 6⟩], false, .single, [⟨0, 1, .ro, 0⟩, ⟨1, 1, .ro, 0⟩]⟩,
  ⟨0x4, [⟨0x40000, 0, 6⟩], false, .single, [⟨0, 15, .ro, 0⟩]⟩,
  ⟨0x10, [⟨0x40000, 0, 6⟩], false, .single, [⟨0, 4, .rw, 4⟩, ⟨4, 4, .rw, 3⟩, ⟨8, 4, .rw, 2⟩, ⟨12, 4, .rw, 1⟩, ⟨16, 7, .rw, 0x19⟩]⟩,
  ⟨0x14, [⟨0x40000, 0, 6⟩], false, .single, [⟨0, 32, .rc, 0⟩]⟩,
  ⟨0x18, [⟨0x40000, 0, 6⟩], false, .single, [⟨0, 3, .ro, 0⟩]⟩,
  ⟨0x20, [⟨0x40000, 0, 6⟩], false, .low, [⟨0, 32, .ro, 0⟩]⟩,
  ⟨0x24, [⟨0x40000, 0, 6⟩], false, .high, [⟨0, 32, .ro, 0⟩]⟩,
  ⟨0x28, [⟨0x40000, 0, 6⟩], false, .low, [⟨0, 32, .ro, 0⟩]⟩,
  ⟨0x2c, [⟨0x40000, 0, 6⟩], false, .high, [⟨0, 32, .ro, 0⟩]⟩,
  ⟨0x3f000, [], false, .single, [⟨0, 2, .rw, 0⟩]⟩,
  ⟨0x3f004, [], false, .single, [⟨0, 22, .rw, 0x66666⟩]⟩,
  ⟨0x3f008, [], false, .single, [⟨0, 25, .ro, 0x1033332⟩]⟩,
  ⟨0x3f00c, [], false, .single, [⟨0, 25, .rw, 0x10000⟩]⟩,
  ⟨0x40, [⟨0x40000, 0, 6⟩], false, .single, [⟨0, 16, .rw, 0x400⟩, ⟨16, 8, .rw, 0x3c⟩, ⟨24, 4, .rw, 1⟩]⟩,
  ⟨0x44, [⟨0x40000, 0, 6⟩], false, .single, [⟨0, 3, .ro, 4⟩, ⟨3, 1, .ro, 0⟩, ⟨4, 2, .ro, 0⟩]⟩,
  ⟨0x48, [⟨0x40000, 0, 6⟩], false, .single, [⟨0, 1, .ro, 0⟩, ⟨1, 7, .ro, 0⟩, ⟨8, 7, .ro, 0⟩, ⟨15, 7, .ro, 0⟩]⟩,
  ⟨0x50, [⟨0x40000, 0, 6⟩], false, .single, [⟨0, 32, .rc, 0⟩]⟩,
  ⟨0x54, [⟨0x40000, 0, 6⟩], false, .single, [⟨0, 32, .rc, 0⟩]⟩,
  ⟨0x58, [⟨0x40000, 0, 6⟩], false, .single, [⟨0, 32, .rc, 0⟩]⟩,
  ⟨0x1000, [⟨0x40000, 0, 6⟩, ⟨0x4, 0, 128⟩], true, .single, [⟨0, 2, .ro, 2⟩, ⟨2, 1, .ro, 0⟩, ⟨3, 2, .ro, 0⟩, ⟨5, 1, .ro, 0⟩, ⟨8, 1, .wo, 0⟩, ⟨9, 1, .wo, 0⟩, ⟨16, 7, .ro, 0⟩]⟩,
  ⟨0x1200, [⟨0x40000, 0, 6⟩, ⟨0x4, 0, 128⟩], false, .single, [⟨0, 16, .ro, 0⟩, ⟨16, 4, .ro, 0⟩]⟩]

/-- The registers of block HBC. -/
def regsHbc : List RegDesc := regsHbc0

def regsRsv0 : List RegDesc := [
  ⟨0x0, [⟨0x40, 0, 8⟩], true, .single, [⟨0, 2, .ro, 0⟩, ⟨2, 1, .ro, 0⟩, ⟨8, 1, .wo, 0⟩, ⟨9, 1, .wo, 0⟩]⟩,
  ⟨0x4, [⟨0x40, 0, 8⟩], false, .single, [⟨0, 1, .ro, 0⟩, ⟨1, 1, .ro, 0⟩, ⟨2, 1, .ro, 0⟩, ⟨3, 1, .ro, 0⟩, ⟨4, 7, .ro, 0⟩]⟩,
  ⟨0x8, [⟨0x40, 0, 8⟩], false, .single, [⟨0, 23, .ro, 0⟩]⟩,
  ⟨0xc, [⟨0x40, 0, 8⟩], false, .single, [⟨0, 23, .ro, 0⟩]⟩,
  ⟨0x10, [⟨0x40, 0, 8⟩], false, .single, [⟨0, 32, .rc, 0⟩]⟩,
  ⟨0x14, [⟨0x40, 0, 8⟩], false, .single, [⟨0, 32, .rc, 0⟩]⟩,
  ⟨0x1000, [], false, .single, [⟨0, 1, .ro, 0⟩]⟩,
  ⟨0x1100, [⟨0x10, 0, 64⟩], false, .single, [⟨0, 2, .ro, 0⟩, ⟨2, 1, .ro, 0⟩, ⟨3, 1, .ro, 0⟩, ⟨4, 8, .ro, 0⟩, ⟨12, 7, .ro, 0⟩, ⟨19, 9, .ro, 0⟩, ⟨28, 1, .ro, 0⟩]⟩,
  ⟨0x1104, [⟨0x10, 0, 64⟩], false, .single, [⟨0, 10, .ro, 0⟩, ⟨10, 15, .ro, 0⟩]⟩,
  ⟨0x1108, [⟨0x10, 0, 64⟩], false, .low, [⟨0, 32, .ro, 0⟩]⟩,
  ⟨0x110c, [⟨0x10, 0, 64⟩], false, .high, [⟨0, 32, .ro, 0⟩]⟩,
  ⟨0x2000, [⟨0x4, 0, 16⟩], false, .single, [⟨0, 32, .rw, 0⟩]⟩,
  ⟨0x2040, [], false, .single, [⟨0, 8, .rw, 0x7f⟩, ⟨8, 10, .rw, 0x3c⟩, ⟨18, 1, .rw, 0⟩, ⟨20, 12, .rw, 0x190⟩]⟩,
  ⟨0x2044, [], false, .single, [⟨0, 32, .rc, 0⟩]⟩]

/-- The registers of block RSV. -/
def regsRsv : List RegDesc := regsRsv0

def regsQmg0 : List RegDesc := [
  ⟨0x0, [], false, .single, [⟨0, 6, .rw, 0⟩, ⟨8, 6, .rw, 1⟩, ⟨16, 1, .rw, 0⟩]⟩,
  ⟨0x4, [], false, .single, [⟨0, 32, .rw, 1⟩]⟩,
  ⟨0x10, [], false, .single, [⟨0, 5, .rw, 0⟩, ⟨8, 4, .rw, 0⟩, ⟨12, 5, .rw, 0⟩]⟩,
  ⟨0x14, [], false, .single, [⟨0, 32, .rc, 0⟩]⟩,
  ⟨0x20, [⟨0x4, 0, 5⟩], false, .single, [⟨0, 32, .rc, 0⟩]⟩,
  ⟨0x40, [], false, .single, [⟨0, 32, .rc, 0⟩]⟩,
  ⟨0x44, [], false, .single, [⟨0, 32, .rc, 0⟩]⟩,
  ⟨0x100, [], true, .single, [⟨0, 19, .rw, 0⟩]⟩,
  ⟨0x104, [], false, .single, [⟨0, 8, .ro, 0⟩, ⟨8, 1, .ro, 0⟩, ⟨9, 1, .ro, 0⟩, ⟨10, 1, .ro, 0⟩, ⟨31, 1, .ro, 0⟩]⟩,
  ⟨0x108, [], false, .low, [⟨0, 32, .ro, 0⟩]⟩,
  ⟨0x10c, [], false, .high, [⟨0, 32, .ro, 0⟩]⟩,
  ⟨0x110, [], false, .low, [⟨0, 32, .ro, 0⟩]⟩,
  ⟨0x114, [], false, .high, [⟨0, 32, .ro, 0⟩]⟩,
  ⟨0x118, [], false, .single, [⟨0, 32, .ro, 0⟩]⟩,
  ⟨0x200, [⟨0x4, 0, 8⟩], false, .single, [⟨0, 16, .rw, 0x1f4⟩]⟩,
  ⟨0x220, [], false, .single, [⟨0, 8, .rw, 0x10⟩]⟩,
  ⟨0x224, [], false, .single, [⟨0, 32, .rc, 0⟩]⟩,
  ⟨0x228, [], false, .single, [⟨0, 21, .ro, 0⟩]⟩]

/-- The registers of block QMG. -/
def regsQmg : List RegDesc := regsQmg0

def regsSch0 : List RegDesc := [
  ⟨0x0, [], false, .single, [⟨0, 4, .rw, 7⟩, ⟨4, 4, .rw, 8⟩, ⟨8, 4, .rw, 9⟩, ⟨12, 4, .rw, 0xa⟩, ⟨16, 4, .rw, 0xb⟩, ⟨20, 1, .rw, 0⟩]⟩,
  ⟨0x4, [], false, .single, [⟨0, 6, .rw, 0⟩]⟩,
  ⟨0x10, [], true, .single, [⟨0, 20, .rw, 0⟩, ⟨20, 1, .rw, 0⟩]⟩,
  ⟨0x14, [], true, .single, [⟨0, 2, .ro, 2⟩, ⟨2, 1, .ro, 0⟩, ⟨8, 1, .wo, 0⟩, ⟨9, 1, .wo, 0⟩, ⟨10, 1, .wo, 0⟩, ⟨31, 1, .ro, 0⟩]⟩,
  ⟨0x20, [], true, .single, [⟨0, 20, .rw, 0⟩, ⟨20, 3, .rw, 0⟩]⟩,
  ⟨0x24, [], false, .single, [⟨0, 1, .ro, 0⟩, ⟨1, 1, .ro, 0⟩, ⟨2, 1, .ro, 0⟩, ⟨3, 1, .ro, 0⟩, ⟨4, 1, .ro, 0⟩, ⟨5, 3, .ro, 0⟩, ⟨31, 1, .ro, 0⟩]⟩,
  ⟨0x28, [], false, .single, [⟨0, 32, .ro, 0⟩]⟩,
  ⟨0x2c, [], false, .single, [⟨0, 32, .ro, 0⟩]⟩,
  ⟨0x100, [⟨0x10, 0, 8⟩], false, .single, [⟨0, 32, .rc, 0⟩]⟩,
  ⟨0x104, [⟨0x10, 0, 8⟩], false, .single, [⟨0, 32, .rc, 0⟩]⟩,
  ⟨0x108, [⟨0x10, 0, 8⟩], false, .single, [⟨0, 32, .rc, 0⟩]⟩,
  ⟨0x200, [], false, .single, [⟨0, 32, .rc, 0⟩]⟩,
  ⟨0x204, [], false, .single, [⟨0, 32, .rc, 0⟩]⟩,
  ⟨0x300, [⟨0x4, 0, 128⟩], false, .single, [⟨0, 8, .ro, 0⟩]⟩]

/-- The registers of block SCH. -/
def regsSch : List RegDesc := regsSch0

def regsFab0 : List RegDesc := [
  ⟨0x0, [], false, .single, [⟨0, 9, .rw, 0⟩, ⟨9, 1, .rw, 0⟩, ⟨10, 1, .rw, 0⟩]⟩,
  ⟨0x4, [], false, .single, [⟨0, 6, .rw, 8⟩]⟩,
  ⟨0x8, [], false, .single, [⟨0, 8, .rw, 0x69⟩, ⟨8, 8, .rw, 8⟩, ⟨16, 8, .rw, 0x10⟩]⟩,
  ⟨0xc, [], false, .single, [⟨0, 8, .rw, 0x14⟩]⟩,
  ⟨0x10, [], false, .single, [⟨0, 8, .rw, 0x60⟩, ⟨8, 8, .rw, 0xc8⟩, ⟨16, 8, .rw, 0x20⟩, ⟨24, 8, .rw, 0xa⟩]⟩,
  ⟨0x14, [], false, .single, [⟨0, 8, .rw, 0x10⟩, ⟨8, 1, .rw, 0⟩]⟩,
  ⟨0x18, [], false, .single, [⟨0, 8, .rw, 0x32⟩]⟩,
  ⟨0x20, [], false, .single, [⟨0, 9, .rw, 0⟩, ⟨9, 9, .rw, 0⟩, ⟨18, 9, .rw, 0⟩]⟩,
  ⟨0x24, [], false, .single, [⟨0, 3, .rw, 0⟩, ⟨3, 2, .rw, 0⟩, ⟨5, 6, .rw, 0x32⟩, ⟨11, 11, .rw, 0x200⟩]⟩,
  ⟨0x30, [], false, .single, [⟨0, 16, .rw, 0x3e8⟩, ⟨16, 1, .rw, 0⟩]⟩,
  ⟨0x40, [⟨0x4, 0, 16⟩], false, .single, [⟨0, 32, .rw, 0⟩]⟩,
  ⟨0x80, [⟨0x4, 0, 16⟩], false, .single, [⟨0, 32, .ro, 0⟩]⟩,
  ⟨0x100, [], false, .single, [⟨0, 32, .rc, 0⟩]⟩,
  ⟨0x104, [], false, .single, [⟨0, 32, .rc, 0⟩]⟩,
  ⟨0x108, [], false, .single, [⟨0, 32, .rc, 0⟩]⟩,
  ⟨0x10c, [], false, .single, [⟨0, 13, .ro, 0⟩]⟩,
  ⟨0x110, [], false, .single, [⟨0, 32, .rc, 0⟩]⟩,
  ⟨0x114, [], false, .single, [⟨0, 32, .rc, 0⟩]⟩,
  ⟨0x118, [], false, .single, [⟨0, 32, .rc, 0⟩]⟩,
  ⟨0x11c, [], false, .single, [⟨0, 32, .rc, 0⟩]⟩,
  ⟨0x1000, [⟨0x40, 0, 160⟩], true, .single, [⟨0, 2, .ro, 0⟩, ⟨2, 1, .ro, 0⟩, ⟨8, 1, .wo, 0⟩, ⟨9, 1, .wo, 0⟩]⟩,
  ⟨0x1004, [⟨0x40, 0, 160⟩], false, .single, [⟨0, 2, .rw, 2⟩]⟩,
  ⟨0x1008, [⟨0x40, 0, 160⟩], false, .single, [⟨0, 1, .ro, 0⟩, ⟨1, 1, .ro, 0⟩, ⟨2, 1, .ro, 0⟩, ⟨3, 1, .ro, 0⟩, ⟨4, 1, .ro, 0⟩, ⟨5, 1, .ro, 0⟩, ⟨6, 11, .ro, 0⟩]⟩,
  ⟨0x100c, [⟨0x40, 0, 160⟩], false, .single, [⟨0, 8, .ro, 0⟩, ⟨8, 8, .ro, 0⟩]⟩]

def regsFab1 : List RegDesc := [
  ⟨0x1010, [⟨0x40, 0, 160⟩], false, .single, [⟨0, 32, .rc, 0⟩]⟩,
  ⟨0x1014, [⟨0x40, 0, 160⟩], false, .single, [⟨0, 32, .rc, 0⟩]⟩]

/-- The registers of block FAB. -/
def regsFab : List RegDesc := regsFab0 ++ regsFab1

def regsCnt0 : List RegDesc := [
  ⟨0x0, [], true, .single, [⟨0, 20, .rw, 0⟩, ⟨20, 3, .rw, 0⟩, ⟨23, 6, .rw, 0⟩]⟩,
  ⟨0x4, [], false, .single, [⟨0, 1, .ro, 0⟩, ⟨1, 1, .ro, 0⟩, ⟨2, 1, .ro, 0⟩, ⟨3, 1, .ro, 0⟩]⟩,
  ⟨0x8, [], false, .low, [⟨0, 32, .ro, 0⟩]⟩,
  ⟨0xc, [], false, .high, [⟨0, 32, .ro, 0⟩]⟩,
  ⟨0x10, [], false, .low, [⟨0, 32, .ro, 0⟩]⟩,
  ⟨0x14, [], false, .high, [⟨0, 32, .ro, 0⟩]⟩,
  ⟨0x18, [], true, .single, [⟨0, 2, .wo, 0⟩, ⟨2, 1, .wo, 0⟩]⟩,
  ⟨0x20, [], false, .low, [⟨0, 32, .rw, 0⟩]⟩,
  ⟨0x24, [], false, .high, [⟨0, 32, .rw, 0⟩]⟩,
  ⟨0x28, [], false, .low, [⟨0, 32, .rw, 0⟩]⟩,
  ⟨0x2c, [], false, .high, [⟨0, 32, .rw, 0⟩]⟩,
  ⟨0x30, [], false, .single, [⟨0, 32, .rc, 0⟩]⟩,
  ⟨0x34, [], false, .single, [⟨0, 2, .ro, 0⟩, ⟨2, 1, .ro, 0⟩]⟩,
  ⟨0x40, [], false, .low, [⟨0, 32, .ro, 0⟩]⟩,
  ⟨0x44, [], false, .high, [⟨0, 32, .ro, 0⟩]⟩]

/-- The registers of block CNT. -/
def regsCnt : List RegDesc := regsCnt0

def regsTxt0 : List RegDesc := [
  ⟨0x0, [⟨0x10, 0, 64⟩], false, .single, [⟨0, 3, .ro, 0⟩, ⟨3, 1, .ro, 0⟩, ⟨4, 1, .ro, 0⟩, ⟨16, 13, .ro, 0⟩]⟩,
  ⟨0x4, [⟨0x10, 0, 64⟩], false, .single, [⟨0, 8, .ro, 0⟩, ⟨8, 3, .ro, 0⟩]⟩,
  ⟨0x8, [⟨0x10, 0, 64⟩], false, .low, [⟨0, 32, .ro, 0⟩]⟩,
  ⟨0xc, [⟨0x10, 0, 64⟩], false, .high, [⟨0, 32, .ro, 0⟩]⟩,
  ⟨0x1000, [], false, .single, [⟨0, 32, .rc, 0⟩]⟩,
  ⟨0x1004, [], false, .single, [⟨0, 13, .rc, 0⟩]⟩,
  ⟨0x1008, [], false, .single, [⟨0, 32, .rc, 0⟩]⟩,
  ⟨0x100c, [], false, .single, [⟨0, 17, .ro, 0⟩]⟩]

/-- The registers of block TXT. -/
def regsTxt : List RegDesc := regsTxt0

def regsPmt0 : List RegDesc := [
  ⟨0x0, [], false, .single, [⟨0, 1, .rw, 1⟩, ⟨1, 1, .ro, 0⟩, ⟨2, 1, .ro, 0⟩]⟩,
  ⟨0x8, [], false, .low, [⟨0, 32, .rw, 0⟩]⟩,
  ⟨0xc, [], false, .high, [⟨0, 32, .rw, 0⟩]⟩,
  ⟨0x10, [], true, .single, [⟨0, 1, .wo, 0⟩, ⟨1, 1, .wo, 0⟩, ⟨2, 1, .rw, 0⟩, ⟨3, 1, .rw, 0⟩, ⟨8, 8, .ro, 0⟩]⟩,
  ⟨0x100, [⟨0x8, 0, 16⟩], false, .low, [⟨0, 32, .rw, 0⟩]⟩,
  ⟨0x104, [⟨0x8, 0, 16⟩], false, .high, [⟨0, 32, .rw, 0⟩]⟩,
  ⟨0x200, [⟨0x4, 0, 16⟩], false, .single, [⟨0, 10, .rw, 0⟩, ⟨10, 4, .rw, 0xf⟩, ⟨14, 6, .rw, 0x3f⟩, ⟨20, 1, .rw, 0⟩, ⟨21, 1, .rw, 0⟩]⟩]

/-- The registers of block PMT. -/
def regsPmt : List RegDesc := regsPmt0

def regsDct0 : List RegDesc := [
  ⟨0x0, [⟨0x40, 0, 160⟩], true, .single, [⟨0, 1, .wo, 0⟩, ⟨1, 1, .rw, 0⟩, ⟨2, 1, .rw, 0⟩, ⟨3, 1, .rw, 0⟩, ⟨4, 2, .rw, 0⟩, ⟨6, 6, .rw, 0⟩, ⟨12, 6, .rw, 0⟩, ⟨18, 1, .rw, 0⟩, ⟨19, 1, .wo, 0⟩]⟩,
  ⟨0x4000, [⟨0x40, 0, 24⟩], true, .single, [⟨0, 1, .wo, 0⟩, ⟨1, 1, .rw, 0⟩, ⟨2, 1, .rw, 0⟩, ⟨3, 1, .rw, 0⟩, ⟨4, 2, .rw, 0⟩, ⟨6, 6, .rw, 0⟩, ⟨12, 6, .rw, 0⟩, ⟨18, 1, .rw, 0⟩, ⟨19, 1, .wo, 0⟩]⟩,
  ⟨0x4, [⟨0x40, 0, 160⟩], false, .single, [⟨0, 20, .rw, 0⟩]⟩,
  ⟨0x4004, [⟨0x40, 0, 24⟩], false, .single, [⟨0, 20, .rw, 0⟩]⟩,
  ⟨0x8, [⟨0x40, 0, 160⟩], false, .single, [⟨0, 20, .rw, 0⟩]⟩,
  ⟨0x4008, [⟨0x40, 0, 24⟩], false, .single, [⟨0, 20, .rw, 0⟩]⟩,
  ⟨0xc, [⟨0x40, 0, 160⟩], false, .single, [⟨0, 20, .rw, 0⟩]⟩,
  ⟨0x400c, [⟨0x40, 0, 24⟩], false, .single, [⟨0, 20, .rw, 0⟩]⟩,
  ⟨0x10, [⟨0x40, 0, 160⟩], false, .single, [⟨0, 32, .rw, 1⟩]⟩,
  ⟨0x4010, [⟨0x40, 0, 24⟩], false, .single, [⟨0, 32, .rw, 1⟩]⟩,
  ⟨0x14, [⟨0x40, 0, 160⟩], false, .low, [⟨0, 32, .rw, 0⟩]⟩,
  ⟨0x4014, [⟨0x40, 0, 24⟩], false, .low, [⟨0, 32, .rw, 0⟩]⟩,
  ⟨0x18, [⟨0x40, 0, 160⟩], false, .high, [⟨0, 32, .rw, 0⟩]⟩,
  ⟨0x4018, [⟨0x40, 0, 24⟩], false, .high, [⟨0, 32, .rw, 0⟩]⟩,
  ⟨0x1c, [⟨0x40, 0, 160⟩], false, .low, [⟨0, 32, .rw, 0⟩]⟩,
  ⟨0x401c, [⟨0x40, 0, 24⟩], false, .low, [⟨0, 32, .rw, 0⟩]⟩,
  ⟨0x20, [⟨0x40, 0, 160⟩], false, .high, [⟨0, 32, .rw, 0⟩]⟩,
  ⟨0x4020, [⟨0x40, 0, 24⟩], false, .high, [⟨0, 32, .rw, 0⟩]⟩,
  ⟨0x24, [⟨0x40, 0, 160⟩], false, .single, [⟨0, 2, .ro, 0⟩, ⟨8, 8, .ro, 0⟩]⟩,
  ⟨0x4024, [⟨0x40, 0, 24⟩], false, .single, [⟨0, 2, .ro, 0⟩, ⟨8, 8, .ro, 0⟩]⟩,
  ⟨0x28, [⟨0x40, 0, 160⟩], false, .single, [⟨0, 32, .rc, 0⟩]⟩,
  ⟨0x4028, [⟨0x40, 0, 24⟩], false, .single, [⟨0, 32, .rc, 0⟩]⟩,
  ⟨0x2c, [⟨0x40, 0, 160⟩], false, .single, [⟨0, 32, .rc, 0⟩]⟩,
  ⟨0x402c, [⟨0x40, 0, 24⟩], false, .single, [⟨0, 32, .rc, 0⟩]⟩]

def regsDct1 : List RegDesc := [
  ⟨0x30, [⟨0x40, 0, 160⟩], false, .single, [⟨0, 32, .rc, 0⟩]⟩,
  ⟨0x4030, [⟨0x40, 0, 24⟩], false, .single, [⟨0, 32, .rc, 0⟩]⟩,
  ⟨0x34, [⟨0x40, 0, 160⟩], false, .single, [⟨0, 32, .rc, 0⟩]⟩,
  ⟨0x4034, [⟨0x40, 0, 24⟩], false, .single, [⟨0, 32, .rc, 0⟩]⟩]

/-- The registers of block DCT. -/
def regsDct : List RegDesc := regsDct0 ++ regsDct1

/-- A block of the map of R430: its bit index in GLB_CLKEN (R64), its first byte and the first byte after it. -/
structure Blk where
  bit  : Nat
  base : Nat
  stop : Nat
  deriving DecidableEq, Repr

/-- The block map of R430, with each block's bit index in GLB_CLKEN (R64). -/
def blockMap : List Blk := [
  ⟨0, 0x0, 0x100000⟩, ⟨1, 0x100000, 0x200000⟩, ⟨2, 0x200000, 0x300000⟩, ⟨3, 0x300000, 0x400000⟩,
  ⟨4, 0x400000, 0x800000⟩, ⟨5, 0x800000, 0xC00000⟩, ⟨6, 0xC00000, 0x1000000⟩, ⟨7, 0x1000000, 0x2000000⟩,
  ⟨8, 0x2000000, 0x2400000⟩, ⟨9, 0x2400000, 0x2800000⟩, ⟨10, 0x2800000, 0x2C00000⟩, ⟨11, 0x2C00000, 0x3000000⟩,
  ⟨12, 0x3000000, 0x3400000⟩, ⟨13, 0x3400000, 0x8000000⟩, ⟨16, 0x8000000, 0x8400000⟩, ⟨17, 0x8400000, 0x8800000⟩,
  ⟨18, 0x8800000, 0x8C00000⟩, ⟨19, 0x8C00000, 0x9000000⟩, ⟨20, 0x9000000, 0x9400000⟩, ⟨21, 0x9400000, 0x9800000⟩,
  ⟨22, 0x9800000, 0x9C00000⟩, ⟨23, 0x9C00000, 0xA000000⟩, ⟨24, 0xA000000, 0xA400000⟩, ⟨25, 0xA400000, 0xA800000⟩,
  ⟨26, 0xA800000, 0xAC00000⟩]

/-- The block that holds a byte of BAR0, or none (R430). -/
def blockOf (a : Nat) : Option Blk := blockMap.find? fun b => b.base ≤ a && a < b.stop

/-- The registers of a block, by its bit index in GLB_CLKEN. -/
def blockRegs (bit : Nat) : List RegDesc :=
  match bit with
  | 0 => regsGlb | 1 => regsTbs | 2 => regsHac | 3 => regsFws | 4 => regsLif | 5 => regsOtn | 6 => regsPrs
  | 7 => regsPpl | 8 => regsAsm | 9 => regsExm | 10 => regsTxf | 11 => regsPmf | 12 => regsMif | 13 => regsDcf
  | 16 => regsTgl | 17 => regsBpm | 18 => regsHbc | 19 => regsRsv | 20 => regsQmg | 21 => regsSch | 22 => regsFab
  | 23 => regsCnt | 24 => regsTxt | 25 => regsPmt | 26 => regsDct
  | _ => []

/-- The indices at which an offset falls among the instances of a register, if it is one of them. -/
def locate (d : Nat) : List Stride → Option (List Nat)
  | [] => if d = 0 then some [] else none
  | st :: rest =>
    let i := d / st.bytes
    if st.first ≤ i && i < st.first + st.count then (locate (d % st.bytes) rest).map (i :: ·) else none

/-- Whether a register table row covers the byte offset `off` of its block. -/
def RegDesc.covers (r : RegDesc) (off : Nat) : Bool := r.off ≤ off && (locate (off - r.off) r.idx).isSome

/-- The register at byte address `a` of BAR0. Registers kept per function stand for function 1 at `a` plus 2^28. -/
def regAt (a : Nat) : Option RegDesc :=
  match blockOf (a % 0x10000000) with
  | some b => (blockRegs b.bit).find? (·.covers (a - b.base))
  | none => none

/-- The value the fields of a register hold at reset. -/
def fieldsReset : List FieldDesc → Nat
  | [] => 0
  | f :: fs => f.reset % 2 ^ f.width * 2 ^ f.lsb + fieldsReset fs

/-- The position k of a rank's (channel, SID) pair in the ring of R264, as R326 states it for HBC_RANK_LC_r.ring_index. -/
def ringIndexReset (r : Nat) : Nat :=
  if 124 ≤ r then 0x7F
  else
    let c := r / 4
    let k := 4 * (c / 16) + r % 4
    if k < 4 then 16 * k + c % 16 else 64 + 15 * (k - 4) + c % 16

/-- The default cells of pool `k` (R236). -/
def poolCellsReset (k : Nat) : Nat := if k = 0 then 262144 else if k = 3 then 65536 else 131072

/-- The reset value of one pool's word `w` of BPM_POOL_k (R236, R261). -/
def poolReset (k w : Nat) : Nat :=
  if w = 0 then (if k = 2 then 16 else if k = 3 then 32 else 8)
  else if w = 1 then (if k = 1 then 0x2000000 else if k = 2 then 0x4000000 else if k = 3 then 0x8000000 else 0)
  else if w = 2 then poolCellsReset k
  else if w = 3 then poolCellsReset k * 13 / 16
  else if w = 4 then poolCellsReset k * 2 / 16
  else 0

/-- The value a register holds at reset, as its table gives it. Registers whose reset value depends on their index
(BPM_POOL_k, HBC_RANK_LC_r, HAC_DMAW_0_0) are computed as R236, R261, R326 and R464 state. -/
def regReset (a : Nat) : Word :=
  if 0x8400100 ≤ a && a < 0x8400180 then BitVec.ofNat 32 (poolReset ((a - 0x8400100) / 0x20) ((a - 0x8400100) % 0x20 / 4))
  else if 0x8800000 ≤ a && a < 0x8980000 && 0x1000 ≤ a % 0x40000 && a % 0x40000 < 0x1200 then
    let r := (a % 0x40000 - 0x1000) / 4
    BitVec.ofNat 32 (2 + (if 124 ≤ r then 8 else 0) + ringIndexReset r * 65536)
  else if a = 0x200100 then 1
  else if 0x200100 ≤ a && a < 0x200200 && a % 0x10 = 0 then 0
  else match regAt a with
    | some r => BitVec.ofNat 32 (fieldsReset r.fields)
    | none => 0

/-- The bits of a register that carry one of the given access codes. -/
def accessMask (fs : List FieldDesc) (p : Access → Bool) : Nat :=
  match fs with
  | [] => 0
  | f :: rest => (if p f.acc then (2 ^ f.width - 1) * 2 ^ f.lsb else 0) + accessMask rest p

end Sys2Proof.Machine
end

