-- ==== Sys2Proof/Machine/State.lean ====
section
/-!
DEFINITION. Machine/State.lean: everything the spec gives the device, as plain data, and the device right after a
power-on reset. Registers stand in State.regs, a sparse list of the registers whose value is not their reset value
(Machine/RegTable.lean); the rest of the state stands in one structure for each block. INVENTORY.md lists every piece
with its rule and its reset value.
-/

namespace Sys2Proof.Machine

/-- The reasons a step can stop with a fault. No command of this device faults: the spec describes an outcome for every
command, and an error of the device is a change of its state (a late-error entry, a status code, a count). The one
constructor is there because the interface asks for a type; no meaning raises it. Safe. -/
inductive Fault where
  | none
  deriving DecidableEq, Repr

/-- The reasons a step can be refused. `notModelled` is raised by an arm of Dispatch.lean whose meaning is not written.
Safe: the machine stops. -/
inductive Refusal where
  | notModelled (mnemonic : String)
  deriving DecidableEq, Repr

/-- A completion on its way to a completion ring (R454). `turn` is the firing turn of an ACCEPTED completion; any other
carries the turn in which it is written. -/
structure Cpl where
  fn     : Nat
  ring   : Nat
  tag    : Nat
  status : Nat
  detail : Nat
  turn   : Option Nat
  final  : Bool
  deriving DecidableEq, Repr

/-- An event record (R462), without its sequence number. -/
structure EvRec where
  severity : Nat
  die      : Nat
  block    : Nat
  addr     : Nat
  turn     : Nat
  value    : Nat
  seq      : Nat
  deriving DecidableEq, Repr

/-- A command ring of one function, as far as the registers do not hold it (R449, R454, R457): the producer index the
tail doorbell gave, the host's consumer index and the entries in use of the completion ring, the phase bit, and the
submission instants of the descriptors not fetched yet, by descriptor index. -/
structure Ring where
  tail    : Nat
  cplHead : Nat
  cplUsed : Nat
  phase   : Bool
  submits : List (Nat × Nat)
  deriving DecidableEq, Repr

/-- A command that has started and has not posted its final completion (R450), with the rule epoch it was checked under
(R446) and the elapsed instant of its submission (R457). -/
structure InFlight where
  fn    : Nat
  ring  : Nat
  tag   : Nat
  epoch : Nat
  submit : Nat
  desc  : List Byte
  deriving DecidableEq, Repr

/-- A PF1 refusal that waits for its fixed time (R457): a command (ring and tag) or a read. -/
structure Refusing where
  fn   : Nat
  due  : Nat
  cmd  : Option (Nat × Nat)
  deriving DecidableEq, Repr

/-- The host-facing state of HAC beyond its registers (R434, R435, R440 to R462). Keys: a ring is 2 x function + ring; a
pair latch or a staged word is function x 2^28 + the offset of the low word; a vector is 64 x function + vector. `orphans`
the commands (function, ring, tag) that ran when their endpoint was reset (R498); `ringFn` holds the
function that enabled a ring of the device (by the address of its enable register), whose windows it must lie in. -/
structure HostSt where
  rings    : Sparse Ring
  inFlight : List InFlight
  cplQueue : List Cpl
  refusing : List Refusing
  latches  : Sparse Word
  staged   : Sparse Word
  highRun  : Sparse Nat
  fences   : List (Nat × Nat)
  evPend   : List (Nat × EvRec)
  evSeq    : Sparse Nat
  vecOpen  : Sparse Bool
  vecPend  : Sparse Bool
  ringFn   : Sparse Nat
  orphans  : List (Nat × Nat × Nat)
  deriving DecidableEq, Repr

/-- System time and what follows from it (R36 to R47): whole nanoseconds since the PTP epoch and the rest of a nanosecond
in units of 2^-16 ns / 10^9, the elapsed count, the turn number held (R41), the TD's copy of the time (R47), the slew in
progress (amount in ns and the nanoseconds of the 1 s that are left, R38), the armed time of day (R37), the two counts of
consecutive measurements, and the elapsed instants from which the 2 s and unlock_timeout run (R44). -/
structure TimeSt where
  sysNs     : Nat
  frac      : Nat
  elapsed   : Nat
  turn      : Nat
  tdNs      : Nat
  slew      : Int
  slewLeft  : Nat
  todArmed  : Bool
  goodCount : Nat
  badCount  : Nat
  lastMeas  : Nat
  lastGood  : Nat
  deriving DecidableEq, Repr

/-- The clock monitor beyond its registers (R57 to R60) and the frequency meter (R65): consecutive good periods of each
failed source (0 SDS_REFCLK0, 1 SDS_REFCLK1, 2 TIME_REF_IN, 3 crystal), the offsets between TIME_REF_IN and the crystal
over the last 16 good periods (ppb) and the correction kept in holdover, the recovered clock outputs at high impedance, the source of
the core PLL (0 SDS_REFCLK0, 1 SDS_REFCLK1, 2 crystal, 3 internal oscillator), and the SerDes reference its consumers left when it
failed. -/
structure ClockSt where
  good      : Sparse Nat
  offsets   : List Int
  kept      : Int
  rclkHiZ   : Sparse Bool
  coreSrc   : Nat
  left      : Option Nat
  deriving DecidableEq, Repr

/-- What a scheduler slot schedules (R49), with the object it acts on. `snap` is the snapshot buffer that armed a PMU freeze (R476),
none for one armed in PMF_FRZ_CTRL. -/
inductive SchedEv where
  | txnCommit (h : Nat)
  | recipe (slot : Nat)
  | firmware (bank : Nat) (ucode revert : Bool)
  | snapshot (buf : Nat)
  | pmu (resume : Bool) (snap : Option Nat)
  | holdStart (entry : Nat)
  | holdStop (entry : Nat)
  | dice (unit : Nat)
  | tsiSwap
  deriving DecidableEq, Repr

/-- A pending scheduled event (R48 to R54): the slots it takes on each die, its turn, scope and owner, and the command
it answers to. -/
structure SlotEv where
  ev     : SchedEv
  turn   : Nat
  system : Bool
  owner  : Nat
  cmd    : Option Cmd
  fdSlot : Option Nat
  tdSlot : Option Nat
  deriving DecidableEq, Repr

/-- Bring-up and reset state beyond the registers (R489 to R510): whether POR_N is low or the rails are lost, whether a sagging rail
holds the device in its internal power-on reset (R552); whether the PLLs have locked, firmware runs on both
dies, and core logic is released; recovery mode; the boot watchdog (running, start); the PERST# level (true: asserted)
and the elapsed instant from which configuration requests are answered; the elapsed instant of the last TD report;
block-reset, reservoir-port, remote-device and management epochs (R508); the boot configuration
record held in flash and the one being stored (R492, R542); the calibration words in use by item where they are not the reset value
(R564); whether the management cores hand over to a new image (R534) and whether the data path
pauses for its microcode (R535); the sensors whose warn and crit events have been raised and not fallen back (R560), one bit each;
the bus-error exceptions raised in the management core of each die (R62); whether TEST_MODE was sampled high (R553); the download window of
recovery mode by byte (R538). -/
structure ServiceSt where
  porLow      : Bool
  testMode    : Bool
  browned     : Bool
  pllLocked   : Bool
  fwRunning   : Bool
  coreRun     : Bool
  recovery    : Bool
  wdRunning   : Bool
  wdStart     : Nat
  perst       : Bool
  answerFrom  : Nat
  heartbeat   : Nat
  blkEpoch    : Sparse Nat
  rsvEpoch    : Sparse Nat
  remoteEpoch : Sparse Nat
  mgmtEpoch   : Sparse Nat
  bootCfg     : Option (List Byte)
  bcfgJob     : Option (List Byte)
  trims       : Sparse Word
  handover    : Bool
  dpPaused    : Bool
  warned      : Nat
  crited      : Nat
  busErrs     : Sparse Nat
  window      : Sparse Byte
  deriving DecidableEq, Repr

/-- What the running firmware says of itself (R520, R530, R532): interop level, security version,
the vendor libraries it supports, the peers it works with. -/
structure FwInfo where
  interop   : Nat
  secVer    : Nat
  libMin    : Nat
  libMax    : Nat
  peerMin   : Nat
  peerMax   : Nat
  deriving DecidableEq, Repr

/-- Who asked for the staged image to be checked and written (R529, R539, R540): a command, the download window, a frame on the
management port with its sender's address. -/
inductive FwAsk where
  | cmd (c : Cmd)
  | window
  | mgmt (src : Nat)
  deriving DecidableEq, Repr

/-- A check and write of the staged image (R529, R539): 0 checking, 1 failed and answered at `due`, 2 writing; the bank. -/
structure FwJob where
  ask   : FwAsk
  stage : Nat
  due   : Nat
  bank  : Nat
  deriving DecidableEq, Repr

/-- A hand-over to another bank (R534 to R536): the command, the bank, whether it is a revert, the elapsed instant of the boundary. -/
structure FwHand where
  cmd    : Option Cmd
  bank   : Nat
  revert : Bool
  began  : Nat
  deriving DecidableEq, Repr

/-- A fuse operation in progress (R518, R519): 0 anti-rollback, 1 key slot, 2 revocation; the slot or counter value; the hash; the register
it was asked for at. -/
structure FuseOp where
  kind  : Nat
  value : Nat
  hash  : List Byte
  addr  : Nat
  deriving DecidableEq, Repr

/-- The boot flash as far as firmware uses it (R515, R516, R526, R530): the images in banks A and B, their journaled states, the bank to
boot; the staged crumbs by index and what staging is bound to (image_id, count); the write in progress, the hand-over, the fuse
operation; punted crumbs that wait (R534), the second and number of crumbs taken in it (R528). -/
structure FlashSt where
  banks   : Sparse (List Byte)
  states  : Sparse Nat
  boot    : Nat
  crumbs  : Sparse (List Byte)
  binding : Option (List Byte × Nat)
  job     : Option FwJob
  hand    : Option FwHand
  fuse    : Option FuseOp
  punts   : List (List Byte)
  rate    : Nat × Nat
  deriving DecidableEq, Repr


/-- What the device shows the outside world (notes/assumptions/4.md): MSI-X messages, writes into host memory, completed
and aborted host reads, data for other devices, frames and PFC frames sent on line ports, cells and lane markers sent
on fabric links, replies on the management port, LED frames. -/
inductive Output where
  | msix (fn vec : Nat)
  | dma (fn addr : Nat) (data : List Byte)
  | read (fn value : Nat)
  | abort (fn : Nat)
  | remoteData (device id addr : Nat) (data : List Byte)
  | frame (port : Nat) (bytes : List Byte)
  | cell (link : Nat) (bytes : List Byte)
  | pfc (port priority quanta : Nat)
  | mgmt (dest : Nat) (bytes : List Byte)
  | led (bits : Nat)
  deriving DecidableEq, Repr


/-- A Recipe load in progress (R72, R73, R77): the slot, the store entry to write, the command (none for autostart and
for loads firmware started), how far it has come: 0 fetching, 1 failed authentication and waits until `due`,
2 checked and becoming resident; and the address in host memory that it reads from and the length the command gave (R76), 0 for a
load from the store. -/
structure LoadJob where
  slot  : Nat
  store : Option Nat
  cmd   : Option Cmd
  stage : Nat
  due   : Nat
  image : Option Image
  addr  : Nat
  len   : Nat
  deriving DecidableEq, Repr

/-- Recipe state beyond the registers (R66 to R92): the verified images of slots A and B (the protected copy of R75), the
loads in progress, the Recipe store, the background flash writes, the slots whose activation has
reserved capacity (R81), and the last two activations, newest first, as turn and slot (R84, R88). -/
structure RecipeSt where
  slotA    : Option Image
  slotB    : Option Image
  loads    : List LoadJob
  store    : Sparse Image
  writing  : Sparse Image
  reserved : List Nat
  acts     : List (Nat × Nat)
  deriving DecidableEq, Repr

/-- Who sees an entry or a slot (R132, R145): always, old only, new only. -/
inductive Vis where
  | always | old | new
  deriving DecidableEq, Repr

/-- A slot of a bucket, or a route in general (R124). `next` is the result in the new view where a MODIFY is staged; `pos` is which of
the bucket's 32 slots it is. -/
structure ASlot where
  vis    : Vis
  len    : Nat
  prefix_ : Nat
  result : Nat
  next   : Option Nat
  pos    : Nat
  deriving DecidableEq, Repr

/-- An associative entry of a prefix table (R119 to R125): vrf, length, prefix; whether it is a head; its own route's
result in the current view and in the new view (none: no route); its visibility; a head's bucket and its first block; the entry's table
position (R119). -/
structure AEnt where
  vrf    : Nat
  len    : Nat
  prefix_ : Nat
  vis    : Vis
  cur    : Option Nat
  next   : Option Nat
  head   : Bool
  bucket : List ASlot
  block  : Nat
  pos    : Nat
  deriving DecidableEq, Repr

/-- A rule of a ternary table (R134), in table order, with its table position. -/
structure ARule where
  key    : Nat
  mask   : Nat
  prio   : Nat
  vis    : Vis
  result : Nat
  next   : Option Nat
  pos    : Nat
  deriving DecidableEq, Repr

/-- An associative table in use: the slots that declare it (bit 0 A, bit 1 B), its declaration, its entries in table
order, the commit turn of its open overlap (R132), and the handle prepared on it (R133). -/
structure AsmTable where
  slots    : Nat
  decl     : TableDecl
  ents     : List AEnt
  rules    : List ARule
  overlap  : Option Nat
  prepared : Option Nat
  deriving DecidableEq, Repr

/-- An order key (R205): arrival stamp, port, arrival sequence, stage, intent. A table write of a commit turn stands at
the boundary's instant, before every packet. -/
structure OrderKey where
  stamp : Nat
  port  : Nat
  seq   : Nat
  stage : Nat
  num   : Nat
  deriving DecidableEq, Repr

/-- A slot of an exact-match table (R142, R145): the entry's bits, state 1 always, 2 old only, 3 new only, 4 learn
pending, 5 learn retiring, the static bit, pub, stamp, and for a learned entry the learning packet's tag and its learn's place in
arrival order (R154). -/
structure ECell where
  bits   : Nat
  state  : Nat
  static : Bool
  pub    : Nat
  stamp  : Nat
  tag    : Nat
  order  : OrderKey
  deriving DecidableEq, Repr

/-- A bucket lock (R163): copy and bucket, owner, the elapsed instant of the lock, the staging copy in window layout,
and the boundary turn a commit was scheduled for. -/
structure ELock where
  copy    : Nat
  bucket  : Nat
  owner   : Nat
  start   : Nat
  staging : List Byte
  commit  : Option Nat
  deriving DecidableEq, Repr

/-- A running FLUSH_PORT (R161), with the host address of its result. -/
structure EFlush where
  port   : Nat
  dest   : Nat
  incl   : Bool
  turn   : Nat
  cmd    : Cmd
  deriving DecidableEq, Repr

/-- An iteration context (R160): table, copy, the location it continues at, the keys relocated behind its cursor and not
yet returned, the keys to suppress, whether a list overflowed, and the elapsed instant of its last use. -/
structure IterCtx where
  table    : Nat
  copy     : Nat
  cursor   : Nat
  late     : List Nat
  seen     : List Nat
  overflow : Bool
  used     : Nat
  deriving DecidableEq, Repr

/-- A bucket as it stood before a staging copy replaced it at a boundary (R163): copy, bucket, the turn of the boundary, its cells
before. Packets tagged before that turn still read them. -/
structure PastBucket where
  copy   : Nat
  bucket : Nat
  turn   : Nat
  cells  : Sparse ECell
  deriving DecidableEq, Repr

/-- An exact-match table in use. Cells are keyed by copy x 2^40 + bucket x 4 + slot, the stash as buckets nb to nb + 31; `base` is the byte
of the HBM table partition at which an HBM table's buckets begin (R267), `bad` the cells in table SRAM with an uncorrectable word (R167);
`ages` holds the writes of EXM_AGE_t as (turn, limit + 256 x en), newest first (R155, R156). -/
structure ExmTable where
  slots    : Nat
  decl     : TableDecl
  cells    : Sparse ECell
  overlap  : Option Nat
  prepared : Option Nat
  locks    : List ELock
  lockSeq  : Sparse Nat
  flushes  : List EFlush
  past     : List PastBucket
  base     : Nat
  bad      : List Nat
  deriving DecidableEq, Repr

/-- A learn committed and waiting for its engine group (R152): table index, pipeline copy, entry bits, the packet's tag
and the intent's place in arrival order. -/
structure Learn where
  table : Nat
  copy  : Nat
  bits  : Nat
  tag   : Nat
  order : OrderKey
  deriving DecidableEq, Repr

/-- A shadow compare in progress (R166): the first bucket and how many. -/
structure CmpJob where
  fn     : Nat
  table  : Nat
  copy   : Nat
  static : Bool
  first  : Nat
  count  : Nat
  deriving DecidableEq, Repr

/-- Tables of the FD (R116 to R168). `upsets` holds the bits of the ASM's memories that soft errors have flipped, by `upsetKey` (R136 to
R139): a word not listed stands as it was written. `asm` and `exm` are keyed by the register index t of R78. `ageTurns` counts the turn boundaries
that have passed (R40); `ageMarks` holds, newest first, the turn and that count wherever the turn number did not move by one. -/
structure TablesSt where
  asm      : Sparse AsmTable
  exm      : Sparse ExmTable
  ages     : Sparse (List (Nat × Nat))
  learns   : List Learn
  learnFifo : List (List Byte)
  learnSeq : Nat
  iters    : Sparse IterCtx
  compare  : Option CmpJob
  ageTurns : Nat
  ageMarks : List (Nat × Nat)
  upsets   : Sparse Nat
  deriving DecidableEq, Repr

/-- A stateful array in use (R202): the slots that declare it, its declaration, its committed values (an entry not listed
is 0), the entries that read uncorrectable with the turn in which each was last counted (R315). -/
structure ArrInst where
  slots : Nat
  decl  : ArrayDecl
  vals  : Sparse Nat
  poison : Sparse Nat
  deriving DecidableEq, Repr

/-- An intent in a chain (R206): the array instance and index, its place in arrival order, its transaction number, what it
does and with what, its elapsed-count time (R349), the input colour of a meter, the result it returned, and whether its
transaction has committed. A write of an update transaction stands in the chain as op 7 with the entry's new value (R205). -/
structure Intent where
  arr       : Nat
  index     : Nat
  key       : OrderKey
  txn       : Nat
  op        : Nat
  operand   : Nat
  len       : Option Nat
  time      : Nat
  colour    : Nat
  result    : Nat
  committed : Bool
  deriving DecidableEq, Repr

/-- An intent on its way to a state unit, or waiting there for chain room (R204, R213): the packet, where its result goes
and the elapsed instant the wait began. -/
structure IntentMsg where
  pkt     : Nat
  egress  : Bool
  intent  : Intent
  res     : Option (Nat × Nat × Nat)
  waiting : Option Nat
  deriving DecidableEq, Repr

/-- The transaction state of the FD (R202 to R220): arrays by instance number, chains, intents on their way, LEARN
intents held by their transactions (transaction, learn), the transaction numbers in use by pipeline x 16384 + index, and the
meter profiles with the stamps from which they are in force, newest first (R348). -/
structure TxfSt where
  arrays  : Sparse ArrInst
  chain   : List Intent
  msgs    : List IntentMsg
  learns  : List (Nat × Learn)
  numbers : List Nat
  profiles : Sparse (List (Nat × List Byte))
  deriving DecidableEq, Repr

/-- A staged write of an update transaction (R223). -/
inductive Staged where
  | asm (slot op table vrf len key mask prio result : Nat)
  | exm (slot op table bits : Nat)
  | arr (slot op array index value : Nat)
  | profile (index : Nat) (rec : List Byte)
  | td (table index : Nat) (rec : List Byte)
  deriving DecidableEq, Repr

/-- An update transaction beyond TXT_TXN_h (R221 to R228): its staged writes in order, the command that runs on it, and what
verification goes by (R226): 0 not verified, 4 a named slot has lost its contents, 7 verified. -/
structure UpdTxn where
  writes : List Staged
  cmd    : Option Cmd
  failed : Nat
  deriving DecidableEq, Repr

/-- A header instance in a packet's stack: type, offset, length, and whether its fields were mapped. -/
structure HdrInst where
  htype : Nat
  off   : Nat
  len   : Nat
  deriving DecidableEq, Repr

/-- A scanner result of one set (R106). -/
structure ScanRes where
  hit   : Bool
  index : Nat
  off   : Nat
  count : Nat
  deriving DecidableEq, Repr

/-- A scan in progress or ended (R103 to R107): the sets requested and UP, region, next window start, the sets that have
stopped, results by set, the elapsed instant of the first shift and the scanner timeout in force then, whether the engine
stalls, whether it has read bytes marked poisoned (R113). -/
structure Scan where
  sets    : Nat
  start   : Nat
  stop    : Nat
  at_     : Nat
  stopped : Nat
  res     : List ScanRes
  began   : Nat
  limit   : Nat
  stalled : Bool
  bad     : Bool
  deriving DecidableEq, Repr

/-- A lookup of a packet in a stage: the binding, the key, and its answer once it has returned: hit, data, count, poison. -/
structure Lookup where
  binding : Nat
  key     : Nat
  done    : Bool
  hit     : Bool
  data    : Nat
  count   : Nat
  poison  : Bool
  deriving DecidableEq, Repr

/-- Where a packet stands on the FD. -/
inductive PktAt where
  | fifo | parsing | stalled | holdWait | scanning | holdDone
  | stageWait (k : Nat) | lookup (k : Nat) | action (k : Nat)
  | leaving | eopHold | verdict | txQueue | diceHold
  deriving DecidableEq, Repr

/-- A packet on the FD, in its ingress section (R30 steps 1 to 4) or, with `egress`, in its egress section and MAC queue
(steps 11 and 12). `bytes` is the whole packet without FCS, of which `arrived` have come from the line and `staged` body
bytes stand in the TD; `elapsed` is the elapsed count taken with the stamp (R349), `order` its place among the packets of its section;
`slots` lists the stages in which it executed a slot that is not accounted yet (R480); `bodyBad` says that bytes of it in the TD carry the
poison mark (R19); `eop` is 0 when no end-of-packet status is awaited, 1 pending, 2 good, 3 bad (R404). -/
structure Packet where
  id       : Nat
  egress   : Bool
  port     : Nat
  pipe     : Nat
  bytes    : List Byte
  arrived  : Nat
  staged   : Nat
  eop      : Nat
  stamp    : Nat
  tag      : Nat
  seq      : Nat
  version  : Nat
  inPort   : Nat
  place    : PktAt
  hv       : List Byte
  stack    : List HdrInst
  payload  : Nat
  emit     : Nat
  profile  : Nat
  scan     : Option Scan
  lookups  : List Lookup
  keyNext  : Nat
  skipTo   : Option Nat
  drop     : Option Nat
  hardDrop : Bool
  results  : List (Nat × Nat × Nat × Nat)
  txn      : Option Nat
  cls      : Option Nat
  poison   : Bool
  copyOf   : Option Nat
  begun    : Nat
  slots    : List Nat
  elapsed  : Nat
  order    : Nat
  bodyBad  : Bool
  ucode    : Nat
  since    : Nat
  deriving DecidableEq, Repr

/-- The packets of the FD and what the FD counts beside them (R93 to R115, R169 to R201): the arrival sequence of each
port, the writes of PRS_PORT_START_p and the lifecycle of each pattern set as (turn, value) newest first, the words marked
bad in control stores (pipeline x 2^20 + bank x 2^18 + stage x 4096 + word; from 2^24 on for microcode words), the words of the pending
machine-check log entries by entry (pipeline x 8 + i), the pipelines whose lanes wait for their return (R29), the bits of stored words
that soft errors have flipped since they were written (bit i of the word and its parity, R191), the words whose reload a patrol finding
asked for (R194), and which of the two copies of the microcode is active (R200). -/
structure FdSt where
  pkts     : List Packet
  nextId   : Nat
  seqs     : Sparse Nat
  egrSeq   : Sparse Nat
  starts   : Sparse (List (Nat × Nat))
  sets     : Sparse (List (Nat × Nat))
  badWords : List Nat
  mcLog    : Sparse Nat
  returning : List Nat
  replay   : List (Nat × List Byte)
  replayLast : Sparse Nat
  flips    : Sparse Nat
  patrolled : List Nat
  ucode    : Nat
  deriving DecidableEq, Repr


/-- A statistics counter (R465): packets and bytes of 64 bits and its sticky status. -/
structure Ctr where
  pkts   : Nat
  bytes  : Nat
  wrapP  : Bool
  wrapB  : Bool
  poison : Bool
  deriving DecidableEq, Repr

/-- A stateful array in a snapshot (R479): its instance and number, its entries, the bytes an entry takes there. -/
structure SnapArr where
  inst  : Nat
  num   : Nat
  size  : Nat
  bytes : Nat
  deriving DecidableEq, Repr

/-- A snapshot buffer in use (R477 to R479): the command, turn N, what it captures, where it goes; stage 0 reserved, 1 open,
2 final; the elapsed instant of its boundary, the window's length in ns, the captured counters and array entries, and
whether CNT_LATE_ATTR rose during the window; the arrays of its sections as they stood at acceptance, and the bytes of the PMU section
as the freeze left them. -/
structure Snap where
  cmd     : Cmd
  turn    : Nat
  mask    : Nat
  pmu     : Bool
  arrays  : Bool
  arrMask : Nat
  dest    : Nat
  len     : Nat
  stage   : Nat
  opened  : Nat
  window  : Nat
  vals    : Sparse Ctr
  arrs    : Sparse (Sparse Nat)
  late    : Bool
  shapes  : List SnapArr
  pmuVals : List Byte
  deriving DecidableEq, Repr

/-- Counters, snapshots and the PMU (R465 to R486): counters by home index (the order of R468's homes), the two snapshot
buffers, the samples outstanding (counter, pipeline, section), the sample records waiting for the ring and their number,
and the fifth parts of a CCLK not yet counted. -/
structure CntSt where
  vals    : Sparse Ctr
  snaps   : Sparse Snap
  samples : List (Nat × Nat × Bool)
  recs    : List (List Byte)
  recSeq  : Nat
  cycRem  : Nat
  deriving DecidableEq, Repr


/-- The copies of a packet that admission decides (R252, R259): the primary copy, a mirror copy to a session, the punt copy,
a drop-mirror copy to a session with the reason of the drop. -/
inductive CopyKind where
  | primary
  | mirror (session : Nat)
  | punt
  | dropMirror (session reason : Nat)
  deriving DecidableEq, Repr

/-- A packet's descriptor on its way from the FD to the TD (R185, R216, R249, R253): the FD's packet, its bytes as the
deparser left them, ingress port, stamp and tag of arrival, version bit, the 16 carried bytes, the forwarding record, the
Recipe's punt destination, whether the FD waits for a verdict (R217), the copies still to be decided, in their order (R252,
R100), the poison mark of the bytes, the elapsed instant of line arrival (R275), whether the descriptor's unit arrived
poisoned (R19), and whether the bridge has delivered it (R17). -/
structure Desc where
  pkt     : Nat
  bytes   : List Byte
  port    : Nat
  stamp   : Nat
  tag     : Nat
  version : Nat
  carried : Nat
  fwd     : Nat
  punt    : Nat
  waits   : Bool
  todo    : List CopyKind
  poison  : Bool
  elapsed : Nat
  bad     : Bool
  taken   : Bool
  deriving DecidableEq, Repr

/-- A verdict on its way to the FD (R217): the packet, whether its primary copy was admitted, the reason of a refusal, the elapsed
instant it was sent, and whether it arrives poisoned (R20). -/
structure Verdict where
  pkt      : Nat
  admitted : Bool
  reason   : Nat
  sent     : Nat
  bad      : Bool
  deriving DecidableEq, Repr

/-- What crosses the die bridge between the packet paths (R17, R30): descriptors not decided yet and verdicts, each in the order in
which the bridge accepted them, and discard notices for staged bodies; the descriptors and verdicts a Dice unit holds back; by lane
group (0 to 11 FD to TD, 12 to 23 TD to FD) the retries of the unit under way and what that unit carries; the groups with a replay
requested, and those in a spare switch (R18, R21). -/
structure BridgeSt where
  descs    : List Desc
  verdicts : List Verdict
  notices  : List Nat
  held     : List Desc
  retry    : Sparse Nat
  replay   : List Nat
  switching : List Nat
  heldV    : List Verdict
  under    : Sparse BrgLoad
  deriving DecidableEq, Repr


/-- An overhead layer of the OTN (R415 to R417): SM or PM of a slice, PM of a client ODUflex: the BIP-8 computed over the OPU of the
last two frames, the BEI (or BIAE) and BDI that the next frame sent carries, the trail trace in progress by position, the last whole one
and how often it came, the accepted one; the last payload type and how often it came, the accepted one; whether the ODU shows dAIS, dOCI
or dLCK. -/
structure OtnLayer where
  bips    : List Nat
  beiOut  : Nat
  bdiOut  : Bool
  trace   : Sparse Nat
  last    : List Nat
  same    : Nat
  trail   : Option (List Nat)
  pt      : Nat
  ptSame  : Nat
  label   : Option Nat
  odu     : Bool
  deriving DecidableEq, Repr

/-- The alignment of an OTUC slice (R414): bad and good FAS in a row, the multiframe number expected, bad and good MFAS in a row; the
elapsed instants at which OOF, OOM and the skew last changed; whether the skew exceeds its limit. -/
structure OtnSlice where
  badFas  : Nat
  goodFas : Nat
  mfas    : Nat
  badMf   : Nat
  goodMf  : Nat
  oofAt   : Nat
  oomAt   : Nat
  skewAt  : Nat
  skew    : Bool
  deriving DecidableEq, Repr

/-- Justification control of an ODU (R418), by its first slot index: the Cm applied (none: nominal), bad and good periods in a
row, whether it is replaced by ODU-AIS. -/
structure GmpSt where
  cm      : Option Nat
  bad     : Nat
  good    : Nat
  ais     : Bool
  deriving DecidableEq, Repr

/-- The line interface beyond its registers (R402 to R424): the PFC accounts by port x 8 + priority and what each packet
charged (account, bytes); expiry of pause timers and next repeats by port x 8 + priority (elapsed); the timestamp FIFO of
each port (tag, stamp in ns, fraction); slices by slice instance, overhead layers (SM: instance, PM: 256 + instance, client PM: 512 +
client port), justification by slot index, 8,192 on for the transmit direction; OTN ports that have not changed page in a swap; the elapsed
instant of each port's last packet (R556). -/
structure LifSt where
  accounts : Sparse Nat
  charges  : Sparse (Nat × Nat)
  pauses   : Sparse Nat
  repeats  : Sparse Nat
  tsFifo   : Sparse (List (Nat × Nat × Nat))
  slices   : Sparse OtnSlice
  layers   : Sparse OtnLayer
  gmp      : Sparse GmpSt
  swapping : List Nat
  seen     : Sparse Nat
  deriving DecidableEq, Repr

/-- A copy of a packet on the TD (R249, R274): the stored packet it shares while it is on-die, its owner name, its queue (a
VOQ, or 524,288 + an egress queue), its stored bytes, carried record, ingress port, arrival stamp and turn tag, version
bit, age base and poison mark; whether its tier lost it (R276, R288); where its descriptor begins in its part's tile
stream; and the packet whose bytes it holds in a PFC account (R407). -/
structure Copy where
  stored  : Option Nat
  name    : Nat
  queue   : Nat
  bytes   : List Byte
  carried : Nat
  port    : Nat
  stamp   : Nat
  tag     : Nat
  version : Nat
  ageBase : Nat
  poison  : Bool
  lost    : Option Nat
  at_     : Nat
  acct    : Option Nat
  deriving DecidableEq, Repr

/-- A tile stream in the HBM buffer partition (R273, R281): its pages in order, the stream offset at which the first begins,
the next byte to be written, and the cell of its open tile; the bytes in the open tile, and for its side-band metadata the offset of the
first descriptor that begins in it and how many begin there. -/
structure Stream where
  pages : List Nat
  base  : Nat
  pos   : Nat
  cell  : Option Nat
  tail  : List Byte
  first : Option Nat
  begun : Nat
  deriving DecidableEq, Repr

/-- A reservoir page in use (R283): its port and index there, and whether it was declared lost (R288). -/
structure ResPage where
  port : Nat
  page : Nat
  lost : Bool
  deriving DecidableEq, Repr

/-- A VOQ or an egress queue (R256, R277 to R293, R334, R369): its parts, the tile streams of its HBM and reservoir parts,
the reservoir pages ahead of the staging pages and the stream offset of the first; spill mode; WRED average in 1/256 byte, the
elapsed instants at which it became empty and was last averaged; credit balance of a VOQ; lifecycle state, pend_up and flush;
the instant of its hold end and the largest hold limit of its most recent hold-over in seconds; the turn-count class of
the turn in progress (R352: 0 none, 1 credit, 2 paused, 3 shaped, 4 starved) whether a copy was dequeued in it, and the turn from whose tags on copies are accepted (R334); the tag of its last
enqueue, which says what spill profile governs it (R277). -/
structure Queue where
  ondie     : List Copy
  hbm       : List Copy
  hst       : Stream
  res       : List Copy
  rst       : Stream
  rpages    : List ResPage
  rbase     : Nat
  spill     : Bool
  avg       : Nat
  emptyAt   : Nat
  avgAt     : Nat
  balance   : Nat
  lc        : Nat
  pend      : Bool
  flush     : Bool
  holdEnd   : Option Nat
  holdLimit : Nat
  turnClass : Nat
  served    : Bool
  upFrom    : Nat
  profTag   : Nat
  deriving DecidableEq, Repr

/-- A node or queue of the egress hierarchy (R337 to R339, R344): the credits of its buckets in 2^-40 byte, its tags and increment remainders in each pass, its virtual times by band x 2 + pass, and whether it was
active and eligible in each pass at the last decision over it. -/
structure NodeSt where
  credC  : Int
  credP  : Int
  tagC   : Nat
  tagX   : Nat
  remC   : Nat
  remX   : Nat
  vt     : Sparse Nat
  active : Bool
  eligC  : Bool
  eligX  : Bool
  deriving DecidableEq, Repr

/-- A stored packet on-die (R238, R250): its cells in chain order, the owner names in use and the next to give, whether its cells
count in egress use. -/
structure Stored where
  id     : Nat
  cells  : List Nat
  owners : Nat
  names  : Nat
  egress : Bool
  deriving DecidableEq, Repr

/-- A body being staged (R241, R242): its packet, cells, whether the packet is marked, whether it has expired, whether all of
it has come, and the elapsed instant of its last byte. -/
structure Staging where
  pkt     : Nat
  cells   : List Nat
  marked  : Bool
  expired : Bool
  whole   : Bool
  last    : Nat
  deriving DecidableEq, Repr

/-- The pages of a reservoir port (R283 to R285): its pages in use, whether its lifecycle has been enabled since power-on. -/
structure ResPort where
  used    : List Nat
  enabled : Bool
  deriving DecidableEq, Repr

/-- The buffer, the queues and the tiers of the TD (R236 to R297, R327 to R354). TD tables are keyed by id x 2^21 + index, each
entry a history of (turn, record) newest first; cells in use by pointer (0 ingress use, 1 egress use); `wred` the generator of
each admission engine; `skips` the refusals since the last drop-mirror copy by reason; `audit` the cells recorded at the
boundary of a running audit, with what was reached (R248); nodes by level x 2^20 + index; `ports` the reservoir ports and `nextPort` the one that
gives the next page; `plans` the release rate each entry takes at its boundary (R291), `paid` the release credit of each entry in bytes x 2^16 and the elapsed instant it
stands for; `auto` the unreachable devices that wait for an automatic hold, `since` the elapsed instant from which a device
has been reachable again; `kept` the descriptors that refused releases have left in use, ingress (0) and egress (1) (R251); `prefetch` the
bytes of tiles staged for each scheduler engine (R270). -/
structure BufSt where
  tables   : Sparse (List (Nat × List Byte))
  cells    : Sparse Nat
  stored   : List Stored
  staging  : List Staging
  queues   : Sparse Queue
  nodes    : Sparse NodeSt
  wred     : Sparse Word
  skips    : Sparse Nat
  audit    : Option (List Nat)
  auditAsk : Bool
  pages    : List Nat
  ports    : Sparse ResPort
  nextPort : Nat
  plans    : Sparse Nat
  paid     : Sparse (Int × Nat)
  auto     : List Nat
  since    : Sparse Nat
  seq      : Nat
  rr       : Sparse Nat
  kept     : Sparse Nat
  prefetch : Sparse Nat
  deriving DecidableEq, Repr



/-- A diagnostic operation in progress (R323): the function, op (0 READ_RAW, 1 WRITE_RAW, 2 WRITE_ENCODED), memory kind, address,
unit, the segments to write, and the 1 KiB it moves: read from the memory, or fetched from the host buffer. -/
structure DiagOp where
  fn   : Nat
  op   : Nat
  kind : Nat
  addr : Nat
  unit : Nat
  mask : Nat
  data : List Byte
  deriving DecidableEq, Repr

/-- Memory integrity beyond the registers (R264, R298 to R324): `segs` the HBM segments of 72 bytes that have been written, by (stack x 128 +
ring index) x 2^23 + slot; the SECDED words the diagnostic window has written, by kind x 2^40 + unit x 2^32 + word (data, check bits), and
`flips` the bits of such words that soft errors have flipped, data below check bits; the diagnostic operation; patrol records waiting and their number; the turn of the last ERR event of each memory kind; retirements deferred
and migrations in order as (stack, rank) and (stack, rank, spare); the roles recorded in the journal (R312) by stack x 128 +
rank as role + 8 x ring index; the elapsed instant of each stack's last window end; the temperature band whose delay set
firmware has written. -/
structure MemSt where
  segs     : Sparse (List Byte)
  words    : Sparse (Nat × Nat)
  flips    : Sparse Nat
  diag     : Option DiagOp
  patrol   : List (List Byte)
  patSeq   : Nat
  ueTurn   : Sparse Nat
  deferred : List (Nat × Nat)
  migs     : List (Nat × Nat × Nat)
  journal  : Sparse Nat
  ceAt     : Sparse Nat
  bands    : Sparse Nat
  deriving DecidableEq, Repr

/-- A fabric cell (R359) without its credits and check codes: type code, poison, destination device or group, source, class,
sequence number, where the first prefix begins, payload; and the oldest turn tag of the copies with bytes in it (R87). -/
structure Cell where
  kind    : Nat
  poison  : Bool
  dest    : Nat
  src     : Nat
  tc      : Nat
  seq     : Nat
  pstart  : Option Nat
  payload : List Byte
  oldest  : Option Nat
  deriving DecidableEq, Repr

/-- A message of the control class waiting to be sent (R376, R379, R380): the destination device, sub-priority, cell type (2
CONTROL, 3 EXCHANGE) and payload. -/
structure CtlMsg where
  dest : Nat
  sub  : Nat
  kind : Nat
  body : List Byte
  deriving DecidableEq, Repr

/-- A fabric link beyond its registers (R356 to R360, R373, R378 to R384): markers found and missed in a row; whether a hello of the
same generation has been heard and whether the peer has acknowledged; whether it has been UP; the elapsed instants of the last
hello received and sent; link messages, control messages and data cells waiting; whether it is skipped for its backlog (R366); credits
returned since STARTING, due and counted by class; cells intact and sent towards the next 256; cells discarded since the last link
status and when that was sent; since when a degraded link has been below recover; when an isolated link became DOWN; the multicast
sequence number; the devices it reaches as a mask and when it was told; the slot in 50, the slots since control was served ahead,
whether the next data slot is a relayed cell's. -/
structure LinkSt where
  hits     : Nat
  misses   : Nat
  heard    : Bool
  acked    : Bool
  wasUp    : Bool
  lastHello : Nat
  sentHello : Nat
  msgs     : List (List Byte)
  ctl      : List CtlMsg
  queue    : List Cell
  skipped  : Bool
  dcrOut   : Nat
  dcrDue   : Nat
  dcrIn    : Nat
  ccrOut   : Nat
  ccrDue   : Nat
  ccrIn    : Nat
  good     : Nat
  sent     : Nat
  discards : Nat
  statusAt : Nat
  lowSince : Option Nat
  downAt   : Option Nat
  mseq     : Nat
  reach    : Nat
  reachAt  : Nat
  slot     : Nat
  sinceCtl : Nat
  relayed  : Bool
  inPeriod : Nat
  marks    : Nat
  deriving DecidableEq, Repr

/-- A copy in an outgoing stream: where it begins (none: before the bytes that are left) and ends there, its poison mark, class and turn tag. -/
structure OutMark where
  off    : Option Nat
  stop   : Nat
  poison : Bool
  tc     : Nat
  tag    : Nat
  deriving DecidableEq, Repr

/-- An outgoing data stream (R361 to R363): its next sequence number, the bytes in no cell yet, the copies they belong to,
and for a multicast stream the link it takes (R375). -/
structure OutStream where
  seq   : Nat
  bytes : List Byte
  marks : List OutMark
  link  : Nat
  deriving DecidableEq, Repr

/-- A received cell beyond the next expected one, or a number declared lost (R367, R368): 0 received, 1 lost, 2 lost to a VOID
cell; when it came; the pool cell it is written into. -/
structure RxCell where
  seq   : Nat
  fate  : Nat
  at_   : Nat
  cell  : Cell
  ptr   : Option Nat
  deriving DecidableEq, Repr

/-- An incoming stream (R367, R368): the next expected number; the cells beyond it; the stream bytes in order with their poison mark,
from the beginning of a copy; the copies complete and not passed on yet (prefix and bytes, poison, class); whether bytes are discarded up to the next prefix and whether the copy discarded has been counted; the
pool cells that hold those bytes with the bytes of each not taken yet; the class of the cell the copies lie in. -/
structure InStream where
  next    : Nat
  cells   : List RxCell
  buf     : List (Byte × Bool)
  ready   : List (List Byte × Bool × Nat)
  skip    : Bool
  counted : Bool
  ptrs    : List (Nat × Nat)
  tc      : Nat
  deriving DecidableEq, Repr

/-- The credit generator of an egress port (R371): what is made of the next unit in 10^-5 bit, the elapsed instant they are made up to, whether
it has stopped. -/
structure GenSt where
  made    : Nat
  upTo    : Nat
  stopped : Bool
  deriving DecidableEq, Repr

/-- A message received and not processed yet (R376): the link, the source device, its kind (exchange cells: 0x100), its payload, the
sequence number its cell bore. -/
structure InMsg where
  link : Nat
  src  : Nat
  kind : Nat
  body : List Byte
  seq  : Nat
  deriving DecidableEq, Repr

/-- A remote request outstanding at the source (R385 to R387): its id, the command, the device, op (0 read, 1 write, 2 command), the
number of registers, the first offset, the result address, the elapsed instant of issue and the
issuing function's write number then (R445); whether it is complete (a write, kept for late errors). -/
structure RemoteReq where
  id     : Nat
  cmd    : Cmd
  device : Nat
  op     : Nat
  count  : Nat
  offset : Nat
  result : Nat
  issued : Nat
  wseq   : Nat
  done   : Bool
  deriving DecidableEq, Repr

/-- A tag report waiting to be applied (R87), and the one in force: the oldest tag, the data-stream sequence number of the sender. -/
structure TagReport where
  oldest : Nat
  seq    : Nat
  deriving DecidableEq, Repr

/-- A Dice unit in its window (R392, R393): its generator and the units of traffic it holds back, each with the units still to pass. -/
structure DiceSt where
  rng  : Nat
  held : List (List Byte × Nat)
  deriving DecidableEq, Repr

/-- A known peer (R531): its interop level, the range it accepts, the elapsed instant of its last announcement. -/
structure PeerSt where
  level  : Nat
  least  : Nat
  most   : Nat
  heard  : Nat
  deriving DecidableEq, Repr

/-- The fabric interface (R355 to R397). Outgoing data streams are keyed by device, multicast ones by 2^16 + group; control sequence
numbers by device; incoming streams by source device (data), 512 + source (control), 2^16 + link x 512 + source (multicast numbers), 2^26 + group
x 512 + source (multicast bytes). `shares` holds the bytes each link has carried for a device, in parts of its weight, by device x 160 +
link; `indirect` by device the cells sent and those sent through a third device out of the last 1,024. Credit: demand by (port x 8 +
class) x 512 + source, and what was granted there and not yet received, in bytes; grants to send by device x 1,024 + port x 8 + class;
returns to send by VOQ; the source served last by port x 8 + class. Reachability: feature bits by device, the elapsed instant since
which a device is unreachable. Remote access: requests outstanding, the commands of other devices accepted and not answered yet (device, id, tag
of the descriptor), writes accepted for other devices (device, id, offset). -/
structure FabSt where
  links    : Sparse LinkSt
  outs     : Sparse OutStream
  ctlSeq   : Sparse Nat
  ins      : Sparse InStream
  outbox   : List CtlMsg
  inbox    : List InMsg
  relay    : Sparse (List Cell)
  shares   : Sparse Nat
  indirect : Sparse (Nat × Nat)
  demand   : Sparse Nat
  granted  : Sparse Nat
  grants   : Sparse Nat
  returns  : Sparse Nat
  served   : Sparse Nat
  gens     : Sparse GenSt
  feats    : Sparse Nat
  lostAt   : Sparse Nat
  exchAt   : Sparse Nat
  reports  : Sparse TagReport
  waiting  : Sparse TagReport
  remotes  : List RemoteReq
  nextReq  : Nat
  serving  : List (Nat × Nat × Nat)
  writes   : List (Nat × Nat × Nat)
  peers    : Sparse PeerSt
  levelAt  : Nat
  dice     : Sparse DiceSt
  nextCopy : Nat
  deriving DecidableEq, Repr

/-- The whole device. -/
structure State where
  pending : List Instr
  regs    : Sparse Word
  out     : List Output
  freeCtr : Nat
  time    : TimeSt
  clk     : ClockSt
  sched   : List SlotEv
  host    : HostSt
  svc     : ServiceSt
  fw      : FwInfo
  flash   : FlashSt
  recipe  : RecipeSt
  tab     : TablesSt
  txf     : TxfSt
  txns    : Sparse UpdTxn
  fd      : FdSt
  cnt     : CntSt
  brg     : BridgeSt
  buf     : BufSt
  lif     : LifSt
  mem     : MemSt
  fab     : FabSt
  deriving DecidableEq, Repr

/-- The device right after a power-on reset. -/
def State.reset : State where
  pending := []
  regs := []
  out := []
  freeCtr := 0
  time := { sysNs := 0, frac := 0, elapsed := 0, turn := 0, tdNs := 0, slew := 0, slewLeft := 0, todArmed := false,
            goodCount := 0, badCount := 0, lastMeas := 0, lastGood := 0 }
  clk := { good := [], offsets := [], kept := 0, rclkHiZ := [], coreSrc := 0, left := none }
  sched := []
  host := { rings := [], inFlight := [], cplQueue := [], refusing := [], latches := [], staged := [], highRun := [],
            fences := [], evPend := [], evSeq := [], vecOpen := [], vecPend := [],
            ringFn := [], orphans := [] }
  svc := { porLow := false, testMode := false, browned := false, pllLocked := false, fwRunning := false, coreRun := false, recovery := false,
           wdRunning := false, wdStart := 0,
           perst := false, answerFrom := 0, heartbeat := 0, blkEpoch := [], rsvEpoch := [], remoteEpoch := [],
           mgmtEpoch := [], bootCfg := none, bcfgJob := none, trims := [],
           handover := false, dpPaused := false, warned := 0, crited := 0, busErrs := [], window := [] }
  fw := { interop := 0, secVer := 0, libMin := 0, libMax := 0, peerMin := 0, peerMax := 0 }
  flash := { banks := [], states := [], boot := 0, crumbs := [], binding := none, job := none, hand := none, fuse := none,
             punts := [], rate := (0, 0) }
  recipe := { slotA := none, slotB := none, loads := [], store := [], writing := [], reserved := [], acts := [] }
  tab := { asm := [], exm := [], ages := [], learns := [], learnFifo := [], learnSeq := 0, iters := [], compare := none,
           ageTurns := 0, ageMarks := [], upsets := [] }
  txf := { arrays := [], chain := [], msgs := [], learns := [], numbers := [], profiles := [] }
  txns := []
  fd := { pkts := [], nextId := 0, seqs := [], egrSeq := [], starts := [], sets := [], badWords := [], mcLog := [],
          returning := [], replay := [], replayLast := [], flips := [], patrolled := [], ucode := 0 }
  cnt := { vals := [], snaps := [], samples := [], recs := [], recSeq := 0, cycRem := 0 }
  brg := { descs := [], verdicts := [], notices := [], held := [], retry := [], replay := [], switching := [],
           heldV := [], under := [] }
  buf := { tables := [], cells := [], stored := [], staging := [], queues := [], nodes := [], wred := [], skips := [],
           audit := none, auditAsk := false, pages := [], ports := [], nextPort := 0, plans := [], paid := [], auto := [],
           since := [], seq := 0, rr := [], kept := [], prefetch := [] }
  lif := { accounts := [], charges := [], pauses := [], repeats := [], tsFifo := [], slices := [], layers := [], gmp := [],
           swapping := [], seen := [] }
  mem := { segs := [], words := [], flips := [], diag := none, patrol := [], patSeq := 0, ueTurn := [], deferred := [], migs := [],
           journal := [], ceAt := [], bands := [] }
  fab := { links := [], outs := [], ctlSeq := [], ins := [], outbox := [], inbox := [], relay := [], shares := [],
           indirect := [], demand := [], granted := [], grants := [], returns := [], served := [], gens := [], feats := [],
           lostAt := [], exchAt := [], reports := [], waiting := [], remotes := [], nextReq := 0, serving := [], writes := [],
           peers := [], levelAt := 0, dice := [], nextCopy := 0 }

end Sys2Proof.Machine
end

