-- ==== Sys2Proof/Machine/Ops.lean ====
section
/-!
DEFINITION. Machine/Ops.lean: the operations every family shares: registers and their fields, counters, outputs, events
and interrupts (R460 to R462), the late-error log (R441), the security log (R541), completions (R454), the checks of a
host access (R429, R433, R437, R438, R62), the lifecycle rule (R503 to R505), and the service stage (R493, R495).
-/

namespace Sys2Proof.Machine

/-! ### Registers -/

/-- The value of the register at a byte address of BAR0 (R431). -/
def State.rdWord (s : State) (a : Nat) : Word := sread regReset s.regs a

/-- The state with a register's value set. -/
def State.wrWord (s : State) (a : Nat) (w : Word) : State := { s with regs := swrite regReset s.regs a w }

/-- A register field. -/
def State.rd (s : State) (f : Fld) : Nat := wordGet (s.rdWord f.addr) f.lsb f.width

/-- The state with a register field set; the value is taken modulo the field's width. -/
def State.wr (s : State) (f : Fld) (v : Nat) : State := s.wrWord f.addr (wordPut (s.rdWord f.addr) f.lsb f.width v)

/-- A one-bit field as a Boolean. -/
def State.on (s : State) (f : Fld) : Bool := s.rd f == 1

/-- A one-bit field set from a Boolean. -/
def State.wrBit (s : State) (f : Fld) (b : Bool) : State := s.wr f (bit01 b)

/-- A saturating counter field increased. -/
def State.count (s : State) (f : Fld) (n : Nat) : State := s.wr f (satAdd f.width (s.rd f) n)

/-- A saturating counter field increased by one. -/
def State.bump (s : State) (f : Fld) : State := s.count f 1

/-- A field decreased, not below zero. -/
def State.less (s : State) (f : Fld) (n : Nat) : State := s.wr f (s.rd f - n)

/-- The 64-bit value of a pair of full-word fields (R434). -/
def State.rd64 (s : State) (lo hi : Fld) : Nat := s.rd lo + 2 ^ 32 * s.rd hi

/-- A pair of full-word fields set to a 64-bit value (R435). -/
def State.wr64 (s : State) (lo hi : Fld) (v : Nat) : State := (s.wr lo (v % 2 ^ 32)).wr hi (v / 2 ^ 32 % 2 ^ 32)

/-- Every register from byte address `a` to just below `b` back at its reset value, except the words a test keeps. -/
def State.resetRegs (s : State) (a b : Nat) (keep : Nat → Bool) : State :=
  { s with regs := s.regs.filter fun e => !(a ≤ e.1 % 0x10000000 && e.1 % 0x10000000 < b) || keep e.1 }

/-- A free value, and the state with the counter of free values advanced (notes/assumptions/3.md). -/
def State.free (s : State) : Nat × State := (Config.freeNat s.freeCtr, { s with freeCtr := s.freeCtr + 1 })

/-- The state with one more output. -/
def State.emit (s : State) (o : Output) : State := { s with out := s.out ++ [o] }

/-- The states of a list of operations run one after another. -/
def State.each {α : Type} (s : State) (l : List α) (f : α → State → State) : State := l.foldl (fun t x => f x t) s

/-- The state after an operation, when a condition holds. -/
def State.onlyIf (s : State) (c : Bool) (f : State → State) : State := if c then f s else s

/-! ### Interrupts, events and logs -/

/-- Whether a vector of a function is unmasked in the MSI-X table; vector 0 cannot be masked (R461). -/
def State.vecUnmasked (s : State) (fn v : Nat) : Bool := v == 0 || sread (fun _ => false) s.host.vecOpen (64 * fn + v)

/-- A vector of a function is raised: its message is sent, or its pending bit is set while it is masked (R460). -/
def State.raiseVec (s : State) (fn v : Nat) : State :=
  if s.vecUnmasked fn v then s.emit (.msix fn v)
  else { s with host := { s.host with vecPend := swrite (fun _ => false) s.host.vecPend (64 * fn + v) true } }

/-- One event record queued for a function's event ring, when delivery is enabled (R462); it is numbered when it is
written. -/
def State.queueEvent (s : State) (fn : Nat) (r : EvRec) : State :=
  if s.on (R.HAC_EVQ_CFG_en fn) then { s with host := { s.host with evPend := s.host.evPend ++ [(fn, r)] } } else s

/-- The severities of an event (R462). -/
def sevInfo : Nat := 0
def sevErr : Nat := 1
def sevCrit : Nat := 2

/-- The block bit of an address; GLB's where no block holds it. -/
def blockBit (a : Nat) : Nat := match blockOf (a % 0x10000000) with | some b => b.bit | none => 0

/-- An event of a severity on a die, reported by the register at `a` (R462): a record for each function (none for PF1
when it comes from the security engine), vector 0 for CRIT with the block's bit of HAC_CRIT_PEND (R461), vector 1 or 2
for ERR by die (R460), and the bits of GLB_INT_STATUS (R555, R565). -/
def State.eventOn (s : State) (sev die a : Nat) (security : Bool) : State :=
  let b := blockBit a
  let r : EvRec := { severity := sev, die := die, block := b, addr := a % 0x10000000, turn := s.time.turn,
                     value := (s.rdWord a).toNat, seq := 0 }
  let s := if sev = sevCrit then s.wr ⟨R.HAC_CRIT_PEND, b, 1⟩ 1 |>.wr R.GLB_INT_STATUS_crit 1 else s
  let s := if sev = sevErr then
      (if die = 0 then s.wr R.GLB_INT_STATUS_err_fd 1 else s.wr R.GLB_INT_STATUS_err_td 1) else s
  let s := s.queueEvent 0 r
  let s := if security then s else s.queueEvent 1 r
  let vec := if sev = sevCrit then some 0 else if sev = sevErr then some (1 + die) else none
  match vec with
  | some v =>
    let s := s.raiseVec 0 v
    if security then s else s.raiseVec 1 v
  | none => s

/-- An event of a severity on the die of the reporting register's block (R430). -/
def State.event (s : State) (sev a : Nat) : State := s.eventOn sev (if 16 ≤ blockBit a then 1 else 0) a false

/-- The late-error reasons of R442. -/
def leGated : Nat := 0x01
def leGateActive : Nat := 0x02
def leNarrowTrigger : Nat := 0x03
def leBadValue : Nat := 0x04
def leWrongState : Nat := 0x05
def leRefused : Nat := 0x06
def leTimeout : Nat := 0x07
def lePeerReset : Nat := 0x08
def lePoison : Nat := 0x09
def leBridgeError : Nat := 0x0A
def leLockHeld : Nat := 0x0B
def leLockLimit : Nat := 0x0C
def leLockExpired : Nat := 0x0D
def leInvalid : Nat := 0x0E
def lePageLocked : Nat := 0x0F
def leBuddyDown : Nat := 0x10
def leNoSpare : Nat := 0x11
def leFactoryWrite : Nat := 0x12
def leDoorbell : Nat := 0x13

/-- The number of the last posted write accepted from a function (R440). -/
def State.wseq (s : State) (fn : Nat) : Nat := s.rd (R.HAC_WSEQ_seq fn)

/-- An entry of the late-error log (R441): the sequence number `seq` of the access, the offset in its BAR, the reason,
whether it was a read, and the remote device at which it failed, if any. The log overwrites its oldest entry; vector 3
of the accessing function is raised. -/
def State.lateErrAs (s : State) (seq fn bar addr reason : Nat) (isRead : Bool) (remote : Option Nat) : State :=
  let i := s.rd R.HAC_LEL_CTRL_next
  let old := s.rd ⟨R.HAC_LEL i 1, 31, 1⟩
  let dev := match remote with | some d => 2 ^ 9 + 2 ^ 10 * (d % 512) | none => 0
  let s := s.wrWord (R.HAC_LEL i 0) (BitVec.ofNat 32 seq)
  let s := s.wrWord (R.HAC_LEL i 1) (BitVec.ofNat 32 (addr % 2 ^ 30 + 2 ^ 30 * (fn % 2) + 2 ^ 31))
  let s := s.wrWord (R.HAC_LEL i 2) (BitVec.ofNat 32 (reason % 256 + 2 ^ 8 * bit01 isRead + dev + 2 ^ 19 * (bar % 4)))
  let s := s.wrWord (R.HAC_LEL i 3) 0
  let s := s.wrWord (R.HAC_LEL i 4) (BitVec.ofNat 32 s.time.turn)
  let s := s.wrWord (R.HAC_LEL i 5) (BitVec.ofNat 32 (s.time.turn / 2 ^ 32))
  let s := if old = 1 then s.wr R.HAC_LEL_CTRL_wrapped 1 else s
  (s.wr R.HAC_LEL_CTRL_next ((i + 1) % 64)).raiseVec fn 3

/-- A late-error entry for the access a function has just made. -/
def State.lateErr (s : State) (fn bar addr reason : Nat) (isRead : Bool) : State :=
  s.lateErrAs (s.wseq fn) fn bar addr reason isRead none

/-- The security-log reasons of R541. -/
def secRight : Nat := 0x01
def secLocked : Nat := 0x02
def secWindow : Nat := 0x03
def secOwner : Nat := 0x04
def secRemote : Nat := 0x05
def secStructure : Nat := 0x10
def secDigest : Nat := 0x11
def secCustKey : Nat := 0x12
def secCustSig : Nat := 0x13
def secVendor : Nat := 0x14
def secGcm : Nat := 0x15
def secSerial : Nat := 0x16
def secFuse : Nat := 0x20

/-- An entry of the security log (R541): 256 entries, the oldest overwritten. -/
def State.secLog (s : State) (reason fn addr opcode : Nat) (remote : Option Nat) : State :=
  let i := s.rd R.FWS_SLOG_CTRL_next
  let old := s.rd (R.FWS_SLOG_w0_valid i)
  let s := s.wrWord (R.FWS_SLOG_w0 i) 0
  let s := s.wr (R.FWS_SLOG_w0_reason i) reason
  let s := s.wr (R.FWS_SLOG_w0_function i) fn
  let s := match remote with
    | some d => (s.wr (R.FWS_SLOG_w0_remote_valid i) 1).wr (R.FWS_SLOG_w0_remote_device i) d
    | none => s
  let s := s.wr (R.FWS_SLOG_w0_opcode i) opcode
  let s := s.wr (R.FWS_SLOG_w0_valid i) 1
  let s := s.wr (R.FWS_SLOG_w1_address i) addr
  let s := s.wr64 (R.FWS_SLOG_LO_turn_lo i) (R.FWS_SLOG_HI_turn_hi i) s.time.turn
  let s := if old = 1 then s.wr R.FWS_SLOG_CTRL_wrapped 1 else s
  s.wr R.FWS_SLOG_CTRL_next ((i + 1) % 256)

/-! ### Completions -/

/-- The status codes of R456. -/
def stDone : Nat := 0x00
def stAccepted : Nat := 0x01
def stBusyRetry : Nat := 0x02
def stRefused : Nat := 0x03
def stInvalid : Nat := 0x04
def stNotFound : Nat := 0x05
def stTableFull : Nat := 0x06
def stAborted : Nat := 0x07
def stPeerUnavailable : Nat := 0x08
def stLate : Nat := 0x09
def stTurnUnsync : Nat := 0x0A
def stVersionBusy : Nat := 0x0B
def stIncompatible : Nat := 0x0C
def stNotReady : Nat := 0x0D
def stNoResource : Nat := 0x0E
def stFailedPrepared : Nat := 0x0F

/-- The function a command is issued for. -/
def cmdFn (c : Cmd) : Nat := match c.src with | .ring f _ _ => f | .remote _ _ f => f | .firmware => 0

/-- The 16 bytes of a completion (R454). -/
def completionBytes (tag status : Nat) (phase final : Bool) (detail turn : Nat) : List Byte :=
  leBytes 2 tag ++ [BitVec.ofNat 8 status, BitVec.ofNat 8 (bit01 phase + 2 * bit01 final)] ++ leBytes 4 detail ++ leBytes 8 turn

/-- A message of the control class with its header (R376). -/
def ctlMessage (kind tag : Nat) (body : List Byte) : List Byte :=
  [BitVec.ofNat 8 kind, BitVec.ofNat 8 tag] ++ leBytes 2 body.length ++ body

/-- A control message put behind those that wait (R379). -/
def State.sendCtl (s : State) (dest sub : Nat) (body : List Byte) : State :=
  { s with fab := { s.fab with outbox := s.fab.outbox ++ [⟨dest, sub, 2, body⟩] } }

/-- A completion of a command goes to where the command came from: the completion queue of its ring (R454, R455), a
response to the requesting device with the command's first completion (R387), or nowhere for the device's own firmware; a command that ran
when its endpoint was reset is an orphan, whose completions are discarded and counted (R498). ACCEPTED is the one status that is
not final, and carries the turn at which the command fires. -/
def State.completeWith (s : State) (c : Cmd) (status detail : Nat) (turn : Option Nat) : State :=
  match c.src with
  | .ring f r t =>
    if s.host.orphans.contains (f, r, t) then
      let last := status != stAccepted
      let rest := if last then s.host.orphans.erase (f, r, t) else s.host.orphans
      let fl := s.host.inFlight.find? fun x => x.fn == f && x.ring == r && x.tag == t
      let fls := match last, fl with | true, some x => s.host.inFlight.erase x | _, _ => s.host.inFlight
      { s with host := { s.host with orphans := rest, inFlight := fls } }.bump R.GLB_LOST_CPL_count
    else
      { s with host := { s.host with
          cplQueue := s.host.cplQueue ++ [⟨f, r, t, status, detail, turn, status != stAccepted⟩] } }
  | .remote d i _ =>
    match s.fab.serving.find? fun x => x.1 == d && x.2.1 == i with
    | none => s
    | some x =>
      let s := { s with fab := { s.fab with serving := s.fab.serving.erase x } }
      s.sendCtl d 6 (ctlMessage 0x11 i (leBytes 4 i ++ [BitVec.ofNat 8 0, 0, 0, 0] ++
        completionBytes x.2.2 status false (status != stAccepted) detail (turn.getD s.time.turn)))
  | .firmware => s

/-- A final completion. -/
def State.complete (s : State) (c : Cmd) (status : Nat) : State := s.completeWith c status 0 none

/-- The ACCEPTED completion of a command that fires at a turn. -/
def State.accepted (s : State) (c : Cmd) (turn : Nat) : State := s.completeWith c stAccepted 0 (some turn)

/-- A command that is turned away with a status, when it was issued by a command. -/
def State.completeOpt (s : State) (c : Option Cmd) (status : Nat) : State :=
  match c with | some c => s.complete c status | none => s

/-- A command refused on security grounds: the security log keeps the reason; a PF0 command completes REFUSED at once
(R459), a PF1 command 5.000 us after its submission (R457). -/
def State.refuse (s : State) (c : Cmd) (reason addr opcode : Nat) : State :=
  let s := s.secLog reason (cmdFn c) addr opcode (match c.src with | .remote d _ _ => some d | _ => none)
  match c.src with
  | .ring 1 r t =>
    let sub := match s.host.inFlight.find? (fun x => x.fn == 1 && x.ring == r && x.tag == t) with
      | some x => x.submit | none => s.time.elapsed
    { s with host := { s.host with refusing := s.host.refusing ++ [⟨1, sub + 5000, some (r, t)⟩] } }
  | _ => s.complete c stRefused

/-- The effective calibration words of some items taken into use (R564). -/
def State.takeTrims (s : State) (items : List Nat) : State :=
  let trims := items.foldl (fun m k => swrite (fun i => regReset (R.FWS_CAL_EFF i)) m k (s.rdWord (R.FWS_CAL_EFF k))) s.svc.trims
  { s with svc := { s.svc with trims := trims } }

/-- The delay sets of an HBM stack in a temperature band (R272, R564): the effective calibration words, each byte with the band's adjustment,
saturating at 0 and 255. -/
def State.takeDelays (s : State) (stack band : Nat) : State :=
  let trims := (List.range 128).foldl (fun m j =>
    let k := 361 + 128 * stack + j
    let w := (s.rdWord (R.FWS_CAL_EFF k)).toNat
    let v := (List.range 4).foldl (fun n b =>
      n + (clampInt 0 255 ((bitsAt w (8 * b) 8 : Int) + (Config.bandAdjust stack band k b).toInt)).toNat * 2 ^ (8 * b)) 0
    swrite (fun i => regReset (R.FWS_CAL_EFF i)) m k (BitVec.ofNat 32 v)) s.svc.trims
  { s with svc := { s.svc with trims := trims } }

/-- Whether both SerDes references have failed: forwarding stops (R59). -/
def State.refsDead (s : State) : Bool := s.rd R.TBS_CLKMON_STATUS_fail % 4 == 3

/-! ### Host accesses -/


/-- Bytes written into the download window (R538, R539). -/
def State.fillWindow (s : State) (addr : Nat) (data : List Byte) : State :=
  let w := (data.zip (List.range data.length)).foldl (fun m e => swrite (fun _ => 0) m (addr + e.2) e.1) s.svc.window
  { s with svc := { s.svc with window := w } }

/-- Whether the device stands still: POR_N low or power lost (R551, R552), a rail sagging (R552), or a thermal trip (R561). -/
def State.stopped (s : State) : Bool := s.svc.porLow || s.svc.browned || s.on R.GLB_THERM_STATUS_trip

/-- Whether a TD block's registers are out of reach because the TD is in reset (R438), and the TD does nothing. -/
def State.tdDown (s : State) : Bool := s.on R.GLB_SERVICE_td_down || s.stopped

/-- Whether the TD forwards nothing: it is in reset, or both SerDes references have failed (R59). -/
def State.tdStill (s : State) : Bool := s.tdDown || s.refsDead

/-- Whether the TD's queue engines make no decisions: the TD forwards nothing, or they swap their microcode (R535). -/
def State.tdHalted (s : State) : Bool := s.tdStill || s.svc.dpPaused

/-- Whether the clock of a block runs (R61). -/
def State.clockRuns (s : State) (bit : Nat) : Bool := bitAt (s.rd R.GLB_CLKSTAT_running) bit

/-- Whether the endpoint answers a function: PERST# released, and 100 ms past its release (R427, R491); in recovery mode there is no PF1
(R538). -/
def State.answers (s : State) (fn : Nat) : Bool :=
  !s.stopped && !s.svc.perst && s.svc.answerFrom ≤ s.time.elapsed && !(fn == 1 && s.svc.recovery)

/-- The registers PF1 never reaches (R429, R461, R513, R543), for reads and writes. -/
def lockedAddr (a : Nat) : Bool :=
  let a := a % 0x10000000
  (0x200020 ≤ a && a < 0x200048) || (0x200100 ≤ a && a < 0x200200) || (0x301004 ≤ a && a < 0x301008) ||
  (0x30100C ≤ a && a < 0x301018) || (0x301100 ≤ a && a < 0x301230) || (0x302000 ≤ a && a < 0x304100) ||
  a == R.FWS_RCP_BOOT || (0x340030 ≤ a && a < 0x340038) || a == R.GLB_CLKEN || (0x3000800 ≤ a && a < 0x300081C) ||
  (0x3400000 ≤ a && a < 0x8000000) || (0xA800000 ≤ a && a < 0xAC00000) || (0x9800040 ≤ a && a < 0x9800080)

/-- The registers that only PF0 can write, beyond the locked ones (R461, R513, R543). -/
def pf0Only (a : Nat) : Bool :=
  let a := a % 0x10000000
  a == R.HAC_CRIT_PEND || a == R.GLB_RESET_CTRL || a == R.GLB_BLKRST || (0x305000 ≤ a && a < 0x305108)

/-- Why a PF1 access to a register is refused on security grounds, if it is (R429, R457). -/
def State.pf1Denied (s : State) (a : Nat) (isWrite : Bool) : Option Nat :=
  let b := blockBit a
  if b = 13 ∨ b = 26 then some secRight
  else if lockedAddr a || (isWrite && pf0Only a) then some secLocked
  else if bitAt (s.rd (if isWrite then R.HAC_PF1_BLK_WR_blocks else R.HAC_PF1_BLK_RD_blocks)) b then none
  else some secRight

/-- The address at which a register kept per function stands for the accessing function (R464). -/
def State.banked (_s : State) (fn a : Nat) : Nat :=
  if fn = 1 && ((0x200000 ≤ a && a < 0x200008) || (0x200400 ≤ a && a < 0x200480) || (0x200600 ≤ a && a < 0x200618))
  then a + 0x10000000 else a

/-- The next number of a function's posted writes: 1 first, wrapping from 0xFFFF_FFFF to 1 (R440). -/
def State.acceptWrite (s : State) (fn : Nat) : State :=
  s.wr (R.HAC_WSEQ_seq fn) (if s.wseq fn + 1 < 2 ^ 32 then s.wseq fn + 1 else 1)

/-- The bit of GLB_CLKEN that an access to the register at `a` in block `b` goes by: the TD scheduler's slot words are TD space (R54,
R65), which TGL's clock serves. -/
def accessBit (a b : Nat) : Nat :=
  let a := a % 0x10000000
  if R.TBS_SLOT_TD_w0 0 ≤ a && a < R.TBS_SLOT_TD_w0 64 then 16 else b

/-- The checks of a write to BAR0: the function's rights (R429, R457), the clock of the block (R62), the TD's reset (R438)
and the trigger rule (R433); a write that fails is dropped and logged, one that passes has the effect `k`. A write to
bytes of no block is ignored (R437). -/
def State.checkedWrite (s : State) (fn addr be : Nat) (trigger : Bool) (k : State → State) : State :=
  match blockOf addr with
  | none => s
  | some b =>
    match (if fn = 1 then s.pf1Denied addr true else none) with
    | some why => (s.secLog why fn addr 0 none).lateErr fn 0 addr leRefused false
    | none =>
      let bit := accessBit addr b.bit
      if 16 ≤ bit && s.tdDown then s.lateErr fn 0 addr lePeerReset false
      else if !s.clockRuns bit then s.lateErr fn 0 addr leGated false
      else if trigger && be != 15 then s.lateErr fn 0 addr leNarrowTrigger false
      else k s

/-- An access by the management core of a die to a register of a block with bit `bit` of GLB_CLKEN: with the block's clock standing it raises
a bus-error exception in that core (R62); what the core's program does then is not the spec's. -/
def State.coreAccess (s : State) (die bit : Nat) (k : State → State) : State :=
  if s.clockRuns bit then k s
  else { s with svc := { s.svc with busErrs := swrite (fun _ => 0) s.svc.busErrs die
                                      (sread (fun _ => 0) s.svc.busErrs die + 1) } }

/-- A posted write to BAR0: it is numbered (R440), then checked. -/
def State.hostWrite (s : State) (fn addr be : Nat) (trigger : Bool) (k : State → State) : State :=
  if s.answers fn then (s.acceptWrite fn).checkedWrite fn addr be trigger k else s

/-- A read of BAR0: refused for PF1 with zero data after 5.000 us (R457), aborted and logged while the TD is in reset or
the block's clock stands (R438, R62), otherwise answered by `k`. Bytes of no block read as zero (R437). -/
def State.hostRead (s : State) (fn addr : Nat) (k : State → State) : State :=
  if s.answers fn then
    match blockOf addr with
    | none => s.emit (.read fn 0)
    | some b =>
      match (if fn = 1 then s.pf1Denied addr false else none) with
      | some why =>
        let s := s.secLog why fn addr 0 none
        { s with host := { s.host with refusing := s.host.refusing ++ [⟨1, s.time.elapsed + 5000, none⟩] } }
      | none =>
        let bit := accessBit addr b.bit
        if 16 ≤ bit && s.tdDown then (s.lateErr fn 0 addr lePeerReset true).emit (.abort fn)
        else if !s.clockRuns bit then (s.lateErr fn 0 addr leGated true).emit (.abort fn)
        else k s
  else s

/-- The mask of the bytes that byte enables select (R431). -/
def beMask (be : Nat) : Word :=
  BitVec.ofNat 32 ((if bitAt be 0 then 0xFF else 0) + (if bitAt be 1 then 0xFF00 else 0) +
    (if bitAt be 2 then 0xFF0000 else 0) + (if bitAt be 3 then 0xFF000000 else 0))

/-- A written value merged into a register by the access codes of its fields, through the enabled bytes (R11, R433):
RW and RWS bits take the value, W1C bits clear and W1S bits set where 1 is written, the rest keep their value. -/
def mergeWrite (fs : List FieldDesc) (old val : Word) (be : Nat) : Word :=
  let m := beMask be
  let rw := BitVec.ofNat 32 (accessMask fs fun a => a == .rw || a == .rws) &&& m
  let c := BitVec.ofNat 32 (accessMask fs fun a => a == .w1c) &&& m
  let t := BitVec.ofNat 32 (accessMask fs fun a => a == .w1s) &&& m
  (((old &&& ~~~ rw) ||| (val &&& rw)) &&& ~~~ (val &&& c)) ||| (val &&& t)

/-- The register at `a` with a written value merged in; an address of no register ignores it (R437). -/
def State.mergeReg (s : State) (a val be : Nat) : State :=
  match regAt a with
  | some r => s.wrWord a (mergeWrite r.fields (s.rdWord a) (BitVec.ofNat 32 val) be)
  | none => s

/-- What a read of a register returns: write-only bits read as zero (R11). -/
def State.readable (s : State) (a : Nat) : Word :=
  match regAt a with
  | some r => s.rdWord a &&& ~~~ BitVec.ofNat 32 (accessMask r.fields fun x => x == .wo)
  | none => 0

/-! ### The lifecycle rule -/

/-- The lifecycle states of R503. -/
def lcDown : Nat := 0
def lcStarting : Nat := 1
def lcUp : Nat := 2
def lcDraining : Nat := 3

/-- An enable or a disable under R503: the new state and PEND_UP. An enable and a disable together act as the enable. -/
def lcRequest (st : Nat) (pend enable disable : Bool) : Nat × Bool :=
  if enable then
    if st = lcDown then (lcStarting, pend) else if st = lcDraining then (st, true) else (st, pend)
  else if disable then
    if st = lcStarting then (lcDown, pend) else if st = lcUp then (lcDraining, pend)
    else if st = lcDraining then (st, false) else (st, pend)
  else (st, pend)

/-- The end of a drain under R504: DOWN, or STARTING in the same instant when PEND_UP was set. -/
def lcDrained (pend : Bool) : Nat := if pend then lcStarting else lcDown

/-- The state field of the lifecycle register at `a` (R505). -/
def lcFld (a : Nat) : Fld := ⟨a, 0, 2⟩

/-- The PEND_UP flag of the lifecycle register at `a` (R505). -/
def lcPend (a : Nat) : Fld := ⟨a, 2, 1⟩

/-- The state of the lifecycle register at `a` set; a change raises an INFO event (R505). -/
def State.setLc (s : State) (a st : Nat) : State :=
  if s.rd (lcFld a) = st then s else (s.wr (lcFld a) st).event sevInfo a

/-- A write of enable or disable to the lifecycle register at `a` (R503). -/
def State.lcWrite (s : State) (a : Nat) (enable disable : Bool) : State :=
  let r := lcRequest (s.rd (lcFld a)) (s.on (lcPend a)) enable disable
  (s.wrBit (lcPend a) r.2).setLc a r.1

/-- The end of the drain of the lifecycle register at `a` (R504): DOWN, and with PEND_UP set on into STARTING, an INFO
event for each change. -/
def State.lcEndDrain (s : State) (a : Nat) : State :=
  let p := s.on (lcPend a)
  let s := (s.wr (lcPend a) 0).setLc a lcDown
  if p then s.setLc a lcStarting else s

/-! ### The service stage -/

/-- The slot states of FWS_RCP_STATUS (R75, R91): 0 EMPTY, 1 LOADING, 2 READY, 3 ACTIVE, 4 RETIRING. -/
def State.slotState (s : State) (slot : Nat) : Nat :=
  if slot = 0 then s.rd R.FWS_RCP_STATUS_slot_a_state else s.rd R.FWS_RCP_STATUS_slot_b_state

/-- Whether a version slot is ACTIVE. -/
def State.anyActive (s : State) : Bool := s.slotState 0 == 3 || s.slotState 1 == 3

/-- GLB_SERVICE brought in line with the conditions of R493; a change between stages 5 and 6 raises an INFO event
(R495); the first ACTIVE slot ends stage 4 (R489). -/
def State.svcUpdate (s : State) : State :=
  let s := s.wrBit R.GLB_SERVICE_no_recipe (!s.anyActive)
  let s := s.wrBit R.GLB_SERVICE_no_lock (s.rd R.TBS_TURN_STATUS_turn_state != 2)
  let s := s.wrBit R.GLB_SERVICE_no_hier (!s.on R.SCH_CFG_hier_ready)
  let s := s.wrBit R.GLB_SERVICE_no_reservoir (!(s.on R.RSV_STATUS_ready || s.on R.GLB_SVC_CFG_no_reservoir))
  let full := s.rd ⟨R.GLB_SERVICE, 8, 7⟩ == 0
  let stage := s.rd R.GLB_SERVICE_stage
  if stage = 4 && s.anyActive then s.wr R.GLB_SERVICE_stage (if full then 6 else 5)
  else if stage = 5 && full then (s.wr R.GLB_SERVICE_stage 6).event sevInfo R.GLB_SERVICE
  else if stage = 6 && !full then (s.wr R.GLB_SERVICE_stage 5).event sevInfo R.GLB_SERVICE
  else s

/-- An effect as the outcome of a command. -/
def ok (s : State) : Host.Outcome State Fault Refusal := .next s

/-! ### The error log -/

/-- An entry of the error log (R324). -/
def State.errLog (s : State) (kind memory stack : Nat) (rank : Option Nat) (addr : Nat) : State :=
  let i := s.rd R.MIF_ELOG_CTRL_next
  let old := s.rd (R.MIF_ELOG_w0_valid i)
  let s := s.wrWord (R.MIF_ELOG_w0 i) 0
  let s := s.wr (R.MIF_ELOG_w0_kind i) kind
  let s := s.wr (R.MIF_ELOG_w0_memory i) memory
  let s := s.wr (R.MIF_ELOG_w0_stack i) stack
  let s := match rank with
    | some r => (s.wr (R.MIF_ELOG_w0_rank i) r).wr (R.MIF_ELOG_w0_rank_valid i) 1
    | none => s
  let s := s.wr (R.MIF_ELOG_w0_valid i) 1
  let s := s.wr (R.MIF_ELOG_w1_address i) addr
  let s := s.wr64 (R.MIF_ELOG_LO_turn_lo i) (R.MIF_ELOG_HI_turn_hi i) s.time.turn
  let s := s.onlyIf (old == 1) fun s => s.wr R.MIF_ELOG_CTRL_wrapped 1
  s.wr R.MIF_ELOG_CTRL_next ((i + 1) % 32)

/-- An uncorrectable word or stripe (R316, R324): counted; once per kind and turn logged with an ERR event on its die. -/
def State.uncorrectable (s : State) (kind die stack addr : Nat) : State :=
  let s := s.bump (R.MIF_UE_count kind)
  if mget s.mem.ueTurn kind = some s.time.turn then s
  else
    let s := { s with mem := { s.mem with ueTurn := mput s.mem.ueTurn kind s.time.turn } }
    (s.errLog 1 kind stack none addr).eventOn sevErr die (R.MIF_UE kind) false

end Sys2Proof.Machine
end

