-- ==== Sys2Proof/Machine/AsmOps.lean ====
section
/-!
DEFINITION. Machine/AsmOps.lean: the associative tables as data: searching a prefix table and a ternary table in a packet's
view (R119 to R122, R132, R134), placing, splitting and removing routes (R120, R123, R128, R129, R133), and the registers
that show a table (R140). The words of R124 and R125 are computed from the routes for the view that reads them, which
R131 keeps them equal to; what soft errors have flipped in them is kept beside (R136 to R139).
-/

namespace Sys2Proof.Machine

/-- The address width of a prefix table. -/
def asmAddrBits (k : AsmType) : Nat := match k with | .lpm6 => 128 | _ => 32

/-- The bank width in units (R117). -/
def asmUnits (k : AsmType) : Nat := match k with | .lpm4 => 1 | .lpm6 => 2 | .ternary u => u

/-- An associative table's type; any other kind of table has none. -/
def AsmTable.type (t : AsmTable) : AsmType := match t.decl.kind with | .asm k _ _ => k | .exm _ => .ternary 1

/-- The banks of an associative table. -/
def AsmTable.banks (t : AsmTable) : List Nat := match t.decl.kind with | .asm _ _ bs => bs | .exm _ => []

/-- Entries a table's banks hold (R116). -/
def AsmTable.capacity (t : AsmTable) : Nat := t.banks.length * (8192 / asmUnits t.type)

/-- The place of a table position (R119): banks in the order TABLE_DECL lists them, and within a bank by entry index; bank x 8192 + the
entry's first unit. -/
def AsmTable.place (t : AsmTable) (i : Nat) : Nat :=
  let n := 8192 / asmUnits t.type
  t.banks.getD (i / n) 0 * 8192 + i % n * asmUnits t.type

/-- The table positions in use. -/
def AsmTable.used (t : AsmTable) : List Nat := t.ents.map (·.pos) ++ t.rules.map (·.pos)

/-- Units in use in a bank. -/
def AsmTable.unitsIn (t : AsmTable) (b : Nat) : Nat := (t.used.filter fun i => t.place i / 8192 == b).length * asmUnits t.type

/-- Whether a packet with turn tag `τ` reads the new view: its tag is at or after the commit turn of an open overlap
(R132). -/
def AsmTable.newView (t : AsmTable) (τ : Nat) : Bool := match t.overlap with | some c => c ≤ τ | none => false

/-- Whether an entry is visible in a view. -/
def Vis.seen (v : Vis) (nv : Bool) : Bool := match v with | .always => true | .old => !nv | .new => nv

/-- Whether the prefix (p, l) covers the prefix or address (q, m), in `w` address bits. -/
def prefixCovers (w p l q m : Nat) : Bool := l ≤ m && p / 2 ^ (w - l) == q / 2 ^ (w - l)

/-- An entry's own route in a view. -/
def AEnt.route (e : AEnt) (nv : Bool) : Option Nat := if nv then e.next else e.cur

/-- A bucket slot's result in a view. -/
def ASlot.value (x : ASlot) (nv : Bool) : Nat := if nv then x.next.getD x.result else x.result

/-- A route as the table shows it: vrf, prefix length, prefix, result. -/
structure Route where
  vrf    : Nat
  len    : Nat
  prefix_ : Nat
  result : Nat
  deriving DecidableEq, Repr

/-- The routes an entry holds in a view: its own and its bucket's. -/
def AEnt.routes (e : AEnt) (nv : Bool) : List Route :=
  if e.vis.seen nv then
    (match e.route nv with | some r => [⟨e.vrf, e.len, e.prefix_, r⟩] | none => []) ++
      (e.bucket.filter fun x => x.vis.seen nv).map fun x => ⟨e.vrf, x.len, x.prefix_, x.value nv⟩
  else []

/-- Every route of a prefix table in a view. -/
def AsmTable.routes (t : AsmTable) (nv : Bool) : List Route := t.ents.flatMap fun e => e.routes nv

/-- The routes covering a prefix in a view. -/
def AsmTable.covering (t : AsmTable) (nv : Bool) (vrf p l : Nat) : List Route :=
  (t.routes nv).filter fun r => r.vrf == vrf && prefixCovers (asmAddrBits t.type) r.prefix_ r.len p l

/-- The longest of some routes. -/
def longest : List Route → Option Route
  | [] => none
  | r :: rs => match longest rs with | some q => if q.len < r.len then some r else some q | none => some r

/-- The answer of a search (R119, R121): hit, result, count; for diagnostics the entry's bank and unit as a place; for a prefix table the
matched prefix's length and whether it came from a leaf (0), a head's cover (1) or a bucket slot (2). -/
structure AsmAnswer where
  hit    : Bool
  result : Nat
  count  : Nat
  unit   : Nat
  len    : Nat
  source : Nat
  deriving DecidableEq, Repr

/-- No entry matched. -/
def AsmAnswer.miss : AsmAnswer := ⟨false, 0, 0, 0, 0, 0⟩

/-- What a matching entry answers (R121, R122): a leaf its route, a head the longest matching slot of its bucket or its cover. -/
def AsmTable.resolve (t : AsmTable) (nv : Bool) (addr : Nat) (e : AEnt) : AsmAnswer :=
  let w := asmAddrBits t.type
  let unit := t.place e.pos
  let cover := t.covering nv e.vrf e.prefix_ e.len
  let count := min cover.length 255
  if !e.head then
    match e.route nv with
    | some r => ⟨true, r, count, unit, e.len, 0⟩
    | none => .miss
  else
    let hits := (e.bucket.filter fun x => x.vis.seen nv && prefixCovers w x.prefix_ x.len addr w).map
      fun x => Route.mk e.vrf x.len x.prefix_ (x.value nv)
    match longest hits, longest cover with
    | some r, _ => ⟨true, r.result, min (count + hits.length) 255, unit, r.len, 2⟩
    | none, some r => ⟨true, r.result, count, unit, r.len, 1⟩
    | none, none => { AsmAnswer.miss with count := count }

/-- A prefix search: the first matching entry in table order decides (R121, R122). -/
def AsmTable.searchPrefix (t : AsmTable) (nv : Bool) (vrf addr : Nat) : AsmAnswer :=
  let w := asmAddrBits t.type
  match t.ents.find? (fun e => e.vis.seen nv && e.vrf == vrf && prefixCovers w e.prefix_ e.len addr w) with
  | none => .miss
  | some e => t.resolve nv addr e

/-- A rule's result in a view. -/
def ARule.value (r : ARule) (nv : Bool) : Nat := if nv then r.next.getD r.result else r.result

/-- A ternary search: the matching rule at the lowest position, and how many match (R119, R134). -/
def AsmTable.searchRules (t : AsmTable) (nv : Bool) (key : Nat) : AsmAnswer :=
  let hits := t.rules.filter fun r => r.vis.seen nv && (key &&& r.mask) == (r.key &&& r.mask)
  match hits with
  | [] => .miss
  | r :: _ => ⟨true, r.value nv, min hits.length 255, t.place r.pos, 0, 0⟩

/-- A search of a table by a packet with turn tag `τ`; the key in the table's key layout (R117). -/
def AsmTable.search (t : AsmTable) (τ key : Nat) : AsmAnswer :=
  let nv := t.newView τ
  match t.type with
  | .lpm4 => t.searchPrefix nv (bitsAt key 64 16) (bitsAt key 32 32)
  | .lpm6 => t.searchPrefix nv (bitsAt key 144 16) (bitsAt key 16 128)
  | .ternary u => t.searchRules nv (bitsAt key 0 (80 * u))

/-! ### Placing routes -/

/-- An entry put behind the entries of its own length that stand at the front of a list. -/
def behindGroup (e : AEnt) : List AEnt → List AEnt
  | [] => [e]
  | x :: xs => if x.len = e.len then x :: behindGroup e xs else e :: x :: xs

/-- The moves of R128 through length groups toward a free position, the group nearest to it first: each group's first entry goes to the
free position behind the group's last and leaves its own. `prev` is the length of the entry before the list. The entries as they then
stand, the position that is free, the moves. -/
def shiftGroups (prev : Nat) : List AEnt → Nat → List AEnt × Nat × Nat
  | [], f => ([], f, 0)
  | x :: xs, f =>
    let r := shiftGroups x.len xs f
    if x.len = prev then (x :: r.1, r.2.1, r.2.2)
    else (behindGroup { x with pos := r.2.1 } r.1, x.pos, r.2.2 + 1)

/-- The first of `n` numbers from `i` on that a test takes; the last number below `n`. -/
def firstFree (p : Nat → Bool) : Nat → Nat → Option Nat
  | 0, _ => none
  | n + 1, i => if p i then some i else firstFree p n (i + 1)
def lastFree (p : Nat → Bool) : Nat → Option Nat
  | 0 => none
  | n + 1 => if p n then some n else lastFree p n

/-- How many of some prefixes lie under a trie node. -/
def underNode (w p l : Nat) (xs : List ASlot) : List ASlot := xs.filter fun x => prefixCovers w p l x.prefix_ x.len

/-- The descent of R129 from a node: while it holds more than 22 prefixes, on to the child with more, or the child whose
next bit is 0 when both hold the same number. -/
def splitNode (w : Nat) : Nat → Nat → Nat → List ASlot → Nat × Nat
  | 0, p, l, _ => (p, l)
  | n + 1, p, l, xs =>
    let here := underNode w p l xs
    if here.length ≤ 22 || w ≤ l then (p, l)
    else
      let p1 := p + 2 ^ (w - l - 1)
      if (underNode w p1 (l + 1) here).length ≤ (underNode w p (l + 1) here).length then splitNode w n p (l + 1) here
      else splitNode w n p1 (l + 1) here

/-- A table with the moves and splits that an operation made. -/
structure Placed where
  table  : AsmTable
  moves  : Nat
  splits : Nat
  deriving DecidableEq, Repr

/-- Room made for one more entry at the end of its length group (R126, R128), or none: at the low-precedence end of the table; where no
free position is left there, at the nearest one behind the group, then the nearest before it (notes/assumptions/164.md). `busy` are the
positions that another table's entries take in the same banks. -/
def AsmTable.addEnt (t : AsmTable) (busy : Nat → Bool) (e : AEnt) : Option Placed :=
  let free (i : Nat) : Bool := !t.used.contains i && !busy i
  let hi := t.ents.filter fun x => e.len ≤ x.len
  let lo := t.ents.filter fun x => x.len < e.len
  let past (xs : List AEnt) : Nat := xs.foldl (fun n x => max n (x.pos + 1)) 0
  let behind (i : Nat) : Option Nat := firstFree free (t.capacity - i) i
  match (behind (past t.ents)).orElse fun _ => behind (past hi) with
  | some f =>
    let r := shiftGroups e.len (lo.filter fun x => x.pos < f) f
    some ⟨{ t with ents := hi ++ { e with pos := r.2.1 } :: r.1 ++ lo.filter fun x => f < x.pos }, r.2.2, 0⟩
  | none =>
    (lastFree free (past hi)).map fun f =>
      let r := shiftGroups e.len (hi.filter fun x => f < x.pos && e.len < x.len).reverse f
      let own := hi.filter fun x => f < x.pos && x.len == e.len
      ⟨{ t with ents := (hi.filter fun x => x.pos < f) ++ r.1.reverse ++ { e with pos := r.2.1 } :: own ++ lo }, r.2.2, 0⟩

/-- A table with one entry replaced. -/
def AsmTable.setEnt (t : AsmTable) (old new : AEnt) : AsmTable :=
  { t with ents := t.ents.map fun x => if x = old then new else x }

/-- A slot with the lowest free number of a bucket. -/
def ASlot.inBucket (x : ASlot) (b : List ASlot) : ASlot :=
  { x with pos := (firstFree (fun i => b.all fun y => y.pos != i) 32 0).getD 0 }

/-- Slots copied into a new bucket, from its first slot on. -/
def freshBucket (xs : List ASlot) : List ASlot := (xs.zip (List.range xs.length)).map fun x => { x.1 with pos := x.2 }

/-- A slot put into an entry's bucket, which begins at block `blk` where the entry has none yet; a full bucket is split (R129): the node's
prefixes move to the new head's bucket at `blk`, and the node's own prefix, where it is a route, becomes the head's. -/
def AsmTable.putSlot (t : AsmTable) (busy : Nat → Bool) (blk : Nat) (e : AEnt) (x : ASlot) : Option Placed :=
  let w := asmAddrBits t.type
  if e.bucket.length < 32 then
    let block := if e.head then e.block else blk
    some ⟨t.setEnt e { e with head := true, block := block, bucket := e.bucket ++ [x.inBucket e.bucket] }, 0, 0⟩
  else
    let all := e.bucket ++ [x]
    let n := splitNode w w e.prefix_ e.len all
    let under := underNode w n.1 n.2 all
    let own := under.find? fun y => y.len == n.2
    let cur := match own with | some y => if y.vis = .new then none else some y.result | none => none
    let next := match own with | some y => if y.vis = .old then none else some (y.next.getD y.result) | none => none
    let head : AEnt := ⟨e.vrf, n.2, n.1, .always, cur, next, true, freshBucket (under.filter fun y => y.len != n.2), blk, 0⟩
    let stay := e.bucket.filter fun y => !prefixCovers w n.1 n.2 y.prefix_ y.len
    let stay := if prefixCovers w n.1 n.2 x.prefix_ x.len then stay else stay ++ [x.inBucket stay]
    ((t.setEnt e { e with bucket := stay }).addEnt busy head).map fun p => { p with splits := 1 }

/-- The longest entry covering a prefix (R120): the first in table order. -/
def AsmTable.owner (t : AsmTable) (vrf p l : Nat) : Option AEnt :=
  t.ents.find? fun e => e.vrf == vrf && prefixCovers (asmAddrBits t.type) e.prefix_ e.len p l

/-- A route placed as new only (R128). Where an entry already stands at its prefix, that entry takes the route. Where the
longest covering entry can hold it, it goes into that entry's bucket (R120); an LPM6 route of 32 bits or fewer is always
an entry, and a longer one under a shorter entry goes into a marker head of length 32 (R123); a route that nothing covers
becomes a leaf. Where the device may choose, notes/assumptions/20.md says what this model chooses. `busy` as at addEnt; `blk` is the
first free block for a new head's bucket. -/
def AsmTable.insertRoute (t : AsmTable) (busy : Nat → Bool) (blk vrf l p result : Nat) : Option Placed :=
  let v6 := t.type == .lpm6
  let w := asmAddrBits t.type
  let slot : ASlot := ⟨.new, l, p, result, none, 0⟩
  let leaf : AEnt := ⟨vrf, l, p, .new, none, some result, false, [], 0, 0⟩
  match t.ents.find? fun e => e.vrf == vrf && e.len == l && e.prefix_ == p with
  | some e => some ⟨t.setEnt e { e with next := some result }, 0, 0⟩
  | none =>
    if v6 && l ≤ 32 then t.addEnt busy leaf
    else match t.owner vrf p l with
      | none => t.addEnt busy leaf
      | some e =>
        if v6 && e.len < 32 then
          t.addEnt busy ⟨vrf, 32, p / 2 ^ (w - 32) * 2 ^ (w - 32), .always, none, none, true, [slot], blk, 0⟩
        else t.putSlot busy blk e slot

/-- A rule put behind every rule of its priority or a higher one (R134). -/
def putRule (r : ARule) : List ARule → List ARule
  | [] => [r]
  | x :: xs => if x.prio < r.prio then r :: x :: xs else x :: putRule r xs

/-- A position put into a rising list of positions. -/
def putPos (i : Nat) : List Nat → List Nat
  | [] => [i]
  | x :: xs => if x < i then x :: putPos i xs else i :: x :: xs

/-- A rule placed as new only (R128, R134): a free position is taken at the low-precedence end of the table, or the first one, and the
rules keep their order over the positions; moves are counted one for each priority between (notes/assumptions/165.md). -/
def AsmTable.insertRule (t : AsmTable) (busy : Nat → Bool) (key mask prio result : Nat) : Option Placed :=
  let free (i : Nat) : Bool := !t.used.contains i && !busy i
  let n := t.rules.foldl (fun n x => max n (x.pos + 1)) 0
  ((firstFree free (t.capacity - n) n).orElse fun _ => firstFree free n 0).map fun f =>
    let rules := putRule ⟨key, mask, prio, .new, result, none, f⟩ t.rules
    let rules' := (rules.zip (putPos f (t.rules.map (·.pos)))).map fun x => { x.1 with pos := x.2 }
    let moved := t.rules.filter fun r => rules'.all fun x => x != r
    ⟨{ t with rules := rules' }, (moved.map (·.prio)).eraseDups.length, 0⟩

/-- Whether a route exists in the newest view of a table. -/
def AsmTable.hasRoute (t : AsmTable) (vrf l p : Nat) : Bool :=
  (t.routes t.overlap.isSome).any fun r => r.vrf == vrf && r.len == l && r.prefix_ == p

/-- Whether a rule exists in the newest view of a table. -/
def AsmTable.hasRule (t : AsmTable) (key mask prio : Nat) : Bool :=
  t.rules.any fun r => r.vis.seen t.overlap.isSome && r.key == key && r.mask == mask && r.prio == prio

/-- A staged MODIFY: the new result in the second copy (R131). -/
def AsmTable.modifyRoute (t : AsmTable) (vrf l p result : Nat) : AsmTable :=
  { t with ents := t.ents.map fun e =>
      if e.vrf = vrf then
        let e := if e.len = l ∧ e.prefix_ = p ∧ e.next.isSome then { e with next := some result } else e
        { e with bucket := e.bucket.map fun x => if x.len = l ∧ x.prefix_ = p then { x with next := some result } else x }
      else e }

/-- A staged MODIFY of a rule. -/
def AsmTable.modifyRule (t : AsmTable) (key mask prio result : Nat) : AsmTable :=
  { t with rules := t.rules.map fun r =>
      if r.key = key ∧ r.mask = mask ∧ r.prio = prio then { r with next := some result } else r }

/-- A DELETE prepared: a head that carries the route loses it in the new view (R131). -/
def AsmTable.prepareDelete (t : AsmTable) (vrf l p : Nat) : AsmTable :=
  { t with ents := t.ents.map fun e =>
      if e.vrf = vrf ∧ e.len = l ∧ e.prefix_ = p ∧ e.head then { e with next := none } else e }

/-- A DELETE at the commit boundary: the leaf or slot is marked old only, a head loses the route in the new view, be it a leaf that became
a head since the DELETE was staged (R131, R132). -/
def AsmTable.commitDelete (t : AsmTable) (vrf l p : Nat) : AsmTable :=
  { t with ents := t.ents.map fun e =>
      if e.vrf = vrf then
        let e := if e.len = l ∧ e.prefix_ = p then (if e.head then { e with next := none } else { e with vis := .old }) else e
        { e with bucket := e.bucket.map fun x =>
            if x.len = l ∧ x.prefix_ = p ∧ x.vis = .always then { x with vis := .old } else x }
      else e }

/-- A rule's DELETE at the commit boundary. -/
def AsmTable.commitDeleteRule (t : AsmTable) (key mask prio : Nat) : AsmTable :=
  { t with rules := t.rules.map fun r =>
      if r.key = key ∧ r.mask = mask ∧ r.prio = prio ∧ r.vis = .always then { r with vis := .old } else r }

/-- The close of an overlap (R132): old-only entries and slots go, new-only ones become always, the new fields become
current, and marker heads left without a slot are deleted (R129). -/
def AsmTable.close (t : AsmTable) : AsmTable :=
  let slots (xs : List ASlot) : List ASlot :=
    (xs.filter fun x => x.vis != .old).map fun x => { x with vis := .always, result := x.next.getD x.result, next := none }
  let ents := (t.ents.filter fun e => e.vis != .old).map fun e =>
    { e with vis := .always, cur := e.next, bucket := slots e.bucket }
  { t with overlap := none,
           ents := ents.filter fun e => !(e.head && e.cur.isNone && e.bucket.isEmpty),
           rules := (t.rules.filter fun r => r.vis != .old).map fun r =>
             { r with vis := .always, result := r.next.getD r.result, next := none } }

/-- The end of a prepared transaction without its commit (R133): new-only entries and slots go, the second copies equal
the current ones again; layout changes stay. -/
def AsmTable.unprepare (t : AsmTable) : AsmTable :=
  { t with prepared := none,
           ents := (t.ents.filter fun e => e.vis != .new).map fun e =>
             { e with next := e.cur,
                      bucket := (e.bucket.filter fun x => x.vis != .new).map fun x => { x with next := none } },
           rules := (t.rules.filter fun r => r.vis != .new).map fun r => { r with next := none } }

/-! ### The registers of a table -/

/-- Bucket blocks in use by a table (R116, R124): one for each unit of a head. -/
def AsmTable.blocks (t : AsmTable) : Nat := (t.ents.filter (·.head)).length * asmUnits t.type

/-- Routes in use, in route units (R126). -/
def AsmTable.routeUnits (t : AsmTable) : Nat :=
  let n := t.ents.foldl (fun a e => a + bit01 (e.cur.isSome || e.next.isSome) + e.bucket.length) 0
  match t.type with | .lpm6 => 2 * n | .lpm4 => n | .ternary _ => 0

/-! ### Words (R124, R125) -/

/-- The visibility code of R124, also of the control field. -/
def Vis.code (v : Vis) : Nat := match v with | .always => 1 | .old => 2 | .new => 3

/-- The mask of the first `l` of `w` bits. -/
def lenMask (w l : Nat) : Nat := 2 ^ w - 2 ^ (w - l)

/-- The units and control field of an entry of a prefix table (R116, R117): the value, above it the mask of the bits compared, above both
the control field, visibility and not countable (R125), whose layout is this model's (notes/assumptions/166.md). -/
def AsmTable.unitWord (t : AsmTable) (e : AEnt) : Nat :=
  let w := asmAddrBits t.type
  let low := if w = 32 then 32 else 16
  let bits := 80 * asmUnits t.type
  let marker := e.head && e.cur.isNone && e.next.isNone
  (e.vrf * 2 ^ (low + w) + e.prefix_ * 2 ^ low) +
    2 ^ bits * (65535 * 2 ^ (low + w) + lenMask w e.len * 2 ^ low + (2 ^ low - 1)) + 2 ^ (2 * bits) * (e.vis.code + 4 * bit01 marker)

/-- The same of a ternary rule. -/
def AsmTable.ruleUnits (t : AsmTable) (r : ARule) : Nat :=
  let bits := 80 * asmUnits t.type
  r.key + 2 ^ bits * r.mask + 2 ^ (2 * bits) * r.vis.code

/-- The result, count and cover_valid of an entry in a view (R122, R125). -/
def AsmTable.coverFields (t : AsmTable) (nv : Bool) (e : AEnt) : Nat × Nat × Bool :=
  let cover := t.covering nv e.vrf e.prefix_ e.len
  let count := min cover.length 255
  if e.head then (match longest cover with | some r => (r.result, count, true) | none => (0, count, false))
  else ((e.route nv).getD 0, count, false)

/-- The associated word of an entry (R125); `sel` names the copy that is current (R132). -/
def AsmTable.assocWord (t : AsmTable) (sel : Nat) (e : AEnt) : Nat :=
  let c (k : Nat) : Nat × Nat × Bool := t.coverFields (k != sel) e
  (c 0).1 % 2 ^ 24 + 2 ^ 24 * ((c 1).1 % 2 ^ 24) + 2 ^ 48 * (c 0).2.1 + 2 ^ 56 * (c 1).2.1 +
    (if e.head then 2 ^ 64 * e.block + 2 ^ 82 + 2 ^ 83 * bit01 (c 0).2.2 + 2 ^ 84 * bit01 (c 1).2.2 + 2 ^ 85 * bit01 e.cur.isSome else 0)

/-- The associated word of a rule (R125, R134). -/
def ruleWord (sel : Nat) (r : ARule) : Nat :=
  r.value (0 != sel) % 2 ^ 24 + 2 ^ 24 * (r.value (1 != sel) % 2 ^ 24) + 2 ^ 86 * (r.prio % 65536)

/-- The word of a bucket slot (R124). -/
def slotWord (v6 : Bool) (x : ASlot) : Nat :=
  if v6 then x.vis.code * 2 ^ 126 + (x.len - 32) * 2 ^ 119 + x.result % 2 ^ 23 * 2 ^ 96 + x.prefix_ % 2 ^ 96
  else x.vis.code * 2 ^ 62 + x.len % 64 * 2 ^ 56 + x.result % 2 ^ 24 * 2 ^ 32 + x.prefix_ % 2 ^ 32

/-- The 256 bytes of a block of the bucket memory (R124): 32 slots of 8 bytes, or 16 of the 32 slots of 16 bytes that two blocks hold. -/
def blockBytes (asm : Sparse AsmTable) (b : Nat) : List Byte :=
  let heads := asm.flatMap fun e => (e.2.ents.filter (·.head)).map fun h => (e.2.type == .lpm6, h)
  match heads.find? fun h => h.2.block ≤ b && b < h.2.block + (if h.1 then 2 else 1) with
  | none => List.replicate 256 0
  | some (v6, h) =>
    let at_ (i : Nat) : Nat := match h.bucket.find? fun x => x.pos == i with | some x => slotWord v6 x | none => 0
    if v6 then (List.range 16).flatMap fun i => leBytes 16 (at_ (16 * (b - h.block) + i))
    else (List.range 32).flatMap fun i => leBytes 8 (at_ i)

/-- What the words of an upset place are to hold: an entry's units and control field, its associated word, a bucket slot; 0 where nothing
stands. -/
def asmStored (asm : Sparse AsmTable) (key : Nat) : Nat :=
  let loc := key % 2 ^ 40
  if key / 2 ^ 40 = 3 then
    (asm.flatMap fun e => e.2.ents.flatMap fun h => if h.head && h.block == loc / 64 then
      (h.bucket.filter fun x => x.pos == loc % 64).map fun x => slotWord (e.2.type == .lpm6) x else []).headD 0
  else
    let word := key / 2 ^ 40 = 2
    (asm.flatMap fun e =>
      ((e.2.ents.filter fun x => e.2.place x.pos == loc).map fun x => if word then e.2.assocWord 0 x else e.2.unitWord x) ++
      ((e.2.rules.filter fun x => e.2.place x.pos == loc).map fun x => if word then ruleWord 0 x else e.2.ruleUnits x)).headD 0

/-- ASM_BKT_FREE brought in line with the heads (R140). -/
def State.blockSync (s : State) : State := s.wr R.ASM_BKT_FREE_blocks (262144 - s.tab.asm.foldl (fun a e => a + e.2.blocks) 0)

/-- ASM_TBL_t and ASM_BKT_FREE brought in line with a table (R140); prepared clears when the overlap closes, as in the example of
chapter 5. -/
def State.syncAsm (s : State) (i : Nat) : State :=
  match mget s.tab.asm i with
  | none => (s.each (List.range 8) fun w s => s.wrWord (R.ASM_TBL_w0 i + 4 * w) 0).blockSync
  | some t =>
    let s := s.wr (R.ASM_TBL_w0_type i) (match t.type with | .lpm4 => 1 | .lpm6 => 2 | .ternary _ => 3)
    let s := s.wrBit (R.ASM_TBL_w0_overlap i) t.overlap.isSome
    let s := s.wrBit (R.ASM_TBL_w0_prepared i) (t.prepared.isSome || t.overlap.isSome)
    let s := s.wr (R.ASM_TBL_w0_table_id i) t.decl.id
    let s := s.wr (R.ASM_TBL_w1_entries i) (t.ents.length + t.rules.length)
    let s := s.wr (R.ASM_TBL_w2_heads i) (t.ents.filter (·.head)).length
    let s := s.wr (R.ASM_TBL_w3_slots i) (t.ents.foldl (fun a e => a + e.bucket.length) 0)
    let s := s.wr (R.ASM_TBL_w4_route_units i) t.routeUnits
    let s := s.wr (R.ASM_TBL_w5_rated_units i) (24 * t.banks.length * 8192)
    s.blockSync

/-- The number under which `upsets` lists a word of the ASM's memories. -/
def upsetKey (part : AsmPart) (loc : Nat) : Nat :=
  (match part with | .units => 0 | .copy => 1 | .word => 2 | .slot => 3) * 2 ^ 40 + loc

/-- Soft errors that have struck: the bits flipped (R136 to R139). -/
def State.strike (s : State) (us : List Upset) : State :=
  { s with tab := { s.tab with upsets := us.foldl (fun m u =>
      let k := upsetKey u.part u.loc
      swrite (fun _ => 0) m k (sread (fun _ => 0) m k ^^^ u.bits)) s.tab.upsets } }

/-- The bits of a word that stand wrong. -/
def State.upset (s : State) (part : AsmPart) (loc : Nat) : Nat := sread (fun _ => 0) s.tab.upsets (upsetKey part loc)

/-- A word of the ASM's memories written: it stands right again. -/
def State.mend (s : State) (part : AsmPart) (loc : Nat) : State :=
  { s with tab := { s.tab with upsets := mdel s.tab.upsets (upsetKey part loc) } }

/-- The most bits flipped in one of `n` SECDED words of 72 bits: 1 is correctable, 2 and more are not (R316). -/
def worstFlips (n bits : Nat) : Nat :=
  (List.range n).foldl (fun m k => max m ((List.range 72).filter fun b => bitAt bits (72 * k + b)).length) 0

/-- Tables replaced: the words of the ASM that the change writes stand right again; every other keeps its errors. -/
def State.rewriteAsm (s : State) (asm : Sparse AsmTable) : State :=
  { s with tab := { s.tab with asm := asm, upsets := s.tab.upsets.filter fun e => asmStored s.tab.asm e.1 == asmStored asm e.1 } }

/-- An associative table set, with its registers. -/
def State.setAsm (s : State) (i : Nat) (t : AsmTable) : State := (s.rewriteAsm (mput s.tab.asm i t)).syncAsm i

/-- The index of the associative table that a slot declares under an identifier (R78). -/
def State.findAsm (s : State) (slot id : Nat) : Option (Nat × AsmTable) :=
  s.tab.asm.find? fun e => e.2.decl.id == id && bitAt e.2.slots slot

/-! ### Searches over words in error (R136 to R139) -/

/-- Whether the raw units and control field of an entry match a key in a view, `bits` wide. -/
def rawHit (bits w : Nat) (nv : Bool) (key : Nat) : Bool :=
  let code := w / 2 ^ (2 * bits) % 4
  (code == 1 || code == (if nv then 3 else 2)) && ((key ^^^ w) &&& (w / 2 ^ bits) &&& (2 ^ bits - 1)) == 0

/-- The places in a table's banks whose units have bits flipped, as table positions, where no entry stands. -/
def State.strayPositions (s : State) (t : AsmTable) : List Nat :=
  let u := asmUnits t.type
  s.tab.upsets.filterMap fun e =>
    let b := e.1 % 2 ^ 40 / 8192
    if e.1 / 2 ^ 40 = 0 ∧ asmStored s.tab.asm e.1 = 0 ∧ e.1 % u = 0 ∧ t.banks.contains b then
      some ((t.banks.takeWhile (· != b)).length * (8192 / u) + e.1 % 8192 / u)
    else none

/-- A search by a packet with turn tag `τ` over the words as they stand, and what it read in SECDED memories: the kind of R298, the word's
index, the most bits flipped. Corrupted units match what they match (R137); words read are corrected, or poison the answer (R139). -/
def State.asmSearch (s : State) (t : AsmTable) (τ key : Nat) : AsmAnswer × List (Nat × Nat × Nat) :=
  if s.tab.upsets.isEmpty then (t.search τ key, [])
  else
    let nv := t.newView τ
    let bits := 80 * asmUnits t.type
    let v6 := t.type == .lpm6
    let raw (i : Nat) : Nat := asmStored s.tab.asm (upsetKey .units (t.place i)) ^^^ s.upset .units (t.place i)
    let hits := (sortOn (fun i => i) (t.used ++ s.strayPositions t)).filter fun i => rawHit bits (raw i) nv (key % 2 ^ bits)
    match hits with
    | [] => (.miss, [])
    | i :: _ =>
      let p := t.place i
      let word := (2, p, worstFlips 2 (s.upset .word p))
      match t.ents.find? (fun e => e.pos == i), t.rules.find? (fun r => r.pos == i) with
      | some e, _ =>
        let addr := if v6 then bitsAt key 16 96 + e.prefix_ / 2 ^ 96 * 2 ^ 96 else bitsAt key 32 32
        let slots := if e.head then (List.range 32).map fun k =>
            (1, e.block * 32 + (if v6 then 2 else 1) * k, worstFlips (if v6 then 2 else 1) (s.upset .slot (e.block * 64 + k))) else []
        (t.resolve nv addr e, word :: slots)
      | none, some r => (⟨true, r.value nv, min hits.length 255, p, 0, 0⟩, [word])
      | none, none => (⟨true, 0, 0, p, 0, 0⟩, [word])

/-- What a search read in error counted (R139, R316): corrected words and uncorrectable ones. -/
def State.countReads (s : State) (reads : List (Nat × Nat × Nat)) : State :=
  s.each reads fun r s =>
    if r.2.2 = 0 then s else if r.2.2 = 1 then s.bump (R.MIF_CE_count r.1) else s.uncorrectable r.1 0 0 r.2.1

/-- The words of an entry at a place stand right again: its units, their copy, its associated word (R138, R139). -/
def State.mendEntry (s : State) (p : Nat) : State := ((s.mend .units p).mend .copy p).mend .word p

/-- The empty slots of a head's bucket whose words are uncorrectable stand right again (R139). -/
def State.mendEmpty (s : State) (e : AEnt) (words : Nat) : State :=
  s.each (List.range 32) fun i s =>
    s.onlyIf ((e.bucket.all fun y => y.pos != i) && 2 ≤ worstFlips words (s.upset .slot (e.block * 64 + i))) fun s =>
      s.mend .slot (e.block * 64 + i)

/-- A REWRITE of a route or rule (R138, R139): the words that hold it stand right again: an entry's units, copy and associated word; a
route's slot; the empty slots of its bucket whose words are uncorrectable; the associated word of a marker head. -/
def State.rewrite (s : State) (t : AsmTable) (vrf len key mask prio : Nat) : State :=
  match t.type with
  | .ternary _ => s.each t.rules fun r s => s.onlyIf (r.key == key && r.mask == mask && r.prio == prio) fun s => s.mendEntry (t.place r.pos)
  | k =>
    s.each (t.ents.filter fun e => e.vrf == vrf) fun e s =>
      if e.len = len ∧ e.prefix_ = key ∧ (e.cur.isSome ∨ e.next.isSome) then s.mendEntry (t.place e.pos)
      else
        match e.bucket.find? fun x => x.len == len && x.prefix_ == key with
        | none => s
        | some x =>
          let s := (s.mend .slot (e.block * 64 + x.pos)).mendEmpty e (if k == .lpm6 then 2 else 1)
          s.onlyIf (e.cur.isNone && e.next.isNone) fun s => s.mend .word (t.place e.pos)

/-! ### Room -/

/-- Whether a table's positions are taken by entries of other tables in the same banks (R79, R126). -/
def State.asmBusy (s : State) (i : Nat) (t : AsmTable) (k : Nat) : Bool :=
  let p := t.place k
  s.tab.asm.any fun e => e.1 != i && e.2.banks.contains (p / 8192) && e.2.used.any fun j =>
    e.2.place j < p + asmUnits t.type && p < e.2.place j + asmUnits e.2.type

/-- The first block of a free bucket for a head of a table (R124): two adjacent blocks from the low end for LPM6, one from the high end for
LPM4 (notes/assumptions/167.md). -/
def State.freeBlock (s : State) (t : AsmTable) : Option Nat :=
  let used := s.tab.asm.flatMap fun e => (e.2.ents.filter (·.head)).map fun h => (h.block, asmUnits e.2.type)
  let clear (b n : Nat) : Bool := used.all fun u => u.1 + u.2 ≤ b || b + n ≤ u.1
  if t.type == .lpm6 then (firstFree (fun k => clear (2 * k) 2) 131072 0).map (2 * ·) else lastFree (fun b => clear b 1) 262144

/-- The moves and splits of a placement counted (R140). -/
def State.countPlaced (s : State) (p : Placed) : State :=
  (s.count R.ASM_MOVES_count p.moves).count R.ASM_SPLITS_count p.splits

end Sys2Proof.Machine
end

