-- ==== Sys2Proof/Machine/ExmTables.lean ====
section
/-!
DEFINITION. Machine/ExmTables.lean: an exact-match table as data: hashing (R144), what a packet sees (R146, R155, R156), placement and
relocation (R147, R148), overlaps (R150), the bucket image of the BAR2 window (R162).
-/

namespace Sys2Proof.Machine

/-- The place in arrival order of what no learn wrote. -/
def OrderKey.zero : OrderKey := ⟨0, 0, 0, 0, 0⟩

/-- The exact-match declaration of a table; any other kind of table has one of no bits. -/
def ExmTable.d (t : ExmTable) : ExmDecl :=
  match t.decl.kind with
  | .exm d => d
  | .asm _ _ _ => ⟨0, 64, 1, false, 0, 1, false, 0, none, none, ⟨[], 0⟩, 0, 0, none, 0, 0⟩

/-- How many copies a table has: one, or one for each pipeline of a learning table (R152). -/
def ExmTable.copies (t : ExmTable) : Nat := if t.d.learning then 8 else 1

/-- The copy a pipeline reads. -/
def ExmTable.copyOf (t : ExmTable) (pipe : Nat) : Nat := if t.d.learning then pipe else 0

/-- The key part of an entry. -/
def ExmDecl.keyOf (d : ExmDecl) (bits : Nat) : Nat := bits % 2 ^ d.keyBits

/-- The data part of an entry. -/
def ExmDecl.dataOf (d : ExmDecl) (bits : Nat) : Nat := bits / 2 ^ d.keyBits

/-- The first hash of a key with a seed: floor(c x nb / 2^32) (R144). -/
def ExmDecl.hashWith (d : ExmDecl) (seed key : Nat) : Nat :=
  crc32c (leBytes 4 seed ++ leBytes (ceilDiv d.keyBits 8) key) * d.buckets / 2 ^ 32

/-- The two candidate buckets of a key (R144). -/
def ExmDecl.buckets2 (d : ExmDecl) (key : Nat) : Nat × Nat :=
  let a := d.hashWith d.seed1 key
  let b := d.hashWith d.seed2 key
  if b = a then (a, if (a ^^^ 1) < d.buckets then a ^^^ 1 else a - 1) else (a, b)

/-- The key of a cell: copy, bucket and slot. The stash is buckets nb to nb + 31. -/
def cellAt (copy bucket slot : Nat) : Nat := copy * 2 ^ 40 + bucket * 4 + slot

/-- The copy of a cell. -/
def cellCopy (c : Nat) : Nat := c / 2 ^ 40

/-- The bucket of a cell, stash buckets from nb on. -/
def cellBucket (c : Nat) : Nat := c % 2 ^ 40 / 4

/-- The slot of a cell in its bucket. -/
def cellSlot (c : Nat) : Nat := c % 4

/-- The four cells of a bucket. -/
def bucketCells (copy b : Nat) : List Nat := (List.range 4).map (cellAt copy b)

/-- The 128 stash cells of a copy. -/
def ExmDecl.stashCells (d : ExmDecl) (copy : Nat) : List Nat := (List.range 128).map fun j => cellAt copy d.buckets j

/-- The cells a lookup of a key compares: both candidate buckets and the stash (R146). -/
def ExmTable.cellsOf (t : ExmTable) (copy key : Nat) : List Nat :=
  let b := t.d.buckets2 key
  bucketCells copy b.1 ++ bucketCells copy b.2 ++ t.d.stashCells copy

/-- The boundaries that had passed when a turn began (R40): counted from the last turn at or before it that did not follow its
predecessor, and never more than have passed now. -/
def State.passedAt (s : State) (τ : Nat) : Nat :=
  let m := (s.tab.ageMarks.find? fun x => x.1 ≤ τ).getD (0, 0)
  min s.tab.ageTurns (m.2 + (τ - m.1))

/-- The age tick of a turn tag (R155): the boundaries passed at its turn, in ticks of 2^a. -/
def State.tickOf (s : State) (d : ExmDecl) (τ : Nat) : Nat :=
  match d.ageing with | some a => s.passedAt τ / 2 ^ a % 256 | none => 0

/-- The value in force for a turn tag, from writes listed newest first with the turns they were accepted in: a write
applies to packets tagged after that turn. -/
def inForce (h : List (Nat × Nat)) (dflt τ : Nat) : Nat :=
  match h with
  | [] => dflt
  | (turn, v) :: rest => if turn < τ then v else inForce rest dflt τ

/-- EXM_AGE_t as a packet with a turn tag sees it: limit, and whether ageing is on (R155, R156). -/
def State.ageRule (s : State) (i τ : Nat) : Nat × Bool :=
  let v := inForce (sread (fun _ => []) s.tab.ages i) 254 τ
  (v % 256, bitAt v 8)

/-- Whether a cell is hidden by age (R155). -/
def State.agedOut (s : State) (i : Nat) (d : ExmDecl) (τ : Nat) (c : ECell) : Bool :=
  let r := s.ageRule i τ
  d.ageing.isSome && !c.static && r.2 && r.1 ≤ (s.tickOf d τ + 256 - c.stamp) % 256

/-- Whether a turn is at or after a publication turn kept modulo 4,096 (R146). -/
def atOrAfter (τ pub : Nat) : Bool := (τ + 4096 - pub % 4096) % 4096 < 2048

/-- Whether a slot's state shows it to a packet with a turn tag (R146). A learned entry that is old only is seen from its publication
turn on (R150; DEDUCED, notes/assumptions/171.md). -/
def ExmTable.shows (t : ExmTable) (τ : Nat) (c : ECell) : Bool :=
  match c.state with
  | 1 => true
  | 2 => (match t.overlap with | some o => τ < o | none => false) && (c.static || atOrAfter τ c.pub)
  | 3 => match t.overlap with | some o => o ≤ τ | none => false
  | 4 => atOrAfter τ c.pub
  | 5 => !atOrAfter τ c.pub
  | _ => false

/-- A cell as a packet with a turn tag reads it: where its bucket was replaced at a boundary, a packet tagged before that turn
reads what stood there before (R163). -/
def ExmTable.cellFor (t : ExmTable) (τ a : Nat) : Option ECell :=
  match t.past.find? fun x => x.copy == cellCopy a && x.bucket == cellBucket a && τ < x.turn with
  | some x => mget x.cells a
  | none => mget t.cells a

/-- The cell in which a packet finds a key, with its contents (R146); while the HBM is not released its tables do not exist (R494). -/
def State.exmFind (s : State) (i : Nat) (t : ExmTable) (copy τ key : Nat) : Option (Nat × ECell) :=
  if t.d.hbm && s.on R.GLB_SERVICE_hbm_fault then none
  else (t.cellsOf copy key).findSome? fun a =>
    match t.cellFor τ a with
    | some c => if t.d.keyOf c.bits == key && t.shows τ c && !s.agedOut i t.d τ c then some (a, c) else none
    | none => none

/-! ### Placement -/

/-- Whether a bucket of a copy is locked (R163). -/
def ExmTable.locked (t : ExmTable) (copy b : Nat) : Bool := t.locks.any fun l => l.copy == copy && l.bucket == b

/-- The lowest free slot of an unlocked bucket that a plan has not claimed. -/
def ExmTable.freeSlot (t : ExmTable) (copy b : Nat) (claimed : List (Nat × ECell)) : Option Nat :=
  if t.locked copy b then none
  else (bucketCells copy b).find? fun a => (mget t.cells a).isNone && claimed.all fun x => x.1 != a

/-- The outcome of a placement (R147): the writes in plan order, or BUSY_RETRY, for a locked bucket or for a slot claimed earlier
in the plan, or TABLE_FULL. -/
inductive Plan where
  | done (writes : List (Nat × ECell))
  | busy (locked : Bool)
  | full
  deriving DecidableEq, Repr

/-- The relocation loop of R147: at most 32 steps from m = 0. A free stash entry in a locked bucket of the window (R162) is not used;
where only such are left the plan needs a locked bucket (R164; DEDUCED, notes/assumptions/172.md). -/
def ExmTable.evict (t : ExmTable) (copy : Nat) : Nat → Nat → ECell → Nat → List (Nat × ECell) → Plan
  | 0, _, cur, _, plan =>
    let free := (t.d.stashCells copy).filter fun a => (mget t.cells a).isNone
    match free.find? fun a => !t.locked copy (cellBucket a) with
    | some a => .done (plan ++ [(a, cur)])
    | none => if free.isEmpty then .full else .busy true
  | n + 1, m, cur, b, plan =>
    let a := cellAt copy b (m % 4)
    if t.locked copy b then .busy true
    else if plan.any fun x => x.1 == a then .busy false
    else
      match mget t.cells a with
      | none => .done (plan ++ [(a, cur)])
      | some victim =>
        let plan := plan ++ [(a, cur)]
        let c := t.d.buckets2 (t.d.keyOf victim.bits)
        let b' := if b = c.1 then c.2 else c.1
        match t.freeSlot copy b' plan with
        | some f => .done (plan ++ [(f, victim)])
        | none => t.evict copy n (m + 1) victim b' plan

/-- A cell's placement in a copy (R147). -/
def ExmTable.plan (t : ExmTable) (copy : Nat) (c : ECell) : Plan :=
  let b := t.d.buckets2 (t.d.keyOf c.bits)
  match t.freeSlot copy b.1 [] with
  | some a => .done [(a, c)]
  | none =>
    match t.freeSlot copy b.2 [] with
    | some a => .done [(a, c)]
    | none => t.evict copy 32 0 c b.1 []

/-- A plan's writes carried out. -/
def ExmTable.write (t : ExmTable) (ws : List (Nat × ECell)) : ExmTable :=
  { t with cells := ws.foldl (fun m w => mput m w.1 w.2) t.cells }

/-- Stash entries whose candidate bucket has room moved back into it (R148); an entry of a locked bucket stays. -/
def ExmTable.pull (t : ExmTable) (copy : Nat) : ExmTable :=
  (t.d.stashCells copy).foldl (fun t a =>
    match mget t.cells a with
    | none => t
    | some c =>
      if t.locked copy (cellBucket a) then t else
      let b := t.d.buckets2 (t.d.keyOf c.bits)
      match (t.freeSlot copy b.1 []).orElse fun _ => t.freeSlot copy b.2 [] with
      | some f => { t with cells := mput (mdel t.cells a) f c }
      | none => t) t

/-- The cells of some keys' entries that a test picks, deleted, and the stash drawn back (R148). -/
def ExmTable.remove (t : ExmTable) (p : Nat → ECell → Bool) : ExmTable :=
  let t' := { t with cells := t.cells.filter fun e => !p e.1 e.2 }
  (List.range t.copies).foldl (fun t c => t.pull c) t'

/-! ### Updates -/

/-- The cells of a copy that hold a key. -/
def ExmTable.holding (t : ExmTable) (copy key : Nat) : List (Nat × ECell) :=
  t.cells.filter fun e => cellCopy e.1 == copy && t.d.keyOf e.2.bits == key

/-- Whether a key exists as a static entry (R149), in the newest view. -/
def ExmTable.hasStatic (t : ExmTable) (key : Nat) : Bool :=
  (t.holding 0 key).any fun e => e.2.static && (e.2.state == 1 || e.2.state == 3)

/-- A standing cell of a key as the commit of turn `c` leaves it (R150): an always entry is old only. A learned entry whose publication
has passed is old only from its turn on; one not published by then is never seen; one that was to retire at or after the commit turn is
old only, one that retires before it goes on retiring (DEDUCED, notes/assumptions/171.md). -/
def ECell.markOld (x : ECell) (c : Nat) : ECell :=
  let seen : Nat := (c + 3072) % 4096
  match x.state with
  | 1 => { x with state := 2, pub := if x.static then x.pub else seen }
  | 4 => { x with state := 2 }
  | 5 => if atOrAfter c x.pub && x.pub != c % 4096 then x else { x with state := 2, pub := seen }
  | _ => x

/-- The cells a commit marks old only (R150): the standing cells of the key of every staged write. -/
def ExmTable.markOld (t : ExmTable) (key turn : Nat) : ExmTable :=
  { t with cells := t.cells.map fun e => if t.d.keyOf e.2.bits = key then (e.1, e.2.markOld turn) else e }

/-- The close of an overlap (R150): old-only slots are freed, new-only slots become always. -/
def ExmTable.close (t : ExmTable) : ExmTable :=
  let t := t.remove fun _ c => c.state == 2
  { t with overlap := none,
           cells := t.cells.map fun e => if e.2.state = 3 then (e.1, { e.2 with state := 1 }) else e }

/-- The end of a prepared transaction without its commit: its new-only slots are freed (R133, R150). -/
def ExmTable.unprepare (t : ExmTable) : ExmTable :=
  { t.remove (fun _ c => c.state == 3) with prepared := none }

/-! ### The image of a bucket in memory (R142) and in the window (R162) -/

/-- A slot's metadata word (R145). -/
def ECell.meta_ (c : ECell) : Nat :=
  c.state + 8 * bit01 c.static + 16 * (c.pub % 4096) + 65536 * (c.stamp % 256)

/-- Bytes a bucket takes in SRAM or in the HBM table partition (R142). -/
def ExmDecl.bucketBytes (d : ExmDecl) : Nat :=
  let n := 4 * d.width / 8 + 16
  if d.hbm then ceilDiv n 64 * 64 else n

/-- Bytes a table takes, all copies (R142). -/
def ExmDecl.bytes (d : ExmDecl) : Nat := d.buckets * d.bucketBytes * (if d.learning then 8 else 1)

/-- A bucket's bytes in the HBM table partition: the metadata words, the slots, padding (R142; DESIGN CHOICE, notes/assumptions/190.md). -/
def ExmTable.memImage (t : ExmTable) (copy b : Nat) : List Byte :=
  let cells := (bucketCells copy b).map (mget t.cells)
  let metas := cells.flatMap fun c => leBytes 4 (match c with | some c => c.meta_ | none => 0)
  let img := metas ++ cells.flatMap fun c => leBytes (t.d.width / 8) (match c with | some c => c.bits | none => 0)
  img ++ List.replicate (t.d.bucketBytes - img.length) 0

/-- Bytes from entry 0 to the end of the last data entry of a bucket in the window. -/
def ExmDecl.imageLen (d : ExmDecl) : Nat := 64 + ceilDiv (4 * d.width / 8) 64 * 64

/-- The stride of buckets in the window (R162). -/
def ExmDecl.stride (d : ExmDecl) : Nat := if d.width ≤ 128 then 128 else if d.width = 256 then 256 else 512

/-- A bucket's image: metadata, lock word and lock_seq in entry 0, slot data from entry 1. -/
def ExmTable.image (t : ExmTable) (copy b : Nat) : List Byte :=
  let cells := (bucketCells copy b).map (mget t.cells)
  let metas := cells.flatMap fun c => leBytes 4 (match c with | some c => c.meta_ | none => 0)
  let lock := match t.locks.find? fun l => l.copy == copy && l.bucket == b with
    | some l => 1 + 2 * bit01 l.commit.isSome + 4 * l.owner | none => 0
  let data := cells.flatMap fun c => leBytes (t.d.width / 8) (match c with | some c => c.bits | none => 0)
  let img := metas ++ leBytes 4 lock ++ leBytes 4 (sread (fun _ => 0) t.lockSeq (cellAt copy b 0)) ++ List.replicate 40 0 ++ data
  img ++ List.replicate (t.d.imageLen - img.length) 0

/-- A bucket's cells replaced by what an image holds; slots whose state is 0 are empty. -/
def ExmTable.ofImage (t : ExmTable) (copy b : Nat) (img : List Byte) : ExmTable :=
  (List.range 4).foldl (fun t i =>
    let m := leAt img (4 * i) 4
    let bits := leAt img (64 + t.d.width / 8 * i) (t.d.width / 8)
    let a := cellAt copy b i
    if m % 8 = 0 then { t with cells := mdel t.cells a }
    else
      let was := (mget t.cells a).getD ⟨0, 0, false, 0, 0, 0, .zero⟩
      { t with cells := mput t.cells a ⟨bits, m % 8, bitAt m 3, bitsAt m 4 12, bitsAt m 16 8, was.tag, was.order⟩ }) t

end Sys2Proof.Machine
end

