-- ==== Sys2Proof/Machine/Count.lean ====
section
/-!
DEFINITION. Machine/Count.lean: counting: the statistics counters and the attribution of events to turns (R465 to R475), the
drop reasons (R473), and the PMU's counters and slot accounting (R480 to R486). The commands of the block stand in
Machine/Counters.lean.
-/

namespace Sys2Proof.Machine

/-! ### Counter sets -/

/-- The counter sets of R465. -/
def csPort : Nat := 0
def csVoq : Nat := 1
def csQueue : Nat := 2
def csEgress : Nat := 3
def csDevice : Nat := 4

/-- Entries and slots of a counter set (R465). -/
def setShape (set : Nat) : Nat × Nat :=
  match set with
  | 0 => (128, 64) | 1 => (524288, 16) | 2 => (1048576, 16) | 3 => (128, 64) | 4 => (1, 64) | _ => (0, 0)

/-- The home of a counter, counted in homes from the start of the area: sets, entries and slots in rising order (R468). -/
def homeOf (set entry slot : Nat) : Nat :=
  ((List.range set).map fun k => (setShape k).1 * (setShape k).2).foldl (· + ·) 0 + entry * (setShape set).2 + slot

/-- A counter nothing has counted. -/
def Ctr.zero : Ctr := ⟨0, 0, false, false, false⟩

/-- A counter. -/
def State.ctr (s : State) (home : Nat) : Ctr := sread (fun _ => Ctr.zero) s.cnt.vals home

/-- An update of a counter: 64-bit wrap with sticky bits (R468). -/
def Ctr.add (c : Ctr) (pkts bytes : Nat) : Ctr :=
  { c with pkts := (c.pkts + pkts) % 2 ^ 64, bytes := (c.bytes + bytes) % 2 ^ 64,
           wrapP := c.wrapP || 2 ^ 64 ≤ c.pkts + pkts, wrapB := c.wrapB || 2 ^ 64 ≤ c.bytes + bytes }

/-- A counter set to a value. -/
def State.setCtr (s : State) (home : Nat) (c : Ctr) : State :=
  { s with cnt := { s.cnt with vals := swrite (fun _ => Ctr.zero) s.cnt.vals home c } }

/-- The turn of the last final snapshot (R487). -/
def State.lastSnap (s : State) : Nat := s.rd64 R.CNT_LAST_SNAP_LO_turn_lo R.CNT_LAST_SNAP_HI_turn_hi

/-- An open snapshot counts an update that is attributed before its boundary (R478); `late` says that CNT_LATE_ATTR rises with it (R479). -/
def Snap.update (x : Snap) (home pkts bytes turn : Nat) (late : Bool) : Snap :=
  if x.stage = 1 then
    { x with late := x.late || late,
             vals := if turn < x.turn then
               swrite (fun _ => Ctr.zero) x.vals home ((sread (fun _ => Ctr.zero) x.vals home).add pkts bytes) else x.vals }
  else x

/-- A counting event attributed to a turn: in the live counter, and in the copy of an open snapshot that it belongs to
(R478). An event tagged before a final snapshot is attributed to it instead and counted in CNT_LATE_ATTR (R475). -/
def State.countAs (s : State) (set entry slot pkts bytes turn : Nat) : State :=
  let home := homeOf set entry slot
  let late : Bool := turn < s.lastSnap
  let s := s.setCtr home ((s.ctr home).add pkts bytes)
  let snaps := s.cnt.snaps.map fun e => (e.1, e.2.update home pkts bytes turn late)
  let s := { s with cnt := { s.cnt with snaps := snaps } }
  s.onlyIf late fun s => s.bump R.CNT_LATE_ATTR_count

/-- The drop reasons of R473. -/
def drMalformed : Nat := 0x01
def drDepth : Nat := 0x02
def drScanTimeout : Nat := 0x03
def drConflict : Nat := 0x08
def drParity : Nat := 0x09
def drPoison : Nat := 0x0A
def drThreshold : Nat := 0x0B
def drWred : Nat := 0x0C
def drPoolEmpty : Nat := 0x0D
def drAged : Nat := 0x0E
def drHoldAged : Nat := 0x0F
def drTierLost : Nat := 0x10
def drBridgeReset : Nat := 0x11
def drUnreachable : Nat := 0x12
def drDraining : Nat := 0x13
def drDice : Nat := 0x14
def drEgressDeny : Nat := 0x15
def drMtu : Nat := 0x16

/-- A drop counted in the device set (R466). -/
def State.countDrop (s : State) (reason bytes turn : Nat) : State := s.countAs csDevice 0 reason 1 bytes turn

/-- A drop counted under an ingress port and in the device set (R473). -/
def State.dropIngress (s : State) (port reason bytes turn : Nat) : State :=
  (s.countAs csPort port reason 1 bytes turn).countDrop reason bytes turn

/-- A drop counted under an egress port and in the device set, at the local turn (R473, R474). -/
def State.dropEgress (s : State) (port reason bytes : Nat) : State :=
  (s.countAs csEgress port reason 1 bytes s.time.turn).countDrop reason bytes s.time.turn

/-! ### The PMU -/

/-- Whether the programmable counters of a die (0 FD, 1 TD) count (R485). -/
def State.pmuRuns (s : State) (d : Nat) : Bool := s.on (R.PMx_CTRL_run d) && !s.on (R.PMx_CTRL_frozen d)

/-- A 64-bit register pair increased, wrapping. -/
def State.add64 (s : State) (lo hi : Fld) (n : Nat) : State := s.wr64 lo hi ((s.rd64 lo hi + n) % 2 ^ 64)

/-- The sample a counter asks for when it overflows (R486). -/
def State.askSample (s : State) (i pipe : Nat) (egress : Bool) : State :=
  let full := (s.rd R.PMF_SMP_HEAD_head + 1) % 2 ^ s.rd R.PMF_SMP_CFG_size_log2 == s.rd R.PMF_SMP_TAIL_tail
  if full || (s.cnt.samples.any fun x => x.1 == i) || s.cnt.recs.any (fun r => byteAt r 0 == i) then
    s.bump R.PMF_SMP_LOST_count
  else { s with cnt := { s.cnt with samples := s.cnt.samples ++ [(i, pipe, egress)] } }

/-- A programmable counter increased: at 2^48 the value wraps, ovf is set and ovf_event takes the event (R482). -/
def State.bumpPmu (s : State) (d i n pipe : Nat) (egress : Bool) : State :=
  let lo := R.PMx_CNT_LO_value_lo d i
  let hi := R.PMx_CNT_HI_value_hi d i
  let v := s.rd64 lo hi
  let sum := v % 2 ^ 48 + n
  if sum < 2 ^ 48 then s.wr64 lo hi (v / 2 ^ 48 * 2 ^ 48 + sum)
  else
    let s := s.wr64 lo hi (sum % 2 ^ 48 + 2 ^ 48 * s.rd (R.PMx_EVSEL_event d i) + 2 ^ 63)
    s.onlyIf (d == 0 && s.on (R.PMx_EVSEL_sample_en d i) && s.rd (R.PMx_EVSEL_unit d i) < 8 && pipe < 8) fun s =>
      s.askSample i pipe egress

/-- An event of the PMU counted `n` times on every enabled counter of a die that selects it (R483, R484); `unit` 15 is an event of no unit, which
the unit filter does not apply to; neither filter applies to the CCLK cycles of code 0x001. `slot` says that
it counts slots executed before a freeze, which go on counting (R485). -/
def State.pmuAs (s : State) (d code unit stage n : Nat) (egress slot : Bool) : State :=
  if !(s.on (R.PMx_CTRL_run d) && (slot || !s.on (R.PMx_CTRL_frozen d))) || n == 0 then s
  else
    s.each ((List.range 16).filter fun i =>
        s.on (R.PMx_EVSEL_en d i) && s.rd (R.PMx_EVSEL_event d i) == code &&
        (unit == 15 || s.rd (R.PMx_EVSEL_unit d i) == 15 || s.rd (R.PMx_EVSEL_unit d i) == unit) &&
        (d == 1 || code == 1 || s.rd (R.PMx_EVSEL_stage d i) == 63 || s.rd (R.PMx_EVSEL_stage d i) == stage))
      fun i s => s.bumpPmu d i n unit egress

/-- An FD event of a pipeline. -/
def State.pmuFd (s : State) (code pipe n : Nat) : State := s.pmuAs 0 code pipe 63 n false false

/-- A TD event of a scheduler engine or an HBM stack. -/
def State.pmuTd (s : State) (code unit n : Nat) : State := s.pmuAs 1 code unit 63 n false false

/-- How a packet's slots are accounted (R480): the fixed category (0 RETIRED, 1 WASTED) and the event code. -/
structure SlotFate where
  wasted : Bool
  code   : Nat
  deriving DecidableEq, Repr

/-- RETIRED, forwarded; RETIRED, dropped; WASTED by a drop, by admission, by a fault. -/
def sfFwd : SlotFate := ⟨false, 0x010⟩
def sfDropped : SlotFate := ⟨false, 0x011⟩
def sfDrop : SlotFate := ⟨true, 0x018⟩
def sfAdmission : SlotFate := ⟨true, 0x019⟩
def sfFault : SlotFate := ⟨true, 0x01A⟩

/-- The slots a packet executed in a section accounted when its transaction there ends (R480, R481). -/
def State.accountSlots (s : State) (pipe : Nat) (egress : Bool) (stages : List Nat) (f : SlotFate) : State :=
  let sec := bit01 egress
  let s := if f.wasted then s.add64 (R.PMF_FIX_wasted_LO_wasted_lo pipe sec) (R.PMF_FIX_wasted_HI_wasted_hi pipe sec) stages.length
    else s.add64 (R.PMF_FIX_retired_LO_retired_lo pipe sec) (R.PMF_FIX_retired_HI_retired_hi pipe sec) stages.length
  s.each stages fun k s => s.pmuAs 0 f.code pipe k 1 egress true

/-- A slot that no packet used accounted (R480): `back` for STARVED_BACK, with its event code. -/
def State.starve (s : State) (pipe stage code : Nat) : State :=
  let sec := if 24 ≤ stage then 1 else 0
  if !s.pmuRuns 0 then s
  else
    let s := if 0x028 ≤ code then
        s.add64 (R.PMF_FIX_starved_back_LO_starved_back_lo pipe sec) (R.PMF_FIX_starved_back_HI_starved_back_hi pipe sec) 1
      else s.add64 (R.PMF_FIX_starved_front_LO_starved_front_lo pipe sec) (R.PMF_FIX_starved_front_HI_starved_front_hi pipe sec) 1
    s.pmuAs 0 code pipe stage 1 (24 ≤ stage) false

/-- The CCLK cycles of some nanoseconds counted: 1.8 a nanosecond (R481, R484); for each HBM controller also those with its panic raised. -/
def State.cycles (s : State) (ns : Nat) : State :=
  let n := 9 * ns + s.cnt.cycRem
  let s := { s with cnt := { s.cnt with cycRem := n % 5 } }
  let s := s.onlyIf (s.pmuRuns 0) fun s => s.each (List.range 8) fun p s => s.each (List.range 2) fun e s =>
    s.add64 (R.PMF_FIX_cycles_LO_cycles_lo p e) (R.PMF_FIX_cycles_HI_cycles_hi p e) (n / 5)
  let s := (s.pmuAs 0 0x001 15 63 (n / 5) false false).pmuAs 1 0x001 15 63 (n / 5) false false
  s.each ((List.range 6).filter fun k => s.on (R.HBC_STATUS_panic k)) fun k s => s.pmuTd 0x112 k (n / 5)

end Sys2Proof.Machine
end

