-- ==== Sys2Proof/Machine/Stripe.lean ====
section
/-!
DEFINITION. Machine/Stripe.lean: the HBM stripe (R264, R299 to R302): its code over GF(2^8), its metadata, its decoder, and where
its segments lie.
-/

namespace Sys2Proof.Machine

/-! ### GF(2^8) -/

/-- A field element times α (R299). -/
def gfDouble (a : Nat) : Nat := if a < 128 then 2 * a else (2 * a) ^^^ 0x11D

/-- α to a power. -/
def gfPow : Nat → Nat
  | 0 => 1
  | n + 1 => gfDouble (gfPow n)

/-- The product of two field elements. -/
def gfMul (a b : Nat) : Nat :=
  ((List.range 8).foldl (fun r i => (if bitAt b i then r.1 ^^^ r.2 else r.1, gfDouble r.2)) ((0, a) : Nat × Nat)).1

/-- The inverse of a field element: a^254. -/
def gfInv (a : Nat) : Nat :=
  let a2 := gfMul a a
  let a4 := gfMul a2 a2
  let a8 := gfMul a4 a4
  let a16 := gfMul a8 a8
  let a32 := gfMul a16 a16
  let a64 := gfMul a32 a32
  let a128 := gfMul a64 a64
  gfMul (gfMul (gfMul a2 a4) (gfMul a8 a16)) (gfMul (gfMul a32 a64) a128)

/-! ### Encoding -/

/-- The syndromes of ten bytes (R299). -/
def syndromes (cs : List Nat) : Nat × Nat :=
  ((List.range 10).foldl (fun r j =>
    let c := cs.getD j 0
    (r.1 ^^^ c, r.2 ^^^ gfMul c (gfPow j))) (0, 0))

/-- The check bytes c_8 and c_9 of eight bytes (R299). -/
def checkBytes (cs : List Nat) : Nat × Nat :=
  let r := syndromes (cs.take 8)
  let c9 := gfMul (r.2 ^^^ gfMul r.1 (gfPow 8)) (gfInv (gfPow 9 ^^^ gfPow 8))
  (r.1 ^^^ c9, c9)

/-- A stripe with its check segments, from segments 0 to 7. -/
def withChecks (segs : List (List Byte)) : List (List Byte) :=
  let pairs := (List.range 72).map fun b => checkBytes ((segs.take 8).map fun s => byteAt s b)
  segs.take 8 ++ [pairs.map fun p => BitVec.ofNat 8 p.1, pairs.map fun p => BitVec.ofNat 8 p.2]

/-- A stripe of 512 data bytes and metadata bytes 0 to 59, with a correct CRC and check bytes (R299, R300). -/
def encodeStripe (data md : List Byte) : List (List Byte) :=
  let full := slice md 0 60 ++ leBytes 4 (crc32c (slice data 0 512 ++ slice md 0 60))
  withChecks ((List.range 8).map fun j => slice data (64 * j) 64 ++ slice full (8 * j) 8)

/-- The data of a stripe and its metadata. -/
def stripeData (segs : List (List Byte)) : List Byte := (segs.take 8).flatMap fun s => slice s 0 64
def stripeMeta (segs : List (List Byte)) : List Byte := (segs.take 8).flatMap fun s => slice s 64 8

/-- A stripe as the memory fill leaves it (R320). -/
def filledStripe : List (List Byte) := encodeStripe (List.replicate 512 0) (1 :: List.replicate 59 0)

/-! ### Decoding -/

/-- What a decode finds (R302). -/
inductive Verdict302 where
  | clean
  | corrected (segment : Nat)
  | erasure
  | uncorrectable
  deriving DecidableEq, Repr

/-- A decode: the verdict, the segments as decoded, and the segments that showed a located error (R305). -/
structure Decoded where
  verdict : Verdict302
  segs    : List (List Byte)
  located : List Nat
  deriving DecidableEq, Repr

/-- A byte of a stripe. -/
def segByte (segs : List (List Byte)) (j b : Nat) : Nat := byteAt (segs.getD j []) b

/-- A stripe with one byte replaced. -/
def putSegByte (segs : List (List Byte)) (j b v : Nat) : List (List Byte) :=
  segs.set j ((segs.getD j []).set b (BitVec.ofNat 8 v))

/-- The power p below 10 with α^p = v, if there is one. -/
def smallLog (v : Nat) : Option Nat := firstIdx 10 fun p => gfPow p == v

/-- One byte position of a decode (R302): none when the stripe is uncorrectable there. -/
def decodeByte (erased : List Nat) (d : Decoded) (b : Nat) : Option Decoded :=
  let cs := (List.range 10).map fun j => if erased.contains j then 0 else segByte d.segs j b
  let r := syndromes cs
  match erased with
  | [] =>
    if r.1 = 0 ∧ r.2 = 0 then some d
    else if r.1 = 0 ∨ r.2 = 0 then none
    else
      match smallLog (gfMul r.2 (gfInv r.1)) with
      | none => none
      | some p =>
        if d.located.any fun l => l != p then none
        else some { d with located := [p], segs := putSegByte d.segs p b (segByte d.segs p b ^^^ r.1) }
  | [p] =>
    if r.2 ≠ gfMul r.1 (gfPow p) then none else some { d with segs := putSegByte d.segs p b r.1 }
  | p :: q :: _ =>
    let cq := gfMul (r.2 ^^^ gfMul r.1 (gfPow p)) (gfInv (gfPow q ^^^ gfPow p))
    some { d with segs := putSegByte (putSegByte d.segs q b cq) p b (r.1 ^^^ cq) }

/-- The decode of a stripe from byte position `b` on. -/
def decodeFrom (erased : List Nat) : Nat → Nat → Decoded → Bool × Decoded
  | 0, _, d => (true, d)
  | n + 1, b, d =>
    match decodeByte erased d b with
    | none => (false, d)
    | some d => decodeFrom erased n (b + 1) d

/-- The decode of a stripe read with some segments erased (R302). -/
def decodeStripe (erased : List Nat) (segs : List (List Byte)) : Decoded :=
  let r := decodeFrom erased 72 0 ⟨.uncorrectable, segs, []⟩
  let md := stripeMeta r.2.segs
  if !r.1 || leAt md 60 4 != crc32c (stripeData r.2.segs ++ slice md 0 60) then r.2
  else
    match r.2.located with
    | p :: _ => { r.2 with verdict := .corrected p }
    | [] => { r.2 with verdict := if erased.isEmpty then .clean else .erasure }

/-- Whether a stripe's poison bit is set (R300). -/
def stripePoison (segs : List (List Byte)) : Bool := bitAt (byteAt (stripeMeta segs) 1) 0

/-! ### Where segments lie -/

/-- The ring index of segment `j` of a stripe (R264). -/
def ringIndex (stripe j : Nat) : Nat := (10 * stripe + j) % 124

/-- The rank of a stack with a ring index, where one has it (R264, R326). -/
def State.rankAt (s : State) (stack idx : Nat) : Option Nat :=
  firstIdx 128 fun r => s.rd (R.HBC_RANK_LC_ring_index stack r) == idx

/-- The slot of segment `j` of a stripe in its rank (R264). -/
def segSlot (stripe j : Nat) : Nat := (10 * stripe + j) / 124

/-- Where segment `j` of a stripe is kept (R264): the rank with its ring index, and the slot there. A rank's contents pass on with its ring
index (R307). -/
def segKey (stack stripe j : Nat) : Nat := (stack * 128 + ringIndex stripe j) * 2 ^ 23 + segSlot stripe j

/-- A stripe as its ranks hold it; what nothing has written is as the fill left it (R320). -/
def State.stripeAt (s : State) (stack stripe : Nat) : List (List Byte) :=
  (List.range 10).map fun j => (mget s.mem.segs (segKey stack stripe j)).getD (filledStripe.getD j [])

/-- Whether segments with a ring index are written: not those of a rank erased in place (R309); those of a retiring rank go to its
spare (R306). -/
def State.takesSegs (s : State) (stack idx : Nat) : Bool :=
  match s.rankAt stack idx with
  | some r => !(s.on (R.HBC_RANK_LC_erased stack r) && s.rd (R.HBC_RANK_LC_state stack r) == lcUp)
  | none => true

/-- Some segments of a stripe written, each to its slot of its rank (R264, R301). -/
def State.putSegs (s : State) (stack stripe : Nat) (js : List Nat) (segs : List (List Byte)) : State :=
  let m := (js.filter fun j => s.takesSegs stack (ringIndex stripe j)).foldl
    (fun m j => mput m (segKey stack stripe j) (segs.getD j [])) s.mem.segs
  { s with mem := { s.mem with segs := m } }

/-- The bits of two stripes combined: what soft errors leave of one. -/
def flipStripe (segs flips : List (List Byte)) : List (List Byte) :=
  (List.range 10).map fun j =>
    let f := flips.getD j []
    ((segs.getD j []).zip (List.range 72)).map fun b => b.1 ^^^ f.getD b.2 0

/-- Soft errors strike a stripe: they stay in it until it is written (R301). -/
def State.strikeStripe (s : State) (stack stripe : Nat) (flips : List (List Byte)) : State :=
  if flips.all fun f => f.all (· == 0) then s
  else s.putSegs stack stripe (List.range 10) (flipStripe (s.stripeAt stack stripe) flips)

/-- The segments of a stripe on erased ranks (R302). -/
def State.erasedSegs (s : State) (stack stripe : Nat) : List Nat :=
  if s.rd (R.HBC_SPARES_erased stack) = 0 then []
  else (List.range 10).filter fun j =>
    match s.rankAt stack (ringIndex stripe j) with | some r => s.on (R.HBC_RANK_LC_erased stack r) | none => false

end Sys2Proof.Machine
end

