-- ==== Sys2Proof/Machine/Ranks.lean ====
section
/-!
DEFINITION. Machine/Ranks.lean: the accesses of a stripe (R264, R299 to R303), the ranks they are charged to and how ranks are retired
(R305 to R309).
-/

namespace Sys2Proof.Machine

/-! ### Accesses -/

/-- The accesses of one stripe counted: 640 bytes and ten segments (R264, R484). -/
def State.stripeWritten (s : State) (stack : Nat) : State :=
  (s.add64 (R.HBC_WR_BYTES_LO_bytes_lo stack) (R.HBC_WR_BYTES_HI_bytes_hi stack) 640).pmuTd 0x111 stack 10
def State.stripeRead (s : State) (stack : Nat) : State :=
  (s.add64 (R.HBC_RD_BYTES_LO_bytes_lo stack) (R.HBC_RD_BYTES_HI_bytes_hi stack) 640).pmuTd 0x110 stack 10

/-! ### Ranks -/

/-- The roles of a rank (R305, R326). -/
def roRing : Nat := 0
def roSpare : Nat := 1
def roReceiving : Nat := 2
def roRetired : Nat := 3

/-- A rank's role and whether it is erased. -/
def State.role (s : State) (k r : Nat) : Nat := s.rd (R.HBC_RANK_LC_role k r)
def State.isErased (s : State) (k r : Nat) : Bool := s.on (R.HBC_RANK_LC_erased k r)

/-- The free spare of a stack with the lowest rank number (R306). -/
def State.freeSpare (s : State) (k : Nat) : Option Nat :=
  firstIdx 128 fun r => s.role k r == roSpare && s.rd (R.HBC_RANK_LC_state k r) == lcUp

/-- HBC_SPARES brought in line with the ranks. -/
def State.countSpares (s : State) (k : Nat) : State :=
  let free := (List.range 128).filter fun r => s.role k r == roSpare && s.rd (R.HBC_RANK_LC_state k r) == lcUp
  let s := s.wr (R.HBC_SPARES_free k) free.length
  s.wr (R.HBC_SPARES_erased k) (((List.range 128).filter fun r => s.isErased k r).length)

/-- HBC_MIG_STATUS brought in line with the migration that runs in a stack (R307). -/
def State.showMigration (s : State) (k : Nat) : State :=
  match s.mem.migs.find? fun m => m.1 == k with
  | some (_, r, t) =>
    (((s.wr (R.HBC_MIG_STATUS_busy k) 1).wr (R.HBC_MIG_STATUS_rank k) r).wr (R.HBC_MIG_STATUS_target k) t).wr
      (R.HBC_MIG_STATUS_pct k) 0
  | none => s.wr (R.HBC_MIG_STATUS_busy k) 0

/-- The role of a rank recorded in the journal (R312). -/
def State.journalRole (s : State) (k r role idx : Nat) : State :=
  { s with mem := { s.mem with journal := mput s.mem.journal (128 * k + r) (role + 8 * idx) } }

/-- A rank erased in place, recorded in the journal: bit 20 beside its role and ring index. -/
def State.journalErased (s : State) (k r idx : Nat) : State :=
  { s with mem := { s.mem with journal := mput s.mem.journal (128 * k + r) (roRing + 8 * idx + 2 ^ 20) } }

/-- A rank in the ring is retired (R306, R309): into the free spare with the lowest number; deferred while two ranks are erased;
erased in place when no spare is free, which one that is erased already stays. -/
def State.retireRank (s : State) (k r : Nat) : State :=
  if s.role k r ≠ roRing ∨ s.rd (R.HBC_RANK_LC_state k r) ≠ lcUp ∨ (s.isErased k r && (s.freeSpare k).isNone) then s
  else if 2 ≤ s.rd (R.HBC_SPARES_erased k) && !s.isErased k r then
    if s.mem.deferred.contains (k, r) then s
    else
      ({ s with mem := { s.mem with deferred := s.mem.deferred ++ [(k, r)] } }.errLog 3 6 k (some r) 0).eventOn
        sevErr 1 (R.HBC_RANK_LC k r) false
  else
    let idx := s.rd (R.HBC_RANK_LC_ring_index k r)
    let s := s.wr (R.HBC_RANK_LC_erased k r) 1
    match s.freeSpare k with
    | some t =>
      let s := (s.setLc (R.HBC_RANK_LC k r) lcDraining).wr (R.HBC_RANK_LC_role k t) roReceiving
      let s := { s with mem := { s.mem with migs := s.mem.migs ++ [(k, r, t)] } }
      let s := ((s.journalRole k r roRetired 0x7F).journalRole k t roRing idx).countSpares k
      ((s.showMigration k).errLog 2 6 k (some r) 0).eventOn sevErr 1 (R.HBC_RANK_LC k r) false
    | none => (((s.journalErased k r idx).countSpares k).errLog 5 6 k (some r) 0).eventOn sevCrit 1 (R.HBC_RANK_LC k r) false

/-- A spare that fails while a migration fills it (R308): retired at once; the migration restarts into the next free spare, and
without one the retiring rank is erased in place. -/
def State.retireReceiving (s : State) (k t : Nat) : State :=
  match s.mem.migs.find? fun m => m.1 == k && m.2.2 == t with
  | none => s
  | some (_, r, _) =>
    let idx := s.rd (R.HBC_RANK_LC_ring_index k r)
    let s := (s.setLc (R.HBC_RANK_LC k t) lcDown).wr (R.HBC_RANK_LC_role k t) roRetired
    let s := s.journalRole k t roRetired 0x7F
    match s.freeSpare k with
    | some u =>
      let s := (s.wr (R.HBC_RANK_LC_role k u) roReceiving).journalRole k u roRing idx
      let migs := s.mem.migs.map fun m => if m = (k, r, t) then (k, r, u) else m
      let s := ({ s with mem := { s.mem with migs := migs } }.countSpares k).showMigration k
      (s.errLog 2 6 k (some t) 0).eventOn sevErr 1 (R.HBC_RANK_LC k t) false
    | none =>
      let s := { s with mem := { s.mem with migs := s.mem.migs.erase (k, r, t) } }
      let s := ((s.setLc (R.HBC_RANK_LC k r) lcUp).journalErased k r idx).countSpares k
      ((s.showMigration k).errLog 5 6 k (some r) 0).eventOn sevCrit 1 (R.HBC_RANK_LC k r) false

/-- A correctable event against a rank (R305, R306). -/
def State.chargeCe (s : State) (k r : Nat) : State :=
  let s := s.bump (R.HBC_RANK_CNT_ce k r)
  if s.rd (R.HBC_RANK_CFG_ce_threshold k) ≤ s.rd (R.HBC_RANK_CNT_ce k r) then
    (if s.role k r = roReceiving then s else s.retireRank k r) else s

/-- An uncorrectable charge to a rank (R305, R306, R308). -/
def State.chargeUe (s : State) (k r : Nat) : State :=
  let s := s.bump (R.HBC_RANK_CNT_ue k r)
  if s.rd (R.HBC_RANK_CFG_ue_threshold k) ≤ s.rd (R.HBC_RANK_CNT_ue k r) then
    (if s.role k r = roReceiving then s.retireReceiving k r else s.retireRank k r) else s

/-- A stripe's address as patrol records and the error log give it (R319). -/
def stripeAddr (stack stripe : Nat) : Nat := stripe + 2 ^ 27 * stack

/-- What a stripe read finds (R302): whether its data is poisoned, the located segment, the segments as decoded. -/
structure StripeRead where
  bad     : Bool
  located : Option Nat
  segs    : List (List Byte)

/-- A stripe read and decoded, with the state in which the read is counted and charged (R302, R303, R305, R313, R324). -/
def State.readStripe (s : State) (k stripe : Nat) : StripeRead × State :=
  let erased := s.erasedSegs k stripe
  let d := decodeStripe erased (s.stripeAt k stripe)
  let rankOf (j : Nat) := s.rankAt k (ringIndex stripe j)
  let s := s.stripeRead k
  match d.verdict with
  | .uncorrectable =>
    let s := ((s.bump (R.HBC_STRIPE_UE_count k)).bump (R.MIF_POISON_SRC_count 0)).uncorrectable 6 1 k (stripeAddr k stripe)
    (⟨true, none, d.segs⟩, if erased.isEmpty then s.each (d.located.filterMap rankOf) fun r s => s.chargeUe k r else s)
  | v =>
    let s := match v with
      | .corrected p =>
        let s := (s.bump (R.HBC_CORRECTED_count k)).bump (R.MIF_CE_count 6)
        (match rankOf p with | some r => s.chargeCe k r | none => s)
      | .erasure => s.bump (R.HBC_ERASURE_FIX_count k)
      | _ => s
    let bad := stripePoison d.segs
    (⟨bad, (match v with | .corrected p => some p | _ => none), d.segs⟩, s.onlyIf bad fun s => s.bump (R.MIF_POISON_SRC_count 0))

/-! ### Writes -/

/-- The metadata of a stripe (R300), its CRC left out: kind 1 a buffer tile, 2 a staging tile, 3 a table stripe, 4 written by the
diagnostic window. -/
def stripeMd (kind : Nat) (poison : Bool) (count first queue seq turn : Nat) : List Byte :=
  [1, BitVec.ofNat 8 (bit01 poison + 2 * kind)] ++ leBytes 2 count ++ leBytes 2 first ++ leBytes 3 queue ++ [0] ++ leBytes 8 seq ++
    leBytes 4 turn ++ List.replicate 38 0

/-- A whole stripe written as one group of ten segment writes (R299 to R301). -/
def State.writeStripe (s : State) (k stripe : Nat) (data md : List Byte) : State :=
  (s.putSegs k stripe (List.range 10) (encodeStripe data md)).stripeWritten k

/-- A write that covers part of a stripe of the table partition (R301): a read-modify-write. What was uncorrectable or poisoned stays
poisoned unless all 512 data bytes are written. -/
def State.mergeStripe (s : State) (k stripe off : Nat) (bytes : List Byte) : State :=
  let r := s.readStripe k stripe
  let bad := r.1.bad && bytes.length < 512
  r.2.writeStripe k stripe (overlay (stripeData r.1.segs) off bytes) (stripeMd 3 bad 0 0xFFFF 0 0 s.time.turn)

end Sys2Proof.Machine
end

