-- ==== Sys2Proof/Machine/Partition.lean ====
section
/-!
DEFINITION. Machine/Partition.lean: the HBM table partition (R265, R267): where its bytes lie, where HBM tables and the reservoir page
table stand in it, and the accesses to it.
-/

namespace Sys2Proof.Machine

/-- Where data byte `x` of the table partition lies (R267): stack, local stripe, byte of that stripe's tile. -/
def partPlace (x : Nat) : Nat × Nat × Nat := (x / 512 % 6, x / 3072, x % 512)

/-- Data bytes of the table partition: table_pages a stack of 16 KiB (R265). -/
def State.partSize (s : State) : Nat := 6 * 16384 * s.rd R.HBC_PART_table_pages

/-- Bytes of the reservoir page table, which takes the first part of the partition: 32 for every page attached (R267, R283). -/
def State.pageTable (s : State) : Nat := 32 * sumOf (fun n => s.rd (R.RSV_PORT_CAP_pages n)) (List.range 8)

/-- The tiles that hold bytes `x` to `x + n - 1` of the partition, with the byte of each at which they begin and how many lie there. -/
def partTiles (x n : Nat) : List (Nat × Nat × Nat) :=
  if n = 0 then []
  else (List.range ((x + n - 1) / 512 - x / 512 + 1)).map fun i =>
    let tile := x / 512 + i
    let lo := max x (512 * tile)
    (tile, lo, min (x + n) (512 * tile + 512) - lo)

/-- Bytes written into the partition, stripe by stripe (R301). -/
def State.writePart (s : State) (x : Nat) (bytes : List Byte) : State :=
  s.each (partTiles x bytes.length) fun t s =>
    let p := partPlace t.2.1
    s.mergeStripe p.1 p.2.1 p.2.2 (slice bytes (t.2.1 - x) t.2.2)

/-- Bytes of the partition read: whether any of their stripes was poisoned (R167, R303). -/
def State.readPart (s : State) (x n : Nat) : Bool × State :=
  (partTiles x n).foldl (fun r t =>
    let p := partPlace t.2.1
    let a := r.2.readStripe p.1 p.2.1
    (r.1 || a.1.bad, a.2)) (false, s)

/-- The bytes of the partition as they decode, without an access. -/
def State.peekPart (s : State) (x n : Nat) : List Byte :=
  (partTiles x n).flatMap fun t =>
    let p := partPlace t.2.1
    slice (stripeData (decodeStripe (s.erasedSegs p.1 p.2.1) (s.stripeAt p.1 p.2.1)).segs) p.2.2 t.2.2

/-- A part of the partition cleared for a new table: its stripes are as the fill left them. -/
def State.clearPart (s : State) (x n : Nat) : State :=
  let gone (e : Nat × List Byte) : Bool :=
    let tile := ((e.1 % 2 ^ 23 * 124 + e.1 / 2 ^ 23 % 128) / 10 * 6 + e.1 / 2 ^ 30)
    decide (x ≤ 512 * tile) && decide (512 * tile < x + n)
  { s with mem := { s.mem with segs := s.mem.segs.filter fun e => !gone e } }

/-! ### HBM tables -/

/-- Bytes of the partition that a table takes, whole tiles. -/
def ExmDecl.partLen (d : ExmDecl) : Nat := ceilDiv d.bytes 512 * 512

/-- The place of a new HBM table (R267): the highest that is free, so that the reservoir page table can grow (DESIGN CHOICE,
notes/assumptions/190.md); none when there is no such place, or while the HBM is not released (R494). -/
def State.partBase (s : State) (d : ExmDecl) : Option Nat :=
  if s.on R.GLB_SERVICE_hbm_fault then none else
  let used := (s.tab.exm.filter fun e => e.2.d.hbm).map fun e => (e.2.base, e.2.base + e.2.d.partLen)
  let n := d.partLen
  let tops := (s.partSize :: used.map (·.1)).filter fun top => decide (s.pageTable + n ≤ top) &&
    used.all fun u => decide (u.2 ≤ top - n) || decide (top ≤ u.1)
  if tops.isEmpty then none else some (tops.foldl max 0 - n)

/-- The first byte of a bucket in the partition. -/
def ExmTable.bucketBase (t : ExmTable) (copy b : Nat) : Nat := t.base + (copy * t.d.buckets + b) * t.d.bucketBytes

/-- The buckets, with their copy, in which two versions of a table differ. -/
def changedBuckets (old new : ExmTable) : List (Nat × Nat) :=
  (((old.cells.filter fun e => mget new.cells e.1 != some e.2) ++ new.cells.filter fun e => mget old.cells e.1 != some e.2).map
    fun e => (cellCopy e.1, cellBucket e.1)).eraseDups.filter fun b => b.2 < new.d.buckets

/-- The buckets of an HBM table that a change touches are written to the partition (R267, R301). -/
def State.storeBuckets (s : State) (old new : ExmTable) : State :=
  if new.d.hbm then s.each (changedBuckets old new) fun b s => s.writePart (new.bucketBase b.1 b.2) (new.memImage b.1 b.2) else s

/-- A bucket read by a lookup or by the host (R142, R167): in HBM its stripes are read; whether it reads poisoned: a poisoned stripe, or an
uncorrectable word of the table SRAM. -/
def State.readBucket (s : State) (t : ExmTable) (copy b : Nat) : Bool × State :=
  if t.d.hbm && b < t.d.buckets then s.readPart (t.bucketBase copy b) t.d.bucketBytes
  else (t.bad.any fun a => cellCopy a == copy && cellBucket a == b, s)

/-- Whether the bytes of the partition lie in a poisoned stripe, without an access. -/
def State.partPoison (s : State) (x n : Nat) : Bool :=
  (partTiles x n).any fun t =>
    let p := partPlace t.2.1
    let d := decodeStripe (s.erasedSegs p.1 p.2.1) (s.stripeAt p.1 p.2.1)
    d.verdict == .uncorrectable || stripePoison d.segs

/-- Whether a slot reads poisoned (R167): a stripe with its metadata word or its data is poisoned, or its word in SRAM is uncorrectable. -/
def State.slotPoison (s : State) (t : ExmTable) (a : Nat) : Bool :=
  if t.d.hbm && cellBucket a < t.d.buckets then
    let x := t.bucketBase (cellCopy a) (cellBucket a)
    s.partPoison (x + 4 * cellSlot a) 4 || s.partPoison (x + 16 + t.d.width / 8 * cellSlot a) (t.d.width / 8)
  else t.bad.contains a

/-- Several buckets read. -/
def State.readBuckets (s : State) (t : ExmTable) (copy : Nat) (bs : List Nat) : Bool × State :=
  bs.foldl (fun r b => let a := r.2.readBucket t copy b; (r.1 || a.1, a.2)) (false, s)

/-- The words of a table in SRAM that a change writes are whole again (R317). -/
def ExmTable.mendedBy (new old : ExmTable) : ExmTable :=
  { new with bad := new.bad.filter fun a => mget new.cells a == mget old.cells a }

/-! ### The reservoir page table -/

/-- The record of reservoir page `i`, 32 bytes (R283): the owning queue, the page's successor, its packet count, its stored bytes and its
youngest age base. Their places in the record are not the spec's (a free layout, notes/assumptions/191.md). -/
def pageRecord (queue next count bytes youngest : Nat) : List Byte :=
  (List.range 32).map fun k => BitVec.ofNat 8 (Config.pageRecord queue next count bytes youngest k)

/-- The number of a reservoir page: those of the ports before it, then its own. -/
def State.resIndex (s : State) (p : ResPage) : Nat := sumOf (fun n => s.rd (R.RSV_PORT_CAP_pages n)) (List.range p.port) + p.page

/-- The record of a reservoir page written (R283, R288). -/
def State.putPageRecord (s : State) (p : ResPage) (queue next count bytes youngest : Nat) : State :=
  s.writePart (32 * s.resIndex p) (pageRecord queue next count bytes youngest)

end Sys2Proof.Machine
end

