-- ==== Sys2Proof/Machine/ExmOps.lean ====
section
/-!
DEFINITION. Machine/ExmOps.lean: the exact-match tables in the state: the registers that show a table (R168), iterations (R160), learn
records (R157), a table set, and the settling of learned entries (R148, R153).
-/

namespace Sys2Proof.Machine

/-! ### The registers of a table, and records -/

/-- The stash entries a copy uses. -/
def ExmTable.stashUsed (t : ExmTable) (copy : Nat) : Nat :=
  (t.cells.filter fun e => cellCopy e.1 == copy && t.d.buckets ≤ cellBucket e.1).length

/-- EXM_TBL_t brought in line with a table (R168); `stash` is that of the fullest copy (notes/assumptions/173.md). -/
def State.syncExm (s : State) (i : Nat) : State :=
  match mget s.tab.exm i with
  | none => s.each (List.range 6) fun w s => s.wrWord (R.EXM_TBL_w0 i + 4 * w) 0
  | some t =>
    let d := t.d
    let s := s.wr (R.EXM_TBL_w0_kind i) (if d.subOf.isSome then 3 else if d.learning then 2 else 1)
    let s := s.wrBit (R.EXM_TBL_w0_hbm i) d.hbm
    let s := s.wr (R.EXM_TBL_w0_width i) (if d.width = 64 then 0 else if d.width = 128 then 1 else if d.width = 256 then 2 else 3)
    let s := s.wrBit (R.EXM_TBL_w0_use_a i) (bitAt t.slots 0)
    let s := s.wrBit (R.EXM_TBL_w0_use_b i) (bitAt t.slots 1)
    let s := s.wrBit (R.EXM_TBL_w0_overlap i) t.overlap.isSome
    let s := s.wrBit (R.EXM_TBL_w0_dma_mode i) t.decl.dma
    let s := s.wr (R.EXM_TBL_w0_delay i) (d.delay - 1)
    let s := s.wr (R.EXM_TBL_w0_table_id i) t.decl.id
    let s := s.wr (R.EXM_TBL_w1_buckets i) d.buckets
    let s := s.wr (R.EXM_TBL_w2_entries i) t.cells.length
    let s := s.wr (R.EXM_TBL_w3_stash i) (((List.range t.copies).map t.stashUsed).foldl max 0)
    s.wr (R.EXM_TBL_w3_locked i) t.locks.length

/-- The entries of a copy that a change moved from one cell to another: key, cell before, cell after, copy left out (R148). -/
def movedCells (old new : ExmTable) (copy : Nat) : List (Nat × Nat × Nat) :=
  old.cells.filterMap fun e =>
    if cellCopy e.1 != copy || mget new.cells e.1 == some e.2 then none
    else
      (new.cells.find? fun f => cellCopy f.1 == copy && f.2 == e.2 && mget old.cells f.1 != some e.2).map fun f =>
        (old.d.keyOf e.2.bits, e.1 % 2 ^ 40, f.1 % 2 ^ 40)

/-- An iteration over a copy in which an entry moved (R160): moved from ahead of the cursor to behind it, it is returned
later; moved from behind to ahead, it is suppressed. A list of more than 1,024 keys overflows. -/
def IterCtx.note (x : IterCtx) (m : Nat × Nat × Nat) : IterCtx :=
  let x := if x.cursor ≤ m.2.1 ∧ m.2.2 < x.cursor then
      (if x.seen.contains m.1 then { x with seen := x.seen.erase m.1 } else { x with late := x.late ++ [m.1] })
    else if m.2.1 < x.cursor ∧ x.cursor ≤ m.2.2 then
      (if x.late.contains m.1 then { x with late := x.late.erase m.1 } else { x with seen := x.seen ++ [m.1] })
    else x
  { x with overflow := x.overflow || 1024 < x.late.length || 1024 < x.seen.length }

/-- The stash entries a change moved back into their buckets (R148). -/
def pulledBack (old new : ExmTable) : Nat :=
  (old.cells.filter fun e =>
    old.d.buckets ≤ cellBucket e.1 && (mget new.cells e.1).all (fun c => c.bits != e.2.bits) &&
    new.cells.any fun f => cellCopy f.1 == cellCopy e.1 && cellBucket f.1 < old.d.buckets && f.2.bits == e.2.bits &&
      (mget old.cells f.1).all fun c => c.bits != e.2.bits).length

/-- An exact-match table set, with its registers; open iterations follow what moved, and the buckets of an HBM table that change are
written to the table partition (R267, R301). -/
def State.putExm (s : State) (i : Nat) (t : ExmTable) : State :=
  let iters := match mget s.tab.exm i with
    | some old => s.tab.iters.map fun e =>
        if e.2.table = i then (e.1, (movedCells old t e.2.copy).foldl IterCtx.note e.2) else e
    | none => s.tab.iters
  let old := (mget s.tab.exm i).getD { t with cells := [] }
  let t := t.mendedBy old
  (({ s with tab := { s.tab with exm := mput s.tab.exm i t, iters := iters } }).storeBuckets old t).syncExm i

/-- An exact-match table set by the device's own update, which counts the stash entries it moved back (R148, R168). -/
def State.setExm (s : State) (i : Nat) (t : ExmTable) : State :=
  let n := match mget s.tab.exm i with | some old => pulledBack old t | none => 0
  (s.putExm i t).count (R.EXM_TBL_w4_moves i) n

/-- The exact-match table that a slot declares under an identifier (R78). -/
def State.findExm (s : State) (slot id : Nat) : Option (Nat × ExmTable) :=
  s.tab.exm.find? fun e => e.2.decl.id == id && bitAt e.2.slots slot

/-- The record types of R157. -/
def lrLearn : Nat := 1
def lrMove : Nat := 2
def lrAge : Nat := 3
def lrFull : Nat := 4
def lrLocked : Nat := 5

/-- The header of a learn record or of a result record (R157, R159), without the sequence number. -/
def recHead (type pipe slot tableId seq turn bucket slotIdx extra : Nat) : List Byte :=
  [BitVec.ofNat 8 type, BitVec.ofNat 8 (pipe + 8 * slot)] ++ leBytes 2 tableId ++ leBytes 4 seq ++ leBytes 8 turn ++
    leBytes 4 bucket ++ [BitVec.ofNat 8 slotIdx] ++ List.replicate 3 0 ++ leBytes 4 extra ++ List.replicate 4 0

/-- The bucket and slot fields of a record: a stash entry has bucket 0xFFFF_FFFF and its index. -/
def ExmDecl.recPlace (d : ExmDecl) (a : Nat) : Nat × Nat :=
  if d.buckets ≤ cellBucket a then (0xFFFFFFFF, a % 2 ^ 40 - d.buckets * 4) else (cellBucket a, cellSlot a)

/-- A record put into the learn FIFO, or lost when the FIFO is full (R157, R158). A lost record takes its number too, so that a gap
in seq shows it. -/
def State.learnRecord (s : State) (type : Nat) (t : ExmTable) (pipe turn a bits : Nat) : State :=
  let q := (s.tab.learnSeq + 1) % Config.mod32
  if 65536 ≤ s.tab.learnFifo.length then
    ({ s with tab := { s.tab with learnSeq := q } }.bump R.EXM_LFIFO_LOST_count).wr R.EXM_LFIFO_STATUS_lost 1
  else
    let p := t.d.recPlace a
    let r := (recHead type pipe (if bitAt t.slots 0 then 0 else 1) t.decl.id q turn p.1 p.2 0) ++ leBytes 32 bits
    let s := { s with tab := { s.tab with learnSeq := q, learnFifo := s.tab.learnFifo ++ [r] } }
    s.wr R.EXM_LFIFO_STATUS_fill s.tab.learnFifo.length

/-- A cell whose publication turn has passed (R148, R153, R157): a pending one becomes always, with its LEARN or MOVE record, and the
slot it moved from is freed; a retiring one is freed. A locked bucket waits (R164). -/
def State.settle (s : State) (i a : Nat) : State :=
  match mget s.tab.exm i with
  | none => s
  | some t =>
    match mget t.cells a with
    | none => s
    | some c =>
      let τ := s.time.turn
      let key := t.d.keyOf c.bits
      let twin (x : Nat × ECell) (st : Nat) : Bool :=
        cellCopy x.1 == cellCopy a && t.d.keyOf x.2.bits == key && x.2.state == st && x.2.pub == c.pub
      if t.locked (cellCopy a) (cellBucket a) then s
      else if c.state = 4 ∧ t.shows τ c then
        let moved := t.cells.any fun x => twin x 5
        let t := { t with cells := mput t.cells a { c with state := 1 } }
        let t := t.remove fun b x => twin (b, x) 5
        let P := τ - (τ + 4096 - c.pub) % 4096
        (s.setExm i t).learnRecord (if moved then lrMove else lrLearn) t (cellCopy a) P a c.bits
      else if c.state = 5 ∧ !t.shows τ c ∧ !(t.cells.any fun x => twin x 4) then s.setExm i (t.remove fun b _ => b == a)
      else s

end Sys2Proof.Machine
end

