-- ==== Sys2Proof/Machine/Command.lean ====
section
/-!
DEFINITION. Machine/Command.lean: the rights and DMA windows a command is checked against (R429, R448, R451, R457, R459),
and what every command has in common.
-/

namespace Sys2Proof.Machine

/-- The first byte of DMA window `w` of a function (R448, R464). -/
def State.winBase (s : State) (fn w : Nat) : Nat :=
  s.rd (R.HAC_DMAW_w0_base_lo fn w) * 4096 + s.rd (R.HAC_DMAW_w1_base_hi fn w) * 2 ^ 32

/-- The byte after the last 4 KiB page of DMA window `w` of a function. -/
def State.winEnd (s : State) (fn w : Nat) : Nat :=
  s.rd (R.HAC_DMAW_w2_limit_lo fn w) * 4096 + s.rd (R.HAC_DMAW_w3_limit_hi fn w) * 2 ^ 32 + 4096

/-- Whether an extent of host memory lies inside one enabled DMA window of a function (R448). -/
def State.inWindow (s : State) (fn addr len : Nat) : Bool :=
  (List.range 8).any fun w =>
    s.on (R.HAC_DMAW_w0_en fn w) && s.winBase fn w ≤ addr && addr + len ≤ s.winEnd fn w

/-- The command in flight that a completion's ring and tag name. -/
def State.flight (s : State) (fn ring tag : Nat) : Option InFlight :=
  s.host.inFlight.find? fun x => x.fn == fn && x.ring == ring && x.tag == tag

/-- Whether a command has been fetched and checked (R446, R450). -/
def State.admitted (s : State) (c : Cmd) : Bool :=
  match c.src with | .ring f r t => (s.flight f r t).isSome | .firmware => true | .remote _ _ _ => false

/-- Whether the issuing function holds every right a command needs (R429). -/
def State.hasRights (s : State) (c : Cmd) (need : List Fld) : Bool := cmdFn c == 0 || need.all fun f => s.on f

/-- Whether every extent a command addresses lies inside a window of its function (R448). A remote request's data stays
on the source device. -/
def State.hasWindows (s : State) (c : Cmd) (extents : List (Nat × Nat)) : Bool :=
  match c.src with | .ring f _ _ => extents.all fun e => s.inWindow f e.1 e.2 | _ => true

/-- Whether a command completes NOT_READY (R491): before core release every one but FW_CRUMB and FW_VERIFY, which run from the end of stage 2. -/
def State.tooEarly (s : State) (opcode : Nat) : Bool :=
  !s.svc.coreRun && !(s.svc.fwRunning && (opcode == 0x38 || opcode == 0x39))

/-- Whether a command has its final completion already, or waits for the fixed time of its refusal. -/
def State.answered (s : State) (c : Cmd) : Bool :=
  match c.src with
  | .ring f r t =>
    (s.host.cplQueue.any fun x => x.fn == f && x.ring == r && x.tag == t && x.final) ||
    s.host.refusing.any fun x => x.fn == f && x.cmd == some (r, t)
  | _ => false

/-- A command that has passed its checks of rights and windows when it was fetched runs; one that was not fetched is
checked now (R446, R451, R457, R459). While the management cores hand over to a new image, a new command completes
BUSY_RETRY (R534). -/
def State.command (s : State) (c : Cmd) (opcode : Nat) (need : List Fld) (extents : List (Nat × Nat))
    (k : State → State) : State :=
  if s.answered c then s
  else if s.admitted c then k s
  else if !s.hasRights c need then s.refuse c secRight 0 opcode
  else if !s.hasWindows c extents then s.refuse c secWindow ((extents.head?.map (·.1)).getD 0) opcode
  else if s.tooEarly opcode then s.complete c stNotReady
  else if s.svc.handover then s.complete c stBusyRetry
  else k s

/-- The grant of an associative table, an exact-match table and a stateful array to PF1 (R429, R464). -/
def grantAsm (t : Nat) : Fld := ⟨R.HAC_PF1_ASM, t % 32, 1⟩
def grantExm (t : Nat) : Fld := ⟨if t < 32 then R.HAC_PF1_EXM_LO else R.HAC_PF1_EXM_HI, t % 32, 1⟩
def grantArr (a : Nat) : Fld := ⟨if a < 32 then R.HAC_PF1_ARR_LO else R.HAC_PF1_ARR_HI, a % 32, 1⟩

/-- The grant of a TD table by its identifier (HAC_PF1_TDT), if it is one. -/
def grantTdt (id : Nat) : Option Fld :=
  if 0x100 ≤ id && id ≤ 0x102 then some ⟨R.HAC_PF1_TDT, 0, 1⟩
  else if 0x110 ≤ id && id ≤ 0x111 then some ⟨R.HAC_PF1_TDT, 1, 1⟩
  else if 0x120 ≤ id && id ≤ 0x126 then some ⟨R.HAC_PF1_TDT, 2, 1⟩
  else if 0x130 ≤ id && id ≤ 0x131 then some ⟨R.HAC_PF1_TDT, 3, 1⟩
  else if id = 0x200 then some ⟨R.HAC_PF1_TDT, 4, 1⟩
  else none

/-- The right a command needs at its opcode (R429, R464), beside its targets' grants; commands with no right of their own
to grant (firmware activation and revert, R532) need one that PF1 never has. -/
def rightOf (opcode : Nat) : List Fld :=
  if opcode = 0x03 then [R.HAC_PF1_RIGHTS_flush]
  else if 0x10 ≤ opcode && opcode ≤ 0x14 then [R.HAC_PF1_RIGHTS_txn]
  else if opcode = 0x20 then [R.HAC_PF1_RIGHTS_snap]
  else if opcode = 0x28 || opcode = 0x29 then [R.HAC_PF1_RIGHTS_hold]
  else if opcode = 0x30 || opcode = 0x31 then [R.HAC_PF1_RIGHTS_recipe]
  else if opcode = 0x38 || opcode = 0x39 then [R.HAC_PF1_RIGHTS_fw_crumb]
  else if opcode = 0x40 || opcode = 0x41 then [R.HAC_PF1_RIGHTS_remote]
  else if opcode = 0x01 || opcode = 0x02 then []
  else [neverGranted]
where
  /-- A reserved bit of HAC_PF1_RIGHTS, which reads as zero. -/
  neverGranted : Fld := ⟨R.HAC_PF1_RIGHTS, 31, 1⟩

/-- The grant that a table named by slot and identifier needs (SEARCH, NEXT, FLUSH_PORT, TXN_STAGE): none where the table
is not declared, which the command itself turns away. -/
def State.tableGrant (s : State) (slot id : Nat) : List Fld :=
  match s.findAsm slot id with
  | some e => [grantAsm e.1]
  | none => match s.findExm slot id with | some e => [grantExm e.1] | none => []

end Sys2Proof.Machine
end

