-- ==== Sys2Proof/Machine/Ports.lean ====
section
/-!
DEFINITION. Machine/Ports.lean: what a line port is (R398, R412, R413, R420): its mode, lanes and rate, the tributary slots of an OTN
port and of a packet client.
-/

namespace Sys2Proof.Machine

/-- The mode of a port. -/
def State.mode (s : State) (p : Nat) : Nat := s.rd (R.LIF_PORT_CFG_mode p)

/-- Whether a mode is an Ethernet port, an OTN port, a packet client (R398). -/
def isEther (m : Nat) : Bool := m ≤ 9
def isOtn (m : Nat) : Bool := m == 10 || m == 11
def isClient (m : Nat) : Bool := m == 12

/-- The lanes a port of a mode covers, from its first (R398); `code` is otn_lanes. -/
def laneCount (m code : Nat) : Nat :=
  match m with
  | 0 => 8 | 1 => 8 | 2 => 4 | 3 => 4 | 4 => 2 | 10 => 2 ^ code | 11 => 2 ^ code | 12 => 0 | 15 => 0 | _ => 1

/-- The lanes of a port. -/
def State.lanes (s : State) (p : Nat) : Nat := laneCount (s.mode p) (s.rd (R.LIF_PORT_CFG_otn_lanes p))

/-- The port whose lanes include lane `l`. -/
def State.portOfLane (s : State) (l : Nat) : Option Nat := firstIdx 128 fun p => p ≤ l && l < p + s.lanes p

/-- The slot indices of an OTN port (R413): the equipped slices 1 to n. -/
def State.otnSlots (s : State) (p : Nat) : List Nat :=
  (List.range (s.rd (R.OTN_PORT_CFG_n p))).flatMap fun a =>
    let base := if s.mode p = 10 then 40 * (p + a / 2) + 20 * (a % 2) else 40 * (p + a)
    (List.range 20).map fun b => base + b

/-- The FlexO instances of a port (R412). -/
def State.flexos (s : State) (p : Nat) : Nat := s.lanes p * (if s.mode p = 10 then 2 else 1)

/-- The connection memory's active page: 0 A, 1 B. -/
def State.cmPage (s : State) : Nat := s.rd R.OTN_TSI_STATUS_active

/-- An entry of a page of the connection memory. -/
def State.cmWord (s : State) (page g : Nat) : Nat :=
  (if page = 0 then s.rdWord (R.OTN_CM_A g) else s.rdWord (R.OTN_CM_B g)).toNat
def cmSrc (w : Nat) : Nat := bitsAt w 0 13
def cmValid (w : Nat) : Bool := bitAt w 13
def cmType (w : Nat) : Nat := bitsAt w 14 4
def cmTpn (w : Nat) : Nat := bitsAt w 18 11

/-- The transmit slots of a packet client in a page (R420). -/
def State.clientSlots (s : State) (page c : Nat) : List Nat :=
  (s.otnSlots (s.rd (R.OTN_CLIENT_w0_otn_port c))).filter fun g =>
    let w := s.cmWord page g
    cmValid w && cmSrc w == 0x1FFF && cmTpn w == s.rd (R.OTN_CLIENT_w0_tpn c)

/-- The rate of a port in Mb/s (R398); a client's is that of its 5G slots (R420). -/
def State.portRate (s : State) (p : Nat) : Nat :=
  match s.mode p with
  | 0 => 1600000 | 1 => 800000 | 2 => 800000 | 3 => 400000 | 4 => 400000 | 5 => 200000 | 6 => 100000 | 7 => 50000
  | 8 => 25000 | 9 => 10000
  | 12 => 5000 * (s.clientSlots s.cmPage p).length
  | _ => 0

/-- The oldest timestamp of a port's FIFO popped into its registers (R410); with nothing in it the tag reads 0, not valid. -/
def State.tsPop (s : State) (p : Nat) : State :=
  match sread (fun _ => []) s.lif.tsFifo p with
  | [] => (s.wr (R.LIF_TS_POP_tag p) 0).wr (R.LIF_TS_POP_valid p) 0
  | (tag, ns, frac) :: rest =>
    let s := { s with lif := { s.lif with tsFifo := swrite (fun _ => []) s.lif.tsFifo p rest } }
    let s := ((s.wr (R.LIF_TS_POP_tag p) tag).wr (R.LIF_TS_POP_valid p) 1).wr (R.LIF_TS_STATUS_fill p) rest.length
    let s := s.wr (R.LIF_TS_NS_ns p) (ns % 1000000000)
    let s := s.wr (R.LIF_TS_SEC_LO_sec_lo p) (ns / 1000000000)
    (s.wr (R.LIF_TS_SEC_HI_sec_hi p) (ns / 1000000000 / 2 ^ 32)).wr (R.LIF_TS_SEC_HI_frac p) frac

/-- What a full read of a register does before its value is taken (R410). -/
def State.readIn (s : State) (a : Nat) : State :=
  let a := a % 0x10000000
  let p := (a - R.LIF_TS_POP 0) / 0x2000
  if R.LIF_TS_POP 0 ≤ a && p < 128 && a == R.LIF_TS_POP p then s.tsPop p else s

/-- The RCLK outputs at high impedance or driven (R56): an output is driven while it is enabled and, with squelch, the port of its lane
has lock. -/
def State.rclkSync (s : State) : State :=
  s.each [0, 1] fun k s =>
    let locked := match s.portOfLane (s.rd (R.TBS_RCLK_CFG_lane k)) with | some p => s.on (R.LIF_PORT_STATUS_pcs_lock p) | none => false
    let hiZ := !s.on (R.TBS_RCLK_CFG_en k) || (s.on (R.TBS_RCLK_CFG_squelch k) && !locked)
    { s with clk := { s.clk with rclkHiZ := swrite (fun _ => true) s.clk.rclkHiZ k hiZ } }

end Sys2Proof.Machine
end

