-- ==== Sys2Proof/Machine/RegOps.lean ====
section
/-!
DEFINITION. Machine/RegOps.lean: what a register write and a register read do where the register has no behaviour of its
own: 64-bit pairs with their latches and staged low words (R434, R435), documented ranges (R442), what PF1 is not shown
(R443, R458), and the values that are computed when they are read (R447).
-/

namespace Sys2Proof.Machine

/-- The key of a pair's latch or staged word for a function: the pair is named by the offset of its low word. -/
def pairKey (fn low : Nat) : Nat := fn * 0x10000000 + low % 0x10000000

/-- The low word staged for a function, or the word last applied (R435). -/
def State.stagedLow (s : State) (fn low : Nat) : Word :=
  match mget s.host.staged (pairKey fn low) with
  | some w => w
  | none => s.rdWord low

/-- A 32-bit write to the low word of a pair: staged for the writing function (R435). -/
def State.stageLow (s : State) (fn low val be : Nat) : State :=
  let m := beMask be
  let w := (s.stagedLow fn low &&& ~~~ m) ||| (BitVec.ofNat 32 val &&& m)
  { s with host := { s.host with staged := mput s.host.staged (pairKey fn low) w } }

/-- The low word a function has staged forgotten: its pair is not written. -/
def State.dropStaged (s : State) (fn low : Nat) : State :=
  { s with host := { s.host with staged := mdel s.host.staged (pairKey fn low) } }

/-- A word written through byte enables to a register whose fields' access codes select its writable bits. -/
def writable (a : Nat) (old new : Word) (be : Nat) : Word :=
  match regAt a with
  | some r => mergeWrite r.fields old new be
  | none => old

/-- The write of a pair's high word applies the pair: with the low word of the same 64-bit write, or the staged low
word, or the current one (R435). -/
def State.applyPair (s : State) (fn low : Nat) (lowVal : Option Nat) (hi be : Nat) : State :=
  let lo := match lowVal with | some v => BitVec.ofNat 32 v | none => s.stagedLow fn low
  let s := s.dropStaged fn low
  let s := s.wrWord low (writable low (s.rdWord low) lo 15)
  s.wrWord (low + 4) (writable (low + 4) (s.rdWord (low + 4)) (BitVec.ofNat 32 hi) be)

/-- A field with a documented range (R442): bytes `first` and then every `stride` up to `stop`, the field's place and the
smallest and largest value. -/
structure Ranged where
  first  : Nat
  stop   : Nat
  stride : Nat
  lsb    : Nat
  width  : Nat
  lo     : Nat
  hi     : Nat
  deriving DecidableEq, Repr

/-- The documented ranges of the fields that software writes (the register tables of spec/). -/
def rangedFields : List Ranged := [
  ⟨0x10000C, 0x100010, 4, 0, 4, 1, 15⟩, ⟨0x10000C, 0x100010, 4, 8, 8, 1, 255⟩,
  ⟨0x100800, 0x100804, 4, 0, 10, 1, 1000⟩, ⟨0x100800, 0x100804, 4, 10, 6, 1, 63⟩,
  ⟨0x100900, 0x100904, 4, 16, 5, 10, 26⟩,
  ⟨R.PRS_CTRL, R.PRS_CTRL + 4, 4, 0, 8, 1, 255⟩,
  ⟨R.ASM_WALK_CFG, R.ASM_WALK_CFG + 4, 4, 0, 8, 10, 200⟩,
  ⟨R.EXM_LFIFO_CFG, R.EXM_LFIFO_CFG + 4, 4, 0, 5, 6, 20⟩, ⟨R.EXM_LFIFO_CFG, R.EXM_LFIFO_CFG + 4, 4, 8, 6, 7, 63⟩,
  ⟨R.PPL_MC_CFG 0, R.PPL_MC_CFG 8, 0x200000, 0, 8, 1, 255⟩,
  ⟨R.TXF_RPL_CTRL, R.TXF_RPL_CTRL + 4, 4, 2, 5, 6, 24⟩,
  ⟨R.BPM_DESC_LIMIT, R.BPM_DESC_LIMIT + 4, 4, 0, 22, 0, 2097152⟩,
  ⟨R.QMG_DROP_MIRROR, R.QMG_DROP_MIRROR + 4, 4, 12, 5, 0, 16⟩,
  ⟨R.HBC_QOS 0, R.HBC_QOS 6, 0x40000, 0, 4, 1, 15⟩, ⟨R.HBC_QOS 0, R.HBC_QOS 6, 0x40000, 16, 7, 5, 90⟩,
  ⟨R.RSV_AUTO_CFG, R.RSV_AUTO_CFG + 4, 4, 8, 10, 1, 600⟩, ⟨R.RSV_AUTO_CFG, R.RSV_AUTO_CFG + 4, 4, 20, 12, 1, 3200⟩,
  ⟨R.MIF_PATROL_CFG, R.MIF_PATROL_CFG + 4, 4, 0, 8, 1, 255⟩, ⟨R.MIF_PATROL_CFG, R.MIF_PATROL_CFG + 4, 4, 16, 8, 1, 255⟩,
  ⟨R.MIF_PR_CFG, R.MIF_PR_CFG + 4, 4, 0, 5, 6, 16⟩, ⟨R.MIF_PR_CFG, R.MIF_PR_CFG + 4, 4, 8, 6, 7, 63⟩,
  ⟨R.HBC_RANK_CFG 0, R.HBC_RANK_CFG 6, 0x40000, 0, 16, 1, 65535⟩,
  ⟨R.HBC_RANK_CFG 0, R.HBC_RANK_CFG 6, 0x40000, 16, 8, 1, 255⟩,
  ⟨R.HBC_RANK_CFG 0, R.HBC_RANK_CFG 6, 0x40000, 24, 4, 1, 15⟩,
  ⟨R.SCH_QSEL_CFG, R.SCH_QSEL_CFG + 4, 4, 0, 6, 0, 48⟩,
  ⟨R.SCH_LC_SEL, R.SCH_LC_SEL + 4, 4, 0, 20, 0, 1048575⟩,
  ⟨R.FAB_CTL_CFG, R.FAB_CTL_CFG + 4, 4, 0, 6, 4, 50⟩,
  ⟨R.FAB_CREDIT_CFG, R.FAB_CREDIT_CFG + 4, 4, 0, 8, 100, 125⟩, ⟨R.FAB_CREDIT_CFG, R.FAB_CREDIT_CFG + 4, 4, 8, 8, 2, 64⟩,
  ⟨R.FAB_CREDIT_CFG, R.FAB_CREDIT_CFG + 4, 4, 16, 8, 1, 255⟩,
  ⟨R.FAB_REORDER_CFG, R.FAB_REORDER_CFG + 4, 4, 0, 8, 1, 255⟩,
  ⟨R.FAB_REACH_CFG, R.FAB_REACH_CFG + 4, 4, 0, 8, 10, 255⟩,
  ⟨R.FAB_MESH_CFG, R.FAB_MESH_CFG + 4, 4, 5, 6, 0, 50⟩,
  ⟨R.FAB_REMOTE_CFG, R.FAB_REMOTE_CFG + 4, 4, 0, 16, 10, 65535⟩,
  ⟨R.LIF_PORT_CFG 0, R.LIF_PORT_CFG 128, 0x2000, 8, 16, 64, 16388⟩,
  ⟨R.OTN_PORT_CFG 0, R.OTN_PORT_CFG 16, R.OTN_PORT_CFG 1 - R.OTN_PORT_CFG 0, 0, 5, 1, 16⟩,
  ⟨R.HAC_EVQ_CFG 0, R.HAC_EVQ_CFG 0 + 4, 4, 0, 5, 6, 16⟩, ⟨R.HAC_EVQ_CFG 0, R.HAC_EVQ_CFG 0 + 4, 4, 8, 6, 7, 63⟩,
  ⟨R.PMF_SMP_CFG, R.PMF_SMP_CFG + 4, 4, 0, 5, 6, 16⟩, ⟨R.PMF_SMP_CFG, R.PMF_SMP_CFG + 4, 4, 8, 6, 7, 63⟩,
  ⟨R.FWS_PEER_CFG, R.FWS_PEER_CFG + 4, 4, 0, 10, 1, 1000⟩,
  ⟨R.FWS_REC_COUNT, R.FWS_REC_COUNT + 4, 4, 0, 15, 1, 16131⟩,
  ⟨R.GLB_THERM_CFG, R.GLB_THERM_CFG + 4, 4, 0, 8, 60, 110⟩, ⟨R.GLB_THERM_CFG, R.GLB_THERM_CFG + 4, 4, 16, 8, 60, 100⟩]

/-- Whether a register word holds a value outside the documented range of one of its fields. -/
def outOfRange (a : Nat) (w : Word) : Bool :=
  let a := a % 0x10000000
  rangedFields.any fun r =>
    r.first ≤ a && a < r.stop && (a - r.first) % r.stride == 0 &&
      (wordGet w r.lsb r.width < r.lo || r.hi < wordGet w r.lsb r.width)

/-- The oldest rule epoch under which a command, or an access that waits, is in flight; the current epoch when nothing
is (R447). -/
def State.oldestEpoch (s : State) : Nat :=
  s.host.inFlight.foldl (fun m x => min m x.epoch) (s.rd R.HAC_RULE_EPOCH_epoch)

/-- What a read of the register at `a` (the accessing function's own, where it is kept per function) returns: PF1 sees
only its own late-error entries (R443);
HAC_RULE_DRAINED is computed (R447); everything else as it stands, write-only bits zero (R11). -/
def State.regRead (s : State) (fn a : Nat) : Word :=
  let off := a % 0x10000000
  if off = R.HAC_RULE_DRAINED then BitVec.ofNat 32 s.oldestEpoch
  else if R.HAC_LEL 0 0 ≤ off && off < R.HAC_LEL 64 0 && fn == 1 &&
      s.rd ⟨R.HAC_LEL ((off - R.HAC_LEL 0 0) / 0x20) 1, 30, 1⟩ != 1 then 0
  else s.readable a

/-- The register at `a` read by a function with side effects: RC fields clear (R11, R432). -/
def State.readClear (s : State) (a : Nat) : State :=
  match regAt a with
  | some r => s.wrWord a (s.rdWord a &&& ~~~ BitVec.ofNat 32 (accessMask r.fields fun x => x == .rc))
  | none => s

end Sys2Proof.Machine
end

