-- ==== Sys2Proof/Machine/RegRules.lean ====
section
/-!
DEFINITION. Machine/RegRules.lean: what the plain register write checks and causes beyond merging: the registers whose write
is a row of its own, the values a register does not take, and the rings in host memory (R448, R464, R568).
-/

namespace Sys2Proof.Machine

/-! ### Rings in host memory -/

/-- A ring in host memory that the device reads or writes: the function whose windows it must lie in, the low word of its
base, its enable bit, its extent in bytes (R448). -/
structure HostRing where
  fn    : Nat
  low   : Nat
  en    : Fld
  bytes : Nat
  deriving DecidableEq, Repr

/-- The function that enabled a ring of the device. -/
def State.ringOwner (s : State) (en : Fld) : Nat := sread (fun _ => 0) s.host.ringFn en.addr

/-- The rings in host memory with their extents. -/
def State.hostRings (s : State) : List HostRing :=
  ([0, 1].flatMap fun f =>
    ([0, 1].flatMap fun r =>
      [⟨f, R.HAC_CMD_BASE_LO f r, R.HAC_RING_en f r, 4096 * 64⟩, ⟨f, R.HAC_CPL_BASE_LO f r, R.HAC_RING_en f r, 4096 * 16⟩]) ++
    [⟨f, R.HAC_EVQ_BASE_LO f, R.HAC_EVQ_CFG_en f, 32 * 2 ^ s.rd (R.HAC_EVQ_CFG_size_log2 f)⟩]) ++
  [⟨s.ringOwner R.EXM_LFIFO_CFG_en, R.EXM_LFIFO_BASE_LO, R.EXM_LFIFO_CFG_en, 64 * 2 ^ s.rd R.EXM_LFIFO_CFG_size_log2⟩,
   ⟨s.ringOwner R.MIF_PR_CFG_en, R.MIF_PR_BASE_LO, R.MIF_PR_CFG_en, 32 * 2 ^ s.rd R.MIF_PR_CFG_size_log2⟩,
   ⟨s.ringOwner R.PMF_SMP_CFG_en, R.PMF_SMP_BASE_LO, R.PMF_SMP_CFG_en, 128 * 2 ^ s.rd R.PMF_SMP_CFG_size_log2⟩,
   ⟨s.ringOwner R.TXF_RPL_CTRL_en, R.TXF_RPL_BASE_LO, R.TXF_RPL_CTRL_en, 64 * 2 ^ s.rd R.TXF_RPL_CTRL_size_log2⟩]

/-- The 64-bit value of the pair whose low word stands at `low`. -/
def State.pairAt (s : State) (low : Nat) : Nat := (s.rdWord low).toNat + 2 ^ 32 * (s.rdWord (low + 4)).toNat

/-- Whether a ring's whole extent lies in one enabled window. -/
def State.ringInside (s : State) (h : HostRing) : Bool := s.inWindow h.fn (s.pairAt h.low) h.bytes

/-- After a rule write: an enabled ring outside every window is disabled and logged at its base register (R448). -/
def State.dropRings (s : State) : State :=
  s.each s.hostRings fun h s =>
    if s.on h.en && !s.ringInside h then
      ((s.wr h.en 0).secLog secWindow h.fn (s.pairAt h.low) 0 none).lateErr h.fn 0 (h.low % 0x10000000) leRefused false
    else s


/-! ### Registers whose write has a row of its own -/

/-- A family of registers: `count` registers, `stride` bytes apart, from `first`. -/
structure RegRow where
  first  : Nat
  count  : Nat
  stride : Nat
  deriving DecidableEq, Repr

/-- Whether an offset is that of one of the registers. -/
def RegRow.has (r : RegRow) (a : Nat) : Bool :=
  r.first ≤ a && (a - r.first) % r.stride == 0 && (a - r.first) / r.stride < r.count

/-- The access-rule registers (R446): HAC_PF1_*, HAC_BAR2_SEL_f and the DMA windows. -/
def ruleReg (a : Nat) : Bool := (0x200020 ≤ a && a < 0x200050) || (0x200100 ≤ a && a < 0x200200)

/-- The tail registers of the rings the device writes (R568). -/
def tailReg (a : Nat) : Bool :=
  a == R.HAC_EVQ_TAIL 0 || a == R.EXM_LFIFO_TAIL || a == R.MIF_PR_TAIL || a == R.PMF_SMP_TAIL

/-- The registers whose write is a row of its own: REGISTER_WRITE leaves them to that row. -/
def ownRows : List RegRow :=
  ([R.GLB_CLKEN, R.GLB_RESET_CTRL, R.GLB_BLKRST, R.TBS_CTRL, R.TBS_TURN_LEN_LOG2, R.TBS_TOD_NEXT_SEC_HI, R.TBS_SERVO_OFFSET,
    R.TBS_PHASE_ADJ, R.TBS_STEP_HI, R.TBS_CAPTURE, R.TBS_CLKMON_SEL, R.TBS_FMEAS_CTRL, R.FWS_RCP_MIN_SERIAL_HI, R.FWS_RCP_BOOT,
    R.FWS_ARB_RAISE, R.FWS_KEY_CTRL, R.FWS_BCFG_CTRL, R.FWS_REC_CTRL, R.HAC_CRIT_PEND, R.EXM_CMP_CTRL, R.TXF_RPL_CTRL,
    R.TXF_RPL_TAIL, R.BPM_AUDIT_CTRL, R.QMG_WRED_SEED, R.QMG_QSEL, R.HBC_MAP, R.HBC_PART, R.MIF_DIAG_CTRL, R.SCH_CFG, R.SCH_LC_SEL,
    R.SCH_LC, R.SCH_NSEL, R.OTN_TSI_CTRL, R.CNT_SEL, R.CNT_OP].map fun a => ⟨a, 1, 4⟩) ++
  [⟨R.PRS_SET_LC 0, 8, 4⟩, ⟨R.PRS_PORT_START 0, 128, 4⟩, ⟨R.PRS_CAP_CTRL 0, 8, R.PRS_CAP_CTRL 1 - R.PRS_CAP_CTRL 0⟩,
   ⟨R.EXM_AGE 0, 64, 16⟩, ⟨R.PPL_LC 0, 8, 0x200000⟩, ⟨R.BPM_POOL_w0 0, 4, 32⟩, ⟨R.BPM_POOL_w3 0, 4, 32⟩, ⟨R.BPM_POOL_w4 0, 4, 32⟩,
   ⟨R.RSV_PORT_LC 0, 8, 64⟩, ⟨R.FAB_LINK_LC 0, 160, 64⟩, ⟨R.LIF_PORT_LC 0, 128, 0x2000⟩, ⟨R.OTN_CM_A 0, 5120, 4⟩, ⟨R.OTN_CM_B 0, 5120, 4⟩,
   ⟨R.FWS_CAL_USER 0, 1166, 4⟩, ⟨0x3400000, 128, 0x40⟩, ⟨0xA800000, 160, 0x40⟩, ⟨0xA804000, 24, 0x40⟩,
   ⟨R.PMx_CTRL 0, 2, R.PMx_CTRL 1 - R.PMx_CTRL 0⟩, ⟨R.PMx_FRZ_CTRL 0, 1, 4⟩] ++
  (List.range 6).map (fun k => ⟨R.HBC_RANK_LC k 0, 128, 4⟩) ++
  [0, 1].flatMap (fun d => [⟨R.PMx_CNT_HI d 0, 16, 8⟩, ⟨R.PMx_EVSEL d 0, 16, 4⟩])

/-- Whether the write of a register is a row of its own. -/
def ownWrite (a : Nat) : Bool :=
  let a := a % 0x10000000
  ruleReg a || tailReg a || ownRows.any fun r => r.has a

/-! ### What a plain write does not take -/

/-- The ring whose base pair or enable a register belongs to. -/
def State.ringAt (s : State) (p : HostRing → Bool) : List HostRing := s.hostRings.filter p

/-- What an address in host memory must be a multiple of (R168, R234, R325, R464, R482). -/
def baseAlign (low : Nat) : Nat :=
  if low = R.PMF_SMP_BASE_LO then 128
  else if [R.EXM_LFIFO_BASE_LO, R.MIF_PR_BASE_LO, R.TXF_RPL_BASE_LO, R.MIF_DIAG_BUF_LO].contains low then 64
  else if low = R.HAC_EVQ_BASE_LO 0 ∨ low = R.HAC_EVQ_BASE_LO 1 then 32
  else 1

/-- Why the value of a base pair is not taken (R448, R464): the enable bit of its command ring is set, the address is not
aligned, or it lies outside every window of the writing function. -/
def State.baseRefused (s : State) (fn low addr : Nat) : Option Nat :=
  match s.hostRings.find? fun h => h.low == low with
  | none => if addr % baseAlign low ≠ 0 then some leBadValue else none
  | some h =>
    if h.en.addr = R.HAC_RING fn 0 ∨ h.en.addr = R.HAC_RING fn 1 then
      if s.on h.en then some leWrongState
      else if addr % (h.bytes / 4096) ≠ 0 then some leBadValue
      else if s.inWindow fn addr 1 then none else some leRefused
    else if addr % baseAlign low ≠ 0 then some leBadValue
    else if s.inWindow fn addr 1 then none else some leRefused

/-- A ring's enable bit that the last write set while its whole extent lies in no window of the writing function: the bit
stays clear, and the write is logged (R448). A ring of the device belongs to the function that enables it. -/
def State.checkEnable (s : State) (fn a : Nat) (was : Word) : State :=
  match s.hostRings.find? fun h => h.en.addr == a with
  | none => s
  | some h =>
    if wordGet was h.en.lsb 1 = 1 ∨ !s.on h.en then s
    else
      let s := { s with host := { s.host with ringFn := mput s.host.ringFn a fn } }
      if s.hostRings.all fun g => g.en.addr != a || s.ringInside g then s
      else ((s.wr h.en 0).secLog secWindow fn (s.pairAt h.low) 0 none).lateErr fn 0 (a % 0x10000000) leRefused false

/-- Why a write to LIF_PORT_CFG_p or LIF_LANE_CFG_p is not taken (R398, R399): a reserved mode, a first lane that R25 does not allow, or
a port that is not DOWN among port p, the port of lane p and the ports whose lanes the mode would cover. -/
def State.portRefused (s : State) (a : Nat) (w : Word) : Option Nat :=
  let p := (a - R.LIF_PORT_LC 0) / 0x2000
  let down (q : Nat) : Bool := s.rd (R.LIF_PORT_LC_state q) == lcDown
  if a = R.LIF_PORT_CFG p then
    let m := wordGet w 0 4
    let n := laneCount m (wordGet w 4 2)
    if m = 13 ∨ m = 14 then some leBadValue
    else if 1 < n ∧ p % n ≠ 0 then some leBadValue
    else if down p && (n == 0 || (List.range 128).all fun q => down q || p + n ≤ q || q + s.lanes q ≤ p) then none
    else some leWrongState
  else if a = R.LIF_LANE_CFG p then
    if wordGet w 2 2 = 3 then some leBadValue
    else if down p && (match s.portOfLane p with | some q => down q | none => true) then none
    else some leWrongState
  else none

/-- Why a bucket number is not taken (R168): the table it is for is in use and has fewer than nb + 32 buckets with its stash. -/
def State.beyondStash (s : State) (table : Fld) (b : Nat) : Option Nat :=
  match mget s.tab.exm (s.rd table) with
  | some t => if t.d.buckets + 31 < b then some leBadValue else none
  | none => none

/-- Why a value is not taken by a register that stands alone (R442): a field outside its documented range, or a value no rule
allows in the state of the block (R355, R357, R382, R388, R392, R393, R398, R399, R560, R565). -/
def State.valueRefused (s : State) (a : Nat) (w : Word) : Option Nat :=
  let u := a / 0x40 * 0x40
  let k := a % 0x40
  if outOfRange a w then some leBadValue
  else if a = R.EXM_WIN_BASE 0 ∨ a = R.EXM_WIN_BASE 1 then
    s.beyondStash (if a = R.EXM_WIN_BASE 0 then R.EXM_WIN_table 0 else R.EXM_WIN_table 1) (wordGet w 0 27)
  else if a = R.EXM_CMP_FIRST then s.beyondStash R.EXM_CMP_CTRL_table (wordGet w 0 27)
  else if R.LIF_PORT_LC 0 ≤ a && a < R.LIF_PORT_LC 128 then s.portRefused a w
  else if a = R.FAB_CFG then
    if wordGet w 0 9 = s.rd R.FAB_CFG_device || (List.range 160).all fun l => s.rd (R.FAB_LINK_LC_state l) == lcDown then none
    else some leWrongState
  else if a = R.FAB_ERR_CFG then if wordGet w 8 8 ≤ wordGet w 0 8 then some leBadValue else none
  else if R.FAB_LINK_LC 0 ≤ a && a < R.FAB_LINK_LC 160 && a % 0x40 == R.FAB_LINK_CFG 0 % 0x40 then
    if wordGet w 0 2 = 3 then some leBadValue
    else if s.rd (R.FAB_LINK_LC_state ((a - R.FAB_LINK_LC 0) / 0x40)) = lcDown then none else some leWrongState
  else if ownRows.any (fun r => r.stride == 0x40 && (r.first == 0x3400000 || r.first == 0xA800000 || r.first == 0xA804000) && r.has u) &&
      0 < k && k ≤ 0x20 then
    if s.rd (R.DICE_STATUS_state u) = 1 ∨ s.rd (R.DICE_STATUS_state u) = 2 then some leWrongState
    else if (k = 0x10 ∧ w = 0) ∨ (k = 4 ∧ 1000000 < wordGet w 0 20) then some leBadValue else none
  else if a = R.GLB_THERM_CFG then
    if wordGet w 8 8 < wordGet w 0 8 ∨ 114 < wordGet w 8 8 ∨ wordGet w 24 8 < wordGet w 16 8 ∨ 104 < wordGet w 24 8 then some leBadValue
    else none
  else if R.FWS_CAL_FAC 0 ≤ a && a < R.FWS_CAL_FAC 1166 then some leFactoryWrite
  else none

/-- A pair written as a whole by a function; a value it does not take is dropped and logged (R435, R442, R448). -/
def State.writePair (s : State) (fn low : Nat) (lowVal : Option Nat) (hi be : Nat) : State :=
  let t := s.applyPair fn low lowVal hi be
  match (if s.valueRefused low 0 = some leWrongState then some leWrongState else s.baseRefused fn low (t.pairAt low)) with
  | some why =>
    let s := if why = leRefused then s.secLog secWindow fn (t.pairAt low) 0 none else s
    (s.dropStaged fn low).lateErr
      fn 0 (low % 0x10000000) why false
  | none => t

/-- What follows from a register's new value: the service stage (R493), the recovered clock outputs (R56). -/
def State.afterWrite (s : State) (a : Nat) (_was : Word) : State :=
  if a = R.GLB_SVC_CFG then s.svcUpdate
  else if a = R.TBS_RCLK_CFG 0 ∨ a = R.TBS_RCLK_CFG 1 then s.rclkSync
  else s

/-- A plain write of one register, checked and merged (R431, R433, R435, R437, R442). -/
def State.plainWrite (s : State) (fn addr be val : Nat) : State :=
  let a := s.banked fn addr
  match regAt a with
  | none => s
  | some r =>
    if ownWrite a then s
    else
      match r.pair with
      | .low =>
        match s.baseRefused fn a 0, s.valueRefused a 0 with
        | some 0x05, _ => s.lateErr fn 0 addr leWrongState false
        | _, some 0x05 => s.lateErr fn 0 addr leWrongState false
        | _, _ => s.stageLow fn a val be
      | .high => s.writePair fn (a - 4) none val be
      | .single =>
        let was := s.rdWord a
        let w := mergeWrite r.fields was (BitVec.ofNat 32 val) be
        match s.valueRefused a w with
        | some why => s.lateErr fn 0 addr why false
        | none => ((s.wrWord a w).checkEnable fn a was).afterWrite a was

end Sys2Proof.Machine
end

