-- ==== Sys2Proof/Machine/Host.lean ====
section
/-!
DEFINITION. Machine/Host.lean: host accesses: register reads and writes with their pairs (R431 to R438), the fence (R444),
the access rules (R446 to R448), doorbells, command fetch and completions (R449 to R457), events (R461, R462) and rings in
host memory (R568).
-/

namespace Sys2Proof.Machine

/-! ### Registers -/

/-- Whether a register is a trigger register (R433). -/
def triggerAt (a : Nat) : Bool := match regAt a with | some r => r.trigger | none => false

/-- The MSI-X vector whose control word (mask bit) stands at an offset of BAR4 (R460), if any. -/
def msixControl (a : Nat) : Option Nat :=
  if 0x10000 ≤ a && a < 0x10400 && a % 16 == 12 then some ((a - 0x10000) / 16) else none

/-- A vector masked or unmasked by its control word; an unmasked vector whose message is pending is sent (R460). -/
def State.maskVec (s : State) (fn v : Nat) (masked : Bool) : State :=
  let s := { s with host := { s.host with vecOpen := swrite (fun _ => false) s.host.vecOpen (64 * fn + v) (!masked) } }
  if !masked && sread (fun _ => false) s.host.vecPend (64 * fn + v) then
    { s with host := { s.host with vecPend := swrite (fun _ => false) s.host.vecPend (64 * fn + v) false } }.emit (.msix fn v)
  else s

/-- REGISTER_WRITE (R431, R433, R435 to R437, R442): a plain write to BAR0 (`bar` 0) or of the MSI-X table in BAR4 (`bar`
2). With `high` it is an aligned 64-bit write, its byte enables bits 7 to 0: with all of them set a pair applies at once,
any other is two 32-bit writes in ascending order. -/
def execRegisterWrite (fn bar addr be val : Nat) (high : Option Nat) (s : State) : Host.Outcome State Fault Refusal :=
  ok (if bar = 2 then
      if s.answers fn then
        let s := s.acceptWrite fn
        match msixControl addr with
        | some v => if bitAt be 0 then s.maskVec fn v (bitAt val 0) else s
        | none => s
      else s
    else if bar ≠ 0 then s
    else
      match high with
      | none => s.hostWrite fn addr be (triggerAt (s.banked fn addr)) fun s => s.plainWrite fn addr be val
      | some hi =>
        let a := s.banked fn addr
        match regAt a with
        | some ⟨_, _, _, .low, _⟩ =>
          if be = 255 ∧ !ownWrite (a + 4) then s.hostWrite fn addr 15 false fun s => s.writePair fn a (some val) hi 15
          else
            (s.hostWrite fn addr (be % 16) false fun s => s.plainWrite fn addr (be % 16) val).checkedWrite
              fn (addr + 4) (be / 16) (triggerAt (a + 4)) fun s => s.plainWrite fn (addr + 4) (be / 16) hi
        | _ =>
          (s.hostWrite fn addr (be % 16) (triggerAt a) fun s => s.plainWrite fn addr (be % 16) val).checkedWrite
            fn (addr + 4) (be / 16) (triggerAt (a + 4)) fun s => s.plainWrite fn (addr + 4) (be / 16) hi)

/-- HOST_ACCESS_TIMEOUT (R438): an access to TD space that its block has not answered 30 us after it entered: a read
completes with Completer Abort, a write is dropped, and either is logged TIMEOUT. -/
def execHostAccessTimeout (fn addr : Nat) (isRead : Bool) (s : State) : Host.Outcome State Fault Refusal :=
  ok (if blockBit addr < 16 then s
    else if isRead then s.hostRead fn addr fun s => (s.lateErr fn 0 addr leTimeout true).emit (.abort fn)
    else s.hostWrite fn addr 15 false fun s => s.lateErr fn 0 addr leTimeout false)

/-- The bytes of a word that byte enables select. -/
def enabled (w : Word) (be : Nat) : Nat := (w &&& beMask be).toNat

/-! ### The fence and the access rules -/

/-- FENCE_READ (R432, R444): a full read of HAC_FENCE is held with the number of the function's last earlier write; a narrow
one returns at once. -/
def execFenceRead (fn be : Nat) (s : State) : Host.Outcome State Fault Refusal :=
  ok (s.hostRead fn (R.HAC_FENCE 0) fun s =>
    if be = 15 then { s with host := { s.host with fences := s.host.fences ++ [(fn, s.wseq fn)] } }
    else s.emit (.read fn (enabled (BitVec.ofNat 32 (s.wseq fn)) be)))

/-- FENCE_COMPLETE (R444): the earlier writes have taken effect or been logged (in this model they have when the next command
runs), and the held read returns the number of the last of them. -/
def execFenceComplete (fn : Nat) (s : State) : Host.Outcome State Fault Refusal :=
  ok (match s.host.fences.find? fun e => e.1 == fn with
    | some e =>
      let s := { s with host := { s.host with fences := s.host.fences.erase e } }
      (s.wr (R.HAC_FENCE_seq fn) e.2).emit (.read fn e.2)
    | none => s)

/-- RULE_WRITE (R446 to R448): an accepted write to an access-rule register advances HAC_RULE_EPOCH; a ring that the new
rules leave outside every window is disabled. -/
def execRuleWrite (fn addr be val : Nat) (s : State) : Host.Outcome State Fault Refusal :=
  ok (if !ruleReg addr then s
    else s.hostWrite fn addr be false fun s =>
      match regAt addr with
      | none => s
      | some _ =>
        let s := s.mergeReg addr val be
        (s.wr R.HAC_RULE_EPOCH_epoch (s.rd R.HAC_RULE_EPOCH_epoch + 1)).dropRings)

/-! ### Doorbells -/

/-- The key of a command ring. -/
def ringKey (fn ring : Nat) : Nat := 2 * fn + ring

/-- A ring nothing has been told of (R449, R454). -/
def Ring.idle : Ring := ⟨0, 0, 0, true, []⟩

/-- A command ring. -/
def State.ring (s : State) (fn ring : Nat) : Ring := sread (fun _ => Ring.idle) s.host.rings (ringKey fn ring)

/-- A command ring replaced. -/
def State.setRing (s : State) (fn ring : Nat) (x : Ring) : State :=
  { s with host := { s.host with rings := swrite (fun _ => Ring.idle) s.host.rings (ringKey fn ring) x } }

/-- A doorbell write to BAR4 (R433, R440, R463): it is numbered; a narrow one is dropped and logged. -/
def State.doorbell (s : State) (fn off be : Nat) (k : State → State) : State :=
  if !s.answers fn then s
  else
    let s := s.acceptWrite fn
    if be != 15 then s.lateErr fn 2 off leNarrowTrigger false else k s

/-- COMMAND_TAIL_DOORBELL (R449): the producer index moves to `val`, unless that would pass the consumer; the descriptors it
covers are submitted now (R457). -/
def execCommandTailDoorbell (fn ring be val : Nat) (s : State) : Host.Outcome State Fault Refusal :=
  ok (s.doorbell fn (0x10 * ring) be fun s =>
    let x := s.ring fn ring
    let waiting := (x.tail + 4096 - s.rd (R.HAC_RING_head fn ring)) % 4096
    let added := (val + 4096 - x.tail) % 4096
    if 2 ≤ ring then s
    else if 4096 ≤ val ∨ 4096 ≤ waiting + added then s.lateErr fn 2 (0x10 * ring) leDoorbell false
    else
      let subs := (List.range added).map fun i => ((x.tail + i) % 4096, s.time.elapsed)
      s.setRing fn ring { x with tail := val, submits := x.submits ++ subs })

/-- COMPLETION_HEAD_DOORBELL (R449): the entries before `val` are consumed and free; a value that would pass the entries in
use is dropped and logged. -/
def execCompletionHeadDoorbell (fn ring be val : Nat) (s : State) : Host.Outcome State Fault Refusal :=
  ok (s.doorbell fn (0x10 * ring + 4) be fun s =>
    let x := s.ring fn ring
    let freed := (val + 4096 - x.cplHead) % 4096
    if 2 ≤ ring then s
    else if 4096 ≤ val ∨ x.cplUsed < freed then s.lateErr fn 2 (0x10 * ring + 4) leDoorbell false
    else s.setRing fn ring { x with cplHead := val, cplUsed := x.cplUsed - freed })

/-! ### Commands and completions -/

/-- Whether a completion of a ring is held because its completion ring is full (R455). -/
def State.ringHeld (s : State) (fn ring : Nat) : Bool := 4096 ≤ (s.ring fn ring).cplUsed

/-- Whether a command ring holds a command that can be taken, as far as its registers say (R450). -/
def State.ringReady (s : State) (fn ring : Nat) : Bool :=
  s.on (R.HAC_RING_en fn ring) && s.rd (R.HAC_RING_head fn ring) != (s.ring fn ring).tail && !s.ringHeld fn ring

/-- Whether a command of a ring is in flight. -/
def State.ringBusy (s : State) (fn ring : Nat) : Bool := s.host.inFlight.any fun x => x.fn == fn && x.ring == ring

/-- The bits of a descriptor that its command defines, beside the common header (R159, R223, R290, R385, R453, R476, R527,
R529, R532, R536); none for an unknown opcode (R452). A priority stands only in a TXN_STAGE of a ternary table. -/
def State.descFields (s : State) (desc : List Byte) : Option (List (Nat × Nat)) :=
  match byteAt desc 0 with
  | 0x01 => some [(128, 16), (144, 5), (192, 64), (256, 64)]
  | 0x02 => some [(128, 16), (144, 4), (152, 8), (160, 16), (256, 64)]
  | 0x03 => some [(128, 16), (144, 2), (152, 8), (256, 64)]
  | 0x10 => some [(128, 8)]
  | 0x11 =>
    some ([(128, 8), (136, 6), (144, 16), (256, 64)] ++
      match byteAt desc 17 / 16 % 4 with
      | 0 => [(160, 16), (176, 8), (224, 24)] ++
        (match s.findAsm (byteAt desc 17 / 8 % 2) (leAt desc 18 2) with
         | some (_, t) => (match t.type with | .ternary _ => [(192, 16)] | _ => [])
         | none => [])
      | 1 => []
      | _ => [(224, 32)])
  | 0x12 => some [(128, 8)]
  | 0x13 => some [(128, 8), (136, 1), (192, 64)]
  | 0x14 => some [(128, 8)]
  | 0x20 => some [(128, 7), (192, 64), (256, 64), (320, 64), (384, 32)]
  | 0x28 => some [(128, 8), (136, 2), (144, 16), (160, 8), (168, 8), (176, 16), (192, 64)]
  | 0x29 => some [(128, 8), (137, 1), (192, 64), (256, 32)]
  | 0x30 => some [(128, 5), (160, 32), (192, 64)]
  | 0x31 => some [(128, 2), (192, 64)]
  | 0x38 => some [(128, 1), (192, 64)]
  | 0x39 => some [(128, 1), (192, 64)]
  | 0x3A => some [(128, 1), (192, 64)]
  | 0x3B => some [(128, 1), (192, 64)]
  | 0x40 => some [(128, 9), (152, 8), (160, 32), (256, 64)]
  | 0x41 => some [(128, 9), (144, 1), (152, 8), (160, 32), (192, 64), (256, 64)]
  | _ => none

/-- Whether every bit of a descriptor outside its header fields and its command's fields is zero (R451). -/
def descClean (desc : List Byte) (fields : List (Nat × Nat)) : Bool :=
  let n := leNat desc
  let mask := ((([(0, 8), (8, 2), (16, 16)] : List (Nat × Nat)) ++ fields).foldl
    (fun m f => m ||| (2 ^ f.2 - 1) * 2 ^ f.1) 0)
  (n &&& mask) == n

/-- The bytes of the key a SEARCH reads: an associative table's key is 40 bytes (R127), an exact-match table's as many as
hold its key bits (notes/assumptions/9.md). -/
def State.searchKeyLen (s : State) (slot table : Nat) : Nat :=
  match s.findExm slot table with
  | some e => ceilDiv e.2.d.keyBits 8
  | none => 40

/-- The bytes of a TXN_STAGE parameter record (R127, R149, R223). -/
def State.stageLen (s : State) (slot target table : Nat) : Nat :=
  match target with
  | 0 => 80
  | 1 => match s.findExm slot table with | some e => e.2.d.width / 8 | none => 64
  | 2 =>
    if table = 0x200 then 32
    else match s.txf.arrays.find? fun e => e.2.decl.num == table && bitAt e.2.slots slot with
      | some e => ceilDiv e.2.decl.width 8 | none => 16
  | _ => 64

/-- The extents of host memory that a descriptor addresses (R448). -/
def State.descExtents (s : State) (d : List Byte) : List (Nat × Nat) :=
  let b16 := byteAt d 16
  match byteAt d 0 with
  | 0x01 => [(leAt d 24 8, s.searchKeyLen (byteAt d 18 % 2) (leAt d 16 2)),
             (leAt d 32 8, 32 + 96 * (if bitAt (byteAt d 18) 4 then 8 else 1))]
  | 0x02 => [(leAt d 32 8, 32 + 96 * byteAt d 19)]
  | 0x03 => [(leAt d 32 8, 32)]
  | 0x11 => [(leAt d 32 8, s.stageLen (byteAt d 17 / 8 % 2) (byteAt d 17 / 16 % 4) (leAt d 18 2))]
  | 0x20 => [(leAt d 32 8, leAt d 48 4)]
  | 0x30 => if bitAt b16 1 then [] else [(leAt d 24 8, leAt d 20 4)]
  | 0x38 => [(leAt d 24 8, 64 + 4096)]
  | 0x39 => if bitAt b16 0 then [(leAt d 24 8, 3840)] else []
  | 0x40 => [(leAt d 32 8, 4 * byteAt d 19)]
  | 0x41 => if bitAt (byteAt d 18) 0 then [(leAt d 24 8, 64), (leAt d 32 8, 16)] else [(leAt d 24 8, 4 * byteAt d 19)]
  | _ => []

/-- Whether the op of a TXN_STAGE is one its target has (R127, R149, R223). -/
def stageOpOk (d : List Byte) : Bool :=
  let op := byteAt d 17 % 8
  byteAt d 0 != 0x11 || match byteAt d 17 / 16 % 4 with | 0 => op ≤ 3 | 1 => op ≤ 2 | 2 => op ≤ 1 | _ => op == 0

/-- The grants that a descriptor's targets need from PF1 (R222, R429). -/
def State.descGrants (s : State) (d : List Byte) : List Fld :=
  let slot18 := byteAt d 18 % 2
  match byteAt d 0 with
  | 0x01 => s.tableGrant slot18 (leAt d 16 2)
  | 0x02 => s.tableGrant slot18 (leAt d 16 2)
  | 0x03 => s.tableGrant slot18 (leAt d 16 2)
  | 0x11 =>
    let slot := byteAt d 17 / 8 % 2
    let table := leAt d 18 2
    match byteAt d 17 / 16 % 4 with
    | 0 => s.tableGrant slot table
    | 1 => s.tableGrant slot table
    | 2 => if table < 64 then [grantArr table] else (grantTdt table).toList
    | _ => (grantTdt table).toList
  | 0x20 =>
    if bitAt (byteAt d 16) 6 then
      ((List.range 64).filter fun a => bitAt (leAt d 40 8) a).map grantArr
    else []
  | _ => []

/-- COMMAND_FETCH (R446, R448, R450, R451, R455, R457, R459): the descriptor at the head of a ring is fetched and its
header checked. Nothing is fetched while the ring holds no command, its completion ring is full, an earlier command of a
fence_prev command is in flight, or the other ring's turn has come; `otherWaits` says that the other ring's next
descriptor has fence_prev set. A command that passes its checks is in flight, and its own row gives its effect. -/
def execCommandFetch (fn ring : Nat) (desc : List Byte) (otherWaits : Bool) (s : State) : Host.Outcome State Fault Refusal :=
  let other := 1 - ring
  let otherReady := s.ringReady fn other && !(otherWaits && s.ringBusy fn other)
  let run := sread (fun _ => 0) s.host.highRun fn
  let fence := bitAt (byteAt desc 1) 1
  ok (if desc.length ≠ 64 ∨ 2 ≤ ring ∨ 2 ≤ fn ∨ !s.ringReady fn ring ∨ (fence ∧ s.ringBusy fn ring) ∨
        (otherReady ∧ (if ring = 0 then 15 ≤ run else run < 15)) then s
    else
      let head := s.rd (R.HAC_RING_head fn ring)
      let x := s.ring fn ring
      let sub := ((x.submits.find? fun e => e.1 == head).map (·.2)).getD s.time.elapsed
      let s := (s.wr (R.HAC_RING_head fn ring) (head + 1)).setRing fn ring
        { x with submits := x.submits.filter fun e => e.1 != head }
      let tag := leAt desc 2 2
      let c : Cmd := ⟨.ring fn ring tag, bitAt (byteAt desc 1) 0⟩
      let opcode := byteAt desc 0
      let run' := if ring = 0 then (if otherReady then run + 1 else run) else 0
      let s := { s with host := { s.host with
        highRun := swrite (fun _ => 0) s.host.highRun fn run',
        inFlight := s.host.inFlight ++ [InFlight.mk fn ring tag (s.rd R.HAC_RULE_EPOCH_epoch) sub desc] } }
      match s.descFields desc with
      | none => if fn = 1 then s.refuse c secRight 0 opcode else s.complete c stInvalid
      | some fields =>
        let ext : List (Nat × Nat) := s.descExtents desc
        if !s.hasRights c (rightOf opcode ++ s.descGrants desc) then s.refuse c secRight 0 opcode
        else if !s.hasWindows c ext then s.refuse c secWindow ((ext.head?.map (·.1)).getD 0) opcode
        else if !descClean desc fields || !stageOpOk desc then s.complete c stInvalid
        else if s.tooEarly opcode then s.complete c stNotReady
        else if s.svc.handover then s.complete c stBusyRetry
        else s)

/-- The 16 bytes of a completion (R454). -/
def Cpl.bytes (c : Cpl) (phase : Bool) (turn : Nat) : List Byte :=
  completionBytes c.tag c.status phase c.final c.detail (c.turn.getD turn)

/-- COMPLETION_POST (R454, R455): the oldest completion of a ring is written when the completion ring has a free entry, then
its MSI-X message is sent; a final one ends its command. -/
def execCompletionPost (fn ring : Nat) (s : State) : Host.Outcome State Fault Refusal :=
  ok (match s.host.cplQueue.find? fun c => c.fn == fn && c.ring == ring with
    | none => s
    | some c =>
      if s.ringHeld fn ring then s
      else
        let x := s.ring fn ring
        let t := s.rd (R.HAC_RING_cpl_tail fn ring)
        let addr := s.pairAt (R.HAC_CPL_BASE_LO fn ring) + 16 * t
        let s := s.emit (.dma fn addr (c.bytes x.phase s.time.turn))
        let s := s.wr (R.HAC_RING_cpl_tail fn ring) (t + 1)
        let s := s.setRing fn ring { x with cplUsed := x.cplUsed + 1, phase := if t = 4095 then !x.phase else x.phase }
        let fl := s.flight fn ring c.tag
        let s := { s with host := { s.host with
          cplQueue := s.host.cplQueue.erase c,
          inFlight := match c.final, fl with | true, some f => s.host.inFlight.erase f | _, _ => s.host.inFlight } }
        s.raiseVec fn (5 + ring))

/-- REFUSAL_COMPLETE (R457): a refusal whose 5 us have passed: the command completes REFUSED, the read returns zero. -/
def execRefusalComplete (s : State) : Host.Outcome State Fault Refusal :=
  ok (match s.host.refusing.find? fun r => r.due ≤ s.time.elapsed with
    | none => s
    | some r =>
      let s := { s with host := { s.host with refusing := s.host.refusing.erase r } }
      match r.cmd with
      | some (ring, tag) => s.complete ⟨.ring r.fn ring tag, false⟩ stRefused
      | none => s.emit (.read r.fn 0))

/-! ### Events -/

/-- The 32 bytes of an event record (R462). -/
def EvRec.bytes (e : EvRec) : List Byte :=
  [BitVec.ofNat 8 e.severity, BitVec.ofNat 8 e.die] ++ leBytes 2 e.block ++ leBytes 4 e.addr ++ leBytes 8 e.turn ++
    leBytes 4 e.value ++ leBytes 4 e.seq ++ List.replicate 8 0

/-- Whether a ring of 2^n records with these indices is full (R568). -/
def ringFull (n head tail : Nat) : Bool := (head + 1) % 2 ^ n == tail % 2 ^ n

/-- EVENT_RECORD_DELIVER (R462, R568): the oldest event record of a function is written into its event ring and, for INFO,
signalled on the ring's vector; when the ring is full it is lost and counted. -/
def execEventRecordDeliver (fn : Nat) (s : State) : Host.Outcome State Fault Refusal :=
  ok (match s.host.evPend.find? fun e => e.1 == fn with
    | none => s
    | some (who, r) =>
      let s := { s with host := { s.host with evPend := s.host.evPend.erase (who, r) } }
      let n := s.rd (R.HAC_EVQ_CFG_size_log2 fn)
      let h := s.rd (R.HAC_EVQ_HEAD_head fn)
      if !s.on (R.HAC_EVQ_CFG_en fn) then s
      else if ringFull n h (s.rd (R.HAC_EVQ_TAIL_tail fn)) then s.bump (R.HAC_EVQ_LOST_count fn)
      else
        let q := (sread (fun _ => 0) s.host.evSeq fn + 1) % Config.mod32
        let s := { s with host := { s.host with evSeq := swrite (fun _ => 0) s.host.evSeq fn q } }
        let r : EvRec := { r with seq := q }
        let s := s.emit (.dma fn (s.pairAt (R.HAC_EVQ_BASE_LO fn) + 32 * (h % 2 ^ n)) r.bytes)
        let s := s.wr (R.HAC_EVQ_HEAD_head fn) ((h + 1) % 2 ^ n)
        if r.severity = sevInfo then s.raiseVec fn (s.rd (R.HAC_EVQ_CFG_vector fn)) else s)

/-- CRIT_PEND_CLEAR (R461): PF0 clears bits of HAC_CRIT_PEND by writing 1; a PF1 write is refused. -/
def execCritPendClear (fn be val : Nat) (s : State) : Host.Outcome State Fault Refusal :=
  ok (s.hostWrite fn R.HAC_CRIT_PEND be false fun s => s.mergeReg R.HAC_CRIT_PEND val be)

/-- HOST_RING_TAIL_WRITE (R568): the tail of a ring the device writes. -/
def execHostRingTailWrite (fn addr be val : Nat) (s : State) : Host.Outcome State Fault Refusal :=
  ok (if !tailReg addr then s else s.hostWrite fn addr be false fun s => s.mergeReg (s.banked fn addr) val be)

end Sys2Proof.Machine
end

