-- ==== Sys2Proof/Machine/Operands.lean ====
section
/-!
DEFINITION. Machine/Operands.lean: the operand forms of the action processor and of the header vector: containers (R97,
R180), the parts of an action word (R177 to R179, R186), and reading and writing fields.
-/

namespace Sys2Proof.Machine

/-- The header-vector byte at which a container begins, and its bytes (R97, R180). -/
def contAt (c : Nat) : Nat × Nat :=
  if c < 0x40 then (64 + c, 1)
  else if c < 0x80 then (128 + 2 * (c - 0x40), 2)
  else if c < 0xE0 then (256 + 4 * (c - 0x80), 4)
  else if c < 0xF0 then (640 + 8 * (c - 0xE0), 8)
  else (4 * (c - 0xF0), 4)

/-- The width of a container in bits. -/
def contBits (c : Nat) : Nat := 8 * (contAt c).2

/-- A container's value: its lowest header-vector byte holds bits [7:0] (R97). -/
def getCont (hv : List Byte) (c : Nat) : Nat := leAt hv (contAt c).1 (contAt c).2

/-- The header vector with a container's value set. -/
def setCont (hv : List Byte) (c v : Nat) : List Byte := overlay hv (contAt c).1 (leBytes (contAt c).2 v)

/-- A number with the `w` bits from bit `lo` replaced. -/
def putBits (n lo w v : Nat) : Nat := n % 2 ^ lo + v % 2 ^ w * 2 ^ lo + n / 2 ^ (lo + w) * 2 ^ (lo + w)

/-- A field of a container. -/
def getField (hv : List Byte) (c lo w : Nat) : Nat := bitsAt (getCont hv c) lo w

/-- The header vector with a field of a container set; bits beyond the container are dropped. -/
def setField (hv : List Byte) (c lo w v : Nat) : List Byte := setCont hv c (putBits (getCont hv c) lo w v)

/-- A header-vector number: `n` bytes from `o`, lowest byte first. -/
def hvNum (hv : List Byte) (o n : Nat) : Nat := leAt hv o n

/-- The header vector with `n` bytes from `o` set. -/
def hvSet (hv : List Byte) (o n v : Nat) : List Byte := overlay hv o (leBytes n v)

/-- The forwarding record: the 64 bits that begin at metadata byte 40 (R184). -/
def fwdRecord (hv : List Byte) : Nat := hvNum hv 40 8

/-- The header vector with its forwarding record set. -/
def setFwd (hv : List Byte) (v : Nat) : List Byte := hvSet hv 40 8 v

/-- The fields of a forwarding record (R184). -/
def fwdDevice (r : Nat) : Nat := bitsAt r 0 9
def fwdPort (r : Nat) : Nat := bitsAt r 9 7
def fwdGroup (r : Nat) : Nat := bitsAt r 0 16
def fwdTc (r : Nat) : Nat := bitsAt r 16 3
def fwdColour (r : Nat) : Nat := min (bitsAt r 19 2) 2
def fwdMcast (r : Nat) : Bool := bitAt r 21
def fwdDrop (r : Nat) : Bool := bitAt r 22
def fwdReason (r : Nat) : Nat := bitsAt r 23 6
def fwdPunt (r : Nat) : Bool := bitAt r 29
def fwdMirror (r : Nat) : Bool := bitAt r 30
def fwdSession (r : Nat) : Nat := bitsAt r 31 4
def fwdClass (r : Nat) : Nat := bitsAt r 35 4

/-- A micro-operation (R179). -/
structure Uop where
  op     : Nat
  dst    : Nat
  dstOff : Nat
  width  : Nat
  aSel   : Nat
  a      : Nat
  aOff   : Nat
  bSel   : Nat
  b      : Nat
  deriving DecidableEq, Repr

/-- An intent of an action word (R186). -/
structure IntentW where
  op      : Nat
  array   : Nat
  idx     : Nat
  idxOff  : Nat
  idxW    : Nat
  opndSel : Nat
  opnd    : Nat
  resDst  : Nat
  resOff  : Nat
  resEn   : Bool
  lenSrc  : Nat
  rsv     : Nat
  deriving DecidableEq, Repr

/-- Micro-operation `k` of an action word (R177, R179). -/
def wordUop (w k : Nat) : Uop :=
  let u := bitsAt w (32 + 52 * k) 52
  ⟨bitsAt u 46 6, bitsAt u 38 8, bitsAt u 32 6, bitsAt u 26 6 + 1, bitsAt u 24 2, bitsAt u 16 8, bitsAt u 10 6,
   bitsAt u 8 2, bitsAt u 0 8⟩

/-- Intent `i` of an action word (R177, R186). -/
def wordIntent (w i : Nat) : IntentW :=
  let u := bitsAt w (448 + 64 * i) 64
  ⟨bitsAt u 60 4, bitsAt u 54 6, bitsAt u 46 8, bitsAt u 40 6, bitsAt u 35 5 + 1, bitsAt u 33 2, bitsAt u 25 8,
   bitsAt u 17 8, bitsAt u 11 6, bitAt u 10, bitsAt u 8 2, bitsAt u 0 8⟩

/-- The immediate of an action word (R177). -/
def wordImm (w : Nat) : Nat := bitsAt w 576 64

/-- The header fields of an action word (R178). -/
def wordKind (w : Nat) : Nat := bitsAt w 0 2
def wordUops (w : Nat) : Nat := bitsAt w 2 4
def wordDrop (w : Nat) : Bool := bitAt w 6
def wordReason (w : Nat) : Nat := bitsAt w 7 6
def wordPunt (w : Nat) : Bool := bitAt w 13
def wordMirror (w : Nat) : Bool := bitAt w 14
def wordSession (w : Nat) : Nat := bitsAt w 15 4
def wordSkip (w : Nat) : Bool := bitAt w 19
def wordSkipTo (w : Nat) : Nat := bitsAt w 20 5
def wordKeyNext (w : Nat) : Nat := bitsAt w 25 3

/-- What a word's operands are read from: the header vector, result bus and status word as they stood before the word
began (R176, R182), and the word's immediate. -/
structure Sources where
  hv     : List Byte
  imm    : Nat
  bus    : Nat
  status : Nat
  deriving DecidableEq, Repr

/-- Operand a or b of `width` bits: source 0 a container from a bit, 1 the immediate, 2 the result bus, 3 the status word
(R179). -/
def Sources.operand (x : Sources) (sel n off width : Nat) : Nat :=
  match sel with
  | 0 => getField x.hv n off width
  | 1 => bitsAt x.imm n width
  | 2 => bitsAt x.bus n width
  | _ => bitsAt x.status n width

/-- An intent's 64-bit operand (R186). -/
def Sources.operand64 (x : Sources) (sel n : Nat) : Nat :=
  match sel with
  | 0 => getCont x.hv n
  | 1 => bitsAt x.imm n 64
  | 2 => bitsAt x.bus n 64
  | _ => bitsAt x.status n 64

/-- A key assembled by a profile's fields from the header vector (R172); unused bits are zero. -/
def buildKey (fields : List KeyField) (hv : List Byte) : Nat :=
  fields.foldl (fun k f => putBits k (8 * f.dst) (8 * f.len) (hvNum hv f.off f.len &&& f.mask)) 0

end Sys2Proof.Machine
end

