-- ==== Sys2Proof/Machine/Crypto.lean ====
section
/-!
DEFINITION. Machine/Crypto.lean: the checks of the security engine on signed images (R66 to R72, R517 to R523): SHA-384 and ECDSA over the
P-384 curve. The spec names both and leaves them to their standards, FIPS 180-4 and FIPS 186-5 (PRESUMED,
notes/assumptions/155.md).
-/

namespace Sys2Proof.Machine

/-! ### SHA-384 -/

/-- A 64-bit word rotated right. -/
def ror64 (n x : Nat) : Nat := x >>> n ||| (x <<< (64 - n)) % 2 ^ 64

/-- The 80 round constants. -/
def shaK : List Nat :=
  [0x428A2F98D728AE22, 0x7137449123EF65CD, 0xB5C0FBCFEC4D3B2F, 0xE9B5DBA58189DBBC,
   0x3956C25BF348B538, 0x59F111F1B605D019, 0x923F82A4AF194F9B, 0xAB1C5ED5DA6D8118,
   0xD807AA98A3030242, 0x12835B0145706FBE, 0x243185BE4EE4B28C, 0x550C7DC3D5FFB4E2,
   0x72BE5D74F27B896F, 0x80DEB1FE3B1696B1, 0x9BDC06A725C71235, 0xC19BF174CF692694,
   0xE49B69C19EF14AD2, 0xEFBE4786384F25E3, 0x0FC19DC68B8CD5B5, 0x240CA1CC77AC9C65] ++
  [0x2DE92C6F592B0275, 0x4A7484AA6EA6E483, 0x5CB0A9DCBD41FBD4, 0x76F988DA831153B5,
   0x983E5152EE66DFAB, 0xA831C66D2DB43210, 0xB00327C898FB213F, 0xBF597FC7BEEF0EE4,
   0xC6E00BF33DA88FC2, 0xD5A79147930AA725, 0x06CA6351E003826F, 0x142929670A0E6E70,
   0x27B70A8546D22FFC, 0x2E1B21385C26C926, 0x4D2C6DFC5AC42AED, 0x53380D139D95B3DF,
   0x650A73548BAF63DE, 0x766A0ABB3C77B2A8, 0x81C2C92E47EDAEE6, 0x92722C851482353B] ++
  [0xA2BFE8A14CF10364, 0xA81A664BBC423001, 0xC24B8B70D0F89791, 0xC76C51A30654BE30,
   0xD192E819D6EF5218, 0xD69906245565A910, 0xF40E35855771202A, 0x106AA07032BBD1B8,
   0x19A4C116B8D2D0C8, 0x1E376C085141AB53, 0x2748774CDF8EEB99, 0x34B0BCB5E19B48A8,
   0x391C0CB3C5C95A63, 0x4ED8AA4AE3418ACB, 0x5B9CCA4F7763E373, 0x682E6FF3D6B2B8A3,
   0x748F82EE5DEFB2FC, 0x78A5636F43172F60, 0x84C87814A1F0AB72, 0x8CC702081A6439EC] ++
  [0x90BEFFFA23631E28, 0xA4506CEBDE82BDE9, 0xBEF9A3F7B2C67915, 0xC67178F2E372532B,
   0xCA273ECEEA26619C, 0xD186B8C721C0C207, 0xEADA7DD6CDE0EB1E, 0xF57D4F7FEE6ED178,
   0x06F067AA72176FBA, 0x0A637DC5A2C898A6, 0x113F9804BEF90DAE, 0x1B710B35131C471B,
   0x28DB77F523047D84, 0x32CAAB7B40C72493, 0x3C9EBE0A15C9BEBC, 0x431D67C49C100D4C,
   0x4CC5D4BECB3E42B6, 0x597F299CFC657E2A, 0x5FCB6FAB3AD6FAEC, 0x6C44198C4A475817]

/-- The chaining value of SHA-384: eight words. -/
structure ShaSt where
  a : Nat
  b : Nat
  c : Nat
  d : Nat
  e : Nat
  f : Nat
  g : Nat
  h : Nat
  deriving DecidableEq, Repr

/-- The initial chaining value. -/
def shaInit : ShaSt :=
  ⟨0xCBBB9D5DC1059ED8, 0x629A292A367CD507, 0x9159015A3070DD17, 0x152FECD8F70E5939,
   0x67332667FFC00B31, 0x8EB44A8768581511, 0xDB0C2E0D64F98FA7, 0x47B5481DBEFA4FA4⟩

/-- The word that extends the message schedule behind sixteen words. -/
def shaNext (w : List Nat) : Nat :=
  let x := w.getD 1 0
  let y := w.getD 14 0
  let s0 := ror64 1 x ^^^ ror64 8 x ^^^ x >>> 7
  let s1 := ror64 19 y ^^^ ror64 61 y ^^^ y >>> 6
  (w.getD 0 0 + s0 + w.getD 9 0 + s1) % 2 ^ 64

/-- The first `n` words of the schedule that begins with sixteen words. -/
def shaSchedule : Nat → List Nat → List Nat
  | 0, _ => []
  | n + 1, w => w.getD 0 0 :: shaSchedule n (w.drop 1 ++ [shaNext w])

/-- One round. -/
def ShaSt.round (s : ShaSt) (k w : Nat) : ShaSt :=
  let s1 := ror64 14 s.e ^^^ ror64 18 s.e ^^^ ror64 41 s.e
  let ch := (s.e &&& s.f) ^^^ ((2 ^ 64 - 1 - s.e) &&& s.g)
  let t1 := s.h + s1 + ch + k + w
  let s0 := ror64 28 s.a ^^^ ror64 34 s.a ^^^ ror64 39 s.a
  let mj := (s.a &&& s.b) ^^^ (s.a &&& s.c) ^^^ (s.b &&& s.c)
  ⟨(t1 + s0 + mj) % 2 ^ 64, s.a, s.b, s.c, (s.d + t1) % 2 ^ 64, s.e, s.f, s.g⟩

/-- One block of sixteen words. -/
def ShaSt.block (s : ShaSt) (w : List Nat) : ShaSt :=
  let t := (shaK.zip (shaSchedule 80 w)).foldl (fun x e => x.round e.1 e.2) s
  let add (x y : Nat) : Nat := (x + y) % 2 ^ 64
  ⟨add s.a t.a, add s.b t.b, add s.c t.c, add s.d t.d, add s.e t.e, add s.f t.f, add s.g t.g, add s.h t.h⟩

/-- A message with its padding: a bit 1, zeros, and its length in bits, to a multiple of 128 bytes. -/
def shaPad (m : List Byte) : List Byte :=
  m ++ [0x80] ++ List.replicate ((239 - m.length % 128) % 128) 0 ++ beBytes 16 (8 * m.length)

/-- The SHA-384 of a message: 48 bytes. -/
def sha384 (m : List Byte) : List Byte :=
  let p := shaPad m
  let s := (List.range (p.length / 128)).foldl (fun (s : ShaSt) i =>
    s.block ((List.range 16).map fun j => beAt p (128 * i + 8 * j) 8)) shaInit
  [s.a, s.b, s.c, s.d, s.e, s.f].flatMap (beBytes 8)

/-! ### ECDSA over P-384 -/

/-- The prime of the field, the order of the base point, and the curve's coefficient b (a is -3). -/
def p384P : Nat := 2 ^ 384 - 2 ^ 128 - 2 ^ 96 + 2 ^ 32 - 1
def p384N : Nat := 0xffffffffffffffffffffffffffffffffffffffffffffffffc7634d81f4372ddf581a0db248b0a77aecec196accc52973
def p384B : Nat := 0xb3312fa7e23ee7e4988e056be3f82d19181d9c6efe8141120314088f5013875ac656398d8a2ed19d2a85c8edd3ec2aef

/-- A point in Jacobian coordinates; the point at infinity has z 0. -/
structure JPoint where
  x : Nat
  y : Nat
  z : Nat
  deriving DecidableEq, Repr

/-- The base point. -/
def p384G : JPoint :=
  ⟨0xaa87ca22be8b05378eb1c71ef320ad746e1d3b628ba79b9859f741e082542a385502f25dbf55296c3a545e3872760ab7,
   0x3617de4a96262c6f5d9e98bf9292dc29f8f41dbd289a147ce9da3113b5f0b8c00a60b1ce1d7e819d7a431d7c90ea0e5f, 1⟩

/-- A difference in the field. -/
def subP (x y : Nat) : Nat := (x + p384P - y) % p384P

/-- The bits of a number, most significant first, 384 of them. -/
def bits384 (k : Nat) : List Bool := (List.range 384).map fun i => k.testBit (383 - i)

/-- A power modulo `m`. -/
def powMod (m b e : Nat) : Nat := (bits384 e).foldl (fun r t => let q := r * r % m; if t then q * b % m else q) 1

/-- A point doubled. -/
def JPoint.double (q : JPoint) : JPoint :=
  let d := q.z * q.z % p384P
  let g := q.y * q.y % p384P
  let b := q.x * g % p384P
  let a := 3 * subP q.x d * (q.x + d) % p384P
  let x := subP (a * a % p384P) (8 * b % p384P)
  let s := q.y + q.z
  ⟨x, subP (a * subP (4 * b % p384P) x % p384P) (8 * g * g % p384P), subP (subP (s * s % p384P) g) d⟩

/-- The sum of two points. -/
def JPoint.add (q r : JPoint) : JPoint :=
  if q.z = 0 then r
  else if r.z = 0 then q
  else
    let zq := q.z * q.z % p384P
    let zr := r.z * r.z % p384P
    let u := q.x * zr % p384P
    let s := q.y * zr * r.z % p384P
    let h := subP (r.x * zq % p384P) u
    let t := subP (r.y * zq * q.z % p384P) s
    if h = 0 then (if t = 0 then q.double else ⟨1, 1, 0⟩)
    else
      let hh := h * h % p384P
      let h3 := h * hh % p384P
      let v := u * hh % p384P
      let x := subP (subP (t * t % p384P) h3) (2 * v % p384P)
      ⟨x, subP (t * subP v x % p384P) (s * h3 % p384P), q.z * r.z % p384P * h % p384P⟩

/-- k times the base point plus l times a point. -/
def mulAdd (k l : Nat) (q : JPoint) : JPoint :=
  let both := p384G.add q
  ((bits384 k).zip (bits384 l)).foldl (fun r t =>
    let d := r.double
    match t with
    | (true, true) => d.add both
    | (true, false) => d.add p384G
    | (false, true) => d.add q
    | (false, false) => d) ⟨1, 1, 0⟩

/-- Whether a point lies on the curve. -/
def onCurve (x y : Nat) : Bool :=
  x < p384P && y < p384P && y * y % p384P == (x * x * x + p384B + 3 * (p384P - x)) % p384P

/-- Whether a signature (r then s, 48 bytes each) of a message with a digest verifies under an uncompressed public key (0x04, X, Y). -/
def ecdsaVerify (pub digest sig : List Byte) : Bool :=
  let x := beAt pub 1 48
  let y := beAt pub 49 48
  let r := beAt sig 0 48
  let s := beAt sig 48 48
  pub.length == 97 && byteAt pub 0 == 4 && onCurve x y && 1 ≤ r && r < p384N && 1 ≤ s && s < p384N &&
    let w := powMod p384N s (p384N - 2)
    let k := beNat digest * w % p384N
    let l := r * w % p384N
    let q := mulAdd k l ⟨x, y, 1⟩
    let i := powMod p384P q.z (p384P - 2)
    q.z != 0 && q.x * i % p384P * i % p384P % p384N == r

end Sys2Proof.Machine
end

