-- ==== Sys2Proof/Machine/RecipeCheck.lean ====
section
/-!
DEFINITION. Machine/RecipeCheck.lean: the checks of R72 on a fetched image: structure (R66 to R71), and content: device
limits and the rules of action words (R95, R100, R103, R104, R116, R117, R143, R171 to R188, R189, R202, R203, R567).
-/

namespace Sys2Proof.Machine

/-! ### Structure -/

/-- Whether bytes `o` to `o + n - 1` are all zero. -/
def zeroAt (bs : List Byte) (o n : Nat) : Bool := (slice bs o n).all fun b => b == 0

/-- Fields of the image header (R67). -/
def Image.len (m : Image) : Nat := leAt m.header 8 4
def Image.flags (m : Image) : Nat := leAt m.header 14 2
def Image.partCode (m : Image) : Nat := leAt m.header 16 2
def Image.minRev (m : Image) : Nat := byteAt m.header 18
def Image.maxRev (m : Image) : Nat := byteAt m.header 19
def Image.interopMin (m : Image) : Nat := leAt m.header 20 2
def Image.interopMax (m : Image) : Nat := leAt m.header 22 2
def Image.serial (m : Image) : Nat := leAt m.header 24 8
def Image.vendorLib (m : Image) : Nat := leAt m.header 48 4
def Image.keySlot (m : Image) : Nat := byteAt m.header 52
def Image.tableOff (m : Image) : Nat := leAt m.header 56 4
def Image.sigOff (m : Image) : Nat := leAt m.header 60 4

/-- The header is well formed (R66, R67). -/
def Image.headerOk (m : Image) : Bool :=
  m.header.length == 256 && slice m.header 0 4 == [0x4F, 0x52, 0x51, 0x31] && leAt m.header 4 2 == 1 &&
  leAt m.header 6 2 == 256 && m.len == m.fetched && m.len ≤ 33554432 && 8 ≤ leAt m.header 12 2 &&
  leAt m.header 12 2 ≤ 11 && m.flags < 8 && m.keySlot < 4 && zeroAt m.header 53 3 && zeroAt m.header 64 192 &&
  m.tableOff % 64 == 0 && m.sigOff % 64 == 0 && 256 ≤ m.tableOff && m.sigOff + 256 == m.len

/-- One entry of the section table is well formed (R68, R69). -/
def sectionOk (e : List Byte) : Bool :=
  let type := leAt e 0 2
  e.length == 64 && 1 ≤ type && type ≤ 0xB && leAt e 2 2 == (if type = 6 then 1 else 0) && zeroAt e 12 4 &&
  leAt e 4 4 % 64 == 0 && (type != 7 || leAt e 8 4 == 2949120) && (type != 6 || leAt e 8 4 == 64 + 8847360 + 512)

/-- Sections in ascending order of offset, without overlap, from `lo` to `hi`. -/
def sectionsInOrder (lo hi : Nat) : List (List Byte) → Bool
  | [] => lo ≤ hi
  | e :: es => lo ≤ leAt e 4 4 && sectionsInOrder (leAt e 4 4 + leAt e 8 4) hi es

/-- The section table is well formed: every required type once, an optional type exactly with its flag (R69). -/
def Image.tableOk (m : Image) : Bool :=
  let types := m.sections.map fun e => leAt e 0 2
  m.sections.length == leAt m.header 12 2 && m.sections.all sectionOk && types.eraseDups.length == types.length &&
  [1, 2, 3, 4, 6, 9, 0xA, 0xB].all types.contains && types.contains 7 == bitAt m.flags 0 &&
  types.contains 8 == bitAt m.flags 1 && types.contains 5 == bitAt m.flags 2 &&
  sectionsInOrder (m.tableOff + 64 * m.sections.length) m.sigOff m.sections

/-- The signature block is well formed (R70). -/
def Image.sigOk (m : Image) : Bool :=
  m.sigBlock.length == 256 && leAt m.sigBlock 0 4 == 256 && byteAt m.sigBlock 4 == 4 && zeroAt m.sigBlock 101 3 &&
  zeroAt m.sigBlock 200 56

/-- The stored digest of every section is the hash of its bytes (R68, R72). -/
def Image.digestsOk (m : Image) : Bool :=
  m.hashes.length == m.sections.length && (m.sections.zip m.hashes).all fun e => slice e.1 16 48 == e.2

/-- The customer public key of the signature block, and its signature (R70). -/
def Image.pubkey (m : Image) : List Byte := slice m.sigBlock 4 97
def Image.signature (m : Image) : List Byte := slice m.sigBlock 104 96

/-- Whether 12 fused words are a 48-byte hash, its first bytes in word 0 (R519). -/
def fusedIs (word : Nat → Nat) (hash : List Byte) : Bool :=
  hash.length == 48 && (List.range 12).all fun j => leAt hash (4 * j) 4 == word j

/-- Whether a customer key slot is programmed, not revoked, and fused with a hash (R72, R519). -/
def State.keyMatches (s : State) (slot : Nat) (hash : List Byte) : Bool :=
  !bitAt (s.rd R.FWS_KEY_STATUS_revoked) slot && bitAt (s.rd R.FWS_KEY_STATUS_programmed) slot &&
  fusedIs (fun j => s.rd (R.FWS_CKEY_HASH_hash slot j)) hash

/-- The form of a signature trailer, with a usage bit that its signing key must cover (R522). -/
def trailerForm (t : List Byte) (usage : Nat) : Bool :=
  t.length == 512 && leAt t 0 4 == 512 && leAt t 4 2 == 1 && zeroAt t 6 2 && byteAt t 8 == 4 && zeroAt t 105 3 &&
  bitAt (leAt t 112 2) usage && leAt t 112 2 < 4 && zeroAt t 114 2 && byteAt t 116 == 4 && zeroAt t 213 3 && zeroAt t 408 104

/-- A signature trailer leads to the fused vendor root key: the root key's hash, its signature of the signing key, and that key's
signature of the signed bytes, whose SHA-384 is `signed` (R522). -/
def State.trailerOk (s : State) (t : List Byte) (usage : Nat) (signed : List Byte) : Bool :=
  trailerForm t usage && fusedIs (fun j => s.rd (R.FWS_VKEY_HASH_hash j)) (sha384 (slice t 8 97)) &&
  ecdsaVerify (slice t 8 97) (sha384 (slice t 108 105)) (slice t 216 96) &&
  ecdsaVerify (slice t 116 97) signed (slice t 312 96)

/-- The sub-header of VENDOR_ACTIONS is well formed (R71). -/
def Image.vendorForm (m : Image) : Bool :=
  m.vendorHead.length == 64 && leAt m.vendorHead 28 4 == 8847360 && zeroAt m.vendorHead 32 32

/-- The lowest serial a load may have (R72, R90). -/
def State.minSerial (s : State) : Nat := s.rd64 R.FWS_RCP_MIN_SERIAL_LO_serial_lo R.FWS_RCP_MIN_SERIAL_HI_serial_hi

/-- The first authentication check of R72 that an image fails, as a security-log reason. -/
def State.authFailure (s : State) (m : Image) : Option Nat :=
  if !(m.headerOk && m.tableOk && m.sigOk) then some secStructure
  else if !m.digestsOk then some secDigest
  else if !s.keyMatches m.keySlot (sha384 m.pubkey) then some secCustKey
  else if !ecdsaVerify m.pubkey m.signed m.signature then some secCustSig
  else if !(m.vendorForm && s.trailerOk m.trailer 1 m.vendorHash) then some secVendor
  else if !m.gcmOk then some secGcm
  else if m.serial < s.minSerial then some secSerial
  else none

/-- The compatibility checks of R72: part code, silicon revision, firmware interop range and vendor library. -/
def State.compatible (s : State) (m : Image) : Bool :=
  m.partCode == 0x7260 && m.minRev ≤ 0xB0 && 0xB0 ≤ m.maxRev && m.interopMin ≤ s.fw.interop &&
  s.fw.interop ≤ m.interopMax && s.fw.libMin ≤ m.vendorLib && m.vendorLib ≤ s.fw.libMax

/-! ### Content: parser, scanner, tables, arrays -/

/-- The parse graph and header types within the limits of R95. -/
def Recipe.parserOk (r : Recipe) : Bool :=
  let stOk (n : Option Nat) : Bool := match n with | some i => i < r.states.length | none => true
  r.states.length ≤ 256 && r.headers.length ≤ 64 && r.starts.length ≤ 8 && (r.starts.getD 0 none).isSome &&
  r.starts.all stOk && (r.states.foldl (fun n x => n + x.trans.length) 0) ≤ 4096 && r.profiles.length ≤ 16 &&
  (r.states.all fun x =>
    x.trans.length ≤ 16 && x.profile < 16 && (x.trans.all fun t => t.next < r.states.length) &&
    (x.key.foldl (fun n k => n + k.field.width) 0) ≤ 32 &&
    (x.key.all fun k => !k.look || k.field.bit + k.field.width ≤ 256) &&
    (match x.header with | some h => h < r.headers.length | none => true) &&
    (match x.skip with | some l => [1, 2, 4, 8].contains l.scale | none => true)) &&
  (r.headers.all fun h =>
    1 ≤ h.maxInst && h.maxInst ≤ 16 && 1 ≤ h.fixedLen && h.fixedLen ≤ 256 && h.values.length ≤ 4 &&
    (match h.length with | some l => [1, 2, 4, 8].contains l.scale | none => true)) &&
  (r.phv.all fun p => match p.src with
    | .field _ _ f => f.bit + f.width ≤ 512 && 1 ≤ f.width && p.place.bit + f.width ≤ contBits p.place.cont &&
        p.place.cont < 0xF0
    | .offset _ _ => p.place.cont < 0xF0) &&
  r.inserts.length ≤ 8

/-- DROP_ACTIONS uses no reserved code (R100). -/
def Recipe.dropsOk (r : Recipe) : Bool :=
  (r.drops.all fun d => d.code ≤ 4 && d.profile < 16 && d.session < 16) && r.timeout.code ≤ 4

/-- Scan profiles and pattern sets within the limits of R103 and R104. -/
def Recipe.scansOk (r : Recipe) : Bool :=
  (r.profiles.all fun p => p.sets < 256 && 1 ≤ p.maxLen && p.maxLen ≤ 2048) && r.sets.length ≤ 8 &&
  r.sets.all fun s => s.length ≤ 16384 && s.all fun p =>
    1 ≤ p.bytes.length && p.bytes.length ≤ 32 && p.mask.length == p.bytes.length &&
    (match p.anchor with | some a => a ≤ 2047 | none => true)

/-- The table a binding names: by its identifier, or a classifier's subtables by the classifier's. -/
def Recipe.tablesOf (r : Recipe) (id : Nat) : List TableDecl :=
  r.tables.filter fun t => t.id == id || match t.kind with
    | .exm d => (match d.subOf with | some (c, _) => c == id | none => false)
    | .asm _ _ _ => false

/-- Whether a declaration is of an associative table. -/
def TableDecl.isAsm (t : TableDecl) : Bool := match t.kind with | .asm _ _ _ => true | .exm _ => false

/-- The associative units that a declared capacity takes (R81, R126): one for 24 route units of a prefix table, a rule's width for each
rule (notes/assumptions/168.md). -/
def asmNeed (k : AsmType) (capacity : Nat) : Nat :=
  match k with | .ternary u => capacity * u | _ => ceilDiv capacity 24

/-- An associative declaration obeys its row of R117: the banks' width is its type's; its capacity fits its banks (R72, R116). -/
def TableDecl.asmFits (t : TableDecl) : Bool :=
  match t.kind with
  | .asm k w bs => w == asmUnits k && [1, 2, 4].contains w && asmNeed k t.capacity ≤ bs.length * 8192
  | .exm _ => true

/-- The associative declarations obey R116 and R117: at most 32 tables, each with banks of the device, no bank in two
tables, capacities that fit. -/
def Recipe.asmOk (r : Recipe) : Bool :=
  let banks := r.tables.flatMap fun t => match t.kind with | .asm _ _ bs => bs | .exm _ => []
  (r.tables.filter TableDecl.isAsm).length ≤ 32 && banks.all (· < 32) && banks.eraseDups.length == banks.length &&
  r.tables.all TableDecl.asmFits

/-- The subtables of a classifier have numbers of their own and one key (R151). -/
def subsOk (ds : List ExmDecl) : Bool :=
  ds.all fun d => match d.subOf with
    | none => true
    | some (c, _) =>
      let mine := ds.filter fun e => match e.subOf with | some (k, _) => k == c | none => false
      let nums := mine.map fun e => match e.subOf with | some (_, n) => n | none => 0
      nums.eraseDups.length == nums.length && mine.all fun e => e.keyBits == d.keyBits

/-- The exact-match declarations obey R141, R142, R144, R151 to R153 and R155; their seeds stand in HASH_SEEDS (R144). -/
def Recipe.exmOk (r : Recipe) : Bool :=
  let ds := r.tables.filterMap fun t => match t.kind with | .exm d => some d | .asm _ _ _ => none
  ds.length ≤ 64 && subsOk ds && ds.all fun d =>
    r.seeds.contains d.seed1 && r.seeds.contains d.seed2 &&
    [64, 128, 256, 512].contains d.width && 1 ≤ d.keyBits && d.keyBits ≤ d.width && [1, 2, 4, 8, 16].contains d.group &&
    d.engine % d.group == 0 && d.engine + d.group ≤ 16 && 2 ≤ d.buckets && d.buckets ≤ 67108864 &&
    (!d.learning || d.width ≤ 256) && d.delay ≤ 16 &&
    (match d.ageing with | some a => a ≤ 26 | none => true) && (match d.subOf with | some (_, n) => n < 32 | none => true)

/-- The bytes that some tables put into an engine's slice of the table SRAM (R141), and into the HBM table partition. -/
def sliceBytes (e : Nat) (ts : List (ExmDecl × Nat)) : Nat :=
  ts.foldl (fun n x => if !x.1.hbm && x.1.engine ≤ e && e < x.1.engine + x.1.group then n + ceilDiv x.2 x.1.group else n) 0
def partBytes (ts : List (ExmDecl × Nat)) : Nat := ts.foldl (fun n x => if x.1.hbm then n + x.2 else n) 0

/-- Bytes of the table partition that HBM tables can take: its data but for the reservoir page table (R265, R267, R283). -/
def State.hbmTableBytes (s : State) : Nat := s.partSize - s.pageTable

/-- Whether what some tables need fits each engine's 6 MiB and the HBM table partition (R141, R142). -/
def State.exmHolds (s : State) (ts : List (ExmDecl × Nat)) : Bool :=
  (List.range 16).all (fun e => sliceBytes e ts ≤ 6 * 1048576) && partBytes ts ≤ s.hbmTableBytes

/-- The exact-match tables of a Recipe with the bytes each is declared at. -/
def Recipe.exmBytes (r : Recipe) : List (ExmDecl × Nat) :=
  r.tables.filterMap fun t => match t.kind with | .exm d => some (d, d.bytes) | .asm _ _ _ => none

/-- The stateful arrays obey R202: kinds, widths, unit groups, 1 MiB a unit, at most 1,048,576 meter entries. -/
def arraysFit (as : List ArrayDecl) : Bool :=
  (List.range 64).all fun u => (as.foldl (fun n a =>
    if a.learns.isNone && a.first ≤ u && u < a.first + a.group then n + ceilDiv a.size a.group * a.width / 8 else n) 0)
      ≤ 1048576

/-- The array declarations are well formed (R202). -/
def Recipe.arraysOk (r : Recipe) : Bool :=
  (r.arrays.all fun a => a.num < 64 && (a.learns.isSome ||
    ([64, 128, 256].contains a.width && (a.kind != .meter || a.width == 256) && [1, 2, 4, 8, 16, 32, 64].contains a.group &&
      a.first % a.group == 0 && a.first + a.group ≤ 64))) &&
  arraysFit r.arrays &&
  (r.arrays.foldl (fun n a => if a.kind = .meter ∧ a.learns = none then n + a.size else n) 0) ≤ 1048576

/-! ### Content: stages and action words -/

/-- The stages of a Recipe: 0 to 23 ingress, 24 to 35 egress (R169). -/
def Recipe.stage (r : Recipe) (k : Nat) : StageBind := r.stages.getD k ⟨[], 0, [], 0, false⟩

/-- The stages of a section. -/
def sectionStages (egress : Bool) : List Nat := if egress then (List.range 12).map (· + 24) else List.range 24

/-- Whether a stage looks up an HBM table. -/
def Recipe.bindsHbm (r : Recipe) (k : Nat) : Bool :=
  (r.stage k).bindings.any fun b => (r.tablesOf b.table).any fun t => match t.kind with | .exm d => d.hbm | .asm _ _ _ => false

/-- Whether a key field lies in one container or in metadata bytes 0 to 63 (R172). -/
def KeyField.inOne (f : KeyField) : Bool :=
  f.off + f.len ≤ 64 || (List.range 0xF0).any fun c => (contAt c).1 ≤ f.off && f.off + f.len ≤ (contAt c).1 + (contAt c).2

/-- Whether the action index of a binding lies in the result of a table: 24 bits of an associative one, the data field of
an exact-match one (R175, R176). -/
def Binding.indexIn (b : Binding) (t : TableDecl) : Bool :=
  match t.kind with
  | .asm _ _ _ => b.indexLsb + 12 ≤ 24
  | .exm d => d.keyBits + b.indexLsb + 12 ≤ d.width

/-- Stage bindings within R171, R172, R174, R175, R152 and R117. -/
def Recipe.stagesOk (r : Recipe) : Bool :=
  let isAsm (b : Binding) : Bool := (r.tablesOf b.table).any TableDecl.isAsm
  (List.range 36).all (fun k =>
    let st := r.stage k
    st.profiles.length ≤ 4 && st.fixed < 4096 && (!st.customer || 3072 ≤ st.fixed) &&
    (st.profiles.all fun p =>
      p.fields.length ≤ 20 && p.lookups.length ≤ 2 &&
      (p.fields.all fun f => 1 ≤ f.len && f.len ≤ 8 && f.inOne && f.dst + f.len ≤ 40) &&
      (p.lookups.all fun l => l < st.bindings.length) &&
      (p.lookups.filter fun l => match st.bindings[l]? with | some b => isAsm b | none => false).length ≤ 1) &&
    (st.bindings.all fun b =>
      !(r.tablesOf b.table).isEmpty && b.missWord < 4096 && (!b.customer || 3072 ≤ b.missWord) &&
      (r.tablesOf b.table).all b.indexIn &&
      ((k < 24) || (r.tablesOf b.table).all fun t => match t.kind with | .exm d => !d.learning | .asm _ _ _ => true))) &&
  [false, true].all (fun e => ((sectionStages e).filter r.bindsHbm).length ≤ 2 &&
    r.tables.all fun t => !t.isAsm ||
      ((sectionStages e).filter fun k => (r.stage k).bindings.any fun b => b.table == t.id).length ≤ 1)

/-- The lookups per CCLK that bindings demand fit what engines give, 2 an engine, and the HBM budget of 1.5 TB/s (R143). -/
def Recipe.ratesOk (r : Recipe) : Bool :=
  let rate (d : TableDecl) : Nat := (List.range 36).foldl (fun n k => (r.stage k).bindings.foldl (fun n b =>
    if (r.tablesOf b.table).contains d then n + b.rate else n) n) 0
  let exms := r.tables.filterMap fun t => match t.kind with | .exm d => some (t, d) | .asm _ _ _ => none
  ((List.range 16).all fun e => exms.foldl (fun n x =>
    if !x.2.hbm && x.2.engine ≤ e && e < x.2.engine + x.2.group then n + rate x.1 * 16 / x.2.group else n) 0 ≤ 32) &&
  exms.foldl (fun n x => if x.2.hbm then n + rate x.1 * 2 * x.2.bucketBytes * 1800000000 else n) 0 ≤ 1500000000000

/-- Whether a field of `w` bits at `off` fits its source (R179). -/
def srcFits (sel n off w : Nat) : Bool :=
  match sel with
  | 0 => off + w ≤ contBits n
  | 1 => off == 0 && n + w ≤ 64
  | 2 => off == 0 && n + w ≤ 256
  | _ => off == 0 && n + w ≤ 16

/-- Whether a destination field is one a word may write (R180, R184): inside its container, not in metadata words 0 to 9,
not over bits [28:22] of the forwarding record. -/
def dstOk (c off w : Nat) : Bool :=
  off + w ≤ contBits c && !(0xF0 ≤ c && c ≤ 0xF9) && !(c == 0xFA && off ≤ 28 && 22 < off + w)

/-- Whether a destination is open to customer words (R189). -/
def Recipe.customerDst (r : Recipe) (c off w : Nat) : Bool :=
  if c < 0xF0 then r.customerWritable.contains c
  else 0xFC ≤ c || (c == 0xFA && 16 ≤ off && off + w ≤ 21)

/-- A micro-operation obeys R179 to R181, R567 and, in a customer word, R189. -/
def Recipe.uopOk (r : Recipe) (customer : Bool) (u : Uop) : Bool :=
  let usesB : Bool := !([0x01, 0x09].contains u.op)
  if u.op = 0 then true
  else if u.op = 0x10 then 1 ≤ u.b && u.b ≤ 7 && srcFits u.aSel u.a u.aOff u.width
  else if u.op = 0x13 ∨ u.op = 0x14 then u.a ≤ 31 && (!customer || r.customerEdit.contains u.a)
  else if 0x15 ≤ u.op ∧ u.op ≤ 0x1F then false
  else
    let w := if u.op = 0x12 then 16 else u.width
    !(customer && 0x20 ≤ u.op) && srcFits u.aSel u.a u.aOff u.width && dstOk u.dst u.dstOff w &&
    (!customer || r.customerDst u.dst u.dstOff w) &&
    (if u.op = 0x11 then u.b ≤ 7 else !usesB || srcFits u.bSel u.b 0 u.width)

/-- The bits of an intent's result (R186). -/
def intentResBits (i : IntentW) : Nat := if i.op = 1 then 2 else min 64 (contBits i.resDst - i.resOff)

/-- Whether an intent writes a result: METER, REG_WRITE, REG_ADD and FLOW return one, COUNT and LEARN none (R186). -/
def IntentW.writes (i : IntentW) : Bool := i.resEn && [1, 3, 4, 5].contains i.op

/-- An intent obeys R184, R186 and, in a customer word, R189. -/
def Recipe.intentOk (r : Recipe) (customer : Bool) (i : IntentW) : Bool :=
  i.op == 0 || (i.op ≤ 6 && i.rsv == 0 &&
    (!i.writes || (i.resOff < contBits i.resDst && dstOk i.resDst i.resOff (intentResBits i))) &&
    (!customer || (r.arrays.any fun a => a.num == i.array && a.customer) &&
      (!i.writes || r.customerDst i.resDst i.resOff (intentResBits i))))

/-- An action word obeys R178 to R188 and, in words 3,072 to 4,095, R189. -/
def Recipe.wordOk (r : Recipe) (stage word w : Nat) : Bool :=
  let customer : Bool := 3072 ≤ word
  let egress : Bool := 24 ≤ stage
  let local_ := if egress then stage - 24 else stage
  let last := if egress then 11 else 23
  wordKind w ≤ 1 && wordUops w ≤ 8 && bitsAt w 28 4 == 0 &&
  (!wordSkip w || (local_ < wordSkipTo w && wordSkipTo w ≤ last && !customer)) &&
  (!wordDrop w || (1 ≤ wordReason w && wordReason w ≤ 0x16 &&
    (!customer || wordReason w == (if egress then 0x15 else 0x04)))) &&
  ((List.range (wordUops w)).all fun k => r.uopOk customer (wordUop w k)) &&
  ((List.range 2).all fun i => r.intentOk customer (wordIntent w i)) &&
  (!customer || wordKeyNext w == 0 || local_ != last &&
    match (r.stage (stage + 1)).profiles[wordKeyNext w - 1]? with
    | some p => p.lookups.any fun l => match (r.stage (stage + 1)).bindings[l]? with
        | some b => b.customer | none => false
    | none => false)

/-- The words of a stage that execute: those of kind ACTION (R178). -/
def Recipe.actions (r : Recipe) (stage : Nat) : List (Nat × Nat) :=
  (r.words.filter fun w => w.1 / 4096 == stage && wordKind (leNat w.2) == 1).map fun w => (w.1, leNat w.2)

/-- The containers that receive an intent result in a stage. -/
def Recipe.resultConts (r : Recipe) (stage : Nat) : List Nat :=
  (r.actions stage).flatMap fun w =>
    ((List.range 2).map (wordIntent w.2)).filterMap fun i => if i.writes then some i.resDst else none

/-- Whether a micro-operation reads a container: as operand a or b, or, for CSUM, as the checksum it starts from (R179, R567). -/
def Uop.reads (u : Uop) (c : Nat) : Bool :=
  (u.aSel == 0 && u.a == c && u.op != 0 && u.op != 0x13 && u.op != 0x14) ||
  (u.bSel == 0 && u.b == c && !([0, 0x01, 0x09, 0x10, 0x11, 0x13, 0x14].contains u.op)) || (u.op == 0x12 && u.dst == c)

/-- Whether a stage reads a container: in a key, a micro-operation or an intent (R188). -/
def Recipe.reads (r : Recipe) (stage c : Nat) : Bool :=
  let o := contAt c
  ((r.stage stage).profiles.any fun p => p.fields.any fun f => f.off < o.1 + o.2 && o.1 < f.off + f.len) ||
  (r.actions stage).any fun w =>
    ((List.range (wordUops w.2)).any fun k => (wordUop w.2 k).reads c) ||
    ((List.range 2).any fun i =>
      let x := wordIntent w.2 i
      x.op != 0 && (x.idx == c || (x.opndSel == 0 && x.opnd == c)))

/-- The stages of a section that issue intents to an array. -/
def Recipe.issuers (r : Recipe) (egress : Bool) (num : Nat) : List Nat :=
  (sectionStages egress).filter fun k => (r.actions k).any fun w =>
    (List.range 2).any fun i => (wordIntent w.2 i).op != 0 && (wordIntent w.2 i).array == num

/-- The action words obey their rules, no stage reads a result too early (R188), and no array is written from two stages
of a section (R203). -/
def Recipe.wordsOk (r : Recipe) : Bool :=
  (r.words.all fun w => w.1 / 4096 < 36 && w.2.length == 80 && r.wordOk (w.1 / 4096) (w.1 % 4096) (leNat w.2)) &&
  ((List.range 36).all fun k => k == 23 || k == 35 || (r.resultConts k).all fun c => !r.reads (k + 1) c) &&
  [false, true].all fun e => r.arrays.all fun a => a.learns.isSome || (r.issuers e a.num).length ≤ 1

/-- The transaction classes are 16, with marks of 64 bits (R214). -/
def Recipe.classesOk (r : Recipe) : Bool := r.classes.length ≤ 16 && r.classes.all fun c => c.anyway < 2 ^ 64

/-- The section contents within the limits of the device (R72). -/
def Recipe.contentOk (r : Recipe) : Bool :=
  r.parserOk && r.dropsOk && r.scansOk && r.asmOk && r.exmOk && r.arraysOk && r.stagesOk && r.ratesOk && r.wordsOk && r.classesOk

/-- The content check of R72: the sections within limits, and the Recipe alone fits the device. -/
def State.contentFits (s : State) (r : Recipe) : Bool := r.contentOk && s.exmHolds r.exmBytes

end Sys2Proof.Machine
end

