-- ==== Sys2Proof/Machine/ParseOps.lean ====
section
/-!
DEFINITION. Machine/ParseOps.lean: the parser and the scanner as functions of a packet's bytes and a Recipe: the walk through
the parse graph (R95, R96, R99), the header vector (R97, R98), the matching of patterns (R103 to R107) and the deparser
(R185). notes/assumptions/5.md says how this model reads a Recipe's sections.
-/

namespace Sys2Proof.Machine

/-! ### The parse graph -/

/-- Where a walk through the parse graph ended (R99): the headers extracted, payload_off, the class of a malformed packet
(0 if none), the state and offset of the last step, and the scan profile of a terminal state. -/
structure Walk where
  stack   : List HdrInst
  payload : Nat
  cls     : Nat
  state   : Nat
  off     : Nat
  profile : Nat
  deriving DecidableEq, Repr

/-- A field of a header that starts at byte `o`: its bits in network order (R97). -/
def hdrField (bs : List Byte) (o : Nat) (f : HFld) : Nat :=
  let first := o + f.bit / 8
  let last := o + (f.bit + f.width - 1) / 8
  (beAt bs first (last - first + 1)) / 2 ^ ((8 - (f.bit + f.width) % 8) % 8) % 2 ^ f.width

/-- The last byte a field of a header that starts at `o` reaches. -/
def fieldLast (o : Nat) (f : HFld) : Nat := o + (f.bit + f.width - 1) / 8

/-- A length computed from a field (R95), when the field lies within the packet and within bytes 0 to 511 (R99). -/
def computedLen (bs : List Byte) (n o : Nat) (e : LenExpr) : Option Int :=
  if fieldLast o e.field < min n 512 then some ((hdrField bs o e.field * e.scale : Nat) + e.base) else none

/-- The end of a header that starts at `o`, or LENGTH_FIELD (none) (R99): a fixed length, a computed one, or, where
the field cannot be read, the later of the fixed part's end and the field's last byte. -/
def partEnd (bs : List Byte) (n hdr o fixed : Nat) (e : Option LenExpr) : Option Nat :=
  match e with
  | none => some (o + fixed)
  | some e =>
    match computedLen bs n hdr e with
    | some l => if l < (fixed : Int) ∨ 256 < l then none else some (o + l.toNat)
    | none => some (max (o + fixed) (fieldLast hdr e.field + 1))

/-- Whether a type's value checks hold for a header at `o` (R95). -/
def valuesOk (bs : List Byte) (o : Nat) (t : HdrType) : Bool :=
  t.values.all fun v => (hdrField bs o v.field &&& v.mask) == (v.value &&& v.mask)

/-- Whether a type's length check holds: the total length does not exceed the rest of the packet (R99). -/
def lengthOk (bs : List Byte) (n o : Nat) (t : HdrType) : Bool :=
  match t.lenCheck with
  | none => true
  | some e => (hdrField bs o e.field * e.scale : Nat) + e.base ≤ (n - o : Nat)

/-- The checks a header at `o` that ends at `e` declares, in the order of R99: the class of the first that fails. -/
def headerCheck (r : Recipe) (bs : List Byte) (n : Nat) (stack : List HdrInst) (t : HdrType) (o e : Nat) : Option Nat :=
  let checked := (stack.filter fun x => match r.headers[x.htype]? with | some y => y.checksum | none => false).length
  if t.checksum && checked < 4 && !checksumOk (slice bs o (e - o)) then some 8
  else if !valuesOk bs o t then some 9
  else if !lengthOk bs n o t then some 7
  else none

/-- A transition key: its parts one after another, the first in the most significant bits; bytes beyond the packet or
beyond byte 511 read as zero (R95). -/
def transKey (bs : List Byte) (n hdr next : Nat) (parts : List KeyPart) : Nat :=
  let seen := (bs.take (min n 512)) ++ List.replicate 600 0
  parts.foldl (fun k p => k * 2 ^ p.field.width + hdrField seen (if p.look then next else hdr) p.field) 0

/-- What a parse step does to a walk whose header starts at `o` (R95, R99): stops with a class, with payload_off and the
headers extracted; or ends: where its header ends, where the step ends, the headers extracted. -/
inductive StepEnd where
  | stops (cls payload : Nat) (stack : List HdrInst)
  | ends (hdrEnd e : Nat) (stack : List HdrInst)
  deriving DecidableEq, Repr

/-- The end of a skip behind byte `e`, or LENGTH_FIELD (none) where the computed number of bytes is below 0: the limit of 256 bytes is
one of header instances (R95, R99; DEDUCED, notes/assumptions/143.md). -/
def skipEnd (bs : List Byte) (n o e : Nat) (skip : Option LenExpr) : Option Nat :=
  match skip with
  | none => some e
  | some sk =>
    match computedLen bs n o sk with
    | some l => if l < 0 then none else some (e + l.toNat)
    | none => some (max e (fieldLast o sk.field + 1))

/-- The header and skip of a state as one step, whose conditions are tried in the order of R99. A header before a skip that stops the
parse is extracted where its own conditions hold (notes/assumptions/169.md). `h` is the header type with its number, if the state
extracts one. -/
def stepPart (r : Recipe) (bs : List Byte) (n o : Nat) (x : ParseState) (stack : List HdrInst) : StepEnd :=
  let hdr := x.header.bind fun h => (r.headers[h]?).map fun t => (h, t)
  match hdr with
  | none =>
    match skipEnd bs n o o x.skip with
    | none => .stops 6 o stack
    | some f => if n < f then .stops 1 o stack else if 512 < f then .stops 2 o stack else .ends f f stack
  | some (h, t) =>
    if 24 ≤ stack.length then .stops 3 o stack
    else if t.maxInst ≤ (stack.filter (·.htype == h)).length then .stops 5 o stack
    else
      match partEnd bs n o o t.fixedLen t.length with
      | none => .stops 6 o stack
      | some e =>
        let fails := headerCheck r bs n stack t o e
        let whole := e ≤ n && e ≤ 512 && fails.isNone
        let off := if whole then e else o
        let stack' := if whole then stack ++ [HdrInst.mk h o (e - o)] else stack
        match skipEnd bs n o e x.skip with
        | none => .stops 6 off stack'
        | some f =>
          if n < max e f then .stops 1 off stack'
          else if 512 < max e f then .stops 2 off stack'
          else match fails with
            | some c => .stops c o stack
            | none => .ends e f stack'

/-- The walk from a state at byte `o`, with `fuel` steps left (R95, R96, R99). Lookahead bytes follow the state's header, or its skip where
it has no header (notes/assumptions/169.md). -/
def walk (r : Recipe) (bs : List Byte) (n : Nat) : Nat → Nat → Nat → List HdrInst → Walk
  | 0, st, o, stack => ⟨stack, o, 4, st, o, 0⟩
  | fuel + 1, st, o, stack =>
    match r.states[st]? with
    | none => ⟨stack, o, 10, st, o, 0⟩
    | some x =>
      match stepPart r bs n o x stack with
      | .stops c p stack => ⟨stack, p, c, st, o, 0⟩
      | .ends look e stack =>
        if x.trans.isEmpty then ⟨stack, e, 0, st, e, x.profile⟩
        else
          let k := transKey bs n o look x.key
          match x.trans.find? fun t => (k &&& t.mask) == (t.value &&& t.mask) with
          | some t => walk r bs n fuel t.next e stack
          | none => ⟨stack, e, 10, st, o, 0⟩

/-- The start state a packet uses: the port's, or state 0 when the version does not declare it (R96). -/
def Recipe.startOf (r : Recipe) (want : Nat) : Nat := if (r.starts.getD want none).isSome then want else 0

/-- The parse of a packet of `n` bytes from start state `start`: at most 32 steps (R95). -/
def Recipe.parse (r : Recipe) (bs : List Byte) (n start : Nat) : Walk :=
  walk r bs n 32 ((r.starts.getD (r.startOf start) none).getD 0) 0 []

/-- The drop reason of a malformed class (R99). -/
def clsReason (c : Nat) : Nat := if 2 ≤ c ∧ c ≤ 5 then 0x02 else 0x01

/-- The action on a malformed class, the default resolved (R99, R100): 1 DROP, 2 DROP_MIRROR, 3 FORWARD_PARTIAL, 4 PUNT. -/
def Recipe.clsAction (r : Recipe) (c : Nat) : DropAction :=
  let a := r.drops.getD (c - 1) ⟨0, 0, 0⟩
  if a.code = 0 then { a with code := if c = 2 ∨ c = 3 ∨ c = 5 ∨ c = 10 then 3 else 1 } else a

/-- The action on a scan timeout (R100). -/
def Recipe.timeoutAction (r : Recipe) : DropAction :=
  if r.timeout.code = 0 then { r.timeout with code := 1 } else r.timeout

/-! ### The header vector -/

/-- Instance `i` of a header type in a stack. -/
def instOf (stack : List HdrInst) (htype i : Nat) : Option HdrInst := (stack.filter (·.htype == htype))[i]?

/-- What PHV_LAYOUT places in the containers (R95, R97): fields of the first 64 bytes of an instance, and offsets. -/
def fillPhv (items : List PhvItem) (bs : List Byte) (stack : List HdrInst) (hv : List Byte) : List Byte :=
  items.foldl (fun hv it =>
    match it.src with
    | .field h i f =>
      match instOf stack h i with
      | some x =>
        if fieldLast 0 f < min x.len 64 then setField hv it.place.cont it.place.bit f.width (hdrField bs x.off f) else hv
      | none => hv
    | .offset h i =>
      match instOf stack h i with
      | some x => setField hv it.place.cont it.place.bit (contBits it.place.cont - it.place.bit) x.off
      | none => hv) hv

/-- The intrinsic metadata of a packet (R98): stamp in nanoseconds since the epoch, tag, port, version, the walk, whether
the parse was stopped and the packet is punted, its length, the start state. -/
def metadata (stamp tag port version : Nat) (w : Walk) (punt : Bool) (len start : Nat) : List Byte :=
  leBytes 10 (stamp / 1000000000 * 2 ^ 30 + stamp % 1000000000) ++ leBytes 8 tag ++
  [BitVec.ofNat 8 (port % 128 + 128 * (version % 2)),
   BitVec.ofNat 8 (w.cls + 16 * bit01 (w.cls != 0) + 32 * bit01 punt)] ++
  leBytes 2 len ++ leBytes 2 w.payload ++
  leBytes 8 (w.stack.foldl (fun n x => n ||| 2 ^ x.htype) 0) ++ [BitVec.ofNat 8 w.stack.length, 0, 0, 0] ++
  [BitVec.ofNat 8 start, 0, 0, 0] ++ List.replicate 24 0

/-- The header vector at hand-off (R97, R98): 768 bytes. -/
def headerVector (r : Recipe) (bs : List Byte) (stamp tag port version : Nat) (w : Walk) (punt : Bool)
    (len start : Nat) : List Byte :=
  fillPhv r.phv bs w.stack (metadata stamp tag port version w punt len start ++ List.replicate 704 0)

/-! ### The scanner -/

/-- A scan's region from its profile: first byte and first byte after it (R103); empty where the start reference names a header instance
that the packet does not have (notes/assumptions/170.md). -/
def ScanProfile.region (p : ScanProfile) (stack : List HdrInst) (payload len : Nat) : Nat × Nat :=
  let start := match p.start with
    | .byte0 => some 0
    | .payload => some payload
    | .header h i => (instOf stack h i).map (·.off)
  match start with
  | none => (0, 0)
  | some a => (a, max a (min (min len 2048) (a + p.maxLen)))

/-- Whether a pattern matches at packet byte `i` of the region `[start, stop)` (R105). -/
def Pattern.hits (q : Pattern) (bs : List Byte) (start stop i : Nat) : Bool :=
  (match q.anchor with | some a => start + a == i | none => true) && i + q.bytes.length ≤ stop &&
  (List.range q.bytes.length).all fun j =>
    (byteAt bs (i + j) &&& byteAt q.mask j) == (byteAt q.bytes j &&& byteAt q.mask j)

/-- The indices of the patterns of a set that match at a byte. -/
def setHits (set : List Pattern) (bs : List Byte) (start stop i : Nat) : List Nat :=
  (List.range set.length).filter fun k => match set[k]? with | some q => q.hits bs start stop i | none => false

/-- One shift of a set: start offsets `k` to `k + 31` (R105, R106). -/
def ScanRes.shift (x : ScanRes) (set : List Pattern) (bs : List Byte) (start stop k : Nat) : ScanRes :=
  (List.range 32).foldl (fun x j =>
    if stop ≤ k + j then x
    else
      match setHits set bs start stop (k + j) with
      | [] => x
      | i :: is =>
        let n := min (x.count + (i :: is).length) 255
        if x.hit then { x with count := n } else ⟨true, i, k + j, n⟩) x

/-- A scan's results in the header vector (R98, R106): done, timeout and poison flags, hits, and each set's containers. -/
def scanToHv (p : ScanProfile) (sc : Scan) (timeout poison : Bool) (hv : List Byte) : List Byte :=
  let f := hvNum hv 33 1 % 2 ^ 4 &&& 1
  let flags := f + 2 * bit01 (!timeout) + 4 * bit01 timeout + 8 * bit01 poison + hvNum hv 33 1 / 16 * 16
  let hits := (List.range 8).foldl (fun n i => n + 2 ^ i * bit01 ((sc.res.getD i ⟨false, 0, 0, 0⟩).hit)) 0
  let hv := hvSet (hvSet hv 33 1 flags) 34 1 hits
  (List.range 8).foldl (fun hv i =>
    if bitAt p.sets i then
      let x := sc.res.getD i ⟨false, 0, 0, 0⟩
      let d := p.dst.getD i ⟨none, none, none⟩
      let put (hv : List Byte) (pl : Option Place) (w v : Nat) : List Byte :=
        match pl with | some pl => setField hv pl.cont pl.bit w v | none => hv
      put (put (put hv d.index 14 x.index) d.off 11 x.off) d.count 8 x.count
    else hv) hv

/-! ### The deparser -/

/-- An instance's bytes as the deparser writes them: the original bytes with every mapped field overwritten by its
container (R185). -/
def instBytes (items : List PhvItem) (bs hv : List Byte) (stack : List HdrInst) (x : HdrInst) : List Byte :=
  let orig := slice bs x.off x.len
  items.foldl (fun out it =>
    match it.src with
    | .field h i f =>
      if instOf stack h i = some x ∧ fieldLast 0 f < min x.len 64 then
        putNet out f (getField hv it.place.cont it.place.bit f.width)
      else out
    | .offset _ _ => out) orig
where
  /-- A field written in network order. -/
  putNet (out : List Byte) (f : HFld) (v : Nat) : List Byte :=
    let first := f.bit / 8
    let n := (f.bit + f.width - 1) / 8 - first + 1
    let lo := 8 * n - (f.bit % 8 + f.width)
    overlay out first (beBytes n (putBits (beAt out first n) lo f.width v))

/-- An inserted instance's bytes: zero with its mapped fields (R185). -/
def insertBytes (hv : List Byte) (x : Insertable) : List Byte :=
  x.fields.foldl (fun out f => instBytes.putNet out f.1 (getField hv f.2.cont f.2.bit f.1.width)) (List.replicate x.len 0)

/-- The insertable instances whose emit bit is set, of those with a declared place. -/
def inserted (r : Recipe) (emit : Nat) (before : Option Nat) (hv : List Byte) : List Byte :=
  (List.range r.inserts.length).flatMap fun j =>
    match r.inserts[j]? with
    | some x => if x.before == before && bitAt emit (24 + j) then insertBytes hv x else []
    | none => []

/-- The packet as a section leaves it (R185): the instances whose emit bit is set in stack order, the skipped bytes at
their places, the insertions before the first instance of their header type or behind the headers, then the bytes from
payload_off. -/
def deparse (r : Recipe) (bs hv : List Byte) (stack : List HdrInst) (payload emit : Nat) : List Byte :=
  let go := (List.range stack.length).foldl (fun (acc : List Byte × Nat) k =>
    match stack[k]? with
    | none => acc
    | some x =>
      let gap := slice bs acc.2 (x.off - acc.2)
      let first := (stack.findIdx? fun y => y.htype == x.htype) == some k
      let ins := if first then inserted r emit (some x.htype) hv else []
      let own := if bitAt emit k then instBytes r.phv bs hv stack x else []
      (acc.1 ++ gap ++ ins ++ own, x.off + x.len)) (([], 0) : List Byte × Nat)
  go.1 ++ slice bs go.2 (payload - go.2) ++ inserted r emit none hv ++ bs.drop payload

end Sys2Proof.Machine
end

