-- ==== Sys2Proof/Machine/Packets.lean ====
section
/-!
DEFINITION. Machine/Packets.lean: the packets of the FD: where they are, how they end, the pipelines that serve them (R25 to
R29), and what every part of the packet path shares.
-/

namespace Sys2Proof.Machine

/-! ### Packets -/

/-- A packet of the FD. -/
def State.pkt (s : State) (id : Nat) : Option Packet := s.fd.pkts.find? fun p => p.id == id

/-- A packet replaced by what it has become. -/
def State.setPkt (s : State) (p : Packet) : State :=
  { s with fd := { s.fd with pkts := s.fd.pkts.map fun q => if q.id = p.id then p else q } }

/-- A packet that has left the FD. -/
def State.delPkt (s : State) (id : Nat) : State :=
  { s with fd := { s.fd with pkts := s.fd.pkts.filter fun q => q.id != id } }

/-- A packet that enters the FD. -/
def State.addPkt (s : State) (p : Packet) : State := { s with fd := { s.fd with pkts := s.fd.pkts ++ [p] } }

/-- The effect on a packet, where there is one. -/
def State.withPkt (s : State) (id : Nat) (k : Packet → State → State) : State :=
  match s.pkt id with | some p => k p s | none => s

/-- A packet's length (R98). -/
def Packet.len (p : Packet) : Nat := p.bytes.length

/-- The Recipe a packet runs under (R31, R84). -/
def State.pktRecipe (s : State) (p : Packet) : Option Recipe :=
  (if p.version = 0 then s.recipe.slotA else s.recipe.slotB).map (·.recipe)

/-- The Recipe whose words a bank of the control stores holds (R175, R190). -/
def State.bankRecipe (s : State) (bank : Nat) : Option Recipe :=
  (if bank = 0 then s.recipe.slotA else s.recipe.slotB).map (·.recipe)

/-- An ingress account that has fallen to LIF_PFC_XON or below while its XOFF stands: one PFC frame with quanta 0 (R407). -/
def State.pfcXon (s : State) (acct : Nat) : State :=
  let p := acct / 8
  if (mget s.lif.repeats acct).isSome &&
      sread (fun _ => 0) s.lif.accounts acct ≤ 256 * s.rd (R.LIF_PFC_XON_level p) then
    let s := { s with lif := { s.lif with repeats := mdel s.lif.repeats acct } }
    let s := s.wr ⟨R.LIF_PFC_STATUS p, 8 + acct % 8, 1⟩ 0
    (s.bump (R.LIF_PFC_TX_count p)).emit (.pfc p (acct % 8) 0)
  else s

/-- The packet's charge to its PFC account ends (R407). -/
def State.uncharge (s : State) (id : Nat) : State :=
  match mget s.lif.charges id with
  | some (acct, n) =>
    { s with lif := { s.lif with charges := mdel s.lif.charges id,
                                 accounts := swrite (fun _ => 0) s.lif.accounts acct
                                   (sread (fun _ => 0) s.lif.accounts acct - n) } }.pfcXon acct
  | none => s

/-- An ingress packet that leaves the FD without a descriptor: its charge ends and the TD is told to free its staged cells
(R241, R407). -/
def State.endPkt (s : State) (p : Packet) : State :=
  let s := s.delPkt p.id
  if p.egress then s
  else
    let s := s.uncharge p.id
    if p.len ≤ 512 then s else { s with brg := { s.brg with notices := s.brg.notices ++ [p.id] } }

/-- A packet dropped with a reason, counted under its ingress port and tag or its egress port (R473, R474). -/
def State.dropPkt (s : State) (p : Packet) (reason : Nat) : State :=
  let s := if p.egress then s.dropEgress p.port reason p.staged else s.dropIngress p.port reason p.len p.tag
  s.endPkt p

/-- A copy of a dropped packet sent to a mirror session with its reason (R100, R259). -/
def State.dropMirror (s : State) (p : Packet) (session reason : Nat) : State :=
  let d : Desc := ⟨p.id, p.bytes, p.inPort, p.stamp, p.tag, p.version, hvNum p.hv 40 16, 0, 0, false,
                   [.dropMirror session reason], p.poison || p.bodyBad, p.elapsed, false, false⟩
  { s with brg := { s.brg with descs := s.brg.descs ++ [d] } }

/-! ### Ports and pipelines -/

/-- Lanes of a port by its mode (R398); 0 for a client or unused port. -/
def State.portLanes (s : State) (port : Nat) : Nat :=
  match s.rd (R.LIF_PORT_CFG_mode port) with
  | 0 => 8 | 1 => 8 | 2 => 4 | 3 => 4 | 4 => 2 | 5 => 1 | 6 => 1 | 7 => 1 | 8 => 1 | 9 => 1
  | 10 => 2 ^ s.rd (R.LIF_PORT_CFG_otn_lanes port)
  | 11 => 2 ^ s.rd (R.LIF_PORT_CFG_otn_lanes port)
  | _ => 0

/-- The pipeline whose lanes hold a port (R25). -/
def homePipe (port : Nat) : Nat := port / 16

/-- A pipeline's buddy (R26). -/
def buddy (pl : Nat) : Nat := if pl % 2 = 0 then pl + 1 else pl - 1

/-- The pipeline that serves a port now (R26). -/
def State.servedBy (s : State) (port : Nat) : Nat :=
  if s.on (R.PPL_STATUS_lanes_moved (homePipe port)) then buddy (homePipe port) else homePipe port

/-- Whether a place lies in front of ingress stage 0: the FIFO, the parser and the scanner complex. -/
def PktAt.early (a : PktAt) : Bool :=
  match a with
  | .fifo | .parsing | .stalled | .holdWait | .scanning | .holdDone => true
  | _ => false

/-- Whether a place lies in the scanner complex (R108). -/
def PktAt.held (a : PktAt) : Bool := match a with | .holdWait | .scanning | .holdDone => true | _ => false

/-- Whether a place lies in a section's stages. -/
def PktAt.staged (a : PktAt) : Bool :=
  match a with | .stageWait _ | .lookup _ | .action _ | .leaving => true | _ => false

/-- Packets in the scanner complex of a pipeline. -/
def State.holdCount (s : State) (pl : Nat) : Nat :=
  (s.fd.pkts.filter fun p => !p.egress && p.pipe == pl && p.place.held).length

/-- Packets being scanned in a pipeline. -/
def State.engineCount (s : State) (pl : Nat) : Nat :=
  (s.fd.pkts.filter fun p => p.pipe == pl && p.place == .scanning).length

/-- Whether the data path of the FD runs: core logic released (R489), and a SerDes reference left (R59). -/
def State.fdRuns (s : State) : Bool := s.svc.coreRun && !s.refsDead

/-- Whether ingress stage 0, egress stage 0 and the port FIFOs let packets in: not in the pause of a firmware activation (R535). -/
def State.fdOpen (s : State) : Bool := s.fdRuns && !s.svc.dpPaused

/-- Whether the FIFO of a port holds its arrivals back at the return of its lanes (R29). -/
def State.fifoHeld (s : State) (port : Nat) : Bool := s.fd.returning.contains (homePipe port)

/-- The latency of the bridge without a retry, in ns (R15). -/
def bridgeNs : Nat := 12

/-- Whether an egress packet stands in front of its section. -/
def Packet.crossing (p : Packet) : Bool := p.egress && p.place == .stageWait 0

/-- Whether a dequeued packet is still on the bridge: it has not been taken into its section, and the latency has not passed. -/
def State.onWay (s : State) (p : Packet) : Bool := p.crossing && s.time.elapsed < p.elapsed + bridgeNs

/-- Whether a unit with a replay under way in the groups of one direction makes what a test picks wait (R17). -/
def State.stuck (s : State) (toFd : Bool) (p : BrgLoad → Bool) : Bool := s.brg.under.any fun e => (12 ≤ e.1) == toFd && p e.2

/-- Whether a dequeued packet has not come over the bridge: its unit, or one the bridge accepted before it, is being replayed (R17). -/
def State.notCrossed (s : State) (p : Packet) : Bool :=
  p.egress && s.stuck true fun x => match x with | .bytes q => q ≤ p.id | _ => false

/-- Whether a packet is the oldest of its port among the packets a test picks. -/
def State.oldestOf (s : State) (p : Packet) (q : Packet → Bool) : Bool :=
  s.fd.pkts.all fun x => x.egress != p.egress || x.port != p.port || !q x || p.seq ≤ x.seq

end Sys2Proof.Machine
end

