-- ==== Sys2Proof/Machine/Meter.lean ====
section
/-!
DEFINITION. Machine/Meter.lean: rate codes (R343), meter profiles (R348) and the meter algorithm (R347, R350).
-/

namespace Sys2Proof.Machine

/-- The mantissa and exponent of a rate code (R343). -/
def rateM (c : Nat) : Nat := bitsAt c 0 17
def rateE (c : Nat) : Nat := bitsAt c 17 4

/-- Ten times the rate of a code in b/s: m x 10^e (R343). -/
def rate10 (c : Nat) : Nat := rateM c * 10 ^ rateE c

/-- Whether a rate code is valid (R343). -/
def rateValid (c : Nat) : Bool :=
  c == 0 || (c < 2 ^ 21 && 10000 ≤ rateM c && rateM c ≤ 99999 && rateE c ≤ 9 && rate10 c ≤ 16000000000000)

/-- A meter profile's fields (R348). -/
def mpMode (p : List Byte) : Nat := byteAt p 0 % 4
def mpAware (p : List Byte) : Bool := bitAt (byteAt p 0) 2
def mpCoupled (p : List Byte) : Bool := bitAt (byteAt p 0) 3
def mpRate1 (p : List Byte) : Nat := leAt p 4 4 % 2 ^ 21
def mpBurst1 (p : List Byte) : Nat := leAt p 8 4
def mpRate2 (p : List Byte) : Nat := leAt p 12 4 % 2 ^ 21
def mpBurst2 (p : List Byte) : Nat := leAt p 16 4

/-- Whether TXN_STAGE takes a meter profile record (R348). -/
def meterProfileOk (p : List Byte) : Bool :=
  mpMode p != 3 && rateValid (mpRate1 p) && rateValid (mpRate2 p) &&
  !(mpMode p == 1 && rate10 (mpRate2 p) < rate10 (mpRate1 p))

/-- Bytes a bucket gains in `dt` ns, in units of 2^-16 byte, rounded down (R350). -/
def meterGain (dt code : Nat) : Nat := dt * rate10 code * 65536 / 80000000000

/-- A METER intent of `len` bytes at time `t` with an input colour on an entry (R347, R350): the new entry and the colour.
An entry with last = 0 fills both buckets first. -/
def meterStep (p : List Byte) (entry t len colour : Nat) : Nat × Nat :=
  let b1 := mpBurst1 p * 65536
  let b2 := mpBurst2 p * 65536
  let last := bitsAt entry 96 64
  let t1 := if last = 0 then b1 else bitsAt entry 0 48
  let t2 := if last = 0 then b2 else bitsAt entry 48 48
  let dt := t - last
  let a1 := if last = 0 then 0 else meterGain dt (mpRate1 p)
  let a2 := if last = 0 then 0 else meterGain dt (mpRate2 p)
  let excess := t1 + a1 - b1
  let n1 := min b1 (t1 + a1)
  let n2 := match mpMode p with
    | 0 => min b2 (t2 + excess)
    | 1 => min b2 (t2 + a2)
    | _ => min b2 (t2 + a2 + (if mpCoupled p then excess else 0))
  let B := len * 65536
  let c := if mpAware p then min colour 2 else 0
  let r : Nat × Nat × Nat :=
    if mpMode p = 1 then
      if c = 2 ∨ n2 < B then (n1, n2, 2)
      else if c = 1 ∨ n1 < B then (n1, n2 - B, 1)
      else (n1 - B, n2 - B, 0)
    else
      if c = 0 ∧ B ≤ n1 then (n1 - B, n2, 0)
      else if c ≠ 2 ∧ B ≤ n2 then (n1, n2 - B, 1)
      else (n1, n2, 2)
  (r.1 % 2 ^ 48 + r.2.1 % 2 ^ 48 * 2 ^ 48 + max last t % 2 ^ 64 * 2 ^ 96 + bitsAt entry 160 96 * 2 ^ 160, r.2.2)

end Sys2Proof.Machine
end

