-- ==== Sys2Proof/Machine/TdTables.lean ====
section
/-!
DEFINITION. Machine/TdTables.lean: the TD tables of R260, R277, R332 and R374: their sizes, what TXN_STAGE takes, what they
hold at reset, and their contents in force for a turn tag (R227).
-/

namespace Sys2Proof.Machine

/-- The TD tables. -/
def tdAdmit : Nat := 0x100
def tdWred : Nat := 0x101
def tdVoq : Nat := 0x102
def tdSpillMap : Nat := 0x110
def tdSpill : Nat := 0x111
def tdPort : Nat := 0x120
def tdQueue : Nat := 0x124
def tdShaper : Nat := 0x125
def tdQmap : Nat := 0x126
def tdGroup : Nat := 0x130
def tdMembers : Nat := 0x131

/-- Entries of a TD table and bytes of its record; none for an identifier of no TD table. -/
def tdShape (id : Nat) : Option (Nat × Nat) :=
  match id with
  | 0x100 => some (256, 8) | 0x101 => some (64, 64) | 0x102 => some (524288, 8)
  | 0x110 => some (1572864, 8) | 0x111 => some (32, 8)
  | 0x120 => some (128, 8) | 0x121 => some (4096, 8) | 0x122 => some (32768, 8) | 0x123 => some (262144, 8)
  | 0x124 => some (1048576, 8) | 0x125 => some (16384, 16) | 0x126 => some (1024, 8)
  | 0x130 => some (65536, 72) | 0x131 => some (65536, 16)
  | _ => none

/-- Nodes of a level of the egress hierarchy (R328). -/
def levelSize (level : Nat) : Nat :=
  match level with | 0 => 128 | 1 => 4096 | 2 => 32768 | 3 => 262144 | 4 => 1048576 | _ => 0

/-- The fields of a node's record (R332). -/
def ndParent (r : List Byte) : Nat := leAt r 0 3 % 2 ^ 18
def ndBand (r : List Byte) : Nat := bitsAt (byteAt r 2) 2 3
def ndAttached (r : List Byte) : Bool := bitAt (byteAt r 2) 5
def ndPfcClass (r : List Byte) : Nat := byteAt r 3 % 8
def ndPfcEn (r : List Byte) : Bool := bitAt (byteAt r 3) 3
def ndWeight (r : List Byte) : Nat := leAt r 4 2
def ndProfile (r : List Byte) : Nat := leAt r 6 2 % 2 ^ 14

/-- The fields of a shaper profile (R332). -/
def spCir (r : List Byte) : Nat := leAt r 0 3 % 2 ^ 21
def spAdj (r : List Byte) : Int := signedOf 8 (byteAt r 3)
def spCbs (r : List Byte) : Nat := leAt r 4 4
def spPir (r : List Byte) : Nat := leAt r 8 3 % 2 ^ 21
def spPbs (r : List Byte) : Nat := leAt r 12 4

/-- Whether TXN_STAGE takes a record for a TD table (R260, R277, R332). -/
def tdRecordOk (id : Nat) (r : List Byte) : Bool :=
  match id with
  | 0x100 => let a := signedOf 4 (byteAt r 0); -6 ≤ a && a ≤ 3
  | 0x101 => (List.range 3).all (fun c => leAt r (16 * c) 4 ≤ leAt r (16 * c + 4) 4) &&
             10 ≤ byteAt r 49 && byteAt r 49 ≤ 30
  | 0x110 => byteAt r 0 < 32
  | 0x111 => leAt r 0 4 != 0
  | 0x121 => ndParent r < 128 && ndWeight r != 0
  | 0x122 => ndParent r < 4096 && ndWeight r != 0
  | 0x123 => ndParent r < 32768 && ndWeight r != 0
  | 0x124 => ndWeight r != 0
  | 0x125 =>
    rateValid (spCir r) && rateValid (spPir r) && (spCir r == 0 || 2048 ≤ spCbs r) && (spPir r == 0 || 2048 ≤ spPbs r) &&
    !(spPir r != 0 && rate10 (spPir r) < rate10 (spCir r)) && -64 ≤ spAdj r && spAdj r ≤ 127
  | 0x126 => byteAt r 3 ≤ 16 && leAt r 0 3 % 2 ^ 20 + 2 ^ byteAt r 3 - 1 ≤ 1048575
  | _ => true

/-- A node's record: parent, band, attached, weight (R332). -/
def nodeRecord (parent band : Nat) (attached : Bool) : List Byte :=
  leBytes 3 (parent + band * 2 ^ 18 + bit01 attached * 2 ^ 21) ++ [0] ++ leBytes 2 1 ++ [0, 0]

/-- What a TD table holds at reset (R260, R277, R333); the tables of R374 hold no member. -/
def tdDefault (id i : Nat) : List Byte :=
  match id with
  | 0x101 => List.replicate 49 0 ++ [20] ++ List.replicate 14 0
  | 0x111 => leBytes 4 256 ++ leBytes 4 16
  | 0x121 => if i < 128 then nodeRecord i 0 true else nodeRecord 0 0 false
  | 0x122 => if i < 128 then nodeRecord i 0 true else nodeRecord 0 0 false
  | 0x123 => if i < 128 then nodeRecord i 0 true else nodeRecord 0 0 false
  | 0x124 => if i < 1024 then nodeRecord (i / 8) (i % 8) true else nodeRecord 0 0 false
  | 0x126 => leBytes 3 i ++ List.replicate 5 0
  | n => List.replicate (match tdShape n with | some s => s.2 | none => 0) 0

/-- The key of an entry of a TD table. -/
def tdKey (id i : Nat) : Nat := id * 2 ^ 21 + i

/-- The history of an entry: the commit turns of its writes and their records, newest first. -/
def State.tdHist (s : State) (id i : Nat) : List (Nat × List Byte) := sread (fun _ => []) s.buf.tables (tdKey id i)

/-- The contents of an entry for a packet with a turn tag (R227). -/
def State.tdAt (s : State) (id i τ : Nat) : List Byte :=
  match (s.tdHist id i).find? fun h => h.1 ≤ τ with | some h => h.2 | none => tdDefault id i

/-- The contents of an entry now: writes take effect at the boundary of their commit turn (R227). -/
def State.tdNow (s : State) (id i : Nat) : List Byte :=
  match s.tdHist id i with | h :: _ => h.2 | [] => tdDefault id i

/-- A committed write of an entry. -/
def State.tdPut (s : State) (id i turn : Nat) (r : List Byte) : State :=
  { s with buf := { s.buf with tables := mput s.buf.tables (tdKey id i) ((turn, r) :: s.tdHist id i) } }

/-- The table of a level of the egress hierarchy. -/
def tdLevel (level : Nat) : Nat := tdPort + level

/-- A node's record now; port nodes have no parent. -/
def State.node (s : State) (level i : Nat) : List Byte := s.tdNow (tdLevel level) i

/-- The shaper profile of a node now. -/
def State.shaper (s : State) (level i : Nat) : List Byte := s.tdNow tdShaper (ndProfile (s.node level i))

/-- The state of a node nothing has happened to. -/
def NodeSt.idle : NodeSt := ⟨0, 0, 0, 0, 0, 0, [], false, false, false⟩

/-- The state of a node or queue. -/
def State.nodeSt (s : State) (level i : Nat) : NodeSt := sread (fun _ => NodeSt.idle) s.buf.nodes (level * 2 ^ 20 + i)

/-- The state with that of a node or queue set. -/
def State.setNodeSt (s : State) (level i : Nat) (x : NodeSt) : State :=
  { s with buf := { s.buf with nodes := swrite (fun _ => NodeSt.idle) s.buf.nodes (level * 2 ^ 20 + i) x } }

/-- Both buckets of a node or queue filled to their burst sizes (R346). -/
def State.fillBuckets (s : State) (level i : Nat) : State :=
  let r := s.shaper level i
  s.setNodeSt level i { s.nodeSt level i with credC := (spCbs r * 2 ^ 40 : Nat), credP := (spPbs r * 2 ^ 40 : Nat) }

/-- The nodes from a node up to a port node, the node first, where it is on a complete path (R328). -/
def State.pathUp (s : State) : Nat → Nat → Option (List (Nat × Nat))
  | 0, i => some [(0, i)]
  | level + 1, i =>
    let r := s.node (level + 1) i
    if ndAttached r then (s.pathUp level (ndParent r)).map fun p => (level + 1, i) :: p else none

/-- The port node a queue's path leads to, where the queue is on a complete path. -/
def State.queuePort (s : State) (q : Nat) : Option Nat := (s.pathUp 4 q).bind fun p => p.getLast?.map (·.2)

end Sys2Proof.Machine
end

