-- ==== Sys2Proof/Machine/Cells.lean ====
section
/-!
DEFINITION. Machine/Cells.lean: the on-die buffer (R236 to R251): pools and their cells, allocation, pointer checks, stored
packets with their owner sets, and the release of a copy.
-/

namespace Sys2Proof.Machine

/-! ### Pools and cells -/

/-- The cell size of a pool (R236). -/
def cellSize (k : Nat) : Nat := match k with | 0 => 128 | 1 => 256 | 2 => 512 | _ => 2048

/-- The smallest pool whose cells hold `n` bytes (R238). -/
def poolFor (n : Nat) : Nat := if n ≤ 128 then 0 else if n ≤ 256 then 1 else if n ≤ 512 then 2 else 3

/-- The pools of the cells of a stored packet of `len` bytes, in chain order (R238). -/
def cellShape (len : Nat) : List Nat := List.replicate ((len - 1) / 2048) 3 ++ [poolFor (len - 2048 * ((len - 1) / 2048))]

/-- The cell bytes of a stored packet (R238). -/
def cellBytes (len : Nat) : Nat := ((cellShape len).map cellSize).foldl (· + ·) 0

/-- The pool of a cell pointer (R246). -/
def ptrPool (ptr : Nat) : Nat := ptr / 2 ^ 28

/-- The pointer of a cell. -/
def State.cellPtr (s : State) (k i : Nat) : Nat := k * 2 ^ 28 + s.rd (R.BPM_POOL_w1_base k) + i * cellSize k

/-- Cells of a pool in ingress use and in egress use (R240). -/
def State.ingUse (s : State) (k : Nat) : Nat := s.rd (R.BPM_POOL_w5_ingress_use k)
def State.egrUse (s : State) (k : Nat) : Nat := s.rd (R.BPM_POOL_w6_egress_use k)

/-- Whether a pool grants a cell to a requester (R240). -/
def State.grants (s : State) (egress : Bool) (k : Nat) : Bool :=
  if egress then s.ingUse k + s.egrUse k < s.rd (R.BPM_POOL_w2_cells k)
  else s.ingUse k + max (s.egrUse k) (s.rd (R.BPM_POOL_w4_egress_reserve k)) < s.rd (R.BPM_POOL_w2_cells k)

/-- BPM_STATUS.empty and a pool's use counts and peak brought in line with the cells in use (R261). -/
def State.countCells (s : State) (k : Nat) : State :=
  let mine := s.buf.cells.filter fun e => ptrPool e.1 == k
  let ing := (mine.filter fun e => e.2 == 0).length
  let s := s.wr (R.BPM_POOL_w5_ingress_use k) ing
  let s := s.wr (R.BPM_POOL_w6_egress_use k) (mine.length - ing)
  let s := s.wr (R.BPM_POOL_w7_ingress_peak k) (max ing (s.rd (R.BPM_POOL_w7_ingress_peak k)))
  s.wrBit R.BPM_STATUS_empty s.buf.cells.isEmpty

/-! ### Words in error -/

/-- The key of a SECDED word. -/
def wordKey (kind unit addr : Nat) : Nat := kind * 2 ^ 40 + unit * 2 ^ 32 + addr

/-- What a SECDED word reads as (R316, R323): 0 good, 1 a single-bit error, 3 uncorrectable. -/
def State.wordVerdict (s : State) (k : Nat) : Nat :=
  let x := sread (fun _ => 0) s.mem.flips k
  match mget s.mem.words k with
  | some w =>
    let d := w.1 ^^^ (x % 2 ^ 64)
    let c := (w.2 ^^^ (x / 2 ^ 64)) % 256
    if c = Config.secdedCheck d % 256 then 0 else if Config.secdedSingle d c then 1 else 3
  | none => if x = 0 then 0 else if worstFlips 1 x ≤ 1 then 1 else 3

/-- Soft errors flip bits of a SECDED word. -/
def State.flipSecded (s : State) (k bits : Nat) : State :=
  let x := sread (fun _ => 0) s.mem.flips k ^^^ (bits % 2 ^ 72)
  { s with mem := { s.mem with flips := swrite (fun _ => 0) s.mem.flips k x } }

/-- The keys of the buffer words that hold the first `n` bytes of a cell (R298, kind 4). -/
def cellWords (ptr n : Nat) : Nat × Nat := (wordKey 4 0 (ptr % 2 ^ 28 / 8), wordKey 4 0 (ptr % 2 ^ 28 / 8 + ceilDiv n 8))

/-- The words of the first `n` bytes of a cell that are in error, with their verdicts. -/
def State.badWords (s : State) (ptr n : Nat) : List (Nat × Nat) :=
  let w := cellWords ptr n
  ((((s.mem.words.map (·.1)) ++ s.mem.flips.map (·.1)).eraseDups.filter fun k => decide (w.1 ≤ k) && decide (k < w.2)).map
    fun k => (k, s.wordVerdict k)).filter fun e => e.2 != 0

/-- The words of a cell written anew when it is allocated (R317). -/
def State.rewriteCell (s : State) (ptr : Nat) : State :=
  let w := cellWords ptr (cellSize (ptrPool ptr))
  let out (k : Nat) : Bool := decide (k < w.1) || decide (w.2 ≤ k)
  { s with mem := { s.mem with words := s.mem.words.filter (fun e => out e.1), flips := s.mem.flips.filter fun e => out e.1 } }

/-! ### Allocation -/

/-- The free cell of a pool with the lowest index taken (R244), whatever R240 says. A running audit does not free it (R248). -/
def State.takeCell (s : State) (egress : Bool) (k : Nat) : Option (Nat × State) :=
  let used := (s.buf.cells.filter fun e => ptrPool e.1 == k).length
  match firstIdx (min (used + 1) (s.rd (R.BPM_POOL_w2_cells k))) fun i => (mget s.buf.cells (s.cellPtr k i)).isNone with
  | some i =>
    let p := s.cellPtr k i
    let buf := { s.buf with cells := mput s.buf.cells p (bit01 egress), audit := s.buf.audit.map fun l => l.filter (· != p) }
    some (p, ({ s with buf := buf }.countCells k).rewriteCell p)
  | none => none

/-- Cells for every pool of a list, under R240; none when one is refused. -/
def State.takeCells (egress : Bool) : List Nat → State → Option (List Nat × State)
  | [], s => some ([], s)
  | k :: ks, s =>
    if s.grants egress k then
      match s.takeCell egress k with
      | some (p, s) => (State.takeCells egress ks s).map fun r => (p :: r.1, r.2)
      | none => none
    else none

/-- Cells taken one after another until R240 refuses one: those taken. -/
def State.takeUntilRefused (egress : Bool) : List Nat → State → List Nat × State
  | [], s => ([], s)
  | k :: ks, s =>
    match s.takeCells egress [k] with
    | some (ps, s) =>
      let r := State.takeUntilRefused egress ks s
      (ps ++ r.1, r.2)
    | none => ([], s)

/-- The on-die free space F (R255). -/
def State.freeOnDie (s : State) : Nat :=
  (List.range 4).foldl (fun n k => n + (s.rd (R.BPM_POOL_w3_hard_limit k) - s.ingUse k) * cellSize k) 0

/-! ### Pointer checks -/

/-- An entry of the pointer log (R246, R261): kind 0 range, 1 alignment, 2 state, 3 owner. -/
def State.ptrLog (s : State) (ptr kind requester owner : Nat) : State :=
  let i := s.rd R.BPM_PTR_LOG_CTRL_next
  let old := s.rd (R.BPM_PTR_LOG_w1_valid i)
  let s := s.wr (R.BPM_PTR_LOG_w0_pointer i) ptr
  let s := s.wrWord (R.BPM_PTR_LOG_w1 i) 0
  let s := s.wr (R.BPM_PTR_LOG_w1_kind i) kind
  let s := s.wr (R.BPM_PTR_LOG_w1_requester i) requester
  let s := s.wr (R.BPM_PTR_LOG_w1_owner i) owner
  let s := s.wr (R.BPM_PTR_LOG_w1_valid i) 1
  let s := s.wr64 (R.BPM_PTR_LOG_LO_turn_lo i) (R.BPM_PTR_LOG_HI_turn_hi i) s.time.turn
  let s := s.onlyIf (old == 1) fun s => s.wr R.BPM_PTR_LOG_CTRL_wrapped 1
  s.wr R.BPM_PTR_LOG_CTRL_next ((i + 1) % 16)

/-- The requesters of a pointer-log entry (R261). -/
def rqStaging : Nat := 0
def rqDequeue : Nat := 1
def rqRelease : Nat := 2
def rqMover : Nat := 3
def rqAudit : Nat := 4
def rqScanner : Nat := 5

/-- The check of R246 that a pointer fails, if it fails one; `free` applies the state check. -/
def State.ptrFault (s : State) (ptr : Nat) (free : Bool) : Option Nat :=
  let k := ptrPool ptr
  let a := ptr % 2 ^ 28
  let base := s.rd (R.BPM_POOL_w1_base k)
  if a < base || base + s.rd (R.BPM_POOL_w2_cells k) * cellSize k ≤ a then some 0
  else if (a - base) % cellSize k != 0 then some 1
  else if free && (mget s.buf.cells ptr).isNone then some 2
  else none

/-- A pointer that failed a check: counted, logged, an ERR event on the TD (R246). -/
def State.badPtr (s : State) (ptr kind requester : Nat) : State :=
  let f := match kind with | 0 => R.BPM_PTR_RANGE_count | 1 => R.BPM_PTR_ALIGN_count | _ => R.BPM_PTR_STATE_count
  ((s.bump f).ptrLog ptr kind requester 0).event sevErr f.addr

/-! ### Frees -/

/-- A cell freed by a requester (R244, R246); a pointer that fails a check is not acted on. -/
def State.freeCell (s : State) (requester ptr : Nat) : State :=
  match s.ptrFault ptr true with
  | some k => s.badPtr ptr k requester
  | none => { s with buf := { s.buf with cells := mdel s.buf.cells ptr } }.countCells (ptrPool ptr)

/-- Cells of a chain left allocated (R247, R261). -/
def State.leak (s : State) (n : Nat) : State := s.wr R.BPM_LEAKED_cells (s.rd R.BPM_LEAKED_cells + n)

/-- The cells of a chain freed: at a bad pointer those before it are freed and the rest leaks (R247). -/
def State.freeCells (requester : Nat) : List Nat → State → State
  | [], s => s
  | p :: ps, s =>
    match s.ptrFault p true with
    | some k => (s.badPtr p k requester).leak (ps.length + 1)
    | none => State.freeCells requester ps (s.freeCell requester p)

/-! ### Stored packets -/

/-- The stored packet of an FD packet, and of the `n`th packet reassembled from the fabric. -/
def storedOf (pkt : Nat) : Nat := 2 * pkt
def reasmOf (n : Nat) : Nat := 2 * n + 1

/-- A stored packet. -/
def State.stored (s : State) (id : Nat) : Option Stored := s.buf.stored.find? fun x => x.id == id

/-- A stored packet replaced, added or removed. -/
def State.setStored (s : State) (id : Nat) (x : Option Stored) : State :=
  { s with buf := { s.buf with stored := s.buf.stored.filter (fun y => y.id != id) ++ x.toList } }

/-- Whether copies of a stored packet are still to be decided (R252). -/
def State.undecided (s : State) (id : Nat) : Bool := s.brg.descs.any fun d => storedOf d.pkt == id && !d.todo.isEmpty

/-- A stored packet no copy holds any more frees its cells (R251), once every copy is decided. -/
def State.dropStored (s : State) (id : Nat) : State :=
  match s.stored id with
  | some x => if x.owners = 0 && !s.undecided id then State.freeCells rqRelease x.cells (s.setStored id none) else s
  | none => s

/-- The lowest owner name not yet used for a stored packet, taken (R250). -/
def State.takeName (s : State) (id : Nat) : Option (Nat × State) :=
  match s.stored id with
  | some x =>
    if 64 ≤ x.names then none
    else some (x.names, s.setStored id (some { x with owners := x.owners + 2 ^ x.names, names := x.names + 1 }))
  | none => none

/-- The descriptor of a refused release stays in use (R251). -/
def State.keepDesc (s : State) (egress : Bool) : State :=
  let n := sread (fun _ => 0) s.buf.kept (bit01 egress) + 1
  { s with buf := { s.buf with kept := mput s.buf.kept (bit01 egress) n } }

/-- The first-cell pointer of a stored packet where it fails a check of R246. -/
def State.firstFault (s : State) (x : Stored) : Option (Nat × Nat) :=
  x.cells.head?.bind fun p => (s.ptrFault p true).map fun k => (p, k)

/-- A release that names an owner (R251). The first-cell pointer is checked under R246, and a bad one is not acted on: nothing is freed, and
the cells of a packet that no other owner holds leak (DEDUCED, notes/assumptions/183.md). Then the name's bit clears and the last one frees
the cells; a name that is not in the set is an owner violation, and nothing is freed. -/
def State.releaseName (s : State) (id name requester : Nat) : State :=
  match s.stored id with
  | none => s
  | some x =>
    match s.firstFault x with
    | some (p, k) =>
      let s := s.badPtr p k requester
      (s.onlyIf (x.owners == 2 ^ name) fun s => s.leak x.cells.length).keepDesc x.egress
    | none =>
      if bitAt x.owners name then
        (s.setStored id (some { x with owners := x.owners - 2 ^ name })).dropStored id
      else
        (((s.bump R.BPM_OWNER_VIOL_count).ptrLog (x.cells.headD 0) 3 requester name).event sevErr R.BPM_OWNER_VIOL).keepDesc x.egress

/-- A copy released by its holder (R251): one that stands on-die gives its name back. -/
def State.release (s : State) (c : Copy) : State :=
  match c.stored with | some id => s.releaseName id c.name rqRelease | none => s

/-- The release of a copy that meets a bad pointer at chain position `n` (R247, R251). At the first cell it is not acted on at all. Behind
it, the last owner's release frees the cells before it and the rest leak. -/
def State.releaseBroken (s : State) (c : Copy) (n ptr kind : Nat) : State :=
  match c.stored.bind s.stored with
  | none => s
  | some x =>
    let last := x.owners == 2 ^ c.name
    if n = 0 then
      ((s.badPtr ptr kind rqRelease).onlyIf last fun s => s.leak x.cells.length).keepDesc x.egress
    else if !last then s.releaseName x.id c.name rqRelease
    else
      let s := State.freeCells rqRelease (x.cells.take n) (s.setStored x.id none)
      (s.badPtr ptr kind rqRelease).leak (x.cells.drop n).length

/-- A dequeued copy released (R251), with the pointer or the name its descriptor presents. -/
def State.releaseWith (s : State) (c : Copy) (fault : Option PtrFault) : State :=
  match fault, c.stored with
  | some (.name n), some id => s.releaseName id (n % 64) rqRelease
  | some (.chain pos ptr), some _ =>
    match s.ptrFault ptr true with
    | some k => s.releaseBroken c pos ptr k
    | none => s.release c
  | _, _ => s.release c

/-! ### Reads -/

/-- The cell pointer that a read of a copy presents and that fails a check (R246): `first` in place of the first, then those of its
chain. -/
def State.readFails (s : State) (c : Copy) (first : Option Nat) : Option (Nat × Nat) :=
  match c.stored.bind s.stored with
  | none => none
  | some x => (first.toList ++ x.cells).findSome? fun p => (s.ptrFault p false).map fun k => (p, k)

/-- The bytes of a copy read from its cells (R298, R313, R316): a word with one bit in error is corrected, an uncorrectable one marks the
copy poisoned. -/
def State.readBody (s : State) (c : Copy) : Copy × State :=
  match c.stored.bind s.stored with
  | none => (c, s)
  | some x =>
    let ws := (List.range x.cells.length).flatMap fun i =>
      let p := x.cells.getD i 0
      s.badWords p (min (cellSize (ptrPool p)) (c.bytes.length - 2048 * i))
    let t := s.each ws fun w s =>
      if w.2 = 1 then s.bump (R.MIF_CE_count 4) else s.uncorrectable 4 1 0 (w.1 - wordKey 4 0 0)
    if ws.any fun w => w.2 != 1 then ({ c with poison := true }, t.bump (R.MIF_POISON_SRC_count 4)) else (c, t)

/-- The bytes of a copy read where a condition asks for it. -/
def State.readBodyIf (s : State) (b : Bool) (c : Copy) : Copy × State := if b then s.readBody c else (c, s)

/-- The cells of a stored packet pass from ingress use to egress use in one step (R243). -/
def State.toEgress (s : State) (id : Nat) : State :=
  match s.stored id with
  | some x =>
    if x.egress then s
    else
      let cells := x.cells.foldl (fun m p => mput m p 1) s.buf.cells
      let s := { s with buf := { s.buf with cells := cells } }.setStored id (some { x with egress := true })
      s.each (List.range 4) fun k s => s.countCells k
  | none => s

/-! ### Staged bodies -/

/-- The staged body of a packet. -/
def State.stagedBody (s : State) (pkt : Nat) : Option Staging := s.buf.staging.find? fun x => x.pkt == pkt

/-- The staged body of a packet replaced, added or removed. -/
def State.setBody (s : State) (pkt : Nat) (x : Option Staging) : State :=
  { s with buf := { s.buf with staging := s.buf.staging.filter (fun y => y.pkt != pkt) ++ x.toList } }

/-- A packet's staged cells freed. -/
def State.freeBody (s : State) (pkt : Nat) : State :=
  match s.stagedBody pkt with | some x => State.freeCells rqStaging x.cells (s.setBody pkt none) | none => s

end Sys2Proof.Machine
end

