-- ==== Sys2Proof/Machine/Queues.lean ====
section
/-!
DEFINITION. Machine/Queues.lean: the queues and their tiers: tile streams and pages (R265, R266, R273, R281 to R286), spill
mode (R278, R279), where a copy goes and where it comes from (R280), hold-over (R289, R292), ageing (R293), the drops at
dequeue and the entry into an egress queue (R330, R331).
-/

namespace Sys2Proof.Machine

/-! ### Queues -/

/-- The number of VOQs; queue numbers from here on are egress queues (R277). -/
def voqs : Nat := 524288

/-- A stream that holds nothing. -/
def Stream.none : Stream := ⟨[], 0, 0, .none, [], .none, 0⟩

/-- A queue that holds nothing and is UP (R334). -/
def Queue.idle : Queue :=
  { ondie := [], hbm := [], hst := .none, res := [], rst := .none, rpages := [], rbase := 0, spill := false, avg := 0,
    emptyAt := 0, avgAt := 0, balance := 0, lc := 2, pend := false, flush := false, holdEnd := .none, holdLimit := 0,
    turnClass := 0, served := false, upFrom := 0, profTag := 0 }

/-- A queue. -/
def State.queue (s : State) (q : Nat) : Queue := sread (fun _ => Queue.idle) s.buf.queues q

/-- The state with a queue set. -/
def State.setQueue (s : State) (q : Nat) (x : Queue) : State :=
  { s with buf := { s.buf with queues := swrite (fun _ => Queue.idle) s.buf.queues q x } }

/-- A copy's stored length. -/
def Copy.len (c : Copy) : Nat := c.bytes.length

/-- Copies in all tiers; stored bytes; on-die cell bytes (R255, R258). -/
def Queue.copies (x : Queue) : Nat := x.ondie.length + x.hbm.length + x.res.length
def Queue.bytes (x : Queue) : Nat := sumOf Copy.len x.ondie + sumOf Copy.len x.hbm + sumOf Copy.len x.res
def Queue.onDieBytes (x : Queue) : Nat := sumOf (fun c => cellBytes c.len) x.ondie

/-- The VOQ of a device, port and class (R327), and its parts. -/
def voqOf (device port tc : Nat) : Nat := device * 1024 + port * 8 + tc
def voqDevice (q : Nat) : Nat := q / 1024
def voqPort (q : Nat) : Nat := q / 8 % 128

/-- The counter slot of a queue for a drop reason (R466). -/
def queueSlot (reason : Nat) : Nat :=
  if reason = drPoolEmpty then 2 else if reason = drThreshold then 3 else if reason = drWred then 4
  else if reason = drDraining then 5 else if reason = drTierLost then 6 else if reason = drAged then 7
  else if reason = drHoldAged then 8 else if reason = drUnreachable then 9 else 10

/-- An event counted for a queue (R466). -/
def State.countQueue (s : State) (q slot pkts bytes turn : Nat) : State :=
  if q < voqs then s.countAs csVoq q slot pkts bytes turn else s.countAs csQueue (q - voqs) slot pkts bytes turn

/-- A drop counted for a queue at the local turn, and in the device set (R473, R474). -/
def State.dropQueue (s : State) (q reason bytes : Nat) : State :=
  (s.countQueue q (queueSlot reason) 1 bytes s.time.turn).countDrop reason bytes s.time.turn

/-- A queue's spill profile for a tag: threshold and floor in bytes (R277). -/
def State.spillProfile (s : State) (q τ : Nat) : Nat × Nat :=
  let r := s.tdAt tdSpill (byteAt (s.tdAt tdSpillMap q τ) 0) τ
  (4096 * leAt r 0 4, 4096 * leAt r 4 4)

/-- Descriptors that ingress copies hold (R249): of VOQ entries, of packets that await admission, but for one, and those that refused
releases have left (R251). -/
def State.ingressDescs (s : State) (but : Option Nat) : Nat :=
  sumOf (fun (e : Nat × Queue) => if e.1 < voqs then e.2.ondie.length else 0) s.buf.queues +
  (s.brg.descs.filter fun d => d.taken && !d.todo.isEmpty && some d.pkt != but).length + sread (fun _ => 0) s.buf.kept 0

/-- Descriptors that egress copies hold. -/
def State.egressDescs (s : State) : Nat :=
  sumOf (fun (e : Nat × Queue) => if voqs ≤ e.1 then e.2.ondie.length else 0) s.buf.queues + sread (fun _ => 0) s.buf.kept 1

/-- Whether none of the TD's 2,097,152 descriptors is free (R249, R250). -/
def State.noDesc (s : State) (but : Option Nat) : Bool := 2097152 ≤ s.ingressDescs but + s.egressDescs

/-- The advisory counts of the buffer brought in line: descriptors (R249), queues in spill mode (R297). -/
def State.bufSync (s : State) : State :=
  let s := s.wr R.BPM_DESC_INGRESS_count (s.ingressDescs none)
  let s := s.wr R.BPM_DESC_EGRESS_count s.egressDescs
  s.wr R.QMG_SPILLING_queues (s.buf.queues.filter fun e => e.2.spill).length

/-! ### Pages and streams -/

/-- Buffer pages of the device (R265). -/
def State.pageCount (s : State) : Nat := 6 * (3250585 - s.rd R.HBC_PART_table_pages)

/-- The free space of the HBM tier (R282). -/
def State.hbmFree (s : State) : Nat := (s.pageCount - s.buf.pages.length - s.rd R.HBC_EGRESS_RESERVE_pages) * 16384

/-- The pages in use set, with HBC_FREE_PAGES. -/
def State.setPages (s : State) (l : List Nat) : State :=
  { s with buf := { s.buf with pages := l } }.wr R.HBC_FREE_PAGES_pages (s.pageCount - l.length)

/-- The lowest free page, for a VOQ only while more than the egress reserve is free (R281, R282). -/
def State.takePage (s : State) (egress : Bool) : Option (Nat × State) :=
  let used := s.buf.pages.length
  if used < s.pageCount && (egress || s.rd R.HBC_EGRESS_RESERVE_pages < s.pageCount - used) then
    (firstIdx (used + 1) fun p => !s.buf.pages.contains p).map fun p => (p, s.setPages (p :: s.buf.pages))
  else none

/-- Pages freed. -/
def State.freePages (s : State) (ps : List Nat) : State := s.setPages (s.buf.pages.filter fun p => !ps.contains p)

/-- The stack and the local stripe of a tile address (R266). -/
def State.tilePlace (s : State) (a : Nat) : Nat × Nat :=
  let g := match s.rd R.HBC_MAP_grain with | 0 => 512 | 1 => 4096 | _ => 16384
  (a / g % 6, 32 * s.rd R.HBC_PART_table_pages + a / g / 6 * (g / 512) + a % g / 512)

/-- The page that holds a stream offset, and the tile address there. -/
def Stream.address (t : Stream) (off : Nat) : Nat := t.pages.getD ((off - t.base) / 16384) 0 * 16384 + (off - t.base) % 16384

/-- Pages taken until a stream has `n`; none when one is refused. -/
def State.growPages (s : State) (egress : Bool) (n : Nat) (ps : List Nat) : Option (List Nat × State) :=
  (List.range (n - ps.length)).foldl (fun r _ => r.bind fun r => (r.2.takePage egress).map fun p => (r.1 ++ [p.1], p.2))
    (some (ps, s))

/-- The 48-byte in-tier descriptor of a copy, little-endian (R274). -/
def tierDesc (c : Copy) : List Byte :=
  leBytes 16 c.carried ++ leBytes 10 (c.stamp / 1000000000 * 2 ^ 30 + c.stamp % 1000000000) ++ leBytes 6 c.ageBase ++ leBytes 8 c.tag ++
    leBytes 2 c.bytes.length ++ [BitVec.ofNat 8 (c.version % 2 + 2 * bit01 c.poison), BitVec.ofNat 8 (c.port % 128), 0, 0, 0, 0]

/-- A full tile of a stream written as a stripe (R266, R273, R299, R300): its data, the queue, its position in the stream, and the
descriptors that begin in it. -/
def State.writeTile (s : State) (q kind : Nat) (t : Stream) (tile : Nat) (data : List Byte) (first : Option Nat) (count : Nat) : State :=
  let p := s.tilePlace (t.address (512 * tile))
  s.writeStripe p.1 p.2 data (stripeMd kind false count (first.getD 0xFFFF) q tile s.time.turn)

/-- A copy packed into a stream's open tile behind its 48-byte descriptor, full tiles written out (R273, R281): the stream after it and
where its descriptor begins; none when a page it needs is refused (R282). `kind` is that of the tiles (R300). -/
def State.pack (s : State) (q kind : Nat) (t : Stream) (c : Copy) : Option (Stream × Nat × State) :=
  let egress : Bool := voqs ≤ q
  let all := t.tail ++ tierDesc c ++ c.bytes
  let stop := t.pos + 48 + c.bytes.length
  match s.growPages egress (ceilDiv (stop / 512 * 512 - t.base) 16384) t.pages with
  | none => none
  | some (ps, s) =>
    let full := stop / 512 - t.pos / 512
    let first := t.first.orElse fun _ => some (t.pos % 512)
    let u := { t with pages := ps, pos := stop, tail := all.drop (512 * full),
                      first := if full = 0 then first else .none, begun := if full = 0 then t.begun + 1 else 0 }
    let s := s.each (List.range full) fun i s =>
      s.writeTile q kind u (t.pos / 512 + i) (slice all (512 * i) 512) (if i = 0 then first else .none) (if i = 0 then t.begun + 1 else 0)
    let open_ := stop % 512 != 0
    let r := match t.cell with
      | some p => if open_ then (some p, s) else (none, s.freeCell rqMover p)
      | none => if open_ then (match s.takeCell egress 2 with | some (p, s) => (some p, s) | none => (none, s)) else (none, s)
    some ({ u with cell := r.1 }, t.pos, r.2)

/-- A part emptied: its pages and the cell of its open tile are freed. -/
def State.dropStream (s : State) (t : Stream) : State :=
  (match t.cell with | some p => s.freeCell rqMover p | none => s).freePages t.pages

/-- A spill stream whose first remaining copy begins at `at_` (R281): the pages in which no remaining copy begins before it
return. -/
def State.trim (s : State) (t : Stream) (rest : List Copy) : Stream × State :=
  match rest with
  | [] => (.none, s.dropStream t)
  | c :: _ =>
    let n := min ((c.at_ - t.base) / 16384) t.pages.length
    ({ t with pages := t.pages.drop n, base := t.base + 16384 * n }, s.freePages (t.pages.take n))

/-! ### Reservoir pages -/

/-- A reservoir port's pages. -/
def State.resPort (s : State) (n : Nat) : ResPort := sread (fun _ => ⟨[], false⟩) s.buf.ports n

/-- A reservoir port's pages set, with RSV_PORT_FREE. -/
def State.setResPort (s : State) (n : Nat) (x : ResPort) : State :=
  { s with buf := { s.buf with ports := mput s.buf.ports n x } }.wr (R.RSV_PORT_FREE_pages n)
    (if s.rd (R.RSV_PORT_LC_state n) = lcUp then s.rd (R.RSV_PORT_CAP_pages n) - x.used.length else 0)

/-- Whether a reservoir port gives pages (R284, R285). -/
def State.resGives (s : State) (n : Nat) : Bool :=
  s.rd (R.RSV_PORT_LC_state n) == lcUp && (s.resPort n).used.length < s.rd (R.RSV_PORT_CAP_pages n)

/-- The free space of the reservoir tier (R285). -/
def State.resFree (s : State) : Nat :=
  sumOf (fun n => if s.resGives n then s.rd (R.RSV_PORT_CAP_pages n) - (s.resPort n).used.length else 0) (List.range 8) * 2 ^ 20

/-- A free reservoir page of the next UP port that has one (R285). -/
def State.takeResPage (s : State) : Option (ResPage × State) :=
  match (List.range 8).find? fun i => s.resGives ((s.buf.nextPort + i) % 8) with
  | none => none
  | some i =>
    let n := (s.buf.nextPort + i) % 8
    let x := s.resPort n
    (firstIdx (x.used.length + 1) fun p => !x.used.contains p).map fun p =>
      let s := s.setResPort n { x with used := p :: x.used }
      (⟨n, p, false⟩, { s with buf := { s.buf with nextPort := (n + 1) % 8 } })

/-- Reservoir pages freed; a lost page is no longer its port's. -/
def State.freeResPages (s : State) (ps : List ResPage) : State :=
  s.each (ps.filter fun p => !p.lost) fun p s =>
    let x := s.resPort p.port
    s.setResPort p.port { x with used := x.used.erase p.page }

/-- The reservoir part of a queue after its head has left (R281, R286): pages in which nothing remaining begins are freed. -/
def State.trimRes (s : State) (x : Queue) (rest : List Copy) : Queue × State :=
  match rest with
  | [] => ({ x with res := [], rst := .none, rpages := [], rbase := 0 }, (s.dropStream x.rst).freeResPages x.rpages)
  | c :: _ =>
    let n := min ((c.at_ - x.rbase) / 2 ^ 20) x.rpages.length
    let s := s.freeResPages (x.rpages.take n)
    let t := s.trim x.rst rest
    ({ x with res := rest, rst := t.1, rpages := x.rpages.drop n, rbase := x.rbase + 2 ^ 20 * n }, t.2)

/-! ### Hold-over -/

/-- Whether a hold entry covers a VOQ (chapter 10, Hold-over). -/
def State.covers (s : State) (e q : Nat) : Bool :=
  q < voqs && s.rd (R.RSV_HOLD_w0_device e) == voqDevice q &&
  (!s.on (R.RSV_HOLD_w0_port_valid e) || s.rd (R.RSV_HOLD_w0_port e) == voqPort q) &&
  bitAt (s.rd (R.RSV_HOLD_w0_tc_mask e)) (q % 8)

/-- The entries in a state that cover a VOQ. -/
def State.coveredBy (s : State) (q st : Nat) : List Nat :=
  if voqs ≤ q then []
  else (List.range 64).filter fun e => s.rd (R.RSV_HOLD_w0_state e) == st && s.covers e q

/-- A VOQ is held while an entry that covers it is UP. -/
def State.voqHeld (s : State) (q : Nat) : Bool := !(s.coveredBy q lcUp).isEmpty

/-- A VOQ is releasing while an entry that covers it is DRAINING, none is UP, and it has not left the release: its reservoir
part holds a copy (R292). -/
def State.voqReleasing (s : State) (q : Nat) : Bool :=
  !s.voqHeld q && !(s.coveredBy q lcDraining).isEmpty && !(s.queue q).res.isEmpty

/-- The largest hold limit among the entries that hold a VOQ now. -/
def State.coverLimit (s : State) (q : Nat) : Nat :=
  (s.coveredBy q lcUp ++ s.coveredBy q lcDraining).foldl (fun m e => max m (s.rd (R.RSV_HOLD_w1_limit_s e))) 0

/-- A releasing entry that no covered VOQ takes part in any more becomes DOWN, with an INFO event (R292); with PEND_UP it
goes on to STARTING (R504). -/
def State.holdDrained (s : State) (e : Nat) : State :=
  if s.rd (R.RSV_HOLD_w0_state e) = lcDraining && s.buf.queues.all fun x => x.2.res.isEmpty || !s.covers e x.1 then
    let s := s.lcEndDrain (R.RSV_HOLD_w0 e)
    if s.rd (R.RSV_HOLD_w0_state e) = lcDown then s.wr (R.RSV_HOLD_w0_auto e) 0 else s
  else s

/-- The stored bytes in the reservoir parts that an entry covers, for RSV_HOLD (R296). -/
def State.heldBytes (s : State) (e : Nat) : Nat :=
  sumOf (fun x => if s.covers e x.1 then sumOf Copy.len x.2.res else 0) s.buf.queues

/-- RSV_STATUS.ready (R289). -/
def State.holdReady (s : State) : Bool :=
  (List.range 8).all (fun n =>
    !(s.resPort n).enabled || s.rd (R.RSV_PORT_LC_state n) == lcUp || s.rd (R.RSV_PORT_LC_state n) == lcDown) &&
  (List.range 8).any fun n => s.rd (R.RSV_PORT_LC_state n) == lcUp

/-! ### Placing a copy -/

/-- A copy written to a tier: its PFC charge ends and its owner name is released (R281, R407). -/
def State.moved (s : State) (c : Copy) : State :=
  (match c.acct with | some id => s.uncharge id | none => s).release c

/-- A copy appended to a queue's HBM part (R280). -/
def State.toHbm (s : State) (q : Nat) (c : Copy) : Option State :=
  let x := s.queue q
  let b := s.readBody c
  (b.2.pack q 1 x.hst b.1).map fun r =>
    (r.2.2.setQueue q { x with hbm := x.hbm ++ [{ b.1 with stored := none, acct := none, at_ := r.2.1 }], hst := r.1 }).moved c

/-- A copy appended to a queue's reservoir part (R280, R286). -/
def State.toRes (s : State) (q : Nat) (c : Copy) : Option State :=
  let x := s.queue q
  let b := s.readBody c
  (b.2.pack q 2 x.rst b.1).map fun r =>
    (r.2.2.setQueue q { x with res := x.res ++ [{ b.1 with stored := none, acct := none, at_ := r.2.1 }], rst := r.1,
                               holdLimit := max x.holdLimit (s.coverLimit q) }).moved c

/-- Whether a copy that would stay on-die makes its queue enter spill mode (R278). -/
def State.spills (s : State) (q : Nat) (c : Copy) : Bool :=
  let p := s.spillProfile q c.tag
  let depth := (s.queue q).onDieBytes + cellBytes c.len
  p.1 < depth || (s.freeOnDie < s.rd R.QMG_SPILL_WM_mib * 2 ^ 20 && p.2 ≤ depth) || c.stored.isNone

/-- An admitted copy enters its queue (R280), whose spill profile is from then on that of the copy's tag (R277); none when a page it needs
is refused (R282). While the HBM is not released, queues keep their on-die parts only (R494). -/
def State.place (s : State) (q : Nat) (c : Copy) : Option State :=
  let x := { s.queue q with profTag := c.tag }
  let s := s.setQueue q x
  if s.on R.GLB_SERVICE_hbm_fault then
    (if c.stored.isSome then some (s.setQueue q { x with ondie := x.ondie ++ [c] }) else none)
  else if s.voqHeld q || !x.res.isEmpty then s.toRes q c
  else if x.spill || !x.hbm.isEmpty then s.toHbm q c
  else if s.spills q c then
    let s := s.setQueue q { x with spill := true }
    ((s.bump R.QMG_SPILL_ENTRIES_count).pmuAs 1 0x108 15 63 1 false false).toHbm q c
  else some (s.setQueue q { x with ondie := x.ondie ++ [c] })

/-- Whether a copy for a queue is moved to a tier at once (R280). -/
def State.tiered (s : State) (q : Nat) (c : Copy) : Bool :=
  let x := s.queue q
  !s.on R.GLB_SERVICE_hbm_fault && (s.voqHeld q || !x.res.isEmpty || x.spill || !x.hbm.isEmpty || s.spills q c)

/-- A head copy or one on its way into a queue dropped: counted for its queue, released, its PFC charge ended. -/
def State.dropHead (s : State) (q : Nat) (c : Copy) (reason bytes : Nat) : State := (s.dropQueue q reason bytes).moved c

/-- A copy placed, with the pointer a mover presents in place of the stored one: one that is rejected drops the copy in its queue with
TIER_LOST (R247). -/
def State.placeWith (s : State) (q : Nat) (c : Copy) (ptr : Option Nat) : Option State :=
  match (if s.tiered q c then s.readFails c ptr else none) with
  | some (p, k) => some ((s.badPtr p k rqMover).dropHead q c drTierLost c.len)
  | none => s.place q c

/-! ### The prefetch buffer -/

/-- The scheduler engine whose prefetch buffer the tiles of a queue pass through (R270): that of the port (DESIGN CHOICE for a VOQ,
notes/assumptions/189.md). -/
def State.engineOf (s : State) (q : Nat) : Nat :=
  if q < voqs then voqPort q / 16 else (s.queuePort (q - voqs)).getD 0 / 16

/-- Bytes of tiles staged for an engine; the watermark of a controller in bytes of its 1 MiB. -/
def State.prefetched (s : State) (e : Nat) : Nat := sread (fun _ => 0) s.buf.prefetch e
def State.panicMark (s : State) (k : Nat) : Nat := s.rd (R.HBC_QOS_panic_wm k) * 1048576 / 100

/-- Whether some engine with tiles still to read stands below a controller's watermark. -/
def State.starving (s : State) (k : Nat) : Bool :=
  ((s.buf.queues.filter fun e => !e.2.hbm.isEmpty || !e.2.res.isEmpty).map fun e => s.engineOf e.1).eraseDups.any fun e =>
    s.prefetched e < s.panicMark k

/-- The prefetch level of an engine set (R270): where it falls below a controller's watermark that controller serves in panic and counts
it; panic ends when every engine is above. -/
def State.setPrefetch (s : State) (e n : Nat) : State :=
  let old := s.prefetched e
  let s := { s with buf := { s.buf with prefetch := swrite (fun _ => 0) s.buf.prefetch e (min n 1048576) } }
  s.each (List.range 6) fun k s =>
    let low := s.starving k
    if s.on (R.HBC_STATUS_panic k) then s.wrBit (R.HBC_STATUS_panic k) low
    else if s.panicMark k ≤ old && low then (s.bump (R.HBC_PANIC_count k)).wr (R.HBC_STATUS_panic k) 1
    else s

/-! ### Taking a copy -/

/-- What follows a copy's leaving a queue: spill mode ends under R279, the instant of emptying is kept (R256), a VOQ whose
reservoir part is empty leaves the release (R292). -/
def State.afterPop (s : State) (q : Nat) (fromRes : Bool) : State :=
  let x := s.queue q
  let ends := x.hbm.isEmpty && x.res.isEmpty && 2 * x.onDieBytes ≤ (s.spillProfile q x.profTag).1
  let x := { x with spill := x.spill && !ends, emptyAt := if x.copies = 0 then s.time.elapsed else x.emptyAt }
  let out := fromRes && x.res.isEmpty && !s.voqHeld q && !(s.coveredBy q lcDraining).isEmpty
  let s := s.setQueue q { x with holdEnd := if out then some s.time.elapsed else x.holdEnd }
  if out then s.each (s.coveredBy q lcDraining) fun e s => s.holdDrained e else s

/-- The tile bytes of a copy that leaves a tier leave the prefetch buffer (R270). -/
def State.unstage (s : State) (q : Nat) (c : Copy) : State :=
  let e := s.engineOf q
  s.setPrefetch e (s.prefetched e - (48 + c.len))

/-- The head copy of a queue taken out: on-die first, then HBM, then the reservoir part (R280). An uncorrectable descriptor is read here
(R298). -/
def State.popHead (s : State) (q : Nat) : Option (Copy × State) :=
  let x := s.queue q
  match x.ondie with
  | c :: r =>
    let s := s.onlyIf c.lost.isSome fun s => s.uncorrectable 5 1 0 c.at_
    some (c, (s.setQueue q { x with ondie := r }).afterPop q false)
  | [] =>
    match x.hbm with
    | c :: r =>
      let t := s.trim x.hst r
      some (c, (t.2.setQueue q { x with hbm := r, hst := t.1 }).unstage q c |>.afterPop q false)
    | [] =>
      match x.res with
      | c :: r =>
        let t := s.trimRes x r
        some (c, (t.2.setQueue q t.1).unstage q c |>.afterPop q true)
      | [] => none

/-- The head copy of a queue. -/
def Queue.head (x : Queue) : Option Copy := (x.ondie ++ x.hbm ++ x.res).head?

/-- The age limit of a copy in nanoseconds (none: no limit) and the reason of a drop (R293). An age base at or before the hold end is that of
a copy at least as old as the hold end (R275). -/
def State.ageLimit (s : State) (q : Nat) (c : Copy) : Option Nat × Nat :=
  let x := s.queue q
  let held := q < voqs && (s.voqHeld q || s.voqReleasing q || match x.holdEnd with
    | some t => s.time.elapsed - t ≤ (s.time.elapsed - c.ageBase) % 2 ^ 48
    | none => false)
  if held then (some (max x.holdLimit (s.coverLimit q) * 1000000000), drHoldAged)
  else
    let ms := s.rd (R.QMG_AGE_LIMIT_ms (if q < voqs then q % 8 else c.carried / 2 ^ 16 % 8))
    (if ms = 0 then none else some (ms * 1000000), drAged)

/-- Whether the line port of an egress queue's path is not UP, so that its copies are flushed (R335). -/
def State.portFlushes (s : State) (q : Nat) : Bool :=
  voqs ≤ q && match s.queuePort (q - voqs) with | some p => s.rd (R.LIF_PORT_LC_state p) != lcUp | none => false

/-- Whether a queue's copies are released without transmission (R334, R335). -/
def State.flushes (s : State) (q : Nat) : Bool :=
  ((s.queue q).lc == lcDraining && (s.queue q).flush) || s.portFlushes q

/-- Why a head copy is dropped at dequeue, with the bytes the drop counts (R276, R288, R293, R294, R334). -/
def State.headDrop (s : State) (q : Nat) (c : Copy) : Option (Nat × Nat) :=
  match c.lost with
  | some n => some (drTierLost, n)
  | none =>
    if s.flushes q then some (drDraining, c.len)
    else
      let l := s.ageLimit q c
      match l.1 with
      | some ns => if ns < (s.time.elapsed - c.ageBase) % 2 ^ 48 then some (l.2, c.len) else none
      | none => none

/-- A soft error strikes a queue (R298): bits of a buffer word flip, or the head copy's descriptor becomes uncorrectable, so that the copy
is lost and its cells are left to the audit. -/
def State.upsetQueue (s : State) (q : Nat) (upset : Option HeadUpset) : State :=
  let x := s.queue q
  match upset, x.ondie with
  | some (.data w bits), _ => s.flipSecded (wordKey 4 0 w) bits
  | some (.descriptor w), c :: r => s.setQueue q { x with ondie := { c with stored := none, lost := some c.len, at_ := w } :: r }
  | _, _ => s

/-- The pointer that the read of a queue's head copy presents is rejected (R247): the copy is dropped with TIER_LOST and its name
released. -/
def State.strikeQueue (s : State) (q : Nat) (fault : Option PtrFault) : State :=
  match fault, (s.queue q).ondie with
  | some (.read ptr), c :: _ =>
    match s.readFails c (some ptr), s.popHead q with
    | some (p, k), some (_, t) => (t.badPtr p k rqDequeue).dropHead q c drTierLost c.len
    | _, _ => s
  | _, _ => s

/-- The next copy of a queue under R280, those dropped on the way counted (R247, R276, R293, R334); the copy is not released yet. -/
def State.nextCopy (q : Nat) : Nat → State → Option Copy × State
  | 0, s => (none, s)
  | n + 1, s =>
    match s.popHead q with
    | none => (none, s)
    | some (c, t) =>
      match s.headDrop q c with
      | some (why, bytes) => State.nextCopy q n (t.dropHead q c why bytes)
      | none =>
        match s.readFails c none with
        | some (p, k) => State.nextCopy q n ((t.badPtr p k rqDequeue).dropHead q c drTierLost c.len)
        | none => (some c, t)

/-! ### Entering an egress queue -/

/-- The egress queue of a copy (R330). -/
def State.egressQueue (s : State) (port tc : Nat) (c : Copy) : Nat :=
  let r := s.tdAt tdQmap (8 * port + tc) c.tag
  let sel := c.carried / 2 ^ (64 + s.rd R.SCH_QSEL_CFG_sel_bit) % 2 ^ 16
  leAt r 0 3 % 2 ^ 20 + sel % 2 ^ byteAt r 3

/-- A copy enters the egress hierarchy (R243, R280, R330, R331): into its egress queue, or dropped there. `ptr` is the pointer the spill
mover presents (R247). -/
def State.enqueueEgress (s : State) (port tc : Nat) (c : Copy) (ptr : Option Nat) : State :=
  let c := { c with ageBase := s.time.elapsed }
  let n := s.egressQueue port tc c
  let q := voqs + n
  let x := s.queue q
  if s.rd (R.LIF_PORT_LC_state port) ≠ lcUp ∨ x.lc ≠ lcUp ∨ c.tag < x.upFrom then s.dropHead q c drDraining c.len
  else if s.queuePort n ≠ some port then (s.dropHead q c 0x15 c.len).bump R.SCH_MISROUTE_count
  else
    match s.placeWith q c ptr with
    | some t => t.countQueue q 0 1 c.len s.time.turn
    | none => s.dropHead q c drPoolEmpty c.len

end Sys2Proof.Machine
end

