-- ==== Sys2Proof/Machine/Integrity.lean ====
section
/-!
DEFINITION. Machine/Integrity.lean: memory integrity (chapter 11, R298 to R326) and the walker of the associative banks (R136,
R138): decoding a stripe read, ranks and their retirement, the patrols, the memory fill, the diagnostic window.
-/

namespace Sys2Proof.Machine

/-! ### Reports -/

/-- A patrol record (R319), without its number, queued for the ring when delivery is enabled and the ring has room for it. -/
def State.patrolRecord (s : State) (kind : Nat) (bad walker : Bool) (addr unit segment : Nat) : State :=
  let n := s.rd R.MIF_PR_CFG_size_log2
  if !s.on R.MIF_PR_CFG_en then s
  else if ringFull n (s.rd R.MIF_PR_HEAD_head + s.mem.patrol.length) (s.rd R.MIF_PR_TAIL_tail) then s.bump R.MIF_PR_LOST_count
  else
    let r : List Byte := [BitVec.ofNat 8 kind, BitVec.ofNat 8 (bit01 bad + 2 * bit01 walker), 0, 0, 0, 0, 0, 0] ++
      leBytes 8 s.time.turn ++ leBytes 4 addr ++ [BitVec.ofNat 8 unit, BitVec.ofNat 8 segment] ++ List.replicate 10 0
    { s with mem := { s.mem with patrol := s.mem.patrol ++ [r] } }

/-- PATROL_RECORD_DELIVER (R319, R568): the oldest patrol record, numbered, goes into the host ring and its vector is raised. -/
def execPatrolRecordDeliver (s : State) : Host.Outcome State Fault Refusal :=
  ok (match s.mem.patrol with
    | [] => s
    | r :: rest =>
      let n := s.rd R.MIF_PR_CFG_size_log2
      let h := s.rd R.MIF_PR_HEAD_head
      if !s.on R.MIF_PR_CFG_en || ringFull n h (s.rd R.MIF_PR_TAIL_tail) then s
      else
        let fn := s.ringOwner R.MIF_PR_CFG_en
        let q := (s.mem.patSeq + 1) % Config.mod32
        let s := { s with mem := { s.mem with patrol := rest, patSeq := q } }
        let s := s.emit (.dma fn (s.pairAt R.MIF_PR_BASE_LO + 32 * (h % 2 ^ n)) (overlay r 4 (leBytes 4 q)))
        (s.wr R.MIF_PR_HEAD_head ((h + 1) % 2 ^ n)).raiseVec fn (s.rd R.MIF_PR_CFG_vector))

/-! ### Ranks -/

/-- CA_PARITY_ERROR (R306, R308): a channel signals a command/address parity error on a command to a rank. -/
def execCaParityError (stack rank : Nat) (s : State) : Host.Outcome State Fault Refusal :=
  ok (if 6 ≤ stack || 128 ≤ rank || s.tdDown then s
    else
      let s := s.errLog 7 6 stack (some rank) 0
      if s.role stack rank = roReceiving then s.retireReceiving stack rank else s.retireRank stack rank)

/-- Whether some stripe of a stack holds two segments on core die 15 (R310): a window of ten ring entries, which starts at an even
index, with two entries on that die. -/
def State.exposed (s : State) (k : Nat) : Bool :=
  let die15 := (List.range 124).filter fun i => match s.rankAt k i with | some r => r / 4 % 16 == 15 | none => false
  (List.range 62).any fun w => 2 ≤ (die15.filter fun i => (i + 124 - 2 * w) % 124 < 10).length

/-- MIGRATION_DONE (R307, R309, R310, R311): the last slot of the running migration has been copied; the spare takes the rank's ring
index. A rank with PEND_UP goes on to its test, and a deferred retirement proceeds. -/
def execMigrationDone (stack : Nat) (s : State) : Host.Outcome State Fault Refusal :=
  ok (match s.mem.migs.find? fun m => m.1 == stack with
    | none => s
    | some (k, r, t) =>
      let idx := s.rd (R.HBC_RANK_LC_ring_index k r)
      let s := { s with mem := { s.mem with migs := s.mem.migs.erase (k, r, t) } }
      let s := ((s.wr (R.HBC_RANK_LC_ring_index k t) idx).wr (R.HBC_RANK_LC_role k t) roRing).wr (R.HBC_RANK_CNT_ue k t) 0
      let s := ((s.wr (R.HBC_RANK_LC_ring_index k r) 0x7F).wr (R.HBC_RANK_LC_role k r) roRetired).wr (R.HBC_RANK_LC_erased k r) 0
      let s := (s.lcEndDrain (R.HBC_RANK_LC k r)).countSpares k
      let s := (s.wrBit (R.HBC_SPARES_exposed k) (s.exposed k)).showMigration k
      let s := (s.errLog 4 6 k (some r) 0).eventOn sevInfo 1 (R.HBC_MIG_STATUS k) false
      match s.mem.deferred.find? fun d => d.1 == k with
      | some d => { s with mem := { s.mem with deferred := s.mem.deferred.erase d } }.retireRank d.1 d.2
      | none => s)

/-- RANK_CE_WINDOW_END (R305): a window of HBC_RANK_CFG.window_s seconds on the elapsed count begins; the correctable counts of a
stack clear. -/
def execRankCeWindowEnd (stack : Nat) (s : State) : Host.Outcome State Fault Refusal :=
  ok (let w := s.rd (R.HBC_RANK_CFG_window_s stack) * Config.nsPerSec
    let last := sread (fun _ => 0) s.mem.ceAt stack
    if 6 ≤ stack || w = 0 || s.time.elapsed / w ≤ last / w then s
    else
      let s := { s with mem := { s.mem with ceAt := mput s.mem.ceAt stack s.time.elapsed } }
      s.each (List.range 128) fun r s => s.wr (R.HBC_RANK_CNT_ce stack r) 0)

/-- RANK_ENABLE (R311): enable written to a rank's lifecycle field; a DOWN retired rank is tested, a DRAINING one is marked. -/
def execRankEnable (fn be stack rank : Nat) (s : State) : Host.Outcome State Fault Refusal :=
  ok (if 6 ≤ stack || 128 ≤ rank then s
    else s.hostWrite fn (R.HBC_RANK_LC stack rank) be true fun s => s.lcWrite (R.HBC_RANK_LC stack rank) true false)

/-- RANK_DISABLE (R306, R311): disable written to a rank's lifecycle field: a spare becomes DOWN retired, a ring rank is retired, or
with no free spare the write is ignored and logged. -/
def execRankDisable (fn be stack rank : Nat) (s : State) : Host.Outcome State Fault Refusal :=
  let a := R.HBC_RANK_LC stack rank
  ok (if 6 ≤ stack || 128 ≤ rank then s
    else s.hostWrite fn a be true fun s =>
      if s.rd (lcFld a) ≠ lcUp then s.lcWrite a false true
      else if s.role stack rank = roSpare then
        (((s.setLc a lcDown).wr (R.HBC_RANK_LC_role stack rank) roRetired).journalRole stack rank roRetired 0x7F).countSpares stack
      else if s.role stack rank = roRing then
        if (s.freeSpare stack).isNone then s.lateErr fn 0 a leNoSpare false else s.retireRank stack rank
      else s)

/-- RANK_TEST_DONE (R311): the test of a STARTING rank ends: it becomes a spare, or DOWN again with the failure logged. -/
def execRankTestDone (stack rank : Nat) (pass : Bool) (s : State) : Host.Outcome State Fault Refusal :=
  let a := R.HBC_RANK_LC stack rank
  ok (if 6 ≤ stack || 128 ≤ rank || s.rd (lcFld a) ≠ lcStarting then s
    else if pass then
      (((s.setLc a lcUp).wr (R.HBC_RANK_LC_role stack rank) roSpare).journalRole stack rank roSpare 0x7F).countSpares stack
    else ((s.setLc a lcDown).errLog 6 6 stack (some rank) 0).eventOn sevErr 1 a false)

/-! ### Patrols -/

/-- HBM_PATROL_VISIT (R302, R304, R319): a table stripe, in which soft errors have flipped the bits of `flips`, is read by the patrol; an
uncorrectable one is reported. -/
def execHbmPatrolVisit (stack stripe : Nat) (flips : List (List Byte)) (s : State) : Host.Outcome State Fault Refusal :=
  ok (if 6 ≤ stack || 32 * s.rd R.HBC_PART_table_pages ≤ stripe || !s.on R.MIF_PATROL_CFG_hbm_en || s.tdDown then s
    else
      let was := s.rd (R.HBC_STRIPE_UE_count stack)
      let r := (s.strikeStripe stack stripe flips).readStripe stack stripe
      r.2.onlyIf (was != r.2.rd (R.HBC_STRIPE_UE_count stack)) fun s =>
        s.patrolRecord 6 true false (stripeAddr stack stripe) 0 (r.1.located.getD 0xFF))

/-- A buffer word that the patrol reads in error keeps it (R298, R317): one bit flipped, or two. -/
def State.hurtWord (s : State) (kind addr : Nat) (uncorrectable : Bool) : State :=
  let k := wordKey kind 0 addr
  let v := s.wordVerdict k
  if kind ≠ 4 ∨ v = 3 ∨ (v = 1 ∧ uncorrectable = false) then s
  else s.flipSecded k (if v = 1 then 1 + sread (fun _ => 0) s.mem.flips k % 2 else if uncorrectable then 3 else 1)

/-- SRAM_PATROL_VISIT (R139, R167, R298, R316 to R319): the patrol reads a word in error. A correctable word is reported, and in a
state-unit array rewritten; an uncorrectable one is reported and hits what it holds: an array entry is poisoned, a copy whose descriptor
it is, is lost and its cells are left to the audit, the lookups, searches and copies that read it from then on find it poisoned. -/
def execSramPatrolVisit (kind unit addr : Nat) (uncorrectable : Bool) (holds : WordUse) (s : State) :
    Host.Outcome State Fault Refusal :=
  ok (if 6 ≤ kind || !s.on R.MIF_PATROL_CFG_en then s
    else
      let s := (s.patrolRecord kind uncorrectable false addr (if kind = 3 ∨ kind = 0 then unit else 0) 0).hurtWord kind addr uncorrectable
      if !uncorrectable then s.bump (R.MIF_CE_count kind)
      else
        let s := s.uncorrectable kind (if kind < 4 then 0 else 1) 0 addr
        match holds with
        | .unused => s
        | .array a i =>
          match mget s.txf.arrays a with
          | some x =>
            if (mget x.poison i).isSome then s
            else { s with txf := { s.txf with arrays := mput s.txf.arrays a { x with poison := mput x.poison i (2 ^ 64) } } }
          | none => s
        | .descriptor q n =>
          let x := s.queue q
          match x.ondie[n]? with
          | some c => s.setQueue q { x with ondie := x.ondie.set n { c with stored := none, lost := some c.len, at_ := addr } }
          | none => s
        | .asm u => if 2 ≤ worstFlips 12 (s.upset u.part u.loc) then s else s.strike [u]
        | .exm t a =>
          match mget s.tab.exm t with
          | some x => if x.bad.contains a then s else { s with tab := { s.tab with exm := mput s.tab.exm t { x with bad := a :: x.bad } } }
          | none => s)

/-- An entry of the walker log (R136, R138): kind 0 repaired, 1 copy correctable, 2 copy uncorrectable. -/
def State.walkLog (s : State) (bank unit kind : Nat) : State :=
  let i := s.rd R.ASM_WALK_LOG_CTRL_next
  let old := s.rd (R.ASM_WALK_LOG_w0_valid i)
  let s := s.wrWord (R.ASM_WALK_LOG_w0 i) 0
  let s := s.wr (R.ASM_WALK_LOG_w0_bank i) bank
  let s := s.wr (R.ASM_WALK_LOG_w0_unit i) unit
  let s := s.wr (R.ASM_WALK_LOG_w0_kind i) kind
  let s := s.wr (R.ASM_WALK_LOG_w0_valid i) 1
  let s := s.wr64 (R.ASM_WALK_LOG_LO_turn_lo i) (R.ASM_WALK_LOG_HI_turn_hi i) s.time.turn
  let s := s.onlyIf (old == 1) fun s => s.wr R.ASM_WALK_LOG_CTRL_wrapped 1
  s.wr R.ASM_WALK_LOG_CTRL_next ((i + 1) % 16)

/-- ASM_WALKER_VISIT (R136 to R138, R316): a walker compares an entry with its copy. `upsets` are soft errors that have struck since they
were last looked for; `addr` is the copy word's index within its kind. A copy word in error is reported; an entry that differs from its
copy, or from the corrected copy, is rewritten, but not from an uncorrectable copy. `last` ends a cycle of bank 31. -/
def execAsmWalkerVisit (bank unit addr : Nat) (upsets : List Upset) (last : Bool) (s : State) : Host.Outcome State Fault Refusal :=
  let s := s.strike upsets
  let loc := bank * 8192 + unit
  ok (if !s.on R.ASM_WALK_CFG_en then s
    else
      let n := worstFlips 12 (s.upset .copy loc)
      let s :=
        if n = 0 then s
        else if n = 1 then ((s.bump (R.MIF_CE_count 2)).walkLog bank unit 1).patrolRecord 2 false true addr 0 0
        else
          let s := ((s.bump R.ASM_WALK_COPY_UE_count).bump (R.MIF_UE_count 2)).walkLog bank unit 2
          (s.patrolRecord 2 true true addr 0 0).event sevErr R.ASM_WALK_COPY_UE
      let s := s.onlyIf (n ≤ 1 && s.upset .units loc != 0) fun s => ((s.mend .units loc).bump R.ASM_WALK_FIXED_count).walkLog bank unit 0
      s.onlyIf (last && bank == 31) fun s => s.wr R.ASM_WALK_CYCLES_count (s.rd R.ASM_WALK_CYCLES_count + 1))

/-! ### The memory fill -/

/-- A rank that fails during the fill (R321): a free spare takes its place at once; without one it is erased. -/
def State.fillRetire (s : State) (k r : Nat) : State :=
  if s.role k r ≠ roRing then (if s.role k r = roSpare then
      (((s.wr (lcFld (R.HBC_RANK_LC k r)) lcDown).wr (R.HBC_RANK_LC_role k r) roRetired).journalRole k r roRetired 0x7F).countSpares k
    else s)
  else
    let idx := s.rd (R.HBC_RANK_LC_ring_index k r)
    match s.freeSpare k with
    | some t =>
      let s := (s.wr (R.HBC_RANK_LC_role k t) roRing).wr (R.HBC_RANK_LC_ring_index k t) idx
      let s := ((s.wr (lcFld (R.HBC_RANK_LC k r)) lcDown).wr (R.HBC_RANK_LC_role k r) roRetired).wr (R.HBC_RANK_LC_ring_index k r) 0x7F
      let s := ((s.journalRole k r roRetired 0x7F).journalRole k t roRing idx).countSpares k
      (s.wrBit (R.HBC_SPARES_exposed k) (s.exposed k)).errLog 2 6 k (some r) 0
    | none => (((s.wr (R.HBC_RANK_LC_erased k r) 1).journalErased k r idx).countSpares k).errLog 5 6 k (some r) 0

/-- Erased ranks of a stack, the count of R321. -/
def State.erasedCount (s : State) (k : Nat) : Nat := ((List.range 128).filter fun r => s.isErased k r).length

/-! ### The diagnostic window -/

/-- Whether a memory holds an address, as far as the spec gives its size (R264, R298). -/
def diagInside (kind addr : Nat) : Bool :=
  match kind with
  | 0 => addr < 12582912 | 1 => addr < 8388608 | 3 => addr < 8388608 | 4 => addr < 33554432
  | 6 => addr / 2 ^ 27 < 6 && addr % 2 ^ 27 < 104018739
  | 7 => false | _ => true

/-- A stripe as a diagnostic buffer shows it: segment j from byte 72j (R323). -/
def stripeBuf (segs : List (List Byte)) : List Byte := segs.flatMap fun s => slice (s ++ List.replicate 72 0) 0 72
def bufStripe (buf : List Byte) : List (List Byte) := (List.range 10).map fun j => slice (buf ++ List.replicate 720 0) (72 * j) 72

/-- The write of MIF_DIAG_CTRL that starts an operation (R323): with the key, an operation and no other running; its host buffer
lies in a window of the function (R448). -/
def State.diagStart (s : State) (fn be val op : Nat) (data : List Byte) : State :=
  s.hostWrite fn R.MIF_DIAG_CTRL be true fun s =>
    let a := R.MIF_DIAG_CTRL
    if !bitAt val 5 then s
    else if bitsAt val 16 16 ≠ 0xA5C3 ∨ bitsAt val 0 2 ≠ op then s.lateErr fn 0 a leBadValue false
    else if s.on R.MIF_DIAG_STATUS_busy then s.lateErr fn 0 a leWrongState false
    else if !s.inWindow fn (s.pairAt R.MIF_DIAG_BUF_LO) 1024 then
      (s.secLog secWindow fn (s.pairAt R.MIF_DIAG_BUF_LO) 0 none).lateErr fn 0 a leRefused false
    else
      let o : DiagOp := ⟨fn, op, bitsAt val 2 3, s.rd R.MIF_DIAG_ADDR_address, s.rd R.MIF_DIAG_UNIT_unit, bitsAt val 6 10, data⟩
      { s with mem := { s.mem with diag := some o } }.wr R.MIF_DIAG_STATUS_busy 1

/-- DIAG_READ_RAW (R323): starts a raw read; `raw` is what the memory holds where the window has not written it. -/
def execDiagReadRaw (fn be val : Nat) (raw : List Byte) (s : State) : Host.Outcome State Fault Refusal :=
  ok (s.diagStart fn be val 0 raw)

/-- DIAG_WRITE_RAW (R323): starts a raw write of the host buffer's contents `buf`. -/
def execDiagWriteRaw (fn be val : Nat) (buf : List Byte) (s : State) : Host.Outcome State Fault Refusal :=
  ok (s.diagStart fn be val 1 buf)

/-- DIAG_WRITE_ENCODED (R323): starts a write of the host buffer's data with correct codes. -/
def execDiagWriteEncoded (fn be val : Nat) (buf : List Byte) (s : State) : Host.Outcome State Fault Refusal :=
  ok (s.diagStart fn be val 2 buf)

/-- What the diagnostic window writes into a stripe of an HBM table is what the table holds from then on; one that does not decode leaves it
poisoned (R323). -/
def State.absorbStripe (s : State) (stack stripe : Nat) : State :=
  let x := stripe * 3072 + stack * 512
  if s.partPoison x 512 then s else s.each (s.tab.exm.filter fun e => e.2.d.hbm && decide (e.2.base < x + 512) && decide (x < e.2.base + e.2.d.partLen)) fun e s =>
    let n := e.2.d.bucketBytes
    let lo := (x - e.2.base) / n
    let bs := (List.range (512 / n + 2)).filterMap fun i =>
      if lo + i < e.2.copies * e.2.d.buckets then some (lo + i) else none
    let t := bs.foldl (fun (t : ExmTable) b =>
      let img := s.peekPart (t.base + b * n) n
      t.ofImage (b / t.d.buckets) (b % t.d.buckets) (slice img 0 16 ++ List.replicate 48 0 ++ img.drop 16)) e.2
    ({ s with tab := { s.tab with exm := mput s.tab.exm e.1 t } }).syncExm e.1

/-- A diagnostic operation on a stripe (R323). -/
def State.diagStripe (s : State) (o : DiagOp) : State :=
  let k := o.addr / 2 ^ 27
  let i := o.addr % 2 ^ 27
  let new := bufStripe o.data
  match o.op with
  | 0 =>
    let old := s.stripeAt k i
    let d := decodeStripe (s.erasedSegs k i) old
    let r := s.readStripe k i
    let v := match d.verdict with
      | .clean => 0 | .corrected _ => 1 | .erasure => 2 | .uncorrectable => 3
    let v := if v ≠ 3 && stripePoison d.segs then 4 else v
    let s := (r.2.wr R.MIF_DIAG_STATUS_verdict v).wr R.MIF_DIAG_STATUS_segment (r.1.located.getD 0)
    s.emit (.dma o.fn (s.pairAt R.MIF_DIAG_BUF_LO) (stripeBuf old))
  | 1 => (s.putSegs k i ((List.range 10).filter fun j => bitAt o.mask j) new).absorbStripe k i
  | _ => (s.putSegs k i (List.range 10) (encodeStripe (stripeData new) (overlay (slice (stripeMeta new) 0 60) 1 [8]))).absorbStripe k i

/-- A SECDED word as the diagnostic window writes it. -/
def State.putWord (s : State) (k : Nat) (w : Nat × Nat) : State :=
  { s with mem := { s.mem with words := mput s.mem.words k w, flips := mdel s.mem.flips k } }

/-- A diagnostic operation on a SECDED word (R316, R323). What is written stands in the word from then on. -/
def State.diagWord (s : State) (o : DiagOp) : State :=
  let k := wordKey o.kind o.unit o.addr
  let new := (leAt o.data 0 8, byteAt o.data 8)
  let x := sread (fun _ => 0) s.mem.flips k
  let w := (mget s.mem.words k).getD new
  let w := (w.1 ^^^ x % 2 ^ 64, w.2 ^^^ x / 2 ^ 64)
  match o.op with
  | 0 =>
    let v := if w.2 = Config.secdedCheck w.1 % 256 then 0 else if Config.secdedSingle w.1 w.2 then 1 else 3
    let s := s.onlyIf (v == 1) fun s => s.bump (R.MIF_CE_count o.kind)
    let s := s.onlyIf (v == 3) fun s => s.uncorrectable o.kind (if o.kind < 4 then 0 else 1) 0 o.addr
    (s.wr R.MIF_DIAG_STATUS_verdict v).emit
      (.dma o.fn (s.pairAt R.MIF_DIAG_BUF_LO) (leBytes 8 w.1 ++ [BitVec.ofNat 8 w.2]))
  | 1 => s.putWord k new
  | _ => s.putWord k (new.1, Config.secdedCheck new.1 % 256)

/-- DIAG_DONE (R323): the operation takes place, as one access in the memory's order, and its status is reported. -/
def execDiagDone (s : State) : Host.Outcome State Fault Refusal :=
  ok (match s.mem.diag with
    | none => s
    | some o =>
      let s := { s with mem := { s.mem with diag := none } }.wr R.MIF_DIAG_STATUS_busy 0
      let s := s.wr R.MIF_DIAG_STATUS_done 1
      if !diagInside o.kind o.addr then s.wr R.MIF_DIAG_STATUS_error 1
      else if o.kind = 6 then s.diagStripe o
      else s.diagWord o)

end Sys2Proof.Machine
end

