-- ==== Sys2Proof/Machine/Sched.lean ====
section
/-!
DEFINITION. Machine/Sched.lean: the turn scheduler (R48 to R52): what is checked when an event is requested, taking and
freeing slots on each die, and withdrawing an event in time.
-/

namespace Sys2Proof.Machine

/-- The row of the table of R49 an event stands in, 1 to 8; TBS_SLOT shows it as kind. -/
def SchedEv.kind (e : SchedEv) : Nat :=
  match e with
  | .txnCommit _ => 1 | .recipe _ => 2 | .firmware _ _ _ => 3 | .snapshot _ => 4 | .pmu _ _ => 5
  | .holdStart _ => 6 | .holdStop _ => 6 | .dice _ => 7 | .tsiSwap => 8

/-- Whether an event takes a slot on the FD (R49); a Dice unit takes it on its own die. -/
def SchedEv.onFd (e : SchedEv) : Bool :=
  match e with
  | .holdStart _ | .holdStop _ => false
  | .dice u => u < 0x8000000
  | _ => true

/-- Whether an event takes a slot on the TD (R49). -/
def SchedEv.onTd (e : SchedEv) : Bool :=
  match e with
  | .recipe _ | .tsiSwap => false
  | .dice u => 0x8000000 ≤ u
  | _ => true

/-- The lowest free slot of the FD scheduler. -/
def State.freeFdSlot (s : State) : Option Nat := firstIdx 64 fun i => s.sched.all fun x => x.fdSlot != some i

/-- The lowest free slot of the TD scheduler. -/
def State.freeTdSlot (s : State) : Option Nat := firstIdx 64 fun i => s.sched.all fun x => x.tdSlot != some i

/-- Whether an event for a turn would break R51 beside those already scheduled: one Recipe activation and one firmware
activation a turn, and no Recipe activation beside a firmware activation that changes data-path microcode. -/
def State.schedConflict (s : State) (e : SchedEv) (turn : Nat) : Bool :=
  s.sched.any fun x => x.turn == turn &&
    match e, x.ev with
    | .recipe _, .recipe _ => true
    | .firmware _ _ _, .firmware _ _ _ => true
    | .recipe _, .firmware _ u _ => u
    | .firmware _ u _, .recipe _ => u
    | _, _ => false

/-- Transactions in state PREPARED: each has a slot on each die reserved for its commit (R225). -/
def State.preparedCount (s : State) : Nat := ((List.range 64).filter fun h => s.rd (R.TXT_TXN_w0_state h) == 3).length

/-- Whether a free slot is lacking on a die an event needs (R48); slots that PREPARED transactions reserved are free for
commits only (R225). -/
def State.slotLacks (s : State) (e : SchedEv) : Bool :=
  let keep := if e.kind = 1 then 0 else s.preparedCount
  (e.onFd && 64 ≤ (s.sched.filter fun x => x.fdSlot.isSome).length + keep) ||
  (e.onTd && 64 ≤ (s.sched.filter fun x => x.tdSlot.isSome).length + keep)

/-- The checks of R48 on a request, in order: the status of the first that fails, or DONE when all pass. -/
def State.schedCheck (s : State) (e : SchedEv) (system : Bool) (turn : Nat) : Nat :=
  if e.onTd && s.tdDown then stPeerUnavailable
  else if system && s.rd R.TBS_TURN_STATUS_turn_state == 0 then stTurnUnsync
  else if turn < s.time.turn + 4 then stLate
  else if s.time.turn + 2 ^ 32 < turn then stInvalid
  else if s.schedConflict e turn then stBusyRetry
  else if s.slotLacks e then stNoResource
  else stDone

/-- The words of an FD slot written for a new event (R65); seq increments. -/
def State.fillFdSlot (s : State) (i : Nat) (x : SlotEv) : State :=
  let s := s.wr64 (R.TBS_SLOT_FD_LO_turn_lo i) (R.TBS_SLOT_FD_HI_turn_hi i) x.turn
  let s := s.wr (R.TBS_SLOT_FD_w2_valid i) 1
  let s := s.wrBit (R.TBS_SLOT_FD_w2_scope i) x.system
  let s := s.wr (R.TBS_SLOT_FD_w2_owner i) x.owner
  let s := s.wr (R.TBS_SLOT_FD_w2_kind i) x.ev.kind
  s.wr (R.TBS_SLOT_FD_w2_seq i) (s.rd (R.TBS_SLOT_FD_w2_seq i) + 1)

/-- The words of a TD slot written for a new event (R65); seq increments. -/
def State.fillTdSlot (s : State) (i : Nat) (x : SlotEv) : State :=
  let s := s.wr64 (R.TBS_SLOT_TD_w0_turn_lo i) (R.TBS_SLOT_TD_w1_turn_hi i) x.turn
  let s := s.wr (R.TBS_SLOT_TD_w2_valid i) 1
  let s := s.wrBit (R.TBS_SLOT_TD_w2_scope i) x.system
  let s := s.wr (R.TBS_SLOT_TD_w2_owner i) x.owner
  let s := s.wr (R.TBS_SLOT_TD_w2_kind i) x.ev.kind
  s.wr (R.TBS_SLOT_TD_w2_seq i) (s.rd (R.TBS_SLOT_TD_w2_seq i) + 1)

/-- The pending counts of TBS_TURN_STATUS brought in line with the slots (R65). -/
def State.schedCounts (s : State) : State :=
  (s.wr R.TBS_TURN_STATUS_fd_pending (s.sched.filter fun x => x.fdSlot.isSome).length).wr
    R.TBS_TURN_STATUS_td_pending (s.sched.filter fun x => x.tdSlot.isSome).length

/-- A request that passed its checks takes its slots: on each die it needs, the free slot with the lowest index (R48). -/
def State.schedTake (s : State) (e : SchedEv) (turn : Nat) (system : Bool) (owner : Nat) (cmd : Option Cmd) : State :=
  let fd := if e.onFd then s.freeFdSlot else none
  let td := if e.onTd then s.freeTdSlot else none
  let x : SlotEv := ⟨e, turn, system, owner, cmd, fd, td⟩
  let s := { s with sched := s.sched ++ [x] }
  let s := match fd with | some i => s.fillFdSlot i x | none => s
  let s := match td with | some i => s.fillTdSlot i x | none => s
  s.schedCounts

/-- The slots of an event freed: valid clears, the other words stay (R65). -/
def State.schedFree (s : State) (x : SlotEv) : State :=
  let s := { s with sched := s.sched.erase x }
  let s := match x.fdSlot with | some i => s.wr (R.TBS_SLOT_FD_w2_valid i) 0 | none => s
  let s := match x.tdSlot with | some i => s.wr (R.TBS_SLOT_TD_w2_valid i) 0 | none => s
  s.schedCounts

/-- The pending event a test accepts, the first accepted first. -/
def State.schedFind (s : State) (p : SchedEv → Bool) : Option SlotEv := s.sched.find? fun x => p x.ev

/-- Whether an event for a turn can still be withdrawn: the current turn is at most N - 3 (R52). -/
def State.inTime (s : State) (turn : Nat) : Bool := s.time.turn + 3 ≤ turn

end Sys2Proof.Machine
end

