-- ==== Sys2Proof/Machine/Dice.lean ====
section
/-!
DEFINITION. Machine/Dice.lean: the Dice units (R392 to R397). A unit is named by the BAR0 offset of its DICE_CTRL.
-/

namespace Sys2Proof.Machine

/-- The Dice units of line port `p`, fabric link `l` and bridge group `g` (R397). -/
def dicePort (p : Nat) : Nat := 0x3400000 + 0x40 * p
def diceLink (l : Nat) : Nat := 0xA800000 + 0x40 * l
def diceGroup (g : Nat) : Nat := 0xA804000 + 0x40 * g

/-- Whether an offset is that of a Dice unit. -/
def isDice (u : Nat) : Bool :=
  u % 0x40 == 0 && ((0x3400000 ≤ u && u < dicePort 128) || (0xA800000 ≤ u && u < diceLink 160) || (0xA804000 ≤ u && u < diceGroup 24))

/-- The states of a unit (R397). -/
def diIdle : Nat := 0
def diScheduled : Nat := 1
def diRunning : Nat := 2
def diDone : Nat := 3

/-- The 32-bit xorshift generator with shifts 13, 17 and 5 (R393). -/
def xorshift (x : Nat) : Nat :=
  let x := x ^^^ (x * 2 ^ 13 % 2 ^ 32)
  let x := x ^^^ (x / 2 ^ 17)
  x ^^^ (x * 2 ^ 5 % 2 ^ 32)

/-- A unit's state. -/
def State.dice (s : State) (u : Nat) : DiceSt := sread (fun _ => ⟨0, []⟩) s.fab.dice u
def State.setDice (s : State) (u : Nat) (x : DiceSt) : State :=
  { s with fab := { s.fab with dice := swrite (fun _ => ⟨0, []⟩) s.fab.dice u x } }

/-- What a unit does to a unit of traffic (R393). -/
inductive DiceAct where
  | pass | drop | corrupt | reorder
  deriving DecidableEq, Repr

/-- One test of R393: whether the action fires, and the state with its value drawn. -/
def State.diceTest (s : State) (u : Nat) (en ppm : Fld) : Bool × State :=
  if !s.on en then (false, s)
  else
    let r := xorshift (s.dice u).rng
    (r < s.rd ppm * 2 ^ 32 / 1000000, s.setDice u { s.dice u with rng := r })

/-- The tests on a unit of traffic that passes, in the order drop, corrupt, reorder; at most one applies (R393). -/
def State.diceDraw (s : State) (u : Nat) : DiceAct × State :=
  if s.rd (R.DICE_STATUS_state u) ≠ diRunning then (.pass, s)
  else
    let s := s.bump (R.DICE_SEEN_count u)
    let a := s.diceTest u (R.DICE_CTRL_drop_en u) (R.DICE_DROP_PPM_ppm u)
    if a.1 then (.drop, a.2.bump (R.DICE_DROPS_count u))
    else
      let b := a.2.diceTest u (R.DICE_CTRL_corrupt_en u) (R.DICE_CORRUPT_PPM_ppm u)
      if b.1 then (.corrupt, b.2.bump (R.DICE_CORRUPTS_count u))
      else
        let c := b.2.diceTest u (R.DICE_CTRL_reorder_en u) (R.DICE_REORDER_PPM_ppm u)
        if c.1 then (.reorder, c.2.bump (R.DICE_REORDERS_count u)) else (.pass, c.2)

/-- A bit of bytes flipped, bit 0 of the first byte first. -/
def flipBit (bs : List Byte) (i : Nat) : List Byte := bs.set (i / 8) (BitVec.ofNat 8 (byteAt bs (i / 8) ^^^ 2 ^ (i % 8)))

/-- A bit's place when the most significant bit of each byte is sent first. -/
def msbFirst (i : Nat) : Nat := i / 8 * 8 + (7 - i % 8)

/-- Whether a unit stands on a fabric link, whose bytes are sent most significant bit first (R356). -/
def onLink (u : Nat) : Bool := diceLink 0 ≤ u && u < diceLink 160

/-- The bits a corruption flips (R393): one bit, a burst, or one bit of the first `head` bytes. Which bit is a free value, the same on every
run with the same seed and traffic (R232). -/
def State.diceCorrupt (s : State) (u head : Nat) (bs : List Byte) : List Byte :=
  let kind := s.rd (R.DICE_CTRL_corrupt_kind u)
  let n := if kind = 1 then s.rd (R.DICE_CTRL_burst_m1 u) + 1 else 1
  let span := if kind = 2 then min head bs.length else bs.length
  let at_ := if span = 0 then 0 else Config.diceBit (s.dice u).rng % (8 * span)
  (List.range n).foldl (fun b k => flipBit b (if onLink u then msbFirst (at_ + k) else at_ + k)) bs

/-- A unit of traffic held back (R393). -/
def State.diceHold (s : State) (u : Nat) (bs : List Byte) : State :=
  let x := s.dice u
  s.setDice u { x with held := x.held ++ [(bs, s.rd (R.DICE_CTRL_hold_m1 u) + 1)] }

/-- A further unit of traffic has passed: the units held back whose count is over come out. -/
def State.diceRelease (s : State) (u : Nat) : List (List Byte) × State :=
  let x := s.dice u
  let left : List (List Byte × Nat) := x.held.map fun h => (h.1, h.2 - 1)
  ((left.filter fun h => h.2 == 0).map (·.1), s.setDice u { x with held := left.filter fun h => h.2 != 0 })

/-- A unit's window begins (R393). -/
def State.diceStart (s : State) (u : Nat) : State :=
  (s.wr (R.DICE_STATUS_state u) diRunning).setDice u ⟨s.rd (R.DICE_SEED_seed u), []⟩

/-- A unit's window ends: what it holds back comes out (R392). -/
def State.diceEnd (s : State) (u : Nat) : List (List Byte) × State :=
  ((s.dice u).held.map (·.1), (s.wr (R.DICE_STATUS_state u) diDone).setDice u ⟨0, []⟩)

/-- The last turn of a unit's window. -/
def State.diceLast (s : State) (u : Nat) : Nat := s.rd64 (R.DICE_END_LO_turn_lo u) (R.DICE_END_HI_turn_hi u)

/-- The event that holds a unit's window. -/
def State.diceEvent (s : State) (u : Nat) : Option SlotEv := s.schedFind fun e => e == .dice u

/-- DICE_ARM (R48, R392, R395, R397): a write of DICE_CTRL; with arm set the unit's window is scheduled. The fields are not taken
while the unit is scheduled or running. -/
def execDiceArm (fn be unit val : Nat) (s : State) : Host.Outcome State Fault Refusal :=
  let a := R.DICE_CTRL unit
  ok (if !isDice unit then s
    else s.hostWrite fn a be true fun s =>
      let st := s.rd (R.DICE_STATUS_state unit)
      if st = diScheduled ∨ st = diRunning then s.lateErr fn 0 a leWrongState false
      else if bitsAt val 4 2 = 3 then s.lateErr fn 0 a leBadValue false
      else
        let s := s.mergeReg a val be
        let sys := s.on (R.DICE_CTRL_scope unit)
        let start := s.rd64 (R.DICE_START_LO_turn_lo unit) (R.DICE_START_HI_turn_hi unit)
        if !bitAt val 0 then s
        else if s.diceLast unit < start then s.wr (R.DICE_STATUS_last_status unit) stInvalid
        else
          let ans := s.schedCheck (.dice unit) sys start
          if ans ≠ stDone then s.wr (R.DICE_STATUS_last_status unit) ans
          else
            let s := (s.wr (R.DICE_STATUS_last_status unit) stAccepted).wr (R.DICE_STATUS_state unit) diScheduled
            s.schedTake (.dice unit) start sys fn none)

/-- A scheduled window withdrawn: the unit is idle. -/
def State.withdrawDice (s : State) (u : Nat) (x : SlotEv) (status : Nat) : State :=
  ((s.schedFree x).wr (R.DICE_STATUS_state u) diIdle).wr (R.DICE_STATUS_last_status u) status

/-- DICE_CANCEL (R52, R392, R397): a write of DICE_CTRL with cancel set withdraws a scheduled window in time. The configuration fields of the
same write are taken while the unit is neither scheduled nor running; otherwise they are ignored, and logged where they would change
one (notes/assumptions/148.md). -/
def execDiceCancel (fn be : Nat) (w : DiceWrite) (s : State) : Host.Outcome State Fault Refusal :=
  let unit := w.unit
  let val := w.val
  let a := R.DICE_CTRL unit
  ok (if !isDice unit || !bitAt val 19 then s
    else s.hostWrite fn a be true fun s =>
      let st := s.rd (R.DICE_STATUS_state unit)
      let t := s.mergeReg a val be
      let fixed := st == diScheduled || st == diRunning
      let s := if !fixed then (if bitsAt val 4 2 = 3 then s.lateErr fn 0 a leBadValue false else t)
        else if t.rdWord a != s.rdWord a then s.lateErr fn 0 a leWrongState false else s
      if st = diRunning then s.wr (R.DICE_STATUS_last_status unit) stLate
      else if !fixed && bitsAt val 4 2 = 3 then s
      else
        match s.diceEvent unit with
        | none => s.wr (R.DICE_STATUS_last_status unit) stNotFound
        | some x => if s.inTime x.turn then s.withdrawDice unit x stDone else s.wr (R.DICE_STATUS_last_status unit) stLate)

end Sys2Proof.Machine
end

