-- ==== Sys2Proof/Machine/Admit.lean ====
section
/-!
DEFINITION. Machine/Admit.lean: the commands of the buffer and of admission (R237 to R262): pool sizes and limits, staged bodies,
the admission decision, the WRED generators, the capture of a VOQ's state, and the audit.
-/

namespace Sys2Proof.Machine

/-! ### Pool sizes and limits -/

/-- The largest size of a pool in units of 4 MiB (R236). -/
def poolMax (k : Nat) : Nat := match k with | 0 => 8 | 1 => 16 | 2 => 32 | _ => 59

/-- The cells of a pool of `n` units of 4 MiB. -/
def poolCells (k n : Nat) : Nat := n * 4194304 / cellSize k

/-- Bases and cell counts recomputed from the sizes written, once the four sizes sum to 256 MiB (R237). -/
def State.applySizes (s : State) : State :=
  let size (k : Nat) := s.rd (R.BPM_POOL_w0_size_4mib k)
  if sumOf size (List.range 4) ≠ 64 then s
  else s.each (List.range 4) fun k s =>
    (s.wr (R.BPM_POOL_w1_base k) (4194304 * sumOf size (List.range k))).wr (R.BPM_POOL_w2_cells k) (poolCells k (size k))

/-- POOL_SIZE_WRITE (R237): the size of a pool, taken only while no cell is allocated; its limits become 13/16 and 2/16 of its
new cells. -/
def execPoolSizeWrite (fn be pool val : Nat) (s : State) : Host.Outcome State Fault Refusal :=
  ok (if 4 ≤ pool then s
    else s.hostWrite fn (R.BPM_POOL_w0 pool) be false fun s =>
      let t := s.mergeReg (R.BPM_POOL_w0 pool) val be
      let n := t.rd (R.BPM_POOL_w0_size_4mib pool)
      if !s.on R.BPM_STATUS_empty then s.lateErr fn 0 (R.BPM_POOL_w0 pool) leWrongState false
      else if n = 0 ∨ poolMax pool < n then s.lateErr fn 0 (R.BPM_POOL_w0 pool) leBadValue false
      else
        let cells := poolCells pool n
        ((t.wr (R.BPM_POOL_w3_hard_limit pool) (13 * cells / 16)).wr (R.BPM_POOL_w4_egress_reserve pool)
          (2 * cells / 16)).applySizes)

/-- POOL_LIMIT_WRITE (R240): hard_limit or, with `reserve`, egress_reserve of a pool; ignored and logged when the two would
exceed the pool's cells. -/
def execPoolLimitWrite (fn be pool val : Nat) (reserve : Bool) (s : State) : Host.Outcome State Fault Refusal :=
  ok (if 4 ≤ pool then s
    else
      let a := if reserve then R.BPM_POOL_w4 pool else R.BPM_POOL_w3 pool
      s.hostWrite fn a be false fun s =>
        let t := s.mergeReg a val be
        if t.rd (R.BPM_POOL_w2_cells pool) <
            t.rd (R.BPM_POOL_w3_hard_limit pool) + t.rd (R.BPM_POOL_w4_egress_reserve pool) then
          s.lateErr fn 0 a leBadValue false
        else t)

/-! ### Staged bodies -/

/-- The cells a staged body holds once the bytes up to `upto` of the packet have come (R241): a full cell for every 2,048 bytes collected,
from byte 512 on, while more are arriving; at the packet's end, the chain of R238. -/
def stagedShape (upto len : Nat) : List Nat := if upto < len then List.replicate ((upto - 512) / 2048) 3 else cellShape len

/-- The chain of a body (R241): the cells held, and at the packet's end the first cell, which takes bytes 0 to 511, before them. -/
def stagedChain (whole : Bool) (held new : List Nat) : List Nat :=
  if whole then new.take 1 ++ held ++ new.drop 1 else held ++ new

/-- BODY_STAGING_WRITE (R241, R242): bytes 512 to `upto` of a packet have reached the TD. A cell that R240 refuses marks the
packet: what is collected is discarded, and the cells taken until then are freed. -/
def execBodyStagingWrite (id upto : Nat) (s : State) : Host.Outcome State Fault Refusal :=
  ok (s.withPkt id fun p s =>
    let upto := min upto p.len
    if p.egress || p.len ≤ 512 || upto ≤ 512 || upto ≤ p.staged || s.tdStill then s
    else
      let s := s.setPkt { p with staged := upto }
      let b := (s.stagedBody id).getD ⟨id, [], false, false, false, 0⟩
      let b := { b with whole := upto == p.len, last := s.time.elapsed }
      if b.marked then s.setBody id (some b)
      else
        let ks := (stagedShape upto p.len).drop b.cells.length
        match s.takeCells false ks with
        | some (ps, s) => s.setBody id (some { b with cells := stagedChain b.whole b.cells ps })
        | none =>
          let r := State.takeUntilRefused false ks s
          (State.freeCells rqStaging (b.cells ++ r.1) r.2).setBody id (some { b with cells := [], marked := true }))

/-- DISCARD_NOTICE (R241): the FD dropped the packet; its staged cells are freed, unless a drop-mirror copy of it is still to be
decided, which shares them. -/
def execDiscardNotice (id : Nat) (s : State) : Host.Outcome State Fault Refusal :=
  ok (if s.brg.notices.contains id then
      let s := { s with brg := { s.brg with notices := s.brg.notices.erase id } }
      if s.brg.descs.any fun d => d.pkt == id then s else s.freeBody id
    else s)

/-- Whether the bridge can deliver a descriptor now (R17): those it accepted before have been delivered, and no unit of the packet class is
being replayed towards the TD. -/
def State.deliverable (s : State) (d : Desc) : Bool :=
  d.taken ||
  (!(s.stuck false fun x => match x with | .bytes _ => true | .descriptor _ => true | _ => false) &&
    (s.brg.descs.takeWhile fun x => x.pkt != d.pkt).all fun x => x.taken)

/-- STAGING_EXPIRE (R241): 64 us after the last body byte without a descriptor, one that the bridge can deliver having arrived, the staged cells are freed and counted; a
descriptor that comes later is refused with TIER_LOST. -/
def execStagingExpire (id : Nat) (s : State) : Host.Outcome State Fault Refusal :=
  ok (match s.stagedBody id with
    | some b =>
      if b.whole && !b.marked && !b.expired && b.last + 64000 ≤ s.time.elapsed &&
          !(s.brg.descs.any fun d => d.pkt == id && s.deliverable d) then
        ((State.freeCells rqStaging b.cells s).bump R.BPM_STAGE_EXPIRED_count).setBody id (some { b with cells := [], expired := true })
      else s
    | none => s)

/-! ### The admission decision -/

/-- The forwarding record with another destination: device, port and class of a VOQ. -/
def redirect (rec q : Nat) : Nat :=
  rec / 2 ^ 22 * 2 ^ 22 + rec / 2 ^ 19 % 4 * 2 ^ 19 + q % 8 * 2 ^ 16 + voqPort q * 2 ^ 9 + voqDevice q % 512

/-- The lead of a multicast group for a tag (R327, R374): its lowest member device and that device's lowest member port. -/
def State.groupLead (s : State) (g τ : Nat) : Nat × Nat :=
  let r := s.tdAt tdGroup g τ
  ((firstIdx 512 fun d => bitAt (byteAt r (d / 8)) (d % 8)).getD 0, byteAt r 64 % 128)

/-- The VOQ of a copy and its carried record (R184, R259, R327): the primary copy goes where the forwarding record says, a punt
copy to the Recipe's punt destination, mirror and drop-mirror copies to their session's; a drop-mirror copy carries drop and
its reason. -/
def State.copyTo (s : State) (d : Desc) (k : CopyKind) : Nat × Nat :=
  let rec64 := d.carried % 2 ^ 64
  let user := d.carried / 2 ^ 64 * 2 ^ 64
  match k with
  | .primary =>
    if fwdMcast d.fwd then
      let l := s.groupLead (fwdGroup d.fwd) d.tag
      (voqOf l.1 l.2 (fwdTc d.fwd), user + d.fwd)
    else (voqOf (fwdDevice d.fwd) (fwdPort d.fwd) (fwdTc d.fwd), user + d.fwd)
  | .punt =>
    let q := voqOf (fwdDevice d.punt) (fwdPort d.punt) (fwdTc d.punt)
    (q, user + putBits (redirect rec64 q) 21 1 0)
  | .mirror n =>
    let q := Config.mirrorDest n % voqs
    (q, user + putBits (redirect rec64 q) 21 1 0)
  | .dropMirror n why =>
    let q := Config.mirrorDest n % voqs
    (q, user + putBits (putBits (redirect rec64 q) 21 1 0) 22 7 (1 + 2 * why))

/-- A descriptor's packet stored in cells (R238, R241, R242): what is staged is kept where its shape is that of the stored
length, else cells are taken; a refusal of R240 marks the packet. The answer is the reason for which every copy is refused. -/
def State.storeDesc (s : State) (d : Desc) : Option Nat × State :=
  let id := storedOf d.pkt
  if (s.stored id).isSome then (none, s)
  else
    let b := (s.stagedBody d.pkt).getD ⟨d.pkt, [], false, false, true, 0⟩
    if b.expired then (some drTierLost, s)
    else if b.marked then (some drPoolEmpty, s)
    else
      let shape := cellShape d.bytes.length
      if b.whole && b.cells.map ptrPool == shape then
        (none, (s.setBody d.pkt none).setStored id (some ⟨id, b.cells, 0, 0, false⟩))
      else
        let s := State.freeCells rqStaging b.cells s
        match s.takeCells false shape with
        | some (ps, s) => (none, (s.setBody d.pkt none).setStored id (some ⟨id, ps, 0, 0, false⟩))
        | none => (some drPoolEmpty, s.setBody d.pkt (some { b with cells := [], marked := true }))

/-- The tier a VOQ stores into (R255): its free space, the VOQ's occupancy there, and the cost of a copy. -/
def State.tierOf (s : State) (q len : Nat) : Nat × Nat × Nat :=
  let x := s.queue q
  if s.voqHeld q || !x.res.isEmpty then (s.resFree, sumOf Copy.len x.res, len)
  else if x.spill || !x.hbm.isEmpty then (s.hbmFree, sumOf Copy.len x.hbm, len)
  else (s.freeOnDie, x.onDieBytes, cellBytes len)

/-- Check 2 (R255) under an admission profile. -/
def dynamicOk (profile : List Byte) (free q cost : Nat) : Bool :=
  q + cost ≤ leAt profile 4 4 * 256 || (q + cost) * 64 ≤ 2 ^ (signedOf 4 (byteAt profile 0) + 6).toNat * free

/-- A VOQ's WRED average brought up to date (R256), in 1/256 byte. An empty queue has been empty since the last update, which came before
an enqueue or found it empty. -/
def State.average (s : State) (x : Queue) (wp : List Byte) : Nat :=
  let avg := if x.copies = 0 then x.avg / 2 ^ ((s.time.elapsed - x.emptyAt) / 2 ^ byteAt wp 49) else x.avg
  let step : Int := ((256 * x.bytes : Nat) : Int) - (avg : Int)
  min (2 ^ 48) ((avg : Int) + step / ((2 ^ (byteAt wp 48 % 16) : Nat) : Int)).toNat

/-- What check 3 finds (R257). -/
inductive WredAns where
  | pass | mark | refuse
  deriving DecidableEq, Repr

/-- Check 3 (R257) for an average in 1/256 byte and a colour: the answer, and the state with the engine's generator drawn. -/
def State.wredCheck (s : State) (engine : Nat) (profile wp : List Byte) (avg colour carried : Nat) : WredAns × State :=
  let lo := leAt wp (16 * colour) 4 * 65536
  let hi := leAt wp (16 * colour + 4) 4 * 65536
  if avg < lo then (.pass, s)
  else if hi ≤ avg then (.refuse, s)
  else
    let r := Config.wredNext (sread (fun _ => s.rdWord R.QMG_WRED_SEED) s.buf.wred engine)
    let s := { s with buf := { s.buf with wred := mput s.buf.wred engine r } }
    if leAt wp (16 * colour + 8) 2 * (avg - lo) * 65536 ≤ r.toNat * (hi - lo) then (.pass, s)
    else if bitAt (byteAt profile 0) 4 && s.on R.QMG_ECN_CFG_en && bitAt carried (64 + s.rd R.QMG_ECN_CFG_ect_bit) then
      (.mark, s)
    else (.refuse, s)

/-- Checks 0 to 3 of R253 on a copy for VOQ `q`: the reason of a refusal, whether the copy is marked CE, and the state with
average and generator updated. -/
def State.admitChecks (s : State) (d : Desc) (dropMirror : Bool) (engine q : Nat) : Option Nat × Bool × State :=
  let x := s.queue q
  let len := d.bytes.length
  let pools := (s.stored (storedOf d.pkt)).map (fun x => x.cells.map ptrPool)
  let profile := s.tdAt tdAdmit (byteAt (s.tdAt tdVoq q d.tag) 0) d.tag
  let tier := s.tierOf q len
  if x.lc ≠ lcUp ∨ d.tag < x.upFrom then (some drDraining, false, s)
  else if (!dropMirror && (pools.getD []).any fun k => s.rd (R.BPM_POOL_w3_hard_limit k) < s.ingUse k) ||
      s.rd R.BPM_DESC_LIMIT_limit ≤ s.ingressDescs (some d.pkt) then (some drPoolEmpty, false, s)
  else if !dynamicOk profile tier.1 tier.2.1 tier.2.2 then (some drThreshold, false, s)
  else
    let wp := s.tdAt tdWred (byteAt profile 1 % 64) d.tag
    let avg := s.average x wp
    let s := s.setQueue q { x with avg := avg, avgAt := s.time.elapsed }
    if !bitAt (byteAt profile 1) 6 then (none, false, s)
    else
      let r := s.wredCheck engine profile wp avg (min (fwdColour d.fwd) 2) d.carried
      match r.1 with
      | .pass => (none, false, r.2)
      | .mark => (none, true, r.2)
      | .refuse => (some drWred, false, r.2)

/-- The index of QMG_REFUSED and QMG_DROP_MIRROR for a reason (R262). -/
def refusedIdx (why : Nat) : Nat :=
  if why = drPoolEmpty then 0 else if why = drThreshold then 1 else if why = drWred then 2 else if why = drDraining then 3 else 4

/-- A refused copy (R259): counted for its VOQ, its ingress port, the device and its reason; one in 2^sample_log2 refusals of
an enabled reason asks for a drop-mirror copy. A refused drop-mirror copy is only counted as lost. -/
def State.refuseCopy (s : State) (d : Desc) (k : CopyKind) (q why : Nat) : List CopyKind × State :=
  match k with
  | .dropMirror _ _ => ([], s.bump R.QMG_DROP_MIRROR_LOST_count)
  | _ =>
    let s := (s.countQueue q (queueSlot why) 1 d.bytes.length d.tag).dropIngress d.port why d.bytes.length d.tag
    let i := refusedIdx why
    let s := (s.bump (R.QMG_REFUSED_count i)).pmuAs 1 0x101 15 63 1 false false
    let s := if k = .primary then s.uncharge d.pkt else s
    if !bitAt (s.rd R.QMG_DROP_MIRROR_reasons) i then ([], s)
    else
      let n := sread (fun _ => 0) s.buf.skips i + 1
      let due := 2 ^ s.rd R.QMG_DROP_MIRROR_sample_log2 ≤ n
      let s := { s with buf := { s.buf with skips := mput s.buf.skips i (if due then 0 else n) } }
      (if due then [.dropMirror (s.rd R.QMG_DROP_MIRROR_session) why] else [], s)

/-- An admitted copy (R250, R258): it takes a name of its stored packet and enters its VOQ; none where no name, no
descriptor (R249) or no page is left. A pointer the mover presents that is rejected drops the copy in its queue with TIER_LOST (R247). -/
def State.admitCopy (s : State) (d : Desc) (k : CopyKind) (q carried : Nat) (mark : Bool) (ptr : Option Nat) : Option State :=
  match (if s.noDesc (some d.pkt) then none else s.takeName (storedOf d.pkt)) with
  | none => none
  | some (name, s) =>
    let carried := if mark then putBits carried (64 + s.rd R.QMG_ECN_CFG_ce_bit) 1 1 else carried
    let c : Copy := ⟨some (storedOf d.pkt), name, q, d.bytes, carried, d.port, d.stamp, d.tag, d.version, d.elapsed % 2 ^ 48,
                     d.poison, none, 0, if k = .primary then some d.pkt else none⟩
    (s.placeWith q c ptr).map fun s =>
      let s := s.countQueue q 0 1 d.bytes.length d.tag
      if mark then
        ((s.bump R.QMG_ECN_MARKED_count).countQueue q 11 1 d.bytes.length d.tag).pmuAs 1 0x102 15 63 1 false false
      else s

/-- A descriptor replaced in the bridge's list, or taken out once all its copies are decided. -/
def State.putDesc (s : State) (d : Desc) (todo : List CopyKind) : State :=
  let rec put : List Desc → List Desc
    | [] => []
    | x :: xs => if x = d then (if todo.isEmpty then xs else { d with todo := todo } :: xs) else x :: put xs
  { s with brg := { s.brg with descs := put s.brg.descs } }

/-- The verdict on a primary copy that a transaction waits for (R217). -/
def State.sendVerdict (s : State) (d : Desc) (k : CopyKind) (why : Option Nat) : State :=
  if d.waits && k = .primary then
    let v : Verdict := ⟨d.pkt, why.isNone, why.getD 0, s.time.elapsed, false⟩
    { s with brg := { s.brg with verdicts := s.brg.verdicts ++ [v] } }.bump R.TXT_VERDICTS_count
  else s

/-- A descriptor whose unit arrived poisoned (R19): no copy is admitted; the packet is dropped with POISON_CONSUMED under its
ingress port. -/
def State.poisonedDesc (s : State) (d : Desc) : State :=
  let s := (s.freeBody d.pkt).dropIngress d.port drPoison d.bytes.length d.tag
  let s := (s.bump R.MIF_POISON_CONSUMED_count).uncharge d.pkt
  (s.sendVerdict d .primary (some drPoison)).putDesc d []

/-- One admission decision on a copy of a descriptor (R252 to R259). -/
def State.decideCopy (s : State) (d : Desc) (k : CopyKind) (rest : List CopyKind) (engine : Nat)
    (ptr : Option Nat) : State :=
  let st := s.storeDesc d
  let target := st.2.copyTo d k
  let s := (st.2.bump R.QMG_DECISIONS_count).pmuAs 1 0x100 15 63 1 false false
  let r := match st.1 with
    | some why => (some why, s)
    | none =>
      let a := s.admitChecks d (match k with | .dropMirror _ _ => true | _ => false) engine target.1
      match a.1 with
      | some why => (some why, a.2.2)
      | none =>
        match a.2.2.admitCopy d k target.1 target.2 a.2.1 ptr with
        | some t => (none, t)
        | none => (some drPoolEmpty, a.2.2)
  let t := match r.1 with
    | some why => r.2.refuseCopy d k target.1 why
    | none => ([], r.2)
  let s := (t.2.sendVerdict d k r.1).putDesc d (rest ++ t.1)
  let s := if (rest ++ t.1).isEmpty then (s.freeBody d.pkt).dropStored (storedOf d.pkt) else s
  s.bufSync

/-- A descriptor the bridge has delivered. -/
def State.takeDesc (s : State) (d : Desc) : State :=
  { s with brg := { s.brg with descs := s.brg.descs.map fun x => if x = d then { x with taken := true } else x } }

/-- ADMISSION_DECISION (R17, R242, R252 to R259, R278, R280, R281): the next copy of a packet's descriptor is decided by an engine.
The copies of a packet are decided in the order primary, mirror, punt, and then drop-mirror copies. `ptr` is the pointer a
mover presents for a copy that goes to a tier, where it is not the stored one. -/
def execAdmissionDecision (id engine : Nat) (ptr : Option Nat) (s : State) : Host.Outcome State Fault Refusal :=
  ok (if s.tdHalted then s
    else
      match s.brg.descs.find? fun d => d.pkt == id with
      | none => s
      | some d =>
        if !s.deliverable d then s
        else
          let s := (s.takeDesc d).bufSync
          let d := { d with taken := true }
          if d.bad then s.poisonedDesc d
          else match d.todo with
            | [] => s.putDesc d []
            | k :: rest => s.decideCopy d k rest engine ptr)

/-! ### Captures, seeds, the audit -/

/-- QUEUE_STATE_CAPTURE (R262): a write of QMG_QSEL captures a VOQ's state. -/
def execQueueStateCapture (fn be val : Nat) (s : State) : Host.Outcome State Fault Refusal :=
  ok (s.hostWrite fn R.QMG_QSEL be true fun s =>
    let s := s.mergeReg R.QMG_QSEL val be
    let q := s.rd R.QMG_QSEL_voq
    let x := s.queue q
    let s := s.wrWord R.QMG_QINFO 0
    let s := s.wr R.QMG_QINFO_profile (byteAt (s.tdNow tdVoq q) 0)
    let s := s.wrBit R.QMG_QINFO_spill x.spill
    let s := s.wrBit R.QMG_QINFO_held (s.voqHeld q)
    let s := s.wrBit R.QMG_QINFO_empty (x.copies == 0)
    let s := s.wr64 R.QMG_QDEPTH_ONDIE_LO_bytes_lo R.QMG_QDEPTH_ONDIE_HI_bytes_hi x.onDieBytes
    let s := s.wr64 R.QMG_QDEPTH_TOTAL_LO_bytes_lo R.QMG_QDEPTH_TOTAL_HI_bytes_hi x.bytes
    (s.wr R.QMG_QAVG_avg (min (x.avg / 65536) (2 ^ 32 - 1))).wr R.QMG_QINFO_valid 1)

/-- WRED_SEED_WRITE (R257, R262): a seed other than 0 reseeds every engine before its next draw. -/
def execWredSeedWrite (fn be val : Nat) (s : State) : Host.Outcome State Fault Refusal :=
  ok (s.hostWrite fn R.QMG_WRED_SEED be false fun s =>
    let t := s.mergeReg R.QMG_WRED_SEED val be
    if t.rd R.QMG_WRED_SEED_seed = 0 then s.lateErr fn 0 R.QMG_WRED_SEED leBadValue false
    else { t with buf := { t.buf with wred := [] } })

/-- AUDIT_START (R248): an audit begins at the next turn boundary; ignored while one runs or waits. start
reads 1 until its end (notes/assumptions/145.md). -/
def execAuditStart (fn be val : Nat) (s : State) : Host.Outcome State Fault Refusal :=
  ok (s.hostWrite fn R.BPM_AUDIT_CTRL be true fun s =>
    if bitAt val 0 && !s.on R.BPM_STATUS_audit_busy then
      ({ s with buf := { s.buf with auditAsk := true } }.wr R.BPM_STATUS_audit_busy 1).wr R.BPM_AUDIT_CTRL_start 1
    else s)

/-- Whether a descriptor reaches a stored packet: a copy on-die, or one still to be decided. -/
def State.describes (s : State) (id : Nat) : Bool :=
  s.undecided id || s.buf.queues.any fun e => e.2.ondie.any fun c => c.stored == some id

/-- The pointers by which descriptors and staging records reach cells: of stored packets, staged bodies, open tiles, and of what the fabric
has brought and reassembly has not passed on yet (R248, R367). -/
def State.reached (s : State) : List Nat :=
  (s.buf.stored.filter fun x => s.describes x.id).flatMap (·.cells) ++ s.buf.staging.flatMap (·.cells) ++
  (s.buf.queues.flatMap fun e => e.2.hst.cell.toList ++ e.2.rst.cell.toList) ++
  s.fab.ins.flatMap fun e => e.2.cells.filterMap (·.ptr) ++ e.2.ptrs.map (·.1)

/-- The cells recorded at the boundary of an audit: those allocated there that no checked pointer reaches (R246, R248). -/
def State.auditBoundary (s : State) : State :=
  if s.buf.auditAsk then
    let lost := (s.buf.cells.map (·.1)).filter fun p => !s.reached.contains p
    let s := s.each s.reached fun p s =>
      match s.ptrFault p false with
      | some k => s.badPtr p k rqAudit
      | none => s
    { s with buf := { s.buf with auditAsk := false, audit := some lost } }
  else s

/-- AUDIT_DONE (R248): every recorded cell that is still allocated and that nothing reached is freed and counted. -/
def execAuditDone (s : State) : Host.Outcome State Fault Refusal :=
  ok (match s.buf.audit with
    | none => s
    | some l =>
      let lost := l.filter fun p => (mget s.buf.cells p).isSome
      let kept := s.buf.stored.filter fun x => s.describes x.id || !x.cells.any fun p => lost.contains p
      let s := { s with buf := { s.buf with stored := kept, audit := none } }
      let s := (s.each lost fun p s => s.freeCell rqAudit p).wr R.BPM_AUDIT_FREED_cells lost.length
      let s := (s.wr R.BPM_LEAKED_cells 0).wr R.BPM_AUDIT_STATUS_done 1
      (s.wr R.BPM_STATUS_audit_busy 0).wr R.BPM_AUDIT_CTRL_start 0)

end Sys2Proof.Machine
end

