-- ==== Sys2Proof/Machine/Schedule.lean ====
section
/-!
DEFINITION. Machine/Schedule.lean: the egress hierarchy (R329, R334 to R346, R353, R354): eligibility, the walk of a dequeue
decision, charging, refill, and the lifecycle of a queue.
-/

namespace Sys2Proof.Machine

/-! ### Activity and eligibility -/

/-- Whether a queue's priority is paused on its port (R341). -/
def State.queuePaused (s : State) (port q : Nat) : Bool :=
  let r := s.node 4 q
  port < 128 && ndPfcEn r && bitAt (s.rd (R.LIF_PFC_STATUS_rx_paused port)) (ndPfcClass r)

/-- Whether a node is within its peak rate (R336). -/
def State.peakOk (s : State) (level i : Nat) : Bool := spPir (s.shaper level i) == 0 || 0 < (s.nodeSt level i).credP

/-- Whether a node is within its committed rate (R336). -/
def State.commitOk (s : State) (level i : Nat) : Bool := spCir (s.shaper level i) != 0 && 0 < (s.nodeSt level i).credC

/-- The egress queues that hold a copy and are on a complete path to a port (R328). -/
def State.heldQueues (s : State) (port : Nat) : List Nat :=
  ((s.buf.queues.filter fun e => voqs ≤ e.1 && 0 < e.2.copies).map fun e => e.1 - voqs).filter fun q => s.queuePort q == some port

/-- Whether a queue is active (R336): it holds a copy, is UP or DRAINING, and is not paused. -/
def State.queueActive (s : State) (port q : Nat) : Bool :=
  let x := s.queue (voqs + q)
  0 < x.copies && (x.lc == lcUp || x.lc == lcDraining) && !s.queuePaused port q

/-- The parents of nodes of a level below the port, each once. -/
def State.parentsOf (s : State) (level : Nat) (l : List Nat) : List Nat := (l.map fun i => ndParent (s.node level i)).eraseDups

/-- The nodes of each level from queue to port that hold a copy below them. -/
def State.heldTree (s : State) (port : Nat) : List (Nat × Nat) :=
  let l4 := s.heldQueues port
  let l3 := s.parentsOf 4 l4
  let l2 := s.parentsOf 3 l3
  let l1 := s.parentsOf 2 l2
  l4.map (fun i => (4, i)) ++ l3.map (fun i => (3, i)) ++ l2.map (fun i => (2, i)) ++ l1.map fun i => (1, i)

/-- The active nodes above some active queues, with these (R336): every node with an attached child that is active and within its peak
rate. -/
def State.activeAbove (s : State) (l4 : List Nat) : List (Nat × Nat) :=
  let up (level : Nat) (l : List Nat) :=
    s.parentsOf level (l.filter fun i => ndAttached (s.node level i) && s.peakOk level i)
  let l3 := up 4 l4
  let l2 := up 3 l3
  let l1 := up 2 l2
  l4.map (fun i => (4, i)) ++ l3.map (fun i => (3, i)) ++ l2.map (fun i => (2, i)) ++ l1.map fun i => (1, i)

/-- The active nodes of a port (R336). -/
def State.activeTree (s : State) (port : Nat) : List (Nat × Nat) :=
  s.activeAbove ((s.heldQueues port).filter fun q => s.queueActive port q)

/-- Whether a port node has an eligible child (R336). -/
def State.portAlive (s : State) (port : Nat) : Bool :=
  (s.activeTree port).any fun e => e.1 == 1 && s.peakOk 1 e.2

/-- Whether a node or queue is active, on a complete path or not (R336): a queue that is on none is never paused (R341). -/
def State.nodeActive (s : State) (level i : Nat) : Bool :=
  if level = 0 then s.portAlive i
  else
    let held := (s.buf.queues.filter fun e => decide (voqs ≤ e.1) && e.2.head.isSome).map fun e => e.1 - voqs
    (s.activeAbove (held.filter fun q => s.queueActive ((s.queuePort q).getD 128) q)).contains (level, i)

/-- Eligibility of an active node in a pass: `x` 0 committed, 1 excess. -/
def State.eligible (s : State) (x level i : Nat) : Bool := s.peakOk level i && (x == 1 || s.commitOk level i)

/-! ### Tags -/

/-- The virtual time of a band of a node in a pass (R337). -/
def NodeSt.time (n : NodeSt) (band x : Nat) : Nat := sread (fun _ => 0) n.vt (2 * band + x)

/-- The virtual times of a node's band at its parent. -/
def State.parentTime (s : State) (level i x : Nat) : Nat :=
  let r := s.node level i
  (s.nodeSt (level - 1) (ndParent r)).time (ndBand r) x

/-- The later of two tags, compared as signed differences modulo 2^64 (R338). -/
def tagMax (a b : Nat) : Nat := if signedOf 64 (a + 2 ^ 64 - b % 2 ^ 64) < 0 then b else a

/-- A node's activity brought up to date (R339): one that held nothing takes the virtual times of its band; one that becomes
eligible in a pass again takes the later of its tag and the virtual time. -/
def State.refreshNode (s : State) (held act : List (Nat × Nat)) (level i : Nat) : State :=
  let n := s.nodeSt level i
  let h := held.contains (level, i)
  let a := act.contains (level, i)
  let ec := a && s.eligible 0 level i
  let ex := a && s.eligible 1 level i
  let vc := s.parentTime level i 0
  let vx := s.parentTime level i 1
  let n := if h && !n.active then { n with tagC := vc, tagX := vx }
    else { n with tagC := if ec && !n.eligC then tagMax n.tagC vc else n.tagC,
                  tagX := if ex && !n.eligX then tagMax n.tagX vx else n.tagX }
  s.setNodeSt level i { n with active := h, eligC := ec, eligX := ex }

/-- Every node of a port that holds a copy below it, or did, brought up to date. -/
def State.refreshPort (s : State) (port : Nat) : State :=
  let held := s.heldTree port
  let act := s.activeTree port
  let old := (s.buf.nodes.filter fun e => e.2.active && 2 ^ 20 ≤ e.1).map fun e => (e.1 / 2 ^ 20, e.1 % 2 ^ 20)
  let gone := old.filter fun e => !held.contains e && ((s.pathUp e.1 e.2).bind (·.getLast?)) == some (0, port)
  s.each (held ++ gone) fun e s => s.refreshNode held act e.1 e.2

/-! ### The decision -/

/-- The child with the smallest tag in a pass, the lowest index of those with it (R337). -/
def State.smallest (s : State) (level x : Nat) (l : List Nat) : Option Nat :=
  let tag (i : Nat) := if x = 0 then (s.nodeSt level i).tagC else (s.nodeSt level i).tagX
  l.foldl (fun best i =>
    match best with
    | none => some i
    | some b =>
      let d := signedOf 64 (tag i + 2 ^ 64 - tag b % 2 ^ 64)
      if d < 0 || (d == 0 && i < b) then some i else best) none

/-- The child a node chooses and the pass (R337): the committed pass first, bands from 7 down. -/
def State.choose (s : State) (act : List (Nat × Nat)) (level i : Nat) : Option (Nat × Nat) :=
  let kids := (act.filter fun e => e.1 == level + 1 && ndParent (s.node (level + 1) e.2) == i).map (·.2)
  ([0, 1].flatMap fun x => ([7, 6, 5, 4, 3, 2, 1, 0] : List Nat).map fun b => (x, b)).findSome? fun xb =>
    let e := kids.filter fun k => s.eligible xb.1 (level + 1) k && ndBand (s.node (level + 1) k) == xb.2
    (s.smallest (level + 1) xb.1 e).map fun k => (k, xb.1)

/-- The virtual time of a chosen child's band set to its tag (R337). -/
def State.advanceTime (s : State) (level i k x : Nat) : State :=
  let b := ndBand (s.node (level + 1) k)
  let n := s.nodeSt level i
  let tag := if x = 0 then (s.nodeSt (level + 1) k).tagC else (s.nodeSt (level + 1) k).tagX
  s.setNodeSt level i { n with vt := mput n.vt (2 * b + x) tag }

/-- The walk from a node down to a queue: the nodes chosen with their passes, the queue last (R337). -/
def State.descend (act : List (Nat × Nat)) : Nat → Nat → Nat → State → Option (List (Nat × Nat × Nat)) × State
  | 0, _, _, s => (some [], s)
  | n + 1, level, i, s =>
    match s.choose act level i with
    | none => (none, s)
    | some (k, x) =>
      let r := State.descend act n (level + 1) k (s.advanceTime level i k x)
      (r.1.map fun p => (level + 1, k, x) :: p, r.2)

/-- The charged length of a copy at a node (R345). -/
def State.chargeLen (s : State) (level i len : Nat) : Nat := ((len : Int) + spAdj (s.shaper level i)).toNat

/-- A node charged for a copy (R345), and below the port its tag in the pass advanced by its weight (R337, R338). -/
def State.charge (s : State) (len level i x : Nat) : State :=
  let n := s.nodeSt level i
  let l := s.chargeLen level i len
  let units : Int := (l * 2 ^ 40 : Nat)
  let n := { n with credP := n.credP - units, credC := if x = 0 && level != 0 then n.credC - units else n.credC }
  if level = 0 then s.setNodeSt level i n
  else
    let w := ndWeight (s.node level i)
    let sum := l * 2 ^ 16 + (if x = 0 then n.remC else n.remX)
    let n := if x = 0 then { n with tagC := (n.tagC + sum / w) % 2 ^ 64, remC := sum % w }
      else { n with tagX := (n.tagX + sum / w) % 2 ^ 64, remX := sum % w }
    s.setNodeSt level i n

/-- The Recipe slot whose bit a copy carries, or the ACTIVE slot where that one is gone (R88). -/
def State.egressVersion (s : State) (c : Copy) : Nat :=
  let has (v : Nat) : Bool := if v = 0 then s.recipe.slotA.isSome else s.recipe.slotB.isSome
  if has c.version then c.version else if s.slotState 0 = 3 then 0 else 1

/-- A dequeued copy crosses to the FD and becomes a packet of the egress section, its header vector rebuilt by egress
extraction (R84, R185). R86 keeps the slot of its version until it has passed. -/
def State.toFdEgress (s : State) (port : Nat) (c : Copy) : State :=
  let v := s.egressVersion c
  match (if v = 0 then s.recipe.slotA else s.recipe.slotB).map (·.recipe) with
  | none => s
  | some r =>
    let start := inForce (sread (fun _ => []) s.fd.starts port) 0 c.tag
    let w := r.parse c.bytes c.len start
    let hv := headerVector r c.bytes c.stamp c.tag c.port v w false c.len (r.startOf start)
    let hv := overlay hv 40 (leBytes 16 c.carried ++ List.replicate 8 0)
    let p : Packet :=
      { id := s.fd.nextId, egress := true, port := port, pipe := s.servedBy port, bytes := c.bytes, arrived := c.len,
        staged := c.len, eop := 0, stamp := c.stamp, tag := c.tag, seq := s.fd.nextId, version := v, inPort := c.port,
        place := .stageWait 0, hv := hv, stack := w.stack, payload := w.payload, emit := 2 ^ w.stack.length - 1, profile := 0,
        scan := none, lookups := [], keyNext := 0, skipTo := none, drop := none, hardDrop := false, results := [],
        txn := none, cls := none, poison := c.poison, copyOf := none, begun := 0, slots := [], elapsed := s.time.elapsed,
        order := 0, bodyBad := false,
        ucode := 0, since := 0 }
    { s with fd := { s.fd with nextId := s.fd.nextId + 1 } }.addPkt p

/-- A copy dequeued from an egress queue: read, counted, charged on its path, released and sent to the FD (R298, R345, R466). -/
def State.serveCopy (s : State) (port q : Nat) (path : List (Nat × Nat × Nat)) (c : Copy) (fault : Option PtrFault) : State :=
  let s := s.each ((0, port, 1) :: path) fun e s => s.charge c.len e.1 e.2.1 e.2.2
  let s := s.countQueue q 1 1 c.len s.time.turn
  let s := s.setQueue q { s.queue q with served := true }
  let s := (s.bump (R.SCH_ENG_w0_decisions (port / 16))).pmuAs 1 0x120 (port / 16) 63 1 false false
  let r := s.readBody c
  (r.2.releaseWith r.1 fault).toFdEgress port r.1

/-- The egress queues on a complete path to a port's node that hold a copy and are flushed (R334, R335). -/
def State.flushedQueues (s : State) (port : Nat) : List Nat :=
  (s.buf.queues.filter fun e =>
    decide (voqs ≤ e.1) && e.2.head.isSome && s.queuePort (e.1 - voqs) == some port && s.flushes e.1).map (·.1)

/-- A decision spent on the flushed queues of a port (R334, R335, R340): their copies are released without transmission, whatever
shaper credit or pause the queues have, and the decision yields nothing (notes/assumptions/144.md). -/
def State.flushPort (s : State) (port : Nat) : State :=
  let s := s.each (s.flushedQueues port) fun q s => (State.nextCopy q ((s.queue q).copies + 1) s).2
  ((s.bump (R.SCH_ENG_w1_empty (port / 16))).refreshPort port).bufSync

/-- DEQUEUE_DECISION (R329, R336 to R340, R345; with R243, R246, R247, R251, R270, R276, R279 to R281, R293, R331, R334, R335):
a decision over a port whose transmit path can accept a packet; a slot without any active port of the engine is idle. `fault` is what the dequeue presents that is not the stored
pointer or name, `upset` what has struck the head copy (R298). -/
def execDequeueDecision (port : Nat) (fault : Option PtrFault) (upset : Option HeadUpset) (s : State) : Host.Outcome State Fault Refusal :=
  ok (if 128 ≤ port || s.tdHalted then s
    else
      let s := s.refreshPort port
      let act := s.activeTree port
      if !(s.flushedQueues port).isEmpty then s.flushPort port else
      let alive (p : Nat) : Bool := s.peakOk 0 p && s.portAlive p
      if !alive port then
        (if (List.range 16).any fun i => alive (port / 16 * 16 + i) then s else s.bump (R.SCH_ENG_w2_idle (port / 16)))
      else
        match State.descend act 4 0 port s with
        | (none, s) => s
        | (some path, s) =>
          let q := voqs + (path.getLast?.map (·.2.1)).getD 0
          let s := (s.upsetQueue q upset).strikeQueue q fault
          let r := State.nextCopy q ((s.queue q).copies + 1) s
          let s := match r.1 with
            | some c => r.2.serveCopy port q path c fault
            | none => r.2.bump (R.SCH_ENG_w1_empty (port / 16))
          (s.refreshPort port).bufSync)

/-! ### Refill -/

/-- The refill interval of a level (R344, R354). -/
def State.refillLog2 (s : State) (level : Nat) : Nat :=
  match level with
  | 0 => s.rd R.SCH_CFG_refill_port | 1 => s.rd R.SCH_CFG_refill_l1 | 2 => s.rd R.SCH_CFG_refill_l2
  | 3 => s.rd R.SCH_CFG_refill_l3 | _ => s.rd R.SCH_CFG_refill_queue

/-- The nodes of a level whose buckets can gain: those with a state, those a transaction has written, and those attached at
reset when shaper profile 0 has been written. -/
def State.refillNodes (s : State) (level : Nat) : List Nat :=
  let a := (s.buf.nodes.filter fun e => e.1 / 2 ^ 20 == level).map fun e => e.1 % 2 ^ 20
  let b := (s.buf.tables.filter fun e => e.1 / 2 ^ 21 == tdLevel level).map fun e => e.1 % 2 ^ 21
  let c := if (s.tdHist tdShaper 0).isEmpty then [] else List.range (if level = 4 then 1024 else 128)
  (a ++ b ++ c).eraseDups

/-- What a bucket at a rate code gains in an interval of 2^i ns, in 2^-40 byte (R344). -/
def refillGain (code i : Nat) : Nat := rate10 code * 2 ^ i * 2 ^ 40 / 80000000000

/-- A bucket after `n` refill instants: limited to its burst (R344). -/
def refilled (credit : Int) (n code burst i : Nat) : Int :=
  min ((burst * 2 ^ 40 : Nat) : Int) (credit + ((n * refillGain code i : Nat) : Int))

/-- The turn in which the interval begins that refill instant `j` of an interval of 2^i ns credits (R344). -/
def State.refillTurn (s : State) (i j : Nat) : Nat :=
  min s.time.turn ((s.time.sysNs + (j - 1) * 2 ^ i - s.time.elapsed) / 2 ^ s.rd R.TBS_TURN_LEN_LOG2_t)

/-- The last refill instants that the contents before each write of a node's record, or of a profile it names, still credit (R353). -/
def State.refillCuts (s : State) (level k i : Nat) : List Nat :=
  let recs := tdDefault (tdLevel level) k :: (s.tdHist (tdLevel level) k).map (·.2)
  let turns := (s.tdHist (tdLevel level) k).map (·.1) ++
    ((recs.map ndProfile).eraseDups).flatMap fun p => (s.tdHist tdShaper p).map (·.1)
  turns.map fun t => ceilDiv (t * 2 ^ s.rd R.TBS_TURN_LEN_LOG2_t + s.time.elapsed - s.time.sysNs) (2 ^ i)

/-- A number put into an ascending list without repeats. -/
def insertNat (x : Nat) : List Nat → List Nat
  | [] => [x]
  | y :: l => if x < y then x :: y :: l else if x = y then y :: l else y :: insertNat x l

/-- A node's buckets over refill instants up to each of some, in order: those before it since the last have one rate and burst (R344). -/
def State.refillNode (s : State) (level k i : Nat) : Nat → List Nat → NodeSt → NodeSt
  | _, [], n => n
  | done, j :: js, n =>
    let τ := s.refillTurn i j
    let r := s.tdAt tdShaper (ndProfile (s.tdAt (tdLevel level) k τ)) τ
    s.refillNode level k i j js { n with credC := refilled n.credC (j - done) (spCir r) (spCbs r) i,
                                         credP := refilled n.credP (j - done) (spPir r) (spPbs r) i }

/-- SHAPER_REFILL (R344, R353): the refill instants of a level since the last ones taken, each with the rate and burst in force at the start
of the interval that it credits. -/
def execShaperRefill (level : Nat) (s : State) : Host.Outcome State Fault Refusal :=
  ok (if 5 ≤ level || s.tdDown then s
    else
      let i := s.refillLog2 level
      let at_ := s.time.elapsed / 2 ^ i
      let last := sread (fun _ => 0) s.buf.rr (100 + level) / 2 ^ i
      if at_ ≤ last then s
      else
        let t : State := { s with buf := { s.buf with rr := mput s.buf.rr (100 + level) (at_ * 2 ^ i) } }
        t.each (s.refillNodes level) fun k t =>
          let cuts := ((s.refillCuts level k i).filter fun j => last < j && j < at_).foldl (fun l j => insertNat j l) [at_]
          t.setNodeSt level k (s.refillNode level k i last cuts (s.nodeSt level k)))

/-- REFILL_INTERVAL_WRITE (R353, R354): SCH_CFG. An interval changes only while no line port is UP. -/
def execRefillIntervalWrite (fn be val : Nat) (s : State) : Host.Outcome State Fault Refusal :=
  ok (s.hostWrite fn R.SCH_CFG be false fun s =>
    let t := s.mergeReg R.SCH_CFG val be
    let same := (List.range 5).all fun k => t.refillLog2 k == s.refillLog2 k
    let portUp := (List.range 128).any fun p => s.rd (R.LIF_PORT_LC_state p) == lcUp
    if !same && portUp then s.lateErr fn 0 R.SCH_CFG leWrongState false
    else if !(List.range 5).all fun k => 6 ≤ t.refillLog2 k && t.refillLog2 k ≤ 14 then s.lateErr fn 0 R.SCH_CFG leBadValue false
    else t.svcUpdate)

/-! ### The lifecycle of a queue -/

/-- The queue that SCH_LC_SEL selects. -/
def State.selected (s : State) : Nat :=
  if s.on R.SCH_LC_SEL_kind then voqs + s.rd R.SCH_LC_SEL_index else s.rd R.SCH_LC_SEL_index

/-- A queue's lifecycle state set; a change raises an INFO event (R505). -/
def State.setQueueLc (s : State) (q st : Nat) : State :=
  let x := s.queue q
  if x.lc = st then s else (s.setQueue q { x with lc := st }).event sevInfo R.SCH_LC

/-- A write of SCH_LC (R334, R503). -/
def State.queueLc (s : State) (fn be : Nat) (enable flush : Bool) : State :=
  s.hostWrite fn R.SCH_LC be true fun s =>
    let q := s.selected
    let x := s.queue q
    let r := lcRequest x.lc x.pend enable (!enable)
    let flush := if x.lc = lcUp && !enable then flush else x.flush
    (s.setQueue q { x with pend := r.2, flush := flush }).setQueueLc q r.1

/-- QUEUE_ENABLE (R334): enable written to SCH_LC. -/
def execQueueEnable (fn be : Nat) (s : State) : Host.Outcome State Fault Refusal := ok (s.queueLc fn be true false)

/-- QUEUE_DISABLE (R334): disable written to SCH_LC; queued copies go on being served. -/
def execQueueDisable (fn be : Nat) (s : State) : Host.Outcome State Fault Refusal := ok (s.queueLc fn be false false)

/-- QUEUE_DISABLE_FLUSH (R334): disable and flush written to SCH_LC; queued copies are released without transmission. -/
def execQueueDisableFlush (fn be : Nat) (s : State) : Host.Outcome State Fault Refusal := ok (s.queueLc fn be false true)

/-- QUEUE_DRAIN_DONE (R334, R504): a DRAINING queue holds no copy in any tier. -/
def execQueueDrainDone (q : Nat) (s : State) : Host.Outcome State Fault Refusal :=
  ok (let x := s.queue q
    if x.lc ≠ lcDraining ∨ x.copies ≠ 0 then s
    else
      let s := (s.setQueue q { x with pend := false, flush := false }).setQueueLc q lcDown
      if x.pend then s.setQueueLc q lcStarting else s)

/-- QUEUE_LC_SELECT (R354): SCH_LC_SEL selects a queue and captures its lifecycle into SCH_LC. -/
def execQueueLcSelect (fn be val : Nat) (s : State) : Host.Outcome State Fault Refusal :=
  ok (s.hostWrite fn R.SCH_LC_SEL be true fun s =>
    let t := s.mergeReg R.SCH_LC_SEL val be
    if !t.on R.SCH_LC_SEL_kind && voqs ≤ t.rd R.SCH_LC_SEL_index then s.lateErr fn 0 R.SCH_LC_SEL leBadValue false
    else
      let x := t.queue t.selected
      ((t.wr R.SCH_LC_state x.lc).wrBit R.SCH_LC_pend_up x.pend).wr R.SCH_LC_valid 1)

/-- A credit in whole bytes, signed, saturating at 32 bits (R354). -/
def wholeBytes (c : Int) : Nat := ofSigned 32 (clampInt (-2147483648) 2147483647 (c / ((2 ^ 40 : Nat) : Int)))

/-- NODE_STATE_CAPTURE (R354): SCH_NSEL captures a node's state. -/
def execNodeStateCapture (fn be val : Nat) (s : State) : Host.Outcome State Fault Refusal :=
  ok (s.hostWrite fn R.SCH_NSEL be true fun s =>
    let t := s.mergeReg R.SCH_NSEL val be
    let level := t.rd R.SCH_NSEL_level
    let i := t.rd R.SCH_NSEL_index
    if levelSize level ≤ i then s.lateErr fn 0 R.SCH_NSEL leBadValue false
    else
      let s := t
      let path := s.pathUp level i
      let port := ((path.bind (·.getLast?)).map (·.2)).getD 128
      let active := s.nodeActive level i
      let s := s.wrWord R.SCH_NINFO 0
      let s := s.wrBit R.SCH_NINFO_active active
      let s := s.wrBit R.SCH_NINFO_cir_ok (level != 0 && active && s.eligible 0 level i)
      let s := s.wrBit R.SCH_NINFO_pir_ok (s.peakOk level i)
      let s := s.wrBit R.SCH_NINFO_paused (level == 4 && s.queuePaused port i)
      let s := s.wrBit R.SCH_NINFO_complete path.isSome
      let s := s.wr R.SCH_NINFO_band (if level = 0 then 0 else ndBand (s.node level i))
      let s := s.wr R.SCH_NCC_bytes (wholeBytes (s.nodeSt level i).credC)
      (s.wr R.SCH_NCP_bytes (wholeBytes (s.nodeSt level i).credP)).wr R.SCH_NINFO_valid 1)

end Sys2Proof.Machine
end

