-- ==== Sys2Proof/Machine/Tiers.lean ====
section
/-!
DEFINITION. Machine/Tiers.lean: the commands of the HBM tier, the reservoir and hold-over (chapter 10): tile reads, the address map
and its partition (R266 to R268), temperature bands (R272), reservoir ports and pages (R283 to R289), hold entries (R290 to R294).
-/

namespace Sys2Proof.Machine

/-! ### Tile reads -/

/-- A copy of a part after a tile of its stream, from stream offset `off`, was read uncorrectable or poisoned (R276): lost when its
descriptor touches the tile, poisoned when only its bytes do. -/
def hitByTile (off : Nat) (c : Copy) : Copy :=
  if c.at_ < off + 512 && off < c.at_ + 48 then { c with lost := some (48 + c.len) }
  else if c.at_ + 48 < off + 512 && off < c.at_ + 48 + c.len then { c with poison := true }
  else c

/-- TILE_READ_RETURN (R276, R283, R287, with R266, R270, R302, R303): tile `tile` of the HBM or reservoir part of queue `q` comes back into
the prefetch buffer: from HBM as the stripe written there, with the bits of `flips` struck by soft errors, which is decoded; from a
reservoir page with or without CXL poison, and with `media` a media-error record that firmware reports. -/
def execTileReadReturn (q : Nat) (res : Bool) (tile : Nat) (flips : List (List Byte)) (cxlPoison media : Bool) (s : State) :
    Host.Outcome State Fault Refusal :=
  let x := s.queue q
  let t := if res then x.rst else x.hst
  let off := 512 * tile
  let inRes := res && off < x.rbase + 2 ^ 20 * x.rpages.length
  let low := if res && !x.rpages.isEmpty then x.rbase else t.base
  ok (if s.tdDown || off < low || t.pos < off + 512 then s
    else
      let s := s.setPrefetch (s.engineOf q) (s.prefetched (s.engineOf q) + 512)
      let r : Bool × State :=
        if inRes then
          match x.rpages[(off - x.rbase) / 2 ^ 20]? with
          | some p => (cxlPoison, (s.onlyIf cxlPoison fun s =>
              (s.bump (R.RSV_PORT_POISON_count p.port)).bump (R.MIF_POISON_SRC_count 1)).onlyIf media fun s =>
                s.event sevErr (R.RSV_PORT_POISON p.port))
          | none => (false, s)
        else
          let p := s.tilePlace (t.address off)
          let r := (s.strikeStripe p.1 p.2 flips).readStripe p.1 p.2
          (r.1.bad, r.2)
      if !r.1 then r.2
      else
        let x := r.2.queue q
        r.2.setQueue q (if res then { x with res := x.res.map (hitByTile off) } else { x with hbm := x.hbm.map (hitByTile off) }))

/-! ### The address map and the temperature bands -/

/-- Whether a version slot declares an HBM table. -/
def State.declaresHbm (s : State) : Bool :=
  [s.recipe.slotA, s.recipe.slotB].any fun m =>
    match m with
    | some m => m.recipe.tables.any fun t => match t.kind with | .exm d => d.hbm | _ => false
    | none => false

/-- Whether the map and the partition can change (R268). -/
def State.mapFree (s : State) : Bool := s.buf.pages.isEmpty && !s.declaresHbm

/-- HBM_MAP_WRITE (R266, R268): HBC_MAP.grain; 3 is no grain. -/
def execHbmMapWrite (fn be val : Nat) (s : State) : Host.Outcome State Fault Refusal :=
  ok (s.hostWrite fn R.HBC_MAP be false fun s =>
    let t := s.mergeReg R.HBC_MAP val be
    if !s.mapFree then s.lateErr fn 0 R.HBC_MAP leWrongState false
    else if t.rd R.HBC_MAP_grain = 3 then s.lateErr fn 0 R.HBC_MAP leBadValue false
    else t)

/-- The pages in each stack that the reservoir page table takes (R283). -/
def State.tablePagesMin (s : State) : Nat := ceilDiv s.pageTable (6 * 16384)

/-- HBM_PART_WRITE (R265, R268): HBC_PART.table_pages. -/
def execHbmPartWrite (fn be val : Nat) (s : State) : Host.Outcome State Fault Refusal :=
  ok (s.hostWrite fn R.HBC_PART be false fun s =>
    let t := s.mergeReg R.HBC_PART val be
    let n := t.rd R.HBC_PART_table_pages
    if !s.mapFree then s.lateErr fn 0 R.HBC_PART leWrongState false
    else if n < s.tablePagesMin ∨ 3250585 < n then s.lateErr fn 0 R.HBC_PART leBadValue false
    else t.setPages [])

/-- HBM_TEMP_BAND_CHANGE (R272): a stack's temperature crosses a band edge, and firmware writes the new set of delays. -/
def execHbmTempBandChange (stack band : Nat) (s : State) : Host.Outcome State Fault Refusal :=
  ok (if 6 ≤ stack || 8 ≤ band || s.tdDown then s
    else s.coreAccess 1 18 fun s => { s with mem := { s.mem with bands := mput s.mem.bands stack band } })

/-- HBM_DELAY_APPLY (R272, R564): the controller applies the set that firmware has written: the effective delays of the stack's channels with
the adjustment of the band they were made for. -/
def execHbmDelayApply (stack : Nat) (s : State) : Host.Outcome State Fault Refusal :=
  ok (if 6 ≤ stack || s.tdDown then s
    else
      let s := s.takeDelays stack ((mget s.mem.bands stack).getD (s.rd (R.HBC_TEMP_band stack)))
      match mget s.mem.bands stack with
      | some b => { s with mem := { s.mem with bands := mdel s.mem.bands stack } }.wr (R.HBC_TEMP_band stack) b
      | none => s)

/-! ### Reservoir ports -/

/-- What follows from a change of a reservoir port: its free pages, RSV_STATUS.ready (R289) and the service stage (R493). -/
def State.resSync (s : State) (n : Nat) : State :=
  let s := s.setResPort n (s.resPort n)
  (s.wrBit R.RSV_STATUS_ready s.holdReady).svcUpdate

/-- A reservoir port's link and fill taken back. -/
def State.resLinkOff (s : State) (n : Nat) : State :=
  let s := (s.wr (R.RSV_PORT_STATUS_link_up n) 0).wr (R.RSV_PORT_STATUS_fill_done n) 0
  s.wr (R.RSV_PORT_STATUS_fill_pct n) 0

/-- The lanes of a reservoir port that enters STARTING take their calibration words (R564). -/
def State.resTrims (s : State) (n : Nat) : State :=
  if s.rd (R.RSV_PORT_LC_state n) = lcStarting then s.takeTrims ((List.range 8).map (· + (288 + 8 * n))) else s

/-- The enable of a reservoir port (R284, R289), by a function's write or by firmware. -/
def State.enableRes (s : State) (n : Nat) : State :=
  let down := s.rd (R.RSV_PORT_LC_state n) == lcDown
  let s := ((s.lcWrite (R.RSV_PORT_LC n) true false).setResPort n { s.resPort n with enabled := true }).resSync n
  s.onlyIf down fun s => s.resTrims n

/-- RSV_PORT_ENABLE (R284, R289): enable written to RSV_PORT_LC_n. -/
def execRsvPortEnable (fn be n : Nat) (s : State) : Host.Outcome State Fault Refusal :=
  ok (if 8 ≤ n then s else s.hostWrite fn (R.RSV_PORT_LC n) be true fun s => s.enableRes n)

/-- RSV_PORT_DISABLE (R284): disable written to RSV_PORT_LC_n. -/
def execRsvPortDisable (fn be n : Nat) (s : State) : Host.Outcome State Fault Refusal :=
  ok (if 8 ≤ n then s
    else s.hostWrite fn (R.RSV_PORT_LC n) be true fun s =>
      let t := s.lcWrite (R.RSV_PORT_LC n) false true
      (t.onlyIf (t.rd (R.RSV_PORT_LC_state n) == lcDown) fun t => t.resLinkOff n).resSync n)

/-- CXL_LINK_TRAINING_DONE (R283, R284): the link of a STARTING port has trained; `pages` is the capacity the device reports. A link
narrower than x4 or slower than 32 GT/s (`usable` clear) leaves the port DOWN. -/
def execCxlLinkTrainingDone (n : Nat) (usable x4 gt32 : Bool) (pages : Nat) (s : State) : Host.Outcome State Fault Refusal :=
  ok (if 8 ≤ n || s.rd (R.RSV_PORT_LC_state n) != lcStarting || s.tdDown then s
    else if !usable then (s.setLc (R.RSV_PORT_LC n) lcDown).resSync n
    else
      let s := (s.wr (R.RSV_PORT_STATUS_link_up n) 1).wrBit (R.RSV_PORT_STATUS_x4 n) x4
      let s := s.wrBit (R.RSV_PORT_STATUS_gt32 n) gt32
      s.wr (R.RSV_PORT_CAP_pages n) (min pages 4194304))

/-- RSV_PORT_FILL_DONE (R284): the background fill ends, the port is UP and its pages are free. -/
def execRsvPortFillDone (n : Nat) (s : State) : Host.Outcome State Fault Refusal :=
  ok (if 8 ≤ n || s.rd (R.RSV_PORT_LC_state n) != lcStarting || !s.on (R.RSV_PORT_STATUS_link_up n) then s
    else
      let s := (s.wr (R.RSV_PORT_STATUS_fill_done n) 1).wr (R.RSV_PORT_STATUS_fill_pct n) 100
      (s.setLc (R.RSV_PORT_LC n) lcUp).resSync n)

/-- RSV_PORT_DRAIN_DONE (R284, R504): a DRAINING port holds no page in use. -/
def execRsvPortDrainDone (n : Nat) (s : State) : Host.Outcome State Fault Refusal :=
  ok (if 8 ≤ n || s.rd (R.RSV_PORT_LC_state n) != lcDraining || !(s.resPort n).used.isEmpty then s
    else (((s.resLinkOff n).lcEndDrain (R.RSV_PORT_LC n)).resSync n).resTrims n)

/-- The copies of a reservoir part with bytes on a lost page are lost (R288). -/
def loseCopies (x : Queue) : Queue :=
  let gone (off : Nat) : Bool :=
    match x.rpages[(off - x.rbase) / 2 ^ 20]? with | some p => x.rbase ≤ off && p.lost | none => false
  { x with res := x.res.map fun c => if gone c.at_ || gone (c.at_ + 47 + c.len) then { c with lost := some c.len } else c }

/-- RSV_PORT_LOSS (R288, R508): a port leaves service: its pages in use are lost, the port is DOWN. -/
def execRsvPortLoss (n : Nat) (s : State) : Host.Outcome State Fault Refusal :=
  ok (if 8 ≤ n || s.rd (R.RSV_PORT_LC_state n) == lcDown then s
    else
      let lose (p : ResPage) : ResPage := if p.port = n then { p with lost := true } else p
      let queues := s.buf.queues.map fun e => (e.1, loseCopies { e.2 with rpages := e.2.rpages.map lose })
      let s := s.count (R.RSV_PORT_LOST_count n) (s.resPort n).used.length
      let epoch := sread (fun _ => 0) s.svc.rsvEpoch n + 1
      let s := { s with buf := { s.buf with queues := queues }, svc := { s.svc with rsvEpoch := mput s.svc.rsvEpoch n epoch } }
      let s := ((s.wr (lcPend (R.RSV_PORT_LC n)) 0).setLc (R.RSV_PORT_LC n) lcDown).resLinkOff n
      ((s.setResPort n { s.resPort n with used := [] }).event sevErr (R.RSV_PORT_LOST n)).resSync n)

/-- The stripes of a queue's first full staging pages read by the reservoir mover (R276, R286): those poisoned leave their mark. -/
def State.moveTiles (s : State) (q : Nat) (t : Stream) : State :=
  s.each (List.range 2048) fun i s =>
    let off := t.base + 512 * i
    let p := s.tilePlace (t.address off)
    let r := s.readStripe p.1 p.2
    if r.1.bad then
      let x := r.2.queue q
      r.2.setQueue q { x with res := x.res.map (hitByTile off) }
    else r.2

/-- The records of the reservoir page that a queue's part takes at stream offset `base` and of the page before it (R283). -/
def State.recordPage (s : State) (q base : Nat) (p : ResPage) (before : Option ResPage) : State :=
  let stats (b : Nat) : Nat × Nat × Nat :=
    let cs := (s.queue q).res.filter fun c => decide (b ≤ c.at_) && decide (c.at_ < b + 2 ^ 20)
    (cs.length, sumOf Copy.len cs, ((cs.getLast?).map (·.ageBase)).getD 0)
  let r := stats base
  let s := s.putPageRecord p q (2 ^ 32 - 1) r.1 r.2.1 r.2.2
  match before with
  | some b => let r := stats (base - 2 ^ 20); s.putPageRecord b q (s.resIndex p) r.1 r.2.1 r.2.2
  | none => s

/-- RESERVOIR_PAGE_COPY (R283, R285, R286): a queue's first 64 full staging pages pass into a reservoir page and are freed; the page
table records the page. -/
def execReservoirPageCopy (q : Nat) (s : State) : Host.Outcome State Fault Refusal :=
  let x := s.queue q
  ok (if s.tdDown || x.rst.pages.length < 64 || x.rst.pos < x.rst.base + 2 ^ 20 then s
    else
      match s.takeResPage with
      | none => s
      | some (p, s) =>
        let t := x.rst
        let s := (s.moveTiles q t).recordPage q t.base p x.rpages.getLast?
        let s := s.freePages (t.pages.take 64)
        s.setQueue q { s.queue q with rpages := x.rpages ++ [p], rbase := if x.rpages.isEmpty then t.base else x.rbase,
                                      rst := { t with pages := t.pages.drop 64, base := t.base + 2 ^ 20 } })

/-! ### Hold entries -/

/-- The state of a hold entry. -/
def State.holdState (s : State) (e : Nat) : Nat := s.rd (R.RSV_HOLD_w0_state e)

/-- A hold entry's state set, with its INFO event (R505). -/
def State.setHold (s : State) (e st : Nat) : State := s.setLc (R.RSV_HOLD_w0 e) st

/-- The fields of a hold entry. -/
def State.fillHold (s : State) (e device : Nat) (portOk : Bool) (port tcs limit rate : Nat) (auto : Bool) : State :=
  let s := (s.wr (R.RSV_HOLD_w0_device e) device).wrBit (R.RSV_HOLD_w0_port_valid e) portOk
  let s := (s.wr (R.RSV_HOLD_w0_port e) port).wr (R.RSV_HOLD_w0_tc_mask e) tcs
  let s := (s.wr (R.RSV_HOLD_w1_limit_s e) limit).wr (R.RSV_HOLD_w1_rate e) rate
  s.wrBit (R.RSV_HOLD_w0_auto e) auto

/-- Whether another entry that is not DOWN names the same destination and classes (R291). -/
def State.holdTwin (s : State) (e device : Nat) (portOk : Bool) (port tcs : Nat) : Bool :=
  (List.range 64).any fun o => o != e && s.holdState o != lcDown && s.rd (R.RSV_HOLD_w0_device o) == device &&
    s.on (R.RSV_HOLD_w0_port_valid o) == portOk && s.rd (R.RSV_HOLD_w0_port o) == port && s.rd (R.RSV_HOLD_w0_tc_mask o) == tcs

/-- The scheduled hold or release of an entry. -/
def State.holdEvent (s : State) (e : SchedEv) : Option SlotEv := s.schedFind fun x => x == e

/-- A scheduled hold withdrawn: the entry is DOWN again (R52, R53, R291). -/
def State.withdrawHold (s : State) (e : Nat) (x : SlotEv) (status : Nat) : State :=
  ((s.schedFree x).setHold e lcDown).completeOpt x.cmd status

/-- A scheduled release withdrawn: the entry holds on. -/
def State.withdrawRelease (s : State) (e : Nat) (x : SlotEv) (status : Nat) : State :=
  { s.schedFree x with buf := { s.buf with plans := mdel s.buf.plans e } }.completeOpt x.cmd status

/-- HOLD_DEST (R289 to R291). -/
def execHoldDest (c : Cmd) (entry device : Nat) (portOk : Bool) (port tcMask limit turn : Nat) (s : State) :
    Host.Outcome State Fault Refusal :=
  ok (s.command c 0x28 (rightOf 0x28) [] fun s =>
    let st := s.holdState entry
    if 64 ≤ entry ∨ 512 ≤ device ∨ 128 ≤ port ∨ tcMask = 0 ∨ 256 ≤ tcMask ∨ limit = 0 ∨ 600 < limit then s.complete c stInvalid
    else if s.tdDown then s.complete c stPeerUnavailable
    else if st = lcDown && s.holdTwin entry device portOk port tcMask then s.complete c stInvalid
    else if !s.holdReady then s.complete c stNotReady
    else if st = lcStarting ∨ st = lcUp then s.complete c stDone
    else if st = lcDraining then (s.wr (R.RSV_HOLD_w0_pend_up entry) 1).complete c stDone
    else
      let ans := s.schedCheck (.holdStart entry) c.system turn
      if ans ≠ stDone then s.complete c ans
      else
        let s := (s.fillHold entry device portOk port tcMask limit 0 false).setHold entry lcStarting
        (s.schedTake (.holdStart entry) turn c.system (cmdFn c) (some c)).accepted c turn)

/-- HOLD_DEST_CANCEL (R52, R291): HOLD_DEST with cancel set. -/
def execHoldDestCancel (c : Cmd) (entry : Nat) (s : State) : Host.Outcome State Fault Refusal :=
  ok (s.command c 0x28 (rightOf 0x28) [] fun s =>
    if 64 ≤ entry then s.complete c stInvalid
    else if s.tdDown then s.complete c stPeerUnavailable
    else
      match s.holdEvent (.holdStart entry) with
      | none => s.complete c stNotFound
      | some x => if s.inTime x.turn then (s.withdrawHold entry x stAborted).complete c stDone else s.complete c stLate)

/-- RELEASE_DEST (R291). -/
def execReleaseDest (c : Cmd) (entry turn rate : Nat) (s : State) : Host.Outcome State Fault Refusal :=
  ok (s.command c 0x29 (rightOf 0x29) [] fun s =>
    let st := s.holdState entry
    if 64 ≤ entry ∨ rate < 10 ∨ 32000 < rate then s.complete c stInvalid
    else if s.tdDown then s.complete c stPeerUnavailable
    else if st = lcDown then s.complete c stDone
    else if st = lcDraining then (s.wr (R.RSV_HOLD_w0_pend_up entry) 0).complete c stDone
    else if st = lcStarting then
      match s.holdEvent (.holdStart entry) with
      | none => (s.setHold entry lcDown).complete c stDone
      | some x => if s.inTime x.turn then (s.withdrawHold entry x stAborted).complete c stDone else s.complete c stLate
    else if (s.holdEvent (.holdStop entry)).isSome then s.complete c stBusyRetry
    else
      let ans := s.schedCheck (.holdStop entry) c.system turn
      if ans ≠ stDone then s.complete c ans
      else
        let s := { s with buf := { s.buf with plans := mput s.buf.plans entry rate } }
        (s.schedTake (.holdStop entry) turn c.system (cmdFn c) (some c)).accepted c turn)

/-- RELEASE_DEST_CANCEL (R52, R291): RELEASE_DEST with cancel set. -/
def execReleaseDestCancel (c : Cmd) (entry : Nat) (s : State) : Host.Outcome State Fault Refusal :=
  ok (s.command c 0x29 (rightOf 0x29) [] fun s =>
    if 64 ≤ entry then s.complete c stInvalid
    else if s.tdDown then s.complete c stPeerUnavailable
    else
      match s.holdEvent (.holdStop entry) with
      | none => s.complete c stNotFound
      | some x => if s.inTime x.turn then (s.withdrawRelease entry x stAborted).complete c stDone else s.complete c stLate)

/-! ### Hold-over at the boundaries -/

/-- A VOQ's balance returned to its destination (R369): whole units are handed back, the rest is given up. -/
def State.returnBalance (s : State) (q : Nat) : State :=
  let x := s.queue q
  if x.balance = 0 then s
  else
    let n := sread (fun _ => 0) s.fab.returns q + x.balance / 2048
    { s.setQueue q { x with balance := 0 } with fab := { s.fab with returns := swrite (fun _ => 0) s.fab.returns q n } }

/-- The VOQs with a state that an entry covers. -/
def State.coveredVoqs (s : State) (e : Nat) : List Nat := (s.buf.queues.filter fun x => s.covers e x.1).map fun x => x.1

/-- A hold begins (R292, R293, R369). -/
def State.startHold (s : State) (e : Nat) : State :=
  let was := (s.coveredVoqs e).filter fun q => s.voqHeld q
  let s := s.setHold e lcUp
  s.each (s.coveredVoqs e) fun q s =>
    let x := s.queue q
    let limit := s.rd (R.RSV_HOLD_w1_limit_s e)
    (s.setQueue q { x with holdLimit := if was.contains q then max x.holdLimit limit else limit }).returnBalance q

/-- A release begins at a rate (R292, R293): VOQs with nothing in the reservoir leave at once. -/
def State.startRelease (s : State) (e rate : Nat) : State :=
  let s := (s.wr (R.RSV_HOLD_w1_rate e) rate).setHold e lcDraining
  let s := { s with buf := { s.buf with plans := mdel s.buf.plans e, paid := mput s.buf.paid e (0, s.time.elapsed) } }
  let s := s.each (s.coveredVoqs e) fun q s =>
    let x := s.queue q
    s.onlyIf (x.res.isEmpty && !s.voqHeld q) fun s => s.setQueue q { x with holdEnd := some s.time.elapsed }
  s.holdDrained e

/-- A scheduled hold fires (R291, R292). -/
def State.fireHoldStart (s : State) (x : SlotEv) (e : Nat) : State :=
  ((s.schedFree x).startHold e).completeOpt x.cmd stDone

/-- A scheduled release fires. -/
def State.fireHoldStop (s : State) (x : SlotEv) (e : Nat) : State :=
  ((s.schedFree x).startRelease e (sread (fun _ => 0) s.buf.plans e)).completeOpt x.cmd stDone

/-- The lowest DOWN entry. -/
def State.freeHold (s : State) : Option Nat := firstIdx 64 fun e => s.holdState e == lcDown

/-- An automatic hold of an unreachable device (R294). Where NOT_READY would apply the entry is filled and an INFO event raised all the
same, but it does not hold, and the miss is counted. -/
def State.autoHold (s : State) (d : Nat) : State :=
  match s.freeHold with
  | some e =>
    let s := s.fillHold e d false 0 (s.rd R.RSV_AUTO_CFG_tc_mask) (s.rd R.RSV_AUTO_CFG_limit_s) 0 true
    if s.holdReady then s.startHold e
    else (s.bump R.RSV_AUTO_MISSED_count).event sevInfo (R.RSV_HOLD_w0 e)
  | none => s.bump R.RSV_AUTO_MISSED_count

/-- Whether a device has been reachable for 1 s. -/
def State.backForSecond (s : State) (d : Nat) : Bool :=
  match mget s.buf.since d with | some t => t + 1000000000 ≤ s.time.elapsed | none => false

/-- What hold-over does at every turn boundary (R291, R294): an entry with a pending hold restarts, automatic holds are taken and
released. -/
def State.holdBoundary (s : State) : State :=
  let s := s.each (List.range 64) fun e s =>
    s.onlyIf (s.holdState e == lcStarting && (s.holdEvent (.holdStart e)).isNone) fun s => s.startHold e
  let due := s.buf.auto
  let s := { s with buf := { s.buf with auto := [] } }.each due fun d s => s.autoHold d
  s.each (List.range 64) fun e s =>
    s.onlyIf (s.on R.RSV_AUTO_CFG_auto_release && s.holdState e == lcUp && s.on (R.RSV_HOLD_w0_auto e) &&
        s.backForSecond (s.rd (R.RSV_HOLD_w0_device e)))
      fun s => s.startRelease e (10 * s.rd R.RSV_AUTO_CFG_rate_gbps)

end Sys2Proof.Machine
end

