-- ==== Sys2Proof/Machine/Fabric.lean ====
section
/-!
DEFINITION. Machine/Fabric.lean: fabric links, cells and streams (R355 to R368, R373, R375, R378 to R384, R389 to R391): the
encoding of a cell, link states and error counters, reachability, the spray sets, and the operations the fabric's commands share.
-/

namespace Sys2Proof.Machine

/-! ### Cells -/

/-- Cell size, payload and spray weight of a generation (R355). -/
def cellLen (gen : Nat) : Nat := match gen with | 0 => 128 | 1 => 256 | _ => 512
def cellMax (gen : Nat) : Nat := cellLen gen - 16
def sprayWeight (gen : Nat) : Nat := match gen with | 0 => 7 | 1 => 15 | _ => 31

/-- The cell types of R359. -/
def ceUnicast : Nat := 0
def ceMulticast : Nat := 1
def ceControl : Nat := 2
def ceExchange : Nat := 3
def ceVoid : Nat := 6
def ceIdle : Nat := 7

/-- One step of a CRC of `w` bits with a polynomial, most significant bit first. -/
def crcMsb (w poly c : Nat) : Nat := if c / 2 ^ (w - 1) % 2 = 1 then (c * 2 % 2 ^ w) ^^^ poly else c * 2 % 2 ^ w

/-- One byte of such a CRC. -/
def crcMsbByte (w poly c b : Nat) : Nat := (List.range 8).foldl (fun c _ => crcMsb w poly c) (c ^^^ (b * 2 ^ (w - 8)))

/-- The pcrc of payload bytes and the hcrc of header bytes (R359). -/
def crc16 (bs : List Byte) : Nat := bs.foldl (fun c b => crcMsbByte 16 0x1021 c b.toNat) 0xFFFF
def crc8 (bs : List Byte) : Nat := bs.foldl (fun c b => crcMsbByte 8 0x07 c b.toNat) 0

/-- The bytes of a cell, with a type, in the slot of a link of a generation, with the credits it returns (R359). -/
def Cell.encodeAs (c : Cell) (kind gen dcr ccr : Nat) : List Byte :=
  let dest := if c.kind = ceMulticast then c.dest % 2 ^ 16 else c.dest % 2 ^ 11 * 32
  let n := gen * 2 ^ 126 + kind * 2 ^ 123 + bit01 c.poison * 2 ^ 122 + dest * 2 ^ 106 + c.src % 2 ^ 11 * 2 ^ 95 +
    c.tc % 8 * 2 ^ 92 + c.seq % 2 ^ 20 * 2 ^ 72 + c.payload.length * 2 ^ 63 + (c.pstart.getD 0x1FF) * 2 ^ 54 + dcr * 2 ^ 42 +
    ccr * 2 ^ 30 + crc16 c.payload * 2 ^ 14
  let h := (beBytes 16 n).take 15
  h ++ [BitVec.ofNat 8 (crc8 h)] ++ slice (c.payload ++ List.replicate (cellMax gen) 0) 0 (cellMax gen)

/-- The bytes of a cell under its own type. -/
def Cell.encode (c : Cell) (gen dcr ccr : Nat) : List Byte := c.encodeAs c.kind gen dcr ccr

/-- A VOID cell in place of a dropped one (R393, R394): its other header fields the same, no payload. -/
def Cell.void (c : Cell) (gen dcr ccr : Nat) : List Byte :=
  { c with payload := [], pstart := none, poison := false }.encodeAs ceVoid gen dcr ccr

/-- The lane marker of a generation with a count (R356). -/
def markerBytes (gen count : Nat) : List Byte :=
  [0x5A, 0x3C, 0xC3, 0xA5, 0x96, 0x69, 0x0F, 0xF0, BitVec.ofNat 8 gen] ++ beBytes 3 (count % 2 ^ 24) ++ List.replicate (cellLen gen - 12) 0

/-- Whether the bytes of a slot are a lane marker of a generation (R356). -/
def isMarker (gen : Nat) (slot : List Byte) : Bool := slot == markerBytes gen (beAt slot 9 3)

/-- What a received slot holds: a cell with the credits it returns, or nothing that can be used (R359, R360). -/
def decodeCell (gen : Nat) (bs : List Byte) : Option (Cell × Nat × Nat) :=
  let h := beNat (slice bs 0 16)
  let kind := bitsAt h 123 3
  let plen := bitsAt h 63 9
  let payload := slice bs 16 plen
  let mc := kind = ceMulticast
  let dest := if mc then bitsAt h 106 16 else bitsAt h 111 11
  let src := bitsAt h 95 11
  if crc8 (slice bs 0 15) ≠ h % 256 ∨ payload.length ≠ plen ∨ cellMax gen < plen ∨ crc16 payload ≠ bitsAt h 14 16 ∨
      kind = 4 ∨ kind = 5 ∨ bitsAt h 126 2 ≠ gen ∨ (!mc && 511 < dest) ∨ 511 < src then none
  else
    let p := bitsAt h 54 9
    some (⟨kind, bitAt h 122, dest, src, bitsAt h 92 3, bitsAt h 72 20, if p = 0x1FF then none else some p, payload, none⟩,
          bitsAt h 42 12, bitsAt h 30 12)

/-- An idle cell. -/
def idleCell (src : Nat) : Cell := ⟨ceIdle, false, 0, src, 0, 0, none, [], none⟩

/-! ### Links -/

/-- A link nothing has happened to. -/
def LinkSt.idle : LinkSt :=
  { hits := 0, misses := 0, heard := false, acked := false, wasUp := false, lastHello := 0, sentHello := 0, msgs := [], ctl := [],
    queue := [], skipped := false, dcrOut := 0, dcrDue := 0, dcrIn := 0, ccrOut := 0, ccrDue := 0, ccrIn := 0, good := 0, sent := 0,
    discards := 0, statusAt := 0, lowSince := none, downAt := none, mseq := 0, reach := 0, reachAt := 0, slot := 0, sinceCtl := 0,
    relayed := false, inPeriod := 0, marks := 0 }

/-- A link. -/
def State.link (s : State) (l : Nat) : LinkSt := sread (fun _ => LinkSt.idle) s.fab.links l

/-- The state with a link set. -/
def State.setLink (s : State) (l : Nat) (x : LinkSt) : State :=
  { s with fab := { s.fab with links := mput s.fab.links l x } }

/-- The lifecycle state of a link, its generation, and this device's number. -/
def State.linkState (s : State) (l : Nat) : Nat := s.rd (R.FAB_LINK_LC_state l)
def State.linkGen (s : State) (l : Nat) : Nat := s.rd (R.FAB_LINK_CFG_gen l)
def State.self (s : State) : Nat := s.rd R.FAB_CFG_device

/-- Whether a link is UP and not isolated (R373): it carries control. -/
def State.linkOpen (s : State) (l : Nat) : Bool := s.linkState l == lcUp && !s.on (R.FAB_LINK_STATUS_isolated l)

/-- The links of the device. -/
def allLinks : List Nat := List.range 160

/-- The bundle of a link in board mesh; link 159 serves its bundle while a link of it is isolated or DOWN (R389). -/
def State.bundleOf (s : State) (l : Nat) : Option Nat :=
  if l < 159 then (if bitAt (s.rd R.FAB_MESH_CFG_valid) (l / 53) then some (l / 53) else none)
  else
    let k := s.rd R.FAB_MESH_CFG_spare_bundle
    if k = 3 ∨ !bitAt (s.rd R.FAB_MESH_CFG_valid) k then none
    else if (List.range 53).any fun i => s.linkState (53 * k + i) == lcDown || s.on (R.FAB_LINK_STATUS_isolated (53 * k + i)) then some k
    else none

/-- The peer device of a bundle (FAB_MESH_PEERS). -/
def State.meshPeer (s : State) (k : Nat) : Nat := s.rd ⟨R.FAB_MESH_PEERS, 9 * k, 9⟩

/-- Whether a link can carry traffic where it is wired. -/
def State.linkWired (s : State) (l : Nat) : Bool := !s.on R.FAB_CFG_mesh || (s.bundleOf l).isSome

/-- The links that carry data to a device (R366), and those that carry control to it (R378). -/
def State.spraySet (s : State) (d : Nat) : List Nat :=
  allLinks.filter fun l => s.linkOpen l && !s.on (R.FAB_LINK_STATUS_degraded l) && s.linkWired l && bitAt (s.link l).reach d
def State.ctlSet (s : State) (d : Nat) : List Nat :=
  allLinks.filter fun l => s.linkOpen l && s.linkWired l && bitAt (s.link l).reach d

/-- The links that carry multicast (R375). -/
def State.mcastSet (s : State) : List Nat :=
  allLinks.filter fun l => s.linkOpen l && !s.on (R.FAB_LINK_STATUS_degraded l) && s.linkWired l

/-- Whether a device is reachable (R373). -/
def State.reachable (s : State) (d : Nat) : Bool := d < 512 && bitAt (s.rd (R.FAB_REACH_devices (d / 32))) (d % 32)

/-- The feature bits a device advertises (R365). -/
def State.features (s : State) (d : Nat) : Nat := sread (fun _ => 0) s.fab.feats d
def ftTimed : Nat := 0
def ftGroups : Nat := 1
def ftRemote : Nat := 2
def ftReport : Nat := 3

/-- The shares of the spray sets forgotten: the sets have changed. -/
def State.newSets (s : State) : State :=
  let s := { s with fab := { s.fab with shares := [] } }
  s.each allLinks fun l s => s.wrBit (R.FAB_LINK_STATUS_in_spray l)
    (s.linkOpen l && !s.on (R.FAB_LINK_STATUS_degraded l) && s.linkWired l && (s.link l).reach != 0)

/-! ### Reachability -/

/-- A device becomes unreachable (R294, R369, R373, R387, R508). -/
def State.losePeer (s : State) (d : Nat) : State :=
  let queues := s.buf.queues.map fun e => (e.1, if e.1 < voqs ∧ voqDevice e.1 = d then { e.2 with balance := 0 } else e.2)
  let held := bitAt (s.rd (⟨R.RSV_AUTO_HOLD (d / 32), 0, 32⟩)) (d % 32)
  let s := { s with buf := { s.buf with queues := queues, since := mdel s.buf.since d,
                                        auto := if held then s.buf.auto ++ [d] else s.buf.auto } }
  let gone := s.fab.remotes.filter fun r => r.device == d && !r.done
  let epoch := sread (fun _ => 0) s.svc.remoteEpoch d + 1
  let s := { s with svc := { s.svc with remoteEpoch := mput s.svc.remoteEpoch d epoch } }
  let s := { s with fab := { s.fab with lostAt := mput s.fab.lostAt d s.time.elapsed, reports := mdel s.fab.reports d,
                                        remotes := s.fab.remotes.filter fun r => r.device != d || r.done } }
  let s := s.each gone fun r s => s.complete r.cmd stPeerUnavailable
  s.event sevInfo (R.FAB_REACH (d / 32))

/-- A device becomes reachable. -/
def State.findPeer (s : State) (d : Nat) : State :=
  let s := { s with buf := { s.buf with since := mput s.buf.since d s.time.elapsed, auto := s.buf.auto.erase d } }
  { s with fab := { s.fab with lostAt := mdel s.fab.lostAt d } }.event sevInfo (R.FAB_REACH (d / 32))

/-- FAB_REACH brought in line with the links, and what follows for each device whose reachability changes (R373). -/
def State.reachSync (s : State) : State :=
  let all := allLinks.foldl (fun m l => if s.linkOpen l && s.linkWired l then m ||| (s.link l).reach else m) 0
  let s := s.each (List.range 16) fun w s =>
    let was := s.rd (R.FAB_REACH_devices w)
    let now := bitsAt all (32 * w) 32
    if was = now then s
    else
      let s := s.wr (R.FAB_REACH_devices w) now
      s.each (List.range 32) fun b s =>
        if bitAt was b && !bitAt now b then s.losePeer (32 * w + b)
        else if !bitAt was b && bitAt now b then s.findPeer (32 * w + b)
        else s
  s.newSets

/-! ### Spraying -/

/-- What a link has carried for a key (a device, or 512 + a device for control), in parts of its weight (R366). -/
def State.share (s : State) (key l : Nat) : Nat := sread (fun _ => 0) s.fab.shares (key * 160 + l)

/-- The link of a set with the smallest share, the lowest with it. -/
def State.leastShare (s : State) (key : Nat) (set : List Nat) : Option Nat :=
  set.foldl (fun best l =>
    match best with | none => some l | some b => if s.share key l < s.share key b then some l else best) none

/-- Bytes added to a link's share: 3,255 is 31 x 15 x 7. -/
def State.addShare (s : State) (key l bytes : Nat) : State :=
  { s with fab := { s.fab with shares := mput s.fab.shares (key * 160 + l) (s.share key l + bytes * (3255 / sprayWeight (s.linkGen l))) } }

/-- A data cell put behind a link's queue; from 64 cells the link is skipped until fewer than 32 are left (R366). -/
def State.queueCell (s : State) (l : Nat) (c : Cell) : State :=
  let x := s.link l
  s.setLink l { x with queue := x.queue ++ [c], skipped := x.skipped || 64 ≤ x.queue.length + 1 }

/-- A link's data cells towards a peer device in board mesh (R390). -/
def State.backlog (s : State) (d : Nat) : Nat := sumOf (fun l => (s.link l).queue.length) (s.spraySet d)

/-- The device a cell for a device goes to next (R390): itself, or in board mesh a third device while its bundle's backlog is
above relay_wm and the indirect share is not used up. -/
def State.nextHop (s : State) (d : Nat) : Nat :=
  if !s.on R.FAB_CFG_mesh || s.backlog d ≤ s.rd R.FAB_MESH_CFG_relay_wm then d
  else
    let n := sread (fun _ => (0, 0)) s.fab.indirect d
    if 1024 * s.rd R.FAB_MESH_CFG_indirect_pct ≤ 100 * n.2 then d
    else
      let third := ((List.range 3).filter fun k => bitAt (s.rd R.FAB_MESH_CFG_valid) k).map fun k => s.meshPeer k
      let third := (third.filter fun c => c != d && !(s.spraySet c).isEmpty).eraseDups
      (third.foldl (fun best c =>
        match best with | none => some c | some b => if s.backlog c < s.backlog b then some c else best) none).getD d

/-- The cell towards a device counted for the indirect share of 1,024 (R390). -/
def State.countHop (s : State) (d : Nat) (indirect : Bool) : State :=
  if !s.on R.FAB_CFG_mesh then s
  else
    let n := sread (fun _ => (0, 0)) s.fab.indirect d
    let m := if 1024 ≤ n.1 + 1 then (0, 0) else (n.1 + 1, n.2 + bit01 indirect)
    { s with fab := { s.fab with indirect := mput s.fab.indirect d m } }

/-! ### Outgoing streams -/

/-- An outgoing stream. -/
def OutStream.idle : OutStream := ⟨0, [], [], 160⟩
def State.outStream (s : State) (k : Nat) : OutStream := sread (fun _ => OutStream.idle) s.fab.outs k
def State.setOut (s : State) (k : Nat) (x : OutStream) : State := { s with fab := { s.fab with outs := mput s.fab.outs k x } }

/-- The key of a group's multicast stream. -/
def mcastKey (g : Nat) : Nat := 2 ^ 16 + g

/-- The first `n` bytes of a stream in a cell (R359, R361), and the stream without them. -/
def OutStream.cut (o : OutStream) (kind dest src seq n : Nat) : Cell × OutStream :=
  let inside := o.marks.filter fun m => match m.off with | some p => decide (p < n) | none => true
  let starts := inside.filterMap fun m => m.off
  let oldest := inside.foldl (fun b m => match b with | none => some m.tag | some t => some (min t m.tag)) none
  let c : Cell := { kind := kind, poison := inside.any (·.poison), dest := dest, src := src, tc := (inside.head?.map (·.tc)).getD 0,
                    seq := seq, pstart := starts.head?, payload := o.bytes.take n, oldest := oldest }
  let marks := (o.marks.filter fun m => n < m.stop).map fun m =>
    { m with off := match m.off with | some p => if p < n then none else some (p - n) | none => none, stop := m.stop - n }
  (c, { o with bytes := o.bytes.drop n, marks := marks, seq := (o.seq + 1) % 2 ^ 20 })

/-- A cell of a unicast stream cut for a link and put behind its queue. -/
def State.sendData (s : State) (d l n : Nat) : State :=
  let hop := s.nextHop d
  let r := (s.outStream d).cut ceUnicast d s.self (s.outStream d).seq n
  (((s.setOut d r.2).addShare hop l (cellLen (s.linkGen l))).countHop d (hop != d)).queueCell l r.1

/-- The full cells that a unicast stream's bytes make, each to the link with the smallest share that is not skipped (R362, R366). -/
def State.fillCells (d : Nat) : Nat → State → State
  | 0, s => s
  | n + 1, s =>
    let hop := s.nextHop d
    match s.leastShare hop ((s.spraySet hop).filter fun l => !(s.link l).skipped) with
    | none => s
    | some l =>
      let m := cellMax (s.linkGen l)
      if (s.outStream d).bytes.length < m then s else State.fillCells d n (s.sendData d l m)

/-- The full cells of every unicast stream, once a link is skipped no more (R366). -/
def State.fillStreams (s : State) : State :=
  s.each ((s.fab.outs.map (·.1)).filter fun d => d < 512) fun d s =>
    State.fillCells d ((s.outStream d).bytes.length / 112 + 1) s

/-- The link of a group (R375). -/
def State.groupLink (s : State) (g : Nat) : Option Nat :=
  let set := s.mcastSet
  if set.isEmpty then none else set[crc32c (leBytes 4 0 ++ leBytes 2 s.self ++ leBytes 2 g) % set.length]?

/-- Whether a group's stream stands where a copy begins. -/
def State.atCopy (s : State) (g : Nat) : Bool :=
  match (s.outStream (mcastKey g)).marks with | m :: _ => m.off == some 0 | [] => true

/-- The link that a group's next cell takes: chosen anew where a copy begins (R375). -/
def State.nextGroupLink (s : State) (g : Nat) : Option Nat :=
  if s.atCopy g then s.groupLink g else some (s.outStream (mcastKey g)).link

/-- The bytes left of the copy under way, where the group moves to another link behind it (R375). -/
def State.groupStop (s : State) (g : Nat) : Option Nat :=
  let o := s.outStream (mcastKey g)
  if s.atCopy g || s.groupLink g == some o.link then none else (o.marks.head?).map (·.stop)

/-- The bytes of a group's next cell on a link, and whether they are all there now (R362, R375). -/
def State.groupBytes (s : State) (g l : Nat) : Nat × Bool :=
  let m := cellMax (s.linkGen l)
  let have_ := (s.outStream (mcastKey g)).bytes.length
  match s.groupStop g with
  | some n => (min n m, n ≤ have_)
  | none => (min have_ m, m ≤ have_)

/-- A multicast cell cut for a link from a group's stream. -/
def State.cutGroup (s : State) (g l : Nat) : Cell × State :=
  let o := s.outStream (mcastKey g)
  let x := s.link l
  let r := o.cut ceMulticast g s.self x.mseq (min o.bytes.length (s.groupBytes g l).1)
  (r.1, (s.setOut (mcastKey g) { r.2 with link := l }).setLink l { x with mseq := (x.mseq + 1) % 2 ^ 20 })

/-- The full cells that a group's bytes make, queued on their link (R362, R375). -/
def State.sendGroup (g : Nat) : Nat → State → State
  | 0, s => s
  | n + 1, s =>
    match s.nextGroupLink g with
    | none => s
    | some l =>
      if !(s.groupBytes g l).2 then s
      else
        let r := s.cutGroup g l
        State.sendGroup g n (if s.linkState l = lcDown then r.2 else r.2.queueCell l r.1)

/-! ### Errors and isolation -/

/-- Control messages assigned to links (R378, R383): each to the link with the smallest share of those that reach its device; those
that no link reaches wait, and FAB_CTL_STUCK says how many. -/
def State.spreadCtl (s : State) : State :=
  let ms := s.fab.outbox
  let s := { s with fab := { s.fab with outbox := [] } }
  let s := s.each ms fun m s =>
    match s.leastShare (512 + m.dest) (s.ctlSet m.dest) with
    | some l =>
      let x := s.link l
      (s.setLink l { x with ctl := x.ctl ++ [m] }).addShare (512 + m.dest) l (cellLen (s.linkGen l))
    | none => { s with fab := { s.fab with outbox := s.fab.outbox ++ [m] } }
  s.wr R.FAB_CTL_STUCK_cells (min 4096 s.fab.outbox.length)

/-- What waits on a link moves to other links (R383): data cells within their device's spray set, to links whose cells hold them
(notes/assumptions/202.md), control messages to links that carry control. -/
def State.moveQueue (s : State) (l : Nat) (ctl : Bool) : State :=
  let x := s.link l
  let s := s.setLink l { x with queue := [], skipped := false, ctl := if ctl then [] else x.ctl }
  let s := s.each x.queue fun c s =>
    let fits (m : Nat) : Bool := c.payload.length ≤ cellMax (s.linkGen m)
    let target := if c.kind = ceMulticast then (s.groupLink c.dest).filter fits
      else s.leastShare c.dest ((s.spraySet c.dest).filter fits)
    match target with
    | some m => (s.queueCell m c).addShare c.dest m (cellLen (s.linkGen m))
    | none => s
  if !ctl then s
  else
    let s := s.count (R.FAB_LINK_CTLMOVED_count l) x.ctl.length
    let s := { s with fab := { s.fab with outbox := x.ctl ++ s.fab.outbox } }.spreadCtl
    s.onlyIf (!s.fab.outbox.isEmpty && !x.ctl.isEmpty) fun s => s.event sevCrit R.FAB_CTL_STUCK

/-- Links degraded, isolated or DOWN after having been UP (R384). -/
def State.badLinks (s : State) : Nat :=
  (allLinks.filter fun l => (s.link l).wasUp && (s.linkState l == lcDown || s.on (R.FAB_LINK_STATUS_degraded l) ||
    s.on (R.FAB_LINK_STATUS_isolated l))).length

/-- The ERR event when the bad links come to outnumber the spares (R384). -/
def State.spareCheck (s : State) (was : Nat) : State :=
  s.onlyIf (was ≤ s.rd R.FAB_SPARE_CFG_spares && s.rd R.FAB_SPARE_CFG_spares < s.badLinks) fun s => s.event sevErr R.FAB_SPARE_CFG

/-- A link is isolated (R382, R383): it goes to DRAINING, and what waits on it moves. -/
def State.isolate (s : State) (l : Nat) : State :=
  let was := s.badLinks
  let s := (s.wr (R.FAB_LINK_STATUS_isolated l) 1).event sevErr (R.FAB_LINK_STATUS l)
  let s := s.setLc (R.FAB_LINK_LC l) lcDraining
  ((s.moveQueue l true).reachSync).spareCheck was

/-- A link is degraded (R382): it leaves every data spray set. -/
def State.degrade (s : State) (l : Nat) : State :=
  let was := s.badLinks
  let s := (s.wr (R.FAB_LINK_STATUS_degraded l) 1).event sevErr (R.FAB_LINK_STATUS l)
  ((s.newSets).moveQueue l false).spareCheck was

/-- The error counters of a link set, and what their limits cause (R381, R382). -/
def State.setErrors (s : State) (l rec_ tec : Nat) : State :=
  let s := (s.wr (R.FAB_LINK_ERR_rec l) (min 255 rec_)).wr (R.FAB_LINK_ERR_tec l) (min 255 tec)
  if s.linkState l ≠ lcUp then s
  else
    let most := max (min 255 rec_) (min 255 tec)
    let s := if s.rd R.FAB_ERR_CFG_isolate ≤ most then s.isolate l
      else if s.rd R.FAB_ERR_CFG_degrade ≤ most && !s.on (R.FAB_LINK_STATUS_degraded l) then s.degrade l
      else s
    let x := s.link l
    let low := s.on (R.FAB_LINK_STATUS_degraded l) && most < s.rd R.FAB_ERR_CFG_recover
    s.setLink l { x with lowSince := if low then some (x.lowSince.getD s.time.elapsed) else none }

/-- A cell received intact (R381). -/
def State.goodCell (s : State) (l : Nat) : State :=
  let x := s.link l
  let s := s.setLink l { x with good := (x.good + 1) % 256 }
  if x.good = 255 then s.setErrors l (s.rd (R.FAB_LINK_ERR_rec l) - 1) (s.rd (R.FAB_LINK_ERR_tec l)) else s

/-- A cell discarded on receive (R360, R381). -/
def State.badCell (s : State) (l : Nat) : State :=
  let x := s.link l
  let s := (s.setLink l { x with discards := x.discards + 1 }).bump (R.FAB_LINK_RXDISC_count l)
  s.setErrors l (s.rd (R.FAB_LINK_ERR_rec l) + 8) (s.rd (R.FAB_LINK_ERR_tec l))

/-- A link begins in STARTING (R357, R377, R382, R564): its counters and credits start anew. -/
def State.startLink (s : State) (l : Nat) : State :=
  if s.linkState l ≠ lcStarting then s
  else
    let x := s.link l
    let s := (s.takeTrims [128 + l]).wrWord (R.FAB_LINK_STATUS l) 0
    let s := s.wrWord (R.FAB_LINK_ERR l) 0
    s.setLink l { LinkSt.idle with wasUp := x.wasUp, mseq := x.mseq }

/-! ### Known peers (R531) -/

/-- FWS_PEER_RANGE and FWS_PEER_ACC brought in line with the known peers; fabric elements announce no range. -/
def State.peerSync (s : State) : State :=
  let lv := s.fab.peers.map fun e => e.2.level
  let dv := s.fab.peers.filter fun e => e.1 < 2048
  let s := s.wr R.FWS_PEER_RANGE_min_level (match lv with | [] => 0 | x :: xs => xs.foldl min x)
  let s := s.wr R.FWS_PEER_RANGE_max_level (lv.foldl max 0)
  let s := s.wr R.FWS_PEER_ACC_acc_min (dv.foldl (fun n e => max n e.2.least) 0)
  s.wr R.FWS_PEER_ACC_acc_max (dv.foldl (fun n e => min n e.2.most) 0xFFFF)

end Sys2Proof.Machine
end

