-- ==== Sys2Proof/Machine/FabricTx.lean ====
section
/-!
DEFINITION. Machine/FabricTx.lean: the sending side of the fabric (R292, R294, R342, R361, R362, R369, R372, R374, R375, R378 to
R380): the visit of a VOQ, the hand-over of copies to the device itself, and the cells of a link.
-/

namespace Sys2Proof.Machine

/-! ### Copies for this device -/

/-- A copy's packet kept on-die for egress: its stored packet in egress use, or cells taken for one that comes from a tier or from
the fabric (R240, R243); a copy for which no cell is found stays without. -/
def State.landCopy (s : State) (c : Copy) : Copy × State :=
  match c.stored with
  | some id => (c, s.toEgress id)
  | none =>
    match s.takeCells true (cellShape c.len) with
    | some (ps, s) =>
      let id := reasmOf s.fab.nextCopy
      let s := { s with fab := { s.fab with nextCopy := s.fab.nextCopy + 1 } }.setStored id (some ⟨id, ps, 1, 1, true⟩)
      ({ c with stored := some id, name := 0 }, s)
    | none => (c, s)

/-- A further copy of a stored packet under its next owner name (R250); none when it would be the 65th, or no descriptor is free. -/
def State.twin (s : State) (c : Copy) : Option (Copy × State) :=
  if s.noDesc none then none else
  match c.stored with
  | some id => (s.takeName id).map fun r => ({ c with name := r.1, acct := none }, r.2)
  | none => some ({ c with acct := none }, s)

/-- The local member ports of a group for a tag, ascending (R374). -/
def State.members (s : State) (g τ : Nat) : List Nat :=
  let r := s.tdAt tdMembers g τ
  (List.range 128).filter fun p => bitAt (byteAt r (p / 8)) (p % 8)

/-- The copies of a packet for the members of a group, named in their order, the first keeping its name; none for a member that no
owner name is left for (R250, R374). -/
def State.nameCopies (c : Copy) : List Nat → State → List (Nat × Option Copy) × State
  | [], s => ([], s)
  | p :: ps, s =>
    match s.twin c with
    | some (d, t) => let r := State.nameCopies c ps t; ((p, some d) :: r.1, r.2)
    | none => let r := State.nameCopies c ps s; ((p, none) :: r.1, r.2)

/-- A copy for this device enters the egress hierarchy, a multicast one once for each local member in their order; the copy of a
member that no owner name or no descriptor is left for is refused (R243, R250, R372, R374). `ptr` is the pointer the spill mover presents
for the first copy (R247). -/
def State.toSelf (s : State) (c : Copy) (ptr : Option Nat) : State :=
  let rec_ := c.carried % 2 ^ 64
  let lead := if fwdMcast rec_ then ((s.members (fwdGroup rec_) c.tag).head?).getD 0 else fwdPort rec_
  if s.noDesc none then (s.dropQueue (voqs + s.egressQueue lead (fwdTc rec_) c) drPoolEmpty c.len).release c else
  let r := s.landCopy c
  if !fwdMcast rec_ then r.2.enqueueEgress (fwdPort rec_) (fwdTc rec_) r.1 ptr
  else
    match r.2.members (fwdGroup rec_) c.tag with
    | [] => r.2.release r.1
    | p :: ps =>
      let n := State.nameCopies r.1 ps r.2
      n.2.each ((p, some r.1) :: n.1) fun (e : Nat × Option Copy) s =>
        match e.2 with
        | some d => s.enqueueEgress e.1 (fwdTc rec_) d (if e.1 = p then ptr else none)
        | none => s.dropQueue (voqs + s.egressQueue e.1 (fwdTc rec_) c) drPoolEmpty c.len

/-! ### Copies for other devices -/

/-- Whether a copy goes out in prefix format 1 (R365): a group's always does on the elements' fabric. -/
def State.timed (s : State) (d : Nat) : Bool := bitAt (s.features d) ftTimed

/-- The bytes of a copy in a stream: its prefix and its stored bytes (R361, R365). -/
def streamBytes (c : Copy) (timed : Bool) : List Byte :=
  if timed then leBytes 16 c.carried ++ leBytes 2 c.len ++ [BitVec.ofNat 8 (c.port % 128)] ++ leBytes 5 c.stamp ++ c.bytes
  else leBytes 8 c.carried ++ leBytes 2 c.len ++ [BitVec.ofNat 8 (c.port % 128), 0, 0, 0, 0, 0] ++ c.bytes

/-- A copy appended to an outgoing stream. -/
def State.append (s : State) (k : Nat) (c : Copy) (timed : Bool) : State :=
  let o := s.outStream k
  let b := streamBytes c timed
  let m : OutMark := ⟨some o.bytes.length, o.bytes.length + b.length, c.poison, fwdTc (c.carried % 2 ^ 64), c.tag⟩
  s.setOut k { o with bytes := o.bytes ++ b, marks := o.marks ++ [m] }

/-- A copy sent to one device. -/
def State.toDevice (s : State) (d : Nat) (c : Copy) : State :=
  let s := s.append d c (s.timed d)
  s.fillCells d ((s.outStream d).bytes.length / 112 + 1)

/-- The member devices of a group for a tag (R374). -/
def State.memberDevices (s : State) (g τ : Nat) : List Nat :=
  let r := s.tdAt tdGroup g τ
  (List.range 512).filter fun d => bitAt (byteAt r (d / 8)) (d % 8)

/-- A multicast copy sent to the members on other devices (R374, R375): one stream of the group, or in board mesh one unicast stream
copy to each. -/
def State.toGroup (s : State) (g : Nat) (c : Copy) : State :=
  let ds := (s.memberDevices g c.tag).filter fun d => d != s.self
  if ds.isEmpty then s
  else if s.on R.FAB_CFG_mesh then
    s.each ds fun d s =>
      if 4095 < g && !bitAt (s.features d) ftGroups then s.bump R.FAB_MC_UNREACHED_count else s.toDevice d c
  else State.sendGroup g (c.len + 24) (s.append (mcastKey g) c true)

/-! ### The visit of a VOQ -/

/-- The stream bytes a VOQ's copy costs (R369). -/
def State.copyCost (s : State) (q : Nat) (c : Copy) : Nat :=
  c.len + (if voqDevice q = s.self || s.timed (voqDevice q) then 24 else 16)

/-- Bytes granted to a source for a port and class that have come in (R371, R372). -/
def State.cameIn (s : State) (port tc src bytes : Nat) : State :=
  let k := (port * 8 + tc) * 512 + src
  { s with fab := { s.fab with granted := swrite (fun _ => 0) s.fab.granted k (sread (fun _ => 0) s.fab.granted k - bytes) } }

/-- A copy leaves its VOQ: counted (R466), its packet's PFC charge ends (R407), and it goes to its destination. What the device's own
generators granted for it has come in as it leaves (R372). A copy that leaves the device is read (R298); `fault` is what its read or release meets. -/
def State.sendCopy (s : State) (q : Nat) (c : Copy) (fault : Option PtrFault) : State :=
  let s := s.countQueue q 1 1 c.len s.time.turn
  let s := s.setQueue q { s.queue q with served := true, balance := (s.queue q).balance - s.copyCost q c }
  let s := match c.acct with | some id => s.uncharge id | none => s
  let s := s.onlyIf (voqDevice q == s.self) fun s => s.cameIn (voqPort q) (q % 8) s.self (s.copyCost q c)
  let c := { c with acct := none }
  let rec_ := c.carried % 2 ^ 64
  let mover := match fault with | some (.mover p) => some p | _ => none
  if fwdMcast rec_ then
    let others := ((s.memberDevices (fwdGroup rec_) c.tag).filter fun d => d != s.self).length
    let r := s.readBodyIf (others != 0) c
    let s := r.2.toGroup (fwdGroup rec_) r.1
    if (s.memberDevices (fwdGroup rec_) c.tag).contains s.self then s.toSelf r.1 mover else s.releaseWith r.1 fault
  else if voqDevice q = s.self then s.toSelf c mover
  else
    let r := s.readBody c
    (r.2.toDevice (voqDevice q) r.1).releaseWith r.1 fault

/-- The release credit of a hold entry in bytes x 2^16, brought up to date: the release rate, no more than one visit's worth (R292). -/
def State.releaseCredit (s : State) (e : Nat) : Int :=
  let p := sread (fun _ => ((0 : Int), s.time.elapsed)) s.buf.paid e
  let gain : Nat := (s.time.elapsed - p.2) * s.rd (R.RSV_HOLD_w1_rate e) * 2 ^ 16 / 80
  min (2048 * 65536) (p.1 + (gain : Int))

/-- A releasing VOQ's copy charged to its entry (R292). -/
def State.payRelease (s : State) (e bytes : Nat) : State :=
  let c := s.releaseCredit e - ((65536 * bytes : Nat) : Int)
  { s with buf := { s.buf with paid := mput s.buf.paid e (c, s.time.elapsed) } }

/-- The releasing entry through whose shaper a VOQ is served. -/
def State.releasing (s : State) (q : Nat) : Option Nat :=
  if s.voqHeld q ∨ (s.queue q).res.isEmpty then none else (s.coveredBy q lcDraining).head?

/-- The copies of one visit (R292, R293, R342): copies that have aged out, are flushed or cannot be read (R247) are dropped on the way and
take no credit. `fault` is what the first copy sent meets. -/
def State.visit (q : Nat) : Nat → Nat → Option PtrFault → State → State
  | 0, _, _, s => s
  | n + 1, sent, fault, s =>
    match (s.queue q).head with
    | none => s
    | some c =>
      match s.headDrop q c with
      | some (why, bytes) =>
        match s.popHead q with
        | some (c, t) => State.visit q n sent fault (t.dropHead q c why bytes)
        | none => s
      | none =>
        let entry := s.releasing q
        let slow : Bool := match entry with | some e => decide (s.releaseCredit e ≤ 0) | none => false
        if 2048 ≤ sent ∨ (s.queue q).balance < s.copyCost q c ∨ slow then s
        else
          match s.popHead q, s.readFails c none with
          | some (c, t), some (p, k) => State.visit q n sent fault ((t.badPtr p k rqDequeue).dropHead q c drTierLost c.len)
          | some (c, t), none =>
            let t := match entry with | some e => t.payRelease e c.len | none => t
            State.visit q n (sent + c.len) none (t.sendCopy q c fault)
          | none, _ => s

/-- A VOQ towards a device that is not reachable, of a class no hold covers: its copies are dropped (R294). -/
def State.dropAll (q : Nat) : Nat → State → State
  | 0, s => s
  | n + 1, s =>
    match s.popHead q with
    | none => s
    | some (c, t) =>
      let d := match s.headDrop q c with | some d => d | none => (drUnreachable, c.len)
      State.dropAll q n (t.dropHead q c d.1 d.2)

/-- Whether a VOQ's destination can be reached: itself, or over the fabric. -/
def State.voqReachable (s : State) (q : Nat) : Bool := voqDevice q == s.self || s.reachable (voqDevice q)

/-- Whether a VOQ is ready (R342): it holds a copy and the credit for its head copy, is UP or DRAINING and is not held; a releasing one
has release credit as well (R292). -/
def State.voqReady (s : State) (q : Nat) : Bool :=
  let x := s.queue q
  match x.head with
  | none => false
  | some c =>
    decide (s.copyCost q c ≤ x.balance) && (x.lc == lcUp || x.lc == lcDraining) && !s.voqHeld q &&
      match s.releasing q with | some e => decide (0 < s.releaseCredit e) | none => true

/-- The key under which State keeps where the selector's round robin of a class goes on. -/
def rrClass (tc : Nat) : Nat := 200 + tc

/-- The ready VOQ that the selector serves next (R342): of the highest class; within it the first at or behind the place where its round
robin goes on, or else the lowest. -/
def State.nextVoq (s : State) : Option Nat :=
  let ready := (s.buf.queues.map (·.1)).filter fun q => q < voqs && s.voqReady q
  ([7, 6, 5, 4, 3, 2, 1, 0] : List Nat).findSome? fun tc =>
    let l := ready.filter fun q => q % 8 == tc
    let from_ := sread (fun _ => 0) s.buf.rr (rrClass tc)
    let least (l : List Nat) : Option Nat := l.foldl (fun b q => match b with | none => some q | some m => some (min m q)) none
    match least (l.filter fun q => from_ ≤ q) with | some q => some q | none => least l

/-- Whether the selector comes to a VOQ now: it is the next ready one, or is not ready and only drops what it holds. -/
def State.selects (s : State) (q : Nat) : Bool := !s.voqReady q || s.nextVoq == some q

/-- VOQ_VISIT (R247, R292 to R294, R298, R342, R361, R369, R372): the selector visits a VOQ, where it comes to it (notes/assumptions/198.md). A
held VOQ is not served, a releasing one whose destination is unreachable pauses, and any other towards an unreachable device drops its
copies. -/
def execVoqVisit (v : VoqTurn) (s : State) : Host.Outcome State Fault Refusal :=
  let q := v.q
  let x := s.queue q
  ok (if voqs ≤ q || s.tdHalted || x.copies == 0 || s.voqHeld q || !(x.lc == lcUp || x.lc == lcDraining) then s
    else if !s.voqReachable q then
      (if (s.releasing q).isSome then s else (State.dropAll q x.copies s).bufSync)
    else
      match x.head with
      | none => s
      | some c =>
        if (x.balance < s.copyCost q c && !s.flushes q) || !s.selects q then s
        else
          let s : State := { s with buf := { s.buf with rr := mput s.buf.rr (rrClass (q % 8)) (q + 1) } }
          let s := (s.bump R.SCH_VOQ_VISITS_count).pmuAs 1 0x121 15 63 1 false false
          (State.visit q (x.copies + 1) 0 v.fault ((s.upsetQueue q v.upset).strikeQueue q v.fault)).bufSync)

/-! ### The cells of a link -/

/-- The credits a cell returns (R359), taken off those due. -/
def State.takeCredits (s : State) (l : Nat) : (Nat × Nat) × State :=
  let x := s.link l
  let d := min 4095 x.dcrDue
  let c := min 4095 x.ccrDue
  ((d, c), s.setLink l { x with dcrDue := x.dcrDue - d, ccrDue := x.ccrDue - c, dcrOut := (x.dcrOut + d) % 2 ^ 16,
                                ccrOut := (x.ccrOut + c) % 2 ^ 16 })

/-- The bytes of a slot leave the link. -/
def State.emitCells (s : State) (l : Nat) (bs : List (List Byte)) : State := s.each bs fun b s => s.emit (.cell l b)

/-- Before the first of 256 cells a link sends a lane marker (R356). -/
def State.sendMarker (s : State) (l : Nat) : State :=
  let x := s.link l
  let t := s.setLink l { x with inPeriod := (x.inPeriod + 1) % 256, marks := if x.inPeriod = 0 then (x.marks + 1) % 2 ^ 24 else x.marks }
  if x.inPeriod = 0 then t.emit (.cell l (markerBytes (s.linkGen l) x.marks)) else t

/-- A cell is sent on a link (R359, R381, R392 to R394). -/
def State.putCell (s : State) (l : Nat) (c : Cell) : State :=
  let gen := s.linkGen l
  let cr := s.takeCredits l
  let s := cr.2
  let x := s.link l
  let s := s.setLink l { x with sent := (x.sent + 1) % 256, slot := (x.slot + 1) % 50 }
  let s := s.onlyIf (x.sent == 255) fun s => s.setErrors l (s.rd (R.FAB_LINK_ERR_rec l)) (s.rd (R.FAB_LINK_ERR_tec l) - 1)
  let s := s.onlyIf (c.kind != ceIdle) fun s => s.pmuAs 1 0x118 15 63 1 false false
  let b := c.encode gen cr.1.1 cr.1.2
  if c.kind = ceIdle then s.emit (.cell l b)
  else
    let u := diceLink l
    let a := s.diceDraw u
    match a.1 with
    | .reorder => a.2.diceHold u b
    | .drop =>
      let r := a.2.diceRelease u
      r.2.emitCells l (c.void gen cr.1.1 cr.1.2 :: r.1)
    | .corrupt =>
      let r := a.2.diceRelease u
      r.2.emitCells l (a.2.diceCorrupt u 15 b :: r.1)
    | .pass =>
      let r := a.2.diceRelease u
      r.2.emitCells l (b :: r.1)

/-- The next control cell of a link (R377, R380): messages of the link first, then by sub-priority. -/
def State.controlCell (s : State) (l : Nat) : Option (Cell × State) :=
  let x := s.link l
  match x.msgs with
  | m :: ms =>
    let dest := if s.on (R.FAB_LINK_STATUS_peer_device l) then s.rd (R.FAB_LINK_STATUS_peer l) else 0
    some (⟨ceControl, false, dest, s.self, 7, 0, none, m, none⟩, s.setLink l { x with msgs := ms })
  | [] =>
    let top := x.ctl.foldl (fun m c => max m c.sub) 0
    (x.ctl.find? fun c => c.sub == top).map fun m =>
      let q := sread (fun _ => 0) s.fab.ctlSeq m.dest
      let s := { s with fab := { s.fab with ctlSeq := mput s.fab.ctlSeq m.dest ((q + 1) % 2 ^ 20) } }
      (⟨m.kind, false, m.dest, s.self, m.sub, q, none, m.body, none⟩, s.setLink l { x with ctl := x.ctl.erase m })

/-- The stream whose last bytes a link with nothing queued closes into a cell: that of the lowest device (R362). -/
def State.openStream (s : State) (l : Nat) : Option Nat :=
  (s.fab.outs.find? fun e => e.1 < 512 && !e.2.bytes.isEmpty && (s.spraySet (s.nextHop e.1)).contains l).map (·.1)

/-- The lowest group whose last bytes the link closes into a cell. -/
def State.openGroup (s : State) (l : Nat) : Option Nat :=
  (s.fab.outs.find? fun e => 2 ^ 16 ≤ e.1 && !e.2.bytes.isEmpty && s.nextGroupLink (e.1 - 2 ^ 16) == some l).map fun e => e.1 - 2 ^ 16

/-- The next data cell of a link (R362, R366, R391): relayed cells take turns with the device's own. -/
def State.dataCell (s : State) (l : Nat) : Option (Cell × State) :=
  let x := s.link l
  let k := (s.bundleOf l).getD 3
  let relayed := (if s.on R.FAB_CFG_mesh then sread (fun _ => []) s.fab.relay k else []).dropWhile fun c =>
    cellMax (s.linkGen l) < c.payload.length
  let own : Option (Cell × State) :=
    match x.queue with
    | c :: r =>
      let t := s.setLink l { x with queue := r, skipped := x.skipped && 32 ≤ r.length, relayed := true }
      some (c, if x.skipped && r.length < 32 then t.fillStreams else t)
    | [] =>
      match (if s.linkState l = lcUp then s.openStream l else none) with
      | none =>
        match (if s.linkState l = lcUp then s.openGroup l else none) with
        | some g =>
          let c := s.cutGroup g l
          some (c.1, c.2.setLink l { c.2.link l with relayed := true })
        | none => none
      | some d =>
        let o := s.outStream d
        let c := o.cut ceUnicast d s.self o.seq (min o.bytes.length (cellMax (s.linkGen l)))
        let hop := s.nextHop d
        some (c.1, (((s.setOut d c.2).addShare hop l (cellLen (s.linkGen l))).countHop d (hop != d)).setLink l { x with relayed := true })
  match relayed, own with
  | c :: r, none => some (c, { s.setLink l { x with relayed := false } with fab := { s.fab with relay := mput s.fab.relay k r } })
  | c :: r, some o =>
    if x.relayed then some (c, { s with fab := { s.fab with relay := mput s.fab.relay k r, links := mput s.fab.links l { x with relayed := false } } })
    else some o
  | [], o => o

/-- CELL_TRANSMIT (R355, R357, R362, R366, R378 to R380): the next slot of a link, behind a lane marker where one is due (R356). One slot in 50 is the control class's, which is also
served ahead of data in one slot of ctl_div; with nothing waiting an idle cell goes out. -/
def execCellTransmit (l : Nat) (s : State) : Host.Outcome State Fault Refusal :=
  ok (if 160 ≤ l || s.linkState l == lcDown || s.tdStill then s
    else
      let s := (s.sendMarker l).spreadCtl
      let x := s.link l
      let first := x.slot == 0 || s.rd R.FAB_CTL_CFG_ctl_div ≤ x.sinceCtl + 1
      let data := if s.linkState l = lcStarting then none else s.dataCell l
      let ctl := s.controlCell l
      let note (t : State) (n : Nat) : State := t.setLink l { t.link l with sinceCtl := n }
      match ctl, data with
      | some c, some d => if first then (note c.2 0).putCell l c.1 else (note d.2 (x.sinceCtl + 1)).putCell l d.1
      | some c, none => (note c.2 0).putCell l c.1
      | none, some d => (note d.2 (x.sinceCtl + 1)).putCell l d.1
      | none, none => (note s (x.sinceCtl + 1)).putCell l (idleCell s.self))

end Sys2Proof.Machine
end

