-- ==== Sys2Proof/Machine/FabricRx.lean ====
section
/-!
DEFINITION. Machine/FabricRx.lean: the receiving side of the fabric (R84, R87, R88, R359, R360, R363, R364, R367, R368, R374 to R376,
R391, R394): cells, the reorder window, reassembly and tag reports.
-/

namespace Sys2Proof.Machine

/-! ### Incoming streams -/

/-- The keys of incoming streams: data of a source, control of a source, the numbers of (link, source), the bytes of (group, source). -/
def inData (src : Nat) : Nat := src
def inCtl (src : Nat) : Nat := 512 + src
def inLink (l src : Nat) : Nat := 2 ^ 16 + l * 512 + src
def inGroup (g src : Nat) : Nat := 2 ^ 26 + g * 512 + src

/-- An incoming stream. -/
def InStream.idle : InStream := ⟨0, [], [], [], false, false, [], 0⟩
def State.inStream (s : State) (k : Nat) : InStream := sread (fun _ => InStream.idle) s.fab.ins k
def State.setIn (s : State) (k : Nat) (x : InStream) : State := { s with fab := { s.fab with ins := mput s.fab.ins k x } }

/-- The distance of a sequence number ahead of the next expected one (R363, R367). -/
def ahead (next seq : Nat) : Nat := (seq + 2 ^ 20 - next % 2 ^ 20) % 2 ^ 20

/-- `n` bytes of a stream taken: the pool cells that held only them are freed (R367). -/
def State.freeTaken : Nat → List (Nat × Nat) → State → List (Nat × Nat) × State
  | _, [], s => ([], s)
  | n, (p, m) :: r, s => if m ≤ n then State.freeTaken (n - m) r (s.freeCell rqRelease p) else ((p, m - n) :: r, s)

/-- The stream's first `n` bytes taken. -/
def State.took (s : State) (k n : Nat) : State :=
  let x := s.inStream k
  let r := State.freeTaken n x.ptrs s
  r.2.setIn k { r.2.inStream k with ptrs := r.1 }

/-- The prefix length of a source's copies, its groups' among them (R361, R365; notes/assumptions/76.md). -/
def State.prefixLen (s : State) (src : Nat) : Nat := if s.timed src then 24 else 16

/-- The length of the copy at the head of stream bytes, prefix included, once the prefix is there. -/
def copySpan (pre : Nat) (buf : List (Byte × Bool)) : Option Nat :=
  if buf.length < pre then none
  else some (pre + leAt (buf.map (·.1)) (if pre = 24 then 16 else 8) 2 % 2 ^ 15)

/-- The complete copies at the head of stream bytes moved to those that wait to pass (R367). -/
def InStream.settle (pre : Nat) : Nat → InStream → InStream
  | 0, x => x
  | n + 1, x =>
    match copySpan pre x.buf with
    | none => x
    | some len =>
      if x.buf.length < len then x
      else
        let c := x.buf.take len
        InStream.settle pre n { x with buf := x.buf.drop len, ready := x.ready ++ [(c.map (·.1), c.any (·.2), x.tc)] }

/-- The bytes of a cell in order (R367, R368): while bytes are discarded, those up to the first prefix go. -/
def State.takeBytes (s : State) (k : Nat) (c : Cell) (ptr : Option Nat) (pre : Nat) : State :=
  let x := s.inStream k
  let skip := if x.skip then c.pstart.getD c.payload.length else 0
  let lead := x.skip && 0 < skip && !x.counted
  let s := s.onlyIf lead fun s => s.bump R.FAB_REASM_DROPS_count
  let bytes := (c.payload.drop skip).map fun b => (b, c.poison)
  let left := c.payload.length - skip
  let x := { x with buf := x.buf ++ bytes, skip := x.skip && c.pstart.isNone, counted := x.skip && c.pstart.isNone && (x.counted || lead),
                    ptrs := if left = 0 then x.ptrs else x.ptrs ++ (ptr.map fun p => (p, left)).toList, tc := c.tc }
  let s := s.onlyIf (left == 0) fun s => match ptr with | some p => s.freeCell rqRelease p | none => s
  s.setIn k (x.settle pre (x.buf.length + 1))

/-- A lost cell: the copy with bytes in it is dropped (R368, R394), counted for its egress port when its prefix has arrived. -/
def State.loseCell (s : State) (k pre : Nat) (void_ : Bool) : State :=
  let x := s.inStream k
  let had := !x.buf.isEmpty
  let s := s.onlyIf had fun s => s.bump R.FAB_REASM_DROPS_count
  let bs := x.buf.map (·.1)
  let s := match copySpan pre x.buf with
    | some n => s.dropEgress (fwdPort (leAt bs 0 8)) (if void_ then drDice else drUnreachable) (n - pre)
    | none => s
  let s := (s.took k x.buf.length)
  s.setIn k { s.inStream k with buf := [], skip := true, counted := had || x.counted }

/-- The messages of a CONTROL cell (R376). -/
def messages (link src seq : Nat) : Nat → List Byte → List InMsg
  | 0, _ => []
  | n + 1, bs =>
    if bs.length < 4 then []
    else
      let len := leAt bs 2 2
      ⟨link, src, byteAt bs 0, slice bs 4 len, seq⟩ :: messages link src seq n (bs.drop (4 + len))

/-- Messages put into the inbox; those of a kind R377 does not give are discarded. -/
def State.receiveMsgs (s : State) (ms : List InMsg) : State :=
  let known := ms.filter fun m => [1, 2, 3, 0x10, 0x11, 0x12, 0x20, 0x100].contains m.kind
  { s with fab := { s.fab with inbox := s.fab.inbox ++ known } }

/-- A control cell in order: its messages, or an exchange cell. -/
def State.takeControl (s : State) (c : Cell) (l : Nat) : State :=
  if c.kind = ceExchange then s.receiveMsgs [⟨l, c.src, 0x100, c.payload, c.seq⟩]
  else s.receiveMsgs (messages l c.src c.seq c.payload.length c.payload)

/-- A number declared lost is counted (R368). -/
def State.countGap (s : State) : State := (s.bump R.FAB_GAPS_count).pmuAs 1 0x11A 15 63 1 false false

/-- The cells at the head of a stream, as far as nothing is missing (R367, R368). -/
def State.drain (k src : Nat) (ctl : Bool) : Nat → State → State
  | 0, s => s
  | n + 1, s =>
    let x := s.inStream k
    match x.cells.find? fun c => c.seq == x.next with
    | none => s
    | some c =>
      let s := s.setIn k { x with next := (x.next + 1) % 2 ^ 20, cells := x.cells.erase c }
      let s := if c.fate ≠ 0 then
          (let s := s.onlyIf (c.fate == 1) fun s => s.countGap
           if ctl then s else s.loseCell k (s.prefixLen src) (c.fate == 2))
        else if ctl then s.takeControl c.cell 160
        else s.takeBytes k c.cell c.ptr (s.prefixLen src)
      State.drain k src ctl n s

/-- A cell that belongs in a stream's window of 65,536 numbers is written there (R367), a VOID cell's number is lost at once (R368); any other
is counted. -/
def State.accept (s : State) (k : Nat) (c : Cell) (ctl : Bool) : State :=
  let x := s.inStream k
  if 65535 < ahead x.next c.seq || x.cells.any (fun r => r.seq == c.seq) then s.bump R.FAB_OUT_OF_WINDOW_count
  else
    let r := if ctl || c.kind = ceVoid || c.payload.isEmpty || !s.grants true (poolFor c.payload.length) then (none, s)
      else match s.takeCell true (poolFor c.payload.length) with | some (p, s) => (some p, s) | none => (none, s)
    let rx : RxCell := ⟨c.seq, if c.kind = ceVoid then 2 else 0, s.time.elapsed, c, r.1⟩
    let s := r.2.onlyIf (c.kind == ceVoid) fun s => s.countGap
    State.drain k c.src ctl (x.cells.length + 2) (s.setIn k { x with cells := x.cells ++ [rx] })

/-! ### Cells of groups and relayed cells -/

/-- A multicast cell (R375): the numbers of (link, source) show loss, which drops what is under way on that link. -/
def State.acceptGroup (s : State) (l : Nat) (c : Cell) : State :=
  let y := s.inStream (inLink l c.src)
  let gap := ahead y.next c.seq
  let s := s.setIn (inLink l c.src) { y with next := (c.seq + 1) % 2 ^ 20 }
  let lost := gap != 0 && y.tc == 1
  let y := s.inStream (inLink l c.src)
  let s := s.setIn (inLink l c.src) { y with tc := 1 }
  let s := s.onlyIf lost fun s =>
    let keys := (s.fab.ins.filter fun e => 2 ^ 26 ≤ e.1 && e.1 % 512 == c.src && !e.2.buf.isEmpty).map (·.1)
    (s.count R.FAB_GAPS_count gap).each keys fun k s => s.loseCell k (s.prefixLen c.src) false
  let k := inGroup c.dest c.src
  let r := if !s.grants true (poolFor c.payload.length) then (none, s)
    else match s.takeCell true (poolFor c.payload.length) with | some (p, s) => (some p, s) | none => (none, s)
  r.2.takeBytes k c r.1 (s.prefixLen c.src)

/-- A data cell for another device (R391): put on the relay queue of the bundle to it, or discarded. -/
def State.relayCell (s : State) (c : Cell) : State :=
  let k := (List.range 3).find? fun k =>
    bitAt (s.rd R.FAB_MESH_CFG_valid) k && s.meshPeer k == c.dest && !(s.spraySet c.dest).isEmpty
  match (if s.on R.FAB_CFG_mesh then k else none) with
  | some k =>
    let q := sread (fun _ => []) s.fab.relay k
    if 2048 ≤ q.length then s.bump R.FAB_RELAY_DROPS_count
    else { s with fab := { s.fab with relay := mput s.fab.relay k (q ++ [c]) } }.bump R.FAB_RELAY_CELLS_count
  | none => s.bump R.FAB_RELAY_DROPS_count

/-- A cell that passed its checks. -/
def State.useCell (s : State) (l : Nat) (c : Cell) : State :=
  if c.kind = ceIdle then s
  else
    let x := s.link l
    let ctl := c.kind == ceControl || c.kind == ceExchange
    let s := s.setLink l (if ctl then { x with ccrDue := x.ccrDue + 1 } else { x with dcrDue := x.dcrDue + 1 })
    let s := s.pmuAs 1 0x119 15 63 1 false false
    if ctl then
      (if c.kind = ceControl && 1 ≤ byteAt c.payload 0 && byteAt c.payload 0 ≤ 3 then s.receiveMsgs (messages l c.src c.seq c.payload.length c.payload)
      else if c.dest = s.self then s.accept (inCtl c.src) c true
      else s)
    else if s.linkState l = lcStarting then s
    else if c.kind = ceMulticast then s.acceptGroup l c
    else if c.dest = s.self then s.accept (inData c.src) c false
    else s.relayCell c

/-- CELL_RECEIVE (R356, R359, R360, R363, R367, R381, R391, R394): a slot's 128, 256 or 512 bytes arrive on a link; `fec` says that it
overlaps a codeword the decoder could not correct. -/
def execCellReceive (l : Nat) (bytes : List Byte) (fec : Bool) (s : State) : Host.Outcome State Fault Refusal :=
  ok (if 160 ≤ l || s.linkState l == lcDown || s.tdStill then s
    else if fec || (s.linkState l == lcUp && !s.on (R.FAB_LINK_STATUS_fec_lock l)) then s.badCell l
    else
      match decodeCell (s.linkGen l) bytes with
      | none => s.badCell l
      | some (c, dcr, ccr) =>
        let x := s.link l
        let s := s.setLink l { x with dcrIn := (x.dcrIn + dcr) % 2 ^ 16, ccrIn := (x.ccrIn + ccr) % 2 ^ 16 }
        (s.goodCell l).useCell l c)

/-- REORDER_GAP_TIMEOUT (R368): a gap at the head of a source's data or control stream has stood for the reorder timeout since the
first cell beyond it came: its numbers are lost. -/
def execReorderGapTimeout (src : Nat) (ctl : Bool) (s : State) : Host.Outcome State Fault Refusal :=
  let k := if ctl then inCtl src else inData src
  let x := s.inStream k
  ok (match x.cells.foldl (fun (b : Option RxCell) c => match b with | none => some c | some d => if c.at_ < d.at_ then some c else b) none with
    | none => s
    | some c =>
      if 512 ≤ src || s.time.elapsed < c.at_ + 1000 * s.rd R.FAB_REORDER_CFG_timeout_us then s
      else
        let gap := x.cells.foldl (fun n c => min n (ahead x.next c.seq)) (2 ^ 20)
        let lost : List RxCell := (List.range gap).map fun i =>
          ⟨(x.next + i) % 2 ^ 20, 1, s.time.elapsed, idleCell src, none⟩
        State.drain k src ctl (gap + x.cells.length + 1) (s.setIn k { x with cells := x.cells ++ lost }))

/-! ### Reassembly -/

/-- The slot that governs a packet's egress by its tag, and whether that slot has been released already (R84, R88): the slot that was
ACTIVE at the start of the tag turn. A tag before the first activation has no such slot: it counts as released
(notes/assumptions/163.md). -/
def State.slotAt (s : State) (τ : Nat) : Nat × Bool :=
  let a := s.rd R.FWS_RCP_STATUS_active_slot
  match s.recipe.acts.find? fun x => x.1 ≤ τ with
  | some x => if x.2 = a ∨ s.slotState x.2 = 4 then (x.2, false) else (a, true)
  | none => (a, true)

/-- The arrival stamp rebuilt from its 40 bits (R364). -/
def rebuildStamp (now field : Nat) : Nat :=
  let top := now + 2 ^ 30
  if top < field then field else field + (top - field) / 2 ^ 40 * 2 ^ 40

/-- The arrival stamp and the turn tag of a reassembled copy (R364, R365): rebuilt where its stream carries them. -/
def State.copyStamp (s : State) (src : Nat) (bs : List Byte) : Nat :=
  if s.timed src then rebuildStamp s.time.tdNs (leAt bs 19 5) else s.time.tdNs
def State.copyTag (s : State) (src : Nat) (bs : List Byte) : Nat :=
  s.copyStamp src bs / 2 ^ s.rd R.TBS_TURN_LEN_LOG2_t

/-- Whether an incoming data stream is a group's, and its source. -/
def inIsGroup (k : Nat) : Bool := 2 ^ 26 ≤ k
def inSource (k : Nat) : Nat := k % 512

/-- A reassembled copy passes to egress queueing; a group's uses credit of its lead port alone (R84, R88, R364, R365, R367, R371, R374). -/
def State.passCopy (s : State) (src : Nat) (bs : List Byte) (poison : Bool) (ptr : Option Nat) : State :=
  let full := s.timed src
  let pre := if full then 24 else 16
  let carried := leAt bs 0 (if full then 16 else 8)
  let port := byteAt bs (if full then 18 else 10) % 128
  let stamp := s.copyStamp src bs
  let tag := s.copyTag src bs
  let v := s.slotAt tag
  let s := s.onlyIf v.2 fun s => (s.bump R.FWS_RCP_STRAYS_count).event sevInfo R.FWS_RCP_STRAYS
  let rec_ := carried % 2 ^ 64
  let lead := if fwdMcast rec_ then s.groupLead (fwdGroup rec_) tag else (s.self, fwdPort rec_)
  (s.onlyIf (lead.1 == s.self) fun s => s.cameIn lead.2 (fwdTc rec_) src bs.length).toSelf ⟨none, 0, voqs, bs.drop pre, carried, port, stamp, tag, v.1, s.time.elapsed, poison, none, 0, none⟩ ptr

/-- REASSEMBLY_DELIVER (R247, R367, R374): the next complete copy of a source's data stream, or of a group's, passes to egress queueing. -/
def execReassemblyDeliver (src : Nat) (d : Delivery) (s : State) : Host.Outcome State Fault Refusal :=
  let k := match d.group with | some g => inGroup g src | none => inData src
  let x := s.inStream k
  ok (match x.ready with
    | [] => s
    | (bs, poison, _) :: r =>
      if 512 ≤ src || s.tdDown then s
      else (((s.setIn k { x with ready := r }).took k bs.length).passCopy src bs poison d.ptr).bufSync)

/-! ### Tag reports -/

/-- The smallest of a tag and those of a list. -/
def minTag (l : List Nat) (t : Nat) : Nat := l.foldl min t

/-- The oldest tag among the packets toward a device whose last cell has not been sent (R87): in its VOQs, in outgoing streams and in
cells not sent yet; the current turn where there are none. -/
def State.oldestToward (s : State) (d : Nat) : Nat :=
  let inVoqs := s.buf.queues.flatMap fun e =>
    if e.1 < voqs && voqDevice e.1 == d then (e.2.ondie ++ e.2.hbm ++ e.2.res).map (·.tag) else []
  let toward (k : Nat) (τ : Nat) : Bool := if k < 512 then k == d else (s.memberDevices (k - 2 ^ 16) τ).contains d
  let inStreams := s.fab.outs.flatMap fun e => (e.2.marks.filter fun m => toward e.1 m.tag).map (·.tag)
  let inCells := s.fab.links.flatMap fun e => e.2.queue.filterMap fun c =>
    match c.oldest with
    | some t => if toward (if c.kind = ceMulticast then mcastKey c.dest else c.dest) t then some t else none
    | none => none
  minTag (inVoqs ++ inStreams ++ inCells) s.time.turn

/-- TAG_REPORT_APPLY (R87): a source's report is applied once every cell it sent before has been reassembled or declared lost. -/
def execTagReportApply (src : Nat) (s : State) : Host.Outcome State Fault Refusal :=
  ok (match mget s.fab.waiting src with
    | none => s
    | some r =>
      let x := s.inStream (inData src)
      if ahead x.next r.seq ≠ 0 && ahead x.next r.seq < 2 ^ 19 || !x.ready.isEmpty then s
      else { s with fab := { s.fab with waiting := mdel s.fab.waiting src, reports := mput s.fab.reports src r } })

end Sys2Proof.Machine
end

