-- ==== Sys2Proof/Machine/Otn.lean ====
section
/-!
DEFINITION. Machine/Otn.lean: OTN framing (R412 to R421) and the tributary slot interchange (R422 to R424): slices and their defects,
overhead, justification, ODU-AIS, the pages of the connection memory and their swap.
-/

namespace Sys2Proof.Machine

/-! ### Slices and defects -/

/-- The slice instance of slice `a` + 1 of an OTN port (R413, R426). -/
def State.sliceAt (s : State) (p a : Nat) : Nat := if s.mode p = 10 then 2 * (p + a / 2) + a % 2 else 2 * (p + a)

/-- The slice instances of an OTN port's equipped slices. -/
def State.otnSlices (s : State) (p : Nat) : List Nat := (List.range (s.rd (R.OTN_PORT_CFG_n p))).map fun a => s.sliceAt p a

/-- The OTN port of a slice instance, where it is equipped. -/
def State.portOfSlice (s : State) (i : Nat) : Option Nat :=
  match s.portOfLane (i / 2) with
  | some p => if isOtn (s.mode p) && (s.otnSlices p).contains i then some p else none
  | none => none

/-- The OTN port of a slot index, where it is equipped. -/
def State.portOfSlot (s : State) (g : Nat) : Option Nat := s.portOfSlice (g / 20)

/-- Whether a slice has a defect of R414. -/
def State.sliceBad (s : State) (i : Nat) : Bool :=
  s.on (R.OTN_SLICE_STATUS_flexo_lost i) || s.on (R.OTN_SLICE_STATUS_lol i) || s.on (R.OTN_SLICE_STATUS_oof i) ||
  s.on (R.OTN_SLICE_STATUS_lof i) || s.on (R.OTN_SLICE_STATUS_oom i) || s.on (R.OTN_SLICE_STATUS_lom i)

/-- Whether an OTN port has a defect of R414 on any slice. -/
def State.otnBad (s : State) (p : Nat) : Bool := (s.otnSlices p).any fun i => s.sliceBad i

/-- A slice's alignment. -/
def State.otnSlice (s : State) (i : Nat) : OtnSlice := sread (fun _ => ⟨0, 0, 0, 0, 0, 0, 0, 0, false⟩) s.lif.slices i

/-- An overhead layer. -/
def OtnLayer.idle : OtnLayer := ⟨[], 0, false, [], [], 0, none, 0, 0, none, false⟩
def State.layer (s : State) (k : Nat) : OtnLayer := sread (fun _ => OtnLayer.idle) s.lif.layers k
def State.setLayer (s : State) (k : Nat) (x : OtnLayer) : State := { s with lif := { s.lif with layers := mput s.lif.layers k x } }

/-- The FAS and MFAS of a frame (R414): five frames in error lose frame or multiframe, two good ones regain it. -/
def State.align (s : State) (i : Nat) (f : OtnFrame) : State :=
  let x := s.otnSlice i
  let oof := s.on (R.OTN_SLICE_STATUS_oof i)
  let oom := s.on (R.OTN_SLICE_STATUS_oom i)
  let badFas := if f.fasOk then 0 else x.badFas + 1
  let goodFas := if f.fasOk then x.goodFas + 1 else 0
  let oof' := if oof then goodFas < 2 else 5 ≤ badFas
  let hit := f.mfas == x.mfas
  let badMf := if hit then 0 else x.badMf + 1
  let goodMf := if hit then x.goodMf + 1 else 0
  let oom' := if oom then goodMf < 2 else 5 ≤ badMf
  let next := if oom' then (f.mfas + 1) % 256 else (x.mfas + 1) % 256
  let now := s.time.elapsed
  let y : OtnSlice := ⟨min badFas 5, min goodFas 2, next, min badMf 5, min goodMf 2, if oof' == oof then x.oofAt else now,
    if oom' == oom then x.oomAt else now, if f.skewed == x.skew then x.skewAt else now, f.skewed⟩
  let s := { s with lif := { s.lif with slices := mput s.lif.slices i y } }
  let s := s.wrBit (R.OTN_SLICE_STATUS_flexo_lost i) f.flexoLost
  let s := s.onlyIf f.skewed fun s => s.wr (R.OTN_SLICE_STATUS_lol i) 1
  (s.wrBit (R.OTN_SLICE_STATUS_oof i) oof').wrBit (R.OTN_SLICE_STATUS_oom i) oom'

/-! ### Overhead -/

/-- The bits in which two BIP-8 values differ. -/
def bipDiff (a b : Nat) : Nat := ((List.range 8).filter fun i => bitAt a i != bitAt b i).length

/-- BIP and BEI of a layer (R415): the BIP-8 of two frames ago against the one received, the far-end errors received, and what
the next frame sent returns; `iae` for SM. -/
def State.parity (s : State) (k bip rxBip rxBei : Nat) (iae : Bool) (near far : Fld) : State :=
  let x := s.layer k
  let n := match x.bips[1]? with | some b => bipDiff b rxBip | none => 0
  let s := s.onlyIf (!iae) fun s => s.count near n
  let s := s.onlyIf (rxBei ≤ 8) fun s => s.count far rxBei
  s.setLayer k { x with bips := [bip] ++ x.bips.take 1, beiOut := if iae then 0xB else n }

/-- A trail trace byte of a layer at its place in the 64 (R416): a trace that came three times alike is accepted. -/
def State.trailByte (s : State) (k place byte : Nat) : State :=
  let x := s.layer k
  let t := mput x.trace (place % 64) byte
  if place % 64 ≠ 63 ∨ t.length < 64 then s.setLayer k { x with trace := if place % 64 = 63 then [] else t }
  else
    let whole := t.map (·.2)
    let same := if whole = x.last then min (x.same + 1) 3 else 1
    s.setLayer k { x with trace := [], last := whole, same := same, trail := if 3 ≤ same then some whole else x.trail }

/-- Whether the accepted trace of a layer differs from the expected one where `mode` looks: 1 the SAPI (bytes 0 to 15), 2 the DAPI (bytes
16 to 31), 3 both (R416). -/
def State.tim (s : State) (k mode : Nat) : Bool :=
  match (s.layer k).trail with
  | none => false
  | some t => (List.range 32).any fun i =>
      (if i < 16 then bitAt mode 0 else bitAt mode 1) && t.getD i 0 != Config.expectedTrace k i % 256

/-- A payload type received (R417): accepted after three multiframes alike. -/
def State.ptByte (s : State) (k pt : Nat) : State :=
  let x := s.layer k
  let same := if pt = x.pt then min (x.ptSame + 1) 3 else 1
  s.setLayer k { x with pt := pt, ptSame := same, label := if 3 ≤ same then some pt else x.label }

/-- Whether an accepted payload type differs from the expected one. -/
def State.plm (s : State) (k exp : Nat) : Bool := match (s.layer k).label with | some p => p != exp | none => false

/-- The MSI received for a slice compared with OTN_RX_SLOT (R417). -/
def State.msi (s : State) (i : Nat) (m : List (Option Nat)) : State :=
  s.each (List.range 20) fun b s =>
    let g := 20 * i + b
    let want := if s.on (R.OTN_RX_SLOT_valid g) then some (s.rd (R.OTN_RX_SLOT_tpn g)) else none
    s.wrBit (R.OTN_RX_SLOT_msim g) (m.getD b none != want)

/-- BDI that a slice's layers send (R414, R415). -/
def State.sliceBdi (s : State) (i p : Nat) : State :=
  let bad := s.otnBad p || (s.on (R.OTN_SLICE_STATUS_tim i) && s.on (R.OTN_SLICE_CFG_tim_act i))
  let s := s.setLayer i { s.layer i with bdiOut := bad }
  s.setLayer (256 + i) { s.layer (256 + i) with bdiOut := bad || (s.layer (256 + i)).odu }

/-- The packet client ports bound to an OTN port (R420): in mode 12, within the pipeline's span of the OTN port's first lane. -/
def State.clientBound (s : State) (c : Nat) : Bool :=
  let p := s.rd (R.OTN_CLIENT_w0_otn_port c)
  s.on (R.OTN_CLIENT_w0_en c) && isClient (s.mode c) && isOtn (s.mode p) && c / 16 == p / 16
def State.clientsOf (s : State) (p : Nat) : List Nat :=
  (List.range 128).filter fun c => s.clientBound c && s.rd (R.OTN_CLIENT_w0_otn_port c) == p

/-- BDI that a client's ODUflex sends (R415). -/
def State.clientBdi (s : State) (c : Nat) : State :=
  let p := s.rd (R.OTN_CLIENT_w0_otn_port c)
  let bad := s.otnBad p || (s.on (R.OTN_CLIENT_w1_tim c) && s.on (R.OTN_SLICE_CFG_tim_act (s.sliceAt p 0)))
  s.setLayer (512 + c) { s.layer (512 + c) with bdiOut := bad || (s.layer (512 + c)).odu }

/-- Whether a PM status shows dAIS, dOCI or dLCK. -/
def statBad (n : Nat) : Bool := n == 7 || n == 6 || n == 5

/-- A frame of a client ODUflex (R415 to R417). -/
def State.clientOh (s : State) (p : Nat) (o : ClientOh) : State :=
  let c := o.client
  if !(s.clientsOf p).contains c then s
  else
    let k := 512 + c
    let s := s.parity k o.bip o.rxBip o.rxBei false (R.OTN_CLIENT_BIP_count c) (R.OTN_CLIENT_BEI_count c)
    let s := s.trailByte k o.mfas o.tti
    let s := match o.pt with | some t => s.ptByte k t | none => s
    let cfg := s.sliceAt p 0
    let s := s.wrBit (R.OTN_CLIENT_w1_tim c) (s.tim k (s.rd (R.OTN_SLICE_CFG_tim_mode cfg)))
    let s := match (s.layer k).label with | some t => s.wr (R.OTN_CLIENT_w1_acc_pt c) t | none => s
    let s := s.wrBit (R.OTN_CLIENT_w1_plm c) (s.plm k (s.rd (R.OTN_CLIENT_w1_exp_pt c)))
    s.setLayer k { s.layer k with odu := statBad o.stat }

/-- The overhead of a frame of a slice that is in frame and in multiframe (R415 to R417). -/
def State.overhead (s : State) (i p : Nat) (f : OtnFrame) : State :=
  let s := s.parity i f.bip f.smBip f.smBei f.smIae (R.OTN_SM_BIP_count i) (R.OTN_SM_BEI_count i)
  let s := s.parity (256 + i) f.bip f.pmBip f.pmBei false (R.OTN_PM_BIP_count i) (R.OTN_PM_BEI_count i)
  let s := s.wrBit (R.OTN_SLICE_STATUS_bdi_rx i) f.smBdi
  let s := if i = s.sliceAt p 0 then
      let s := (s.trailByte i f.mfas f.smTti).trailByte (256 + i) f.mfas f.pmTti
      let m := s.rd (R.OTN_SLICE_CFG_tim_mode i)
      s.wrBit (R.OTN_SLICE_STATUS_tim i) (s.tim i m || s.tim (256 + i) m)
    else s
  let s := match f.pt with | some t => s.ptByte (256 + i) t | none => s
  let s := match (s.layer (256 + i)).label with | some t => s.wr (R.OTN_SLICE_STATUS_acc_pt i) t | none => s
  let s := s.wrBit (R.OTN_SLICE_STATUS_plm i) (s.plm (256 + i) (s.rd (R.OTN_PORT_CFG_exp_pt p)))
  let s := match f.msi with | some m => s.msi i m | none => s
  let s := s.setLayer (256 + i) { s.layer (256 + i) with odu := statBad f.pmStat }
  s.each f.clients fun o s => s.clientOh p o

/-! ### ODU-AIS -/

/-- Justification control of an ODU. -/
def State.gmp (s : State) (k : Nat) : GmpSt := sread (fun _ => ⟨none, 0, 0, false⟩) s.lif.gmp k

/-- The receive slots of a tributary of an OTN port, in rising order (R419). -/
def State.rxSlots (s : State) (p tpn : Nat) : List Nat :=
  (s.otnSlots p).filter fun g => s.on (R.OTN_RX_SLOT_valid g) && s.rd (R.OTN_RX_SLOT_tpn g) == tpn

/-- Whether a tributary is replaced with ODU-AIS (R414, R417, R418). -/
def State.oduAis (s : State) (p tpn : Nat) : Bool :=
  let slots := s.rxSlots p tpn
  s.otnBad p || slots.any (fun g => s.on (R.OTN_SLICE_STATUS_plm (g / 20)) || s.on (R.OTN_RX_SLOT_msim g)) ||
  (match slots with | g :: _ => (s.gmp g).ais | [] => false)

/-- Whether a client's ODU is replaced with ODU-AIS (R401). -/
def State.clientAis (s : State) (c : Nat) : Bool := s.oduAis (s.rd (R.OTN_CLIENT_w0_otn_port c)) (s.rd (R.OTN_CLIENT_w0_tpn c))

/-- The link of a port that is not DOWN. -/
def State.showLink (s : State) (q : Nat) (up : Bool) : State :=
  s.onlyIf (s.rd (R.LIF_PORT_LC_state q) != lcDown) fun s => s.wrBit (R.LIF_PORT_STATUS_link_up q) up

/-- The links of an OTN port and of its packet clients, and the BDI of these, brought in line with what the port receives (R401, R415). -/
def State.otnLinks (s : State) (p : Nat) : State :=
  let framed := (s.otnSlices p).all fun i => !s.on (R.OTN_SLICE_STATUS_oof i) && !s.on (R.OTN_SLICE_STATUS_oom i)
  (s.showLink p framed).each (s.clientsOf p) fun c s => (s.showLink c (!s.clientAis c)).clientBdi c

/-- The parity of two frames ago forgotten where a slice is lost: the frames that follow are not its successors (R415). -/
def State.lostSlice (s : State) (i p : Nat) : State :=
  s.each ([i, 256 + i] ++ (s.clientsOf p).map (512 + ·)) fun k s => s.setLayer k { s.layer k with bips := [] }

/-! ### Frames -/

/-- OTN_FRAME_RECEIVE (R32, R412 to R417): an OTUC frame of a slice. Its alignment is judged first; the overhead is read while the slice
is in frame and in multiframe; the links follow (R401). -/
def execOtnFrameReceive (slice : Nat) (frame : OtnFrame) (s : State) : Host.Outcome State Fault Refusal :=
  ok (match (if slice < 256 then s.portOfSlice slice else none) with
    | none => s
    | some p =>
      if s.rd (R.LIF_PORT_LC_state p) = lcDown then s
      else
        let s := s.align slice frame
        let s := s.wrBit (R.LIF_PORT_STATUS_pcs_lock p) ((s.otnSlices p).all fun i => !s.on (R.OTN_SLICE_STATUS_flexo_lost i))
        let s := s.rclkSync
        let lost := s.on (R.OTN_SLICE_STATUS_oof slice) || s.on (R.OTN_SLICE_STATUS_oom slice) || frame.flexoLost
        let s := if lost then s.lostSlice slice p else s.overhead slice p frame
        ((s.otnSlices p).foldl (fun s i => s.sliceBdi i p) s).otnLinks p)

/-- OTN_DEFECT_TIMER (R414): 3 ms of OOF, OOM or their absence, or of skew within its limit, declare or clear dLOF, dLOM and dLOL. -/
def execOtnDefectTimer (slice : Nat) (s : State) : Host.Outcome State Fault Refusal :=
  ok (match (if slice < 256 then s.portOfSlice slice else none) with
    | none => s
    | some p =>
      let x := s.otnSlice slice
      let old (t : Nat) : Bool := t + 3000000 ≤ s.time.elapsed
      let s := if old x.oofAt then s.wrBit (R.OTN_SLICE_STATUS_lof slice) (s.on (R.OTN_SLICE_STATUS_oof slice)) else s
      let s := if old x.oomAt then s.wrBit (R.OTN_SLICE_STATUS_lom slice) (s.on (R.OTN_SLICE_STATUS_oom slice)) else s
      let s := if !x.skew && old x.skewAt then s.wr (R.OTN_SLICE_STATUS_lol slice) 0 else s
      ((s.otnSlices p).foldl (fun s i => s.sliceBdi i p) s).otnLinks p)

/-! ### Justification -/

/-- A justification period of the demapper (R418): Cm is applied, or kept and the period counted; three bad periods bring ODU-AIS,
two good ones end it. -/
def State.demapPeriod (s : State) (g : Nat) (good : Bool) (cm : Nat) : State :=
  let x := s.gmp g
  let bad := if good then 0 else min (x.bad + 1) 3
  let ok := if good then min (x.good + 1) 2 else 0
  let ais := if x.ais then ok < 2 else 3 ≤ bad
  let y : GmpSt := ⟨if good then some cm else x.cm, bad, ok, ais⟩
  let s := { s with lif := { s.lif with gmp := mput s.lif.gmp g y } }
  let s := s.onlyIf (!good) fun s => s.bump R.OTN_GMP_JCERR_count
  s.onlyIf (ais && !x.ais) fun s => s.bump R.OTN_GMP_AIS_count

/-- GMP_JC_PERIOD (R418): a tributary slot multiframe of the ODU whose first slot is `slot`. Received, `good` says that the CRC-8 is good
and `cm` in the range of the ODTU; sent, `cm` is what the fill of the elastic store asks for, of which the mapper follows at most 2. -/
def execGmpJcPeriod (slot : Nat) (transmit good : Bool) (cm : Nat) (s : State) : Host.Outcome State Fault Refusal :=
  ok (match (if slot < 5120 then s.portOfSlot slot else none) with
    | none => s
    | some p =>
      if s.rd (R.LIF_PORT_LC_state p) = lcDown then s
      else if !transmit then (if s.on (R.OTN_RX_SLOT_valid slot) then (s.demapPeriod slot good cm).otnLinks p else s)
      else
        let x := s.gmp (8192 + slot)
        let next := match x.cm with
          | some c => if c + 2 < cm then c + 2 else if cm + 2 < c then c - 2 else cm
          | none => cm
        { s with lif := { s.lif with gmp := mput s.lif.gmp (8192 + slot) { x with cm := some next } } })

/-! ### The interchange -/

/-- The states of a swap (R426). -/
def tsiIdle : Nat := 0
def tsiScheduled : Nat := 1
def tsiSwapping : Nat := 2

/-- The page an OTN port reads (R424). -/
def State.pageOf (s : State) (p : Nat) : Nat :=
  if s.rd R.OTN_TSI_STATUS_state = tsiSwapping && !s.lif.swapping.contains p then 1 - s.cmPage else s.cmPage

/-- The MSI that a slice of a port sends (R417): the tributary of each slot in the page the port reads, unallocated where it is not valid. -/
def State.sentMsi (s : State) (p i : Nat) : List (Option Nat) :=
  (List.range 20).map fun b =>
    let w := s.cmWord (s.pageOf p) (20 * i + b)
    if cmValid w then some (cmTpn w) else none

/-- CM_PAGE_WRITE (R422): a write of an entry of a page; the active page, and either page while a swap is scheduled or in progress, is
locked. -/
def execCmPageWrite (fn be page slot val : Nat) (s : State) : Host.Outcome State Fault Refusal :=
  let a := if page = 0 then R.OTN_CM_A slot else R.OTN_CM_B slot
  ok (if 5120 ≤ slot || 2 ≤ page then s
    else s.hostWrite fn a be false fun s =>
      if page = s.cmPage ∨ s.rd R.OTN_TSI_STATUS_state ≠ tsiIdle then s.lateErr fn 0 a lePageLocked false else s.mergeReg a val be)

/-- Slots of an ODU type (R419); none for ODUflex, which has as many as are configured. -/
def oduSlots (t : Nat) : Option Nat := match t with | 0 => some 1 | 1 => some 1 | 2 => some 2 | 3 => some 2 | 4 => some 8 | 5 => some 20 | _ => none

/-- Whether an ODU's slots have the count of its type. -/
def oduCountOk (t n : Nat) : Bool := match oduSlots t with | some k => n == k | none => t == 6 && 1 ≤ n && n ≤ 80

/-- The OTN ports. -/
def State.otnPorts (s : State) : List Nat :=
  (List.range 128).filter fun p => isOtn (s.mode p) && 0 < s.rd (R.OTN_PORT_CFG_n p) && s.rd (R.OTN_PORT_CFG_n p) ≤ s.flexos p

/-- The checks of R423 on the egress ODU of a port under a TPN in a page. -/
def State.oduOk (s : State) (page p tpn : Nat) : Bool :=
  let slots := (s.otnSlots p).filter fun g => cmValid (s.cmWord page g) && cmTpn (s.cmWord page g) == tpn
  let ty := match slots with | g :: _ => cmType (s.cmWord page g) | [] => 0
  let srcs := slots.map fun g => cmSrc (s.cmWord page g)
  slots.all (fun g => cmType (s.cmWord page g) == ty) && oduCountOk ty slots.length &&
  (if srcs.all (· == 0x1FFF) then
    (s.clientsOf p).any fun c => s.rd (R.OTN_CLIENT_w0_tpn c) == tpn && ty == 6
  else
    match srcs with
    | g :: _ =>
      match s.portOfSlot g with
      | some q => s.rxSlots q (s.rd (R.OTN_RX_SLOT_tpn g)) == srcs && srcs.all fun x => s.rd (R.OTN_RX_SLOT_type x) == ty
      | none => false
    | [] => true)

/-- The checks of R423 on a page. -/
def State.pageOk (s : State) (page : Nat) : Bool :=
  let valid := (List.range 5120).filter fun g => cmValid (s.cmWord page g)
  let ports := s.otnPorts
  valid.all (fun g => match s.portOfSlot g with | some p => ports.contains p | none => false) &&
  valid.all (fun g =>
    let src := cmSrc (s.cmWord page g)
    src == 0x1FFF || (src < 5120 && s.on (R.OTN_RX_SLOT_valid src))) &&
  ports.all fun p =>
    (((s.otnSlots p).filter fun g => valid.contains g).map fun g => cmTpn (s.cmWord page g)).eraseDups.all fun t => s.oduOk page p t

/-- The turn of OTN_TSI_TURN. -/
def State.tsiTurn (s : State) : Nat := s.rd64 R.OTN_TSI_TURN_LO_turn_lo R.OTN_TSI_TURN_HI_turn_hi

/-- TSI_SWAP_ARM (R48, R423): a write of OTN_TSI_CTRL with arm set. -/
def execTsiSwapArm (fn be val : Nat) (s : State) : Host.Outcome State Fault Refusal :=
  ok (s.hostWrite fn R.OTN_TSI_CTRL be true fun s =>
    let s := s.mergeReg R.OTN_TSI_CTRL val be
    if !bitAt val 0 then s
    else
      let sys := s.on R.OTN_TSI_CTRL_scope
      let ans :=
        if s.rd R.OTN_TSI_STATUS_state ≠ tsiIdle then stBusyRetry
        else
          let a := s.schedCheck .tsiSwap sys s.tsiTurn
          if a ≠ stDone then a else if s.pageOk (1 - s.cmPage) then stAccepted else stInvalid
      let s := s.wr R.OTN_TSI_STATUS_last_status ans
      if ans = stAccepted then (s.schedTake .tsiSwap s.tsiTurn sys fn none).wr R.OTN_TSI_STATUS_state tsiScheduled else s)

/-- A scheduled swap withdrawn. -/
def State.withdrawTsi (s : State) (x : SlotEv) (status : Nat) : State :=
  ((s.schedFree x).wr R.OTN_TSI_STATUS_state tsiIdle).wr R.OTN_TSI_STATUS_last_status status

/-- TSI_SWAP_CANCEL (R52, R423): a write of OTN_TSI_CTRL with cancel set. -/
def execTsiSwapCancel (fn be val : Nat) (s : State) : Host.Outcome State Fault Refusal :=
  ok (s.hostWrite fn R.OTN_TSI_CTRL be true fun s =>
    let s := s.mergeReg R.OTN_TSI_CTRL val be
    match s.schedFind fun e => e == .tsiSwap with
    | some x => if s.inTime x.turn then s.withdrawTsi x stDone else s.wr R.OTN_TSI_STATUS_last_status stLate
    | none => s.wr R.OTN_TSI_STATUS_last_status (if s.rd R.OTN_TSI_STATUS_state = tsiSwapping then stLate else stNotFound))

/-- The last port has changed page: the other page is active (R424). -/
def State.swapDone (s : State) : State :=
  if s.rd R.OTN_TSI_STATUS_state = tsiSwapping && s.lif.swapping.isEmpty then
    ((s.wr R.OTN_TSI_STATUS_active (1 - s.cmPage)).wr R.OTN_TSI_STATUS_state tsiIdle).event sevInfo R.OTN_TSI_STATUS
  else s

/-- The elastic stores of a port's egress ODUs that the new page connects anew begin with nominal Cm (R424). -/
def State.newOdus (s : State) (p : Nat) : State :=
  let changed := (s.otnSlots p).filter fun g => s.cmWord 0 g != s.cmWord 1 g
  let gmp := changed.foldl (fun m g => mdel m (8192 + g)) s.lif.gmp
  { s with lif := { s.lif with gmp := gmp } }

/-- An OTN port takes the new page of a swap (R424). -/
def State.pageChanged (s : State) (p : Nat) : State :=
  if s.lif.swapping.contains p then
    let s := { s.newOdus p with lif := { (s.newOdus p).lif with swapping := s.lif.swapping.erase p } }
    (s.wr R.OTN_TSI_STATUS_ports_pending s.lif.swapping.length).swapDone
  else s

/-- The swap at its boundary (R424): ports that are not UP take the new page at once. -/
def State.fireTsi (s : State) (x : SlotEv) : State :=
  let s := (s.schedFree x).wr R.OTN_TSI_STATUS_state tsiSwapping
  let up := s.otnPorts.filter fun p => s.rd (R.LIF_PORT_LC_state p) == lcUp
  let s := s.each (s.otnPorts.filter fun p => !up.contains p) fun p s => s.newOdus p
  let s := { s with lif := { s.lif with swapping := up } }
  (s.wr R.OTN_TSI_STATUS_ports_pending up.length).swapDone

/-- TSI_PORT_PAGE_CHANGE (R424): the first multiframe boundary of an UP port at or after the swap turn. -/
def execTsiPortPageChange (p : Nat) (s : State) : Host.Outcome State Fault Refusal := ok (s.pageChanged p)

end Sys2Proof.Machine
end

