-- ==== Sys2Proof/Machine/ControlStore.lean ====
section
/-!
DEFINITION. Machine/ControlStore.lean: the words of the control stores and of the microcode as they are stored, with their parity, the
marks and log entries of bad ones, and what writes them anew (R190 to R194, R198 to R201).
-/

namespace Sys2Proof.Machine

/-- The name of a control-store word: pipeline, bank, stage across both sections, word. -/
def ctlKey (pl bank stage word : Nat) : Nat := pl * 2 ^ 20 + bank * 2 ^ 18 + stage * 4096 + word

/-- The name of a microcode word of a stage in one of the two copies (R199, R200). -/
def ucodeKey (pl copy stage word : Nat) : Nat := 2 ^ 24 * (1 + word) + copy * 1024 + pl * 64 + stage

/-- The pipeline of a named word. -/
def keyPipe (key : Nat) : Nat := if key < 2 ^ 24 then key / 2 ^ 20 else key % 1024 / 64

/-- The 8 parity bits of a word (R191): bit g is even parity over bits [80g + 79 : 80g]. -/
def wordParity (w : Nat) : Nat := bitsWhere 8 fun g => oddBits 80 (w / 2 ^ (80 * g))

/-- A word as it is written: 640 bits with the parity bits the device computes above them (R191). -/
def storedWord (w : Nat) : Nat := w % 2 ^ 640 + 2 ^ 640 * wordParity w

/-- Whether a stored word agrees with its parity bits (R192). -/
def parityHolds (st : Nat) : Bool := wordParity (st % 2 ^ 640) == st / 2 ^ 640

/-- The word of a Recipe at a stage and address; a word that its sections do not hold is zero, a NOP. -/
def Recipe.wordAt (r : Recipe) (stage addr : Nat) : Nat := leNat ((mget r.words (stage * 4096 + addr)).getD [])

/-- A word as a control store holds it, with the bits that soft errors have flipped in it (R191, R194). -/
def State.storedAt (s : State) (r : Recipe) (pl bank stage addr : Nat) : Nat :=
  storedWord (r.wordAt stage addr) ^^^ sread (fun _ => 0) s.fd.flips (ctlKey pl bank stage addr)

/-- Soft errors that flip bits of a stored word of 648 bits. -/
def State.flipWord (s : State) (key upset : Nat) : State :=
  { s with fd := { s.fd with flips := swrite (fun _ => 0) s.fd.flips key (sread (fun _ => 0) s.fd.flips key ^^^ (upset % 2 ^ 648)) } }

/-- A bad word marked. -/
def State.markWord (s : State) (key : Nat) : State :=
  if s.fd.badWords.contains key then s else { s with fd := { s.fd with badWords := s.fd.badWords ++ [key] } }

/-- A machine-check log entry for a word, pending (R192, R194, R201). -/
def State.mcLogEntry (s : State) (pl bank stage word : Nat) (ucode patrol : Bool) (key : Nat) : State :=
  let i := s.rd (R.PPL_MC_LOG_CTRL_next pl)
  let old := s.rd (R.PPL_MC_LOG_w0_valid pl i)
  let s := s.wrWord (R.PPL_MC_LOG_w0 pl i) 0
  let s := s.wr (R.PPL_MC_LOG_w0_stage pl i) stage
  let s := s.wr (R.PPL_MC_LOG_w0_bank pl i) bank
  let s := s.wr (R.PPL_MC_LOG_w0_word pl i) word
  let s := s.wrBit (R.PPL_MC_LOG_w0_source pl i) patrol
  let s := s.wrBit (R.PPL_MC_LOG_w0_ucode pl i) ucode
  let s := s.wr (R.PPL_MC_LOG_w0_valid pl i) 1
  let s := s.wr64 (R.PPL_MC_LOG_LO_turn_lo pl i) (R.PPL_MC_LOG_HI_turn_hi pl i) s.time.turn
  let s := s.onlyIf (old == 1) fun s => s.wr (R.PPL_MC_LOG_CTRL_wrapped pl) 1
  let s := s.wr (R.PPL_MC_LOG_CTRL_next pl) ((i + 1) % 8)
  { s with fd := { s.fd with mcLog := mput s.fd.mcLog (pl * 8 + i) key } }

/-- The pending log entries of a word completed with an outcome (R193, R197). -/
def State.closeLog (s : State) (key outcome : Nat) : State :=
  let mine := s.fd.mcLog.filter fun e => e.2 == key
  let s := s.each mine fun e s => s.wr (R.PPL_MC_LOG_w0_outcome (e.1 / 8) (e.1 % 8)) outcome
  { s with fd := { s.fd with mcLog := s.fd.mcLog.filter fun e => e.2 != key } }

/-- Words written anew (R193, R198, R200): their marks and flipped bits are gone, their log entries complete. -/
def State.rewriteWords (s : State) (p : Nat → Bool) : State :=
  let s := s.each ((s.fd.mcLog.filter fun e => p e.2).map (·.2)).eraseDups fun k s => s.closeLog k 1
  { s with fd := { s.fd with badWords := s.fd.badWords.filter (fun k => !p k), flips := s.fd.flips.filter (fun e => !p e.1),
                             patrolled := s.fd.patrolled.filter fun k => !p k } }

/-- The control-store bank of a slot written in every stage by a RECIPE_LOAD (R190). -/
def State.writeBank (s : State) (bank : Nat) : State := s.rewriteWords fun k => k < 2 ^ 24 && k / 2 ^ 18 % 4 == bank

end Sys2Proof.Machine
end

