-- ==== Sys2Proof/Machine/TxfOps.lean ====
section
/-!
DEFINITION. Machine/TxfOps.lean: the state units as data: what an intent does to a value (R186, R350, R472), chains in
arrival order with late insertion and re-application (R205 to R207, R211, R212), commit and abort (R210, R211, R218), and
transaction numbers (R220).
-/

namespace Sys2Proof.Machine

/-! ### Order -/

/-- Whether an order key comes before another (R205): stamp, port, arrival sequence, stage, intent number. -/
def OrderKey.before (a b : OrderKey) : Bool :=
  a.stamp < b.stamp || (a.stamp == b.stamp && (a.port < b.port || (a.port == b.port && (a.seq < b.seq ||
    (a.seq == b.seq && (a.stage < b.stage || (a.stage == b.stage && a.num < b.num)))))))

/-- The order key of a packet's intent. Ports count from 1, so that a table write of a commit turn, with port 0, comes
before every packet stamped at its boundary (R205). An egress packet's key is its place in the egress section (R219). -/
def Packet.key (p : Packet) (stage num : Nat) : OrderKey :=
  if p.egress then ⟨p.begun, 1, p.order, stage, num⟩ else ⟨p.stamp, p.port + 1, p.seq, stage, num⟩

/-! ### What an intent does -/

/-- The width of an array's entries. -/
def ArrInst.width (a : ArrInst) : Nat := a.decl.width

/-- The state unit that owns an index (R202). -/
def ArrInst.unitOf (a : ArrInst) (i : Nat) : Nat := a.decl.first + i % (max a.decl.group 1)

/-- The meter profile in force for an order key (R348). -/
def State.meterProfile (s : State) (n : Nat) (k : OrderKey) : List Byte :=
  match (sread (fun _ => []) s.txf.profiles n).find? fun h => h.1 ≤ k.stamp with
  | some h => h.2
  | none => List.replicate 32 0

/-- What an intent makes of a value: the new value, and the result it returns (R186, R206, R350, R472). Operation 7 is a
write of an update transaction. A FLOW value is a free value (notes/assumptions/3.md). -/
def State.applyIntent (s : State) (a : ArrInst) (v : Nat) (x : Intent) : Nat × Nat :=
  let w := a.width
  match x.op with
  | 1 => meterStep (s.meterProfile (bitsAt v 160 12) x.key) v x.time (x.len.getD 0) x.colour
  | 2 =>
    if w ≤ 64 then ((v + x.len.getD 1) % 2 ^ 64, 0)
    else
      let p := (bitsAt v 0 64 + 1) % 2 ^ 64
      let b := (bitsAt v 64 64 + x.len.getD 0) % 2 ^ 64
      (p + b * 2 ^ 64, 0)
  | 3 => (v / 2 ^ 64 * 2 ^ 64 + x.operand % 2 ^ 64, v % 2 ^ 64)
  | 4 => let n := (v + x.operand) % 2 ^ w; (n, n % 2 ^ 64)
  | 5 => let n := Config.flowNew v x.operand % 2 ^ w; (n, n % 2 ^ 64)
  | 7 => (x.operand % 2 ^ w, 0)
  | _ => (v, 0)

/-! ### Chains -/

/-- The pipeline a transaction number belongs to (R220). -/
def txnPipe (n : Nat) : Nat := n / 16384

/-- An array instance. -/
def State.arr (s : State) (i : Nat) : Option ArrInst := mget s.txf.arrays i

/-- The array that a version slot numbers so (R202). -/
def State.findArr (s : State) (slot num : Nat) : Option (Nat × ArrInst) :=
  s.txf.arrays.find? fun e => e.2.decl.num == num && bitAt e.2.slots slot

/-- The chain of a key, in arrival order. -/
def State.chainOf (s : State) (arr index : Nat) : List Intent := s.txf.chain.filter fun x => x.arr == arr && x.index == index

/-- A key's committed value. -/
def ArrInst.val (a : ArrInst) (index : Nat) : Nat := sread (fun _ => 0) a.vals index

/-- The value of a key after some intents, in order (R206). -/
def State.fold (s : State) (a : ArrInst) (v : Nat) (xs : List Intent) : Nat :=
  xs.foldl (fun v x => (s.applyIntent a v x).1) v

/-- How many of some intents, applied in order to a value, return another result than they did (R207). -/
def State.diffs (s : State) (a : ArrInst) : Nat → List Intent → Nat
  | _, [] => 0
  | v, x :: xs =>
    let r := s.applyIntent a v x
    bit01 (x.op != 7 && r.2 != x.result) + s.diffs a r.1 xs

/-- The value of a key that a reader sees: the committed value with the committed intents of the chain (R209). -/
def State.readArr (s : State) (arr index : Nat) : Nat :=
  match s.arr arr with
  | some a => s.fold a (a.val index) ((s.chainOf arr index).filter (·.committed))
  | none => 0

/-- The re-application of the intents of a chain behind a change, over the value before them (R207, R211): counted, with
the results that differ. On an entry that reads uncorrectable they act on no value (R315). -/
def State.reapply (s : State) (a : ArrInst) (index v : Nat) (later : List Intent) : State :=
  let s := s.count R.TXF_REAPPLY_count later.length
  let s := s.each later fun y s => s.pmuAs 0 0x052 (txnPipe y.txn) y.key.stage 1 (24 ≤ y.key.stage) false
  let d := if (mget a.poison index).isSome then later.length else s.diffs a v later
  s.count R.TXF_RESULT_DIFF_count d

/-- The chain with an intent put at its place in arrival order. -/
def putIntent (x : Intent) : List Intent → List Intent
  | [] => [x]
  | y :: ys => if x.arr = y.arr ∧ x.index = y.index ∧ x.key.before y.key then x :: y :: ys else y :: putIntent x ys

/-- An intent executed against its key's working value (R206); where later intents stand in the chain it is a late insertion
and they are re-applied (R207). The intent's result. -/
def State.execute (s : State) (x : Intent) : State × Nat :=
  match s.arr x.arr with
  | none => (s, 0)
  | some a =>
    let c := s.chainOf x.arr x.index
    let v := s.fold a (a.val x.index) (c.filter fun y => y.key.before x.key)
    let later := c.filter fun y => x.key.before y.key
    let r := s.applyIntent a v x
    let x := { x with result := r.2 }
    let s := { s with txf := { s.txf with chain := putIntent x s.txf.chain } }
    if later.isEmpty then (s, r.2)
    else
      let s := if x.op = 7 then s else
        (s.bump R.TXF_LATE_INSERT_count).pmuAs 0 0x051 (txnPipe x.txn) x.key.stage 1 (24 ≤ x.key.stage) false
      (s.reapply a x.index r.1 later, r.2)

/-- Chain entries in use in a state unit (R206). -/
def State.chainUsed (s : State) (u : Nat) : Nat :=
  (s.txf.chain.filter fun x => match s.arr x.arr with | some a => a.unitOf x.index == u | none => false).length

/-- Chain entries of a state unit that transactions in preparation, PREPARED or SCHEDULED keep for their array writes (R213, R225). -/
def State.chainKept (s : State) (u : Nat) : Nat :=
  s.txns.foldl (fun n e =>
    let st := s.rd (R.TXT_TXN_w0_state e.1)
    if st = 2 ∨ st = 3 ∨ st = 4 then
      n + (e.2.writes.filter fun w => match w with
        | .arr slot _ array index _ => (match s.findArr slot array with | some a => a.2.unitOf index == u | none => false)
        | _ => false).length
    else n) 0

/-- Whether a key's chain and its state unit have room for one more uncommitted intent (R213). -/
def State.chainRoom (s : State) (x : Intent) : Bool :=
  match s.arr x.arr with
  | none => true
  | some a =>
    let u := a.unitOf x.index
    ((s.chainOf x.arr x.index).filter fun y => !y.committed).length < 32 && s.chainUsed u + s.chainKept u < 4096

/-! ### Transactions -/

/-- A transaction number taken: the lowest free one of the pipeline. -/
def State.takeNumber (s : State) (pl : Nat) : Option (Nat × State) :=
  (firstIdx 16384 fun i => !s.txf.numbers.contains (pl * 16384 + i)).map fun i =>
    (pl * 16384 + i, { s with txf := { s.txf with numbers := (pl * 16384 + i) :: s.txf.numbers } })

/-- A transaction number freed. -/
def State.freeNumber (s : State) (n : Nat) : State := { s with txf := { s.txf with numbers := s.txf.numbers.erase n } }

/-- A committed COUNT intent of a transaction that was still open at the boundary of an open snapshot joins its copy of the
array (R478). -/
def State.snapIntent (s : State) (x : Intent) : State :=
  match s.arr x.arr with
  | some a =>
    let put (e : Nat × Snap) : Nat × Snap :=
      if e.2.stage = 1 ∧ (e.2.shapes.any fun b => b.inst == x.arr) ∧ x.key.stamp < e.2.turn * 2 ^ s.rd R.TBS_TURN_LEN_LOG2_t then
        let vs := (mget e.2.arrs x.arr).getD []
        let v := (s.applyIntent a (sread (fun _ => 0) vs x.index) x).1
        (e.1, { e.2 with arrs := mput e.2.arrs x.arr (swrite (fun _ => 0) vs x.index v) })
      else e
    { s with cnt := { s.cnt with snaps := s.cnt.snaps.map put } }
  | none => s

/-- A transaction commits (R210): its intents are committed where they stand, its learns pass on, its number is free. -/
def State.commitTxn (s : State) (n : Nat) : State :=
  let mine := s.txf.chain.filter fun x => x.txn == n && !x.committed && x.op != 7
  let s := s.each mine fun x s => s.snapIntent x
  let learns := (s.txf.learns.filter fun e => e.1 == n).map (·.2)
  let chain := s.txf.chain.map fun x => if x.txn = n ∧ x.op ≠ 7 then { x with committed := true } else x
  let s := { s with txf := { s.txf with chain := chain, learns := s.txf.learns.filter (fun e => e.1 != n) },
                    tab := { s.tab with learns := s.tab.learns ++ learns } }
  ((s.freeNumber n).bump (R.TXF_COMMITS_count (txnPipe n))).pmuFd 0x053 (txnPipe n) 1

/-- One intent removed from its chain, the later ones of its key re-applied over the value without it (R211). -/
def State.removeIntent (s : State) (x : Intent) : State :=
  match s.arr x.arr with
  | none => s
  | some a =>
    let c := s.chainOf x.arr x.index
    let v := s.fold a (a.val x.index) (c.filter fun y => y.key.before x.key)
    let later := c.filter fun y => x.key.before y.key
    let s := { s with txf := { s.txf with chain := s.txf.chain.erase x } }
    s.reapply a x.index v later

/-- A transaction aborts (R211): its intents leave their chains, its learns and its intents on the way are discarded, its
number is free. -/
def State.abortTxn (s : State) (n : Nat) : State :=
  let mine := s.txf.chain.filter fun x => x.txn == n && !x.committed && x.op != 7
  let s := s.each mine fun x s => s.removeIntent x
  let s := { s with txf := { s.txf with learns := s.txf.learns.filter (fun e => e.1 != n),
                                        msgs := s.txf.msgs.filter fun m => m.intent.txn != n || m.intent.op == 7 } }
  ((s.freeNumber n).bump (R.TXF_ABORTS_count (txnPipe n))).pmuFd 0x054 (txnPipe n) 1

/-- The end of a packet's transaction in a section with the fate of the slots it executed (R218, R480). -/
def State.endTxn (s : State) (p : Packet) (commit : Bool) (fate : SlotFate) : State :=
  let s := match p.txn with | some n => if commit then s.commitTxn n else s.abortTxn n | none => s
  s.accountSlots p.pipe p.egress p.slots fate

/-- The transaction class a packet's transaction has in its Recipe (R214, R215). -/
def State.txnClass (s : State) (p : Packet) : TxnClass :=
  match s.pktRecipe p with
  | some r => r.classes.getD (p.cls.getD 0) ⟨false, false, 0⟩
  | none => ⟨false, false, 0⟩

/-- Whether a drop reason aborts whatever the marks (R218): CTRL_STORE_PARITY, POISON_CONSUMED, TXN_CONFLICT_LIMIT. -/
def abortsAlways (r : Nat) : Bool := r == drParity || r == drPoison || r == drConflict

/-- Whether the drop of a packet commits its transaction (R218): a drop by an action word with a reason its class marks. -/
def State.dropCommits (s : State) (p : Packet) : Bool :=
  !p.hardDrop && match p.drop with | some r => !abortsAlways r && bitAt (s.txnClass p).anyway r | none => false

/-! ### Watermarks -/

/-- The smallest of some order keys. -/
def minKey : List OrderKey → Option OrderKey
  | [] => none
  | k :: ks => match minKey ks with | some m => if m.before k then some m else some k | none => some k

/-- Whether an order key lies below every pipeline's watermark (R208): below every packet before the end of its section, or
below the present for a pipeline without one, and below the replay injector's next record where one is in use. -/
def State.settled (s : State) (x : Intent) (egress : Bool) (replay : Option Nat) : Bool :=
  let early (p : Packet) : Bool := p.egress == egress && (p.place.early || p.place.staged)
  (s.fd.pkts.filter early).all (fun p => x.key.before (p.key 0 0)) && x.key.stamp < s.time.sysNs &&
  (match replay with | some n => x.key.stamp < n | none => !(s.on R.TXF_RPL_CTRL_en && s.on R.TXF_RPL_STATUS_busy))

end Sys2Proof.Machine
end

