-- ==== Sys2Proof/Machine/Stage.lean ====
section
/-!
DEFINITION. Machine/Stage.lean: the action stages (chapter 7, R169 to R201): issue, lookups, the action word, machine checks
and the lifecycle of a pipeline (R26 to R29).
-/

namespace Sys2Proof.Machine

/-! ### Order and stages -/

/-- How far a place lies along a section: issue, lookup and action of each stage, the way out, and beyond it. -/
def PktAt.rank (a : PktAt) : Nat :=
  match a with
  | .stageWait k => 3 * k | .lookup k => 3 * k + 1 | .action k => 3 * k + 2 | .leaving => 999 | _ => 1000

/-- The number of a stage across both sections (R169). -/
def Packet.stageNo (p : Packet) (k : Nat) : Nat := if p.egress then 24 + k else k

/-- Stages of a packet's section (R169). -/
def Packet.stages (p : Packet) : Nat := if p.egress then 12 else 24

/-- Whether every packet that entered a packet's section before it has passed a rank (R169: packets leave a stage in the
order they entered it). -/
def State.inTurn (s : State) (p : Packet) (r : Nat) : Bool :=
  s.fd.pkts.all fun x =>
    x.pipe != p.pipe || x.egress != p.egress || x.txn.isNone || p.order ≤ x.order || r < x.place.rank

/-- Packets a stage of a pipeline holds, between key construction and action (R170). -/
def State.heldIn (s : State) (pl stage : Nat) : Nat :=
  (s.fd.pkts.filter fun x =>
    x.pipe == pl && match x.place with
      | .lookup k => x.stageNo k == stage | .action k => x.stageNo k == stage | _ => false).length

/-- Whether a Recipe binds a stage to a table in HBM (R143, R171). -/
def Recipe.hbmBound (r : Recipe) (stage : Nat) : Bool :=
  match r.stages[stage]? with
  | some b => b.bindings.any fun x => r.tables.any fun t =>
      match t.kind with
      | .exm d => d.hbm && (t.id == x.table || (match d.subOf with | some c => c.1 == x.table | none => false))
      | .asm _ _ _ => false
  | none => false

/-- The result field of an intent written into the header vector (R186, R188). -/
def landOne (hv : List Byte) (x : Nat × Nat × Nat × Nat) : List Byte := setField hv x.2.1 (x.2.2.1 / 128) (x.2.2.1 % 128) x.2.2.2

/-- The results of intents that a packet's stages before stage `k` - 1 issued, written into its header vector (R188). -/
def Packet.land (p : Packet) (k : Nat) : Packet :=
  let due := p.results.filter fun x => x.1 + 2 ≤ k
  { p with hv := due.foldl landOne p.hv, results := p.results.filter fun x => k < x.1 + 2 }

/-- The STARVED_BACK causes (R484). -/
def sbTable : Nat := 0x028
def sbChain : Nat := 0x029
def sbBridge : Nat := 0x02A
def sbTxn : Nat := 0x02B

/-- Whether a packet waits for an intent of its own: one that waits for room, or a result needed in stage `k` (R204,
R213). -/
def State.intentWait (s : State) (p : Packet) (k : Nat) : Bool :=
  s.txf.msgs.any fun m =>
    m.pkt == p.id && m.egress == p.egress && (m.waiting.isSome || (m.res.isSome && m.intent.key.stage + 2 ≤ p.stageNo k))

/-- A packet in stage `k` (R170, R172 to R174, R183): results due are written, the slot is taken; a dropped or skipping
packet passes, any other builds its key and issues its lookups. -/
def Packet.enter (p : Packet) (r : Recipe) (k : Nat) (accounts : Bool) : Packet :=
  let p := p.land k
  let p := { p with slots := if accounts then p.slots ++ [p.stageNo k] else p.slots,
                    skipTo := if p.skipTo = some k then none else p.skipTo, lookups := [] }
  let on := if k + 1 < p.stages then PktAt.stageWait (k + 1) else .leaving
  if p.drop.isSome || p.skipTo.isSome then { p with place := on, keyNext := 0 }
  else
    match r.stages[p.stageNo k]? with
    | none => { p with place := on, keyNext := 0 }
    | some b =>
      let pr := b.profiles.getD (if p.keyNext = 0 then b.dflt else p.keyNext - 1) ⟨[], []⟩
      let ls := pr.lookups.map fun i => Lookup.mk i (buildKey pr.fields p.hv) false false 0 0 false
      { p with keyNext := 0, lookups := ls, place := if ls.isEmpty then .action k else .lookup k }

/-- A packet's place in the order of its section, taken at stage 0, where an egress packet's order key and meter time begin (R219,
R349) and the copy of the microcode that serves it in every stage is set (R200, R535). -/
def State.takeOrder (s : State) (p : Packet) : State × Packet :=
  let key := 2 * p.pipe + bit01 p.egress
  let n := sread (fun _ => 0) s.fd.egrSeq key + 1
  ({ s with fd := { s.fd with egrSeq := mput s.fd.egrSeq key n } },
   { p with order := n, ucode := s.fd.ucode, begun := if p.egress then s.time.sysNs else p.begun,
            elapsed := if p.egress then s.time.elapsed else p.elapsed })

/-- The longest time from a packet's entry into a stage to the answer of its lookups, in ns: 3 CCLK and 20, or with a table in HBM 2 us
(R118, R143, R170). -/
def Recipe.lookupNs (r : Recipe) (stage : Nat) : Nat := if r.hbmBound stage then 2002 else 13

/-- Whether a stage accepts no new packet (R170): its hold is full, or the oldest packet it holds waits for a lookup that is overdue
(DEDUCED, notes/assumptions/177.md). -/
def State.holdClosed (s : State) (r : Recipe) (pl stage : Nat) : Bool :=
  decide ((if r.hbmBound stage then 8192 else 64) ≤ s.heldIn pl stage) ||
  s.fd.pkts.any fun x => x.pipe == pl &&
    (match x.place with | .lookup k => x.stageNo k == stage | _ => false) && x.since + r.lookupNs stage < s.time.elapsed

/-- STAGE_ISSUE (R169, R170, R173, R188, R220, R480): a stage's slot. With no packet (`id` none) it is accounted with the
cause `cause` (an event code of R484). A packet that is next in order enters the stage, taking its transaction number at
stage 0, unless it is blocked, which its slot is accounted for. -/
def execStageIssue (pl stage : Nat) (id : Option Nat) (cause : Nat) (s : State) : Host.Outcome State Fault Refusal :=
  ok (if 8 ≤ pl || 36 ≤ stage || !s.fdRuns then s
    else
      match id with
      | none => if (0x020 ≤ cause && cause ≤ 0x022) || (0x028 ≤ cause && cause ≤ 0x02B) then s.starve pl stage cause else s
      | some id => s.withPkt id fun p s =>
        let k := if p.egress then stage - 24 else stage
        match s.pktRecipe p with
        | none => s
        | some r =>
          if p.pipe != pl || p.egress != decide (24 ≤ stage) || p.place != .stageWait k || !s.inTurn p (3 * k) ||
              (k == 0 && (!s.fdOpen || s.notCrossed p)) then s
          else if s.intentWait p k then s.starve pl stage sbChain
          else if s.holdClosed r pl stage then s.starve pl stage sbTable
          else if k = 0 ∧ p.txn.isNone then
            match s.takeNumber pl with
            | none => (s.bump (R.TXF_POOL_STALLS_count pl)).starve pl stage sbTxn
            | some (n, s) =>
              let t := s.takeOrder { p with txn := some n }
              t.1.setPkt ({ t.2 with since := s.time.elapsed }.enter r k (s.pmuRuns 0))
          else s.setPkt ({ p with since := s.time.elapsed }.enter r k (s.pmuRuns 0)))

/-! ### Lookups -/

/-- The answer of a lookup: hit, data, match count, for an exact-match hit the table and cell that may be stamped, and what a search read
in SECDED memories (R139). -/
structure Found where
  hit   : Bool
  data  : Nat
  count : Nat
  cell  : Option (Nat × Nat)
  reads : List (Nat × Nat × Nat)
  deriving DecidableEq, Repr

/-- An exact-match lookup by a packet (R146, R152). -/
def State.lookExm (s : State) (p : Packet) (i : Nat) (t : ExmTable) (key : Nat) : Found :=
  match s.exmFind i t (t.copyOf p.pipe) p.tag (key % 2 ^ t.d.keyBits) with
  | some (a, c) => ⟨true, t.d.dataOf c.bits, 0, some (i, a), []⟩
  | none => ⟨false, 0, 0, none, []⟩

/-- The better of two classifier answers: the higher priority, the earlier subtable on a tie (R151). -/
def betterRule (a b : Found × Nat) : Found × Nat :=
  if !b.1.hit then a else if !a.1.hit || a.2 < b.2 then b else a

/-- The subtables of a classifier that a slot declares, by rising number (R151). -/
def State.subtables (s : State) (slot id : Nat) : List (Nat × ExmTable) :=
  sortOn (fun e => match e.2.d.subOf with | some c => c.2 | none => 0)
    (s.tab.exm.filter fun e => bitAt e.2.slots slot && match e.2.d.subOf with | some c => c.1 == id | none => false)

/-- A packet's lookup of a key in a table or classifier of its version (R119, R146, R151, R174). -/
def State.look (s : State) (p : Packet) (table key : Nat) : Found :=
  match s.findAsm p.version table with
  | some (_, t) => let a := s.asmSearch t p.tag key; ⟨a.1.hit, a.1.result, a.1.count, none, a.2⟩
  | none =>
    match s.findExm p.version table with
    | some (i, t) => s.lookExm p i t key
    | none =>
      ((s.subtables p.version table).foldl (fun best e =>
        let f := s.lookExm p e.1 e.2 (key &&& e.2.d.subMask)
        betterRule best (f, bitsAt f.data e.2.d.prioLsb 16)) (⟨false, 0, 0, none, []⟩, 0)).1

/-- A lookup counted by the PMU (R484): associative, exact match in SRAM or in HBM, one for each subtable of a
classifier. -/
def State.countLook (s : State) (p : Packet) (table : Nat) : State :=
  if (s.findAsm p.version table).isSome then s.pmuAs 0 0x048 p.pipe 63 1 p.egress false
  else
    let ts := match s.findExm p.version table with | some e => [e] | none => s.subtables p.version table
    s.each ts fun e s => s.pmuAs 0 (if e.2.d.hbm then 0x04A else 0x049) p.pipe 63 1 p.egress false

/-- The buckets that a packet's exact-match lookup reads (R142, R146, R151): whether one is poisoned. -/
def State.readLook (s : State) (p : Packet) (table key : Nat) : Bool × State :=
  let ts : List (ExmTable × Nat) := match s.findExm p.version table with
    | some e => [(e.2, key)]
    | none => (s.subtables p.version table).map fun e => (e.2, key &&& e.2.d.subMask)
  ts.foldl (fun r e =>
    let b := e.1.d.buckets2 (e.2 % 2 ^ e.1.d.keyBits)
    let a := r.2.readBuckets e.1 (e.1.copyOf p.pipe) [b.1, b.2]
    (r.1 || a.1, a.2)) (false, s)

/-- A hit through a binding marked refresh writes the packet's tick to the entry (R155). -/
def State.refresh (s : State) (p : Packet) (f : Found) : State :=
  match f.cell with
  | none => s
  | some (i, a) =>
    match mget s.tab.exm i with
    | none => s
    | some t =>
      match mget t.cells a with
      | some c =>
        if t.d.ageing.isSome then
          let t' := { t with cells := mput t.cells a { c with stamp := s.tickOf t.d p.tag } }
          s.putExm i t'
        else s
      | none => s

/-- A packet that is dropped inside the pipeline with a reason after which its transaction aborts whatever the marks (R218):
the record of a packet already dropped keeps its reason. -/
def Packet.fail (p : Packet) (reason : Nat) : Packet :=
  let r := p.drop.getD reason
  { p with drop := some r, hardDrop := true, hv := setFwd p.hv (putBits (fwdRecord p.hv) 22 7 (1 + 2 * r)) }

/-- The binding a lookup of a packet in stage `k` names. -/
def State.bindingOf (s : State) (p : Packet) (k n : Nat) : Option Binding :=
  ((s.pktRecipe p).bind fun r => r.stages[p.stageNo k]?).bind fun b => b.bindings[n]?

/-- Whether a table lies in the HBM table partition. -/
def State.tableInHbm (s : State) (version table : Nat) : Bool :=
  match s.findExm version table with | some e => e.2.d.hbm | none => (s.subtables version table).any fun e => e.2.d.hbm

/-- STAGE_LOOKUP_RETURN (R119, R137, R139, R146, R151, R155, R167, R176, R315, R316): lookup `i` of the packet's stage returns; a poisoned
result aborts the packet with POISON_CONSUMED: of the words and stripes the State holds, or one that `faults` names, an uncorrectable word of
the table SRAM that an exact-match lookup read, or a poisoned stripe of the HBM. -/
def execStageLookupReturn (id i : Nat) (faults : LookupFaults) (s : State) : Host.Outcome State Fault Refusal :=
  let s := s.strike faults.upsets
  ok (s.withPkt id fun p s =>
    match p.place with
    | .lookup k =>
      match p.lookups[i]? with
      | none => s
      | some l =>
        match s.bindingOf p k l.binding with
        | none => s
        | some b =>
          if l.done then s
          else
            let s := s.countLook p b.table
            let f := s.look p b.table l.key
            let asm := (s.findAsm p.version b.table).isSome
            let hbm := s.tableInHbm p.version b.table
            let r := if asm then (false, s) else s.readLook p b.table l.key
            let bad : Bool := if asm then f.reads.any fun r => 2 ≤ r.2.2 else r.1 || faults.poison.isSome
            let s := r.2.countReads f.reads
            let s := s.onlyIf (!asm && bad && !hbm) fun s => s.uncorrectable 0 0 0 (faults.poison.getD 0)
            let s := s.onlyIf (b.refresh && !bad) fun s => s.refresh p f
            let ls := p.lookups.set i { l with done := true, hit := f.hit, data := f.data, count := f.count, poison := bad }
            let place := if ls.all (·.done) then PktAt.action k else .lookup k
            let p := { p with lookups := ls, place := place }
            if bad then
              let s := s.onlyIf asm fun s => s.bump R.ASM_BKT_POISON_count
              let s := s.onlyIf (!hbm) fun s => s.bump (R.MIF_POISON_SRC_count 3)
              let s := s.onlyIf (hbm && !r.1) fun s => s.bump (R.MIF_POISON_SRC_count 0)
              (s.bump R.MIF_POISON_CONSUMED_count).setPkt (p.fail drPoison)
            else s.setPkt p
    | _ => s)

/-! ### The action word -/

/-- The address of the word a stage fetches (R175). -/
def wordAddr (b : StageBind) (ls : List Lookup) : Nat :=
  match ls with
  | [] => b.fixed
  | l :: _ =>
    match b.bindings[l.binding]? with
    | none => b.fixed
    | some x =>
      if l.hit then
        let i := bitsAt l.data x.indexLsb 12
        if x.customer then 0xC00 ||| (i &&& 0x3FF) else i
      else x.missWord

/-- The result bus (R176). -/
def resultBus (ls : List Lookup) : Nat :=
  match ls with
  | [] => 0
  | [l] => l.data % 2 ^ 256
  | l :: m :: _ => l.data % 2 ^ 128 + m.data % 2 ^ 128 * 2 ^ 128

/-- The status word (R176). -/
def statusWord (ls : List Lookup) : Nat :=
  let count := ls.foldl (fun n l => max n l.count) 0
  let hit (i : Nat) : Nat := match ls[i]? with | some l => bit01 l.hit | none => 0
  count % 256 + 256 * hit 0 + 512 * hit 1

/-- Ones' complement addition of 16-bit words. -/
def ocAdd (a b : Nat) : Nat := (a + b) % 65536 + (a + b) / 65536

/-- A checksum updated for the replacement of one word by another (R567, RFC 1624): the complement of the sum of the
complemented checksum, the complemented old word and the new word; equal words leave it. -/
def csumWord (c m m' : Nat) : Nat :=
  if m = m' then c else 0xFFFF - ocAdd (ocAdd (0xFFFF - c) (0xFFFF - m)) m'

/-- A checksum updated for the four words of two operands (R567). -/
def csum (c a b : Nat) : Nat :=
  (List.range 4).foldl (fun c i => csumWord c (bitsAt a (16 * i) 16) (bitsAt b (16 * i) 16)) c

/-- The value a micro-operation writes (R181); none for one that writes nothing. The semantics of a vendor operation is a
free value (notes/assumptions/3.md). -/
def uopValue (x : Sources) (seeds : List Nat) (u : Uop) : Option Nat :=
  let w := u.width
  let m := 2 ^ w
  let a := x.operand u.aSel u.a u.aOff w
  let b := x.operand u.bSel u.b 0 w
  match u.op with
  | 0x01 => some a
  | 0x02 => some ((a + b) % m)
  | 0x03 => some ((a + m - b) % m)
  | 0x04 => some (min (a + b) (m - 1))
  | 0x05 => some (a - b)
  | 0x06 => some (a &&& b)
  | 0x07 => some (a ||| b)
  | 0x08 => some (a ^^^ b)
  | 0x09 => some (m - 1 - a)
  | 0x0A => some (a * 2 ^ (b % 64) % m)
  | 0x0B => some (a / 2 ^ (b % 64))
  | 0x0C => some (min a b)
  | 0x0D => some (max a b)
  | 0x0E => some (bit01 (a == b))
  | 0x0F => some (bit01 (a < b))
  | 0x11 => some (crc32c (leBytes 4 (seeds.getD u.b 0) ++ leBytes (ceilDiv w 8) a) % m)
  | n => if 0x20 ≤ n then some (Config.vendorOp n a b % m) else none

/-- What a word's micro-operations have made so far: the header vector, the emit mask, and how many of the next do not
execute (R181, R182). -/
structure Acting where
  hv   : List Byte
  emit : Nat
  skip : Nat
  deriving DecidableEq, Repr

/-- One micro-operation (R181, R182, R567): operands from before the word, destinations in order. -/
def Acting.step (s : Acting) (x : Sources) (seeds : List Nat) (u : Uop) : Acting :=
  if 0 < s.skip then { s with skip := s.skip - 1 }
  else if u.op = 0x10 then
    if x.operand u.aSel u.a u.aOff u.width = 0 then { s with skip := u.b } else s
  else if u.op = 0x12 then
    let c := csum (getField s.hv u.dst u.dstOff 16) (x.operand u.aSel u.a u.aOff u.width) (x.operand u.bSel u.b 0 u.width)
    { s with hv := setField s.hv u.dst u.dstOff 16 c }
  else if u.op = 0x13 then { s with emit := s.emit ||| 2 ^ u.a }
  else if u.op = 0x14 then { s with emit := if bitAt s.emit u.a then s.emit - 2 ^ u.a else s.emit }
  else
    match uopValue x seeds u with
    | some v => { s with hv := setField s.hv u.dst u.dstOff u.width v }
    | none => s

/-- The micro-operations 0 to uop_count - 1 of a word (R178, R182). -/
def runUops (w : Nat) (x : Sources) (seeds : List Nat) (emit : Nat) : Acting :=
  (List.range (min (wordUops w) 8)).foldl (fun s k => s.step x seeds (wordUop w k)) ⟨x.hv, emit, 0⟩

/-- The forwarding record with a word's punt and mirror bits (R178) and its drop (R183). -/
def headerBits (w r : Nat) : Nat :=
  let r := if wordPunt w then r ||| 2 ^ 29 else r
  let r := if wordMirror w then putBits (r ||| 2 ^ 30) 31 4 (wordSession w) else r
  if wordDrop w then putBits r 22 7 (1 + 2 * wordReason w) else r

/-- The length an intent charges (R186). -/
def intentLen (x : Sources) (i : IntentW) : Option Nat :=
  let n := hvNum x.hv 20 2
  match i.lenSrc with
  | 0 => some n
  | 1 => some (n + 20)
  | 2 => some (x.operand64 i.opndSel i.opnd % 65536)
  | _ => none

/-- The width of an intent's result in its container (R186). -/
def resultWidth (i : IntentW) : Nat := if i.op = 1 then 2 else min 64 (contBits i.resDst - i.resOff)

/-- A learn entry assembled by a table's learn map from the intent's operand and index (R152, R186). -/
def LearnMap.build (m : LearnMap) (operand index width : Nat) : Nat :=
  m.fields.foldl (fun e f => putBits e f.1 f.2.1 (bitsAt operand f.2.2 f.2.1)) (putBits 0 m.idxAt width index)

/-- The packet's transaction joined by an intent that issues: its class is that of the first one; another class in the forwarding record
is counted (R215). -/
def State.joinTxn (s : State) (p : Packet) : State :=
  let now := fwdClass (fwdRecord p.hv)
  let s := s.setPkt { p with cls := some (p.cls.getD now) }
  s.onlyIf (p.cls.getD now != now) fun s => s.bump (R.TXF_CLASS_MISMATCH_count p.pipe)

/-- An intent of a word issued (R186, R187, R203, R205, R215): a LEARN is held by the transaction, any other is sent to its
state unit; an index beyond the array is discarded and counted. -/
def State.issueIntent (s : State) (p : Packet) (k n : Nat) (x : Sources) (i : IntentW) : State :=
  let index := getField x.hv i.idx i.idxOff i.idxW
  let operand := x.operand64 i.opndSel i.opnd
  let txn := p.txn.getD 0
  match (s.pktRecipe p).bind fun r => r.arrays.find? fun a => a.num == i.array with
  | none => s
  | some d =>
    match d.learns with
    | some id =>
      match s.findExm p.version id with
      | some (t, e) =>
        let s := s.joinTxn p
        let l : Learn := ⟨t, e.copyOf p.pipe, e.d.learn.build operand index i.idxW % 2 ^ e.d.width, p.tag, p.key (p.stageNo k) n⟩
        { s with txf := { s.txf with learns := s.txf.learns ++ [(txn, l)] } }.pmuAs 0 0x050 p.pipe (p.stageNo k) 1 p.egress false
      | none => s
    | none =>
      match s.findArr p.version i.array with
      | none => s
      | some (a, inst) =>
        if inst.decl.size ≤ index then s.bump (R.PPL_BAD_INDEX_count p.pipe)
        else
          let s := s.joinTxn p
          let m : Intent := ⟨a, index, p.key (p.stageNo k) n, txn, i.op, operand, intentLen x i, p.elapsed,
                             fwdColour (fwdRecord x.hv), 0, false⟩
          let res := if i.writes then some (i.resDst, i.resOff, resultWidth i) else none
          { s with txf := { s.txf with msgs := s.txf.msgs ++ [IntentMsg.mk p.id p.egress m res none] } }.pmuAs
            0 0x050 p.pipe (p.stageNo k) 1 p.egress false

/-- A word's effect on a packet (R178, R182, R183): its header vector, emit mask, drop, skip and next key profile. -/
def Packet.act (p : Packet) (w : Nat) (x : Sources) (seeds : List Nat) : Packet :=
  let a := runUops w x seeds p.emit
  { p with hv := setFwd a.hv (headerBits w (fwdRecord a.hv)), emit := a.emit,
           drop := if wordDrop w then some (wordReason w) else p.drop,
           skipTo := if wordSkip w then some (wordSkipTo w) else p.skipTo, keyNext := wordKeyNext w }

/-- The word of stage `k` executed for a packet, and its intents issued (R182, R187). -/
def State.runWord (s : State) (p : Packet) (k w : Nat) (seeds : List Nat) : State :=
  if wordKind w != 1 then s.setPkt p
  else
    let x : Sources := ⟨p.hv, wordImm w, resultBus p.lookups, statusWord p.lookups⟩
    let s := s.setPkt (p.act w x seeds)
    s.each (List.range 2) fun n s =>
      let i := wordIntent w n
      if i.op = 0 then s else s.withPkt p.id fun p s => s.issueIntent p k n x i

/-! ### Machine checks -/

/-- A pipeline's lanes moved to its buddy with a cause (R26, R195, R198): it drains, the buddy serves them from the same
instant. -/
def State.moveLanes (s : State) (pl cause : Nat) : State :=
  let s := s.wr (R.PPL_STATUS_lanes_moved pl) 1
  let s := s.wr (R.PPL_STATUS_serving_buddy (buddy pl)) 1
  let s := s.wr (R.PPL_STATUS_retire_cause pl) cause
  s.setLc (R.PPL_LC pl) lcDraining

/-- Whether a pipeline is UP. -/
def State.pipeUp (s : State) (pl : Nat) : Bool := s.rd (R.PPL_LC_state pl) == lcUp

/-- A pipeline retired under R26; with its buddy not UP it stays in service and a CRIT event is raised (R196). -/
def State.retire (s : State) (pl cause : Nat) : State :=
  if !s.pipeUp pl then s
  else if s.pipeUp (buddy pl) then s.moveLanes pl cause
  else s.event sevCrit (R.PPL_STATUS pl)

/-- A machine check (R192, R195, R196): the word is marked and logged, counted, and an ERR event is raised on the FD; the
third in one stage in one turn retires the pipeline. For a microcode word `bank` is its copy (notes/assumptions/179.md). -/
def State.machineCheck (s : State) (pl bank stage word : Nat) (ucode : Bool) : State :=
  let key := if ucode then ucodeKey pl bank stage word else ctlKey pl bank stage word
  let s := (s.markWord key).bump (R.PPL_MC_COUNT_count pl)
  let s := s.mcLogEntry pl bank stage word ucode false key
  let s := (s.event sevErr (R.PPL_MC_COUNT pl)).pmuAs 0 0x058 pl stage 1 (24 ≤ stage) false
  let n := s.rd (R.PPL_MC_TURN_count pl stage)
  if n < 2 then s.wr (R.PPL_MC_TURN_count pl stage) (n + 1) else s.retire pl 1

/-- STAGE_ACTION (R175 to R183, R187, R191, R192, R199): the word is fetched from the bank of the packet's version, where soft errors have
flipped the bits `upset` of it. A word marked bad, or one that fails parity (or `ucode`, a word of the sequencer's microcode that does),
executes nothing and the packet is dropped with CTRL_STORE_PARITY; flips that parity misses execute (R194). -/
def execStageAction (id upset : Nat) (ucode : Option Nat) (s : State) : Host.Outcome State Fault Refusal :=
  ok (s.withPkt id fun p s =>
    match p.place, s.pktRecipe p with
    | .action k, some r =>
      if !s.inTurn p (3 * k + 2) || !s.fdRuns then s
      else
        let stage := p.stageNo k
        let b : StageBind := r.stages.getD stage ⟨[], 0, [], 0, false⟩
        let addr := wordAddr b p.lookups
        let key := ctlKey p.pipe p.version stage addr
        let s := s.onlyIf (upset != 0) fun s => s.flipWord key upset
        let w := s.storedAt r p.pipe p.version stage addr
        let p := { p with place := if k + 1 < p.stages then .stageWait (k + 1) else .leaving }
        let marked := s.fd.badWords.contains key ||
          (match ucode with | some u => s.fd.badWords.contains (ucodeKey p.pipe p.ucode stage u) | none => false)
        if p.drop.isSome then s.setPkt p
        else if marked then (s.bump (R.PPL_MC_DROPS_count p.pipe)).setPkt (p.fail drParity)
        else if !parityHolds w then (s.setPkt (p.fail drParity)).machineCheck p.pipe p.version stage addr false
        else
          match ucode with
          | some u => (s.setPkt (p.fail drParity)).machineCheck p.pipe p.ucode stage u true
          | none => s.runWord p k (w % 2 ^ 640) r.seeds
    | _, _ => s)

/-- CONTROL_WORD_RELOAD_DONE (R193, R194, R197, R199): a word is rewritten from the protected copy; a copy that cannot be read
leaves the mark, and the pipeline retires. While the TD is down the reload waits. -/
def execControlWordReloadDone (pl stage bank word : Nat) (ucode readable : Bool) (s : State) :
    Host.Outcome State Fault Refusal :=
  let key := if ucode then ucodeKey pl bank stage word else ctlKey pl bank stage word
  let found := s.fd.patrolled.contains key
  ok (if !found && !s.fd.badWords.contains key then s
    else if 8 ≤ pl || (s.tdDown && !ucode) then s
    else if readable then
      let s := (s.rewriteWords (· == key)).bump (R.PPL_RELOADS_count pl)
      s.onlyIf found fun s => s.bump (R.PPL_PATROL_FIXED_count pl)
    else
      let s := { s with fd := { s.fd with patrolled := s.fd.patrolled.erase key } }
      ((s.markWord key).closeLog key 2).retire pl 2)

/-- CONTROL_STORE_PATROL (R194): the patrol reads a word, of which soft errors have flipped the bits `upset`. One that fails its parity,
or whose CRC-32C is not that of the protected copy, is reloaded and logged; `last` ends a pass. -/
def execControlStorePatrol (pl stage bank word upset : Nat) (last : Bool) (s : State) : Host.Outcome State Fault Refusal :=
  let key := ctlKey pl bank stage word
  ok (if 8 ≤ pl || 36 ≤ stage || 2 ≤ bank || 4096 ≤ word || !s.on (R.PPL_MC_CFG_patrol_en pl) then s
    else
      let s := s.onlyIf (upset != 0) fun s => s.flipWord key upset
      let was := match s.bankRecipe bank with | some r => r.wordAt stage word | none => 0
      let st := storedWord was ^^^ sread (fun _ => 0) s.fd.flips key
      let bad : Bool := !parityHolds st || crc32c (leBytes 80 (st % 2 ^ 640)) != crc32c (leBytes 80 was)
      let s := s.onlyIf (bad && !s.fd.patrolled.contains key) fun s =>
        ({ s with fd := { s.fd with patrolled := s.fd.patrolled ++ [key] } }).mcLogEntry pl bank stage word false true key
      s.onlyIf last fun s => s.wr (R.PPL_PATROL_PASSES_count pl) (s.rd (R.PPL_PATROL_PASSES_count pl) + 1))

/-! ### The lifecycle of a pipeline -/

/-- Whether a pipeline holds a packet in its parser, scanner or stages. -/
def State.pipeBusy (s : State) (pl : Nat) : Bool :=
  s.fd.pkts.any fun p => p.pipe == pl && ((p.place.early && p.place != .fifo) || p.place.staged)

/-- A pipeline in STARTING reloads all of its control stores (R198). -/
def State.startReload (s : State) (pl : Nat) : State :=
  s.wrBit (R.PPL_STATUS_reloading pl) (s.rd (R.PPL_LC_state pl) == lcStarting)

/-- PIPELINE_DRAIN_DONE (R26, R504): a draining pipeline is empty: it is DOWN, or starts again under pend_up. A retirement
raises an ERR event. -/
def execPipelineDrainDone (pl : Nat) (s : State) : Host.Outcome State Fault Refusal :=
  ok (if 8 ≤ pl || s.rd (R.PPL_LC_state pl) != lcDraining || s.pipeBusy pl then s
    else
      let s := s.lcEndDrain (R.PPL_LC pl)
      let s := s.onlyIf (s.rd (R.PPL_STATUS_retire_cause pl) != 3) fun s => s.event sevErr (R.PPL_STATUS pl)
      s.startReload pl)

/-- LANE_RETURN_COMPLETE (R29): no packet of the returning lanes is left in the buddy's ingress section. -/
def execLaneReturnComplete (pl : Nat) (s : State) : Host.Outcome State Fault Refusal :=
  let busy := s.fd.pkts.any fun p =>
    !p.egress && homePipe p.port == pl && p.pipe == buddy pl && ((p.place.early && p.place != .fifo) || p.place.staged)
  ok (if busy then s else { s with fd := { s.fd with returning := s.fd.returning.filter (· != pl) } })

/-- PIPELINE_ENABLE (R198, R503). -/
def execPipelineEnable (fn be pl : Nat) (s : State) : Host.Outcome State Fault Refusal :=
  ok (if 8 ≤ pl then s
    else s.hostWrite fn (R.PPL_LC pl) be true fun s => (s.lcWrite (R.PPL_LC pl) true false).startReload pl)

/-- PIPELINE_DISABLE (R198, R503): refused while the buddy is not UP; otherwise the lanes move to it. -/
def execPipelineDisable (fn be pl : Nat) (s : State) : Host.Outcome State Fault Refusal :=
  ok (if 8 ≤ pl then s
    else s.hostWrite fn (R.PPL_LC pl) be true fun s =>
      if !s.pipeUp (buddy pl) then s.lateErr fn 0 (R.PPL_LC pl) leBuddyDown false
      else if s.pipeUp pl then s.moveLanes pl 3
      else (s.lcWrite (R.PPL_LC pl) false true).startReload pl)

/-- PIPELINE_RELOAD_DONE (R198): every word of both banks of a starting pipeline is reloaded; it is UP. -/
def execPipelineReloadDone (pl : Nat) (s : State) : Host.Outcome State Fault Refusal :=
  ok (if 8 ≤ pl || s.rd (R.PPL_LC_state pl) != lcStarting || s.tdDown then s
    else
      let s := s.rewriteWords fun k => k < 2 ^ 24 && k / 2 ^ 20 == pl
      (s.wr (R.PPL_STATUS_reloading pl) 0).setLc (R.PPL_LC pl) lcUp)

end Sys2Proof.Machine
end

