-- ==== Sys2Proof/Machine/Sections.lean ====
section
/-!
DEFINITION. Machine/Sections.lean: the ends of the two sections, the state units and the watermarks: where a packet's
transaction commits, aborts or waits (R204 to R219, R404, R405).
-/

namespace Sys2Proof.Machine

/-! ### Samples -/

/-- The sample record of a packet for a counter (R486), without its number; `skid` is a free value of 0 to 48. -/
def Packet.sample (p : Packet) (i skid seq : Nat) : List Byte :=
  [BitVec.ofNat 8 i, BitVec.ofNat 8 (p.pipe + 8 * bit01 p.egress), BitVec.ofNat 8 (skid % 49), 0] ++ leBytes 4 seq ++
  leBytes 8 p.tag ++ slice p.hv 0 10 ++ [BitVec.ofNat 8 (p.inPort % 128 + 128 * (p.version % 2)),
  BitVec.ofNat 8 (p.drop.getD 0)] ++ leBytes 8 (fwdRecord p.hv) ++ List.replicate 28 0 ++ slice p.hv 64 64

/-- A packet that leaves the last stage of its section is the sample of every counter that waits for one there (R486). -/
def State.captureSamples (s : State) (p : Packet) : State :=
  let mine := s.cnt.samples.filter fun x => x.2.1 == p.pipe && x.2.2 == p.egress
  s.each mine fun x s =>
    let f := s.free
    let s := f.2
    let q := (s.cnt.recSeq + 1) % Config.mod32
    { s with cnt := { s.cnt with samples := s.cnt.samples.erase x, recSeq := q,
                                 recs := s.cnt.recs ++ [p.sample x.1 f.1 q] } }

/-! ### The ingress section's end -/

/-- A packet's descriptor (R185, R216, R249): its bytes as the deparser leaves them, its carried record, and its forwarding
record, which a PUNT of the parser replaces with the Recipe's parse punt destination (R100). -/
def Packet.desc (p : Packet) (r : Recipe) (waits : Bool) : Desc :=
  let hv := if bitAt (byteAt p.hv 19) 5 then setFwd p.hv r.parsePunt else p.hv
  ⟨p.id, deparse r p.bytes p.hv p.stack p.payload p.emit, p.inPort, p.stamp, p.tag, p.version, hvNum hv 40 16, fwdRecord hv,
   r.punt, waits, [.primary] ++ (if fwdMirror (fwdRecord hv) then [.mirror (fwdSession (fwdRecord hv))] else []) ++
     (if fwdPunt (fwdRecord hv) then [.punt] else []), p.poison || p.bodyBad, p.elapsed, false, false⟩

/-- A packet whose ingress section is over and whose frame is good: its descriptor crosses the bridge; its transaction
commits, or waits for the verdict under admission commit (R216, R217). Under pipeline commit the FD forgets the packet, whose
charge to its PFC account stays until its primary copy ends (R407). While the TD is in reset the packet is dropped with
BRIDGE_RESET: an admission-commit transaction aborts, a pipeline-commit one commits (R499). -/
def State.finishIngress (s : State) (p : Packet) (r : Recipe) : State :=
  let waits := (s.txnClass p).admission
  if s.tdDown then (s.endTxn p (!waits) (if waits then sfFault else sfDropped)).dropPkt p drBridgeReset
  else
  let s := { s with brg := { s.brg with descs := s.brg.descs ++ [p.desc r waits] } }
  if waits then s.setPkt { p with place := .verdict, begun := s.time.elapsed }
  else (s.endTxn p true sfFwd).delPkt p.id

/-- A frame found bad after its section ended or before (R404): the transaction aborts, the packet is discarded without a drop
reason. -/
def State.lateFcs (s : State) (p : Packet) : State :=
  ((s.endTxn p false sfFault).endPkt p).bump (R.LIF_RX_FCS_LATE_count p.port)

/-- The fate of the slots of a packet that was dropped in its section (R480). -/
def dropFate (commit hard : Bool) : SlotFate := if commit then sfDropped else if hard then sfFault else sfDrop

/-- A packet dropped in its section leaves it (R183, R218, R219). -/
def State.leaveDropped (s : State) (p : Packet) (reason : Nat) : State :=
  let c := s.dropCommits p
  (s.endTxn p c (dropFate c p.hardDrop)).dropPkt p reason

/-- A packet that leaves the last stage of its section, next in order and with no intent of its own on the way. -/
def State.leaves (s : State) (p : Packet) (egress : Bool) : Bool :=
  p.egress == egress && p.place == .leaving && s.fdRuns && s.inTurn p 999 &&
  s.txf.msgs.all fun m => m.pkt != p.id || m.egress != egress

/-- INGRESS_SECTION_EXIT (R184, R210, R211, R216 to R218, R404, R486): the packet's results are all written; a dropped packet ends;
any other waits for the end of its frame, or its forwarding result goes to the TD. -/
def execIngressSectionExit (id : Nat) (s : State) : Host.Outcome State Fault Refusal :=
  ok (s.withPkt id fun p s =>
    match s.pktRecipe p with
    | none => s
    | some r =>
      if !s.leaves p false then s
      else
        let p := p.land 1000
        let s := (s.setPkt p).captureSamples p
        match p.drop with
        | some reason => s.leaveDropped p reason
        | none =>
          if p.eop = 1 then s.setPkt { p with place := .eopHold }
          else if p.eop = 3 then s.lateFcs p
          else s.finishIngress p r)

/-- EOP_STATUS_ARRIVE (R404): the end-of-packet status of a frame longer than 512 bytes. A packet in the hold continues, or is
discarded; for any other the status is kept until its section ends. -/
def execEopStatusArrive (id : Nat) (good : Bool) (s : State) : Host.Outcome State Fault Refusal :=
  ok (s.withPkt id fun p s =>
    if p.egress || p.eop != 1 then s
    else
      let p := { p with arrived := p.len, eop := if good then 2 else 3 }
      match p.place, s.pktRecipe p with
      | .eopHold, some r =>
        if !good then s.lateFcs p
        else match p.drop with
          | some reason => s.leaveDropped p reason
          | none => s.finishIngress p r
      | _, _ => s.setPkt p)

/-- The verdict the bridge delivers next: the first it accepted (R17), unless a unit of the class is being replayed. -/
def State.nextVerdict (s : State) : Option Verdict :=
  if s.stuck true (fun x => match x with | .verdict _ => true | _ => false) then none else s.brg.verdicts.head?

/-- VERDICT_RECEIVE (R17, R20, R217, R218, R510): the TD's verdict on a packet, the next in order. A poisoned one is asked for again by
transaction number and comes behind those on their way; any other commits or aborts the transaction, and the packet leaves the FD. A
verdict for a packet that no longer waits is discarded. -/
def execVerdictReceive (id : Nat) (poisoned : Bool) (s : State) : Host.Outcome State Fault Refusal :=
  ok (match s.nextVerdict with
    | none => s
    | some v =>
      if v.pkt != id then s
      else if poisoned || v.bad then
        { s with brg := { s.brg with verdicts := s.brg.verdicts.erase v ++ [{ v with bad := false }] } }.bump R.TGL_BRG_REQUERY_count
      else
        let s := { s with brg := { s.brg with verdicts := s.brg.verdicts.erase v } }
        match s.pkt id with
        | none => s.bump R.GLB_STALE_FD_count
        | some p =>
          if p.place != .verdict then s.bump R.GLB_STALE_FD_count
          else
            let ns := min (s.time.elapsed - p.begun) 8191
            let s := s.wr R.TXT_VERDICT_MAX_ns (max ns (s.rd R.TXT_VERDICT_MAX_ns))
            let fate := if v.reason = drPoison ∨ v.reason = drDice then sfFault else sfAdmission
            let s := s.endTxn p v.admitted (if v.admitted then sfFwd else fate)
            s.delPkt id)

/-! ### The egress section's end -/

/-- EGRESS_SECTION_EXIT (R185, R219, R405, R486): the egress transaction ends and the deparsed packet waits for the MAC; one longer
than the port's MTU is dropped with MTU_EXCEEDED, and its transaction ends as for any drop with that reason. -/
def execEgressSectionExit (id : Nat) (s : State) : Host.Outcome State Fault Refusal :=
  ok (s.withPkt id fun p s =>
    match s.pktRecipe p with
    | none => s
    | some r =>
      if !s.leaves p true then s
      else
        let p := p.land 1000
        let s := (s.setPkt p).captureSamples p
        match p.drop with
        | some reason => s.leaveDropped p reason
        | none =>
          let bytes := deparse r p.bytes p.hv p.stack p.payload p.emit
          if s.rd (R.LIF_PORT_MTU_tx_mtu p.port) < bytes.length + 4 then
            s.leaveDropped { p with bytes := bytes, drop := some drMtu } drMtu
          else
            (s.endTxn p true sfFwd).setPkt { p with bytes := bytes, place := .txQueue, txn := none })

/-! ### State units -/

/-- The intent of a packet on its way or waiting, by stage and number. -/
def State.msgOf (s : State) (id stage num : Nat) : Option IntentMsg :=
  s.txf.msgs.find? fun m => m.pkt == id && m.intent.key.stage == stage && m.intent.key.num == num

/-- An intent that is no longer on its way. -/
def State.dropMsg (s : State) (m : IntentMsg) : State := { s with txf := { s.txf with msgs := s.txf.msgs.erase m } }

/-- An intent's result on its way to the packet (R186, R188). -/
def State.returnResult (s : State) (m : IntentMsg) (v : Nat) : State :=
  s.withPkt m.pkt fun p s =>
    match m.res with
    | some (dst, lsb, w) =>
      let k := if m.egress then m.intent.key.stage - 24 else m.intent.key.stage
      s.setPkt { p with results := p.results ++ [(k, dst, lsb * 128 + w, v % 2 ^ w)] }
    | none => s

/-- A packet dropped for a reason that aborts its transaction whatever the marks (R218). -/
def State.failPkt (s : State) (id reason : Nat) : State := s.withPkt id fun p s => s.setPkt (p.fail reason)

/-- An entry that reads uncorrectable meets an intent (R313, R315): no result, the packet's transaction aborts; counted once for
each entry in a turn. -/
def State.poisonedEntry (s : State) (m : IntentMsg) : State :=
  match s.arr m.intent.arr with
  | none => s
  | some a =>
    let i := m.intent.index
    let s := s.onlyIf (mget a.poison i != some s.time.turn) fun s => s.bump (R.MIF_POISON_SRC_count 5)
    let arrays := mput s.txf.arrays m.intent.arr { a with poison := mput a.poison i s.time.turn }
    let s := { s with txf := { s.txf with arrays := arrays } }
    ((s.dropMsg m).bump R.MIF_POISON_CONSUMED_count).failPkt m.pkt drPoison

/-- An intent that its state unit takes up: executed, or stopped at an entry that reads uncorrectable (R206, R315). -/
def State.runMsg (s : State) (m : IntentMsg) (poison : Bool) : State :=
  let bad := match s.arr m.intent.arr with | some a => (mget a.poison m.intent.index).isSome | none => false
  if poison || bad then s.poisonedEntry m
  else
    let r := (s.dropMsg m).execute m.intent
    r.1.returnResult m r.2

/-- INTENT_EXECUTE (R206, R207, R213, R315, R350): an intent reaches its state unit; without chain room it waits. -/
def execIntentExecute (id stage num : Nat) (poison : Bool) (s : State) : Host.Outcome State Fault Refusal :=
  ok (match s.msgOf id stage num with
    | none => s
    | some m =>
      if m.waiting.isSome then s
      else if s.chainRoom m.intent then s.runMsg m poison
      else
        let msgs := s.txf.msgs.map fun x => if x = m then { x with waiting := some s.time.elapsed } else x
        { s with txf := { s.txf with msgs := msgs } }.bump (R.TXF_CONFLICT_STALLS_count (txnPipe m.intent.txn)))

/-- CHAIN_WAIT_TIMEOUT (R213): after 64 CCLK (36 ns) of waiting, a class with conflict action DROP drops the packet with
TXN_CONFLICT_LIMIT and the intent is not issued; under STALL it keeps waiting. A packet already dropped keeps its reason and is not
counted here. -/
def execChainWaitTimeout (id stage num : Nat) (s : State) : Host.Outcome State Fault Refusal :=
  ok (match s.msgOf id stage num, s.pkt id with
    | some m, some p =>
      match m.waiting with
      | some t =>
        if t + 36 ≤ s.time.elapsed && (s.txnClass p).drop then
          let s := (s.dropMsg m).failPkt id drConflict
          s.onlyIf p.drop.isNone fun s => s.bump (R.TXF_CONFLICT_DROPS_count p.pipe)
        else s
      | none => s
    | _, _ => s)

/-- CHAIN_ROOM_RESUME (R213): a waiting intent is executed once its chain and its state unit have room. -/
def execChainRoomResume (id stage num : Nat) (s : State) : Host.Outcome State Fault Refusal :=
  ok (match s.msgOf id stage num with
    | some m => if m.waiting.isSome && s.chainRoom m.intent then s.runMsg m false else s
    | none => s)

/-- INTENT_SETTLE (R208, R315): the first intent of a key's chain, committed and below every watermark, folds into the committed
value and leaves the chain. `replay` is the offset stamp of the replay injector's next unfetched record, where there is one. -/
def execIntentSettle (arr index : Nat) (replay : Option Nat) (s : State) : Host.Outcome State Fault Refusal :=
  ok (match s.arr arr, s.chainOf arr index with
    | some a, x :: _ =>
      if x.committed && s.settled x (24 ≤ x.key.stage) replay then
        let v := if (mget a.poison index).isSome then a.val index else (s.applyIntent a (a.val index) x).1
        let a := { a with vals := swrite (fun _ => 0) a.vals index v }
        { s with txf := { s.txf with chain := s.txf.chain.erase x, arrays := mput s.txf.arrays arr a } }
      else s
    | _, _ => s)

end Sys2Proof.Machine
end

