-- ==== Sys2Proof/Machine/Line.lean ====
section
/-!
DEFINITION. Machine/Line.lean: the line ports (chapter 14, R398 to R411): received frames, priority flow control, the port lifecycle and
link state, transmission and timestamps. The OTN side stands in Machine/Otn.lean.
-/

namespace Sys2Proof.Machine

/-! ### Priority flow control -/

/-- A pause of a priority set or ended, with the registers that show it (R341, R406). -/
def State.setPause (s : State) (port k : Nat) (until_ : Option Nat) : State :=
  let key := port * 8 + k
  let pauses := match until_ with | some t => mput s.lif.pauses key t | none => mdel s.lif.pauses key
  let s := { s with lif := { s.lif with pauses := pauses } }
  let s := s.wr ⟨R.LIF_PFC_STATUS port, k, 1⟩ (bit01 until_.isSome)
  s.wr ⟨R.SCH_PFC port, k, 1⟩ (bit01 until_.isSome)

/-- A quanta value of a priority: quanta x 512 bit times at the port's rate, rounded up to 1 ns; 0 ends the pause. -/
def State.takeQuanta (s : State) (port k quanta : Nat) : State :=
  if quanta = 0 then s.setPause port k none
  else s.setPause port k (some (s.time.elapsed + ceilDiv (quanta * 512000) (s.portRate port)))

/-- A MAC control frame consumed by the MAC (R406): a PFC frame acts on each priority it enables that rx_en admits, a PAUSE frame under
link_pause on all eight; every one is counted. -/
def State.macControl (s : State) (port : Nat) (bs : List Byte) : State :=
  let s := s.bump (R.LIF_PFC_RX_count port)
  if beAt bs 0 6 ≠ 0x0180C2000001 ∨ !isEther (s.mode port) then s
  else if beAt bs 14 2 = 0x0101 then
    s.each (List.range 8) fun k s =>
      if bitAt (byteAt bs 17) k && bitAt (s.rd (R.LIF_PFC_CFG_rx_en port)) k then s.takeQuanta port k (beAt bs (18 + 2 * k) 2) else s
  else if beAt bs 14 2 = 1 ∧ s.on (R.LIF_PFC_CFG_link_pause port) then
    s.each (List.range 8) fun k s => s.takeQuanta port k (beAt bs 16 2)
  else s

/-- PFC_FRAME_RECEIVE (R406): a MAC control frame with a good FCS arrives on an UP port. -/
def execPfcFrameReceive (port : Nat) (bytes : List Byte) (s : State) : Host.Outcome State Fault Refusal :=
  ok (if 128 ≤ port || s.rd (R.LIF_PORT_LC_state port) != lcUp || beAt bytes 12 2 != 0x8808 then s
    else s.macControl port bytes)

/-- PFC_PAUSE_EXPIRE (R339, R341, R406): a pause timer has run out; the queues of the priority are active again. -/
def execPfcPauseExpire (port priority : Nat) (s : State) : Host.Outcome State Fault Refusal :=
  ok (match mget s.lif.pauses (port * 8 + priority) with
    | some t => if port < 128 && priority < 8 && t ≤ s.time.elapsed then s.setPause port priority none else s
    | none => s)

/-- Half the time that quanta 0xFFFF pauses for, at which an XOFF is repeated (R407). -/
def State.halfPause (s : State) (port : Nat) : Nat := ceilDiv (0xFFFF * 512000) (2 * s.portRate port)

/-- While an ingress account exceeds LIF_PFC_XOFF and its priority is in tx_en, one PFC frame with quanta 0xFFFF now and one each half
pause time (R407). -/
def State.pfcXoff (s : State) (port k : Nat) : State :=
  let key := port * 8 + k
  let due := match mget s.lif.repeats key with | some t => t ≤ s.time.elapsed | none => true
  if bitAt (s.rd (R.LIF_PFC_CFG_tx_en port)) k && due && s.rd (R.LIF_PORT_LC_state port) == lcUp &&
      256 * s.rd (R.LIF_PFC_XOFF_level port) < sread (fun _ => 0) s.lif.accounts key then
    let s := { s with lif := { s.lif with repeats := mput s.lif.repeats key (s.time.elapsed + s.halfPause port) } }
    let s := s.wr ⟨R.LIF_PFC_STATUS port, 8 + k, 1⟩ 1
    (s.bump (R.LIF_PFC_TX_count port)).emit (.pfc port k 0xFFFF)
  else s

/-- PFC_XOFF_REPEAT (R407). -/
def execPfcXoffRepeat (port priority : Nat) (s : State) : Host.Outcome State Fault Refusal :=
  ok (if port < 128 && priority < 8 && (mget s.lif.repeats (port * 8 + priority)).isSome then s.pfcXoff port priority else s)

/-- The PFC priority of a frame (R407): the PCP of its outer VLAN tag, or default_pri. -/
def State.pfcPriority (s : State) (port : Nat) (bs : List Byte) : Nat :=
  if beAt bs 12 2 = 0x8100 ∨ beAt bs 12 2 = 0x88A8 then byteAt bs 14 / 32 else s.rd (R.LIF_PFC_CFG_default_pri port)

/-- A packet's bytes join its ingress account (R407). -/
def State.charge407 (s : State) (port id : Nat) (bs : List Byte) : State :=
  if isEther (s.mode port) then
    let k := s.pfcPriority port bs
    let key := port * 8 + k
    let v := sread (fun _ => 0) s.lif.accounts key + bs.length
    { s with lif := { s.lif with accounts := swrite (fun _ => 0) s.lif.accounts key v,
                                 charges := mput s.lif.charges id (key, bs.length) } }.pfcXoff port k
  else s

/-! ### Receive -/

/-- The instant of now in 2^-16 ns, with a port's adjustment (R408). -/
def State.lineStamp (s : State) (adj : Nat) : Nat :=
  ((s.time.sysNs : Int) * 65536 + ((s.time.frac / 1000000000 : Nat) : Int) + signedOf 32 adj).toNat

/-- The bytes a port's ingress FIFO holds (R403): 50,000 for each lane; a client port, which has no lane, is given those of one
(notes/assumptions/30.md). -/
def State.fifoSize (s : State) (port : Nat) : Nat := 50000 * max 1 (s.lanes port)

/-- The FIFO bytes a port's packets reserve. -/
def State.fifoUsed (s : State) (port : Nat) : Nat :=
  sumOf (fun p => min 512 p.len) (s.fd.pkts.filter fun p => !p.egress && p.port == port && p.place == .fifo)

/-- The instant of a port's last packet kept for its LED (R556). -/
def State.touch (s : State) (port : Nat) : State :=
  { s with lif := { s.lif with seen := mput s.lif.seen port s.time.elapsed } }

/-- A frame enters a port's ingress FIFO at an arrival stamp (R43, R83, R94, R403, R404, R407): `eop` as in Packet, `elapsed` the time
of its meter intents (R349). -/
def State.enterFifo (s : State) (port : Nat) (bytes : List Byte) (arrived eop stamp elapsed : Nat) : State :=
  if s.fifoSize port < s.fifoUsed port + min 512 bytes.length then s.bump (R.LIF_RX_FIFO_OVF_count port)
  else
    let held := s.time.sysNs / 2 ^ s.rd R.TBS_TURN_LEN_LOG2_t < s.time.turn
    let tag := if held then s.time.turn else stamp / 2 ^ s.rd R.TBS_TURN_LEN_LOG2_t
    let id := s.fd.nextId
    let q := sread (fun _ => 0) s.fd.seqs port + 1
    let p : Packet :=
      { id := id, egress := false, port := port, pipe := homePipe port, bytes := bytes, arrived := min arrived bytes.length,
        staged := 0, eop := eop, stamp := stamp, tag := tag, seq := q, version := (s.slotAt tag).1, inPort := port,
        place := .fifo, hv := [], stack := [], payload := 0, emit := 0, profile := 0,
        scan := none, lookups := [], keyNext := 0, skipTo := none, drop := none, hardDrop := false, results := [],
        txn := none, cls := none, poison := false, copyOf := none, begun := 0, slots := [], elapsed := elapsed, order := 0, bodyBad := false,
        ucode := 0, since := 0 }
    let s := { s with fd := { s.fd with nextId := id + 1, seqs := mput s.fd.seqs port q } }
    ((s.addPkt p).touch port).charge407 port id bytes

/-- A frame the MAC, or a client's demapper, has received on an UP port (R402 to R404). -/
def State.receiveFrame (s : State) (port : Nat) (bytes : List Byte) (arrived : Nat) (fcsOk : Bool) (adj : Nat) : State :=
  let max_ := s.rd (R.LIF_PORT_CFG_max_frame port)
  let tooLong : Bool := max_ < bytes.length + 4
  let bs := if tooLong then bytes.take (max_ - 4) else bytes
  let early : Bool := bs.length + 4 ≤ 512
  let s := s.onlyIf (tooLong && 64 ≤ bytes.length + 4) fun s => s.bump (R.LIF_RX_OVERSIZE_count port)
  if bytes.length + 4 < 64 then s.bump (R.LIF_RX_RUNT_count port)
  else if early && tooLong then s
  else if early && !fcsOk then s.bump (R.LIF_RX_FCS_count port)
  else if beAt bs 12 2 = 0x8808 then (if fcsOk && !tooLong then s.macControl port bs else s.bump (R.LIF_PFC_RX_count port))
  else
    let stamp := s.lineStamp adj / 65536
    let eop := if early || bs.length ≤ 512 then 0 else if tooLong then 3 else 1
    s.enterFifo port bs (if early then bs.length else arrived) eop stamp s.time.elapsed

/-- FRAME_RECEIVE (R400 to R404, R407, R408): a frame of an Ethernet port, from the destination address to the payload, of which
`arrived` bytes have come. `fcsOk` is the state of its FCS where it ends within 512 bytes; a longer frame's status follows with
EOP_STATUS_ARRIVE. The FEC corrected and could not correct so many codewords of it. -/
def execFrameReceive (port : Nat) (bytes : List Byte) (arrived : Nat) (fcsOk : Bool) (corrected uncorrectable : Nat) (s : State) :
    Host.Outcome State Fault Refusal :=
  ok (if 128 ≤ port || !isEther (s.mode port) || s.refsDead then s
    else
      let st := s.rd (R.LIF_PORT_LC_state port)
      if st = lcDraining then s.bump (R.LIF_RX_DRAINING_count port)
      else if st ≠ lcUp ∨ !s.on (R.LIF_PORT_STATUS_link_up port) then s
      else
        let s := (s.count (R.LIF_FEC_CORR_count port) corrected).count (R.LIF_FEC_UNCORR_count port) uncorrectable
        s.receiveFrame port bytes arrived (fcsOk && uncorrectable == 0) (s.rd (R.LIF_TS_ADJ_RX_adj port)))

/-! ### Lifecycle and link state -/

/-- Whether a port number is a port (R398, R420): it has a mode and is not one of another port's further lanes. -/
def State.isPort (s : State) (p : Nat) : Bool :=
  (isEther (s.mode p) || isOtn (s.mode p) || isClient (s.mode p)) && (match s.portOfLane p with | some q => q == p || isClient (s.mode p) | none => true)

/-- A slice out of frame and out of multiframe, as it is when its port starts (R414). -/
def State.startSlice (s : State) (i : Nat) : State :=
  let s := s.wrWord (R.OTN_SLICE_STATUS i) 0
  let s := (s.wr (R.OTN_SLICE_STATUS_oof i) 1).wr (R.OTN_SLICE_STATUS_oom i) 1
  let x : OtnSlice := ⟨0, 0, 0, 0, 0, s.time.elapsed, s.time.elapsed, s.time.elapsed, false⟩
  { s with lif := { s.lif with slices := mput s.lif.slices i x, layers := mdel (mdel s.lif.layers i) (256 + i) } }

/-- A port enters STARTING: its lanes take their calibration words (R564), its slices begin to look for their frames. -/
def State.portStarts (s : State) (p : Nat) : State :=
  let s := s.takeTrims (List.range (s.lanes p) |>.map (· + p))
  if isOtn (s.mode p) then s.each (s.otnSlices p) fun i s => s.startSlice i else s

/-- The enable of a port (R400, R503), by a function's write or by firmware at the start (function 0); one that names no port is not
accepted. -/
def State.enablePort (s : State) (fn p : Nat) : State :=
  if !s.isPort p && s.rd (R.LIF_PORT_LC_state p) == lcDown then s.lateErr fn 0 (R.LIF_PORT_LC p) leWrongState false
  else
    let was := s.rd (R.LIF_PORT_LC_state p)
    let s := s.lcWrite (R.LIF_PORT_LC p) true false
    s.onlyIf (was == lcDown) fun s => s.portStarts p

/-- PORT_ENABLE (R400, R503): a write of enable to LIF_PORT_LC_p. -/
def execPortEnable (fn be p : Nat) (s : State) : Host.Outcome State Fault Refusal :=
  ok (if 128 ≤ p then s else s.hostWrite fn (R.LIF_PORT_LC p) be true fun s => s.enablePort fn p)

/-- A port's link down (R401), with the conditions that are left. -/
def State.linkDownAs (s : State) (p : Nat) (lock fec hiSer : Bool) : State :=
  let s := (s.wr (R.LIF_PORT_STATUS_link_up p) 0).wrBit (R.LIF_PORT_STATUS_pcs_lock p) lock
  ((s.wrBit (R.LIF_PORT_STATUS_fec_lock p) fec).wrBit (R.LIF_PORT_STATUS_hi_ser p) hiSer).rclkSync

/-- A port is DOWN: its SerDes is powered down (R512), its pauses have ended, and in a swap it takes the new page (R424). -/
def State.portDown (s : State) (p : Nat) : State :=
  let s := (s.linkDownAs p false false false)
  let s := s.each ((List.range 8).filter fun k => (mget s.lif.pauses (p * 8 + k)).isSome) fun k s => s.setPause p k none
  s.pageChanged p

/-- PORT_DISABLE (R335, R400, R503): a write of disable to LIF_PORT_LC_p; the egress queues of an UP port are flushed from now on. -/
def execPortDisable (fn be p : Nat) (s : State) : Host.Outcome State Fault Refusal :=
  ok (if 128 ≤ p then s
    else s.hostWrite fn (R.LIF_PORT_LC p) be true fun s =>
      let was := s.rd (R.LIF_PORT_LC_state p)
      let s := s.lcWrite (R.LIF_PORT_LC p) false true
      s.onlyIf (was == lcStarting) fun s => s.portDown p)

/-- PORT_DRAIN_DONE (R335, R400, R504): no queue of the port holds a copy and no packet for it is left in the FD's egress path. -/
def execPortDrainDone (p : Nat) (s : State) : Host.Outcome State Fault Refusal :=
  ok (if 128 ≤ p || s.rd (R.LIF_PORT_LC_state p) != lcDraining || !(s.heldQueues p).isEmpty ||
        s.fd.pkts.any (fun x => x.egress && x.port == p) then s
    else
      let s := (s.lcEndDrain (R.LIF_PORT_LC p)).portDown p
      s.onlyIf (s.rd (R.LIF_PORT_LC_state p) == lcStarting) fun s => s.portStarts p)

/-- A STARTING port becomes UP (R400), and with it its port node, whose buckets are full (R346; notes/assumptions/199.md). -/
def State.portUp (s : State) (p : Nat) : State :=
  if s.rd (R.LIF_PORT_LC_state p) = lcStarting then
    let s := s.setLc (R.LIF_PORT_LC p) lcUp
    s.onlyIf (!s.tdDown) fun s => s.fillBuckets 0 p
  else s

/-- LINE_LINK_UP (R401): an Ethernet port's PCS and FEC have lock without a high error ratio; an OTN port is in frame and in
multiframe on every slice; nothing replaces a client port's ODU with ODU-AIS. -/
def execLineLinkUp (p : Nat) (s : State) : Host.Outcome State Fault Refusal :=
  let m := s.mode p
  let fec := isEther m && m != 9 && (m != 8 || s.rd (R.LIF_PORT_CFG_fec p) == 1)
  let may := if isOtn m then (s.otnSlices p).all fun i => !s.on (R.OTN_SLICE_STATUS_oof i) && !s.on (R.OTN_SLICE_STATUS_oom i)
    else if isClient m then s.clientBound p && !s.clientAis p else isEther m
  ok (if 128 ≤ p || s.rd (R.LIF_PORT_LC_state p) == lcDown || !may then s
    else
      let s := (s.wr (R.LIF_PORT_STATUS_link_up p) 1).wr (R.LIF_PORT_STATUS_pcs_lock p) 1
      ((s.wrBit (R.LIF_PORT_STATUS_fec_lock p) fec).wr (R.LIF_PORT_STATUS_hi_ser p) 0).rclkSync)

/-- LINE_LINK_DOWN (R56, R401): a condition of the link is lost; what is left of lock, FEC lock and high error ratio. -/
def execLineLinkDown (p : Nat) (lock fec hiSer : Bool) (s : State) : Host.Outcome State Fault Refusal :=
  ok (if 128 ≤ p || s.rd (R.LIF_PORT_LC_state p) == lcDown then s else s.linkDownAs p lock fec hiSer)

/-! ### Transmit -/

/-- The transmit operation a packet asks for (R409). -/
structure TsOp where
  op     : Nat
  csum   : Bool
  off    : Nat
  csumAt : Nat
  tag    : Nat
  deriving DecidableEq, Repr

/-- Metadata bytes 56 to 63 of an egress header vector (R409). -/
def tsOp (hv : List Byte) : TsOp :=
  ⟨byteAt hv 56 % 4, bitAt (byteAt hv 56) 2, hvNum hv 58 2, hvNum hv 60 2, hvNum hv 62 2⟩

/-- A field of a frame replaced, and the UDP checksum at `c` brought in line with the change: ones' complement arithmetic over the
16-bit words that lie even to it (R409). -/
def rewriteField (bs : List Byte) (off : Nat) (new : List Byte) (csum : Option Nat) : List Byte :=
  let out := overlay bs off new
  match csum with
  | none => out
  | some c =>
    let weight (i : Nat) : Nat := if i % 2 = c % 2 then 256 else 1
    let gain : Int := (List.range new.length).foldl (fun n k =>
      n + ((byteAt out (off + k) : Int) - (byteAt bs (off + k) : Int)) * (weight (off + k) : Int)) 0
    let sum := (((65535 - beAt bs c 2 : Nat) : Int) + gain) % 65535
    overlay out c (beBytes 2 (65535 - sum.toNat))

/-- A packet's timestamp operation on its frame at the transmit instant `t` in 2^-16 ns (R409): the frame, and whether the operation
could not be performed. -/
def Packet.stampFrame (p : Packet) (bs : List Byte) (t : Nat) (allowed : Bool) : List Byte × Bool :=
  let x := tsOp p.hv
  let len := if x.op = 2 then 10 else 8
  let inside (o n : Nat) : Bool := o + n ≤ 512 && o + n ≤ bs.length
  if x.op = 0 then (bs, false)
  else if !allowed then (bs, true)
  else if x.op = 1 then (bs, false)
  else if !inside x.off len || (x.csum && !inside x.csumAt 2) then (bs, true)
  else
    let new := if x.op = 2 then beBytes 6 (t / 65536 / 1000000000) ++ beBytes 4 (t / 65536 % 1000000000)
      else beBytes 8 (ofSigned 64 ((beAt bs x.off 8 : Int) + (t : Int) - ((p.stamp * 65536 : Nat) : Int)))
    (rewriteField bs x.off new (if x.csum then some x.csumAt else none), false)

/-- A TWO_STEP timestamp put into the port's FIFO, or discarded when it is full (R410). -/
def State.pushStamp (s : State) (port tag t : Nat) : State :=
  let q := sread (fun _ => []) s.lif.tsFifo port
  if 64 ≤ q.length then s.wr (R.LIF_TS_STATUS_overflow port) 1
  else
    let s := { s with lif := { s.lif with tsFifo := mput s.lif.tsFifo port (q ++ [(tag, t / 65536, t % 65536)]) } }
    s.wr (R.LIF_TS_STATUS_fill port) (q.length + 1)

/-- The frame a MAC or mapper sends for a packet, counted as transmitted when it ends (R408 to R410, R466): `fcs` the FCS to send where
it is not that of the bytes, `cut` ends the frame after so many bytes with the complement of its FCS. -/
def State.macSend (s : State) (p : Packet) (bs : List Byte) (fcs : Option Nat) (cut : Option Nat) : State :=
  let t := s.lineStamp (s.rd (R.LIF_TS_ADJ_TX_adj p.port))
  let r := p.stampFrame bs t (isEther (s.mode p.port))
  let s := s.onlyIf r.2 fun s => s.bump (R.LIF_TS_BAD_count p.port)
  let s := s.onlyIf ((tsOp p.hv).op == 1 && isEther (s.mode p.port)) fun s => s.pushStamp p.port (tsOp p.hv).tag t
  let out := match cut with | some n => r.1.take n | none => r.1
  let good := if r.1 = bs then fcs.getD (fcs32 out) else fcs32 out
  let s := s.emit (.frame p.port (out ++ leBytes 4 (if cut.isSome then 0xFFFFFFFF - fcs32 out else good)))
  ((s.countAs csEgress p.port 0 1 p.staged s.time.turn).touch p.port).delPkt p.id

/-- A packet handed to the MAC (R315, R401, R405): discarded while the link is down; dropped where its bytes are poisoned, or ended with
the complement of its FCS once it has begun. -/
def State.toMac (s : State) (p : Packet) (bs : List Byte) (fcs : Option Nat) (begun : Bool) (underrun : Option Nat) : State :=
  let st := s.rd (R.LIF_PORT_LC_state p.port)
  if !(st == lcUp || st == lcDraining) || !s.on (R.LIF_PORT_STATUS_link_up p.port) then
    (s.bump (R.LIF_TX_LINK_DOWN_count p.port)).delPkt p.id
  else
    let cut := begun && s.on (R.LIF_PORT_MTU_cut_through p.port) && 400000 ≤ s.portRate p.port && 2048 < bs.length
    if p.poison then
      let s := s.bump R.MIF_POISON_CONSUMED_count
      if cut then
        ((s.bump R.MIF_POISON_STOMPED_count).dropEgress p.port drPoison p.staged).macSend p bs none (some bs.length)
      else s.dropPkt p drPoison
    else
      match (if cut then underrun else none) with
      | some n => (s.bump (R.LIF_TX_UNDERRUN_count p.port)).macSend p bs none (some (max 2048 n))
      | none => s.macSend p bs fcs none

/-- Frames a Dice unit held back, named by their packets, pass on to the MAC (R393). -/
def State.sendHeld (s : State) (units : List (List Byte)) : State :=
  s.each units fun u s => s.withPkt (leNat u) fun p s => s.toMac p p.bytes none false none

/-- FRAME_TRANSMIT (R315, R393, R401, R405, R408, R409, R420, R466): the oldest packet of a port's transmit queue passes its Dice unit
to the MAC or mapper. `begun` says that a cut-through transmission had begun when a poisoned or missing byte was met, `underrun` after
how many bytes the frame ran out of them. -/
def execFrameTransmit (id : Nat) (begun : Bool) (underrun : Option Nat) (s : State) : Host.Outcome State Fault Refusal :=
  ok (s.withPkt id fun p s =>
    if !p.egress || p.place != .txQueue || !s.fdRuns || !s.oldestOf p (fun q => q.place == .txQueue) then s
    else
      let u := dicePort p.port
      let r := s.diceDraw u
      let s := r.2
      if r.1 = .reorder then (s.setPkt { p with place := .diceHold }).diceHold u (leBytes 8 p.id)
      else
        let s := match r.1 with
          | .drop => s.dropPkt p drDice
          | .corrupt =>
            let head := s.rd (R.DICE_CTRL_corrupt_kind u) == 2
            s.toMac p (s.diceCorrupt u 64 p.bytes) (if head then none else some (fcs32 p.bytes)) begun underrun
          | _ => s.toMac p p.bytes none begun underrun
        let h := s.diceRelease u
        h.2.sendHeld h.1)

/-- TS_FIFO_POP (R410): a full read of LIF_TS_POP_p pops the oldest timestamp and returns it; a narrow one pops nothing. -/
def execTsFifoPop (fn be p : Nat) (s : State) : Host.Outcome State Fault Refusal :=
  ok (if 128 ≤ p then s
    else s.hostRead fn (R.LIF_TS_POP p) fun s =>
      let s :=
        if be ≠ 15 then s else s.tsPop p
      s.emit (.read fn (s.rdWord (R.LIF_TS_POP p) &&& beMask be).toNat))

/-! ### Packet clients of OTN ports -/

/-- CLIENT_FRAME_DEMAP (R33, R402, R404, R408, R417, R420, R421): a frame extracted from a client's ODUflex; `gfp` is its GFP frame's
header where the client is mapped by GFP-F. -/
def execClientFrameDemap (client : Nat) (gfp : GfpHead) (bytes : List Byte) (arrived : Nat) (fcsOk : Bool) (s : State) :
    Host.Outcome State Fault Refusal :=
  ok (if 128 ≤ client || !s.clientBound client || s.refsDead || s.clientAis client then s
    else
      let g := !s.on (R.OTN_CLIENT_w0_map client)
      let s := s.onlyIf (g && gfp.corrected) fun s => s.bump (R.OTN_CLIENT_HEC_count client)
      if g && gfp.idle then s
      else if (g && (gfp.pti != 0 || gfp.upi != 1 || !gfp.thecOk || (gfp.pfi && !gfp.pfcsOk))) || s.on (R.OTN_CLIENT_w1_plm client) then
        s.bump (R.OTN_CLIENT_DISC_count client)
      else
        let st := s.rd (R.LIF_PORT_LC_state client)
        if st = lcDraining then s.bump (R.LIF_RX_DRAINING_count client)
        else if st ≠ lcUp then s
        else s.receiveFrame client bytes arrived fcsOk 0)

end Sys2Proof.Machine
end

