-- ==== Sys2Proof/Machine/Links.lean ====
section
/-!
DEFINITION. Machine/Links.lean: the commands of the fabric links (R356 to R358, R373, R377, R381 to R384): lifecycle, lane markers,
hellos, reachability and link status messages, recovery.
-/

namespace Sys2Proof.Machine

/-- The enable of a link (R357, R382), by a function's write or by firmware (function 0); refused while the device number is not valid. -/
def State.enableLink (s : State) (fn l : Nat) : State :=
  let a := R.FAB_LINK_LC l
  if !s.on R.FAB_CFG_dev_valid then s.lateErr fn 0 a leWrongState false
  else
    let t := s.lcWrite a true false
    if s.linkState l = lcDown then t.startLink l else t

/-- LINK_ENABLE (R357, R382): enable written to FAB_LINK_LC_l. -/
def execLinkEnable (fn be l : Nat) (s : State) : Host.Outcome State Fault Refusal :=
  ok (if 160 ≤ l then s else s.hostWrite fn (R.FAB_LINK_LC l) be true fun s => s.enableLink fn l)

/-- LINK_DISABLE (R357, R383): disable written to FAB_LINK_LC_l: an UP link leaves every spray set. -/
def execLinkDisable (fn be l : Nat) (s : State) : Host.Outcome State Fault Refusal :=
  let a := R.FAB_LINK_LC l
  ok (if 160 ≤ l then s
    else s.hostWrite fn a be true fun s => (s.lcWrite a false true).reachSync)

/-- LINK_DRAIN_DONE (R357, R382, R504): nothing waits on a DRAINING link: it is DOWN, or STARTING again under pend_up. -/
def execLinkDrainDone (l : Nat) (s : State) : Host.Outcome State Fault Refusal :=
  let x := s.link l
  ok (if 160 ≤ l || s.linkState l != lcDraining || !x.queue.isEmpty || !x.ctl.isEmpty then s
    else
      let was := s.badLinks
      let s := s.setLink l { x with downAt := if s.on (R.FAB_LINK_STATUS_isolated l) then some s.time.elapsed else none, msgs := [] }
      let s := (s.wr (R.FAB_LINK_STATUS_fec_lock l) 0).lcEndDrain (R.FAB_LINK_LC l)
      ((s.startLink l).reachSync).spareCheck was)

/-- LANE_MARKER_CHECK (R356): the slot at a marker's place holds the marker of the link's generation, or it does not; three in a row make or
lose FEC lock. -/
def execLaneMarkerCheck (l : Nat) (slot : List Byte) (s : State) : Host.Outcome State Fault Refusal :=
  ok (if 160 ≤ l || s.linkState l == lcDown || s.tdDown then s
    else
      let x := s.link l
      let y := if isMarker (s.linkGen l) slot then { x with hits := min 3 (x.hits + 1), misses := 0 } else { x with hits := 0, misses := min 3 (x.misses + 1) }
      let s := s.setLink l y
      if y.hits = 3 then s.wr (R.FAB_LINK_STATUS_fec_lock l) 1
      else if y.misses = 3 then s.wr (R.FAB_LINK_STATUS_fec_lock l) 0
      else s)

/-- The payload of a hello (R377). -/
def State.helloBody (s : State) (l : Nat) : List Byte :=
  let x := s.link l
  [0, BitVec.ofNat 8 (s.linkGen l)] ++ leBytes 2 s.self ++ leBytes 2 s.fw.interop ++ leBytes 2 0xF ++ leBytes 2 x.dcrOut ++
    leBytes 2 x.ccrOut ++ [BitVec.ofNat 8 (bit01 x.heard), 0, 0, 0]

/-- HELLO_SEND (R357, R358, R377): the next hello of a link: 2 us after the last in STARTING, once it has FEC lock; 10 us while UP. -/
def execHelloSend (l : Nat) (s : State) : Host.Outcome State Fault Refusal :=
  ok (if 160 ≤ l || s.tdDown then s
    else
      let x := s.link l
      let st := s.linkState l
      let gap := if st = lcUp then 10000 else 2000
      let may := st == lcUp || (st == lcStarting && s.on (R.FAB_LINK_STATUS_fec_lock l))
      if may && (x.sentHello == 0 || x.sentHello + gap ≤ s.time.elapsed) then
        s.setLink l { x with sentHello := s.time.elapsed, msgs := x.msgs ++ [ctlMessage 0x01 0 (s.helloBody l)] }
      else s)

/-- The oldest message of a kind received on a link, taken out. -/
def State.takeMsg (s : State) (p : InMsg → Bool) : Option (InMsg × State) :=
  (s.fab.inbox.find? p).map fun m => (m, { s with fab := { s.fab with inbox := s.fab.inbox.erase m } })

/-- Whether a hello's sender is not the peer the link is wired for (R357, R389). -/
def State.wrongPeer (s : State) (l kind gen device : Nat) : Bool :=
  gen != s.linkGen l ||
    (s.on R.FAB_CFG_mesh && (kind != 0 || match (if l < 159 then some (l / 53) else
      if s.rd R.FAB_MESH_CFG_spare_bundle = 3 then none else some (s.rd R.FAB_MESH_CFG_spare_bundle)) with
      | some k => s.meshPeer k != device
      | none => true))

/-- HELLO_RECEIVE (R357, R358, R360, R365, R377, R389, R531): the oldest hello received on a link. -/
def execHelloReceive (l : Nat) (s : State) : Host.Outcome State Fault Refusal :=
  ok (match s.takeMsg fun m => m.link == l && m.kind == 1 with
    | none => s
    | some (m, s) =>
      let kind := byteAt m.body 0
      let gen := byteAt m.body 1
      let device := leAt m.body 2 2 % 2 ^ 11
      if s.linkState l = lcDown then s
      else if s.wrongPeer l kind gen device then s.wr (R.FAB_LINK_STATUS_gen_mismatch l) 1
      else
        let x := s.link l
        let mesh := s.on R.FAB_CFG_mesh
        let x := { x with heard := true, acked := x.acked || bitAt (byteAt m.body 12) 0, lastHello := s.time.elapsed,
                          dcrIn := leAt m.body 8 2, ccrIn := leAt m.body 10 2,
                          reach := if mesh then 2 ^ (device % 512) else x.reach }
        let s := ((s.setLink l x).wr (R.FAB_LINK_STATUS_gen_mismatch l) 0).wrBit (R.FAB_LINK_STATUS_peer_device l) (kind == 0)
        let s := s.wr (R.FAB_LINK_STATUS_peer l) device
        let s := if kind = 0 then { s with fab := { s.fab with feats := mput s.fab.feats device (leAt m.body 6 2) } }
          else { s with fab := { s.fab with
            peers := mput s.fab.peers (2048 + device) ⟨leAt m.body 4 2, 0, 0xFFFF, s.time.elapsed⟩ } }.peerSync
        if s.linkState l = lcStarting && x.acked && s.on (R.FAB_LINK_STATUS_fec_lock l) then
          ((s.setLink l { x with wasUp := true, statusAt := s.time.elapsed }).setLc (R.FAB_LINK_LC l) lcUp).reachSync
        else s.onlyIf mesh fun s => s.reachSync)

/-- HELLO_TIMEOUT (R358, R382): 50 us without a hello isolate an UP link. -/
def execHelloTimeout (l : Nat) (s : State) : Host.Outcome State Fault Refusal :=
  ok (if 160 ≤ l || s.linkState l != lcUp || s.time.elapsed < (s.link l).lastHello + 50000 then s else s.isolate l)

/-- REACH_RECEIVE (R365, R373, R377): the oldest reachability message received on a link. -/
def execReachReceive (l : Nat) (s : State) : Host.Outcome State Fault Refusal :=
  ok (match s.takeMsg fun m => m.link == l && m.kind == 2 with
    | none => s
    | some (m, s) =>
      let b := byteAt m.body 0 % 16
      let bits := leAt m.body 4 4
      let ft := leAt m.body 8 16
      let x := s.link l
      let reach := x.reach - bitsAt x.reach (32 * b) 32 * 2 ^ (32 * b) + bits * 2 ^ (32 * b)
      let s := s.setLink l { x with reach := reach, reachAt := s.time.elapsed }
      let s := s.each (List.range 32) fun j s =>
        if bitAt bits j then { s with fab := { s.fab with feats := mput s.fab.feats (32 * b + j) (bitsAt ft (4 * j) 4) } } else s
      s.reachSync)

/-- REACH_LAPSE (R373): three periods without a message end what a link reaches. -/
def execReachLapse (l : Nat) (s : State) : Host.Outcome State Fault Refusal :=
  let x := s.link l
  ok (if 160 ≤ l || s.on R.FAB_CFG_mesh || x.reach == 0 ||
        s.time.elapsed < x.reachAt + 3000 * s.rd R.FAB_REACH_CFG_period_us then s
    else (s.setLink l { x with reach := 0 }).reachSync)

/-- LINK_STATUS_SEND (R377, R381): every 10 us an UP link reports what it has discarded. -/
def execLinkStatusSend (l : Nat) (s : State) : Host.Outcome State Fault Refusal :=
  let x := s.link l
  ok (if 160 ≤ l || s.linkState l != lcUp || s.time.elapsed < x.statusAt + 10000 then s
    else
      let body := leBytes 4 x.discards ++ [BitVec.ofNat 8 (s.rd (R.FAB_LINK_ERR_rec l)), BitVec.ofNat 8 (s.rd (R.FAB_LINK_ERR_tec l)), 0, 0]
      s.setLink l { x with discards := 0, statusAt := s.time.elapsed, msgs := x.msgs ++ [ctlMessage 0x03 0 body] })

/-- LINK_STATUS_RECEIVE (R381): the peer's discards raise TEC. -/
def execLinkStatusReceive (l : Nat) (s : State) : Host.Outcome State Fault Refusal :=
  ok (match s.takeMsg fun m => m.link == l && m.kind == 3 with
    | none => s
    | some (m, s) => s.setErrors l (s.rd (R.FAB_LINK_ERR_rec l)) (s.rd (R.FAB_LINK_ERR_tec l) + 8 * leAt m.body 0 4))

/-- LINK_RECOVER (R382): a degraded link whose counters have been below recover for recover_ms carries data again. -/
def execLinkRecover (l : Nat) (s : State) : Host.Outcome State Fault Refusal :=
  ok (match (s.link l).lowSince with
    | some t =>
      if s.linkState l = lcUp && s.on (R.FAB_LINK_STATUS_degraded l) &&
          t + 1000000 * s.rd R.FAB_ERR_CFG_recover_ms ≤ s.time.elapsed then
        let s := (s.wr (R.FAB_LINK_STATUS_degraded l) 0).setLink l { s.link l with lowSince := none }
        s.newSets.event sevInfo (R.FAB_LINK_STATUS l)
      else s
    | none => s)

/-- LINK_AUTO_RESTART (R382): with auto_restart, an isolated link is enabled 100 ms after it became DOWN. -/
def execLinkAutoRestart (l : Nat) (s : State) : Host.Outcome State Fault Refusal :=
  ok (match (s.link l).downAt with
    | some t =>
      if s.on R.FAB_SPARE_CFG_auto_restart && s.linkState l == lcDown && t + 100000000 ≤ s.time.elapsed then
        { s with fab := { s.fab with links := mput s.fab.links l { s.link l with downAt := none } } }.enableLink 0 l
      else s
    | none => s)

end Sys2Proof.Machine
end

