-- ==== Sys2Proof/Machine/Bridge.lean ====
section
/-!
DEFINITION. Machine/Bridge.lean: the die bridge: retry and poison (R18, R19), lane failure and spares (R21, R22), and its Dice units (R23,
R393). Groups 0 to 11 carry units from the FD to the TD, 12 to 23 from the TD to the FD.
-/

namespace Sys2Proof.Machine

/-- The bit of TGL_BRG_STATUS that shows a group in service (R24). -/
def brgUp (g : Nat) : Fld := ⟨R.TGL_BRG_STATUS, g, 1⟩

/-- Whether a unit's contents cross in a group's direction (R15, R34). -/
def BrgLoad.fits (x : BrgLoad) (g : Nat) : Bool :=
  match x with
  | .bytes _ => true
  | .verdict _ => 12 ≤ g
  | .readData _ _ => 12 ≤ g
  | .descriptor _ => g < 12
  | .write _ _ => g < 12
  | .command _ => g < 12

/-- The class a unit's contents cross in (R16): 0 packet, 1 verdict, 2 management. -/
def BrgLoad.cls (x : BrgLoad) : Nat :=
  match x with
  | .bytes _ => 0
  | .descriptor _ => 0
  | .verdict _ => 1
  | .readData _ _ => 2
  | .write _ _ => 2
  | .command _ => 2

/-- Whether a unit's contents are on the bridge in a group's direction: what a unit can carry is what the other die sends (R15). -/
def State.onBridge (s : State) (g : Nat) (x : BrgLoad) : Bool :=
  match x with
  | .bytes pkt =>
    if g < 12 then (s.brg.descs.any fun d => d.pkt == pkt && !d.taken) || (s.fd.pkts.any fun p => p.id == pkt && !p.egress)
    else s.fd.pkts.any fun p => p.id == pkt && p.crossing
  | .descriptor pkt => s.brg.descs.any fun d => d.pkt == pkt && !d.taken
  | .verdict pkt => s.brg.verdicts.any fun v => v.pkt == pkt
  | _ => true

/-- Groups in service in each direction. -/
def State.groupsUp (s : State) (toFd : Bool) : Nat :=
  ((List.range 12).filter fun g => s.on (brgUp (if toFd then 12 + g else g))).length

/-- Whether fewer than 11 groups are in service in a direction (R22). -/
def State.brgLow (s : State) : Bool := s.groupsUp false < 11 || s.groupsUp true < 11

/-- TGL_BRG_STATUS.degraded brought in line; the fall below 11 groups in a direction raises a CRIT event (R22). -/
def State.brgSync (s : State) : State :=
  let low := s.brgLow
  let was := s.on R.TGL_BRG_STATUS_degraded
  let s := s.wrBit R.TGL_BRG_STATUS_degraded low
  if low && !was then s.event sevCrit R.TGL_BRG_STATUS else s

/-- The retired groups of the bridge shown in TGL_BRG_STATUS after a reset, and whether the bridge is degraded (R22, R24). -/
def State.showGroups (s : State) : State :=
  let s := s.each (List.range 24) fun g s => s.onlyIf (s.on (R.TGL_BRG_GRP_retired g)) fun s => s.wr (brgUp g) 0
  s.wrBit R.TGL_BRG_STATUS_degraded s.brgLow

/-- The retries of the unit under way in a group. -/
def State.brgRetries (s : State) (g : Nat) : Nat := sread (fun _ => 0) s.brg.retry g

/-- The retries and the replay request of a group set, with what the unit under way carries while it has been retried. -/
def State.setRetry (s : State) (g n : Nat) (replay : Bool) (load : Option BrgLoad) : State :=
  let rest := s.brg.replay.filter fun x => x != g
  { s with brg := { s.brg with retry := swrite (fun _ => 0) s.brg.retry g n,
                               replay := if replay then rest ++ [g] else rest,
                               under := match load with | some x => mput s.brg.under g x | none => mdel s.brg.under g } }

/-- The packet whose bytes a unit carried goes on with the poison mark (R19): an egress packet as it stands; towards the TD its
descriptor, or the bytes the TD holds of a packet still on the FD, which go on in its descriptor. -/
def State.poisonBytes (s : State) (pkt : Nat) : State :=
  let descs := s.brg.descs.map fun d => if d.pkt = pkt then { d with poison := true } else d
  let s := { s with brg := { s.brg with descs := descs } }
  s.withPkt pkt fun p s => s.setPkt (if p.egress then { p with poison := true } else { p with bodyBad := true })

/-- What a unit delivered poisoned, or lost, does by its contents (R19): bytes keep the mark; a descriptor is refused by the TD; a verdict
arrives poisoned, and the FD asks for it again (VERDICT_RECEIVE); a read is aborted, a write dropped, each with its late-error entry; a
command completes PEER_UNAVAILABLE. -/
def State.unitLost (s : State) (x : BrgLoad) : State :=
  match x with
  | .bytes pkt => s.poisonBytes pkt
  | .descriptor pkt =>
    { s with brg := { s.brg with descs := s.brg.descs.map fun d => if d.pkt = pkt then { d with bad := true } else d } }
  | .verdict pkt =>
    { s with brg := { s.brg with verdicts := s.brg.verdicts.map fun v => if v.pkt = pkt then { v with bad := true } else v } }
  | .readData fn addr => if s.answers fn then (s.lateErr fn 0 addr leBridgeError true).emit (.abort fn) else s
  | .write fn addr => if s.answers fn then (s.acceptWrite fn).lateErr fn 0 addr leBridgeError false else s
  | .command c => if s.answered c then s else s.complete c stPeerUnavailable

/-- A descriptor taken off the bridge, with its staged body and its charge. -/
def State.dropDesc (s : State) (d : Desc) : State :=
  let s := s.uncharge d.pkt
  { s with brg := { s.brg with descs := s.brg.descs.erase d, notices := s.brg.notices ++ [d.pkt] } }

/-- A unit a Dice unit removes (R23, R393): the packet is dropped with DICE_INJECTED, under its ingress port towards the TD and its egress
port from it; a transaction that waits for the verdict aborts. Other contents are as lost. -/
def State.unitDropped (s : State) (x : BrgLoad) : State :=
  let ofDesc (pkt : Nat) (s : State) : State :=
    match s.brg.descs.find? fun d => d.pkt == pkt with
    | none => s
    | some d =>
      let s := (s.dropDesc d).dropIngress d.port drDice d.bytes.length d.tag
      if d.waits then
        let v : Verdict := ⟨d.pkt, false, drDice, s.time.elapsed, false⟩
        { s with brg := { s.brg with verdicts := s.brg.verdicts ++ [v] } }
      else s
  match x with
  | .descriptor pkt => ofDesc pkt s
  | .bytes pkt =>
    match s.pkt pkt with
    | some p =>
      if p.place == .verdict then ofDesc pkt s
      else if p.egress then s.dropPkt p drDice
      else s.setPkt (p.fail drDice)
    | none => ofDesc pkt s
  | _ => s.unitLost x

/-- What a Dice unit notes of a unit of traffic it holds back: the packet, and 0 descriptor, 1 verdict, 2 egress packet. -/
def heldUnit (kind pkt : Nat) : List Byte := leBytes 8 pkt ++ [BitVec.ofNat 8 kind]

/-- What a Dice unit held back comes out again, behind what has been accepted since. -/
def State.unitsBack (s : State) (units : List (List Byte)) : State :=
  s.each units fun u s =>
    let id := leAt u 0 8
    match byteAt u 8 with
    | 0 =>
      match s.brg.held.find? fun d => d.pkt == id with
      | none => s
      | some d => { s with brg := { s.brg with held := s.brg.held.erase d, descs := s.brg.descs ++ [d] } }
    | 1 =>
      match s.brg.heldV.find? fun v => v.pkt == id with
      | none => s
      | some v => { s with brg := { s.brg with heldV := s.brg.heldV.erase v, verdicts := s.brg.verdicts ++ [v] } }
    | _ => s.withPkt id fun p s => s.setPkt { p with place := .stageWait 0 }

/-- A unit of traffic a Dice unit holds back (R393): a descriptor, a verdict, or an egress packet, which waits in front of its section. Body
bytes and management accesses take effect by commands of their own, which nothing orders against this unit. -/
def State.unitHeld (s : State) (g : Nat) (x : BrgLoad) : State :=
  match x with
  | .descriptor pkt =>
    match s.brg.descs.find? fun d => d.pkt == pkt with
    | none => s
    | some d => { s with brg := { s.brg with held := s.brg.held ++ [d], descs := s.brg.descs.erase d } }.diceHold
        (diceGroup g) (heldUnit 0 pkt)
  | .verdict pkt =>
    match s.brg.verdicts.find? fun v => v.pkt == pkt with
    | none => s
    | some v => { s with brg := { s.brg with heldV := s.brg.heldV ++ [v], verdicts := s.brg.verdicts.erase v } }.diceHold
        (diceGroup g) (heldUnit 1 pkt)
  | .bytes pkt =>
    if g < 12 then s
    else s.withPkt pkt fun p s => (s.setPkt { p with place := .diceHold }).diceHold (diceGroup g) (heldUnit 2 pkt)
  | _ => s

/-- A unit with an error (R18, R19): a replay is requested, up to 7 times; then it is delivered poisoned. -/
def State.unitBad (s : State) (g : Nat) (x : BrgLoad) : State :=
  let n := s.brgRetries g
  if n < 7 then s.setRetry g n true (some x)
  else
    let s := (s.setRetry g 0 false none).bump R.TGL_BRG_UNRECOV_count
    let s := (s.bump (R.MIF_POISON_SRC_count 2)).event sevErr R.TGL_BRG_UNRECOV
    s.unitLost x

/-- BRIDGE_UNIT_RECEIVE (R17 to R19, R23, R393): a transfer unit arrives in a group. A good one is delivered: its contents take effect by
their own commands, in the order of R17. The group's Dice unit acts on a unit's first passage; a unit that was retried is the one that
arrives next in its group. -/
def execBridgeUnitReceive (g : Nat) (good : Bool) (load : BrgLoad) (s : State) : Host.Outcome State Fault Refusal :=
  ok (if 24 ≤ g || !s.on (brgUp g) || s.brg.replay.contains g || s.tdDown || !load.fits g || !s.onBridge g load ||
      (mget s.brg.under g).any (fun x => x != load) then s
    else
      let u := diceGroup g
      let r := if s.brgRetries g = 0 then s.diceDraw u else (DiceAct.pass, s)
      let s := r.2
      match r.1 with
      | .reorder => s.unitHeld g load
      | a =>
        let s :=
          if a = .drop then s.unitDropped load
          else if good && a != .corrupt then s.setRetry g 0 false none
          else s.unitBad g load
        let h := s.diceRelease u
        h.2.unitsBack h.1)

/-- BRIDGE_REPLAY_REQUEST (R18, R24): the sending die resends the unit from its replay buffer. -/
def execBridgeReplayRequest (g : Nat) (s : State) : Host.Outcome State Fault Refusal :=
  ok (if s.brg.replay.contains g then
      let s := s.setRetry g (s.brgRetries g + 1) false (mget s.brg.under g)
      let n := s.rd64 R.TGL_BRG_RETRY_LO_retries_lo R.TGL_BRG_RETRY_HI_retries_hi
      (s.wr64 R.TGL_BRG_RETRY_LO_retries_lo R.TGL_BRG_RETRY_HI_retries_hi (n + 1)).pmuTd 0x128 15 1
    else s)

/-- BRIDGE_LANE_FAILURE (R21, R22): the group leaves service while a spare is switched in, its units resent on the others; a group
without a spare left is retired for the rest of the power-on period. -/
def execBridgeLaneFailure (g : Nat) (s : State) : Host.Outcome State Fault Refusal :=
  ok (if 24 ≤ g || s.tdDown || !s.on (brgUp g) then s
    else
      let s := (s.wr (brgUp g) 0).setRetry g 0 false none
      let used := s.rd (R.TGL_BRG_GRP_spares_used g)
      let s := if used < 2 then
          { s.wr (R.TGL_BRG_GRP_spares_used g) (used + 1) with
            brg := { s.brg with switching := s.brg.switching ++ [g] } }
        else (s.wr (R.TGL_BRG_GRP_retired g) 1).event sevErr (R.TGL_BRG_GRP g)
      s.brgSync)

/-- SPARE_LANE_SWITCH_DONE (R21): the group returns at full capacity; the switch is counted and raises an INFO event. -/
def execSpareLaneSwitchDone (g : Nat) (s : State) : Host.Outcome State Fault Refusal :=
  ok (if s.brg.switching.contains g then
      let s := { s with brg := { s.brg with switching := s.brg.switching.erase g } }
      (((s.wr (brgUp g) 1).bump (R.TGL_BRG_GRP_switches g)).brgSync).event sevInfo (R.TGL_BRG_GRP g)
    else s)

end Sys2Proof.Machine
end

