-- ==== Sys2Proof/Machine/Recipe.lean ====
section
/-!
DEFINITION. Machine/Recipe.lean: version slots from load to activation (R72 to R92). RECIPE_SLOT_RELEASE stands in
Machine/Release.lean, the activation boundary in Machine/Boundary.lean.
-/

namespace Sys2Proof.Machine

/-! ### Slots and their storage -/

/-- The state codes of a slot (R75). -/
def slEmpty : Nat := 0
def slLoading : Nat := 1
def slReady : Nat := 2
def slActive : Nat := 3
def slRetiring : Nat := 4

/-- The field that shows a slot's state. -/
def slotFld (slot : Nat) : Fld := if slot = 0 then R.FWS_RCP_STATUS_slot_a_state else R.FWS_RCP_STATUS_slot_b_state

/-- A slot's state set: an INFO event for each change (R75), and the service stage follows (R493). -/
def State.setSlot (s : State) (slot st : Nat) : State :=
  if s.slotState slot = st then s
  else ((s.wr (slotFld slot) st).event sevInfo R.FWS_RCP_STATUS).svcUpdate

/-- The verified image of a slot. -/
def State.slotImage (s : State) (slot : Nat) : Option Image := if slot = 0 then s.recipe.slotA else s.recipe.slotB

/-- The Recipe of a slot. -/
def State.slotRecipe (s : State) (slot : Nat) : Option Recipe := (s.slotImage slot).map (·.recipe)

/-- A slot's image set. -/
def State.setSlotImage (s : State) (slot : Nat) (m : Option Image) : State :=
  { s with recipe := if slot = 0 then { s.recipe with slotA := m } else { s.recipe with slotB := m } }

/-- ASM_BANK_b brought in line with the tables that hold the banks (R140). -/
def State.syncBanks (s : State) : State :=
  s.each (List.range 32) fun b s =>
    let user (slot : Nat) := s.tab.asm.find? fun e => bitAt e.2.slots slot && e.2.banks.contains b
    let units := match (user 0).orElse fun _ => user 1 with | some e => asmUnits e.2.type | none => 0
    let s := s.wr (R.ASM_BANK_width b) (if units = 4 then 3 else units)
    let s := (s.wr (R.ASM_BANK_table b) (match user 0 with | some e => e.1 | none => 0)).wrBit (R.ASM_BANK_use_a b) (user 0).isSome
    (s.wr (R.ASM_BANK_table_b b) (match user 1 with | some e => e.1 | none => 0)).wrBit (R.ASM_BANK_use_b b) (user 1).isSome

/-- PRS_SET_INFO_s of a slot (R115). -/
def State.syncSets (s : State) (slot : Nat) : State :=
  let sets := match s.slotRecipe slot with | some r => r.sets | none => []
  s.each (List.range 8) fun i s =>
    s.wr (if slot = 0 then R.PRS_SET_INFO_patterns_a i else R.PRS_SET_INFO_patterns_b i) (sets.getD i []).length

/-- A slot set or cleared in a table's or array's users. -/
def withSlot (slots slot : Nat) (b : Bool) : Nat :=
  if slot = 0 then 2 * (slots / 2) + bit01 b else slots % 2 + 2 * bit01 b

/-- One declared table takes storage (R78): the table of the other slot whose declaration is the same in every part, so that the digests
of the two agree (notes/assumptions/157.md), or the lowest free index of its kind; none when no index is free. -/
def State.loadTable (s : State) (slot : Nat) (d : TableDecl) : Option State :=
  match d.kind with
  | .asm _ _ _ =>
    match s.tab.asm.find? fun e => e.2.decl == d && bitAt e.2.slots (1 - slot) with
    | some e => some (s.setAsm e.1 { e.2 with slots := withSlot e.2.slots slot true })
    | none =>
      (firstIdx 32 fun i => (mget s.tab.asm i).isNone).map fun i =>
        s.setAsm i ⟨withSlot 0 slot true, d, [], [], none, none⟩
  | .exm x =>
    match s.tab.exm.find? fun e => e.2.decl == d && bitAt e.2.slots (1 - slot) with
    | some e => some (s.setExm e.1 { e.2 with slots := withSlot e.2.slots slot true })
    | none =>
      match firstIdx 64 fun i => (mget s.tab.exm i).isNone, if x.hbm then s.partBase x else some 0 with
      | some i, some base =>
        some (((s.onlyIf x.hbm fun s => s.clearPart base x.partLen).setExm i
          ⟨withSlot 0 slot true, d, [], none, none, [], [], [], [], base, []⟩).wr (R.EXM_AGE_tick_log2 i) (x.ageing.getD 0))
      | _, _ => none

/-- One declared array takes storage, filled with zeros (R78); none when its units have no room (R202). -/
def State.loadArray (s : State) (slot : Nat) (d : ArrayDecl) : Option State :=
  match s.txf.arrays.find? fun e => e.2.decl == d && bitAt e.2.slots (1 - slot) with
  | some e =>
    some { s with txf := { s.txf with arrays := mput s.txf.arrays e.1 { e.2 with slots := withSlot e.2.slots slot true } } }
  | none =>
    if arraysFit (d :: s.txf.arrays.map fun e => e.2.decl) then
      (firstIdx 128 fun i => (mget s.txf.arrays i).isNone).map fun i =>
        { s with txf := { s.txf with arrays := mput s.txf.arrays i ⟨withSlot 0 slot true, d, [], []⟩ } }
    else none

/-- Every table and array of a Recipe takes storage, in the order TABLE_DECL lists them; none is TABLE_FULL (R78). -/
def State.loadStorage (s : State) (slot : Nat) (r : Recipe) : Option State :=
  (r.tables.foldl (fun o d => o.bind fun s => s.loadTable slot d) (some s)).bind fun s =>
    r.arrays.foldl (fun o d => o.bind fun s => s.loadArray slot d) (some s)

/-- The slot a staged write names, where it names one. -/
def Staged.slot? (w : Staged) : Option Nat :=
  match w with
  | .asm slot _ _ _ _ _ _ _ _ => some slot
  | .exm slot _ _ _ => some slot
  | .arr slot _ _ _ _ => some slot
  | _ => none

/-- A transaction that holds prepared parts in a slot whose contents go, and is not verified yet, cannot commit (R226). -/
def UpdTxn.lose (x : UpdTxn) (slot : Nat) : UpdTxn :=
  if x.failed = 0 ∧ x.writes.any (fun w => w.slot? == some slot) then { x with failed := 4 } else x

/-- A slot's contents freed: its image and programs, its tables and arrays that the other slot does not declare, and
their indices (R78, R86). -/
def State.freeSlot (s : State) (slot : Nat) : State :=
  let drop (n : Nat) : Nat := withSlot n slot false
  let txns : Sparse UpdTxn := s.txns.map fun e => (e.1, e.2.lose slot)
  let s : State := { s.setSlotImage slot none with txns := txns }
  let asm := (s.tab.asm.map fun e => (e.1, { e.2 with slots := drop e.2.slots })).filter fun e => e.2.slots != 0
  let exm := (s.tab.exm.map fun e => (e.1, { e.2 with slots := drop e.2.slots })).filter fun e => e.2.slots != 0
  let arrs := (s.txf.arrays.map fun e => (e.1, { e.2 with slots := drop e.2.slots })).filter fun e => e.2.slots != 0
  let s := s.rewriteAsm asm
  let s := { s with tab := { s.tab with exm := exm }, txf := { s.txf with arrays := arrs } }
  let s := s.each (List.range 32) fun i s => s.syncAsm i
  let s := s.each (List.range 64) fun i s => s.syncExm i
  (s.syncBanks).syncSets slot

/-- The entries of INITIAL_ENTRIES put into the tables that only this slot declares, always visible; one that finds no place is left out
(notes/assumptions/161.md). -/
def State.installInitial (s : State) (slot : Nat) (r : Recipe) : State :=
  s.each r.initial fun e s =>
    match e with
    | .asm id vrf len key mask prio result =>
      match s.findAsm slot id with
      | some (i, t) =>
        if t.slots != withSlot 0 slot true then s
        else
          let p := match t.type with
            | .ternary _ => t.insertRule (s.asmBusy i t) key mask prio result
            | _ => (s.freeBlock t).bind fun b => t.insertRoute (s.asmBusy i t) b vrf len key result
          match p with | some p => s.setAsm i { p.table.close with overlap := t.overlap } | none => s
      | none => s
    | .exm id bits =>
      match s.findExm slot id with
      | some (i, t) =>
        if t.slots != withSlot 0 slot true then s
        else s.setExm i ((List.range t.copies).foldl (fun t c =>
          match t.plan c ⟨bits, 1, true, 0, 0, 0, .zero⟩ with | .done ws => t.write ws | _ => t) t)
      | none => s

/-! ### Loading -/

/-- The load in progress for a slot. -/
def State.loadOf (s : State) (slot : Nat) : Option LoadJob := s.recipe.loads.find? fun j => j.slot == slot

/-- The load of a slot replaced, or removed with `none`. -/
def State.setLoad (s : State) (slot : Nat) (j : Option LoadJob) : State :=
  let rest := s.recipe.loads.filter fun x => x.slot != slot
  { s with recipe := { s.recipe with loads := match j with | some j => rest ++ [j] | none => rest } }

/-- A load ends without success: the slot is EMPTY, the command completes; an autostart load has failed (R75, R89). -/
def State.loadFails (s : State) (j : LoadJob) (status : Nat) : State :=
  let s := (s.setLoad j.slot none).freeSlot j.slot
  let s := s.setSlot j.slot slEmpty
  match j.cmd with
  | some c => s.complete c status
  | none => (s.wr R.GLB_SERVICE_autostart_failed 1).event sevErr R.GLB_SERVICE

/-- Whether a firmware activation is scheduled or runs (R532). -/
def State.fwChanging (s : State) : Bool := s.on R.FWS_FW_STATUS_act_pending || s.svc.handover

/-- A slot takes up a load: a READY slot's contents are discarded (R77), the slot is LOADING. -/
def State.beginLoad (s : State) (slot : Nat) (store : Option Nat) (cmd : Option Cmd) (m : Option Image) (addr len : Nat) : State :=
  let s := s.freeSlot slot
  (s.setLoad slot (some ⟨slot, store, cmd, 0, 0, m, addr, len⟩)).setSlot slot slLoading

/-- RECIPE_LOAD (R76, R77): `source` 1 reads store entry `entry`; `store` writes the image to it afterwards. The BUSY_RETRY of R532 has
no place in R77's order; it is tested first (notes/assumptions/158.md). -/
def execRecipeLoad (c : Cmd) (slot source store entry addr length : Nat) (s : State) : Host.Outcome State Fault Refusal :=
  ok (s.command c 0x30 (rightOf 0x30) (if source = 0 then [(addr, length)] else []) fun s =>
    if s.fwChanging then s.complete c stBusyRetry
    else if s.slotState slot = slActive ∨ entry = 3 ∨
        (store = 1 ∧ entry = s.rd R.FWS_RCP_BOOT_entry) ∨ (source = 0 ∧ addr % 64 ≠ 0) then s.complete c stInvalid
    else if s.slotState slot = slRetiring then s.complete c stVersionBusy
    else if (s.schedFind fun e => e == .recipe slot).isSome ∨ s.slotState slot = slLoading then s.complete c stBusyRetry
    else if source = 1 ∧ !s.on (R.FWS_RCP_STORE_w0_valid entry) then s.complete c stNotReady
    else s.beginLoad slot (if store = 1 then some entry else none) (some c)
      (if source = 1 then mget s.recipe.store entry else none) (if source = 1 then 0 else addr) length)

/-- The image of a load: the store's, or as many bytes of host memory as the command gave (R76). -/
def LoadJob.fetch (j : LoadJob) (m : Image) : Image := j.image.getD { m with fetched := j.len }

/-- RECIPE_FETCH_DONE (R72, R73, R78): the whole image is there (for a load from the store, the store's image) and is
checked in order. A failed authentication waits for its fixed time, with its reason in the security log. -/
def execRecipeFetchDone (slot : Nat) (fetched : Image) (s : State) : Host.Outcome State Fault Refusal :=
  ok (match s.loadOf slot with
    | none => s
    | some j =>
      if j.stage != 0 then s
      else
        let m := j.fetch fetched
        match s.authFailure m with
        | some why =>
          let fn := match j.cmd with | some c => cmdFn c | none => 0
          (s.secLog why fn j.addr 0 none).setLoad slot (some { j with stage := 1, due := s.time.elapsed + 250000000 })
        | none =>
          if !s.compatible m then s.loadFails j stIncompatible
          else if !s.contentFits m.recipe then s.loadFails j stInvalid
          else
            match s.loadStorage slot m.recipe with
            | none => s.loadFails j stTableFull
            | some s => (s.setSlotImage slot (some m)).setLoad slot (some { j with stage := 2, image := some m }))

/-- RECIPE_AUTH_FAIL_COMPLETE (R73): 250 ms after the last byte, INVALID. -/
def execRecipeAuthFailComplete (slot : Nat) (s : State) : Host.Outcome State Fault Refusal :=
  ok (match s.loadOf slot with
    | some j => if j.stage = 1 ∧ j.due ≤ s.time.elapsed then s.loadFails j stInvalid else s
    | none => s)

/-- The scheduled activation of the earliest turn: its turn and its slot. -/
def State.nextAct (s : State) : Option (Nat × Nat) :=
  s.sched.foldl (fun a x => match x.ev with
    | .recipe slot => (match a with
      | some b => if x.turn < b.1 then some (x.turn, slot) else some b
      | none => some (x.turn, slot))
    | _ => a) none

/-- FWS_RCP_STATUS brought in line with the activations scheduled (R91). -/
def State.actSync (s : State) : State :=
  (s.wrBit R.FWS_RCP_STATUS_act_pending s.nextAct.isSome).wr R.FWS_RCP_STATUS_act_slot (match s.nextAct with | some a => a.2 | none => 0)

/-- The activation of a slot scheduled for a turn: a scheduler slot on the FD, the capacity reserved (R81). -/
def State.scheduleRecipe (s : State) (slot turn : Nat) (system : Bool) (cmd : Option Cmd) : State :=
  let s := { s with recipe := { s.recipe with reserved := s.recipe.reserved.filter (· != slot) ++ [slot] } }
  (s.schedTake (.recipe slot) turn system (match cmd with | some c => cmdFn c | none => 0) cmd).actSync

/-- RECIPE_SLOT_READY (R75, R77, R89): the programs are resident in all pipelines. The load completes DONE; with store set
the flash write begins, and the entry holds no valid image until it ends (notes/assumptions/159.md); an autostarted slot is activated
with local scope at the next turn boundary. -/
def execRecipeSlotReady (slot : Nat) (s : State) : Host.Outcome State Fault Refusal :=
  ok (match s.loadOf slot, s.slotRecipe slot with
    | some j, some r =>
      if j.stage != 2 then s
      else
        let s := (((s.installInitial slot r).writeBank slot).syncBanks).syncSets slot
        let s := (s.setLoad slot none).setSlot slot slReady
        let s := match j.store, j.image with
          | some e, some m =>
            { s.wr (R.FWS_RCP_STORE_w0_writing e) 1 |>.wr (R.FWS_RCP_STORE_w0_valid e) 0 with
              recipe := { s.recipe with writing := mput s.recipe.writing e m, store := mdel s.recipe.store e } }
          | _, _ => s
        match j.cmd with
        | some c => s.complete c stDone
        | none => s.scheduleRecipe slot (s.time.turn + 1) false none
    | _, _ => s)

/-- RECIPE_STORE_WRITE_DONE (R77): the background flash write of a store entry ends; the entry is valid. -/
def execRecipeStoreWriteDone (entry : Nat) (s : State) : Host.Outcome State Fault Refusal :=
  ok (match mget s.recipe.writing entry with
    | some m =>
      let s := { s with recipe := { s.recipe with writing := mdel s.recipe.writing entry,
                                                   store := mput s.recipe.store entry m } }
      let s := (s.wr (R.FWS_RCP_STORE_w0_writing entry) 0).wr (R.FWS_RCP_STORE_w0_valid entry) 1
      let s := s.wr (R.FWS_RCP_STORE_w1_length entry) m.len
      let s := s.wr64 (R.FWS_RCP_STORE_LO_serial_lo entry) (R.FWS_RCP_STORE_HI_serial_hi entry) m.serial
      s.event sevInfo (R.FWS_RCP_STORE_w0 entry)
    | none => s)

/-! ### Activation -/

/-- Units of a bank that the tables not of one set of slots hold entries in (R79). -/
def State.unitsIn (s : State) (slots b : Nat) : Nat :=
  s.tab.asm.foldl (fun n e => if e.2.slots != slots && e.2.banks.contains b then n + e.2.unitsIn b else n) 0

/-- Bytes of entries an exact-match table holds now (R79). -/
def ExmTable.bytesUsed (t : ExmTable) : Nat := t.cells.length * t.d.bucketBytes / 4

/-- Whether the declared capacity of every changed table of a slot can be reserved beside the contents of the other
slot's tables (R81): in its banks, in its engines' slices (R141), in the HBM table partition. -/
def State.canReserve (s : State) (slot : Nat) : Bool :=
  let own := withSlot 0 slot true
  (s.tab.asm.all fun e => e.2.slots != own ||
    asmNeed e.2.type e.2.decl.capacity + sumOf (s.unitsIn own) e.2.banks ≤ e.2.banks.length * 8192) &&
  s.exmHolds (s.tab.exm.map fun e => (e.2.d, if e.2.slots = own then e.2.d.bytes else e.2.bytesUsed))

/-- RECIPE_ACTIVATE (R81): the checks in order; an accepted request reserves the capacity and takes its slot. -/
def execRecipeActivate (c : Cmd) (slot turn : Nat) (s : State) : Host.Outcome State Fault Refusal :=
  ok (s.command c 0x31 (rightOf 0x31) [] fun s =>
    let st := s.schedCheck (.recipe slot) c.system turn
    if s.slotState slot = slActive then s.complete c stInvalid
    else if s.slotState (1 - slot) = slRetiring then s.complete c stVersionBusy
    else if s.slotState slot != slReady then s.complete c stNotReady
    else if !s.canReserve slot then s.complete c stTableFull
    else if st != stDone then s.complete c st
    else (s.scheduleRecipe slot turn c.system (some c)).accepted c turn)

/-- A slot's reservation returned. -/
def State.unreserve (s : State) (slot : Nat) : State :=
  { s with recipe := { s.recipe with reserved := s.recipe.reserved.filter (· != slot) } }

/-- A scheduled activation withdrawn: its reservation returns, the slot stays READY (R82). -/
def State.unscheduleRecipe (s : State) (slot : Nat) : State := (s.unreserve slot).actSync

/-- RECIPE_ACTIVATE_CANCEL (R52, R82): withdraws the activation of the named slot, or completes LATE; NOT_FOUND where none
is scheduled. -/
def execRecipeActivateCancel (c : Cmd) (slot : Nat) (s : State) : Host.Outcome State Fault Refusal :=
  ok (s.command c 0x31 (rightOf 0x31) [] fun s =>
    match s.schedFind fun e => e == .recipe slot with
    | none => s.complete c stNotFound
    | some x =>
      if s.inTime x.turn then (((s.schedFree x).unscheduleRecipe slot).completeOpt x.cmd stAborted).complete c stDone
      else s.complete c stLate)

/-- RECIPE_AUTOSTART (R89): at stage 4 the firmware loads the boot entry into slot A, when autostart is set and the entry is
valid; otherwise slot A stays EMPTY, with an ERR event when autostart was asked for. That autostart with no valid boot entry counts as
failed is this model's choice (notes/assumptions/160.md). -/
def execRecipeAutostart (s : State) : Host.Outcome State Fault Refusal :=
  let e := s.rd R.FWS_RCP_BOOT_entry
  ok (if s.rd R.GLB_SERVICE_stage != 4 || s.slotState 0 != slEmpty || !s.on R.FWS_RCP_BOOT_autostart ||
        s.on R.GLB_SERVICE_autostart_failed then s
    else match mget s.recipe.store e with
      | some m => s.beginLoad 0 none none (some m) 0 0
      | none => (s.wr R.GLB_SERVICE_autostart_failed 1).event sevErr R.GLB_SERVICE)

/-! ### Restart registers -/

/-- MIN_SERIAL_WRITE (R90, R435): the write of the high word raises the minimum serial; a lower value is ignored and
logged. -/
def execMinSerialWrite (fn be val : Nat) (low : Option Nat) (s : State) : Host.Outcome State Fault Refusal :=
  ok (s.hostWrite fn R.FWS_RCP_MIN_SERIAL_HI be false fun s =>
    let old := s.minSerial
    let t := s.applyPair fn R.FWS_RCP_MIN_SERIAL_LO low val be
    if t.minSerial < old then
      (t.wr64 R.FWS_RCP_MIN_SERIAL_LO_serial_lo R.FWS_RCP_MIN_SERIAL_HI_serial_hi old).lateErr
        fn 0 R.FWS_RCP_MIN_SERIAL_HI leBadValue false
    else t)

/-- RECIPE_BOOT_WRITE (R92): the boot entry and autostart; an entry that is not valid or is being written is ignored and
logged, be it the boot entry itself; the write's autostart takes effect all the same (notes/assumptions/162.md). -/
def execRecipeBootWrite (fn be val : Nat) (s : State) : Host.Outcome State Fault Refusal :=
  ok (s.hostWrite fn R.FWS_RCP_BOOT be false fun s =>
    let old := s.rd R.FWS_RCP_BOOT_entry
    let t := s.mergeReg R.FWS_RCP_BOOT val be
    let e := t.rd R.FWS_RCP_BOOT_entry
    if bitAt be 0 && e < 3 && (!s.on (R.FWS_RCP_STORE_w0_valid e) || s.on (R.FWS_RCP_STORE_w0_writing e)) then
      (t.wr R.FWS_RCP_BOOT_entry old).lateErr fn 0 R.FWS_RCP_BOOT leBadValue false
    else t)

end Sys2Proof.Machine
end

