-- ==== Sys2Proof/Machine/Txn.lean ====
section
/-!
DEFINITION. Machine/Txn.lean: update transactions (R221 to R228): staging, placing, scheduling, committing and removing a
group of writes to tables and arrays.
-/

namespace Sys2Proof.Machine

/-! ### Handles -/

/-- The states of a handle (R221). -/
def txFree : Nat := 0
def txOpen : Nat := 1
def txPreparing : Nat := 2
def txPrepared : Nat := 3
def txScheduled : Nat := 4
def txAborted : Nat := 5
def txFailed : Nat := 6

/-- A handle's state. -/
def State.txState (s : State) (h : Nat) : Nat := s.rd (R.TXT_TXN_w0_state h)

/-- A handle's state set. -/
def State.setTx (s : State) (h st : Nat) : State := s.wr (R.TXT_TXN_w0_state h) st

/-- A handle nothing is staged on. -/
def UpdTxn.none : UpdTxn := ⟨[], .none, 0⟩

/-- A handle's staged writes and command. -/
def State.upd (s : State) (h : Nat) : UpdTxn := sread (fun _ => UpdTxn.none) s.txns h

/-- A handle's staged writes and command set; the counts of staged writes follow (R235). -/
def State.setUpd (s : State) (h : Nat) (x : UpdTxn) : State :=
  let s := { s with txns := swrite (fun _ => UpdTxn.none) s.txns h x }
  (s.wr (R.TXT_TXN_w0_writes h) x.writes.length).wr R.TXT_STAGED_writes
    (s.txns.foldl (fun n e => n + e.2.writes.length) 0)

/-- A command on a handle completes; the handle keeps its status (R235). -/
def State.txDone (s : State) (h : Nat) (c : Cmd) (status : Nat) : State :=
  (s.wr (R.TXT_TXN_w1_last_status h) status).complete c status

/-- A handle back at FREE, with nothing staged. -/
def State.freeTx (s : State) (h : Nat) : State := (s.setUpd h .none).setTx h txFree

/-- What every TXN command does first (R221, R222, R438, R509): rights and windows; handles from 0 to 63; the other function's
handle is refused; a handle that was aborted or has failed only says so and becomes FREE; the TD must be out of reset. -/
def State.txCommand (s : State) (c : Cmd) (h opcode : Nat) (need : List Fld) (extents : List (Nat × Nat))
    (k : State → State) : State :=
  s.command c opcode (rightOf opcode ++ need) extents fun s =>
    let st := s.txState h
    if 64 ≤ h then s.complete c stInvalid
    else if st != txFree && s.rd (R.TXT_TXN_w0_owner h) != cmdFn c then s.refuse c secOwner 0 opcode
    else if s.tdDown then s.complete c stPeerUnavailable
    else if st = txAborted then (s.freeTx h).txDone h c stAborted
    else if st = txFailed then (s.freeTx h).txDone h c stFailedPrepared
    else k s

/-- TXN_OPEN (R221, R222): a FREE handle opens for the issuing function. -/
def execTxnOpen (c : Cmd) (h : Nat) (s : State) : Host.Outcome State Fault Refusal :=
  ok (s.txCommand c h 0x10 [] [] fun s =>
    if s.txState h != txFree then s.txDone h c stInvalid
    else
      let s := (s.setUpd h .none).setTx h txOpen
      let s := (s.wr (R.TXT_TXN_w0_owner h) (cmdFn c)).wrBit (R.TXT_TXN_w0_scope h) c.system
      let s := (s.wr (R.TXT_TXN_w1_fail_cause h) 0).wr64 (R.TXT_TXN_LO_turn_lo h) (R.TXT_TXN_HI_turn_hi h) 0
      s.txDone h c stDone)

/-! ### What a write names -/

/-- Whether a slot's contents can be written (R80, R224): it is READY, ACTIVE or RETIRING, and a changed table of a RETIRING
slot is not. `slots` are the slots that declare the table. -/
def State.slotTakes (s : State) (slot slots : Nat) : Bool :=
  let st := s.slotState slot
  (st == slReady || st == slActive || st == slRetiring) && !(st == slRetiring && slots == withSlot 0 slot true)

/-- Whether a prefix and its key bits beyond its length are as R127 asks, for an address width. -/
def prefixOk (w len key : Nat) : Bool := len ≤ w && key < 2 ^ w && key % 2 ^ (w - len) == 0

/-- Whether a write of an associative table is one TXN_STAGE takes (R127): op 0 INSERT of what does not exist, 1 DELETE,
2 MODIFY and 3 REWRITE of what does. -/
def AsmTable.takes (t : AsmTable) (op vrf len key mask prio result : Nat) : Bool :=
  match t.type with
  | .ternary u =>
    key < 2 ^ (80 * u) && mask < 2 ^ (80 * u) && (t.hasRule key mask prio == (op != 0))
  | .lpm4 => prefixOk 32 len key && (t.hasRoute vrf len key == (op != 0))
  | .lpm6 =>
    prefixOk 128 len key && (t.hasRoute vrf len key == (op != 0)) && (len ≤ 32 || result ≤ 0x7FFFFF)

/-- Whether a staged write is valid now (R80, R127, R149, R223, R224, R260, R277, R332, R348). -/
def State.stagedOk (s : State) (w : Staged) : Bool :=
  match w with
  | .asm slot op table vrf len key mask prio result =>
    match s.findAsm slot table with
    | some e => s.slotTakes slot e.2.slots && e.2.takes op vrf len key mask prio result
    | none => false
  | .exm slot op table bits =>
    match s.findExm slot table with
    | some e => s.slotTakes slot e.2.slots && bits < 2 ^ e.2.d.width && (e.2.hasStatic (e.2.d.keyOf bits) == (op != 0))
    | none => false
  | .arr slot _ array index value =>
    match s.findArr slot array with
    | some e => s.slotTakes slot e.2.slots && index < e.2.decl.size && value < 2 ^ e.2.decl.width
    | none => false
  | .profile index rec => index < 4096 && rec.length == 32 && meterProfileOk rec
  | .td table index rec =>
    match tdShape table with
    | some d => index < d.1 && rec.length == d.2 && tdRecordOk table rec
    | none => false

/-- Whether two staged writes have the same key (R224): a route is named by vrf, length and prefix, a rule by key, mask and priority
(R127). -/
def State.sameKey (s : State) (a b : Staged) : Bool :=
  match a, b with
  | .asm s1 _ t1 v1 l1 k1 m1 p1 _, .asm s2 _ t2 v2 l2 k2 m2 p2 _ =>
    match s.findAsm s1 t1, s.findAsm s2 t2 with
    | some x, some y => x.1 == y.1 && k1 == k2 &&
        (match x.2.type with | .ternary _ => m1 == m2 && p1 == p2 | _ => v1 == v2 && l1 == l2)
    | _, _ => false
  | .exm s1 _ t1 b1, .exm s2 _ t2 b2 =>
    match s.findExm s1 t1, s.findExm s2 t2 with
    | some x, some y => x.1 == y.1 && x.2.d.keyOf b1 == x.2.d.keyOf b2
    | _, _ => false
  | .arr s1 _ a1 i1 _, .arr s2 _ a2 i2 _ => ((s.findArr s1 a1).map (·.1) == (s.findArr s2 a2).map (·.1)) && i1 == i2
  | .profile i _, .profile j _ => i == j
  | .td t1 i1 _, .td t2 i2 _ => t1 == t2 && i1 == i2
  | _, _ => false

/-- A TXN_STAGE (R223, R224): the checks in order; a second write of a key stands in the first one's place. -/
def State.stage (s : State) (c : Cmd) (h : Nat) (need : List Fld) (extents : List (Nat × Nat)) (w : Staged) : State :=
  s.txCommand c h 0x11 need extents fun s =>
    let x := s.upd h
    if s.txState h != txOpen || !s.stagedOk w then s.txDone h c stInvalid
    else
      match x.writes.findIdx? fun y => s.sameKey y w with
      | some i => (s.setUpd h { x with writes := x.writes.set i w }).txDone h c stDone
      | none =>
        if 4096 ≤ x.writes.length || 65536 ≤ s.rd R.TXT_STAGED_writes then s.txDone h c stNoResource
        else (s.setUpd h { x with writes := x.writes ++ [w] }).txDone h c stDone

/-- TXN_STAGE_ASM_INSERT (R127, R223, R224): stages a route or rule insert; `param` is where the key and mask were read. -/
def execTxnStageAsmInsert (c : Cmd) (h slot table vrf len key mask prio result param : Nat) (s : State) :
    Host.Outcome State Fault Refusal :=
  ok (s.stage c h (s.tableGrant slot table) [(param, 80)] (.asm slot 0 table vrf len key mask prio result))

/-- TXN_STAGE_ASM_DELETE (R127): stages the removal of a route or rule. -/
def execTxnStageAsmDelete (c : Cmd) (h slot table vrf len key mask prio param : Nat) (s : State) :
    Host.Outcome State Fault Refusal :=
  ok (s.stage c h (s.tableGrant slot table) [(param, 80)] (.asm slot 1 table vrf len key mask prio 0))

/-- TXN_STAGE_ASM_MODIFY (R127, R131): stages a new result of a route or rule. -/
def execTxnStageAsmModify (c : Cmd) (h slot table vrf len key mask prio result param : Nat) (s : State) :
    Host.Outcome State Fault Refusal :=
  ok (s.stage c h (s.tableGrant slot table) [(param, 80)] (.asm slot 2 table vrf len key mask prio result))

/-- TXN_STAGE_ASM_REWRITE (R138, R139): stages the repair in place of a route's or rule's words. -/
def execTxnStageAsmRewrite (c : Cmd) (h slot table vrf len key mask prio param : Nat) (s : State) :
    Host.Outcome State Fault Refusal :=
  ok (s.stage c h (s.tableGrant slot table) [(param, 80)] (.asm slot 3 table vrf len key mask prio 0))

/-- The extent of an exact-match entry in host memory (R149). -/
def State.entryExtent (s : State) (slot table param : Nat) : List (Nat × Nat) :=
  [(param, match s.findExm slot table with | some e => e.2.d.width / 8 | none => 64)]

/-- A TXN_STAGE of an exact-match table (R149, R223): the entry's address is a multiple of 64 (R224). -/
def State.stageExm (s : State) (c : Cmd) (h op slot table param bits : Nat) : State :=
  if param % 64 = 0 then s.stage c h (s.tableGrant slot table) (s.entryExtent slot table param) (.exm slot op table bits)
  else s.txCommand c h 0x11 (s.tableGrant slot table) (s.entryExtent slot table param) fun s => s.txDone h c stInvalid

/-- TXN_STAGE_EXM_INSERT (R149, R151): stages a static entry. -/
def execTxnStageExmInsert (c : Cmd) (h slot table param bits : Nat) (s : State) : Host.Outcome State Fault Refusal :=
  ok (s.stageExm c h 0 slot table param bits)

/-- TXN_STAGE_EXM_DELETE (R149): stages the removal of a static entry. -/
def execTxnStageExmDelete (c : Cmd) (h slot table param bits : Nat) (s : State) : Host.Outcome State Fault Refusal :=
  ok (s.stageExm c h 1 slot table param bits)

/-- TXN_STAGE_EXM_MODIFY (R149): stages new data of a static entry. -/
def execTxnStageExmModify (c : Cmd) (h slot table param bits : Nat) (s : State) : Host.Outcome State Fault Refusal :=
  ok (s.stageExm c h 2 slot table param bits)

/-- The grant an array write needs: the array's, or the meter-profile table's (R222, R348, R429). -/
def arrayGrant (array : Nat) : List Fld := if array < 64 then [grantArr array] else (grantTdt array).toList

/-- TXN_STAGE_ARRAY_WRITE (R223, R348): stages an array entry's new value, or a meter profile for table 0x0200. -/
def execTxnStageArrayWrite (c : Cmd) (h slot array index param value : Nat) (s : State) : Host.Outcome State Fault Refusal :=
  ok (if array = 0x200 then
      s.stage c h (arrayGrant array) [(param, 32)] (.profile index (leBytes 32 value))
    else
      let n := match s.findArr slot array with | some e => ceilDiv e.2.decl.width 8 | none => 16
      s.stage c h (arrayGrant array) [(param, n)] (.arr slot 0 array index value))

/-- TXN_STAGE_ARRAY_CLEAR (R223): stages the clearing of an array entry or a meter profile. -/
def execTxnStageArrayClear (c : Cmd) (h slot array index : Nat) (s : State) : Host.Outcome State Fault Refusal :=
  ok (if array = 0x200 then s.stage c h (arrayGrant array) [] (.profile index (List.replicate 32 0))
    else s.stage c h (arrayGrant array) [] (.arr slot 1 array index 0))

/-- TXN_STAGE_TD_WRITE (R223, R260, R277, R332, R374): stages a TD table record. -/
def execTxnStageTdWrite (c : Cmd) (h table index param : Nat) (rec : List Byte) (s : State) :
    Host.Outcome State Fault Refusal :=
  ok (s.stage c h (grantTdt table).toList [(param, rec.length)] (.td table index rec))

/-! ### Placing -/

/-- Whether the capacity reservations still hold (R81): that of an ACTIVE slot gives way to the other slot's. -/
def State.reservedOk (s : State) : Bool :=
  s.recipe.reserved.all fun x => (s.slotState x == slActive && s.recipe.reserved.contains (1 - x)) || s.canReserve x

/-- Whether the table SRAM, engine by engine, and the HBM table partition hold what stands in them (R79, R141, R142). -/
def State.poolsOk (s : State) : Bool := s.exmHolds (s.tab.exm.map fun e => (e.2.d, e.2.bytesUsed))

/-- The exact-match tables that share a table's overlap: the subtables of its classifier, or itself alone (R151). -/
def State.overlapGroup (s : State) (i : Nat) : List (Nat × ExmTable) :=
  match mget s.tab.exm i with
  | none => []
  | some t =>
    match t.d.subOf with
    | none => [(i, t)]
    | some c => s.tab.exm.filter fun e =>
        e.2.slots == t.slots && match e.2.d.subOf with | some d => d.1 == c.1 | none => false

/-- Whether a table a write touches is taken by an open overlap or another prepared transaction (R133, R150). -/
def State.taken (s : State) (h : Nat) (w : Staged) : Bool :=
  let busy (o p : Option Nat) : Bool := o.isSome || (p.isSome && p != some h)
  match w with
  | .asm slot _ table _ _ _ _ _ _ => match s.findAsm slot table with | some e => busy e.2.overlap e.2.prepared | none => false
  | .exm slot _ table _ =>
    match s.findExm slot table with
    | some e => (s.overlapGroup e.1).any fun x => busy x.2.overlap x.2.prepared
    | none => false
  | _ => false

/-- An associative write placed (R128, R129, R131, R134); a REWRITE repairs words at the commit and changes no content. -/
def AsmTable.put (t : AsmTable) (busy : Nat → Bool) (blk op vrf len key mask prio result : Nat) : Option Placed :=
  match t.type, op with
  | .ternary _, 0 => t.insertRule busy key mask prio result
  | .ternary _, 2 => some ⟨t.modifyRule key mask prio result, 0, 0⟩
  | .ternary _, _ => some ⟨t, 0, 0⟩
  | _, 0 => t.insertRoute busy blk vrf len key result
  | _, 1 => some ⟨t.prepareDelete vrf len key, 0, 0⟩
  | _, 2 => some ⟨t.modifyRoute vrf len key result, 0, 0⟩
  | _, _ => some ⟨t, 0, 0⟩

/-- An entry placed as new only in every copy of an exact-match table (R147, R149, R150): the table with the moves, or the
status. -/
def ExmTable.placeAll (t : ExmTable) (bits : Nat) : Except Nat (ExmTable × Nat) :=
  (List.range t.copies).foldl (fun r copy =>
    match r with
    | .error e => .error e
    | .ok (t, n) =>
      match t.plan copy ⟨bits, 3, true, 0, 0, 0, .zero⟩ with
      | .done ws => .ok (t.write ws, n + (ws.length - 1))
      | .busy _ => .error stBusyRetry
      | .full => .error stTableFull) (.ok (t, 0))

/-- One staged write placed at PREPARE (R225): the state, or the status that stops it. An array write keeps an entry of its state unit's
chains (R213; notes/assumptions/180.md). -/
def State.placeWrite (s : State) (h : Nat) (w : Staged) : Except Nat State :=
  if !s.stagedOk w then .error stInvalid
  else if s.taken h w then .error stBusyRetry
  else
    match w with
    | .asm slot op table vrf len key mask prio result =>
      match s.findAsm slot table with
      | none => .error stInvalid
      | some e =>
        match (s.freeBlock e.2).bind fun b => e.2.put (s.asmBusy e.1 e.2) b op vrf len key mask prio result with
        | none => .error stTableFull
        | some p =>
          let s := (s.setAsm e.1 { p.table with prepared := some h }).countPlaced p
          if s.reservedOk then .ok s else .error stTableFull
    | .exm slot op table bits =>
      match s.findExm slot table with
      | none => .error stInvalid
      | some e =>
        if e.2.cells.any fun x => e.2.d.keyOf x.2.bits == e.2.d.keyOf bits && e.2.locked (cellCopy x.1) (cellBucket x.1) then
          .error stBusyRetry
        else if op = 1 then .ok (s.setExm e.1 { e.2 with prepared := some h })
        else
          match e.2.placeAll bits with
          | .error st => .error st
          | .ok p =>
            let s := (s.setExm e.1 { p.1 with prepared := some h }).count (R.EXM_TBL_w4_moves e.1) p.2
            if s.poolsOk && s.reservedOk then .ok s else .error stTableFull
    | .arr slot _ array index _ =>
      match s.findArr slot array with
      | some e => if s.chainUsed (e.2.unitOf index) + s.chainKept (e.2.unitOf index) ≤ 4096 then .ok s else .error stTableFull
      | none => .error stInvalid
    | _ => .ok s

/-- A list of writes placed one after another. -/
def State.placeAll (s : State) (h : Nat) : List Staged → Except Nat State
  | [] => .ok s
  | w :: ws => match s.placeWrite h w with | .ok s => s.placeAll h ws | .error e => .error e

/-- What a transaction had prepared in the tables removed (R133, R150). -/
def State.unprepare (s : State) (h : Nat) : State :=
  let s := s.each s.tab.asm fun e s => if e.2.prepared = some h then s.setAsm e.1 e.2.unprepare else s
  s.each s.tab.exm fun e s => if e.2.prepared = some h then s.setExm e.1 e.2.unprepare else s

/-- TXN_PREPARE (R221, R225): an OPEN transaction is PREPARING until TXN_PREPARE_COMPLETE. -/
def execTxnPrepare (c : Cmd) (h : Nat) (s : State) : Host.Outcome State Fault Refusal :=
  ok (s.txCommand c h 0x12 [] [] fun s =>
    if s.txState h != txOpen then s.txDone h c stInvalid
    else (s.setUpd h { s.upd h with cmd := some c }).setTx h txPreparing)

/-- TXN_PREPARE_COMPLETE (R128, R129, R133, R147, R150, R225): every staged write is checked and placed. All of them stand, and
the transaction is PREPARED, with a scheduler slot on each die kept for its commit; or nothing of it stands and the
transaction is OPEN again. The layout changes of a PREPARE that fails may stay (R128): this model drops them. Without a slot
to keep the status is BUSY_RETRY. -/
def execTxnPrepareComplete (h : Nat) (s : State) : Host.Outcome State Fault Refusal :=
  let x := s.upd h
  let fails (s : State) (st : Nat) : State :=
    match x.cmd with
    | some c => ((s.setUpd h { x with cmd := none }).setTx h txOpen).txDone h c st
    | none => s.setTx h txOpen
  ok (if s.txState h != txPreparing then s
    else if s.slotLacks .tsiSwap || s.slotLacks (.holdStart 0) then fails s stBusyRetry
    else
      match s.placeAll h x.writes with
      | .error st =>
        let full := x.writes.filterMap fun w => match w with
          | .exm slot _ table _ => (s.findExm slot table).map (·.1) | _ => none
        fails (s.onlyIf (st == stTableFull) fun s => s.each full.eraseDups fun i s => s.bump (R.EXM_TBL_w5_full i)) st
      | .ok s =>
        let s := (s.setUpd h { x with cmd := none, failed := 0 }).setTx h txPrepared
        match x.cmd with | some c => s.txDone h c stDone | none => s)

/-! ### Committing -/

/-- TXN_COMMIT (R48, R226): a PREPARED transaction is scheduled for its turn. -/
def execTxnCommit (c : Cmd) (h turn : Nat) (s : State) : Host.Outcome State Fault Refusal :=
  ok (s.txCommand c h 0x13 [] [] fun s =>
    let st := s.schedCheck (.txnCommit h) c.system turn
    if s.txState h != txPrepared then s.txDone h c stInvalid
    else if st != stDone then s.txDone h c st
    else
      let s := (s.setUpd h { s.upd h with cmd := some c, failed := 0 }).setTx h txScheduled
      let s := (s.wrBit (R.TXT_TXN_w0_scope h) c.system).wr64 (R.TXT_TXN_LO_turn_lo h) (R.TXT_TXN_HI_turn_hi h) turn
      let s := s.schedTake (.txnCommit h) turn c.system (cmdFn c) (some c)
      (s.wr (R.TXT_TXN_w1_last_status h) stAccepted).accepted c turn)

/-- The pending commit of a handle. -/
def State.txEvent (s : State) (h : Nat) : Option SlotEv := s.schedFind fun e => e == .txnCommit h

/-- A scheduled commit withdrawn: its slots are free, its command completes, the transaction is PREPARED again (R53, R226). -/
def State.withdrawCommit (s : State) (h : Nat) (x : SlotEv) (status : Nat) : State :=
  ((((s.schedFree x).setUpd h { s.upd h with cmd := none }).setTx h txPrepared).wr (R.TXT_TXN_w1_last_status h) status).completeOpt
    x.cmd status

/-- TXN_COMMIT_CANCEL (R52, R226): withdraws a SCHEDULED commit in time. -/
def execTxnCommitCancel (c : Cmd) (h : Nat) (s : State) : Host.Outcome State Fault Refusal :=
  ok (s.txCommand c h 0x13 [] [] fun s =>
    match s.txEvent h with
    | some x =>
      if s.inTime x.turn then (s.withdrawCommit h x stAborted).txDone h c stDone else s.txDone h c stLate
    | none => s.txDone h c (if s.txState h = txPrepared then stNotFound else stInvalid))

/-- TXN_ABORT (R52, R133, R228): an OPEN, PREPARED or SCHEDULED transaction is removed and its handle is FREE. -/
def execTxnAbort (c : Cmd) (h : Nat) (s : State) : Host.Outcome State Fault Refusal :=
  ok (s.txCommand c h 0x14 [] [] fun s =>
    let st := s.txState h
    if st = txPreparing then s.txDone h c stBusyRetry
    else if st = txFree then s.txDone h c stInvalid
    else
      match s.txEvent h with
      | some x =>
        if s.inTime x.turn then (((s.withdrawCommit h x stAborted).unprepare h).freeTx h).txDone h c stDone
        else s.txDone h c stLate
      | none => ((s.unprepare h).freeTx h).txDone h c stDone)

/-- A transaction that cannot commit, at the boundary that begins C - 1 (R226): cause 4 (a slot no longer valid) makes it
ABORTED with INVALID; a hardware fault (causes 1 to 3) FAILED_PREPARED, counted, with an ERR event on the TD. -/
def State.failCommit (s : State) (h cause : Nat) : State :=
  match s.txEvent h with
  | none => s
  | some x =>
    let st := if cause = 4 then stInvalid else stFailedPrepared
    let s := ((s.schedFree x).unprepare h).setUpd h .none
    let s := (s.setTx h (if cause = 4 then txAborted else txFailed)).wr (R.TXT_TXN_w1_fail_cause h) cause
    let s := if cause = 4 then s else (s.bump R.TXT_FAILED_PREPARED_count).event sevErr R.TXT_FAILED_PREPARED
    (s.wr (R.TXT_TXN_w1_last_status h) st).completeOpt x.cmd st

/-- The verification of a commit (R226), once, at the boundary that begins the turn before its own, `n`: `cause` is what the
hardware checks found (0 nothing). -/
def State.verifyCommit (s : State) (h n cause : Nat) : State :=
  match s.txEvent h with
  | none => s
  | some x =>
    let x' := s.upd h
    let gone := x'.failed == 4 || x'.writes.any fun w =>
      match w.slot? with | some k => !(s.slotState k == slReady || s.slotState k == slActive || s.slotState k == slRetiring) | none => false
    if n + 1 < x.turn || x'.failed == 7 then s
    else if cause != 0 then s.failCommit h cause
    else if gone then s.failCommit h 4
    else s.setUpd h { x' with failed := 7 }

/-- An overlap opened on an associative table for a commit turn (R132). -/
def State.openAsm (s : State) (i turn : Nat) : State :=
  match mget s.tab.asm i with
  | some t =>
    (s.setAsm i { t with overlap := some turn, prepared := none }).wr64 (R.ASM_TBL_w6_turn_lo i) (R.ASM_TBL_w7_turn_hi i) turn
  | none => s

/-- An overlap opened on an exact-match table, with the subtables that share it (R150, R151). -/
def State.openExm (s : State) (i turn : Nat) : State :=
  s.each (s.overlapGroup i) fun e s =>
    match mget s.tab.exm e.1 with
    | some t => s.setExm e.1 { t with overlap := some turn, prepared := none }
    | none => s

/-- A TD table record committed (R227): a node or queue that is attached by it has both buckets full (R346); one whose parent
or band it changes is set as a child becoming active at its next decision (R353). -/
def State.tdCommit (s : State) (table index turn : Nat) (rec : List Byte) : State :=
  let was := s.tdNow table index
  let s := s.tdPut table index turn rec
  if 0x121 ≤ table ∧ table ≤ 0x124 then
    let level := table - tdPort
    let s := s.onlyIf (ndAttached rec && !ndAttached was) fun s => s.fillBuckets level index
    s.onlyIf (ndParent rec != ndParent was || ndBand rec != ndBand was || ndAttached rec != ndAttached was) fun s =>
      s.setNodeSt level index { s.nodeSt level index with active := false }
  else s

/-- One write of a transaction at the boundary of its commit turn (R132, R150, R205, R227, R348). `k` numbers the commits of
one boundary, `n` the writes of one commit. -/
def State.commitWrite (s : State) (turn k n : Nat) (w : Staged) : State :=
  let ns := turn * 2 ^ s.rd R.TBS_TURN_LEN_LOG2_t
  match w with
  | .asm slot op table vrf len key mask prio _ =>
    match s.findAsm slot table with
    | some (i, t) =>
      let t := if op = 1 then
          (match t.type with | .ternary _ => t.commitDeleteRule key mask prio | _ => t.commitDelete vrf len key) else t
      (if op = 3 then s.rewrite t vrf len key mask prio else s.setAsm i t).openAsm i turn
    | none => s
  | .exm slot _ table bits =>
    match s.findExm slot table with
    | some (i, t) =>
      let key := t.d.keyOf bits
      let s := s.each (t.cells.filter fun e => t.d.keyOf e.2.bits == key && e.2.state == 4) fun e s => s.settle i e.1
      match mget s.tab.exm i with
      | some t => (s.setExm i (t.markOld key turn)).openExm i turn
      | none => s
    | none => s
  | .arr slot _ array index value =>
    match s.findArr slot array with
    | some (i, a) =>
      let s := { s with txf := { s.txf with arrays := mput s.txf.arrays i { a with poison := mdel a.poison index } } }
      (s.execute ⟨i, index, ⟨ns, 0, k, 0, n⟩, 0, 7, value, none, 0, 0, 0, true⟩).1
    | none => s
  | .profile index rec =>
    let h := sread (fun _ => []) s.txf.profiles index
    { s with txf := { s.txf with profiles := mput s.txf.profiles index ((ns, rec) :: h) } }
  | .td table index rec => s.tdCommit table index turn rec

/-- A commit at its boundary (R227): its writes take effect in the order they were staged, it completes DONE, its handle is
FREE. -/
def State.fireCommit (s : State) (h turn k : Nat) (cmd : Option Cmd) : State :=
  let ws := (s.upd h).writes
  let s := (s.each (List.range ws.length) fun n s => match ws[n]? with | some w => s.commitWrite turn k n w | none => s)
  let s := (s.freeTx h).wr (R.TXT_TXN_w1_last_status h) stDone
  s.completeOpt cmd stDone

/-- The TD's peer epoch advances (R228): every transaction that is not FREE is ABORTED, its FD parts are removed, a command
running on it completes PEER_UNAVAILABLE; a scheduled commit is withdrawn with its slots (R54). -/
def State.abortAllTxns (s : State) : State :=
  s.each (List.range 64) fun h s =>
    let st := s.txState h
    if st = txFree || st = txAborted || st = txFailed then s
    else
      let cmd := (s.upd h).cmd
      let s := match s.txEvent h with | some x => s.schedFree x | none => s
      let s := s.onlyIf cmd.isSome fun s => s.wr (R.TXT_TXN_w1_last_status h) stPeerUnavailable
      (((s.unprepare h).setUpd h .none).setTx h txAborted).completeOpt cmd stPeerUnavailable

end Sys2Proof.Machine
end

