-- ==== Sys2Proof/Machine/Search.lean ====
section
/-!
DEFINITION. Machine/Search.lean: searches, iterations and flushes by software (R135, R159 to R161, R167).
-/

namespace Sys2Proof.Machine

/-- Data a command writes to the host: by DMA, or with the response to a remote device (R387). -/
def State.putResult (s : State) (c : Cmd) (addr : Nat) (data : List Byte) : State :=
  match c.src with
  | .ring f _ _ => s.emit (.dma f addr data)
  | .remote d i _ => s.emit (.remoteData d i addr data)
  | .firmware => s

/-- The 32-byte summary of a result (R159). -/
def summary (records flags context turn deleted : Nat) : List Byte :=
  leBytes 4 records ++ [BitVec.ofNat 8 flags, 0] ++ leBytes 2 context ++ leBytes 8 turn ++ leBytes 8 deleted ++
    List.replicate 8 0

/-- A record with its poison flag (R167, R315). -/
def flagRecord (r : List Byte) (poison : Bool) : List Byte :=
  if poison then overlay r 1 [BitVec.ofNat 8 (byteAt r 1 % 128 + 128)] else r

/-- The record of an exact-match slot (R159): the header of R157 with type 0, state and stamp where R145 has them, and the entry.
A poisoned slot sets bit 7 of byte 1 (R167). -/
def ExmTable.record (t : ExmTable) (slot pipe a turn : Nat) (c : ECell) (poison : Bool) : List Byte :=
  let p := t.d.recPlace a
  flagRecord (recHead 0 pipe slot t.decl.id 0 turn p.1 p.2 (c.state + 65536 * (c.stamp % 256)) ++ leBytes 64 c.bits) poison

/-- The record of an associative search (R135): the spec gives its contents and no layout. This model puts the result, the match
count, the prefix length, the source and the key into the entry's bytes, and bank and unit of the entry into the bucket field, as bank x
8192 + unit (notes/assumptions/9.md). -/
def AsmTable.record (t : AsmTable) (slot turn : Nat) (vrf len key : Nat) (a : AsmAnswer) : List Byte :=
  recHead 0 0 slot t.decl.id 0 turn a.unit 0 0 ++ leBytes 4 a.result ++
    [BitVec.ofNat 8 a.count, BitVec.ofNat 8 len, BitVec.ofNat 8 a.source, 0] ++ leBytes 2 vrf ++ leBytes 6 0 ++ leBytes 40 key ++
    List.replicate 8 0

/-- Poisoned slots of an exact-match table read by software (R167, R313, R315, R316). -/
def State.readPoisoned (s : State) (t : ExmTable) (n : Nat) : State :=
  let s := s.count (R.MIF_POISON_SRC_count (if t.d.hbm then 0 else 3)) n
  (s.onlyIf (!t.d.hbm) fun s => s.each (List.range n) fun _ s => s.uncorrectable 0 0 0 0).count R.MIF_POISON_CONSUMED_count n

/-- SEARCH (R135, R159, R167): the key is looked up as a packet tagged in the turn of acceptance would see it. For an associative table
`key` is in the table's key layout (R117). With `all`, every pipeline's copy answers. `poison`
lists cells of an exact-match table that read uncorrectable beside those the State knows; a poisoned associative answer is flagged too
(R139, R315). -/
def execSearch (c : Cmd) (slot table pipe : Nat) (all : Bool) (key keyAddr resultAddr : Nat) (poison : List Nat) (s : State) :
    Host.Outcome State Fault Refusal :=
  let n := match s.findExm slot table with | some e => ceilDiv e.2.d.keyBits 8 | none => 40
  ok (s.command c 0x01 (s.tableGrant slot table) [(keyAddr, n), (resultAddr, 32 + 96 * (if all then 8 else 1))] fun s =>
    let τ := s.time.turn
    let miss (s : State) : State := (s.putResult c resultAddr (summary 0 0 0 τ 0)).complete c stNotFound
    match s.findAsm slot table, s.findExm slot table with
    | some (_, t), _ =>
      if t.decl.dma then s.complete c stInvalid
      else
        let a := s.asmSearch t τ key
        let bad : Bool := a.2.any fun r => 2 ≤ r.2.2
        let s := (s.countReads a.2).onlyIf bad fun s =>
          ((s.bump R.ASM_BKT_POISON_count).bump (R.MIF_POISON_SRC_count 3)).bump R.MIF_POISON_CONSUMED_count
        if a.1.hit || bad then
          (s.putResult c resultAddr (summary 1 0 0 τ 0 ++ flagRecord (t.record slot τ 0 a.1.len key a.1) bad)).complete c stDone
        else miss s
    | none, some (i, t) =>
      if t.decl.dma then s.complete c stInvalid
      else
        let copies := if all then List.range 8 else [pipe % 8]
        let b := t.d.buckets2 (key % 2 ^ t.d.keyBits)
        let s := (copies.map t.copyOf).eraseDups.foldl (fun s p => (s.readBuckets t p [b.1, b.2]).2) s
        let found := copies.map fun p => (p, s.exmFind i t (t.copyOf p) τ (key % 2 ^ t.d.keyBits))
        let poison := poison ++ (found.filterMap fun f => f.2.map (·.1)).filter fun a => s.slotPoison t a
        if found.all fun f => f.2.isNone then miss s
        else
          let rec_ (f : Nat × Option (Nat × ECell)) : List Byte :=
            match f.2 with
            | some (a, x) => t.record slot f.1 a τ x (poison.contains a)
            | none => recHead 0 f.1 slot t.decl.id 0 τ 0 0 0 ++ List.replicate 64 0
          let s := s.readPoisoned t ((found.filterMap (·.2)).filter fun x => poison.contains x.1).length
          (s.putResult c resultAddr (summary found.length 0 0 τ 0 ++ found.flatMap rec_)).complete c stDone
    | none, none => s.complete c stInvalid)

/-! ### Iterations -/

/-- The routes of a prefix table in canonical order (R135): vrf rising, length falling, prefix rising. -/
def AsmTable.inOrder (t : AsmTable) (nv : Bool) : List Route :=
  sortOn (fun r => r.vrf) (sortOn (fun r => 128 - r.len) (sortOn (fun r => r.prefix_) (t.routes nv)))

/-- The route or rule behind the last one returned (R135), which is named by content; the first, with none. A route is named by
vrf, length and prefix, a rule by priority, key and mask. -/
def AsmTable.after (t : AsmTable) (nv : Bool) (last : Option (Nat × Nat × Nat)) : Option (Route × ARule) :=
  match t.type with
  | .ternary _ =>
    let rules := t.rules.filter fun r => r.vis.seen nv
    let rest : List ARule := match last with
      | none => rules
      | some (p, k, m) =>
        let behind : List ARule := (rules.dropWhile fun (r : ARule) => !(r.prio == p && r.key == k && r.mask == m)).drop 1
        if rules.any fun r => r.prio == p && r.key == k && r.mask == m then behind else rules.filter fun r => r.prio < p
    rest.head?.map fun r => (⟨0, 0, r.key, r.value nv⟩, r)
  | _ =>
    let rest : List Route := match last with
      | none => t.inOrder nv
      | some (v, l, p) => (t.inOrder nv).filter fun r =>
          v < r.vrf || (r.vrf == v && (r.len < l || (r.len == l && p < r.prefix_)))
    rest.head?.map fun r => (r, ⟨0, 0, 0, .always, 0, none, 0⟩)

/-- The cells an iteration has still to return, from its cursor on, as a packet of a turn sees them (R160). -/
def State.iterCells (s : State) (x : IterCtx) (t : ExmTable) (τ : Nat) : List (Nat × ECell) :=
  let ahead := t.cells.filter fun e =>
    cellCopy e.1 == x.copy && x.cursor ≤ e.1 % 2 ^ 40 && t.shows τ e.2 && !s.agedOut x.table t.d τ e.2 &&
      !x.seen.contains (t.d.keyOf e.2.bits)
  let late := x.late.filterMap fun k =>
    t.cells.find? fun e => cellCopy e.1 == x.copy && t.d.keyOf e.2.bits == k && t.shows τ e.2 && !s.agedOut x.table t.d τ e.2
  ahead ++ late

/-- An iteration context set or, with none, closed (R160, R168). -/
def State.setIter (s : State) (k : Nat) (x : Option IterCtx) : State :=
  let s := { s with tab := { s.tab with iters := match x with | some x => mput s.tab.iters k x | none => mdel s.tab.iters k } }
  s.wrBit ⟨R.EXM_ITER_OPEN, k, 1⟩ x.isSome

/-- A batch of an iteration (R160): up to `count` records; the batch with the last entry sets end and closes the context. -/
def State.iterate (s : State) (c : Cmd) (k slot pipe count resultAddr : Nat) (x : IterCtx) (t : ExmTable) (poison : List Nat) : State :=
  let τ := s.time.turn
  let cells := s.iterCells x t τ
  let out := cells.take count
  let aheadOut := out.filter fun e => x.cursor ≤ e.1 % 2 ^ 40 && !x.late.contains (t.d.keyOf e.2.bits)
  let cursor := match aheadOut.getLast? with | some e => e.1 % 2 ^ 40 + 1 | none => x.cursor
  let keys := out.map fun e => t.d.keyOf e.2.bits
  let last : Bool := cells.length ≤ count
  let x' : IterCtx := { x with cursor := cursor, late := x.late.filter (fun k => !keys.contains k), used := s.time.elapsed }
  let poison := poison ++ (out.map (·.1)).filter fun a => s.slotPoison t a
  let s := (s.readBuckets t x.copy (out.map fun e => cellBucket e.1).eraseDups).2
  let s := s.setIter k (if last then none else some x')
  let s := s.readPoisoned t (out.filter fun e => poison.contains e.1).length
  let recs := out.flatMap fun e => t.record slot pipe e.1 τ e.2 (poison.contains e.1)
  (s.putResult c resultAddr (summary out.length (bit01 last) k τ 0 ++ recs)).complete c stDone

/-- NEXT (R135, R159, R160, R167): for an associative table the route or rule behind `after` in canonical order; for an exact-match table
the next batch of iteration context `context`, or of a new one (0xFFFF). `poison` lists
cells that read uncorrectable beside those the State knows. A ternary rule's mask, part of the rule and of the next handle, stands in a second record. -/
def execNext (c : Cmd) (slot table pipe count context resultAddr : Nat) (after : Option (Nat × Nat × Nat)) (poison : List Nat)
    (s : State) : Host.Outcome State Fault Refusal :=
  ok (s.command c 0x02 (s.tableGrant slot table) [(resultAddr, 32 + 96 * count)] fun s =>
    let τ := s.time.turn
    match s.findAsm slot table, s.findExm slot table with
    | some (_, t), _ =>
      if t.decl.dma then s.complete c stInvalid
      else
        let nv := t.newView τ
        match t.after nv after with
        | none => s.complete c stNotFound
        | some (r, x) =>
          let ternary : Bool := match t.type with | .ternary _ => true | _ => false
          let a : AsmAnswer := ⟨true, r.result, 0, 0, r.len, 0⟩
          let body := if ternary then t.record slot τ x.prio 0 x.key a ++ t.record slot τ x.prio 0 x.mask a
            else t.record slot τ r.vrf r.len r.prefix_ a
          (s.putResult c resultAddr (summary (body.length / 96) 0 0 τ 0 ++ body)).complete c stDone
    | none, some (i, t) =>
      if t.decl.dma || count = 0 || 64 < count then s.complete c stInvalid
      else if context = 0xFFFF then
        match firstIdx 16 fun k => (mget s.tab.iters k).isNone with
        | none => s.complete c stNoResource
        | some k => s.iterate c k slot (pipe % 8) count resultAddr ⟨i, t.copyOf (pipe % 8), 0, [], [], false, s.time.elapsed⟩ t poison
      else
        match mget s.tab.iters context with
        | none => s.complete c stNotFound
        | some x =>
          if x.table != i || x.copy != t.copyOf (pipe % 8) then s.complete c stInvalid
          else if x.overflow then
            ((s.setIter context none).putResult c resultAddr (summary 0 2 context τ 0)).complete c stAborted
          else s.iterate c context slot (pipe % 8) count resultAddr x t poison
    | none, none => s.complete c stInvalid)

/-- ITERATION_CONTEXT_EXPIRE (R160): a context idle for 1 s closes. -/
def execIterationContextExpire (k : Nat) (s : State) : Host.Outcome State Fault Refusal :=
  ok (match mget s.tab.iters k with
    | some x => if x.used + 1000000000 ≤ s.time.elapsed then s.setIter k none else s
    | none => s)

/-! ### Flushes -/

/-- FLUSH_PORT (R159, R161): a sweep over a command-mode table with a declared port field; ACCEPTED at once, at most four at a
time. -/
def execFlushPort (c : Cmd) (slot table port : Nat) (incl : Bool) (resultAddr : Nat) (s : State) :
    Host.Outcome State Fault Refusal :=
  ok (s.command c 0x03 (rightOf 0x03 ++ s.tableGrant slot table) [(resultAddr, 32)] fun s =>
    match s.findExm slot table with
    | none => s.complete c stInvalid
    | some (i, t) =>
      if t.decl.dma || t.d.port.isNone || 127 < port then s.complete c stInvalid
      else if 4 ≤ t.flushes.length then s.complete c stBusyRetry
      else (s.setExm i { t with flushes := t.flushes ++ [⟨port, resultAddr, incl, s.time.turn, c⟩] }).accepted c s.time.turn)

/-- Whether a flush is for an entry (R161): its port field equals the port; it is static and static entries are included, or it was not
learned by a packet tagged at or after the turn of acceptance. -/
def EFlush.names (f : EFlush) (d : ExmDecl) (c : ECell) : Bool :=
  (match d.port with | some p => bitsAt c.bits p.bit p.width == f.port | none => false) &&
  (if c.static then f.incl else decide (c.tag < f.turn))

/-- Whether a flush deletes a slot at the boundary `pub`: it stands, is on its way, or retires later (R161). -/
def EFlush.takes (f : EFlush) (d : ExmDecl) (pub : Nat) (c : ECell) : Bool :=
  f.names d c && (c.state == 1 || (!c.static && (c.state == 4 || (c.state == 5 && !atOrAfter pub c.pub))))

/-- FLUSH_PORT_DONE (R161, R164): the oldest flush of a table has swept every bucket, locked ones after their lock. Every entry deleted is
learn retiring from the next boundary on; an unpublished one whose key has a slot that is seen is freed, for two slots of a key are never
seen together (R146). A static copy that an open overlap brings in is swept when the overlap is closed. The command completes DONE. -/
def execFlushPortDone (t : Nat) (s : State) : Host.Outcome State Fault Refusal :=
  ok (match mget s.tab.exm t with
    | none => s
    | some x =>
      match x.flushes with
      | [] => s
      | f :: rest =>
        let τ := s.time.turn
        let pub := (τ + 1) % 4096
        let mine := x.cells.filter fun e => f.takes x.d pub e.2
        if mine.any (fun e => x.locked (cellCopy e.1) (cellBucket e.1)) ||
            (x.overlap.isSome && x.cells.any fun e => e.2.static && e.2.state == 3 && f.names x.d e.2) then s
        else
          let gone (a : Nat) (c : ECell) : Bool :=
            f.takes x.d pub c && c.state == 4 && !x.shows τ c &&
              (x.holding (cellCopy a) (x.d.keyOf c.bits)).any fun e => e.1 != a && x.shows τ e.2
          let x' := x.remove gone
          let cells := x'.cells.map fun e => if f.takes x.d pub e.2 then (e.1, { e.2 with state := 5, pub := pub }) else e
          let s := s.setExm t { x' with cells := cells, flushes := rest }
          (s.putResult f.cmd f.dest (summary 0 0 0 τ mine.length)).complete f.cmd stDone)

end Sys2Proof.Machine
end

