-- ==== Sys2Proof/Machine/Firmware.lean ====
section
/-!
DEFINITION. Machine/Firmware.lean: firmware (chapter 18): crumbs and staging (R525 to R528), image checks and bank writes (R520 to R523,
R529, R530), level announcements and known peers (R531), activation and revert (R532 to R536), fuses (R518, R519), recovery (R538 to
R540) and the boot configuration record (R542).
-/

namespace Sys2Proof.Machine

/-! ### Images (R520 to R522) -/

/-- Fields of a firmware image's header. -/
def fwLen (m : List Byte) : Nat := leAt m 8 4
def fwInterop (m : List Byte) : Nat := leAt m 20 2
def fwPeerMin (m : List Byte) : Nat := leAt m 22 2
def fwPeerMax (m : List Byte) : Nat := leAt m 24 2
def fwLibMin (m : List Byte) : Nat := leAt m 26 2
def fwLibMax (m : List Byte) : Nat := leAt m 28 2
def fwSecVer (m : List Byte) : Nat := byteAt m 30
def fwTable (m : List Byte) : Nat := leAt m 56 4
def fwTrailer (m : List Byte) : Nat := leAt m 60 4

/-- Entry of component `k`, 1 to 4, in the component table (R521): its offset, length, digest and bytes. -/
def fwEntry (m : List Byte) (k : Nat) : List Byte := slice m (fwTable m + 64 * (k - 1)) 64
def fwOff (m : List Byte) (k : Nat) : Nat := leAt (fwEntry m k) 4 4
def fwSize (m : List Byte) (k : Nat) : Nat := leAt (fwEntry m k) 8 4
def fwDigest (m : List Byte) (k : Nat) : List Byte := slice (fwEntry m k) 16 48
def fwComp (m : List Byte) (k : Nat) : List Byte := slice m (fwOff m k) (fwSize m k)

/-- The 64-byte sub-header of a component (R71, R521): the length of the ciphertext behind it, and zeros. -/
def fwSubOk (c : List Byte) : Bool := 64 ≤ c.length && leAt c 28 4 + 64 == c.length && zeroAt c 32 32

/-- The structure of R520 and R521. -/
def fwStructOk (m : List Byte) : Bool :=
  let entryOk (k low : Nat) : Bool :=
    leAt (fwEntry m k) 0 2 == k && leAt (fwEntry m k) 2 2 == 1 && zeroAt (fwEntry m k) 12 4 && fwOff m k % 64 == 0 &&
    low ≤ fwOff m k && fwOff m k + fwSize m k ≤ fwTrailer m
  slice m 0 4 == [0x53, 0x46, 0x57, 0x31] && leAt m 4 2 == 1 && leAt m 6 2 == 256 && fwLen m == m.length &&
  m.length ≤ 125829120 && 768 ≤ m.length && leAt m 12 2 == 4 && zeroAt m 14 2 && fwSecVer m ≤ 64 && zeroAt m 31 1 && zeroAt m 64 192 &&
  256 ≤ fwTable m && fwTable m % 64 == 0 && fwTrailer m + 512 == m.length && fwTrailer m % 64 == 0 &&
  entryOk 1 (fwTable m + 256) && entryOk 2 (fwOff m 1 + fwSize m 1) && entryOk 3 (fwOff m 2 + fwSize m 2) &&
  entryOk 4 (fwOff m 3 + fwSize m 3) && [1, 2, 3, 4].all fun k => fwSubOk (fwComp m k)

/-- Every component's digest is the SHA-384 of its bytes (R521, R523). -/
def fwDigestsOk (m : List Byte) : Bool := [1, 2, 3, 4].all fun k => fwDigest m k == sha384 (fwComp m k)

/-- The trailer's chain to the fused root key, over bytes 0 to trailer_off - 1, with the usage bit of firmware images (R522, R523). -/
def State.fwTrailerOk (s : State) (m : List Byte) : Bool :=
  s.trailerOk (slice m (fwTrailer m) 512) 0 (sha384 (m.take (fwTrailer m)))

/-- How an image fails the checks of R523: an authentication check with its security-log reason, or part code and revision. -/
inductive FwFail where
  | auth (reason : Nat)
  | unfit
  deriving DecidableEq, Repr

/-- The first check of R523 that an image fails, in order. -/
def State.fwFailure (s : State) (m : List Byte) (x : FwChecks) : Option FwFail :=
  if !fwStructOk m then some (.auth secStructure)
  else if !fwDigestsOk m then some (.auth secDigest)
  else if !s.fwTrailerOk m then some (.auth secVendor)
  else if leAt m 16 2 != 0x7260 || s.rd R.GLB_ID_revision < byteAt m 18 || byteAt m 19 < s.rd R.GLB_ID_revision then some .unfit
  else if fwSecVer m < s.rd R.FWS_FW_SECVER_arb_count then some (.auth secSerial)
  else if !x.gcmOk then some (.auth secGcm)
  else none

/-- Whether an image changes data-path microcode beside the running one (R521). -/
def changesUcode (new old : List Byte) : Bool := fwDigest new 3 != fwDigest old 3 || fwDigest new 4 != fwDigest old 4

/-! ### Banks (R530) -/

/-- The bank states of R530. -/
def bkEmpty : Nat := 0
def bkWriting : Nat := 1
def bkStaged : Nat := 2
def bkActive : Nat := 3
def bkPrevious : Nat := 4
def bkInvalid : Nat := 5

/-- A bank's journaled state and image. -/
def State.bankState (s : State) (b : Nat) : Nat := sread (fun _ => 0) s.flash.states b
def State.bankImage (s : State) (b : Nat) : List Byte := (mget s.flash.banks b).getD []

/-- FWS_FW_STATUS brought in line with the journal. -/
def State.fwSync (s : State) : State :=
  let s := s.wr R.FWS_FW_STATUS_bank_a (s.bankState 0)
  let s := s.wr R.FWS_FW_STATUS_bank_b (s.bankState 1)
  s.wrBit R.FWS_FW_STATUS_act_pending (s.sched.any fun x => match x.ev with | .firmware _ _ _ => true | _ => false)

/-- A bank's state recorded in the journal (R516, R530). -/
def State.setBank (s : State) (b st : Nat) : State :=
  { s with flash := { s.flash with states := swrite (fun _ => 0) s.flash.states b st } }.fwSync

/-- The bank that runs, and the standby bank. -/
def State.activeBank (s : State) : Nat := s.rd R.FWS_FW_STATUS_active_bank
def State.standby (s : State) : Nat := 1 - s.activeBank

/-- A bank's image runs: its levels, its security version (R530, R543). -/
def State.runImage (s : State) (b : Nat) : State :=
  let m := s.bankImage b
  let s := { s with fw := ⟨fwInterop m, fwSecVer m, fwLibMin m, fwLibMax m, fwPeerMin m, fwPeerMax m⟩ }
  let s := (s.wr R.FWS_FW_STATUS_active_bank b).wr R.FWS_FW_STATUS_interop (fwInterop m)
  let s := (s.wr R.FWS_FW_LEVELS_peer_min (fwPeerMin m)).wr R.FWS_FW_LEVELS_peer_max (fwPeerMax m)
  s.wr R.FWS_FW_SECVER_sec_version (fwSecVer m)

/-- A microcode copy written anew in every stage (R199, R200). -/
def State.writeUcode (s : State) (copy : Nat) : State := s.rewriteWords fun k => 2 ^ 24 ≤ k && k % 4096 / 1024 == copy

/-- The microcode patches of a bank in every stage of all pipelines (R199, R200). -/
def State.patchUcode (s : State) (b : Nat) : State :=
  let lvl := Config.patchLevel (fwComp (s.bankImage b) 3)
  s.each (List.range 8) fun p s => (s.wr (R.PPL_UCODE_patch_level p) lvl).wr (R.PPL_UCODE_shadow_valid p) 0

/-! ### Staging (R525 to R528) -/

/-- The number of crumbs of the bound image, and whether all are present. -/
def State.stgCount (s : State) : Nat := match s.flash.binding with | some b => b.2 | none => 0
def State.stgComplete (s : State) : Bool := s.flash.binding.isSome && s.flash.crumbs.length == s.stgCount

/-- The staging registers brought in line. -/
def State.stgSync (s : State) : State :=
  let s := (s.wr R.FWS_STG_STATUS_present s.flash.crumbs.length).wr R.FWS_STG_STATUS_count s.stgCount
  let s := (s.wrBit R.FWS_STG_STATUS_complete s.stgComplete).wrBit R.FWS_STG_STATUS_bound s.flash.binding.isSome
  s.each (List.range 4) fun w s => s.wr (R.FWS_STG_ID_id w) (match s.flash.binding with | some b => leAt b.1 (4 * w) 4 | none => 0)

/-- Staging emptied (R527, R538). -/
def State.emptyStaging (s : State) : State := { s with flash := { s.flash with crumbs := [], binding := none } }.stgSync

/-- Fields of a crumb's header (R525). -/
def crumbId (c : List Byte) : List Byte := slice c 4 16
def crumbIndex (c : List Byte) : Nat := leAt c 20 4
def crumbCount (c : List Byte) : Nat := leAt c 24 4
def crumbSize (c : List Byte) : Nat := leAt c 28 4

/-- A crumb's form, length and CRC (R525, R526). -/
def crumbOk (c : List Byte) : Bool :=
  slice c 0 4 == [0x53, 0x43, 0x52, 0x42] && zeroAt c 36 28 && 1 ≤ crumbCount c && crumbCount c ≤ 30720 &&
  crumbIndex c < crumbCount c && 64 + crumbSize c ≤ c.length &&
  (if crumbIndex c + 1 = crumbCount c then 1 ≤ crumbSize c && crumbSize c ≤ 4096 else crumbSize c == 4096) &&
  crc32c (slice c 0 32 ++ slice c 64 (crumbSize c)) == leAt c 32 4

/-- Whether staging is bound to another image. -/
def State.boundElsewhere (s : State) (c : List Byte) : Bool :=
  match s.flash.binding with | some b => b.1 != crumbId c | none => false

/-- A crumb treated under R526: DONE for one accepted or already present, INVALID for one that fails a check. -/
def State.takeCrumb (s : State) (c : List Byte) : Nat × State :=
  let fits := match s.flash.binding with | some b => b.1 == crumbId c && b.2 == crumbCount c | none => true
  if !(crumbOk c && fits) then (stInvalid, s.bump R.FWS_STG_BAD_count)
  else if (mget s.flash.crumbs (crumbIndex c)).isSome then (stDone, s.bump R.FWS_STG_DUPS_count)
  else
    (stDone, { s with flash := { s.flash with
      binding := some (crumbId c, crumbCount c),
      crumbs := mput s.flash.crumbs (crumbIndex c) (slice c 64 (crumbSize c)) } }.stgSync)

/-- The staged image. -/
def State.staged (s : State) : List Byte := s.flash.crumbs.flatMap fun e => e.2

/-- FW_CRUMB without and with restart (R526, R527, R532). -/
def State.fwCrumbOp (s : State) (c : Cmd) (addr : Nat) (bytes : List Byte) (restart : Bool) : State :=
  s.command c 0x38 (rightOf 0x38 ++ (if restart then rightOf 0x3A else [])) [(addr, 64 + 4096)] fun s =>
    if (!restart && s.boundElsewhere bytes) || s.flash.job.isSome || s.fwChanging then s.complete c stBusyRetry
    else
      if addr % 64 ≠ 0 then s.complete c stInvalid
      else
        let s := if restart then s.emptyStaging else s
        let r := s.takeCrumb bytes
        if r.1 = stDone then r.2.completeWith c stDone r.2.flash.crumbs.length none else r.2.complete c r.1

/-- FW_CRUMB (R526, R527): one crumb, read from host memory. -/
def execFwCrumb (c : Cmd) (addr : Nat) (bytes : List Byte) (s : State) : Host.Outcome State Fault Refusal :=
  ok (s.fwCrumbOp c addr bytes false)

/-- FW_CRUMB with restart (R527): staging is emptied first; PF1 is refused. -/
def execFwCrumbRestart (c : Cmd) (addr : Nat) (bytes : List Byte) (s : State) : Host.Outcome State Fault Refusal :=
  ok (s.fwCrumbOp c addr bytes true)

/-- A punted crumb taken by the management cores (R528): one that fails, is bound to another image or comes while firmware changes is
counted and dropped. -/
def State.takePunt (s : State) (bytes : List Byte) : State :=
  let now := s.time.elapsed / 1000000000
  let n := if s.flash.rate.1 = now then s.flash.rate.2 else 0
  if 20000 ≤ n then s.bump R.FWS_INB_DROP_count
  else
    let s := { s with flash := { s.flash with rate := (now, n + 1) } }
    if s.boundElsewhere bytes || s.flash.job.isSome || s.fwChanging then s.bump R.FWS_STG_BAD_count
    else (s.takeCrumb bytes).2

/-- INBAND_CRUMB_RECEIVE (R528, R534): a punted packet's bytes from its payload_off on. It waits in the punt queue of 4 MiB while the
management cores hand over; a crumb beyond 20,000 in a second, or that finds the queue full, is dropped and counted. -/
def execInbandCrumbReceive (payload : List Byte) (s : State) : Host.Outcome State Fault Refusal :=
  ok (if !s.on R.FWS_INB_CFG_en || !s.svc.fwRunning || slice payload 0 4 != [0x53, 0x43, 0x52, 0x42] ||
        payload.length < 64 + crumbSize payload then s
    else if s.svc.handover then
      if sumOf List.length s.flash.punts + payload.length ≤ 4 * 2 ^ 20 then
        { s with flash := { s.flash with punts := s.flash.punts ++ [payload] } }
      else s.bump R.FWS_INB_DROP_count
    else s.takePunt payload)

/-! ### Verifying and writing a bank (R529, R530) -/

/-- The 3,840-byte crumb bitmap, and the crumbs that are missing. -/
def State.crumbMap (s : State) : List Byte :=
  (List.range 3840).map fun b => BitVec.ofNat 8 (bitsWhere 8 fun j => (mget s.flash.crumbs (8 * b + j)).isSome)
def State.crumbsMissing (s : State) : Nat := s.stgCount - s.flash.crumbs.length

/-- FW_VERIFY with query (R529, R532): the bitmap goes to host memory; detail holds the number of missing crumbs. From an activation's
acceptance to its completion FW_VERIFY completes BUSY_RETRY. -/
def execFwVerifyQuery (c : Cmd) (dest : Nat) (s : State) : Host.Outcome State Fault Refusal :=
  ok (s.command c 0x39 (rightOf 0x39) [(dest, 3840)] fun s =>
    if s.fwChanging then s.complete c stBusyRetry
    else (s.putResult c dest s.crumbMap).completeWith c stDone s.crumbsMissing none)

/-- FW_VERIFY (R529): the checks in order; an accepted command starts the check of the staged image. -/
def execFwVerify (c : Cmd) (s : State) : Host.Outcome State Fault Refusal :=
  ok (s.command c 0x39 (rightOf 0x39) [] fun s =>
    if s.fwChanging || s.flash.job.isSome then s.complete c stBusyRetry
    else if !s.stgComplete then s.completeWith c stNotReady s.crumbsMissing none
    else
      let s := { s with flash := { s.flash with job := some ⟨.cmd c, 0, s.time.elapsed + 3000000000, s.standby⟩ } }
      s.completeWith c stAccepted 0 none)

/-- The write of a bank begins: its state is WRITING before the first erase (R530). -/
def State.beginWrite (s : State) (j : FwJob) : State :=
  let s := { s with flash := { s.flash with banks := mdel s.flash.banks j.bank, job := some { j with stage := 2 } } }
  s.setBank j.bank bkWriting

/-- Whether an image supports the vendor library of every slot that is not EMPTY (R529). -/
def State.libsFit (s : State) (m : List Byte) : Bool :=
  [0, 1].all fun k => s.slotState k == slEmpty ||
    match (if k = 0 then s.recipe.slotA else s.recipe.slotB) with
    | some x => fwLibMin m ≤ x.vendorLib && x.vendorLib ≤ fwLibMax m
    | none => true

/-- The write in progress replaced. -/
def State.setJob (s : State) (j : Option FwJob) : State := { s with flash := { s.flash with job := j } }

/-- STAGED_IMAGE_CHECK_DONE (R523, R529, R541): the check of the staged image ends: the write begins, or the command completes
INCOMPATIBLE, or a failed authentication waits for its fixed time with its reason in the security log. -/
def execStagedImageCheckDone (checks : FwChecks) (s : State) : Host.Outcome State Fault Refusal :=
  ok (match s.flash.job with
    | none => s
    | some j =>
      match j.ask with
      | .cmd c =>
        if j.stage ≠ 0 then s
        else
          match s.fwFailure s.staged checks with
          | some (.auth why) =>
            (s.secLog why (cmdFn c) 0 0x39 none).setJob (some { j with stage := 1 })
          | some .unfit => (s.setJob none).complete c stIncompatible
          | none => if s.libsFit s.staged then s.beginWrite j else (s.setJob none).complete c stIncompatible
      | _ => s)

/-- FW_VERIFY_AUTH_FAIL (R529): exactly 3 s after acceptance, INVALID. -/
def execFwVerifyAuthFail (s : State) : Host.Outcome State Fault Refusal :=
  ok (match s.flash.job with
    | some ⟨.cmd c, 1, due, _⟩ => if due ≤ s.time.elapsed then (s.setJob none).complete c stInvalid else s
    | _ => s)

/-- FW_BANK_WRITE_DONE (R529, R530): the image has been written and read back: the bank is STAGED. -/
def execFwBankWriteDone (s : State) : Host.Outcome State Fault Refusal :=
  ok (match s.flash.job with
    | some ⟨.cmd c, 2, _, b⟩ =>
      let s := { s with flash := { s.flash with banks := mput s.flash.banks b s.staged, job := none } }
      (s.setBank b bkStaged).complete c stDone
    | _ => s)

/-! ### Known peers (R531) -/

/-- LEVEL_SEND (R377, R531): every 100 ms, and at once after an activation, a level announcement goes to every reachable device. -/
def execLevelSend (s : State) : Host.Outcome State Fault Refusal :=
  ok (if !s.svc.fwRunning || s.tdDown || s.time.elapsed < s.fab.levelAt then s
    else
      let body := leBytes 2 s.fw.interop ++ leBytes 2 s.fw.peerMin ++ leBytes 2 s.fw.peerMax ++ leBytes 2 0
      let s := { s with fab := { s.fab with levelAt := s.time.elapsed + 100000000 } }
      s.each ((List.range 512).filter fun d => d != s.self && s.reachable d) fun d s => s.sendCtl d 6 (ctlMessage 0x20 0 body))

/-- LEVEL_RECEIVE (R377, R531): the oldest level announcement received makes its sender a known peer. -/
def execLevelReceive (s : State) : Host.Outcome State Fault Refusal :=
  ok (match s.fab.inbox.find? fun m => m.kind == 0x20 with
    | none => s
    | some m =>
      let p : PeerSt := ⟨leAt m.body 0 2, leAt m.body 2 2, leAt m.body 4 2, s.time.elapsed⟩
      { s with fab := { s.fab with inbox := s.fab.inbox.erase m, peers := mput s.fab.peers m.src p } }.peerSync)

/-- PEER_FORGET (R531): a peer silent for forget_s seconds is no known peer any more. A fabric element is named by 2,048 + its number. -/
def execPeerForget (peer : Nat) (s : State) : Host.Outcome State Fault Refusal :=
  ok (match mget s.fab.peers peer with
    | none => s
    | some p =>
      if p.heard + s.rd R.FWS_PEER_CFG_forget_s * 1000000000 ≤ s.time.elapsed then
        { s with fab := { s.fab with peers := mdel s.fab.peers peer } }.peerSync
      else s)

/-! ### Activation and revert (R532 to R536) -/

/-- The first known peer that an image cannot work with, as the detail of INCOMPATIBLE (R532): its number, with bit 9 for a fabric
element. -/
def State.peerAgainst (s : State) (m : List Byte) : Option Nat :=
  let known := s.fab.peers.filter fun e => s.time.elapsed < e.2.heard + s.rd R.FWS_PEER_CFG_forget_s * 1000000000
  (known.find? fun e =>
    e.2.level < fwPeerMin m || fwPeerMax m < e.2.level ||
    (e.1 < 2048 && (fwInterop m < e.2.least || e.2.most < fwInterop m))).map fun e =>
      if e.1 < 2048 then e.1 % 512 else e.1 % 512 + 512

/-- Whether the firmware interop range of every slot that is not EMPTY holds a level (R67, R532). -/
def State.slotsAccept (s : State) (level : Nat) : Bool :=
  [0, 1].all fun k => s.slotState k == slEmpty ||
    match (if k = 0 then s.recipe.slotA else s.recipe.slotB) with
    | some x => x.interopMin ≤ level && level ≤ x.interopMax
    | none => true

/-- FW_ACTIVATE and FW_REVERT (R532, R536): the checks in order on the bank in the state asked for. -/
def State.fwSwitch (s : State) (c : Cmd) (turn opcode : Nat) (revert : Bool) : State :=
  s.command c opcode (rightOf opcode) [] fun s =>
    let want := if revert then bkPrevious else bkStaged
    let b := s.standby
    let m := s.bankImage b
    let u := changesUcode m (s.bankImage s.activeBank)
    let ev := SchedEv.firmware b u revert
    let ans := s.schedCheck ev c.system turn
    if s.bankState b != want || ((List.range 3).any fun k => s.on (R.FWS_RCP_STORE_w0_writing k)) || !s.recipe.loads.isEmpty then
      s.complete c stNotReady
    else if fwSecVer m < s.rd R.FWS_FW_SECVER_arb_count then s.complete c stInvalid
    else
      match s.peerAgainst m with
      | some d => s.completeWith c stIncompatible d none
      | none =>
        if !s.slotsAccept (fwInterop m) then s.complete c stIncompatible
        else if ans ≠ stDone then s.complete c ans
        else if u && turn * 2 ^ s.rd R.TBS_TURN_LEN_LOG2_t < s.time.sysNs + 25000000 then s.complete c stLate
        else (s.schedTake ev turn c.system (cmdFn c) (some c)).fwSync.accepted c turn

/-- FW_ACTIVATE and FW_REVERT with cancel (R52, R532, R536). -/
def State.fwCancel (s : State) (c : Cmd) (opcode : Nat) (revert : Bool) : State :=
  s.command c opcode (rightOf opcode) [] fun s =>
    match s.schedFind fun e => match e with | .firmware _ _ r => r == revert | _ => false with
    | none => s.complete c stNotFound
    | some x =>
      if s.inTime x.turn then ((s.schedFree x).fwSync.completeOpt x.cmd stAborted).complete c stDone else s.complete c stLate

/-- FW_ACTIVATE (R532). -/
def execFwActivate (c : Cmd) (turn : Nat) (s : State) : Host.Outcome State Fault Refusal := ok (s.fwSwitch c turn 0x3A false)

/-- FW_ACTIVATE with cancel (R532). -/
def execFwActivateCancel (c : Cmd) (s : State) : Host.Outcome State Fault Refusal := ok (s.fwCancel c 0x3A false)

/-- FW_REVERT (R536). -/
def execFwRevert (c : Cmd) (turn : Nat) (s : State) : Host.Outcome State Fault Refusal := ok (s.fwSwitch c turn 0x3B true)

/-- FW_REVERT with cancel (R536). -/
def execFwRevertCancel (c : Cmd) (s : State) : Host.Outcome State Fault Refusal := ok (s.fwCancel c 0x3B true)

/-- FW_SHADOW_READY (R200, R533): the shadow copies of an activation that changes data-path microcode are written. -/
def execFwShadowReady (s : State) : Host.Outcome State Fault Refusal :=
  ok (if s.sched.any fun x => match x.ev with | .firmware _ u _ => u | _ => false then
      (s.writeUcode (1 - s.fd.ucode)).each (List.range 8) fun p s => s.wr (R.PPL_UCODE_shadow_valid p) 1
    else s)

/-- A firmware activation at its boundary (R534, R535): the management cores hand over, and the data path pauses when its microcode
changes. A bank that is no longer in the state it was scheduled in is not switched to. -/
def State.fireFirmware (s : State) (x : SlotEv) (bank : Nat) (ucode revert : Bool) : State :=
  let s := s.fwSync
  if s.bankState bank != (if revert then bkPrevious else bkStaged) || s.svc.handover then s.completeOpt x.cmd stNotReady
  else
    { s with svc := { s.svc with handover := true, dpPaused := s.svc.dpPaused || ucode },
             flash := { s.flash with hand := some ⟨x.cmd, bank, revert, s.time.elapsed⟩ } }

/-- DATA_PATH_PAUSE_END (R200, R535): the two copies of the microcode swap and the data path resumes. Packets that entered their section
before the pause keep the old copy in every stage they have still to pass. -/
def execDataPathPauseEnd (s : State) : Host.Outcome State Fault Refusal :=
  ok (match s.flash.hand with
    | none => s
    | some h =>
      if !s.svc.dpPaused then s
      else
        let s := { s with svc := { s.svc with dpPaused := false }, fd := { s.fd with ucode := 1 - s.fd.ucode } }.patchUcode h.bank
        s.wr R.FWS_FW_DP_PAUSE_ns (min 0xFFF (s.time.elapsed - h.began)))

/-- FW_MGMT_RESUME (R531, R534, R536): the management cores resume under the new image: the journal holds the bank as ACTIVE and the old
one as PREVIOUS (after a revert STAGED); the command completes DONE, and punted packets that waited are taken. -/
def execFwMgmtResume (s : State) : Host.Outcome State Fault Refusal :=
  ok (match s.flash.hand with
    | none => s
    | some h =>
      let old := s.activeBank
      let s := (s.runImage h.bank).setBank h.bank bkActive
      let s := s.setBank old (if h.revert then bkStaged else bkPrevious)
      let waiting := s.flash.punts
      let s := { s with svc := { s.svc with handover := false }, fab := { s.fab with levelAt := s.time.elapsed } }
      let s := { s with flash := { s.flash with hand := none, boot := h.bank, punts := [] } }
      let s := s.wr R.FWS_FW_MGMT_PAUSE_us (min 0xFFFF ((s.time.elapsed - h.began) / 1000))
      let s := match h.cmd with | some c => s.completeWith c stDone s.fw.interop none | none => s
      (s.event sevInfo R.FWS_FW_STATUS).each waiting fun b s => s.takePunt b)

/-! ### Fuses (R518, R519) -/

/-- A fuse operation begins: the security engine is busy. -/
def State.beginFuse (s : State) (f : FuseOp) : State :=
  { s.wr R.FWS_SEC_STATUS_busy 1 with flash := { s.flash with fuse := some f } }

/-- ARB_RAISE (R518): with the key, the anti-rollback counter is raised to a value no lower than it stands and no higher than the running
image's security version. -/
def execArbRaise (fn be val : Nat) (s : State) : Host.Outcome State Fault Refusal :=
  ok (s.hostWrite fn R.FWS_ARB_RAISE be true fun s =>
    let v := val % 128
    if val / 65536 % 65536 ≠ 0x3C96 ∨ v < s.rd R.FWS_FW_SECVER_arb_count ∨ s.fw.secVer < v then
      s.lateErr fn 0 R.FWS_ARB_RAISE leBadValue false
    else if s.flash.fuse.isSome then s.lateErr fn 0 R.FWS_ARB_RAISE leWrongState false
    else s.beginFuse ⟨0, v, [], R.FWS_ARB_RAISE⟩)

/-- KEY_PROGRAM (R448, R519): with the key and program set, the hash at FWS_KEY_BUF is blown into an unprogrammed slot. -/
def execKeyProgram (fn be val : Nat) (hash : List Byte) (s : State) : Host.Outcome State Fault Refusal :=
  ok (s.hostWrite fn R.FWS_KEY_CTRL be true fun s =>
    let addr := s.rd64 R.FWS_KEY_BUF_LO_addr_lo R.FWS_KEY_BUF_HI_addr_hi
    if val / 65536 % 65536 ≠ 0x96E1 ∨ !bitAt val 2 ∨ bitAt (s.rd R.FWS_KEY_STATUS_programmed) (val % 4) ∨ s.flash.fuse.isSome then
      s.lateErr fn 0 R.FWS_KEY_CTRL leWrongState false
    else if !s.inWindow fn addr 48 then
      (s.secLog secWindow fn addr 0 none).lateErr fn 0 R.FWS_KEY_CTRL leRefused false
    else s.beginFuse ⟨1, val % 4, hash, R.FWS_KEY_CTRL⟩)

/-- KEY_REVOKE (R519): with the key and revoke set, the slot's revocation bit is blown. -/
def execKeyRevoke (fn be val : Nat) (s : State) : Host.Outcome State Fault Refusal :=
  ok (s.hostWrite fn R.FWS_KEY_CTRL be true fun s =>
    if val / 65536 % 65536 ≠ 0x96E1 ∨ !bitAt val 3 ∨ s.flash.fuse.isSome then s.lateErr fn 0 R.FWS_KEY_CTRL leWrongState false
    else s.beginFuse ⟨2, val % 4, [], R.FWS_KEY_CTRL⟩)

/-- FUSE_OPERATION_DONE (R518, R519, R541): the fuses are blown, busy clears; an INFO event and an entry of the security log. -/
def execFuseOperationDone (s : State) : Host.Outcome State Fault Refusal :=
  ok (match s.flash.fuse with
    | none => s
    | some f =>
      let s := { s.wr R.FWS_SEC_STATUS_busy 0 with flash := { s.flash with fuse := none } }
      let s := match f.kind with
        | 0 => s.wr R.FWS_FW_SECVER_arb_count f.value
        | 1 => (s.each (List.range 12) fun j s => s.wr (R.FWS_CKEY_HASH_hash f.value j) (leAt f.hash (4 * j) 4)).wr
            ⟨R.FWS_KEY_STATUS, f.value, 1⟩ 1
        | _ => s.wr ⟨R.FWS_KEY_STATUS, 4 + f.value, 1⟩ 1
      (s.secLog secFuse 0 f.addr 0 none).eventOn sevInfo 0 R.FWS_SEC_STATUS true)

/-! ### Recovery (R538 to R540) -/

/-- A check of the staged image in recovery (R539): it fails with its reason in the security log and is answered 3 s later, or its write to
a bank begins: one that is EMPTY or INVALID, otherwise the one that is not the boot bank. -/
def State.recoverVerify (s : State) (ask : FwAsk) (checks : FwChecks) : State :=
  let free := [0, 1].find? fun b => s.bankState b == bkEmpty || s.bankState b == bkInvalid
  let j : FwJob := ⟨ask, 1, s.time.elapsed + 3000000000, free.getD (1 - s.flash.boot)⟩
  let fail := if s.stgComplete then s.fwFailure s.staged checks else some (.auth secStructure)
  match fail with
  | some (.auth why) => (s.secLog why 0 0 0 none).setJob (some j)
  | some .unfit => s.setJob (some j)
  | none => s.beginWrite j

/-- Bytes of the download window (R538). -/
def State.windowBytes (s : State) (x n : Nat) : List Byte := (List.range n).map fun j => sread (fun _ => 0) s.svc.window (x + j)

/-- The record of crumb `i` in the download window (R539). -/
def State.windowCrumb (s : State) (i : Nat) : List Byte :=
  let head := s.windowBytes (4160 * i) 64
  head ++ s.windowBytes (4160 * i + 64) (min 4096 (crumbSize head))

/-- RECOVERY_GO (R525, R526, R539): the records in the download window are taken into staging. `window` are the bytes that the host has
written from the window's start ahead of this write, beside those of BAR2 writes of their own (notes/assumptions/211.md). -/
def execRecoveryGo (fn be val : Nat) (window : List Byte) (s : State) : Host.Outcome State Fault Refusal :=
  ok (s.hostWrite fn R.FWS_REC_CTRL be true fun s =>
    if !s.svc.recovery || !bitAt val 0 || s.flash.job.isSome then s
    else
      let s := s.fillWindow 0 (window.take (2 ^ 26))
      let r := (List.range (s.rd R.FWS_REC_COUNT_crumbs)).foldl (fun (a : Nat × State) i =>
        let t := a.2.takeCrumb (s.windowCrumb i)
        (if a.1 = stDone then t.1 else a.1, t.2)) (stDone, s)
      r.2.wr R.FWS_REC_CTRL_last_status r.1)

/-- RECOVERY_VERIFY (R539). -/
def execRecoveryVerify (fn be val : Nat) (checks : FwChecks) (s : State) : Host.Outcome State Fault Refusal :=
  ok (s.hostWrite fn R.FWS_REC_CTRL be true fun s =>
    if !s.svc.recovery || !bitAt val 1 || s.flash.job.isSome then s else s.recoverVerify .window checks)

/-- RECOVERY_VERIFY_DONE (R538 to R540): the write ends DONE, which makes the bank the boot bank and clears the expiry count, or the
check's fixed time ends INVALID; last_status tells, and the sender of a VERIFY frame is answered. -/
def execRecoveryVerifyDone (s : State) : Host.Outcome State Fault Refusal :=
  ok (match s.flash.job with
    | none => s
    | some j =>
      let fromCmd := match j.ask with | .cmd _ => true | _ => false
      if fromCmd || (j.stage == 1 && s.time.elapsed < j.due) then s
      else
        let st := if j.stage = 2 then stDone else stInvalid
        let s := s.onlyIf (j.stage == 2) fun s =>
          let s := { s with flash := { s.flash with banks := mput s.flash.banks j.bank s.staged, boot := j.bank } }
          (s.setBank j.bank bkStaged).wr R.FWS_BOOT_STATUS_expiries 0
        let s := (s.setJob none).wr R.FWS_REC_CTRL_last_status st
        match j.ask with
        | .mgmt src => s.emit (.mgmt src [0x83, BitVec.ofNat 8 st])
        | _ => s)

/-- Whether a frame on the management port is a recovery frame with an opcode (R540): EtherType 0x88B5, the device's address, at most 4,288
bytes. -/
def State.mgmtFrame (s : State) (bytes : List Byte) (opcode : Nat) : Bool :=
  s.svc.recovery && bytes.length ≤ 4288 && 15 ≤ bytes.length && beAt bytes 0 6 == Config.macAddress % 2 ^ 48 && beAt bytes 12 2 == 0x88B5 &&
  byteAt bytes 14 == opcode

/-- MGMT_CRUMB_FRAME (R526, R540): one crumb, after three zero bytes. -/
def execMgmtCrumbFrame (bytes : List Byte) (s : State) : Host.Outcome State Fault Refusal :=
  ok (if s.mgmtFrame bytes 1 && s.flash.job.isNone then (s.takeCrumb (bytes.drop 18)).2 else s)

/-- MGMT_QUERY_FRAME (R540): the reply holds the crumbs present and the bitmap. -/
def execMgmtQueryFrame (bytes : List Byte) (s : State) : Host.Outcome State Fault Refusal :=
  ok (if s.mgmtFrame bytes 2 then
      s.emit (.mgmt (beAt bytes 6 6) ([0x82, 0, 0, 0] ++ beBytes 4 s.flash.crumbs.length ++ s.crumbMap))
    else s)

/-- MGMT_VERIFY_FRAME (R539, R540): the staged image is checked and written; the reply follows at the end. -/
def execMgmtVerifyFrame (bytes : List Byte) (checks : FwChecks) (s : State) : Host.Outcome State Fault Refusal :=
  ok (if s.mgmtFrame bytes 3 && s.flash.job.isNone then s.recoverVerify (.mgmt (beAt bytes 6 6)) checks else s)

/-! ### The boot configuration record (R542) -/

/-- Whether a record's magic, CRC, reserved bytes and field ranges are good. -/
def bootCfgOk (r : List Byte) : Bool :=
  let turn := leAt r 28 4
  r.length == 4096 && slice r 0 4 == [0x53, 0x42, 0x43, 0x46] && leAt r 4 2 == 1 && zeroAt r 6 2 &&
  crc32c (r.drop 12) == leAt r 8 4 && zeroAt r 36 28 && zeroAt r 2273 1823 && leAt r 24 4 % 4 != 3 && 10 ≤ turn && turn ≤ 20 &&
  !outOfRange R.FAB_CFG (BitVec.ofNat 32 (leAt r 32 4)) &&
  ((List.range 128).all fun p => [(R.LIF_PORT_CFG p, 0), (R.LIF_PORT_MTU p, 4), (R.LIF_LANE_CFG p, 8)].all fun e =>
    !outOfRange e.1 (BitVec.ofNat 32 (leAt r (64 + 16 * p + e.2) 4))) &&
  ((List.range 160).all fun l => byteAt r (2112 + l) / 4 % 32 == 0)

/-- BOOT_CONFIG_STORE (R448, R542): a write of store fetches the record at FWS_BCFG_ADDR. -/
def execBootConfigStore (fn be val : Nat) (record : List Byte) (s : State) : Host.Outcome State Fault Refusal :=
  ok (s.hostWrite fn R.FWS_BCFG_CTRL be true fun s =>
    let s := s.mergeReg R.FWS_BCFG_CTRL val be
    let s := s.wr R.FWS_BCFG_CTRL_store 0
    let addr := s.rd64 R.FWS_BCFG_ADDR_LO_addr_lo R.FWS_BCFG_ADDR_HI_addr_hi
    if !bitAt val 0 || s.on R.FWS_BCFG_CTRL_busy then s
    else if addr % 64 ≠ 0 then s.wr R.FWS_BCFG_CTRL_error 1
    else if !s.inWindow fn addr 4096 then
      (s.secLog secWindow fn addr 0 none).lateErr fn 0 R.FWS_BCFG_CTRL leRefused false
    else { s.wr R.FWS_BCFG_CTRL_busy 1 with svc := { s.svc with bcfgJob := some record } })

/-- BOOT_CONFIG_STORE_DONE (R516, R542): the record is in the journal, or refused with nothing stored. -/
def execBootConfigStoreDone (s : State) : Host.Outcome State Fault Refusal :=
  ok (match s.svc.bcfgJob with
    | none => s
    | some r =>
      let s := { s.wr R.FWS_BCFG_CTRL_busy 0 with svc := { s.svc with bcfgJob := none } }
      if bootCfgOk r then { s.wr R.FWS_BCFG_CTRL_done 1 with svc := { s.svc with bootCfg := some r } }
      else s.wr R.FWS_BCFG_CTRL_error 1)

end Sys2Proof.Machine
end

