-- ==== Sys2Proof/Machine/Restart.lean ====
section
/-!
DEFINITION. Machine/Restart.lean: power-on and warm resets (R496, R497, R502): what survives them, what causes them (R524, R539, R540,
R551, R552, R558), and the straps (R553).
-/

namespace Sys2Proof.Machine

/-! ### What survives -/

/-- The registers rebuilt from what `keep` leaves of each; a register that it gives no word takes its reset value. -/
def regsKept (regs : Sparse Word) (keep : Nat → Word → Option Word) : Sparse Word :=
  regs.foldl (fun m e => match keep e.1 e.2 with | some w => swrite regReset m e.1 w | none => m) []

/-- The registers that mirror the fuses, and those that show the Recipe store and what the journal holds (R77, R90, R92, R496, R516,
R543, R565). -/
def storedReg (a : Nat) : Bool :=
  (R.FWS_RCP_MIN_SERIAL_LO ≤ a && a ≤ R.FWS_RCP_BOOT) || a == R.FWS_KEY_STATUS || a == R.FWS_FW_SECVER ||
  (R.FWS_CKEY_HASH 0 0 ≤ a && a < R.FWS_VKEY_HASH 12) || (R.FWS_CAL_FAC 0 ≤ a && a < R.FWS_CAL_FAC 1166)

/-- The registers that a warm reset leaves as they are beside the RWS fields: the security log (R541), the straps and the power status
(R552, R553), the calibration words (R563), the bridge's retired groups and spares (R22), the epoch of the TD. -/
def warmKept (a : Nat) : Bool :=
  storedReg a || (R.FWS_SLOG_CTRL ≤ a && a < R.FWS_SLOG_w0 256) || a == R.GLB_STRAPS || a == R.GLB_PWR_STATUS ||
  (R.FWS_CAL_EFF 0 ≤ a && a < R.FWS_CAL_EFF 1166) || (R.TGL_BRG_GRP 0 ≤ a && a < R.TGL_BRG_GRP 24) || a == R.GLB_EPOCH

/-- A register at a warm reset: its RWS fields keep their values (R11, R496). -/
def warmWord (a : Nat) (w : Word) : Option Word :=
  if warmKept a then some w
  else match regAt a with
    | some r =>
      let m := BitVec.ofNat 32 (accessMask r.fields fun x => x == .rws)
      if m = 0 then none else some ((regReset a &&& ~~~ m) ||| (w &&& m))
    | none => none

/-- The flash after a reset that cuts short what was under way: a bank being written is INVALID (R526, R530). -/
def FlashSt.cut (f : FlashSt) : FlashSt :=
  { f with states := f.states.map fun e => (e.1, if e.2 = bkWriting then bkInvalid else e.2),
           job := none, hand := none, fuse := none, punts := [], rate := (0, 0) }

/-- The Recipe store after a reset: entries whose write was under way stay not valid (R77). -/
def RecipeSt.cut (r : RecipeSt) : RecipeSt := { State.reset.recipe with store := r.store }

/-- The effective calibration words at power-on are the factory words, and the analogue parts take them (R563, R564). -/
def State.factoryTrims (s : State) : State :=
  let facs := s.regs.filter fun e => R.FWS_CAL_FAC 0 ≤ e.1 && e.1 < R.FWS_CAL_FAC 1166
  let s := s.each facs fun e s => s.wrWord (e.1 - R.FWS_CAL_FAC 0 + R.FWS_CAL_EFF 0) e.2
  s.takeTrims (facs.map fun e => (e.1 - R.FWS_CAL_FAC 0) / 4)

/-- The registers that show the flash brought in line with it. -/
def State.showFlash (s : State) : State :=
  (s.each (List.range 3) fun k s => s.wr (R.FWS_RCP_STORE_w0_writing k) 0).fwSync.stgSync

/-- A power-on reset (R496): everything returns to its reset value but the fuses, the flash, the pins' levels, and elapsed time. -/
def State.powerOn (s : State) : State :=
  let z := State.reset
  let t : State := { z with
    pending := s.pending, out := s.out, freeCtr := s.freeCtr,
    regs := regsKept s.regs fun a w => if storedReg a then some w else none,
    time := { z.time with elapsed := s.time.elapsed },
    svc := { z.svc with testMode := s.svc.testMode, perst := s.svc.perst, answerFrom := s.svc.answerFrom, bootCfg := s.svc.bootCfg },
    flash := s.flash.cut, recipe := s.recipe.cut, mem := { z.mem with journal := s.mem.journal } }
  ((t.wr R.FWS_FW_SECVER_sec_version 0).showFlash).factoryTrims

/-! ### Warm reset -/

/-- The causes of GLB_RESET_CAUSE.last_warm (R513). -/
def wcPf0 : Nat := 1
def wcI2c : Nat := 2
def wcWatchdog : Nat := 3
def wcPerst : Nat := 4

/-- Host reads outstanding at a warm reset complete with a Completer Abort (R497): refused reads and held fences. -/
def State.abortReads (s : State) : State :=
  let s := s.each (s.host.refusing.filter fun r => r.cmd.isNone) fun r s => s.emit (.abort r.fn)
  s.each s.host.fences fun f s => s.emit (.abort f.1)

/-- The items whose calibration words are taken into use at a warm reset (R564): the host lanes and the SGMII lane. -/
def warmTrims : List Nat := (List.range 9).map (· + 352)

/-- An epoch of a map of epochs advanced (R507). -/
def bumpEpoch (m : Sparse Nat) (k : Nat) : Sparse Nat :=
  swrite (fun _ => 0) m k ((sread (fun _ => 0) m k + 1) % 65536)

/-- A warm reset of both dies (R496, R497, R502, R508): RWS fields, the link to the host and what the flash and the fuses hold survive;
the device is at stage 2 again. It has no effect in stage 1, or while the device stands still. -/
def State.warmReset (s : State) (cause : Nat) : State :=
  if s.stopped ∨ s.rd R.GLB_SERVICE_stage = 1 then s
  else
    let s := s.abortReads
    let z := State.reset
    let mgmt := bumpEpoch (bumpEpoch s.svc.mgmtEpoch 0) 1
    let t : State := { z with
      pending := s.pending, out := s.out, freeCtr := s.freeCtr,
      regs := regsKept s.regs warmWord,
      time := { z.time with elapsed := s.time.elapsed },
      svc := { z.svc with
        perst := s.svc.perst, answerFrom := s.svc.answerFrom, bootCfg := s.svc.bootCfg, trims := s.svc.trims,
        blkEpoch := s.svc.blkEpoch, rsvEpoch := s.svc.rsvEpoch, remoteEpoch := s.svc.remoteEpoch, mgmtEpoch := mgmt },
      flash := s.flash.cut, recipe := s.recipe.cut, mem := { z.mem with journal := s.mem.journal } }
    let t := (t.wr R.GLB_SERVICE_stage 2).wr R.GLB_EPOCH_td_epoch (t.rd R.GLB_EPOCH_td_epoch + 1)
    let t := (t.wr R.GLB_RESET_CAUSE_last_warm cause).bump R.GLB_RESET_CAUSE_warm_count
    let t := (t.wr R.FWS_FW_SECVER_sec_version 0).showFlash
    t.showGroups.takeTrims warmTrims

/-- The key of a reset request (R513, R558). -/
def resetKey : Nat := 0x7D5E

/-- WARM_RESET_REQUEST (R496, R513): PF0 writes warm to GLB_RESET_CTRL with the key; a write with any other key is ignored and logged. -/
def execWarmResetRequest (fn be val : Nat) (s : State) : Host.Outcome State Fault Refusal :=
  ok (if !bitAt val 0 then s
    else s.hostWrite fn R.GLB_RESET_CTRL be true fun s =>
      if val / 65536 % 65536 = resetKey then s.warmReset wcPf0 else s.lateErr fn 0 R.GLB_RESET_CTRL leBadValue false)

/-- I2C_WARM_RESET_REQUEST (R496, R558): the I2C target answers in every stage; the wrong key is ignored. -/
def execI2cWarmResetRequest (val : Nat) (s : State) : Host.Outcome State Fault Refusal :=
  ok (if bitAt val 0 && val / 65536 % 65536 == resetKey then s.warmReset wcI2c else s)

/-- BOOT_WATCHDOG_EXPIRE (R524): 5 s after the ROM handed over, with the watchdog still running, a warm reset; the consecutive expiries
count one more. -/
def execBootWatchdogExpire (s : State) : Host.Outcome State Fault Refusal :=
  ok (if !s.svc.wdRunning || s.time.elapsed < s.svc.wdStart + 5000000000 || s.stopped then s
    else (s.bump R.FWS_BOOT_STATUS_expiries).warmReset wcWatchdog)

/-- RECOVERY_REBOOT (R539): reboot written to FWS_REC_CTRL by PF0 in recovery mode makes a warm reset. -/
def execRecoveryReboot (fn be val : Nat) (s : State) : Host.Outcome State Fault Refusal :=
  ok (s.hostWrite fn R.FWS_REC_CTRL be true fun s => if s.svc.recovery && bitAt val 2 then s.warmReset wcPf0 else s)

/-- MGMT_REBOOT_FRAME (R540): a REBOOT frame in recovery mode makes a warm reset. GLB_RESET_CAUSE has no code for this cause: its value is
free (notes/assumptions/3.md). -/
def execMgmtRebootFrame (bytes : List Byte) (s : State) : Host.Outcome State Fault Refusal :=
  ok (if s.mgmtFrame bytes 4 then let r := s.free; r.2.warmReset (r.1 % 16) else s)

/-! ### Power and straps -/

/-- Whether the device waits in stage 1 for its PLLs. -/
def State.inStage1 (s : State) : Bool := s.rd R.GLB_SERVICE_stage == 1 && !s.svc.pllLocked

/-- POR_RELEASE (R551, R553): POR_N rises while power good holds: the straps are sampled, `addr` the two I2C address straps, and stage 1 begins; with
TEST_MODE high the device does not boot. -/
def execPorRelease (recoveryN testMode : Bool) (addr : BitVec 2) (s : State) : Host.Outcome State Fault Refusal :=
  ok (if s.svc.porLow || (s.inStage1 && !s.stopped) then
      let s := { s with svc := { s.svc with porLow := false, testMode := testMode } }
      let s := (s.wr R.GLB_PWR_STATUS_rail_ok 0x3FF).wrBit R.GLB_STRAPS_recovery_n recoveryN
      s.wr R.GLB_STRAPS_i2c_addr addr.toNat
    else s)

/-- BROWNOUT (R552): a rail other than VDD_AON (rail 0) has sagged while POR_N is high: an internal power-on reset, held until the rail
recovers; brownout is set. The trip and brownout live in the VDD_AON domain (R552, R561). -/
def execBrownout (rail : Nat) (s : State) : Host.Outcome State Fault Refusal :=
  ok (if rail = 0 ∨ 10 ≤ rail ∨ s.svc.porLow then s
    else
      let straps := s.rdWord R.GLB_STRAPS
      let rails := s.rd R.GLB_PWR_STATUS_rail_ok
      let trip := s.on R.GLB_THERM_STATUS_trip
      let s := s.powerOn
      let s := ((s.wrWord R.GLB_STRAPS straps).wr R.GLB_PWR_STATUS_rail_ok rails).wr ⟨R.GLB_PWR_STATUS, rail, 1⟩ 0
      let s := (s.wr R.GLB_PWR_STATUS_brownout 1).wrBit R.GLB_THERM_STATUS_trip trip
      { s with svc := { s.svc with browned := true } })

/-- RAIL_RECOVERY (R552): the rails are back above 92 % of nominal, and the device begins again at stage 1. -/
def execRailRecovery (s : State) : Host.Outcome State Fault Refusal :=
  ok (if s.svc.browned then { s.wr R.GLB_PWR_STATUS_rail_ok 0x3FF with svc := { s.svc with browned := false } } else s)

/-- POWER_LOSS (R552): VDD_AON itself is lost; the device stands still until POR_N rises again. -/
def execPowerLoss (s : State) : Host.Outcome State Fault Refusal :=
  let t := s.powerOn
  ok { t.wr R.GLB_PWR_STATUS_rail_ok 0 with svc := { t.svc with porLow := true } }

/-- I2C_BROWNOUT_CLEAR (R558): a write of 1 in bit 16 of GLB_PWR_STATUS over I2C clears brownout. -/
def execI2cBrownoutClear (val : Nat) (s : State) : Host.Outcome State Fault Refusal :=
  ok (if bitAt val 16 && !s.svc.porLow then s.wr R.GLB_PWR_STATUS_brownout 0 else s)

end Sys2Proof.Machine
end

