-- ==== Sys2Proof/Machine/Counters.lean ====
section
/-!
DEFINITION. Machine/Counters.lean: the commands of the counter engine, turn snapshots, and the PMU with its freeze and samples (R469 to
R471, R475 to R479, R481 to R488).
-/

namespace Sys2Proof.Machine

/-! ### Counters -/

/-- The 32 counters whose homes share a stripe (R468). -/
def stripeHomes (home : Nat) : List Nat := (List.range 32).map (· + home / 32 * 32)

/-- The home of the counter that CNT_SEL selects. -/
def State.selectedHome (s : State) : Nat := homeOf (s.rd R.CNT_SEL_set) (s.rd R.CNT_SEL_index) (s.rd R.CNT_SEL_slot)

/-- COUNTER_SELECT (R315, R469, R471, R487): a write of CNT_SEL captures the selected counter. `poison` says that its home stripe reads
uncorrectable. -/
def execCounterSelect (fn be val : Nat) (poison : Bool) (s : State) : Host.Outcome State Fault Refusal :=
  let set := bitsAt val 20 3
  ok (s.hostWrite fn R.CNT_SEL be true fun s =>
    if 5 ≤ set ∨ (setShape set).1 ≤ bitsAt val 0 20 ∨ (setShape set).2 ≤ bitsAt val 23 6 then
      s.lateErr fn 0 R.CNT_SEL leBadValue false
    else
      let s := s.mergeReg R.CNT_SEL val be
      let home := s.selectedHome
      let s := s.onlyIf (poison && !(s.ctr home).poison) fun s =>
        (s.each (stripeHomes home) fun h s => s.setCtr h { s.ctr h with poison := true }).bump (R.MIF_POISON_SRC_count 0)
      let c := s.ctr home
      let s := s.onlyIf c.poison fun s => s.bump R.MIF_POISON_CONSUMED_count
      let s := (s.wr R.CNT_STAT_valid 1).wrBit R.CNT_STAT_wrap_p c.wrapP
      let s := (s.wrBit R.CNT_STAT_wrap_b c.wrapB).wrBit R.CNT_STAT_poison c.poison
      (s.wr64 R.CNT_PKTS_LO_pkts_lo R.CNT_PKTS_HI_pkts_hi c.pkts).wr64 R.CNT_BYTES_LO_bytes_lo R.CNT_BYTES_HI_bytes_hi c.bytes)

/-- A write of CNT_OP: an operation on some counters as one in the engine's update order (R470). -/
def State.counterOp (s : State) (fn be : Nat) (clearWrap : Bool) (homes : Nat → List Nat) (op : Ctr → Ctr) : State :=
  s.hostWrite fn R.CNT_OP be true fun s =>
    s.each (homes s.selectedHome) fun h s =>
      let c := op (s.ctr h)
      s.setCtr h (if clearWrap then { c with wrapP := false, wrapB := false } else c)

/-- COUNTER_WRITE (R470): op WRITE. -/
def execCounterWrite (fn be : Nat) (clearWrap : Bool) (s : State) : Host.Outcome State Fault Refusal :=
  let p := s.rd64 R.CNT_WPKTS_LO_pkts_lo R.CNT_WPKTS_HI_pkts_hi
  let b := s.rd64 R.CNT_WBYTES_LO_bytes_lo R.CNT_WBYTES_HI_bytes_hi
  ok (s.counterOp fn be clearWrap (fun h => [h]) fun c => { c with pkts := p, bytes := b })

/-- COUNTER_CLEAR (R470): op CLEAR. -/
def execCounterClear (fn be : Nat) (clearWrap : Bool) (s : State) : Host.Outcome State Fault Refusal :=
  ok (s.counterOp fn be clearWrap (fun h => [h]) fun c => { c with pkts := 0, bytes := 0 })

/-- COUNTER_CLEAR_STRIPE (R470, R471): op CLEAR_STRIPE sets the 32 counters of the stripe to 0 and clears their poison. -/
def execCounterClearStripe (fn be : Nat) (clearWrap : Bool) (s : State) : Host.Outcome State Fault Refusal :=
  ok (s.counterOp fn be clearWrap stripeHomes fun c => { c with pkts := 0, bytes := 0, poison := false })

/-! ### Snapshots -/

/-- The arrays a snapshot captures: the COUNTER arrays of a slot that a mask names, in rising number, with their instances. -/
def State.snapArrays (s : State) (slot mask : Nat) : List (Nat × ArrInst) :=
  (List.range 64).filterMap fun a => if bitAt mask a then s.findArr slot a else none

/-- Bytes of an array entry in a snapshot: its width padded to 16 bytes (R479). -/
def ArrInst.snapBytes (a : ArrInst) : Nat := ceilDiv a.width 128 * 16

/-- The PMU section of a snapshot: the programmable counters of both dies (R479). -/
def State.pmuSection (s : State) : List Byte :=
  leBytes 4 0x200 ++ leBytes 4 32 ++ leBytes 4 8 ++ leBytes 4 0 ++
  ([0, 1].flatMap fun d => (List.range 16).flatMap fun i => leBytes 8 (s.rd64 (R.PMx_CNT_LO_value_lo d i) (R.PMx_CNT_HI_value_hi d i)))

/-- An array as a snapshot keeps it (R479). -/
def snapArr (e : Nat × ArrInst) : SnapArr := ⟨e.1, e.2.decl.num, e.2.decl.size, e.2.snapBytes⟩

/-- The length of a snapshot (R479). -/
def State.snapLen (s : State) (mask : Nat) (pmu : Bool) (arrs : List SnapArr) : Nat :=
  let sets := (List.range 5).filter fun k => bitAt mask k
  64 + (sets.map fun k => 16 + (setShape k).1 * (32 + 16 * (setShape k).2)).foldl (· + ·) 0 +
    (arrs.map fun a => 16 + a.size * a.bytes).foldl (· + ·) 0 + (if pmu then s.pmuSection.length else 0)

/-- The length padded to 64 bytes. -/
def padded (n : Nat) : Nat := ceilDiv n 64 * 64

/-- CNT_SNAP_STATUS brought in line with the buffers. -/
def State.snapSync (s : State) : State :=
  (s.wr R.CNT_SNAP_STATUS_busy s.cnt.snaps.length).wrBit R.CNT_SNAP_STATUS_open (s.cnt.snaps.any fun e => e.2.stage == 1)

/-- The slot that is ACTIVE. -/
def State.activeSlot (s : State) : Nat := if s.slotState 1 = 3 then 1 else 0

/-- SNAP_AT (R48, R49, R429, R448, R476, R477): the checks in order; an accepted command reserves a buffer and its slots. -/
def execSnapAt (c : Cmd) (mask turn dest arrMask len : Nat) (s : State) : Host.Outcome State Fault Refusal :=
  ok (s.command c 0x20 (rightOf 0x20) [(dest, len)] fun s =>
    let pmu := bitAt mask 5
    let arrays := bitAt mask 6
    let arrs := if arrays then s.snapArrays s.activeSlot arrMask else []
    let named := if arrays then ((List.range 64).filter fun a => bitAt arrMask a).length else 0
    let bad := (mask % 32 == 0 && !pmu && !arrays) || bitAt mask 7 || dest % 64 != 0 || arrs.length != named ||
      arrs.any (fun a => a.2.decl.kind != .counter) || len < padded (s.snapLen mask pmu (arrs.map snapArr))
    let ans := s.schedCheck (.snapshot 0) c.system turn
    let buf := if (mget s.cnt.snaps 0).isNone then 0 else 1
    let owner := cmdFn c
    let near := s.cnt.snaps.any fun e => e.2.stage ≤ 1 &&
      (max turn e.2.turn - min turn e.2.turn) * 2 ^ s.rd R.TBS_TURN_LEN_LOG2_t < 16000
    if bad then s.complete c stInvalid
    else if ans ≠ stDone then s.complete c ans
    else
      let t := s.schedTake (.snapshot buf) turn c.system owner (some c)
      let ans2 := if pmu then t.schedCheck (.pmu false (some buf)) c.system turn else stDone
      if ans2 ≠ stDone then s.complete c ans2
      else if near then s.complete c stBusyRetry
      else if 2 ≤ s.cnt.snaps.length then s.complete c stNoResource
      else
        let t := if pmu then t.schedTake (.pmu false (some buf)) turn c.system owner none else t
        let x : Snap := ⟨c, turn, mask % 32, pmu, arrays, arrMask, dest, len, 0, 0, 0, [], [], false, arrs.map snapArr, []⟩
        ({ t with cnt := { t.cnt with snaps := mput t.cnt.snaps buf x } }.snapSync).accepted c turn)

/-- The committed value of an array entry with the committed intents before an instant (R209, R478). -/
def State.arrAt (s : State) (i : Nat) (a : ArrInst) (index ns : Nat) : Nat :=
  s.fold a (a.val index) ((s.chainOf i index).filter fun x => x.committed && x.key.stamp < ns)

/-- A snapshot opens at its boundary (R478): the counters as they stand, and the entries of the arrays that its command named when it was
accepted (notes/assumptions/207.md); an array freed since then reads as zeros. -/
def State.openSnap (s : State) (buf : Nat) : State :=
  match mget s.cnt.snaps buf with
  | none => s
  | some x =>
    let ns := x.turn * 2 ^ s.rd R.TBS_TURN_LEN_LOG2_t
    let vals : Sparse (Sparse Nat) := x.shapes.filterMap fun e => (s.arr e.inst).map fun a =>
      let touched := (a.vals.map (·.1) ++ (s.txf.chain.filter fun i => i.arr == e.inst).map (·.index)).eraseDups
      (e.inst, touched.foldl (fun m k => swrite (fun _ => 0) m k (s.arrAt e.inst a k ns)) [])
    let x := { x with stage := 1, opened := s.time.elapsed, vals := s.cnt.vals, arrs := vals }
    { s with cnt := { s.cnt with snaps := mput s.cnt.snaps buf x } }.snapSync

/-- Whether every watermark has passed a boundary and no verdict is outstanding for a packet tagged before it (R475); a replay injector in
use holds the watermark at its next record (R208), which may lie before the boundary. -/
def State.windowClosed (s : State) (turn : Nat) : Bool :=
  !(s.on R.TXF_RPL_CTRL_en && s.on R.TXF_RPL_STATUS_busy) && s.fd.pkts.all fun p => p.egress || turn ≤ p.tag || !(p.place.early || p.place.staged || p.place == .verdict)

/-- The home of a snapshot's counters lies in one of its sets. -/
def setOfHome (home : Nat) : Nat :=
  if home < homeOf 1 0 0 then 0 else if home < homeOf 2 0 0 then 1 else if home < homeOf 3 0 0 then 2 else if home < homeOf 4 0 0 then 3 else 4

/-- SNAPSHOT_FINAL (R315, R475, R478, R479): the collection window ends: 8 us after the boundary, or once every earlier packet is
accounted for; with pmu set, not before the freeze is final. -/
def execSnapshotFinal (buf : Nat) (s : State) : Host.Outcome State Fault Refusal :=
  ok (match mget s.cnt.snaps buf with
    | none => s
    | some x =>
      let frozen := s.on (R.PMx_CTRL_pmu_final 0) && s.on (R.PMx_CTRL_pmu_final 1)
      if x.stage != 1 || !(x.opened + 8000 ≤ s.time.elapsed || s.windowClosed x.turn) || (x.pmu && !frozen) then s
      else
        let ns := s.time.elapsed - x.opened
        let y := { x with stage := 2, window := if x.pmu then ns else min ns 8000,
                          pmuVals := if x.pmu then s.pmuSection else [] }
        let bad := x.vals.filter fun e => e.2.poison && bitAt x.mask (setOfHome e.1)
        let s := { s with cnt := { s.cnt with snaps := mput s.cnt.snaps buf y } }
        let s := s.count R.MIF_POISON_CONSUMED_count bad.length
        (s.wr64 R.CNT_LAST_SNAP_LO_turn_lo R.CNT_LAST_SNAP_HI_turn_hi x.turn).snapSync)

/-- An entry of a counter set in a snapshot (R479). -/
def Snap.entry (x : Snap) (set e : Nat) : List Byte :=
  let n := (setShape set).2
  let at_ (j : Nat) : Ctr := sread (fun _ => Ctr.zero) x.vals (homeOf set e j)
  leBytes 4 e ++ [BitVec.ofNat 8 set, BitVec.ofNat 8 n, 0, 0] ++ leBytes 8 (bitsWhere n fun j => (at_ j).wrapP) ++
    leBytes 8 (bitsWhere n fun j => (at_ j).wrapB) ++ leBytes 8 (bitsWhere n fun j => (at_ j).poison) ++
    (List.range n).flatMap fun j => leBytes 8 (at_ j).pkts ++ leBytes 8 (at_ j).bytes

/-- A snapshot as it is written to host memory (R479). -/
def State.snapImage (s : State) (x : Snap) : List Byte :=
  let sets := (List.range 5).filter fun k => bitAt x.mask k
  let head (kind n size : Nat) : List Byte := leBytes 4 kind ++ leBytes 4 n ++ leBytes 4 size ++ leBytes 4 0
  let body := (sets.flatMap fun k =>
      head k (setShape k).1 (32 + 16 * (setShape k).2) ++ (List.range (setShape k).1).flatMap fun e => x.entry k e) ++
    (x.shapes.flatMap fun a =>
      head (0x100 + a.num) a.size a.bytes ++
        (List.range a.size).flatMap fun i => leBytes a.bytes (sread (fun _ => 0) ((mget x.arrs a.inst).getD []) i)) ++ x.pmuVals
  let flags := bit01 x.pmu + 2 * bit01 x.arrays + 4 * bit01 (x.vals.any fun e => e.2.poison && bitAt x.mask (setOfHome e.1)) + 8 * bit01 x.late
  let total := 64 + body.length
  [0x53, 0x4E, 0x41, 0x50] ++ leBytes 2 1 ++ [BitVec.ofNat 8 x.mask, BitVec.ofNat 8 flags] ++ leBytes 8 x.turn ++
    leBytes 2 (s.rd R.FAB_CFG_device) ++ leBytes 2 (sets.length + x.shapes.length + bit01 x.pmu) ++ leBytes 4 total ++
    leBytes 4 x.window ++ List.replicate 36 0 ++ body ++ List.replicate (padded total - total) 0

/-- SNAPSHOT_WRITE_DONE (R477 to R479): the snapshot stands in host memory, its buffer is free, SNAP_AT completes DONE with the padded
size in units of 64 bytes, and vector 4 is raised. -/
def execSnapshotWriteDone (buf : Nat) (s : State) : Host.Outcome State Fault Refusal :=
  ok (match mget s.cnt.snaps buf with
    | none => s
    | some x =>
      if x.stage ≠ 2 then s
      else
        let img := s.snapImage x
        let s := s.putResult x.cmd x.dest img
        let s := { s with cnt := { s.cnt with snaps := mdel s.cnt.snaps buf } }.snapSync
        (s.completeWith x.cmd stDone (img.length / 64) none).raiseVec (cmdFn x.cmd) 4)

/-! ### The PMU -/

/-- The event codes of R484 on a die; 0 counts nothing. -/
def pmuCode (d c : Nat) : Bool :=
  c == 0 || c == 1 ||
  (if d = 0 then [0x10, 0x11, 0x18, 0x19, 0x1A, 0x20, 0x21, 0x22, 0x28, 0x29, 0x2A, 0x2B, 0x40, 0x41, 0x42, 0x48, 0x49, 0x4A, 0x50,
      0x51, 0x52, 0x53, 0x54, 0x58].contains c
   else [0x100, 0x101, 0x102, 0x108, 0x110, 0x111, 0x112, 0x118, 0x119, 0x11A, 0x120, 0x121, 0x122, 0x128].contains c)

/-- Whether the filters of a counter name a pipeline, engine, stack or stage, or all: unit 0 to 7 or 15, and on the FD stage 0 to 35 or 63
(R442, R488). -/
def pmuFilter (d unit stage : Nat) : Bool := (unit < 8 || unit == 15) && (d != 0 || stage < 36 || stage == 63)

/-- PMU_EVSEL_WRITE (R442, R483, R488): a code the die does not define, or a filter outside its range, leaves the register. -/
def execPmuEvselWrite (fn be d i val : Nat) (s : State) : Host.Outcome State Fault Refusal :=
  let a := R.PMx_EVSEL d i
  ok (if 2 ≤ d || 16 ≤ i then s
    else s.hostWrite fn a be false fun s =>
      let t := s.mergeReg a val be
      if pmuCode d (t.rd (R.PMx_EVSEL_event d i)) && pmuFilter d (t.rd (R.PMx_EVSEL_unit d i)) (t.rd (R.PMx_EVSEL_stage d i)) then t
      else s.lateErr fn 0 a leBadValue false)

/-- PMU_COUNTER_WRITE (R435, R482): the write of a counter pair's high word sets the value and ovf; ovf_event stays. -/
def execPmuCounterWrite (fn be d i val : Nat) (low : Option Nat) (s : State) : Host.Outcome State Fault Refusal :=
  let hi := R.PMx_CNT_HI_value_hi d i
  ok (if 2 ≤ d || 16 ≤ i then s
    else s.hostWrite fn hi.addr be false fun s =>
      let ev := bitsAt (s.rd hi) 16 10
      let s := s.applyPair fn (R.PMx_CNT_LO d i) low val be
      s.wr hi (s.rd hi % 2 ^ 16 + 2 ^ 16 * ev + 2 ^ 31 * bitsAt (s.rd hi) 31 1))

/-- SAMPLE_RECORD_DELIVER (R486, R488, R568): the oldest sample record goes into the ring, and its vector is raised; a ring found full loses
it. -/
def execSampleRecordDeliver (s : State) : Host.Outcome State Fault Refusal :=
  ok (match s.cnt.recs with
    | [] => s
    | r :: rest =>
      let n := s.rd R.PMF_SMP_CFG_size_log2
      let h := s.rd R.PMF_SMP_HEAD_head
      if !s.on R.PMF_SMP_CFG_en then s
      else
        let s := { s with cnt := { s.cnt with recs := rest } }
        if ringFull n h (s.rd R.PMF_SMP_TAIL_tail) then s.bump R.PMF_SMP_LOST_count
        else
          let fn := s.ringOwner R.PMF_SMP_CFG_en
          let s := s.emit (.dma fn (s.pairAt R.PMF_SMP_BASE_LO + 128 * (h % 2 ^ n)) r)
          (s.wr R.PMF_SMP_HEAD_head ((h + 1) % 2 ^ n)).raiseVec fn (s.rd R.PMF_SMP_CFG_vector))

/-- An arm of PMF_FRZ_CTRL (R48, R485): a freeze or a resume takes a slot on each die. -/
def State.pmuArm (s : State) (fn be val : Nat) (resume : Bool) : State :=
  s.hostWrite fn (R.PMx_FRZ_CTRL 0) be true fun s =>
    let s := (s.mergeReg (R.PMx_FRZ_CTRL 0) val be).wrBit (R.PMx_FRZ_CTRL_kind 0) resume
    let sys := s.on (R.PMx_FRZ_CTRL_scope 0)
    let turn := s.rd64 (R.PMx_FRZ_TURN_LO_turn_lo 0) (R.PMx_FRZ_TURN_HI_turn_hi 0)
    let ans := s.schedCheck (.pmu resume none) sys turn
    if ans ≠ stDone then s.wr (R.PMx_FRZ_CTRL_last_status 0) ans
    else (s.wr (R.PMx_FRZ_CTRL_last_status 0) stAccepted).schedTake (.pmu resume none) turn sys fn none

/-- PMU_FREEZE_ARM (R485): arm with kind 0. -/
def execPmuFreezeArm (fn be val : Nat) (s : State) : Host.Outcome State Fault Refusal := ok (s.pmuArm fn be val false)

/-- PMU_RESUME_ARM (R485): arm with kind 1. -/
def execPmuResumeArm (fn be val : Nat) (s : State) : Host.Outcome State Fault Refusal := ok (s.pmuArm fn be val true)

/-- The oldest pending freeze or resume that was armed in PMF_FRZ_CTRL, not by a snapshot. -/
def State.armedPmu (s : State) : Option SlotEv :=
  s.sched.find? fun x => match x.ev with | .pmu _ none => true | _ => false

/-- PMU_FREEZE_CANCEL (R52, R485): cancel withdraws a pending freeze or resume. -/
def execPmuFreezeCancel (fn be val : Nat) (s : State) : Host.Outcome State Fault Refusal :=
  ok (s.hostWrite fn (R.PMx_FRZ_CTRL 0) be true fun s =>
    let s := s.mergeReg (R.PMx_FRZ_CTRL 0) val be
    match s.armedPmu with
    | none => s.wr (R.PMx_FRZ_CTRL_last_status 0) stNotFound
    | some x =>
      if s.inTime x.turn then (s.schedFree x).wr (R.PMx_FRZ_CTRL_last_status 0) stDone
      else s.wr (R.PMx_FRZ_CTRL_last_status 0) stLate)

/-- A freeze or a resume at its boundary (R485). -/
def State.firePmu (s : State) (resume : Bool) : State :=
  s.each [0, 1] fun d s =>
    if resume then ((s.wr (R.PMx_CTRL_frozen d) 0).wr (R.PMx_CTRL_pmu_final d) 0).wr (R.PMx_CTRL_run d) 1
    else (s.wr (R.PMx_CTRL_frozen d) 1).wr (R.PMx_CTRL_pmu_final d) 0

/-- The slots of a pipeline's section that no packet used and that no cause was named for are STARVED_FRONT: the four categories then add
up to two slots a stage for each CCLK (R480, R481). -/
def State.restFront (s : State) (pl sec : Nat) : State :=
  let get (lo hi : Nat → Nat → Fld) := s.rd64 (lo pl sec) (hi pl sec)
  let all := 2 * (if sec = 0 then 24 else 12) * get R.PMF_FIX_cycles_LO_cycles_lo R.PMF_FIX_cycles_HI_cycles_hi
  let used := get R.PMF_FIX_retired_LO_retired_lo R.PMF_FIX_retired_HI_retired_hi +
    get R.PMF_FIX_wasted_LO_wasted_lo R.PMF_FIX_wasted_HI_wasted_hi +
    get R.PMF_FIX_starved_back_LO_starved_back_lo R.PMF_FIX_starved_back_HI_starved_back_hi
  s.wr64 (R.PMF_FIX_starved_front_LO_starved_front_lo pl sec) (R.PMF_FIX_starved_front_HI_starved_front_hi pl sec)
    ((all + 2 ^ 64 * (used / 2 ^ 64 + 1) - used) % 2 ^ 64)

/-- PMU_FREEZE_FINAL (R481, R485): every packet with slots executed before the boundary has resolved; pmu_final is set on both dies. -/
def execPmuFreezeFinal (s : State) : Host.Outcome State Fault Refusal :=
  ok (if !(s.on (R.PMx_CTRL_frozen 0) || s.on (R.PMx_CTRL_frozen 1)) || s.fd.pkts.any (fun p => !p.slots.isEmpty) then s
    else
      let s := s.onlyIf (s.on (R.PMx_CTRL_frozen 0) && !s.on (R.PMx_CTRL_pmu_final 0)) fun s =>
        s.each (List.range 16) fun i s => s.restFront (i / 2) (i % 2)
      s.each [0, 1] fun d s => s.onlyIf (s.on (R.PMx_CTRL_frozen d)) fun s => s.wr (R.PMx_CTRL_pmu_final d) 1)

/-- PMU_RUN_WRITE (R485, R488): a write of PMx_CTRL; run = 1 ends the die's freeze at once. -/
def execPmuRunWrite (fn be d val : Nat) (s : State) : Host.Outcome State Fault Refusal :=
  ok (if 2 ≤ d then s
    else s.hostWrite fn (R.PMx_CTRL d) be false fun s =>
      let s := s.mergeReg (R.PMx_CTRL d) val be
      if bitAt be 0 && bitAt val 0 then (s.wr (R.PMx_CTRL_frozen d) 0).wr (R.PMx_CTRL_pmu_final d) 0 else s)

end Sys2Proof.Machine
end

