-- ==== Sys2Proof/Machine/Withdraw.lean ====
section
/-!
DEFINITION. Machine/Withdraw.lean: withdrawing pending scheduled events of every kind (R53, R54), and the two conditions that range over
all blocks: that nothing hangs on the turn numbers (R42), and that a block's lifecycle fields all read DOWN (R63).
-/

namespace Sys2Proof.Machine

/-- The freeze a snapshot armed beside its own event (R476), by the snapshot's buffer. -/
def State.snapFreeze (s : State) (buf : Nat) : Option SlotEv := s.sched.find? fun x => x.ev == .pmu false (some buf)

/-- A scheduled snapshot withdrawn: its buffer is free, and with it the freeze it armed. -/
def State.withdrawSnap (s : State) (buf : Nat) (x : SlotEv) (status : Nat) : State :=
  let s := s.schedFree x
  let s := match s.snapFreeze buf with | some y => s.schedFree y | none => s
  ({ s with cnt := { s.cnt with snaps := mdel s.cnt.snaps buf } }.snapSync).completeOpt x.cmd status

/-- A pending event withdrawn, whatever it is: its slots are free, its command completes with a status or the register that armed it shows
one, and the object it acted on is left as it was before (R53). -/
def State.withdrawEvent (s : State) (x : SlotEv) (status : Nat) : State :=
  match x.ev with
  | .txnCommit h => s.withdrawCommit h x status
  | .recipe slot => ((s.schedFree x).unscheduleRecipe slot).completeOpt x.cmd status
  | .firmware _ _ _ => (s.schedFree x).fwSync.completeOpt x.cmd status
  | .snapshot buf => s.withdrawSnap buf x status
  | .pmu _ none => (s.schedFree x).wr (R.PMx_FRZ_CTRL_last_status 0) status
  | .pmu _ (some _) => s.schedFree x
  | .holdStart e => s.withdrawHold e x status
  | .holdStop e => s.withdrawRelease e x status
  | .dice u => s.withdrawDice u x status
  | .tsiSwap => s.withdrawTsi x status

/-- Every pending event that a test accepts withdrawn, the first accepted first. -/
def State.withdrawWhere (s : State) (p : SlotEv → Bool) (status : Nat) : State :=
  s.each (s.sched.filter p) fun x s => if s.sched.contains x then s.withdrawEvent x status else s

/-- Whether a table, a learned entry or a version slot still goes by the turn numbers in force (R42). -/
def State.renumberBlocked (s : State) : Bool :=
  s.slotState 0 == slRetiring || s.slotState 1 == slRetiring ||
  (s.tab.asm.any fun e => e.2.overlap.isSome || e.2.prepared.isSome) ||
  (s.tab.exm.any fun e => e.2.overlap.isSome || e.2.prepared.isSome || e.2.cells.any fun c => c.2.state == 4 || c.2.state == 5)

/-- Whether every lifecycle field of the block with a bit of GLB_CLKEN reads DOWN (R63, R506). A Dice unit that is scheduled or runs is not
DOWN. -/
def State.allDown (s : State) (bit : Nat) : Bool :=
  let down (n : Nat) (f : Nat → Nat) : Bool := (List.range n).all fun i => s.rd (lcFld (f i)) == lcDown
  let idle (n : Nat) (f : Nat → Nat) : Bool := (List.range n).all fun i =>
    s.rd (R.DICE_STATUS_state (f i)) == diIdle || s.rd (R.DICE_STATUS_state (f i)) == diDone
  match bit with
  | 4 => down 128 R.LIF_PORT_LC
  | 6 => down 8 R.PRS_SET_LC
  | 7 => down 8 R.PPL_LC
  | 13 => idle 128 dicePort
  | 18 => (List.range 6).all fun st => down 128 (R.HBC_RANK_LC st)
  | 19 => down 8 R.RSV_PORT_LC && down 64 R.RSV_HOLD_w0
  | 21 => (s.buf.queues.filter fun e => e.2.lc == lcDown).length == 1572864
  | 22 => down 160 R.FAB_LINK_LC
  | 26 => idle 160 diceLink && idle 24 diceGroup
  | _ => true

end Sys2Proof.Machine
end

