-- ==== Sys2Proof/Machine/Time.lean ====
section
/-!
DEFINITION. Machine/Time.lean: system time, turns, the turn state, the clock monitor, the frequency meter and the block
clock enables (chapter 2, R36 to R65). TURN_BOUNDARY stands in Machine/Boundary.lean.
-/

namespace Sys2Proof.Machine

/-! ### The time base -/

/-- Parts of a nanosecond the time base counts in: 2^-16 ns / 10^9. -/
def subNs : Nat := 65536 * 1000000000

/-- A second in nanoseconds (R40). -/
def sec : Nat := 1000000000

/-- What the correction kept in crystal holdover adds to a nanosecond of the crystal (R58), in parts of a nanosecond. -/
def State.holdRate (s : State) : Int := if s.rd R.TBS_CLKMON_STATUS_tb_src = 1 then s.clk.kept * 65536 else 0

/-- What one nanosecond of the reference (TIME_REF_IN, or the crystal or the oscillator in its place) adds to system time, in parts
of a nanosecond, with the frequency trim (TBS_FREQ_ADJ, 2^-16 ppb) and without a slew. -/
def State.trimRate (s : State) : Int := (subNs : Int) + signedOf 32 (s.rd R.TBS_FREQ_ADJ_adj) + s.holdRate

/-- The same while a slew is in progress (R38). -/
def State.slewRate (s : State) : Int := s.trimRate + s.time.slew * 65536

/-- System time after `n` nanoseconds of the reference: the trim and the slew in progress move it, and the elapsed count
moves with it (R38, R40), and so does the TD's copy, which the TD interpolates between transfers (R55), out of the TD's reset. -/
def State.pass (s : State) (n : Nat) : State :=
  let m := min n s.time.slewLeft
  let gain : Int := s.time.frac + s.slewRate * m + s.trimRate * (n - m : Nat)
  let whole := (gain / (subNs : Int)).toNat
  let left := s.time.slewLeft - m
  { s with time := { s.time with sysNs := s.time.sysNs + whole, frac := (gain % (subNs : Int)).toNat,
                                 elapsed := s.time.elapsed + whole, slewLeft := left,
                                 tdNs := if s.tdDown then s.time.tdNs else s.time.tdNs + whole,
                                 slew := if left = 0 then 0 else s.time.slew } }

/-- The reference nanoseconds until system time reaches a target. -/
def State.nsUntil (s : State) (target : Nat) : Nat :=
  let need : Int := (target : Int) * (subNs : Int) - ((s.time.sysNs : Int) * (subNs : Int) + s.time.frac)
  if need ≤ 0 then 0
  else
    let up (a b : Int) : Nat := ((a + b - 1) / b).toNat
    let n := up need s.slewRate
    if n ≤ s.time.slewLeft then n
    else s.time.slewLeft + up (need - s.slewRate * s.time.slewLeft) s.trimRate

/-- T: the turn length is 2^T ns (R42). -/
def State.turnLog (s : State) : Nat := s.rd R.TBS_TURN_LEN_LOG2_t

/-- The turn number of an instant of system time; it never falls below the turn number held (R41, R43). -/
def State.turnOf (s : State) (ns : Nat) : Nat := max s.time.turn (ns / 2 ^ s.turnLog)

/-- A turn number that is not the next one begins: the boundaries passed so far are noted beside it (R40). -/
def State.markTurn (s : State) (n : Nat) : State :=
  if n = s.time.turn then s
  else { s with time := { s.time with turn := n }, tab := { s.tab with ageMarks := (n, s.tab.ageTurns) :: s.tab.ageMarks } }

/-- System time set in one step: the turn number moves forward at once or holds, and the elapsed count stays (R39 to
R41). -/
def State.stepTo (s : State) (ns frac : Nat) : State :=
  { s with time := { s.time with sysNs := ns, frac := frac } }.markTurn (s.turnOf ns)

/-- System time moved by a signed number of nanoseconds, its fraction kept (R39). The spec gives no system time below 0: a step that would
lead there ends at 0 (DESIGN CHOICE, notes/assumptions/146.md). -/
def State.stepBy (s : State) (ns : Int) : State :=
  let t := (s.time.sysNs : Int) + ns
  s.stepTo t.toNat (if t < 0 then 0 else s.time.frac)

/-- A phase adjustment: clamped to 500,000 ns either way, spread over 1 s, replacing what remains of the last (R38). -/
def State.startSlew (s : State) (ns : Int) : State :=
  let a := clampInt (-500000) 500000 ns
  { s with time := { s.time with slew := a, slewLeft := if a = 0 then 0 else sec } }

/-! ### The turn state -/

/-- The turn states of R44. -/
def tsFree : Nat := 0
def tsLocking : Nat := 1
def tsLocked : Nat := 2

/-- The turn state. -/
def State.turnState (s : State) : Nat := s.rd R.TBS_TURN_STATUS_turn_state

/-- The turn state changes (R44): an INFO event, an ERR event with FREE, and with FREE every pending event of system
scope is withdrawn (R53); entering LOCKING begins its count and unlock_timeout. -/
def State.setTurnState (s : State) (st : Nat) : State :=
  if s.turnState = st then s
  else
    let s := s.wr R.TBS_TURN_STATUS_turn_state st
    let s := { s with time := { s.time with goodCount := 0, badCount := 0,
                                            lastGood := if st = tsLocking then s.time.elapsed else s.time.lastGood } }
    let s := s.event sevInfo R.TBS_TURN_STATUS
    let s := if st = tsFree then (s.event sevErr R.TBS_TURN_STATUS).withdrawWhere (fun x => x.system) stTurnUnsync else s
    s.svcUpdate

/-- Whether the time base runs on the internal oscillator. -/
def State.onOsc (s : State) : Bool := s.rd R.TBS_CLKMON_STATUS_tb_src == 2

/-- A measurement of `off` ns (R44). -/
def State.measure (s : State) (off : Int) : State :=
  let a := off.natAbs
  let s := s.wr R.TBS_TURN_STATUS_no_meas 0
  let s := { s with time := { s.time with lastMeas := s.time.elapsed } }
  let s := if s.turnState = tsFree && s.rd R.TBS_CTRL_src_sel == 2 && !s.onOsc then s.setTurnState tsLocking else s
  if s.turnState = tsLocking then
    let s := { s with time := { s.time with lastGood := if a ≤ 1000 then s.time.elapsed else s.time.lastGood,
                                            goodCount := if a ≤ 50 then s.time.goodCount + 1 else 0 } }
    if s.rd R.TBS_LOCK_CFG_lock_count ≤ s.time.goodCount then s.setTurnState tsLocked else s
  else if s.turnState = tsLocked then
    if 1000 < a then s.setTurnState tsLocking
    else if 50 < a then
      if 1 ≤ s.time.badCount then s.setTurnState tsLocking
      else { s with time := { s.time with badCount := 1 } }
    else { s with time := { s.time with badCount := 0 } }
  else s

/-! ### The commands of the time base -/

/-- TD_TIME_TRANSFER (R47, R55): the TD's copy takes the FD's time; not while the TD is in reset. -/
def execTdTimeTransfer (s : State) : Host.Outcome State Fault Refusal :=
  ok (if s.tdDown then s else { s with time := { s.time with tdNs := s.time.sysNs } })

/-- A value merged into TBS_CTRL, by a function's write or by firmware at the start (function 0): 3 in src_sel leaves the field and is
logged BAD_VALUE; 0 makes the turn state FREE; a change between 1 and 2 moves LOCKED to LOCKING and restarts LOCKING's count (R44, R45,
R65). -/
def State.setSource (s : State) (fn val be : Nat) : State :=
  let old := s.rd R.TBS_CTRL_src_sel
  let s := s.mergeReg R.TBS_CTRL val be
  let new := s.rd R.TBS_CTRL_src_sel
  if new = 3 then (s.wr R.TBS_CTRL_src_sel old).lateErr fn 0 R.TBS_CTRL leBadValue false
  else if new = old then s
  else if new = 0 then (s.wr R.TBS_TURN_STATUS_no_meas 0).setTurnState tsFree
  else
    let s := { s with time := { s.time with lastMeas := s.time.elapsed } }
    if old = 0 then s
    else if s.turnState = tsLocked then s.setTurnState tsLocking
    else { s with time := { s.time with goodCount := 0, badCount := 0, lastGood := s.time.elapsed } }

/-- TBS_CTRL_WRITE (R44, R45, R65): a write to TBS_CTRL. -/
def execTbsCtrlWrite (fn be val : Nat) (s : State) : Host.Outcome State Fault Refusal :=
  ok (s.hostWrite fn R.TBS_CTRL be false fun s => s.setSource fn val be)

/-- TOD_ARM (R37, R435): the write of the high word arms the seconds of the next pulse. -/
def execTodArm (fn be val : Nat) (low : Option Nat) (s : State) : Host.Outcome State Fault Refusal :=
  ok (s.hostWrite fn R.TBS_TOD_NEXT_SEC_HI be true fun s =>
    let s := s.applyPair fn R.TBS_TOD_NEXT_SEC_LO low val be
    { s with time := { s.time with todArmed := true } })

/-- The armed seconds (R37). -/
def State.armedSec (s : State) : Nat := s.rd R.TBS_TOD_NEXT_SEC_LO_sec_lo + 2 ^ 32 * s.rd R.TBS_TOD_NEXT_SEC_HI_sec_hi

/-- PPS_PULSE (R36 to R38, R44): in 1PPS mode an edge of TIME_1PPS_IN, at which the time base stands `offset` ns past (or,
negative, before) its own nearest second. An armed time of day is applied in FREE, and compared otherwise; the offset is
reported, slewed out, and is a measurement. -/
def execPpsPulse (offset : Int) (s : State) : Host.Outcome State Fault Refusal :=
  ok (if s.rd R.TBS_CTRL_src_sel != 1 then s
    else
      let armed := s.time.todArmed
      let s := { s with time := { s.time with todArmed := false } }
      if armed && s.turnState == tsFree then
        let s := s.stepTo (s.armedSec * sec) 0
        let s := { s with time := { s.time with lastMeas := s.time.elapsed } }
        let s := s.wr R.TBS_TURN_STATUS_no_meas 0
        if s.onOsc then s else s.setTurnState tsLocking
      else
        let s := if armed && s.armedSec != (s.time.sysNs + sec / 2) / sec then
            (s.wr R.TBS_TURN_STATUS_tod_mismatch 1).event sevErr R.TBS_TURN_STATUS else s
        let s := s.wr R.TBS_PPS_OFFSET_offset_ns (ofSigned 32 (clampInt (-0x80000000) 0x7FFFFFFF offset))
        (s.startSlew (-offset)).measure offset)

/-- SERVO_OFFSET_WRITE (R36, R44): in PTP mode, a measurement. -/
def execServoOffsetWrite (fn be val : Nat) (s : State) : Host.Outcome State Fault Refusal :=
  ok (s.hostWrite fn R.TBS_SERVO_OFFSET be false fun s =>
    if s.rd R.TBS_CTRL_src_sel = 2 then s.measure (signedOf 32 (BitVec.ofNat 32 val &&& beMask be).toNat) else s)

/-- PHASE_ADJUST (R38): a clamped slew over the next second. -/
def execPhaseAdjust (fn be val : Nat) (s : State) : Host.Outcome State Fault Refusal :=
  ok (s.hostWrite fn R.TBS_PHASE_ADJ be true fun s => s.startSlew (signedOf 32 val))

/-- TIME_STEP (R39 to R41, R435): accepted while the turn state is FREE; in any other state the pair keeps its value and
step_refused is set. -/
def execTimeStep (fn be val : Nat) (low : Option Nat) (s : State) : Host.Outcome State Fault Refusal :=
  ok (s.hostWrite fn R.TBS_STEP_HI be true fun s =>
    if s.turnState = tsFree then
      let s := s.applyPair fn R.TBS_STEP_LO low val be
      s.stepBy (signedOf 64 (s.rd64 R.TBS_STEP_LO_step_lo R.TBS_STEP_HI_step_hi))
    else (s.dropStaged fn R.TBS_STEP_LO).wr R.TBS_TURN_STATUS_step_refused 1)

/-- A value for T (R42): it changes only in FREE with nothing scheduled, open, prepared, retiring or learning; turns are renumbered at
once, the activation in force then counting as turn 0's (notes/assumptions/163.md), except where the value is T already (R41: while T is unchanged the turn number never decreases). Any other sets
t_write_refused. -/
def State.setTurnLen (s : State) (t : Nat) : State :=
  if s.turnState = tsFree && s.sched.isEmpty && !s.renumberBlocked && 10 ≤ t && t ≤ 20 then
    if t = s.turnLog then s
    else
      let s := s.wr R.TBS_TURN_LEN_LOG2_t t
      let s : State := { s with recipe := { s.recipe with acts := (s.recipe.acts.take 1).map fun a => (0, a.2) } }
      s.markTurn (s.time.sysNs / 2 ^ t)
  else s.wr R.TBS_TURN_STATUS_t_write_refused 1

/-- TURN_LENGTH_WRITE (R42): a write to TBS_TURN_LEN_LOG2. -/
def execTurnLengthWrite (fn be val : Nat) (s : State) : Host.Outcome State Fault Refusal :=
  ok (s.hostWrite fn R.TBS_TURN_LEN_LOG2 be false fun s => s.setTurnLen (if bitAt be 0 then val % 32 else s.turnLog))

/-- MEASUREMENT_TIMEOUT (R44): 2 s of the elapsed count without a measurement: no_meas, and LOCKED moves to LOCKING. -/
def execMeasurementTimeout (s : State) : Host.Outcome State Fault Refusal :=
  ok (if s.rd R.TBS_CTRL_src_sel != 0 && s.time.lastMeas + 2 * sec ≤ s.time.elapsed then
      let s := s.wr R.TBS_TURN_STATUS_no_meas 1
      if s.turnState = tsLocked then s.setTurnState tsLocking else s
    else s)

/-- UNLOCK_TIMEOUT (R44): unlock_timeout seconds in LOCKING without a measurement within 1 us make it FREE. -/
def execUnlockTimeout (s : State) : Host.Outcome State Fault Refusal :=
  ok (if s.turnState == tsLocking && s.time.lastGood + s.rd R.TBS_LOCK_CFG_unlock_timeout * sec ≤ s.time.elapsed then
      s.setTurnState tsFree
    else s)

/-- TIME_CAPTURE (R55, R65): time, turn and fraction of one instant. -/
def execTimeCapture (fn be val : Nat) (s : State) : Host.Outcome State Fault Refusal :=
  ok (s.hostWrite fn R.TBS_CAPTURE be true fun s =>
    if bitAt val 0 then
      let s := (s.wr R.TBS_CAP_NS_ns (s.time.sysNs % sec)).wr R.TBS_CAP_NS_valid 1
      let s := s.wr R.TBS_CAP_SEC_LO_sec_lo (s.time.sysNs / sec)
      let s := s.wr R.TBS_CAP_SEC_HI_sec_hi (s.time.sysNs / sec / 2 ^ 32)
      let s := s.wr R.TBS_CAP_SEC_HI_frac (s.time.frac / 1000000000)
      s.wr64 R.TBS_CAP_TURN_LO_turn_lo R.TBS_CAP_TURN_HI_turn_hi s.time.turn
    else s)

/-! ### The clock monitor -/

/-- A bit of TBS_CLKMON_STATUS.fail: 0 SDS_REFCLK0, 1 SDS_REFCLK1, 2 TIME_REF_IN, 3 crystal. -/
def State.srcFailed (s : State) (i : Nat) : Bool := bitAt (s.rd R.TBS_CLKMON_STATUS_fail) i

/-- The source of the time base set, with the fields that show it; on the internal oscillator the turn state is FREE
(R44, R57). -/
def State.setTbSrc (s : State) (src : Nat) : State :=
  let s := s.wr R.TBS_CLKMON_STATUS_tb_src src
  let s := (s.wrBit R.TBS_TURN_STATUS_holdover (src == 1)).wrBit R.TBS_TURN_STATUS_on_osc (src == 2)
  if src = 2 then s.setTurnState tsFree else s

/-- The SerDes reference in use set, with the one its consumers left for it, if they left one that failed. -/
def State.setCoreRef (s : State) (i : Nat) (left : Option Nat) : State :=
  { s.wr R.TBS_CLKMON_STATUS_core_ref i with clk := { s.clk with left := left } }

/-- The source of the core PLL (R59): the SerDes reference in use; with both failed the crystal, or the internal oscillator when the
crystal has failed too. -/
def State.coreSync (s : State) : State :=
  let src := if s.refsDead then (if s.srcFailed 3 then 3 else 2) else s.rd R.TBS_CLKMON_STATUS_core_ref
  { s with clk := { s.clk with coreSrc := src } }

/-- The mean of the offsets over the last good periods (R58), none where there is none. -/
def State.meanOffset (s : State) : Int :=
  if s.clk.offsets.isEmpty then s.clk.kept else s.clk.offsets.foldl (· + ·) 0 / (s.clk.offsets.length : Int)

/-- The consumers of failed sources on their fallbacks (R57); the time base that goes over to the crystal keeps the correction measured
until then (R58). -/
def State.fallback (s : State) : State :=
  let c := s.rd R.TBS_CLKMON_STATUS_core_ref
  let s := if s.srcFailed c && !s.srcFailed (1 - c) then s.setCoreRef (1 - c) (some c) else s
  let t := s.rd R.TBS_CLKMON_STATUS_tb_src
  let s := if t = 0 && s.srcFailed 2 then
      { s with clk := { s.clk with kept := s.meanOffset } }.setTbSrc (if s.srcFailed 3 then 2 else 1)
    else if t = 1 && s.srcFailed 3 then s.setTbSrc 2
    else s
  s.coreSync

/-- The consumers back on a source that is good again, under TBS_CLKMON_CFG.revert (R60): a SerDes reference takes back the consumers that
left it. -/
def State.switchBack (s : State) (i : Nat) : State :=
  if s.on R.TBS_CLKMON_CFG_revert then
    if i ≤ 1 then (if s.clk.left = some i then s.setCoreRef i none else s)
    else if i = 2 then s.setTbSrc 0
    else if s.rd R.TBS_CLKMON_STATUS_tb_src = 2 then s.setTbSrc 1 else s
  else s

/-- The judgement on one source at a period's end (R57, R60): `bad` says that its count lies outside the window. -/
def State.judge (s : State) (i : Nat) (bad : Bool) : State :=
  let setGood (s : State) (n : Nat) : State :=
    { s with clk := { s.clk with good := swrite (fun _ => 0) s.clk.good i n } }
  if s.srcFailed i then
    if bad then setGood s 0
    else
      let n := sread (fun _ => 0) s.clk.good i + 1
      if n < 10 then setGood s n
      else
        let s := (setGood s 0).wr ⟨R.TBS_CLKMON_STATUS, i, 1⟩ 0
        (s.event sevInfo R.TBS_CLKMON_STATUS).switchBack i
  else if bad then
    let s := ((setGood s 0).wr ⟨R.TBS_CLKMON_STATUS, i, 1⟩ 1).wr ⟨R.TBS_CLKMON_STATUS, 8 + i, 1⟩ 1
    s.event sevCrit R.TBS_CLKMON_STATUS
  else s

/-- CLKMON_PERIOD_END (R57 to R60): the deviations from nominal the monitor counted over the period, in ppb: the two
SerDes references and TIME_REF_IN against the crystal (against the oscillator while the crystal is failed), the crystal
against the oscillator. A period in which TIME_REF_IN and the crystal are both good adds to the offsets of R58. -/
def execClkmonPeriodEnd (ref0 ref1 tref xtal : Int) (s : State) : Host.Outcome State Fault Refusal :=
  let w := if s.srcFailed 3 then 20000000 else s.rd R.TBS_CLKMON_CFG_window_ppm * 1000
  let measured := !s.srcFailed 2 && !s.srcFailed 3
  let s := s.judge 3 (20000000 < xtal.natAbs)
  let s := s.judge 0 (w < ref0.natAbs)
  let s := s.judge 1 (w < ref1.natAbs)
  let s := s.judge 2 (w < tref.natAbs)
  let s := if measured && !s.srcFailed 2 && !s.srcFailed 3 then
      { s with clk := { s.clk with offsets := (tref :: s.clk.offsets).take 16 } } else s
  ok s.fallback

/-- CLKMON_SELECT (R60): software's choice of SerDes reference, and the return to TIME_REF_IN; a failed source is not
taken. -/
def execClkmonSelect (fn be val : Nat) (s : State) : Host.Outcome State Fault Refusal :=
  ok (s.hostWrite fn R.TBS_CLKMON_SEL be false fun s =>
    if bitAt be 0 then
      let s := if s.srcFailed (val % 2) then s else s.setCoreRef (val % 2) none
      (if bitAt val 1 && !s.srcFailed 2 then s.setTbSrc 0 else s).coreSync
    else s)

/-- Whether a clock code of the frequency meter is one the table gives. -/
def fmeasCode (c : Nat) : Bool := c ≤ 6 || (0x80 ≤ c && c < 0x100)

/-- FMEAS_START (R65): a gate begins, unless one runs or a code is reserved. start reads 1 while the gate runs (notes/assumptions/145.md). -/
def execFmeasStart (fn be val : Nat) (s : State) : Host.Outcome State Fault Refusal :=
  ok (s.hostWrite fn R.TBS_FMEAS_CTRL be true fun s =>
    if outOfRange R.TBS_FMEAS_CTRL (BitVec.ofNat 32 val) then s.lateErr fn 0 R.TBS_FMEAS_CTRL leBadValue false
    else
      let s := s.mergeReg R.TBS_FMEAS_CTRL (val % 2 ^ 31) be
      if !bitAt val 31 || s.on R.TBS_FMEAS_STATUS_busy then s
      else if fmeasCode (s.rd R.TBS_FMEAS_CTRL_meas_sel) && fmeasCode (s.rd R.TBS_FMEAS_CTRL_ref_sel) then
        (s.wr R.TBS_FMEAS_STATUS_busy 1).wr R.TBS_FMEAS_CTRL_start 1
      else s.wr R.TBS_FMEAS_STATUS_error 1)

/-- FMEAS_GATE_END (R65): the gate ends with a count, or with error when a clock stood. -/
def execFmeasGateEnd (count : Nat) (stopped : Bool) (s : State) : Host.Outcome State Fault Refusal :=
  ok (if s.on R.TBS_FMEAS_STATUS_busy then
      let s := (s.wr R.TBS_FMEAS_STATUS_busy 0).wr R.TBS_FMEAS_CTRL_start 0
      if stopped then s.wr R.TBS_FMEAS_STATUS_error 1
      else (s.wr64 R.TBS_FMEAS_COUNT_LO_count_lo R.TBS_FMEAS_COUNT_HI_count_hi count).wr R.TBS_FMEAS_STATUS_done 1
    else s)

/-! ### Block clocks -/

/-- The bits of GLB_CLKEN that a written value may leave (R63): a block with a lifecycle field not DOWN keeps its bit; a
TD bit is set only with tgl set; tgl is cleared only when every other TD bit is clear. -/
def State.clkenAllowed (s : State) (old want : Nat) : Nat :=
  let keep (b : Nat) : Bool := if bitAt old b && !bitAt want b then !s.allDown b else bitAt want b
  let fd := (List.range 10).foldl (fun n i => n + bit01 (keep (4 + i)) * 2 ^ (4 + i)) 0
  let td := (List.range 10).foldl (fun n i => n + bit01 (keep (17 + i)) * 2 ^ (17 + i)) 0
  let tgl := bitAt want 16 || (bitAt old 16 && td != 0)
  let td := if tgl then td else (List.range 10).foldl
    (fun n i => n + bit01 (bitAt old (17 + i) && keep (17 + i)) * 2 ^ (17 + i)) 0
  0xF + fd + (if tgl then 65536 else 0) + td

/-- CLOCK_ENABLE_WRITE (R61, R63): bits that break the rules stay, and the write is logged GATE_ACTIVE. -/
def execClockEnableWrite (fn be val : Nat) (s : State) : Host.Outcome State Fault Refusal :=
  ok (s.hostWrite fn R.GLB_CLKEN be false fun s =>
    let old := (s.rdWord R.GLB_CLKEN).toNat
    let want := (s.mergeReg R.GLB_CLKEN val be).rdWord R.GLB_CLKEN |>.toNat
    let new := s.clkenAllowed old want
    let s := s.wrWord R.GLB_CLKEN (BitVec.ofNat 32 new)
    if new = want then s else s.lateErr fn 0 R.GLB_CLKEN leGateActive false)

/-- CLOCK_STATUS_SETTLE (R61): GLB_CLKSTAT follows GLB_CLKEN. -/
def execClockStatusSettle (s : State) : Host.Outcome State Fault Refusal :=
  ok (s.wrWord R.GLB_CLKSTAT (s.rdWord R.GLB_CLKEN))

end Sys2Proof.Machine
end

