-- ==== Sys2Proof/Machine/Boot.lean ====
section
/-!
DEFINITION. Machine/Boot.lean: the stages from the ROM to core release (R489 to R492): the banks (R523, R524), recovery mode (R538), the
boot configuration, the memory fill (R320, R321).
-/

namespace Sys2Proof.Machine

/-! ### The ROM -/

/-- Whether the device is held in reset by PERST# (R490, R496). -/
def State.heldByPerst (s : State) : Bool := s.svc.perst && s.on R.GLB_RESET_CFG_perst_full

/-- Entry into recovery mode with its cause (R538): staging is emptied. -/
def State.enterRecovery (s : State) (cause : Nat) : State :=
  let s := (s.wr R.GLB_SERVICE_stage 0).wr R.FWS_BOOT_STATUS_recovery_cause cause
  { s with svc := { s.svc with recovery := true } }.emptyStaging

/-- A bank that fails the ROM's checks (R523, R541): it is INVALID in the journal, its failure shows in FWS_BOOT_STATUS and, for a failed
authentication, in the security log. -/
def State.bankFails (s : State) (b : Nat) (why : FwFail) : State :=
  let s := match why with | .auth r => s.secLog r 0 0 0 none | .unfit => s
  (s.setBank b bkInvalid).wr (if b = 0 then R.FWS_BOOT_STATUS_a_failed else R.FWS_BOOT_STATUS_b_failed) 1

/-- A bank that passes is loaded (R199, R523, R524, R530): it is ACTIVE, and the watchdog of 5 s starts as the ROM hands over. -/
def State.bootBank (s : State) (b : Nat) : State :=
  let s := s.onlyIf (s.bankState (1 - b) == bkActive) fun s => s.setBank (1 - b) bkPrevious
  let s := (((s.setBank b bkActive).runImage b).patchUcode b).wr R.FWS_BOOT_STATUS_boot_bank b
  { s with svc := { s.svc with wdRunning := true, wdStart := s.time.elapsed } }

/-- The bank that the ROM tries first (R524): the journal's boot bank when no watchdog has expired, otherwise the other one if it is
valid. -/
def State.bootFirst (s : State) : Nat :=
  let b := s.flash.boot
  let other := s.bankState (1 - b)
  if s.rd R.FWS_BOOT_STATUS_expiries = 0 then b
  else if other = bkStaged ∨ other = bkActive ∨ other = bkPrevious then 1 - b else b

/-- The ROM tries a bank: it boots it, or goes on as `rest` says where a check fails (R523). -/
def State.tryBank (s : State) (x : Nat → FwChecks) (b : Nat) (rest : State → State) : State :=
  match s.fwFailure (s.bankImage b) (x b) with
  | some why => rest (s.bankFails b why)
  | none => s.bootBank b

/-- The ROM tries the banks in order; when none passes, the device enters recovery mode (R523). -/
def State.tryBanks (s : State) (x : Nat → FwChecks) (first second : Nat) : State :=
  s.tryBank x first fun s => s.tryBank x second fun s => s.enterRecovery 1

/-- PLL_LOCK (R489, R523, R524, R538, R553): stage 1 ends, or a warm reset has taken hold: the ROM boots a bank; `banks` is what its
decryption finds on bank 0 and bank 1. `recoveryN` is the level of RECOVERY_N, which is sampled again at a warm reset; at power-on the sample of
POR_N's rise stands. In factory test the device does not boot. -/
def execPllLock (banks : FwChecks × FwChecks) (recoveryN : Bool) (s : State) : Host.Outcome State Fault Refusal :=
  ok (if s.svc.pllLocked || s.stopped || s.heldByPerst || s.svc.testMode then s
    else
      let s := s.onlyIf (s.rd R.GLB_SERVICE_stage == 2) fun s => s.wrBit R.GLB_STRAPS_recovery_n recoveryN
      let s := s.wr R.GLB_SERVICE_stage 2
      let s := { s with svc := { s.svc with pllLocked := true } }
      if !s.on R.GLB_STRAPS_recovery_n then s.enterRecovery 3
      else if s.rd R.FWS_BOOT_STATUS_expiries = 3 then s.enterRecovery 2
      else s.tryBanks (fun k => if k = 0 then banks.1 else banks.2) s.bootFirst (1 - s.bootFirst))

/-! ### The boot configuration (R492) -/

/-- The word at a byte of the boot configuration record. -/
def State.bootWord (s : State) (i : Nat) : Option Nat := s.svc.bootCfg.map fun r => leAt r i 4

/-- A register set from the record; an entry that the register does not take is skipped and logged (R542). -/
def State.bootReg (s : State) (a i : Nat) : State :=
  match s.bootWord i, regAt a with
  | some v, some r =>
    let w := mergeWrite r.fields (s.rdWord a) (BitVec.ofNat 32 v) 15
    match s.valueRefused a w with
    | some why => s.lateErr 0 0 (a % 0x10000000) why false
    | none => s.wrWord a w
  | _, _ => s

/-- Every block of both dies enabled, the mask of a start without a boot configuration. -/
def clkenAll : Nat := 0x07FF3FFF

/-- What the boot configuration sets at the start of stage 3 (R492). -/
def State.bootEarly (s : State) : State :=
  let want := (s.bootWord 12).getD clkenAll
  let s := s.wrWord R.GLB_CLKEN (BitVec.ofNat 32 (s.clkenAllowed (s.rdWord R.GLB_CLKEN).toNat want))
  (s.bootReg R.GLB_RESET_CFG 16).bootReg R.GLB_SVC_CFG 20

/-- The fabric links and reservoir ports that the boot configuration enables (R492, R500, R542). -/
def State.bootLinks (s : State) : State :=
  match s.svc.bootCfg with
  | none => s
  | some r =>
    let s := s.each ((List.range 160).filter fun l => bitAt (byteAt r (2112 + l)) 7) fun l s => s.enableLink 0 l
    s.each ((List.range 8).filter fun n => bitAt (byteAt r 2272) n) fun n s => s.enableRes n

/-- A fabric link's generation from the record (R357). -/
def State.bootGen (s : State) (r : List Byte) (l : Nat) : State :=
  let a := R.FAB_LINK_CFG l
  let w := wordPut (s.rdWord a) 0 2 (byteAt r (2112 + l) % 4)
  match s.valueRefused a w with
  | some why => s.lateErr 0 0 a why false
  | none => s.wrWord a w

/-- What the boot configuration sets after core release, in its order (R492). -/
def State.bootLate (s : State) : State :=
  match s.svc.bootCfg with
  | none => s
  | some r =>
    let s := (s.setSource 0 (leAt r 24 4) 15).setTurnLen (leAt r 28 4 % 32)
    let s := s.bootReg R.FAB_CFG 32
    let s := s.each (List.range 128) fun p s =>
      ((s.bootReg (R.LIF_PORT_CFG p) (64 + 16 * p)).bootReg (R.LIF_PORT_MTU p) (68 + 16 * p)).bootReg (R.LIF_LANE_CFG p) (72 + 16 * p)
    let s := s.each (List.range 160) fun l s => s.bootGen r l
    let s := s.each ((List.range 128).filter fun p => bitAt (byteAt r (76 + 16 * p)) 0) fun p s => s.enablePort 0 p
    s.bootLinks

/-- The ranks take the roles recorded in the journal, before the memory fill (R312). -/
def State.applyRoles (s : State) : State :=
  let s := s.each s.mem.journal fun e s =>
    let a := R.HBC_RANK_LC (e.1 / 128) (e.1 % 128)
    let role := e.2 % 8
    let s := s.wr (lcFld a) (if role = roRetired then lcDown else lcUp)
    let s := (s.wr (R.HBC_RANK_LC_role (e.1 / 128) (e.1 % 128)) role).wr (R.HBC_RANK_LC_ring_index (e.1 / 128) (e.1 % 128)) (e.2 / 8 % 128)
    s.wrBit (R.HBC_RANK_LC_erased (e.1 / 128) (e.1 % 128)) (bitAt e.2 20)
  s.each (List.range 6) fun k s => (s.countSpares k).wrBit (R.HBC_SPARES_exposed k) (s.exposed k)

/-- FIRMWARE_RUNNING (R489, R492, R524): firmware runs on both dies: the watchdog stops, stage 3 begins with the clock mask, the HBM delays
and the journaled roles. -/
def execFirmwareRunning (s : State) : Host.Outcome State Fault Refusal :=
  ok (if s.rd R.GLB_SERVICE_stage != 2 || !s.svc.pllLocked || s.svc.fwRunning || s.stopped || s.heldByPerst then s
    else
      let s := { s with svc := { s.svc with fwRunning := true, wdRunning := false, heartbeat := s.time.elapsed } }
      let s := (s.wr R.FWS_BOOT_STATUS_expiries 0).wr R.GLB_SERVICE_stage 3
      ((s.bootEarly).applyRoles).each (List.range 6) fun k s => s.takeDelays k (s.rd (R.HBC_TEMP_band k)))

/-! ### The memory fill (R320, R321) -/

/-- Whether every fill has ended. -/
def State.fillsDone (s : State) : Bool :=
  s.on R.MIF_STATUS_fd_fill_done && s.on R.MIF_STATUS_td_fill_done && s.on R.MIF_STATUS_hbm_fill_done

/-- The eight pipelines in service (DEDUCED from R26, R198 and R489: forwarding begins without a write to PPL_LC). -/
def State.startPipes (s : State) : State := s.each (List.range 8) fun pl s => s.wr (R.PPL_LC_state pl) lcUp

/-- The end of stage 3 (R489): all fills have ended and the TD is out of reset. Core logic is released, the pipelines are UP, and the
boot configuration is applied; after a TD reset, core logic has run all along. -/
def State.releaseCore (s : State) : State :=
  if s.rd R.GLB_SERVICE_stage = 3 && s.fillsDone && !s.tdDown then
    let first := !s.svc.coreRun
    let s := ({ s with svc := { s.svc with coreRun := true } }.onlyIf first State.startPipes).wr R.GLB_SERVICE_stage 4
    s.svcUpdate.onlyIf first State.bootLate
  else s.svcUpdate

/-- MEMORY_FILL_DONE (R320 to R322): the fill of the FD SRAM (0), the TD SRAM (1) or the HBM (2) ends, at the start or after a TD reset;
ranks that failed in the HBM fill are replaced or erased, and a stack with more than two erased ranks keeps the HBM from being released. -/
def execMemoryFillDone (which : Nat) (failed : List (Nat × Nat)) (s : State) : Host.Outcome State Fault Refusal :=
  ok (if 3 ≤ which || !s.svc.fwRunning || s.stopped || s.rd R.GLB_SERVICE_stage != 3 then s
    else
      let s := match which with
        | 0 => s.wr R.MIF_STATUS_fd_fill_done 1
        | 1 => s.wr R.MIF_STATUS_td_fill_done 1
        | _ =>
          let s := s.each (failed.filter fun (f : Nat × Nat) => f.1 < 6 && f.2 < 128) fun (f : Nat × Nat) s => s.fillRetire f.1 f.2
          let s := s.each (List.range 6) fun k s => s.wr (R.HBC_STATUS_ready k) 1
          let s := s.wr R.MIF_STATUS_hbm_fill_done 1
          if (List.range 6).any fun k => 2 < s.erasedCount k then
            (s.wr R.GLB_SERVICE_hbm_fault 1).eventOn sevCrit 1 R.MIF_STATUS false
          else s.wr R.GLB_SERVICE_hbm_fault 0
      s.releaseCore)

end Sys2Proof.Machine
end

