-- ==== Sys2Proof/Machine/TdReset.lean ====
section
/-!
DEFINITION. Machine/TdReset.lean: the reset of the TD (R499, R500, R507 to R510): what causes it, what the FD does at that instant, what
the TD loses, and how it comes back.
-/

namespace Sys2Proof.Machine

/-! ### The FD's part (R499) -/

/-- A dequeued packet that a bridge Dice unit holds back, or whose unit is being replayed. -/
def State.heldBack (s : State) (p : Packet) : Bool :=
  (p.crossing && s.stuck true fun x => x == .bytes p.id) ||
  (p.egress && p.place == .diceHold && s.fab.dice.any fun e =>
    diceGroup 12 ≤ e.1 && e.2.held.any fun h => h.1 == heldUnit 2 p.id)

/-- Packets on the bridge or bound for it, dropped with BRIDGE_RESET (R30, R217, R499): under their ingress port those that wait for their
verdict, whose transactions abort, and those with their primary copy undecided; under their egress port the dequeued ones. -/
def State.dropBridge (s : State) : State :=
  let s := s.each (s.fd.pkts.filter fun p => !p.egress && p.place == .verdict) fun p s =>
    (s.endTxn p false sfFault).dropPkt p drBridgeReset
  let s := s.each ((s.brg.descs ++ s.brg.held).filter fun d => !d.waits && d.todo.contains .primary) fun d s =>
    (s.dropIngress d.port drBridgeReset d.bytes.length d.tag).uncharge d.pkt
  let s := s.each (s.fd.pkts.filter fun p => s.onWay p || s.heldBack p) fun p s => s.dropPkt p drBridgeReset
  { s with brg := State.reset.brg }

/-- Packets whose scan waits for bytes from the TD end with BRIDGE_RESET (R111, R509). -/
def State.dropScans (s : State) : State :=
  s.each (s.fd.pkts.filter fun p => match p.scan with | some x => x.stalled | none => false) fun p s =>
    (s.dropPkt p drBridgeReset).bump (R.PRS_SCAN_PEER_RESET_count p.pipe)

/-- Snapshots opened and not delivered complete PEER_UNAVAILABLE (R509). -/
def State.dropSnaps (s : State) : State :=
  let open_ := s.cnt.snaps
  (s.each open_ fun e s => s.complete e.2.cmd stPeerUnavailable)

/-- Remote requests outstanding complete PEER_UNAVAILABLE (R387, R509). -/
def State.dropRemotes (s : State) (p : RemoteReq → Bool) : State :=
  let gone := s.fab.remotes.filter p
  let s := { s with fab := { s.fab with remotes := s.fab.remotes.filter fun r => !p r } }
  s.each (gone.filter fun r => !r.done) fun r s => s.complete r.cmd stPeerUnavailable

/-- Everything outstanding at the TD ends as R499 and R509 state. -/
def State.endRequests (s : State) : State :=
  let s := s.abortAllTxns
  let s := s.withdrawWhere (fun x => x.tdSlot.isSome) stPeerUnavailable
  let s := ((s.dropBridge).dropScans).dropSnaps
  let s := s.each (s.recipe.loads.filter fun j => s.slotState j.slot == slLoading) fun j s => s.loadFails j stPeerUnavailable
  s.dropRemotes fun _ => true

/-! ### What the TD loses (R283, R322, R500) -/

/-- A table kept in the HBM after the fill: no entries, no locks. -/
def ExmTable.emptied (t : ExmTable) : ExmTable :=
  if t.d.hbm then { t with cells := [], locks := [], past := [] } else t

/-- The words of a memory kind's SECDED words that the FD holds (R298). -/
def fdWord (k : Nat) : Bool := k / 2 ^ 40 < 4

/-- The TD's state at its reset: memories, queues, tiers, fabric, counters. -/
def State.loseTd (s : State) : State :=
  let z := State.reset
  let up := (List.range 8).filter fun n => s.rd (R.RSV_PORT_LC_state n) != lcDown
  let exm := s.tab.exm.map fun e => (e.1, e.2.emptied)
  let dice := s.fab.dice.filter fun e => e.1 < 0x8000000
  let diag := match s.mem.diag with | some o => if o.kind < 4 then some o else none | none => none
  { s with
    buf := z.buf,
    fab := { z.fab with peers := s.fab.peers, levelAt := s.fab.levelAt, nextReq := s.fab.nextReq, dice := dice },
    cnt := { s.cnt with vals := [], snaps := [] },
    tab := { s.tab with exm := exm },
    mem := { s.mem with segs := [], words := s.mem.words.filter (fun e => fdWord e.1), flips := s.mem.flips.filter (fun e => fdWord e.1), diag := diag, deferred := [], migs := [],
                        ceAt := [], bands := [] },
    svc := { s.svc with rsvEpoch := up.foldl bumpEpoch s.svc.rsvEpoch, mgmtEpoch := bumpEpoch s.svc.mgmtEpoch 1 } }

/-- The PFC charges of packets that stood in the TD end (R407). -/
def State.endCharges (s : State) : State :=
  s.each ((s.lif.charges.filter fun e => (s.pkt e.1).isNone).map (·.1)) fun id s => s.uncharge id

/-- Words of TXT_TXN_h of a handle that is not FREE: it keeps its state until the next command on it (R221, R228). -/
def State.txnWordKept (s : State) (a : Nat) : Bool :=
  decide (R.TXT_TXN_w0 0 ≤ a) && decide (a < R.TXT_TXN_w0 64) && s.txState ((a - R.TXT_TXN_w0 0) / 16) != txFree

/-- Registers of TD blocks, and the TD scheduler's slots; the bridge's retired groups and spares are an exception (R22), and
so are the handles of transactions that have not said how they ended (R221, R228). -/
def State.resetTdRegs (s : State) : State :=
  (s.resetRegs 0x8000000 0xAC00000 fun a => (R.TGL_BRG_GRP 0 ≤ a && a < R.TGL_BRG_GRP 24) || s.txnWordKept a).resetRegs
    (R.TBS_SLOT_TD_w0 0) (R.TBS_SLOT_TD_w0 64) fun _ => false

/-- The TD reset (R499, R500, R502, R508) with its cause (R513). It has no effect before firmware runs, or while the device stands
still. -/
def State.tdReset (s : State) (cause : Nat) : State :=
  if !s.svc.fwRunning ∨ s.stopped then s
  else
    let s := s.wr R.GLB_EPOCH_td_epoch (s.rd R.GLB_EPOCH_td_epoch + 1)
    let s := (s.wr R.GLB_RESET_CAUSE_last_td cause).bump R.GLB_RESET_CAUSE_td_count
    let s := (s.endRequests).wr R.GLB_SERVICE_td_down 1
    let kept := [0, 1].any fun k => s.slotState k == slActive || s.slotState k == slRetiring
    let s := s.onlyIf kept fun s => s.wr R.GLB_SERVICE_copy_missing 1
    let s := ((s.loseTd).resetTdRegs).endCharges
    let s := (s.wr R.MIF_STATUS_td_fill_done 0).wr R.MIF_STATUS_hbm_fill_done 0
    let s := ((s.showGroups).applyRoles).schedCounts
    let s := s.onlyIf (3 < s.rd R.GLB_SERVICE_stage) fun s => s.wr R.GLB_SERVICE_stage 3
    ((s.fwSync).svcUpdate).eventOn sevErr 0 R.GLB_SERVICE false

/-! ### Its causes -/

/-- The causes of GLB_RESET_CAUSE.last_td (R513). -/
def tcPf0 : Nat := 1
def tcI2c : Nat := 2
def tcWatchdog : Nat := 3

/-- TD_RESET_REQUEST (R499, R513): PF0 writes td to GLB_RESET_CTRL with the key; a write with any other key is ignored and logged. -/
def execTdResetRequest (fn be val : Nat) (s : State) : Host.Outcome State Fault Refusal :=
  ok (if !bitAt val 1 then s
    else s.hostWrite fn R.GLB_RESET_CTRL be true fun s =>
      if val / 65536 % 65536 = resetKey then s.tdReset tcPf0 else s.lateErr fn 0 R.GLB_RESET_CTRL leBadValue false)

/-- I2C_TD_RESET_REQUEST (R496, R558). -/
def execI2cTdResetRequest (val : Nat) (s : State) : Host.Outcome State Fault Refusal :=
  ok (if bitAt val 1 && val / 65536 % 65536 == resetKey then s.tdReset tcI2c else s)

/-- TD_HEARTBEAT (R499): the TD management complex reports to the FD, every 10 ms. -/
def execTdHeartbeat (s : State) : Host.Outcome State Fault Refusal :=
  ok (if s.svc.fwRunning && !s.tdDown then { s with svc := { s.svc with heartbeat := s.time.elapsed } } else s)

/-- TD_WATCHDOG_EXPIRE (R499): 100 ms without a report, with td_wd_en set. -/
def execTdWatchdogExpire (s : State) : Host.Outcome State Fault Refusal :=
  ok (if s.svc.fwRunning && !s.tdDown && s.on R.GLB_RESET_CFG_td_wd_en && s.svc.heartbeat + 100000000 ≤ s.time.elapsed then
      s.tdReset tcWatchdog
    else s)

/-- The stored words of a slot's banks that the parity of the FD finds bad (R192, R500). -/
def State.failingWords (s : State) (bank : Nat) : List Nat :=
  match s.bankRecipe bank with
  | none => []
  | some r => (s.fd.badWords ++ s.fd.flips.map (·.1)).eraseDups.filter fun k =>
      k < 2 ^ 24 && k / 2 ^ 18 % 4 == bank &&
        !parityHolds (s.storedAt r (k / 2 ^ 20) bank (k % 2 ^ 18 / 4096) (k % 4096))

/-- The protected copies of the ACTIVE and RETIRING slots rewritten from the banks (R500): for a word whose parity fails there is a good one in
the Recipe store entry of the same serial; without such an entry it stays marked and R197 applies to it. -/
def State.rewriteCopies (s : State) : State :=
  s.each [0, 1] fun k s =>
    match (if k = 0 then s.recipe.slotA else s.recipe.slotB) with
    | none => s
    | some m =>
      if !(s.slotState k == slActive || s.slotState k == slRetiring) || s.recipe.store.any (fun e => e.2.serial == m.serial) then s
      else s.each (s.failingWords k) fun w s => ((s.markWord w).closeLog w 2).retire (keyPipe w) 2

/-- TD_RESTART_DONE (R500): the TD's memories are filled, its firmware and microcode run, the protected copy is rewritten: the TD is back,
and the boot configuration's links and reservoir ports are enabled. -/
def execTdRestartDone (s : State) : Host.Outcome State Fault Refusal :=
  ok (if !s.on R.GLB_SERVICE_td_down || s.stopped || !s.on R.MIF_STATUS_td_fill_done || !s.on R.MIF_STATUS_hbm_fill_done then s
    else
      let s := s.rewriteCopies
      let s := { s.wr R.GLB_SERVICE_td_down 0 |>.wr R.GLB_SERVICE_copy_missing 0 with
        svc := { s.svc with heartbeat := s.time.elapsed } }
      (s.onlyIf s.svc.coreRun State.bootLinks).releaseCore)

end Sys2Proof.Machine
end

