-- ==== Sys2Proof/Machine/BlockReset.lean ====
section
/-!
DEFINITION. Machine/BlockReset.lean: resetting one block through GLB_BLKRST (R501, R508).
-/

namespace Sys2Proof.Machine

/-- The blocks that can be reset alone, by their bits of GLB_BLKRST (R501). -/
def resettable : List Nat := [4, 5, 11, 13, 19, 22, 25, 26]

/-- Whether a block's condition holds (R501). -/
def State.mayReset (s : State) (bit : Nat) : Bool :=
  match bit with
  | 5 => (List.range 128).all (fun p => !(isOtn (s.mode p) || isClient (s.mode p)) || s.rd (R.LIF_PORT_LC_state p) == lcDown) &&
      s.sched.all (fun x => x.ev != .tsiSwap) && s.lif.swapping.isEmpty
  | 19 => (List.range 8).all fun n => s.rd (R.RSV_PORT_LC_state n) == lcDown
  | 11 => true
  | 25 => true
  | b => s.allDown b

/-- The registers of a block at their reset values, its RWS fields as they were. -/
def State.resetBlockRegs (s : State) (bit : Nat) : State :=
  { s with regs := regsKept s.regs fun a w => if blockBit a = bit then warmWord a w else some w }

/-- Frames in the FIFOs of the line interface, lost with its logic. -/
def State.dropFifos (s : State) : State :=
  s.each (s.fd.pkts.filter fun p => !p.egress && p.place == .fifo) fun p s => s.endPkt p

/-- The scheduled holds and releases withdrawn: their requests were to the block (R508, R509). -/
def State.dropHolds (s : State) : State :=
  s.withdrawWhere (fun x => match x.ev with | .holdStart _ => true | .holdStop _ => true | _ => false) stPeerUnavailable

/-- What a block holds beyond its registers, lost at its reset. -/
def State.resetBlockState (s : State) (bit : Nat) : State :=
  match bit with
  | 4 =>
    let s := s.dropFifos
    { s with lif := { s.lif with accounts := [], charges := [], pauses := [], repeats := [], tsFifo := [], seen := [] } }
  | 5 => { s with lif := { s.lif with slices := [], layers := [], gmp := [], swapping := [] } }
  | 11 => { s with cnt := { s.cnt with samples := [], recs := [], recSeq := 0, cycRem := 0 } }
  | 13 => { s with fab := { s.fab with dice := s.fab.dice.filter fun e => 0x8000000 ≤ e.1 } }
  | 26 => { s with fab := { s.fab with dice := s.fab.dice.filter fun e => e.1 < 0x8000000 } }
  | 19 =>
    let s := s.dropHolds
    { s with
      buf := { s.buf with ports := [], nextPort := 0, plans := [], paid := [], auto := [], since := [] },
      svc := { s.svc with rsvEpoch := (List.range 8).foldl bumpEpoch s.svc.rsvEpoch } }
  | 22 =>
    let s := s.dropRemotes fun _ => true
    let f : FabSt := { State.reset.fab with peers := s.fab.peers, levelAt := s.fab.levelAt, nextReq := s.fab.nextReq,
                                            dice := s.fab.dice }
    { s with fab := f }
  | _ => s

/-- One block reset (R501, R508): its bit stands until the block is ready. -/
def State.resetBlock (s : State) (bit : Nat) : State :=
  let s := (s.resetBlockState bit).resetBlockRegs bit
  let s : State := { s with svc := { s.svc with blkEpoch := bumpEpoch s.svc.blkEpoch bit } }
  (s.wr ⟨R.GLB_BLKRST, bit, 1⟩ 1).svcUpdate

/-- BLOCK_RESET (R501): PF0 writes bits of GLB_BLKRST; a bit whose condition does not hold stays clear, and the write is logged
once. -/
def execBlockReset (fn be val : Nat) (s : State) : Host.Outcome State Fault Refusal :=
  ok (s.hostWrite fn R.GLB_BLKRST be true fun s =>
    let asked := resettable.filter fun b => bitAt val b
    let t := s.each asked fun b t => t.onlyIf (s.mayReset b) fun t => t.resetBlock b
    t.onlyIf (asked.any fun b => !s.mayReset b) fun t => t.lateErr fn 0 R.GLB_BLKRST leWrongState false)

/-- BLOCK_RESET_DONE (R501): the blocks are ready, and the bits clear. -/
def execBlockResetDone (s : State) : Host.Outcome State Fault Refusal := ok (s.wrWord R.GLB_BLKRST 0)

end Sys2Proof.Machine
end

