-- ==== Sys2Proof/Machine/Endpoint.lean ====
section
/-!
DEFINITION. Machine/Endpoint.lean: the endpoint reset of a function (R496, R498): PERST# (R427, R490) and the function-level reset.
-/

namespace Sys2Proof.Machine

/-- The HAC registers of a function, by address with its bank: those kept per function (R464), its DMA windows and its BAR2 target; for
PF0 also the rights of PF1 and the pending CRIT events. -/
def ownedReg (fn a : Nat) : Bool :=
  let off := a % 0x10000000
  let bank := (0x200000 ≤ off && off < 0x200008) || (0x200400 ≤ off && off < 0x200480) || (0x200600 ≤ off && off < 0x200618)
  (bank && a / 0x10000000 == fn) ||
  (0x200100 + 0x80 * fn ≤ off && off < 0x200180 + 0x80 * fn) || off == R.HAC_BAR2_SEL fn ||
  (fn == 0 && ((R.HAC_PF1_RIGHTS ≤ off && off < R.HAC_BAR2_SEL 0) || off == R.HAC_CRIT_PEND))

/-- The enable bits of the rings of the device that a function owns (R498). -/
def State.clearEnables (s : State) (fn : Nat) : State :=
  s.each [R.EXM_LFIFO_CFG_en, R.MIF_PR_CFG_en, R.PMF_SMP_CFG_en, R.TXF_RPL_CTRL_en] fun f s =>
    s.onlyIf (s.on f && s.ringOwner f == fn) fun s => s.wr f 0

/-- The commands of a function at its reset (R498): completions not written are discarded and counted; a refusal that waits for its time is
discarded; commands that still run are orphans. -/
def State.orphan (s : State) (fn : Nat) : State :=
  let mine := s.host.inFlight.filter fun x => x.fn == fn
  let runs := mine.filter fun x => !s.answered ⟨.ring fn x.ring x.tag, false⟩
  let lost := (s.host.cplQueue.filter fun c => c.fn == fn).length + (s.host.refusing.filter fun r => r.fn == fn && r.cmd.isSome).length
  let ids := runs.map fun x => (fn, x.ring, x.tag)
  let old := s.host.orphans.filter fun (o : Nat × Nat × Nat) => o.1 != fn
  let fls := s.host.inFlight.filter fun x => x.fn != fn || runs.contains x
  { s with host := { s.host with
      inFlight := fls,
      orphans := old ++ ids,
      cplQueue := s.host.cplQueue.filter fun c => c.fn != fn,
      refusing := s.host.refusing.filter fun r => r.fn != fn } }.count R.GLB_LOST_CPL_count lost

/-- What HAC holds for a function beside its registers, lost at its reset: doorbells and rings, pair latches and staged words, held
fences, event records, the MSI-X table. Keys of Machine/State.lean. -/
def State.clearHost (s : State) (fn : Nat) : State :=
  let h := s.host
  let pair (e : Nat × Word) : Bool := e.1 / 0x10000000 != fn
  let vec (e : Nat × Bool) : Bool := e.1 / 64 != fn
  let ring (e : Nat × Ring) : Bool := e.1 / 2 != fn
  { s with host := { h with
      rings := h.rings.filter ring, latches := h.latches.filter pair, staged := h.staged.filter pair,
      highRun := h.highRun.filter fun e => e.1 != fn, fences := h.fences.filter fun e => e.1 != fn,
      evPend := h.evPend.filter fun e => e.1 != fn, evSeq := h.evSeq.filter fun e => e.1 != fn,
      vecOpen := h.vecOpen.filter vec, vecPend := h.vecPend.filter vec } }

/-- The endpoint reset of one function (R498): HAC_RULE_EPOCH increments, the late-error log stays. -/
def State.endpointReset (s : State) (fn : Nat) : State :=
  let s := ((s.orphan fn).clearEnables fn).clearHost fn
  let s : State := { s with regs := s.regs.filter fun e => !ownedReg fn e.1 }
  s.wr R.HAC_RULE_EPOCH_epoch (s.rd R.HAC_RULE_EPOCH_epoch + 1)

/-- FUNCTION_LEVEL_RESET (R496, R498): a PCI Express function-level reset acts on that function only. -/
def execFunctionLevelReset (fn : Nat) (s : State) : Host.Outcome State Fault Refusal :=
  ok (if 2 ≤ fn || !s.answers fn then s else s.endpointReset fn)

/-- PERST_ASSERT (R490, R496): with perst_full set a warm reset, otherwise an endpoint reset of both functions. -/
def execPerstAssert (s : State) : Host.Outcome State Fault Refusal :=
  let s : State := { s with svc := { s.svc with perst := true } }
  ok (if s.stopped then s
    else if s.on R.GLB_RESET_CFG_perst_full then s.warmReset wcPerst
    else (s.endpointReset 0).endpointReset 1)

/-- PERST_RELEASE (R427): configuration requests are answered from 100 ms after the release. -/
def execPerstRelease (s : State) : Host.Outcome State Fault Refusal :=
  ok (if s.svc.perst then { s with svc := { s.svc with perst := false, answerFrom := s.time.elapsed + 100000000 } } else s)

end Sys2Proof.Machine
end

