-- ==== Sys2Proof/Machine/Learn.lean ====
section
/-!
DEFINITION. Machine/Learn.lean: learning, ageing and the learn FIFO (R152 to R158).
-/

namespace Sys2Proof.Machine

/-! ### Learning -/

/-- The cell in which a learner's copy holds a key, with how the learner sees it (R154): a static entry, one visible to the
learner, one pending and not published yet, or one that is none of these (hidden by age). -/
inductive Holds where
  | nothing
  | static
  | visible (a : Nat) (c : ECell)
  | pending (a : Nat) (c : ECell)
  | hidden (a : Nat) (c : ECell)
  deriving DecidableEq, Repr

/-- What a learner finds under its key in its copy (R154). -/
def State.holdsFor (s : State) (i : Nat) (t : ExmTable) (l : Learn) : Holds :=
  let mine := t.holding l.copy (t.d.keyOf l.bits)
  if mine.any fun e => e.2.static && (e.2.state == 3 || t.shows l.tag e.2) then .static
  else
    match mine.find? fun e => e.2.state == 4 && !t.shows l.tag e.2 with
    | some e => .pending e.1 e.2
    | none =>
      match mine.find? fun e => t.shows l.tag e.2 with
      | some e => if s.agedOut i t.d l.tag e.2 then .hidden e.1 e.2 else .visible e.1 e.2
      | none => .nothing

/-- A learn dropped under its cause, with a record (R152): a locked bucket, or no placement. -/
def State.dropLearn (s : State) (l : Learn) (t : ExmTable) (locked : Bool) : State :=
  let h1 := cellAt l.copy (t.d.buckets2 (t.d.keyOf l.bits)).1 0
  let s := s.bump (if locked then R.EXM_LEARN_w2_locked l.copy else R.EXM_LEARN_w1_full l.copy)
  s.learnRecord (if locked then lrLocked else lrFull) t l.copy l.tag h1 l.bits

/-- A learn placed as a new cell (R147, R152, R153), behind what it replaces where it is a move: pending with publication turn
`P`, or always at once under immediate publication. The old slot retires before the plan is made, so that a plan that relocates it
takes its state along; a plan that fails leaves it. A placement that fails drops the learn. -/
def State.placeLearn (s : State) (l : Learn) (i : Nat) (t : ExmTable) (old : Option (Nat × ECell)) (P : Nat) : State :=
  let now : Bool := t.d.delay == 0
  let stamp := s.tickOf t.d l.tag
  let fresh : ECell := ⟨l.bits, if now then 1 else 4, false, P % 4096, stamp, l.tag, l.order⟩
  match now, old with
  | true, some (a, _) =>
    let t := { t with cells := mput t.cells a fresh }
    ((s.setExm i t).learnRecord lrMove t l.copy s.time.turn a l.bits).bump (R.EXM_LEARN_w0_learned l.copy)
  | _, _ =>
    let t' := match old with
      | some (a, c) => { t with cells := mput t.cells a { c with state := 5, pub := P % 4096 } }
      | none => t
    match t'.plan l.copy fresh with
    | .busy locked => s.dropLearn l t locked
    | .full => (s.dropLearn l t false).bump (R.EXM_TBL_w5_full i)
    | .done ws =>
      let t' := t'.write ws
      let s := (s.setExm i t').count (R.EXM_TBL_w4_moves i) (ws.length - 1)
      let s := s.onlyIf (!now && P != l.tag + t.d.delay) fun s => s.bump (R.EXM_LEARN_w4_late l.copy)
      s.onlyIf now fun s =>
        let a := match ws.head? with | some w => w.1 | none => 0
        (s.learnRecord lrLearn t' l.copy s.time.turn a l.bits).bump (R.EXM_LEARN_w0_learned l.copy)

/-- Whether a copy of a table is updated (R28): its pipeline is in service. Learns for a copy that is not wait until it is again
(DESIGN CHOICE, notes/assumptions/147.md). -/
def State.copyServes (s : State) (t : ExmTable) (copy : Nat) : Bool :=
  t.copies == 1 || s.rd (R.PPL_LC_state copy) == lcUp || s.rd (R.PPL_LC_state copy) == lcDraining

/-- LEARN_PLACE (R28, R152 to R154, R164): the engine group takes up the next committed learn of a table. `rate` says that the copy has
had its learns for the time. -/
def execLearnPlace (k : Nat) (rate : Bool) (s : State) : Host.Outcome State Fault Refusal :=
  ok (match s.tab.learns[k]? with
    | none => s
    | some l =>
      if (s.tab.learns.take k).any fun x => x.table == l.table && x.copy == l.copy then s
      else if (mget s.tab.exm l.table).any fun t => !s.copyServes t l.copy then s
      else
        let s := { s with tab := { s.tab with learns := s.tab.learns.eraseIdx k } }
        match mget s.tab.exm l.table with
        | none => s
        | some t =>
          let due := l.tag + t.d.delay
          let P := if due ≤ s.time.turn then s.time.turn + 1 else due
          if rate then s.bump (R.EXM_LEARN_w3_rate l.copy)
          else
            let held (a : Nat) : Bool := t.locked l.copy (cellBucket a)
            match s.holdsFor l.table t l with
            | .static => s
            | .pending a c =>
              if held a then s.dropLearn l t true
              else if c.order.before l.order then
                s.setExm l.table { t with cells := mput t.cells a { c with bits := l.bits, tag := l.tag, order := l.order } }
              else s
            | .visible a c =>
              if c.bits = l.bits then
                if t.d.ageing.isSome then
                  s.setExm l.table { t with cells := mput t.cells a { c with stamp := s.tickOf t.d l.tag } }
                else s
              else if held a then s.dropLearn l t true
              else s.placeLearn l l.table t (some (a, c)) P
            | .hidden a c => if held a then s.dropLearn l t true else s.placeLearn l l.table t (some (a, c)) P
            | .nothing => s.placeLearn l l.table t none P)

/-- LEARN_STATE_ALWAYS (R148, R153, R157): a cell whose publication turn has passed: a pending one becomes always, with its LEARN or
MOVE record, and the slot it moved from is freed; a retiring one is freed. -/
def execLearnStateAlways (i a : Nat) (s : State) : Host.Outcome State Fault Refusal := ok (s.settle i a)

/-- The learned entries of every table that a boundary publishes, counted (R153). -/
def State.publishLearns (s : State) (turn : Nat) : State :=
  s.each s.tab.exm fun e s =>
    s.each (e.2.cells.filter fun c => c.2.state == 4 && c.2.pub == turn % 4096) fun c s =>
      s.bump (R.EXM_LEARN_w0_learned (cellCopy c.1))

/-! ### Ageing -/

/-- Whether an entry is beyond its expiry for every packet of a pipeline's ingress section and for the present (R155). -/
def State.expired (s : State) (i : Nat) (t : ExmTable) (copy : Nat) (c : ECell) : Bool :=
  s.agedOut i t.d s.time.turn c &&
    (s.fd.pkts.filter fun p => !p.egress && (t.copies == 1 || p.pipe == copy)).all fun p => s.agedOut i t.d p.tag c

/-- AGEING_SWEEP_VISIT (R155, R156, R164): the sweep visits a bucket of a copy. With ageing on it frees expired entries, an AGE record
for each; with ageing off it rewrites stamps that lag. A locked bucket is skipped, and a copy whose
pipeline is out of service (R28). -/
def execAgeingSweepVisit (i copy bucket : Nat) (s : State) : Host.Outcome State Fault Refusal :=
  ok (match mget s.tab.exm i with
    | none => s
    | some t =>
      let τ := s.time.turn
      let here (x : Nat × ECell) : Bool := cellCopy x.1 == copy && cellBucket x.1 == bucket && !x.2.static
      let due (x : Nat × ECell) : Bool := here x && (x.2.state == 1 || x.2.state == 4)
      let rule := s.ageRule i τ
      let now := s.tickOf t.d τ
      if t.d.ageing.isNone || t.locked copy bucket || !s.copyServes t copy then s
      else if rule.2 then
        let gone := t.cells.filter fun x => due x && s.expired i t copy x.2
        let s := s.setExm i (t.remove fun a _ => gone.any fun x => x.1 == a)
        s.each gone fun x s => s.learnRecord lrAge t copy τ x.1 x.2.bits
      else
        let cells := t.cells.map fun x =>
          if here x && rule.1 ≤ (now + 256 - x.2.stamp) % 256 then (x.1, { x.2 with stamp := (now + 256 - rule.1) % 256 })
          else x
        s.setExm i { t with cells := cells })

/-- AGE_LIMIT_WRITE (R155, R156, R168): limit and en of EXM_AGE_t, for packets tagged after the turn of acceptance; a limit outside 1 to
254 is ignored and logged. -/
def execAgeLimitWrite (fn be t val : Nat) (s : State) : Host.Outcome State Fault Refusal :=
  let a := R.EXM_AGE t
  ok (if 64 ≤ t then s else
    s.hostWrite fn a be false fun s =>
      let s' := s.mergeReg a val be
      let limit := s'.rd (R.EXM_AGE_limit t)
      if limit = 0 ∨ limit = 255 then s.lateErr fn 0 a leBadValue false
      else
        let h := sread (fun _ => []) s.tab.ages t
        let v := limit + 256 * s'.rd (R.EXM_AGE_en t)
        { s' with tab := { s'.tab with ages := mput s'.tab.ages t ((s.time.turn, v) :: h) } })

/-! ### The learn FIFO -/

/-- LEARN_RECORD_DELIVER (R157, R158): the oldest record of the learn FIFO goes into the host ring, which has room, and the ring's
vector is raised; otherwise it stays. -/
def execLearnRecordDeliver (s : State) : Host.Outcome State Fault Refusal :=
  ok (match s.tab.learnFifo with
    | [] => s
    | r :: rest =>
      let n := s.rd R.EXM_LFIFO_CFG_size_log2
      let h := s.rd R.EXM_LFIFO_HEAD_head
      if !s.on R.EXM_LFIFO_CFG_en || ringFull n h (s.rd R.EXM_LFIFO_TAIL_tail) then s
      else
        let fn := s.ringOwner R.EXM_LFIFO_CFG_en
        let s := { s with tab := { s.tab with learnFifo := rest } }
        let s := s.wr R.EXM_LFIFO_STATUS_fill rest.length
        let s := s.emit (.dma fn (s.pairAt R.EXM_LFIFO_BASE_LO + 64 * (h % 2 ^ n)) r)
        (s.wr R.EXM_LFIFO_HEAD_head ((h + 1) % 2 ^ n)).raiseVec fn (s.rd R.EXM_LFIFO_CFG_vector))

end Sys2Proof.Machine
end

