-- ==== Sys2Proof/Machine/Pins.lean ====
section
/-!
DEFINITION. Machine/Pins.lean: sensors, rails and the thermal trip (R559 to R561), calibration words (R562 to R564), the LED chain (R556)
and the outputs to the board (R555).
-/

namespace Sys2Proof.Machine

/-! ### Calibration -/

/-- One field of an effective word (R562): the factory field plus the signed user field, saturating. -/
def effField (fac user : Nat) (width lsb : Nat) (signed : Bool) (lo hi : Int) : Nat :=
  let f : Int := if signed then signedOf width (bitsAt fac lsb width) else bitsAt fac lsb width
  let v := clampInt lo hi (f + signedOf width (bitsAt user lsb width))
  (v % (2 ^ width : Nat)).toNat * 2 ^ lsb

/-- The effective word of an item from its factory and user words (R562). -/
def effWord (k fac user : Nat) : Nat :=
  if k < 1129 then (List.range 4).foldl (fun n i => n + effField fac user 8 (8 * i) false 0 255) 0
  else if k < 1155 then effField fac user 8 0 true (-128) 127
  else if k < 1165 then effField fac user 16 0 false 0 65535
  else effField fac user 8 0 false 0 255

/-- The bits of item `k`'s user word that its layout uses (R562, R566). -/
def userBits (k : Nat) : Nat := if k < 1129 then 32 else if k < 1155 then 8 else if k < 1165 then 16 else 8

/-- CALIBRATION_USER_WRITE (R562 to R564): a write of user word `k`; the effective word follows, and the oscillator takes it at once. -/
def execCalibrationUserWrite (fn be k val : Nat) (s : State) : Host.Outcome State Fault Refusal :=
  ok (if 1166 ≤ k then s
    else s.hostWrite fn (R.FWS_CAL_USER k) be false fun s =>
      let s := s.mergeReg (R.FWS_CAL_USER k) val be
      let s := s.wrWord (R.FWS_CAL_USER k) (BitVec.ofNat 32 ((s.rdWord (R.FWS_CAL_USER k)).toNat % 2 ^ userBits k))
      let s := s.wr (R.FWS_CAL_EFF_effective k) (effWord k (s.rdWord (R.FWS_CAL_FAC k)).toNat (s.rdWord (R.FWS_CAL_USER k)).toNat)
      s.onlyIf (k == 1165) fun s => s.takeTrims [k])

/-! ### Sensors (R560) -/

/-- A calibration word as it is in use. -/
def State.calWord (s : State) (k : Nat) : Nat := (sread (fun i => regReset (R.FWS_CAL_EFF i)) s.svc.trims k).toNat

/-- Whether a sensor is one of the HBM's. -/
def hbmSensor (x : Nat) : Bool := 20 ≤ x

/-- The die a sensor lies on: 0 FD, 1 TD with the HBM stacks. -/
def sensorDie (x : Nat) : Nat := if x < 12 then 0 else 1

/-- The warn and crit thresholds of a sensor in degrees Celsius. -/
def State.warnAt (s : State) (x : Nat) : Nat := if hbmSensor x then s.rd R.GLB_THERM_CFG_hbm_warn else s.rd R.GLB_THERM_CFG_die_warn
def State.critAt (s : State) (x : Nat) : Nat := if hbmSensor x then s.rd R.GLB_THERM_CFG_hbm_crit else s.rd R.GLB_THERM_CFG_die_crit

/-- A reading of GLB_TEMP_x in 1/16 degree. -/
def State.temp (s : State) (x : Nat) : Int := signedOf 16 (s.rd (R.GLB_TEMP_temp x))

/-- A crossing remembered in a mask of sensors (R560): raised at the threshold, forgotten 3 degrees below it. The new mask, and whether
the event is raised now. -/
def crossing (mask x : Nat) (temp : Int) (limit : Nat) : Nat × Bool :=
  if bitAt mask x then (if temp ≤ 16 * ((limit : Int) - 3) then (mask - 2 ^ x, false) else (mask, false))
  else if 16 * (limit : Int) ≤ temp then (mask + 2 ^ x, true)
  else (mask, false)

/-- One sensor's reading with its effective offset, and the events of its crossings (R560, R565). -/
def State.sense (s : State) (x : Nat) (raw : Int) : State :=
  let t := raw + signedOf 8 (bitsAt (s.calWord (1129 + x)) 0 8)
  let s := (s.wr (R.GLB_TEMP_temp x) (t % 65536).toNat).wr (R.GLB_TEMP_valid x) 1
  let w := crossing s.svc.warned x (s.temp x) (s.warnAt x)
  let c := crossing s.svc.crited x (s.temp x) (s.critAt x)
  let s := { s with svc := { s.svc with warned := w.1, crited := c.1 } }
  let s := s.onlyIf w.2 fun s => (s.wr R.GLB_INT_STATUS_therm 1).eventOn sevErr (sensorDie x) (R.GLB_TEMP x) false
  s.onlyIf c.2 fun s => s.eventOn sevCrit (sensorDie x) (R.GLB_TEMP x) false

/-- GLB_THERM_STATUS brought in line with the readings (R565). -/
def State.thermSync (s : State) : State :=
  let live := (List.range 26).filter fun x => s.on (R.GLB_TEMP_valid x)
  let hot := live.foldl (fun b x => if s.temp b < s.temp x then x else b) (live.headD 0)
  let s := s.wrBit R.GLB_THERM_STATUS_warn (live.any fun x => 16 * (s.warnAt x : Int) ≤ s.temp x)
  let s := s.wrBit R.GLB_THERM_STATUS_crit (live.any fun x => 16 * (s.critAt x : Int) ≤ s.temp x)
  (s.wr R.GLB_THERM_STATUS_hottest hot).wr R.GLB_THERM_STATUS_temp (s.temp hot % 65536).toNat

/-- SENSOR_UPDATE (R560, R564, R565): every 1 ms the 26 sensors, raw in 1/16 degree, and the 10 rails, raw in mV, with their calibration
words. -/
def execSensorUpdate (temps : List Int) (rails : List Nat) (s : State) : Host.Outcome State Fault Refusal :=
  ok (if s.stopped || temps.length != 26 || rails.length != 10 then s
    else
      let s := s.takeTrims ((List.range 36).map (· + 1129))
      let s := s.each (List.range 26) fun x s => s.sense x (temps.getD x 0)
      let s := s.each (List.range 10) fun v s =>
        s.wr (R.GLB_RAIL_mv v) (min (rails.getD v 0 * (s.calWord (1155 + v) % 65536) / 32768) 65535)
      s.thermSync)

/-- The temperature the analogue trip sees: the factory offset only (R561). -/
def State.tripTemp (s : State) (x : Nat) (raw : Int) : Int := raw + signedOf 8 (bitsAt (s.rdWord (R.FWS_CAL_FAC (1129 + x))).toNat 0 8)

/-- THERMAL_TRIP (R561): a die sensor at 115 degrees or an HBM sensor at 105: the core clocks of both dies stop, every transmitter is in
electrical idle, and trip is set until VDD_AON is lost. -/
def execThermalTrip (temps : List Int) (s : State) : Host.Outcome State Fault Refusal :=
  let hot := (List.range 26).any fun x => 16 * (if hbmSensor x then (105 : Int) else 115) ≤ s.tripTemp x (temps.getD x 0)
  ok (if s.svc.porLow || temps.length != 26 || !hot then s
    else
      { s.wr R.GLB_THERM_STATUS_trip 1 with
        svc := { s.svc with coreRun := false, fwRunning := false, pllLocked := false, wdRunning := false } })

/-! ### Outputs (R555, R556) -/

/-- LED_FRAME_SHIFT (R556): 256 bits, bit 2p the link of port p, bit 2p + 1 whether it sent or received a packet in the last 10 ms. -/
def execLedFrameShift (s : State) : Host.Outcome State Fault Refusal :=
  let lit (i : Nat) : Bool :=
    if i % 2 = 0 then s.on (R.LIF_PORT_STATUS_link_up (i / 2))
    else match mget s.lif.seen (i / 2) with | some t => s.time.elapsed ≤ t + 10000000 | none => false
  ok (if s.on R.GLB_LED_CFG_en && s.svc.fwRunning then s.emit (.led (bitsWhere 256 lit)) else s)

/-- Whether FAB_RDY_N is low. -/
def State.fabReady (s : State) : Bool :=
  (s.rd R.GLB_SERVICE_stage == 5 || s.rd R.GLB_SERVICE_stage == 6) && !s.on R.GLB_OUT_CTRL_fab_rdy_hold && !s.stopped

/-- Whether INT_N is low: an unmasked bit of GLB_INT_STATUS is set. -/
def State.intLow (s : State) : Bool :=
  (List.range 4).any fun i => s.rd ⟨R.GLB_INT_STATUS, i, 1⟩ == 1 && s.rd ⟨R.GLB_INT_MASK, i, 1⟩ == 0

/-- Whether CRIT_N is low: a CRIT event is pending (R461). -/
def State.critLow (s : State) : Bool := s.rdWord R.HAC_CRIT_PEND != 0

/-- Whether THERMTRIP_N is low. -/
def State.tripLow (s : State) : Bool := s.on R.GLB_THERM_STATUS_trip

/-! ### The I2C target -/

/-- What a read of a register over I2C returns (R558): GLB_SERVICE reads as all ones while POR_N is low or during a reset; numbers that are
not listed read as zero. The target answers in every state. -/
def State.i2cRead (s : State) (n : Nat) : Word :=
  if n = 0x00 then s.readable R.GLB_ID
  else if n = 0x01 then (if s.svc.porLow || s.svc.browned then 0xFFFFFFFF else s.readable R.GLB_SERVICE)
  else if n = 0x02 then s.readable R.GLB_THERM_STATUS
  else if n = 0x03 then s.readable R.GLB_PWR_STATUS
  else if n = 0x04 then s.readable R.GLB_RESET_CAUSE
  else if 0x10 ≤ n ∧ n < 0x2A then s.readable (R.GLB_TEMP (n - 0x10))
  else 0

end Sys2Proof.Machine
end

