-- ==== Sys2Proof/Machine/Release.lean ====
section
/-!
DEFINITION. Machine/Release.lean: when packets tagged before a turn have left the device (R86, R87, R132), the close of overlaps
(R132, R150) and the release of a RETIRING slot (R86).
-/

namespace Sys2Proof.Machine

/-- The packets of the ingress path (R86, condition 1): those on the FD, and the descriptors on the bridge or held at it that the TD has
not decided. -/
def State.ingressOld (s : State) (p : Nat → Nat → Bool) : Nat :=
  (s.fd.pkts.filter fun x => !x.egress && p x.version x.tag).length +
  ((s.brg.descs ++ s.brg.held).filter fun d => s.fd.pkts.all (fun x => x.id != d.pkt) && p d.version d.tag).length

/-- Whether a copy in a VOQ leaves this device by its own egress: it goes to this device, or to a group with a member here (R374). -/
def State.bound (s : State) (q : Nat) (c : Copy) : Bool :=
  let rec_ := c.carried % 2 ^ 64
  if fwdMcast rec_ then (s.memberDevices (fwdGroup rec_) c.tag).contains s.self else voqDevice q == s.self

/-- Copies reassembled and not yet queued, by version and tag. -/
def State.readyOld (s : State) (p : Nat → Nat → Bool) : Nat :=
  sumOf (fun (e : Nat × InStream) => (e.2.ready.filter fun x =>
    let tag := s.copyTag (inSource e.1) x.1
    p (s.slotAt tag).1 tag).length) (s.fab.ins.filter fun e => e.1 < 512 || inIsGroup e.1)

/-- The packets of the egress path (R86, condition 2): copies in egress queues, packets in egress stages and MAC queues, copies on their
way to this device's egress, those reassembled. -/
def State.egressOld (s : State) (p : Nat → Nat → Bool) : Nat :=
  (s.fd.pkts.filter fun x => x.egress && p x.version x.tag).length + s.readyOld p +
  sumOf (fun (e : Nat × Queue) =>
    if voqs ≤ e.1 then ((e.2.ondie ++ e.2.hbm ++ e.2.res).filter fun c => p c.version c.tag).length
    else ((e.2.ondie ++ e.2.hbm ++ e.2.res).filter fun c => s.bound e.1 c && p (s.slotAt c.tag).1 c.tag).length) s.buf.queues

/-- The packets of this device's TD and egress (R132): those of the egress path, and copies in VOQs to other devices. -/
def State.tdOld (s : State) (p : Nat → Nat → Bool) : Nat :=
  s.egressOld p +
  sumOf (fun (e : Nat × Queue) =>
    if voqs ≤ e.1 then 0
    else ((e.2.ondie ++ e.2.hbm ++ e.2.res).filter fun c => !s.bound e.1 c && p (s.slotAt c.tag).1 c.tag).length) s.buf.queues

/-- The source devices whose report does not yet carry a turn or a later one (R86, condition 3): the reachable devices that send
reports. -/
def State.sourcesOld (s : State) (turn : Nat) : Nat :=
  ((List.range 512).filter fun d => d != s.self && s.reachable d && bitAt (s.features d) ftReport &&
    match mget s.fab.reports d with | some r => r.oldest < turn | none => true).length

/-- Whether a table, or the classifier it is a subtable of, is bound to an egress stage of a slot that declares it. -/
def State.boundEgress (s : State) (slots id : Nat) (sub : Option Nat) : Bool :=
  [0, 1].any fun slot => bitAt slots slot &&
    match s.slotRecipe slot with
    | some r => (sectionStages true).any fun k => (r.stage k).bindings.any fun b => b.table == id || some b.table == sub
    | none => false

/-- Whether no packet tagged before a turn can still search a table bound to ingress alone, or to an egress stage (R132). -/
def State.passedTurn (s : State) (turn : Nat) (egress : Bool) : Bool :=
  let old (_v τ : Nat) : Bool := τ < turn
  turn ≤ s.time.turn && s.ingressOld old == 0 && (!egress || (s.tdOld old == 0 && s.sourcesOld turn == 0))

/-- ASM_OVERLAP_CLOSE (R132): the overlap of an associative table closes; the selector flips. -/
def execAsmOverlapClose (t : Nat) (s : State) : Host.Outcome State Fault Refusal :=
  ok (match mget s.tab.asm t with
    | some a =>
      match a.overlap with
      | some c =>
        if s.passedTurn c (s.boundEgress a.slots a.decl.id none) then
          let s := s.setAsm t a.close
          s.wr (R.ASM_TBL_w0_sel t) (1 - s.rd (R.ASM_TBL_w0_sel t))
        else s
      | none => s
    | none => s)

/-- EXM_OVERLAP_CLOSE (R150, R151): the overlap of an exact-match table, with the subtables that share it. -/
def execExmOverlapClose (t : Nat) (s : State) : Host.Outcome State Fault Refusal :=
  ok (match mget s.tab.exm t with
    | some a =>
      match a.overlap with
      | some c =>
        if s.passedTurn c (s.boundEgress a.slots a.decl.id (a.d.subOf.map (·.1))) then
          s.each (s.overlapGroup t) fun e s =>
            match mget s.tab.exm e.1 with
            | some x => s.setExm e.1 x.close
            | none => s
        else s
      | none => s
    | none => s)

/-- The RETIRING slot. -/
def State.retiring (s : State) : Option Nat :=
  if s.slotState 0 = slRetiring then some 0 else if s.slotState 1 = slRetiring then some 1 else none

/-- The turn of the last activation (R91). -/
def State.actTurn (s : State) : Nat := s.rd64 R.FWS_RCP_ACT_TURN_LO_turn_lo R.FWS_RCP_ACT_TURN_HI_turn_hi

/-- RECIPE_SLOT_RELEASE (R86): once the conditions hold together the RETIRING slot is EMPTY and its contents are freed; the reservation
stays with the active slot's tables. -/
def execRecipeSlotRelease (s : State) : Host.Outcome State Fault Refusal :=
  ok (match s.retiring with
    | none => s
    | some slot =>
      let own (v _τ : Nat) : Bool := v == slot
      if s.ingressOld own == 0 && s.egressOld own == 0 && s.sourcesOld s.actTurn == 0 then
        let s := (s.freeSlot slot).unreserve slot
        let s := s.wr64 R.FWS_RCP_REL_TURN_LO_turn_lo R.FWS_RCP_REL_TURN_HI_turn_hi s.time.turn
        s.setSlot slot slEmpty
      else s)

end Sys2Proof.Machine
end

