-- ==== Sys2Proof/Machine/Window.lean ====
section
/-!
DEFINITION. Machine/Window.lean: the BAR2 window over exact-match buckets, bucket locks, and the shadow compare (R162 to R166,
R439).
-/

namespace Sys2Proof.Machine

/-! ### The window -/

/-- What a BAR2 address of a function shows: table index, table, copy, bucket, offset in the bucket's image (R162). -/
structure Win where
  index  : Nat
  table  : ExmTable
  copy   : Nat
  bucket : Nat
  off    : Nat
  deriving DecidableEq, Repr

/-- The window of a function at an address, where EXM_WIN_f names a table in use and the bucket exists (R162). -/
def State.window (s : State) (fn addr : Nat) : Option Win :=
  let i := s.rd (R.EXM_WIN_table fn)
  match mget s.tab.exm i with
  | none => none
  | some t =>
    let b := s.rd (R.EXM_WIN_BASE_bucket fn) + addr / t.d.stride
    if bitAt t.slots (s.rd (R.EXM_WIN_slot fn)) && b < t.d.buckets + 32 then
      some ⟨i, t, t.copyOf (s.rd (R.EXM_WIN_pipeline fn)), b, addr % t.d.stride⟩
    else none

/-- The window address at which a function sees a bucket. -/
def State.windowAddr (s : State) (fn : Nat) (t : ExmTable) (bucket : Nat) : Nat :=
  (bucket - s.rd (R.EXM_WIN_BASE_bucket fn)) * t.d.stride

/-- A late-error entry for an access through BAR2. -/
def State.bar2Err (s : State) (fn addr reason : Nat) (isRead : Bool) : State := s.lateErr fn 1 addr reason isRead

/-- The checks of a write through BAR2 (R62, R162, R429, R439): ASM bucket memory is read-only; a table in command mode is not written
here; PF1 needs the table's grant. -/
def State.bar2Write (s : State) (fn addr : Nat) (k : Win → State → State) : State :=
  if !s.answers fn then s
  else
    let s := s.acceptWrite fn
    if !s.clockRuns (blockBit (R.EXM_WIN 0)) then s.bar2Err fn addr leGated false
    else if s.rd (R.HAC_BAR2_SEL_target fn) = 1 then s.bar2Err fn addr leWrongState false
    else
      match s.window fn addr with
      | none => s
      | some w =>
        if fn = 1 ∧ !s.on (grantExm w.index) then (s.secLog secRight fn addr 0 none).bar2Err fn addr leRefused false
        else if w.table.d.hbm && s.tdDown then s.bar2Err fn addr lePeerReset false
        else if !w.table.decl.dma then s.bar2Err fn addr leWrongState false
        else k w s

/-- The lock of a bucket. -/
def Win.lock (w : Win) : Option ELock := w.table.locks.find? fun l => l.copy == w.copy && l.bucket == w.bucket

/-- A bucket locked to a function (R163): lock_seq advances, the staging copy is the bucket as it stands. -/
def Win.take (w : Win) (fn now : Nat) : ExmTable :=
  let key := cellAt w.copy w.bucket 0
  let seq := (sread (fun _ => 0) w.table.lockSeq key + 1) % 2 ^ 32
  let t := { w.table with lockSeq := mput w.table.lockSeq key seq }
  { t with locks := t.locks ++ [⟨w.copy, w.bucket, fn, now, t.image w.copy w.bucket, none⟩] }

/-- A lock replaced, or removed with none. -/
def ExmTable.setLock (t : ExmTable) (l : ELock) (new : Option ELock) : ExmTable :=
  { t with locks := match new with
      | some x => t.locks.map fun y => if y = l then x else y
      | none => t.locks.erase l }

/-- BUCKET_LOCK (R163): lock = 1 in the trigger word of a bucket. -/
def execBucketLock (fn addr be : Nat) (s : State) : Host.Outcome State Fault Refusal :=
  ok (s.bar2Write fn addr fun w s =>
    if w.off != 16 then s
    else if be != 15 then s.bar2Err fn addr leNarrowTrigger false
    else if w.lock.isSome then s.bar2Err fn addr leLockHeld false
    else if 64 ≤ w.table.locks.length then s.bar2Err fn addr leLockLimit false
    else s.setExm w.index (w.take fn s.time.elapsed))

/-- A staging copy with a write merged in (R162, R163): slot metadata and slot data are writable, the rest of entry 0 is not. -/
def mergeStaging (img : List Byte) (off : Nat) (data : List Byte) : List Byte :=
  (overlay (overlay img off data) 16 (slice img 16 48)).take img.length

/-- A write of PF0 through BAR2 in recovery mode: the first 64 MiB are the download window (R538). -/
def State.windowWrite (s : State) (fn addr : Nat) (data : List Byte) : State :=
  if !s.answers fn then s
  else
    let s := s.acceptWrite fn
    if 2 ^ 26 < addr + data.length then s
    else s.fillWindow addr data

/-- A write of bytes through BAR2 by a function (R163 to R165): to a bucket, or in recovery mode to the download window (R538, R539). -/
def State.bucketWrite (s : State) (fn addr : Nat) (data : List Byte) : State :=
  if s.svc.recovery then s.windowWrite fn addr data
  else s.bar2Write fn addr fun w s =>
    match w.lock with
    | some l =>
      if l.owner != fn || l.commit.isSome then s.bar2Err fn addr leLockHeld false
      else s.setExm w.index (w.table.setLock l (some { l with staging := mergeStaging l.staging w.off data }))
    | none =>
      if data.length != 64 || w.off % 64 != 0 then s.bar2Err fn addr leInvalid false
      else if 64 ≤ w.table.locks.length then s.bar2Err fn addr leLockLimit false
      else
        let t := w.take fn s.time.elapsed
        let locks := t.locks.map fun l =>
          if l.copy = w.copy ∧ l.bucket = w.bucket then
            { l with staging := mergeStaging l.staging w.off data, commit := some (s.time.turn + 1) } else l
        s.setExm w.index { t with locks := locks }

/-- BUCKET_STAGING_WRITE (R163): the owner's write merges into the staging copy; the other function's is logged. -/
def execBucketStagingWrite (fn addr : Nat) (data : List Byte) (s : State) : Host.Outcome State Fault Refusal :=
  ok (s.bucketWrite fn addr data)

/-- BUCKET_ENTRY_WRITE (R165): a whole entry written to an unlocked bucket acts as lock, write and commit; a part of one is refused. -/
def execBucketEntryWrite (fn addr : Nat) (data : List Byte) (s : State) : Host.Outcome State Fault Refusal :=
  ok (s.bucketWrite fn addr data)

/-- A write of lock = 0 to a bucket's trigger word by its owner (R163). -/
def State.unlock (s : State) (fn addr be : Nat) (commit : Bool) : State :=
  s.bar2Write fn addr fun w s =>
    if w.off != 16 then s
    else if be != 15 then s.bar2Err fn addr leNarrowTrigger false
    else
      match w.lock with
      | none => s.bar2Err fn addr leInvalid false
      | some l =>
        if l.owner != fn || l.commit.isSome then s.bar2Err fn addr leLockHeld false
        else s.setExm w.index (w.table.setLock l (if commit then some { l with commit := some (s.time.turn + 1) } else none))

/-- BUCKET_UNLOCK_COMMIT (R163): lock = 0 with commit = 1; the staging copy is published at the next turn boundary. -/
def execBucketUnlockCommit (fn addr be : Nat) (s : State) : Host.Outcome State Fault Refusal := ok (s.unlock fn addr be true)

/-- BUCKET_UNLOCK_DISCARD (R163): lock = 0 with commit = 0; the staging copy is discarded at once. -/
def execBucketUnlockDiscard (fn addr be : Nat) (s : State) : Host.Outcome State Fault Refusal := ok (s.unlock fn addr be false)

/-- BUCKET_LOCK_EXPIRE (R163): a lock not ended within 100 us is discarded, logged at its window address and counted, with an ERR
event. -/
def execBucketLockExpire (i copy bucket : Nat) (s : State) : Host.Outcome State Fault Refusal :=
  ok (match mget s.tab.exm i with
    | none => s
    | some t =>
      match t.locks.find? fun l => l.copy == copy && l.bucket == bucket with
      | some l =>
        if s.time.elapsed < l.start + 100000 then s
        else
          let s := s.setExm i (t.setLock l none)
          let s := s.bar2Err l.owner (s.windowAddr l.owner t bucket) leLockExpired false
          (s.bump R.EXM_LOCK_EXPIRED_count).event sevErr R.EXM_LOCK_EXPIRED
      | none => s)

/-- The committed staging copies published at the boundary that begins a turn (R163), for packets tagged from then on; what stood
there before is kept while an earlier packet can still look it up. -/
def State.publishBuckets (s : State) (turn : Nat) : State :=
  s.each s.tab.exm fun e s =>
    match mget s.tab.exm e.1 with
    | none => s
    | some t =>
      let due := t.locks.filter fun l => match l.commit with | some c => c ≤ turn | none => false
      let live := t.past.filter fun x => s.fd.pkts.any fun p => !p.egress && p.tag < x.turn
      let t' := due.foldl (fun t l =>
        let old := t.cells.filter fun c => cellCopy c.1 == l.copy && cellBucket c.1 == l.bucket
        let t := t.ofImage l.copy l.bucket l.staging
        let t := { t with bad := t.bad.filter fun a => cellCopy a != l.copy || cellBucket a != l.bucket }
        { t.setLock l none with past := t.past ++ [⟨l.copy, l.bucket, turn, old⟩] }) { t with past := live }
      if t' = t then s else s.putExm e.1 t'

/-- Whether a 64-byte entry of the ASM bucket memory holds an uncorrectable word (R139, R315). -/
def State.blockPoison (s : State) (a : Nat) : Bool :=
  let b := a / 256
  s.tab.asm.any fun e =>
    let v6 := e.2.type == .lpm6
    let n := if v6 then 16 else 8
    e.2.ents.any fun h => h.head && h.block ≤ b && b < h.block + asmUnits e.2.type && (List.range (64 / n)).any fun k =>
      2 ≤ worstFlips (n / 8) (s.upset .slot (h.block * 64 + (a - h.block * 256) / n + k))

/-- BAR2_READ (R124, R162, R163, R315, R439): a 64-byte entry, atomically; the owner of a lock reads its staging copy; with target 1 it is
part of a block of the ASM bucket memory. An uncorrectable word, found in the words of the State or by `poison`, is a Completer Abort with
reason POISON. -/
def execBar2Read (fn addr : Nat) (poison : Bool) (s : State) : Host.Outcome State Fault Refusal :=
  let a := addr / 64 * 64
  ok (if !s.answers fn then s
    else if !s.clockRuns (blockBit (R.EXM_WIN 0)) then (s.bar2Err fn addr leGated true).emit (.abort fn)
    else if poison then ((s.bump R.MIF_POISON_CONSUMED_count).bar2Err fn addr lePoison true).emit (.abort fn)
    else if s.rd (R.HAC_BAR2_SEL_target fn) = 1 then
      if s.blockPoison a then ((s.bump R.MIF_POISON_CONSUMED_count).bar2Err fn addr lePoison true).emit (.abort fn)
      else s.emit (.read fn (leNat (slice (blockBytes s.tab.asm (a / 256)) (a % 256) 64)))
    else
      match s.window fn a with
      | none => s.emit (.read fn 0)
      | some w =>
        if fn = 1 ∧ !s.on (grantExm w.index) then
          let s := s.secLog secRight fn addr 0 none
          { s with host := { s.host with refusing := s.host.refusing ++ [⟨1, s.time.elapsed + 5000, none⟩] } }
        else if w.table.d.hbm && s.tdDown then (s.bar2Err fn addr lePeerReset true).emit (.abort fn)
        else
          let r := if w.lock.any fun l => l.owner == fn then (false, s) else s.readBucket w.table w.copy w.bucket
          let s := r.2
          if r.1 then ((s.bump R.MIF_POISON_CONSUMED_count).bar2Err fn addr lePoison true).emit (.abort fn) else
          let img := match w.lock with
            | some l =>
              let live := w.table.image w.copy w.bucket
              if l.owner = fn then overlay l.staging 16 (slice live 16 48) else live
            | none => w.table.image w.copy w.bucket
          s.emit (.read fn (leNat (slice img w.off 64))))

/-! ### Shadow compare -/

/-- SHADOW_COMPARE_START (R166, R168): start is ignored while a compare runs, and reads 1 until its
end (notes/assumptions/145.md). The source, the output and the buckets must be there. -/
def execShadowCompareStart (fn be val : Nat) (s : State) : Host.Outcome State Fault Refusal :=
  let a := R.EXM_CMP_CTRL
  ok (s.hostWrite fn a be true fun s =>
    if s.on R.EXM_CMP_STATUS_busy then s.mergeReg a (val - val % 2) be
    else
      let s := s.mergeReg a (val - val % 2) be
      let i := s.rd R.EXM_CMP_CTRL_table
      match mget s.tab.exm i with
      | none => s.lateErr fn 0 a leBadValue false
      | some t =>
        let first := s.rd R.EXM_CMP_FIRST_bucket
        let count := s.rd R.EXM_CMP_COUNT_buckets
        let excl := s.on R.EXM_CMP_CTRL_exclude_learned
        if val % 2 = 0 then s
        else if !bitAt t.slots (s.rd R.EXM_CMP_CTRL_slot) || t.d.buckets + 32 < first + count then s.lateErr fn 0 a leBadValue false
        else if fn = 1 ∧ !s.on (grantExm i) then (s.secLog secRight fn a 0 none).lateErr fn 0 a leRefused false
        else if !s.inWindow fn (s.pairAt R.EXM_CMP_SRC_LO) (count * t.d.stride) ||
            !s.inWindow fn (s.pairAt R.EXM_CMP_OUT_LO) (16 * s.rd R.EXM_CMP_OUT_LEN_records) then
          (s.secLog secWindow fn (s.pairAt R.EXM_CMP_SRC_LO) 0 none).lateErr fn 0 a leRefused false
        else
          let copy := if excl then 0 else t.copyOf (s.rd R.EXM_CMP_CTRL_pipeline)
          let job : CmpJob := ⟨fn, i, copy, excl, first, count⟩
          { (s.wr R.EXM_CMP_STATUS_busy 1).wr R.EXM_CMP_CTRL_start 1 |>.wr R.EXM_CMP_DIFFS_count 0 with tab := { s.tab with compare := some job } })

/-- What a slot of an image says, as the compare sees it (R166): state, static bit and data; nothing for a learned one when only static
entries are compared. An emptied slot of the device holds zeros (notes/assumptions/174.md). -/
def imageSlot (d : ExmDecl) (img : List Byte) (k : Nat) (onlyStatic : Bool) : Option (Nat × Bool × Nat) :=
  let m := leAt img (4 * k) 4
  if onlyStatic ∧ !bitAt m 3 then none
  else some (m % 8, bitAt m 3, leAt img (64 + d.width / 8 * k) (d.width / 8))

/-- The record of one bucket where it differs from the shadow (R166). -/
def ExmTable.compareBucket (t : ExmTable) (j : CmpJob) (b turn : Nat) (shadow : List Byte) : Option (List Byte) :=
  let img := t.image j.copy b
  let diff := bitsWhere 4 fun k => imageSlot t.d img k j.static != imageSlot t.d shadow k j.static
  let busy := t.locked j.copy b || (bucketCells j.copy b).any fun a =>
    match mget t.cells a with | some c => 2 ≤ c.state | none => false
  if diff = 0 then none
  else some (leBytes 4 b ++ [BitVec.ofNat 8 (diff + 16 * bit01 busy), 0, 0, 0] ++ leBytes 8 turn)

/-- SHADOW_COMPARE_DONE (R166): the compare has read the host's shadow image `shadow`. A record for each differing bucket goes to the
output buffer; when it is full the engine stops with overflow. -/
def execShadowCompareDone (shadow : List Byte) (s : State) : Host.Outcome State Fault Refusal :=
  ok (match s.tab.compare with
    | none => s
    | some j =>
      let s := { s with tab := { s.tab with compare := none } }
      let s := (s.wr R.EXM_CMP_STATUS_busy 0).wr R.EXM_CMP_CTRL_start 0
      match mget s.tab.exm j.table with
      | none => s.wr R.EXM_CMP_STATUS_done 1
      | some t =>
        let recs := (List.range j.count).filterMap fun k =>
          t.compareBucket j (j.first + k) s.time.turn (slice shadow (k * t.d.stride) t.d.stride)
        let room := s.rd R.EXM_CMP_OUT_LEN_records
        let out := recs.take room
        let s := s.emit (.dma j.fn (s.pairAt R.EXM_CMP_OUT_LO) out.flatten)
        let s := s.wr R.EXM_CMP_DIFFS_count out.length
        if room < recs.length then s.wr R.EXM_CMP_STATUS_overflow 1 else s.wr R.EXM_CMP_STATUS_done 1)

end Sys2Proof.Machine
end

