-- ==== Sys2Proof/Machine/Boundary.lean ====
section
/-!
DEFINITION. Machine/Boundary.lean: the turn boundary: scheduled events fire (R50), commits are verified (R226), what started becomes UP
(R29, R114, R334, R400), learned entries and bucket images are published (R153, R163), turns are classified (R352); and the passing of
one nanosecond in which nothing is commanded.
-/

namespace Sys2Proof.Machine

/-! ### The order of events (R50) -/

/-- Whether an event comes before another at one boundary: by turn, then by the row of R49; events of one kind stay in the order of their
acceptance. -/
def eventBefore (x y : SlotEv) : Bool := x.turn < y.turn || (x.turn == y.turn && x.ev.kind < y.ev.kind)

/-- An event put into an ordered list, behind those it does not come before. -/
def insertEvent (x : SlotEv) : List SlotEv → List SlotEv
  | [] => [x]
  | y :: l => if eventBefore x y then x :: y :: l else y :: insertEvent x l

/-- Events in the order in which they fire. -/
def inOrder (l : List SlotEv) : List SlotEv := l.foldl (fun a x => insertEvent x a) []

/-! ### Firing -/

/-- The activation of a slot (R83, R89, R91): the ACTIVE slot becomes RETIRING, the new one ACTIVE, and keeps its
reservation (R81, R86); the service stage follows. -/
def State.fireRecipe (s : State) (slot : Nat) (x : SlotEv) : State :=
  let old := 1 - slot
  let retires := s.slotState old == slActive
  let s := s.onlyIf retires fun s => s.setSlot old slRetiring
  let s := (s.setSlot slot slActive).wr R.FWS_RCP_STATUS_active_slot slot
  let s := s.wr64 R.FWS_RCP_ACT_TURN_LO_turn_lo R.FWS_RCP_ACT_TURN_HI_turn_hi x.turn
  let s : State := ({ s with recipe := { s.recipe with acts := (x.turn, slot) :: s.recipe.acts.take 1 } }.unreserve old).actSync
  match x.cmd with
  | some c => s.complete c stDone
  | none => s.wr R.GLB_SERVICE_autostart_ok 1

/-- One event at its boundary (R49, R50); `k` is its place among those of the boundary. A Dice unit's slot holds its whole window. -/
def State.fireEvent (s : State) (k : Nat) (x : SlotEv) : State :=
  match x.ev with
  | .txnCommit h => (s.schedFree x).fireCommit h x.turn k x.cmd
  | .recipe slot => (s.schedFree x).fireRecipe slot x
  | .firmware bank ucode revert => (s.schedFree x).fireFirmware x bank ucode revert
  | .snapshot buf => (s.schedFree x).openSnap buf
  | .pmu resume _ => (s.schedFree x).firePmu resume
  | .holdStart e => s.fireHoldStart x e
  | .holdStop e => s.fireHoldStop x e
  | .dice u => s.diceStart u
  | .tsiSwap => s.fireTsi x

/-- Whether an event fires at a boundary that begins turn `n`. -/
def State.due (s : State) (n : Nat) (x : SlotEv) : Bool :=
  x.turn ≤ n && match x.ev with | .dice u => s.rd (R.DICE_STATUS_state u) == diScheduled | _ => true

/-- The events of a boundary fired in their order. -/
def State.fireAll (s : State) (n : Nat) : State :=
  let l := inOrder (s.sched.filter fun x => s.due n x)
  s.each (List.range l.length) fun k s =>
    match l[k]? with
    | some x => if s.sched.contains x then s.fireEvent k x else s
    | none => s

/-- Dice windows whose last turn has ended (R392): what they hold back goes on its way. -/
def State.endDice (s : State) (n : Nat) : State :=
  s.each s.sched fun x s =>
    match x.ev with
    | .dice u =>
      if s.rd (R.DICE_STATUS_state u) = diRunning && s.diceLast u < n then
        let r := (s.schedFree x).diceEnd u
        if u < 0x8000000 then r.2.sendHeld r.1
        else if u < diceGroup 0 then r.2.emitCells ((u - diceLink 0) / 0x40) r.1
        else r.2.unitsBack r.1
      else s
    | _ => s

/-! ### Turn counts (R352) -/

/-- The counter slot of a queue at the start of a turn, 0 for none: VOQs 12 without credit, 14 ready; egress queues 12 paused, 13 over a
peak rate on their path, 14 eligible. A held VOQ has none. -/
def State.turnClass (s : State) (q : Nat) (x : Queue) : Nat :=
  match x.head with
  | none => 0
  | some c =>
    if q < voqs then
      if s.voqHeld q then 0
      else if x.balance < s.copyCost q c then 12
      else if x.lc == lcUp || x.lc == lcDraining then 14
      else 0
    else
      let i := q - voqs
      match s.pathUp 4 i with
      | none => 0
      | some path =>
        let port := (path.getLast?.map (·.2)).getD 0
        if s.queuePaused port i then 12
        else if path.any fun e => !s.peakOk e.1 e.2 then 13
        else if x.lc == lcUp || x.lc == lcDraining then 14
        else 0

/-- The turn just ended counted for each queue: at most one count, starved only where no copy was dequeued (R352). -/
def State.countTurns (s : State) (ended : Nat) : State :=
  s.each s.buf.queues fun e s =>
    if e.2.turnClass = 0 ∨ (e.2.turnClass = 14 ∧ e.2.served) then s else s.countQueue e.1 e.2.turnClass 1 0 ended

/-- The queues' classes at the start of the new turn. -/
def State.classify (s : State) : State :=
  s.each s.buf.queues fun e s => s.setQueue e.1 { s.queue e.1 with turnClass := s.turnClass e.1 e.2, served := false }

/-! ### What becomes UP -/

/-- STARTING queues are UP: copies tagged in the new turn or later are accepted; the buckets of an egress queue are full (R334). -/
def State.queuesUp (s : State) (n : Nat) : State :=
  s.each (s.buf.queues.filter fun e => e.2.lc == lcStarting) fun e s =>
    let s := (s.setQueue e.1 { s.queue e.1 with upFrom := n }).setQueueLc e.1 lcUp
    s.onlyIf (voqs ≤ e.1) fun s => s.fillBuckets 4 (e.1 - voqs)

/-- STARTING pattern sets are UP (R114). -/
def State.setsUp (s : State) : State :=
  s.each (List.range 8) fun i s =>
    s.onlyIf (s.rd (R.PRS_SET_LC_state i) == lcStarting) fun s => s.setLc (R.PRS_SET_LC i) lcUp

/-- Pipelines that are UP again take back their lanes, whose FIFOs wait until the buddy has none of their packets left (R29). -/
def State.lanesBack (s : State) : State :=
  s.each (List.range 8) fun pl s =>
    if s.pipeUp pl && s.on (R.PPL_STATUS_lanes_moved pl) then
      let s := ((s.wr (R.PPL_STATUS_lanes_moved pl) 0).wr (R.PPL_STATUS_serving_buddy (buddy pl)) 0).wr
        (R.PPL_STATUS_retire_cause pl) 0
      { s with fd := { s.fd with returning := s.fd.returning ++ [pl] } }
    else s

/-! ### The boundary -/

/-- The machine-check counts of the turn begin again (R195, R201). -/
def State.clearChecks (s : State) : State :=
  s.each (List.range 8) fun pl s => s.each (List.range 36) fun k s => s.wr (R.PPL_MC_TURN_count pl k) 0

/-- Commits verified (R226): those whose turn follows the one that begins; `causes` names the handles for which the hardware found a
fault. -/
def State.verifyAll (s : State) (n : Nat) (causes : List (Nat × Nat)) : State :=
  s.each s.sched fun x s =>
    match x.ev with
    | .txnCommit h => s.verifyCommit h n ((causes.find? fun c => c.1 == h).map (·.2) |>.getD 0)
    | _ => s

/-- The boundary that ends the turn held, when system time has reached a later one (R41, R50). -/
def State.boundary (s : State) (causes : List (Nat × Nat)) : State :=
  let ended := s.time.turn
  let n := s.turnOf s.time.sysNs
  if n = ended then s
  else
    let s := s.onlyIf (!s.tdDown) fun s => s.countTurns ended
    let s : State := { s with tab := { s.tab with ageTurns := s.tab.ageTurns + 1 } }
    let s := if n = ended + 1 then { s with time := { s.time with turn := n } } else s.markTurn n
    let s := ((s.clearChecks).endDice n).verifyAll n causes
    let s := ((s.fireAll n).publishLearns n).publishBuckets n
    let s := s.onlyIf s.svc.coreRun fun s => ((s.each (List.range 128) fun p s => s.portUp p).setsUp).lanesBack
    s.onlyIf (!s.tdDown) fun s => (((s.queuesUp n).auditBoundary).holdBoundary).classify

/-- The reference nanoseconds until the next turn boundary. -/
def State.nsToBoundary (s : State) : Nat := s.nsUntil ((s.time.turn + 1) * 2 ^ s.turnLog)

/-- TURN_BOUNDARY (R41, R50, R226): time passes up to the next turn boundary, and what happens there happens. -/
def execTurnBoundary (causes : List (Nat × Nat)) (s : State) : Host.Outcome State Fault Refusal :=
  let n := s.nsToBoundary
  ok (if s.stopped then s else ((s.pass n).cycles n).boundary causes)

/-- One nanosecond in which nothing is commanded (notes/assumptions/6.md): time and the cycle counts move on, and a turn boundary it reaches
happens, with nothing found wrong by its checks. -/
def State.tick (s : State) : State :=
  if s.stopped then s.pass 1 else ((s.pass 1).cycles 1).boundary []

end Sys2Proof.Machine
end

