-- ==== Sys2Proof/Machine/Credit.lean ====
section
/-!
DEFINITION. Machine/Credit.lean: the credit loop (R369 to R372): exchange sets, demand, credit generators, returns.
-/

namespace Sys2Proof.Machine

/-- A request or grant entry of an exchange set (R370). -/
def exchEntry (port tc : Nat) (ret : Bool) (units : Nat) : Nat :=
  port + tc * 2 ^ 7 + bit01 ret * 2 ^ 10 + min units 16383 * 2 ^ 16
def enPort (e : Nat) : Nat := bitsAt e 0 7
def enTc (e : Nat) : Nat := bitsAt e 7 3
def enReturn (e : Nat) : Bool := bitAt e 10
def enUnits (e : Nat) : Nat := bitsAt e 16 14

/-- A VOQ's demand in units (R369). A held VOQ requests no credit (R292). -/
def State.demandOf (s : State) (q : Nat) : Nat :=
  let x := s.queue q
  if s.voqHeld q then 0
  else
    let want := x.bytes + x.copies * (if voqDevice q = s.self || s.timed (voqDevice q) then 24 else 16)
    min 16383 (ceilDiv (want - x.balance) 2048)

/-- The key of a (port, class, source). -/
def grantKey (port tc src : Nat) : Nat := (port * 8 + tc) * 512 + src

/-- Units handed back by a source: made again, and no longer outstanding (R370). -/
def State.unmake (s : State) (port tc src units : Nat) : State :=
  let k := grantKey port tc src
  let left := sread (fun _ => 0) s.fab.granted k - 2048 * units
  let g := sread (fun _ => ⟨0, 0, false⟩) s.fab.gens port
  let g := { g with made := g.made + 1638400000 * units }
  { s with fab := { s.fab with granted := swrite (fun _ => 0) s.fab.granted k left, gens := mput s.fab.gens port g } }

/-- The entries of an exchange cell's payload (R370): requests, then grants. -/
def exchEntries (b : List Byte) : List Nat × List Nat :=
  let nr := leAt b 12 2
  let ng := leAt b 14 2
  ((List.range nr).map fun i => leAt b (16 + 4 * i) 4, (List.range ng).map fun i => leAt b (16 + 4 * (nr + i)) 4)

/-- The returns and grants of an exchange cell that is not sent put back, since a newer set replaces it (R380). -/
def State.unsend (s : State) (d : Nat) (b : List Byte) : State :=
  let e := exchEntries b
  let s := s.each (e.1.filter enReturn) fun w s =>
    let q := voqOf d (enPort w) (enTc w)
    { s with fab := { s.fab with returns := mput s.fab.returns q (sread (fun _ => 0) s.fab.returns q + enUnits w) } }
  s.each e.2 fun w s =>
    let k := d * 1024 + enPort w * 8 + enTc w
    { s with fab := { s.fab with grants := mput s.fab.grants k (sread (fun _ => 0) s.fab.grants k + enUnits w) } }

/-- The exchange cells for a device that have not been sent taken back (R380). -/
def State.recall (s : State) (d : Nat) : State :=
  let mine (m : CtlMsg) : Bool := m.kind == ceExchange && m.dest == d
  let waiting := (s.fab.outbox.filter mine) ++ s.fab.links.flatMap fun e => e.2.ctl.filter mine
  let links : Sparse LinkSt := s.fab.links.map fun e => (e.1, { e.2 with ctl := e.2.ctl.filter fun m => !mine m })
  let s := { s with fab := { s.fab with outbox := s.fab.outbox.filter fun m => !mine m, links := links } }
  s.each waiting fun m s => s.unsend d m.body

/-- Lists of at most `n` elements. -/
def chunks {α : Type} (n : Nat) : Nat → List α → List (List α)
  | 0, _ => []
  | k + 1, l => if l.isEmpty then [] else l.take n :: chunks n k (l.drop n)

/-- EXCHANGE_SET_SEND (R87, R365, R369, R370, R380): the exchange set for a reachable device, every 2 us: the tag report, the demand and
the returns of its VOQs, the grants to it. -/
def execExchangeSetSend (d : Nat) (s : State) : Host.Outcome State Fault Refusal :=
  ok (if 512 ≤ d || !s.reachable d || s.tdDown || s.time.elapsed < sread (fun _ => 0) s.fab.exchAt d then s
    else
      let s := s.recall d
      let voq := (s.buf.queues.filter fun e => e.1 < voqs && voqDevice e.1 == d).map (·.1)
      let dem := voq.filterMap fun q => let n := s.demandOf q; if n = 0 then none else some (exchEntry (voqPort q) (q % 8) false n)
      let ret := (s.fab.returns.filter fun e => voqDevice e.1 == d && e.2 != 0).map fun e => exchEntry (voqPort e.1) (e.1 % 8) true e.2
      let grant := (s.fab.grants.filter fun e => e.1 / 1024 == d && e.2 != 0).map fun e => exchEntry (e.1 / 8 % 128) (e.1 % 8) false e.2
      let gen := (s.ctlSet d).foldl (fun m l => min m (s.linkGen l)) 2
      let room := (cellMax gen - 16) / 4
      let all := ((ret ++ dem).map fun e => (true, e)) ++ grant.map fun e => (false, e)
      let cells := if all.isEmpty then [[]] else chunks room (all.length + 1) all
      let seq := (s.outStream d).seq
      let oldest := s.oldestToward d
      let s := { s with fab := { s.fab with returns := s.fab.returns.filter fun e => voqDevice e.1 != d,
                                            grants := s.fab.grants.filter fun e => e.1 / 1024 != d,
                                            exchAt := mput s.fab.exchAt d (s.time.elapsed + 2000) } }
      let body (i : Nat) (c : List (Bool × Nat)) : List Byte :=
        let nr := (c.filter (·.1)).length
        leBytes 8 oldest ++ leBytes 3 seq ++ [BitVec.ofNat 8 (bit01 (i == 0))] ++ leBytes 2 nr ++ leBytes 2 (c.length - nr) ++
          c.flatMap fun e => leBytes 4 e.2
      let ms : List CtlMsg := (List.range cells.length).map fun i => ⟨d, 5, ceExchange, body i (cells.getD i [])⟩
      { s with fab := { s.fab with outbox := s.fab.outbox ++ ms } })

/-- EXCHANGE_SET_RECEIVE (R87, R292, R369, R370): the oldest exchange cell received from a device: its tag report waits to be applied,
its requests and returns reach the generators, its grants the VOQs. A held VOQ hands a grant back. -/
def execExchangeSetReceive (src : Nat) (s : State) : Host.Outcome State Fault Refusal :=
  ok (match s.takeMsg fun m => m.src == src && m.kind == 0x100 with
    | none => s
    | some (m, s) =>
      if 512 ≤ src then s
      else
        let b := m.body
        let e := exchEntries b
        let s := if bitAt (byteAt b 11) 0 then
            { s with fab := { s.fab with waiting := mput s.fab.waiting src ⟨leAt b 0 8, leAt b 8 3 % 2 ^ 20⟩ } }
          else s
        let s := s.each e.1 fun w s =>
          if enReturn w then s.unmake (enPort w) (enTc w) src (enUnits w)
          else { s with fab := { s.fab with demand := swrite (fun _ => 0) s.fab.demand (grantKey (enPort w) (enTc w) src) (enUnits w) } }
        s.each e.2 fun w s =>
          let q := voqOf src (enPort w) (enTc w)
          let x := s.queue q
          let t := s.setQueue q { x with balance := x.balance + 2048 * enUnits w }
          if s.voqHeld q then t.returnBalance q else t)

/-! ### Generators -/

/-- What a port has granted and not yet received, in bytes. -/
def State.outstanding (s : State) (port : Nat) : Nat :=
  sumOf (fun e => if e.1 / 4096 = port then e.2 else 0) s.fab.granted

/-- The on-die cell bytes of a port's egress queues. -/
def State.portOnDie (s : State) (port : Nat) : Nat :=
  sumOf (fun e => if voqs ≤ e.1 && s.queuePort (e.1 - voqs) == some port then e.2.onDieBytes else 0) s.buf.queues

/-- The three levels of R371 with their limits: bits granted and not received, on-die cell bytes of the port's egress queues, and four
times each pool's egress use. -/
def State.levels (s : State) (port : Nat) : List (Nat × Nat) :=
  [(8 * s.outstanding port, s.portRate port * s.rd R.FAB_CREDIT_CFG_window_us),
   (s.portOnDie port, s.rd R.FAB_CREDIT_CFG_port_stop * 65536)] ++
  (List.range 4).map fun k => (4 * s.egrUse k, 3 * s.rd (R.BPM_POOL_w4_egress_reserve k))

/-- Whether a port's granting stops: a level exceeds its limit (R371). -/
def State.overLimit (s : State) (port : Nat) : Bool := (s.levels port).any fun x => x.2 < x.1

/-- Whether a port that stopped stays so: a level has not fallen below half its limit (R371); an empty one has. -/
def State.overHalf (s : State) (port : Nat) : Bool := (s.levels port).any fun x => x.1 != 0 && x.2 ≤ 2 * x.1

/-- The demand of a source for a port and class: what it has stated, or for the device itself what its VOQ has (R372). -/
def State.demandAt (s : State) (port tc src : Nat) : Nat :=
  if src = s.self then s.demandOf (voqOf src port tc) else sread (fun _ => 0) s.fab.demand (grantKey port tc src)

/-- The sources with demand for a port and class. -/
def State.wanting (s : State) (port tc : Nat) : List Nat :=
  let far := (s.fab.demand.filter fun e => e.1 / 512 == port * 8 + tc && e.2 != 0 && e.1 % 512 != s.self && s.reachable (e.1 % 512)).map
    fun e => e.1 % 512
  if s.demandOf (voqOf s.self port tc) = 0 then far else s.self :: far

/-- The next source after `last`, round robin. -/
def nextSource (last : Nat) (l : List Nat) : Option Nat :=
  l.foldl (fun best d =>
    let key (x : Nat) : Nat := (x + 512 - (last + 1) % 512) % 512
    match best with | none => some d | some b => if key d < key b then some d else best) none

/-- A unit granted to a (source, class) pair of a port: the device's own VOQ takes it at once, another's goes with the next exchange
set (R370 to R372). -/
def State.grantUnit (s : State) (port tc src : Nat) : State :=
  let k := grantKey port tc src
  let s := { s with fab := { s.fab with granted := mput s.fab.granted k (sread (fun _ => 0) s.fab.granted k + 2048),
                                        served := mput s.fab.served (port * 8 + tc) src } }
  let s := s.pmuAs 1 0x122 15 63 1 false false
  if src = s.self then
    let q := voqOf src port tc
    s.setQueue q { s.queue q with balance := (s.queue q).balance + 2048 }
  else
    let g := src * 1024 + port * 8 + tc
    { s with fab := { s.fab with grants := mput s.fab.grants g (sread (fun _ => 0) s.fab.grants g + 1),
                                 demand := swrite (fun _ => 0) s.fab.demand k (sread (fun _ => 0) s.fab.demand k - 1) } }

/-- CREDIT_GENERATE (R371, R372): a port's generator makes units at the port's rate x rate_pct, holding at most one, and grants one to the
pair whose turn it is: class 7 first, round robin over the sources of a class. -/
def execCreditGenerate (port : Nat) (s : State) : Host.Outcome State Fault Refusal :=
  ok (if 128 ≤ port || s.tdStill then s
    else
      let g := sread (fun _ => ⟨0, 0, false⟩) s.fab.gens port
      let made := min (max g.made 1638400000)
        (g.made + (s.time.elapsed - g.upTo) * s.portRate port * s.rd R.FAB_CREDIT_CFG_rate_pct)
      let stopped := if g.stopped then s.overHalf port else s.overLimit port
      let s := { s with fab := { s.fab with gens := mput s.fab.gens port ⟨made, s.time.elapsed, stopped⟩ } }
      if stopped || made < 1638400000 then s
      else
        match ([7, 6, 5, 4, 3, 2, 1, 0] : List Nat).findSome? fun tc =>
            (nextSource (sread (fun _ => 511) s.fab.served (port * 8 + tc)) (s.wanting port tc)).map fun d => (tc, d) with
        | none => s
        | some (tc, src) =>
          let s := { s with fab := { s.fab with gens := mput s.fab.gens port ⟨made - 1638400000, s.time.elapsed, stopped⟩ } }
          s.grantUnit port tc src)

/-- VOQ_CREDIT_RETURN (R369, R372): a VOQ that has held no copy for 8 us returns the whole units of its balance. -/
def execVoqCreditReturn (q : Nat) (s : State) : Host.Outcome State Fault Refusal :=
  let x := s.queue q
  ok (if voqs ≤ q || x.copies != 0 || x.balance < 2048 || s.time.elapsed < x.emptyAt + 8000 || s.tdStill then s
    else
      let n := x.balance / 2048
      let s := s.setQueue q { x with balance := x.balance % 2048 }
      if voqDevice q = s.self then s.unmake (voqPort q) (q % 8) s.self n
      else { s with fab := { s.fab with returns := mput s.fab.returns q (sread (fun _ => 0) s.fab.returns q + n) } })

/-- GRANT_FORGIVE (R371): 16 us after a source became unreachable, what it was granted and has not used leaves the outstanding
count. -/
def execGrantForgive (src : Nat) (s : State) : Host.Outcome State Fault Refusal :=
  ok (match mget s.fab.lostAt src with
    | some t =>
      if t + 16000 ≤ s.time.elapsed then
        { s with fab := { s.fab with granted := s.fab.granted.filter (fun e => e.1 % 512 != src),
                                     demand := s.fab.demand.filter (fun e => e.1 % 512 != src),
                                     grants := s.fab.grants.filter (fun e => e.1 / 1024 != src) } }
      else s
    | none => s)

end Sys2Proof.Machine
end

