-- ==== Sys2Proof/Machine/Parser.lean ====
section
/-!
DEFINITION. Machine/Parser.lean: the commands of the parser and the payload scanner (chapter 4, R93 to R115).
-/

namespace Sys2Proof.Machine

/-! ### Parsing -/

/-- PARSE_ACCEPT (R94, R466): the oldest packet of a port's FIFO whose first 512 bytes (or all of it) are there is taken by a
parse engine and counted as received. -/
def execParseAccept (id : Nat) (s : State) : Host.Outcome State Fault Refusal :=
  ok (s.withPkt id fun p s =>
    let p := if (s.pktRecipe p).isNone && s.anyActive then { p with version := if s.slotState 0 = 3 then 0 else 1 } else p
    if p.place != .fifo || p.egress || p.arrived < min 512 p.len || !s.fdOpen || s.fifoHeld p.port || (s.pktRecipe p).isNone ||
        !s.oldestOf p (fun q => q.place == .fifo) then s
    else
      let s := s.setPkt { p with place := .parsing, pipe := s.servedBy p.port, begun := s.time.elapsed }
      s.countAs csPort p.port 0 1 p.len p.tag)

/-- The malformed-packet capture of a pipeline filled, when it is armed (R102). -/
def State.capture (s : State) (p : Packet) (w : Walk) : State :=
  if !s.on (R.PRS_CAP_CTRL_arm p.pipe) then s
  else
    let s := s.wr (R.PRS_CAP_INFO_class p.pipe) w.cls
    let s := s.wr (R.PRS_CAP_INFO_state p.pipe) w.state
    let s := s.wr (R.PRS_CAP_INFO_offset p.pipe) w.off
    let s := s.wr (R.PRS_CAP_INFO_port p.pipe) p.port
    let s := s.wr (R.PRS_CAP_INFO_version p.pipe) p.version
    let s := s.wr64 (R.PRS_CAP_TURN_LO_turn_lo p.pipe) (R.PRS_CAP_TURN_HI_turn_hi p.pipe) p.tag
    let s := s.each (List.range 32) fun i s => s.wr (R.PRS_CAP_DATA_data p.pipe i) (leAt p.bytes (4 * i) 4)
    (s.wr (R.PRS_CAP_CTRL_arm p.pipe) 0).wr (R.PRS_CAP_CTRL_valid p.pipe) 1

/-- Whether a packet with a turn tag searches a pattern set (R114). -/
def State.setServes (s : State) (set τ : Nat) : Bool := inForce (sread (fun _ => []) s.fd.sets set) 0 τ == 1

/-- The scan profile a packet takes from its parse (R99, R100, R103): the terminal state's, or its class's. -/
def Recipe.profileOf (r : Recipe) (w : Walk) : Nat := if w.cls = 0 then w.profile else (r.clsAction w.cls).profile

/-- A parsed packet handed to the scanner complex (R98, R103, R108): with a scan to do, or done with it. A profile that the Recipe does
not declare is no scan; a scan none of whose sets is UP has ended at once (R107; notes/assumptions/170.md). -/
def State.handOff (s : State) (r : Recipe) (p : Packet) (w : Walk) (profile : Nat) (punt : Bool) (start : Nat) : State :=
  let hv := headerVector r p.bytes p.stamp p.tag p.port p.version w punt p.len start
  let p := { p with hv := hv, stack := w.stack, payload := w.payload, emit := 2 ^ w.stack.length - 1, profile := profile,
                    place := .holdDone, scan := none }
  if profile = 0 then s.setPkt p
  else
    match r.profiles[profile]? with
    | none => s.setPkt p
    | some pr =>
      let up := bitsWhere 8 fun i => bitAt pr.sets i && s.setServes i p.tag
      let reg := pr.region w.stack w.payload p.len
      let hv := hvSet (hvSet hv 33 1 (1 + 16 * profile)) 35 1 (bitsWhere 8 fun i => bitAt pr.sets i && !bitAt up i)
      let sc : Scan := ⟨up, reg.1, reg.2, reg.1, 0, List.replicate 8 ⟨false, 0, 0, 0⟩, 0, 0, false, false⟩
      let s := s.bump (R.PRS_SCAN_PKTS_count p.pipe)
      if reg.2 ≤ reg.1 || up = 0 then s.setPkt { p with hv := scanToHv pr sc false false hv, scan := some sc }
      else s.setPkt { p with hv := hv, scan := some sc, place := .holdWait }

/-- PARSE_COMPLETE (R93, R94, R96, R99 to R102, R108): the parse ends. A malformed packet is counted and takes its class's
action; the others, and the ones forwarded, enter the scanner complex, or wait while its hold is full. -/
def execParseComplete (id : Nat) (s : State) : Host.Outcome State Fault Refusal :=
  ok (s.withPkt id fun p s =>
    match s.pktRecipe p with
    | none => s
    | some r =>
      if p.place != .parsing && p.place != .stalled then s
      else if p.poison then (s.bump R.MIF_POISON_CONSUMED_count).dropPkt p drPoison
      else
        let start := inForce (sread (fun _ => []) s.fd.starts p.port) 0 p.tag
        let w := r.parse p.bytes p.len start
        let act := r.clsAction w.cls
        let bad := w.cls != 0
        let discards := bad && act.code ≤ 2
        if !discards && 128 ≤ s.holdCount p.pipe then s.setPkt { p with place := .stalled }
        else
          let s := s.pmuFd 0x040 p.pipe 1
          let s := s.onlyIf bad fun s => (s.bump (R.PRS_MAL_CNT_count p.pipe w.cls)).capture p w
          if discards then
            let s := if act.code = 2 then s.dropMirror p act.session (clsReason w.cls) else s
            s.dropPkt p (clsReason w.cls)
          else s.handOff r p w (r.profileOf w) (bad && act.code == 4) (r.startOf start))

/-- CAPTURE_ARM (R102): a write of PRS_CAP_CTRL_pl: 1 in arm sets it, 1 in valid clears it. -/
def execCaptureArm (fn be pl val : Nat) (s : State) : Host.Outcome State Fault Refusal :=
  ok (if 8 ≤ pl then s
    else s.hostWrite fn (R.PRS_CAP_CTRL pl) be false fun s => s.mergeReg (R.PRS_CAP_CTRL pl) val be)

/-- PORT_START_WRITE (R96): the start state of a port for packets tagged after the turn in which the write is accepted. -/
def execPortStartWrite (fn be port val : Nat) (s : State) : Host.Outcome State Fault Refusal :=
  ok (if 128 ≤ port then s
    else s.hostWrite fn (R.PRS_PORT_START port) be false fun s =>
      let s := s.mergeReg (R.PRS_PORT_START port) val be
      let h := sread (fun _ => []) s.fd.starts port
      { s with fd := { s.fd with starts := mput s.fd.starts port ((s.time.turn, s.rd (R.PRS_PORT_START_start port)) :: h) } })

/-! ### Scanning -/

/-- Whether the bytes of a packet before byte `n` can be read by the scanner: they have arrived, and from byte 512 on stand
in the TD (R109). -/
def Packet.readable (p : Packet) (n : Nat) : Bool := n ≤ p.arrived && (n ≤ 512 || n ≤ p.staged)

/-- A scan ended (R106, R107, R113): its results go to the header vector, and no engine waits any more. -/
def State.endScan (s : State) (p : Packet) (pr : ScanProfile) (sc : Scan) (timeout : Bool) : State :=
  s.setPkt { p with hv := scanToHv pr sc timeout sc.bad p.hv, scan := some { sc with stalled := false }, place := .holdDone }

/-- SCAN_SHIFT (R105, R107 to R109, R113, R247): a waiting packet takes a free engine at its first shift. The shift tests every
set that has not stopped, or stalls while a byte of its window is missing. `poison` says that a byte it reads in the on-die
buffer carries the mark; on a packet not marked yet the word there is uncorrectable, which marks it (R298, R313). `ptr` is a cell pointer
it presents, and a rejected one ends the scan as poisoned. -/
def execScanShift (id : Nat) (poison : Bool) (ptr : Option Nat) (s : State) : Host.Outcome State Fault Refusal :=
  ok (s.withPkt id fun p s =>
    match p.scan, s.pktRecipe p with
    | some sc, some r =>
      let first := p.place == .holdWait
      if !(first && s.engineCount p.pipe < 8) && !(p.place == .scanning && !sc.stalled) then s
      else
        let sc := if first then { sc with began := s.time.elapsed, limit := s.rd R.PRS_CTRL_scan_timeout * 1000 } else sc
        let p := { p with place := .scanning, scan := some sc }
        let pr := r.profiles.getD p.profile ⟨0, .byte0, 0, 0, []⟩
        let bad := ptr.bind fun a => (s.ptrFault a false).map fun k => (a, k)
        if bad.isSome then
          let s := match bad with | some (a, k) => s.badPtr a k rqScanner | none => s
          s.endScan { p with poison := true } pr { sc with bad := true } false
        else if !p.readable (min (sc.at_ + 64) sc.stop) then
          let s := s.setPkt { p with scan := some { sc with stalled := true } }
          (s.bump (R.PRS_SCAN_STALLS_count p.pipe)).pmuFd 0x042 p.pipe 1
        else
          let active (i : Nat) : Bool := bitAt sc.sets i && !bitAt sc.stopped i
          let res := (List.range 8).map fun i =>
            let x := sc.res.getD i ⟨false, 0, 0, 0⟩
            if active i then x.shift (r.sets.getD i []) p.bytes sc.start sc.stop sc.at_ else x
          let stopped := bitsWhere 8 fun i =>
            bitAt sc.stopped i || (bitAt pr.stop i && active i && (res.getD i ⟨false, 0, 0, 0⟩).hit)
          let marked := poison && 512 < min (sc.at_ + 64) sc.stop
          let fresh := marked && !p.poison && !p.bodyBad
          let s := s.onlyIf fresh fun s => (s.uncorrectable 4 1 0 0).bump (R.MIF_POISON_SRC_count 4)
          let p := { p with bodyBad := p.bodyBad || fresh }
          let sc := { sc with res := res, stopped := stopped, at_ := sc.at_ + 32, bad := sc.bad || marked }
          let s := s.pmuFd 0x041 p.pipe 1
          if sc.stop ≤ sc.at_ || (List.range 8).all fun i => !bitAt sc.sets i || bitAt stopped i then s.endScan p pr sc false
          else s.setPkt { p with scan := some sc }
    | _, _ => s)

/-- SCAN_STALL_RESUME (R109): bytes have arrived from the line (`arrived` of them) or stand in the TD (up to byte `staged`);
a stalled shift resumes once its window is complete. -/
def execScanStallResume (id arrived staged : Nat) (s : State) : Host.Outcome State Fault Refusal :=
  ok (s.withPkt id fun p s =>
    let p := { p with arrived := max p.arrived (min arrived p.len), staged := max p.staged (min staged (min arrived p.len)) }
    match p.scan with
    | some sc =>
      s.setPkt { p with scan := some { sc with stalled := sc.stalled && !p.readable (min (sc.at_ + 64) sc.stop) } }
    | none => s.setPkt p)

/-- SCAN_TIMEOUT (R100, R112): a scan that has not ended within the scanner timeout of its first shift ends with what it has;
the packet takes its version's scan-timeout action. -/
def execScanTimeout (id : Nat) (s : State) : Host.Outcome State Fault Refusal :=
  ok (s.withPkt id fun p s =>
    match p.scan, s.pktRecipe p with
    | some sc, some r =>
      if p.place != .scanning || s.time.elapsed < sc.began + sc.limit then s
      else
        let s := s.bump (R.PRS_SCAN_TIMEOUTS_count p.pipe)
        let act := r.timeoutAction
        if act.code ≤ 2 then
          (if act.code = 2 then s.dropMirror p act.session drScanTimeout else s).dropPkt p drScanTimeout
        else
          let hv := if act.code = 4 then hvSet p.hv 19 1 (hvNum p.hv 19 1 ||| 32) else p.hv
          s.endScan { p with hv := hv } (r.profiles.getD p.profile ⟨0, .byte0, 0, 0, []⟩) sc true
    | _, _ => s)

/-- SCANNER_RELEASE (R108): a packet that is done leaves for ingress stage 0, in arrival order per port. -/
def execScannerRelease (id : Nat) (s : State) : Host.Outcome State Fault Refusal :=
  ok (s.withPkt id fun p s =>
    if p.place == .holdDone && s.oldestOf p (fun q => q.place.early) then s.setPkt { p with place := .stageWait 0 } else s)

/-! ### The pattern sets -/

/-- The turn history of a set extended: searched (1) or skipped (0) by packets tagged after this turn. -/
def State.pushSet (s : State) (set v : Nat) : State :=
  { s with fd := { s.fd with sets := mput s.fd.sets set ((s.time.turn, v) :: sread (fun _ => []) s.fd.sets set) } }

/-- A write to PRS_SET_LC_s (R114): packets tagged later search the set from an enable, and skip it from a disable. -/
def State.setLcWrite (s : State) (fn be set : Nat) (enable : Bool) : State :=
  if 8 ≤ set then s
  else s.hostWrite fn (R.PRS_SET_LC set) be true fun s =>
    let a := R.PRS_SET_LC set
    let was := s.rd (lcFld a)
    let s := s.lcWrite a enable (!enable)
    let now := s.rd (lcFld a)
    if was = lcDown ∧ now = lcStarting then s.pushSet set 1
    else if (was = lcUp ∧ now = lcDraining) ∨ (was = lcStarting ∧ now = lcDown) then s.pushSet set 0
    else s

/-- SET_ENABLE (R114). -/
def execSetEnable (fn be set : Nat) (s : State) : Host.Outcome State Fault Refusal := ok (s.setLcWrite fn be set true)

/-- SET_DISABLE (R114). -/
def execSetDisable (fn be set : Nat) (s : State) : Host.Outcome State Fault Refusal := ok (s.setLcWrite fn be set false)

/-- Whether a packet before the stages searches a set, or may still do so (R114): a scan that has the set, a parse under way that leads
to one, a packet in its FIFO. -/
def State.searches (s : State) (p : Packet) (set : Nat) : Bool :=
  !p.egress && s.setServes set p.tag &&
  match p.place, s.pktRecipe p with
  | .fifo, some r => r.profiles.any fun x => bitAt x.sets set
  | .fifo, none => true
  | .parsing, some r | .stalled, some r =>
    let w := r.parse p.bytes p.len (inForce (sread (fun _ => []) s.fd.starts p.port) 0 p.tag)
    match r.profiles[r.profileOf w]? with
    | some x => r.profileOf w != 0 && bitAt x.sets set
    | none => false
  | .holdWait, _ | .scanning, _ => (match p.scan with | some sc => bitAt sc.sets set && !bitAt sc.stopped set | none => false)
  | _, _ => false

/-- SET_DRAIN_DONE (R114): no packet tagged before the disable is still to search a draining set: it is DOWN, or starts again under
pend_up. -/
def execSetDrainDone (set : Nat) (s : State) : Host.Outcome State Fault Refusal :=
  let a := R.PRS_SET_LC set
  let busy := s.fd.pkts.any fun p => s.searches p set
  ok (if 8 ≤ set || s.rd (lcFld a) != lcDraining || busy then s
    else
      let s := s.lcEndDrain a
      if s.rd (lcFld a) = lcStarting then s.pushSet set 1 else s)

end Sys2Proof.Machine
end

