-- ==== Sys2Proof/Machine/Reads.lean ====
section
/-!
DEFINITION. Machine/Reads.lean: what a read of a register returns, with the registers whose value the device works out from its state when
they are read (R91, R115, R201, R234, R296, R543, R565), and the rows of a host read (R431 to R435).
-/

namespace Sys2Proof.Machine

/-- Words of a pipeline's control stores and microcode stores marked bad and not reloaded (R199, R201). -/
def State.reloadPend (s : State) (pl : Nat) : Nat := (s.fd.badWords.filter fun k => keyPipe k == pl).length

/-- The retiring slot's counts (R91): packets in the ingress path, packets in the egress path, source devices. -/
def State.oldCount (s : State) (which : Nat) : Nat :=
  match s.retiring with
  | none => 0
  | some slot =>
    let own (v _τ : Nat) : Bool := v == slot
    if which = 0 then s.ingressOld own else if which = 1 then s.egressOld own else s.sourcesOld s.actTurn

/-- The stripe reads of a stack that lookups in HBM tables have outstanding (R269, R295). -/
def State.readsOut (s : State) (stack : Nat) : Nat :=
  sumOf (fun (p : Packet) =>
    match p.place with
    | .lookup k =>
      sumOf (fun (l : Lookup) =>
        match (if l.done then none else s.bindingOf p k l.binding) with
        | none => 0
        | some b =>
          let ts := match s.findExm p.version b.table with | some e => [e.2] | none => (s.subtables p.version b.table).map (·.2)
          sumOf (fun (t : ExmTable) =>
            if !t.d.hbm then 0
            else
              let bs := t.d.buckets2 (l.key &&& (if t.d.subOf.isSome then t.d.subMask else 2 ^ t.d.keyBits - 1))
              ([bs.1, bs.2].flatMap fun b =>
                (partTiles (t.bucketBase (t.copyOf p.pipe) b) t.d.bucketBytes).filter fun x => (partPlace x.2.1).1 == stack).length) ts)
        p.lookups
    | _ => 0) s.fd.pkts

/-- The value of a register that is worked out when it is read, by its offset in BAR0; none for every other register. -/
def State.computed (s : State) (a : Nat) : Option Nat :=
  let at_ (base stride n : Nat) : Option Nat :=
    if base ≤ a && a < base + stride * n && (a - base) % stride == 0 then some ((a - base) / stride) else none
  if a = R.FWS_RCP_OLD_INGRESS then some (min (s.oldCount 0) (2 ^ 18 - 1))
  else if a = R.FWS_RCP_OLD_EGRESS then some (min (s.oldCount 1) (2 ^ 22 - 1))
  else if a = R.FWS_RCP_OLD_SOURCES then some (s.oldCount 2)
  else if a = R.PMx_FRZ_TURN_LO 1 ∨ a = R.PMx_FRZ_TURN_HI 1 then some (s.rdWord (a - R.PMx_CTRL 1 + R.PMx_CTRL 0)).toNat
  else if a = R.GLB_GPIO_IN then
    let oe := s.rdWord R.GLB_GPIO_OE
    some ((s.rdWord a &&& ~~~ oe) ||| (s.rdWord R.GLB_GPIO_OUT &&& oe)).toNat
  else if a = R.FWS_SEC_STATUS ∧ s.on R.FWS_SEC_STATUS_busy then some (1 + 2 * (Config.progress 14 s.time.elapsed % 101))
  else if (a == R.FWS_REC_CTRL || a == R.FWS_REC_COUNT) && !s.svc.recovery then some 0
  else
    match at_ (R.PRS_SCAN_OCC 0) 0x20 8 with
    | some pl => some (s.holdCount pl + 256 * s.engineCount pl)
    | none =>
      match at_ (R.PPL_RELOAD_PEND 0) 0x200000 8 with
      | some pl => some (min (s.reloadPend pl) 63)
      | none =>
        match at_ (R.TXF_PL_INFLIGHT 0) 0x20 8 with
        | some pl => some (s.txf.numbers.filter fun n => n / 16384 == pl).length
        | none =>
          match at_ (R.TXF_SU 0) 4 64 with
          | some u => some (s.chainUsed u)
          | none =>
            match at_ (R.RSV_HOLD_w0 0) 4 256 with
            | some w =>
              if w % 4 = 2 then some (s.heldBytes (w / 4) % 2 ^ 32)
              else if w % 4 = 3 then some (s.heldBytes (w / 4) / 2 ^ 32)
              else none
            | none =>
              match at_ (R.RSV_PORT_STATUS 0) 0x40 8 with
              | some n =>
                if s.on (R.RSV_PORT_STATUS_link_up n) && !s.on (R.RSV_PORT_STATUS_fill_done n) then
                  some (putBits (s.rdWord a).toNat 4 7 (Config.progress n s.time.elapsed % 101))
                else none
              | none =>
              match at_ (R.HBC_MIG_STATUS 0) 0x40000 6 with
              | some k =>
                if s.on (R.HBC_MIG_STATUS_busy k) then
                  some (putBits (s.rdWord a).toNat 15 7 (Config.progress (8 + k) s.time.elapsed % 101))
                else none
              | none =>
              match at_ (R.HBC_RD_OUT 0) 0x40000 6 with
              | some k => some (min (s.readsOut k) 24576)
              | none =>
              if R.PPL_HOLD 0 0 ≤ a && a < R.PPL_HOLD 8 0 && R.PPL_HOLD 0 0 % 0x200000 ≤ a % 0x200000 &&
                  a % 0x200000 < R.PPL_HOLD 0 36 % 0x200000 then
                some (s.heldIn ((a - R.PPL_HOLD 0 0) / 0x200000) ((a - R.PPL_HOLD 0 0) % 0x200000 / 4))
              else none

/-- What a function reads from a register; PF1 reads the security engine's busy and progress fields as zero (R458). -/
def State.liveRead (s : State) (fn a : Nat) : Word :=
  if fn = 1 ∧ a % 0x10000000 = R.FWS_SEC_STATUS then 0
  else match s.computed (a % 0x10000000) with
  | some v => BitVec.ofNat 32 v
  | none => s.regRead fn a

/-- A register read by a function with side effects (R432): RC fields clear; a pool's peak begins again at what is in use (R261). -/
def State.readOut (s : State) (a : Nat) : State :=
  let s := s.readClear a
  match (List.range 4).find? fun k => R.BPM_POOL_w7 k == a with
  | some k => s.wr (R.BPM_POOL_w7_ingress_peak k) (s.ingUse k)
  | none => s

/-- REGISTER_READ_CLEAR (R431, R432, R437): a read of a register; with all four byte enables its RC fields clear. BAR4 shows
the MSI-X table's mask bits and the pending bits (R460). -/
def execRegisterReadClear (fn bar addr be : Nat) (s : State) : Host.Outcome State Fault Refusal :=
  ok (if bar = 2 then
      if !s.answers fn then s
      else
        let v : Nat := match msixControl addr with
          | some v => bit01 (!s.vecUnmasked fn v)
          | none =>
            if addr = 0x18000 ∨ addr = 0x18004 then
              (List.range 32).foldl (fun n i => n + 2 ^ i *
                bit01 (sread (fun _ => false) s.host.vecPend (64 * fn + 8 * (addr - 0x18000) + i))) 0
            else 0
        s.emit (.read fn (enabled (BitVec.ofNat 32 v) be))
    else if bar ≠ 0 then s
    else s.hostRead fn addr fun s =>
      let a := s.banked fn addr
      let s := if be = 15 then s.readIn a else s
      let v := enabled (s.liveRead fn a) be
      let s := if be = 15 then s.readOut a else s
      s.emit (.read fn v))

/-- PAIR_LOW_READ (R432, R434): a full read of a pair's low word latches the high word for the function; an aligned 64-bit
read (`wide`) returns both words of one instant and leaves the latch. -/
def execPairLowRead (fn addr be : Nat) (wide : Bool) (s : State) : Host.Outcome State Fault Refusal :=
  ok (s.hostRead fn addr fun s =>
    let a := s.banked fn addr
    let lo := s.liveRead fn a
    let hi := s.liveRead fn (a + 4)
    match regAt a with
    | some ⟨_, _, _, .low, _⟩ =>
      if wide then ((s.readOut a).readOut (a + 4)).emit (.read fn (lo.toNat + 2 ^ 32 * hi.toNat))
      else if be = 15 then
        let s := (s.readOut a).readOut (a + 4)
        { s with host := { s.host with latches := mput s.host.latches (pairKey fn addr) hi } }.emit (.read fn lo.toNat)
      else s.emit (.read fn (enabled lo be))
    | _ => s.emit (.read fn (enabled lo be)))

/-- PAIR_HIGH_READ (R432, R434): the latched word, released by a full read; the live word when the function holds no latch. -/
def execPairHighRead (fn addr be : Nat) (s : State) : Host.Outcome State Fault Refusal :=
  ok (s.hostRead fn addr fun s =>
    let key := pairKey fn (addr - 4)
    match mget s.host.latches key with
    | some w =>
      let s := if be = 15 then { s with host := { s.host with latches := mdel s.host.latches key } } else s
      s.emit (.read fn (enabled w be))
    | none => s.emit (.read fn (enabled (s.liveRead fn (s.banked fn addr)) be)))

end Sys2Proof.Machine
end

