-- ==== Sys2Proof/Machine/Remote.lean ====
section
/-!
DEFINITION. Machine/Remote.lean: remote access (R365, R385 to R387, R445): requests to other devices and theirs to this one.
-/

namespace Sys2Proof.Machine

/-! ### Requests to other devices -/

/-- A remote request issued (R385 to R387): INVALID when the device lacks the feature, PEER_UNAVAILABLE when it is unreachable,
BUSY_RETRY when 64 are outstanding; else its message is sent. -/
def State.issueRemote (s : State) (c : Cmd) (device op count offset result : Nat) (body : List Byte) : State :=
  if s.reachable device && !bitAt (s.features device) ftRemote then s.complete c stInvalid
  else if !s.reachable device then s.complete c stPeerUnavailable
  else if 64 ≤ (s.fab.remotes.filter fun r => !r.done).length then s.complete c stBusyRetry
  else
    let id := s.fab.nextReq
    let r : RemoteReq := ⟨id, c, device, op, count, offset, result, s.time.elapsed, s.wseq (cmdFn c), false⟩
    let s := { s with fab := { s.fab with nextReq := (id + 1) % 2 ^ 32, remotes := s.fab.remotes ++ [r] } }
    s.sendCtl device 6 (ctlMessage 0x10 id (leBytes 4 id ++ [BitVec.ofNat 8 op, BitVec.ofNat 8 count, BitVec.ofNat 8 (cmdFn c), 0] ++
      leBytes 4 offset ++ [0, 0, 0, 0] ++ body))

/-- Whether a register range is one a remote request can name (R385). -/
def remoteRange (count offset : Nat) : Bool := 1 ≤ count && count ≤ 16 && offset % 4 == 0 && offset + 4 * count ≤ 0x10000000

/-- REMOTE_RD (R385 to R387). -/
def execRemoteRd (c : Cmd) (device count offset result : Nat) (s : State) : Host.Outcome State Fault Refusal :=
  ok (s.command c 0x40 (rightOf 0x40) [(result, 4 * count)] fun s =>
    if 512 ≤ device || !remoteRange count offset then s.complete c stInvalid
    else s.issueRemote c device 0 count offset result [])

/-- REMOTE_WR (R385 to R387) of registers; `data` is the write data at `param`. -/
def execRemoteWr (c : Cmd) (device count offset param : Nat) (data : List Byte) (s : State) : Host.Outcome State Fault Refusal :=
  ok (s.command c 0x41 (rightOf 0x41) [(param, 4 * count)] fun s =>
    if 512 ≤ device || !remoteRange count offset then s.complete c stInvalid
    else s.issueRemote c device 1 count offset 0 (slice (data ++ List.replicate 64 0) 0 (4 * count)))

/-- REMOTE_WR_COMMAND (R385 to R387): REMOTE_WR of a command; `desc` is the descriptor at `param`. -/
def execRemoteWrCommand (c : Cmd) (device param result : Nat) (desc : List Byte) (s : State) : Host.Outcome State Fault Refusal :=
  ok (s.command c 0x41 (rightOf 0x41) [(param, 64), (result, 16)] fun s =>
    if 512 ≤ device then s.complete c stInvalid
    else s.issueRemote c device 2 0 0 result (slice (desc ++ List.replicate 64 0) 0 64))

/-- REMOTE_RSP_RECEIVE (R387): the oldest response received completes its request; one that no request waits for is counted. -/
def execRemoteRspReceive (s : State) : Host.Outcome State Fault Refusal :=
  ok (match s.takeMsg fun m => m.kind == 0x11 with
    | none => s
    | some (m, s) =>
      match s.fab.remotes.find? fun r => r.id == leAt m.body 0 4 && r.device == m.src && !r.done with
      | none => s.bump R.FAB_REMOTE_LATE_count
      | some r =>
        let rest := s.fab.remotes.erase r
        let s := { s with fab := { s.fab with remotes := if r.op = 1 then rest ++ [{ r with done := true }] else rest } }
        let status := byteAt m.body 4
        if status ≠ stDone then s.complete r.cmd status
        else
          let s := if r.op = 0 then s.putResult r.cmd r.result (slice m.body 8 (4 * r.count))
            else if r.op = 2 then s.putResult r.cmd r.result (slice m.body 8 16)
            else s
          s.completeWith r.cmd stDone (if r.op = 0 then leAt m.body 6 2 else 0) none)

/-- REMOTE_TIMEOUT (R387): no response within timeout_us. -/
def execRemoteTimeout (id : Nat) (s : State) : Host.Outcome State Fault Refusal :=
  ok (match s.fab.remotes.find? fun r => r.id == id && !r.done with
    | some r =>
      if r.issued + 1000 * s.rd R.FAB_REMOTE_CFG_timeout_us ≤ s.time.elapsed then
        { s with fab := { s.fab with remotes := s.fab.remotes.erase r } }.complete r.cmd stPeerUnavailable
      else s
    | none => s)

/-- LATE_ERR_RECEIVE (R387, R445): a write that failed later at a remote device makes a late-error entry here. -/
def execLateErrReceive (s : State) : Host.Outcome State Fault Refusal :=
  ok (match s.takeMsg fun m => m.kind == 0x12 with
    | none => s
    | some (m, s) =>
      match s.fab.remotes.find? fun r => r.id == leAt m.body 0 4 && r.device == m.src && r.op == 1 with
      | none => s
      | some r => s.lateErrAs r.wseq (cmdFn r.cmd) 0 (leAt m.body 8 4) (byteAt m.body 4) false (some m.src))

/-! ### Requests of other devices -/

/-- Whether requests of a device are accepted (R386). -/
def State.allowsRemote (s : State) (d : Nat) : Bool :=
  s.on R.FAB_REMOTE_CFG_accept && d < 512 && bitAt (s.rd (R.FAB_REMOTE_ALLOW_devices (d / 32))) (d % 32)

/-- A response to a remote request (R377). -/
def State.respond (s : State) (d id status bitmap : Nat) (data : List Byte) : State :=
  s.sendCtl d 6 (ctlMessage 0x11 id (leBytes 4 id ++ [BitVec.ofNat 8 status, 0] ++ leBytes 2 bitmap ++ data))

/-- A register read for another device with the rights of a function: its word, or nothing where the read fails (R387). -/
def State.readFor (s : State) (fn addr : Nat) : Option Nat × State :=
  match blockOf addr with
  | none => (some 0, s)
  | some b =>
    if (fn == 1 && (s.pf1Denied addr false).isSome) || (16 ≤ accessBit addr b.bit && s.tdDown) || !s.clockRuns (accessBit addr b.bit) then (none, s)
    else
      let a := s.banked fn addr
      let s := s.readIn a
      (some (s.liveRead fn a).toNat, s.readOut a)

/-- The registers of a remote read, in ascending order: their words and the bitmap of those that failed. -/
def State.readAll (fn addr : Nat) : Nat → State → List Byte × List Bool × State
  | 0, s => ([], [], s)
  | n + 1, s =>
    let r := s.readFor fn addr
    let t := State.readAll fn (addr + 4) n r.2
    (leBytes 4 (r.1.getD 0) ++ t.1, r.1.isNone :: t.2.1, t.2.2)

/-- A register write for another device: its effect, or the late-error reason for which it failed, which goes to that device and not
into the log here (R387, R445). -/
def State.writeFor (s : State) (fn addr val : Nat) : Option Nat × State :=
  let i := s.rd R.HAC_LEL_CTRL_next
  let t := s.checkedWrite fn addr 15 false fun s => s.plainWrite fn addr 15 val
  if t.rd R.HAC_LEL_CTRL_next = i then (none, t)
  else
    let why := t.rd ⟨R.HAC_LEL i 2, 0, 8⟩
    let t := t.each (R.HAC_LEL_CTRL :: (List.range 6).map fun w => R.HAC_LEL i w) fun a t => t.wrWord a (s.rdWord a)
    (some why, { t with out := s.out, host := { t.host with vecPend := s.host.vecPend } })

/-- The registers of a remote write, in ascending order; each failure is reported. -/
def State.writeAll (d id fn addr : Nat) : List Nat → State → State
  | [], s => s
  | v :: vs, s =>
    let r := s.writeFor fn addr v
    let s := match r.1 with
      | some why => r.2.sendCtl d 6 (ctlMessage 0x12 id (leBytes 4 id ++ [BitVec.ofNat 8 why, 0, 0, 0] ++ leBytes 4 addr))
      | none => r.2
    State.writeAll d id fn (addr + 4) vs s

/-- REMOTE_REQ_RECEIVE (R385 to R387, R451): the oldest remote request received: refused with its reason in the security log, or
executed with the rights of the function that issued it. A command starts and its own row gives its effect. -/
def execRemoteReqReceive (s : State) : Host.Outcome State Fault Refusal :=
  ok (match s.takeMsg fun m => m.kind == 0x10 with
    | none => s
    | some (m, s) =>
      let b := m.body
      let id := leAt b 0 4
      let op := byteAt b 4
      let count := byteAt b 5
      let fn := byteAt b 6 % 2
      let addr := leAt b 8 4
      if !s.allowsRemote m.src then
        (s.secLog secRemote fn addr 0 (some m.src)).respond m.src id stRefused 0 []
      else if op = 0 then
        let r := State.readAll fn addr (min count 16) s
        r.2.2.respond m.src id stDone (bitsWhere 16 fun j => r.2.1.getD j false) r.1
      else if op = 1 then
        (State.writeAll m.src id fn addr ((List.range (min count 16)).map fun j => leAt b (16 + 4 * j) 4) s).respond m.src id stDone 0 []
      else
        let desc := slice (b ++ List.replicate 80 0) 16 64
        let c : Cmd := ⟨.remote m.src id fn, bitAt (byteAt desc 1) 0⟩
        let s := { s with fab := { s.fab with serving := s.fab.serving ++ [(m.src, id, leAt desc 2 2)] } }
        match s.descFields desc with
        | none => if fn = 1 then s.refuse c secRight 0 (byteAt desc 0) else s.complete c stInvalid
        | some fields =>
          if !s.hasRights c (rightOf (byteAt desc 0) ++ s.descGrants desc) then s.refuse c secRight 0 (byteAt desc 0)
          else if !descClean desc fields || !stageOpOk desc then s.complete c stInvalid
          else s)

end Sys2Proof.Machine
end

