-- ==== Sys2Proof/Machine/Replay.lean ====
section
/-!
DEFINITION. Machine/Replay.lean: the replay injector (R233, R234, R349).
-/

namespace Sys2Proof.Machine

/-- TXF_RPL_STATUS.busy brought in line: records are left in the ring of a started injector, or wait for their instant. -/
def State.replayBusy (s : State) : State :=
  s.wrBit R.TXF_RPL_STATUS_busy ((s.on R.TXF_RPL_CTRL_en && s.on R.TXF_RPL_CTRL_start &&
    s.rd R.TXF_RPL_HEAD_head != s.rd R.TXF_RPL_TAIL_tail) || !s.fd.replay.isEmpty)

/-- REPLAY_START (R233, R234, R448): a write of TXF_RPL_CTRL. With start set the injector begins to fetch at TXF_RPL_TAIL, so that it
reads what the host writes from there on, and no record of any port has come before; clearing en ends it (notes/assumptions/31.md). -/
def execReplayStart (fn be val : Nat) (s : State) : Host.Outcome State Fault Refusal :=
  ok (s.hostWrite fn R.TXF_RPL_CTRL be true fun s =>
    let was := s.rdWord R.TXF_RPL_CTRL
    let w := mergeWrite (match regAt R.TXF_RPL_CTRL with | some r => r.fields | none => []) was (BitVec.ofNat 32 val) be
    if outOfRange R.TXF_RPL_CTRL w then s.lateErr fn 0 R.TXF_RPL_CTRL leBadValue false
    else
      let s := (s.wrWord R.TXF_RPL_CTRL w).checkEnable fn R.TXF_RPL_CTRL was
      let s := if s.on R.TXF_RPL_CTRL_en then
          (if bitAt val 1 then { s with fd := { s.fd with replayLast := [] } }.wr R.TXF_RPL_HEAD_head (s.rd R.TXF_RPL_TAIL_tail) else s)
        else s.wr R.TXF_RPL_CTRL_start 0
      s.replayBusy)

/-- REPLAY_TAIL_WRITE (R233, R234): more records are in the ring. -/
def execReplayTailWrite (fn be val : Nat) (s : State) : Host.Outcome State Fault Refusal :=
  ok (s.hostWrite fn R.TXF_RPL_TAIL be false fun s => (s.mergeReg R.TXF_RPL_TAIL val be).replayBusy)

/-- The stamp of a record in nanoseconds: seconds in bits 30 to 77, nanoseconds in bits 0 to 29 (R98, R233). -/
def replayStamp (rec : List Byte) : Nat := bitsAt (leAt rec 0 10) 30 48 * 1000000000 + bitsAt (leAt rec 0 10) 0 30

/-- REPLAY_RECORD_FETCH (R233): the injector reads the record at its head. -/
def execReplayRecordFetch (data : List Byte) (s : State) : Host.Outcome State Fault Refusal :=
  let head := s.rd R.TXF_RPL_HEAD_head
  ok (if !s.on R.TXF_RPL_CTRL_en || !s.on R.TXF_RPL_CTRL_start || head == s.rd R.TXF_RPL_TAIL_tail then s
    else
      let len := leAt data 12 2
      let port := byteAt data 10
      let stamp := replayStamp data
      let units := 1 + ceilDiv len 64
      let s := s.wr R.TXF_RPL_HEAD_head ((head + units) % 2 ^ s.rd R.TXF_RPL_CTRL_size_log2)
      let early : Bool := match mget s.fd.replayLast port with | some t => stamp < t | none => false
      let wrong := 128 ≤ port || !bitAt (s.rd (R.TXF_RPL_PORTS_ports (port / 32))) (port % 32) ||
        s.rd (R.LIF_PORT_LC_state port) != lcDown
      let s := if early || wrong then
          let s := (s.onlyIf early fun s => s.wr R.TXF_RPL_STATUS_order_err 1)
          (s.onlyIf wrong fun s => s.wr R.TXF_RPL_STATUS_port_err 1).bump R.TXF_RPL_DISCARDS_count
        else
          let at_ := stamp + s.rd64 R.TXF_RPL_OFFSET_LO_turns_lo R.TXF_RPL_OFFSET_HI_turns_hi * 2 ^ s.rd R.TBS_TURN_LEN_LOG2_t
          { s with fd := { s.fd with replay := s.fd.replay ++ [(at_, data)], replayLast := mput s.fd.replayLast port stamp } }
      s.replayBusy)

/-- REPLAY_RECORD_RELEASE (R233, R349): system time has reached a record's offset stamp: the packet enters its port's FIFO with that
stamp. -/
def execReplayRecordRelease (s : State) : Host.Outcome State Fault Refusal :=
  ok (match s.fd.replay.find? fun r => r.1 ≤ s.time.sysNs with
    | none => s
    | some r =>
      let s := { s with fd := { s.fd with replay := s.fd.replay.erase r } }
      let bytes := slice r.2 64 (leAt r.2 12 2)
      (s.enterFifo (byteAt r.2 10) bytes bytes.length 0 r.1 (r.1 + s.time.elapsed - s.time.sysNs)).replayBusy)

end Sys2Proof.Machine
end

