-- ==== Sys2Proof/Machine/Dispatch.lean ====
section
/-!
DEFINITION. Machine/Dispatch.lean: the one table from commands to their meanings.
-/

namespace Sys2Proof.Machine

/-- The effect of a command on everything but the queue. -/
def exec (i : Instr) (s : State) : Host.Outcome State Fault Refusal :=
  match i with
  | .bridgeUnitReceive g good load => Sys2Proof.Machine.execBridgeUnitReceive g good load s
  | .bridgeReplayRequest g => Sys2Proof.Machine.execBridgeReplayRequest g s
  | .bridgeLaneFailure g => Sys2Proof.Machine.execBridgeLaneFailure g s
  | .spareLaneSwitchDone g => Sys2Proof.Machine.execSpareLaneSwitchDone g s
  | .tdTimeTransfer => Sys2Proof.Machine.execTdTimeTransfer s
  | .frameReceive port bytes arrived fcsOk corrected uncorrectable => Sys2Proof.Machine.execFrameReceive port bytes arrived fcsOk corrected uncorrectable s
  | .pfcXoffRepeat port priority => Sys2Proof.Machine.execPfcXoffRepeat port priority s
  | .pfcFrameReceive port bytes => Sys2Proof.Machine.execPfcFrameReceive port bytes s
  | .pfcPauseExpire port priority => Sys2Proof.Machine.execPfcPauseExpire port priority s
  | .eopStatusArrive id good => Sys2Proof.Machine.execEopStatusArrive id good s
  | .parseAccept id => Sys2Proof.Machine.execParseAccept id s
  | .parseComplete id => Sys2Proof.Machine.execParseComplete id s
  | .captureArm fn be pl val => Sys2Proof.Machine.execCaptureArm fn be pl val s
  | .portStartWrite fn be port val => Sys2Proof.Machine.execPortStartWrite fn be port val s
  | .scanShift id poison ptr => Sys2Proof.Machine.execScanShift id poison ptr s
  | .scanStallResume id arrived staged => Sys2Proof.Machine.execScanStallResume id arrived staged s
  | .scanTimeout id => Sys2Proof.Machine.execScanTimeout id s
  | .scannerRelease id => Sys2Proof.Machine.execScannerRelease id s
  | .setEnable fn be set => Sys2Proof.Machine.execSetEnable fn be set s
  | .setDisable fn be set => Sys2Proof.Machine.execSetDisable fn be set s
  | .setDrainDone set => Sys2Proof.Machine.execSetDrainDone set s
  | .stageIssue pl stage id cause => Sys2Proof.Machine.execStageIssue pl stage id cause s
  | .stageLookupReturn id lookup faults => Sys2Proof.Machine.execStageLookupReturn id lookup faults s
  | .stageAction id upset ucode => Sys2Proof.Machine.execStageAction id upset ucode s
  | .pipelineDrainDone pl => Sys2Proof.Machine.execPipelineDrainDone pl s
  | .laneReturnComplete pl => Sys2Proof.Machine.execLaneReturnComplete pl s
  | .pipelineEnable fn be pl => Sys2Proof.Machine.execPipelineEnable fn be pl s
  | .pipelineDisable fn be pl => Sys2Proof.Machine.execPipelineDisable fn be pl s
  | .pipelineReloadDone pl => Sys2Proof.Machine.execPipelineReloadDone pl s
  | .controlWordReloadDone pl stage bank word ucode readable => Sys2Proof.Machine.execControlWordReloadDone pl stage bank word ucode readable s
  | .controlStorePatrol pl stage bank word upset last => Sys2Proof.Machine.execControlStorePatrol pl stage bank word upset last s
  | .ingressSectionExit id => Sys2Proof.Machine.execIngressSectionExit id s
  | .egressSectionExit id => Sys2Proof.Machine.execEgressSectionExit id s
  | .intentExecute id stage num poison => Sys2Proof.Machine.execIntentExecute id stage num poison s
  | .intentSettle arr index replay => Sys2Proof.Machine.execIntentSettle arr index replay s
  | .chainWaitTimeout id stage num => Sys2Proof.Machine.execChainWaitTimeout id stage num s
  | .chainRoomResume id stage num => Sys2Proof.Machine.execChainRoomResume id stage num s
  | .verdictReceive id poisoned => Sys2Proof.Machine.execVerdictReceive id poisoned s
  | .txnOpen c handle => Sys2Proof.Machine.execTxnOpen c handle s
  | .txnStageAsmInsert c handle slot table vrf len key mask prio result param => Sys2Proof.Machine.execTxnStageAsmInsert c handle slot table vrf len key mask prio result param s
  | .txnStageAsmDelete c handle slot table vrf len key mask prio param => Sys2Proof.Machine.execTxnStageAsmDelete c handle slot table vrf len key mask prio param s
  | .txnStageAsmModify c handle slot table vrf len key mask prio result param => Sys2Proof.Machine.execTxnStageAsmModify c handle slot table vrf len key mask prio result param s
  | .txnStageAsmRewrite c handle slot table vrf len key mask prio param => Sys2Proof.Machine.execTxnStageAsmRewrite c handle slot table vrf len key mask prio param s
  | .txnStageExmInsert c handle slot table param bits => Sys2Proof.Machine.execTxnStageExmInsert c handle slot table param bits s
  | .txnStageExmDelete c handle slot table param bits => Sys2Proof.Machine.execTxnStageExmDelete c handle slot table param bits s
  | .txnStageExmModify c handle slot table param bits => Sys2Proof.Machine.execTxnStageExmModify c handle slot table param bits s
  | .txnStageArrayWrite c handle slot array index param value => Sys2Proof.Machine.execTxnStageArrayWrite c handle slot array index param value s
  | .txnStageArrayClear c handle slot array index => Sys2Proof.Machine.execTxnStageArrayClear c handle slot array index s
  | .txnStageTdWrite c handle table index param rec => Sys2Proof.Machine.execTxnStageTdWrite c handle table index param rec s
  | .txnPrepare c handle => Sys2Proof.Machine.execTxnPrepare c handle s
  | .txnPrepareComplete handle => Sys2Proof.Machine.execTxnPrepareComplete handle s
  | .txnCommit c handle turn => Sys2Proof.Machine.execTxnCommit c handle turn s
  | .txnCommitCancel c handle => Sys2Proof.Machine.execTxnCommitCancel c handle s
  | .txnAbort c handle => Sys2Proof.Machine.execTxnAbort c handle s
  | .asmOverlapClose t => Sys2Proof.Machine.execAsmOverlapClose t s
  | .asmWalkerVisit bank unit addr upsets last => Sys2Proof.Machine.execAsmWalkerVisit bank unit addr upsets last s
  | .search c slot table pipe all key keyAddr resultAddr poison => Sys2Proof.Machine.execSearch c slot table pipe all key keyAddr resultAddr poison s
  | .next c slot table pipe count context resultAddr after poison => Sys2Proof.Machine.execNext c slot table pipe count context resultAddr after poison s
  | .iterationContextExpire k => Sys2Proof.Machine.execIterationContextExpire k s
  | .flushPort c slot table port incl resultAddr => Sys2Proof.Machine.execFlushPort c slot table port incl resultAddr s
  | .flushPortDone t => Sys2Proof.Machine.execFlushPortDone t s
  | .learnPlace k rate => Sys2Proof.Machine.execLearnPlace k rate s
  | .learnStateAlways t cell => Sys2Proof.Machine.execLearnStateAlways t cell s
  | .ageingSweepVisit t copy bucket => Sys2Proof.Machine.execAgeingSweepVisit t copy bucket s
  | .ageLimitWrite fn be t val => Sys2Proof.Machine.execAgeLimitWrite fn be t val s
  | .learnRecordDeliver => Sys2Proof.Machine.execLearnRecordDeliver s
  | .hostRingTailWrite fn addr be val => Sys2Proof.Machine.execHostRingTailWrite fn addr be val s
  | .bucketLock fn addr be => Sys2Proof.Machine.execBucketLock fn addr be s
  | .bucketStagingWrite fn addr data => Sys2Proof.Machine.execBucketStagingWrite fn addr data s
  | .bucketUnlockCommit fn addr be => Sys2Proof.Machine.execBucketUnlockCommit fn addr be s
  | .bucketUnlockDiscard fn addr be => Sys2Proof.Machine.execBucketUnlockDiscard fn addr be s
  | .bucketLockExpire t copy bucket => Sys2Proof.Machine.execBucketLockExpire t copy bucket s
  | .bucketEntryWrite fn addr data => Sys2Proof.Machine.execBucketEntryWrite fn addr data s
  | .bar2Read fn addr poison => Sys2Proof.Machine.execBar2Read fn addr poison s
  | .shadowCompareStart fn be val => Sys2Proof.Machine.execShadowCompareStart fn be val s
  | .shadowCompareDone shadow => Sys2Proof.Machine.execShadowCompareDone shadow s
  | .poolSizeWrite fn be pool val => Sys2Proof.Machine.execPoolSizeWrite fn be pool val s
  | .poolLimitWrite fn be pool val reserve => Sys2Proof.Machine.execPoolLimitWrite fn be pool val reserve s
  | .bodyStagingWrite id upto => Sys2Proof.Machine.execBodyStagingWrite id upto s
  | .discardNotice id => Sys2Proof.Machine.execDiscardNotice id s
  | .stagingExpire id => Sys2Proof.Machine.execStagingExpire id s
  | .admissionDecision id engine ptr => Sys2Proof.Machine.execAdmissionDecision id engine ptr s
  | .queueStateCapture fn be val => Sys2Proof.Machine.execQueueStateCapture fn be val s
  | .wredSeedWrite fn be val => Sys2Proof.Machine.execWredSeedWrite fn be val s
  | .auditStart fn be val => Sys2Proof.Machine.execAuditStart fn be val s
  | .auditDone => Sys2Proof.Machine.execAuditDone s
  | .dequeueDecision port fault upset => Sys2Proof.Machine.execDequeueDecision port fault upset s
  | .tileReadReturn q res tile flips cxlPoison media => Sys2Proof.Machine.execTileReadReturn q res tile flips cxlPoison media s
  | .caParityError stack rank => Sys2Proof.Machine.execCaParityError stack rank s
  | .migrationDone stack => Sys2Proof.Machine.execMigrationDone stack s
  | .rankCeWindowEnd stack => Sys2Proof.Machine.execRankCeWindowEnd stack s
  | .rankEnable fn be stack rank => Sys2Proof.Machine.execRankEnable fn be stack rank s
  | .rankDisable fn be stack rank => Sys2Proof.Machine.execRankDisable fn be stack rank s
  | .rankTestDone stack rank pass => Sys2Proof.Machine.execRankTestDone stack rank pass s
  | .hbmPatrolVisit stack stripe flips => Sys2Proof.Machine.execHbmPatrolVisit stack stripe flips s
  | .sramPatrolVisit kind unit addr uncorrectable holds => Sys2Proof.Machine.execSramPatrolVisit kind unit addr uncorrectable holds s
  | .patrolRecordDeliver => Sys2Proof.Machine.execPatrolRecordDeliver s
  | .hbmTempBandChange stack band => Sys2Proof.Machine.execHbmTempBandChange stack band s
  | .hbmDelayApply stack => Sys2Proof.Machine.execHbmDelayApply stack s
  | .hbmMapWrite fn be val => Sys2Proof.Machine.execHbmMapWrite fn be val s
  | .hbmPartWrite fn be val => Sys2Proof.Machine.execHbmPartWrite fn be val s
  | .diagReadRaw fn be val raw => Sys2Proof.Machine.execDiagReadRaw fn be val raw s
  | .diagWriteRaw fn be val buf => Sys2Proof.Machine.execDiagWriteRaw fn be val buf s
  | .diagWriteEncoded fn be val buf => Sys2Proof.Machine.execDiagWriteEncoded fn be val buf s
  | .diagDone => Sys2Proof.Machine.execDiagDone s
  | .rsvPortEnable fn be n => Sys2Proof.Machine.execRsvPortEnable fn be n s
  | .rsvPortDisable fn be n => Sys2Proof.Machine.execRsvPortDisable fn be n s
  | .rsvPortFillDone n => Sys2Proof.Machine.execRsvPortFillDone n s
  | .rsvPortDrainDone n => Sys2Proof.Machine.execRsvPortDrainDone n s
  | .rsvPortLoss n => Sys2Proof.Machine.execRsvPortLoss n s
  | .reservoirPageCopy q => Sys2Proof.Machine.execReservoirPageCopy q s
  | .holdDest c entry device portOk port tcMask limit turn => Sys2Proof.Machine.execHoldDest c entry device portOk port tcMask limit turn s
  | .holdDestCancel c entry => Sys2Proof.Machine.execHoldDestCancel c entry s
  | .releaseDest c entry turn rate => Sys2Proof.Machine.execReleaseDest c entry turn rate s
  | .releaseDestCancel c entry => Sys2Proof.Machine.execReleaseDestCancel c entry s
  | .shaperRefill level => Sys2Proof.Machine.execShaperRefill level s
  | .voqVisit v => Sys2Proof.Machine.execVoqVisit v s
  | .queueEnable fn be => Sys2Proof.Machine.execQueueEnable fn be s
  | .queueDisable fn be => Sys2Proof.Machine.execQueueDisable fn be s
  | .queueDisableFlush fn be => Sys2Proof.Machine.execQueueDisableFlush fn be s
  | .queueDrainDone q => Sys2Proof.Machine.execQueueDrainDone q s
  | .queueLcSelect fn be val => Sys2Proof.Machine.execQueueLcSelect fn be val s
  | .nodeStateCapture fn be val => Sys2Proof.Machine.execNodeStateCapture fn be val s
  | .refillIntervalWrite fn be val => Sys2Proof.Machine.execRefillIntervalWrite fn be val s
  | .linkEnable fn be l => Sys2Proof.Machine.execLinkEnable fn be l s
  | .linkDisable fn be l => Sys2Proof.Machine.execLinkDisable fn be l s
  | .linkDrainDone l => Sys2Proof.Machine.execLinkDrainDone l s
  | .laneMarkerCheck l slot => Sys2Proof.Machine.execLaneMarkerCheck l slot s
  | .helloSend l => Sys2Proof.Machine.execHelloSend l s
  | .helloReceive l => Sys2Proof.Machine.execHelloReceive l s
  | .helloTimeout l => Sys2Proof.Machine.execHelloTimeout l s
  | .cellTransmit l => Sys2Proof.Machine.execCellTransmit l s
  | .cellReceive l bytes fec => Sys2Proof.Machine.execCellReceive l bytes fec s
  | .reorderGapTimeout src ctl => Sys2Proof.Machine.execReorderGapTimeout src ctl s
  | .reassemblyDeliver src d => Sys2Proof.Machine.execReassemblyDeliver src d s
  | .exchangeSetSend d => Sys2Proof.Machine.execExchangeSetSend d s
  | .exchangeSetReceive src => Sys2Proof.Machine.execExchangeSetReceive src s
  | .tagReportApply src => Sys2Proof.Machine.execTagReportApply src s
  | .creditGenerate port => Sys2Proof.Machine.execCreditGenerate port s
  | .voqCreditReturn q => Sys2Proof.Machine.execVoqCreditReturn q s
  | .grantForgive src => Sys2Proof.Machine.execGrantForgive src s
  | .reachReceive l => Sys2Proof.Machine.execReachReceive l s
  | .reachLapse l => Sys2Proof.Machine.execReachLapse l s
  | .linkStatusSend l => Sys2Proof.Machine.execLinkStatusSend l s
  | .linkStatusReceive l => Sys2Proof.Machine.execLinkStatusReceive l s
  | .linkRecover l => Sys2Proof.Machine.execLinkRecover l s
  | .linkAutoRestart l => Sys2Proof.Machine.execLinkAutoRestart l s
  | .remoteRd c device count offset result => Sys2Proof.Machine.execRemoteRd c device count offset result s
  | .remoteWr c device count offset param data => Sys2Proof.Machine.execRemoteWr c device count offset param data s
  | .remoteWrCommand c device param result desc => Sys2Proof.Machine.execRemoteWrCommand c device param result desc s
  | .remoteReqReceive => Sys2Proof.Machine.execRemoteReqReceive s
  | .remoteRspReceive => Sys2Proof.Machine.execRemoteRspReceive s
  | .remoteTimeout id => Sys2Proof.Machine.execRemoteTimeout id s
  | .lateErrReceive => Sys2Proof.Machine.execLateErrReceive s
  | .levelSend => Sys2Proof.Machine.execLevelSend s
  | .levelReceive => Sys2Proof.Machine.execLevelReceive s
  | .peerForget peer => Sys2Proof.Machine.execPeerForget peer s
  | .diceArm fn be unit val => Sys2Proof.Machine.execDiceArm fn be unit val s
  | .diceCancel fn be w => Sys2Proof.Machine.execDiceCancel fn be w s
  | .portEnable fn be p => Sys2Proof.Machine.execPortEnable fn be p s
  | .portDisable fn be p => Sys2Proof.Machine.execPortDisable fn be p s
  | .portDrainDone p => Sys2Proof.Machine.execPortDrainDone p s
  | .lineLinkUp p => Sys2Proof.Machine.execLineLinkUp p s
  | .lineLinkDown p lock fec hiSer => Sys2Proof.Machine.execLineLinkDown p lock fec hiSer s
  | .frameTransmit id begun underrun => Sys2Proof.Machine.execFrameTransmit id begun underrun s
  | .tsFifoPop fn be p => Sys2Proof.Machine.execTsFifoPop fn be p s
  | .otnFrameReceive slice frame => Sys2Proof.Machine.execOtnFrameReceive slice frame s
  | .otnDefectTimer slice => Sys2Proof.Machine.execOtnDefectTimer slice s
  | .gmpJcPeriod slot transmit good cm => Sys2Proof.Machine.execGmpJcPeriod slot transmit good cm s
  | .clientFrameDemap client gfp bytes arrived fcsOk => Sys2Proof.Machine.execClientFrameDemap client gfp bytes arrived fcsOk s
  | .cmPageWrite fn be page slot val => Sys2Proof.Machine.execCmPageWrite fn be page slot val s
  | .tsiSwapArm fn be val => Sys2Proof.Machine.execTsiSwapArm fn be val s
  | .tsiSwapCancel fn be val => Sys2Proof.Machine.execTsiSwapCancel fn be val s
  | .tsiPortPageChange p => Sys2Proof.Machine.execTsiPortPageChange p s
  | .tbsCtrlWrite fn be val => Sys2Proof.Machine.execTbsCtrlWrite fn be val s
  | .todArm fn be val low => Sys2Proof.Machine.execTodArm fn be val low s
  | .ppsPulse offset => Sys2Proof.Machine.execPpsPulse offset s
  | .servoOffsetWrite fn be val => Sys2Proof.Machine.execServoOffsetWrite fn be val s
  | .phaseAdjust fn be val => Sys2Proof.Machine.execPhaseAdjust fn be val s
  | .timeStep fn be val low => Sys2Proof.Machine.execTimeStep fn be val low s
  | .turnLengthWrite fn be val => Sys2Proof.Machine.execTurnLengthWrite fn be val s
  | .measurementTimeout => Sys2Proof.Machine.execMeasurementTimeout s
  | .unlockTimeout => Sys2Proof.Machine.execUnlockTimeout s
  | .turnBoundary causes => Sys2Proof.Machine.execTurnBoundary causes s
  | .timeCapture fn be val => Sys2Proof.Machine.execTimeCapture fn be val s
  | .clkmonPeriodEnd ref0 ref1 tref xtal => Sys2Proof.Machine.execClkmonPeriodEnd ref0 ref1 tref xtal s
  | .clkmonSelect fn be val => Sys2Proof.Machine.execClkmonSelect fn be val s
  | .fmeasStart fn be val => Sys2Proof.Machine.execFmeasStart fn be val s
  | .fmeasGateEnd count stopped => Sys2Proof.Machine.execFmeasGateEnd count stopped s
  | .clockEnableWrite fn be val => Sys2Proof.Machine.execClockEnableWrite fn be val s
  | .clockStatusSettle => Sys2Proof.Machine.execClockStatusSettle s
  | .recipeLoad c slot source store entry addr length => Sys2Proof.Machine.execRecipeLoad c slot source store entry addr length s
  | .recipeFetchDone slot fetched => Sys2Proof.Machine.execRecipeFetchDone slot fetched s
  | .recipeAuthFailComplete slot => Sys2Proof.Machine.execRecipeAuthFailComplete slot s
  | .recipeSlotReady slot => Sys2Proof.Machine.execRecipeSlotReady slot s
  | .recipeStoreWriteDone entry => Sys2Proof.Machine.execRecipeStoreWriteDone entry s
  | .recipeActivate c slot turn => Sys2Proof.Machine.execRecipeActivate c slot turn s
  | .recipeActivateCancel c slot => Sys2Proof.Machine.execRecipeActivateCancel c slot s
  | .recipeSlotRelease => Sys2Proof.Machine.execRecipeSlotRelease s
  | .recipeAutostart => Sys2Proof.Machine.execRecipeAutostart s
  | .minSerialWrite fn be val low => Sys2Proof.Machine.execMinSerialWrite fn be val low s
  | .recipeBootWrite fn be val => Sys2Proof.Machine.execRecipeBootWrite fn be val s
  | .replayStart fn be val => Sys2Proof.Machine.execReplayStart fn be val s
  | .replayTailWrite fn be val => Sys2Proof.Machine.execReplayTailWrite fn be val s
  | .replayRecordFetch data => Sys2Proof.Machine.execReplayRecordFetch data s
  | .replayRecordRelease => Sys2Proof.Machine.execReplayRecordRelease s
  | .registerWrite fn bar addr be val high => Sys2Proof.Machine.execRegisterWrite fn bar addr be val high s
  | .registerReadClear fn bar addr be => Sys2Proof.Machine.execRegisterReadClear fn bar addr be s
  | .pairLowRead fn addr be wide => Sys2Proof.Machine.execPairLowRead fn addr be wide s
  | .pairHighRead fn addr be => Sys2Proof.Machine.execPairHighRead fn addr be s
  | .hostAccessTimeout fn addr isRead => Sys2Proof.Machine.execHostAccessTimeout fn addr isRead s
  | .fenceRead fn be => Sys2Proof.Machine.execFenceRead fn be s
  | .fenceComplete fn => Sys2Proof.Machine.execFenceComplete fn s
  | .ruleWrite fn addr be val => Sys2Proof.Machine.execRuleWrite fn addr be val s
  | .commandTailDoorbell fn ring be val => Sys2Proof.Machine.execCommandTailDoorbell fn ring be val s
  | .completionHeadDoorbell fn ring be val => Sys2Proof.Machine.execCompletionHeadDoorbell fn ring be val s
  | .commandFetch fn ring desc otherWaits => Sys2Proof.Machine.execCommandFetch fn ring desc otherWaits s
  | .completionPost fn ring => Sys2Proof.Machine.execCompletionPost fn ring s
  | .refusalComplete => Sys2Proof.Machine.execRefusalComplete s
  | .eventRecordDeliver fn => Sys2Proof.Machine.execEventRecordDeliver fn s
  | .critPendClear fn be val => Sys2Proof.Machine.execCritPendClear fn be val s
  | .functionLevelReset fn => Sys2Proof.Machine.execFunctionLevelReset fn s
  | .counterSelect fn be val poison => Sys2Proof.Machine.execCounterSelect fn be val poison s
  | .counterWrite fn be clearWrap => Sys2Proof.Machine.execCounterWrite fn be clearWrap s
  | .counterClear fn be clearWrap => Sys2Proof.Machine.execCounterClear fn be clearWrap s
  | .counterClearStripe fn be clearWrap => Sys2Proof.Machine.execCounterClearStripe fn be clearWrap s
  | .snapAt c mask turn dest arrMask len => Sys2Proof.Machine.execSnapAt c mask turn dest arrMask len s
  | .snapshotFinal buf => Sys2Proof.Machine.execSnapshotFinal buf s
  | .snapshotWriteDone buf => Sys2Proof.Machine.execSnapshotWriteDone buf s
  | .pmuEvselWrite fn be d k val => Sys2Proof.Machine.execPmuEvselWrite fn be d k val s
  | .pmuCounterWrite fn be d k val low => Sys2Proof.Machine.execPmuCounterWrite fn be d k val low s
  | .sampleRecordDeliver => Sys2Proof.Machine.execSampleRecordDeliver s
  | .pmuFreezeArm fn be val => Sys2Proof.Machine.execPmuFreezeArm fn be val s
  | .pmuResumeArm fn be val => Sys2Proof.Machine.execPmuResumeArm fn be val s
  | .pmuFreezeCancel fn be val => Sys2Proof.Machine.execPmuFreezeCancel fn be val s
  | .pmuFreezeFinal => Sys2Proof.Machine.execPmuFreezeFinal s
  | .pmuRunWrite fn be d val => Sys2Proof.Machine.execPmuRunWrite fn be d val s
  | .porRelease recoveryN testMode addr => Sys2Proof.Machine.execPorRelease recoveryN testMode addr s
  | .brownout rail => Sys2Proof.Machine.execBrownout rail s
  | .powerLoss => Sys2Proof.Machine.execPowerLoss s
  | .pllLock banks recoveryN => Sys2Proof.Machine.execPllLock banks recoveryN s
  | .firmwareRunning => Sys2Proof.Machine.execFirmwareRunning s
  | .bootWatchdogExpire => Sys2Proof.Machine.execBootWatchdogExpire s
  | .memoryFillDone which failed => Sys2Proof.Machine.execMemoryFillDone which failed s
  | .warmResetRequest fn be val => Sys2Proof.Machine.execWarmResetRequest fn be val s
  | .tdResetRequest fn be val => Sys2Proof.Machine.execTdResetRequest fn be val s
  | .perstAssert => Sys2Proof.Machine.execPerstAssert s
  | .tdHeartbeat => Sys2Proof.Machine.execTdHeartbeat s
  | .tdWatchdogExpire => Sys2Proof.Machine.execTdWatchdogExpire s
  | .tdRestartDone => Sys2Proof.Machine.execTdRestartDone s
  | .blockReset fn be val => Sys2Proof.Machine.execBlockReset fn be val s
  | .blockResetDone => Sys2Proof.Machine.execBlockResetDone s
  | .i2cWarmResetRequest val => Sys2Proof.Machine.execI2cWarmResetRequest val s
  | .i2cTdResetRequest val => Sys2Proof.Machine.execI2cTdResetRequest val s
  | .i2cBrownoutClear val => Sys2Proof.Machine.execI2cBrownoutClear val s
  | .fwCrumb c addr bytes => Sys2Proof.Machine.execFwCrumb c addr bytes s
  | .fwCrumbRestart c addr bytes => Sys2Proof.Machine.execFwCrumbRestart c addr bytes s
  | .inbandCrumbReceive payload => Sys2Proof.Machine.execInbandCrumbReceive payload s
  | .fwVerifyQuery c dest => Sys2Proof.Machine.execFwVerifyQuery c dest s
  | .fwVerify c => Sys2Proof.Machine.execFwVerify c s
  | .fwVerifyAuthFail => Sys2Proof.Machine.execFwVerifyAuthFail s
  | .fwBankWriteDone => Sys2Proof.Machine.execFwBankWriteDone s
  | .fwActivate c turn => Sys2Proof.Machine.execFwActivate c turn s
  | .fwActivateCancel c => Sys2Proof.Machine.execFwActivateCancel c s
  | .fwShadowReady => Sys2Proof.Machine.execFwShadowReady s
  | .dataPathPauseEnd => Sys2Proof.Machine.execDataPathPauseEnd s
  | .fwMgmtResume => Sys2Proof.Machine.execFwMgmtResume s
  | .fwRevert c turn => Sys2Proof.Machine.execFwRevert c turn s
  | .fwRevertCancel c => Sys2Proof.Machine.execFwRevertCancel c s
  | .arbRaise fn be val => Sys2Proof.Machine.execArbRaise fn be val s
  | .keyProgram fn be val hash => Sys2Proof.Machine.execKeyProgram fn be val hash s
  | .keyRevoke fn be val => Sys2Proof.Machine.execKeyRevoke fn be val s
  | .fuseOperationDone => Sys2Proof.Machine.execFuseOperationDone s
  | .recoveryGo fn be val window => Sys2Proof.Machine.execRecoveryGo fn be val window s
  | .recoveryVerify fn be val checks => Sys2Proof.Machine.execRecoveryVerify fn be val checks s
  | .recoveryVerifyDone => Sys2Proof.Machine.execRecoveryVerifyDone s
  | .recoveryReboot fn be val => Sys2Proof.Machine.execRecoveryReboot fn be val s
  | .mgmtCrumbFrame bytes => Sys2Proof.Machine.execMgmtCrumbFrame bytes s
  | .mgmtQueryFrame bytes => Sys2Proof.Machine.execMgmtQueryFrame bytes s
  | .mgmtVerifyFrame bytes checks => Sys2Proof.Machine.execMgmtVerifyFrame bytes checks s
  | .mgmtRebootFrame bytes => Sys2Proof.Machine.execMgmtRebootFrame bytes s
  | .bootConfigStore fn be val record => Sys2Proof.Machine.execBootConfigStore fn be val record s
  | .bootConfigStoreDone => Sys2Proof.Machine.execBootConfigStoreDone s
  | .sensorUpdate temps rails => Sys2Proof.Machine.execSensorUpdate temps rails s
  | .thermalTrip temps => Sys2Proof.Machine.execThermalTrip temps s
  | .ledFrameShift => Sys2Proof.Machine.execLedFrameShift s
  | .calibrationUserWrite fn be k val => Sys2Proof.Machine.execCalibrationUserWrite fn be k val s
  | .exmOverlapClose t => Sys2Proof.Machine.execExmOverlapClose t s
  | .cxlLinkTrainingDone n usable x4 gt32 pages => Sys2Proof.Machine.execCxlLinkTrainingDone n usable x4 gt32 pages s
  | .perstRelease => Sys2Proof.Machine.execPerstRelease s
  | .railRecovery => Sys2Proof.Machine.execRailRecovery s
  | .stagedImageCheckDone checks => Sys2Proof.Machine.execStagedImageCheckDone checks s

end Sys2Proof.Machine
end

