-- ==== Sys2Proof/Safety.lean ====
section
/-!
DEFINITION. Safety.lean: what a well-kept state, a step that proceeds and a framed step are. A state is well kept when its registers
are in their one canonical form, so that equal registers are equal data; a step proceeds when it answers a next state; a command's
frame is the parts of the state it may touch, and the registers it may change.
-/

namespace Sys2Proof

open Machine

/-- The registers are in canonical form: addresses strictly rising, and none listed at its reset value. -/
def RegsCanonical (s : State) : Prop := canonical regReset s.regs = true

/-- A step that neither faults nor refuses. -/
def Proceeds (s : State) : Prop := ∃ t, step s = .next t

/-- The parts of the state beside the queue and the counter of free values. -/
inductive Part where
  | regs | out | time | clk | sched | host | svc | fw | flash | recipe | tab
  | txf | txns | fd | cnt | brg | buf | lif | mem | fab
  deriving DecidableEq, Repr

/-- A part is the same in two states. -/
def Part.same (p : Part) (s t : State) : Prop :=
  match p with
  | .regs => t.regs = s.regs
  | .out => t.out = s.out
  | .time => t.time = s.time
  | .clk => t.clk = s.clk
  | .sched => t.sched = s.sched
  | .host => t.host = s.host
  | .svc => t.svc = s.svc
  | .fw => t.fw = s.fw
  | .flash => t.flash = s.flash
  | .recipe => t.recipe = s.recipe
  | .tab => t.tab = s.tab
  | .txf => t.txf = s.txf
  | .txns => t.txns = s.txns
  | .fd => t.fd = s.fd
  | .cnt => t.cnt = s.cnt
  | .brg => t.brg = s.brg
  | .buf => t.buf = s.buf
  | .lif => t.lif = s.lif
  | .mem => t.mem = s.mem
  | .fab => t.fab = s.fab

/-- Every part but the ones listed is the same, and so is the queue. -/
def OnlyParts (l : List Part) (s t : State) : Prop := t.pending = s.pending ∧ ∀ p, p ∉ l → p.same s t

/-- Every register but the ones listed reads the same. -/
def RegsBut (l : List Nat) (s t : State) : Prop := ∀ a, a ∉ l → t.rdWord a = s.rdWord a

/-- The parts of the state that a command may change: every other part is the same after it, whatever its operands. -/
def Instr.touches : Instr → List Part
  | .bridgeUnitReceive .. =>
    [.regs, .out, .host, .fd, .cnt, .brg, .lif, .fab]
  | .bridgeReplayRequest .. =>
    [.regs, .cnt, .brg]
  | .bridgeLaneFailure .. | .spareLaneSwitchDone .. =>
    [.regs, .out, .host, .brg]
  | .tdTimeTransfer .. =>
    [.time]
  | .frameReceive .. | .clientFrameDemap .. | .replayRecordRelease .. =>
    [.regs, .out, .fd, .lif]
  | .pfcXoffRepeat .. =>
    [.regs, .out, .lif]
  | .pfcFrameReceive .. | .pfcPauseExpire .. | .gmpJcPeriod .. | .otnDefectTimer .. =>
    [.regs, .lif]
  | .otnFrameReceive .. =>
    [.regs, .clk, .lif]
  | .eopStatusArrive .. | .ingressSectionExit .. | .egressSectionExit .. =>
    [.regs, .out, .tab, .txf, .fd, .cnt, .brg, .lif]
  | .parseAccept .. =>
    [.regs, .fd, .cnt]
  | .parseComplete .. | .scanTimeout .. =>
    [.regs, .out, .fd, .cnt, .brg, .lif]
  | .captureArm .. | .pipelineDrainDone .. | .pipelineEnable .. | .pipelineDisable .. | .hostRingTailWrite ..
  | .poolSizeWrite .. | .poolLimitWrite .. | .queueStateCapture .. | .rankEnable .. | .hbmMapWrite .. | .queueLcSelect ..
  | .nodeStateCapture .. | .refillIntervalWrite .. | .cmPageWrite .. | .timeCapture .. | .fmeasStart ..
  | .clockEnableWrite .. | .minSerialWrite .. | .recipeBootWrite .. | .replayTailWrite .. | .pairLowRead ..
  | .pairHighRead .. | .hostAccessTimeout .. | .fenceRead .. | .fenceComplete .. | .ruleWrite .. | .commandTailDoorbell ..
  | .completionHeadDoorbell .. | .completionPost .. | .eventRecordDeliver .. | .critPendClear .. | .pmuEvselWrite ..
  | .pmuCounterWrite .. | .pmuRunWrite .. =>
    [.regs, .out, .host]
  | .bar2Read .. | .hbmPatrolVisit .. =>
    [.regs, .out, .host, .cnt, .mem]
  | .registerReadClear .. | .tsFifoPop .. | .tsiPortPageChange .. =>
    [.regs, .out, .host, .lif]
  | .portStartWrite .. | .setEnable .. | .setDisable .. | .setDrainDone .. | .pipelineReloadDone ..
  | .controlWordReloadDone .. | .replayStart .. =>
    [.regs, .out, .host, .fd]
  | .scanShift .. =>
    [.regs, .out, .host, .fd, .cnt, .mem]
  | .scanStallResume .. | .scannerRelease .. | .laneReturnComplete .. =>
    [.fd]
  | .stageIssue .. | .intentExecute .. | .chainRoomResume .. =>
    [.regs, .txf, .fd, .cnt]
  | .stageLookupReturn .. =>
    [.regs, .out, .host, .tab, .fd, .cnt, .mem]
  | .stageAction .. =>
    [.regs, .out, .host, .txf, .fd, .cnt]
  | .controlStorePatrol .. | .replayRecordFetch .. | .fwShadowReady .. =>
    [.regs, .fd]
  | .intentSettle .. =>
    [.txf]
  | .chainWaitTimeout .. =>
    [.regs, .txf, .fd]
  | .verdictReceive .. =>
    [.regs, .tab, .txf, .fd, .cnt, .brg]
  | .txnOpen .. | .txnStageAsmInsert .. | .txnStageAsmDelete .. | .txnStageAsmModify .. | .txnStageAsmRewrite ..
  | .txnStageExmInsert .. | .txnStageExmDelete .. | .txnStageExmModify .. | .txnStageArrayWrite ..
  | .txnStageArrayClear .. | .txnStageTdWrite .. | .txnPrepare .. =>
    [.regs, .host, .txns, .fab]
  | .txnPrepareComplete .. =>
    [.regs, .out, .host, .tab, .txns, .cnt, .mem, .fab]
  | .txnCommit .. | .txnCommitCancel .. =>
    [.regs, .sched, .host, .txns, .fab]
  | .txnAbort .. =>
    [.regs, .out, .sched, .host, .tab, .txns, .cnt, .mem, .fab]
  | .asmOverlapClose .. | .iterationContextExpire .. =>
    [.regs, .tab]
  | .learnPlace .. | .learnStateAlways .. | .ageingSweepVisit .. | .exmOverlapClose .. | .bucketLock ..
  | .bucketUnlockCommit .. | .bucketUnlockDiscard .. | .bucketLockExpire .. | .diagDone .. =>
    [.regs, .out, .host, .tab, .cnt, .mem]
  | .asmWalkerVisit .. =>
    [.regs, .out, .host, .tab, .mem]
  | .caParityError .. | .migrationDone .. | .rankDisable .. | .rankTestDone .. | .patrolRecordDeliver .. | .diagReadRaw ..
  | .diagWriteRaw .. | .diagWriteEncoded .. =>
    [.regs, .out, .host, .mem]
  | .search .. =>
    [.regs, .out, .host, .cnt, .mem, .fab]
  | .linkRecover .. | .remoteRspReceive .. | .lateErrReceive .. | .refusalComplete .. | .fwVerifyQuery .. =>
    [.regs, .out, .host, .fab]
  | .next .. | .flushPortDone .. | .flushPort .. =>
    [.regs, .out, .host, .tab, .cnt, .mem, .fab]
  | .ageLimitWrite .. | .learnRecordDeliver .. | .shadowCompareStart .. =>
    [.regs, .out, .host, .tab]
  | .bucketStagingWrite .. | .bucketEntryWrite .. =>
    [.regs, .out, .host, .svc, .tab, .cnt, .mem]
  | .shadowCompareDone .. =>
    [.regs, .out, .tab]
  | .bodyStagingWrite .. =>
    [.regs, .out, .host, .fd, .buf, .mem]
  | .discardNotice .. =>
    [.regs, .out, .host, .brg, .buf]
  | .stagingExpire .. | .auditDone .. | .wredSeedWrite .. | .auditStart .. | .hbmPartWrite .. | .rsvPortDisable ..
  | .rsvPortFillDone .. | .queueEnable .. | .queueDisable .. | .queueDisableFlush .. | .queueDrainDone ..
  | .cxlLinkTrainingDone .. =>
    [.regs, .out, .host, .buf]
  | .admissionDecision .. =>
    [.regs, .out, .host, .cnt, .brg, .buf, .lif, .mem]
  | .dequeueDecision .. =>
    [.regs, .out, .host, .fd, .cnt, .buf, .lif, .mem]
  | .tileReadReturn .. | .reservoirPageCopy .. =>
    [.regs, .out, .host, .cnt, .buf, .mem]
  | .rankCeWindowEnd .. =>
    [.regs, .mem]
  | .sramPatrolVisit .. =>
    [.regs, .out, .host, .tab, .txf, .buf, .mem]
  | .hbmTempBandChange .. =>
    [.svc, .mem]
  | .hbmDelayApply .. =>
    [.regs, .svc, .mem]
  | .rsvPortEnable .. | .rsvPortDrainDone .. | .rsvPortLoss .. =>
    [.regs, .out, .host, .svc, .buf]
  | .holdDest .. | .holdDestCancel .. =>
    [.regs, .out, .sched, .host, .fab]
  | .releaseDest .. =>
    [.regs, .out, .sched, .host, .buf, .fab]
  | .releaseDestCancel .. =>
    [.regs, .sched, .host, .buf, .fab]
  | .shaperRefill .. =>
    [.buf]
  | .voqVisit .. | .reassemblyDeliver .. =>
    [.regs, .out, .host, .cnt, .buf, .lif, .mem, .fab]
  | .linkEnable .. | .linkAutoRestart .. =>
    [.regs, .out, .host, .svc, .fab]
  | .linkDisable .. | .linkDrainDone .. | .helloReceive .. | .helloTimeout .. | .reachReceive .. | .reachLapse ..
  | .linkStatusReceive .. =>
    [.regs, .out, .host, .svc, .buf, .fab]
  | .laneMarkerCheck .. | .levelReceive .. | .peerForget .. =>
    [.regs, .fab]
  | .helloSend .. | .exchangeSetSend .. | .tagReportApply .. | .grantForgive .. | .linkStatusSend .. | .levelSend .. =>
    [.fab]
  | .cellTransmit .. =>
    [.regs, .out, .host, .svc, .cnt, .buf, .fab]
  | .cellReceive .. =>
    [.regs, .out, .host, .svc, .cnt, .buf, .mem, .fab]
  | .reorderGapTimeout .. =>
    [.regs, .out, .host, .cnt, .buf, .fab]
  | .creditGenerate .. =>
    [.regs, .cnt, .buf, .fab]
  | .exchangeSetReceive .. | .voqCreditReturn .. =>
    [.buf, .fab]
  | .remoteRd .. | .remoteWr .. | .remoteWrCommand .. | .remoteTimeout .. | .commandFetch .. =>
    [.regs, .host, .fab]
  | .remoteReqReceive .. =>
    [.regs, .out, .clk, .host, .lif, .fab]
  | .diceArm .. | .diceCancel .. | .tsiSwapArm .. | .tsiSwapCancel .. | .pmuFreezeArm .. | .pmuResumeArm ..
  | .pmuFreezeCancel .. =>
    [.regs, .out, .sched, .host]
  | .portEnable .. =>
    [.regs, .out, .host, .svc, .lif]
  | .portDisable .. =>
    [.regs, .out, .clk, .host, .lif]
  | .portDrainDone .. =>
    [.regs, .out, .clk, .host, .svc, .lif]
  | .lineLinkUp .. | .lineLinkDown .. =>
    [.regs, .clk]
  | .frameTransmit .. =>
    [.regs, .out, .fd, .cnt, .brg, .lif, .fab]
  | .fmeasGateEnd .. | .clockStatusSettle .. | .pmuFreezeFinal .. | .blockResetDone .. | .i2cBrownoutClear .. =>
    [.regs]
  | .tbsCtrlWrite .. | .servoOffsetWrite .. | .measurementTimeout .. | .unlockTimeout .. =>
    [.regs, .out, .time, .sched, .host, .recipe, .txns, .cnt, .buf, .fab]
  | .ppsPulse .. =>
    [.regs, .out, .time, .sched, .host, .recipe, .tab, .txns, .cnt, .buf, .fab]
  | .clkmonSelect .. | .clkmonPeriodEnd .. =>
    [.regs, .out, .time, .clk, .sched, .host, .recipe, .txns, .cnt, .buf, .fab]
  | .todArm .. | .phaseAdjust .. =>
    [.regs, .out, .time, .host]
  | .timeStep .. =>
    [.regs, .out, .time, .host, .tab]
  | .turnLengthWrite .. =>
    [.regs, .out, .time, .host, .recipe, .tab]
  | .turnBoundary .. =>
    [.regs, .out, .time, .sched, .host, .svc, .flash, .recipe, .tab, .txf, .txns, .fd, .cnt, .brg, .buf, .lif, .mem, .fab]
  | .recipeLoad .. | .recipeAuthFailComplete .. =>
    [.regs, .out, .host, .recipe, .tab, .txf, .txns, .fab]
  | .recipeFetchDone .. =>
    [.regs, .out, .host, .recipe, .tab, .txf, .txns, .cnt, .mem, .fab]
  | .recipeSlotReady .. =>
    [.regs, .out, .sched, .host, .recipe, .tab, .fd, .cnt, .mem, .fab]
  | .recipeStoreWriteDone .. =>
    [.regs, .out, .host, .recipe]
  | .recipeActivate .. | .recipeActivateCancel .. =>
    [.regs, .sched, .host, .recipe, .fab]
  | .recipeSlotRelease .. | .recipeAutostart .. =>
    [.regs, .out, .host, .recipe, .tab, .txf, .txns]
  | .registerWrite .. =>
    [.regs, .out, .clk, .host]
  | .functionLevelReset .. =>
    [.regs, .host]
  | .counterSelect .. | .counterWrite .. | .counterClear .. | .counterClearStripe .. | .sampleRecordDeliver .. =>
    [.regs, .out, .host, .cnt]
  | .snapAt .. =>
    [.regs, .sched, .host, .cnt, .fab]
  | .snapshotFinal .. =>
    [.regs, .cnt]
  | .snapshotWriteDone .. =>
    [.regs, .out, .host, .cnt, .fab]
  | .porRelease .. | .bootConfigStoreDone .. | .thermalTrip .. | .railRecovery .. =>
    [.regs, .svc]
  | .dataPathPauseEnd .. =>
    [.regs, .svc, .fd]
  | .brownout .. | .powerLoss .. =>
    [.regs, .time, .clk, .sched, .host, .svc, .fw, .flash, .recipe, .tab, .txf, .txns, .fd, .cnt, .brg, .buf, .lif, .mem, .fab]
  | .pllLock .. =>
    [.regs, .svc, .fw, .flash]
  | .firmwareRunning .. | .bootConfigStore .. | .sensorUpdate .. | .calibrationUserWrite .. =>
    [.regs, .out, .host, .svc]
  | .bootWatchdogExpire .. | .warmResetRequest .. | .perstAssert .. | .i2cWarmResetRequest .. | .recoveryReboot ..
  | .mgmtRebootFrame .. =>
    [.regs, .out, .time, .clk, .sched, .host, .svc, .fw, .flash, .recipe, .tab, .txf, .txns, .fd, .cnt, .brg, .buf, .lif, .mem, .fab]
  | .memoryFillDone .. =>
    [.regs, .out, .time, .sched, .host, .svc, .recipe, .tab, .txns, .cnt, .buf, .lif, .mem, .fab]
  | .tdResetRequest .. | .tdWatchdogExpire .. | .i2cTdResetRequest .. =>
    [.regs, .out, .sched, .host, .svc, .recipe, .tab, .txf, .txns, .fd, .cnt, .brg, .buf, .lif, .mem, .fab]
  | .tdHeartbeat .. | .perstRelease .. =>
    [.svc]
  | .tdRestartDone .. =>
    [.regs, .out, .time, .sched, .host, .svc, .recipe, .tab, .txns, .fd, .cnt, .buf, .lif, .fab]
  | .blockReset .. =>
    [.regs, .out, .sched, .host, .svc, .recipe, .txns, .fd, .cnt, .brg, .buf, .lif, .fab]
  | .fwCrumb .. | .fwCrumbRestart .. | .fwVerify .. | .fwVerifyAuthFail .. | .fwBankWriteDone .. | .stagedImageCheckDone .. =>
    [.regs, .host, .flash, .fab]
  | .inbandCrumbReceive .. | .mgmtCrumbFrame .. | .mgmtVerifyFrame .. =>
    [.regs, .flash]
  | .fwActivate .. | .fwActivateCancel .. | .fwRevert .. | .fwRevertCancel .. =>
    [.regs, .sched, .host, .fab]
  | .fwMgmtResume .. =>
    [.regs, .out, .host, .svc, .fw, .flash, .fab]
  | .arbRaise .. | .keyProgram .. | .keyRevoke .. | .fuseOperationDone .. | .recoveryVerify .. =>
    [.regs, .out, .host, .flash]
  | .recoveryGo .. =>
    [.regs, .out, .host, .svc, .flash]
  | .recoveryVerifyDone .. =>
    [.regs, .out, .flash]
  | .mgmtQueryFrame .. | .ledFrameShift .. =>
    [.out]

/-- The commands that may change the turn number: a turn boundary, a change of system time or of the turn length, a 1 PPS edge
with an armed time of day, and what makes or ends a reset. -/
def Instr.movesTurn : Instr → Bool
  | .ppsPulse .. | .timeStep .. | .turnLengthWrite .. | .turnBoundary .. | .brownout .. | .powerLoss ..
  | .bootWatchdogExpire .. | .memoryFillDone .. | .warmResetRequest .. | .perstAssert .. | .tdRestartDone ..
  | .i2cWarmResetRequest .. | .recoveryReboot .. | .mgmtRebootFrame .. => true
  | _ => false

/-- From a state, a command answers a next state, and of that state something holds. -/
def Runs (c : Instr) (s : State) (P : State → Prop) : Prop := ∃ t, exec c s = .next t ∧ P t

/-- The checks of a write to BAR0 all pass: the endpoint answers the function (R427), the address lies in a block (R437), the
function may write it (R429, R457), the block can be reached (R438), its clock runs (R62), and a trigger register is written
whole (R433). -/
def writeTaken (s : State) (fn addr be : Nat) (trigger : Bool) : Bool :=
  s.answers fn && !(trigger && be != 15) && match blockOf addr with
    | some b => (if fn = 1 then s.pf1Denied addr true else none).isNone && !(16 ≤ accessBit addr b.bit && s.tdDown) && s.clockRuns (accessBit addr b.bit)
    | none => false

/-- The checks of a read of BAR0 all pass. -/
def readTaken (s : State) (fn addr : Nat) : Bool :=
  s.answers fn && match blockOf addr with
    | some b => (if fn = 1 then s.pf1Denied addr false else none).isNone && !(16 ≤ accessBit addr b.bit && s.tdDown) && s.clockRuns (accessBit addr b.bit)
    | none => false

/-- A write that passes its checks. -/
abbrev WriteTaken (s : State) (fn addr be : Nat) (trigger : Bool) : Prop := writeTaken s fn addr be trigger = true

/-- A read that passes its checks. -/
abbrev ReadTaken (s : State) (fn addr : Nat) : Prop := readTaken s fn addr = true

/-- A command's checks of rights and windows have passed, and it can run now (R429, R446, R448, R491, R534). -/
def commandTaken (s : State) (c : Cmd) (opcode : Nat) (need : List Fld) (extents : List (Nat × Nat)) : Bool :=
  !s.answered c && (s.admitted c || (s.hasRights c need && s.hasWindows c extents && !s.tooEarly opcode && !s.svc.handover))

/-- A command whose checks pass. -/
abbrev CommandTaken (s : State) (c : Cmd) (opcode : Nat) (need : List Fld) (extents : List (Nat × Nat)) : Prop :=
  commandTaken s c opcode need extents = true

/-- A command on a transaction handle whose checks pass, with the TD out of reset and the handle FREE or the issuer's own, and neither
ABORTED nor FAILED_PREPARED (R221, R222, R438). -/
def txnTaken (s : State) (c : Cmd) (h opcode : Nat) (need : List Fld) (extents : List (Nat × Nat)) : Bool :=
  commandTaken s c opcode (rightOf opcode ++ need) extents && h < 64 &&
  (s.txState h == txFree || s.rd (R.TXT_TXN_w0_owner h) == cmdFn c) && !s.tdDown &&
  s.txState h != txAborted && s.txState h != txFailed

/-- A command on a handle whose checks pass. -/
abbrev TxnTaken (s : State) (c : Cmd) (h opcode : Nat) (need : List Fld) (extents : List (Nat × Nat)) : Prop :=
  txnTaken s c h opcode need extents = true

/-- A command of a ring, one that no reset of its endpoint has orphaned, is answered with a status: its completion waits behind those
that waited (R450, R454). -/
def Answers (c : Cmd) (status : Nat) (s t : State) : Prop :=
  ∀ f r n, c.src = .ring f r n → s.host.orphans.contains (f, r, n) = false →
    ∃ d u, t.host.cplQueue = s.host.cplQueue ++ [⟨f, r, n, status, d, u, status != stAccepted⟩]

/-- What a TXN_STAGE does whose checks pass, on an OPEN handle, for a write that R224 allows: it stands behind the writes staged before,
or in the place of the one with its key, and the command completes DONE; with 4,096 writes staged on the handle it completes NO_RESOURCE. -/
def Stages (c : Cmd) (h : Nat) (w : Staged) (s t : State) : Prop :=
  (∀ i, (s.upd h).writes.findIdx? (fun y => s.sameKey y w) = some i →
    (t.upd h).writes = (s.upd h).writes.set i w ∧ Answers c stDone s t) ∧
  ((s.upd h).writes.findIdx? (fun y => s.sameKey y w) = none → (s.upd h).writes.length < 4096 →
    s.rd R.TXT_STAGED_writes < 65536 → (t.upd h).writes = (s.upd h).writes ++ [w] ∧ Answers c stDone s t) ∧
  ((s.upd h).writes.findIdx? (fun y => s.sameKey y w) = none → 4096 ≤ (s.upd h).writes.length →
    (t.upd h).writes = (s.upd h).writes ∧ Answers c stNoResource s t)

/-- A write through BAR2 whose checks pass, to a bucket of a table in DMA mode (R62, R162, R429, R439): what it shows. -/
def bar2Taken (s : State) (fn addr : Nat) (w : Win) : Bool :=
  s.answers fn && s.clockRuns (blockBit (R.EXM_WIN 0)) && s.rd (R.HAC_BAR2_SEL_target fn) != 1 && s.window fn addr == some w &&
  (fn != 1 || s.on (grantExm w.index)) && !(w.table.d.hbm && s.tdDown) && w.table.decl.dma

/-- A write through BAR2 whose checks pass. -/
abbrev Bar2Taken (s : State) (fn addr : Nat) (w : Win) : Prop := bar2Taken s fn addr w = true

/-- What a warm reset leaves, with its cause (R490, R496, R497, R513, R558): the device is at stage 2 with nothing of its work left, every
register keeps its RWS fields and what the pins, the flash and the fuses hold, and the cause is shown. -/
def WarmResetDone (cause : Nat) (s t : State) : Prop :=
  t.rd R.GLB_SERVICE_stage = 2 ∧ t.rd R.GLB_RESET_CAUSE_last_warm = cause ∧
  t.rd R.GLB_RESET_CAUSE_warm_count = satAdd 8 (s.rd R.GLB_RESET_CAUSE_warm_count) 1 ∧ t.svc.fwRunning = false ∧
  t.svc.pllLocked = false ∧ t.svc.coreRun = false ∧ t.svc.recovery = false ∧ t.time.elapsed = s.time.elapsed ∧
  t.flash.banks = s.flash.banks ∧ t.recipe.store = s.recipe.store ∧ t.fd = State.reset.fd ∧ t.buf = State.reset.buf ∧
  t.tab = State.reset.tab ∧
  ∀ a, a ∉ [R.GLB_SERVICE, R.GLB_EPOCH, R.GLB_RESET_CAUSE, R.FWS_FW_SECVER, R.FWS_RCP_STORE_w0 0, R.FWS_RCP_STORE_w0 1,
    R.FWS_RCP_STORE_w0 2, R.FWS_FW_STATUS, R.FWS_STG_STATUS, R.FWS_STG_ID 0, R.FWS_STG_ID 1, R.FWS_STG_ID 2, R.FWS_STG_ID 3,
    R.TGL_BRG_STATUS, R.FWS_BOOT_STATUS] → t.rdWord a = (warmWord a (s.rdWord a)).getD (regReset a)

/-- What a TD reset leaves, with its cause (R499, R500): the TD is down with its queues and tiers lost, its epoch counted and its cause
shown; time and firmware go on. -/
def TdResetDone (cause : Nat) (s t : State) : Prop :=
  t.on R.GLB_SERVICE_td_down = true ∧ t.rd R.GLB_RESET_CAUSE_last_td = cause ∧
  t.rd R.GLB_EPOCH_td_epoch = (s.rd R.GLB_EPOCH_td_epoch + 1) % 2 ^ 16 ∧
  t.rd R.GLB_RESET_CAUSE_td_count = satAdd 8 (s.rd R.GLB_RESET_CAUSE_td_count) 1 ∧ t.buf = State.reset.buf ∧
  t.cnt.vals = [] ∧ t.brg.descs = [] ∧ t.time = s.time ∧ t.fw = s.fw

/-- What an activation or a revert of firmware does whose checks pass (R532 to R534): its command completes ACCEPTED, it is pending in a
slot of each die, and the flash is as it was. -/
def FwScheduled (c : Cmd) (turn : Nat) (u revert : Bool) (s t : State) : Prop :=
  Answers c stAccepted s t ∧ t.on R.FWS_FW_STATUS_act_pending = true ∧ t.flash = s.flash ∧
  t.sched = s.sched ++ [⟨.firmware s.standby u revert, turn, c.system, cmdFn c, some c, s.freeFdSlot, s.freeTdSlot⟩]

/-- What the cancel of an activation or a revert does in time (R52, R534): the event leaves the scheduler and the command completes DONE,
last of what completes. -/
def FwWithdrawn (c : Cmd) (x : SlotEv) (s t : State) : Prop :=
  t.sched = s.sched.erase x ∧ t.flash = s.flash ∧
  ∀ f r n, c.src = .ring f r n → s.host.orphans.contains (f, r, n) = false →
    ∃ xs, t.host.cplQueue = s.host.cplQueue ++ xs ++ [⟨f, r, n, stDone, 0, none, true⟩]

/-- What a write of the download window of recovery mode leaves (R538, R539): its bytes stand at their addresses, and the others as before. -/
def Downloads (addr : Nat) (data : List Byte) (s u : State) : Prop :=
  u.tab = s.tab ∧ (∀ k, k < data.length → sread (fun _ => 0) u.svc.window (addr + k) = data.getD k 0) ∧
  ∀ a, a < addr ∨ addr + data.length ≤ a → sread (fun _ => 0) u.svc.window a = sread (fun _ => 0) s.svc.window a

end Sys2Proof
end

