-- ==== Sys2Proof/Certificates/Slice0/Obligations.lean ====
section
/-! DEFINITION. The statements for the provers: what a step does, what it leaves alone, and for every family of commands when they take
effect and which state they leave. -/

open Sys2Proof Sys2Proof.Machine

/-! ### The machine as a whole -/

/-- A step takes the command at the front of the queue: the machine does with it what the command does on the state with the rest of the
queue, and no command stops. -/
def Obligations.StepRunsTheFrontCommand : Prop :=
  (∀ (c : Instr) (rest : List Instr) (s : State), s.pending = c :: rest → step s = exec c { s with pending := rest }) ∧
  (∀ (c : Instr) (s : State), ∃ t, exec c s = .next t)

/-- With nothing commanded, one nanosecond passes: the model's choice for the device's clock (notes/assumptions/6.md). The elapsed count
advances by it, the queue stays empty, and no step stops. -/
def Obligations.AnEmptyQueuePassesTime : Prop :=
  (∀ s : State, s.pending = [] → step s = .next s.tick) ∧
  (∀ s : State, s.pending = [] → ∃ t, step s = .next t ∧ t.pending = [] ∧ s.time.elapsed ≤ t.time.elapsed) ∧
  (∀ s : State, Proceeds s)

/-- What reset leaves: every register at the reset value of its table, in canonical form; the device in stage 1 with no version slot in use
and every port and link DOWN; no command waits. The values of a register without a stated one, and what lies beside the registers, are the
model's choice (notes/assumptions/2.md). -/
def Obligations.ResetIsWellKept : Prop :=
  RegsCanonical State.reset ∧ State.reset.pending = [] ∧ (∀ a, State.reset.rdWord a = regReset a) ∧
  State.reset.rd R.GLB_SERVICE_stage = 1 ∧ State.reset.rd R.TBS_TURN_LEN_LOG2_t = 14 ∧ State.reset.rd R.FWS_RCP_BOOT_entry = 3 ∧
  State.reset.on R.FWS_RCP_BOOT_autostart = true ∧ State.reset.slotState 0 = slEmpty ∧ State.reset.slotState 1 = slEmpty ∧
  (∀ p, p < 128 → State.reset.rd (R.LIF_PORT_LC_state p) = lcDown) ∧ (∀ l, l < 160 → State.reset.linkState l = lcDown) ∧
  (∀ fn, fn < 2 → State.reset.wseq fn = 0)

/-- An invariant of the machine: every step from any state whose registers are in canonical form, a command of any row or the passing of
time, ends in one. -/
def Obligations.EveryStepKeepsRegistersCanonical : Prop :=
  ∀ s t : State, RegsCanonical s → step s = .next t → RegsCanonical t

/-- The frame of every command: whatever its operands and the state, it changes no part of the state beside those that Instr.touches
lists for its row, nor the queue; what the device has sent stays sent. -/
def Obligations.CommandsChangeOnlyTheirParts : Prop :=
  ∀ (c : Instr) (s t : State), exec c s = .next t → OnlyParts c.touches s t ∧ s.out <+: t.out

/-- The elapsed count and the turn number: no step moves the elapsed count back, resets included; and no command moves the turn number
but a turn boundary, a change of system time or of the turn length, and what makes or ends a reset (R40, R41, R42). -/
def Obligations.TimeOnlyMovesByItsCommands : Prop :=
  (∀ s t : State, step s = .next t → s.time.elapsed ≤ t.time.elapsed) ∧
  (∀ (c : Instr) (s t : State), c.movesTurn = false → exec c s = .next t → t.time.turn = s.time.turn)

/-- R440: each function numbers its posted writes to BAR0 (32-bit and 64-bit), BAR2 and BAR4 as the device accepts them, whatever becomes
of the write; the first after reset is 1, the count wraps from 0xFFFF_FFFF to 1, and HAC_WSEQ returns the reading function's. -/
def Obligations.PostedWritesAreNumbered : Prop :=
  (∀ fn, fn < 2 → State.reset.wseq fn = 0) ∧
  (∀ (fn addr be val : Nat) (high : Option Nat) (s t : State), fn < 2 → s.answers fn = true →
    exec (.registerWrite fn 0 addr be val high) s = .next t ∨ exec (.registerWrite fn 2 addr be val high) s = .next t →
    t.wseq fn = (if s.wseq fn + 1 < 2 ^ 32 then s.wseq fn + 1 else 1)) ∧
  (∀ (fn ring be val : Nat) (s t : State), fn < 2 → s.answers fn = true →
    exec (.commandTailDoorbell fn ring be val) s = .next t ∨ exec (.completionHeadDoorbell fn ring be val) s = .next t →
    t.wseq fn = (if s.wseq fn + 1 < 2 ^ 32 then s.wseq fn + 1 else 1)) ∧
  (∀ (fn addr : Nat) (data : List Byte) (s t : State), fn < 2 → s.answers fn = true →
    exec (.bucketStagingWrite fn addr data) s = .next t →
    t.wseq fn = (if s.wseq fn + 1 < 2 ^ 32 then s.wseq fn + 1 else 1)) ∧
  (∀ (fn : Nat) (s : State), fn < 2 → ReadTaken s fn (R.HAC_WSEQ 0) →
    Runs (.registerReadClear fn 0 (R.HAC_WSEQ 0) 15) s fun t => t.out = s.out ++ [.read fn (s.wseq fn)] ∧ t.regs = s.regs)

/-- R437: an access to bytes of a block outside its registers is checked against the function's rights and the block's clock, with the
outcomes of a register access there; one that passes reads as zero or ignores its write, without an entry in the late-error log; bytes of
no block read as zero and ignore writes for both functions. -/
def Obligations.BytesOutsideRegisters : Prop :=
  (∀ (fn addr be val : Nat) (s : State), fn < 2 → s.answers fn = true → blockOf addr = none →
    exec (.registerReadClear fn 0 addr be) s = .next (s.emit (.read fn 0)) ∧
    exec (.registerWrite fn 0 addr be val none) s = .next (s.acceptWrite fn)) ∧
  (∀ (fn addr be : Nat) (s : State), fn < 2 → addr % 4 = 0 → regAt (s.banked fn addr) = none → ReadTaken s fn addr →
    exec (.registerReadClear fn 0 addr be) s = .next (s.emit (.read fn 0))) ∧
  (∀ (fn addr be val : Nat) (s : State), fn < 2 → regAt (s.banked fn addr) = none → WriteTaken s fn addr be false →
    exec (.registerWrite fn 0 addr be val none) s = .next (s.acceptWrite fn)) ∧
  (∀ (addr be val why : Nat) (s : State), s.answers 1 = true → (blockOf addr).isSome = true → regAt (s.banked 1 addr) = none →
    (s.pf1Denied addr true = some why →
      Runs (.registerWrite 1 0 addr be val none) s fun t => t.rd R.HAC_LEL_CTRL_next = (s.rd R.HAC_LEL_CTRL_next + 1) % 64 ∧
        t.rd ⟨R.HAC_LEL (s.rd R.HAC_LEL_CTRL_next) 2, 0, 8⟩ = leRefused) ∧
    (s.pf1Denied addr false = some why →
      Runs (.registerReadClear 1 0 addr be) s fun t => t.out = s.out ∧
        t.host.refusing = s.host.refusing ++ [⟨1, s.time.elapsed + 5000, none⟩])) ∧
  (∀ (fn addr be val : Nat) (b : Blk) (s : State), fn < 2 → s.answers fn = true → blockOf addr = some b →
    regAt (s.banked fn addr) = none → (decide (16 ≤ accessBit addr b.bit) && s.tdDown) = false →
    s.clockRuns (accessBit addr b.bit) = false →
    ((fn = 1 → s.pf1Denied addr true = none) →
      Runs (.registerWrite fn 0 addr be val none) s fun t => t.rd R.HAC_LEL_CTRL_next = (s.rd R.HAC_LEL_CTRL_next + 1) % 64 ∧
        t.rd ⟨R.HAC_LEL (s.rd R.HAC_LEL_CTRL_next) 2, 0, 8⟩ = leGated) ∧
    ((fn = 1 → s.pf1Denied addr false = none) →
      Runs (.registerReadClear fn 0 addr be) s fun t => t.rd R.HAC_LEL_CTRL_next = (s.rd R.HAC_LEL_CTRL_next + 1) % 64 ∧
        t.rd ⟨R.HAC_LEL (s.rd R.HAC_LEL_CTRL_next) 2, 0, 8⟩ = leGated ∧ ∃ xs, t.out = s.out ++ xs ++ [.abort fn]))

/-! ### System time, turns and clocks (chapter 2) -/

/-- The time base's own commands have their effect: the TD takes the FD's time (R47); a write of the high word arms the seconds of the
next pulse (R37, R435); an armed pulse in FREE sets system time and leaves the elapsed count (R37, R40), any other pulse in 1PPS mode
reports its offset and slews it out (R37, R38); a phase adjustment is clamped and spread over a second (R38); a time step is added in
FREE, and a sum below zero is the model's zero (notes/assumptions/146.md), and it is refused otherwise (R39); a capture takes time and turn of one instant (R55, R65). -/
def Obligations.TimeBaseCommandsTakeEffect : Prop :=
  (∀ s : State, s.tdDown = false →
    exec .tdTimeTransfer s = .next { s with time := { s.time with tdNs := s.time.sysNs } }) ∧
  (∀ (fn val : Nat) (low : Option Nat) (s : State), WriteTaken s fn R.TBS_TOD_NEXT_SEC_HI 15 true →
    Runs (.todArm fn 15 val low) s fun t =>
      t.time = { s.time with todArmed := true } ∧ t.rd R.TBS_TOD_NEXT_SEC_HI_sec_hi = val % 2 ^ 16 ∧
      (∀ v, low = some v → t.rd R.TBS_TOD_NEXT_SEC_LO_sec_lo = v % 2 ^ 32) ∧
      RegsBut [R.TBS_TOD_NEXT_SEC_LO, R.TBS_TOD_NEXT_SEC_HI, R.HAC_WSEQ fn] s t) ∧
  (∀ (offset : Int) (s : State), s.rd R.TBS_CTRL_src_sel = 1 → s.time.todArmed = true → s.turnState = tsFree →
    Runs (.ppsPulse offset) s fun t =>
      t.time.sysNs = s.armedSec * 1000000000 ∧ t.time.frac = 0 ∧ t.time.elapsed = s.time.elapsed ∧
      t.time.todArmed = false ∧ t.time.turn = max s.time.turn (s.armedSec * 1000000000 / 2 ^ s.turnLog)) ∧
  (∀ (offset : Int) (s : State), s.rd R.TBS_CTRL_src_sel = 1 → ¬ (s.time.todArmed = true ∧ s.turnState = tsFree) →
    Runs (.ppsPulse offset) s fun t =>
      t.rd R.TBS_PPS_OFFSET_offset_ns = ofSigned 32 (clampInt (-0x80000000) 0x7FFFFFFF offset) ∧
      t.time.slew = clampInt (-500000) 500000 (-offset) ∧ t.time.sysNs = s.time.sysNs ∧ t.time.turn = s.time.turn ∧
      t.time.todArmed = false) ∧
  (∀ (fn val : Nat) (s : State), WriteTaken s fn R.TBS_PHASE_ADJ 15 true →
    Runs (.phaseAdjust fn 15 val) s fun t =>
      t.time = { s.time with slew := clampInt (-500000) 500000 (signedOf 32 val),
                             slewLeft := if clampInt (-500000) 500000 (signedOf 32 val) = 0 then 0 else 1000000000 } ∧
      RegsBut [R.HAC_WSEQ fn] s t) ∧
  (∀ (fn val lo : Nat) (s : State), WriteTaken s fn R.TBS_STEP_HI 15 true → s.turnState = tsFree →
    Runs (.timeStep fn 15 val (some lo)) s fun t =>
      t.time.sysNs = ((s.time.sysNs : Int) + signedOf 64 (lo % 2 ^ 32 + 2 ^ 32 * (val % 2 ^ 32))).toNat ∧
      t.time.frac = (if (s.time.sysNs : Int) + signedOf 64 (lo % 2 ^ 32 + 2 ^ 32 * (val % 2 ^ 32)) < 0 then 0 else s.time.frac) ∧
      t.time.elapsed = s.time.elapsed ∧ t.time.turn = max s.time.turn (t.time.sysNs / 2 ^ s.turnLog) ∧
      RegsBut [R.TBS_STEP_LO, R.TBS_STEP_HI, R.HAC_WSEQ fn] s t) ∧
  (∀ (fn val : Nat) (low : Option Nat) (s : State), WriteTaken s fn R.TBS_STEP_HI 15 true → s.turnState ≠ tsFree →
    Runs (.timeStep fn 15 val low) s fun t =>
      t.time = s.time ∧ t.rd R.TBS_TURN_STATUS_step_refused = 1 ∧
      RegsBut [R.TBS_TURN_STATUS, R.HAC_WSEQ fn] s t) ∧
  (∀ (fn val : Nat) (s : State), WriteTaken s fn R.TBS_CAPTURE 15 true → bitAt val 0 = true →
    Runs (.timeCapture fn 15 val) s fun t =>
      t.time = s.time ∧ t.rd R.TBS_CAP_NS_valid = 1 ∧ t.rd R.TBS_CAP_NS_ns = s.time.sysNs % 1000000000 ∧
      t.rd R.TBS_CAP_SEC_LO_sec_lo = s.time.sysNs / 1000000000 % 2 ^ 32 ∧
      t.rd R.TBS_CAP_SEC_HI_sec_hi = s.time.sysNs / 1000000000 / 2 ^ 32 % 2 ^ 16 ∧
      t.rd R.TBS_CAP_TURN_LO_turn_lo = s.time.turn % 2 ^ 32 ∧
      t.rd R.TBS_CAP_TURN_HI_turn_hi = s.time.turn / 2 ^ 32 % 2 ^ 32 ∧
      RegsBut [R.TBS_CAP_NS, R.TBS_CAP_SEC_LO, R.TBS_CAP_SEC_HI, R.TBS_CAP_TURN_LO, R.TBS_CAP_TURN_HI, R.HAC_WSEQ fn] s t)

/-- The commands that move the turn state, and the boundary, have their effect: the source of time takes its new value, 3 being refused
(R45, R65); a measurement in PTP mode clears no_meas (R44); 2 s without one set it and move LOCKED to LOCKING (R44); unlock_timeout
makes LOCKING FREE (R44); T changes in FREE with nothing pending, and turns are renumbered at once (R42); a turn boundary passes time
up to the next turn (R41, R50). -/
def Obligations.TurnStateCommandsTakeEffect : Prop :=
  (∀ (fn be val : Nat) (s : State), WriteTaken s fn R.TBS_CTRL be false → bitAt be 0 = true → val % 4 ≠ 3 →
    Runs (.tbsCtrlWrite fn be val) s fun t =>
      t.rd R.TBS_CTRL_src_sel = val % 4 ∧ t.time.sysNs = s.time.sysNs ∧ t.time.turn = s.time.turn) ∧
  (∀ (fn be val : Nat) (s : State), WriteTaken s fn R.TBS_CTRL be false → bitAt be 0 = true → val % 4 = 3 →
    Runs (.tbsCtrlWrite fn be val) s fun t =>
      t.rd R.TBS_CTRL_src_sel = s.rd R.TBS_CTRL_src_sel ∧ t.time = s.time) ∧
  (∀ (fn val : Nat) (s : State), WriteTaken s fn R.TBS_SERVO_OFFSET 15 false → s.rd R.TBS_CTRL_src_sel = 2 →
    Runs (.servoOffsetWrite fn 15 val) s fun t =>
      t.rd R.TBS_TURN_STATUS_no_meas = 0 ∧ t.time.lastMeas = s.time.elapsed ∧ t.time.sysNs = s.time.sysNs ∧
      (s.turnState = tsLocked → 1000 < (signedOf 32 val).natAbs → t.turnState = tsLocking)) ∧
  (∀ s : State, s.rd R.TBS_CTRL_src_sel ≠ 0 → s.time.lastMeas + 2000000000 ≤ s.time.elapsed →
    Runs .measurementTimeout s fun t =>
      t.rd R.TBS_TURN_STATUS_no_meas = 1 ∧ t.turnState = (if s.turnState = tsLocked then tsLocking else s.turnState)) ∧
  (∀ s : State, s.turnState = tsLocking →
    s.time.lastGood + s.rd R.TBS_LOCK_CFG_unlock_timeout * 1000000000 ≤ s.time.elapsed →
    Runs .unlockTimeout s fun t => t.turnState = tsFree ∧ t.time.sysNs = s.time.sysNs ∧ t.time.turn = s.time.turn) ∧
  (∀ (fn val : Nat) (s : State), WriteTaken s fn R.TBS_TURN_LEN_LOG2 15 false → s.turnState = tsFree → s.sched = [] →
    s.renumberBlocked = false → 10 ≤ val % 32 → val % 32 ≤ 20 → val % 32 ≠ s.turnLog →
    Runs (.turnLengthWrite fn 15 val) s fun t =>
      t.turnLog = val % 32 ∧ t.time = { s.time with turn := s.time.sysNs / 2 ^ (val % 32) } ∧
      RegsBut [R.TBS_TURN_LEN_LOG2, R.HAC_WSEQ fn] s t) ∧
  (∀ (fn val : Nat) (s : State), WriteTaken s fn R.TBS_TURN_LEN_LOG2 15 false →
    (s.turnState ≠ tsFree ∨ s.sched ≠ [] ∨ s.renumberBlocked = true ∨ val % 32 < 10 ∨ 20 < val % 32) →
    Runs (.turnLengthWrite fn 15 val) s fun t =>
      t.rd R.TBS_TURN_STATUS_t_write_refused = 1 ∧ t.time = s.time ∧ t.turnLog = s.turnLog) ∧
  (∀ (causes : List (Nat × Nat)) (s : State), s.stopped = false →
    Runs (.turnBoundary causes) s fun t => t.time.turn = max s.time.turn (t.time.sysNs / 2 ^ s.turnLog) ∧
      t.time.sysNs = (s.pass s.nsToBoundary).time.sysNs)

/-- The clock commands have their effect: a period's end clears a source's count or declares it failed (R57); software moves the SerDes
reference to a source that has not failed (R60); the frequency meter starts and ends its gate (R65); GLB_CLKSTAT follows GLB_CLKEN (R61),
in which the management blocks' bits stay set (R63). -/
def Obligations.ClockCommandsTakeEffect : Prop :=
  (∀ (ref0 ref1 tref xtal : Int) (s : State), s.srcFailed 3 = false → xtal.natAbs ≤ 20000000 → s.srcFailed 0 = false →
    s.rd R.TBS_CLKMON_CFG_window_ppm * 1000 < ref0.natAbs →
    Runs (.clkmonPeriodEnd ref0 ref1 tref xtal) s fun t => t.srcFailed 0 = true) ∧
  (∀ (fn val : Nat) (s : State), WriteTaken s fn R.TBS_CLKMON_SEL 15 false → bitAt val 1 = false →
    Runs (.clkmonSelect fn 15 val) s fun t =>
      t.rd R.TBS_CLKMON_STATUS_core_ref =
        (if s.srcFailed (val % 2) then s.rd R.TBS_CLKMON_STATUS_core_ref else val % 2) ∧
      RegsBut [R.TBS_CLKMON_STATUS, R.HAC_WSEQ fn] s t) ∧
  (∀ (fn m r g : Nat) (s : State), WriteTaken s fn R.TBS_FMEAS_CTRL 15 true → s.on R.TBS_FMEAS_STATUS_busy = false →
    m < 256 → fmeasCode m = true → r < 256 → fmeasCode r = true → 10 ≤ g → g ≤ 26 →
    Runs (.fmeasStart fn 15 (m + 2 ^ 8 * r + 2 ^ 16 * g + 2 ^ 31)) s fun t =>
      t.on R.TBS_FMEAS_STATUS_busy = true ∧ t.rd R.TBS_FMEAS_CTRL_meas_sel = m ∧ t.rd R.TBS_FMEAS_CTRL_ref_sel = r ∧
      RegsBut [R.TBS_FMEAS_CTRL, R.TBS_FMEAS_STATUS, R.HAC_WSEQ fn] s t) ∧
  (∀ (count : Nat) (stopped : Bool) (s : State), s.on R.TBS_FMEAS_STATUS_busy = true →
    Runs (.fmeasGateEnd count stopped) s fun t =>
      t.on R.TBS_FMEAS_STATUS_busy = false ∧
      (stopped = true → t.on R.TBS_FMEAS_STATUS_error = true) ∧
      (stopped = false → t.on R.TBS_FMEAS_STATUS_done = true ∧
        t.rd64 R.TBS_FMEAS_COUNT_LO_count_lo R.TBS_FMEAS_COUNT_HI_count_hi = count % 2 ^ 64)) ∧
  (∀ (fn be val : Nat) (s : State), WriteTaken s fn R.GLB_CLKEN be false →
    Runs (.clockEnableWrite fn be val) s fun t =>
      t.rdWord R.GLB_CLKEN = BitVec.ofNat 32 (s.clkenAllowed (s.rdWord R.GLB_CLKEN).toNat
        ((s.mergeReg R.GLB_CLKEN val be).rdWord R.GLB_CLKEN).toNat) ∧ (t.rdWord R.GLB_CLKEN).toNat % 16 = 15) ∧
  (∀ s : State, Runs .clockStatusSettle s fun t =>
    t.rdWord R.GLB_CLKSTAT = s.rdWord R.GLB_CLKEN ∧ RegsBut [R.GLB_CLKSTAT] s t)

/-! ### The parser and the payload scanner (chapter 4) -/

/-- The parser's commands have their effect (R94, R96, R99 to R102): the oldest packet of a port's FIFO goes to an engine of the pipeline
that serves the port; a well-formed packet goes on to the scanner complex with its stack and payload offset, a malformed one whose class
is discarded leaves the FD; arming the capture sets arm; a start state holds for packets tagged after the turn. -/
def Obligations.ParserCommandsTakeEffect : Prop :=
  (∀ (id : Nat) (p : Packet) (s : State), s.pkt id = some p → (s.pktRecipe p).isSome = true → p.place = .fifo → p.egress = false →
    min 512 p.len ≤ p.arrived → s.fdOpen = true → s.fifoHeld p.port = false →
    s.oldestOf p (fun q => q.place == .fifo) = true →
    Runs (.parseAccept id) s fun t =>
      t.pkt id = some { p with place := .parsing, pipe := s.servedBy p.port, begun := s.time.elapsed } ∧
      ∀ j, j ≠ id → t.pkt j = s.pkt j) ∧
  (∀ (id : Nat) (p : Packet) (r : Recipe) (s : State), s.pkt id = some p → s.pktRecipe p = some r →
    p.place = .parsing ∨ p.place = .stalled → p.poison = false →
    (r.parse p.bytes p.len (inForce (sread (fun _ => []) s.fd.starts p.port) 0 p.tag)).cls = 0 → s.holdCount p.pipe < 128 →
    Runs (.parseComplete id) s fun t => ∃ q, t.pkt id = some q ∧ (q.place = .holdDone ∨ q.place = .holdWait) ∧
      q.stack = (r.parse p.bytes p.len (inForce (sread (fun _ => []) s.fd.starts p.port) 0 p.tag)).stack ∧
      q.payload = (r.parse p.bytes p.len (inForce (sread (fun _ => []) s.fd.starts p.port) 0 p.tag)).payload ∧
      q.bytes = p.bytes ∧ ∀ j, j ≠ id → t.pkt j = s.pkt j) ∧
  (∀ (id : Nat) (p : Packet) (r : Recipe) (s : State), s.pkt id = some p → s.pktRecipe p = some r →
    p.place = .parsing ∨ p.place = .stalled → p.poison = false →
    (r.parse p.bytes p.len (inForce (sread (fun _ => []) s.fd.starts p.port) 0 p.tag)).cls ≠ 0 →
    (r.clsAction (r.parse p.bytes p.len (inForce (sread (fun _ => []) s.fd.starts p.port) 0 p.tag)).cls).code ≤ 2 →
    Runs (.parseComplete id) s fun t => t.pkt id = none ∧ ∀ j, j ≠ id → t.pkt j = s.pkt j) ∧
  (∀ (fn be pl : Nat) (s : State), pl < 8 → WriteTaken s fn (R.PRS_CAP_CTRL pl) be false → bitAt be 0 = true →
    Runs (.captureArm fn be pl 1) s fun t =>
      t.on (R.PRS_CAP_CTRL_arm pl) = true ∧ t.on (R.PRS_CAP_CTRL_valid pl) = s.on (R.PRS_CAP_CTRL_valid pl) ∧
      RegsBut [R.PRS_CAP_CTRL pl, R.HAC_WSEQ fn] s t) ∧
  (∀ (fn be port val : Nat) (s : State), port < 128 → WriteTaken s fn (R.PRS_PORT_START port) be false → bitAt be 0 = true →
    Runs (.portStartWrite fn be port val) s fun t =>
      t.rd (R.PRS_PORT_START_start port) = val % 8 ∧
      (∀ τ, s.time.turn < τ → inForce (sread (fun _ => []) t.fd.starts port) 0 τ = val % 8) ∧
      (∀ τ, τ ≤ s.time.turn →
        inForce (sread (fun _ => []) t.fd.starts port) 0 τ = inForce (sread (fun _ => []) s.fd.starts port) 0 τ) ∧
      RegsBut [R.PRS_PORT_START port, R.HAC_WSEQ fn] s t)

/-- The scanner's commands have their effect (R105 to R109, R112, R114): a shift moves the window on by 32 bytes, or stalls while bytes of
it are missing; bytes that arrive end a stall; a scan past its limit ends or its packet is dropped, as the scan-timeout action says; a
packet that is done leaves for stage 0; a pattern set's lifecycle follows R503 and R504, and packets tagged later search it or skip it. -/
def Obligations.ScannerCommandsTakeEffect : Prop :=
  (∀ (id : Nat) (p : Packet) (r : Recipe) (sc : Scan) (s : State), s.pkt id = some p → s.pktRecipe p = some r → p.scan = some sc →
    p.place = .scanning → sc.stalled = false → p.readable (min (sc.at_ + 64) sc.stop) = true →
    Runs (.scanShift id false none) s fun t => ∃ q sc', t.pkt id = some q ∧ q.scan = some sc' ∧ sc'.at_ = sc.at_ + 32 ∧
      (q.place = .scanning ∨ q.place = .holdDone) ∧ (sc.stop ≤ sc.at_ + 32 → q.place = .holdDone)) ∧
  (∀ (id : Nat) (p : Packet) (r : Recipe) (sc : Scan) (s : State), s.pkt id = some p → s.pktRecipe p = some r → p.scan = some sc →
    p.place = .scanning → sc.stalled = false → p.readable (min (sc.at_ + 64) sc.stop) = false →
    Runs (.scanShift id false none) s fun t => ∃ q, t.pkt id = some q ∧ q.scan = some { sc with stalled := true } ∧
      q.place = .scanning) ∧
  (∀ (id arrived staged : Nat) (p : Packet) (s : State), s.pkt id = some p →
    Runs (.scanStallResume id arrived staged) s fun t => ∃ q, t.pkt id = some q ∧
      q.arrived = max p.arrived (min arrived p.len) ∧ q.staged = max p.staged (min staged (min arrived p.len)) ∧
      (∀ sc, p.scan = some sc → q.readable (min (sc.at_ + 64) sc.stop) = true → q.scan = some { sc with stalled := false }) ∧
      t.regs = s.regs ∧ ∀ j, j ≠ id → t.pkt j = s.pkt j) ∧
  (∀ (id : Nat) (p : Packet) (r : Recipe) (sc : Scan) (s : State), s.pkt id = some p → s.pktRecipe p = some r → p.scan = some sc →
    p.place = .scanning → sc.began + sc.limit ≤ s.time.elapsed →
    Runs (.scanTimeout id) s fun t =>
      (r.timeoutAction.code ≤ 2 → t.pkt id = none) ∧
      (2 < r.timeoutAction.code → ∃ q, t.pkt id = some q ∧ q.place = .holdDone)) ∧
  (∀ (id : Nat) (p : Packet) (s : State), s.pkt id = some p → p.place = .holdDone →
    s.oldestOf p (fun q => q.place.early) = true →
    Runs (.scannerRelease id) s fun t => t.pkt id = some { p with place := .stageWait 0 } ∧ t.regs = s.regs ∧
      ∀ j, j ≠ id → t.pkt j = s.pkt j) ∧
  (∀ (fn set : Nat) (s : State), set < 8 → WriteTaken s fn (R.PRS_SET_LC set) 15 true →
    Runs (.setEnable fn 15 set) s fun t =>
      (s.rd (R.PRS_SET_LC_state set) = lcDown → t.rd (R.PRS_SET_LC_state set) = lcStarting ∧
        ∀ τ, s.time.turn < τ → t.setServes set τ = true) ∧
      (s.rd (R.PRS_SET_LC_state set) = lcDraining → t.on (R.PRS_SET_LC_pend_up set) = true ∧
        t.rd (R.PRS_SET_LC_state set) = lcDraining) ∧
      RegsBut [R.PRS_SET_LC set, R.HAC_WSEQ fn] s t) ∧
  (∀ (fn set : Nat) (s : State), set < 8 → WriteTaken s fn (R.PRS_SET_LC set) 15 true →
    Runs (.setDisable fn 15 set) s fun t =>
      (s.rd (R.PRS_SET_LC_state set) = lcUp → t.rd (R.PRS_SET_LC_state set) = lcDraining ∧
        ∀ τ, s.time.turn < τ → t.setServes set τ = false) ∧
      (s.rd (R.PRS_SET_LC_state set) = lcStarting → t.rd (R.PRS_SET_LC_state set) = lcDown) ∧
      RegsBut [R.PRS_SET_LC set, R.HAC_WSEQ fn] s t) ∧
  (∀ (set : Nat) (s : State), set < 8 → s.rd (R.PRS_SET_LC_state set) = lcDraining → s.fd.pkts = [] →
    Runs (.setDrainDone set) s fun t =>
      t.rd (R.PRS_SET_LC_state set) = lcDrained (s.on (R.PRS_SET_LC_pend_up set)) ∧ t.on (R.PRS_SET_LC_pend_up set) = false ∧
      RegsBut [R.PRS_SET_LC set] s t)

/-! ### Action stages and control stores (chapters 1 and 7) -/

/-- The stages' commands have their effect (R170, R173, R175, R178, R182, R191): a slot without a packet is accounted to its cause; a
packet next in order enters the stage; a lookup that returns is done with its answer; the action word moves the packet on, and one whose
word is a NOP goes on unchanged. -/
def Obligations.StageCommandsTakeEffect : Prop :=
  (∀ (pl stage cause : Nat) (s : State), pl < 8 → stage < 24 → s.fdRuns = true → 0x020 ≤ cause → cause ≤ 0x022 →
    s.pmuRuns 0 = true →
    Runs (.stageIssue pl stage none cause) s fun t =>
      t.rd64 (R.PMF_FIX_starved_front_LO_starved_front_lo pl 0) (R.PMF_FIX_starved_front_HI_starved_front_hi pl 0) =
        (s.rd64 (R.PMF_FIX_starved_front_LO_starved_front_lo pl 0) (R.PMF_FIX_starved_front_HI_starved_front_hi pl 0) + 1) % 2 ^ 64 ∧
      t.fd = s.fd) ∧
  (∀ (pl stage id cause k : Nat) (p : Packet) (r : Recipe) (s : State), pl < 8 → stage < 24 → s.fdRuns = true → k = stage → 0 < k →
    s.pkt id = some p → s.pktRecipe p = some r → p.pipe = pl → p.egress = false → p.place = .stageWait k →
    s.inTurn p (3 * k) = true → s.intentWait p k = false → s.holdClosed r pl stage = false →
    Runs (.stageIssue pl stage (some id) cause) s fun t => ∃ q, t.pkt id = some q ∧ t.regs = s.regs ∧
      q = ({ p with since := s.time.elapsed } : Packet).enter r k (s.pmuRuns 0) ∧
      (p.drop = none → p.skipTo = none → (r.stages[stage]?).isSome = true → q.place = .lookup k ∨ q.place = .action k)) ∧
  (∀ (id i k : Nat) (p : Packet) (l : Lookup) (b : Binding) (f : Found) (s u : State), s.pkt id = some p → p.place = .lookup k →
    p.lookups[i]? = some l → s.bindingOf p k l.binding = some b → l.done = false → u = s.countLook p b.table →
    f = u.look p b.table l.key → (f.reads.all fun x => x.2.2 < 2) = true →
    (u.findAsm p.version b.table).isSome = true ∨ (u.readLook p b.table l.key).1 = false →
    Runs (.stageLookupReturn id i ⟨none, []⟩) s fun t => ∃ q, t.pkt id = some q ∧
      q.lookups[i]? = some { l with done := true, hit := f.hit, data := f.data, count := f.count, poison := false } ∧
      (q.place = .lookup k ∨ q.place = .action k)) ∧
  (∀ (id k : Nat) (p : Packet) (r : Recipe) (s : State), s.pkt id = some p → s.pktRecipe p = some r → p.place = .action k →
    s.inTurn p (3 * k + 2) = true → s.fdRuns = true → p.drop = none →
    s.fd.badWords.contains (ctlKey p.pipe p.version (p.stageNo k)
      (wordAddr (r.stages.getD (p.stageNo k) ⟨[], 0, [], 0, false⟩) p.lookups)) = false →
    parityHolds (s.storedAt r p.pipe p.version (p.stageNo k)
      (wordAddr (r.stages.getD (p.stageNo k) ⟨[], 0, [], 0, false⟩) p.lookups)) = true →
    wordKind (s.storedAt r p.pipe p.version (p.stageNo k)
      (wordAddr (r.stages.getD (p.stageNo k) ⟨[], 0, [], 0, false⟩) p.lookups) % 2 ^ 640) ≠ 1 →
    Runs (.stageAction id 0 none) s fun t =>
      t.pkt id = some { p with place := if k + 1 < p.stages then .stageWait (k + 1) else .leaving } ∧
      ∀ j, j ≠ id → t.pkt j = s.pkt j) ∧
  (∀ (id k word upset : Nat) (p : Packet) (r : Recipe) (s : State), s.pkt id = some p → s.pktRecipe p = some r →
    p.place = .action k → s.inTurn p (3 * k + 2) = true → s.fdRuns = true → p.drop = none →
    word = wordAddr (r.stages.getD (p.stageNo k) ⟨[], 0, [], 0, false⟩) p.lookups →
    s.fd.badWords.contains (ctlKey p.pipe p.version (p.stageNo k) word) = false → upset ≠ 0 →
    parityHolds ((s.flipWord (ctlKey p.pipe p.version (p.stageNo k) word) upset).storedAt r p.pipe p.version (p.stageNo k) word) =
      false →
    Runs (.stageAction id upset none) s fun t => ∃ q, t.pkt id = some q ∧ q.drop = some drParity ∧
      t.fd.badWords.contains (ctlKey p.pipe p.version (p.stageNo k) word) = true)

/-- The control stores' and the pipelines' commands have their effect (R26, R29, R193, R194, R198, R503, R504): a reload clears the mark
of its word; the patrol counts its passes; an enable of a DOWN pipeline starts its reload and the reload makes it UP; a disable moves
the lanes of an UP pipeline to its buddy; a drain ends; lanes return once the buddy holds none of their packets. -/
def Obligations.PipelineCommandsTakeEffect : Prop :=
  (∀ (pl stage bank word : Nat) (s : State), pl < 8 → s.tdDown = false → s.fd.badWords.contains (ctlKey pl bank stage word) = true →
    Runs (.controlWordReloadDone pl stage bank word false true) s fun t =>
      t.fd.badWords = s.fd.badWords.filter (fun k => !(k == ctlKey pl bank stage word)) ∧
      t.rd (R.PPL_RELOADS_count pl) = satAdd 32 (s.rd (R.PPL_RELOADS_count pl)) 1) ∧
  (∀ (pl stage bank word : Nat) (s : State), pl < 8 → stage < 36 → bank < 2 → word < 4096 →
    s.on (R.PPL_MC_CFG_patrol_en pl) = true → sread (fun _ => 0) s.fd.flips (ctlKey pl bank stage word) = 0 →
    Runs (.controlStorePatrol pl stage bank word 0 true) s fun t =>
      t.rd (R.PPL_PATROL_PASSES_count pl) = (s.rd (R.PPL_PATROL_PASSES_count pl) + 1) % 2 ^ 32 ∧
      RegsBut [R.PPL_PATROL_PASSES pl] s t ∧ t.fd = s.fd) ∧
  (∀ (fn pl : Nat) (s : State), pl < 8 → WriteTaken s fn (R.PPL_LC pl) 15 true → s.rd (R.PPL_LC_state pl) = lcDown →
    Runs (.pipelineEnable fn 15 pl) s fun t =>
      t.rd (R.PPL_LC_state pl) = lcStarting ∧ t.on (R.PPL_STATUS_reloading pl) = true ∧
      RegsBut [R.PPL_LC pl, R.PPL_STATUS pl, R.HAC_WSEQ fn] s t) ∧
  (∀ (fn pl : Nat) (s : State), pl < 8 → WriteTaken s fn (R.PPL_LC pl) 15 true → s.rd (R.PPL_LC_state pl) = lcUp →
    s.rd (R.PPL_LC_state (buddy pl)) = lcUp →
    Runs (.pipelineDisable fn 15 pl) s fun t =>
      t.rd (R.PPL_LC_state pl) = lcDraining ∧ t.on (R.PPL_STATUS_lanes_moved pl) = true ∧
      t.on (R.PPL_STATUS_serving_buddy (buddy pl)) = true ∧ t.rd (R.PPL_STATUS_retire_cause pl) = 3 ∧
      RegsBut [R.PPL_LC pl, R.PPL_STATUS pl, R.PPL_STATUS (buddy pl), R.HAC_WSEQ fn] s t) ∧
  (∀ (pl : Nat) (s : State), pl < 8 → s.rd (R.PPL_LC_state pl) = lcStarting → s.tdDown = false →
    Runs (.pipelineReloadDone pl) s fun t =>
      t.rd (R.PPL_LC_state pl) = lcUp ∧ t.on (R.PPL_STATUS_reloading pl) = false ∧
      ∀ k, k < 2 ^ 24 → k / 2 ^ 20 = pl → k ∉ t.fd.badWords) ∧
  (∀ (pl : Nat) (s : State), pl < 8 → s.rd (R.PPL_LC_state pl) = lcDraining → s.pipeBusy pl = false →
    Runs (.pipelineDrainDone pl) s fun t =>
      t.rd (R.PPL_LC_state pl) = lcDrained (s.on (R.PPL_LC_pend_up pl)) ∧ t.on (R.PPL_LC_pend_up pl) = false ∧
      t.on (R.PPL_STATUS_reloading pl) = s.on (R.PPL_LC_pend_up pl) ∧ t.fd = s.fd) ∧
  (∀ (pl : Nat) (s : State), s.fd.pkts = [] →
    Runs (.laneReturnComplete pl) s fun t => pl ∉ t.fd.returning ∧ t.regs = s.regs ∧ t.fd.pkts = [])

/-! ### The ends of the sections and the state units (chapter 8) -/

/-- The sections' ends have their effect (R184, R185, R210, R216 to R218, R404, R405): a packet that leaves its last stage with a good
frame crosses the bridge as a descriptor with its deparsed bytes, one whose end has not come waits for it; the end-of-packet status
ends that wait; a verdict ends the packet, a poisoned one is asked for again; an egress packet that fits its port's MTU waits for the
MAC, a longer one is dropped. -/
def Obligations.SectionEndCommandsTakeEffect : Prop :=
  (∀ (id : Nat) (p : Packet) (r : Recipe) (s : State), s.pkt id = some p → s.pktRecipe p = some r → s.leaves p false = true →
    p.drop = none → p.eop ≠ 1 → p.eop ≠ 3 → s.tdDown = false →
    Runs (.ingressSectionExit id) s fun t => ∃ d, t.brg.descs = s.brg.descs ++ [d] ∧ d.pkt = id ∧ d.port = p.inPort ∧
      d.stamp = p.stamp ∧ d.tag = p.tag ∧ d.bytes = deparse r p.bytes (p.land 1000).hv p.stack p.payload p.emit ∧
      d.waits = (s.txnClass p).admission ∧
      ((s.txnClass p).admission = false → t.pkt id = none) ∧
      ((s.txnClass p).admission = true → ∃ q, t.pkt id = some q ∧ q.place = .verdict ∧ q.txn = p.txn)) ∧
  (∀ (id : Nat) (p : Packet) (r : Recipe) (s : State), s.pkt id = some p → s.pktRecipe p = some r → s.leaves p false = true →
    p.drop = none → p.eop = 1 →
    Runs (.ingressSectionExit id) s fun t => t.pkt id = some { p.land 1000 with place := .eopHold } ∧ t.brg = s.brg ∧
      ∀ j, j ≠ id → t.pkt j = s.pkt j) ∧
  (∀ (id : Nat) (good : Bool) (p : Packet) (s : State), s.pkt id = some p → p.egress = false → p.eop = 1 → p.place ≠ .eopHold →
    Runs (.eopStatusArrive id good) s fun t =>
      t.pkt id = some { p with arrived := p.len, eop := if good then 2 else 3 } ∧ t.regs = s.regs ∧ t.brg = s.brg ∧
      ∀ j, j ≠ id → t.pkt j = s.pkt j) ∧
  (∀ (id : Nat) (p : Packet) (r : Recipe) (s : State), s.pkt id = some p → s.pktRecipe p = some r → p.egress = false → p.eop = 1 →
    p.place = .eopHold → p.drop = none → s.tdDown = false →
    Runs (.eopStatusArrive id true) s (fun t => ∃ d, t.brg.descs = s.brg.descs ++ [d] ∧ d.pkt = id) ∧
    Runs (.eopStatusArrive id false) s fun t => t.pkt id = none ∧ t.brg.descs = s.brg.descs) ∧
  (∀ (id : Nat) (v : Verdict) (p : Packet) (s : State), s.nextVerdict = some v → v.pkt = id → v.bad = false → s.pkt id = some p →
    p.place = .verdict →
    Runs (.verdictReceive id false) s fun t => t.pkt id = none ∧ t.brg.verdicts = s.brg.verdicts.erase v ∧
      ∀ j, j ≠ id → t.pkt j = s.pkt j) ∧
  (∀ (id : Nat) (poisoned : Bool) (v : Verdict) (s : State), s.nextVerdict = some v → v.pkt = id → (poisoned || v.bad) = true →
    Runs (.verdictReceive id poisoned) s fun t =>
      t.brg = { s.brg with verdicts := s.brg.verdicts.erase v ++ [{ v with bad := false }] } ∧ t.fd = s.fd ∧
      t.rd R.TGL_BRG_REQUERY_count = satAdd 32 (s.rd R.TGL_BRG_REQUERY_count) 1 ∧ RegsBut [R.TGL_BRG_REQUERY] s t) ∧
  (∀ (id : Nat) (p : Packet) (r : Recipe) (s : State), s.pkt id = some p → s.pktRecipe p = some r → s.leaves p true = true →
    p.drop = none →
    (deparse r p.bytes (p.land 1000).hv p.stack p.payload p.emit).length + 4 ≤ s.rd (R.LIF_PORT_MTU_tx_mtu p.port) →
    Runs (.egressSectionExit id) s fun t =>
      t.pkt id = some { p.land 1000 with bytes := deparse r p.bytes (p.land 1000).hv p.stack p.payload p.emit,
                                         place := .txQueue, txn := none } ∧
      ∀ j, j ≠ id → t.pkt j = s.pkt j) ∧
  (∀ (id : Nat) (p : Packet) (r : Recipe) (s : State), s.pkt id = some p → s.pktRecipe p = some r → s.leaves p true = true →
    p.drop = none →
    s.rd (R.LIF_PORT_MTU_tx_mtu p.port) < (deparse r p.bytes (p.land 1000).hv p.stack p.payload p.emit).length + 4 →
    Runs (.egressSectionExit id) s fun t => t.pkt id = none ∧ ∀ j, j ≠ id → t.pkt j = s.pkt j)

/-- The state units' commands have their effect (R206 to R208, R211, R213): an intent with room in its chain stands there at its place
in arrival order, with the result it has over the values before it; one without room waits; one that has waited 36 ns fails its packet
where its class says so; the first intent of a chain folds into the committed value once it is committed and below every watermark. -/
def Obligations.StateUnitCommandsTakeEffect : Prop :=
  (∀ (id stage num : Nat) (m : IntentMsg) (a : ArrInst) (s : State), s.msgOf id stage num = some m → m.waiting = none →
    s.chainRoom m.intent = true → s.arr m.intent.arr = some a → mget a.poison m.intent.index = none →
    Runs (.intentExecute id stage num false) s fun t => t.txf.msgs = s.txf.msgs.erase m ∧
      t.txf.chain = putIntent { m.intent with result := (s.applyIntent a (s.fold a (a.val m.intent.index)
        ((s.chainOf m.intent.arr m.intent.index).filter fun y => y.key.before m.intent.key)) m.intent).2 } s.txf.chain ∧
      t.txf.arrays = s.txf.arrays) ∧
  (∀ (id stage num : Nat) (poison : Bool) (m : IntentMsg) (s : State), s.msgOf id stage num = some m → m.waiting = none →
    s.chainRoom m.intent = false →
    Runs (.intentExecute id stage num poison) s fun t => t.txf.chain = s.txf.chain ∧ t.txf.arrays = s.txf.arrays ∧
      t.txf.msgs = s.txf.msgs.map (fun x => if x = m then { x with waiting := some s.time.elapsed } else x) ∧ t.fd = s.fd ∧
      RegsBut [R.TXF_CONFLICT_STALLS (txnPipe m.intent.txn)] s t) ∧
  (∀ (id stage num : Nat) (m : IntentMsg) (a : ArrInst) (s : State), s.msgOf id stage num = some m → m.waiting.isSome = true →
    s.chainRoom m.intent = true → s.arr m.intent.arr = some a → mget a.poison m.intent.index = none →
    Runs (.chainRoomResume id stage num) s fun t => t.txf.msgs = s.txf.msgs.erase m ∧
      t.txf.chain = putIntent { m.intent with result := (s.applyIntent a (s.fold a (a.val m.intent.index)
        ((s.chainOf m.intent.arr m.intent.index).filter fun y => y.key.before m.intent.key)) m.intent).2 } s.txf.chain) ∧
  (∀ (id stage num τ : Nat) (m : IntentMsg) (p : Packet) (s : State), s.msgOf id stage num = some m → s.pkt id = some p →
    m.waiting = some τ → τ + 36 ≤ s.time.elapsed → (s.txnClass p).drop = true →
    Runs (.chainWaitTimeout id stage num) s fun t => t.txf.msgs = s.txf.msgs.erase m ∧ t.pkt id = some (p.fail drConflict) ∧
      t.txf.chain = s.txf.chain ∧ RegsBut [R.TXF_CONFLICT_DROPS p.pipe] s t) ∧
  (∀ (arr index : Nat) (replay : Option Nat) (a : ArrInst) (x : Intent) (ys : List Intent) (s : State), s.arr arr = some a →
    s.chainOf arr index = x :: ys → x.committed = true → s.settled x (24 ≤ x.key.stage) replay = true →
    mget a.poison index = none →
    Runs (.intentSettle arr index replay) s fun t => t.txf.chain = s.txf.chain.erase x ∧ t.regs = s.regs ∧ t.fd = s.fd ∧
      ∃ b, t.arr arr = some b ∧ b.decl = a.decl ∧ b.val index = (s.applyIntent a (a.val index) x).1 ∧
        ∀ j, j ≠ index → b.val j = a.val j)

/-! ### Update transactions (chapter 8) -/

/-- The rows of TXN_STAGE have their effect (R127, R149, R223, R224, R348): on an OPEN handle each stages its write, and an exact-match entry whose address is not a multiple of 64 is refused INVALID. -/
def Obligations.StagingCommandsTakeEffect : Prop :=
  (∀ (c : Cmd) (h slot table vrf len key mask prio result param : Nat) (s : State),
    TxnTaken s c h 0x11 (s.tableGrant slot table) [(param, 80)] → s.txState h = txOpen →
    (s.stagedOk (.asm slot 0 table vrf len key mask prio result) = true →
      Runs (.txnStageAsmInsert c h slot table vrf len key mask prio result param) s
        (Stages c h (.asm slot 0 table vrf len key mask prio result) s)) ∧
    (s.stagedOk (.asm slot 1 table vrf len key mask prio 0) = true →
      Runs (.txnStageAsmDelete c h slot table vrf len key mask prio param) s
        (Stages c h (.asm slot 1 table vrf len key mask prio 0) s)) ∧
    (s.stagedOk (.asm slot 2 table vrf len key mask prio result) = true →
      Runs (.txnStageAsmModify c h slot table vrf len key mask prio result param) s
        (Stages c h (.asm slot 2 table vrf len key mask prio result) s)) ∧
    (s.stagedOk (.asm slot 3 table vrf len key mask prio 0) = true →
      Runs (.txnStageAsmRewrite c h slot table vrf len key mask prio param) s
        (Stages c h (.asm slot 3 table vrf len key mask prio 0) s))) ∧
  (∀ (c : Cmd) (h slot table param bits : Nat) (s : State),
    TxnTaken s c h 0x11 (s.tableGrant slot table) (s.entryExtent slot table param) → s.txState h = txOpen →
    param % 64 = 0 →
    (s.stagedOk (.exm slot 0 table bits) = true →
      Runs (.txnStageExmInsert c h slot table param bits) s (Stages c h (.exm slot 0 table bits) s)) ∧
    (s.stagedOk (.exm slot 1 table bits) = true →
      Runs (.txnStageExmDelete c h slot table param bits) s (Stages c h (.exm slot 1 table bits) s)) ∧
    (s.stagedOk (.exm slot 2 table bits) = true →
      Runs (.txnStageExmModify c h slot table param bits) s (Stages c h (.exm slot 2 table bits) s))) ∧
  (∀ (c : Cmd) (h slot table param bits : Nat) (s : State),
    TxnTaken s c h 0x11 (s.tableGrant slot table) (s.entryExtent slot table param) → param % 64 ≠ 0 →
    Runs (.txnStageExmInsert c h slot table param bits) s (fun t => Answers c stInvalid s t ∧ t.txns = s.txns) ∧
    Runs (.txnStageExmDelete c h slot table param bits) s (fun t => Answers c stInvalid s t ∧ t.txns = s.txns) ∧
    Runs (.txnStageExmModify c h slot table param bits) s (fun t => Answers c stInvalid s t ∧ t.txns = s.txns)) ∧
  (∀ (c : Cmd) (h slot index param value : Nat) (s : State), TxnTaken s c h 0x11 (arrayGrant 0x200) [(param, 32)] →
    s.txState h = txOpen → s.stagedOk (.profile index (leBytes 32 value)) = true →
    Runs (.txnStageArrayWrite c h slot 0x200 index param value) s
      (Stages c h (.profile index (leBytes 32 value)) s)) ∧
  (∀ (c : Cmd) (h slot array index param value : Nat) (e : Nat × ArrInst) (s : State), array ≠ 0x200 →
    s.findArr slot array = some e → TxnTaken s c h 0x11 (arrayGrant array) [(param, ceilDiv e.2.decl.width 8)] →
    s.txState h = txOpen → s.stagedOk (.arr slot 0 array index value) = true →
    Runs (.txnStageArrayWrite c h slot array index param value) s
      (Stages c h (.arr slot 0 array index value) s)) ∧
  (∀ (c : Cmd) (h slot array index : Nat) (s : State), array ≠ 0x200 → TxnTaken s c h 0x11 (arrayGrant array) [] →
    s.txState h = txOpen → s.stagedOk (.arr slot 1 array index 0) = true →
    Runs (.txnStageArrayClear c h slot array index) s (Stages c h (.arr slot 1 array index 0) s)) ∧
  (∀ (c : Cmd) (h table index param : Nat) (rec : List Byte) (s : State),
    TxnTaken s c h 0x11 (grantTdt table).toList [(param, rec.length)] → s.txState h = txOpen →
    s.stagedOk (.td table index rec) = true →
    Runs (.txnStageTdWrite c h table index param rec) s (Stages c h (.td table index rec) s))

/-- The other commands of update transactions have their effect (R52, R53, R221, R225, R226, R228): OPEN takes a FREE handle; PREPARE
makes it PREPARING, and its end PREPARED or, when a write cannot be placed, OPEN again; COMMIT schedules a PREPARED one; a cancel in time
makes it PREPARED again; ABORT frees it. -/
def Obligations.TransactionCommandsTakeEffect : Prop :=
  (∀ (c : Cmd) (h : Nat) (s : State), TxnTaken s c h 0x10 [] [] → s.txState h = txFree →
    Runs (.txnOpen c h) s fun t => t.txState h = txOpen ∧ t.rd (R.TXT_TXN_w0_owner h) = cmdFn c % 2 ∧
      (t.upd h).writes = [] ∧ Answers c stDone s t ∧ t.sched = s.sched) ∧
  (∀ (c : Cmd) (h : Nat) (s : State), TxnTaken s c h 0x12 [] [] → s.txState h = txOpen →
    Runs (.txnPrepare c h) s fun t => t.txState h = txPreparing ∧ (t.upd h).writes = (s.upd h).writes ∧
      (t.upd h).cmd = some c ∧ t.host = s.host ∧ t.tab = s.tab) ∧
  (∀ (c : Cmd) (h : Nat) (s u : State), s.txState h = txPreparing → (s.upd h).cmd = some c →
    s.slotLacks .tsiSwap = false → s.slotLacks (.holdStart 0) = false → s.placeAll h (s.upd h).writes = .ok u → h < 64 →
    Runs (.txnPrepareComplete h) s fun t => t.txState h = txPrepared ∧ (t.upd h).writes = (s.upd h).writes ∧
      t.tab = u.tab ∧ Answers c stDone s t) ∧
  (∀ (c : Cmd) (h st : Nat) (s : State), s.txState h = txPreparing → (s.upd h).cmd = some c →
    s.slotLacks .tsiSwap = false → s.slotLacks (.holdStart 0) = false → s.placeAll h (s.upd h).writes = .error st → h < 64 →
    Runs (.txnPrepareComplete h) s fun t => t.txState h = txOpen ∧ (t.upd h).writes = (s.upd h).writes ∧
      t.tab = s.tab ∧ Answers c st s t) ∧
  (∀ (c : Cmd) (h turn : Nat) (s : State), TxnTaken s c h 0x13 [] [] → s.txState h = txPrepared →
    s.schedCheck (.txnCommit h) c.system turn = stDone →
    Runs (.txnCommit c h turn) s fun t => t.txState h = txScheduled ∧ Answers c stAccepted s t ∧
      (∃ x, t.sched = s.sched ++ [x] ∧ x.ev = .txnCommit h ∧ x.turn = turn ∧ x.cmd = some c) ∧
      t.rd64 (R.TXT_TXN_LO_turn_lo h) (R.TXT_TXN_HI_turn_hi h) = turn % 2 ^ 64) ∧
  (∀ (c : Cmd) (h turn : Nat) (s : State), TxnTaken s c h 0x13 [] [] → s.txState h = txPrepared →
    s.schedCheck (.txnCommit h) c.system turn ≠ stDone →
    Runs (.txnCommit c h turn) s fun t => t.txState h = txPrepared ∧ t.sched = s.sched ∧
      Answers c (s.schedCheck (.txnCommit h) c.system turn) s t) ∧
  (∀ (c : Cmd) (h : Nat) (x : SlotEv) (s : State), TxnTaken s c h 0x13 [] [] → s.txEvent h = some x → s.inTime x.turn = true →
    Runs (.txnCommitCancel c h) s fun t => t.txState h = txPrepared ∧ t.sched = s.sched.erase x ∧
      (t.upd h).writes = (s.upd h).writes) ∧
  (∀ (c : Cmd) (h : Nat) (x : SlotEv) (s : State), TxnTaken s c h 0x13 [] [] → s.txEvent h = some x → s.inTime x.turn = false →
    Runs (.txnCommitCancel c h) s fun t => t.sched = s.sched ∧ t.txState h = s.txState h ∧ Answers c stLate s t) ∧
  (∀ (c : Cmd) (h : Nat) (s : State), TxnTaken s c h 0x14 [] [] → s.txState h = txOpen ∨ s.txState h = txPrepared →
    s.txEvent h = none →
    Runs (.txnAbort c h) s fun t => t.txState h = txFree ∧ (t.upd h).writes = [] ∧ Answers c stDone s t)

/-- What ends with the last old packet has its effect (R86, R132, R150): an overlap whose old packets have all left closes, and the
version selector flips; a RETIRING slot none of whose packets is left becomes EMPTY. -/
def Obligations.OverlapCommandsTakeEffect : Prop :=
  (∀ (i n : Nat) (a : AsmTable) (s : State), i < 32 → mget s.tab.asm i = some a → a.overlap = some n →
    s.passedTurn n (s.boundEgress a.slots a.decl.id none) = true →
    Runs (.asmOverlapClose i) s fun t => mget t.tab.asm i = some a.close ∧
      t.rd (R.ASM_TBL_w0_sel i) = 1 - s.rd (R.ASM_TBL_w0_sel i)) ∧
  (∀ (i n : Nat) (a : AsmTable) (s : State), mget s.tab.asm i = some a → a.overlap = some n →
    s.passedTurn n (s.boundEgress a.slots a.decl.id none) = false →
    exec (.asmOverlapClose i) s = .next s) ∧
  (∀ (i n : Nat) (a : ExmTable) (s : State), mget s.tab.exm i = some a → a.overlap = some n → a.d.subOf = none →
    s.passedTurn n (s.boundEgress a.slots a.decl.id none) = true →
    Runs (.exmOverlapClose i) s fun t => mget t.tab.exm i = some (a.close.mendedBy a)) ∧
  (∀ (slot : Nat) (s : State), s.retiring = some slot → s.ingressOld (fun v _ => v == slot) = 0 →
    s.egressOld (fun v _ => v == slot) = 0 → s.sourcesOld s.actTurn = 0 →
    Runs .recipeSlotRelease s fun t => t.slotState slot = slEmpty ∧ t.recipe.reserved = s.recipe.reserved.filter (· != slot) ∧
      t.rd64 R.FWS_RCP_REL_TURN_LO_turn_lo R.FWS_RCP_REL_TURN_HI_turn_hi = s.time.turn % 2 ^ 64)

/-! ### Learning and ageing (chapter 6) -/

/-- The commands of learning and ageing have their effect (R148, R152, R153, R155 to R158): a committed learn is placed as learn
pending, dropped for rate, or dropped as static; a pending cell whose turn has come is always, a retiring one is freed; the sweep keeps
what has not expired; an age limit holds for packets tagged after the turn; the oldest record goes to the host. -/
def Obligations.LearningCommandsTakeEffect : Prop :=
  (∀ (k : Nat) (l : Learn) (t : ExmTable) (s : State), s.tab.learns[k]? = some l →
    ((s.tab.learns.take k).any fun x => x.table == l.table && x.copy == l.copy) = false → mget s.tab.exm l.table = some t →
    s.copyServes t l.copy = true →
    Runs (.learnPlace k true) s fun u => u.tab.learns = s.tab.learns.eraseIdx k ∧ u.tab.exm = s.tab.exm ∧
      u.rd (R.EXM_LEARN_w3_rate l.copy) = satAdd 32 (s.rd (R.EXM_LEARN_w3_rate l.copy)) 1 ∧
      RegsBut [R.EXM_LEARN_w3 l.copy] s u) ∧
  (∀ (k P : Nat) (l : Learn) (t : ExmTable) (ws : List (Nat × ECell)) (s : State), s.tab.learns[k]? = some l →
    ((s.tab.learns.take k).any fun x => x.table == l.table && x.copy == l.copy) = false → mget s.tab.exm l.table = some t →
    s.copyServes t l.copy = true → s.holdsFor l.table t l = .nothing → t.d.delay ≠ 0 →
    P = (if l.tag + t.d.delay ≤ s.time.turn then s.time.turn + 1 else l.tag + t.d.delay) →
    t.plan l.copy ⟨l.bits, 4, false, P % 4096, s.tickOf t.d l.tag, l.tag, l.order⟩ = .done ws →
    Runs (.learnPlace k false) s fun u => u.tab.learns = s.tab.learns.eraseIdx k ∧
      mget u.tab.exm l.table = some ((t.write ws).mendedBy t) ∧ u.tab.learnFifo = s.tab.learnFifo) ∧
  (∀ (k : Nat) (l : Learn) (t : ExmTable) (s : State), s.tab.learns[k]? = some l →
    ((s.tab.learns.take k).any fun x => x.table == l.table && x.copy == l.copy) = false → mget s.tab.exm l.table = some t →
    s.copyServes t l.copy = true → s.holdsFor l.table t l = .static →
    exec (.learnPlace k false) s = .next { s with tab := { s.tab with learns := s.tab.learns.eraseIdx k } }) ∧
  (∀ (i a : Nat) (t : ExmTable) (c : ECell) (s : State), mget s.tab.exm i = some t → mget t.cells a = some c → c.state = 5 →
    t.locked (cellCopy a) (cellBucket a) = false → t.shows s.time.turn c = false → (∀ x ∈ t.cells, x.2.state ≠ 4) →
    Runs (.learnStateAlways i a) s fun u => mget u.tab.exm i = some ((t.remove fun b _ => b == a).mendedBy t) ∧
      u.tab.learnFifo = s.tab.learnFifo) ∧
  (∀ (i a : Nat) (t : ExmTable) (c : ECell) (s : State), mget s.tab.exm i = some t → mget t.cells a = some c → c.state = 4 →
    t.locked (cellCopy a) (cellBucket a) = false → t.shows s.time.turn c = true → (∀ x ∈ t.cells, x.2.state ≠ 5) →
    s.tab.learnFifo.length < 65536 →
    Runs (.learnStateAlways i a) s fun u =>
      mget u.tab.exm i =
        some ((({ t with cells := mput t.cells a { c with state := 1 } } : ExmTable).remove fun _ _ => false).mendedBy t) ∧
      u.tab.learnFifo.length = s.tab.learnFifo.length + 1) ∧
  (∀ (i copy bucket : Nat) (t : ExmTable) (s : State), mget s.tab.exm i = some t → t.d.ageing.isNone = false →
    t.locked copy bucket = false → s.copyServes t copy = true → (s.ageRule i s.time.turn).2 = false →
    Runs (.ageingSweepVisit i copy bucket) s fun u => ∃ v, mget u.tab.exm i = some v ∧ v.locks = t.locks ∧
      v.cells.map (·.1) = t.cells.map (·.1) ∧ v.cells.map (fun x => { x.2 with stamp := 0 }) = t.cells.map (fun x => { x.2 with stamp := 0 }) ∧
      u.tab.learnFifo = s.tab.learnFifo) ∧
  (∀ (fn be i val : Nat) (s : State), i < 64 → WriteTaken s fn (R.EXM_AGE i) be false → be = 15 → 1 ≤ val / 256 % 256 →
    val / 256 % 256 ≤ 254 →
    Runs (.ageLimitWrite fn be i val) s fun u => u.rd (R.EXM_AGE_limit i) = val / 256 % 256 ∧ u.rd (R.EXM_AGE_en i) = val / 2 ^ 16 % 2 ∧
      (∀ τ, s.time.turn < τ → u.ageRule i τ = (val / 256 % 256, bitAt val 16)) ∧
      (∀ τ, τ ≤ s.time.turn → u.ageRule i τ = s.ageRule i τ)) ∧
  (∀ (r : List Byte) (rest : List (List Byte)) (s : State), s.tab.learnFifo = r :: rest → s.on R.EXM_LFIFO_CFG_en = true →
    ringFull (s.rd R.EXM_LFIFO_CFG_size_log2) (s.rd R.EXM_LFIFO_HEAD_head) (s.rd R.EXM_LFIFO_TAIL_tail) = false →
    s.rd R.EXM_LFIFO_CFG_size_log2 ≤ 20 →
    Runs .learnRecordDeliver s fun u => u.tab.learnFifo = rest ∧
      u.rd R.EXM_LFIFO_HEAD_head = (s.rd R.EXM_LFIFO_HEAD_head + 1) % 2 ^ s.rd R.EXM_LFIFO_CFG_size_log2 ∧
      ∃ more, u.out = s.out ++ .dma (s.ringOwner R.EXM_LFIFO_CFG_en) (s.pairAt R.EXM_LFIFO_BASE_LO +
        64 * (s.rd R.EXM_LFIFO_HEAD_head % 2 ^ s.rd R.EXM_LFIFO_CFG_size_log2)) r :: more)

/-! ### Searches, iterations and flushes (chapters 5 and 6) -/

/-- The search commands have their effect (R135, R159 to R161): a search that finds an entry writes its summary and record and completes
DONE, one that finds none NOT_FOUND; an iteration returns a batch and closes with its last; an idle context closes after 1 s; a flush is
accepted, and at its end nothing it takes is left to be seen from the next turn on, and it completes DONE. -/
def Obligations.SearchCommandsTakeEffect : Prop :=
  (∀ (c : Cmd) (slot table pipe key keyAddr resultAddr f r n i : Nat) (all : Bool) (poison : List Nat) (t : AsmTable) (s : State),
    c.src = .ring f r n → s.findAsm slot table = some (i, t) → s.findExm slot table = none → t.decl.dma = false →
    CommandTaken s c 0x01 (s.tableGrant slot table) [(keyAddr, 40), (resultAddr, 32 + 96 * (if all then 8 else 1))] →
    (t.search s.time.turn key).hit = true → s.tab.upsets = [] →
    Runs (.search c slot table pipe all key keyAddr resultAddr poison) s fun u => Answers c stDone s u ∧ u.tab = s.tab ∧
      u.out = s.out ++ [.dma f resultAddr (summary 1 0 0 s.time.turn 0 ++
        t.record slot s.time.turn 0 (t.search s.time.turn key).len key (t.search s.time.turn key))]) ∧
  (∀ (c : Cmd) (slot table pipe key keyAddr resultAddr f r n i : Nat) (poison : List Nat) (t : ExmTable) (s : State),
    c.src = .ring f r n → s.findAsm slot table = none → s.findExm slot table = some (i, t) → t.decl.dma = false →
    CommandTaken s c 0x01 (s.tableGrant slot table) [(keyAddr, ceilDiv t.d.keyBits 8), (resultAddr, 128)] →
    s.exmFind i t (t.copyOf (pipe % 8)) s.time.turn (key % 2 ^ t.d.keyBits) = none →
    Runs (.search c slot table pipe false key keyAddr resultAddr poison) s fun u => Answers c stNotFound s u ∧ u.tab = s.tab ∧
      ∃ xs, u.out = s.out ++ xs ++ [.dma f resultAddr (summary 0 0 0 s.time.turn 0)]) ∧
  (∀ (c : Cmd) (slot table pipe key keyAddr resultAddr f r n i a : Nat) (x : ECell) (t : ExmTable) (s : State),
    c.src = .ring f r n → s.findAsm slot table = none → s.findExm slot table = some (i, t) → t.decl.dma = false →
    CommandTaken s c 0x01 (s.tableGrant slot table) [(keyAddr, ceilDiv t.d.keyBits 8), (resultAddr, 128)] →
    s.exmFind i t (t.copyOf (pipe % 8)) s.time.turn (key % 2 ^ t.d.keyBits) = some (a, x) →
    Runs (.search c slot table pipe false key keyAddr resultAddr []) s fun u => Answers c stDone s u ∧ u.tab = s.tab ∧
      ∃ xs bad, u.out = s.out ++ xs ++
          [.dma f resultAddr (summary 1 0 0 s.time.turn 0 ++ t.record slot (pipe % 8) a s.time.turn x bad)] ∧
        (t.d.hbm = false → t.bad.contains a = false → bad = false)) ∧
  (∀ (c : Cmd) (slot table pipe count k resultAddr i : Nat) (after : Option (Nat × Nat × Nat)) (t : ExmTable) (x : IterCtx) (s : State),
    s.findAsm slot table = none → s.findExm slot table = some (i, t) → t.decl.dma = false → 1 ≤ count → count ≤ 64 → k < 16 →
    CommandTaken s c 0x02 (s.tableGrant slot table) [(resultAddr, 32 + 96 * count)] → mget s.tab.iters k = some x →
    x.table = i → x.copy = t.copyOf (pipe % 8) → x.overflow = false →
    Runs (.next c slot table pipe count k resultAddr after []) s fun u => Answers c stDone s u ∧ u.tab.exm = s.tab.exm ∧
      ((s.iterCells x t s.time.turn).length ≤ count → mget u.tab.iters k = none) ∧
      (count < (s.iterCells x t s.time.turn).length → ∃ y, mget u.tab.iters k = some y ∧ y.used = s.time.elapsed ∧
        y.table = x.table ∧ y.copy = x.copy)) ∧
  (∀ (k : Nat) (x : IterCtx) (s : State), k < 16 → mget s.tab.iters k = some x → x.used + 1000000000 ≤ s.time.elapsed →
    Runs (.iterationContextExpire k) s fun u => mget u.tab.iters k = none ∧ bitAt (u.rdWord R.EXM_ITER_OPEN).toNat k = false) ∧
  (∀ (c : Cmd) (slot table port resultAddr i : Nat) (incl : Bool) (t : ExmTable) (s : State), s.findExm slot table = some (i, t) →
    CommandTaken s c 0x03 (rightOf 0x03 ++ s.tableGrant slot table) [(resultAddr, 32)] → t.decl.dma = false →
    mget s.tab.exm i = some t → t.d.port.isNone = false → port ≤ 127 → t.flushes.length < 4 →
    Runs (.flushPort c slot table port incl resultAddr) s fun u => Answers c stAccepted s u ∧
      mget u.tab.exm i = some { t with flushes := t.flushes ++ [⟨port, resultAddr, incl, s.time.turn, c⟩] }) ∧
  (∀ (i pub : Nat) (x : ExmTable) (f : EFlush) (rest : List EFlush) (s : State), mget s.tab.exm i = some x → x.flushes = f :: rest →
    pub = (s.time.turn + 1) % 4096 →
    ((x.cells.filter fun e => f.takes x.d pub e.2).any fun e => x.locked (cellCopy e.1) (cellBucket e.1)) = false →
    x.overlap = none →
    Runs (.flushPortDone i) s fun u => Answers f.cmd stDone s u ∧ ∃ y, mget u.tab.exm i = some y ∧ y.flushes = rest ∧
      (∀ e ∈ y.cells, f.takes x.d pub e.2 = false) ∧ ∀ e ∈ x.cells, f.takes x.d pub e.2 = false → e.2 ∈ y.cells.map (·.2))

/-! ### The window over buckets and the shadow compare (chapter 6) -/

/-- The window commands have their effect (R162, R163, R165, R166): a lock takes the bucket's staging copy, the owner's writes merge into
it, an unlock publishes it at the next boundary or discards it, a lock not ended in 100 us expires; a whole entry written to an unlocked
bucket is lock, write and commit; in recovery mode the window is the download window (R538, R539); a read returns the bytes of a bucket,
or with target 1 those of the ASM bucket memory (R124, R439); a compare is busy until its end reports. -/
def Obligations.WindowCommandsTakeEffect : Prop :=
  (∀ (fn addr : Nat) (w : Win) (s : State), Bar2Taken s fn addr w → w.off = 16 → w.lock = none → w.table.locks.length < 64 →
    Runs (.bucketLock fn addr 15) s fun u => ∃ y img, mget u.tab.exm w.index = some y ∧ y.cells = w.table.cells ∧
      y.locks = w.table.locks ++ [⟨w.copy, w.bucket, fn, s.time.elapsed, img, none⟩]) ∧
  (∀ (fn addr : Nat) (data : List Byte) (l : ELock) (w : Win) (s : State), Bar2Taken s fn addr w → s.svc.recovery = false →
    w.lock = some l → l.owner = fn → l.commit = none →
    Runs (.bucketStagingWrite fn addr data) s fun u => mget u.tab.exm w.index =
      some (w.table.setLock l (some { l with staging := mergeStaging l.staging w.off data }))) ∧
  (∀ (fn addr : Nat) (l : ELock) (w : Win) (s : State), Bar2Taken s fn addr w → w.off = 16 → w.lock = some l → l.owner = fn →
    l.commit = none →
    Runs (.bucketUnlockCommit fn addr 15) s fun u => mget u.tab.exm w.index =
      some (w.table.setLock l (some { l with commit := some (s.time.turn + 1) }))) ∧
  (∀ (fn addr : Nat) (l : ELock) (w : Win) (s : State), Bar2Taken s fn addr w → w.off = 16 → w.lock = some l → l.owner = fn →
    l.commit = none →
    Runs (.bucketUnlockDiscard fn addr 15) s fun u => mget u.tab.exm w.index = some (w.table.setLock l none)) ∧
  (∀ (fn addr : Nat) (data : List Byte) (w : Win) (s : State), Bar2Taken s fn addr w → s.svc.recovery = false → w.lock = none →
    data.length = 64 → w.off % 64 = 0 → w.table.locks.length < 64 →
    Runs (.bucketEntryWrite fn addr data) s fun u => ∃ y l, mget u.tab.exm w.index = some y ∧ l ∈ y.locks ∧ l.copy = w.copy ∧
      l.bucket = w.bucket ∧ l.owner = fn ∧ l.commit = some (s.time.turn + 1) ∧ y.cells = w.table.cells) ∧
  (∀ (fn addr : Nat) (data : List Byte) (s : State), s.answers fn = true → s.svc.recovery = true → addr + data.length ≤ 2 ^ 26 →
    Runs (.bucketStagingWrite fn addr data) s (Downloads addr data s) ∧ Runs (.bucketEntryWrite fn addr data) s (Downloads addr data s)) ∧
  (∀ (i copy bucket : Nat) (t : ExmTable) (l : ELock) (s : State), i < 64 → mget s.tab.exm i = some t →
    t.locks.find? (fun l => l.copy == copy && l.bucket == bucket) = some l → l.start + 100000 ≤ s.time.elapsed →
    Runs (.bucketLockExpire i copy bucket) s fun u => mget u.tab.exm i = some (t.setLock l none) ∧
      u.rd R.EXM_LOCK_EXPIRED_count = satAdd 32 (s.rd R.EXM_LOCK_EXPIRED_count) 1) ∧
  (∀ (fn addr : Nat) (w : Win) (s u : State), s.answers fn = true → s.clockRuns (blockBit (R.EXM_WIN 0)) = true →
    s.rd (R.HAC_BAR2_SEL_target fn) ≠ 1 → s.window fn (addr / 64 * 64) = some w → (fn = 1 → s.on (grantExm w.index) = true) →
    (w.table.d.hbm && s.tdDown) = false → w.lock = none → s.readBucket w.table w.copy w.bucket = (false, u) →
    exec (.bar2Read fn addr false) s =
      .next (u.emit (.read fn (leNat (slice (w.table.image w.copy w.bucket) w.off 64))))) ∧
  (∀ (fn addr : Nat) (s : State), s.answers fn = true → s.clockRuns (blockBit (R.EXM_WIN 0)) = true →
    s.rd (R.HAC_BAR2_SEL_target fn) = 1 → s.tab.upsets = [] →
    exec (.bar2Read fn addr false) s =
      .next (s.emit (.read fn (leNat (slice (blockBytes s.tab.asm (addr / 64 * 64 / 256)) (addr / 64 * 64 % 256) 64))))) ∧
  (∀ (fn val first count i : Nat) (t : ExmTable) (s : State), WriteTaken s fn R.EXM_CMP_CTRL 15 true →
    s.on R.EXM_CMP_STATUS_busy = false → val % 2 = 1 → i = val / 4 % 64 → mget s.tab.exm i = some t →
    bitAt t.slots (val / 256 % 2) = true → first = s.rd R.EXM_CMP_FIRST_bucket → count = s.rd R.EXM_CMP_COUNT_buckets →
    first + count ≤ t.d.buckets + 32 → fn ≠ 1 → s.inWindow fn (s.pairAt R.EXM_CMP_SRC_LO) (count * t.d.stride) = true →
    s.inWindow fn (s.pairAt R.EXM_CMP_OUT_LO) (16 * s.rd R.EXM_CMP_OUT_LEN_records) = true →
    Runs (.shadowCompareStart fn 15 val) s fun u => u.on R.EXM_CMP_STATUS_busy = true ∧ u.rd R.EXM_CMP_DIFFS_count = 0 ∧
      ∃ j, u.tab.compare = some j ∧ j.fn = fn ∧ j.table = i ∧ j.first = first ∧ j.count = count ∧ j.static = bitAt val 1) ∧
  (∀ (shadow : List Byte) (j : CmpJob) (t : ExmTable) (s : State), s.tab.compare = some j → mget s.tab.exm j.table = some t →
    ((List.range j.count).filterMap fun k =>
      t.compareBucket j (j.first + k) s.time.turn (slice shadow (k * t.d.stride) t.d.stride)).length ≤ s.rd R.EXM_CMP_OUT_LEN_records →
    Runs (.shadowCompareDone shadow) s fun u => u.tab.compare = none ∧ u.on R.EXM_CMP_STATUS_busy = false ∧
      u.on R.EXM_CMP_STATUS_done = true ∧ ∃ data, u.out = s.out ++ [.dma j.fn (s.pairAt R.EXM_CMP_OUT_LO) data])

/-! ### The buffer and admission (chapter 9) -/

/-- The buffer's commands have their effect (R237, R240 to R242, R248): a pool's size sets its limits while the buffer is empty; a limit
that fits is taken and one that does not is ignored; body bytes that reach the TD are staged; a discarded body is freed, and one without
a descriptor for 64 us is freed and counted; an audit is asked for, and its end frees what nothing reached. -/
def Obligations.BufferCommandsTakeEffect : Prop :=
  (∀ (fn pool n : Nat) (s : State), pool < 4 → WriteTaken s fn (R.BPM_POOL_w0 pool) 15 false → s.on R.BPM_STATUS_empty = true →
    1 ≤ n → n ≤ poolMax pool →
    Runs (.poolSizeWrite fn 15 pool n) s fun t => t.rd (R.BPM_POOL_w0_size_4mib pool) = n ∧
      t.rd (R.BPM_POOL_w3_hard_limit pool) = 13 * poolCells pool n / 16 % 2 ^ 19 ∧
      t.rd (R.BPM_POOL_w4_egress_reserve pool) = 2 * poolCells pool n / 16 % 2 ^ 19 ∧ t.buf = s.buf) ∧
  (∀ (fn pool n : Nat) (s : State), pool < 4 → WriteTaken s fn (R.BPM_POOL_w3 pool) 15 false → n < 2 ^ 19 →
    Runs (.poolLimitWrite fn 15 pool n false) s fun t => t.rd (R.BPM_POOL_w3_hard_limit pool) =
      if n + s.rd (R.BPM_POOL_w4_egress_reserve pool) ≤ s.rd (R.BPM_POOL_w2_cells pool) then n
      else s.rd (R.BPM_POOL_w3_hard_limit pool)) ∧
  (∀ (fn pool n : Nat) (s : State), pool < 4 → WriteTaken s fn (R.BPM_POOL_w4 pool) 15 false → n < 2 ^ 19 →
    Runs (.poolLimitWrite fn 15 pool n true) s fun t => t.rd (R.BPM_POOL_w4_egress_reserve pool) =
      if s.rd (R.BPM_POOL_w3_hard_limit pool) + n ≤ s.rd (R.BPM_POOL_w2_cells pool) then n
      else s.rd (R.BPM_POOL_w4_egress_reserve pool)) ∧
  (∀ (id upto : Nat) (p : Packet) (s : State), s.pkt id = some p → p.egress = false → 512 < upto → p.staged < upto → upto ≤ p.len →
    s.tdStill = false →
    Runs (.bodyStagingWrite id upto) s fun t => t.pkt id = some { p with staged := upto } ∧
      ∃ b, t.stagedBody id = some b ∧ b.whole = (upto == p.len) ∧ b.last = s.time.elapsed) ∧
  (∀ (id : Nat) (s : State), s.brg.notices.contains id = true → (s.brg.descs.any fun d => d.pkt == id) = false →
    Runs (.discardNotice id) s fun t => t.brg.notices = s.brg.notices.erase id ∧ t.stagedBody id = none ∧ t.brg.descs = s.brg.descs) ∧
  (∀ (id : Nat) (b : Staging) (s : State), s.stagedBody id = some b → b.whole = true → b.marked = false → b.expired = false →
    b.last + 64000 ≤ s.time.elapsed → (s.brg.descs.any fun d => d.pkt == id && s.deliverable d) = false → b.cells.Nodup →
    (∀ p ∈ b.cells, s.ptrFault p true = none) →
    Runs (.stagingExpire id) s fun t => t.stagedBody id = some { b with cells := [], expired := true } ∧
      t.rd R.BPM_STAGE_EXPIRED_count = satAdd 32 (s.rd R.BPM_STAGE_EXPIRED_count) 1 ∧
      ∀ p ∈ b.cells, mget t.buf.cells p = none) ∧
  (∀ (fn val : Nat) (s : State), WriteTaken s fn R.BPM_AUDIT_CTRL 15 true → bitAt val 0 = true →
    s.on R.BPM_STATUS_audit_busy = false →
    Runs (.auditStart fn 15 val) s fun t => t.buf.auditAsk = true ∧ t.on R.BPM_STATUS_audit_busy = true ∧
      RegsBut [R.BPM_STATUS, R.BPM_AUDIT_CTRL, R.HAC_WSEQ fn] s t) ∧
  (∀ (l : List Nat) (s : State), s.buf.audit = some l → (∀ p ∈ l, (mget s.buf.cells p).isSome = true → s.ptrFault p true = none) →
    Runs .auditDone s fun t => t.buf.audit = none ∧ t.on R.BPM_STATUS_audit_busy = false ∧ t.rd R.BPM_LEAKED_cells = 0 ∧
      t.rd R.BPM_AUDIT_FREED_cells = (l.filter fun p => (mget s.buf.cells p).isSome).length % 2 ^ 22 ∧
      ∀ p ∈ l, mget t.buf.cells p = none)

/-- The admission commands have their effect (R19, R217, R252 to R254, R257, R259, R262): a decision takes the next copy of a descriptor
and answers its verdict, with PORT_DRAINING where its VOQ is not UP; a capture shows a VOQ's depth; a seed other than 0 reseeds. -/
def Obligations.AdmissionCommandsTakeEffect : Prop :=
  (∀ (id engine : Nat) (ptr : Option Nat) (d : Desc) (ds : List Desc) (k : CopyKind) (rest : List CopyKind) (s : State),
    s.tdHalted = false → s.brg.descs = d :: ds → d ∉ ds → s.deliverable d = true → d.pkt = id → d.bad = false → d.todo = k :: rest →
    Runs (.admissionDecision id engine ptr) s fun t => ∃ extra : List CopyKind,
      (extra = [] ∨ ∃ m why, extra = [.dropMirror m why]) ∧
      t.brg.descs = (if (rest ++ extra).isEmpty then ds else { d with taken := true, todo := rest ++ extra } :: ds) ∧
      (d.waits = true → k = .primary → ∃ v, t.brg.verdicts = s.brg.verdicts ++ [v] ∧ v.pkt = id ∧ v.sent = s.time.elapsed) ∧
      (d.waits = false → t.brg.verdicts = s.brg.verdicts)) ∧
  (∀ (id engine : Nat) (ptr : Option Nat) (d : Desc) (ds : List Desc) (rest : List CopyKind) (u : State) (s : State),
    s.tdHalted = false → s.brg.descs = d :: ds → s.deliverable d = true → d.pkt = id → d.bad = false → d.todo = .primary :: rest →
    d.waits = true → (s.takeDesc d).bufSync.storeDesc { d with taken := true } = (none, u) →
    (u.queue (u.copyTo d .primary).1).lc ≠ lcUp →
    Runs (.admissionDecision id engine ptr) s fun t =>
      t.brg.verdicts = s.brg.verdicts ++ [⟨id, false, drDraining, s.time.elapsed, false⟩]) ∧
  (∀ (id engine : Nat) (ptr : Option Nat) (d : Desc) (ds : List Desc) (s : State), s.tdHalted = false → s.brg.descs = d :: ds →
    d ∉ ds → s.deliverable d = true → d.pkt = id → d.bad = true →
    Runs (.admissionDecision id engine ptr) s fun t => t.brg.descs = ds ∧
      (d.waits = true → t.brg.verdicts = s.brg.verdicts ++ [⟨id, false, drPoison, s.time.elapsed, false⟩])) ∧
  (∀ (fn val q : Nat) (s : State), WriteTaken s fn R.QMG_QSEL 15 true → q = val % 2 ^ 19 →
    Runs (.queueStateCapture fn 15 val) s fun t => t.on R.QMG_QINFO_valid = true ∧ t.rd R.QMG_QSEL_voq = q ∧
      t.on R.QMG_QINFO_spill = (s.queue q).spill ∧ t.on R.QMG_QINFO_empty = ((s.queue q).copies == 0) ∧
      t.rd64 R.QMG_QDEPTH_ONDIE_LO_bytes_lo R.QMG_QDEPTH_ONDIE_HI_bytes_hi = (s.queue q).onDieBytes % 2 ^ 64 ∧
      t.rd64 R.QMG_QDEPTH_TOTAL_LO_bytes_lo R.QMG_QDEPTH_TOTAL_HI_bytes_hi = (s.queue q).bytes % 2 ^ 64 ∧ t.buf = s.buf ∧
      RegsBut [R.QMG_QSEL, R.QMG_QINFO, R.QMG_QDEPTH_ONDIE_LO, R.QMG_QDEPTH_ONDIE_HI, R.QMG_QDEPTH_TOTAL_LO, R.QMG_QDEPTH_TOTAL_HI,
        R.QMG_QAVG, R.HAC_WSEQ fn] s t) ∧
  (∀ (fn val : Nat) (s : State), WriteTaken s fn R.QMG_WRED_SEED 15 false → val % 2 ^ 32 ≠ 0 →
    Runs (.wredSeedWrite fn 15 val) s fun t => t.buf = { s.buf with wred := [] } ∧ t.rd R.QMG_WRED_SEED_seed = val % 2 ^ 32 ∧
      RegsBut [R.QMG_WRED_SEED, R.HAC_WSEQ fn] s t) ∧
  (∀ (fn val : Nat) (s : State), WriteTaken s fn R.QMG_WRED_SEED 15 false → val % 2 ^ 32 = 0 →
    Runs (.wredSeedWrite fn 15 val) s fun t => t.buf = s.buf ∧ t.rd R.QMG_WRED_SEED_seed = s.rd R.QMG_WRED_SEED_seed)

/-! ### The HBM tier, the reservoir and hold-over (chapter 10) -/

/-- The HBM commands have their effect (R265 to R268, R272, R276, R286, R564): a poisoned tile marks or loses the copies it holds and a
good one changes nothing; 64 staged pages pass into a reservoir page; the map and the partition change only while the tier is empty; a
band's delays are written and applied. -/
def Obligations.HbmCommandsTakeEffect : Prop :=
  (∀ (q tile : Nat) (p : ResPage) (flips : List (List Byte)) (media : Bool) (s : State), s.tdDown = false →
    (s.queue q).rbase ≤ 512 * tile → 512 * tile + 512 ≤ (s.queue q).rst.pos →
    512 * tile < (s.queue q).rbase + 2 ^ 20 * (s.queue q).rpages.length →
    (s.queue q).rpages[(512 * tile - (s.queue q).rbase) / 2 ^ 20]? = some p →
    exec (.tileReadReturn q true tile flips false false) s =
      .next (s.setPrefetch (s.engineOf q) (s.prefetched (s.engineOf q) + 512)) ∧
    Runs (.tileReadReturn q true tile flips true media) s fun t =>
      (t.queue q).res = (s.queue q).res.map (hitByTile (512 * tile)) ∧ (t.queue q).hbm = (s.queue q).hbm ∧
      ∀ r, r ≠ q → t.queue r = s.queue r) ∧
  (∀ (q : Nat) (p : ResPage) (u s : State), s.tdDown = false → 64 ≤ (s.queue q).rst.pages.length →
    (s.queue q).rst.base + 2 ^ 20 ≤ (s.queue q).rst.pos → s.takeResPage = some (p, u) →
    Runs (.reservoirPageCopy q) s fun t => (t.queue q).rpages = (s.queue q).rpages ++ [p] ∧
      (t.queue q).rst.pages = (s.queue q).rst.pages.drop 64 ∧ (t.queue q).rst.base = (s.queue q).rst.base + 2 ^ 20 ∧
      (t.queue q).res.length = (s.queue q).res.length) ∧
  (∀ (fn val : Nat) (s : State), WriteTaken s fn R.HBC_MAP 15 false → val % 4 ≠ 3 →
    Runs (.hbmMapWrite fn 15 val) s fun t =>
      t.rd R.HBC_MAP_grain = (if s.mapFree then val % 4 else s.rd R.HBC_MAP_grain) ∧ t.buf = s.buf) ∧
  (∀ (fn n : Nat) (s : State), WriteTaken s fn R.HBC_PART 15 false → s.mapFree = true → s.tablePagesMin ≤ n → n ≤ 3250585 →
    Runs (.hbmPartWrite fn 15 n) s fun t => t.rd R.HBC_PART_table_pages = n ∧ t.pageCount = 6 * (3250585 - n) ∧
      t.rd R.HBC_FREE_PAGES_pages = 6 * (3250585 - n) ∧ RegsBut [R.HBC_PART, R.HBC_FREE_PAGES, R.HAC_WSEQ fn] s t) ∧
  (∀ (stack band : Nat) (s : State), stack < 6 → band < 8 → s.tdDown = false → s.clockRuns 18 = true →
    exec (.hbmTempBandChange stack band) s = .next { s with mem := { s.mem with bands := mput s.mem.bands stack band } }) ∧
  (∀ (stack band : Nat) (s : State), stack < 6 → band < 8 → s.tdDown = false → mget s.mem.bands stack = some band →
    Runs (.hbmDelayApply stack) s fun t => t.rd (R.HBC_TEMP_band stack) = band ∧ mget t.mem.bands stack = none ∧
      t.svc = (s.takeDelays stack band).svc ∧ RegsBut [R.HBC_TEMP stack] s t)

/-- The reservoir's commands have their effect (R283, R284, R288, R503, R504): an enable takes a DOWN port to STARTING; its link trains, or
leaves it DOWN when it is not usable; the fill makes it UP; a disable drains an UP port and takes a STARTING one DOWN; a drained port
leaves DRAINING; a port that is lost is DOWN with its pages lost. -/
def Obligations.ReservoirCommandsTakeEffect : Prop :=
  (∀ (fn n : Nat) (s : State), n < 8 → WriteTaken s fn (R.RSV_PORT_LC n) 15 true → s.rd (R.RSV_PORT_LC_state n) = lcDown →
    Runs (.rsvPortEnable fn 15 n) s fun t => t.rd (R.RSV_PORT_LC_state n) = lcStarting ∧ (t.resPort n).enabled = true ∧
      (t.resPort n).used = (s.resPort n).used) ∧
  (∀ (fn n : Nat) (s : State), n < 8 → WriteTaken s fn (R.RSV_PORT_LC n) 15 true → s.rd (R.RSV_PORT_LC_state n) = lcUp →
    Runs (.rsvPortDisable fn 15 n) s fun t => t.rd (R.RSV_PORT_LC_state n) = lcDraining ∧ t.resPort n = s.resPort n) ∧
  (∀ (n pages : Nat) (x4 gt32 : Bool) (s : State), n < 8 → s.rd (R.RSV_PORT_LC_state n) = lcStarting → s.tdDown = false →
    Runs (.cxlLinkTrainingDone n true x4 gt32 pages) s (fun t => t.on (R.RSV_PORT_STATUS_link_up n) = true ∧
      t.on (R.RSV_PORT_STATUS_x4 n) = x4 ∧ t.on (R.RSV_PORT_STATUS_gt32 n) = gt32 ∧
      t.rd (R.RSV_PORT_CAP_pages n) = min pages 4194304 ∧ t.rd (R.RSV_PORT_LC_state n) = lcStarting ∧
      RegsBut [R.RSV_PORT_STATUS n, R.RSV_PORT_CAP n] s t) ∧
    Runs (.cxlLinkTrainingDone n false x4 gt32 pages) s fun t => t.rd (R.RSV_PORT_LC_state n) = lcDown) ∧
  (∀ (n : Nat) (s : State), n < 8 → s.rd (R.RSV_PORT_LC_state n) = lcStarting → s.on (R.RSV_PORT_STATUS_link_up n) = true →
    Runs (.rsvPortFillDone n) s fun t => t.rd (R.RSV_PORT_LC_state n) = lcUp ∧ t.on (R.RSV_PORT_STATUS_fill_done n) = true ∧
      t.rd (R.RSV_PORT_STATUS_fill_pct n) = 100 ∧ t.resPort n = s.resPort n) ∧
  (∀ (n : Nat) (s : State), n < 8 → s.rd (R.RSV_PORT_LC_state n) = lcDraining → (s.resPort n).used = [] →
    Runs (.rsvPortDrainDone n) s fun t =>
      t.rd (R.RSV_PORT_LC_state n) = lcDrained (s.on (R.RSV_PORT_LC_pend_up n)) ∧ t.on (R.RSV_PORT_LC_pend_up n) = false ∧
      t.on (R.RSV_PORT_STATUS_link_up n) = false) ∧
  (∀ (n : Nat) (s : State), n < 8 → s.rd (R.RSV_PORT_LC_state n) ≠ lcDown →
    Runs (.rsvPortLoss n) s fun t => t.rd (R.RSV_PORT_LC_state n) = lcDown ∧ (t.resPort n).used = [] ∧
      t.rd (R.RSV_PORT_LOST_count n) = satAdd 32 (s.rd (R.RSV_PORT_LOST_count n)) (s.resPort n).used.length ∧
      sread (fun _ => 0) t.svc.rsvEpoch n = sread (fun _ => 0) s.svc.rsvEpoch n + 1)

/-- The hold commands have their effect (R48, R52, R290, R291): HOLD_DEST of a DOWN entry schedules the hold and of an UP one completes DONE; a
cancel in time takes it back, a late one completes LATE; RELEASE_DEST of an UP entry schedules the release, and its cancel withdraws it. -/
def Obligations.HoldCommandsTakeEffect : Prop :=
  (∀ (c : Cmd) (e device port tcs limit turn : Nat) (portOk : Bool) (s : State), e < 64 → device < 512 → port < 128 → 0 < tcs →
    tcs < 256 → 0 < limit → limit ≤ 600 → CommandTaken s c 0x28 (rightOf 0x28) [] → s.holdReady = true →
    s.holdState e = lcDown → s.holdTwin e device portOk port tcs = false → s.schedCheck (.holdStart e) c.system turn = stDone →
    Runs (.holdDest c e device portOk port tcs limit turn) s fun t => t.holdState e = lcStarting ∧ Answers c stAccepted s t ∧
      t.rd (R.RSV_HOLD_w0_device e) = device ∧ t.rd (R.RSV_HOLD_w0_tc_mask e) = tcs ∧ t.rd (R.RSV_HOLD_w1_limit_s e) = limit ∧
      ∃ x, t.sched = s.sched ++ [x] ∧ x.ev = .holdStart e ∧ x.turn = turn ∧ x.cmd = some c) ∧
  (∀ (c : Cmd) (e device port tcs limit turn : Nat) (portOk : Bool) (s : State), e < 64 → device < 512 → port < 128 → 0 < tcs →
    tcs < 256 → 0 < limit → limit ≤ 600 → CommandTaken s c 0x28 (rightOf 0x28) [] → s.tdDown = false → s.holdReady = true →
    s.holdState e = lcUp →
    Runs (.holdDest c e device portOk port tcs limit turn) s fun t => Answers c stDone s t ∧ t.sched = s.sched ∧
      t.holdState e = lcUp) ∧
  (∀ (c : Cmd) (e : Nat) (x : SlotEv) (s : State), e < 64 → CommandTaken s c 0x28 (rightOf 0x28) [] → s.tdDown = false →
    s.holdEvent (.holdStart e) = some x →
    (s.inTime x.turn = true → Runs (.holdDestCancel c e) s fun t => t.holdState e = lcDown ∧ t.sched = s.sched.erase x) ∧
    (s.inTime x.turn = false → Runs (.holdDestCancel c e) s fun t => Answers c stLate s t ∧ t.sched = s.sched)) ∧
  (∀ (c : Cmd) (e turn rate : Nat) (s : State), e < 64 → 10 ≤ rate → rate ≤ 32000 → CommandTaken s c 0x29 (rightOf 0x29) [] →
    s.holdState e = lcUp → s.holdEvent (.holdStop e) = none → s.schedCheck (.holdStop e) c.system turn = stDone →
    Runs (.releaseDest c e turn rate) s fun t => Answers c stAccepted s t ∧ mget t.buf.plans e = some rate ∧
      t.holdState e = lcUp ∧ ∃ x, t.sched = s.sched ++ [x] ∧ x.ev = .holdStop e ∧ x.turn = turn) ∧
  (∀ (c : Cmd) (e turn rate : Nat) (s : State), e < 64 → 10 ≤ rate → rate ≤ 32000 → CommandTaken s c 0x29 (rightOf 0x29) [] →
    s.tdDown = false → s.holdState e = lcDown →
    Runs (.releaseDest c e turn rate) s fun t => Answers c stDone s t ∧ t.sched = s.sched ∧ t.buf = s.buf) ∧
  (∀ (c : Cmd) (e : Nat) (x : SlotEv) (s : State), e < 64 → CommandTaken s c 0x29 (rightOf 0x29) [] → s.tdDown = false →
    s.holdEvent (.holdStop e) = some x → s.inTime x.turn = true →
    Runs (.releaseDestCancel c e) s fun t => t.sched = s.sched.erase x ∧ mget t.buf.plans e = none)

/-! ### Memory integrity (chapters 5 and 11) -/

/-- The ranks' commands have their effect (R305 to R309, R311): a parity error against a ring rank retires it into a free spare; the end of
the migration gives the spare its ring index; a window's end clears the correctable counts; a retired rank is enabled into its test and
becomes a spare when it passes; a spare is disabled at once. -/
def Obligations.RankCommandsTakeEffect : Prop :=
  (∀ (k r x : Nat) (s : State), k < 6 → r < 128 → s.tdDown = false → s.role k r = roRing → s.rd (R.HBC_RANK_LC_state k r) = lcUp →
    s.isErased k r = false → s.rd (R.HBC_SPARES_erased k) < 2 → s.freeSpare k = some x →
    Runs (.caParityError k r) s fun t => t.rd (R.HBC_RANK_LC_state k r) = lcDraining ∧ t.isErased k r = true ∧
      t.role k x = roReceiving ∧ t.mem.migs = s.mem.migs ++ [(k, r, x)]) ∧
  (∀ (k r x : Nat) (s : State), k < 6 → r < 128 → x < 128 → r ≠ x → s.mem.migs.find? (fun m => m.1 == k) = some (k, r, x) →
    s.mem.deferred.find? (fun d => d.1 == k) = none → s.rd (R.HBC_RANK_LC_state k r) = lcDraining →
    Runs (.migrationDone k) s fun t => t.role k x = roRing ∧
      t.rd (R.HBC_RANK_LC_ring_index k x) = s.rd (R.HBC_RANK_LC_ring_index k r) ∧ t.role k r = roRetired ∧
      t.isErased k r = false ∧ t.rd (R.HBC_RANK_LC_state k r) = lcDrained (s.on (R.HBC_RANK_LC_pend_up k r)) ∧
      t.mem.migs = s.mem.migs.erase (k, r, x)) ∧
  (∀ (k w : Nat) (s : State), k < 6 → w = s.rd (R.HBC_RANK_CFG_window_s k) * Config.nsPerSec → w ≠ 0 →
    sread (fun _ => 0) s.mem.ceAt k / w < s.time.elapsed / w →
    Runs (.rankCeWindowEnd k) s fun t => (∀ r, r < 128 → t.rd (R.HBC_RANK_CNT_ce k r) = 0 ∧
      t.rd (R.HBC_RANK_CNT_ue k r) = s.rd (R.HBC_RANK_CNT_ue k r)) ∧ sread (fun _ => 0) t.mem.ceAt k = s.time.elapsed) ∧
  (∀ (fn k r : Nat) (s : State), k < 6 → r < 128 → WriteTaken s fn (R.HBC_RANK_LC k r) 15 true →
    s.rd (R.HBC_RANK_LC_state k r) = lcDown →
    Runs (.rankEnable fn 15 k r) s fun t => t.rd (R.HBC_RANK_LC_state k r) = lcStarting ∧
      RegsBut [R.HBC_RANK_LC k r, R.HAC_WSEQ fn] s t) ∧
  (∀ (fn k r : Nat) (s : State), k < 6 → r < 128 → WriteTaken s fn (R.HBC_RANK_LC k r) 15 true →
    s.rd (R.HBC_RANK_LC_state k r) = lcUp → s.role k r = roSpare →
    Runs (.rankDisable fn 15 k r) s fun t => t.rd (R.HBC_RANK_LC_state k r) = lcDown ∧ t.role k r = roRetired) ∧
  (∀ (k r : Nat) (s : State), k < 6 → r < 128 → s.rd (R.HBC_RANK_LC_state k r) = lcStarting →
    Runs (.rankTestDone k r true) s (fun t => t.rd (R.HBC_RANK_LC_state k r) = lcUp ∧ t.role k r = roSpare) ∧
    Runs (.rankTestDone k r false) s fun t => t.rd (R.HBC_RANK_LC_state k r) = lcDown ∧ t.role k r = s.role k r)

/-- The patrols' and the walker's commands have their effect (R136 to R138, R302, R304, R315 to R319): a walker that finds a difference
counts a repair, and counts its cycles; a table stripe that cannot be corrected is counted; a word in error is counted, and an array
entry in it poisoned; the oldest patrol record goes to the host. -/
def Obligations.PatrolCommandsTakeEffect : Prop :=
  (∀ (bank unit addr loc : Nat) (upsets : List Upset) (s u : State), s.on R.ASM_WALK_CFG_en = true → loc = bank * 8192 + unit →
    u = s.strike upsets → worstFlips 12 (u.upset .copy loc) ≤ 1 → u.upset .units loc ≠ 0 →
    Runs (.asmWalkerVisit bank unit addr upsets false) s fun t =>
      t.rd R.ASM_WALK_FIXED_count = satAdd 32 (s.rd R.ASM_WALK_FIXED_count) 1 ∧ t.tab = (u.mend .units loc).tab) ∧
  (∀ (unit addr loc : Nat) (s : State), s.on R.ASM_WALK_CFG_en = true → loc = 31 * 8192 + unit →
    worstFlips 12 (s.upset .copy loc) = 0 → s.upset .units loc = 0 →
    Runs (.asmWalkerVisit 31 unit addr [] true) s fun t =>
      t.rd R.ASM_WALK_CYCLES_count = (s.rd R.ASM_WALK_CYCLES_count + 1) % 2 ^ 32 ∧ t.tab = s.tab ∧
      RegsBut [R.ASM_WALK_CYCLES] s t) ∧
  (∀ (k stripe : Nat) (flips : List (List Byte)) (s u : State), k < 6 → stripe < 32 * s.rd R.HBC_PART_table_pages →
    s.on R.MIF_PATROL_CFG_hbm_en = true → s.tdDown = false → u = s.strikeStripe k stripe flips →
    (decodeStripe (u.erasedSegs k stripe) (u.stripeAt k stripe)).verdict = .uncorrectable →
    Runs (.hbmPatrolVisit k stripe flips) s fun t =>
      t.rd (R.HBC_STRIPE_UE_count k) = satAdd 32 (s.rd (R.HBC_STRIPE_UE_count k)) 1) ∧
  (∀ (kind unit addr : Nat) (holds : WordUse) (s : State), kind < 6 → s.on R.MIF_PATROL_CFG_en = true →
    Runs (.sramPatrolVisit kind unit addr false holds) s fun t =>
      t.rd (R.MIF_CE_count kind) = satAdd 32 (s.rd (R.MIF_CE_count kind)) 1 ∧ t.txf = s.txf ∧ t.buf = s.buf) ∧
  (∀ (kind unit addr a i : Nat) (x : ArrInst) (s : State), kind < 6 → s.on R.MIF_PATROL_CFG_en = true →
    mget s.txf.arrays a = some x → mget x.poison i = none →
    Runs (.sramPatrolVisit kind unit addr true (.array a i)) s fun t => ∃ y, mget t.txf.arrays a = some y ∧
      (mget y.poison i).isSome = true ∧ y.vals = x.vals ∧ t.rd (R.MIF_UE_count kind) = satAdd 32 (s.rd (R.MIF_UE_count kind)) 1) ∧
  (∀ (r : List Byte) (rest : List (List Byte)) (s : State), s.mem.patrol = r :: rest → s.on R.MIF_PR_CFG_en = true →
    s.rd R.MIF_PR_CFG_size_log2 ≤ 16 →
    ringFull (s.rd R.MIF_PR_CFG_size_log2) (s.rd R.MIF_PR_HEAD_head) (s.rd R.MIF_PR_TAIL_tail) = false →
    Runs .patrolRecordDeliver s fun t => t.mem.patrol = rest ∧
      t.rd R.MIF_PR_HEAD_head = (s.rd R.MIF_PR_HEAD_head + 1) % 2 ^ s.rd R.MIF_PR_CFG_size_log2 ∧
      ∃ more, t.out = s.out ++ .dma (s.ringOwner R.MIF_PR_CFG_en) (s.pairAt R.MIF_PR_BASE_LO +
        32 * (s.rd R.MIF_PR_HEAD_head % 2 ^ s.rd R.MIF_PR_CFG_size_log2))
        (overlay r 4 (leBytes 4 ((s.mem.patSeq + 1) % 2 ^ 32))) :: more)

/-- The diagnostic window's commands have their effect (R323): go with the key starts the operation asked for; at its end a raw write has
replaced the word's data and check bits, an encoded write has written correct ones, and a read has written the word to the host. -/
def Obligations.DiagnosticCommandsTakeEffect : Prop :=
  (∀ (fn memory mask : Nat) (data : List Byte) (s : State), WriteTaken s fn R.MIF_DIAG_CTRL 15 true → memory < 8 →
    mask < 2 ^ 10 → s.on R.MIF_DIAG_STATUS_busy = false → s.inWindow fn (s.pairAt R.MIF_DIAG_BUF_LO) 1024 = true →
    Runs (.diagReadRaw fn 15 (0 + 4 * memory + 2 ^ 5 + 2 ^ 6 * mask + 2 ^ 16 * 0xA5C3) data) s fun t =>
      t.on R.MIF_DIAG_STATUS_busy = true ∧
      t.mem.diag = some ⟨fn, 0, memory, s.rd R.MIF_DIAG_ADDR_address, s.rd R.MIF_DIAG_UNIT_unit, mask, data⟩ ∧
      RegsBut [R.MIF_DIAG_STATUS, R.HAC_WSEQ fn] s t) ∧
  (∀ (fn memory mask : Nat) (data : List Byte) (s : State), WriteTaken s fn R.MIF_DIAG_CTRL 15 true → memory < 8 →
    mask < 2 ^ 10 → s.on R.MIF_DIAG_STATUS_busy = false → s.inWindow fn (s.pairAt R.MIF_DIAG_BUF_LO) 1024 = true →
    Runs (.diagWriteRaw fn 15 (1 + 4 * memory + 2 ^ 5 + 2 ^ 6 * mask + 2 ^ 16 * 0xA5C3) data) s fun t =>
      t.on R.MIF_DIAG_STATUS_busy = true ∧
      t.mem.diag = some ⟨fn, 1, memory, s.rd R.MIF_DIAG_ADDR_address, s.rd R.MIF_DIAG_UNIT_unit, mask, data⟩ ∧
      RegsBut [R.MIF_DIAG_STATUS, R.HAC_WSEQ fn] s t) ∧
  (∀ (fn memory mask : Nat) (data : List Byte) (s : State), WriteTaken s fn R.MIF_DIAG_CTRL 15 true → memory < 8 →
    mask < 2 ^ 10 → s.on R.MIF_DIAG_STATUS_busy = false → s.inWindow fn (s.pairAt R.MIF_DIAG_BUF_LO) 1024 = true →
    Runs (.diagWriteEncoded fn 15 (2 + 4 * memory + 2 ^ 5 + 2 ^ 6 * mask + 2 ^ 16 * 0xA5C3) data) s fun t =>
      t.on R.MIF_DIAG_STATUS_busy = true ∧
      t.mem.diag = some ⟨fn, 2, memory, s.rd R.MIF_DIAG_ADDR_address, s.rd R.MIF_DIAG_UNIT_unit, mask, data⟩ ∧
      RegsBut [R.MIF_DIAG_STATUS, R.HAC_WSEQ fn] s t) ∧
  (∀ (o : DiagOp) (k x : Nat) (s : State), s.mem.diag = some o → diagInside o.kind o.addr = true → o.kind < 6 →
    k = wordKey o.kind o.unit o.addr → x = sread (fun _ => 0) s.mem.flips k →
    Runs .diagDone s fun t => t.mem.diag = none ∧ t.on R.MIF_DIAG_STATUS_done = true ∧
      (o.op = 1 → mget t.mem.words k = some (leAt o.data 0 8, byteAt o.data 8)) ∧
      (o.op = 2 → mget t.mem.words k = some (leAt o.data 0 8, Config.secdedCheck (leAt o.data 0 8) % 256)) ∧
      (o.op = 0 → ∀ w, mget s.mem.words k = some w → ∃ xs, t.out = s.out ++ xs ++ [.dma o.fn (s.pairAt R.MIF_DIAG_BUF_LO)
        (leBytes 8 (w.1 ^^^ x % 2 ^ 64) ++ [BitVec.ofNat 8 (w.2 ^^^ x / 2 ^ 64)])])) ∧
  (∀ (o : DiagOp) (s : State), s.mem.diag = some o → diagInside 6 o.addr = true → o.kind = 6 →
    Runs .diagDone s fun t => t.mem.diag = none ∧ t.on R.MIF_DIAG_STATUS_done = true ∧
      (o.op = 0 → ∃ xs, t.out = s.out ++ xs ++ [.dma o.fn (s.pairAt R.MIF_DIAG_BUF_LO)
        (stripeBuf (s.stripeAt (o.addr / 2 ^ 27) (o.addr % 2 ^ 27)))])) ∧
  (∀ (o : DiagOp) (s : State), s.mem.diag = some o → diagInside o.kind o.addr = false →
    Runs .diagDone s fun t => t.mem.diag = none ∧ t.on R.MIF_DIAG_STATUS_error = true ∧ t.on R.MIF_DIAG_STATUS_busy = false ∧
      RegsBut [R.MIF_DIAG_STATUS] s t)

/-! ### The egress hierarchy (chapter 12) -/

/-- The commands of the egress hierarchy have their effect (R329, R334, R340, R344, R353, R354, R503, R504): a decision over a port with
nothing to send is idle, and one that reaches a copy sends it to the FD's egress section; a refill credits every bucket of its level; a
queue's lifecycle follows its enables and disables; the captures show a queue and a node. -/
def Obligations.SchedulerCommandsTakeEffect : Prop :=
  (∀ (port : Nat) (s u : State), port < 128 → s.tdHalted = false → u = s.refreshPort port →
    (∀ i, i < 16 → (u.peakOk 0 (port / 16 * 16 + i) && u.portAlive (port / 16 * 16 + i)) = false) → u.flushedQueues port = [] →
    Runs (.dequeueDecision port none none) s fun t =>
      t.rd (R.SCH_ENG_w2_idle (port / 16)) = satAdd 32 (s.rd (R.SCH_ENG_w2_idle (port / 16))) 1 ∧ t.fd = s.fd ∧
      t.buf.queues = s.buf.queues ∧ RegsBut [R.SCH_ENG_w2 (port / 16)] s t) ∧
  (∀ (port q : Nat) (path : List (Nat × Nat × Nat)) (c : Copy) (m : Image) (u v w s : State), port < 128 → s.tdHalted = false →
    u = s.refreshPort port → (u.peakOk 0 port && u.portAlive port) = true → u.flushedQueues port = [] →
    State.descend (u.activeTree port) 4 0 port u = (some path, v) →
    q = voqs + (path.getLast?.map (·.2.1)).getD 0 → State.nextCopy q ((v.queue q).copies + 1) v = (some c, w) →
    (if c.version = 0 then s.recipe.slotA else s.recipe.slotB) = some m →
    Runs (.dequeueDecision port none none) s fun t => t.fd.nextId = s.fd.nextId + 1 ∧ ∃ p, t.fd.pkts = s.fd.pkts ++ [p] ∧
      p.id = s.fd.nextId ∧ p.egress = true ∧ p.port = port ∧ p.bytes = c.bytes ∧ p.tag = c.tag ∧ p.version = c.version ∧
      p.poison = (w.readBody c).1.poison ∧ p.place = .stageWait 0) ∧
  (∀ (level k last now : Nat) (cuts : List Nat) (s : State), level < 5 → s.tdDown = false →
    last = sread (fun _ => 0) s.buf.rr (100 + level) / 2 ^ s.refillLog2 level → now = s.time.elapsed / 2 ^ s.refillLog2 level →
    last < now → k ∈ s.refillNodes level →
    cuts = (s.refillCuts level k (s.refillLog2 level)).filter (fun j => last < j && j < now) →
    Runs (.shaperRefill level) s fun t => t.regs = s.regs ∧
      sread (fun _ => 0) t.buf.rr (100 + level) = now * 2 ^ s.refillLog2 level ∧
      t.nodeSt level k = s.refillNode level k (s.refillLog2 level) last (cuts.foldl (fun l j => insertNat j l) [now])
        (s.nodeSt level k) ∧
      (cuts = [] → ∃ (τ : Nat) (r : List Byte), τ ≤ s.time.turn ∧
        r = s.tdAt tdShaper (ndProfile (s.tdAt (tdLevel level) k τ)) τ ∧
        (t.nodeSt level k).credC = refilled (s.nodeSt level k).credC (now - last) (spCir r) (spCbs r) (s.refillLog2 level) ∧
        (t.nodeSt level k).credP = refilled (s.nodeSt level k).credP (now - last) (spPir r) (spPbs r) (s.refillLog2 level))) ∧
  (∀ (fn val : Nat) (s : State), WriteTaken s fn R.SCH_CFG 15 false → (∀ p, p < 128 → s.rd (R.LIF_PORT_LC_state p) ≠ lcUp) →
    (∀ k, k < 5 → 6 ≤ val / 2 ^ (4 * k) % 16 ∧ val / 2 ^ (4 * k) % 16 ≤ 14) →
    Runs (.refillIntervalWrite fn 15 val) s fun t => ∀ k, k < 5 → t.refillLog2 k = val / 2 ^ (4 * k) % 16) ∧
  (∀ (fn : Nat) (s : State), WriteTaken s fn R.SCH_LC 15 true →
    Runs (.queueEnable fn 15) s (fun t =>
      ((t.queue s.selected).lc, (t.queue s.selected).pend) =
        lcRequest (s.queue s.selected).lc (s.queue s.selected).pend true false ∧
      ∀ q, q ≠ s.selected → t.queue q = s.queue q) ∧
    Runs (.queueDisable fn 15) s (fun t =>
      ((t.queue s.selected).lc, (t.queue s.selected).pend) =
        lcRequest (s.queue s.selected).lc (s.queue s.selected).pend false true ∧
      ((s.queue s.selected).lc = lcUp → (t.queue s.selected).flush = false) ∧
      ∀ q, q ≠ s.selected → t.queue q = s.queue q) ∧
    Runs (.queueDisableFlush fn 15) s fun t =>
      ((t.queue s.selected).lc, (t.queue s.selected).pend) =
        lcRequest (s.queue s.selected).lc (s.queue s.selected).pend false true ∧
      ((s.queue s.selected).lc = lcUp → (t.queue s.selected).flush = true) ∧
      ∀ q, q ≠ s.selected → t.queue q = s.queue q) ∧
  (∀ (q : Nat) (s : State), (s.queue q).lc = lcDraining → (s.queue q).copies = 0 →
    Runs (.queueDrainDone q) s fun t => (t.queue q).lc = lcDrained (s.queue q).pend ∧ (t.queue q).pend = false ∧
      (t.queue q).flush = false ∧ (t.queue q).copies = 0 ∧ ∀ r, r ≠ q → t.queue r = s.queue r) ∧
  (∀ (fn index kind : Nat) (s : State), WriteTaken s fn R.SCH_LC_SEL 15 true → index < 2 ^ 20 → kind < 2 →
    (kind = 0 → index < voqs) →
    Runs (.queueLcSelect fn 15 (index + 2 ^ 20 * kind)) s fun t => t.selected = (if kind = 1 then voqs else 0) + index ∧
      t.rd R.SCH_LC_state = (s.queue t.selected).lc % 4 ∧ t.on R.SCH_LC_pend_up = (s.queue t.selected).pend ∧
      t.on R.SCH_LC_valid = true ∧ t.buf = s.buf ∧ RegsBut [R.SCH_LC_SEL, R.SCH_LC, R.HAC_WSEQ fn] s t) ∧
  (∀ (fn index level : Nat) (s : State), WriteTaken s fn R.SCH_NSEL 15 true → level < 5 → index < levelSize level →
    Runs (.nodeStateCapture fn 15 (index + 2 ^ 20 * level)) s fun t => t.on R.SCH_NINFO_valid = true ∧
      t.on R.SCH_NINFO_complete = (s.pathUp level index).isSome ∧
      t.rd R.SCH_NCC_bytes = wholeBytes (s.nodeSt level index).credC % 2 ^ 32 ∧
      t.rd R.SCH_NCP_bytes = wholeBytes (s.nodeSt level index).credP % 2 ^ 32 ∧ t.buf = s.buf ∧
      RegsBut [R.SCH_NSEL, R.SCH_NINFO, R.SCH_NCC, R.SCH_NCP, R.HAC_WSEQ fn] s t)

/-! ### The fabric interface (chapter 13) -/

/-- The links' commands have their effect (R356 to R358, R373, R377, R381 to R384, R503, R504): an enabled link starts, comes UP with the
hello that acknowledges it under FEC lock, drains when it is disabled, isolated for errors or silent, and is DOWN when nothing waits on
it; markers make the lock; hellos and status messages are sent and received. -/
def Obligations.FabricLinkCommandsTakeEffect : Prop :=
  (∀ (fn l : Nat) (s : State), l < 160 → WriteTaken s fn (R.FAB_LINK_LC l) 15 true → s.on R.FAB_CFG_dev_valid = true →
    s.linkState l = lcDown →
    Runs (.linkEnable fn 15 l) s fun t => t.linkState l = lcStarting ∧ t.rdWord (R.FAB_LINK_STATUS l) = 0 ∧
      t.rdWord (R.FAB_LINK_ERR l) = 0 ∧ (t.link l).msgs = [] ∧ (t.link l).acked = false ∧
      RegsBut [R.FAB_LINK_LC l, R.FAB_LINK_STATUS l, R.FAB_LINK_ERR l, R.HAC_WSEQ fn] s t) ∧
  (∀ (fn l : Nat) (s : State), l < 160 → WriteTaken s fn (R.FAB_LINK_LC l) 15 true → s.linkState l = lcUp →
    Runs (.linkDisable fn 15 l) s fun t => t.linkState l = lcDraining ∧ t.on (R.FAB_LINK_STATUS_in_spray l) = false ∧
      (t.link l).queue = (s.link l).queue) ∧
  (∀ (l : Nat) (s : State), l < 160 → s.linkState l = lcDraining → (s.link l).queue = [] → (s.link l).ctl = [] →
    Runs (.linkDrainDone l) s fun t => t.linkState l = lcDrained (s.on (R.FAB_LINK_LC_pend_up l)) ∧
      t.on (R.FAB_LINK_STATUS_fec_lock l) = false) ∧
  (∀ (l : Nat) (slot : List Byte) (s : State), l < 160 → s.linkState l ≠ lcDown → s.tdDown = false → (s.link l).hits = 2 →
    isMarker (s.linkGen l) slot = true →
    Runs (.laneMarkerCheck l slot) s fun t => t.on (R.FAB_LINK_STATUS_fec_lock l) = true ∧ (t.link l).hits = 3 ∧
      RegsBut [R.FAB_LINK_STATUS l] s t) ∧
  (∀ (l : Nat) (slot : List Byte) (s : State), l < 160 → s.linkState l ≠ lcDown → s.tdDown = false → (s.link l).misses = 2 →
    isMarker (s.linkGen l) slot = false →
    Runs (.laneMarkerCheck l slot) s fun t => t.on (R.FAB_LINK_STATUS_fec_lock l) = false ∧ (t.link l).hits = 0 ∧
      RegsBut [R.FAB_LINK_STATUS l] s t) ∧
  (∀ (l : Nat) (s : State), l < 160 → s.tdDown = false → s.linkState l = lcUp → (s.link l).sentHello + 10000 ≤ s.time.elapsed →
    Runs (.helloSend l) s fun t => t.link l = { s.link l with
        sentHello := s.time.elapsed, msgs := (s.link l).msgs ++ [ctlMessage 0x01 0 (s.helloBody l)] } ∧ t.regs = s.regs) ∧
  (∀ (l : Nat) (m : InMsg) (s : State), l < 160 → s.fab.inbox.find? (fun m => m.link == l && m.kind == 1) = some m →
    s.linkState l = lcStarting → s.on (R.FAB_LINK_STATUS_fec_lock l) = true →
    s.wrongPeer l (byteAt m.body 0) (byteAt m.body 1) (leAt m.body 2 2 % 2 ^ 11) = false → bitAt (byteAt m.body 12) 0 = true →
    Runs (.helloReceive l) s fun t => t.linkState l = lcUp ∧ (t.link l).heard = true ∧ (t.link l).lastHello = s.time.elapsed ∧
      t.rd (R.FAB_LINK_STATUS_peer l) = leAt m.body 2 2 % 2 ^ 11 ∧ t.fab.inbox = s.fab.inbox.erase m) ∧
  (∀ (l : Nat) (s : State), l < 160 → s.linkState l = lcUp → (s.link l).lastHello + 50000 ≤ s.time.elapsed →
    Runs (.helloTimeout l) s fun t => t.linkState l = lcDraining ∧ t.on (R.FAB_LINK_STATUS_isolated l) = true ∧
      (t.link l).queue = []) ∧
  (∀ (l : Nat) (s : State), l < 160 → s.linkState l = lcUp → (s.link l).statusAt + 10000 ≤ s.time.elapsed →
    Runs (.linkStatusSend l) s fun t => (t.link l).discards = 0 ∧ (t.link l).statusAt = s.time.elapsed ∧ t.regs = s.regs ∧
      ∃ rest, (t.link l).msgs = (s.link l).msgs ++ [ctlMessage 0x03 0 (leBytes 4 (s.link l).discards ++ rest)]) ∧
  (∀ (l : Nat) (m : InMsg) (s : State), l < 160 → s.fab.inbox.find? (fun m => m.link == l && m.kind == 3) = some m →
    Runs (.linkStatusReceive l) s fun t => t.fab.inbox = s.fab.inbox.erase m ∧
      t.rd (R.FAB_LINK_ERR_tec l) = min 255 (s.rd (R.FAB_LINK_ERR_tec l) + 8 * leAt m.body 0 4)) ∧
  (∀ (l τ : Nat) (s : State), l < 160 → (s.link l).lowSince = some τ → s.linkState l = lcUp →
    s.on (R.FAB_LINK_STATUS_degraded l) = true → τ + 1000000 * s.rd R.FAB_ERR_CFG_recover_ms ≤ s.time.elapsed →
    Runs (.linkRecover l) s fun t => t.on (R.FAB_LINK_STATUS_degraded l) = false ∧ (t.link l).lowSince = none ∧
      t.linkState l = lcUp) ∧
  (∀ (l τ : Nat) (s : State), l < 160 → (s.link l).downAt = some τ → s.on R.FAB_SPARE_CFG_auto_restart = true →
    s.on R.FAB_CFG_dev_valid = true → s.linkState l = lcDown → τ + 100000000 ≤ s.time.elapsed →
    Runs (.linkAutoRestart l) s fun t => t.linkState l = lcStarting ∧ t.rdWord (R.FAB_LINK_STATUS l) = 0)

/-- The reachability commands have their effect (R87, R371, R373): a message sets what its link reaches; three periods without one end it;
a source's tag report is applied once what it sent before is there; what an unreachable source was granted is forgiven after 16 us. -/
def Obligations.ReachabilityCommandsTakeEffect : Prop :=
  (∀ (l : Nat) (m : InMsg) (s : State), s.fab.inbox.find? (fun m => m.link == l && m.kind == 2) = some m →
    Runs (.reachReceive l) s fun t => t.fab.inbox = s.fab.inbox.erase m ∧ (t.link l).reachAt = s.time.elapsed ∧
      (t.link l).reach = (s.link l).reach - bitsAt (s.link l).reach (32 * (byteAt m.body 0 % 16)) 32 * 2 ^ (32 * (byteAt m.body 0 % 16)) +
        leAt m.body 4 4 * 2 ^ (32 * (byteAt m.body 0 % 16))) ∧
  (∀ (l : Nat) (s : State), l < 160 → s.on R.FAB_CFG_mesh = false → (s.link l).reach ≠ 0 →
    (s.link l).reachAt + 3000 * s.rd R.FAB_REACH_CFG_period_us ≤ s.time.elapsed →
    Runs (.reachLapse l) s fun t => t.link l = { s.link l with reach := 0 }) ∧
  (∀ (src : Nat) (r : TagReport) (s : State), mget s.fab.waiting src = some r →
    ahead (s.inStream (inData src)).next r.seq = 0 ∨ 2 ^ 19 ≤ ahead (s.inStream (inData src)).next r.seq →
    (s.inStream (inData src)).ready = [] →
    exec (.tagReportApply src) s = .next { s with fab := { s.fab with
      waiting := mdel s.fab.waiting src, reports := mput s.fab.reports src r } }) ∧
  (∀ (src τ : Nat) (s : State), mget s.fab.lostAt src = some τ → τ + 16000 ≤ s.time.elapsed →
    exec (.grantForgive src) s = .next { s with fab := { s.fab with
      granted := s.fab.granted.filter (fun e => e.1 % 512 != src), demand := s.fab.demand.filter (fun e => e.1 % 512 != src),
      grants := s.fab.grants.filter (fun e => e.1 / 1024 != src) } })

/-- The cells' commands have their effect (R359, R360, R363, R367, R368, R376, R377, R380): a link with nothing to send sends an idle cell, a
data cell goes out as it is encoded; a bad cell is counted, a link's messages are taken, a cell ahead of a gap waits; a gap that has stood
for its time is lost; a reassembled copy passes on. -/
def Obligations.CellCommandsTakeEffect : Prop :=
  (∀ (l : Nat) (s : State), l < 160 → s.linkState l = lcStarting → s.tdStill = false →
    (s.sendMarker l).spreadCtl.controlCell l = none →
    Runs (.cellTransmit l) s fun t => ∃ dcr ccr, t.out = (s.sendMarker l).out ++ [.cell l ((idleCell s.self).encode (s.linkGen l) dcr ccr)]) ∧
  (∀ (l : Nat) (c : Cell) (u v s : State), l < 160 → s.linkState l = lcUp → s.tdStill = false → u = (s.sendMarker l).spreadCtl →
    u.controlCell l = none → u.dataCell l = some (c, v) → c.kind ≠ ceIdle → s.rd (R.DICE_STATUS_state (diceLink l)) ≠ diRunning →
    Runs (.cellTransmit l) s fun t => ∃ dcr ccr xs ys, t.out = s.out ++ xs ++ [.cell l (c.encode (s.linkGen l) dcr ccr)] ++ ys) ∧
  (∀ (l : Nat) (bytes : List Byte) (s : State), l < 160 → s.linkState l ≠ lcDown → s.tdStill = false →
    Runs (.cellReceive l bytes true) s fun t =>
      t.rd (R.FAB_LINK_RXDISC_count l) = satAdd 32 (s.rd (R.FAB_LINK_RXDISC_count l)) 1 ∧ t.fab.ins = s.fab.ins ∧
      t.fab.inbox = s.fab.inbox) ∧
  (∀ (l dcr ccr : Nat) (bytes : List Byte) (c : Cell) (s : State), l < 160 → s.linkState l = lcStarting → s.tdStill = false →
    decodeCell (s.linkGen l) bytes = some (c, dcr, ccr) → c.kind = ceControl → 1 ≤ byteAt c.payload 0 → byteAt c.payload 0 ≤ 3 →
    (s.link l).good ≠ 255 →
    Runs (.cellReceive l bytes false) s fun t => t.fab.inbox = s.fab.inbox ++
        (messages l c.src c.seq c.payload.length c.payload).filter fun m =>
          [1, 2, 3, 0x10, 0x11, 0x12, 0x20, 0x100].contains m.kind) ∧
  (∀ (l dcr ccr : Nat) (bytes : List Byte) (c : Cell) (s : State), l < 160 → s.linkState l = lcUp →
    s.on (R.FAB_LINK_STATUS_fec_lock l) = true → s.tdStill = false → decodeCell (s.linkGen l) bytes = some (c, dcr, ccr) →
    c.kind = ceUnicast → c.dest = s.self → (s.link l).good ≠ 255 →
    ahead (s.inStream (inData c.src)).next c.seq ≤ 65535 → c.seq ≠ (s.inStream (inData c.src)).next →
    (∀ r ∈ (s.inStream (inData c.src)).cells, r.seq ≠ c.seq ∧ r.seq ≠ (s.inStream (inData c.src)).next) →
    Runs (.cellReceive l bytes false) s fun t => (t.inStream (inData c.src)).next = (s.inStream (inData c.src)).next ∧
      ∃ r, (t.inStream (inData c.src)).cells = (s.inStream (inData c.src)).cells ++ [r] ∧ r.seq = c.seq ∧ r.cell = c ∧ r.fate = 0) ∧
  (∀ (src : Nat) (c : RxCell) (s : State), src < 512 → (s.inStream (inCtl src)).cells = [c] → c.fate = 0 → c.seq < 2 ^ 20 →
    (s.inStream (inCtl src)).next < 2 ^ 20 → ahead (s.inStream (inCtl src)).next c.seq = 1 →
    c.at_ + 1000 * s.rd R.FAB_REORDER_CFG_timeout_us ≤ s.time.elapsed →
    Runs (.reorderGapTimeout src true) s fun t => (t.inStream (inCtl src)).cells = [] ∧
      (t.inStream (inCtl src)).next = (c.seq + 1) % 2 ^ 20 ∧ t.rd R.FAB_GAPS_count = satAdd 32 (s.rd R.FAB_GAPS_count) 1) ∧
  (∀ (src : Nat) (bs : List Byte) (poison : Bool) (tc : Nat) (r : List (List Byte × Bool × Nat)) (s : State), src < 512 →
    s.tdDown = false → (s.inStream (inData src)).ready = (bs, poison, tc) :: r →
    Runs (.reassemblyDeliver src ⟨none, none⟩) s fun t => (t.inStream (inData src)).ready = r ∧ t.fab.inbox = s.fab.inbox)

/-- The credit commands have their effect (R292, R342, R369 to R372): a visit sends the copy of a VOQ with the balance for it and charges
its cost; an exchange set is sent to a reachable device and received; a generator with a unit grants it to the pair whose turn it is; an
idle VOQ returns the whole units of its balance. -/
def Obligations.CreditCommandsTakeEffect : Prop :=
  (∀ (q : Nat) (c : Copy) (s : State), q < voqs → s.tdHalted = false → (s.queue q).ondie = [c] → (s.queue q).hbm = [] →
    (s.queue q).res = [] → s.voqHeld q = false → (s.queue q).lc = lcUp → s.voqReachable q = true → voqDevice q ≠ s.self →
    fwdMcast (c.carried % 2 ^ 64) = false → s.headDrop q c = none → s.copyCost q c ≤ (s.queue q).balance → c.acct = none →
    s.selects q = true → s.releasing q = none → s.readFails c none = none →
    Runs (.voqVisit ⟨q, none, none⟩) s fun t => (t.queue q).copies = 0 ∧ (t.queue q).balance = (s.queue q).balance - s.copyCost q c ∧
      (t.queue q).served = true ∧ ∀ r, r ≠ q → t.queue r = s.queue r) ∧
  (∀ (d : Nat) (s : State), d < 512 → s.reachable d = true → s.tdDown = false → sread (fun _ => 0) s.fab.exchAt d ≤ s.time.elapsed →
    Runs (.exchangeSetSend d) s fun t => sread (fun _ => 0) t.fab.exchAt d = s.time.elapsed + 2000 ∧
      (∃ ms : List CtlMsg, ms ≠ [] ∧ t.fab.outbox = (s.recall d).fab.outbox ++ ms ∧
        ∀ m ∈ ms, m.dest = d ∧ m.kind = ceExchange ∧ leAt m.body 0 8 = (s.recall d).oldestToward d % 2 ^ 64) ∧
      (∀ e ∈ t.fab.grants, e.1 / 1024 ≠ d) ∧ t.regs = s.regs) ∧
  (∀ (src : Nat) (m : InMsg) (s : State), src < 512 → s.fab.inbox.find? (fun m => m.src == src && m.kind == 0x100) = some m →
    bitAt (byteAt m.body 11) 0 = true →
    Runs (.exchangeSetReceive src) s fun t => t.fab.inbox = s.fab.inbox.erase m ∧
      mget t.fab.waiting src = some ⟨leAt m.body 0 8, leAt m.body 8 3 % 2 ^ 20⟩ ∧ t.regs = s.regs) ∧
  (∀ (port tc src made : Nat) (s : State), port < 128 → s.tdStill = false →
    (if (sread (fun _ => (⟨0, 0, false⟩ : GenSt)) s.fab.gens port).stopped then s.overHalf port else s.overLimit port) = false →
    made = min (max (sread (fun _ => (⟨0, 0, false⟩ : GenSt)) s.fab.gens port).made 1638400000)
      ((sread (fun _ => (⟨0, 0, false⟩ : GenSt)) s.fab.gens port).made +
        (s.time.elapsed - (sread (fun _ => (⟨0, 0, false⟩ : GenSt)) s.fab.gens port).upTo) * s.portRate port *
          s.rd R.FAB_CREDIT_CFG_rate_pct) →
    1638400000 ≤ made →
    (([7, 6, 5, 4, 3, 2, 1, 0] : List Nat).findSome? fun tc =>
      (nextSource (sread (fun _ => 511) s.fab.served (port * 8 + tc)) (s.wanting port tc)).map fun d => (tc, d)) = some (tc, src) →
    Runs (.creditGenerate port) s fun t =>
      sread (fun _ => 0) t.fab.granted (grantKey port tc src) = sread (fun _ => 0) s.fab.granted (grantKey port tc src) + 2048 ∧
      sread (fun _ => 511) t.fab.served (port * 8 + tc) = src ∧
      (sread (fun _ => (⟨0, 0, false⟩ : GenSt)) t.fab.gens port).made = made - 1638400000) ∧
  (∀ (q : Nat) (s : State), q < voqs → (s.queue q).copies = 0 → 2048 ≤ (s.queue q).balance →
    (s.queue q).emptyAt + 8000 ≤ s.time.elapsed → s.tdStill = false → voqDevice q ≠ s.self →
    Runs (.voqCreditReturn q) s fun t => (t.queue q).balance = (s.queue q).balance % 2048 ∧
      sread (fun _ => 0) t.fab.returns q = sread (fun _ => 0) s.fab.returns q + (s.queue q).balance / 2048 ∧ t.regs = s.regs)

/-- The remote-access commands have their effect (R385 to R387, R445, R541): a request goes to a reachable device that takes them, with one
completion still to come; a response completes it, and none in time completes it PEER_UNAVAILABLE; a request of a device that is not
allowed is refused and logged, a read answers its registers; a late error of a remote write is logged here. -/
def Obligations.RemoteCommandsTakeEffect : Prop :=
  (∀ (c : Cmd) (device count offset result : Nat) (s : State), device < 512 → remoteRange count offset = true →
    CommandTaken s c 0x40 (rightOf 0x40) [(result, 4 * count)] → s.reachable device = true →
    bitAt (s.features device) ftRemote = true → (s.fab.remotes.filter fun r => !r.done).length < 64 →
    Runs (.remoteRd c device count offset result) s fun t => t.host = s.host ∧
      t.fab.remotes = s.fab.remotes ++
        [⟨s.fab.nextReq, c, device, 0, count, offset, result, s.time.elapsed, s.wseq (cmdFn c), false⟩] ∧
      ∃ b, t.fab.outbox = s.fab.outbox ++ [⟨device, 6, 2, b⟩]) ∧
  (∀ (c : Cmd) (device count offset param : Nat) (data : List Byte) (s : State), device < 512 → remoteRange count offset = true →
    CommandTaken s c 0x41 (rightOf 0x41) [(param, 4 * count)] → s.reachable device = true →
    bitAt (s.features device) ftRemote = true → (s.fab.remotes.filter fun r => !r.done).length < 64 →
    Runs (.remoteWr c device count offset param data) s fun t => t.host = s.host ∧
      t.fab.remotes = s.fab.remotes ++
        [⟨s.fab.nextReq, c, device, 1, count, offset, 0, s.time.elapsed, s.wseq (cmdFn c), false⟩] ∧
      ∃ b, t.fab.outbox = s.fab.outbox ++ [⟨device, 6, 2, b⟩]) ∧
  (∀ (c : Cmd) (device param result : Nat) (desc : List Byte) (s : State), device < 512 →
    CommandTaken s c 0x41 (rightOf 0x41) [(param, 64), (result, 16)] → s.reachable device = true →
    bitAt (s.features device) ftRemote = true → (s.fab.remotes.filter fun r => !r.done).length < 64 →
    Runs (.remoteWrCommand c device param result desc) s fun t => t.host = s.host ∧
      t.fab.remotes = s.fab.remotes ++
        [⟨s.fab.nextReq, c, device, 2, 0, 0, result, s.time.elapsed, s.wseq (cmdFn c), false⟩] ∧
      ∃ b, t.fab.outbox = s.fab.outbox ++ [⟨device, 6, 2, b⟩]) ∧
  (∀ (m : InMsg) (s : State), s.fab.inbox.find? (fun m => m.kind == 0x10) = some m → s.allowsRemote m.src = false →
    Runs .remoteReqReceive s fun t => t.fab.inbox = s.fab.inbox.erase m ∧
      (∃ b, t.fab.outbox = s.fab.outbox ++ [⟨m.src, 6, 2, b⟩] ∧ byteAt b 8 = stRefused) ∧
      t.rd R.FWS_SLOG_CTRL_next = (s.rd R.FWS_SLOG_CTRL_next + 1) % 256) ∧
  (∀ (m : InMsg) (s : State), s.fab.inbox.find? (fun m => m.kind == 0x10) = some m → s.allowsRemote m.src = true →
    byteAt m.body 4 = 0 →
    Runs .remoteReqReceive s fun t => t.fab.inbox = s.fab.inbox.erase m ∧
      ∃ bitmap data, data.length = 4 * min (byteAt m.body 5) 16 ∧ t.fab.outbox = s.fab.outbox ++ [⟨m.src, 6, 2,
        ctlMessage 0x11 (leAt m.body 0 4) (leBytes 4 (leAt m.body 0 4) ++ [BitVec.ofNat 8 stDone, 0] ++ leBytes 2 bitmap ++ data)⟩]) ∧
  (∀ (m : InMsg) (r : RemoteReq) (s : State), s.fab.inbox.find? (fun m => m.kind == 0x11) = some m →
    s.fab.remotes.find? (fun r => r.id == leAt m.body 0 4 && r.device == m.src && !r.done) = some r →
    byteAt m.body 4 = stDone → r.op = 0 →
    Runs .remoteRspReceive s fun t => t.fab.inbox = s.fab.inbox.erase m ∧ t.fab.remotes = s.fab.remotes.erase r ∧
      Answers r.cmd stDone s t ∧
      (∀ f n g, r.cmd.src = .ring f n g → t.out = s.out ++ [.dma f r.result (slice m.body 8 (4 * r.count))])) ∧
  (∀ (id : Nat) (r : RemoteReq) (s : State), s.fab.remotes.find? (fun r => r.id == id && !r.done) = some r →
    r.issued + 1000 * s.rd R.FAB_REMOTE_CFG_timeout_us ≤ s.time.elapsed →
    Runs (.remoteTimeout id) s fun t => t.fab.remotes = s.fab.remotes.erase r ∧ Answers r.cmd stPeerUnavailable s t) ∧
  (∀ (m : InMsg) (r : RemoteReq) (s : State), s.fab.inbox.find? (fun m => m.kind == 0x12) = some m →
    s.fab.remotes.find? (fun r => r.id == leAt m.body 0 4 && r.device == m.src && r.op == 1) = some r →
    Runs .lateErrReceive s fun t => t.fab.inbox = s.fab.inbox.erase m ∧
      t.rd R.HAC_LEL_CTRL_next = (s.rd R.HAC_LEL_CTRL_next + 1) % 64 ∧
      t.rdWord (R.HAC_LEL (s.rd R.HAC_LEL_CTRL_next) 0) = BitVec.ofNat 32 r.wseq)

/-- The interop-level commands have their effect (R377, R531): a level goes to every reachable device, one received makes its sender a
known peer, and a peer silent for its time is forgotten. -/
def Obligations.LevelCommandsTakeEffect : Prop :=
  (∀ s : State, s.svc.fwRunning = true → s.tdDown = false → s.fab.levelAt ≤ s.time.elapsed →
    Runs .levelSend s fun t => t.fab.levelAt = s.time.elapsed + 100000000 ∧ t.regs = s.regs ∧
      t.fab.outbox = s.fab.outbox ++ ((List.range 512).filter fun d => d != s.self && s.reachable d).map fun d =>
        (⟨d, 6, 2, ctlMessage 0x20 0 (leBytes 2 s.fw.interop ++ leBytes 2 s.fw.peerMin ++ leBytes 2 s.fw.peerMax ++ leBytes 2 0)⟩ : CtlMsg)) ∧
  (∀ (m : InMsg) (s : State), s.fab.inbox.find? (fun m => m.kind == 0x20) = some m →
    Runs .levelReceive s fun t => t.fab.inbox = s.fab.inbox.erase m ∧
      mget t.fab.peers m.src = some ⟨leAt m.body 0 2, leAt m.body 2 2, leAt m.body 4 2, s.time.elapsed⟩ ∧
      RegsBut [R.FWS_PEER_RANGE, R.FWS_PEER_ACC] s t) ∧
  (∀ (peer : Nat) (p : PeerSt) (s : State), mget s.fab.peers peer = some p →
    p.heard + s.rd R.FWS_PEER_CFG_forget_s * 1000000000 ≤ s.time.elapsed →
    Runs (.peerForget peer) s fun t => mget t.fab.peers peer = none ∧ RegsBut [R.FWS_PEER_RANGE, R.FWS_PEER_ACC] s t)

/-- The Dice commands have their effect (R48, R52, R392, R397): an arm whose checks pass schedules the unit's window, one whose checks fail
reports why; a cancel in time withdraws it, one without a window finds none, and one of a running window is late. -/
def Obligations.DiceCommandsTakeEffect : Prop :=
  (∀ (fn unit val : Nat) (s : State), isDice unit = true → WriteTaken s fn (R.DICE_CTRL unit) 15 true →
    s.rd (R.DICE_STATUS_state unit) = diIdle → bitsAt val 4 2 ≠ 3 → bitAt val 0 = true →
    s.rd64 (R.DICE_START_LO_turn_lo unit) (R.DICE_START_HI_turn_hi unit) ≤ s.diceLast unit →
    (s.schedCheck (.dice unit) (bitAt val 18) (s.rd64 (R.DICE_START_LO_turn_lo unit) (R.DICE_START_HI_turn_hi unit)) = stDone →
      Runs (.diceArm fn 15 unit val) s fun t => t.rd (R.DICE_STATUS_state unit) = diScheduled ∧
        t.rd (R.DICE_STATUS_last_status unit) = stAccepted ∧ ∃ x, t.sched = s.sched ++ [x] ∧ x.ev = .dice unit ∧
        x.turn = s.rd64 (R.DICE_START_LO_turn_lo unit) (R.DICE_START_HI_turn_hi unit) ∧ x.system = bitAt val 18) ∧
    (s.schedCheck (.dice unit) (bitAt val 18) (s.rd64 (R.DICE_START_LO_turn_lo unit) (R.DICE_START_HI_turn_hi unit)) ≠ stDone →
      Runs (.diceArm fn 15 unit val) s fun t => t.rd (R.DICE_STATUS_state unit) = diIdle ∧ t.sched = s.sched ∧
        t.rd (R.DICE_STATUS_last_status unit) =
          s.schedCheck (.dice unit) (bitAt val 18) (s.rd64 (R.DICE_START_LO_turn_lo unit) (R.DICE_START_HI_turn_hi unit)))) ∧
  (∀ (fn unit val : Nat) (x : SlotEv) (s : State), isDice unit = true → WriteTaken s fn (R.DICE_CTRL unit) 15 true →
    bitAt val 19 = true → bitsAt val 4 2 ≠ 3 ∨ s.rd (R.DICE_STATUS_state unit) = diScheduled →
    s.rd (R.DICE_STATUS_state unit) ≠ diRunning → s.diceEvent unit = some x → s.inTime x.turn = true →
    Runs (.diceCancel fn 15 ⟨unit, val⟩) s fun t => t.rd (R.DICE_STATUS_state unit) = diIdle ∧ t.sched = s.sched.erase x ∧
      t.rd (R.DICE_STATUS_last_status unit) = stDone) ∧
  (∀ (fn unit val : Nat) (s : State), isDice unit = true → WriteTaken s fn (R.DICE_CTRL unit) 15 true →
    bitAt val 19 = true → bitsAt val 4 2 ≠ 3 → s.rd (R.DICE_STATUS_state unit) ≠ diRunning →
    s.rd (R.DICE_STATUS_state unit) ≠ diScheduled → s.diceEvent unit = none →
    Runs (.diceCancel fn 15 ⟨unit, val⟩) s fun t => t.rd (R.DICE_STATUS_last_status unit) = stNotFound ∧ t.sched = s.sched ∧
      RegsBut [R.DICE_STATUS unit, R.DICE_CTRL unit, R.HAC_WSEQ fn] s t) ∧
  (∀ (fn unit val : Nat) (s : State), isDice unit = true → WriteTaken s fn (R.DICE_CTRL unit) 15 true →
    bitAt val 19 = true → s.rd (R.DICE_STATUS_state unit) = diRunning →
    Runs (.diceCancel fn 15 ⟨unit, val⟩) s fun t => t.rd (R.DICE_STATUS_last_status unit) = stLate ∧ t.sched = s.sched ∧
      t.rd (R.DICE_STATUS_state unit) = diRunning)

/-! ### The die bridge (chapter 1) -/

/-- The bridge's commands have their effect (R18, R19, R21, R24): a good unit ends the retries of its group; a bad one asks for a replay,
and after seven is counted as unrecovered; a replay request is counted; a lane failure takes its group out of service with a spare while
one is left; the end of the switch returns the group. -/
def Obligations.BridgeCommandsTakeEffect : Prop :=
  (∀ (g : Nat) (x : BrgLoad) (s : State), g < 24 → s.on (brgUp g) = true → s.brg.replay.contains g = false → s.tdDown = false →
    x.fits g = true → s.onBridge g x = true → (mget s.brg.under g).any (fun y => y != x) = false →
    s.rd (R.DICE_STATUS_state (diceGroup g)) ≠ diRunning → (s.dice (diceGroup g)).held = [] →
    Runs (.bridgeUnitReceive g true x) s fun t =>
      t.brgRetries g = 0 ∧ t.brg.replay.contains g = false ∧ t.fd = s.fd ∧ RegsBut [] s t) ∧
  (∀ (g : Nat) (x : BrgLoad) (s : State), g < 24 → s.on (brgUp g) = true → s.brg.replay.contains g = false → s.tdDown = false →
    x.fits g = true → s.onBridge g x = true → (mget s.brg.under g).any (fun y => y != x) = false →
    s.rd (R.DICE_STATUS_state (diceGroup g)) ≠ diRunning → (s.dice (diceGroup g)).held = [] → s.brgRetries g < 7 →
    Runs (.bridgeUnitReceive g false x) s fun t =>
      t.brg.replay.contains g = true ∧ t.brgRetries g = s.brgRetries g ∧ t.fd = s.fd ∧ RegsBut [] s t) ∧
  (∀ (g : Nat) (x : BrgLoad) (s : State), g < 24 → s.on (brgUp g) = true → s.brg.replay.contains g = false → s.tdDown = false →
    x.fits g = true → s.onBridge g x = true → (mget s.brg.under g).any (fun y => y != x) = false →
    s.rd (R.DICE_STATUS_state (diceGroup g)) ≠ diRunning → (s.dice (diceGroup g)).held = [] → 7 ≤ s.brgRetries g →
    Runs (.bridgeUnitReceive g false x) s fun t =>
      t.rd R.TGL_BRG_UNRECOV_count = satAdd 32 (s.rd R.TGL_BRG_UNRECOV_count) 1 ∧ t.brgRetries g = 0) ∧
  (∀ (g : Nat) (s : State), s.brg.replay.contains g = true →
    Runs (.bridgeReplayRequest g) s fun t =>
      t.brg.replay.contains g = false ∧ t.brgRetries g = s.brgRetries g + 1 ∧
      t.rd64 R.TGL_BRG_RETRY_LO_retries_lo R.TGL_BRG_RETRY_HI_retries_hi =
        (s.rd64 R.TGL_BRG_RETRY_LO_retries_lo R.TGL_BRG_RETRY_HI_retries_hi + 1) % 2 ^ 64) ∧
  (∀ (g : Nat) (s : State), g < 24 → s.tdDown = false → s.on (brgUp g) = true → s.rd (R.TGL_BRG_GRP_spares_used g) < 2 →
    Runs (.bridgeLaneFailure g) s fun t =>
      t.on (brgUp g) = false ∧ t.rd (R.TGL_BRG_GRP_spares_used g) = s.rd (R.TGL_BRG_GRP_spares_used g) + 1 ∧
      t.brg.switching = s.brg.switching ++ [g]) ∧
  (∀ (g : Nat) (s : State), g < 24 → s.tdDown = false → s.on (brgUp g) = true → 2 ≤ s.rd (R.TGL_BRG_GRP_spares_used g) →
    Runs (.bridgeLaneFailure g) s fun t =>
      t.on (brgUp g) = false ∧ t.rd (R.TGL_BRG_GRP_retired g) = 1 ∧ t.brg.switching = s.brg.switching) ∧
  (∀ (g : Nat) (s : State), g < 24 → s.brg.switching.contains g = true →
    Runs (.spareLaneSwitchDone g) s fun t =>
      t.on (brgUp g) = true ∧ t.brg.switching = s.brg.switching.erase g ∧
      RegsBut [R.TGL_BRG_STATUS, R.TGL_BRG_GRP g, R.HAC_CRIT_PEND, R.GLB_INT_STATUS] s t)

/-! ### Line ports and OTN (chapter 14) -/

/-- The line ports' lifecycle and link commands have their effect (R56, R400, R401, R503, R504): an enabled port starts, an UP port that is
disabled drains, and it is DOWN, or STARTING under pend_up, with its pauses ended when nothing waits for it; the link comes up and goes
down with its conditions. -/
def Obligations.PortCommandsTakeEffect : Prop :=
  (∀ (fn p : Nat) (s : State), p < 128 → WriteTaken s fn (R.LIF_PORT_LC p) 15 true → s.isPort p = true →
    s.rd (R.LIF_PORT_LC_state p) = lcDown →
    Runs (.portEnable fn 15 p) s fun t => t.rd (R.LIF_PORT_LC_state p) = lcStarting ∧
      (isOtn (s.mode p) = false → t.lif = s.lif ∧ RegsBut [R.LIF_PORT_LC p, R.HAC_WSEQ fn] s t)) ∧
  (∀ (fn p : Nat) (s : State), p < 128 → WriteTaken s fn (R.LIF_PORT_LC p) 15 true → s.rd (R.LIF_PORT_LC_state p) = lcUp →
    Runs (.portDisable fn 15 p) s fun t => t.rd (R.LIF_PORT_LC_state p) = lcDraining ∧ t.lif = s.lif ∧
      RegsBut [R.LIF_PORT_LC p, R.HAC_WSEQ fn] s t) ∧
  (∀ (p : Nat) (s : State), p < 128 → s.rd (R.LIF_PORT_LC_state p) = lcDraining → s.heldQueues p = [] →
    (s.fd.pkts.any fun x => x.egress && x.port == p) = false →
    Runs (.portDrainDone p) s fun t => t.rd (R.LIF_PORT_LC_state p) = lcDrained (s.on (lcPend (R.LIF_PORT_LC p))) ∧
      t.on (lcPend (R.LIF_PORT_LC p)) = false ∧ t.on (R.LIF_PORT_STATUS_link_up p) = false ∧
      (∀ k, k < 8 → mget t.lif.pauses (p * 8 + k) = none) ∧ t.fd = s.fd) ∧
  (∀ (p : Nat) (s : State), p < 128 → isEther (s.mode p) = true → s.rd (R.LIF_PORT_LC_state p) ≠ lcDown →
    Runs (.lineLinkUp p) s fun t => t.on (R.LIF_PORT_STATUS_link_up p) = true ∧ t.on (R.LIF_PORT_STATUS_pcs_lock p) = true ∧
      t.on (R.LIF_PORT_STATUS_hi_ser p) = false ∧ t.lif = s.lif ∧ RegsBut [R.LIF_PORT_STATUS p] s t) ∧
  (∀ (p : Nat) (lock fec hiSer : Bool) (s : State), p < 128 → s.rd (R.LIF_PORT_LC_state p) ≠ lcDown →
    Runs (.lineLinkDown p lock fec hiSer) s fun t => t.on (R.LIF_PORT_STATUS_link_up p) = false ∧
      t.on (R.LIF_PORT_STATUS_pcs_lock p) = lock ∧ t.on (R.LIF_PORT_STATUS_fec_lock p) = fec ∧
      t.on (R.LIF_PORT_STATUS_hi_ser p) = hiSer ∧ t.lif = s.lif ∧ RegsBut [R.LIF_PORT_STATUS p] s t)

/-- Received frames and priority flow control have their effect (R341, R403, R404, R406, R407, R420): a good frame of an Ethernet port or a
packet client enters the port's FIFO, a short one is counted; a PFC frame pauses the priorities it names for their quanta, a pause
ends at its time, and XOFF is repeated while the account stands. -/
def Obligations.ReceiveCommandsTakeEffect : Prop :=
  (∀ (port : Nat) (bytes : List Byte) (s : State), port < 128 → isEther (s.mode port) = true → s.refsDead = false →
    s.rd (R.LIF_PORT_LC_state port) = lcUp → s.on (R.LIF_PORT_STATUS_link_up port) = true → 60 ≤ bytes.length →
    bytes.length ≤ 508 → bytes.length + 4 ≤ s.rd (R.LIF_PORT_CFG_max_frame port) → beAt bytes 12 2 ≠ 0x8808 →
    s.fifoUsed port + bytes.length ≤ s.fifoSize port →
    Runs (.frameReceive port bytes bytes.length true 0 0) s fun t => t.fd.nextId = s.fd.nextId + 1 ∧
      (∃ p, t.fd.pkts = s.fd.pkts ++ [p] ∧ p.id = s.fd.nextId ∧ p.port = port ∧ p.bytes = bytes ∧ p.arrived = bytes.length ∧
        p.eop = 0 ∧ p.egress = false ∧ p.place = .fifo ∧ p.poison = false) ∧
      RegsBut [R.LIF_FEC_CORR port, R.LIF_FEC_UNCORR port, R.LIF_PFC_STATUS port, R.LIF_PFC_TX port] s t) ∧
  (∀ (port arrived : Nat) (bytes : List Byte) (fcsOk : Bool) (s : State), port < 128 → isEther (s.mode port) = true →
    s.refsDead = false → s.rd (R.LIF_PORT_LC_state port) = lcUp → s.on (R.LIF_PORT_STATUS_link_up port) = true →
    bytes.length < 60 →
    Runs (.frameReceive port bytes arrived fcsOk 0 0) s fun t =>
      t.rd (R.LIF_RX_RUNT_count port) = satAdd 32 (s.rd (R.LIF_RX_RUNT_count port)) 1 ∧ t.fd = s.fd ∧ t.lif = s.lif) ∧
  (∀ (c : Nat) (gfp : GfpHead) (bytes : List Byte) (s : State), c < 128 →
    s.clientBound c = true → s.refsDead = false → s.clientAis c = false → s.on (R.OTN_CLIENT_w0_map c) = true →
    s.on (R.OTN_CLIENT_w1_plm c) = false → s.rd (R.LIF_PORT_LC_state c) = lcUp → 60 ≤ bytes.length → bytes.length ≤ 508 →
    bytes.length + 4 ≤ s.rd (R.LIF_PORT_CFG_max_frame c) → beAt bytes 12 2 ≠ 0x8808 →
    s.fifoUsed c + bytes.length ≤ s.fifoSize c →
    Runs (.clientFrameDemap c gfp bytes bytes.length true) s fun t => t.regs = s.regs ∧ ∃ p, t.fd.pkts = s.fd.pkts ++ [p] ∧
      p.id = s.fd.nextId ∧ p.port = c ∧ p.bytes = bytes ∧ p.eop = 0 ∧ p.place = .fifo) ∧
  (∀ (port k : Nat) (bytes : List Byte) (s : State), port < 128 → k < 8 → isEther (s.mode port) = true →
    s.rd (R.LIF_PORT_LC_state port) = lcUp → beAt bytes 12 2 = 0x8808 → beAt bytes 0 6 = 0x0180C2000001 → beAt bytes 14 2 = 0x0101 →
    bitAt (byteAt bytes 17) k = true → bitAt (s.rd (R.LIF_PFC_CFG_rx_en port)) k = true → beAt bytes (18 + 2 * k) 2 ≠ 0 →
    Runs (.pfcFrameReceive port bytes) s fun t =>
      mget t.lif.pauses (port * 8 + k) = some (s.time.elapsed + ceilDiv (beAt bytes (18 + 2 * k) 2 * 512000) (s.portRate port)) ∧
      t.rd ⟨R.SCH_PFC port, k, 1⟩ = 1 ∧ t.rd ⟨R.LIF_PFC_STATUS port, k, 1⟩ = 1 ∧
      t.rd (R.LIF_PFC_RX_count port) = satAdd 32 (s.rd (R.LIF_PFC_RX_count port)) 1 ∧ t.fd = s.fd) ∧
  (∀ (port k τ : Nat) (s : State), port < 128 → k < 8 → mget s.lif.pauses (port * 8 + k) = some τ → τ ≤ s.time.elapsed →
    Runs (.pfcPauseExpire port k) s fun t => mget t.lif.pauses (port * 8 + k) = none ∧ t.rd ⟨R.SCH_PFC port, k, 1⟩ = 0 ∧
      t.rd ⟨R.LIF_PFC_STATUS port, k, 1⟩ = 0 ∧ RegsBut [R.SCH_PFC port, R.LIF_PFC_STATUS port] s t) ∧
  (∀ (port k τ : Nat) (s : State), port < 128 → k < 8 → mget s.lif.repeats (port * 8 + k) = some τ → τ ≤ s.time.elapsed →
    bitAt (s.rd (R.LIF_PFC_CFG_tx_en port)) k = true → s.rd (R.LIF_PORT_LC_state port) = lcUp →
    256 * s.rd (R.LIF_PFC_XOFF_level port) < sread (fun _ => 0) s.lif.accounts (port * 8 + k) →
    Runs (.pfcXoffRepeat port k) s fun t => t.out = s.out ++ [.pfc port k 0xFFFF] ∧
      mget t.lif.repeats (port * 8 + k) = some (s.time.elapsed + s.halfPause port) ∧
      t.rd (R.LIF_PFC_TX_count port) = satAdd 32 (s.rd (R.LIF_PFC_TX_count port)) 1)

/-- Transmission has its effect (R401, R405, R410): the oldest packet of a transmit queue is sent with its FCS and leaves the FD; a pop
of the timestamp FIFO shows its oldest entry and takes it out. -/
def Obligations.TransmitCommandsTakeEffect : Prop :=
  (∀ (id : Nat) (p : Packet) (s : State), s.pkt id = some p → p.egress = true → p.place = .txQueue → s.fdRuns = true →
    s.oldestOf p (fun q => q.place == .txQueue) = true → s.rd (R.DICE_STATUS_state (dicePort p.port)) ≠ diRunning →
    s.rd (R.LIF_PORT_LC_state p.port) = lcUp → s.on (R.LIF_PORT_STATUS_link_up p.port) = true → p.poison = false →
    (tsOp p.hv).op = 0 →
    Runs (.frameTransmit id false none) s fun t => t.pkt id = none ∧
      ∃ xs ys, t.out = s.out ++ xs ++ [.frame p.port (p.bytes ++ leBytes 4 (fcs32 p.bytes))] ++ ys) ∧
  (∀ (fn p tag ns frac : Nat) (rest : List (Nat × Nat × Nat)) (s : State), p < 128 → ReadTaken s fn (R.LIF_TS_POP p) →
    sread (fun _ => []) s.lif.tsFifo p = (tag, ns, frac) :: rest →
    Runs (.tsFifoPop fn 15 p) s fun t => sread (fun _ => []) t.lif.tsFifo p = rest ∧ t.rd (R.LIF_TS_POP_tag p) = tag % 2 ^ 16 ∧
      t.on (R.LIF_TS_POP_valid p) = true ∧ t.rd (R.LIF_TS_NS_ns p) = ns % 1000000000 ∧
      t.rd (R.LIF_TS_SEC_LO_sec_lo p) = ns / 1000000000 % 2 ^ 32 ∧ t.rd (R.LIF_TS_SEC_HI_frac p) = frac % 2 ^ 16 ∧
      t.rd (R.LIF_TS_STATUS_fill p) = rest.length % 2 ^ 7 ∧ t.out = s.out ++ [.read fn (t.rdWord (R.LIF_TS_POP p)).toNat] ∧
      RegsBut [R.LIF_TS_POP p, R.LIF_TS_NS p, R.LIF_TS_SEC_LO p, R.LIF_TS_SEC_HI p, R.LIF_TS_STATUS p] s t)

/-- OTN framing and justification have their effect (R414, R418): a good frame of an aligned slice keeps it aligned, the fifth frame
without its alignment word in a row loses it; 3 ms out of frame declare loss of frame; a good justification period's Cm is applied, the
mapper's first is what its store asks for. The interchange's inactive page is written; a swap that passes its checks is scheduled, one
scheduled is withdrawn in time, and the last port to change makes the other page active (R422 to R424). -/
def Obligations.OtnCommandsTakeEffect : Prop :=
  (∀ (i p : Nat) (f : OtnFrame) (s : State), i < 256 → s.portOfSlice i = some p → s.rd (R.LIF_PORT_LC_state p) ≠ lcDown →
    s.on (R.OTN_SLICE_STATUS_oof i) = false → s.on (R.OTN_SLICE_STATUS_oom i) = false → f.fasOk = true →
    f.mfas = (s.otnSlice i).mfas → f.flexoLost = false →
    Runs (.otnFrameReceive i f) s fun t => t.on (R.OTN_SLICE_STATUS_oof i) = false ∧ t.on (R.OTN_SLICE_STATUS_oom i) = false ∧
      t.on (R.OTN_SLICE_STATUS_flexo_lost i) = false ∧ (t.otnSlice i).mfas = (f.mfas + 1) % 256 ∧ (t.otnSlice i).badFas = 0 ∧
      t.fd = s.fd) ∧
  (∀ (i p : Nat) (f : OtnFrame) (s : State), i < 256 → s.portOfSlice i = some p → s.rd (R.LIF_PORT_LC_state p) ≠ lcDown →
    s.on (R.OTN_SLICE_STATUS_oof i) = false → f.fasOk = false → (s.otnSlice i).badFas = 4 →
    Runs (.otnFrameReceive i f) s fun t => t.on (R.OTN_SLICE_STATUS_oof i) = true ∧ (t.otnSlice i).badFas = 5 ∧
      (t.otnSlice i).goodFas = 0) ∧
  (∀ (i p : Nat) (s : State), i < 256 → s.portOfSlice i = some p → (s.otnSlice i).oofAt + 3000000 ≤ s.time.elapsed →
    Runs (.otnDefectTimer i) s fun t => t.on (R.OTN_SLICE_STATUS_lof i) = s.on (R.OTN_SLICE_STATUS_oof i) ∧
      RegsBut (R.OTN_SLICE_STATUS i :: (List.range 128).map R.LIF_PORT_STATUS) s t ∧ t.lif.slices = s.lif.slices ∧ t.fd = s.fd) ∧
  (∀ (g p cm : Nat) (s : State), g < 5120 → s.portOfSlot g = some p → s.rd (R.LIF_PORT_LC_state p) ≠ lcDown →
    s.on (R.OTN_RX_SLOT_valid g) = true →
    Runs (.gmpJcPeriod g false true cm) s fun t => (t.gmp g).cm = some cm ∧ (t.gmp g).bad = 0 ∧
      (∀ k, k ≠ g → t.gmp k = s.gmp k) ∧ RegsBut ((List.range 128).map R.LIF_PORT_STATUS) s t) ∧
  (∀ (g p cm : Nat) (good : Bool) (s : State), g < 5120 → s.portOfSlot g = some p → s.rd (R.LIF_PORT_LC_state p) ≠ lcDown →
    (s.gmp (8192 + g)).cm = none →
    Runs (.gmpJcPeriod g true good cm) s fun t => (t.gmp (8192 + g)).cm = some cm ∧
      (∀ k, k ≠ 8192 + g → t.gmp k = s.gmp k) ∧ t.regs = s.regs) ∧
  (∀ (fn page g val : Nat) (s : State), page < 2 → g < 5120 →
    WriteTaken s fn (if page = 0 then R.OTN_CM_A g else R.OTN_CM_B g) 15 false → page ≠ s.cmPage →
    s.rd R.OTN_TSI_STATUS_state = tsiIdle →
    Runs (.cmPageWrite fn 15 page g val) s fun t => t.cmWord page g % 2 ^ 29 = val % 2 ^ 29 ∧
      RegsBut [if page = 0 then R.OTN_CM_A g else R.OTN_CM_B g, R.HAC_WSEQ fn] s t) ∧
  (∀ (fn val : Nat) (s : State), WriteTaken s fn R.OTN_TSI_CTRL 15 true → bitAt val 0 = true →
    s.rd R.OTN_TSI_STATUS_state = tsiIdle → s.schedCheck .tsiSwap (bitAt val 2) s.tsiTurn = stDone →
    s.pageOk (1 - s.cmPage) = true →
    Runs (.tsiSwapArm fn 15 val) s fun t => t.rd R.OTN_TSI_STATUS_state = tsiScheduled ∧
      t.rd R.OTN_TSI_STATUS_last_status = stAccepted ∧
      t.sched = s.sched ++ [⟨.tsiSwap, s.tsiTurn, bitAt val 2, fn, none, s.freeFdSlot, none⟩]) ∧
  (∀ (fn val : Nat) (x : SlotEv) (s : State), WriteTaken s fn R.OTN_TSI_CTRL 15 true →
    s.schedFind (fun e => e == .tsiSwap) = some x → s.time.turn + 3 ≤ x.turn →
    Runs (.tsiSwapCancel fn 15 val) s fun t => t.rd R.OTN_TSI_STATUS_state = tsiIdle ∧
      t.rd R.OTN_TSI_STATUS_last_status = stDone ∧ t.sched = s.sched.erase x) ∧
  (∀ (p : Nat) (s : State), s.lif.swapping = [p] → s.rd R.OTN_TSI_STATUS_state = tsiSwapping →
    Runs (.tsiPortPageChange p) s fun t => t.lif.swapping = [] ∧ t.cmPage = 1 - s.cmPage ∧
      t.rd R.OTN_TSI_STATUS_state = tsiIdle ∧ t.rd R.OTN_TSI_STATUS_ports_pending = 0 ∧ RegsBut [R.OTN_TSI_STATUS] s t)

/-! ### Recipes (chapter 3) and the replay injector (chapter 6) -/

/-- The load of a Recipe has its effect (R72, R73, R75 to R78, R89): an accepted load makes its slot LOADING, from the store or from the
host's memory; an image that passes its checks is installed, one that fails authentication waits for its fixed time and completes
INVALID; when the programs are resident the slot is READY and the load completes DONE; a store write ends with a valid entry; the
firmware loads the boot entry at stage 4. -/
def Obligations.RecipeLoadCommandsTakeEffect : Prop :=
  (∀ (c : Cmd) (slot source entry addr length : Nat) (s : State), slot < 2 → source < 2 → entry < 3 →
    CommandTaken s c 0x30 (rightOf 0x30) (if source = 0 then [(addr, length)] else []) → s.fwChanging = false →
    s.slotState slot = slEmpty → s.schedFind (fun e => e == .recipe slot) = none → (source = 0 → addr % 64 = 0) →
    (source = 1 → s.on (R.FWS_RCP_STORE_w0_valid entry) = true) →
    Runs (.recipeLoad c slot source 0 entry addr length) s fun t => t.slotState slot = slLoading ∧
      t.loadOf slot = some ⟨slot, none, some c, 0, 0, if source = 1 then mget s.recipe.store entry else none,
        if source = 1 then 0 else addr, length⟩) ∧
  (∀ (slot : Nat) (j : LoadJob) (m : Image) (v s : State), s.loadOf slot = some j → j.stage = 0 →
    s.authFailure (j.fetch m) = none → s.compatible (j.fetch m) = true → s.contentFits (j.fetch m).recipe = true →
    s.loadStorage slot (j.fetch m).recipe = some v →
    Runs (.recipeFetchDone slot m) s fun t => t.slotImage slot = some (j.fetch m) ∧
      t.loadOf slot = some { j with stage := 2, image := some (j.fetch m) } ∧ t.tab = v.tab ∧ t.txf = v.txf) ∧
  (∀ (slot why : Nat) (j : LoadJob) (m : Image) (s : State), s.loadOf slot = some j → j.stage = 0 →
    s.authFailure (j.fetch m) = some why →
    Runs (.recipeFetchDone slot m) s fun t => t.loadOf slot = some { j with stage := 1, due := s.time.elapsed + 250000000 } ∧
      t.tab = s.tab ∧ t.txf = s.txf ∧ t.host = s.host) ∧
  (∀ (slot : Nat) (j : LoadJob) (c : Cmd) (s : State), slot < 2 → s.loadOf slot = some j → j.stage = 1 →
    j.due ≤ s.time.elapsed → j.cmd = some c →
    Runs (.recipeAuthFailComplete slot) s fun t => t.slotState slot = slEmpty ∧ t.loadOf slot = none ∧ t.slotImage slot = none ∧
      Answers c stInvalid s t) ∧
  (∀ (slot : Nat) (j : LoadJob) (r : Recipe) (c : Cmd) (s : State), slot < 2 → s.loadOf slot = some j →
    s.slotRecipe slot = some r → j.stage = 2 → j.store = none → j.cmd = some c →
    Runs (.recipeSlotReady slot) s fun t => t.slotState slot = slReady ∧ t.loadOf slot = none ∧ Answers c stDone s t) ∧
  (∀ (entry : Nat) (m : Image) (s : State), entry < 3 → mget s.recipe.writing entry = some m →
    Runs (.recipeStoreWriteDone entry) s fun t => mget t.recipe.store entry = some m ∧ mget t.recipe.writing entry = none ∧
      t.on (R.FWS_RCP_STORE_w0_valid entry) = true ∧ t.on (R.FWS_RCP_STORE_w0_writing entry) = false ∧
      t.rd (R.FWS_RCP_STORE_w1_length entry) = m.len % 2 ^ 32 ∧
      t.rd64 (R.FWS_RCP_STORE_LO_serial_lo entry) (R.FWS_RCP_STORE_HI_serial_hi entry) = m.serial % 2 ^ 64 ∧
      RegsBut [R.FWS_RCP_STORE_w0 entry, R.FWS_RCP_STORE_w1 entry, R.FWS_RCP_STORE_LO entry, R.FWS_RCP_STORE_HI entry] s t) ∧
  (∀ (m : Image) (s : State), s.rd R.GLB_SERVICE_stage = 4 → s.slotState 0 = slEmpty → s.on R.FWS_RCP_BOOT_autostart = true →
    s.on R.GLB_SERVICE_autostart_failed = false → mget s.recipe.store (s.rd R.FWS_RCP_BOOT_entry) = some m →
    Runs .recipeAutostart s fun t => t.slotState 0 = slLoading ∧ t.loadOf 0 = some ⟨0, none, none, 0, 0, some m, 0, 0⟩)

/-- Activating a Recipe and its restart registers have their effect (R48, R52, R81, R82, R90, R92): an activation that passes its checks
takes a slot of the FD's scheduler and completes ACCEPTED; its cancel in time withdraws it; the minimum serial only rises; the boot
entry and autostart are kept. -/
def Obligations.RecipeActivateCommandsTakeEffect : Prop :=
  (∀ (c : Cmd) (slot turn : Nat) (s : State), slot < 2 → CommandTaken s c 0x31 (rightOf 0x31) [] → s.slotState slot = slReady →
    s.slotState (1 - slot) ≠ slRetiring → s.canReserve slot = true → s.schedCheck (.recipe slot) c.system turn = stDone →
    Runs (.recipeActivate c slot turn) s fun t =>
      t.recipe.reserved = s.recipe.reserved.filter (· != slot) ++ [slot] ∧ t.on R.FWS_RCP_STATUS_act_pending = true ∧
      t.sched = s.sched ++ [⟨.recipe slot, turn, c.system, cmdFn c, some c, s.freeFdSlot, none⟩] ∧ Answers c stAccepted s t) ∧
  (∀ (c : Cmd) (slot : Nat) (x : SlotEv) (s : State), CommandTaken s c 0x31 (rightOf 0x31) [] →
    s.schedFind (fun e => e == .recipe slot) = some x → s.time.turn + 3 ≤ x.turn →
    Runs (.recipeActivateCancel c slot) s fun t => t.sched = s.sched.erase x ∧ t.recipe.reserved = s.recipe.reserved.filter (· != slot) ∧
      t.on R.FWS_RCP_STATUS_act_pending = (t.sched.any fun y => match y.ev with | .recipe _ => true | _ => false) ∧
      ∀ f r n, c.src = .ring f r n → s.host.orphans.contains (f, r, n) = false →
        ∃ xs, t.host.cplQueue = s.host.cplQueue ++ xs ++ [⟨f, r, n, stDone, 0, none, true⟩]) ∧
  (∀ (fn val lo : Nat) (s : State), WriteTaken s fn R.FWS_RCP_MIN_SERIAL_HI 15 false →
    Runs (.minSerialWrite fn 15 val (some lo)) s fun t => t.minSerial = max s.minSerial (lo % 2 ^ 32 + 2 ^ 32 * (val % 2 ^ 32))) ∧
  (∀ (fn val : Nat) (s : State), WriteTaken s fn R.FWS_RCP_BOOT 15 false → val % 4 < 3 →
    s.on (R.FWS_RCP_STORE_w0_valid (val % 4)) = true → s.on (R.FWS_RCP_STORE_w0_writing (val % 4)) = false →
    Runs (.recipeBootWrite fn 15 val) s fun t => t.rd R.FWS_RCP_BOOT_entry = val % 4 ∧
      t.on R.FWS_RCP_BOOT_autostart = bitAt val 2 ∧ RegsBut [R.FWS_RCP_BOOT, R.HAC_WSEQ fn] s t)

/-- The replay injector's commands have their effect (R233, R234, R349): an enabled injector starts; the tail moves; a record of a listed
port that is DOWN, in order, waits for its offset stamp; at that instant its packet enters the port's FIFO with that stamp. -/
def Obligations.ReplayCommandsTakeEffect : Prop :=
  (∀ (fn val : Nat) (s : State), WriteTaken s fn R.TXF_RPL_CTRL 15 true → s.on R.TXF_RPL_CTRL_en = true → bitAt val 0 = true →
    bitAt val 1 = true → 6 ≤ val / 4 % 32 → val / 4 % 32 ≤ 24 →
    Runs (.replayStart fn 15 val) s fun t => t.on R.TXF_RPL_CTRL_en = true ∧ t.on R.TXF_RPL_CTRL_start = true ∧
      t.rd R.TXF_RPL_CTRL_size_log2 = val / 4 % 32 ∧ t.fd.replayLast = [] ∧ t.fd.replay = s.fd.replay ∧
      t.rd R.TXF_RPL_HEAD_head = s.rd R.TXF_RPL_TAIL_tail ∧
      RegsBut [R.TXF_RPL_CTRL, R.TXF_RPL_HEAD, R.TXF_RPL_STATUS, R.HAC_WSEQ fn] s t) ∧
  (∀ (fn val : Nat) (s : State), WriteTaken s fn R.TXF_RPL_TAIL 15 false →
    Runs (.replayTailWrite fn 15 val) s fun t => t.rd R.TXF_RPL_TAIL_tail = val % 2 ^ 24 ∧ t.fd = s.fd ∧
      RegsBut [R.TXF_RPL_TAIL, R.TXF_RPL_STATUS, R.HAC_WSEQ fn] s t) ∧
  (∀ (data : List Byte) (s : State), s.on R.TXF_RPL_CTRL_en = true → s.on R.TXF_RPL_CTRL_start = true →
    s.rd R.TXF_RPL_HEAD_head ≠ s.rd R.TXF_RPL_TAIL_tail → byteAt data 10 < 128 →
    bitAt (s.rd (R.TXF_RPL_PORTS_ports (byteAt data 10 / 32))) (byteAt data 10 % 32) = true →
    s.rd (R.LIF_PORT_LC_state (byteAt data 10)) = lcDown → mget s.fd.replayLast (byteAt data 10) = none →
    Runs (.replayRecordFetch data) s fun t =>
      t.fd.replay = s.fd.replay ++ [(replayStamp data +
        s.rd64 R.TXF_RPL_OFFSET_LO_turns_lo R.TXF_RPL_OFFSET_HI_turns_hi * 2 ^ s.rd R.TBS_TURN_LEN_LOG2_t, data)] ∧
      mget t.fd.replayLast (byteAt data 10) = some (replayStamp data) ∧
      t.rd R.TXF_RPL_HEAD_head =
        (s.rd R.TXF_RPL_HEAD_head + 1 + ceilDiv (leAt data 12 2) 64) % 2 ^ s.rd R.TXF_RPL_CTRL_size_log2 % 2 ^ 24 ∧
      RegsBut [R.TXF_RPL_HEAD, R.TXF_RPL_STATUS] s t) ∧
  (∀ (r : Nat × List Byte) (s : State), s.fd.replay.find? (fun r => r.1 ≤ s.time.sysNs) = some r → byteAt r.2 10 < 128 →
    s.fifoUsed (byteAt r.2 10) + min 512 (slice r.2 64 (leAt r.2 12 2)).length ≤ s.fifoSize (byteAt r.2 10) →
    Runs .replayRecordRelease s fun t => t.fd.replay = s.fd.replay.erase r ∧ ∃ p, t.fd.pkts = s.fd.pkts ++ [p] ∧
      p.id = s.fd.nextId ∧ p.port = byteAt r.2 10 ∧ p.bytes = slice r.2 64 (leAt r.2 12 2) ∧ p.stamp = r.1 ∧ p.place = .fifo)

/-! ### Host accesses and rings (chapter 15) -/

/-- Register accesses have their effect (R431 to R437, R460): a plain write of a single register takes the value through the access codes of
its fields, an aligned 64-bit write applies a pair at once, a write of an MSI-X control word masks its vector; a read returns the
register and with all byte enables clears its RC fields; a full read of a pair's low word latches the high one for the function, and a
full read of the high word returns the latched word and releases it; a full read of a timestamp FIFO's pop register takes its oldest entry. -/
def Obligations.RegisterAccessCommandsTakeEffect : Prop :=
  (∀ (fn addr be val : Nat) (r : RegDesc) (s : State), WriteTaken s fn addr be (triggerAt (s.banked fn addr)) →
    regAt (s.banked fn addr) = some r → r.pair = .single → ownWrite (s.banked fn addr) = false →
    s.banked fn addr ≠ R.HAC_WSEQ fn → (s.hostRings.find? fun h => h.en.addr == s.banked fn addr) = none →
    s.valueRefused (s.banked fn addr) (mergeWrite r.fields (s.rdWord (s.banked fn addr)) (BitVec.ofNat 32 val) be) = none →
    Runs (.registerWrite fn 0 addr be val none) s fun t =>
      t.rdWord (s.banked fn addr) = mergeWrite r.fields (s.rdWord (s.banked fn addr)) (BitVec.ofNat 32 val) be ∧
      RegsBut [s.banked fn addr, R.HAC_WSEQ fn, R.GLB_SERVICE] s t ∧
      (s.banked fn addr ≠ R.GLB_SVC_CFG → RegsBut [s.banked fn addr, R.HAC_WSEQ fn] s t)) ∧
  (∀ (fn addr lo hi : Nat) (s : State), WriteTaken s fn addr 15 false →
    (regAt (s.banked fn addr)).map (fun r => r.pair) = some .low → ownWrite (s.banked fn addr + 4) = false →
    s.banked fn addr + 4 ≠ R.HAC_WSEQ fn → s.banked fn addr ≠ R.HAC_WSEQ fn →
    (s.hostRings.find? fun h => h.low == s.banked fn addr) = none → s.valueRefused (s.banked fn addr) 0 ≠ some leWrongState →
    (s.applyPair fn (s.banked fn addr) (some lo) hi 15).pairAt (s.banked fn addr) % baseAlign (s.banked fn addr) = 0 →
    Runs (.registerWrite fn 0 addr 255 lo (some hi)) s fun t =>
      t.rdWord (s.banked fn addr) = writable (s.banked fn addr) (s.rdWord (s.banked fn addr)) (BitVec.ofNat 32 lo) 15 ∧
      t.rdWord (s.banked fn addr + 4) =
        writable (s.banked fn addr + 4) (s.rdWord (s.banked fn addr + 4)) (BitVec.ofNat 32 hi) 15 ∧
      RegsBut [s.banked fn addr, s.banked fn addr + 4, R.HAC_WSEQ fn] s t) ∧
  (∀ (fn v be val : Nat) (s : State), s.answers fn = true → v < 64 → bitAt be 0 = true →
    Runs (.registerWrite fn 2 (0x1000C + 16 * v) be val none) s fun t =>
      sread (fun _ => false) t.host.vecOpen (64 * fn + v) = !bitAt val 0 ∧ RegsBut [R.HAC_WSEQ fn] s t) ∧
  (∀ (fn addr be : Nat) (s : State), ReadTaken s fn addr → be ≠ 15 ∨ (∀ p, p < 128 → s.banked fn addr ≠ R.LIF_TS_POP p) →
    Runs (.registerReadClear fn 0 addr be) s fun t =>
      t.out = s.out ++ [.read fn (enabled (s.liveRead fn (s.banked fn addr)) be)] ∧ (be ≠ 15 → t.regs = s.regs) ∧
      RegsBut [s.banked fn addr] s t ∧ t.host = s.host) ∧
  (∀ (fn p : Nat) (s : State), p < 128 → ReadTaken s fn (R.LIF_TS_POP p) →
    Runs (.registerReadClear fn 0 (R.LIF_TS_POP p) 15) s fun t =>
      t.out = s.out ++ [.read fn (t.rdWord (R.LIF_TS_POP p)).toNat] ∧
      sread (fun _ => []) t.lif.tsFifo p = (sread (fun _ => []) s.lif.tsFifo p).tail ∧ t.host = s.host ∧
      RegsBut [R.LIF_TS_POP p, R.LIF_TS_NS p, R.LIF_TS_SEC_LO p, R.LIF_TS_SEC_HI p, R.LIF_TS_STATUS p] s t) ∧
  (∀ (fn addr : Nat) (s : State), ReadTaken s fn addr → (regAt (s.banked fn addr)).map (fun r => r.pair) = some .low →
    Runs (.pairLowRead fn addr 15 false) s fun t => t.out = s.out ++ [.read fn (s.liveRead fn (s.banked fn addr)).toNat] ∧
      mget t.host.latches (pairKey fn addr) = some (s.liveRead fn (s.banked fn addr + 4)) ∧
      RegsBut [s.banked fn addr, s.banked fn addr + 4] s t) ∧
  (∀ (fn addr : Nat) (w : Word) (s : State), ReadTaken s fn addr → mget s.host.latches (pairKey fn (addr - 4)) = some w →
    Runs (.pairHighRead fn addr 15) s fun t => t.out = s.out ++ [.read fn w.toNat] ∧
      mget t.host.latches (pairKey fn (addr - 4)) = none ∧ t.regs = s.regs)

/-- Fences, rules, the pending CRIT events and the reset of a function have their effect (R438, R442, R444, R446, R461, R498, R568): a
fence holds the number of the last write and returns it; a rule write advances the epoch; a written 1 clears a pending bit; a tail
moves; an access that is not answered is logged TIMEOUT; a function-level reset resets what belongs to its function. -/
def Obligations.HostControlCommandsTakeEffect : Prop :=
  (∀ (fn addr : Nat) (s : State), 16 ≤ blockBit addr → ReadTaken s fn addr →
    Runs (.hostAccessTimeout fn addr true) s fun t => t.rd R.HAC_LEL_CTRL_next = (s.rd R.HAC_LEL_CTRL_next + 1) % 64 ∧
      t.rd ⟨R.HAC_LEL (s.rd R.HAC_LEL_CTRL_next) 2, 0, 8⟩ = leTimeout ∧ ∃ xs, t.out = s.out ++ xs ++ [.abort fn]) ∧
  (∀ (fn addr : Nat) (s : State), 16 ≤ blockBit addr → WriteTaken s fn addr 15 false →
    Runs (.hostAccessTimeout fn addr false) s fun t => t.rd R.HAC_LEL_CTRL_next = (s.rd R.HAC_LEL_CTRL_next + 1) % 64 ∧
      t.rd ⟨R.HAC_LEL (s.rd R.HAC_LEL_CTRL_next) 2, 0, 8⟩ = leTimeout) ∧
  (∀ (fn : Nat) (s : State), ReadTaken s fn (R.HAC_FENCE 0) →
    exec (.fenceRead fn 15) s = .next { s with host := { s.host with fences := s.host.fences ++ [(fn, s.wseq fn)] } }) ∧
  (∀ (fn : Nat) (e : Nat × Nat) (s : State), s.host.fences.find? (fun e => e.1 == fn) = some e →
    Runs (.fenceComplete fn) s fun t => t.host.fences = s.host.fences.erase e ∧ t.out = s.out ++ [.read fn e.2] ∧
      t.rd (R.HAC_FENCE_seq fn) = e.2 % 2 ^ 32 ∧ RegsBut [R.HAC_FENCE fn] s t) ∧
  (∀ (fn addr be val : Nat) (r : RegDesc) (s : State), ruleReg addr = true → regAt addr = some r → WriteTaken s fn addr be false →
    Runs (.ruleWrite fn addr be val) s fun t =>
      t.rdWord addr = mergeWrite r.fields (s.rdWord addr) (BitVec.ofNat 32 val) be ∧
      t.rd R.HAC_RULE_EPOCH_epoch = (s.rd R.HAC_RULE_EPOCH_epoch + 1) % 2 ^ 32) ∧
  (∀ (fn val : Nat) (s : State), WriteTaken s fn R.HAC_CRIT_PEND 15 false →
    Runs (.critPendClear fn 15 val) s fun t =>
      (∀ k, k < 32 → t.rd ⟨R.HAC_CRIT_PEND, k, 1⟩ = if bitAt val k then 0 else s.rd ⟨R.HAC_CRIT_PEND, k, 1⟩) ∧
      RegsBut [R.HAC_CRIT_PEND, R.HAC_WSEQ fn] s t) ∧
  (∀ (fn val : Nat) (f : Fld) (s : State), f ∈ [R.EXM_LFIFO_TAIL_tail, R.MIF_PR_TAIL_tail, R.PMF_SMP_TAIL_tail] →
    WriteTaken s fn f.addr 15 false →
    Runs (.hostRingTailWrite fn f.addr 15 val) s fun t => t.rd f = val % 2 ^ f.width ∧ RegsBut [f.addr, R.HAC_WSEQ fn] s t) ∧
  (∀ (fn val : Nat) (s : State), fn < 2 → WriteTaken s fn (R.HAC_EVQ_TAIL 0) 15 false →
    Runs (.hostRingTailWrite fn (R.HAC_EVQ_TAIL 0) 15 val) s fun t => t.rd (R.HAC_EVQ_TAIL_tail fn) = val % 2 ^ 16 ∧
      RegsBut [R.HAC_EVQ_TAIL fn, R.HAC_WSEQ fn] s t) ∧
  (∀ (fn : Nat) (s : State), fn < 2 → s.answers fn = true →
    Runs (.functionLevelReset fn) s fun t => (∀ a, ownedReg fn a = true → t.rdWord a = regReset a) ∧
      t.rd R.HAC_RULE_EPOCH_epoch = (s.rd R.HAC_RULE_EPOCH_epoch + 1) % 2 ^ 32 ∧
      t.host.cplQueue = s.host.cplQueue.filter (fun c => c.fn != fn) ∧
      (∀ a, ownedReg fn a = false → a ∉ [R.HAC_RULE_EPOCH, R.GLB_LOST_CPL, R.EXM_LFIFO_CFG, R.MIF_PR_CFG, R.PMF_SMP_CFG,
        R.TXF_RPL_CTRL] → t.rdWord a = s.rdWord a))

/-- The rings have their effect (R449, R450, R454, R455, R457, R462, R568): doorbells move a ring's indices; a fetched descriptor that
passes its checks is in flight; the oldest completion is written and its entry used; a refusal is answered at its time; an event record
goes into its ring. -/
def Obligations.RingCommandsTakeEffect : Prop :=
  (∀ (fn ring val : Nat) (s : State), s.answers fn = true → ring < 2 → val < 4096 →
    ((s.ring fn ring).tail + 4096 - s.rd (R.HAC_RING_head fn ring)) % 4096 + (val + 4096 - (s.ring fn ring).tail) % 4096 < 4096 →
    Runs (.commandTailDoorbell fn ring 15 val) s fun t => (t.ring fn ring).tail = val ∧
      (t.ring fn ring).cplHead = (s.ring fn ring).cplHead ∧ RegsBut [R.HAC_WSEQ fn] s t) ∧
  (∀ (fn ring val : Nat) (s : State), s.answers fn = true → ring < 2 → val < 4096 →
    (val + 4096 - (s.ring fn ring).cplHead) % 4096 ≤ (s.ring fn ring).cplUsed →
    Runs (.completionHeadDoorbell fn ring 15 val) s fun t => (t.ring fn ring).cplHead = val ∧
      (t.ring fn ring).cplUsed = (s.ring fn ring).cplUsed - (val + 4096 - (s.ring fn ring).cplHead) % 4096 ∧
      RegsBut [R.HAC_WSEQ fn] s t) ∧
  (∀ (fn ring : Nat) (desc : List Byte) (otherWaits : Bool) (fields : List (Nat × Nat)) (s : State), fn < 2 → ring < 2 →
    desc.length = 64 → s.ringReady fn ring = true → s.ringReady fn (1 - ring) = false →
    (bitAt (byteAt desc 1) 1 && s.ringBusy fn ring) = false → s.descFields desc = some fields →
    s.hasRights ⟨.ring fn ring (leAt desc 2 2), bitAt (byteAt desc 1) 0⟩ (rightOf (byteAt desc 0) ++ s.descGrants desc) = true →
    s.hasWindows ⟨.ring fn ring (leAt desc 2 2), bitAt (byteAt desc 1) 0⟩ (s.descExtents desc) = true →
    descClean desc fields = true → stageOpOk desc = true → s.tooEarly (byteAt desc 0) = false → s.svc.handover = false →
    Runs (.commandFetch fn ring desc otherWaits) s fun t =>
      t.rd (R.HAC_RING_head fn ring) = (s.rd (R.HAC_RING_head fn ring) + 1) % 4096 ∧
      (∃ sub, t.host.inFlight = s.host.inFlight ++
        [InFlight.mk fn ring (leAt desc 2 2) (s.rd R.HAC_RULE_EPOCH_epoch) sub desc]) ∧
      t.host.cplQueue = s.host.cplQueue ∧ RegsBut [R.HAC_RING fn ring] s t) ∧
  (∀ (fn ring : Nat) (c : Cpl) (s : State), s.host.cplQueue.find? (fun c => c.fn == fn && c.ring == ring) = some c →
    s.ringHeld fn ring = false →
    Runs (.completionPost fn ring) s fun t => t.host.cplQueue = s.host.cplQueue.erase c ∧
      t.rd (R.HAC_RING_cpl_tail fn ring) = (s.rd (R.HAC_RING_cpl_tail fn ring) + 1) % 4096 ∧
      (t.ring fn ring).cplUsed = (s.ring fn ring).cplUsed + 1 ∧
      (∃ xs, t.out = s.out ++ [.dma fn (s.pairAt (R.HAC_CPL_BASE_LO fn ring) + 16 * s.rd (R.HAC_RING_cpl_tail fn ring))
        (c.bytes (s.ring fn ring).phase s.time.turn)] ++ xs) ∧ RegsBut [R.HAC_RING fn ring] s t) ∧
  (∀ (r : Refusing) (s : State), s.host.refusing.find? (fun r => r.due ≤ s.time.elapsed) = some r →
    Runs .refusalComplete s fun t => t.host.refusing = s.host.refusing.erase r ∧
      (r.cmd = none → t.out = s.out ++ [.read r.fn 0] ∧ t.regs = s.regs) ∧
      (∀ ring tag, r.cmd = some (ring, tag) → Answers ⟨.ring r.fn ring tag, false⟩ stRefused s t)) ∧
  (∀ (fn : Nat) (r : EvRec) (s : State), s.host.evPend.find? (fun e => e.1 == fn) = some (fn, r) →
    s.on (R.HAC_EVQ_CFG_en fn) = true →
    ringFull (s.rd (R.HAC_EVQ_CFG_size_log2 fn)) (s.rd (R.HAC_EVQ_HEAD_head fn)) (s.rd (R.HAC_EVQ_TAIL_tail fn)) = false →
    Runs (.eventRecordDeliver fn) s fun t => t.host.evPend = s.host.evPend.erase (fn, r) ∧
      t.rd (R.HAC_EVQ_HEAD_head fn) = (s.rd (R.HAC_EVQ_HEAD_head fn) + 1) % 2 ^ s.rd (R.HAC_EVQ_CFG_size_log2 fn) % 2 ^ 16 ∧
      (∃ xs, t.out = s.out ++ [.dma fn (s.pairAt (R.HAC_EVQ_BASE_LO fn) + 32 * (s.rd (R.HAC_EVQ_HEAD_head fn) %
        2 ^ s.rd (R.HAC_EVQ_CFG_size_log2 fn)))
        ({ r with seq := (sread (fun _ => 0) s.host.evSeq fn + 1) % Config.mod32 } : EvRec).bytes] ++ xs) ∧
      RegsBut [R.HAC_EVQ_HEAD fn] s t)

/-! ### Counters, snapshots and the PMU (chapter 16) -/

/-- The counter engine's commands have their effect (R469, R470, R471): a selection captures the counter it names; WRITE, CLEAR and
CLEAR_STRIPE set the selected counter or its stripe, and with clear_wrap its wrap bits fall. -/
def Obligations.CounterCommandsTakeEffect : Prop :=
  (∀ (fn set index slot : Nat) (s : State), WriteTaken s fn R.CNT_SEL 15 true → set < 5 → index < (setShape set).1 →
    slot < (setShape set).2 →
    Runs (.counterSelect fn 15 (index + 2 ^ 20 * set + 2 ^ 23 * slot) false) s fun t => t.selectedHome = homeOf set index slot ∧
      t.on R.CNT_STAT_valid = true ∧
      t.rd64 R.CNT_PKTS_LO_pkts_lo R.CNT_PKTS_HI_pkts_hi = (s.ctr (homeOf set index slot)).pkts % 2 ^ 64 ∧
      t.rd64 R.CNT_BYTES_LO_bytes_lo R.CNT_BYTES_HI_bytes_hi = (s.ctr (homeOf set index slot)).bytes % 2 ^ 64 ∧
      t.on R.CNT_STAT_wrap_p = (s.ctr (homeOf set index slot)).wrapP ∧ t.on R.CNT_STAT_poison = (s.ctr (homeOf set index slot)).poison ∧
      t.cnt = s.cnt ∧ RegsBut [R.CNT_SEL, R.CNT_STAT, R.CNT_PKTS_LO, R.CNT_PKTS_HI, R.CNT_BYTES_LO, R.CNT_BYTES_HI,
        R.MIF_POISON_CONSUMED, R.HAC_WSEQ fn] s t) ∧
  (∀ (fn : Nat) (wrap : Bool) (s : State), WriteTaken s fn R.CNT_OP 15 true →
    Runs (.counterWrite fn 15 wrap) s (fun t =>
      t.ctr s.selectedHome = ⟨s.rd64 R.CNT_WPKTS_LO_pkts_lo R.CNT_WPKTS_HI_pkts_hi,
        s.rd64 R.CNT_WBYTES_LO_bytes_lo R.CNT_WBYTES_HI_bytes_hi, (s.ctr s.selectedHome).wrapP && !wrap,
        (s.ctr s.selectedHome).wrapB && !wrap, (s.ctr s.selectedHome).poison⟩ ∧
      (∀ h, h ≠ s.selectedHome → t.ctr h = s.ctr h) ∧ RegsBut [R.HAC_WSEQ fn] s t) ∧
    Runs (.counterClear fn 15 wrap) s (fun t =>
      t.ctr s.selectedHome = ⟨0, 0, (s.ctr s.selectedHome).wrapP && !wrap, (s.ctr s.selectedHome).wrapB && !wrap,
        (s.ctr s.selectedHome).poison⟩ ∧
      (∀ h, h ≠ s.selectedHome → t.ctr h = s.ctr h) ∧ RegsBut [R.HAC_WSEQ fn] s t) ∧
    Runs (.counterClearStripe fn 15 wrap) s fun t =>
      (∀ h, h / 32 = s.selectedHome / 32 →
        t.ctr h = ⟨0, 0, (s.ctr h).wrapP && !wrap, (s.ctr h).wrapB && !wrap, false⟩) ∧
      (∀ h, h / 32 ≠ s.selectedHome / 32 → t.ctr h = s.ctr h) ∧ RegsBut [R.HAC_WSEQ fn] s t)

/-- The snapshot commands have their effect (R475 to R479): an accepted SNAP_AT reserves a buffer and a slot on each die; 8 us after its
boundary a snapshot of counters is final; written, it frees its buffer and its command completes DONE with its size. -/
def Obligations.SnapshotCommandsTakeEffect : Prop :=
  (∀ (c : Cmd) (mask turn dest arrMask len buf : Nat) (s : State), CommandTaken s c 0x20 (rightOf 0x20) [(dest, len)] →
    0 < mask → mask < 32 → dest % 64 = 0 → padded (s.snapLen mask false []) ≤ len → s.schedCheck (.snapshot 0) c.system turn = stDone →
    (s.cnt.snaps.any fun e => e.2.stage ≤ 1 &&
      (max turn e.2.turn - min turn e.2.turn) * 2 ^ s.rd R.TBS_TURN_LEN_LOG2_t < 16000) = false → s.cnt.snaps.length < 2 →
    buf = (if (mget s.cnt.snaps 0).isNone then 0 else 1) →
    Runs (.snapAt c mask turn dest arrMask len) s fun t => Answers c stAccepted s t ∧
      mget t.cnt.snaps buf = some ⟨c, turn, mask, false, false, arrMask, dest, len, 0, 0, 0, [], [], false, [], []⟩ ∧
      t.sched = s.sched ++ [⟨.snapshot buf, turn, c.system, cmdFn c, some c, s.freeFdSlot, s.freeTdSlot⟩] ∧
      t.cnt.vals = s.cnt.vals) ∧
  (∀ (buf : Nat) (x : Snap) (s : State), mget s.cnt.snaps buf = some x → x.stage = 1 → x.pmu = false →
    x.opened + 8000 ≤ s.time.elapsed →
    Runs (.snapshotFinal buf) s fun t => mget t.cnt.snaps buf = some { x with stage := 2, window := 8000, pmuVals := [] } ∧
      t.lastSnap = x.turn % 2 ^ 64 ∧ t.cnt.vals = s.cnt.vals ∧
      RegsBut [R.CNT_LAST_SNAP_LO, R.CNT_LAST_SNAP_HI, R.CNT_SNAP_STATUS, R.MIF_POISON_CONSUMED] s t) ∧
  (∀ (buf : Nat) (x : Snap) (s : State), mget s.cnt.snaps buf = some x → x.stage = 2 →
    Runs (.snapshotWriteDone buf) s fun t => mget t.cnt.snaps buf = none ∧ t.cnt.vals = s.cnt.vals ∧
      ∀ f r n, x.cmd.src = .ring f r n → s.host.orphans.contains (f, r, n) = false →
        t.host.cplQueue = s.host.cplQueue ++ [⟨f, r, n, stDone, (s.snapImage x).length / 64, none, true⟩] ∧
        ∃ rest, t.out = s.out ++ [.dma f x.dest (s.snapImage x)] ++ rest)

/-- The PMU's commands have their effect (R482, R483, R485, R486, R488, R568): an event the die defines is selected; a counter takes a
value; a sample record goes into its ring; a freeze or a resume is armed, withdrawn in time, and final; run ends a freeze. -/
def Obligations.PmuCommandsTakeEffect : Prop :=
  (∀ (fn d i val : Nat) (s : State), d < 2 → i < 16 → WriteTaken s fn (R.PMx_EVSEL d i) 15 false → pmuCode d (val % 2 ^ 10) = true →
    pmuFilter d (val / 2 ^ 10 % 2 ^ 4) (val / 2 ^ 14 % 2 ^ 6) = true →
    Runs (.pmuEvselWrite fn 15 d i val) s fun t => t.rd (R.PMx_EVSEL_event d i) = val % 2 ^ 10 ∧
      t.rd (R.PMx_EVSEL_unit d i) = val / 2 ^ 10 % 2 ^ 4 ∧ t.rd (R.PMx_EVSEL_stage d i) = val / 2 ^ 14 % 2 ^ 6 ∧
      t.on (R.PMx_EVSEL_en d i) = bitAt val 20 ∧ RegsBut [R.PMx_EVSEL d i, R.HAC_WSEQ fn] s t) ∧
  (∀ (fn d i val lo : Nat) (s : State), d < 2 → i < 16 → WriteTaken s fn (R.PMx_CNT_HI d i) 15 false →
    Runs (.pmuCounterWrite fn 15 d i val (some lo)) s fun t => t.rd (R.PMx_CNT_LO_value_lo d i) = lo % 2 ^ 32 ∧
      t.rd (R.PMx_CNT_HI_value_hi d i) = val % 2 ^ 16 + 2 ^ 16 * (s.rd (R.PMx_CNT_HI_value_hi d i) / 2 ^ 16 % 2 ^ 10) +
        2 ^ 31 * (val / 2 ^ 31 % 2) ∧
      RegsBut [R.PMx_CNT_LO d i, R.PMx_CNT_HI d i, R.HAC_WSEQ fn] s t) ∧
  (∀ (r : List Byte) (rest : List (List Byte)) (s : State), s.cnt.recs = r :: rest → s.on R.PMF_SMP_CFG_en = true →
    ringFull (s.rd R.PMF_SMP_CFG_size_log2) (s.rd R.PMF_SMP_HEAD_head) (s.rd R.PMF_SMP_TAIL_tail) = false →
    Runs .sampleRecordDeliver s fun t => t.cnt.recs = rest ∧
      t.rd R.PMF_SMP_HEAD_head = (s.rd R.PMF_SMP_HEAD_head + 1) % 2 ^ s.rd R.PMF_SMP_CFG_size_log2 % 2 ^ 16 ∧
      (∃ xs, t.out = s.out ++ [.dma (s.ringOwner R.PMF_SMP_CFG_en) (s.pairAt R.PMF_SMP_BASE_LO +
        128 * (s.rd R.PMF_SMP_HEAD_head % 2 ^ s.rd R.PMF_SMP_CFG_size_log2)) r] ++ xs) ∧ RegsBut [R.PMF_SMP_HEAD] s t) ∧
  (∀ (fn val : Nat) (s : State), WriteTaken s fn (R.PMx_FRZ_CTRL 0) 15 true →
    s.schedCheck (.pmu false none) (bitAt val 2) (s.rd64 (R.PMx_FRZ_TURN_LO_turn_lo 0) (R.PMx_FRZ_TURN_HI_turn_hi 0)) = stDone →
    Runs (.pmuFreezeArm fn 15 val) s fun t => t.rd (R.PMx_FRZ_CTRL_last_status 0) = stAccepted ∧
      t.sched = s.sched ++ [⟨.pmu false none, s.rd64 (R.PMx_FRZ_TURN_LO_turn_lo 0) (R.PMx_FRZ_TURN_HI_turn_hi 0), bitAt val 2, fn, none,
        s.freeFdSlot, s.freeTdSlot⟩]) ∧
  (∀ (fn val : Nat) (s : State), WriteTaken s fn (R.PMx_FRZ_CTRL 0) 15 true →
    s.schedCheck (.pmu true none) (bitAt val 2) (s.rd64 (R.PMx_FRZ_TURN_LO_turn_lo 0) (R.PMx_FRZ_TURN_HI_turn_hi 0)) = stDone →
    Runs (.pmuResumeArm fn 15 val) s fun t => t.rd (R.PMx_FRZ_CTRL_last_status 0) = stAccepted ∧
      t.sched = s.sched ++ [⟨.pmu true none, s.rd64 (R.PMx_FRZ_TURN_LO_turn_lo 0) (R.PMx_FRZ_TURN_HI_turn_hi 0), bitAt val 2, fn, none,
        s.freeFdSlot, s.freeTdSlot⟩]) ∧
  (∀ (fn val : Nat) (x : SlotEv) (s : State), WriteTaken s fn (R.PMx_FRZ_CTRL 0) 15 true → s.armedPmu = some x →
    s.time.turn + 3 ≤ x.turn →
    Runs (.pmuFreezeCancel fn 15 val) s fun t => t.sched = s.sched.erase x ∧ t.rd (R.PMx_FRZ_CTRL_last_status 0) = stDone) ∧
  (∀ s : State, s.on (R.PMx_CTRL_frozen 0) = true → s.on (R.PMx_CTRL_frozen 1) = true →
    (s.fd.pkts.any fun p => !p.slots.isEmpty) = false →
    Runs .pmuFreezeFinal s fun t => t.on (R.PMx_CTRL_pmu_final 0) = true ∧ t.on (R.PMx_CTRL_pmu_final 1) = true ∧
      t.on (R.PMx_CTRL_frozen 0) = true ∧ t.on (R.PMx_CTRL_frozen 1) = true) ∧
  (∀ (fn d val : Nat) (s : State), d < 2 → WriteTaken s fn (R.PMx_CTRL d) 15 false → bitAt val 0 = true →
    Runs (.pmuRunWrite fn 15 d val) s fun t => t.on (R.PMx_CTRL_run d) = true ∧ t.on (R.PMx_CTRL_frozen d) = false ∧
      t.on (R.PMx_CTRL_pmu_final d) = false ∧ RegsBut [R.PMx_CTRL d, R.HAC_WSEQ fn] s t)

/-! ### Power, boot and resets (chapter 17) -/

/-- Power and boot have their effect (R320, R427, R489, R523, R524, R538, R551 to R553, R558): POR_N's rise samples the straps; a
brownout or a lost supply returns the device to its reset state with the flash and the elapsed time kept; the ROM boots a bank or enters
recovery; firmware starts stage 3, and the memory fills end it. -/
def Obligations.BootCommandsTakeEffect : Prop :=
  (∀ (r test : Bool) (a : BitVec 2) (s : State), s.svc.porLow = true →
    Runs (.porRelease r test a) s fun t => t.svc.porLow = false ∧ t.svc.testMode = test ∧ t.rd R.GLB_PWR_STATUS_rail_ok = 0x3FF ∧
      t.on R.GLB_STRAPS_recovery_n = r ∧ t.rd R.GLB_STRAPS_i2c_addr = a.toNat ∧ t.time = s.time ∧
      RegsBut [R.GLB_PWR_STATUS, R.GLB_STRAPS] s t) ∧
  (∀ (rail : Nat) (s : State), 0 < rail → rail < 10 → s.svc.porLow = false →
    Runs (.brownout rail) s fun t => t.svc.browned = true ∧ t.on R.GLB_PWR_STATUS_brownout = true ∧
      t.rd ⟨R.GLB_PWR_STATUS, rail, 1⟩ = 0 ∧ t.time.elapsed = s.time.elapsed ∧ t.flash.banks = s.flash.banks ∧
      t.recipe.store = s.recipe.store ∧ t.fd = State.reset.fd ∧ t.buf = State.reset.buf ∧ t.tab = State.reset.tab) ∧
  (∀ s : State, s.svc.browned = true →
    Runs .railRecovery s fun t => t.svc = { s.svc with browned := false } ∧ t.rd R.GLB_PWR_STATUS_rail_ok = 0x3FF ∧
      RegsBut [R.GLB_PWR_STATUS] s t) ∧
  (∀ s : State, Runs .powerLoss s fun t => t.svc.porLow = true ∧ t.rd R.GLB_PWR_STATUS_rail_ok = 0 ∧
      t.time.elapsed = s.time.elapsed ∧ t.flash.banks = s.flash.banks ∧ t.recipe.store = s.recipe.store ∧ t.fd = State.reset.fd ∧
      t.buf = State.reset.buf) ∧
  (∀ (val : Nat) (s : State), bitAt val 16 = true → s.svc.porLow = false →
    Runs (.i2cBrownoutClear val) s fun t => t.on R.GLB_PWR_STATUS_brownout = false ∧ RegsBut [R.GLB_PWR_STATUS] s t) ∧
  (∀ (a b : FwChecks) (n : Bool) (s : State), s.svc.pllLocked = false → s.stopped = false → s.heldByPerst = false →
    s.svc.testMode = false →
    ((if s.rd R.GLB_SERVICE_stage = 2 then n else s.on R.GLB_STRAPS_recovery_n) = false →
      Runs (.pllLock (a, b) n) s fun t => t.svc.recovery = true ∧ t.rd R.FWS_BOOT_STATUS_recovery_cause = 3 ∧ t.rd R.GLB_SERVICE_stage = 0 ∧
        t.flash.crumbs = []) ∧
    ((if s.rd R.GLB_SERVICE_stage = 2 then n else s.on R.GLB_STRAPS_recovery_n) = true → s.rd R.FWS_BOOT_STATUS_expiries = 3 →
      Runs (.pllLock (a, b) n) s fun t => t.svc.recovery = true ∧ t.rd R.FWS_BOOT_STATUS_recovery_cause = 2) ∧
    ((if s.rd R.GLB_SERVICE_stage = 2 then n else s.on R.GLB_STRAPS_recovery_n) = true → s.rd R.FWS_BOOT_STATUS_expiries ≠ 3 →
      s.fwFailure (s.bankImage s.bootFirst) (if s.bootFirst = 0 then a else b) = none →
      Runs (.pllLock (a, b) n) s fun t => t.bankState s.bootFirst = bkActive ∧ t.rd R.FWS_FW_STATUS_active_bank = s.bootFirst % 2 ∧
        t.rd R.GLB_SERVICE_stage = 2 ∧ t.svc.wdRunning = true ∧ t.svc.wdStart = s.time.elapsed)) ∧
  (∀ s : State, s.rd R.GLB_SERVICE_stage = 2 → s.svc.pllLocked = true → s.svc.fwRunning = false → s.stopped = false →
    s.heldByPerst = false →
    Runs .firmwareRunning s fun t => t.svc.fwRunning = true ∧ t.svc.wdRunning = false ∧ t.rd R.GLB_SERVICE_stage = 3 ∧
      t.rd R.FWS_BOOT_STATUS_expiries = 0 ∧ t.svc.heartbeat = s.time.elapsed) ∧
  (∀ (which : Nat) (failed : List (Nat × Nat)) (s : State), which < 3 → s.svc.fwRunning = true → s.stopped = false →
    s.rd R.GLB_SERVICE_stage = 3 →
    Runs (.memoryFillDone which failed) s fun t =>
      t.on (if which = 0 then R.MIF_STATUS_fd_fill_done else if which = 1 then R.MIF_STATUS_td_fill_done else
        R.MIF_STATUS_hbm_fill_done) = true ∧
      (which = 0 → s.on R.MIF_STATUS_td_fill_done = true → s.on R.MIF_STATUS_hbm_fill_done = true → s.tdDown = false →
        t.svc.coreRun = true ∧ 4 ≤ t.rd R.GLB_SERVICE_stage))

/-- A warm reset and an endpoint reset have their effect (R427, R490, R496 to R498, R513, R524, R539, R540, R558): whatever asks for a
warm reset, the device is at stage 2, every register keeps its RWS fields and what the pins, the flash and the fuses hold, and
the cause is shown; PERST# without perst_full resets both functions' registers; 100 ms after its release requests are answered. -/
def Obligations.ResetCommandsTakeEffect : Prop :=
  (∀ (fn val : Nat) (s : State), RegsCanonical s → s.stopped = false → s.rd R.GLB_SERVICE_stage ≠ 1 → WriteTaken s fn R.GLB_RESET_CTRL 15 true →
    bitAt val 0 = true → val / 65536 % 65536 = resetKey → Runs (.warmResetRequest fn 15 val) s (WarmResetDone 1 s)) ∧
  (∀ (val : Nat) (s : State), RegsCanonical s → s.stopped = false → s.rd R.GLB_SERVICE_stage ≠ 1 → bitAt val 0 = true →
    val / 65536 % 65536 = resetKey → Runs (.i2cWarmResetRequest val) s (WarmResetDone 2 s)) ∧
  (∀ s : State, RegsCanonical s → s.stopped = false → s.rd R.GLB_SERVICE_stage ≠ 1 → s.svc.wdRunning = true →
    s.svc.wdStart + 5000000000 ≤ s.time.elapsed → Runs .bootWatchdogExpire s (WarmResetDone 3 s)) ∧
  (∀ s : State, RegsCanonical s → s.stopped = false → s.rd R.GLB_SERVICE_stage ≠ 1 → s.on R.GLB_RESET_CFG_perst_full = true →
    Runs .perstAssert s (WarmResetDone 4 s)) ∧
  (∀ (fn val : Nat) (s : State), RegsCanonical s → s.stopped = false → s.rd R.GLB_SERVICE_stage ≠ 1 → WriteTaken s fn R.FWS_REC_CTRL 15 true →
    s.svc.recovery = true → bitAt val 2 = true → Runs (.recoveryReboot fn 15 val) s (WarmResetDone 1 s)) ∧
  (∀ (bytes : List Byte) (s : State), s.mgmtFrame bytes 4 = true → s.stopped = false → s.rd R.GLB_SERVICE_stage ≠ 1 →
    Runs (.mgmtRebootFrame bytes) s fun t => t.rd R.GLB_SERVICE_stage = 2 ∧ t.svc.fwRunning = false ∧ t.svc.recovery = false ∧
      t.time.elapsed = s.time.elapsed ∧ t.flash.banks = s.flash.banks ∧ t.recipe.store = s.recipe.store) ∧
  (∀ s : State, s.stopped = false → s.on R.GLB_RESET_CFG_perst_full = false →
    Runs .perstAssert s fun t => t.svc.perst = true ∧ (∀ fn a, fn < 2 → ownedReg fn a = true → t.rdWord a = regReset a) ∧
      t.time = s.time ∧ t.fd = s.fd ∧ t.buf = s.buf ∧ t.tab = s.tab) ∧
  (∀ s : State, s.svc.perst = true →
    exec .perstRelease s = .next { s with svc := { s.svc with perst := false, answerFrom := s.time.elapsed + 100000000 } })

/-- A TD reset and a block reset have their effect (R499 to R501, R508, R513): whatever asks for it, the TD is down with its queues and
tiers lost and its cause shown, and it is back when its memories are filled; a block whose condition holds is reset alone. -/
def Obligations.PartResetCommandsTakeEffect : Prop :=
  (∀ (fn val : Nat) (s : State), s.stopped = false → s.svc.fwRunning = true →
    (∀ x ∈ s.sched, ∀ u, x.ev = .dice u → 0x3400000 ≤ u) → WriteTaken s fn R.GLB_RESET_CTRL 15 true →
    bitAt val 1 = true → val / 65536 % 65536 = resetKey → Runs (.tdResetRequest fn 15 val) s (TdResetDone 1 s)) ∧
  (∀ (val : Nat) (s : State), s.stopped = false → s.svc.fwRunning = true →
    (∀ x ∈ s.sched, ∀ u, x.ev = .dice u → 0x3400000 ≤ u) → bitAt val 1 = true →
    val / 65536 % 65536 = resetKey → Runs (.i2cTdResetRequest val) s (TdResetDone 2 s)) ∧
  (∀ s : State, s.stopped = false → s.svc.fwRunning = true →
    (∀ x ∈ s.sched, ∀ u, x.ev = .dice u → 0x3400000 ≤ u) → s.tdDown = false → s.on R.GLB_RESET_CFG_td_wd_en = true →
    s.svc.heartbeat + 100000000 ≤ s.time.elapsed → Runs .tdWatchdogExpire s (TdResetDone 3 s)) ∧
  (∀ s : State, s.svc.fwRunning = true → s.tdDown = false →
    exec .tdHeartbeat s = .next { s with svc := { s.svc with heartbeat := s.time.elapsed } }) ∧
  (∀ s : State, s.on R.GLB_SERVICE_td_down = true → s.stopped = false → s.on R.MIF_STATUS_td_fill_done = true →
    s.on R.MIF_STATUS_hbm_fill_done = true →
    Runs .tdRestartDone s fun t => t.on R.GLB_SERVICE_td_down = false ∧ t.on R.GLB_SERVICE_copy_missing = false ∧
      t.svc.heartbeat = s.time.elapsed) ∧
  (∀ (fn b : Nat) (s : State), b ∈ resettable → WriteTaken s fn R.GLB_BLKRST 15 true → s.mayReset b = true →
    Runs (.blockReset fn 15 (2 ^ b)) s fun t => t.rd ⟨R.GLB_BLKRST, b, 1⟩ = 1 ∧
      sread (fun _ => 0) t.svc.blkEpoch b = (sread (fun _ => 0) s.svc.blkEpoch b + 1) % 65536 ∧
      (∀ a, blockBit a = b → (∀ w, warmWord a w = none) → t.rdWord a = regReset a) ∧ t.time = s.time) ∧
  (∀ s : State, Runs .blockResetDone s fun t => t.rdWord R.GLB_BLKRST = 0 ∧ RegsBut [R.GLB_BLKRST] s t ∧ t.svc = s.svc)

/-! ### Firmware (chapter 18) -/

/-- Staging and writing an image have their effect (R525 to R530, R539, R540): a good crumb is staged whichever way it comes, one that
fails its checks is not; a query returns the bitmap; a verify starts the check of a complete image, whose end begins the write or waits for
its fixed time; a write that ends makes its bank STAGED. -/
def Obligations.FirmwareStagingCommandsTakeEffect : Prop :=
  (∀ (m : List Byte) (s : State), crumbOk m = true → s.flash.job = none → s.fwChanging = false →
    (s.flash.binding = none ∨ s.flash.binding = some (crumbId m, crumbCount m)) → mget s.flash.crumbs (crumbIndex m) = none →
    (∀ (c : Cmd) (addr : Nat), addr % 64 = 0 → CommandTaken s c 0x38 (rightOf 0x38 ++ []) [(addr, 64 + 4096)] →
      Runs (.fwCrumb c addr m) s fun t => Answers c stDone s t ∧ t.flash.binding = some (crumbId m, crumbCount m) ∧
        t.flash.crumbs = mput s.flash.crumbs (crumbIndex m) (slice m 64 (crumbSize m))) ∧
    (s.on R.FWS_INB_CFG_en = true → s.svc.fwRunning = true → s.svc.handover = false →
      (if s.flash.rate.1 = s.time.elapsed / 1000000000 then s.flash.rate.2 else 0) < 20000 →
      Runs (.inbandCrumbReceive m) s fun t => t.flash.binding = some (crumbId m, crumbCount m) ∧
        t.flash.crumbs = mput s.flash.crumbs (crumbIndex m) (slice m 64 (crumbSize m))) ∧
    (∀ bytes, s.mgmtFrame bytes 1 = true → bytes.drop 18 = m →
      Runs (.mgmtCrumbFrame bytes) s fun t => t.flash.binding = some (crumbId m, crumbCount m) ∧
        t.flash.crumbs = mput s.flash.crumbs (crumbIndex m) (slice m 64 (crumbSize m))) ∧
    (∀ (fn val : Nat) (w : List Byte), WriteTaken s fn R.FWS_REC_CTRL 15 true → s.svc.recovery = true → bitAt val 0 = true →
      s.rd R.FWS_REC_COUNT_crumbs = 1 → w.length ≤ 2 ^ 26 → (s.fillWindow 0 w).windowCrumb 0 = m →
      Runs (.recoveryGo fn 15 val w) s fun t => t.rd R.FWS_REC_CTRL_last_status = stDone ∧
        t.flash.crumbs = mput s.flash.crumbs (crumbIndex m) (slice m 64 (crumbSize m)))) ∧
  (∀ (c : Cmd) (addr : Nat) (m : List Byte) (s : State), addr % 64 = 0 → s.flash.job = none → s.fwChanging = false →
    CommandTaken s c 0x38 (rightOf 0x38 ++ rightOf 0x3A) [(addr, 64 + 4096)] →
    (crumbOk m = true → Runs (.fwCrumbRestart c addr m) s fun t => Answers c stDone s t ∧
      t.flash.binding = some (crumbId m, crumbCount m) ∧ t.flash.crumbs = [(crumbIndex m, slice m 64 (crumbSize m))]) ∧
    (crumbOk m = false → Runs (.fwCrumbRestart c addr m) s fun t => Answers c stInvalid s t ∧ t.flash.binding = none ∧
      t.flash.crumbs = [])) ∧
  (∀ (c : Cmd) (dest : Nat) (s : State), CommandTaken s c 0x39 (rightOf 0x39) [(dest, 3840)] → s.fwChanging = false →
    Runs (.fwVerifyQuery c dest) s fun t => Answers c stDone s t ∧ t.flash = s.flash ∧
      ∀ f r n, c.src = .ring f r n → t.out = s.out ++ [.dma f dest s.crumbMap]) ∧
  (∀ (c : Cmd) (s : State), CommandTaken s c 0x39 (rightOf 0x39) [] → s.fwChanging = false → s.flash.job = none →
    (s.stgComplete = true → Runs (.fwVerify c) s fun t => Answers c stAccepted s t ∧
      t.flash = { s.flash with job := some ⟨.cmd c, 0, s.time.elapsed + 3000000000, s.standby⟩ }) ∧
    (s.stgComplete = false → Runs (.fwVerify c) s fun t => Answers c stNotReady s t ∧ t.flash = s.flash)) ∧
  (∀ (c : Cmd) (due b : Nat) (x : FwChecks) (s : State), s.flash.job = some ⟨.cmd c, 0, due, b⟩ →
    (s.fwFailure s.staged x = none → s.libsFit s.staged = true → Runs (.stagedImageCheckDone x) s fun t =>
      t.bankState b = bkWriting ∧ mget t.flash.banks b = none ∧ t.flash.job = some ⟨.cmd c, 2, due, b⟩ ∧ t.host = s.host) ∧
    (∀ why, s.fwFailure s.staged x = some (.auth why) → Runs (.stagedImageCheckDone x) s fun t =>
      t.flash = { s.flash with job := some ⟨.cmd c, 1, due, b⟩ } ∧ t.host = s.host) ∧
    (s.fwFailure s.staged x = some .unfit → Runs (.stagedImageCheckDone x) s fun t => t.flash.job = none ∧
      Answers c stIncompatible s t)) ∧
  (∀ (c : Cmd) (due b : Nat) (s : State), s.flash.job = some ⟨.cmd c, 1, due, b⟩ → due ≤ s.time.elapsed →
    Runs .fwVerifyAuthFail s fun t => t.flash = { s.flash with job := none } ∧ Answers c stInvalid s t) ∧
  (∀ (c : Cmd) (due b : Nat) (s : State), s.flash.job = some ⟨.cmd c, 2, due, b⟩ →
    Runs .fwBankWriteDone s fun t => mget t.flash.banks b = some s.staged ∧ t.bankState b = bkStaged ∧ t.flash.job = none ∧
      Answers c stDone s t)

/-- Changing to another image has its effect (R52, R200, R532 to R536): an activation or a revert that passes its checks takes a slot on
each die, and is withdrawn in time; shadows are written, the data path resumes with its pause measured, and the management cores resume
under the new image with the banks' states exchanged. -/
def Obligations.FirmwareActivationCommandsTakeEffect : Prop :=
  (∀ (c : Cmd) (turn : Nat) (u : Bool) (s : State), CommandTaken s c 0x3A (rightOf 0x3A) [] → s.bankState s.standby = bkStaged →
    ((List.range 3).any fun k => s.on (R.FWS_RCP_STORE_w0_writing k)) = false → s.recipe.loads = [] →
    s.rd R.FWS_FW_SECVER_arb_count ≤ fwSecVer (s.bankImage s.standby) → s.peerAgainst (s.bankImage s.standby) = none →
    s.slotsAccept (fwInterop (s.bankImage s.standby)) = true →
    u = changesUcode (s.bankImage s.standby) (s.bankImage s.activeBank) →
    s.schedCheck (.firmware s.standby u false) c.system turn = stDone →
    (u = true → s.time.sysNs + 25000000 ≤ turn * 2 ^ s.rd R.TBS_TURN_LEN_LOG2_t) →
    Runs (.fwActivate c turn) s (FwScheduled c turn u false s)) ∧
  (∀ (c : Cmd) (turn : Nat) (u : Bool) (s : State), CommandTaken s c 0x3B (rightOf 0x3B) [] → s.bankState s.standby = bkPrevious →
    ((List.range 3).any fun k => s.on (R.FWS_RCP_STORE_w0_writing k)) = false → s.recipe.loads = [] →
    s.rd R.FWS_FW_SECVER_arb_count ≤ fwSecVer (s.bankImage s.standby) → s.peerAgainst (s.bankImage s.standby) = none →
    s.slotsAccept (fwInterop (s.bankImage s.standby)) = true →
    u = changesUcode (s.bankImage s.standby) (s.bankImage s.activeBank) →
    s.schedCheck (.firmware s.standby u true) c.system turn = stDone →
    (u = true → s.time.sysNs + 25000000 ≤ turn * 2 ^ s.rd R.TBS_TURN_LEN_LOG2_t) →
    Runs (.fwRevert c turn) s (FwScheduled c turn u true s)) ∧
  (∀ (c : Cmd) (x : SlotEv) (s : State), CommandTaken s c 0x3A (rightOf 0x3A) [] →
    s.schedFind (fun e => match e with | .firmware _ _ r => r == false | _ => false) = some x → s.time.turn + 3 ≤ x.turn →
    Runs (.fwActivateCancel c) s (FwWithdrawn c x s)) ∧
  (∀ (c : Cmd) (x : SlotEv) (s : State), CommandTaken s c 0x3B (rightOf 0x3B) [] →
    s.schedFind (fun e => match e with | .firmware _ _ r => r == true | _ => false) = some x → s.time.turn + 3 ≤ x.turn →
    Runs (.fwRevertCancel c) s (FwWithdrawn c x s)) ∧
  (∀ s : State, (s.sched.any fun x => match x.ev with | .firmware _ u _ => u | _ => false) = true →
    Runs .fwShadowReady s fun t => (∀ p, p < 8 → t.on (R.PPL_UCODE_shadow_valid p) = true) ∧
      ∀ a, (∀ p, p < 8 → a ≠ R.PPL_UCODE p) → (∀ p k, a ≠ R.PPL_MC_LOG_w0 p k) → t.rdWord a = s.rdWord a) ∧
  (∀ (h : FwHand) (s : State), s.flash.hand = some h → s.svc.dpPaused = true →
    Runs .dataPathPauseEnd s fun t => t.svc = { s.svc with dpPaused := false } ∧
      t.rd R.FWS_FW_DP_PAUSE_ns = min 0xFFF (s.time.elapsed - h.began) ∧
      ∀ p, p < 8 → t.on (R.PPL_UCODE_shadow_valid p) = false) ∧
  (∀ (h : FwHand) (s : State), s.flash.hand = some h → h.bank ≠ s.activeBank →
    Runs .fwMgmtResume s fun t => t.svc.handover = false ∧ t.bankState h.bank = bkActive ∧
      t.bankState s.activeBank = (if h.revert then bkStaged else bkPrevious) ∧ t.flash.boot = h.bank ∧ t.flash.hand = none ∧
      t.rd R.FWS_FW_STATUS_active_bank = h.bank % 2 ∧ t.fw.interop = fwInterop (s.bankImage h.bank) ∧
      ∀ c, h.cmd = some c → Answers c stDone s t)

/-- Fuses, recovery and the boot configuration have their effect (R516, R518, R519, R538 to R540, R542): a fuse operation begins and its
mirror shows its end; a good image staged in recovery is written to a bank, which becomes the boot bank, and who asked is answered; a
record is stored. -/
def Obligations.RecoveryCommandsTakeEffect : Prop :=
  (∀ (fn val : Nat) (s : State), WriteTaken s fn R.FWS_ARB_RAISE 15 true → val / 65536 % 65536 = 0x3C96 →
    s.rd R.FWS_FW_SECVER_arb_count ≤ val % 128 → val % 128 ≤ s.fw.secVer → s.flash.fuse = none →
    Runs (.arbRaise fn 15 val) s fun t => t.flash = { s.flash with fuse := some ⟨0, val % 128, [], R.FWS_ARB_RAISE⟩ } ∧
      t.on R.FWS_SEC_STATUS_busy = true ∧ RegsBut [R.FWS_SEC_STATUS, R.HAC_WSEQ fn] s t) ∧
  (∀ (fn val : Nat) (hash : List Byte) (s : State), WriteTaken s fn R.FWS_KEY_CTRL 15 true → val / 65536 % 65536 = 0x96E1 →
    s.flash.fuse = none →
    (bitAt val 2 = true → bitAt (s.rd R.FWS_KEY_STATUS_programmed) (val % 4) = false →
      s.inWindow fn (s.rd64 R.FWS_KEY_BUF_LO_addr_lo R.FWS_KEY_BUF_HI_addr_hi) 48 = true →
      Runs (.keyProgram fn 15 val hash) s fun t => t.flash = { s.flash with fuse := some ⟨1, val % 4, hash, R.FWS_KEY_CTRL⟩ } ∧
        t.on R.FWS_SEC_STATUS_busy = true ∧ RegsBut [R.FWS_SEC_STATUS, R.HAC_WSEQ fn] s t) ∧
    (bitAt val 3 = true →
      Runs (.keyRevoke fn 15 val) s fun t => t.flash = { s.flash with fuse := some ⟨2, val % 4, [], R.FWS_KEY_CTRL⟩ } ∧
        t.on R.FWS_SEC_STATUS_busy = true ∧ RegsBut [R.FWS_SEC_STATUS, R.HAC_WSEQ fn] s t)) ∧
  (∀ (f : FuseOp) (s : State), s.flash.fuse = some f →
    Runs .fuseOperationDone s fun t => t.flash = { s.flash with fuse := none } ∧ t.on R.FWS_SEC_STATUS_busy = false ∧
      (f.kind = 0 → t.rd R.FWS_FW_SECVER_arb_count = f.value % 2 ^ 7) ∧
      (f.kind = 1 → f.value < 4 → t.rd ⟨R.FWS_KEY_STATUS, f.value, 1⟩ = 1 ∧
        ∀ j, j < 12 → t.rd (R.FWS_CKEY_HASH_hash f.value j) = leAt f.hash (4 * j) 4) ∧
      (2 ≤ f.kind → f.value < 4 → t.rd ⟨R.FWS_KEY_STATUS, 4 + f.value, 1⟩ = 1) ∧
      ((f.kind = 1 → f.value < 4) → t.rd R.FWS_SLOG_CTRL_next = (s.rd R.FWS_SLOG_CTRL_next + 1) % 256)) ∧
  (∀ (x : FwChecks) (b : Nat) (s : State), s.flash.job = none → s.stgComplete = true → s.fwFailure s.staged x = none →
    b = (([0, 1] : List Nat).find? fun b => s.bankState b == bkEmpty || s.bankState b == bkInvalid).getD (1 - s.flash.boot) →
    (∀ fn val, WriteTaken s fn R.FWS_REC_CTRL 15 true → s.svc.recovery = true → bitAt val 1 = true →
      Runs (.recoveryVerify fn 15 val x) s fun t => t.bankState b = bkWriting ∧ mget t.flash.banks b = none ∧
        t.flash.job = some ⟨.window, 2, s.time.elapsed + 3000000000, b⟩) ∧
    (∀ bytes, s.mgmtFrame bytes 3 = true →
      Runs (.mgmtVerifyFrame bytes x) s fun t => t.bankState b = bkWriting ∧ mget t.flash.banks b = none ∧
        t.flash.job = some ⟨.mgmt (beAt bytes 6 6), 2, s.time.elapsed + 3000000000, b⟩)) ∧
  (∀ (j : FwJob) (s : State), s.flash.job = some j → (∀ c, j.ask ≠ .cmd c) →
    (j.stage = 2 → Runs .recoveryVerifyDone s fun t => t.bankState j.bank = bkStaged ∧ t.flash.boot = j.bank ∧ t.flash.job = none ∧
      mget t.flash.banks j.bank = some s.staged ∧ t.rd R.FWS_BOOT_STATUS_expiries = 0 ∧
      t.rd R.FWS_REC_CTRL_last_status = stDone ∧ ∀ src, j.ask = .mgmt src → t.out = s.out ++ [.mgmt src [0x83, 0x00]]) ∧
    (j.stage = 1 → j.due ≤ s.time.elapsed → Runs .recoveryVerifyDone s fun t =>
      t.flash = { s.flash with job := none } ∧ t.rd R.FWS_REC_CTRL_last_status = stInvalid ∧
      ∀ src, j.ask = .mgmt src → t.out = s.out ++ [.mgmt src [0x83, 0x04]])) ∧
  (∀ (bytes : List Byte) (s : State), s.mgmtFrame bytes 2 = true →
    exec (.mgmtQueryFrame bytes) s =
      .next (s.emit (.mgmt (beAt bytes 6 6) ([0x82, 0, 0, 0] ++ beBytes 4 s.flash.crumbs.length ++ s.crumbMap)))) ∧
  (∀ (fn val : Nat) (record : List Byte) (s : State), WriteTaken s fn R.FWS_BCFG_CTRL 15 true → bitAt val 0 = true →
    s.on R.FWS_BCFG_CTRL_busy = false → s.rd64 R.FWS_BCFG_ADDR_LO_addr_lo R.FWS_BCFG_ADDR_HI_addr_hi % 64 = 0 →
    s.inWindow fn (s.rd64 R.FWS_BCFG_ADDR_LO_addr_lo R.FWS_BCFG_ADDR_HI_addr_hi) 4096 = true →
    Runs (.bootConfigStore fn 15 val record) s fun t => t.svc = { s.svc with bcfgJob := some record } ∧
      t.on R.FWS_BCFG_CTRL_busy = true ∧ RegsBut [R.FWS_BCFG_CTRL, R.HAC_WSEQ fn] s t) ∧
  (∀ (r : List Byte) (s : State), s.svc.bcfgJob = some r →
    (bootCfgOk r = true → Runs .bootConfigStoreDone s fun t => t.svc = { s.svc with bcfgJob := none, bootCfg := some r } ∧
      t.on R.FWS_BCFG_CTRL_busy = false ∧ t.on R.FWS_BCFG_CTRL_done = true) ∧
    (bootCfgOk r = false → Runs .bootConfigStoreDone s fun t => t.svc = { s.svc with bcfgJob := none } ∧
      t.on R.FWS_BCFG_CTRL_busy = false ∧ t.on R.FWS_BCFG_CTRL_error = true))

/-! ### Pins, sensors and calibration (chapter 19) -/

/-- The sensors, the trip, the LED chain and the calibration words have their effect (R556, R560 to R564): every reading is shown with its
effective offset, a sensor at its trip point stops the cores, the chain shows every port's link, and an effective word follows its user
word. -/
def Obligations.PinCommandsTakeEffect : Prop :=
  (∀ (temps : List Int) (rails : List Nat) (s : State), s.stopped = false → temps.length = 26 → rails.length = 10 →
    Runs (.sensorUpdate temps rails) s fun t =>
      (∀ x, x < 26 → t.on (R.GLB_TEMP_valid x) = true ∧ t.rd (R.GLB_TEMP_temp x) =
        ((temps.getD x 0 + signedOf 8 (bitsAt (s.rdWord (R.FWS_CAL_EFF (1129 + x))).toNat 0 8)) % 65536).toNat) ∧
      (∀ v, v < 10 → t.rd (R.GLB_RAIL_mv v) =
        min (rails.getD v 0 * ((s.rdWord (R.FWS_CAL_EFF (1155 + v))).toNat % 65536) / 32768) 65535)) ∧
  (∀ (temps : List Int) (s : State), s.svc.porLow = false → temps.length = 26 →
    ((List.range 26).any fun x => 16 * (if hbmSensor x then (105 : Int) else 115) ≤ s.tripTemp x (temps.getD x 0)) = true →
    Runs (.thermalTrip temps) s fun t => t.on R.GLB_THERM_STATUS_trip = true ∧ t.svc.coreRun = false ∧ t.svc.fwRunning = false ∧
      t.stopped = true ∧ RegsBut [R.GLB_THERM_STATUS] s t) ∧
  (∀ s : State, s.on R.GLB_LED_CFG_en = true → s.svc.fwRunning = true →
    Runs .ledFrameShift s fun t => ∃ n, t.out = s.out ++ [.led n] ∧ n < 2 ^ 256 ∧
      ∀ p, p < 128 → bitAt n (2 * p) = s.on (R.LIF_PORT_STATUS_link_up p)) ∧
  (∀ (fn k val : Nat) (s : State), k < 1166 → WriteTaken s fn (R.FWS_CAL_USER k) 15 false →
    Runs (.calibrationUserWrite fn 15 k val) s fun t => t.rd (R.FWS_CAL_USER_user k) = val % 2 ^ userBits k ∧
      t.rd (R.FWS_CAL_EFF_effective k) = effWord k (s.rdWord (R.FWS_CAL_FAC k)).toNat (val % 2 ^ userBits k) % 2 ^ 32 ∧
      RegsBut [R.FWS_CAL_USER k, R.FWS_CAL_EFF k, R.HAC_WSEQ fn] s t)
end

