-- ==== Sys2Proof/Laws/Kept.lean ====
section
/-!
SUPPORT. Laws/Kept.lean: what no operation of the model does, whatever else it does: `Kept m z t` says that a state `t` reached from
`z` has the same queue, only adds outputs, keeps the registers in canonical form, never sets the elapsed count or the counter of free
values back, and differs from `z` only in the components that the mask `m` allows. Laws/Kept*.lean prove it of every operation and of
every meaning, each with the components it may change.
-/

namespace Sys2Proof.Machine

/-- The components of the state that may change. -/
structure Mask where
  regs : Prop
  out : Prop
  turn : Prop
  time : Prop
  clk : Prop
  sched : Prop
  host : Prop
  svc : Prop
  fw : Prop
  flash : Prop
  recipe : Prop
  tab : Prop
  txf : Prop
  txns : Prop
  fd : Prop
  cnt : Prop
  brg : Prop
  buf : Prop
  lif : Prop
  mem : Prop
  fab : Prop

/-- What every operation keeps, with the components outside the mask. -/
structure Kept (m : Mask) (z t : State) : Prop where
  pending : t.pending = z.pending
  adds : z.out <+: t.out
  canon : canonical regReset z.regs = true → canonical regReset t.regs = true
  elapsed : z.time.elapsed ≤ t.time.elapsed
  freeCtr : z.freeCtr ≤ t.freeCtr
  regs : m.regs ∨ t.regs = z.regs
  out : m.out ∨ t.out = z.out
  turn : m.turn ∨ t.time.turn = z.time.turn
  time : m.time ∨ t.time = z.time
  clk : m.clk ∨ t.clk = z.clk
  sched : m.sched ∨ t.sched = z.sched
  host : m.host ∨ t.host = z.host
  svc : m.svc ∨ t.svc = z.svc
  fw : m.fw ∨ t.fw = z.fw
  flash : m.flash ∨ t.flash = z.flash
  recipe : m.recipe ∨ t.recipe = z.recipe
  tab : m.tab ∨ t.tab = z.tab
  txf : m.txf ∨ t.txf = z.txf
  txns : m.txns ∨ t.txns = z.txns
  fd : m.fd ∨ t.fd = z.fd
  cnt : m.cnt ∨ t.cnt = z.cnt
  brg : m.brg ∨ t.brg = z.brg
  buf : m.buf ∨ t.buf = z.buf
  lif : m.lif ∨ t.lif = z.lif
  mem : m.mem ∨ t.mem = z.mem
  fab : m.fab ∨ t.fab = z.fab

theorem or_step {p : Prop} {α : Type} {a b c : α} (h : p ∨ b = a) (k : p ∨ c = b) : p ∨ c = a := by
  rcases h with h | h
  · exact .inl h
  · rcases k with k | k
    · exact .inl k
    · exact .inr (k.trans h)

theorem Kept.refl (m : Mask) (z : State) : Kept m z z := by
  constructor <;> first | exact .inr rfl | exact List.prefix_rfl | exact id | exact rfl | exact Nat.le_refl _

theorem Kept.trans {m : Mask} {a b c : State} (h : Kept m a b) (k : Kept m b c) : Kept m a c where
  pending := k.pending.trans h.pending
  adds := h.adds.trans k.adds
  canon := fun x => k.canon (h.canon x)
  elapsed := Nat.le_trans h.elapsed k.elapsed
  freeCtr := Nat.le_trans h.freeCtr k.freeCtr
  regs := or_step h.regs k.regs
  out := or_step h.out k.out
  turn := or_step h.turn k.turn
  time := or_step h.time k.time
  clk := or_step h.clk k.clk
  sched := or_step h.sched k.sched
  host := or_step h.host k.host
  svc := or_step h.svc k.svc
  fw := or_step h.fw k.fw
  flash := or_step h.flash k.flash
  recipe := or_step h.recipe k.recipe
  tab := or_step h.tab k.tab
  txf := or_step h.txf k.txf
  txns := or_step h.txns k.txns
  fd := or_step h.fd k.fd
  cnt := or_step h.cnt k.cnt
  brg := or_step h.brg k.brg
  buf := or_step h.buf k.buf
  lif := or_step h.lif k.lif
  mem := or_step h.mem k.mem
  fab := or_step h.fab k.fab

variable {m : Mask} {z s : State}

/-- A record update that leaves the queue, the registers, the outputs, the free values' counter and the elapsed count. -/
theorem kept_mk {pending regs out freeCtr time clk sched host svc fw flash recipe tab txf txns fd cnt brg buf lif mem fab}
    (h1 : pending = s.pending) (h : Kept m z s) (h2 : regs = s.regs) (h3 : out = s.out) (h4 : freeCtr = s.freeCtr)
    (h5 : time.elapsed = s.time.elapsed) (t0 : m.turn ∨ time.turn = s.time.turn) (t1 : m.time ∨ time = s.time) (t2 : m.clk ∨ clk = s.clk)
    (t3 : m.sched ∨ sched = s.sched) (t4 : m.host ∨ host = s.host) (t5 : m.svc ∨ svc = s.svc) (t6 : m.fw ∨ fw = s.fw)
    (t7 : m.flash ∨ flash = s.flash) (t8 : m.recipe ∨ recipe = s.recipe) (t9 : m.tab ∨ tab = s.tab)
    (t10 : m.txf ∨ txf = s.txf) (t11 : m.txns ∨ txns = s.txns) (t12 : m.fd ∨ fd = s.fd) (t13 : m.cnt ∨ cnt = s.cnt)
    (t14 : m.brg ∨ brg = s.brg) (t15 : m.buf ∨ buf = s.buf) (t16 : m.lif ∨ lif = s.lif) (t17 : m.mem ∨ mem = s.mem)
    (t18 : m.fab ∨ fab = s.fab) :
    Kept m z ⟨pending, regs, out, freeCtr, time, clk, sched, host, svc, fw, flash, recipe, tab, txf, txns, fd, cnt, brg, buf, lif,
      mem, fab⟩ := by
  subst h1 h2 h3 h4
  exact h.trans ⟨rfl, List.prefix_rfl, id, Nat.le_of_eq h5.symm, Nat.le_refl _, .inr rfl, .inr rfl, t0, t1, t2, t3, t4, t5, t6, t7, t8,
    t9, t10, t11, t12, t13, t14, t15, t16, t17, t18⟩

theorem kept_ite {c : Prop} [Decidable c] {a b : State} (ha : Kept m z a) (hb : Kept m z b) : Kept m z (if c then a else b) := by
  split
  · exact ha
  · exact hb

theorem kept_foldl {α : Type} {l : List α} {f : State → α → State} (h : Kept m z s) (hf : ∀ t x, Kept m z t → Kept m z (f t x)) :
    Kept m z (l.foldl f s) := by
  induction l generalizing s with
  | nil => exact h
  | cons x l ih => exact ih (hf s x h)

/-! ### Answers that hold a state -/

def Kept2 {α : Type} (m : Mask) (z : State) (p : α × State) : Prop := Kept m z p.2
def Kept1 {α : Type} (m : Mask) (z : State) (p : State × α) : Prop := Kept m z p.1
def Kept3 {α β : Type} (m : Mask) (z : State) (p : α × β × State) : Prop := Kept m z p.2.2
structure KeptO (m : Mask) (z : State) (o : Option State) : Prop where
  all : ∀ t, o = some t → Kept m z t
structure KeptO2 {α : Type} (m : Mask) (z : State) (o : Option (α × State)) : Prop where
  all : ∀ p, o = some p → Kept m z p.2
structure KeptO3 {α β : Type} (m : Mask) (z : State) (o : Option (α × β × State)) : Prop where
  all : ∀ p, o = some p → Kept m z p.2.2
structure KeptE {α : Type} (m : Mask) (z : State) (o : Except α State) : Prop where
  all : ∀ t, o = .ok t → Kept m z t
structure KeptX (m : Mask) (z : State) (o : Host.Outcome State Fault Refusal) : Prop where
  all : ∀ t, o = .next t → Kept m z t

theorem kept2_mk {α : Type} {a : α} (h : Kept m z s) : Kept2 m z (a, s) := h
theorem kept1_mk {α : Type} {a : α} (h : Kept m z s) : Kept1 m z (s, a) := h
theorem kept3_mk {α β : Type} {a : α} {b : β} (h : Kept m z s) : Kept3 m z (a, b, s) := h
theorem keptO_some (h : Kept m z s) : KeptO m z (some s) := ⟨fun _ e => Option.some.inj e ▸ h⟩
theorem keptO_none : KeptO m z none := ⟨fun _ e => nomatch e⟩
theorem keptO2_some {α : Type} {a : α} (h : Kept m z s) : KeptO2 m z (some (a, s)) := ⟨fun _ e => Option.some.inj e ▸ h⟩
theorem keptO2_none {α : Type} : KeptO2 (α := α) m z none := ⟨fun _ e => nomatch e⟩
theorem keptO3_some {α β : Type} {a : α} {b : β} (h : Kept m z s) : KeptO3 m z (some (a, b, s)) := ⟨fun _ e => Option.some.inj e ▸ h⟩
theorem keptO3_none {α β : Type} : KeptO3 (α := α) (β := β) m z none := ⟨fun _ e => nomatch e⟩
theorem keptE_ok {α : Type} (h : Kept m z s) : KeptE (α := α) m z (.ok s) := ⟨fun _ e => Except.ok.inj e ▸ h⟩
theorem keptE_error {α : Type} {a : α} : KeptE m z (.error a) := ⟨fun _ e => nomatch e⟩
theorem keptX_ok (h : Kept m z s) : KeptX m z (ok s) := ⟨fun _ e => Host.Outcome.next.inj e ▸ h⟩

theorem kept2_proj {α : Type} {p : α × State} (h : Kept2 m z p) : Kept m z p.2 := h
theorem kept1_proj {α : Type} {p : State × α} (h : Kept1 m z p) : Kept m z p.1 := h
theorem kept3_proj {α β : Type} {p : α × β × State} (h : Kept3 m z p) : Kept m z p.2.2 := h
theorem kept2_eq {α : Type} {p : α × State} {a : α} (e : p = (a, s)) (h : Kept2 m z p) : Kept m z s := by subst e; exact h
theorem kept1_eq {α : Type} {p : State × α} {a : α} (e : p = (s, a)) (h : Kept1 m z p) : Kept m z s := by subst e; exact h
theorem kept3_eq {α β : Type} {p : α × β × State} {a : α} {b : β} (e : p = (a, b, s)) (h : Kept3 m z p) : Kept m z s := by
  subst e; exact h
theorem keptO_eq {o : Option State} (e : o = some s) (h : KeptO m z o) : Kept m z s := h.all _ e
theorem keptO2_eq {α : Type} {o : Option (α × State)} {a : α} (e : o = some (a, s)) (h : KeptO2 m z o) : Kept m z s := h.all _ e
theorem keptO2_eqp {α : Type} {o : Option (α × State)} {p : α × State} (e : o = some p) (h : KeptO2 m z o) : Kept m z p.2 := h.all _ e
theorem keptO3_eq {α β : Type} {o : Option (α × β × State)} {a : α} {b : β} (e : o = some (a, b, s)) (h : KeptO3 m z o) :
    Kept m z s := h.all _ e
theorem keptO3_eqp {α β : Type} {o : Option (α × β × State)} {p : α × β × State} (e : o = some p) (h : KeptO3 m z o) :
    Kept m z p.2.2 := h.all _ e
theorem keptE_eq {α : Type} {o : Except α State} (e : o = .ok s) (h : KeptE m z o) : Kept m z s := h.all _ e

theorem keptO_map {α : Type} {o : Option α} {f : α → State} (h : ∀ i, Kept m z (f i)) : KeptO m z (o.map f) := by
  cases o with
  | none => exact keptO_none
  | some i => exact keptO_some (h i)

theorem keptO_bind {o : Option State} {f : State → Option State} (h : KeptO m z o) (hf : ∀ t, Kept m z t → KeptO m z (f t)) :
    KeptO m z (o.bind f) := by
  cases o with
  | none => exact keptO_none
  | some t => exact hf t (h.all t rfl)

theorem keptO_foldl {α : Type} {l : List α} {f : State → α → Option State} {o : Option State} (h : KeptO m z o)
    (hf : ∀ t x, Kept m z t → KeptO m z (f t x)) : KeptO m z (l.foldl (fun o x => o.bind fun t => f t x) o) := by
  induction l generalizing o with
  | nil => exact h
  | cons x l ih => exact ih (keptO_bind h fun t ht => hf t x ht)

theorem keptO2_map {α β : Type} {o : Option α} {f : α → β × State} (h : ∀ i, Kept2 m z (f i)) : KeptO2 m z (o.map f) := by
  cases o with
  | none => exact keptO2_none
  | some i => exact ⟨fun _ e => Option.some.inj e ▸ h i⟩

theorem keptO2_map2 {α β : Type} {o : Option (α × State)} {f : α × State → β × State} (h : KeptO2 m z o)
    (hf : ∀ r, Kept m z r.2 → Kept2 m z (f r)) : KeptO2 m z (o.map f) := by
  cases o with
  | none => exact keptO2_none
  | some r => exact ⟨fun _ e => Option.some.inj e ▸ hf r (h.all r rfl)⟩

theorem keptO2_map3 {α β γ : Type} {o : Option (α × β × State)} {f : α × β × State → γ × State} (h : KeptO3 m z o)
    (hf : ∀ r, Kept m z r.2.2 → Kept2 m z (f r)) : KeptO2 m z (o.map f) := by
  cases o with
  | none => exact keptO2_none
  | some r => exact ⟨fun _ e => Option.some.inj e ▸ hf r (h.all r rfl)⟩

theorem keptO2_bind {α β : Type} {o : Option (α × State)} {f : α × State → Option (β × State)} (h : KeptO2 m z o)
    (hf : ∀ r, Kept m z r.2 → KeptO2 m z (f r)) : KeptO2 m z (o.bind f) := by
  cases o with
  | none => exact keptO2_none
  | some r => exact hf r (h.all r rfl)

theorem keptO2_foldl {α β : Type} {l : List α} {f : β × State → α → Option (β × State)} {o : Option (β × State)}
    (h : KeptO2 m z o) (hf : ∀ r x, Kept m z r.2 → KeptO2 m z (f r x)) :
    KeptO2 m z (l.foldl (fun o x => o.bind fun r => f r x) o) := by
  induction l generalizing o with
  | nil => exact h
  | cons x l ih => exact ih (keptO2_bind h fun r hr => hf r x hr)

theorem keptO_map1 {o : Option State} {f : State → State} (h : KeptO m z o) (hf : ∀ t, Kept m z t → Kept m z (f t)) :
    KeptO m z (o.map f) := by
  cases o with
  | none => exact keptO_none
  | some t => exact keptO_some (hf t (h.all t rfl))

theorem keptO2_get {α : Type} {p : α × State} (h : KeptO2 m z (some p)) : Kept m z p.2 := h.all p rfl

theorem kept2_foldl {α β : Type} {l : List β} {f : α × State → β → α × State} {p : α × State} (h : Kept2 m z p)
    (hf : ∀ r x, Kept2 m z r → Kept2 m z (f r x)) : Kept2 m z (l.foldl f p) := by
  induction l generalizing p with
  | nil => exact h
  | cons x l ih => exact ih (hf p x h)

theorem keptO_mapO2 {α : Type} {o : Option (α × State)} {f : α × State → State} (h : KeptO2 m z o)
    (hf : ∀ r, Kept m z r.2 → Kept m z (f r)) : KeptO m z (o.map f) := by
  cases o with
  | none => exact keptO_none
  | some r => exact ⟨fun _ e => Option.some.inj e ▸ hf r (h.all r rfl)⟩

theorem keptO_mapO3 {α β : Type} {o : Option (α × β × State)} {f : α × β × State → State} (h : KeptO3 m z o)
    (hf : ∀ r, Kept m z r.2.2 → Kept m z (f r)) : KeptO m z (o.map f) := by
  cases o with
  | none => exact keptO_none
  | some r => exact ⟨fun _ e => Option.some.inj e ▸ hf r (h.all r rfl)⟩

/-! ### The canonical form of sparse lists -/

theorem risingKeys_cons {α : Type} {k : Nat} {v : α} {l : Sparse α} :
    risingKeys ((k, v) :: l) = true ↔ (∀ e ∈ l, k < e.1) ∧ risingKeys l = true := by
  induction l generalizing k v with
  | nil => simp [risingKeys]
  | cons e t ih =>
    obtain ⟨k', v'⟩ := e
    simp only [risingKeys, Bool.and_eq_true, decide_eq_true_eq, List.mem_cons, forall_eq_or_imp]
    constructor
    · rintro ⟨h, hr⟩
      exact ⟨⟨h, fun e he => Nat.lt_trans h ((ih.mp hr).1 e he)⟩, hr⟩
    · rintro ⟨⟨h, _⟩, hr⟩
      exact ⟨h, hr⟩

theorem risingKeys_filter {α : Type} {p : Nat × α → Bool} {l : Sparse α} (h : risingKeys l = true) : risingKeys (l.filter p) = true := by
  induction l with
  | nil => exact h
  | cons e t ih =>
    obtain ⟨k, v⟩ := e
    obtain ⟨h1, h2⟩ := risingKeys_cons.mp h
    simp only [List.filter_cons]
    split
    · exact risingKeys_cons.mpr ⟨fun e he => h1 e (List.mem_filter.mp he).1, ih h2⟩
    · exact ih h2

theorem mem_mins {α : Type} {l : Sparse α} {k : Nat} {v : α} {e : Nat × α} (h : e ∈ mins l k v) : e = (k, v) ∨ e ∈ l := by
  induction l with
  | nil => simpa [mins] using h
  | cons x t ih =>
    obtain ⟨k', v'⟩ := x
    simp only [mins] at h
    split at h
    · simpa using h
    · rcases List.mem_cons.mp h with h | h
      · exact .inr (h ▸ List.mem_cons_self ..)
      · rcases ih h with h | h
        · exact .inl h
        · exact .inr (List.mem_cons_of_mem _ h)

theorem risingKeys_mins {α : Type} {l : Sparse α} {k : Nat} {v : α} (h : risingKeys l = true) (hk : ∀ e ∈ l, e.1 ≠ k) :
    risingKeys (mins l k v) = true := by
  induction l with
  | nil => rfl
  | cons x t ih =>
    obtain ⟨k', v'⟩ := x
    obtain ⟨h1, h2⟩ := risingKeys_cons.mp h
    simp only [mins]
    split
    · rename_i hlt
      refine risingKeys_cons.mpr ⟨fun e he => ?_, h⟩
      rcases List.mem_cons.mp he with rfl | he
      · exact hlt
      · exact Nat.lt_trans hlt (h1 e he)
    · rename_i hlt
      refine risingKeys_cons.mpr ⟨fun e he => ?_, ih h2 fun e he => hk e (List.mem_cons_of_mem _ he)⟩
      rcases mem_mins he with rfl | he
      · exact Nat.lt_of_le_of_ne (Nat.le_of_not_lt hlt) (hk (k', v') (List.mem_cons_self ..))
      · exact h1 e he

theorem canonical_iff {α : Type} [DecidableEq α] {d : Nat → α} {l : Sparse α} :
    canonical d l = true ↔ risingKeys l = true ∧ ∀ e ∈ l, e.2 ≠ d e.1 := by
  simp [canonical]

theorem canonical_filter {α : Type} [DecidableEq α] {d : Nat → α} {l : Sparse α} {p : Nat × α → Bool} (h : canonical d l = true) :
    canonical d (l.filter p) = true := by
  rw [canonical_iff] at h ⊢
  exact ⟨risingKeys_filter h.1, fun e he => h.2 e (List.mem_filter.mp he).1⟩

/-- A write keeps the canonical form. -/
theorem canonical_swrite {α : Type} [DecidableEq α] {d : Nat → α} {l : Sparse α} {k : Nat} {v : α} (h : canonical d l = true) :
    canonical d (swrite d l k v) = true := by
  unfold swrite
  split
  · exact canonical_filter h
  · rename_i hv
    unfold mput
    have hd : canonical d (mdel l k) = true := canonical_filter h
    rw [canonical_iff] at hd ⊢
    refine ⟨risingKeys_mins hd.1 fun e he => by simpa [mdel] using (List.mem_filter.mp he).2, fun e he => ?_⟩
    rcases mem_mins he with rfl | he
    · exact hv
    · exact hd.2 e he

/-! ### The primitive operations -/

theorem State.wrWord_kept {a w} (hregs : m.regs) (h : Kept m z s) : Kept m z (s.wrWord a w) :=
  h.trans ⟨rfl, List.prefix_rfl, canonical_swrite, Nat.le_refl _, Nat.le_refl _, .inl hregs, .inr rfl, .inr rfl, .inr rfl, .inr rfl, .inr rfl,
    .inr rfl, .inr rfl, .inr rfl, .inr rfl, .inr rfl, .inr rfl, .inr rfl, .inr rfl, .inr rfl, .inr rfl, .inr rfl, .inr rfl, .inr rfl,
    .inr rfl, .inr rfl⟩

theorem State.emit_kept {o} (hout : m.out) (h : Kept m z s) : Kept m z (s.emit o) :=
  h.trans ⟨rfl, List.prefix_append .., id, Nat.le_refl _, Nat.le_refl _, .inr rfl, .inl hout, .inr rfl, .inr rfl, .inr rfl, .inr rfl,
    .inr rfl, .inr rfl, .inr rfl, .inr rfl, .inr rfl, .inr rfl, .inr rfl, .inr rfl, .inr rfl, .inr rfl, .inr rfl, .inr rfl, .inr rfl,
    .inr rfl, .inr rfl⟩

/-- Registers replaced by a filtered list of themselves. -/
theorem kept_filter {p : Nat × Word → Bool} (hregs : m.regs) (h : Kept m z s) : Kept m z { s with regs := s.regs.filter p } :=
  h.trans ⟨rfl, List.prefix_rfl, canonical_filter, Nat.le_refl _, Nat.le_refl _, .inl hregs, .inr rfl, .inr rfl, .inr rfl, .inr rfl, .inr rfl,
    .inr rfl, .inr rfl, .inr rfl, .inr rfl, .inr rfl, .inr rfl, .inr rfl, .inr rfl, .inr rfl, .inr rfl, .inr rfl, .inr rfl, .inr rfl,
    .inr rfl, .inr rfl⟩

theorem State.resetRegs_kept {a b keep} (hregs : m.regs) (h : Kept m z s) : Kept m z (s.resetRegs a b keep) := kept_filter hregs h

theorem State.free_kept (h : Kept m z s) : Kept2 m z s.free :=
  h.trans ⟨rfl, List.prefix_rfl, id, Nat.le_refl _, Nat.le_succ _, .inr rfl, .inr rfl, .inr rfl, .inr rfl, .inr rfl, .inr rfl,
    .inr rfl, .inr rfl, .inr rfl, .inr rfl, .inr rfl, .inr rfl, .inr rfl, .inr rfl, .inr rfl, .inr rfl, .inr rfl, .inr rfl, .inr rfl,
    .inr rfl, .inr rfl⟩

theorem State.onlyIf_kept {c : Bool} {f : State → State} (h : Kept m z s) (hf : ∀ t, Kept m z t → Kept m z (f t)) :
    Kept m z (s.onlyIf c f) := by
  unfold State.onlyIf
  split
  · exact hf s h
  · exact h

theorem State.each_kept {α : Type} {l : List α} {f : α → State → State} (h : Kept m z s)
    (hf : ∀ x t, Kept m z t → Kept m z (f x t)) : Kept m z (s.each l f) :=
  kept_foldl h fun t x => hf x t

end Sys2Proof.Machine
end

