-- ==== Sys2Proof/Laws/KeptOps.lean ====
section
/-!
SUPPORT. Laws/KeptOps.lean: what the operations of Machine/Ops.lean keep (Laws/Kept.lean).
-/

namespace Sys2Proof.Machine

set_option linter.all false

variable {m : Mask} {z s : State}

theorem State.wr_kept {a1 a2} (hregs : m.regs) (h : Kept m z s) : Kept m z (State.wr s a1 a2) := by
  unfold State.wr
  repeat' first
    | with_reducible assumption
    | intro _
    | with_reducible apply State.wrWord_kept

theorem State.wrBit_kept {a1 a2} (hregs : m.regs) (h : Kept m z s) : Kept m z (State.wrBit s a1 a2) := by
  unfold State.wrBit
  repeat' first
    | with_reducible assumption
    | intro _
    | with_reducible apply State.wr_kept

theorem State.count_kept {a1 a2} (hregs : m.regs) (h : Kept m z s) : Kept m z (State.count s a1 a2) := by
  unfold State.count
  repeat' first
    | with_reducible assumption
    | intro _
    | with_reducible apply State.wr_kept

theorem State.bump_kept {a1} (hregs : m.regs) (h : Kept m z s) : Kept m z (State.bump s a1) := by
  unfold State.bump
  repeat' first
    | with_reducible assumption
    | intro _
    | with_reducible apply State.count_kept

theorem State.less_kept {a1 a2} (hregs : m.regs) (h : Kept m z s) : Kept m z (State.less s a1 a2) := by
  unfold State.less
  repeat' first
    | with_reducible assumption
    | intro _
    | with_reducible apply State.wr_kept

theorem State.wr64_kept {a1 a2 a3} (hregs : m.regs) (h : Kept m z s) : Kept m z (State.wr64 s a1 a2 a3) := by
  unfold State.wr64
  repeat' first
    | with_reducible assumption
    | intro _
    | with_reducible apply State.wr_kept

theorem State.raiseVec_kept {a1 a2} (hout : m.out) (hhost : m.host) (h : Kept m z s) : Kept m z (State.raiseVec s a1
    a2) := by
  unfold State.raiseVec
  repeat' first
    | with_reducible assumption
    | intro _
    | subst x
    | (extract_lets +onlyGivenNames x; have hx : Kept m z x := ?_; clear_value x)
    | (extract_lets +onlyGivenNames x; have hx : Kept2 m z x := ?_; clear_value x)
    | (extract_lets +onlyGivenNames x; have hx : KeptO m z x := ?_; clear_value x)
    | (extract_lets +onlyGivenNames x; clear_value x)
    | (extract_lets +onlyGivenNames w; revert w; intro w0)
    | with_reducible apply kept_ite
    | with_reducible apply State.emit_kept
    | with_reducible apply kept2_mk
    | with_reducible apply keptO_some
    | with_reducible apply keptO_none
    | with_reducible exact keptO2_get (by with_reducible assumption)
    | (with_reducible refine kept2_eq (by with_reducible assumption) ?_)
    | (with_reducible apply kept2_proj; first | with_reducible assumption | with_reducible apply kept2_foldl)
    | (with_reducible refine keptO_eq (by with_reducible assumption) ?_)
    | with_reducible apply kept_foldl
    | split
    | dsimp -zeta only
    | (with_reducible refine kept_mk rfl ?_ rfl rfl rfl rfl ?_ ?_ ?_ ?_ ?_ ?_ ?_ ?_ ?_ ?_ ?_ ?_ ?_ ?_ ?_ ?_ ?_ ?_ ?_ <;> first | with_reducible exact Or.inr rfl | exact Or.inl (by assumption) | with_reducible assumption | with_reducible exact keptO2_get (by with_reducible assumption) | (with_reducible refine kept2_eq (by with_reducible assumption) ?_) | (with_reducible refine keptO_eq (by with_reducible assumption) ?_) | with_reducible apply State.emit_kept)

theorem State.queueEvent_kept {a1 a2} (hhost : m.host) (h : Kept m z s) : Kept m z (State.queueEvent s a1 a2) := by
  unfold State.queueEvent
  repeat' first
    | with_reducible assumption
    | intro _
    | subst x
    | (extract_lets +onlyGivenNames x; have hx : Kept m z x := ?_; clear_value x)
    | (extract_lets +onlyGivenNames x; have hx : Kept2 m z x := ?_; clear_value x)
    | (extract_lets +onlyGivenNames x; have hx : KeptO m z x := ?_; clear_value x)
    | (extract_lets +onlyGivenNames x; clear_value x)
    | (extract_lets +onlyGivenNames w; revert w; intro w0)
    | with_reducible apply kept_ite
    | with_reducible apply kept2_mk
    | with_reducible apply keptO_some
    | with_reducible apply keptO_none
    | with_reducible exact keptO2_get (by with_reducible assumption)
    | (with_reducible refine kept2_eq (by with_reducible assumption) ?_)
    | (with_reducible apply kept2_proj; first | with_reducible assumption | with_reducible apply kept2_foldl)
    | (with_reducible refine keptO_eq (by with_reducible assumption) ?_)
    | with_reducible apply kept_foldl
    | split
    | dsimp -zeta only
    | (with_reducible refine kept_mk rfl ?_ rfl rfl rfl rfl ?_ ?_ ?_ ?_ ?_ ?_ ?_ ?_ ?_ ?_ ?_ ?_ ?_ ?_ ?_ ?_ ?_ ?_ ?_ <;> first | with_reducible exact Or.inr rfl | exact Or.inl (by assumption) | with_reducible assumption | with_reducible exact keptO2_get (by with_reducible assumption) | (with_reducible refine kept2_eq (by with_reducible assumption) ?_) | (with_reducible refine keptO_eq (by with_reducible assumption) ?_))

theorem State.eventOn_kept {a1 a2 a3 a4} (hregs : m.regs) (hout : m.out) (hhost : m.host) (h : Kept m z s) : Kept m z
    (State.eventOn s a1 a2 a3 a4) := by
  unfold State.eventOn
  repeat' first
    | with_reducible assumption
    | intro _
    | subst x
    | (extract_lets +onlyGivenNames x; have hx : Kept m z x := ?_; clear_value x)
    | (extract_lets +onlyGivenNames x; have hx : KeptO m z x := ?_; clear_value x)
    | (extract_lets +onlyGivenNames x; clear_value x)
    | (extract_lets +onlyGivenNames w; revert w; intro w0)
    | with_reducible apply kept_ite
    | with_reducible apply State.queueEvent_kept
    | with_reducible apply State.raiseVec_kept
    | with_reducible apply State.wr_kept
    | split
    | dsimp -zeta only

theorem State.event_kept {a1 a2} (hregs : m.regs) (hout : m.out) (hhost : m.host) (h : Kept m z s) : Kept m z
    (State.event s a1 a2) := by
  unfold State.event
  repeat' first
    | with_reducible assumption
    | intro _
    | with_reducible apply kept_ite
    | with_reducible apply State.eventOn_kept
    | split

theorem State.lateErrAs_kept {a1 a2 a3 a4 a5 a6 a7} (hregs : m.regs) (hout : m.out) (hhost : m.host) (h : Kept m z s) :
    Kept m z (State.lateErrAs s a1 a2 a3 a4 a5 a6 a7) := by
  unfold State.lateErrAs
  repeat' first
    | with_reducible assumption
    | intro _
    | subst x
    | (extract_lets +onlyGivenNames x; have hx : Kept m z x := ?_; clear_value x)
    | (extract_lets +onlyGivenNames x; clear_value x)
    | (extract_lets +onlyGivenNames w; revert w; intro w0)
    | with_reducible apply kept_ite
    | with_reducible apply State.raiseVec_kept
    | with_reducible apply State.wr_kept
    | with_reducible apply State.wrWord_kept
    | split
    | dsimp -zeta only

theorem State.lateErr_kept {a1 a2 a3 a4 a5} (hregs : m.regs) (hout : m.out) (hhost : m.host) (h : Kept m z s) : Kept m
    z (State.lateErr s a1 a2 a3 a4 a5) := by
  unfold State.lateErr
  repeat' first
    | with_reducible assumption
    | intro _
    | with_reducible apply State.lateErrAs_kept

theorem State.secLog_kept {a1 a2 a3 a4 a5} (hregs : m.regs) (h : Kept m z s) : Kept m z (State.secLog s a1 a2 a3 a4 a5)
    := by
  unfold State.secLog
  repeat' first
    | with_reducible assumption
    | intro _
    | subst x
    | (extract_lets +onlyGivenNames x; have hx : Kept m z x := ?_; clear_value x)
    | (extract_lets +onlyGivenNames x; clear_value x)
    | (extract_lets +onlyGivenNames w; revert w; intro w0)
    | with_reducible apply kept_ite
    | with_reducible apply State.wr_kept
    | with_reducible apply State.wr64_kept
    | with_reducible apply State.wrWord_kept
    | split
    | dsimp -zeta only

theorem State.sendCtl_kept {a1 a2 a3} (hfab : m.fab) (h : Kept m z s) : Kept m z (State.sendCtl s a1 a2 a3) := by
  unfold State.sendCtl
  repeat' first
    | with_reducible assumption
    | intro _
    | subst x
    | (extract_lets +onlyGivenNames x; have hx : Kept m z x := ?_; clear_value x)
    | (extract_lets +onlyGivenNames x; have hx : Kept2 m z x := ?_; clear_value x)
    | (extract_lets +onlyGivenNames x; have hx : KeptO m z x := ?_; clear_value x)
    | (extract_lets +onlyGivenNames x; clear_value x)
    | (extract_lets +onlyGivenNames w; revert w; intro w0)
    | with_reducible apply kept_ite
    | with_reducible apply kept2_mk
    | with_reducible apply keptO_some
    | with_reducible apply keptO_none
    | with_reducible exact keptO2_get (by with_reducible assumption)
    | (with_reducible refine kept2_eq (by with_reducible assumption) ?_)
    | (with_reducible apply kept2_proj; first | with_reducible assumption | with_reducible apply kept2_foldl)
    | (with_reducible refine keptO_eq (by with_reducible assumption) ?_)
    | with_reducible apply kept_foldl
    | split
    | dsimp -zeta only
    | (with_reducible refine kept_mk rfl ?_ rfl rfl rfl rfl ?_ ?_ ?_ ?_ ?_ ?_ ?_ ?_ ?_ ?_ ?_ ?_ ?_ ?_ ?_ ?_ ?_ ?_ ?_ <;> first | with_reducible exact Or.inr rfl | exact Or.inl (by assumption) | with_reducible assumption | with_reducible exact keptO2_get (by with_reducible assumption) | (with_reducible refine kept2_eq (by with_reducible assumption) ?_) | (with_reducible refine keptO_eq (by with_reducible assumption) ?_))

theorem State.completeWith_kept {a1 a2 a3 a4} (hregs : m.regs) (hhost : m.host) (hfab : m.fab) (h : Kept m z s) : Kept
    m z (State.completeWith s a1 a2 a3 a4) := by
  unfold State.completeWith
  repeat' first
    | with_reducible assumption
    | intro _
    | subst x
    | (extract_lets +onlyGivenNames x; have hx : Kept m z x := ?_; clear_value x)
    | (extract_lets +onlyGivenNames x; have hx : Kept2 m z x := ?_; clear_value x)
    | (extract_lets +onlyGivenNames x; have hx : KeptO m z x := ?_; clear_value x)
    | (extract_lets +onlyGivenNames x; clear_value x)
    | (extract_lets +onlyGivenNames w; revert w; intro w0)
    | with_reducible apply kept_ite
    | with_reducible apply State.bump_kept
    | with_reducible apply State.sendCtl_kept
    | with_reducible apply kept2_mk
    | with_reducible apply keptO_some
    | with_reducible apply keptO_none
    | with_reducible exact keptO2_get (by with_reducible assumption)
    | (with_reducible refine kept2_eq (by with_reducible assumption) ?_)
    | (with_reducible apply kept2_proj; first | with_reducible assumption | with_reducible apply kept2_foldl)
    | (with_reducible refine keptO_eq (by with_reducible assumption) ?_)
    | with_reducible apply kept_foldl
    | split
    | dsimp -zeta only
    | (with_reducible refine kept_mk rfl ?_ rfl rfl rfl rfl ?_ ?_ ?_ ?_ ?_ ?_ ?_ ?_ ?_ ?_ ?_ ?_ ?_ ?_ ?_ ?_ ?_ ?_ ?_ <;> first | with_reducible exact Or.inr rfl | exact Or.inl (by assumption) | with_reducible assumption | with_reducible exact keptO2_get (by with_reducible assumption) | (with_reducible refine kept2_eq (by with_reducible assumption) ?_) | (with_reducible refine keptO_eq (by with_reducible assumption) ?_) | with_reducible apply State.bump_kept | with_reducible apply State.sendCtl_kept)

theorem State.complete_kept {a1 a2} (hregs : m.regs) (hhost : m.host) (hfab : m.fab) (h : Kept m z s) : Kept m z
    (State.complete s a1 a2) := by
  unfold State.complete
  repeat' first
    | with_reducible assumption
    | intro _
    | with_reducible apply State.completeWith_kept

theorem State.accepted_kept {a1 a2} (hregs : m.regs) (hhost : m.host) (hfab : m.fab) (h : Kept m z s) : Kept m z
    (State.accepted s a1 a2) := by
  unfold State.accepted
  repeat' first
    | with_reducible assumption
    | intro _
    | with_reducible apply State.completeWith_kept

theorem State.completeOpt_kept {a1 a2} (hregs : m.regs) (hhost : m.host) (hfab : m.fab) (h : Kept m z s) : Kept m z
    (State.completeOpt s a1 a2) := by
  unfold State.completeOpt
  repeat' first
    | with_reducible assumption
    | intro _
    | with_reducible apply State.complete_kept
    | split

theorem State.refuse_kept {a1 a2 a3 a4} (hregs : m.regs) (hhost : m.host) (hfab : m.fab) (h : Kept m z s) : Kept m z
    (State.refuse s a1 a2 a3 a4) := by
  unfold State.refuse
  repeat' first
    | with_reducible assumption
    | intro _
    | subst x
    | (extract_lets +onlyGivenNames x; have hx : Kept m z x := ?_; clear_value x)
    | (extract_lets +onlyGivenNames x; have hx : Kept2 m z x := ?_; clear_value x)
    | (extract_lets +onlyGivenNames x; have hx : KeptO m z x := ?_; clear_value x)
    | (extract_lets +onlyGivenNames x; clear_value x)
    | (extract_lets +onlyGivenNames w; revert w; intro w0)
    | with_reducible apply kept_ite
    | with_reducible apply State.complete_kept
    | with_reducible apply State.secLog_kept
    | with_reducible apply kept2_mk
    | with_reducible apply keptO_some
    | with_reducible apply keptO_none
    | with_reducible exact keptO2_get (by with_reducible assumption)
    | (with_reducible refine kept2_eq (by with_reducible assumption) ?_)
    | (with_reducible apply kept2_proj; first | with_reducible assumption | with_reducible apply kept2_foldl)
    | (with_reducible refine keptO_eq (by with_reducible assumption) ?_)
    | with_reducible apply kept_foldl
    | split
    | dsimp -zeta only
    | (with_reducible refine kept_mk rfl ?_ rfl rfl rfl rfl ?_ ?_ ?_ ?_ ?_ ?_ ?_ ?_ ?_ ?_ ?_ ?_ ?_ ?_ ?_ ?_ ?_ ?_ ?_ <;> first | with_reducible exact Or.inr rfl | exact Or.inl (by assumption) | with_reducible assumption | with_reducible exact keptO2_get (by with_reducible assumption) | (with_reducible refine kept2_eq (by with_reducible assumption) ?_) | (with_reducible refine keptO_eq (by with_reducible assumption) ?_) | with_reducible apply State.complete_kept | with_reducible apply State.secLog_kept)

theorem State.fillWindow_kept {a1 a2} (hsvc : m.svc) (h : Kept m z s) : Kept m z (State.fillWindow s a1 a2) := by
  unfold State.fillWindow
  extract_lets +onlyGivenNames w
  clear_value w
  with_reducible refine kept_mk rfl ?_ rfl rfl rfl rfl ?_ ?_ ?_ ?_ ?_ ?_ ?_ ?_ ?_ ?_ ?_ ?_ ?_ ?_ ?_ ?_ ?_ ?_ ?_ <;>
    first | with_reducible exact Or.inr rfl | exact Or.inl (by assumption) | with_reducible assumption

theorem State.takeTrims_kept {a1} (hsvc : m.svc) (h : Kept m z s) : Kept m z (State.takeTrims s a1) := by
  unfold State.takeTrims
  repeat' first
    | with_reducible assumption
    | intro _
    | subst x
    | (extract_lets +onlyGivenNames x; have hx : Kept m z x := ?_; clear_value x)
    | (extract_lets +onlyGivenNames x; have hx : Kept2 m z x := ?_; clear_value x)
    | (extract_lets +onlyGivenNames x; have hx : KeptO m z x := ?_; clear_value x)
    | (extract_lets +onlyGivenNames x; clear_value x)
    | (extract_lets +onlyGivenNames w; revert w; intro w0)
    | with_reducible apply kept_ite
    | with_reducible apply kept2_mk
    | with_reducible apply keptO_some
    | with_reducible apply keptO_none
    | with_reducible exact keptO2_get (by with_reducible assumption)
    | (with_reducible refine kept2_eq (by with_reducible assumption) ?_)
    | (with_reducible apply kept2_proj; first | with_reducible assumption | with_reducible apply kept2_foldl)
    | (with_reducible refine keptO_eq (by with_reducible assumption) ?_)
    | with_reducible apply kept_foldl
    | split
    | dsimp -zeta only
    | (with_reducible refine kept_mk rfl ?_ rfl rfl rfl rfl ?_ ?_ ?_ ?_ ?_ ?_ ?_ ?_ ?_ ?_ ?_ ?_ ?_ ?_ ?_ ?_ ?_ ?_ ?_ <;> first | with_reducible exact Or.inr rfl | exact Or.inl (by assumption) | with_reducible assumption | with_reducible exact keptO2_get (by with_reducible assumption) | (with_reducible refine kept2_eq (by with_reducible assumption) ?_) | (with_reducible refine keptO_eq (by with_reducible assumption) ?_))

theorem State.takeDelays_kept {a1 a2} (hsvc : m.svc) (h : Kept m z s) : Kept m z (State.takeDelays s a1 a2) := by
  unfold State.takeDelays
  repeat' first
    | with_reducible assumption
    | intro _
    | subst x
    | (extract_lets +onlyGivenNames x; have hx : Kept m z x := ?_; clear_value x)
    | (extract_lets +onlyGivenNames x; have hx : Kept2 m z x := ?_; clear_value x)
    | (extract_lets +onlyGivenNames x; have hx : KeptO m z x := ?_; clear_value x)
    | (extract_lets +onlyGivenNames x; clear_value x)
    | (extract_lets +onlyGivenNames w; revert w; intro w0)
    | with_reducible apply kept_ite
    | with_reducible apply kept2_mk
    | with_reducible apply keptO_some
    | with_reducible apply keptO_none
    | with_reducible exact keptO2_get (by with_reducible assumption)
    | (with_reducible refine kept2_eq (by with_reducible assumption) ?_)
    | (with_reducible apply kept2_proj; first | with_reducible assumption | with_reducible apply kept2_foldl)
    | (with_reducible refine keptO_eq (by with_reducible assumption) ?_)
    | with_reducible apply kept_foldl
    | split
    | dsimp -zeta only
    | (with_reducible refine kept_mk rfl ?_ rfl rfl rfl rfl ?_ ?_ ?_ ?_ ?_ ?_ ?_ ?_ ?_ ?_ ?_ ?_ ?_ ?_ ?_ ?_ ?_ ?_ ?_ <;> first | with_reducible exact Or.inr rfl | exact Or.inl (by assumption) | with_reducible assumption | with_reducible exact keptO2_get (by with_reducible assumption) | (with_reducible refine kept2_eq (by with_reducible assumption) ?_) | (with_reducible refine keptO_eq (by with_reducible assumption) ?_))

theorem State.acceptWrite_kept {a1} (hregs : m.regs) (h : Kept m z s) : Kept m z (State.acceptWrite s a1) := by
  unfold State.acceptWrite
  repeat' first
    | with_reducible assumption
    | intro _
    | with_reducible apply kept_ite
    | with_reducible apply State.wr_kept
    | split

theorem State.checkedWrite_kept {a1 a2 a3 a4 k5} (hregs : m.regs) (hout : m.out) (hhost : m.host) (h : Kept m z s) (hk5
    : ∀ t, Kept m z t → Kept m z (k5 t)) : Kept m z (State.checkedWrite s a1 a2 a3 a4 k5) := by
  unfold State.checkedWrite
  repeat' first
    | with_reducible assumption
    | intro _
    | subst x
    | (extract_lets +onlyGivenNames x; have hx : Kept m z x := ?_; clear_value x)
    | (extract_lets +onlyGivenNames x; clear_value x)
    | (extract_lets +onlyGivenNames w; revert w; intro w0)
    | with_reducible apply hk5
    | with_reducible apply kept_ite
    | with_reducible apply State.lateErr_kept
    | with_reducible apply State.secLog_kept
    | split
    | dsimp -zeta only

theorem State.coreAccess_kept {a1 a2 k3} (hsvc : m.svc) (h : Kept m z s) (hk3 : ∀ t, Kept m z t → Kept m z (k3 t)) :
    Kept m z (State.coreAccess s a1 a2 k3) := by
  unfold State.coreAccess
  repeat' first
    | with_reducible assumption
    | intro _
    | subst x
    | (extract_lets +onlyGivenNames x; have hx : Kept m z x := ?_; clear_value x)
    | (extract_lets +onlyGivenNames x; have hx : Kept2 m z x := ?_; clear_value x)
    | (extract_lets +onlyGivenNames x; have hx : KeptO m z x := ?_; clear_value x)
    | (extract_lets +onlyGivenNames x; clear_value x)
    | (extract_lets +onlyGivenNames w; revert w; intro w0)
    | with_reducible apply hk3
    | with_reducible apply kept_ite
    | with_reducible apply kept2_mk
    | with_reducible apply keptO_some
    | with_reducible apply keptO_none
    | with_reducible exact keptO2_get (by with_reducible assumption)
    | (with_reducible refine kept2_eq (by with_reducible assumption) ?_)
    | (with_reducible apply kept2_proj; first | with_reducible assumption | with_reducible apply kept2_foldl)
    | (with_reducible refine keptO_eq (by with_reducible assumption) ?_)
    | with_reducible apply kept_foldl
    | split
    | dsimp -zeta only
    | (with_reducible refine kept_mk rfl ?_ rfl rfl rfl rfl ?_ ?_ ?_ ?_ ?_ ?_ ?_ ?_ ?_ ?_ ?_ ?_ ?_ ?_ ?_ ?_ ?_ ?_ ?_ <;> first | with_reducible exact Or.inr rfl | exact Or.inl (by assumption) | with_reducible assumption | with_reducible exact keptO2_get (by with_reducible assumption) | (with_reducible refine kept2_eq (by with_reducible assumption) ?_) | (with_reducible refine keptO_eq (by with_reducible assumption) ?_) | with_reducible apply hk3)

theorem State.hostWrite_kept {a1 a2 a3 a4 k5} (hregs : m.regs) (hout : m.out) (hhost : m.host) (h : Kept m z s) (hk5 :
    ∀ t, Kept m z t → Kept m z (k5 t)) : Kept m z (State.hostWrite s a1 a2 a3 a4 k5) := by
  unfold State.hostWrite
  repeat' first
    | with_reducible assumption
    | intro _
    | with_reducible apply hk5
    | with_reducible apply kept_ite
    | with_reducible apply State.acceptWrite_kept
    | with_reducible apply State.checkedWrite_kept
    | split

theorem State.hostRead_kept {a1 a2 k3} (hregs : m.regs) (hout : m.out) (hhost : m.host) (h : Kept m z s) (hk3 : ∀ t,
    Kept m z t → Kept m z (k3 t)) : Kept m z (State.hostRead s a1 a2 k3) := by
  unfold State.hostRead
  repeat' first
    | with_reducible assumption
    | intro _
    | subst x
    | (extract_lets +onlyGivenNames x; have hx : Kept m z x := ?_; clear_value x)
    | (extract_lets +onlyGivenNames x; have hx : Kept2 m z x := ?_; clear_value x)
    | (extract_lets +onlyGivenNames x; have hx : KeptO m z x := ?_; clear_value x)
    | (extract_lets +onlyGivenNames x; clear_value x)
    | (extract_lets +onlyGivenNames w; revert w; intro w0)
    | with_reducible apply hk3
    | with_reducible apply kept_ite
    | with_reducible apply State.emit_kept
    | with_reducible apply State.lateErr_kept
    | with_reducible apply State.secLog_kept
    | with_reducible apply kept2_mk
    | with_reducible apply keptO_some
    | with_reducible apply keptO_none
    | with_reducible exact keptO2_get (by with_reducible assumption)
    | (with_reducible refine kept2_eq (by with_reducible assumption) ?_)
    | (with_reducible apply kept2_proj; first | with_reducible assumption | with_reducible apply kept2_foldl)
    | (with_reducible refine keptO_eq (by with_reducible assumption) ?_)
    | with_reducible apply kept_foldl
    | split
    | dsimp -zeta only
    | (with_reducible refine kept_mk rfl ?_ rfl rfl rfl rfl ?_ ?_ ?_ ?_ ?_ ?_ ?_ ?_ ?_ ?_ ?_ ?_ ?_ ?_ ?_ ?_ ?_ ?_ ?_ <;> first | with_reducible exact Or.inr rfl | exact Or.inl (by assumption) | with_reducible assumption | with_reducible exact keptO2_get (by with_reducible assumption) | (with_reducible refine kept2_eq (by with_reducible assumption) ?_) | (with_reducible refine keptO_eq (by with_reducible assumption) ?_) | with_reducible apply hk3 | with_reducible apply State.emit_kept | with_reducible apply State.lateErr_kept | with_reducible apply State.secLog_kept)

theorem State.mergeReg_kept {a1 a2 a3} (hregs : m.regs) (h : Kept m z s) : Kept m z (State.mergeReg s a1 a2 a3) := by
  unfold State.mergeReg
  repeat' first
    | with_reducible assumption
    | intro _
    | with_reducible apply State.wrWord_kept
    | split

theorem State.setLc_kept {a1 a2} (hregs : m.regs) (hout : m.out) (hhost : m.host) (h : Kept m z s) : Kept m z
    (State.setLc s a1 a2) := by
  unfold State.setLc
  repeat' first
    | with_reducible assumption
    | intro _
    | with_reducible apply kept_ite
    | with_reducible apply State.event_kept
    | with_reducible apply State.wr_kept
    | split

theorem State.lcWrite_kept {a1 a2 a3} (hregs : m.regs) (hout : m.out) (hhost : m.host) (h : Kept m z s) : Kept m z
    (State.lcWrite s a1 a2 a3) := by
  unfold State.lcWrite
  repeat' first
    | with_reducible assumption
    | intro _
    | subst x
    | (extract_lets +onlyGivenNames x; have hx : Kept m z x := ?_; clear_value x)
    | (extract_lets +onlyGivenNames x; clear_value x)
    | (extract_lets +onlyGivenNames w; revert w; intro w0)
    | with_reducible apply State.setLc_kept
    | with_reducible apply State.wrBit_kept
    | dsimp -zeta only

theorem State.lcEndDrain_kept {a1} (hregs : m.regs) (hout : m.out) (hhost : m.host) (h : Kept m z s) : Kept m z
    (State.lcEndDrain s a1) := by
  unfold State.lcEndDrain
  repeat' first
    | with_reducible assumption
    | intro _
    | subst x
    | (extract_lets +onlyGivenNames x; have hx : Kept m z x := ?_; clear_value x)
    | (extract_lets +onlyGivenNames x; clear_value x)
    | (extract_lets +onlyGivenNames w; revert w; intro w0)
    | with_reducible apply kept_ite
    | with_reducible apply State.setLc_kept
    | with_reducible apply State.wr_kept
    | split
    | dsimp -zeta only

theorem State.svcUpdate_kept (hregs : m.regs) (hout : m.out) (hhost : m.host) (h : Kept m z s) : Kept m z
    (State.svcUpdate s) := by
  unfold State.svcUpdate
  repeat' first
    | with_reducible assumption
    | intro _
    | subst x
    | (extract_lets +onlyGivenNames x; have hx : Kept m z x := ?_; clear_value x)
    | (extract_lets +onlyGivenNames x; clear_value x)
    | (extract_lets +onlyGivenNames w; revert w; intro w0)
    | with_reducible apply kept_ite
    | with_reducible apply State.event_kept
    | with_reducible apply State.wr_kept
    | with_reducible apply State.wrBit_kept
    | split
    | dsimp -zeta only

theorem State.errLog_kept {a1 a2 a3 a4 a5} (hregs : m.regs) (h : Kept m z s) : Kept m z (State.errLog s a1 a2 a3 a4 a5)
    := by
  unfold State.errLog
  repeat' first
    | with_reducible assumption
    | intro _
    | subst x
    | (extract_lets +onlyGivenNames x; have hx : Kept m z x := ?_; clear_value x)
    | (extract_lets +onlyGivenNames x; clear_value x)
    | (extract_lets +onlyGivenNames w; revert w; intro w0)
    | with_reducible apply State.onlyIf_kept
    | with_reducible apply State.wr_kept
    | with_reducible apply State.wr64_kept
    | with_reducible apply State.wrWord_kept
    | split
    | dsimp -zeta only

theorem State.uncorrectable_kept {a1 a2 a3 a4} (hregs : m.regs) (hout : m.out) (hhost : m.host) (hmem : m.mem) (h :
    Kept m z s) : Kept m z (State.uncorrectable s a1 a2 a3 a4) := by
  unfold State.uncorrectable
  repeat' first
    | with_reducible assumption
    | intro _
    | subst x
    | (extract_lets +onlyGivenNames x; have hx : Kept m z x := ?_; clear_value x)
    | (extract_lets +onlyGivenNames x; have hx : Kept2 m z x := ?_; clear_value x)
    | (extract_lets +onlyGivenNames x; have hx : KeptO m z x := ?_; clear_value x)
    | (extract_lets +onlyGivenNames x; clear_value x)
    | (extract_lets +onlyGivenNames w; revert w; intro w0)
    | with_reducible apply kept_ite
    | with_reducible apply State.bump_kept
    | with_reducible apply State.errLog_kept
    | with_reducible apply State.eventOn_kept
    | with_reducible apply kept2_mk
    | with_reducible apply keptO_some
    | with_reducible apply keptO_none
    | with_reducible exact keptO2_get (by with_reducible assumption)
    | (with_reducible refine kept2_eq (by with_reducible assumption) ?_)
    | (with_reducible apply kept2_proj; first | with_reducible assumption | with_reducible apply kept2_foldl)
    | (with_reducible refine keptO_eq (by with_reducible assumption) ?_)
    | with_reducible apply kept_foldl
    | split
    | dsimp -zeta only
    | (with_reducible refine kept_mk rfl ?_ rfl rfl rfl rfl ?_ ?_ ?_ ?_ ?_ ?_ ?_ ?_ ?_ ?_ ?_ ?_ ?_ ?_ ?_ ?_ ?_ ?_ ?_ <;> first | with_reducible exact Or.inr rfl | exact Or.inl (by assumption) | with_reducible assumption | with_reducible exact keptO2_get (by with_reducible assumption) | (with_reducible refine kept2_eq (by with_reducible assumption) ?_) | (with_reducible refine keptO_eq (by with_reducible assumption) ?_) | with_reducible apply State.bump_kept | with_reducible apply State.errLog_kept | with_reducible apply State.eventOn_kept)

end Sys2Proof.Machine
end

