-- ==== Sys2Proof/Laws/KeptAsmOps.lean ====
section
/-!
SUPPORT. Laws/KeptAsmOps.lean: what the operations of Machine/AsmOps.lean keep (Laws/Kept.lean).
-/

namespace Sys2Proof.Machine

set_option linter.all false

variable {m : Mask} {z s : State}

theorem State.blockSync_kept (hregs : m.regs) (h : Kept m z s) : Kept m z (State.blockSync s) := by
  unfold State.blockSync
  repeat' first
    | with_reducible assumption
    | intro _
    | with_reducible apply State.wr_kept
    | with_reducible apply kept_foldl

theorem State.syncAsm_kept {a1} (hregs : m.regs) (h : Kept m z s) : Kept m z (State.syncAsm s a1) := by
  unfold State.syncAsm
  repeat' first
    | with_reducible assumption
    | intro _
    | subst x
    | (extract_lets +onlyGivenNames x; have hx : Kept m z x := ?_; clear_value x)
    | (extract_lets +onlyGivenNames x; clear_value x)
    | (extract_lets +onlyGivenNames w; revert w; intro w0)
    | with_reducible apply State.blockSync_kept
    | with_reducible apply State.each_kept
    | with_reducible apply State.wr_kept
    | with_reducible apply State.wrBit_kept
    | with_reducible apply State.wrWord_kept
    | with_reducible apply kept_foldl
    | split
    | dsimp -zeta only

theorem State.strike_kept {a1} (htab : m.tab) (h : Kept m z s) : Kept m z (State.strike s a1) := by
  unfold State.strike
  repeat' first
    | with_reducible assumption
    | intro _
    | subst x
    | (extract_lets +onlyGivenNames x; have hx : Kept m z x := ?_; clear_value x)
    | (extract_lets +onlyGivenNames x; have hx : Kept2 m z x := ?_; clear_value x)
    | (extract_lets +onlyGivenNames x; have hx : KeptO m z x := ?_; clear_value x)
    | (extract_lets +onlyGivenNames x; clear_value x)
    | (extract_lets +onlyGivenNames w; revert w; intro w0)
    | with_reducible apply kept_ite
    | with_reducible apply kept2_mk
    | with_reducible apply keptO_some
    | with_reducible apply keptO_none
    | with_reducible exact keptO2_get (by with_reducible assumption)
    | (with_reducible refine kept2_eq (by with_reducible assumption) ?_)
    | (with_reducible apply kept2_proj; first | with_reducible assumption | with_reducible apply kept2_foldl)
    | (with_reducible refine keptO_eq (by with_reducible assumption) ?_)
    | with_reducible apply kept_foldl
    | split
    | dsimp -zeta only
    | (with_reducible refine kept_mk rfl ?_ rfl rfl rfl rfl ?_ ?_ ?_ ?_ ?_ ?_ ?_ ?_ ?_ ?_ ?_ ?_ ?_ ?_ ?_ ?_ ?_ ?_ ?_ <;> first | with_reducible exact Or.inr rfl | exact Or.inl (by assumption) | with_reducible assumption | with_reducible exact keptO2_get (by with_reducible assumption) | (with_reducible refine kept2_eq (by with_reducible assumption) ?_) | (with_reducible refine keptO_eq (by with_reducible assumption) ?_))

theorem State.mend_kept {a1 a2} (htab : m.tab) (h : Kept m z s) : Kept m z (State.mend s a1 a2) := by
  unfold State.mend
  repeat' first
    | with_reducible assumption
    | intro _
    | subst x
    | (extract_lets +onlyGivenNames x; have hx : Kept m z x := ?_; clear_value x)
    | (extract_lets +onlyGivenNames x; have hx : Kept2 m z x := ?_; clear_value x)
    | (extract_lets +onlyGivenNames x; have hx : KeptO m z x := ?_; clear_value x)
    | (extract_lets +onlyGivenNames x; clear_value x)
    | (extract_lets +onlyGivenNames w; revert w; intro w0)
    | with_reducible apply kept_ite
    | with_reducible apply kept2_mk
    | with_reducible apply keptO_some
    | with_reducible apply keptO_none
    | with_reducible exact keptO2_get (by with_reducible assumption)
    | (with_reducible refine kept2_eq (by with_reducible assumption) ?_)
    | (with_reducible apply kept2_proj; first | with_reducible assumption | with_reducible apply kept2_foldl)
    | (with_reducible refine keptO_eq (by with_reducible assumption) ?_)
    | with_reducible apply kept_foldl
    | split
    | dsimp -zeta only
    | (with_reducible refine kept_mk rfl ?_ rfl rfl rfl rfl ?_ ?_ ?_ ?_ ?_ ?_ ?_ ?_ ?_ ?_ ?_ ?_ ?_ ?_ ?_ ?_ ?_ ?_ ?_ <;> first | with_reducible exact Or.inr rfl | exact Or.inl (by assumption) | with_reducible assumption | with_reducible exact keptO2_get (by with_reducible assumption) | (with_reducible refine kept2_eq (by with_reducible assumption) ?_) | (with_reducible refine keptO_eq (by with_reducible assumption) ?_))

theorem State.rewriteAsm_kept {a1} (htab : m.tab) (h : Kept m z s) : Kept m z (State.rewriteAsm s a1) := by
  unfold State.rewriteAsm
  repeat' first
    | with_reducible assumption
    | intro _
    | subst x
    | (extract_lets +onlyGivenNames x; have hx : Kept m z x := ?_; clear_value x)
    | (extract_lets +onlyGivenNames x; have hx : Kept2 m z x := ?_; clear_value x)
    | (extract_lets +onlyGivenNames x; have hx : KeptO m z x := ?_; clear_value x)
    | (extract_lets +onlyGivenNames x; clear_value x)
    | (extract_lets +onlyGivenNames w; revert w; intro w0)
    | with_reducible apply kept_ite
    | with_reducible apply kept2_mk
    | with_reducible apply keptO_some
    | with_reducible apply keptO_none
    | with_reducible exact keptO2_get (by with_reducible assumption)
    | (with_reducible refine kept2_eq (by with_reducible assumption) ?_)
    | (with_reducible apply kept2_proj; first | with_reducible assumption | with_reducible apply kept2_foldl)
    | (with_reducible refine keptO_eq (by with_reducible assumption) ?_)
    | with_reducible apply kept_foldl
    | split
    | dsimp -zeta only
    | (with_reducible refine kept_mk rfl ?_ rfl rfl rfl rfl ?_ ?_ ?_ ?_ ?_ ?_ ?_ ?_ ?_ ?_ ?_ ?_ ?_ ?_ ?_ ?_ ?_ ?_ ?_ <;> first | with_reducible exact Or.inr rfl | exact Or.inl (by assumption) | with_reducible assumption | with_reducible exact keptO2_get (by with_reducible assumption) | (with_reducible refine kept2_eq (by with_reducible assumption) ?_) | (with_reducible refine keptO_eq (by with_reducible assumption) ?_))

theorem State.setAsm_kept {a1 a2} (hregs : m.regs) (htab : m.tab) (h : Kept m z s) : Kept m z (State.setAsm s a1 a2) :=
    by
  unfold State.setAsm
  repeat' first
    | with_reducible assumption
    | intro _
    | subst x
    | (extract_lets +onlyGivenNames x; have hx : Kept m z x := ?_; clear_value x)
    | (extract_lets +onlyGivenNames x; have hx : Kept2 m z x := ?_; clear_value x)
    | (extract_lets +onlyGivenNames x; have hx : KeptO m z x := ?_; clear_value x)
    | (extract_lets +onlyGivenNames x; clear_value x)
    | (extract_lets +onlyGivenNames w; revert w; intro w0)
    | with_reducible apply kept_ite
    | with_reducible apply State.rewriteAsm_kept
    | with_reducible apply State.syncAsm_kept
    | with_reducible apply kept2_mk
    | with_reducible apply keptO_some
    | with_reducible apply keptO_none
    | with_reducible exact keptO2_get (by with_reducible assumption)
    | (with_reducible refine kept2_eq (by with_reducible assumption) ?_)
    | (with_reducible apply kept2_proj; first | with_reducible assumption | with_reducible apply kept2_foldl)
    | (with_reducible refine keptO_eq (by with_reducible assumption) ?_)
    | with_reducible apply kept_foldl
    | split
    | dsimp -zeta only

theorem State.countReads_kept {a1} (hregs : m.regs) (hout : m.out) (hhost : m.host) (hmem : m.mem) (h : Kept m z s) :
    Kept m z (State.countReads s a1) := by
  unfold State.countReads
  repeat' first
    | with_reducible assumption
    | intro _
    | with_reducible apply kept_ite
    | with_reducible apply State.bump_kept
    | with_reducible apply State.each_kept
    | with_reducible apply State.uncorrectable_kept
    | split

theorem State.mendEntry_kept {a1} (htab : m.tab) (h : Kept m z s) : Kept m z (State.mendEntry s a1) := by
  unfold State.mendEntry
  repeat' first
    | with_reducible assumption
    | intro _
    | with_reducible apply State.mend_kept

theorem State.mendEmpty_kept {a1 a2} (htab : m.tab) (h : Kept m z s) : Kept m z (State.mendEmpty s a1 a2) := by
  unfold State.mendEmpty
  repeat' first
    | with_reducible assumption
    | intro _
    | with_reducible apply State.each_kept
    | with_reducible apply State.mend_kept
    | with_reducible apply State.onlyIf_kept

theorem State.rewrite_kept {a1 a2 a3 a4 a5 a6} (htab : m.tab) (h : Kept m z s) : Kept m z (State.rewrite s a1 a2 a3 a4
    a5 a6) := by
  unfold State.rewrite
  repeat' first
    | with_reducible assumption
    | intro _
    | subst x
    | (extract_lets +onlyGivenNames x; have hx : Kept m z x := ?_; clear_value x)
    | (extract_lets +onlyGivenNames x; have hx : Kept2 m z x := ?_; clear_value x)
    | (extract_lets +onlyGivenNames x; have hx : KeptO m z x := ?_; clear_value x)
    | (extract_lets +onlyGivenNames x; clear_value x)
    | (extract_lets +onlyGivenNames w; revert w; intro w0)
    | with_reducible apply kept_ite
    | with_reducible apply State.each_kept
    | with_reducible apply State.mend_kept
    | with_reducible apply State.mendEmpty_kept
    | with_reducible apply State.mendEntry_kept
    | with_reducible apply State.onlyIf_kept
    | with_reducible apply kept2_mk
    | with_reducible apply keptO_some
    | with_reducible apply keptO_none
    | with_reducible exact keptO2_get (by with_reducible assumption)
    | (with_reducible refine kept2_eq (by with_reducible assumption) ?_)
    | (with_reducible apply kept2_proj; first | with_reducible assumption | with_reducible apply kept2_foldl)
    | (with_reducible refine keptO_eq (by with_reducible assumption) ?_)
    | with_reducible apply kept_foldl
    | split
    | dsimp -zeta only

theorem State.countPlaced_kept {a1} (hregs : m.regs) (h : Kept m z s) : Kept m z (State.countPlaced s a1) := by
  unfold State.countPlaced
  repeat' first
    | with_reducible assumption
    | intro _
    | with_reducible apply State.count_kept

end Sys2Proof.Machine
end

