-- ==== Sys2Proof/Laws/KeptCount.lean ====
section
/-!
SUPPORT. Laws/KeptCount.lean: what the operations of Machine/Count.lean keep (Laws/Kept.lean).
-/

namespace Sys2Proof.Machine

set_option linter.all false

variable {m : Mask} {z s : State}

theorem State.setCtr_kept {a1 a2} (hcnt : m.cnt) (h : Kept m z s) : Kept m z (State.setCtr s a1 a2) := by
  unfold State.setCtr
  repeat' first
    | with_reducible assumption
    | intro _
    | subst x
    | (extract_lets +onlyGivenNames x; have hx : Kept m z x := ?_; clear_value x)
    | (extract_lets +onlyGivenNames x; have hx : Kept2 m z x := ?_; clear_value x)
    | (extract_lets +onlyGivenNames x; have hx : KeptO m z x := ?_; clear_value x)
    | (extract_lets +onlyGivenNames x; clear_value x)
    | (extract_lets +onlyGivenNames w; revert w; intro w0)
    | with_reducible apply kept_ite
    | with_reducible apply kept2_mk
    | with_reducible apply keptO_some
    | with_reducible apply keptO_none
    | with_reducible exact keptO2_get (by with_reducible assumption)
    | (with_reducible refine kept2_eq (by with_reducible assumption) ?_)
    | (with_reducible apply kept2_proj; first | with_reducible assumption | with_reducible apply kept2_foldl)
    | (with_reducible refine keptO_eq (by with_reducible assumption) ?_)
    | with_reducible apply kept_foldl
    | split
    | dsimp -zeta only
    | (with_reducible refine kept_mk rfl ?_ rfl rfl rfl rfl ?_ ?_ ?_ ?_ ?_ ?_ ?_ ?_ ?_ ?_ ?_ ?_ ?_ ?_ ?_ ?_ ?_ ?_ ?_ <;> first | with_reducible exact Or.inr rfl | exact Or.inl (by assumption) | with_reducible assumption | with_reducible exact keptO2_get (by with_reducible assumption) | (with_reducible refine kept2_eq (by with_reducible assumption) ?_) | (with_reducible refine keptO_eq (by with_reducible assumption) ?_))

theorem State.countAs_kept {a1 a2 a3 a4 a5 a6} (hregs : m.regs) (hcnt : m.cnt) (h : Kept m z s) : Kept m z
    (State.countAs s a1 a2 a3 a4 a5 a6) := by
  unfold State.countAs
  repeat' first
    | with_reducible assumption
    | intro _
    | subst x
    | (extract_lets +onlyGivenNames x; have hx : Kept m z x := ?_; clear_value x)
    | (extract_lets +onlyGivenNames x; have hx : Kept2 m z x := ?_; clear_value x)
    | (extract_lets +onlyGivenNames x; have hx : KeptO m z x := ?_; clear_value x)
    | (extract_lets +onlyGivenNames x; clear_value x)
    | (extract_lets +onlyGivenNames w; revert w; intro w0)
    | with_reducible apply kept_ite
    | with_reducible apply State.bump_kept
    | with_reducible apply State.onlyIf_kept
    | with_reducible apply State.setCtr_kept
    | with_reducible apply kept2_mk
    | with_reducible apply keptO_some
    | with_reducible apply keptO_none
    | with_reducible exact keptO2_get (by with_reducible assumption)
    | (with_reducible refine kept2_eq (by with_reducible assumption) ?_)
    | (with_reducible apply kept2_proj; first | with_reducible assumption | with_reducible apply kept2_foldl)
    | (with_reducible refine keptO_eq (by with_reducible assumption) ?_)
    | with_reducible apply kept_foldl
    | split
    | dsimp -zeta only
    | (with_reducible refine kept_mk rfl ?_ rfl rfl rfl rfl ?_ ?_ ?_ ?_ ?_ ?_ ?_ ?_ ?_ ?_ ?_ ?_ ?_ ?_ ?_ ?_ ?_ ?_ ?_ <;> first | with_reducible exact Or.inr rfl | exact Or.inl (by assumption) | with_reducible assumption | with_reducible exact keptO2_get (by with_reducible assumption) | (with_reducible refine kept2_eq (by with_reducible assumption) ?_) | (with_reducible refine keptO_eq (by with_reducible assumption) ?_) | with_reducible apply State.bump_kept | with_reducible apply State.onlyIf_kept | with_reducible apply State.setCtr_kept)

theorem State.countDrop_kept {a1 a2 a3} (hregs : m.regs) (hcnt : m.cnt) (h : Kept m z s) : Kept m z (State.countDrop s
    a1 a2 a3) := by
  unfold State.countDrop
  repeat' first
    | with_reducible assumption
    | intro _
    | with_reducible apply State.countAs_kept

theorem State.dropIngress_kept {a1 a2 a3 a4} (hregs : m.regs) (hcnt : m.cnt) (h : Kept m z s) : Kept m z
    (State.dropIngress s a1 a2 a3 a4) := by
  unfold State.dropIngress
  repeat' first
    | with_reducible assumption
    | intro _
    | with_reducible apply State.countAs_kept
    | with_reducible apply State.countDrop_kept

theorem State.dropEgress_kept {a1 a2 a3} (hregs : m.regs) (hcnt : m.cnt) (h : Kept m z s) : Kept m z (State.dropEgress
    s a1 a2 a3) := by
  unfold State.dropEgress
  repeat' first
    | with_reducible assumption
    | intro _
    | with_reducible apply State.countAs_kept
    | with_reducible apply State.countDrop_kept

theorem State.add64_kept {a1 a2 a3} (hregs : m.regs) (h : Kept m z s) : Kept m z (State.add64 s a1 a2 a3) := by
  unfold State.add64
  repeat' first
    | with_reducible assumption
    | intro _
    | with_reducible apply State.wr64_kept

theorem State.askSample_kept {a1 a2 a3} (hregs : m.regs) (hcnt : m.cnt) (h : Kept m z s) : Kept m z (State.askSample s
    a1 a2 a3) := by
  unfold State.askSample
  repeat' first
    | with_reducible assumption
    | intro _
    | subst x
    | (extract_lets +onlyGivenNames x; have hx : Kept m z x := ?_; clear_value x)
    | (extract_lets +onlyGivenNames x; have hx : Kept2 m z x := ?_; clear_value x)
    | (extract_lets +onlyGivenNames x; have hx : KeptO m z x := ?_; clear_value x)
    | (extract_lets +onlyGivenNames x; clear_value x)
    | (extract_lets +onlyGivenNames w; revert w; intro w0)
    | with_reducible apply kept_ite
    | with_reducible apply State.bump_kept
    | with_reducible apply kept2_mk
    | with_reducible apply keptO_some
    | with_reducible apply keptO_none
    | with_reducible exact keptO2_get (by with_reducible assumption)
    | (with_reducible refine kept2_eq (by with_reducible assumption) ?_)
    | (with_reducible apply kept2_proj; first | with_reducible assumption | with_reducible apply kept2_foldl)
    | (with_reducible refine keptO_eq (by with_reducible assumption) ?_)
    | with_reducible apply kept_foldl
    | split
    | dsimp -zeta only
    | (with_reducible refine kept_mk rfl ?_ rfl rfl rfl rfl ?_ ?_ ?_ ?_ ?_ ?_ ?_ ?_ ?_ ?_ ?_ ?_ ?_ ?_ ?_ ?_ ?_ ?_ ?_ <;> first | with_reducible exact Or.inr rfl | exact Or.inl (by assumption) | with_reducible assumption | with_reducible exact keptO2_get (by with_reducible assumption) | (with_reducible refine kept2_eq (by with_reducible assumption) ?_) | (with_reducible refine keptO_eq (by with_reducible assumption) ?_) | with_reducible apply State.bump_kept)

theorem State.bumpPmu_kept {a1 a2 a3 a4 a5} (hregs : m.regs) (hcnt : m.cnt) (h : Kept m z s) : Kept m z (State.bumpPmu
    s a1 a2 a3 a4 a5) := by
  unfold State.bumpPmu
  repeat' first
    | with_reducible assumption
    | intro _
    | subst x
    | (extract_lets +onlyGivenNames x; have hx : Kept m z x := ?_; clear_value x)
    | (extract_lets +onlyGivenNames x; clear_value x)
    | (extract_lets +onlyGivenNames w; revert w; intro w0)
    | with_reducible apply kept_ite
    | with_reducible apply State.askSample_kept
    | with_reducible apply State.onlyIf_kept
    | with_reducible apply State.wr64_kept
    | split
    | dsimp -zeta only

theorem State.pmuAs_kept {a1 a2 a3 a4 a5 a6 a7} (hregs : m.regs) (hcnt : m.cnt) (h : Kept m z s) : Kept m z
    (State.pmuAs s a1 a2 a3 a4 a5 a6 a7) := by
  unfold State.pmuAs
  repeat' first
    | with_reducible assumption
    | intro _
    | with_reducible apply kept_ite
    | with_reducible apply State.bumpPmu_kept
    | with_reducible apply State.each_kept
    | split

theorem State.pmuFd_kept {a1 a2 a3} (hregs : m.regs) (hcnt : m.cnt) (h : Kept m z s) : Kept m z (State.pmuFd s a1 a2
    a3) := by
  unfold State.pmuFd
  repeat' first
    | with_reducible assumption
    | intro _
    | with_reducible apply State.pmuAs_kept

theorem State.pmuTd_kept {a1 a2 a3} (hregs : m.regs) (hcnt : m.cnt) (h : Kept m z s) : Kept m z (State.pmuTd s a1 a2
    a3) := by
  unfold State.pmuTd
  repeat' first
    | with_reducible assumption
    | intro _
    | with_reducible apply State.pmuAs_kept

theorem State.accountSlots_kept {a1 a2 a3 a4} (hregs : m.regs) (hcnt : m.cnt) (h : Kept m z s) : Kept m z
    (State.accountSlots s a1 a2 a3 a4) := by
  unfold State.accountSlots
  repeat' first
    | with_reducible assumption
    | intro _
    | subst x
    | (extract_lets +onlyGivenNames x; have hx : Kept m z x := ?_; clear_value x)
    | (extract_lets +onlyGivenNames x; clear_value x)
    | (extract_lets +onlyGivenNames w; revert w; intro w0)
    | with_reducible apply kept_ite
    | with_reducible apply State.add64_kept
    | with_reducible apply State.each_kept
    | with_reducible apply State.pmuAs_kept
    | split
    | dsimp -zeta only

theorem State.starve_kept {a1 a2 a3} (hregs : m.regs) (hcnt : m.cnt) (h : Kept m z s) : Kept m z (State.starve s a1 a2
    a3) := by
  unfold State.starve
  repeat' first
    | with_reducible assumption
    | intro _
    | subst x
    | (extract_lets +onlyGivenNames x; have hx : Kept m z x := ?_; clear_value x)
    | (extract_lets +onlyGivenNames x; clear_value x)
    | (extract_lets +onlyGivenNames w; revert w; intro w0)
    | with_reducible apply kept_ite
    | with_reducible apply State.add64_kept
    | with_reducible apply State.pmuAs_kept
    | split
    | dsimp -zeta only

theorem State.cycles_kept {a1} (hregs : m.regs) (hcnt : m.cnt) (h : Kept m z s) : Kept m z (State.cycles s a1) := by
  unfold State.cycles
  repeat' first
    | with_reducible assumption
    | intro _
    | subst x
    | (extract_lets +onlyGivenNames x; have hx : Kept m z x := ?_; clear_value x)
    | (extract_lets +onlyGivenNames x; have hx : Kept2 m z x := ?_; clear_value x)
    | (extract_lets +onlyGivenNames x; have hx : KeptO m z x := ?_; clear_value x)
    | (extract_lets +onlyGivenNames x; clear_value x)
    | (extract_lets +onlyGivenNames w; revert w; intro w0)
    | with_reducible apply kept_ite
    | with_reducible apply State.add64_kept
    | with_reducible apply State.each_kept
    | with_reducible apply State.onlyIf_kept
    | with_reducible apply State.pmuAs_kept
    | with_reducible apply State.pmuTd_kept
    | with_reducible apply kept2_mk
    | with_reducible apply keptO_some
    | with_reducible apply keptO_none
    | with_reducible exact keptO2_get (by with_reducible assumption)
    | (with_reducible refine kept2_eq (by with_reducible assumption) ?_)
    | (with_reducible apply kept2_proj; first | with_reducible assumption | with_reducible apply kept2_foldl)
    | (with_reducible refine keptO_eq (by with_reducible assumption) ?_)
    | with_reducible apply kept_foldl
    | split
    | dsimp -zeta only
    | (with_reducible refine kept_mk rfl ?_ rfl rfl rfl rfl ?_ ?_ ?_ ?_ ?_ ?_ ?_ ?_ ?_ ?_ ?_ ?_ ?_ ?_ ?_ ?_ ?_ ?_ ?_ <;> first | with_reducible exact Or.inr rfl | exact Or.inl (by assumption) | with_reducible assumption | with_reducible exact keptO2_get (by with_reducible assumption) | (with_reducible refine kept2_eq (by with_reducible assumption) ?_) | (with_reducible refine keptO_eq (by with_reducible assumption) ?_) | with_reducible apply State.add64_kept | with_reducible apply State.each_kept | with_reducible apply State.onlyIf_kept | with_reducible apply State.pmuAs_kept | with_reducible apply State.pmuTd_kept)

end Sys2Proof.Machine
end

