-- ==== Sys2Proof/Laws/KeptStripe.lean ====
section
/-!
SUPPORT. Laws/KeptStripe.lean: what the operations of Machine/Stripe.lean keep (Laws/Kept.lean).
-/

namespace Sys2Proof.Machine

set_option linter.all false

variable {m : Mask} {z s : State}

theorem State.putSegs_kept {a1 a2 a3 a4} (hmem : m.mem) (h : Kept m z s) : Kept m z (State.putSegs s a1 a2 a3 a4) := by
  unfold State.putSegs
  repeat' first
    | with_reducible assumption
    | intro _
    | subst x
    | (extract_lets +onlyGivenNames x; have hx : Kept m z x := ?_; clear_value x)
    | (extract_lets +onlyGivenNames x; have hx : Kept2 m z x := ?_; clear_value x)
    | (extract_lets +onlyGivenNames x; have hx : KeptO m z x := ?_; clear_value x)
    | (extract_lets +onlyGivenNames x; clear_value x)
    | (extract_lets +onlyGivenNames w; revert w; intro w0)
    | with_reducible apply kept_ite
    | with_reducible apply kept2_mk
    | with_reducible apply keptO_some
    | with_reducible apply keptO_none
    | with_reducible exact keptO2_get (by with_reducible assumption)
    | (with_reducible refine kept2_eq (by with_reducible assumption) ?_)
    | (with_reducible apply kept2_proj; first | with_reducible assumption | with_reducible apply kept2_foldl)
    | (with_reducible refine keptO_eq (by with_reducible assumption) ?_)
    | with_reducible apply kept_foldl
    | split
    | dsimp -zeta only
    | (with_reducible refine kept_mk rfl ?_ rfl rfl rfl rfl ?_ ?_ ?_ ?_ ?_ ?_ ?_ ?_ ?_ ?_ ?_ ?_ ?_ ?_ ?_ ?_ ?_ ?_ ?_ <;> first | with_reducible exact Or.inr rfl | exact Or.inl (by assumption) | with_reducible assumption | with_reducible exact keptO2_get (by with_reducible assumption) | (with_reducible refine kept2_eq (by with_reducible assumption) ?_) | (with_reducible refine keptO_eq (by with_reducible assumption) ?_))

theorem State.strikeStripe_kept {a1 a2 a3} (hmem : m.mem) (h : Kept m z s) : Kept m z (State.strikeStripe s a1 a2 a3)
    := by
  unfold State.strikeStripe
  repeat' first
    | with_reducible assumption
    | intro _
    | with_reducible apply kept_ite
    | with_reducible apply State.putSegs_kept
    | split

end Sys2Proof.Machine
end

