-- ==== Sys2Proof/Laws/KeptRanks.lean ====
section
/-!
SUPPORT. Laws/KeptRanks.lean: what the operations of Machine/Ranks.lean keep (Laws/Kept.lean).
-/

namespace Sys2Proof.Machine

set_option linter.all false

variable {m : Mask} {z s : State}

theorem State.stripeWritten_kept {a1} (hregs : m.regs) (hcnt : m.cnt) (h : Kept m z s) : Kept m z (State.stripeWritten
    s a1) := by
  unfold State.stripeWritten
  repeat' first
    | with_reducible assumption
    | intro _
    | with_reducible apply State.add64_kept
    | with_reducible apply State.pmuTd_kept

theorem State.stripeRead_kept {a1} (hregs : m.regs) (hcnt : m.cnt) (h : Kept m z s) : Kept m z (State.stripeRead s a1)
    := by
  unfold State.stripeRead
  repeat' first
    | with_reducible assumption
    | intro _
    | with_reducible apply State.add64_kept
    | with_reducible apply State.pmuTd_kept

theorem State.countSpares_kept {a1} (hregs : m.regs) (h : Kept m z s) : Kept m z (State.countSpares s a1) := by
  unfold State.countSpares
  repeat' first
    | with_reducible assumption
    | intro _
    | subst x
    | (extract_lets +onlyGivenNames x; have hx : Kept m z x := ?_; clear_value x)
    | (extract_lets +onlyGivenNames x; clear_value x)
    | (extract_lets +onlyGivenNames w; revert w; intro w0)
    | with_reducible apply State.wr_kept
    | dsimp -zeta only

theorem State.showMigration_kept {a1} (hregs : m.regs) (h : Kept m z s) : Kept m z (State.showMigration s a1) := by
  unfold State.showMigration
  repeat' first
    | with_reducible assumption
    | intro _
    | with_reducible apply State.wr_kept
    | split

theorem State.journalRole_kept {a1 a2 a3 a4} (hmem : m.mem) (h : Kept m z s) : Kept m z (State.journalRole s a1 a2 a3
    a4) := by
  unfold State.journalRole
  repeat' first
    | with_reducible assumption
    | intro _
    | subst x
    | (extract_lets +onlyGivenNames x; have hx : Kept m z x := ?_; clear_value x)
    | (extract_lets +onlyGivenNames x; have hx : Kept2 m z x := ?_; clear_value x)
    | (extract_lets +onlyGivenNames x; have hx : KeptO m z x := ?_; clear_value x)
    | (extract_lets +onlyGivenNames x; clear_value x)
    | (extract_lets +onlyGivenNames w; revert w; intro w0)
    | with_reducible apply kept_ite
    | with_reducible apply kept2_mk
    | with_reducible apply keptO_some
    | with_reducible apply keptO_none
    | with_reducible exact keptO2_get (by with_reducible assumption)
    | (with_reducible refine kept2_eq (by with_reducible assumption) ?_)
    | (with_reducible apply kept2_proj; first | with_reducible assumption | with_reducible apply kept2_foldl)
    | (with_reducible refine keptO_eq (by with_reducible assumption) ?_)
    | with_reducible apply kept_foldl
    | split
    | dsimp -zeta only
    | (with_reducible refine kept_mk rfl ?_ rfl rfl rfl rfl ?_ ?_ ?_ ?_ ?_ ?_ ?_ ?_ ?_ ?_ ?_ ?_ ?_ ?_ ?_ ?_ ?_ ?_ ?_ <;> first | with_reducible exact Or.inr rfl | exact Or.inl (by assumption) | with_reducible assumption | with_reducible exact keptO2_get (by with_reducible assumption) | (with_reducible refine kept2_eq (by with_reducible assumption) ?_) | (with_reducible refine keptO_eq (by with_reducible assumption) ?_))

theorem State.journalErased_kept {a1 a2 a3} (hmem : m.mem) (h : Kept m z s) : Kept m z (State.journalErased s a1 a2 a3)
    := by
  unfold State.journalErased
  repeat' first
    | with_reducible assumption
    | intro _
    | subst x
    | (extract_lets +onlyGivenNames x; have hx : Kept m z x := ?_; clear_value x)
    | (extract_lets +onlyGivenNames x; have hx : Kept2 m z x := ?_; clear_value x)
    | (extract_lets +onlyGivenNames x; have hx : KeptO m z x := ?_; clear_value x)
    | (extract_lets +onlyGivenNames x; clear_value x)
    | (extract_lets +onlyGivenNames w; revert w; intro w0)
    | with_reducible apply kept_ite
    | with_reducible apply kept2_mk
    | with_reducible apply keptO_some
    | with_reducible apply keptO_none
    | with_reducible exact keptO2_get (by with_reducible assumption)
    | (with_reducible refine kept2_eq (by with_reducible assumption) ?_)
    | (with_reducible apply kept2_proj; first | with_reducible assumption | with_reducible apply kept2_foldl)
    | (with_reducible refine keptO_eq (by with_reducible assumption) ?_)
    | with_reducible apply kept_foldl
    | split
    | dsimp -zeta only
    | (with_reducible refine kept_mk rfl ?_ rfl rfl rfl rfl ?_ ?_ ?_ ?_ ?_ ?_ ?_ ?_ ?_ ?_ ?_ ?_ ?_ ?_ ?_ ?_ ?_ ?_ ?_ <;> first | with_reducible exact Or.inr rfl | exact Or.inl (by assumption) | with_reducible assumption | with_reducible exact keptO2_get (by with_reducible assumption) | (with_reducible refine kept2_eq (by with_reducible assumption) ?_) | (with_reducible refine keptO_eq (by with_reducible assumption) ?_))

theorem State.retireRank_kept {a1 a2} (hregs : m.regs) (hout : m.out) (hhost : m.host) (hmem : m.mem) (h : Kept m z s)
    : Kept m z (State.retireRank s a1 a2) := by
  unfold State.retireRank
  repeat' first
    | with_reducible assumption
    | intro _
    | subst x
    | (extract_lets +onlyGivenNames x; have hx : Kept m z x := ?_; clear_value x)
    | (extract_lets +onlyGivenNames x; have hx : Kept2 m z x := ?_; clear_value x)
    | (extract_lets +onlyGivenNames x; have hx : KeptO m z x := ?_; clear_value x)
    | (extract_lets +onlyGivenNames x; clear_value x)
    | (extract_lets +onlyGivenNames w; revert w; intro w0)
    | with_reducible apply kept_ite
    | with_reducible apply State.countSpares_kept
    | with_reducible apply State.errLog_kept
    | with_reducible apply State.eventOn_kept
    | with_reducible apply State.journalErased_kept
    | with_reducible apply State.journalRole_kept
    | with_reducible apply State.setLc_kept
    | with_reducible apply State.showMigration_kept
    | with_reducible apply State.wr_kept
    | with_reducible apply kept2_mk
    | with_reducible apply keptO_some
    | with_reducible apply keptO_none
    | with_reducible exact keptO2_get (by with_reducible assumption)
    | (with_reducible refine kept2_eq (by with_reducible assumption) ?_)
    | (with_reducible apply kept2_proj; first | with_reducible assumption | with_reducible apply kept2_foldl)
    | (with_reducible refine keptO_eq (by with_reducible assumption) ?_)
    | with_reducible apply kept_foldl
    | split
    | dsimp -zeta only
    | (with_reducible refine kept_mk rfl ?_ rfl rfl rfl rfl ?_ ?_ ?_ ?_ ?_ ?_ ?_ ?_ ?_ ?_ ?_ ?_ ?_ ?_ ?_ ?_ ?_ ?_ ?_ <;> first | with_reducible exact Or.inr rfl | exact Or.inl (by assumption) | with_reducible assumption | with_reducible exact keptO2_get (by with_reducible assumption) | (with_reducible refine kept2_eq (by with_reducible assumption) ?_) | (with_reducible refine keptO_eq (by with_reducible assumption) ?_) | with_reducible apply State.countSpares_kept | with_reducible apply State.errLog_kept | with_reducible apply State.eventOn_kept | with_reducible apply State.journalErased_kept | with_reducible apply State.journalRole_kept | with_reducible apply State.setLc_kept | with_reducible apply State.showMigration_kept | with_reducible apply State.wr_kept)

theorem State.retireReceiving_kept {a1 a2} (hregs : m.regs) (hout : m.out) (hhost : m.host) (hmem : m.mem) (h : Kept m
    z s) : Kept m z (State.retireReceiving s a1 a2) := by
  unfold State.retireReceiving
  repeat' first
    | with_reducible assumption
    | intro _
    | subst x
    | (extract_lets +onlyGivenNames x; have hx : Kept m z x := ?_; clear_value x)
    | (extract_lets +onlyGivenNames x; have hx : Kept2 m z x := ?_; clear_value x)
    | (extract_lets +onlyGivenNames x; have hx : KeptO m z x := ?_; clear_value x)
    | (extract_lets +onlyGivenNames x; clear_value x)
    | (extract_lets +onlyGivenNames w; revert w; intro w0)
    | with_reducible apply kept_ite
    | with_reducible apply State.countSpares_kept
    | with_reducible apply State.errLog_kept
    | with_reducible apply State.eventOn_kept
    | with_reducible apply State.journalErased_kept
    | with_reducible apply State.journalRole_kept
    | with_reducible apply State.setLc_kept
    | with_reducible apply State.showMigration_kept
    | with_reducible apply State.wr_kept
    | with_reducible apply kept2_mk
    | with_reducible apply keptO_some
    | with_reducible apply keptO_none
    | with_reducible exact keptO2_get (by with_reducible assumption)
    | (with_reducible refine kept2_eq (by with_reducible assumption) ?_)
    | (with_reducible apply kept2_proj; first | with_reducible assumption | with_reducible apply kept2_foldl)
    | (with_reducible refine keptO_eq (by with_reducible assumption) ?_)
    | with_reducible apply kept_foldl
    | split
    | dsimp -zeta only
    | (with_reducible refine kept_mk rfl ?_ rfl rfl rfl rfl ?_ ?_ ?_ ?_ ?_ ?_ ?_ ?_ ?_ ?_ ?_ ?_ ?_ ?_ ?_ ?_ ?_ ?_ ?_ <;> first | with_reducible exact Or.inr rfl | exact Or.inl (by assumption) | with_reducible assumption | with_reducible exact keptO2_get (by with_reducible assumption) | (with_reducible refine kept2_eq (by with_reducible assumption) ?_) | (with_reducible refine keptO_eq (by with_reducible assumption) ?_) | with_reducible apply State.countSpares_kept | with_reducible apply State.errLog_kept | with_reducible apply State.eventOn_kept | with_reducible apply State.journalErased_kept | with_reducible apply State.journalRole_kept | with_reducible apply State.setLc_kept | with_reducible apply State.showMigration_kept | with_reducible apply State.wr_kept)

theorem State.chargeCe_kept {a1 a2} (hregs : m.regs) (hout : m.out) (hhost : m.host) (hmem : m.mem) (h : Kept m z s) :
    Kept m z (State.chargeCe s a1 a2) := by
  unfold State.chargeCe
  repeat' first
    | with_reducible assumption
    | intro _
    | subst x
    | (extract_lets +onlyGivenNames x; have hx : Kept m z x := ?_; clear_value x)
    | (extract_lets +onlyGivenNames x; clear_value x)
    | (extract_lets +onlyGivenNames w; revert w; intro w0)
    | with_reducible apply kept_ite
    | with_reducible apply State.bump_kept
    | with_reducible apply State.retireRank_kept
    | split
    | dsimp -zeta only

theorem State.chargeUe_kept {a1 a2} (hregs : m.regs) (hout : m.out) (hhost : m.host) (hmem : m.mem) (h : Kept m z s) :
    Kept m z (State.chargeUe s a1 a2) := by
  unfold State.chargeUe
  repeat' first
    | with_reducible assumption
    | intro _
    | subst x
    | (extract_lets +onlyGivenNames x; have hx : Kept m z x := ?_; clear_value x)
    | (extract_lets +onlyGivenNames x; clear_value x)
    | (extract_lets +onlyGivenNames w; revert w; intro w0)
    | with_reducible apply kept_ite
    | with_reducible apply State.bump_kept
    | with_reducible apply State.retireRank_kept
    | with_reducible apply State.retireReceiving_kept
    | split
    | dsimp -zeta only

theorem State.readStripe_kept {a1 a2} (hregs : m.regs) (hout : m.out) (hhost : m.host) (hcnt : m.cnt) (hmem : m.mem) (h
    : Kept m z s) : Kept2 m z (State.readStripe s a1 a2) := by
  unfold State.readStripe
  repeat' first
    | with_reducible assumption
    | intro _
    | subst x
    | (extract_lets +onlyGivenNames x; have hx : Kept m z x := ?_; clear_value x)
    | (extract_lets +onlyGivenNames x; have hx : Kept2 m z x := ?_; clear_value x)
    | (extract_lets +onlyGivenNames x; have hx : KeptO m z x := ?_; clear_value x)
    | (extract_lets +onlyGivenNames x; clear_value x)
    | (extract_lets +onlyGivenNames w; revert w; intro w0)
    | with_reducible apply kept_ite
    | with_reducible apply State.bump_kept
    | with_reducible apply State.chargeCe_kept
    | with_reducible apply State.chargeUe_kept
    | with_reducible apply State.each_kept
    | with_reducible apply State.onlyIf_kept
    | with_reducible apply State.stripeRead_kept
    | with_reducible apply State.uncorrectable_kept
    | with_reducible apply kept2_mk
    | with_reducible apply kept2_mk
    | (with_reducible refine kept2_eq (by with_reducible assumption) ?_)
    | (with_reducible apply kept2_proj; first | with_reducible assumption | with_reducible apply kept2_foldl)
    | split
    | dsimp -zeta only

theorem State.writeStripe_kept {a1 a2 a3 a4} (hregs : m.regs) (hcnt : m.cnt) (hmem : m.mem) (h : Kept m z s) : Kept m z
    (State.writeStripe s a1 a2 a3 a4) := by
  unfold State.writeStripe
  repeat' first
    | with_reducible assumption
    | intro _
    | with_reducible apply State.putSegs_kept
    | with_reducible apply State.stripeWritten_kept

theorem State.mergeStripe_kept {a1 a2 a3 a4} (hregs : m.regs) (hout : m.out) (hhost : m.host) (hcnt : m.cnt) (hmem :
    m.mem) (h : Kept m z s) : Kept m z (State.mergeStripe s a1 a2 a3 a4) := by
  unfold State.mergeStripe
  repeat' first
    | with_reducible assumption
    | intro _
    | subst x
    | (extract_lets +onlyGivenNames x; have hx : Kept m z x := ?_; clear_value x)
    | (extract_lets +onlyGivenNames x; have hx : Kept2 m z x := ?_; clear_value x)
    | (extract_lets +onlyGivenNames x; have hx : KeptO m z x := ?_; clear_value x)
    | (extract_lets +onlyGivenNames x; clear_value x)
    | (extract_lets +onlyGivenNames w; revert w; intro w0)
    | with_reducible apply kept_ite
    | with_reducible apply State.readStripe_kept
    | with_reducible apply State.writeStripe_kept
    | with_reducible apply kept2_mk
    | with_reducible apply keptO_some
    | with_reducible apply keptO_none
    | with_reducible exact keptO2_get (by with_reducible assumption)
    | (with_reducible refine kept2_eq (by with_reducible assumption) ?_)
    | (with_reducible apply kept2_proj; first | with_reducible assumption | with_reducible apply kept2_foldl | with_reducible apply State.readStripe_kept)
    | (with_reducible refine keptO_eq (by with_reducible assumption) ?_)
    | with_reducible apply kept_foldl
    | split
    | dsimp -zeta only

end Sys2Proof.Machine
end

