-- ==== Sys2Proof/Laws/KeptPartition.lean ====
section
/-!
SUPPORT. Laws/KeptPartition.lean: what the operations of Machine/Partition.lean keep (Laws/Kept.lean).
-/

namespace Sys2Proof.Machine

set_option linter.all false

variable {m : Mask} {z s : State}

theorem State.writePart_kept {a1 a2} (hregs : m.regs) (hout : m.out) (hhost : m.host) (hcnt : m.cnt) (hmem : m.mem) (h
    : Kept m z s) : Kept m z (State.writePart s a1 a2) := by
  unfold State.writePart
  repeat' first
    | with_reducible assumption
    | intro _
    | subst x
    | (extract_lets +onlyGivenNames x; have hx : Kept m z x := ?_; clear_value x)
    | (extract_lets +onlyGivenNames x; clear_value x)
    | (extract_lets +onlyGivenNames w; revert w; intro w0)
    | with_reducible apply State.each_kept
    | with_reducible apply State.mergeStripe_kept
    | dsimp -zeta only

theorem State.readPart_kept {a1 a2} (hregs : m.regs) (hout : m.out) (hhost : m.host) (hcnt : m.cnt) (hmem : m.mem) (h :
    Kept m z s) : Kept2 m z (State.readPart s a1 a2) := by
  unfold State.readPart
  repeat' first
    | with_reducible assumption
    | intro _
    | subst x
    | (extract_lets +onlyGivenNames x; have hx : Kept m z x := ?_; clear_value x)
    | (extract_lets +onlyGivenNames x; have hx : Kept2 m z x := ?_; clear_value x)
    | (extract_lets +onlyGivenNames x; clear_value x)
    | (extract_lets +onlyGivenNames w; revert w; intro w0)
    | with_reducible apply State.readStripe_kept
    | with_reducible apply kept2_mk
    | with_reducible apply kept2_mk
    | (with_reducible apply kept2_proj; first | with_reducible assumption | with_reducible apply kept2_foldl | with_reducible apply State.readStripe_kept)
    | with_reducible apply kept_foldl
    | dsimp -zeta only

theorem State.clearPart_kept {a1 a2} (hmem : m.mem) (h : Kept m z s) : Kept m z (State.clearPart s a1 a2) := by
  unfold State.clearPart
  repeat' first
    | with_reducible assumption
    | intro _
    | subst x
    | (extract_lets +onlyGivenNames x; have hx : Kept m z x := ?_; clear_value x)
    | (extract_lets +onlyGivenNames x; have hx : Kept2 m z x := ?_; clear_value x)
    | (extract_lets +onlyGivenNames x; have hx : KeptO m z x := ?_; clear_value x)
    | (extract_lets +onlyGivenNames x; clear_value x)
    | (extract_lets +onlyGivenNames w; revert w; intro w0)
    | with_reducible apply kept_ite
    | with_reducible apply kept2_mk
    | with_reducible apply keptO_some
    | with_reducible apply keptO_none
    | with_reducible exact keptO2_get (by with_reducible assumption)
    | (with_reducible refine kept2_eq (by with_reducible assumption) ?_)
    | (with_reducible apply kept2_proj; first | with_reducible assumption | with_reducible apply kept2_foldl)
    | (with_reducible refine keptO_eq (by with_reducible assumption) ?_)
    | with_reducible apply kept_foldl
    | split
    | dsimp -zeta only
    | (with_reducible refine kept_mk rfl ?_ rfl rfl rfl rfl ?_ ?_ ?_ ?_ ?_ ?_ ?_ ?_ ?_ ?_ ?_ ?_ ?_ ?_ ?_ ?_ ?_ ?_ ?_ <;> first | with_reducible exact Or.inr rfl | exact Or.inl (by assumption) | with_reducible assumption | with_reducible exact keptO2_get (by with_reducible assumption) | (with_reducible refine kept2_eq (by with_reducible assumption) ?_) | (with_reducible refine keptO_eq (by with_reducible assumption) ?_))

theorem State.storeBuckets_kept {a1 a2} (hregs : m.regs) (hout : m.out) (hhost : m.host) (hcnt : m.cnt) (hmem : m.mem)
    (h : Kept m z s) : Kept m z (State.storeBuckets s a1 a2) := by
  unfold State.storeBuckets
  repeat' first
    | with_reducible assumption
    | intro _
    | with_reducible apply kept_ite
    | with_reducible apply State.each_kept
    | with_reducible apply State.writePart_kept
    | split

theorem State.readBucket_kept {a1 a2 a3} (hregs : m.regs) (hout : m.out) (hhost : m.host) (hcnt : m.cnt) (hmem : m.mem)
    (h : Kept m z s) : Kept2 m z (State.readBucket s a1 a2 a3) := by
  unfold State.readBucket
  repeat' first
    | with_reducible assumption
    | intro _
    | with_reducible apply kept_ite
    | with_reducible apply State.readPart_kept
    | with_reducible apply kept2_mk
    | with_reducible apply kept2_mk
    | (with_reducible apply kept2_proj; first | with_reducible assumption | with_reducible apply kept2_foldl | with_reducible apply State.readPart_kept)
    | split
    | dsimp -zeta only

theorem State.readBuckets_kept {a1 a2 a3} (hregs : m.regs) (hout : m.out) (hhost : m.host) (hcnt : m.cnt) (hmem :
    m.mem) (h : Kept m z s) : Kept2 m z (State.readBuckets s a1 a2 a3) := by
  unfold State.readBuckets
  repeat' first
    | with_reducible assumption
    | intro _
    | subst x
    | (extract_lets +onlyGivenNames x; have hx : Kept m z x := ?_; clear_value x)
    | (extract_lets +onlyGivenNames x; have hx : Kept2 m z x := ?_; clear_value x)
    | (extract_lets +onlyGivenNames x; clear_value x)
    | (extract_lets +onlyGivenNames w; revert w; intro w0)
    | with_reducible apply State.readBucket_kept
    | with_reducible apply kept2_mk
    | with_reducible apply kept2_mk
    | (with_reducible apply kept2_proj; first | with_reducible assumption | with_reducible apply kept2_foldl | with_reducible apply State.readBucket_kept)
    | with_reducible apply kept_foldl
    | dsimp -zeta only

theorem State.putPageRecord_kept {a1 a2 a3 a4 a5 a6} (hregs : m.regs) (hout : m.out) (hhost : m.host) (hcnt : m.cnt)
    (hmem : m.mem) (h : Kept m z s) : Kept m z (State.putPageRecord s a1 a2 a3 a4 a5 a6) := by
  unfold State.putPageRecord
  repeat' first
    | with_reducible assumption
    | intro _
    | with_reducible apply State.writePart_kept

end Sys2Proof.Machine
end

