-- ==== Sys2Proof/Laws/KeptCells.lean ====
section
/-!
SUPPORT. Laws/KeptCells.lean: what the operations of Machine/Cells.lean keep (Laws/Kept.lean).
-/

namespace Sys2Proof.Machine

set_option linter.all false

variable {m : Mask} {z s : State}

theorem State.countCells_kept {a1} (hregs : m.regs) (h : Kept m z s) : Kept m z (State.countCells s a1) := by
  unfold State.countCells
  repeat' first
    | with_reducible assumption
    | intro _
    | subst x
    | (extract_lets +onlyGivenNames x; have hx : Kept m z x := ?_; clear_value x)
    | (extract_lets +onlyGivenNames x; clear_value x)
    | (extract_lets +onlyGivenNames w; revert w; intro w0)
    | with_reducible apply State.wr_kept
    | with_reducible apply State.wrBit_kept
    | dsimp -zeta only

theorem State.flipSecded_kept {a1 a2} (hmem : m.mem) (h : Kept m z s) : Kept m z (State.flipSecded s a1 a2) := by
  unfold State.flipSecded
  repeat' first
    | with_reducible assumption
    | intro _
    | subst x
    | (extract_lets +onlyGivenNames x; have hx : Kept m z x := ?_; clear_value x)
    | (extract_lets +onlyGivenNames x; have hx : Kept2 m z x := ?_; clear_value x)
    | (extract_lets +onlyGivenNames x; have hx : KeptO m z x := ?_; clear_value x)
    | (extract_lets +onlyGivenNames x; clear_value x)
    | (extract_lets +onlyGivenNames w; revert w; intro w0)
    | with_reducible apply kept_ite
    | with_reducible apply kept2_mk
    | with_reducible apply keptO_some
    | with_reducible apply keptO_none
    | with_reducible exact keptO2_get (by with_reducible assumption)
    | (with_reducible refine kept2_eq (by with_reducible assumption) ?_)
    | (with_reducible apply kept2_proj; first | with_reducible assumption | with_reducible apply kept2_foldl)
    | (with_reducible refine keptO_eq (by with_reducible assumption) ?_)
    | with_reducible apply kept_foldl
    | split
    | dsimp -zeta only
    | (with_reducible refine kept_mk rfl ?_ rfl rfl rfl rfl ?_ ?_ ?_ ?_ ?_ ?_ ?_ ?_ ?_ ?_ ?_ ?_ ?_ ?_ ?_ ?_ ?_ ?_ ?_ <;> first | with_reducible exact Or.inr rfl | exact Or.inl (by assumption) | with_reducible assumption | with_reducible exact keptO2_get (by with_reducible assumption) | (with_reducible refine kept2_eq (by with_reducible assumption) ?_) | (with_reducible refine keptO_eq (by with_reducible assumption) ?_))

theorem State.rewriteCell_kept {a1} (hmem : m.mem) (h : Kept m z s) : Kept m z (State.rewriteCell s a1) := by
  unfold State.rewriteCell
  repeat' first
    | with_reducible assumption
    | intro _
    | subst x
    | (extract_lets +onlyGivenNames x; have hx : Kept m z x := ?_; clear_value x)
    | (extract_lets +onlyGivenNames x; have hx : Kept2 m z x := ?_; clear_value x)
    | (extract_lets +onlyGivenNames x; have hx : KeptO m z x := ?_; clear_value x)
    | (extract_lets +onlyGivenNames x; clear_value x)
    | (extract_lets +onlyGivenNames w; revert w; intro w0)
    | with_reducible apply kept_ite
    | with_reducible apply kept2_mk
    | with_reducible apply keptO_some
    | with_reducible apply keptO_none
    | with_reducible exact keptO2_get (by with_reducible assumption)
    | (with_reducible refine kept2_eq (by with_reducible assumption) ?_)
    | (with_reducible apply kept2_proj; first | with_reducible assumption | with_reducible apply kept2_foldl)
    | (with_reducible refine keptO_eq (by with_reducible assumption) ?_)
    | with_reducible apply kept_foldl
    | split
    | dsimp -zeta only
    | (with_reducible refine kept_mk rfl ?_ rfl rfl rfl rfl ?_ ?_ ?_ ?_ ?_ ?_ ?_ ?_ ?_ ?_ ?_ ?_ ?_ ?_ ?_ ?_ ?_ ?_ ?_ <;> first | with_reducible exact Or.inr rfl | exact Or.inl (by assumption) | with_reducible assumption | with_reducible exact keptO2_get (by with_reducible assumption) | (with_reducible refine kept2_eq (by with_reducible assumption) ?_) | (with_reducible refine keptO_eq (by with_reducible assumption) ?_))

theorem State.takeCell_kept {a1 a2} (hregs : m.regs) (hbuf : m.buf) (hmem : m.mem) (h : Kept m z s) : KeptO2 m z
    (State.takeCell s a1 a2) := by
  unfold State.takeCell
  repeat' first
    | with_reducible assumption
    | intro _
    | subst x
    | (extract_lets +onlyGivenNames x; have hx : Kept m z x := ?_; clear_value x)
    | (extract_lets +onlyGivenNames x; have hx : Kept2 m z x := ?_; clear_value x)
    | (extract_lets +onlyGivenNames x; have hx : KeptO m z x := ?_; clear_value x)
    | (extract_lets +onlyGivenNames x; have hx : KeptO2 m z x := ?_; clear_value x)
    | (extract_lets +onlyGivenNames x; clear_value x)
    | (extract_lets +onlyGivenNames w; revert w; intro w0)
    | with_reducible apply State.countCells_kept
    | with_reducible apply State.rewriteCell_kept
    | with_reducible apply kept2_mk
    | with_reducible apply keptO2_some
    | with_reducible apply keptO2_none
    | with_reducible exact keptO2_get (by with_reducible assumption)
    | (with_reducible refine kept2_eq (by with_reducible assumption) ?_)
    | (with_reducible apply kept2_proj; first | with_reducible assumption | with_reducible apply kept2_foldl)
    | (with_reducible refine keptO2_eq (by with_reducible assumption) ?_)
    | (with_reducible refine keptO2_eqp (by with_reducible assumption) ?_)
    | with_reducible apply keptO2_map2
    | with_reducible apply keptO2_map3
    | with_reducible apply keptO2_map
    | split
    | dsimp -zeta only
    | (with_reducible refine kept_mk rfl ?_ rfl rfl rfl rfl ?_ ?_ ?_ ?_ ?_ ?_ ?_ ?_ ?_ ?_ ?_ ?_ ?_ ?_ ?_ ?_ ?_ ?_ ?_ <;> first | with_reducible exact Or.inr rfl | exact Or.inl (by assumption) | with_reducible assumption | with_reducible exact keptO2_get (by with_reducible assumption) | (with_reducible refine kept2_eq (by with_reducible assumption) ?_) | (with_reducible refine keptO_eq (by with_reducible assumption) ?_) | (with_reducible refine keptO2_eq (by with_reducible assumption) ?_) | (with_reducible refine keptO2_eqp (by with_reducible assumption) ?_) | with_reducible apply State.countCells_kept | with_reducible apply State.rewriteCell_kept)

theorem State.takeCells_kept {a0 a1} (hregs : m.regs) (hbuf : m.buf) (hmem : m.mem) (h : Kept m z s) : KeptO2 m z
    (State.takeCells a0 a1 s) := by
  induction a1 generalizing s with
  | nil => exact keptO2_some h
  | cons k ks ih =>
    unfold State.takeCells
    split
    · split
      · rename_i p t e
        exact keptO2_map2 (ih (keptO2_eq e (State.takeCell_kept (by assumption) (by assumption) (by assumption) h))) fun _ ht => ht
      · exact keptO2_none
    · exact keptO2_none

theorem State.takeUntilRefused_kept {a0 a1} (hregs : m.regs) (hbuf : m.buf) (hmem : m.mem) (h : Kept m z s) : Kept2 m z
    (State.takeUntilRefused a0 a1 s) := by
  induction a1 generalizing s with
  | nil => exact kept2_mk h
  | cons k ks ih =>
    unfold State.takeUntilRefused
    split
    · rename_i ps t e
      exact ih (keptO2_eq e (State.takeCells_kept hregs hbuf hmem h))
    · exact kept2_mk h

theorem State.ptrLog_kept {a1 a2 a3 a4} (hregs : m.regs) (h : Kept m z s) : Kept m z (State.ptrLog s a1 a2 a3 a4) := by
  unfold State.ptrLog
  repeat' first
    | with_reducible assumption
    | intro _
    | subst x
    | (extract_lets +onlyGivenNames x; have hx : Kept m z x := ?_; clear_value x)
    | (extract_lets +onlyGivenNames x; clear_value x)
    | (extract_lets +onlyGivenNames w; revert w; intro w0)
    | with_reducible apply State.onlyIf_kept
    | with_reducible apply State.wr_kept
    | with_reducible apply State.wr64_kept
    | with_reducible apply State.wrWord_kept
    | dsimp -zeta only

theorem State.badPtr_kept {a1 a2 a3} (hregs : m.regs) (hout : m.out) (hhost : m.host) (h : Kept m z s) : Kept m z
    (State.badPtr s a1 a2 a3) := by
  unfold State.badPtr
  repeat' first
    | with_reducible assumption
    | intro _
    | subst x
    | (extract_lets +onlyGivenNames x; have hx : Kept m z x := ?_; clear_value x)
    | (extract_lets +onlyGivenNames x; clear_value x)
    | (extract_lets +onlyGivenNames w; revert w; intro w0)
    | with_reducible apply State.bump_kept
    | with_reducible apply State.event_kept
    | with_reducible apply State.ptrLog_kept
    | split
    | dsimp -zeta only

theorem State.freeCell_kept {a1 a2} (hregs : m.regs) (hout : m.out) (hhost : m.host) (hbuf : m.buf) (h : Kept m z s) :
    Kept m z (State.freeCell s a1 a2) := by
  unfold State.freeCell
  repeat' first
    | with_reducible assumption
    | intro _
    | subst x
    | (extract_lets +onlyGivenNames x; have hx : Kept m z x := ?_; clear_value x)
    | (extract_lets +onlyGivenNames x; have hx : Kept2 m z x := ?_; clear_value x)
    | (extract_lets +onlyGivenNames x; have hx : KeptO m z x := ?_; clear_value x)
    | (extract_lets +onlyGivenNames x; clear_value x)
    | (extract_lets +onlyGivenNames w; revert w; intro w0)
    | with_reducible apply kept_ite
    | with_reducible apply State.badPtr_kept
    | with_reducible apply State.countCells_kept
    | with_reducible apply kept2_mk
    | with_reducible apply keptO_some
    | with_reducible apply keptO_none
    | with_reducible exact keptO2_get (by with_reducible assumption)
    | (with_reducible refine kept2_eq (by with_reducible assumption) ?_)
    | (with_reducible apply kept2_proj; first | with_reducible assumption | with_reducible apply kept2_foldl)
    | (with_reducible refine keptO_eq (by with_reducible assumption) ?_)
    | with_reducible apply kept_foldl
    | split
    | dsimp -zeta only
    | (with_reducible refine kept_mk rfl ?_ rfl rfl rfl rfl ?_ ?_ ?_ ?_ ?_ ?_ ?_ ?_ ?_ ?_ ?_ ?_ ?_ ?_ ?_ ?_ ?_ ?_ ?_ <;> first | with_reducible exact Or.inr rfl | exact Or.inl (by assumption) | with_reducible assumption | with_reducible exact keptO2_get (by with_reducible assumption) | (with_reducible refine kept2_eq (by with_reducible assumption) ?_) | (with_reducible refine keptO_eq (by with_reducible assumption) ?_) | with_reducible apply State.badPtr_kept | with_reducible apply State.countCells_kept)

theorem State.leak_kept {a1} (hregs : m.regs) (h : Kept m z s) : Kept m z (State.leak s a1) := by
  unfold State.leak
  repeat' first
    | with_reducible assumption
    | intro _
    | with_reducible apply State.wr_kept

theorem State.freeCells_kept {a0 a1} (hregs : m.regs) (hout : m.out) (hhost : m.host) (hbuf : m.buf) (h : Kept m z s) :
    Kept m z (State.freeCells a0 a1 s) := by
  induction a1 generalizing a0 s
  all_goals
    unfold State.freeCells
    repeat' first
      | with_reducible assumption
      | intro _
      | subst x
      | (extract_lets +onlyGivenNames x; have hx : Kept m z x := ?_; clear_value x)
      | (extract_lets +onlyGivenNames x; have hx : Kept2 m z x := ?_; clear_value x)
      | (extract_lets +onlyGivenNames x; have hx : KeptO m z x := ?_; clear_value x)
      | (extract_lets +onlyGivenNames x; clear_value x)
      | (extract_lets +onlyGivenNames w; revert w; intro w0)
      | with_reducible apply kept_ite
      | with_reducible apply_assumption
      | with_reducible apply State.badPtr_kept
      | with_reducible apply State.freeCell_kept
      | with_reducible apply State.leak_kept
      | with_reducible apply kept2_mk
      | with_reducible apply keptO_some
      | with_reducible apply keptO_none
      | with_reducible exact keptO2_get (by with_reducible assumption)
      | (with_reducible refine kept2_eq (by with_reducible assumption) ?_)
      | (with_reducible apply kept2_proj; first | with_reducible assumption | with_reducible apply kept2_foldl)
      | (with_reducible refine keptO_eq (by with_reducible assumption) ?_)
      | with_reducible apply kept_foldl
      | split
      | dsimp -zeta only

theorem State.setStored_kept {a1 a2} (hbuf : m.buf) (h : Kept m z s) : Kept m z (State.setStored s a1 a2) := by
  unfold State.setStored
  repeat' first
    | with_reducible assumption
    | intro _
    | subst x
    | (extract_lets +onlyGivenNames x; have hx : Kept m z x := ?_; clear_value x)
    | (extract_lets +onlyGivenNames x; have hx : Kept2 m z x := ?_; clear_value x)
    | (extract_lets +onlyGivenNames x; have hx : KeptO m z x := ?_; clear_value x)
    | (extract_lets +onlyGivenNames x; clear_value x)
    | (extract_lets +onlyGivenNames w; revert w; intro w0)
    | with_reducible apply kept_ite
    | with_reducible apply kept2_mk
    | with_reducible apply keptO_some
    | with_reducible apply keptO_none
    | with_reducible exact keptO2_get (by with_reducible assumption)
    | (with_reducible refine kept2_eq (by with_reducible assumption) ?_)
    | (with_reducible apply kept2_proj; first | with_reducible assumption | with_reducible apply kept2_foldl)
    | (with_reducible refine keptO_eq (by with_reducible assumption) ?_)
    | with_reducible apply kept_foldl
    | split
    | dsimp -zeta only
    | (with_reducible refine kept_mk rfl ?_ rfl rfl rfl rfl ?_ ?_ ?_ ?_ ?_ ?_ ?_ ?_ ?_ ?_ ?_ ?_ ?_ ?_ ?_ ?_ ?_ ?_ ?_ <;> first | with_reducible exact Or.inr rfl | exact Or.inl (by assumption) | with_reducible assumption | with_reducible exact keptO2_get (by with_reducible assumption) | (with_reducible refine kept2_eq (by with_reducible assumption) ?_) | (with_reducible refine keptO_eq (by with_reducible assumption) ?_))

theorem State.dropStored_kept {a1} (hregs : m.regs) (hout : m.out) (hhost : m.host) (hbuf : m.buf) (h : Kept m z s) :
    Kept m z (State.dropStored s a1) := by
  unfold State.dropStored
  repeat' first
    | with_reducible assumption
    | intro _
    | with_reducible apply kept_ite
    | with_reducible apply State.freeCells_kept
    | with_reducible apply State.setStored_kept
    | split

theorem State.takeName_kept {a1} (hbuf : m.buf) (h : Kept m z s) : KeptO2 m z (State.takeName s a1) := by
  unfold State.takeName
  repeat' first
    | with_reducible assumption
    | intro _
    | with_reducible apply kept_ite
    | with_reducible apply State.setStored_kept
    | with_reducible apply kept2_mk
    | with_reducible apply keptO2_some
    | with_reducible apply keptO2_none
    | with_reducible exact keptO2_get (by with_reducible assumption)
    | (with_reducible refine kept2_eq (by with_reducible assumption) ?_)
    | (with_reducible apply kept2_proj; first | with_reducible assumption | with_reducible apply kept2_foldl)
    | (with_reducible refine keptO2_eq (by with_reducible assumption) ?_)
    | (with_reducible refine keptO2_eqp (by with_reducible assumption) ?_)
    | with_reducible apply keptO2_map2
    | with_reducible apply keptO2_map3
    | with_reducible apply keptO2_map
    | split
    | dsimp -zeta only

theorem State.keepDesc_kept {a1} (hbuf : m.buf) (h : Kept m z s) : Kept m z (State.keepDesc s a1) := by
  unfold State.keepDesc
  repeat' first
    | with_reducible assumption
    | intro _
    | subst x
    | (extract_lets +onlyGivenNames x; have hx : Kept m z x := ?_; clear_value x)
    | (extract_lets +onlyGivenNames x; have hx : Kept2 m z x := ?_; clear_value x)
    | (extract_lets +onlyGivenNames x; have hx : KeptO m z x := ?_; clear_value x)
    | (extract_lets +onlyGivenNames x; clear_value x)
    | (extract_lets +onlyGivenNames w; revert w; intro w0)
    | with_reducible apply kept_ite
    | with_reducible apply kept2_mk
    | with_reducible apply keptO_some
    | with_reducible apply keptO_none
    | with_reducible exact keptO2_get (by with_reducible assumption)
    | (with_reducible refine kept2_eq (by with_reducible assumption) ?_)
    | (with_reducible apply kept2_proj; first | with_reducible assumption | with_reducible apply kept2_foldl)
    | (with_reducible refine keptO_eq (by with_reducible assumption) ?_)
    | with_reducible apply kept_foldl
    | split
    | dsimp -zeta only
    | (with_reducible refine kept_mk rfl ?_ rfl rfl rfl rfl ?_ ?_ ?_ ?_ ?_ ?_ ?_ ?_ ?_ ?_ ?_ ?_ ?_ ?_ ?_ ?_ ?_ ?_ ?_ <;> first | with_reducible exact Or.inr rfl | exact Or.inl (by assumption) | with_reducible assumption | with_reducible exact keptO2_get (by with_reducible assumption) | (with_reducible refine kept2_eq (by with_reducible assumption) ?_) | (with_reducible refine keptO_eq (by with_reducible assumption) ?_))

theorem State.releaseName_kept {a1 a2 a3} (hregs : m.regs) (hout : m.out) (hhost : m.host) (hbuf : m.buf) (h : Kept m z
    s) : Kept m z (State.releaseName s a1 a2 a3) := by
  unfold State.releaseName
  repeat' first
    | with_reducible assumption
    | intro _
    | subst x
    | (extract_lets +onlyGivenNames x; have hx : Kept m z x := ?_; clear_value x)
    | (extract_lets +onlyGivenNames x; have hx : KeptO m z x := ?_; clear_value x)
    | (extract_lets +onlyGivenNames x; clear_value x)
    | (extract_lets +onlyGivenNames w; revert w; intro w0)
    | with_reducible apply kept_ite
    | with_reducible apply State.badPtr_kept
    | with_reducible apply State.bump_kept
    | with_reducible apply State.dropStored_kept
    | with_reducible apply State.event_kept
    | with_reducible apply State.keepDesc_kept
    | with_reducible apply State.leak_kept
    | with_reducible apply State.onlyIf_kept
    | with_reducible apply State.ptrLog_kept
    | with_reducible apply State.setStored_kept
    | split
    | dsimp -zeta only

theorem State.release_kept {a1} (hregs : m.regs) (hout : m.out) (hhost : m.host) (hbuf : m.buf) (h : Kept m z s) : Kept
    m z (State.release s a1) := by
  unfold State.release
  repeat' first
    | with_reducible assumption
    | intro _
    | with_reducible apply State.releaseName_kept
    | split

theorem State.releaseBroken_kept {a1 a2 a3 a4} (hregs : m.regs) (hout : m.out) (hhost : m.host) (hbuf : m.buf) (h :
    Kept m z s) : Kept m z (State.releaseBroken s a1 a2 a3 a4) := by
  unfold State.releaseBroken
  repeat' first
    | with_reducible assumption
    | intro _
    | subst x
    | (extract_lets +onlyGivenNames x; have hx : Kept m z x := ?_; clear_value x)
    | (extract_lets +onlyGivenNames x; clear_value x)
    | (extract_lets +onlyGivenNames w; revert w; intro w0)
    | with_reducible apply kept_ite
    | with_reducible apply State.badPtr_kept
    | with_reducible apply State.freeCells_kept
    | with_reducible apply State.keepDesc_kept
    | with_reducible apply State.leak_kept
    | with_reducible apply State.onlyIf_kept
    | with_reducible apply State.releaseName_kept
    | with_reducible apply State.setStored_kept
    | split
    | dsimp -zeta only

theorem State.releaseWith_kept {a1 a2} (hregs : m.regs) (hout : m.out) (hhost : m.host) (hbuf : m.buf) (h : Kept m z s)
    : Kept m z (State.releaseWith s a1 a2) := by
  unfold State.releaseWith
  repeat' first
    | with_reducible assumption
    | intro _
    | with_reducible apply State.release_kept
    | with_reducible apply State.releaseBroken_kept
    | with_reducible apply State.releaseName_kept
    | split

theorem State.readBody_kept {a1} (hregs : m.regs) (hout : m.out) (hhost : m.host) (hmem : m.mem) (h : Kept m z s) :
    Kept2 m z (State.readBody s a1) := by
  unfold State.readBody
  repeat' first
    | with_reducible assumption
    | intro _
    | subst x
    | (extract_lets +onlyGivenNames x; have hx : Kept m z x := ?_; clear_value x)
    | (extract_lets +onlyGivenNames x; have hx : Kept2 m z x := ?_; clear_value x)
    | (extract_lets +onlyGivenNames x; clear_value x)
    | (extract_lets +onlyGivenNames w; revert w; intro w0)
    | with_reducible apply kept_ite
    | with_reducible apply State.bump_kept
    | with_reducible apply State.each_kept
    | with_reducible apply State.uncorrectable_kept
    | with_reducible apply kept2_mk
    | with_reducible apply kept2_mk
    | (with_reducible refine kept2_eq (by with_reducible assumption) ?_)
    | (with_reducible apply kept2_proj; first | with_reducible assumption | with_reducible apply kept2_foldl)
    | split
    | dsimp -zeta only

theorem State.readBodyIf_kept {a1 a2} (hregs : m.regs) (hout : m.out) (hhost : m.host) (hmem : m.mem) (h : Kept m z s)
    : Kept2 m z (State.readBodyIf s a1 a2) := by
  unfold State.readBodyIf
  repeat' first
    | with_reducible assumption
    | intro _
    | with_reducible apply kept_ite
    | with_reducible apply State.readBody_kept
    | with_reducible apply kept2_mk
    | with_reducible apply kept2_mk
    | (with_reducible apply kept2_proj; first | with_reducible assumption | with_reducible apply kept2_foldl | with_reducible apply State.readBody_kept)
    | split
    | dsimp -zeta only

theorem State.toEgress_kept {a1} (hregs : m.regs) (hbuf : m.buf) (h : Kept m z s) : Kept m z (State.toEgress s a1) :=
    by
  unfold State.toEgress
  repeat' first
    | with_reducible assumption
    | intro _
    | subst x
    | (extract_lets +onlyGivenNames x; have hx : Kept m z x := ?_; clear_value x)
    | (extract_lets +onlyGivenNames x; have hx : Kept2 m z x := ?_; clear_value x)
    | (extract_lets +onlyGivenNames x; have hx : KeptO m z x := ?_; clear_value x)
    | (extract_lets +onlyGivenNames x; clear_value x)
    | (extract_lets +onlyGivenNames w; revert w; intro w0)
    | with_reducible apply kept_ite
    | with_reducible apply State.countCells_kept
    | with_reducible apply State.each_kept
    | with_reducible apply State.setStored_kept
    | with_reducible apply kept2_mk
    | with_reducible apply keptO_some
    | with_reducible apply keptO_none
    | with_reducible exact keptO2_get (by with_reducible assumption)
    | (with_reducible refine kept2_eq (by with_reducible assumption) ?_)
    | (with_reducible apply kept2_proj; first | with_reducible assumption | with_reducible apply kept2_foldl)
    | (with_reducible refine keptO_eq (by with_reducible assumption) ?_)
    | with_reducible apply kept_foldl
    | split
    | dsimp -zeta only
    | (with_reducible refine kept_mk rfl ?_ rfl rfl rfl rfl ?_ ?_ ?_ ?_ ?_ ?_ ?_ ?_ ?_ ?_ ?_ ?_ ?_ ?_ ?_ ?_ ?_ ?_ ?_ <;> first | with_reducible exact Or.inr rfl | exact Or.inl (by assumption) | with_reducible assumption | with_reducible exact keptO2_get (by with_reducible assumption) | (with_reducible refine kept2_eq (by with_reducible assumption) ?_) | (with_reducible refine keptO_eq (by with_reducible assumption) ?_) | with_reducible apply State.countCells_kept | with_reducible apply State.each_kept | with_reducible apply State.setStored_kept)

theorem State.setBody_kept {a1 a2} (hbuf : m.buf) (h : Kept m z s) : Kept m z (State.setBody s a1 a2) := by
  unfold State.setBody
  repeat' first
    | with_reducible assumption
    | intro _
    | subst x
    | (extract_lets +onlyGivenNames x; have hx : Kept m z x := ?_; clear_value x)
    | (extract_lets +onlyGivenNames x; have hx : Kept2 m z x := ?_; clear_value x)
    | (extract_lets +onlyGivenNames x; have hx : KeptO m z x := ?_; clear_value x)
    | (extract_lets +onlyGivenNames x; clear_value x)
    | (extract_lets +onlyGivenNames w; revert w; intro w0)
    | with_reducible apply kept_ite
    | with_reducible apply kept2_mk
    | with_reducible apply keptO_some
    | with_reducible apply keptO_none
    | with_reducible exact keptO2_get (by with_reducible assumption)
    | (with_reducible refine kept2_eq (by with_reducible assumption) ?_)
    | (with_reducible apply kept2_proj; first | with_reducible assumption | with_reducible apply kept2_foldl)
    | (with_reducible refine keptO_eq (by with_reducible assumption) ?_)
    | with_reducible apply kept_foldl
    | split
    | dsimp -zeta only
    | (with_reducible refine kept_mk rfl ?_ rfl rfl rfl rfl ?_ ?_ ?_ ?_ ?_ ?_ ?_ ?_ ?_ ?_ ?_ ?_ ?_ ?_ ?_ ?_ ?_ ?_ ?_ <;> first | with_reducible exact Or.inr rfl | exact Or.inl (by assumption) | with_reducible assumption | with_reducible exact keptO2_get (by with_reducible assumption) | (with_reducible refine kept2_eq (by with_reducible assumption) ?_) | (with_reducible refine keptO_eq (by with_reducible assumption) ?_))

theorem State.freeBody_kept {a1} (hregs : m.regs) (hout : m.out) (hhost : m.host) (hbuf : m.buf) (h : Kept m z s) :
    Kept m z (State.freeBody s a1) := by
  unfold State.freeBody
  repeat' first
    | with_reducible assumption
    | intro _
    | with_reducible apply State.freeCells_kept
    | with_reducible apply State.setBody_kept
    | split

end Sys2Proof.Machine
end

