-- ==== Sys2Proof/Laws/KeptQueues.lean ====
section
/-!
SUPPORT. Laws/KeptQueues.lean: what the operations of Machine/Queues.lean keep (Laws/Kept.lean).
-/

namespace Sys2Proof.Machine

set_option linter.all false

variable {m : Mask} {z s : State}

theorem State.setQueue_kept {a1 a2} (hbuf : m.buf) (h : Kept m z s) : Kept m z (State.setQueue s a1 a2) := by
  unfold State.setQueue
  repeat' first
    | with_reducible assumption
    | intro _
    | subst x
    | (extract_lets +onlyGivenNames x; have hx : Kept m z x := ?_; clear_value x)
    | (extract_lets +onlyGivenNames x; have hx : Kept2 m z x := ?_; clear_value x)
    | (extract_lets +onlyGivenNames x; have hx : KeptO m z x := ?_; clear_value x)
    | (extract_lets +onlyGivenNames x; clear_value x)
    | (extract_lets +onlyGivenNames w; revert w; intro w0)
    | with_reducible apply kept_ite
    | with_reducible apply kept2_mk
    | with_reducible apply keptO_some
    | with_reducible apply keptO_none
    | with_reducible exact keptO2_get (by with_reducible assumption)
    | (with_reducible refine kept2_eq (by with_reducible assumption) ?_)
    | (with_reducible apply kept2_proj; first | with_reducible assumption | with_reducible apply kept2_foldl)
    | (with_reducible refine keptO_eq (by with_reducible assumption) ?_)
    | with_reducible apply kept_foldl
    | split
    | dsimp -zeta only
    | (with_reducible refine kept_mk rfl ?_ rfl rfl rfl rfl ?_ ?_ ?_ ?_ ?_ ?_ ?_ ?_ ?_ ?_ ?_ ?_ ?_ ?_ ?_ ?_ ?_ ?_ ?_ <;> first | with_reducible exact Or.inr rfl | exact Or.inl (by assumption) | with_reducible assumption | with_reducible exact keptO2_get (by with_reducible assumption) | (with_reducible refine kept2_eq (by with_reducible assumption) ?_) | (with_reducible refine keptO_eq (by with_reducible assumption) ?_))

theorem State.countQueue_kept {a1 a2 a3 a4 a5} (hregs : m.regs) (hcnt : m.cnt) (h : Kept m z s) : Kept m z
    (State.countQueue s a1 a2 a3 a4 a5) := by
  unfold State.countQueue
  repeat' first
    | with_reducible assumption
    | intro _
    | with_reducible apply kept_ite
    | with_reducible apply State.countAs_kept
    | split

theorem State.dropQueue_kept {a1 a2 a3} (hregs : m.regs) (hcnt : m.cnt) (h : Kept m z s) : Kept m z (State.dropQueue s
    a1 a2 a3) := by
  unfold State.dropQueue
  repeat' first
    | with_reducible assumption
    | intro _
    | with_reducible apply State.countDrop_kept
    | with_reducible apply State.countQueue_kept

theorem State.bufSync_kept (hregs : m.regs) (h : Kept m z s) : Kept m z (State.bufSync s) := by
  unfold State.bufSync
  repeat' first
    | with_reducible assumption
    | intro _
    | subst x
    | (extract_lets +onlyGivenNames x; have hx : Kept m z x := ?_; clear_value x)
    | (extract_lets +onlyGivenNames x; clear_value x)
    | (extract_lets +onlyGivenNames w; revert w; intro w0)
    | with_reducible apply State.wr_kept
    | dsimp -zeta only

theorem State.setPages_kept {a1} (hregs : m.regs) (hbuf : m.buf) (h : Kept m z s) : Kept m z (State.setPages s a1) :=
    by
  unfold State.setPages
  repeat' first
    | with_reducible assumption
    | intro _
    | subst x
    | (extract_lets +onlyGivenNames x; have hx : Kept m z x := ?_; clear_value x)
    | (extract_lets +onlyGivenNames x; have hx : Kept2 m z x := ?_; clear_value x)
    | (extract_lets +onlyGivenNames x; have hx : KeptO m z x := ?_; clear_value x)
    | (extract_lets +onlyGivenNames x; clear_value x)
    | (extract_lets +onlyGivenNames w; revert w; intro w0)
    | with_reducible apply kept_ite
    | with_reducible apply State.wr_kept
    | with_reducible apply kept2_mk
    | with_reducible apply keptO_some
    | with_reducible apply keptO_none
    | with_reducible exact keptO2_get (by with_reducible assumption)
    | (with_reducible refine kept2_eq (by with_reducible assumption) ?_)
    | (with_reducible apply kept2_proj; first | with_reducible assumption | with_reducible apply kept2_foldl)
    | (with_reducible refine keptO_eq (by with_reducible assumption) ?_)
    | with_reducible apply kept_foldl
    | split
    | dsimp -zeta only
    | (with_reducible refine kept_mk rfl ?_ rfl rfl rfl rfl ?_ ?_ ?_ ?_ ?_ ?_ ?_ ?_ ?_ ?_ ?_ ?_ ?_ ?_ ?_ ?_ ?_ ?_ ?_ <;> first | with_reducible exact Or.inr rfl | exact Or.inl (by assumption) | with_reducible assumption | with_reducible exact keptO2_get (by with_reducible assumption) | (with_reducible refine kept2_eq (by with_reducible assumption) ?_) | (with_reducible refine keptO_eq (by with_reducible assumption) ?_) | with_reducible apply State.wr_kept)

theorem State.takePage_kept {a1} (hregs : m.regs) (hbuf : m.buf) (h : Kept m z s) : KeptO2 m z (State.takePage s a1) :=
    by
  unfold State.takePage
  repeat' first
    | with_reducible assumption
    | intro _
    | subst x
    | (extract_lets +onlyGivenNames x; have hx : Kept m z x := ?_; clear_value x)
    | (extract_lets +onlyGivenNames x; have hx : Kept2 m z x := ?_; clear_value x)
    | (extract_lets +onlyGivenNames x; have hx : KeptO2 m z x := ?_; clear_value x)
    | (extract_lets +onlyGivenNames x; clear_value x)
    | (extract_lets +onlyGivenNames w; revert w; intro w0)
    | with_reducible apply kept_ite
    | with_reducible apply State.setPages_kept
    | with_reducible apply kept2_mk
    | with_reducible apply keptO2_some
    | with_reducible apply keptO2_none
    | with_reducible exact keptO2_get (by with_reducible assumption)
    | (with_reducible apply kept2_proj; first | with_reducible assumption | with_reducible apply kept2_foldl)
    | (with_reducible refine keptO2_eq (by with_reducible assumption) ?_)
    | (with_reducible refine keptO2_eqp (by with_reducible assumption) ?_)
    | with_reducible apply keptO2_map2
    | with_reducible apply keptO2_map3
    | with_reducible apply keptO2_map
    | split
    | dsimp -zeta only

theorem State.freePages_kept {a1} (hregs : m.regs) (hbuf : m.buf) (h : Kept m z s) : Kept m z (State.freePages s a1) :=
    by
  unfold State.freePages
  repeat' first
    | with_reducible assumption
    | intro _
    | with_reducible apply State.setPages_kept

theorem State.growPages_kept {a1 a2 a3} (hregs : m.regs) (hbuf : m.buf) (h : Kept m z s) :
    KeptO2 m z (State.growPages s a1 a2 a3) :=
  keptO2_foldl (keptO2_some h) fun _ _ hr => keptO2_map2 (State.takePage_kept hregs hbuf hr) fun _ ht => ht

theorem State.writeTile_kept {a1 a2 a3 a4 a5 a6 a7} (hregs : m.regs) (hcnt : m.cnt) (hmem : m.mem) (h : Kept m z s) :
    Kept m z (State.writeTile s a1 a2 a3 a4 a5 a6 a7) := by
  unfold State.writeTile
  repeat' first
    | with_reducible assumption
    | intro _
    | subst x
    | (extract_lets +onlyGivenNames x; have hx : Kept m z x := ?_; clear_value x)
    | (extract_lets +onlyGivenNames x; clear_value x)
    | (extract_lets +onlyGivenNames w; revert w; intro w0)
    | with_reducible apply State.writeStripe_kept
    | dsimp -zeta only

theorem State.pack_kept {a1 a2 a3 a4} (hregs : m.regs) (hout : m.out) (hhost : m.host) (hcnt : m.cnt) (hbuf : m.buf)
    (hmem : m.mem) (h : Kept m z s) : KeptO3 m z (State.pack s a1 a2 a3 a4) := by
  unfold State.pack
  repeat' first
    | with_reducible assumption
    | intro _
    | subst x
    | (extract_lets +onlyGivenNames x; have hx : Kept m z x := ?_; clear_value x)
    | (extract_lets +onlyGivenNames x; have hx : Kept2 m z x := ?_; clear_value x)
    | (extract_lets +onlyGivenNames x; have hx : KeptO m z x := ?_; clear_value x)
    | (extract_lets +onlyGivenNames x; have hx : KeptO2 m z x := ?_; clear_value x)
    | (extract_lets +onlyGivenNames x; have hx : KeptO3 m z x := ?_; clear_value x)
    | (extract_lets +onlyGivenNames x; clear_value x)
    | (extract_lets +onlyGivenNames w; revert w; intro w0)
    | with_reducible apply kept_ite
    | with_reducible apply State.each_kept
    | with_reducible apply State.freeCell_kept
    | with_reducible apply State.growPages_kept
    | with_reducible apply State.takeCell_kept
    | with_reducible apply State.writeTile_kept
    | with_reducible apply kept2_mk
    | with_reducible apply keptO3_some
    | with_reducible apply keptO3_none
    | with_reducible apply keptO2_some
    | with_reducible apply keptO2_none
    | with_reducible exact keptO2_get (by with_reducible assumption)
    | (with_reducible refine kept2_eq (by with_reducible assumption) ?_)
    | (with_reducible apply kept2_proj; first | with_reducible assumption | with_reducible apply kept2_foldl)
    | (with_reducible refine keptO2_eq (by with_reducible assumption) ?_)
    | (with_reducible refine keptO2_eqp (by with_reducible assumption) ?_)
    | (with_reducible refine keptO3_eq (by with_reducible assumption) ?_)
    | (with_reducible refine keptO3_eqp (by with_reducible assumption) ?_)
    | split
    | dsimp -zeta only

theorem State.dropStream_kept {a1} (hregs : m.regs) (hout : m.out) (hhost : m.host) (hbuf : m.buf) (h : Kept m z s) :
    Kept m z (State.dropStream s a1) := by
  unfold State.dropStream
  repeat' first
    | with_reducible assumption
    | intro _
    | with_reducible apply State.freeCell_kept
    | with_reducible apply State.freePages_kept
    | split

theorem State.trim_kept {a1 a2} (hregs : m.regs) (hout : m.out) (hhost : m.host) (hbuf : m.buf) (h : Kept m z s) :
    Kept2 m z (State.trim s a1 a2) := by
  unfold State.trim
  repeat' first
    | with_reducible assumption
    | intro _
    | subst x
    | (extract_lets +onlyGivenNames x; have hx : Kept m z x := ?_; clear_value x)
    | (extract_lets +onlyGivenNames x; have hx : Kept2 m z x := ?_; clear_value x)
    | (extract_lets +onlyGivenNames x; clear_value x)
    | (extract_lets +onlyGivenNames w; revert w; intro w0)
    | with_reducible apply State.dropStream_kept
    | with_reducible apply State.freePages_kept
    | with_reducible apply kept2_mk
    | with_reducible apply kept2_mk
    | (with_reducible refine kept2_eq (by with_reducible assumption) ?_)
    | (with_reducible apply kept2_proj; first | with_reducible assumption | with_reducible apply kept2_foldl)
    | split
    | dsimp -zeta only

theorem State.setResPort_kept {a1 a2} (hregs : m.regs) (hbuf : m.buf) (h : Kept m z s) : Kept m z (State.setResPort s
    a1 a2) := by
  unfold State.setResPort
  repeat' first
    | with_reducible assumption
    | intro _
    | subst x
    | (extract_lets +onlyGivenNames x; have hx : Kept m z x := ?_; clear_value x)
    | (extract_lets +onlyGivenNames x; have hx : Kept2 m z x := ?_; clear_value x)
    | (extract_lets +onlyGivenNames x; have hx : KeptO m z x := ?_; clear_value x)
    | (extract_lets +onlyGivenNames x; clear_value x)
    | (extract_lets +onlyGivenNames w; revert w; intro w0)
    | with_reducible apply kept_ite
    | with_reducible apply State.wr_kept
    | with_reducible apply kept2_mk
    | with_reducible apply keptO_some
    | with_reducible apply keptO_none
    | with_reducible exact keptO2_get (by with_reducible assumption)
    | (with_reducible refine kept2_eq (by with_reducible assumption) ?_)
    | (with_reducible apply kept2_proj; first | with_reducible assumption | with_reducible apply kept2_foldl)
    | (with_reducible refine keptO_eq (by with_reducible assumption) ?_)
    | with_reducible apply kept_foldl
    | split
    | dsimp -zeta only
    | (with_reducible refine kept_mk rfl ?_ rfl rfl rfl rfl ?_ ?_ ?_ ?_ ?_ ?_ ?_ ?_ ?_ ?_ ?_ ?_ ?_ ?_ ?_ ?_ ?_ ?_ ?_ <;> first | with_reducible exact Or.inr rfl | exact Or.inl (by assumption) | with_reducible assumption | with_reducible exact keptO2_get (by with_reducible assumption) | (with_reducible refine kept2_eq (by with_reducible assumption) ?_) | (with_reducible refine keptO_eq (by with_reducible assumption) ?_) | with_reducible apply State.wr_kept)

theorem State.takeResPage_kept (hregs : m.regs) (hbuf : m.buf) (h : Kept m z s) : KeptO2 m z (State.takeResPage s) :=
    by
  unfold State.takeResPage
  repeat' first
    | with_reducible assumption
    | intro _
    | subst x
    | (extract_lets +onlyGivenNames x; have hx : Kept m z x := ?_; clear_value x)
    | (extract_lets +onlyGivenNames x; have hx : Kept2 m z x := ?_; clear_value x)
    | (extract_lets +onlyGivenNames x; have hx : KeptO2 m z x := ?_; clear_value x)
    | (extract_lets +onlyGivenNames x; clear_value x)
    | (extract_lets +onlyGivenNames w; revert w; intro w0)
    | with_reducible apply State.setResPort_kept
    | with_reducible apply kept2_mk
    | with_reducible apply keptO2_some
    | with_reducible apply keptO2_none
    | with_reducible exact keptO2_get (by with_reducible assumption)
    | (with_reducible refine kept2_eq (by with_reducible assumption) ?_)
    | (with_reducible apply kept2_proj; first | with_reducible assumption | with_reducible apply kept2_foldl)
    | (with_reducible refine keptO2_eq (by with_reducible assumption) ?_)
    | (with_reducible refine keptO2_eqp (by with_reducible assumption) ?_)
    | with_reducible apply keptO2_map2
    | with_reducible apply keptO2_map3
    | with_reducible apply keptO2_map
    | split
    | dsimp -zeta only
    | (with_reducible refine kept_mk rfl ?_ rfl rfl rfl rfl ?_ ?_ ?_ ?_ ?_ ?_ ?_ ?_ ?_ ?_ ?_ ?_ ?_ ?_ ?_ ?_ ?_ ?_ ?_ <;> first | with_reducible exact Or.inr rfl | exact Or.inl (by assumption) | with_reducible assumption | with_reducible exact keptO2_get (by with_reducible assumption) | (with_reducible refine kept2_eq (by with_reducible assumption) ?_) | (with_reducible refine keptO_eq (by with_reducible assumption) ?_) | (with_reducible refine keptO2_eq (by with_reducible assumption) ?_) | (with_reducible refine keptO2_eqp (by with_reducible assumption) ?_) | with_reducible apply State.setResPort_kept)

theorem State.freeResPages_kept {a1} (hregs : m.regs) (hbuf : m.buf) (h : Kept m z s) : Kept m z (State.freeResPages s
    a1) := by
  unfold State.freeResPages
  repeat' first
    | with_reducible assumption
    | intro _
    | subst x
    | (extract_lets +onlyGivenNames x; have hx : Kept m z x := ?_; clear_value x)
    | (extract_lets +onlyGivenNames x; clear_value x)
    | (extract_lets +onlyGivenNames w; revert w; intro w0)
    | with_reducible apply State.each_kept
    | with_reducible apply State.setResPort_kept
    | dsimp -zeta only

theorem State.trimRes_kept {a1 a2} (hregs : m.regs) (hout : m.out) (hhost : m.host) (hbuf : m.buf) (h : Kept m z s) :
    Kept2 m z (State.trimRes s a1 a2) := by
  unfold State.trimRes
  repeat' first
    | with_reducible assumption
    | intro _
    | subst x
    | (extract_lets +onlyGivenNames x; have hx : Kept m z x := ?_; clear_value x)
    | (extract_lets +onlyGivenNames x; have hx : Kept2 m z x := ?_; clear_value x)
    | (extract_lets +onlyGivenNames x; clear_value x)
    | (extract_lets +onlyGivenNames w; revert w; intro w0)
    | with_reducible apply State.dropStream_kept
    | with_reducible apply State.freeResPages_kept
    | with_reducible apply State.trim_kept
    | with_reducible apply kept2_mk
    | with_reducible apply kept2_mk
    | (with_reducible refine kept2_eq (by with_reducible assumption) ?_)
    | (with_reducible apply kept2_proj; first | with_reducible assumption | with_reducible apply kept2_foldl | with_reducible apply State.trim_kept)
    | split
    | dsimp -zeta only

theorem State.holdDrained_kept {a1} (hregs : m.regs) (hout : m.out) (hhost : m.host) (h : Kept m z s) : Kept m z
    (State.holdDrained s a1) := by
  unfold State.holdDrained
  repeat' first
    | with_reducible assumption
    | intro _
    | subst x
    | (extract_lets +onlyGivenNames x; have hx : Kept m z x := ?_; clear_value x)
    | (extract_lets +onlyGivenNames x; clear_value x)
    | (extract_lets +onlyGivenNames w; revert w; intro w0)
    | with_reducible apply kept_ite
    | with_reducible apply State.lcEndDrain_kept
    | with_reducible apply State.wr_kept
    | split
    | dsimp -zeta only

theorem State.moved_kept {a1} (hregs : m.regs) (hout : m.out) (hhost : m.host) (hbuf : m.buf) (hlif : m.lif) (h : Kept
    m z s) : Kept m z (State.moved s a1) := by
  unfold State.moved
  repeat' first
    | with_reducible assumption
    | intro _
    | with_reducible apply State.release_kept
    | with_reducible apply State.uncharge_kept
    | split

theorem State.toHbm_kept {a1 a2} (hregs : m.regs) (hout : m.out) (hhost : m.host) (hcnt : m.cnt) (hbuf : m.buf) (hlif :
    m.lif) (hmem : m.mem) (h : Kept m z s) : KeptO m z (State.toHbm s a1 a2) := by
  unfold State.toHbm
  repeat' first
    | with_reducible assumption
    | intro _
    | subst x
    | (extract_lets +onlyGivenNames x; have hx : Kept m z x := ?_; clear_value x)
    | (extract_lets +onlyGivenNames x; have hx : Kept2 m z x := ?_; clear_value x)
    | (extract_lets +onlyGivenNames x; have hx : KeptO3 m z x := ?_; clear_value x)
    | (extract_lets +onlyGivenNames x; clear_value x)
    | (extract_lets +onlyGivenNames w; revert w; intro w0)
    | with_reducible apply State.moved_kept
    | with_reducible apply State.pack_kept
    | with_reducible apply State.readBody_kept
    | with_reducible apply State.setQueue_kept
    | with_reducible apply keptO_some
    | with_reducible apply keptO_none
    | with_reducible apply keptO3_some
    | with_reducible apply keptO3_none
    | (with_reducible apply kept2_proj; first | with_reducible assumption | with_reducible apply kept2_foldl | with_reducible apply State.readBody_kept)
    | (with_reducible refine keptO3_eq (by with_reducible assumption) ?_)
    | (with_reducible refine keptO3_eqp (by with_reducible assumption) ?_)
    | with_reducible apply keptO_mapO3
    | with_reducible apply keptO_mapO2
    | with_reducible apply keptO_map1
    | with_reducible apply keptO_map
    | with_reducible apply keptO_bind
    | dsimp -zeta only

theorem State.toRes_kept {a1 a2} (hregs : m.regs) (hout : m.out) (hhost : m.host) (hcnt : m.cnt) (hbuf : m.buf) (hlif :
    m.lif) (hmem : m.mem) (h : Kept m z s) : KeptO m z (State.toRes s a1 a2) := by
  unfold State.toRes
  repeat' first
    | with_reducible assumption
    | intro _
    | subst x
    | (extract_lets +onlyGivenNames x; have hx : Kept m z x := ?_; clear_value x)
    | (extract_lets +onlyGivenNames x; have hx : Kept2 m z x := ?_; clear_value x)
    | (extract_lets +onlyGivenNames x; have hx : KeptO3 m z x := ?_; clear_value x)
    | (extract_lets +onlyGivenNames x; clear_value x)
    | (extract_lets +onlyGivenNames w; revert w; intro w0)
    | with_reducible apply State.moved_kept
    | with_reducible apply State.pack_kept
    | with_reducible apply State.readBody_kept
    | with_reducible apply State.setQueue_kept
    | with_reducible apply keptO_some
    | with_reducible apply keptO_none
    | with_reducible apply keptO3_some
    | with_reducible apply keptO3_none
    | (with_reducible apply kept2_proj; first | with_reducible assumption | with_reducible apply kept2_foldl | with_reducible apply State.readBody_kept)
    | (with_reducible refine keptO3_eq (by with_reducible assumption) ?_)
    | (with_reducible refine keptO3_eqp (by with_reducible assumption) ?_)
    | with_reducible apply keptO_mapO3
    | with_reducible apply keptO_mapO2
    | with_reducible apply keptO_map1
    | with_reducible apply keptO_map
    | with_reducible apply keptO_bind
    | dsimp -zeta only

theorem State.place_kept {a1 a2} (hregs : m.regs) (hout : m.out) (hhost : m.host) (hcnt : m.cnt) (hbuf : m.buf) (hlif :
    m.lif) (hmem : m.mem) (h : Kept m z s) : KeptO m z (State.place s a1 a2) := by
  unfold State.place
  repeat' first
    | with_reducible assumption
    | intro _
    | subst x
    | (extract_lets +onlyGivenNames x; have hx : Kept m z x := ?_; clear_value x)
    | (extract_lets +onlyGivenNames x; have hx : KeptO m z x := ?_; clear_value x)
    | (extract_lets +onlyGivenNames x; clear_value x)
    | (extract_lets +onlyGivenNames w; revert w; intro w0)
    | with_reducible apply kept_ite
    | with_reducible apply State.bump_kept
    | with_reducible apply State.pmuAs_kept
    | with_reducible apply State.setQueue_kept
    | with_reducible apply State.toHbm_kept
    | with_reducible apply State.toRes_kept
    | with_reducible apply keptO_some
    | with_reducible apply keptO_none
    | with_reducible apply keptO_mapO3
    | with_reducible apply keptO_mapO2
    | with_reducible apply keptO_map1
    | with_reducible apply keptO_map
    | with_reducible apply keptO_bind
    | split
    | dsimp -zeta only

theorem State.dropHead_kept {a1 a2 a3 a4} (hregs : m.regs) (hout : m.out) (hhost : m.host) (hcnt : m.cnt) (hbuf :
    m.buf) (hlif : m.lif) (h : Kept m z s) : Kept m z (State.dropHead s a1 a2 a3 a4) := by
  unfold State.dropHead
  repeat' first
    | with_reducible assumption
    | intro _
    | with_reducible apply State.dropQueue_kept
    | with_reducible apply State.moved_kept

theorem State.placeWith_kept {a1 a2 a3} (hregs : m.regs) (hout : m.out) (hhost : m.host) (hcnt : m.cnt) (hbuf : m.buf)
    (hlif : m.lif) (hmem : m.mem) (h : Kept m z s) : KeptO m z (State.placeWith s a1 a2 a3) := by
  unfold State.placeWith
  repeat' first
    | with_reducible assumption
    | intro _
    | with_reducible apply kept_ite
    | with_reducible apply State.badPtr_kept
    | with_reducible apply State.dropHead_kept
    | with_reducible apply State.place_kept
    | with_reducible apply keptO_some
    | with_reducible apply keptO_none
    | (with_reducible refine keptO_eq (by with_reducible assumption) ?_)
    | with_reducible apply keptO_mapO3
    | with_reducible apply keptO_mapO2
    | with_reducible apply keptO_map1
    | with_reducible apply keptO_map
    | with_reducible apply keptO_bind
    | split

theorem State.setPrefetch_kept {a1 a2} (hregs : m.regs) (hbuf : m.buf) (h : Kept m z s) : Kept m z (State.setPrefetch s
    a1 a2) := by
  unfold State.setPrefetch
  repeat' first
    | with_reducible assumption
    | intro _
    | subst x
    | (extract_lets +onlyGivenNames x; have hx : Kept m z x := ?_; clear_value x)
    | (extract_lets +onlyGivenNames x; have hx : Kept2 m z x := ?_; clear_value x)
    | (extract_lets +onlyGivenNames x; have hx : KeptO m z x := ?_; clear_value x)
    | (extract_lets +onlyGivenNames x; clear_value x)
    | (extract_lets +onlyGivenNames w; revert w; intro w0)
    | with_reducible apply kept_ite
    | with_reducible apply State.bump_kept
    | with_reducible apply State.each_kept
    | with_reducible apply State.wr_kept
    | with_reducible apply State.wrBit_kept
    | with_reducible apply kept2_mk
    | with_reducible apply keptO_some
    | with_reducible apply keptO_none
    | with_reducible exact keptO2_get (by with_reducible assumption)
    | (with_reducible refine kept2_eq (by with_reducible assumption) ?_)
    | (with_reducible apply kept2_proj; first | with_reducible assumption | with_reducible apply kept2_foldl)
    | (with_reducible refine keptO_eq (by with_reducible assumption) ?_)
    | with_reducible apply kept_foldl
    | split
    | dsimp -zeta only
    | (with_reducible refine kept_mk rfl ?_ rfl rfl rfl rfl ?_ ?_ ?_ ?_ ?_ ?_ ?_ ?_ ?_ ?_ ?_ ?_ ?_ ?_ ?_ ?_ ?_ ?_ ?_ <;> first | with_reducible exact Or.inr rfl | exact Or.inl (by assumption) | with_reducible assumption | with_reducible exact keptO2_get (by with_reducible assumption) | (with_reducible refine kept2_eq (by with_reducible assumption) ?_) | (with_reducible refine keptO_eq (by with_reducible assumption) ?_) | with_reducible apply State.bump_kept | with_reducible apply State.each_kept | with_reducible apply State.wr_kept | with_reducible apply State.wrBit_kept)

theorem State.afterPop_kept {a1 a2} (hregs : m.regs) (hout : m.out) (hhost : m.host) (hbuf : m.buf) (h : Kept m z s) :
    Kept m z (State.afterPop s a1 a2) := by
  unfold State.afterPop
  repeat' first
    | with_reducible assumption
    | intro _
    | subst x
    | (extract_lets +onlyGivenNames x; have hx : Kept m z x := ?_; clear_value x)
    | (extract_lets +onlyGivenNames x; have hx : KeptO m z x := ?_; clear_value x)
    | (extract_lets +onlyGivenNames x; clear_value x)
    | (extract_lets +onlyGivenNames w; revert w; intro w0)
    | with_reducible apply kept_ite
    | with_reducible apply State.each_kept
    | with_reducible apply State.holdDrained_kept
    | with_reducible apply State.setQueue_kept
    | split
    | dsimp -zeta only

theorem State.unstage_kept {a1 a2} (hregs : m.regs) (hbuf : m.buf) (h : Kept m z s) : Kept m z (State.unstage s a1 a2)
    := by
  unfold State.unstage
  repeat' first
    | with_reducible assumption
    | intro _
    | subst x
    | (extract_lets +onlyGivenNames x; have hx : Kept m z x := ?_; clear_value x)
    | (extract_lets +onlyGivenNames x; clear_value x)
    | (extract_lets +onlyGivenNames w; revert w; intro w0)
    | with_reducible apply State.setPrefetch_kept
    | dsimp -zeta only

theorem State.popHead_kept {a1} (hregs : m.regs) (hout : m.out) (hhost : m.host) (hbuf : m.buf) (hmem : m.mem) (h :
    Kept m z s) : KeptO2 m z (State.popHead s a1) := by
  unfold State.popHead
  repeat' first
    | with_reducible assumption
    | intro _
    | subst x
    | (extract_lets +onlyGivenNames x; have hx : Kept m z x := ?_; clear_value x)
    | (extract_lets +onlyGivenNames x; have hx : Kept2 m z x := ?_; clear_value x)
    | (extract_lets +onlyGivenNames x; have hx : KeptO m z x := ?_; clear_value x)
    | (extract_lets +onlyGivenNames x; have hx : KeptO2 m z x := ?_; clear_value x)
    | (extract_lets +onlyGivenNames x; clear_value x)
    | (extract_lets +onlyGivenNames w; revert w; intro w0)
    | with_reducible apply State.afterPop_kept
    | with_reducible apply State.onlyIf_kept
    | with_reducible apply State.setQueue_kept
    | with_reducible apply State.trim_kept
    | with_reducible apply State.trimRes_kept
    | with_reducible apply State.uncorrectable_kept
    | with_reducible apply State.unstage_kept
    | with_reducible apply kept2_mk
    | with_reducible apply keptO2_some
    | with_reducible apply keptO2_none
    | with_reducible exact keptO2_get (by with_reducible assumption)
    | (with_reducible refine kept2_eq (by with_reducible assumption) ?_)
    | (with_reducible apply kept2_proj; first | with_reducible assumption | with_reducible apply kept2_foldl | with_reducible apply State.trim_kept | with_reducible apply State.trimRes_kept)
    | (with_reducible refine keptO2_eq (by with_reducible assumption) ?_)
    | (with_reducible refine keptO2_eqp (by with_reducible assumption) ?_)
    | with_reducible apply keptO2_map2
    | with_reducible apply keptO2_map3
    | with_reducible apply keptO2_map
    | split
    | dsimp -zeta only

theorem State.upsetQueue_kept {a1 a2} (hregs : m.regs) (hbuf : m.buf) (hmem : m.mem) (h : Kept m z s) : Kept m z (State.upsetQueue s a1 a2) := by
  unfold State.upsetQueue
  repeat' first
    | with_reducible assumption
    | intro _
    | subst x
    | (extract_lets +onlyGivenNames x; have hx : Kept m z x := ?_; clear_value x)
    | (extract_lets +onlyGivenNames x; have hx : Kept2 m z x := ?_; clear_value x)
    | (extract_lets +onlyGivenNames x; have hx : KeptO m z x := ?_; clear_value x)
    | (extract_lets +onlyGivenNames x; have hx : KeptO2 m z x := ?_; clear_value x)
    | (extract_lets +onlyGivenNames x; clear_value x)
    | (extract_lets +onlyGivenNames w; revert w; intro w0)
    | with_reducible apply State.badPtr_kept
    | with_reducible apply State.dropHead_kept
    | with_reducible apply State.flipSecded_kept
    | with_reducible apply State.popHead_kept
    | with_reducible apply State.setQueue_kept
    | with_reducible apply keptO2_some
    | with_reducible apply keptO2_none
    | with_reducible exact keptO2_get (by with_reducible assumption)
    | (with_reducible refine kept2_eq (by with_reducible assumption) ?_)
    | (with_reducible apply kept2_proj; first | with_reducible assumption | with_reducible apply kept2_foldl)
    | (with_reducible refine keptO2_eq (by with_reducible assumption) ?_)
    | (with_reducible refine keptO2_eqp (by with_reducible assumption) ?_)
    | split
    | dsimp -zeta only

theorem State.strikeQueue_kept {a1 a2} (hregs : m.regs) (hout : m.out) (hhost : m.host) (hcnt : m.cnt) (hbuf : m.buf)
    (hlif : m.lif) (hmem : m.mem) (h : Kept m z s) : Kept m z (State.strikeQueue s a1 a2) := by
  unfold State.strikeQueue
  repeat' first
    | with_reducible assumption
    | intro _
    | subst x
    | (extract_lets +onlyGivenNames x; have hx : Kept m z x := ?_; clear_value x)
    | (extract_lets +onlyGivenNames x; have hx : Kept2 m z x := ?_; clear_value x)
    | (extract_lets +onlyGivenNames x; have hx : KeptO m z x := ?_; clear_value x)
    | (extract_lets +onlyGivenNames x; have hx : KeptO2 m z x := ?_; clear_value x)
    | (extract_lets +onlyGivenNames x; clear_value x)
    | (extract_lets +onlyGivenNames w; revert w; intro w0)
    | with_reducible apply State.badPtr_kept
    | with_reducible apply State.dropHead_kept
    | with_reducible apply State.flipSecded_kept
    | with_reducible apply State.popHead_kept
    | with_reducible apply State.setQueue_kept
    | with_reducible apply keptO2_some
    | with_reducible apply keptO2_none
    | with_reducible exact keptO2_get (by with_reducible assumption)
    | (with_reducible refine kept2_eq (by with_reducible assumption) ?_)
    | (with_reducible apply kept2_proj; first | with_reducible assumption | with_reducible apply kept2_foldl)
    | (with_reducible refine keptO2_eq (by with_reducible assumption) ?_)
    | (with_reducible refine keptO2_eqp (by with_reducible assumption) ?_)
    | split
    | dsimp -zeta only

theorem State.nextCopy_kept {a0 a1} (hregs : m.regs) (hout : m.out) (hhost : m.host) (hcnt : m.cnt) (hbuf : m.buf)
    (hlif : m.lif) (hmem : m.mem) (h : Kept m z s) : Kept2 m z (State.nextCopy a0 a1 s) := by
  induction a1 generalizing a0 s
  all_goals
    unfold State.nextCopy
    repeat' first
      | with_reducible assumption
      | intro _
      | with_reducible apply_assumption
      | with_reducible apply State.badPtr_kept
      | with_reducible apply State.dropHead_kept
      | with_reducible apply State.popHead_kept
      | with_reducible apply kept2_mk
      | with_reducible apply kept2_mk
      | with_reducible apply keptO2_some
      | with_reducible apply keptO2_none
      | with_reducible exact keptO2_get (by with_reducible assumption)
      | (with_reducible refine kept2_eq (by with_reducible assumption) ?_)
      | (with_reducible apply kept2_proj; first | with_reducible assumption | with_reducible apply kept2_foldl)
      | (with_reducible refine keptO2_eq (by with_reducible assumption) ?_)
      | (with_reducible refine keptO2_eqp (by with_reducible assumption) ?_)
      | split
      | dsimp -zeta only

theorem State.enqueueEgress_kept {a1 a2 a3 a4} (hregs : m.regs) (hout : m.out) (hhost : m.host) (hcnt : m.cnt) (hbuf :
    m.buf) (hlif : m.lif) (hmem : m.mem) (h : Kept m z s) : Kept m z (State.enqueueEgress s a1 a2 a3 a4) := by
  unfold State.enqueueEgress
  repeat' first
    | with_reducible assumption
    | intro _
    | subst x
    | (extract_lets +onlyGivenNames x; have hx : Kept m z x := ?_; clear_value x)
    | (extract_lets +onlyGivenNames x; have hx : KeptO m z x := ?_; clear_value x)
    | (extract_lets +onlyGivenNames x; clear_value x)
    | (extract_lets +onlyGivenNames w; revert w; intro w0)
    | with_reducible apply kept_ite
    | with_reducible apply State.bump_kept
    | with_reducible apply State.countQueue_kept
    | with_reducible apply State.dropHead_kept
    | with_reducible apply State.placeWith_kept
    | with_reducible apply keptO_some
    | with_reducible apply keptO_none
    | (with_reducible refine keptO_eq (by with_reducible assumption) ?_)
    | split
    | dsimp -zeta only

end Sys2Proof.Machine
end

