-- ==== Sys2Proof/Laws/KeptAdmit.lean ====
section
/-!
SUPPORT. Laws/KeptAdmit.lean: what the operations of Machine/Admit.lean keep (Laws/Kept.lean).
-/

namespace Sys2Proof.Machine

set_option linter.all false

variable {m : Mask} {z s : State}

theorem State.applySizes_kept (hregs : m.regs) (h : Kept m z s) : Kept m z (State.applySizes s) := by
  unfold State.applySizes
  repeat' first
    | with_reducible assumption
    | intro _
    | subst x
    | (extract_lets +onlyGivenNames x; have hx : Kept m z x := ?_; clear_value x)
    | (extract_lets +onlyGivenNames x; clear_value x)
    | (extract_lets +onlyGivenNames w; revert w; intro w0)
    | with_reducible apply kept_ite
    | with_reducible apply State.each_kept
    | with_reducible apply State.wr_kept
    | split
    | dsimp -zeta only

theorem execPoolSizeWrite_kept {a0 a1 a2 a3} (hregs : m.regs) (hout : m.out) (hhost : m.host) (h : Kept m z s) : KeptX
    m z (execPoolSizeWrite a0 a1 a2 a3 s) := by
  unfold execPoolSizeWrite
  repeat' first
    | with_reducible assumption
    | intro _
    | subst x
    | (extract_lets +onlyGivenNames x; have hx : Kept m z x := ?_; clear_value x)
    | (extract_lets +onlyGivenNames x; clear_value x)
    | (extract_lets +onlyGivenNames w; revert w; intro w0)
    | with_reducible apply kept_ite
    | with_reducible apply State.applySizes_kept
    | with_reducible apply State.hostWrite_kept
    | with_reducible apply State.lateErr_kept
    | with_reducible apply State.mergeReg_kept
    | with_reducible apply State.wr_kept
    | with_reducible apply keptX_ok
    | split
    | dsimp -zeta only

theorem execPoolLimitWrite_kept {a0 a1 a2 a3 a4} (hregs : m.regs) (hout : m.out) (hhost : m.host) (h : Kept m z s) :
    KeptX m z (execPoolLimitWrite a0 a1 a2 a3 a4 s) := by
  unfold execPoolLimitWrite
  repeat' first
    | with_reducible assumption
    | intro _
    | subst x
    | (extract_lets +onlyGivenNames x; have hx : Kept m z x := ?_; clear_value x)
    | (extract_lets +onlyGivenNames x; clear_value x)
    | (extract_lets +onlyGivenNames w; revert w; intro w0)
    | with_reducible apply kept_ite
    | with_reducible apply State.hostWrite_kept
    | with_reducible apply State.lateErr_kept
    | with_reducible apply State.mergeReg_kept
    | with_reducible apply keptX_ok
    | split
    | dsimp -zeta only

theorem execBodyStagingWrite_kept {a0 a1} (hregs : m.regs) (hout : m.out) (hhost : m.host) (hfd : m.fd) (hbuf : m.buf)
    (hmem : m.mem) (h : Kept m z s) : KeptX m z (execBodyStagingWrite a0 a1 s) := by
  unfold execBodyStagingWrite
  repeat' first
    | with_reducible assumption
    | intro _
    | subst x
    | (extract_lets +onlyGivenNames x; have hx : Kept m z x := ?_; clear_value x)
    | (extract_lets +onlyGivenNames x; have hx : Kept2 m z x := ?_; clear_value x)
    | (extract_lets +onlyGivenNames x; have hx : KeptO m z x := ?_; clear_value x)
    | (extract_lets +onlyGivenNames x; have hx : KeptO2 m z x := ?_; clear_value x)
    | (extract_lets +onlyGivenNames x; clear_value x)
    | (extract_lets +onlyGivenNames w; revert w; intro w0)
    | with_reducible apply kept_ite
    | with_reducible apply State.freeCells_kept
    | with_reducible apply State.setBody_kept
    | with_reducible apply State.setPkt_kept
    | with_reducible apply State.takeCells_kept
    | with_reducible apply State.takeUntilRefused_kept
    | (with_reducible apply kept2_proj; with_reducible assumption)
    | with_reducible apply State.withPkt_kept
    | with_reducible apply keptX_ok
    | with_reducible apply keptO2_some
    | with_reducible apply keptO2_none
    | with_reducible exact keptO2_get (by with_reducible assumption)
    | (with_reducible refine kept2_eq (by with_reducible assumption) ?_)
    | (with_reducible apply kept2_proj; first | with_reducible assumption | with_reducible apply kept2_foldl)
    | (with_reducible refine keptO2_eq (by with_reducible assumption) ?_)
    | (with_reducible refine keptO2_eqp (by with_reducible assumption) ?_)
    | split
    | dsimp -zeta only

theorem execDiscardNotice_kept {a0} (hregs : m.regs) (hout : m.out) (hhost : m.host) (hbrg : m.brg) (hbuf : m.buf) (h :
    Kept m z s) : KeptX m z (execDiscardNotice a0 s) := by
  unfold execDiscardNotice
  repeat' first
    | with_reducible assumption
    | intro _
    | subst x
    | (extract_lets +onlyGivenNames x; have hx : Kept m z x := ?_; clear_value x)
    | (extract_lets +onlyGivenNames x; have hx : Kept2 m z x := ?_; clear_value x)
    | (extract_lets +onlyGivenNames x; have hx : KeptO m z x := ?_; clear_value x)
    | (extract_lets +onlyGivenNames x; clear_value x)
    | (extract_lets +onlyGivenNames w; revert w; intro w0)
    | with_reducible apply kept_ite
    | with_reducible apply State.freeBody_kept
    | with_reducible apply keptX_ok
    | with_reducible apply kept2_mk
    | with_reducible apply keptO_some
    | with_reducible apply keptO_none
    | with_reducible exact keptO2_get (by with_reducible assumption)
    | (with_reducible refine kept2_eq (by with_reducible assumption) ?_)
    | (with_reducible apply kept2_proj; first | with_reducible assumption | with_reducible apply kept2_foldl)
    | (with_reducible refine keptO_eq (by with_reducible assumption) ?_)
    | with_reducible apply kept_foldl
    | split
    | dsimp -zeta only
    | (with_reducible refine kept_mk rfl ?_ rfl rfl rfl rfl ?_ ?_ ?_ ?_ ?_ ?_ ?_ ?_ ?_ ?_ ?_ ?_ ?_ ?_ ?_ ?_ ?_ ?_ ?_ <;> first | with_reducible exact Or.inr rfl | exact Or.inl (by assumption) | with_reducible assumption | with_reducible exact keptO2_get (by with_reducible assumption) | (with_reducible refine kept2_eq (by with_reducible assumption) ?_) | (with_reducible refine keptO_eq (by with_reducible assumption) ?_) | with_reducible apply State.freeBody_kept)

theorem execStagingExpire_kept {a0} (hregs : m.regs) (hout : m.out) (hhost : m.host) (hbuf : m.buf) (h : Kept m z s) :
    KeptX m z (execStagingExpire a0 s) := by
  unfold execStagingExpire
  repeat' first
    | with_reducible assumption
    | intro _
    | with_reducible apply kept_ite
    | with_reducible apply State.bump_kept
    | with_reducible apply State.freeCells_kept
    | with_reducible apply State.setBody_kept
    | with_reducible apply keptX_ok
    | split

theorem State.storeDesc_kept {a1} (hregs : m.regs) (hout : m.out) (hhost : m.host) (hbuf : m.buf) (hmem : m.mem) (h :
    Kept m z s) : Kept2 m z (State.storeDesc s a1) := by
  unfold State.storeDesc
  repeat' first
    | with_reducible assumption
    | intro _
    | subst x
    | (extract_lets +onlyGivenNames x; have hx : Kept m z x := ?_; clear_value x)
    | (extract_lets +onlyGivenNames x; have hx : Kept2 m z x := ?_; clear_value x)
    | (extract_lets +onlyGivenNames x; have hx : KeptO m z x := ?_; clear_value x)
    | (extract_lets +onlyGivenNames x; have hx : KeptO2 m z x := ?_; clear_value x)
    | (extract_lets +onlyGivenNames x; clear_value x)
    | (extract_lets +onlyGivenNames w; revert w; intro w0)
    | with_reducible apply kept_ite
    | with_reducible apply State.freeCells_kept
    | with_reducible apply State.setBody_kept
    | with_reducible apply State.setStored_kept
    | with_reducible apply State.takeCells_kept
    | with_reducible apply kept2_mk
    | with_reducible apply kept2_mk
    | with_reducible apply keptO2_some
    | with_reducible apply keptO2_none
    | with_reducible exact keptO2_get (by with_reducible assumption)
    | (with_reducible refine kept2_eq (by with_reducible assumption) ?_)
    | (with_reducible apply kept2_proj; first | with_reducible assumption | with_reducible apply kept2_foldl)
    | (with_reducible refine keptO2_eq (by with_reducible assumption) ?_)
    | (with_reducible refine keptO2_eqp (by with_reducible assumption) ?_)
    | split
    | dsimp -zeta only

theorem State.wredCheck_kept {a1 a2 a3 a4 a5 a6} (hbuf : m.buf) (h : Kept m z s) : Kept2 m z (State.wredCheck s a1 a2
    a3 a4 a5 a6) := by
  unfold State.wredCheck
  repeat' first
    | with_reducible assumption
    | intro _
    | subst x
    | (extract_lets +onlyGivenNames x; have hx : Kept m z x := ?_; clear_value x)
    | (extract_lets +onlyGivenNames x; have hx : Kept2 m z x := ?_; clear_value x)
    | (extract_lets +onlyGivenNames x; have hx : KeptO m z x := ?_; clear_value x)
    | (extract_lets +onlyGivenNames x; clear_value x)
    | (extract_lets +onlyGivenNames w; revert w; intro w0)
    | with_reducible apply kept_ite
    | with_reducible apply kept2_mk
    | with_reducible apply kept2_mk
    | with_reducible apply keptO_some
    | with_reducible apply keptO_none
    | with_reducible exact keptO2_get (by with_reducible assumption)
    | (with_reducible refine kept2_eq (by with_reducible assumption) ?_)
    | (with_reducible apply kept2_proj; first | with_reducible assumption | with_reducible apply kept2_foldl)
    | (with_reducible refine keptO_eq (by with_reducible assumption) ?_)
    | with_reducible apply kept_foldl
    | split
    | dsimp -zeta only
    | (with_reducible refine kept_mk rfl ?_ rfl rfl rfl rfl ?_ ?_ ?_ ?_ ?_ ?_ ?_ ?_ ?_ ?_ ?_ ?_ ?_ ?_ ?_ ?_ ?_ ?_ ?_ <;> first | with_reducible exact Or.inr rfl | exact Or.inl (by assumption) | with_reducible assumption | with_reducible exact keptO2_get (by with_reducible assumption) | (with_reducible refine kept2_eq (by with_reducible assumption) ?_) | (with_reducible refine keptO_eq (by with_reducible assumption) ?_))

theorem State.admitChecks_kept {a1 a2 a3 a4} (hbuf : m.buf) (h : Kept m z s) : Kept3 m z (State.admitChecks s a1 a2 a3
    a4) := by
  unfold State.admitChecks
  repeat' first
    | with_reducible assumption
    | intro _
    | subst x
    | (extract_lets +onlyGivenNames x; have hx : Kept m z x := ?_; clear_value x)
    | (extract_lets +onlyGivenNames x; have hx : Kept2 m z x := ?_; clear_value x)
    | (extract_lets +onlyGivenNames x; have hx : Kept3 m z x := ?_; clear_value x)
    | (extract_lets +onlyGivenNames x; have hx : KeptO m z x := ?_; clear_value x)
    | (extract_lets +onlyGivenNames x; clear_value x)
    | (extract_lets +onlyGivenNames w; revert w; intro w0)
    | with_reducible apply kept_ite
    | with_reducible apply State.setQueue_kept
    | with_reducible apply State.wredCheck_kept
    | with_reducible apply kept2_mk
    | with_reducible apply kept3_mk
    | (with_reducible refine kept2_eq (by with_reducible assumption) ?_)
    | (with_reducible apply kept2_proj; first | with_reducible assumption | with_reducible apply kept2_foldl | with_reducible apply State.wredCheck_kept)
    | (with_reducible refine kept3_eq (by with_reducible assumption) ?_)
    | (with_reducible apply kept3_proj; first | with_reducible assumption)
    | split
    | dsimp -zeta only

theorem State.refuseCopy_kept {a1 a2 a3 a4} (hregs : m.regs) (hout : m.out) (hcnt : m.cnt) (hbuf : m.buf) (hlif :
    m.lif) (h : Kept m z s) : Kept2 m z (State.refuseCopy s a1 a2 a3 a4) := by
  unfold State.refuseCopy
  repeat' first
    | with_reducible assumption
    | intro _
    | subst x
    | (extract_lets +onlyGivenNames x; have hx : Kept m z x := ?_; clear_value x)
    | (extract_lets +onlyGivenNames x; have hx : Kept2 m z x := ?_; clear_value x)
    | (extract_lets +onlyGivenNames x; have hx : KeptO m z x := ?_; clear_value x)
    | (extract_lets +onlyGivenNames x; clear_value x)
    | (extract_lets +onlyGivenNames w; revert w; intro w0)
    | with_reducible apply kept_ite
    | with_reducible apply State.bump_kept
    | with_reducible apply State.countQueue_kept
    | with_reducible apply State.dropIngress_kept
    | with_reducible apply State.pmuAs_kept
    | with_reducible apply State.uncharge_kept
    | with_reducible apply kept2_mk
    | with_reducible apply kept2_mk
    | with_reducible apply keptO_some
    | with_reducible apply keptO_none
    | with_reducible exact keptO2_get (by with_reducible assumption)
    | (with_reducible refine kept2_eq (by with_reducible assumption) ?_)
    | (with_reducible apply kept2_proj; first | with_reducible assumption | with_reducible apply kept2_foldl)
    | (with_reducible refine keptO_eq (by with_reducible assumption) ?_)
    | with_reducible apply kept_foldl
    | split
    | dsimp -zeta only
    | (with_reducible refine kept_mk rfl ?_ rfl rfl rfl rfl ?_ ?_ ?_ ?_ ?_ ?_ ?_ ?_ ?_ ?_ ?_ ?_ ?_ ?_ ?_ ?_ ?_ ?_ ?_ <;> first | with_reducible exact Or.inr rfl | exact Or.inl (by assumption) | with_reducible assumption | with_reducible exact keptO2_get (by with_reducible assumption) | (with_reducible refine kept2_eq (by with_reducible assumption) ?_) | (with_reducible refine keptO_eq (by with_reducible assumption) ?_) | with_reducible apply State.bump_kept | with_reducible apply State.countQueue_kept | with_reducible apply State.dropIngress_kept | with_reducible apply State.pmuAs_kept | with_reducible apply State.uncharge_kept)

theorem State.admitCopy_kept {a1 a2 a3 a4 a5 a6} (hregs : m.regs) (hout : m.out) (hhost : m.host) (hcnt : m.cnt) (hbuf
    : m.buf) (hlif : m.lif) (hmem : m.mem) (h : Kept m z s) : KeptO m z (State.admitCopy s a1 a2 a3 a4 a5 a6) := by
  unfold State.admitCopy
  repeat' first
    | with_reducible assumption
    | intro _
    | subst x
    | (extract_lets +onlyGivenNames x; have hx : Kept m z x := ?_; clear_value x)
    | (extract_lets +onlyGivenNames x; have hx : Kept2 m z x := ?_; clear_value x)
    | (extract_lets +onlyGivenNames x; have hx : KeptO m z x := ?_; clear_value x)
    | (extract_lets +onlyGivenNames x; have hx : KeptO2 m z x := ?_; clear_value x)
    | (extract_lets +onlyGivenNames x; clear_value x)
    | (extract_lets +onlyGivenNames w; revert w; intro w0)
    | with_reducible apply kept_ite
    | with_reducible apply State.bump_kept
    | with_reducible apply State.countQueue_kept
    | with_reducible apply State.placeWith_kept
    | with_reducible apply State.pmuAs_kept
    | with_reducible apply State.takeName_kept
    | with_reducible apply keptO_some
    | with_reducible apply keptO_none
    | with_reducible apply keptO2_some
    | with_reducible apply keptO2_none
    | with_reducible exact keptO2_get (by with_reducible assumption)
    | (with_reducible refine kept2_eq (by with_reducible assumption) ?_)
    | (with_reducible apply kept2_proj; first | with_reducible assumption | with_reducible apply kept2_foldl)
    | (with_reducible refine keptO_eq (by with_reducible assumption) ?_)
    | (with_reducible refine keptO2_eq (by with_reducible assumption) ?_)
    | (with_reducible refine keptO2_eqp (by with_reducible assumption) ?_)
    | with_reducible apply keptO_mapO3
    | with_reducible apply keptO_mapO2
    | with_reducible apply keptO_map1
    | with_reducible apply keptO_map
    | with_reducible apply keptO_bind
    | split
    | dsimp -zeta only

theorem State.putDesc_kept {a1 a2} (hbrg : m.brg) (h : Kept m z s) : Kept m z (State.putDesc s a1 a2) := by
  unfold State.putDesc
  repeat' first
    | with_reducible assumption
    | intro _
    | subst x
    | (extract_lets +onlyGivenNames x; have hx : Kept m z x := ?_; clear_value x)
    | (extract_lets +onlyGivenNames x; have hx : Kept2 m z x := ?_; clear_value x)
    | (extract_lets +onlyGivenNames x; have hx : KeptO m z x := ?_; clear_value x)
    | (extract_lets +onlyGivenNames x; clear_value x)
    | (extract_lets +onlyGivenNames w; revert w; intro w0)
    | with_reducible apply kept_ite
    | with_reducible apply kept2_mk
    | with_reducible apply keptO_some
    | with_reducible apply keptO_none
    | with_reducible exact keptO2_get (by with_reducible assumption)
    | (with_reducible refine kept2_eq (by with_reducible assumption) ?_)
    | (with_reducible apply kept2_proj; first | with_reducible assumption | with_reducible apply kept2_foldl)
    | (with_reducible refine keptO_eq (by with_reducible assumption) ?_)
    | with_reducible apply kept_foldl
    | split
    | dsimp -zeta only
    | (with_reducible refine kept_mk rfl ?_ rfl rfl rfl rfl ?_ ?_ ?_ ?_ ?_ ?_ ?_ ?_ ?_ ?_ ?_ ?_ ?_ ?_ ?_ ?_ ?_ ?_ ?_ <;> first | with_reducible exact Or.inr rfl | exact Or.inl (by assumption) | with_reducible assumption | with_reducible exact keptO2_get (by with_reducible assumption) | (with_reducible refine kept2_eq (by with_reducible assumption) ?_) | (with_reducible refine keptO_eq (by with_reducible assumption) ?_))

theorem State.sendVerdict_kept {a1 a2 a3} (hregs : m.regs) (hbrg : m.brg) (h : Kept m z s) : Kept m z
    (State.sendVerdict s a1 a2 a3) := by
  unfold State.sendVerdict
  repeat' first
    | with_reducible assumption
    | intro _
    | subst x
    | (extract_lets +onlyGivenNames x; have hx : Kept m z x := ?_; clear_value x)
    | (extract_lets +onlyGivenNames x; have hx : Kept2 m z x := ?_; clear_value x)
    | (extract_lets +onlyGivenNames x; have hx : KeptO m z x := ?_; clear_value x)
    | (extract_lets +onlyGivenNames x; clear_value x)
    | (extract_lets +onlyGivenNames w; revert w; intro w0)
    | with_reducible apply kept_ite
    | with_reducible apply State.bump_kept
    | with_reducible apply kept2_mk
    | with_reducible apply keptO_some
    | with_reducible apply keptO_none
    | with_reducible exact keptO2_get (by with_reducible assumption)
    | (with_reducible refine kept2_eq (by with_reducible assumption) ?_)
    | (with_reducible apply kept2_proj; first | with_reducible assumption | with_reducible apply kept2_foldl)
    | (with_reducible refine keptO_eq (by with_reducible assumption) ?_)
    | with_reducible apply kept_foldl
    | split
    | dsimp -zeta only
    | (with_reducible refine kept_mk rfl ?_ rfl rfl rfl rfl ?_ ?_ ?_ ?_ ?_ ?_ ?_ ?_ ?_ ?_ ?_ ?_ ?_ ?_ ?_ ?_ ?_ ?_ ?_ <;> first | with_reducible exact Or.inr rfl | exact Or.inl (by assumption) | with_reducible assumption | with_reducible exact keptO2_get (by with_reducible assumption) | (with_reducible refine kept2_eq (by with_reducible assumption) ?_) | (with_reducible refine keptO_eq (by with_reducible assumption) ?_) | with_reducible apply State.bump_kept)

theorem State.poisonedDesc_kept {a1} (hregs : m.regs) (hout : m.out) (hhost : m.host) (hcnt : m.cnt) (hbrg : m.brg)
    (hbuf : m.buf) (hlif : m.lif) (h : Kept m z s) : Kept m z (State.poisonedDesc s a1) := by
  unfold State.poisonedDesc
  repeat' first
    | with_reducible assumption
    | intro _
    | subst x
    | (extract_lets +onlyGivenNames x; have hx : Kept m z x := ?_; clear_value x)
    | (extract_lets +onlyGivenNames x; have hx : KeptO m z x := ?_; clear_value x)
    | (extract_lets +onlyGivenNames x; clear_value x)
    | (extract_lets +onlyGivenNames w; revert w; intro w0)
    | with_reducible apply State.bump_kept
    | with_reducible apply State.dropIngress_kept
    | with_reducible apply State.freeBody_kept
    | with_reducible apply State.putDesc_kept
    | with_reducible apply State.sendVerdict_kept
    | with_reducible apply State.uncharge_kept
    | dsimp -zeta only

theorem State.decideCopy_kept {a1 a2 a3 a4 a5} (hregs : m.regs) (hout : m.out) (hhost : m.host) (hcnt : m.cnt) (hbrg :
    m.brg) (hbuf : m.buf) (hlif : m.lif) (hmem : m.mem) (h : Kept m z s) : Kept m z (State.decideCopy s a1 a2 a3 a4 a5)
    := by
  unfold State.decideCopy
  repeat' first
    | with_reducible assumption
    | intro _
    | subst x
    | (extract_lets +onlyGivenNames x; have hx : Kept m z x := ?_; clear_value x)
    | (extract_lets +onlyGivenNames x; have hx : Kept2 m z x := ?_; clear_value x)
    | (extract_lets +onlyGivenNames x; have hx : Kept3 m z x := ?_; clear_value x)
    | (extract_lets +onlyGivenNames x; have hx : KeptO m z x := ?_; clear_value x)
    | (extract_lets +onlyGivenNames x; clear_value x)
    | (extract_lets +onlyGivenNames w; revert w; intro w0)
    | with_reducible apply kept_ite
    | with_reducible apply State.admitChecks_kept
    | with_reducible apply State.admitCopy_kept
    | with_reducible apply State.bufSync_kept
    | with_reducible apply State.bump_kept
    | with_reducible apply State.dropStored_kept
    | with_reducible apply State.freeBody_kept
    | with_reducible apply State.pmuAs_kept
    | with_reducible apply State.putDesc_kept
    | with_reducible apply State.refuseCopy_kept
    | with_reducible apply State.sendVerdict_kept
    | with_reducible apply State.storeDesc_kept
    | with_reducible apply kept2_mk
    | with_reducible apply keptO_some
    | with_reducible apply keptO_none
    | (with_reducible refine kept2_eq (by with_reducible assumption) ?_)
    | (with_reducible apply kept2_proj; first | with_reducible assumption | with_reducible apply kept2_foldl | with_reducible apply State.refuseCopy_kept | with_reducible apply State.storeDesc_kept)
    | (with_reducible refine kept3_eq (by with_reducible assumption) ?_)
    | (with_reducible apply kept3_proj; first | with_reducible assumption | with_reducible apply State.admitChecks_kept)
    | (with_reducible refine keptO_eq (by with_reducible assumption) ?_)
    | split
    | dsimp -zeta only

theorem State.takeDesc_kept {a1} (hbrg : m.brg) (h : Kept m z s) : Kept m z (State.takeDesc s a1) := by
  unfold State.takeDesc
  repeat' first
    | with_reducible assumption
    | intro _
    | subst x
    | (extract_lets +onlyGivenNames x; have hx : Kept m z x := ?_; clear_value x)
    | (extract_lets +onlyGivenNames x; have hx : Kept2 m z x := ?_; clear_value x)
    | (extract_lets +onlyGivenNames x; have hx : KeptO m z x := ?_; clear_value x)
    | (extract_lets +onlyGivenNames x; clear_value x)
    | (extract_lets +onlyGivenNames w; revert w; intro w0)
    | with_reducible apply kept_ite
    | with_reducible apply kept2_mk
    | with_reducible apply keptO_some
    | with_reducible apply keptO_none
    | with_reducible exact keptO2_get (by with_reducible assumption)
    | (with_reducible refine kept2_eq (by with_reducible assumption) ?_)
    | (with_reducible apply kept2_proj; first | with_reducible assumption | with_reducible apply kept2_foldl)
    | (with_reducible refine keptO_eq (by with_reducible assumption) ?_)
    | with_reducible apply kept_foldl
    | split
    | dsimp -zeta only
    | (with_reducible refine kept_mk rfl ?_ rfl rfl rfl rfl ?_ ?_ ?_ ?_ ?_ ?_ ?_ ?_ ?_ ?_ ?_ ?_ ?_ ?_ ?_ ?_ ?_ ?_ ?_ <;> first | with_reducible exact Or.inr rfl | exact Or.inl (by assumption) | with_reducible assumption | with_reducible exact keptO2_get (by with_reducible assumption) | (with_reducible refine kept2_eq (by with_reducible assumption) ?_) | (with_reducible refine keptO_eq (by with_reducible assumption) ?_))

theorem execAdmissionDecision_kept {a0 a1 a2} (hregs : m.regs) (hout : m.out) (hhost : m.host) (hcnt : m.cnt) (hbrg :
    m.brg) (hbuf : m.buf) (hlif : m.lif) (hmem : m.mem) (h : Kept m z s) : KeptX m z (execAdmissionDecision a0 a1 a2 s)
    := by
  unfold execAdmissionDecision
  repeat' first
    | with_reducible assumption
    | intro _
    | subst x
    | (extract_lets +onlyGivenNames x; have hx : Kept m z x := ?_; clear_value x)
    | (extract_lets +onlyGivenNames x; clear_value x)
    | (extract_lets +onlyGivenNames w; revert w; intro w0)
    | with_reducible apply kept_ite
    | with_reducible apply State.bufSync_kept
    | with_reducible apply State.decideCopy_kept
    | with_reducible apply State.poisonedDesc_kept
    | with_reducible apply State.putDesc_kept
    | with_reducible apply State.takeDesc_kept
    | with_reducible apply keptX_ok
    | split
    | dsimp -zeta only

theorem execQueueStateCapture_kept {a0 a1 a2} (hregs : m.regs) (hout : m.out) (hhost : m.host) (h : Kept m z s) : KeptX
    m z (execQueueStateCapture a0 a1 a2 s) := by
  unfold execQueueStateCapture
  repeat' first
    | with_reducible assumption
    | intro _
    | subst x
    | (extract_lets +onlyGivenNames x; have hx : Kept m z x := ?_; clear_value x)
    | (extract_lets +onlyGivenNames x; clear_value x)
    | (extract_lets +onlyGivenNames w; revert w; intro w0)
    | with_reducible apply State.hostWrite_kept
    | with_reducible apply State.mergeReg_kept
    | with_reducible apply State.wr_kept
    | with_reducible apply State.wr64_kept
    | with_reducible apply State.wrBit_kept
    | with_reducible apply State.wrWord_kept
    | with_reducible apply keptX_ok
    | dsimp -zeta only

theorem execWredSeedWrite_kept {a0 a1 a2} (hregs : m.regs) (hout : m.out) (hhost : m.host) (hbuf : m.buf) (h : Kept m z
    s) : KeptX m z (execWredSeedWrite a0 a1 a2 s) := by
  unfold execWredSeedWrite
  repeat' first
    | with_reducible assumption
    | intro _
    | subst x
    | (extract_lets +onlyGivenNames x; have hx : Kept m z x := ?_; clear_value x)
    | (extract_lets +onlyGivenNames x; have hx : Kept2 m z x := ?_; clear_value x)
    | (extract_lets +onlyGivenNames x; have hx : KeptO m z x := ?_; clear_value x)
    | (extract_lets +onlyGivenNames x; clear_value x)
    | (extract_lets +onlyGivenNames w; revert w; intro w0)
    | with_reducible apply kept_ite
    | with_reducible apply State.hostWrite_kept
    | with_reducible apply State.lateErr_kept
    | with_reducible apply State.mergeReg_kept
    | with_reducible apply keptX_ok
    | with_reducible apply kept2_mk
    | with_reducible apply keptO_some
    | with_reducible apply keptO_none
    | with_reducible exact keptO2_get (by with_reducible assumption)
    | (with_reducible refine kept2_eq (by with_reducible assumption) ?_)
    | (with_reducible apply kept2_proj; first | with_reducible assumption | with_reducible apply kept2_foldl)
    | (with_reducible refine keptO_eq (by with_reducible assumption) ?_)
    | with_reducible apply kept_foldl
    | split
    | dsimp -zeta only
    | (with_reducible refine kept_mk rfl ?_ rfl rfl rfl rfl ?_ ?_ ?_ ?_ ?_ ?_ ?_ ?_ ?_ ?_ ?_ ?_ ?_ ?_ ?_ ?_ ?_ ?_ ?_ <;> first | with_reducible exact Or.inr rfl | exact Or.inl (by assumption) | with_reducible assumption | with_reducible exact keptO2_get (by with_reducible assumption) | (with_reducible refine kept2_eq (by with_reducible assumption) ?_) | (with_reducible refine keptO_eq (by with_reducible assumption) ?_) | with_reducible apply State.hostWrite_kept | with_reducible apply State.lateErr_kept | with_reducible apply State.mergeReg_kept)

theorem execAuditStart_kept {a0 a1 a2} (hregs : m.regs) (hout : m.out) (hhost : m.host) (hbuf : m.buf) (h : Kept m z s)
    : KeptX m z (execAuditStart a0 a1 a2 s) := by
  unfold execAuditStart
  repeat' first
    | with_reducible assumption
    | intro _
    | subst x
    | (extract_lets +onlyGivenNames x; have hx : Kept m z x := ?_; clear_value x)
    | (extract_lets +onlyGivenNames x; have hx : Kept2 m z x := ?_; clear_value x)
    | (extract_lets +onlyGivenNames x; have hx : KeptO m z x := ?_; clear_value x)
    | (extract_lets +onlyGivenNames x; clear_value x)
    | (extract_lets +onlyGivenNames w; revert w; intro w0)
    | with_reducible apply kept_ite
    | with_reducible apply State.hostWrite_kept
    | with_reducible apply State.wr_kept
    | with_reducible apply keptX_ok
    | with_reducible apply kept2_mk
    | with_reducible apply keptO_some
    | with_reducible apply keptO_none
    | with_reducible exact keptO2_get (by with_reducible assumption)
    | (with_reducible refine kept2_eq (by with_reducible assumption) ?_)
    | (with_reducible apply kept2_proj; first | with_reducible assumption | with_reducible apply kept2_foldl)
    | (with_reducible refine keptO_eq (by with_reducible assumption) ?_)
    | with_reducible apply kept_foldl
    | split
    | dsimp -zeta only
    | (with_reducible refine kept_mk rfl ?_ rfl rfl rfl rfl ?_ ?_ ?_ ?_ ?_ ?_ ?_ ?_ ?_ ?_ ?_ ?_ ?_ ?_ ?_ ?_ ?_ ?_ ?_ <;> first | with_reducible exact Or.inr rfl | exact Or.inl (by assumption) | with_reducible assumption | with_reducible exact keptO2_get (by with_reducible assumption) | (with_reducible refine kept2_eq (by with_reducible assumption) ?_) | (with_reducible refine keptO_eq (by with_reducible assumption) ?_) | with_reducible apply State.hostWrite_kept | with_reducible apply State.wr_kept)

theorem State.auditBoundary_kept (hregs : m.regs) (hout : m.out) (hhost : m.host) (hbuf : m.buf) (h : Kept m z s) :
    Kept m z (State.auditBoundary s) := by
  unfold State.auditBoundary
  repeat' first
    | with_reducible assumption
    | intro _
    | subst x
    | (extract_lets +onlyGivenNames x; have hx : Kept m z x := ?_; clear_value x)
    | (extract_lets +onlyGivenNames x; have hx : Kept2 m z x := ?_; clear_value x)
    | (extract_lets +onlyGivenNames x; have hx : KeptO m z x := ?_; clear_value x)
    | (extract_lets +onlyGivenNames x; clear_value x)
    | (extract_lets +onlyGivenNames w; revert w; intro w0)
    | with_reducible apply kept_ite
    | with_reducible apply State.badPtr_kept
    | with_reducible apply State.each_kept
    | with_reducible apply kept2_mk
    | with_reducible apply keptO_some
    | with_reducible apply keptO_none
    | with_reducible exact keptO2_get (by with_reducible assumption)
    | (with_reducible refine kept2_eq (by with_reducible assumption) ?_)
    | (with_reducible apply kept2_proj; first | with_reducible assumption | with_reducible apply kept2_foldl)
    | (with_reducible refine keptO_eq (by with_reducible assumption) ?_)
    | with_reducible apply kept_foldl
    | split
    | dsimp -zeta only
    | (with_reducible refine kept_mk rfl ?_ rfl rfl rfl rfl ?_ ?_ ?_ ?_ ?_ ?_ ?_ ?_ ?_ ?_ ?_ ?_ ?_ ?_ ?_ ?_ ?_ ?_ ?_ <;> first | with_reducible exact Or.inr rfl | exact Or.inl (by assumption) | with_reducible assumption | with_reducible exact keptO2_get (by with_reducible assumption) | (with_reducible refine kept2_eq (by with_reducible assumption) ?_) | (with_reducible refine keptO_eq (by with_reducible assumption) ?_) | with_reducible apply State.badPtr_kept | with_reducible apply State.each_kept)

theorem execAuditDone_kept (hregs : m.regs) (hout : m.out) (hhost : m.host) (hbuf : m.buf) (h : Kept m z s) : KeptX m z
    (execAuditDone s) := by
  unfold execAuditDone
  repeat' first
    | with_reducible assumption
    | intro _
    | subst x
    | (extract_lets +onlyGivenNames x; have hx : Kept m z x := ?_; clear_value x)
    | (extract_lets +onlyGivenNames x; have hx : Kept2 m z x := ?_; clear_value x)
    | (extract_lets +onlyGivenNames x; have hx : KeptO m z x := ?_; clear_value x)
    | (extract_lets +onlyGivenNames x; clear_value x)
    | (extract_lets +onlyGivenNames w; revert w; intro w0)
    | with_reducible apply kept_ite
    | with_reducible apply State.each_kept
    | with_reducible apply State.freeCell_kept
    | with_reducible apply State.wr_kept
    | with_reducible apply keptX_ok
    | with_reducible apply kept2_mk
    | with_reducible apply keptO_some
    | with_reducible apply keptO_none
    | with_reducible exact keptO2_get (by with_reducible assumption)
    | (with_reducible refine kept2_eq (by with_reducible assumption) ?_)
    | (with_reducible apply kept2_proj; first | with_reducible assumption | with_reducible apply kept2_foldl)
    | (with_reducible refine keptO_eq (by with_reducible assumption) ?_)
    | with_reducible apply kept_foldl
    | split
    | dsimp -zeta only
    | (with_reducible refine kept_mk rfl ?_ rfl rfl rfl rfl ?_ ?_ ?_ ?_ ?_ ?_ ?_ ?_ ?_ ?_ ?_ ?_ ?_ ?_ ?_ ?_ ?_ ?_ ?_ <;> first | with_reducible exact Or.inr rfl | exact Or.inl (by assumption) | with_reducible assumption | with_reducible exact keptO2_get (by with_reducible assumption) | (with_reducible refine kept2_eq (by with_reducible assumption) ?_) | (with_reducible refine keptO_eq (by with_reducible assumption) ?_) | with_reducible apply State.each_kept | with_reducible apply State.freeCell_kept | with_reducible apply State.wr_kept)

end Sys2Proof.Machine
end

