-- ==== Sys2Proof/Laws/KeptCommand.lean ====
section
/-!
SUPPORT. Laws/KeptCommand.lean: what the operations of Machine/Command.lean keep (Laws/Kept.lean).
-/

namespace Sys2Proof.Machine

set_option linter.all false

variable {m : Mask} {z s : State}

theorem State.command_kept {a1 a2 a3 a4 k5} (hregs : m.regs) (hhost : m.host) (hfab : m.fab) (h : Kept m z s) (hk5 : ∀
    t, Kept m z t → Kept m z (k5 t)) : Kept m z (State.command s a1 a2 a3 a4 k5) := by
  unfold State.command
  repeat' first
    | with_reducible assumption
    | intro _
    | with_reducible apply hk5
    | with_reducible apply kept_ite
    | with_reducible apply State.complete_kept
    | with_reducible apply State.refuse_kept
    | split

end Sys2Proof.Machine
end

