-- ==== Sys2Proof/Laws/KeptRegRules.lean ====
section
/-!
SUPPORT. Laws/KeptRegRules.lean: what the operations of Machine/RegRules.lean keep (Laws/Kept.lean).
-/

namespace Sys2Proof.Machine

set_option linter.all false

variable {m : Mask} {z s : State}

theorem State.dropRings_kept (hregs : m.regs) (hout : m.out) (hhost : m.host) (h : Kept m z s) : Kept m z
    (State.dropRings s) := by
  unfold State.dropRings
  repeat' first
    | with_reducible assumption
    | intro _
    | with_reducible apply kept_ite
    | with_reducible apply State.each_kept
    | with_reducible apply State.lateErr_kept
    | with_reducible apply State.secLog_kept
    | with_reducible apply State.wr_kept
    | split

theorem State.checkEnable_kept {a1 a2 a3} (hregs : m.regs) (hout : m.out) (hhost : m.host) (h : Kept m z s) : Kept m z
    (State.checkEnable s a1 a2 a3) := by
  unfold State.checkEnable
  repeat' first
    | with_reducible assumption
    | intro _
    | subst x
    | (extract_lets +onlyGivenNames x; have hx : Kept m z x := ?_; clear_value x)
    | (extract_lets +onlyGivenNames x; have hx : Kept2 m z x := ?_; clear_value x)
    | (extract_lets +onlyGivenNames x; have hx : KeptO m z x := ?_; clear_value x)
    | (extract_lets +onlyGivenNames x; clear_value x)
    | (extract_lets +onlyGivenNames w; revert w; intro w0)
    | with_reducible apply kept_ite
    | with_reducible apply State.lateErr_kept
    | with_reducible apply State.secLog_kept
    | with_reducible apply State.wr_kept
    | with_reducible apply kept2_mk
    | with_reducible apply keptO_some
    | with_reducible apply keptO_none
    | with_reducible exact keptO2_get (by with_reducible assumption)
    | (with_reducible refine kept2_eq (by with_reducible assumption) ?_)
    | (with_reducible apply kept2_proj; first | with_reducible assumption | with_reducible apply kept2_foldl)
    | (with_reducible refine keptO_eq (by with_reducible assumption) ?_)
    | with_reducible apply kept_foldl
    | split
    | dsimp -zeta only
    | (with_reducible refine kept_mk rfl ?_ rfl rfl rfl rfl ?_ ?_ ?_ ?_ ?_ ?_ ?_ ?_ ?_ ?_ ?_ ?_ ?_ ?_ ?_ ?_ ?_ ?_ ?_ <;> first | with_reducible exact Or.inr rfl | exact Or.inl (by assumption) | with_reducible assumption | with_reducible exact keptO2_get (by with_reducible assumption) | (with_reducible refine kept2_eq (by with_reducible assumption) ?_) | (with_reducible refine keptO_eq (by with_reducible assumption) ?_) | with_reducible apply State.lateErr_kept | with_reducible apply State.secLog_kept | with_reducible apply State.wr_kept)

theorem State.writePair_kept {a1 a2 a3 a4 a5} (hregs : m.regs) (hout : m.out) (hhost : m.host) (h : Kept m z s) : Kept
    m z (State.writePair s a1 a2 a3 a4 a5) := by
  unfold State.writePair
  repeat' first
    | with_reducible assumption
    | intro _
    | subst x
    | (extract_lets +onlyGivenNames x; have hx : Kept m z x := ?_; clear_value x)
    | (extract_lets +onlyGivenNames x; have hx : Kept2 m z x := ?_; clear_value x)
    | (extract_lets +onlyGivenNames x; have hx : KeptO m z x := ?_; clear_value x)
    | (extract_lets +onlyGivenNames x; clear_value x)
    | (extract_lets +onlyGivenNames w; revert w; intro w0)
    | with_reducible apply kept_ite
    | with_reducible apply State.applyPair_kept
    | with_reducible apply State.dropStaged_kept
    | with_reducible apply State.lateErr_kept
    | with_reducible apply State.secLog_kept
    | with_reducible apply kept2_mk
    | with_reducible apply keptO_some
    | with_reducible apply keptO_none
    | with_reducible exact keptO2_get (by with_reducible assumption)
    | (with_reducible refine kept2_eq (by with_reducible assumption) ?_)
    | (with_reducible apply kept2_proj; first | with_reducible assumption | with_reducible apply kept2_foldl)
    | (with_reducible refine keptO_eq (by with_reducible assumption) ?_)
    | with_reducible apply kept_foldl
    | split
    | dsimp -zeta only

theorem State.afterWrite_kept {a1 a2} (hregs : m.regs) (hout : m.out) (hclk : m.clk) (hhost : m.host) (h : Kept m z s)
    : Kept m z (State.afterWrite s a1 a2) := by
  unfold State.afterWrite
  repeat' first
    | with_reducible assumption
    | intro _
    | with_reducible apply kept_ite
    | with_reducible apply State.rclkSync_kept
    | with_reducible apply State.svcUpdate_kept
    | split

theorem State.plainWrite_kept {a1 a2 a3 a4} (hregs : m.regs) (hout : m.out) (hclk : m.clk) (hhost : m.host) (h : Kept m
    z s) : Kept m z (State.plainWrite s a1 a2 a3 a4) := by
  unfold State.plainWrite
  repeat' first
    | with_reducible assumption
    | intro _
    | subst x
    | (extract_lets +onlyGivenNames x; have hx : Kept m z x := ?_; clear_value x)
    | (extract_lets +onlyGivenNames x; clear_value x)
    | (extract_lets +onlyGivenNames w; revert w; intro w0)
    | with_reducible apply kept_ite
    | with_reducible apply State.afterWrite_kept
    | with_reducible apply State.checkEnable_kept
    | with_reducible apply State.lateErr_kept
    | with_reducible apply State.stageLow_kept
    | with_reducible apply State.wrWord_kept
    | with_reducible apply State.writePair_kept
    | split
    | dsimp -zeta only

end Sys2Proof.Machine
end

