-- ==== Sys2Proof/Laws/KeptHost.lean ====
section
/-!
SUPPORT. Laws/KeptHost.lean: what the operations of Machine/Host.lean keep (Laws/Kept.lean).
-/

namespace Sys2Proof.Machine

set_option linter.all false

variable {m : Mask} {z s : State}

theorem State.maskVec_kept {a1 a2 a3} (hout : m.out) (hhost : m.host) (h : Kept m z s) : Kept m z (State.maskVec s a1
    a2 a3) := by
  unfold State.maskVec
  repeat' first
    | with_reducible assumption
    | intro _
    | subst x
    | (extract_lets +onlyGivenNames x; have hx : Kept m z x := ?_; clear_value x)
    | (extract_lets +onlyGivenNames x; have hx : Kept2 m z x := ?_; clear_value x)
    | (extract_lets +onlyGivenNames x; have hx : KeptO m z x := ?_; clear_value x)
    | (extract_lets +onlyGivenNames x; clear_value x)
    | (extract_lets +onlyGivenNames w; revert w; intro w0)
    | with_reducible apply kept_ite
    | with_reducible apply State.emit_kept
    | with_reducible apply kept2_mk
    | with_reducible apply keptO_some
    | with_reducible apply keptO_none
    | with_reducible exact keptO2_get (by with_reducible assumption)
    | (with_reducible refine kept2_eq (by with_reducible assumption) ?_)
    | (with_reducible apply kept2_proj; first | with_reducible assumption | with_reducible apply kept2_foldl)
    | (with_reducible refine keptO_eq (by with_reducible assumption) ?_)
    | with_reducible apply kept_foldl
    | split
    | dsimp -zeta only
    | (with_reducible refine kept_mk rfl ?_ rfl rfl rfl rfl ?_ ?_ ?_ ?_ ?_ ?_ ?_ ?_ ?_ ?_ ?_ ?_ ?_ ?_ ?_ ?_ ?_ ?_ ?_ <;> first | with_reducible exact Or.inr rfl | exact Or.inl (by assumption) | with_reducible assumption | with_reducible exact keptO2_get (by with_reducible assumption) | (with_reducible refine kept2_eq (by with_reducible assumption) ?_) | (with_reducible refine keptO_eq (by with_reducible assumption) ?_) | with_reducible apply State.emit_kept)

theorem execRegisterWrite_kept {a0 a1 a2 a3 a4 a5} (hregs : m.regs) (hout : m.out) (hclk : m.clk) (hhost : m.host) (h :
    Kept m z s) : KeptX m z (execRegisterWrite a0 a1 a2 a3 a4 a5 s) := by
  unfold execRegisterWrite
  repeat' first
    | with_reducible assumption
    | intro _
    | subst x
    | (extract_lets +onlyGivenNames x; have hx : Kept m z x := ?_; clear_value x)
    | (extract_lets +onlyGivenNames x; have hx : KeptO m z x := ?_; clear_value x)
    | (extract_lets +onlyGivenNames x; clear_value x)
    | (extract_lets +onlyGivenNames w; revert w; intro w0)
    | with_reducible apply kept_ite
    | with_reducible apply State.acceptWrite_kept
    | with_reducible apply State.checkedWrite_kept
    | with_reducible apply State.hostWrite_kept
    | with_reducible apply State.maskVec_kept
    | with_reducible apply State.plainWrite_kept
    | with_reducible apply State.writePair_kept
    | with_reducible apply keptX_ok
    | split
    | dsimp -zeta only

theorem execHostAccessTimeout_kept {a0 a1 a2} (hregs : m.regs) (hout : m.out) (hhost : m.host) (h : Kept m z s) : KeptX
    m z (execHostAccessTimeout a0 a1 a2 s) := by
  unfold execHostAccessTimeout
  repeat' first
    | with_reducible assumption
    | intro _
    | with_reducible apply kept_ite
    | with_reducible apply State.emit_kept
    | with_reducible apply State.hostRead_kept
    | with_reducible apply State.hostWrite_kept
    | with_reducible apply State.lateErr_kept
    | with_reducible apply keptX_ok
    | split

theorem execFenceRead_kept {a0 a1} (hregs : m.regs) (hout : m.out) (hhost : m.host) (h : Kept m z s) : KeptX m z
    (execFenceRead a0 a1 s) := by
  unfold execFenceRead
  repeat' first
    | with_reducible assumption
    | intro _
    | subst x
    | (extract_lets +onlyGivenNames x; have hx : Kept m z x := ?_; clear_value x)
    | (extract_lets +onlyGivenNames x; have hx : Kept2 m z x := ?_; clear_value x)
    | (extract_lets +onlyGivenNames x; have hx : KeptO m z x := ?_; clear_value x)
    | (extract_lets +onlyGivenNames x; clear_value x)
    | (extract_lets +onlyGivenNames w; revert w; intro w0)
    | with_reducible apply kept_ite
    | with_reducible apply State.emit_kept
    | with_reducible apply State.hostRead_kept
    | with_reducible apply keptX_ok
    | with_reducible apply kept2_mk
    | with_reducible apply keptO_some
    | with_reducible apply keptO_none
    | with_reducible exact keptO2_get (by with_reducible assumption)
    | (with_reducible refine kept2_eq (by with_reducible assumption) ?_)
    | (with_reducible apply kept2_proj; first | with_reducible assumption | with_reducible apply kept2_foldl)
    | (with_reducible refine keptO_eq (by with_reducible assumption) ?_)
    | with_reducible apply kept_foldl
    | split
    | dsimp -zeta only
    | (with_reducible refine kept_mk rfl ?_ rfl rfl rfl rfl ?_ ?_ ?_ ?_ ?_ ?_ ?_ ?_ ?_ ?_ ?_ ?_ ?_ ?_ ?_ ?_ ?_ ?_ ?_ <;> first | with_reducible exact Or.inr rfl | exact Or.inl (by assumption) | with_reducible assumption | with_reducible exact keptO2_get (by with_reducible assumption) | (with_reducible refine kept2_eq (by with_reducible assumption) ?_) | (with_reducible refine keptO_eq (by with_reducible assumption) ?_) | with_reducible apply State.emit_kept | with_reducible apply State.hostRead_kept)

theorem execFenceComplete_kept {a0} (hregs : m.regs) (hout : m.out) (hhost : m.host) (h : Kept m z s) : KeptX m z
    (execFenceComplete a0 s) := by
  unfold execFenceComplete
  repeat' first
    | with_reducible assumption
    | intro _
    | subst x
    | (extract_lets +onlyGivenNames x; have hx : Kept m z x := ?_; clear_value x)
    | (extract_lets +onlyGivenNames x; have hx : Kept2 m z x := ?_; clear_value x)
    | (extract_lets +onlyGivenNames x; have hx : KeptO m z x := ?_; clear_value x)
    | (extract_lets +onlyGivenNames x; clear_value x)
    | (extract_lets +onlyGivenNames w; revert w; intro w0)
    | with_reducible apply kept_ite
    | with_reducible apply State.emit_kept
    | with_reducible apply State.wr_kept
    | with_reducible apply keptX_ok
    | with_reducible apply kept2_mk
    | with_reducible apply keptO_some
    | with_reducible apply keptO_none
    | with_reducible exact keptO2_get (by with_reducible assumption)
    | (with_reducible refine kept2_eq (by with_reducible assumption) ?_)
    | (with_reducible apply kept2_proj; first | with_reducible assumption | with_reducible apply kept2_foldl)
    | (with_reducible refine keptO_eq (by with_reducible assumption) ?_)
    | with_reducible apply kept_foldl
    | split
    | dsimp -zeta only
    | (with_reducible refine kept_mk rfl ?_ rfl rfl rfl rfl ?_ ?_ ?_ ?_ ?_ ?_ ?_ ?_ ?_ ?_ ?_ ?_ ?_ ?_ ?_ ?_ ?_ ?_ ?_ <;> first | with_reducible exact Or.inr rfl | exact Or.inl (by assumption) | with_reducible assumption | with_reducible exact keptO2_get (by with_reducible assumption) | (with_reducible refine kept2_eq (by with_reducible assumption) ?_) | (with_reducible refine keptO_eq (by with_reducible assumption) ?_) | with_reducible apply State.emit_kept | with_reducible apply State.wr_kept)

theorem execRuleWrite_kept {a0 a1 a2 a3} (hregs : m.regs) (hout : m.out) (hhost : m.host) (h : Kept m z s) : KeptX m z
    (execRuleWrite a0 a1 a2 a3 s) := by
  unfold execRuleWrite
  repeat' first
    | with_reducible assumption
    | intro _
    | subst x
    | (extract_lets +onlyGivenNames x; have hx : Kept m z x := ?_; clear_value x)
    | (extract_lets +onlyGivenNames x; clear_value x)
    | (extract_lets +onlyGivenNames w; revert w; intro w0)
    | with_reducible apply kept_ite
    | with_reducible apply State.dropRings_kept
    | with_reducible apply State.hostWrite_kept
    | with_reducible apply State.mergeReg_kept
    | with_reducible apply State.wr_kept
    | with_reducible apply keptX_ok
    | split
    | dsimp -zeta only

theorem State.setRing_kept {a1 a2 a3} (hhost : m.host) (h : Kept m z s) : Kept m z (State.setRing s a1 a2 a3) := by
  unfold State.setRing
  repeat' first
    | with_reducible assumption
    | intro _
    | subst x
    | (extract_lets +onlyGivenNames x; have hx : Kept m z x := ?_; clear_value x)
    | (extract_lets +onlyGivenNames x; have hx : Kept2 m z x := ?_; clear_value x)
    | (extract_lets +onlyGivenNames x; have hx : KeptO m z x := ?_; clear_value x)
    | (extract_lets +onlyGivenNames x; clear_value x)
    | (extract_lets +onlyGivenNames w; revert w; intro w0)
    | with_reducible apply kept_ite
    | with_reducible apply kept2_mk
    | with_reducible apply keptO_some
    | with_reducible apply keptO_none
    | with_reducible exact keptO2_get (by with_reducible assumption)
    | (with_reducible refine kept2_eq (by with_reducible assumption) ?_)
    | (with_reducible apply kept2_proj; first | with_reducible assumption | with_reducible apply kept2_foldl)
    | (with_reducible refine keptO_eq (by with_reducible assumption) ?_)
    | with_reducible apply kept_foldl
    | split
    | dsimp -zeta only
    | (with_reducible refine kept_mk rfl ?_ rfl rfl rfl rfl ?_ ?_ ?_ ?_ ?_ ?_ ?_ ?_ ?_ ?_ ?_ ?_ ?_ ?_ ?_ ?_ ?_ ?_ ?_ <;> first | with_reducible exact Or.inr rfl | exact Or.inl (by assumption) | with_reducible assumption | with_reducible exact keptO2_get (by with_reducible assumption) | (with_reducible refine kept2_eq (by with_reducible assumption) ?_) | (with_reducible refine keptO_eq (by with_reducible assumption) ?_))

theorem State.doorbell_kept {a1 a2 a3 k4} (hregs : m.regs) (hout : m.out) (hhost : m.host) (h : Kept m z s) (hk4 : ∀ t,
    Kept m z t → Kept m z (k4 t)) : Kept m z (State.doorbell s a1 a2 a3 k4) := by
  unfold State.doorbell
  repeat' first
    | with_reducible assumption
    | intro _
    | subst x
    | (extract_lets +onlyGivenNames x; have hx : Kept m z x := ?_; clear_value x)
    | (extract_lets +onlyGivenNames x; clear_value x)
    | (extract_lets +onlyGivenNames w; revert w; intro w0)
    | with_reducible apply hk4
    | with_reducible apply kept_ite
    | with_reducible apply State.acceptWrite_kept
    | with_reducible apply State.lateErr_kept
    | split
    | dsimp -zeta only

theorem execCommandTailDoorbell_kept {a0 a1 a2 a3} (hregs : m.regs) (hout : m.out) (hhost : m.host) (h : Kept m z s) :
    KeptX m z (execCommandTailDoorbell a0 a1 a2 a3 s) := by
  unfold execCommandTailDoorbell
  repeat' first
    | with_reducible assumption
    | intro _
    | subst x
    | (extract_lets +onlyGivenNames x; have hx : Kept m z x := ?_; clear_value x)
    | (extract_lets +onlyGivenNames x; have hx : Kept2 m z x := ?_; clear_value x)
    | (extract_lets +onlyGivenNames x; clear_value x)
    | (extract_lets +onlyGivenNames w; revert w; intro w0)
    | with_reducible apply kept_ite
    | with_reducible apply State.doorbell_kept
    | with_reducible apply State.lateErr_kept
    | with_reducible apply State.setRing_kept
    | with_reducible apply keptX_ok
    | with_reducible apply kept2_mk
    | (with_reducible apply kept2_proj; first | with_reducible assumption | with_reducible apply kept2_foldl)
    | split
    | dsimp -zeta only

theorem execCompletionHeadDoorbell_kept {a0 a1 a2 a3} (hregs : m.regs) (hout : m.out) (hhost : m.host) (h : Kept m z s)
    : KeptX m z (execCompletionHeadDoorbell a0 a1 a2 a3 s) := by
  unfold execCompletionHeadDoorbell
  repeat' first
    | with_reducible assumption
    | intro _
    | subst x
    | (extract_lets +onlyGivenNames x; have hx : Kept m z x := ?_; clear_value x)
    | (extract_lets +onlyGivenNames x; clear_value x)
    | (extract_lets +onlyGivenNames w; revert w; intro w0)
    | with_reducible apply kept_ite
    | with_reducible apply State.doorbell_kept
    | with_reducible apply State.lateErr_kept
    | with_reducible apply State.setRing_kept
    | with_reducible apply keptX_ok
    | split
    | dsimp -zeta only

theorem execCommandFetch_kept {a0 a1 a2 a3} (hregs : m.regs) (hhost : m.host) (hfab : m.fab) (h : Kept m z s) : KeptX m
    z (execCommandFetch a0 a1 a2 a3 s) := by
  unfold execCommandFetch
  repeat' first
    | with_reducible assumption
    | intro _
    | subst x
    | (extract_lets +onlyGivenNames x; have hx : Kept m z x := ?_; clear_value x)
    | (extract_lets +onlyGivenNames x; have hx : Kept2 m z x := ?_; clear_value x)
    | (extract_lets +onlyGivenNames x; have hx : KeptO m z x := ?_; clear_value x)
    | (extract_lets +onlyGivenNames x; clear_value x)
    | (extract_lets +onlyGivenNames w; revert w; intro w0)
    | with_reducible apply kept_ite
    | with_reducible apply State.complete_kept
    | with_reducible apply State.refuse_kept
    | with_reducible apply State.setRing_kept
    | with_reducible apply State.wr_kept
    | with_reducible apply keptX_ok
    | with_reducible apply kept2_mk
    | with_reducible apply keptO_some
    | with_reducible apply keptO_none
    | with_reducible exact keptO2_get (by with_reducible assumption)
    | (with_reducible refine kept2_eq (by with_reducible assumption) ?_)
    | (with_reducible apply kept2_proj; first | with_reducible assumption | with_reducible apply kept2_foldl)
    | (with_reducible refine keptO_eq (by with_reducible assumption) ?_)
    | with_reducible apply kept_foldl
    | split
    | dsimp -zeta only
    | (with_reducible refine kept_mk rfl ?_ rfl rfl rfl rfl ?_ ?_ ?_ ?_ ?_ ?_ ?_ ?_ ?_ ?_ ?_ ?_ ?_ ?_ ?_ ?_ ?_ ?_ ?_ <;> first | with_reducible exact Or.inr rfl | exact Or.inl (by assumption) | with_reducible assumption | with_reducible exact keptO2_get (by with_reducible assumption) | (with_reducible refine kept2_eq (by with_reducible assumption) ?_) | (with_reducible refine keptO_eq (by with_reducible assumption) ?_) | with_reducible apply State.complete_kept | with_reducible apply State.refuse_kept | with_reducible apply State.setRing_kept | with_reducible apply State.wr_kept)

theorem execCompletionPost_kept {a0 a1} (hregs : m.regs) (hout : m.out) (hhost : m.host) (h : Kept m z s) : KeptX m z
    (execCompletionPost a0 a1 s) := by
  unfold execCompletionPost
  repeat' first
    | with_reducible assumption
    | intro _
    | subst x
    | (extract_lets +onlyGivenNames x; have hx : Kept m z x := ?_; clear_value x)
    | (extract_lets +onlyGivenNames x; have hx : Kept2 m z x := ?_; clear_value x)
    | (extract_lets +onlyGivenNames x; have hx : KeptO m z x := ?_; clear_value x)
    | (extract_lets +onlyGivenNames x; clear_value x)
    | (extract_lets +onlyGivenNames w; revert w; intro w0)
    | with_reducible apply kept_ite
    | with_reducible apply State.emit_kept
    | with_reducible apply State.raiseVec_kept
    | with_reducible apply State.setRing_kept
    | with_reducible apply State.wr_kept
    | with_reducible apply keptX_ok
    | with_reducible apply kept2_mk
    | with_reducible apply keptO_some
    | with_reducible apply keptO_none
    | with_reducible exact keptO2_get (by with_reducible assumption)
    | (with_reducible refine kept2_eq (by with_reducible assumption) ?_)
    | (with_reducible apply kept2_proj; first | with_reducible assumption | with_reducible apply kept2_foldl)
    | (with_reducible refine keptO_eq (by with_reducible assumption) ?_)
    | with_reducible apply kept_foldl
    | split
    | dsimp -zeta only
    | (with_reducible refine kept_mk rfl ?_ rfl rfl rfl rfl ?_ ?_ ?_ ?_ ?_ ?_ ?_ ?_ ?_ ?_ ?_ ?_ ?_ ?_ ?_ ?_ ?_ ?_ ?_ <;> first | with_reducible exact Or.inr rfl | exact Or.inl (by assumption) | with_reducible assumption | with_reducible exact keptO2_get (by with_reducible assumption) | (with_reducible refine kept2_eq (by with_reducible assumption) ?_) | (with_reducible refine keptO_eq (by with_reducible assumption) ?_) | with_reducible apply State.emit_kept | with_reducible apply State.raiseVec_kept | with_reducible apply State.setRing_kept | with_reducible apply State.wr_kept)

theorem execRefusalComplete_kept (hregs : m.regs) (hout : m.out) (hhost : m.host) (hfab : m.fab) (h : Kept m z s) :
    KeptX m z (execRefusalComplete s) := by
  unfold execRefusalComplete
  repeat' first
    | with_reducible assumption
    | intro _
    | subst x
    | (extract_lets +onlyGivenNames x; have hx : Kept m z x := ?_; clear_value x)
    | (extract_lets +onlyGivenNames x; have hx : Kept2 m z x := ?_; clear_value x)
    | (extract_lets +onlyGivenNames x; have hx : KeptO m z x := ?_; clear_value x)
    | (extract_lets +onlyGivenNames x; clear_value x)
    | (extract_lets +onlyGivenNames w; revert w; intro w0)
    | with_reducible apply kept_ite
    | with_reducible apply State.complete_kept
    | with_reducible apply State.emit_kept
    | with_reducible apply keptX_ok
    | with_reducible apply kept2_mk
    | with_reducible apply keptO_some
    | with_reducible apply keptO_none
    | with_reducible exact keptO2_get (by with_reducible assumption)
    | (with_reducible refine kept2_eq (by with_reducible assumption) ?_)
    | (with_reducible apply kept2_proj; first | with_reducible assumption | with_reducible apply kept2_foldl)
    | (with_reducible refine keptO_eq (by with_reducible assumption) ?_)
    | with_reducible apply kept_foldl
    | split
    | dsimp -zeta only
    | (with_reducible refine kept_mk rfl ?_ rfl rfl rfl rfl ?_ ?_ ?_ ?_ ?_ ?_ ?_ ?_ ?_ ?_ ?_ ?_ ?_ ?_ ?_ ?_ ?_ ?_ ?_ <;> first | with_reducible exact Or.inr rfl | exact Or.inl (by assumption) | with_reducible assumption | with_reducible exact keptO2_get (by with_reducible assumption) | (with_reducible refine kept2_eq (by with_reducible assumption) ?_) | (with_reducible refine keptO_eq (by with_reducible assumption) ?_) | with_reducible apply State.complete_kept | with_reducible apply State.emit_kept)

theorem execEventRecordDeliver_kept {a0} (hregs : m.regs) (hout : m.out) (hhost : m.host) (h : Kept m z s) : KeptX m z
    (execEventRecordDeliver a0 s) := by
  unfold execEventRecordDeliver
  repeat' first
    | with_reducible assumption
    | intro _
    | subst x
    | (extract_lets +onlyGivenNames x; have hx : Kept m z x := ?_; clear_value x)
    | (extract_lets +onlyGivenNames x; have hx : Kept2 m z x := ?_; clear_value x)
    | (extract_lets +onlyGivenNames x; have hx : KeptO m z x := ?_; clear_value x)
    | (extract_lets +onlyGivenNames x; clear_value x)
    | (extract_lets +onlyGivenNames w; revert w; intro w0)
    | with_reducible apply kept_ite
    | with_reducible apply State.bump_kept
    | with_reducible apply State.emit_kept
    | with_reducible apply State.raiseVec_kept
    | with_reducible apply State.wr_kept
    | with_reducible apply keptX_ok
    | with_reducible apply kept2_mk
    | with_reducible apply keptO_some
    | with_reducible apply keptO_none
    | with_reducible exact keptO2_get (by with_reducible assumption)
    | (with_reducible refine kept2_eq (by with_reducible assumption) ?_)
    | (with_reducible apply kept2_proj; first | with_reducible assumption | with_reducible apply kept2_foldl)
    | (with_reducible refine keptO_eq (by with_reducible assumption) ?_)
    | with_reducible apply kept_foldl
    | split
    | dsimp -zeta only
    | (with_reducible refine kept_mk rfl ?_ rfl rfl rfl rfl ?_ ?_ ?_ ?_ ?_ ?_ ?_ ?_ ?_ ?_ ?_ ?_ ?_ ?_ ?_ ?_ ?_ ?_ ?_ <;> first | with_reducible exact Or.inr rfl | exact Or.inl (by assumption) | with_reducible assumption | with_reducible exact keptO2_get (by with_reducible assumption) | (with_reducible refine kept2_eq (by with_reducible assumption) ?_) | (with_reducible refine keptO_eq (by with_reducible assumption) ?_) | with_reducible apply State.bump_kept | with_reducible apply State.emit_kept | with_reducible apply State.raiseVec_kept | with_reducible apply State.wr_kept)

theorem execCritPendClear_kept {a0 a1 a2} (hregs : m.regs) (hout : m.out) (hhost : m.host) (h : Kept m z s) : KeptX m z
    (execCritPendClear a0 a1 a2 s) := by
  unfold execCritPendClear
  repeat' first
    | with_reducible assumption
    | intro _
    | with_reducible apply State.hostWrite_kept
    | with_reducible apply State.mergeReg_kept
    | with_reducible apply keptX_ok

theorem execHostRingTailWrite_kept {a0 a1 a2 a3} (hregs : m.regs) (hout : m.out) (hhost : m.host) (h : Kept m z s) :
    KeptX m z (execHostRingTailWrite a0 a1 a2 a3 s) := by
  unfold execHostRingTailWrite
  repeat' first
    | with_reducible assumption
    | intro _
    | with_reducible apply kept_ite
    | with_reducible apply State.hostWrite_kept
    | with_reducible apply State.mergeReg_kept
    | with_reducible apply keptX_ok
    | split

end Sys2Proof.Machine
end

