-- ==== Sys2Proof/Laws/KeptIntegrity.lean ====
section
/-!
SUPPORT. Laws/KeptIntegrity.lean: what the operations of Machine/Integrity.lean keep (Laws/Kept.lean).
-/

namespace Sys2Proof.Machine

set_option linter.all false

variable {m : Mask} {z s : State}

theorem State.patrolRecord_kept {a1 a2 a3 a4 a5 a6} (hregs : m.regs) (hmem : m.mem) (h : Kept m z s) : Kept m z
    (State.patrolRecord s a1 a2 a3 a4 a5 a6) := by
  unfold State.patrolRecord
  repeat' first
    | with_reducible assumption
    | intro _
    | subst x
    | (extract_lets +onlyGivenNames x; have hx : Kept m z x := ?_; clear_value x)
    | (extract_lets +onlyGivenNames x; have hx : Kept2 m z x := ?_; clear_value x)
    | (extract_lets +onlyGivenNames x; have hx : KeptO m z x := ?_; clear_value x)
    | (extract_lets +onlyGivenNames x; clear_value x)
    | (extract_lets +onlyGivenNames w; revert w; intro w0)
    | with_reducible apply kept_ite
    | with_reducible apply State.bump_kept
    | with_reducible apply kept2_mk
    | with_reducible apply keptO_some
    | with_reducible apply keptO_none
    | with_reducible exact keptO2_get (by with_reducible assumption)
    | (with_reducible refine kept2_eq (by with_reducible assumption) ?_)
    | (with_reducible apply kept2_proj; first | with_reducible assumption | with_reducible apply kept2_foldl)
    | (with_reducible refine keptO_eq (by with_reducible assumption) ?_)
    | with_reducible apply kept_foldl
    | split
    | dsimp -zeta only
    | (with_reducible refine kept_mk rfl ?_ rfl rfl rfl rfl ?_ ?_ ?_ ?_ ?_ ?_ ?_ ?_ ?_ ?_ ?_ ?_ ?_ ?_ ?_ ?_ ?_ ?_ ?_ <;> first | with_reducible exact Or.inr rfl | exact Or.inl (by assumption) | with_reducible assumption | with_reducible exact keptO2_get (by with_reducible assumption) | (with_reducible refine kept2_eq (by with_reducible assumption) ?_) | (with_reducible refine keptO_eq (by with_reducible assumption) ?_) | with_reducible apply State.bump_kept)

theorem execPatrolRecordDeliver_kept (hregs : m.regs) (hout : m.out) (hhost : m.host) (hmem : m.mem) (h : Kept m z s) :
    KeptX m z (execPatrolRecordDeliver s) := by
  unfold execPatrolRecordDeliver
  repeat' first
    | with_reducible assumption
    | intro _
    | subst x
    | (extract_lets +onlyGivenNames x; have hx : Kept m z x := ?_; clear_value x)
    | (extract_lets +onlyGivenNames x; have hx : Kept2 m z x := ?_; clear_value x)
    | (extract_lets +onlyGivenNames x; have hx : KeptO m z x := ?_; clear_value x)
    | (extract_lets +onlyGivenNames x; clear_value x)
    | (extract_lets +onlyGivenNames w; revert w; intro w0)
    | with_reducible apply kept_ite
    | with_reducible apply State.emit_kept
    | with_reducible apply State.raiseVec_kept
    | with_reducible apply State.wr_kept
    | with_reducible apply keptX_ok
    | with_reducible apply kept2_mk
    | with_reducible apply keptO_some
    | with_reducible apply keptO_none
    | with_reducible exact keptO2_get (by with_reducible assumption)
    | (with_reducible refine kept2_eq (by with_reducible assumption) ?_)
    | (with_reducible apply kept2_proj; first | with_reducible assumption | with_reducible apply kept2_foldl)
    | (with_reducible refine keptO_eq (by with_reducible assumption) ?_)
    | with_reducible apply kept_foldl
    | split
    | dsimp -zeta only
    | (with_reducible refine kept_mk rfl ?_ rfl rfl rfl rfl ?_ ?_ ?_ ?_ ?_ ?_ ?_ ?_ ?_ ?_ ?_ ?_ ?_ ?_ ?_ ?_ ?_ ?_ ?_ <;> first | with_reducible exact Or.inr rfl | exact Or.inl (by assumption) | with_reducible assumption | with_reducible exact keptO2_get (by with_reducible assumption) | (with_reducible refine kept2_eq (by with_reducible assumption) ?_) | (with_reducible refine keptO_eq (by with_reducible assumption) ?_) | with_reducible apply State.emit_kept | with_reducible apply State.raiseVec_kept | with_reducible apply State.wr_kept)

theorem execCaParityError_kept {a0 a1} (hregs : m.regs) (hout : m.out) (hhost : m.host) (hmem : m.mem) (h : Kept m z s)
    : KeptX m z (execCaParityError a0 a1 s) := by
  unfold execCaParityError
  repeat' first
    | with_reducible assumption
    | intro _
    | subst x
    | (extract_lets +onlyGivenNames x; have hx : Kept m z x := ?_; clear_value x)
    | (extract_lets +onlyGivenNames x; have hx : KeptO m z x := ?_; clear_value x)
    | (extract_lets +onlyGivenNames x; clear_value x)
    | (extract_lets +onlyGivenNames w; revert w; intro w0)
    | with_reducible apply kept_ite
    | with_reducible apply State.errLog_kept
    | with_reducible apply State.retireRank_kept
    | with_reducible apply State.retireReceiving_kept
    | with_reducible apply keptX_ok
    | split
    | dsimp -zeta only

theorem execMigrationDone_kept {a0} (hregs : m.regs) (hout : m.out) (hhost : m.host) (hmem : m.mem) (h : Kept m z s) :
    KeptX m z (execMigrationDone a0 s) := by
  unfold execMigrationDone
  repeat' first
    | with_reducible assumption
    | intro _
    | subst x
    | (extract_lets +onlyGivenNames x; have hx : Kept m z x := ?_; clear_value x)
    | (extract_lets +onlyGivenNames x; have hx : Kept2 m z x := ?_; clear_value x)
    | (extract_lets +onlyGivenNames x; have hx : KeptO m z x := ?_; clear_value x)
    | (extract_lets +onlyGivenNames x; clear_value x)
    | (extract_lets +onlyGivenNames w; revert w; intro w0)
    | with_reducible apply kept_ite
    | with_reducible apply State.countSpares_kept
    | with_reducible apply State.errLog_kept
    | with_reducible apply State.eventOn_kept
    | with_reducible apply State.lcEndDrain_kept
    | with_reducible apply State.retireRank_kept
    | with_reducible apply State.showMigration_kept
    | with_reducible apply State.wr_kept
    | with_reducible apply State.wrBit_kept
    | with_reducible apply keptX_ok
    | with_reducible apply kept2_mk
    | with_reducible apply keptO_some
    | with_reducible apply keptO_none
    | with_reducible exact keptO2_get (by with_reducible assumption)
    | (with_reducible refine kept2_eq (by with_reducible assumption) ?_)
    | (with_reducible apply kept2_proj; first | with_reducible assumption | with_reducible apply kept2_foldl)
    | (with_reducible refine keptO_eq (by with_reducible assumption) ?_)
    | with_reducible apply kept_foldl
    | split
    | dsimp -zeta only
    | (with_reducible refine kept_mk rfl ?_ rfl rfl rfl rfl ?_ ?_ ?_ ?_ ?_ ?_ ?_ ?_ ?_ ?_ ?_ ?_ ?_ ?_ ?_ ?_ ?_ ?_ ?_ <;> first | with_reducible exact Or.inr rfl | exact Or.inl (by assumption) | with_reducible assumption | with_reducible exact keptO2_get (by with_reducible assumption) | (with_reducible refine kept2_eq (by with_reducible assumption) ?_) | (with_reducible refine keptO_eq (by with_reducible assumption) ?_) | with_reducible apply State.countSpares_kept | with_reducible apply State.errLog_kept | with_reducible apply State.eventOn_kept | with_reducible apply State.lcEndDrain_kept | with_reducible apply State.retireRank_kept | with_reducible apply State.showMigration_kept | with_reducible apply State.wr_kept | with_reducible apply State.wrBit_kept)

theorem execRankCeWindowEnd_kept {a0} (hregs : m.regs) (hmem : m.mem) (h : Kept m z s) : KeptX m z (execRankCeWindowEnd
    a0 s) := by
  unfold execRankCeWindowEnd
  repeat' first
    | with_reducible assumption
    | intro _
    | subst x
    | (extract_lets +onlyGivenNames x; have hx : Kept m z x := ?_; clear_value x)
    | (extract_lets +onlyGivenNames x; have hx : Kept2 m z x := ?_; clear_value x)
    | (extract_lets +onlyGivenNames x; have hx : KeptO m z x := ?_; clear_value x)
    | (extract_lets +onlyGivenNames x; clear_value x)
    | (extract_lets +onlyGivenNames w; revert w; intro w0)
    | with_reducible apply kept_ite
    | with_reducible apply State.each_kept
    | with_reducible apply State.wr_kept
    | with_reducible apply keptX_ok
    | with_reducible apply kept2_mk
    | with_reducible apply keptO_some
    | with_reducible apply keptO_none
    | with_reducible exact keptO2_get (by with_reducible assumption)
    | (with_reducible refine kept2_eq (by with_reducible assumption) ?_)
    | (with_reducible apply kept2_proj; first | with_reducible assumption | with_reducible apply kept2_foldl)
    | (with_reducible refine keptO_eq (by with_reducible assumption) ?_)
    | with_reducible apply kept_foldl
    | split
    | dsimp -zeta only
    | (with_reducible refine kept_mk rfl ?_ rfl rfl rfl rfl ?_ ?_ ?_ ?_ ?_ ?_ ?_ ?_ ?_ ?_ ?_ ?_ ?_ ?_ ?_ ?_ ?_ ?_ ?_ <;> first | with_reducible exact Or.inr rfl | exact Or.inl (by assumption) | with_reducible assumption | with_reducible exact keptO2_get (by with_reducible assumption) | (with_reducible refine kept2_eq (by with_reducible assumption) ?_) | (with_reducible refine keptO_eq (by with_reducible assumption) ?_) | with_reducible apply State.each_kept | with_reducible apply State.wr_kept)

theorem execRankEnable_kept {a0 a1 a2 a3} (hregs : m.regs) (hout : m.out) (hhost : m.host) (h : Kept m z s) : KeptX m z
    (execRankEnable a0 a1 a2 a3 s) := by
  unfold execRankEnable
  repeat' first
    | with_reducible assumption
    | intro _
    | with_reducible apply kept_ite
    | with_reducible apply State.hostWrite_kept
    | with_reducible apply State.lcWrite_kept
    | with_reducible apply keptX_ok
    | split

theorem execRankDisable_kept {a0 a1 a2 a3} (hregs : m.regs) (hout : m.out) (hhost : m.host) (hmem : m.mem) (h : Kept m
    z s) : KeptX m z (execRankDisable a0 a1 a2 a3 s) := by
  unfold execRankDisable
  repeat' first
    | with_reducible assumption
    | intro _
    | subst x
    | (extract_lets +onlyGivenNames x; have hx : Kept m z x := ?_; clear_value x)
    | (extract_lets +onlyGivenNames x; clear_value x)
    | (extract_lets +onlyGivenNames w; revert w; intro w0)
    | with_reducible apply kept_ite
    | with_reducible apply State.countSpares_kept
    | with_reducible apply State.hostWrite_kept
    | with_reducible apply State.journalRole_kept
    | with_reducible apply State.lateErr_kept
    | with_reducible apply State.lcWrite_kept
    | with_reducible apply State.retireRank_kept
    | with_reducible apply State.setLc_kept
    | with_reducible apply State.wr_kept
    | with_reducible apply keptX_ok
    | split
    | dsimp -zeta only

theorem execRankTestDone_kept {a0 a1 a2} (hregs : m.regs) (hout : m.out) (hhost : m.host) (hmem : m.mem) (h : Kept m z
    s) : KeptX m z (execRankTestDone a0 a1 a2 s) := by
  unfold execRankTestDone
  repeat' first
    | with_reducible assumption
    | intro _
    | subst x
    | (extract_lets +onlyGivenNames x; have hx : Kept m z x := ?_; clear_value x)
    | (extract_lets +onlyGivenNames x; have hx : KeptO m z x := ?_; clear_value x)
    | (extract_lets +onlyGivenNames x; clear_value x)
    | (extract_lets +onlyGivenNames w; revert w; intro w0)
    | with_reducible apply kept_ite
    | with_reducible apply State.countSpares_kept
    | with_reducible apply State.errLog_kept
    | with_reducible apply State.eventOn_kept
    | with_reducible apply State.journalRole_kept
    | with_reducible apply State.setLc_kept
    | with_reducible apply State.wr_kept
    | with_reducible apply keptX_ok
    | split
    | dsimp -zeta only

theorem execHbmPatrolVisit_kept {a0 a1 a2} (hregs : m.regs) (hout : m.out) (hhost : m.host) (hcnt : m.cnt) (hmem :
    m.mem) (h : Kept m z s) : KeptX m z (execHbmPatrolVisit a0 a1 a2 s) := by
  unfold execHbmPatrolVisit
  repeat' first
    | with_reducible assumption
    | intro _
    | subst x
    | (extract_lets +onlyGivenNames x; have hx : Kept m z x := ?_; clear_value x)
    | (extract_lets +onlyGivenNames x; have hx : Kept2 m z x := ?_; clear_value x)
    | (extract_lets +onlyGivenNames x; clear_value x)
    | (extract_lets +onlyGivenNames w; revert w; intro w0)
    | with_reducible apply kept_ite
    | with_reducible apply State.onlyIf_kept
    | with_reducible apply State.patrolRecord_kept
    | with_reducible apply State.readStripe_kept
    | with_reducible apply State.strikeStripe_kept
    | with_reducible apply keptX_ok
    | (with_reducible apply kept2_proj; first | with_reducible assumption | with_reducible apply kept2_foldl | with_reducible apply State.readStripe_kept)
    | split
    | dsimp -zeta only

theorem State.hurtWord_kept {a1 a2 a3} (hmem : m.mem) (h : Kept m z s) : Kept m z (State.hurtWord s a1 a2 a3) := by
  unfold State.hurtWord
  repeat' first
    | with_reducible assumption
    | intro _
    | subst x
    | (extract_lets +onlyGivenNames x; have hx : Kept m z x := ?_; clear_value x)
    | (extract_lets +onlyGivenNames x; clear_value x)
    | (extract_lets +onlyGivenNames w; revert w; intro w0)
    | with_reducible apply kept_ite
    | with_reducible apply State.flipSecded_kept
    | split
    | dsimp -zeta only

theorem execSramPatrolVisit_kept {a0 a1 a2 a3 a4} (hregs : m.regs) (hout : m.out) (hhost : m.host) (htab : m.tab) (htxf
    : m.txf) (hbuf : m.buf) (hmem : m.mem) (h : Kept m z s) : KeptX m z (execSramPatrolVisit a0 a1 a2 a3 a4 s) := by
  unfold execSramPatrolVisit
  repeat' first
    | with_reducible assumption
    | intro _
    | subst x
    | (extract_lets +onlyGivenNames x; have hx : Kept m z x := ?_; clear_value x)
    | (extract_lets +onlyGivenNames x; have hx : Kept2 m z x := ?_; clear_value x)
    | (extract_lets +onlyGivenNames x; have hx : KeptO m z x := ?_; clear_value x)
    | (extract_lets +onlyGivenNames x; clear_value x)
    | (extract_lets +onlyGivenNames w; revert w; intro w0)
    | with_reducible apply kept_ite
    | with_reducible apply State.bump_kept
    | with_reducible apply State.hurtWord_kept
    | with_reducible apply State.patrolRecord_kept
    | with_reducible apply State.setQueue_kept
    | with_reducible apply State.strike_kept
    | with_reducible apply State.uncorrectable_kept
    | with_reducible apply keptX_ok
    | with_reducible apply kept2_mk
    | with_reducible apply keptO_some
    | with_reducible apply keptO_none
    | with_reducible exact keptO2_get (by with_reducible assumption)
    | (with_reducible refine kept2_eq (by with_reducible assumption) ?_)
    | (with_reducible apply kept2_proj; first | with_reducible assumption | with_reducible apply kept2_foldl)
    | (with_reducible refine keptO_eq (by with_reducible assumption) ?_)
    | with_reducible apply kept_foldl
    | split
    | dsimp -zeta only
    | (with_reducible refine kept_mk rfl ?_ rfl rfl rfl rfl ?_ ?_ ?_ ?_ ?_ ?_ ?_ ?_ ?_ ?_ ?_ ?_ ?_ ?_ ?_ ?_ ?_ ?_ ?_ <;> first | with_reducible exact Or.inr rfl | exact Or.inl (by assumption) | with_reducible assumption | with_reducible exact keptO2_get (by with_reducible assumption) | (with_reducible refine kept2_eq (by with_reducible assumption) ?_) | (with_reducible refine keptO_eq (by with_reducible assumption) ?_) | with_reducible apply State.bump_kept | with_reducible apply State.hurtWord_kept | with_reducible apply State.patrolRecord_kept | with_reducible apply State.setQueue_kept | with_reducible apply State.strike_kept | with_reducible apply State.uncorrectable_kept)

theorem State.walkLog_kept {a1 a2 a3} (hregs : m.regs) (h : Kept m z s) : Kept m z (State.walkLog s a1 a2 a3) := by
  unfold State.walkLog
  repeat' first
    | with_reducible assumption
    | intro _
    | subst x
    | (extract_lets +onlyGivenNames x; have hx : Kept m z x := ?_; clear_value x)
    | (extract_lets +onlyGivenNames x; clear_value x)
    | (extract_lets +onlyGivenNames w; revert w; intro w0)
    | with_reducible apply State.onlyIf_kept
    | with_reducible apply State.wr_kept
    | with_reducible apply State.wr64_kept
    | with_reducible apply State.wrWord_kept
    | dsimp -zeta only

theorem execAsmWalkerVisit_kept {a0 a1 a2 a3 a4} (hregs : m.regs) (hout : m.out) (hhost : m.host) (htab : m.tab) (hmem
    : m.mem) (h : Kept m z s) : KeptX m z (execAsmWalkerVisit a0 a1 a2 a3 a4 s) := by
  unfold execAsmWalkerVisit
  repeat' first
    | with_reducible assumption
    | intro _
    | subst x
    | (extract_lets +onlyGivenNames x; have hx : Kept m z x := ?_; clear_value x)
    | (extract_lets +onlyGivenNames x; clear_value x)
    | (extract_lets +onlyGivenNames w; revert w; intro w0)
    | with_reducible apply kept_ite
    | with_reducible apply State.bump_kept
    | with_reducible apply State.event_kept
    | with_reducible apply State.mend_kept
    | with_reducible apply State.onlyIf_kept
    | with_reducible apply State.patrolRecord_kept
    | with_reducible apply State.strike_kept
    | with_reducible apply State.walkLog_kept
    | with_reducible apply State.wr_kept
    | with_reducible apply keptX_ok
    | split
    | dsimp -zeta only

theorem State.fillRetire_kept {a1 a2} (hregs : m.regs) (hmem : m.mem) (h : Kept m z s) : Kept m z (State.fillRetire s
    a1 a2) := by
  unfold State.fillRetire
  repeat' first
    | with_reducible assumption
    | intro _
    | subst x
    | (extract_lets +onlyGivenNames x; have hx : Kept m z x := ?_; clear_value x)
    | (extract_lets +onlyGivenNames x; have hx : KeptO m z x := ?_; clear_value x)
    | (extract_lets +onlyGivenNames x; clear_value x)
    | (extract_lets +onlyGivenNames w; revert w; intro w0)
    | with_reducible apply kept_ite
    | with_reducible apply State.countSpares_kept
    | with_reducible apply State.errLog_kept
    | with_reducible apply State.journalErased_kept
    | with_reducible apply State.journalRole_kept
    | with_reducible apply State.wr_kept
    | with_reducible apply State.wrBit_kept
    | split
    | dsimp -zeta only

theorem State.diagStart_kept {a1 a2 a3 a4 a5} (hregs : m.regs) (hout : m.out) (hhost : m.host) (hmem : m.mem) (h : Kept
    m z s) : Kept m z (State.diagStart s a1 a2 a3 a4 a5) := by
  unfold State.diagStart
  repeat' first
    | with_reducible assumption
    | intro _
    | subst x
    | (extract_lets +onlyGivenNames x; have hx : Kept m z x := ?_; clear_value x)
    | (extract_lets +onlyGivenNames x; have hx : Kept2 m z x := ?_; clear_value x)
    | (extract_lets +onlyGivenNames x; have hx : KeptO m z x := ?_; clear_value x)
    | (extract_lets +onlyGivenNames x; clear_value x)
    | (extract_lets +onlyGivenNames w; revert w; intro w0)
    | with_reducible apply kept_ite
    | with_reducible apply State.hostWrite_kept
    | with_reducible apply State.lateErr_kept
    | with_reducible apply State.secLog_kept
    | with_reducible apply State.wr_kept
    | with_reducible apply kept2_mk
    | with_reducible apply keptO_some
    | with_reducible apply keptO_none
    | with_reducible exact keptO2_get (by with_reducible assumption)
    | (with_reducible refine kept2_eq (by with_reducible assumption) ?_)
    | (with_reducible apply kept2_proj; first | with_reducible assumption | with_reducible apply kept2_foldl)
    | (with_reducible refine keptO_eq (by with_reducible assumption) ?_)
    | with_reducible apply kept_foldl
    | split
    | dsimp -zeta only
    | (with_reducible refine kept_mk rfl ?_ rfl rfl rfl rfl ?_ ?_ ?_ ?_ ?_ ?_ ?_ ?_ ?_ ?_ ?_ ?_ ?_ ?_ ?_ ?_ ?_ ?_ ?_ <;> first | with_reducible exact Or.inr rfl | exact Or.inl (by assumption) | with_reducible assumption | with_reducible exact keptO2_get (by with_reducible assumption) | (with_reducible refine kept2_eq (by with_reducible assumption) ?_) | (with_reducible refine keptO_eq (by with_reducible assumption) ?_) | with_reducible apply State.hostWrite_kept | with_reducible apply State.lateErr_kept | with_reducible apply State.secLog_kept | with_reducible apply State.wr_kept)

theorem execDiagReadRaw_kept {a0 a1 a2 a3} (hregs : m.regs) (hout : m.out) (hhost : m.host) (hmem : m.mem) (h : Kept m
    z s) : KeptX m z (execDiagReadRaw a0 a1 a2 a3 s) := by
  unfold execDiagReadRaw
  repeat' first
    | with_reducible assumption
    | intro _
    | with_reducible apply State.diagStart_kept
    | with_reducible apply keptX_ok

theorem execDiagWriteRaw_kept {a0 a1 a2 a3} (hregs : m.regs) (hout : m.out) (hhost : m.host) (hmem : m.mem) (h : Kept m
    z s) : KeptX m z (execDiagWriteRaw a0 a1 a2 a3 s) := by
  unfold execDiagWriteRaw
  repeat' first
    | with_reducible assumption
    | intro _
    | with_reducible apply State.diagStart_kept
    | with_reducible apply keptX_ok

theorem execDiagWriteEncoded_kept {a0 a1 a2 a3} (hregs : m.regs) (hout : m.out) (hhost : m.host) (hmem : m.mem) (h :
    Kept m z s) : KeptX m z (execDiagWriteEncoded a0 a1 a2 a3 s) := by
  unfold execDiagWriteEncoded
  repeat' first
    | with_reducible assumption
    | intro _
    | with_reducible apply State.diagStart_kept
    | with_reducible apply keptX_ok

theorem State.absorbStripe_kept {a1 a2} (hregs : m.regs) (htab : m.tab) (h : Kept m z s) : Kept m z (State.absorbStripe
    s a1 a2) := by
  unfold State.absorbStripe
  repeat' first
    | with_reducible assumption
    | intro _
    | subst x
    | (extract_lets +onlyGivenNames x; have hx : Kept m z x := ?_; clear_value x)
    | (extract_lets +onlyGivenNames x; have hx : Kept2 m z x := ?_; clear_value x)
    | (extract_lets +onlyGivenNames x; have hx : KeptO m z x := ?_; clear_value x)
    | (extract_lets +onlyGivenNames x; clear_value x)
    | (extract_lets +onlyGivenNames w; revert w; intro w0)
    | with_reducible apply kept_ite
    | with_reducible apply State.each_kept
    | with_reducible apply State.syncExm_kept
    | with_reducible apply kept2_mk
    | with_reducible apply keptO_some
    | with_reducible apply keptO_none
    | with_reducible exact keptO2_get (by with_reducible assumption)
    | (with_reducible refine kept2_eq (by with_reducible assumption) ?_)
    | (with_reducible apply kept2_proj; first | with_reducible assumption | with_reducible apply kept2_foldl)
    | (with_reducible refine keptO_eq (by with_reducible assumption) ?_)
    | with_reducible apply kept_foldl
    | split
    | dsimp -zeta only
    | (with_reducible refine kept_mk rfl ?_ rfl rfl rfl rfl ?_ ?_ ?_ ?_ ?_ ?_ ?_ ?_ ?_ ?_ ?_ ?_ ?_ ?_ ?_ ?_ ?_ ?_ ?_ <;> first | with_reducible exact Or.inr rfl | exact Or.inl (by assumption) | with_reducible assumption | with_reducible exact keptO2_get (by with_reducible assumption) | (with_reducible refine kept2_eq (by with_reducible assumption) ?_) | (with_reducible refine keptO_eq (by with_reducible assumption) ?_) | with_reducible apply State.each_kept | with_reducible apply State.syncExm_kept)

theorem State.diagStripe_kept {a1} (hregs : m.regs) (hout : m.out) (hhost : m.host) (htab : m.tab) (hcnt : m.cnt) (hmem
    : m.mem) (h : Kept m z s) : Kept m z (State.diagStripe s a1) := by
  unfold State.diagStripe
  repeat' first
    | with_reducible assumption
    | intro _
    | subst x
    | (extract_lets +onlyGivenNames x; have hx : Kept m z x := ?_; clear_value x)
    | (extract_lets +onlyGivenNames x; have hx : Kept2 m z x := ?_; clear_value x)
    | (extract_lets +onlyGivenNames x; have hx : KeptO m z x := ?_; clear_value x)
    | (extract_lets +onlyGivenNames x; clear_value x)
    | (extract_lets +onlyGivenNames w; revert w; intro w0)
    | with_reducible apply kept_ite
    | with_reducible apply State.absorbStripe_kept
    | with_reducible apply State.emit_kept
    | with_reducible apply State.putSegs_kept
    | with_reducible apply State.readStripe_kept
    | with_reducible apply State.wr_kept
    | with_reducible apply kept2_mk
    | with_reducible apply keptO_some
    | with_reducible apply keptO_none
    | with_reducible exact keptO2_get (by with_reducible assumption)
    | (with_reducible refine kept2_eq (by with_reducible assumption) ?_)
    | (with_reducible apply kept2_proj; first | with_reducible assumption | with_reducible apply kept2_foldl | with_reducible apply State.readStripe_kept)
    | (with_reducible refine keptO_eq (by with_reducible assumption) ?_)
    | with_reducible apply kept_foldl
    | split
    | dsimp -zeta only

theorem State.putWord_kept {a1 a2} (hmem : m.mem) (h : Kept m z s) : Kept m z (State.putWord s a1 a2) := by
  unfold State.putWord
  repeat' first
    | with_reducible assumption
    | intro _
    | subst x
    | (extract_lets +onlyGivenNames x; have hx : Kept m z x := ?_; clear_value x)
    | (extract_lets +onlyGivenNames x; have hx : Kept2 m z x := ?_; clear_value x)
    | (extract_lets +onlyGivenNames x; have hx : KeptO m z x := ?_; clear_value x)
    | (extract_lets +onlyGivenNames x; clear_value x)
    | (extract_lets +onlyGivenNames w; revert w; intro w0)
    | with_reducible apply kept_ite
    | with_reducible apply kept2_mk
    | with_reducible apply keptO_some
    | with_reducible apply keptO_none
    | with_reducible exact keptO2_get (by with_reducible assumption)
    | (with_reducible refine kept2_eq (by with_reducible assumption) ?_)
    | (with_reducible apply kept2_proj; first | with_reducible assumption | with_reducible apply kept2_foldl)
    | (with_reducible refine keptO_eq (by with_reducible assumption) ?_)
    | with_reducible apply kept_foldl
    | split
    | dsimp -zeta only
    | (with_reducible refine kept_mk rfl ?_ rfl rfl rfl rfl ?_ ?_ ?_ ?_ ?_ ?_ ?_ ?_ ?_ ?_ ?_ ?_ ?_ ?_ ?_ ?_ ?_ ?_ ?_ <;> first | with_reducible exact Or.inr rfl | exact Or.inl (by assumption) | with_reducible assumption | with_reducible exact keptO2_get (by with_reducible assumption) | (with_reducible refine kept2_eq (by with_reducible assumption) ?_) | (with_reducible refine keptO_eq (by with_reducible assumption) ?_))

theorem State.diagWord_kept {a1} (hregs : m.regs) (hout : m.out) (hhost : m.host) (hmem : m.mem) (h : Kept m z s) :
    Kept m z (State.diagWord s a1) := by
  unfold State.diagWord
  repeat' first
    | with_reducible assumption
    | intro _
    | subst x
    | (extract_lets +onlyGivenNames x; have hx : Kept m z x := ?_; clear_value x)
    | (extract_lets +onlyGivenNames x; have hx : Kept2 m z x := ?_; clear_value x)
    | (extract_lets +onlyGivenNames x; have hx : KeptO m z x := ?_; clear_value x)
    | (extract_lets +onlyGivenNames x; clear_value x)
    | (extract_lets +onlyGivenNames w; revert w; intro w0)
    | with_reducible apply kept_ite
    | with_reducible apply State.bump_kept
    | with_reducible apply State.emit_kept
    | with_reducible apply State.onlyIf_kept
    | with_reducible apply State.putWord_kept
    | with_reducible apply State.uncorrectable_kept
    | with_reducible apply State.wr_kept
    | with_reducible apply kept2_mk
    | with_reducible apply keptO_some
    | with_reducible apply keptO_none
    | with_reducible exact keptO2_get (by with_reducible assumption)
    | (with_reducible refine kept2_eq (by with_reducible assumption) ?_)
    | (with_reducible apply kept2_proj; first | with_reducible assumption | with_reducible apply kept2_foldl)
    | (with_reducible refine keptO_eq (by with_reducible assumption) ?_)
    | with_reducible apply kept_foldl
    | split
    | dsimp -zeta only

theorem execDiagDone_kept (hregs : m.regs) (hout : m.out) (hhost : m.host) (htab : m.tab) (hcnt : m.cnt) (hmem : m.mem)
    (h : Kept m z s) : KeptX m z (execDiagDone s) := by
  unfold execDiagDone
  repeat' first
    | with_reducible assumption
    | intro _
    | subst x
    | (extract_lets +onlyGivenNames x; have hx : Kept m z x := ?_; clear_value x)
    | (extract_lets +onlyGivenNames x; have hx : Kept2 m z x := ?_; clear_value x)
    | (extract_lets +onlyGivenNames x; have hx : KeptO m z x := ?_; clear_value x)
    | (extract_lets +onlyGivenNames x; clear_value x)
    | (extract_lets +onlyGivenNames w; revert w; intro w0)
    | with_reducible apply kept_ite
    | with_reducible apply State.diagStripe_kept
    | with_reducible apply State.diagWord_kept
    | with_reducible apply State.wr_kept
    | with_reducible apply keptX_ok
    | with_reducible apply kept2_mk
    | with_reducible apply keptO_some
    | with_reducible apply keptO_none
    | with_reducible exact keptO2_get (by with_reducible assumption)
    | (with_reducible refine kept2_eq (by with_reducible assumption) ?_)
    | (with_reducible apply kept2_proj; first | with_reducible assumption | with_reducible apply kept2_foldl)
    | (with_reducible refine keptO_eq (by with_reducible assumption) ?_)
    | with_reducible apply kept_foldl
    | split
    | dsimp -zeta only
    | (with_reducible refine kept_mk rfl ?_ rfl rfl rfl rfl ?_ ?_ ?_ ?_ ?_ ?_ ?_ ?_ ?_ ?_ ?_ ?_ ?_ ?_ ?_ ?_ ?_ ?_ ?_ <;> first | with_reducible exact Or.inr rfl | exact Or.inl (by assumption) | with_reducible assumption | with_reducible exact keptO2_get (by with_reducible assumption) | (with_reducible refine kept2_eq (by with_reducible assumption) ?_) | (with_reducible refine keptO_eq (by with_reducible assumption) ?_) | with_reducible apply State.diagStripe_kept | with_reducible apply State.diagWord_kept | with_reducible apply State.wr_kept)

end Sys2Proof.Machine
end

