-- ==== Sys2Proof/Laws/KeptDice.lean ====
section
/-!
SUPPORT. Laws/KeptDice.lean: what the operations of Machine/Dice.lean keep (Laws/Kept.lean).
-/

namespace Sys2Proof.Machine

set_option linter.all false

variable {m : Mask} {z s : State}

theorem State.setDice_kept {a1 a2} (hfab : m.fab) (h : Kept m z s) : Kept m z (State.setDice s a1 a2) := by
  unfold State.setDice
  repeat' first
    | with_reducible assumption
    | intro _
    | subst x
    | (extract_lets +onlyGivenNames x; have hx : Kept m z x := ?_; clear_value x)
    | (extract_lets +onlyGivenNames x; have hx : Kept2 m z x := ?_; clear_value x)
    | (extract_lets +onlyGivenNames x; have hx : KeptO m z x := ?_; clear_value x)
    | (extract_lets +onlyGivenNames x; clear_value x)
    | (extract_lets +onlyGivenNames w; revert w; intro w0)
    | with_reducible apply kept_ite
    | with_reducible apply kept2_mk
    | with_reducible apply keptO_some
    | with_reducible apply keptO_none
    | with_reducible exact keptO2_get (by with_reducible assumption)
    | (with_reducible refine kept2_eq (by with_reducible assumption) ?_)
    | (with_reducible apply kept2_proj; first | with_reducible assumption | with_reducible apply kept2_foldl)
    | (with_reducible refine keptO_eq (by with_reducible assumption) ?_)
    | with_reducible apply kept_foldl
    | split
    | dsimp -zeta only
    | (with_reducible refine kept_mk rfl ?_ rfl rfl rfl rfl ?_ ?_ ?_ ?_ ?_ ?_ ?_ ?_ ?_ ?_ ?_ ?_ ?_ ?_ ?_ ?_ ?_ ?_ ?_ <;> first | with_reducible exact Or.inr rfl | exact Or.inl (by assumption) | with_reducible assumption | with_reducible exact keptO2_get (by with_reducible assumption) | (with_reducible refine kept2_eq (by with_reducible assumption) ?_) | (with_reducible refine keptO_eq (by with_reducible assumption) ?_))

theorem State.diceTest_kept {a1 a2 a3} (hfab : m.fab) (h : Kept m z s) : Kept2 m z (State.diceTest s a1 a2 a3) := by
  unfold State.diceTest
  repeat' first
    | with_reducible assumption
    | intro _
    | subst x
    | (extract_lets +onlyGivenNames x; have hx : Kept m z x := ?_; clear_value x)
    | (extract_lets +onlyGivenNames x; have hx : Kept2 m z x := ?_; clear_value x)
    | (extract_lets +onlyGivenNames x; clear_value x)
    | (extract_lets +onlyGivenNames w; revert w; intro w0)
    | with_reducible apply kept_ite
    | with_reducible apply State.setDice_kept
    | with_reducible apply kept2_mk
    | with_reducible apply kept2_mk
    | (with_reducible apply kept2_proj; first | with_reducible assumption | with_reducible apply kept2_foldl)
    | split
    | dsimp -zeta only

theorem State.diceDraw_kept {a1} (hregs : m.regs) (hfab : m.fab) (h : Kept m z s) : Kept2 m z (State.diceDraw s a1) :=
    by
  unfold State.diceDraw
  repeat' first
    | with_reducible assumption
    | intro _
    | subst x
    | (extract_lets +onlyGivenNames x; have hx : Kept m z x := ?_; clear_value x)
    | (extract_lets +onlyGivenNames x; have hx : Kept2 m z x := ?_; clear_value x)
    | (extract_lets +onlyGivenNames x; clear_value x)
    | (extract_lets +onlyGivenNames w; revert w; intro w0)
    | with_reducible apply kept_ite
    | with_reducible apply State.bump_kept
    | with_reducible apply State.diceTest_kept
    | with_reducible apply kept2_mk
    | with_reducible apply kept2_mk
    | (with_reducible apply kept2_proj; first | with_reducible assumption | with_reducible apply kept2_foldl | with_reducible apply State.diceTest_kept)
    | split
    | dsimp -zeta only

theorem State.diceHold_kept {a1 a2} (hfab : m.fab) (h : Kept m z s) : Kept m z (State.diceHold s a1 a2) := by
  unfold State.diceHold
  repeat' first
    | with_reducible assumption
    | intro _
    | subst x
    | (extract_lets +onlyGivenNames x; have hx : Kept m z x := ?_; clear_value x)
    | (extract_lets +onlyGivenNames x; have hx : Kept2 m z x := ?_; clear_value x)
    | (extract_lets +onlyGivenNames x; clear_value x)
    | (extract_lets +onlyGivenNames w; revert w; intro w0)
    | with_reducible apply State.setDice_kept
    | with_reducible apply kept2_mk
    | (with_reducible apply kept2_proj; first | with_reducible assumption | with_reducible apply kept2_foldl)
    | dsimp -zeta only

theorem State.diceRelease_kept {a1} (hfab : m.fab) (h : Kept m z s) : Kept2 m z (State.diceRelease s a1) := by
  unfold State.diceRelease
  repeat' first
    | with_reducible assumption
    | intro _
    | subst x
    | (extract_lets +onlyGivenNames x; have hx : Kept m z x := ?_; clear_value x)
    | (extract_lets +onlyGivenNames x; have hx : Kept2 m z x := ?_; clear_value x)
    | (extract_lets +onlyGivenNames x; clear_value x)
    | (extract_lets +onlyGivenNames w; revert w; intro w0)
    | with_reducible apply State.setDice_kept
    | with_reducible apply kept2_mk
    | with_reducible apply kept2_mk
    | (with_reducible apply kept2_proj; first | with_reducible assumption | with_reducible apply kept2_foldl)
    | dsimp -zeta only

theorem State.diceStart_kept {a1} (hregs : m.regs) (hfab : m.fab) (h : Kept m z s) : Kept m z (State.diceStart s a1) :=
    by
  unfold State.diceStart
  repeat' first
    | with_reducible assumption
    | intro _
    | with_reducible apply State.setDice_kept
    | with_reducible apply State.wr_kept

theorem State.diceEnd_kept {a1} (hregs : m.regs) (hfab : m.fab) (h : Kept m z s) : Kept2 m z (State.diceEnd s a1) := by
  unfold State.diceEnd
  repeat' first
    | with_reducible assumption
    | intro _
    | with_reducible apply State.setDice_kept
    | with_reducible apply State.wr_kept
    | with_reducible apply kept2_mk
    | with_reducible apply kept2_mk
    | (with_reducible apply kept2_proj; first | with_reducible assumption | with_reducible apply kept2_foldl)
    | dsimp -zeta only

theorem execDiceArm_kept {a0 a1 a2 a3} (hregs : m.regs) (hout : m.out) (hsched : m.sched) (hhost : m.host) (h : Kept m
    z s) : KeptX m z (execDiceArm a0 a1 a2 a3 s) := by
  unfold execDiceArm
  repeat' first
    | with_reducible assumption
    | intro _
    | subst x
    | (extract_lets +onlyGivenNames x; have hx : Kept m z x := ?_; clear_value x)
    | (extract_lets +onlyGivenNames x; clear_value x)
    | (extract_lets +onlyGivenNames w; revert w; intro w0)
    | with_reducible apply kept_ite
    | with_reducible apply State.hostWrite_kept
    | with_reducible apply State.lateErr_kept
    | with_reducible apply State.mergeReg_kept
    | with_reducible apply State.schedTake_kept
    | with_reducible apply State.wr_kept
    | with_reducible apply keptX_ok
    | split
    | dsimp -zeta only

theorem State.withdrawDice_kept {a1 a2 a3} (hregs : m.regs) (hsched : m.sched) (h : Kept m z s) : Kept m z
    (State.withdrawDice s a1 a2 a3) := by
  unfold State.withdrawDice
  repeat' first
    | with_reducible assumption
    | intro _
    | with_reducible apply State.schedFree_kept
    | with_reducible apply State.wr_kept

theorem execDiceCancel_kept {a0 a1 a2} (hregs : m.regs) (hout : m.out) (hsched : m.sched) (hhost : m.host) (h : Kept
    m z s) : KeptX m z (execDiceCancel a0 a1 a2 s) := by
  unfold execDiceCancel
  repeat' first
    | with_reducible assumption
    | intro _
    | subst x
    | (extract_lets +onlyGivenNames x; have hx : Kept m z x := ?_; clear_value x)
    | (extract_lets +onlyGivenNames x; clear_value x)
    | (extract_lets +onlyGivenNames w; revert w; intro w0)
    | with_reducible apply kept_ite
    | with_reducible apply State.hostWrite_kept
    | with_reducible apply State.lateErr_kept
    | with_reducible apply State.mergeReg_kept
    | with_reducible apply State.withdrawDice_kept
    | with_reducible apply State.wr_kept
    | with_reducible apply keptX_ok
    | split
    | dsimp -zeta only

end Sys2Proof.Machine
end

