-- ==== Sys2Proof/Laws/KeptSchedule.lean ====
section
/-!
SUPPORT. Laws/KeptSchedule.lean: what the operations of Machine/Schedule.lean keep (Laws/Kept.lean).
-/

namespace Sys2Proof.Machine

set_option linter.all false

variable {m : Mask} {z s : State}

theorem State.refreshNode_kept {a1 a2 a3 a4} (hbuf : m.buf) (h : Kept m z s) : Kept m z (State.refreshNode s a1 a2 a3
    a4) := by
  unfold State.refreshNode
  repeat' first
    | with_reducible assumption
    | intro _
    | subst x
    | (extract_lets +onlyGivenNames x; have hx : Kept m z x := ?_; clear_value x)
    | (extract_lets +onlyGivenNames x; have hx : Kept2 m z x := ?_; clear_value x)
    | (extract_lets +onlyGivenNames x; clear_value x)
    | (extract_lets +onlyGivenNames w; revert w; intro w0)
    | with_reducible apply kept_ite
    | with_reducible apply State.setNodeSt_kept
    | with_reducible apply kept2_mk
    | (with_reducible apply kept2_proj; first | with_reducible assumption | with_reducible apply kept2_foldl)
    | split
    | dsimp -zeta only

theorem State.refreshPort_kept {a1} (hbuf : m.buf) (h : Kept m z s) : Kept m z (State.refreshPort s a1) := by
  unfold State.refreshPort
  repeat' first
    | with_reducible assumption
    | intro _
    | subst x
    | (extract_lets +onlyGivenNames x; have hx : Kept m z x := ?_; clear_value x)
    | (extract_lets +onlyGivenNames x; have hx : Kept2 m z x := ?_; clear_value x)
    | (extract_lets +onlyGivenNames x; have hx : KeptO m z x := ?_; clear_value x)
    | (extract_lets +onlyGivenNames x; clear_value x)
    | (extract_lets +onlyGivenNames w; revert w; intro w0)
    | with_reducible apply State.each_kept
    | with_reducible apply State.refreshNode_kept
    | with_reducible apply kept2_mk
    | (with_reducible apply kept2_proj; first | with_reducible assumption | with_reducible apply kept2_foldl)
    | dsimp -zeta only

theorem State.advanceTime_kept {a1 a2 a3 a4} (hbuf : m.buf) (h : Kept m z s) : Kept m z (State.advanceTime s a1 a2 a3
    a4) := by
  unfold State.advanceTime
  repeat' first
    | with_reducible assumption
    | intro _
    | subst x
    | (extract_lets +onlyGivenNames x; have hx : Kept m z x := ?_; clear_value x)
    | (extract_lets +onlyGivenNames x; clear_value x)
    | (extract_lets +onlyGivenNames w; revert w; intro w0)
    | with_reducible apply kept_ite
    | with_reducible apply State.setNodeSt_kept
    | split
    | dsimp -zeta only

theorem State.descend_kept {a0 a1 a2 a3} (hbuf : m.buf) (h : Kept m z s) : Kept2 m z (State.descend a0 a1 a2 a3 s) :=
    by
  induction a1 generalizing a0 a2 a3 s
  all_goals
    unfold State.descend
    repeat' first
      | with_reducible assumption
      | intro _
      | subst x
      | (extract_lets +onlyGivenNames x; have hx : Kept m z x := ?_; clear_value x)
      | (extract_lets +onlyGivenNames x; have hx : Kept2 m z x := ?_; clear_value x)
      | (extract_lets +onlyGivenNames x; have hx : KeptO m z x := ?_; clear_value x)
      | (extract_lets +onlyGivenNames x; clear_value x)
      | (extract_lets +onlyGivenNames w; revert w; intro w0)
      | with_reducible apply_assumption
      | with_reducible apply State.advanceTime_kept
      | with_reducible apply kept2_mk
      | with_reducible apply kept2_mk
      | (with_reducible refine kept2_eq (by with_reducible assumption) ?_)
      | (with_reducible apply kept2_proj; first | with_reducible assumption | with_reducible apply kept2_foldl)
      | split
      | dsimp -zeta only

theorem State.charge_kept {a1 a2 a3 a4} (hbuf : m.buf) (h : Kept m z s) : Kept m z (State.charge s a1 a2 a3 a4) := by
  unfold State.charge
  repeat' first
    | with_reducible assumption
    | intro _
    | subst x
    | (extract_lets +onlyGivenNames x; have hx : Kept m z x := ?_; clear_value x)
    | (extract_lets +onlyGivenNames x; clear_value x)
    | (extract_lets +onlyGivenNames w; revert w; intro w0)
    | with_reducible apply kept_ite
    | with_reducible apply State.setNodeSt_kept
    | split
    | dsimp -zeta only

theorem State.toFdEgress_kept {a1 a2} (hfd : m.fd) (h : Kept m z s) : Kept m z (State.toFdEgress s a1 a2) := by
  unfold State.toFdEgress
  repeat' first
    | with_reducible assumption
    | intro _
    | subst x
    | (extract_lets +onlyGivenNames x; have hx : Kept m z x := ?_; clear_value x)
    | (extract_lets +onlyGivenNames x; have hx : Kept2 m z x := ?_; clear_value x)
    | (extract_lets +onlyGivenNames x; have hx : KeptO m z x := ?_; clear_value x)
    | (extract_lets +onlyGivenNames x; clear_value x)
    | (extract_lets +onlyGivenNames w; revert w; intro w0)
    | with_reducible apply kept_ite
    | with_reducible apply State.addPkt_kept
    | with_reducible apply kept2_mk
    | with_reducible apply keptO_some
    | with_reducible apply keptO_none
    | with_reducible exact keptO2_get (by with_reducible assumption)
    | (with_reducible refine kept2_eq (by with_reducible assumption) ?_)
    | (with_reducible apply kept2_proj; first | with_reducible assumption | with_reducible apply kept2_foldl)
    | (with_reducible refine keptO_eq (by with_reducible assumption) ?_)
    | with_reducible apply kept_foldl
    | split
    | dsimp -zeta only
    | (with_reducible refine kept_mk rfl ?_ rfl rfl rfl rfl ?_ ?_ ?_ ?_ ?_ ?_ ?_ ?_ ?_ ?_ ?_ ?_ ?_ ?_ ?_ ?_ ?_ ?_ ?_ <;> first | with_reducible exact Or.inr rfl | exact Or.inl (by assumption) | with_reducible assumption | with_reducible exact keptO2_get (by with_reducible assumption) | (with_reducible refine kept2_eq (by with_reducible assumption) ?_) | (with_reducible refine keptO_eq (by with_reducible assumption) ?_) | with_reducible apply State.addPkt_kept)

theorem State.serveCopy_kept {a1 a2 a3 a4 a5} (hregs : m.regs) (hout : m.out) (hhost : m.host) (hfd : m.fd) (hcnt :
    m.cnt) (hbuf : m.buf) (hmem : m.mem) (h : Kept m z s) : Kept m z (State.serveCopy s a1 a2 a3 a4 a5) := by
  unfold State.serveCopy
  repeat' first
    | with_reducible assumption
    | intro _
    | subst x
    | (extract_lets +onlyGivenNames x; have hx : Kept m z x := ?_; clear_value x)
    | (extract_lets +onlyGivenNames x; have hx : Kept2 m z x := ?_; clear_value x)
    | (extract_lets +onlyGivenNames x; clear_value x)
    | (extract_lets +onlyGivenNames w; revert w; intro w0)
    | with_reducible apply State.bump_kept
    | with_reducible apply State.charge_kept
    | with_reducible apply State.countQueue_kept
    | with_reducible apply State.each_kept
    | with_reducible apply State.pmuAs_kept
    | with_reducible apply State.readBody_kept
    | with_reducible apply State.releaseWith_kept
    | with_reducible apply State.setQueue_kept
    | with_reducible apply State.toFdEgress_kept
    | with_reducible apply kept2_mk
    | (with_reducible apply kept2_proj; first | with_reducible assumption | with_reducible apply kept2_foldl | with_reducible apply State.readBody_kept)
    | dsimp -zeta only

theorem State.flushPort_kept {a1} (hregs : m.regs) (hout : m.out) (hhost : m.host) (hcnt : m.cnt) (hbuf : m.buf) (hlif
    : m.lif) (hmem : m.mem) (h : Kept m z s) : Kept m z (State.flushPort s a1) := by
  unfold State.flushPort
  repeat' first
    | with_reducible assumption
    | intro _
    | subst x
    | (extract_lets +onlyGivenNames x; have hx : Kept m z x := ?_; clear_value x)
    | (extract_lets +onlyGivenNames x; have hx : Kept2 m z x := ?_; clear_value x)
    | (extract_lets +onlyGivenNames x; clear_value x)
    | (extract_lets +onlyGivenNames w; revert w; intro w0)
    | with_reducible apply State.bufSync_kept
    | with_reducible apply State.bump_kept
    | with_reducible apply State.each_kept
    | with_reducible apply State.nextCopy_kept
    | with_reducible apply State.refreshPort_kept
    | (with_reducible apply kept2_proj; first | with_reducible assumption | with_reducible apply kept2_foldl | with_reducible apply State.nextCopy_kept)
    | dsimp -zeta only

theorem execDequeueDecision_kept {a0 a1 a2} (hregs : m.regs) (hout : m.out) (hhost : m.host) (hfd : m.fd) (hcnt : m.cnt)
    (hbuf : m.buf) (hlif : m.lif) (hmem : m.mem) (h : Kept m z s) : KeptX m z (execDequeueDecision a0 a1 a2 s) := by
  unfold execDequeueDecision
  repeat' first
    | with_reducible assumption
    | intro _
    | subst x
    | (extract_lets +onlyGivenNames x; have hx : Kept m z x := ?_; clear_value x)
    | (extract_lets +onlyGivenNames x; have hx : Kept2 m z x := ?_; clear_value x)
    | (extract_lets +onlyGivenNames x; clear_value x)
    | (extract_lets +onlyGivenNames w; revert w; intro w0)
    | with_reducible apply kept_ite
    | with_reducible apply State.bufSync_kept
    | with_reducible apply State.bump_kept
    | with_reducible apply State.descend_kept
    | with_reducible apply State.flushPort_kept
    | with_reducible apply State.nextCopy_kept
    | with_reducible apply State.refreshPort_kept
    | with_reducible apply State.serveCopy_kept
    | with_reducible apply State.strikeQueue_kept
    | with_reducible apply State.upsetQueue_kept
    | with_reducible apply keptX_ok
    | (with_reducible refine kept2_eq (by with_reducible assumption) ?_)
    | (with_reducible apply kept2_proj; first | with_reducible assumption | with_reducible apply kept2_foldl | with_reducible apply State.descend_kept | with_reducible apply State.nextCopy_kept)
    | split
    | dsimp -zeta only

theorem execShaperRefill_kept {a0} (hbuf : m.buf) (h : Kept m z s) : KeptX m z (execShaperRefill a0 s) := by
  unfold execShaperRefill
  repeat' first
    | with_reducible assumption
    | intro _
    | subst x
    | (extract_lets +onlyGivenNames x; have hx : Kept m z x := ?_; clear_value x)
    | (extract_lets +onlyGivenNames x; have hx : Kept2 m z x := ?_; clear_value x)
    | (extract_lets +onlyGivenNames x; have hx : KeptO m z x := ?_; clear_value x)
    | (extract_lets +onlyGivenNames x; clear_value x)
    | (extract_lets +onlyGivenNames w; revert w; intro w0)
    | with_reducible apply kept_ite
    | with_reducible apply State.each_kept
    | with_reducible apply State.setNodeSt_kept
    | with_reducible apply keptX_ok
    | with_reducible apply kept2_mk
    | with_reducible apply keptO_some
    | with_reducible apply keptO_none
    | with_reducible exact keptO2_get (by with_reducible assumption)
    | (with_reducible refine kept2_eq (by with_reducible assumption) ?_)
    | (with_reducible apply kept2_proj; first | with_reducible assumption | with_reducible apply kept2_foldl)
    | (with_reducible refine keptO_eq (by with_reducible assumption) ?_)
    | with_reducible apply kept_foldl
    | split
    | dsimp -zeta only
    | (with_reducible refine kept_mk rfl ?_ rfl rfl rfl rfl ?_ ?_ ?_ ?_ ?_ ?_ ?_ ?_ ?_ ?_ ?_ ?_ ?_ ?_ ?_ ?_ ?_ ?_ ?_ <;> first | with_reducible exact Or.inr rfl | exact Or.inl (by assumption) | with_reducible assumption | with_reducible exact keptO2_get (by with_reducible assumption) | (with_reducible refine kept2_eq (by with_reducible assumption) ?_) | (with_reducible refine keptO_eq (by with_reducible assumption) ?_) | with_reducible apply State.each_kept | with_reducible apply State.setNodeSt_kept)

theorem execRefillIntervalWrite_kept {a0 a1 a2} (hregs : m.regs) (hout : m.out) (hhost : m.host) (h : Kept m z s) :
    KeptX m z (execRefillIntervalWrite a0 a1 a2 s) := by
  unfold execRefillIntervalWrite
  repeat' first
    | with_reducible assumption
    | intro _
    | subst x
    | (extract_lets +onlyGivenNames x; have hx : Kept m z x := ?_; clear_value x)
    | (extract_lets +onlyGivenNames x; clear_value x)
    | (extract_lets +onlyGivenNames w; revert w; intro w0)
    | with_reducible apply kept_ite
    | with_reducible apply State.hostWrite_kept
    | with_reducible apply State.lateErr_kept
    | with_reducible apply State.mergeReg_kept
    | with_reducible apply State.svcUpdate_kept
    | with_reducible apply keptX_ok
    | split
    | dsimp -zeta only

theorem State.setQueueLc_kept {a1 a2} (hregs : m.regs) (hout : m.out) (hhost : m.host) (hbuf : m.buf) (h : Kept m z s)
    : Kept m z (State.setQueueLc s a1 a2) := by
  unfold State.setQueueLc
  repeat' first
    | with_reducible assumption
    | intro _
    | subst x
    | (extract_lets +onlyGivenNames x; have hx : Kept m z x := ?_; clear_value x)
    | (extract_lets +onlyGivenNames x; clear_value x)
    | (extract_lets +onlyGivenNames w; revert w; intro w0)
    | with_reducible apply kept_ite
    | with_reducible apply State.event_kept
    | with_reducible apply State.setQueue_kept
    | split
    | dsimp -zeta only

theorem State.queueLc_kept {a1 a2 a3 a4} (hregs : m.regs) (hout : m.out) (hhost : m.host) (hbuf : m.buf) (h : Kept m z
    s) : Kept m z (State.queueLc s a1 a2 a3 a4) := by
  unfold State.queueLc
  repeat' first
    | with_reducible assumption
    | intro _
    | subst x
    | (extract_lets +onlyGivenNames x; have hx : Kept m z x := ?_; clear_value x)
    | (extract_lets +onlyGivenNames x; clear_value x)
    | (extract_lets +onlyGivenNames w; revert w; intro w0)
    | with_reducible apply kept_ite
    | with_reducible apply State.hostWrite_kept
    | with_reducible apply State.setQueue_kept
    | with_reducible apply State.setQueueLc_kept
    | split
    | dsimp -zeta only

theorem execQueueEnable_kept {a0 a1} (hregs : m.regs) (hout : m.out) (hhost : m.host) (hbuf : m.buf) (h : Kept m z s) :
    KeptX m z (execQueueEnable a0 a1 s) := by
  unfold execQueueEnable
  repeat' first
    | with_reducible assumption
    | intro _
    | with_reducible apply State.queueLc_kept
    | with_reducible apply keptX_ok

theorem execQueueDisable_kept {a0 a1} (hregs : m.regs) (hout : m.out) (hhost : m.host) (hbuf : m.buf) (h : Kept m z s)
    : KeptX m z (execQueueDisable a0 a1 s) := by
  unfold execQueueDisable
  repeat' first
    | with_reducible assumption
    | intro _
    | with_reducible apply State.queueLc_kept
    | with_reducible apply keptX_ok

theorem execQueueDisableFlush_kept {a0 a1} (hregs : m.regs) (hout : m.out) (hhost : m.host) (hbuf : m.buf) (h : Kept m
    z s) : KeptX m z (execQueueDisableFlush a0 a1 s) := by
  unfold execQueueDisableFlush
  repeat' first
    | with_reducible assumption
    | intro _
    | with_reducible apply State.queueLc_kept
    | with_reducible apply keptX_ok

theorem execQueueDrainDone_kept {a0} (hregs : m.regs) (hout : m.out) (hhost : m.host) (hbuf : m.buf) (h : Kept m z s) :
    KeptX m z (execQueueDrainDone a0 s) := by
  unfold execQueueDrainDone
  repeat' first
    | with_reducible assumption
    | intro _
    | subst x
    | (extract_lets +onlyGivenNames x; have hx : Kept m z x := ?_; clear_value x)
    | (extract_lets +onlyGivenNames x; clear_value x)
    | (extract_lets +onlyGivenNames w; revert w; intro w0)
    | with_reducible apply kept_ite
    | with_reducible apply State.setQueue_kept
    | with_reducible apply State.setQueueLc_kept
    | with_reducible apply keptX_ok
    | split
    | dsimp -zeta only

theorem execQueueLcSelect_kept {a0 a1 a2} (hregs : m.regs) (hout : m.out) (hhost : m.host) (h : Kept m z s) : KeptX m z
    (execQueueLcSelect a0 a1 a2 s) := by
  unfold execQueueLcSelect
  repeat' first
    | with_reducible assumption
    | intro _
    | subst x
    | (extract_lets +onlyGivenNames x; have hx : Kept m z x := ?_; clear_value x)
    | (extract_lets +onlyGivenNames x; clear_value x)
    | (extract_lets +onlyGivenNames w; revert w; intro w0)
    | with_reducible apply kept_ite
    | with_reducible apply State.hostWrite_kept
    | with_reducible apply State.lateErr_kept
    | with_reducible apply State.mergeReg_kept
    | with_reducible apply State.wr_kept
    | with_reducible apply State.wrBit_kept
    | with_reducible apply keptX_ok
    | split
    | dsimp -zeta only

theorem execNodeStateCapture_kept {a0 a1 a2} (hregs : m.regs) (hout : m.out) (hhost : m.host) (h : Kept m z s) : KeptX
    m z (execNodeStateCapture a0 a1 a2 s) := by
  unfold execNodeStateCapture
  repeat' first
    | with_reducible assumption
    | intro _
    | subst x
    | (extract_lets +onlyGivenNames x; have hx : Kept m z x := ?_; clear_value x)
    | (extract_lets +onlyGivenNames x; clear_value x)
    | (extract_lets +onlyGivenNames w; revert w; intro w0)
    | with_reducible apply kept_ite
    | with_reducible apply State.hostWrite_kept
    | with_reducible apply State.lateErr_kept
    | with_reducible apply State.mergeReg_kept
    | with_reducible apply State.wr_kept
    | with_reducible apply State.wrBit_kept
    | with_reducible apply State.wrWord_kept
    | with_reducible apply keptX_ok
    | split
    | dsimp -zeta only

end Sys2Proof.Machine
end

