-- ==== Sys2Proof/Laws/KeptTiers.lean ====
section
/-!
SUPPORT. Laws/KeptTiers.lean: what the operations of Machine/Tiers.lean keep (Laws/Kept.lean).
-/

namespace Sys2Proof.Machine

set_option linter.all false

variable {m : Mask} {z s : State}

theorem execTileReadReturn_kept {a0 a1 a2 a3 a4 a5} (hregs : m.regs) (hout : m.out) (hhost : m.host) (hcnt : m.cnt)
    (hbuf : m.buf) (hmem : m.mem) (h : Kept m z s) : KeptX m z (execTileReadReturn a0 a1 a2 a3 a4 a5 s) := by
  unfold execTileReadReturn
  repeat' first
    | with_reducible assumption
    | intro _
    | subst x
    | (extract_lets +onlyGivenNames x; have hx : Kept m z x := ?_; clear_value x)
    | (extract_lets +onlyGivenNames x; have hx : Kept2 m z x := ?_; clear_value x)
    | (extract_lets +onlyGivenNames x; clear_value x)
    | (extract_lets +onlyGivenNames w; revert w; intro w0)
    | with_reducible apply kept_ite
    | with_reducible apply State.bump_kept
    | with_reducible apply State.event_kept
    | with_reducible apply State.onlyIf_kept
    | with_reducible apply State.readStripe_kept
    | with_reducible apply State.setPrefetch_kept
    | with_reducible apply State.setQueue_kept
    | with_reducible apply State.strikeStripe_kept
    | with_reducible apply keptX_ok
    | with_reducible apply kept2_mk
    | (with_reducible refine kept2_eq (by with_reducible assumption) ?_)
    | (with_reducible apply kept2_proj; first | with_reducible assumption | with_reducible apply kept2_foldl | with_reducible apply State.readStripe_kept)
    | split
    | dsimp -zeta only

theorem execHbmMapWrite_kept {a0 a1 a2} (hregs : m.regs) (hout : m.out) (hhost : m.host) (h : Kept m z s) : KeptX m z
    (execHbmMapWrite a0 a1 a2 s) := by
  unfold execHbmMapWrite
  repeat' first
    | with_reducible assumption
    | intro _
    | subst x
    | (extract_lets +onlyGivenNames x; have hx : Kept m z x := ?_; clear_value x)
    | (extract_lets +onlyGivenNames x; clear_value x)
    | (extract_lets +onlyGivenNames w; revert w; intro w0)
    | with_reducible apply kept_ite
    | with_reducible apply State.hostWrite_kept
    | with_reducible apply State.lateErr_kept
    | with_reducible apply State.mergeReg_kept
    | with_reducible apply keptX_ok
    | split
    | dsimp -zeta only

theorem execHbmPartWrite_kept {a0 a1 a2} (hregs : m.regs) (hout : m.out) (hhost : m.host) (hbuf : m.buf) (h : Kept m z
    s) : KeptX m z (execHbmPartWrite a0 a1 a2 s) := by
  unfold execHbmPartWrite
  repeat' first
    | with_reducible assumption
    | intro _
    | subst x
    | (extract_lets +onlyGivenNames x; have hx : Kept m z x := ?_; clear_value x)
    | (extract_lets +onlyGivenNames x; clear_value x)
    | (extract_lets +onlyGivenNames w; revert w; intro w0)
    | with_reducible apply kept_ite
    | with_reducible apply State.hostWrite_kept
    | with_reducible apply State.lateErr_kept
    | with_reducible apply State.mergeReg_kept
    | with_reducible apply State.setPages_kept
    | with_reducible apply keptX_ok
    | split
    | dsimp -zeta only

theorem execHbmTempBandChange_kept {a0 a1} (hsvc : m.svc) (hmem : m.mem) (h : Kept m z s) : KeptX m z
    (execHbmTempBandChange a0 a1 s) := by
  unfold execHbmTempBandChange
  repeat' first
    | with_reducible assumption
    | intro _
    | subst x
    | (extract_lets +onlyGivenNames x; have hx : Kept m z x := ?_; clear_value x)
    | (extract_lets +onlyGivenNames x; have hx : Kept2 m z x := ?_; clear_value x)
    | (extract_lets +onlyGivenNames x; have hx : KeptO m z x := ?_; clear_value x)
    | (extract_lets +onlyGivenNames x; clear_value x)
    | (extract_lets +onlyGivenNames w; revert w; intro w0)
    | with_reducible apply kept_ite
    | with_reducible apply State.coreAccess_kept
    | with_reducible apply keptX_ok
    | with_reducible apply kept2_mk
    | with_reducible apply keptO_some
    | with_reducible apply keptO_none
    | with_reducible exact keptO2_get (by with_reducible assumption)
    | (with_reducible refine kept2_eq (by with_reducible assumption) ?_)
    | (with_reducible apply kept2_proj; first | with_reducible assumption | with_reducible apply kept2_foldl)
    | (with_reducible refine keptO_eq (by with_reducible assumption) ?_)
    | with_reducible apply kept_foldl
    | split
    | dsimp -zeta only
    | (with_reducible refine kept_mk rfl ?_ rfl rfl rfl rfl ?_ ?_ ?_ ?_ ?_ ?_ ?_ ?_ ?_ ?_ ?_ ?_ ?_ ?_ ?_ ?_ ?_ ?_ ?_ <;> first | with_reducible exact Or.inr rfl | exact Or.inl (by assumption) | with_reducible assumption | with_reducible exact keptO2_get (by with_reducible assumption) | (with_reducible refine kept2_eq (by with_reducible assumption) ?_) | (with_reducible refine keptO_eq (by with_reducible assumption) ?_) | with_reducible apply State.coreAccess_kept)

theorem execHbmDelayApply_kept {a0} (hregs : m.regs) (hsvc : m.svc) (hmem : m.mem) (h : Kept m z s) : KeptX m z
    (execHbmDelayApply a0 s) := by
  unfold execHbmDelayApply
  repeat' first
    | with_reducible assumption
    | intro _
    | subst x
    | (extract_lets +onlyGivenNames x; have hx : Kept m z x := ?_; clear_value x)
    | (extract_lets +onlyGivenNames x; have hx : Kept2 m z x := ?_; clear_value x)
    | (extract_lets +onlyGivenNames x; have hx : KeptO m z x := ?_; clear_value x)
    | (extract_lets +onlyGivenNames x; clear_value x)
    | (extract_lets +onlyGivenNames w; revert w; intro w0)
    | with_reducible apply kept_ite
    | with_reducible apply State.takeDelays_kept
    | with_reducible apply State.wr_kept
    | with_reducible apply keptX_ok
    | with_reducible apply kept2_mk
    | with_reducible apply keptO_some
    | with_reducible apply keptO_none
    | with_reducible exact keptO2_get (by with_reducible assumption)
    | (with_reducible refine kept2_eq (by with_reducible assumption) ?_)
    | (with_reducible apply kept2_proj; first | with_reducible assumption | with_reducible apply kept2_foldl)
    | (with_reducible refine keptO_eq (by with_reducible assumption) ?_)
    | with_reducible apply kept_foldl
    | split
    | dsimp -zeta only
    | (with_reducible refine kept_mk rfl ?_ rfl rfl rfl rfl ?_ ?_ ?_ ?_ ?_ ?_ ?_ ?_ ?_ ?_ ?_ ?_ ?_ ?_ ?_ ?_ ?_ ?_ ?_ <;> first | with_reducible exact Or.inr rfl | exact Or.inl (by assumption) | with_reducible assumption | with_reducible exact keptO2_get (by with_reducible assumption) | (with_reducible refine kept2_eq (by with_reducible assumption) ?_) | (with_reducible refine keptO_eq (by with_reducible assumption) ?_) | with_reducible apply State.takeDelays_kept | with_reducible apply State.wr_kept)

theorem State.resSync_kept {a1} (hregs : m.regs) (hout : m.out) (hhost : m.host) (hbuf : m.buf) (h : Kept m z s) : Kept
    m z (State.resSync s a1) := by
  unfold State.resSync
  repeat' first
    | with_reducible assumption
    | intro _
    | subst x
    | (extract_lets +onlyGivenNames x; have hx : Kept m z x := ?_; clear_value x)
    | (extract_lets +onlyGivenNames x; clear_value x)
    | (extract_lets +onlyGivenNames w; revert w; intro w0)
    | with_reducible apply State.setResPort_kept
    | with_reducible apply State.svcUpdate_kept
    | with_reducible apply State.wrBit_kept
    | dsimp -zeta only

theorem State.resLinkOff_kept {a1} (hregs : m.regs) (h : Kept m z s) : Kept m z (State.resLinkOff s a1) := by
  unfold State.resLinkOff
  repeat' first
    | with_reducible assumption
    | intro _
    | subst x
    | (extract_lets +onlyGivenNames x; have hx : Kept m z x := ?_; clear_value x)
    | (extract_lets +onlyGivenNames x; clear_value x)
    | (extract_lets +onlyGivenNames w; revert w; intro w0)
    | with_reducible apply State.wr_kept
    | dsimp -zeta only

theorem State.resTrims_kept {a1} (hsvc : m.svc) (h : Kept m z s) : Kept m z (State.resTrims s a1) := by
  unfold State.resTrims
  repeat' first
    | with_reducible assumption
    | intro _
    | with_reducible apply kept_ite
    | with_reducible apply State.takeTrims_kept
    | split

theorem State.enableRes_kept {a1} (hregs : m.regs) (hout : m.out) (hhost : m.host) (hsvc : m.svc) (hbuf : m.buf) (h :
    Kept m z s) : Kept m z (State.enableRes s a1) := by
  unfold State.enableRes
  repeat' first
    | with_reducible assumption
    | intro _
    | subst x
    | (extract_lets +onlyGivenNames x; have hx : Kept m z x := ?_; clear_value x)
    | (extract_lets +onlyGivenNames x; clear_value x)
    | (extract_lets +onlyGivenNames w; revert w; intro w0)
    | with_reducible apply State.lcWrite_kept
    | with_reducible apply State.onlyIf_kept
    | with_reducible apply State.resSync_kept
    | with_reducible apply State.resTrims_kept
    | with_reducible apply State.setResPort_kept
    | dsimp -zeta only

theorem execRsvPortEnable_kept {a0 a1 a2} (hregs : m.regs) (hout : m.out) (hhost : m.host) (hsvc : m.svc) (hbuf :
    m.buf) (h : Kept m z s) : KeptX m z (execRsvPortEnable a0 a1 a2 s) := by
  unfold execRsvPortEnable
  repeat' first
    | with_reducible assumption
    | intro _
    | with_reducible apply kept_ite
    | with_reducible apply State.enableRes_kept
    | with_reducible apply State.hostWrite_kept
    | with_reducible apply keptX_ok
    | split

theorem execRsvPortDisable_kept {a0 a1 a2} (hregs : m.regs) (hout : m.out) (hhost : m.host) (hbuf : m.buf) (h : Kept m
    z s) : KeptX m z (execRsvPortDisable a0 a1 a2 s) := by
  unfold execRsvPortDisable
  repeat' first
    | with_reducible assumption
    | intro _
    | subst x
    | (extract_lets +onlyGivenNames x; have hx : Kept m z x := ?_; clear_value x)
    | (extract_lets +onlyGivenNames x; clear_value x)
    | (extract_lets +onlyGivenNames w; revert w; intro w0)
    | with_reducible apply kept_ite
    | with_reducible apply State.hostWrite_kept
    | with_reducible apply State.lcWrite_kept
    | with_reducible apply State.onlyIf_kept
    | with_reducible apply State.resLinkOff_kept
    | with_reducible apply State.resSync_kept
    | with_reducible apply keptX_ok
    | split
    | dsimp -zeta only

theorem execCxlLinkTrainingDone_kept {a0 a1 a2 a3 a4} (hregs : m.regs) (hout : m.out) (hhost : m.host) (hbuf : m.buf)
    (h : Kept m z s) : KeptX m z (execCxlLinkTrainingDone a0 a1 a2 a3 a4 s) := by
  unfold execCxlLinkTrainingDone
  repeat' first
    | with_reducible assumption
    | intro _
    | subst x
    | (extract_lets +onlyGivenNames x; have hx : Kept m z x := ?_; clear_value x)
    | (extract_lets +onlyGivenNames x; clear_value x)
    | (extract_lets +onlyGivenNames w; revert w; intro w0)
    | with_reducible apply kept_ite
    | with_reducible apply State.resSync_kept
    | with_reducible apply State.setLc_kept
    | with_reducible apply State.wr_kept
    | with_reducible apply State.wrBit_kept
    | with_reducible apply keptX_ok
    | split
    | dsimp -zeta only

theorem execRsvPortFillDone_kept {a0} (hregs : m.regs) (hout : m.out) (hhost : m.host) (hbuf : m.buf) (h : Kept m z s)
    : KeptX m z (execRsvPortFillDone a0 s) := by
  unfold execRsvPortFillDone
  repeat' first
    | with_reducible assumption
    | intro _
    | subst x
    | (extract_lets +onlyGivenNames x; have hx : Kept m z x := ?_; clear_value x)
    | (extract_lets +onlyGivenNames x; clear_value x)
    | (extract_lets +onlyGivenNames w; revert w; intro w0)
    | with_reducible apply kept_ite
    | with_reducible apply State.resSync_kept
    | with_reducible apply State.setLc_kept
    | with_reducible apply State.wr_kept
    | with_reducible apply keptX_ok
    | split
    | dsimp -zeta only

theorem execRsvPortDrainDone_kept {a0} (hregs : m.regs) (hout : m.out) (hhost : m.host) (hsvc : m.svc) (hbuf : m.buf)
    (h : Kept m z s) : KeptX m z (execRsvPortDrainDone a0 s) := by
  unfold execRsvPortDrainDone
  repeat' first
    | with_reducible assumption
    | intro _
    | with_reducible apply kept_ite
    | with_reducible apply State.lcEndDrain_kept
    | with_reducible apply State.resLinkOff_kept
    | with_reducible apply State.resSync_kept
    | with_reducible apply State.resTrims_kept
    | with_reducible apply keptX_ok
    | split

theorem execRsvPortLoss_kept {a0} (hregs : m.regs) (hout : m.out) (hhost : m.host) (hsvc : m.svc) (hbuf : m.buf) (h :
    Kept m z s) : KeptX m z (execRsvPortLoss a0 s) := by
  unfold execRsvPortLoss
  repeat' first
    | with_reducible assumption
    | intro _
    | subst x
    | (extract_lets +onlyGivenNames x; have hx : Kept m z x := ?_; clear_value x)
    | (extract_lets +onlyGivenNames x; have hx : Kept2 m z x := ?_; clear_value x)
    | (extract_lets +onlyGivenNames x; have hx : KeptO m z x := ?_; clear_value x)
    | (extract_lets +onlyGivenNames x; clear_value x)
    | (extract_lets +onlyGivenNames w; revert w; intro w0)
    | with_reducible apply kept_ite
    | with_reducible apply State.count_kept
    | with_reducible apply State.event_kept
    | with_reducible apply State.resLinkOff_kept
    | with_reducible apply State.resSync_kept
    | with_reducible apply State.setLc_kept
    | with_reducible apply State.setResPort_kept
    | with_reducible apply State.wr_kept
    | with_reducible apply keptX_ok
    | with_reducible apply kept2_mk
    | with_reducible apply keptO_some
    | with_reducible apply keptO_none
    | with_reducible exact keptO2_get (by with_reducible assumption)
    | (with_reducible refine kept2_eq (by with_reducible assumption) ?_)
    | (with_reducible apply kept2_proj; first | with_reducible assumption | with_reducible apply kept2_foldl)
    | (with_reducible refine keptO_eq (by with_reducible assumption) ?_)
    | with_reducible apply kept_foldl
    | split
    | dsimp -zeta only
    | (with_reducible refine kept_mk rfl ?_ rfl rfl rfl rfl ?_ ?_ ?_ ?_ ?_ ?_ ?_ ?_ ?_ ?_ ?_ ?_ ?_ ?_ ?_ ?_ ?_ ?_ ?_ <;> first | with_reducible exact Or.inr rfl | exact Or.inl (by assumption) | with_reducible assumption | with_reducible exact keptO2_get (by with_reducible assumption) | (with_reducible refine kept2_eq (by with_reducible assumption) ?_) | (with_reducible refine keptO_eq (by with_reducible assumption) ?_) | with_reducible apply State.count_kept | with_reducible apply State.event_kept | with_reducible apply State.resLinkOff_kept | with_reducible apply State.resSync_kept | with_reducible apply State.setLc_kept | with_reducible apply State.setResPort_kept | with_reducible apply State.wr_kept)

theorem State.moveTiles_kept {a1 a2} (hregs : m.regs) (hout : m.out) (hhost : m.host) (hcnt : m.cnt) (hbuf : m.buf)
    (hmem : m.mem) (h : Kept m z s) : Kept m z (State.moveTiles s a1 a2) := by
  unfold State.moveTiles
  repeat' first
    | with_reducible assumption
    | intro _
    | subst x
    | (extract_lets +onlyGivenNames x; have hx : Kept m z x := ?_; clear_value x)
    | (extract_lets +onlyGivenNames x; have hx : Kept2 m z x := ?_; clear_value x)
    | (extract_lets +onlyGivenNames x; clear_value x)
    | (extract_lets +onlyGivenNames w; revert w; intro w0)
    | with_reducible apply kept_ite
    | with_reducible apply State.each_kept
    | with_reducible apply State.readStripe_kept
    | with_reducible apply State.setQueue_kept
    | (with_reducible apply kept2_proj; first | with_reducible assumption | with_reducible apply kept2_foldl | with_reducible apply State.readStripe_kept)
    | split
    | dsimp -zeta only

theorem State.recordPage_kept {a1 a2 a3 a4} (hregs : m.regs) (hout : m.out) (hhost : m.host) (hcnt : m.cnt) (hmem :
    m.mem) (h : Kept m z s) : Kept m z (State.recordPage s a1 a2 a3 a4) := by
  unfold State.recordPage
  repeat' first
    | with_reducible assumption
    | intro _
    | subst x
    | (extract_lets +onlyGivenNames x; have hx : Kept m z x := ?_; clear_value x)
    | (extract_lets +onlyGivenNames x; have hx : Kept2 m z x := ?_; clear_value x)
    | (extract_lets +onlyGivenNames x; clear_value x)
    | (extract_lets +onlyGivenNames w; revert w; intro w0)
    | with_reducible apply State.putPageRecord_kept
    | with_reducible apply kept2_mk
    | (with_reducible refine kept2_eq (by with_reducible assumption) ?_)
    | (with_reducible apply kept2_proj; first | with_reducible assumption | with_reducible apply kept2_foldl)
    | split
    | dsimp -zeta only

theorem execReservoirPageCopy_kept {a0} (hregs : m.regs) (hout : m.out) (hhost : m.host) (hcnt : m.cnt) (hbuf : m.buf)
    (hmem : m.mem) (h : Kept m z s) : KeptX m z (execReservoirPageCopy a0 s) := by
  unfold execReservoirPageCopy
  repeat' first
    | with_reducible assumption
    | intro _
    | subst x
    | (extract_lets +onlyGivenNames x; have hx : Kept m z x := ?_; clear_value x)
    | (extract_lets +onlyGivenNames x; have hx : Kept2 m z x := ?_; clear_value x)
    | (extract_lets +onlyGivenNames x; have hx : KeptO2 m z x := ?_; clear_value x)
    | (extract_lets +onlyGivenNames x; clear_value x)
    | (extract_lets +onlyGivenNames w; revert w; intro w0)
    | with_reducible apply kept_ite
    | with_reducible apply State.freePages_kept
    | with_reducible apply State.moveTiles_kept
    | with_reducible apply State.recordPage_kept
    | with_reducible apply State.setQueue_kept
    | with_reducible apply State.takeResPage_kept
    | with_reducible apply keptX_ok
    | with_reducible apply keptO2_some
    | with_reducible apply keptO2_none
    | with_reducible exact keptO2_get (by with_reducible assumption)
    | (with_reducible refine kept2_eq (by with_reducible assumption) ?_)
    | (with_reducible apply kept2_proj; first | with_reducible assumption | with_reducible apply kept2_foldl)
    | (with_reducible refine keptO2_eq (by with_reducible assumption) ?_)
    | (with_reducible refine keptO2_eqp (by with_reducible assumption) ?_)
    | split
    | dsimp -zeta only

theorem State.setHold_kept {a1 a2} (hregs : m.regs) (hout : m.out) (hhost : m.host) (h : Kept m z s) : Kept m z
    (State.setHold s a1 a2) := by
  unfold State.setHold
  repeat' first
    | with_reducible assumption
    | intro _
    | with_reducible apply State.setLc_kept

theorem State.fillHold_kept {a1 a2 a3 a4 a5 a6 a7 a8} (hregs : m.regs) (h : Kept m z s) : Kept m z (State.fillHold s a1
    a2 a3 a4 a5 a6 a7 a8) := by
  unfold State.fillHold
  repeat' first
    | with_reducible assumption
    | intro _
    | subst x
    | (extract_lets +onlyGivenNames x; have hx : Kept m z x := ?_; clear_value x)
    | (extract_lets +onlyGivenNames x; clear_value x)
    | (extract_lets +onlyGivenNames w; revert w; intro w0)
    | with_reducible apply State.wr_kept
    | with_reducible apply State.wrBit_kept
    | dsimp -zeta only

theorem State.withdrawHold_kept {a1 a2 a3} (hregs : m.regs) (hout : m.out) (hsched : m.sched) (hhost : m.host) (hfab :
    m.fab) (h : Kept m z s) : Kept m z (State.withdrawHold s a1 a2 a3) := by
  unfold State.withdrawHold
  repeat' first
    | with_reducible assumption
    | intro _
    | with_reducible apply State.completeOpt_kept
    | with_reducible apply State.schedFree_kept
    | with_reducible apply State.setHold_kept

theorem State.withdrawRelease_kept {a1 a2 a3} (hregs : m.regs) (hsched : m.sched) (hhost : m.host) (hbuf : m.buf) (hfab
    : m.fab) (h : Kept m z s) : Kept m z (State.withdrawRelease s a1 a2 a3) := by
  unfold State.withdrawRelease
  repeat' first
    | with_reducible assumption
    | intro _
    | subst x
    | (extract_lets +onlyGivenNames x; have hx : Kept m z x := ?_; clear_value x)
    | (extract_lets +onlyGivenNames x; have hx : Kept2 m z x := ?_; clear_value x)
    | (extract_lets +onlyGivenNames x; have hx : KeptO m z x := ?_; clear_value x)
    | (extract_lets +onlyGivenNames x; clear_value x)
    | (extract_lets +onlyGivenNames w; revert w; intro w0)
    | with_reducible apply kept_ite
    | with_reducible apply State.completeOpt_kept
    | with_reducible apply State.schedFree_kept
    | with_reducible apply kept2_mk
    | with_reducible apply keptO_some
    | with_reducible apply keptO_none
    | with_reducible exact keptO2_get (by with_reducible assumption)
    | (with_reducible refine kept2_eq (by with_reducible assumption) ?_)
    | (with_reducible apply kept2_proj; first | with_reducible assumption | with_reducible apply kept2_foldl)
    | (with_reducible refine keptO_eq (by with_reducible assumption) ?_)
    | with_reducible apply kept_foldl
    | split
    | dsimp -zeta only
    | (with_reducible refine kept_mk rfl ?_ rfl rfl rfl rfl ?_ ?_ ?_ ?_ ?_ ?_ ?_ ?_ ?_ ?_ ?_ ?_ ?_ ?_ ?_ ?_ ?_ ?_ ?_ <;> first | with_reducible exact Or.inr rfl | exact Or.inl (by assumption) | with_reducible assumption | with_reducible exact keptO2_get (by with_reducible assumption) | (with_reducible refine kept2_eq (by with_reducible assumption) ?_) | (with_reducible refine keptO_eq (by with_reducible assumption) ?_) | with_reducible apply State.completeOpt_kept | with_reducible apply State.schedFree_kept)

theorem execHoldDest_kept {a0 a1 a2 a3 a4 a5 a6 a7} (hregs : m.regs) (hout : m.out) (hsched : m.sched) (hhost : m.host)
    (hfab : m.fab) (h : Kept m z s) : KeptX m z (execHoldDest a0 a1 a2 a3 a4 a5 a6 a7 s) := by
  unfold execHoldDest
  repeat' first
    | with_reducible assumption
    | intro _
    | subst x
    | (extract_lets +onlyGivenNames x; have hx : Kept m z x := ?_; clear_value x)
    | (extract_lets +onlyGivenNames x; have hx : KeptO m z x := ?_; clear_value x)
    | (extract_lets +onlyGivenNames x; clear_value x)
    | (extract_lets +onlyGivenNames w; revert w; intro w0)
    | with_reducible apply kept_ite
    | with_reducible apply State.accepted_kept
    | with_reducible apply State.command_kept
    | with_reducible apply State.complete_kept
    | with_reducible apply State.fillHold_kept
    | with_reducible apply State.schedTake_kept
    | with_reducible apply State.setHold_kept
    | with_reducible apply State.wr_kept
    | with_reducible apply keptX_ok
    | split
    | dsimp -zeta only

theorem execHoldDestCancel_kept {a0 a1} (hregs : m.regs) (hout : m.out) (hsched : m.sched) (hhost : m.host) (hfab :
    m.fab) (h : Kept m z s) : KeptX m z (execHoldDestCancel a0 a1 s) := by
  unfold execHoldDestCancel
  repeat' first
    | with_reducible assumption
    | intro _
    | with_reducible apply kept_ite
    | with_reducible apply State.command_kept
    | with_reducible apply State.complete_kept
    | with_reducible apply State.withdrawHold_kept
    | with_reducible apply keptX_ok
    | split

theorem execReleaseDest_kept {a0 a1 a2 a3} (hregs : m.regs) (hout : m.out) (hsched : m.sched) (hhost : m.host) (hbuf :
    m.buf) (hfab : m.fab) (h : Kept m z s) : KeptX m z (execReleaseDest a0 a1 a2 a3 s) := by
  unfold execReleaseDest
  repeat' first
    | with_reducible assumption
    | intro _
    | subst x
    | (extract_lets +onlyGivenNames x; have hx : Kept m z x := ?_; clear_value x)
    | (extract_lets +onlyGivenNames x; have hx : Kept2 m z x := ?_; clear_value x)
    | (extract_lets +onlyGivenNames x; have hx : KeptO m z x := ?_; clear_value x)
    | (extract_lets +onlyGivenNames x; clear_value x)
    | (extract_lets +onlyGivenNames w; revert w; intro w0)
    | with_reducible apply kept_ite
    | with_reducible apply State.accepted_kept
    | with_reducible apply State.command_kept
    | with_reducible apply State.complete_kept
    | with_reducible apply State.schedTake_kept
    | with_reducible apply State.setHold_kept
    | with_reducible apply State.withdrawHold_kept
    | with_reducible apply State.wr_kept
    | with_reducible apply keptX_ok
    | with_reducible apply kept2_mk
    | with_reducible apply keptO_some
    | with_reducible apply keptO_none
    | with_reducible exact keptO2_get (by with_reducible assumption)
    | (with_reducible refine kept2_eq (by with_reducible assumption) ?_)
    | (with_reducible apply kept2_proj; first | with_reducible assumption | with_reducible apply kept2_foldl)
    | (with_reducible refine keptO_eq (by with_reducible assumption) ?_)
    | with_reducible apply kept_foldl
    | split
    | dsimp -zeta only
    | (with_reducible refine kept_mk rfl ?_ rfl rfl rfl rfl ?_ ?_ ?_ ?_ ?_ ?_ ?_ ?_ ?_ ?_ ?_ ?_ ?_ ?_ ?_ ?_ ?_ ?_ ?_ <;> first | with_reducible exact Or.inr rfl | exact Or.inl (by assumption) | with_reducible assumption | with_reducible exact keptO2_get (by with_reducible assumption) | (with_reducible refine kept2_eq (by with_reducible assumption) ?_) | (with_reducible refine keptO_eq (by with_reducible assumption) ?_) | with_reducible apply State.accepted_kept | with_reducible apply State.command_kept | with_reducible apply State.complete_kept | with_reducible apply State.schedTake_kept | with_reducible apply State.setHold_kept | with_reducible apply State.withdrawHold_kept | with_reducible apply State.wr_kept)

theorem execReleaseDestCancel_kept {a0 a1} (hregs : m.regs) (hsched : m.sched) (hhost : m.host) (hbuf : m.buf) (hfab :
    m.fab) (h : Kept m z s) : KeptX m z (execReleaseDestCancel a0 a1 s) := by
  unfold execReleaseDestCancel
  repeat' first
    | with_reducible assumption
    | intro _
    | with_reducible apply kept_ite
    | with_reducible apply State.command_kept
    | with_reducible apply State.complete_kept
    | with_reducible apply State.withdrawRelease_kept
    | with_reducible apply keptX_ok
    | split

theorem State.returnBalance_kept {a1} (hbuf : m.buf) (hfab : m.fab) (h : Kept m z s) : Kept m z (State.returnBalance s
    a1) := by
  unfold State.returnBalance
  repeat' first
    | with_reducible assumption
    | intro _
    | subst x
    | (extract_lets +onlyGivenNames x; have hx : Kept m z x := ?_; clear_value x)
    | (extract_lets +onlyGivenNames x; have hx : Kept2 m z x := ?_; clear_value x)
    | (extract_lets +onlyGivenNames x; have hx : KeptO m z x := ?_; clear_value x)
    | (extract_lets +onlyGivenNames x; clear_value x)
    | (extract_lets +onlyGivenNames w; revert w; intro w0)
    | with_reducible apply kept_ite
    | with_reducible apply State.setQueue_kept
    | with_reducible apply kept2_mk
    | with_reducible apply keptO_some
    | with_reducible apply keptO_none
    | with_reducible exact keptO2_get (by with_reducible assumption)
    | (with_reducible refine kept2_eq (by with_reducible assumption) ?_)
    | (with_reducible apply kept2_proj; first | with_reducible assumption | with_reducible apply kept2_foldl)
    | (with_reducible refine keptO_eq (by with_reducible assumption) ?_)
    | with_reducible apply kept_foldl
    | split
    | dsimp -zeta only
    | (with_reducible refine kept_mk rfl ?_ rfl rfl rfl rfl ?_ ?_ ?_ ?_ ?_ ?_ ?_ ?_ ?_ ?_ ?_ ?_ ?_ ?_ ?_ ?_ ?_ ?_ ?_ <;> first | with_reducible exact Or.inr rfl | exact Or.inl (by assumption) | with_reducible assumption | with_reducible exact keptO2_get (by with_reducible assumption) | (with_reducible refine kept2_eq (by with_reducible assumption) ?_) | (with_reducible refine keptO_eq (by with_reducible assumption) ?_) | with_reducible apply State.setQueue_kept)

theorem State.startHold_kept {a1} (hregs : m.regs) (hout : m.out) (hhost : m.host) (hbuf : m.buf) (hfab : m.fab) (h :
    Kept m z s) : Kept m z (State.startHold s a1) := by
  unfold State.startHold
  repeat' first
    | with_reducible assumption
    | intro _
    | subst x
    | (extract_lets +onlyGivenNames x; have hx : Kept m z x := ?_; clear_value x)
    | (extract_lets +onlyGivenNames x; clear_value x)
    | (extract_lets +onlyGivenNames w; revert w; intro w0)
    | with_reducible apply kept_ite
    | with_reducible apply State.each_kept
    | with_reducible apply State.returnBalance_kept
    | with_reducible apply State.setHold_kept
    | with_reducible apply State.setQueue_kept
    | split
    | dsimp -zeta only

theorem State.startRelease_kept {a1 a2} (hregs : m.regs) (hout : m.out) (hhost : m.host) (hbuf : m.buf) (h : Kept m z
    s) : Kept m z (State.startRelease s a1 a2) := by
  unfold State.startRelease
  repeat' first
    | with_reducible assumption
    | intro _
    | subst x
    | (extract_lets +onlyGivenNames x; have hx : Kept m z x := ?_; clear_value x)
    | (extract_lets +onlyGivenNames x; have hx : Kept2 m z x := ?_; clear_value x)
    | (extract_lets +onlyGivenNames x; have hx : KeptO m z x := ?_; clear_value x)
    | (extract_lets +onlyGivenNames x; clear_value x)
    | (extract_lets +onlyGivenNames w; revert w; intro w0)
    | with_reducible apply kept_ite
    | with_reducible apply State.each_kept
    | with_reducible apply State.holdDrained_kept
    | with_reducible apply State.onlyIf_kept
    | with_reducible apply State.setHold_kept
    | with_reducible apply State.setQueue_kept
    | with_reducible apply State.wr_kept
    | with_reducible apply kept2_mk
    | with_reducible apply keptO_some
    | with_reducible apply keptO_none
    | with_reducible exact keptO2_get (by with_reducible assumption)
    | (with_reducible refine kept2_eq (by with_reducible assumption) ?_)
    | (with_reducible apply kept2_proj; first | with_reducible assumption | with_reducible apply kept2_foldl)
    | (with_reducible refine keptO_eq (by with_reducible assumption) ?_)
    | with_reducible apply kept_foldl
    | split
    | dsimp -zeta only
    | (with_reducible refine kept_mk rfl ?_ rfl rfl rfl rfl ?_ ?_ ?_ ?_ ?_ ?_ ?_ ?_ ?_ ?_ ?_ ?_ ?_ ?_ ?_ ?_ ?_ ?_ ?_ <;> first | with_reducible exact Or.inr rfl | exact Or.inl (by assumption) | with_reducible assumption | with_reducible exact keptO2_get (by with_reducible assumption) | (with_reducible refine kept2_eq (by with_reducible assumption) ?_) | (with_reducible refine keptO_eq (by with_reducible assumption) ?_) | with_reducible apply State.each_kept | with_reducible apply State.holdDrained_kept | with_reducible apply State.onlyIf_kept | with_reducible apply State.setHold_kept | with_reducible apply State.setQueue_kept | with_reducible apply State.wr_kept)

theorem State.fireHoldStart_kept {a1 a2} (hregs : m.regs) (hout : m.out) (hsched : m.sched) (hhost : m.host) (hbuf :
    m.buf) (hfab : m.fab) (h : Kept m z s) : Kept m z (State.fireHoldStart s a1 a2) := by
  unfold State.fireHoldStart
  repeat' first
    | with_reducible assumption
    | intro _
    | with_reducible apply State.completeOpt_kept
    | with_reducible apply State.schedFree_kept
    | with_reducible apply State.startHold_kept

theorem State.fireHoldStop_kept {a1 a2} (hregs : m.regs) (hout : m.out) (hsched : m.sched) (hhost : m.host) (hbuf :
    m.buf) (hfab : m.fab) (h : Kept m z s) : Kept m z (State.fireHoldStop s a1 a2) := by
  unfold State.fireHoldStop
  repeat' first
    | with_reducible assumption
    | intro _
    | with_reducible apply State.completeOpt_kept
    | with_reducible apply State.schedFree_kept
    | with_reducible apply State.startRelease_kept

theorem State.autoHold_kept {a1} (hregs : m.regs) (hout : m.out) (hhost : m.host) (hbuf : m.buf) (hfab : m.fab) (h :
    Kept m z s) : Kept m z (State.autoHold s a1) := by
  unfold State.autoHold
  repeat' first
    | with_reducible assumption
    | intro _
    | subst x
    | (extract_lets +onlyGivenNames x; have hx : Kept m z x := ?_; clear_value x)
    | (extract_lets +onlyGivenNames x; clear_value x)
    | (extract_lets +onlyGivenNames w; revert w; intro w0)
    | with_reducible apply kept_ite
    | with_reducible apply State.bump_kept
    | with_reducible apply State.event_kept
    | with_reducible apply State.fillHold_kept
    | with_reducible apply State.startHold_kept
    | split
    | dsimp -zeta only

theorem State.holdBoundary_kept (hregs : m.regs) (hout : m.out) (hhost : m.host) (hbuf : m.buf) (hfab : m.fab) (h :
    Kept m z s) : Kept m z (State.holdBoundary s) := by
  unfold State.holdBoundary
  repeat' first
    | with_reducible assumption
    | intro _
    | subst x
    | (extract_lets +onlyGivenNames x; have hx : Kept m z x := ?_; clear_value x)
    | (extract_lets +onlyGivenNames x; have hx : Kept2 m z x := ?_; clear_value x)
    | (extract_lets +onlyGivenNames x; have hx : KeptO m z x := ?_; clear_value x)
    | (extract_lets +onlyGivenNames x; clear_value x)
    | (extract_lets +onlyGivenNames w; revert w; intro w0)
    | with_reducible apply kept_ite
    | with_reducible apply State.autoHold_kept
    | with_reducible apply State.each_kept
    | with_reducible apply State.onlyIf_kept
    | with_reducible apply State.startHold_kept
    | with_reducible apply State.startRelease_kept
    | with_reducible apply kept2_mk
    | with_reducible apply keptO_some
    | with_reducible apply keptO_none
    | with_reducible exact keptO2_get (by with_reducible assumption)
    | (with_reducible refine kept2_eq (by with_reducible assumption) ?_)
    | (with_reducible apply kept2_proj; first | with_reducible assumption | with_reducible apply kept2_foldl)
    | (with_reducible refine keptO_eq (by with_reducible assumption) ?_)
    | with_reducible apply kept_foldl
    | split
    | dsimp -zeta only
    | (with_reducible refine kept_mk rfl ?_ rfl rfl rfl rfl ?_ ?_ ?_ ?_ ?_ ?_ ?_ ?_ ?_ ?_ ?_ ?_ ?_ ?_ ?_ ?_ ?_ ?_ ?_ <;> first | with_reducible exact Or.inr rfl | exact Or.inl (by assumption) | with_reducible assumption | with_reducible exact keptO2_get (by with_reducible assumption) | (with_reducible refine kept2_eq (by with_reducible assumption) ?_) | (with_reducible refine keptO_eq (by with_reducible assumption) ?_) | with_reducible apply State.autoHold_kept | with_reducible apply State.each_kept | with_reducible apply State.onlyIf_kept | with_reducible apply State.startHold_kept | with_reducible apply State.startRelease_kept)

end Sys2Proof.Machine
end

