-- ==== Sys2Proof/Laws/KeptFabric.lean ====
section
/-!
SUPPORT. Laws/KeptFabric.lean: what the operations of Machine/Fabric.lean keep (Laws/Kept.lean).
-/

namespace Sys2Proof.Machine

set_option linter.all false

variable {m : Mask} {z s : State}

theorem State.setLink_kept {a1 a2} (hfab : m.fab) (h : Kept m z s) : Kept m z (State.setLink s a1 a2) := by
  unfold State.setLink
  repeat' first
    | with_reducible assumption
    | intro _
    | subst x
    | (extract_lets +onlyGivenNames x; have hx : Kept m z x := ?_; clear_value x)
    | (extract_lets +onlyGivenNames x; have hx : Kept2 m z x := ?_; clear_value x)
    | (extract_lets +onlyGivenNames x; have hx : KeptO m z x := ?_; clear_value x)
    | (extract_lets +onlyGivenNames x; clear_value x)
    | (extract_lets +onlyGivenNames w; revert w; intro w0)
    | with_reducible apply kept_ite
    | with_reducible apply kept2_mk
    | with_reducible apply keptO_some
    | with_reducible apply keptO_none
    | with_reducible exact keptO2_get (by with_reducible assumption)
    | (with_reducible refine kept2_eq (by with_reducible assumption) ?_)
    | (with_reducible apply kept2_proj; first | with_reducible assumption | with_reducible apply kept2_foldl)
    | (with_reducible refine keptO_eq (by with_reducible assumption) ?_)
    | with_reducible apply kept_foldl
    | split
    | dsimp -zeta only
    | (with_reducible refine kept_mk rfl ?_ rfl rfl rfl rfl ?_ ?_ ?_ ?_ ?_ ?_ ?_ ?_ ?_ ?_ ?_ ?_ ?_ ?_ ?_ ?_ ?_ ?_ ?_ <;> first | with_reducible exact Or.inr rfl | exact Or.inl (by assumption) | with_reducible assumption | with_reducible exact keptO2_get (by with_reducible assumption) | (with_reducible refine kept2_eq (by with_reducible assumption) ?_) | (with_reducible refine keptO_eq (by with_reducible assumption) ?_))

theorem State.newSets_kept (hregs : m.regs) (hfab : m.fab) (h : Kept m z s) : Kept m z (State.newSets s) := by
  unfold State.newSets
  repeat' first
    | with_reducible assumption
    | intro _
    | subst x
    | (extract_lets +onlyGivenNames x; have hx : Kept m z x := ?_; clear_value x)
    | (extract_lets +onlyGivenNames x; have hx : Kept2 m z x := ?_; clear_value x)
    | (extract_lets +onlyGivenNames x; have hx : KeptO m z x := ?_; clear_value x)
    | (extract_lets +onlyGivenNames x; clear_value x)
    | (extract_lets +onlyGivenNames w; revert w; intro w0)
    | with_reducible apply kept_ite
    | with_reducible apply State.each_kept
    | with_reducible apply State.wrBit_kept
    | with_reducible apply kept2_mk
    | with_reducible apply keptO_some
    | with_reducible apply keptO_none
    | with_reducible exact keptO2_get (by with_reducible assumption)
    | (with_reducible refine kept2_eq (by with_reducible assumption) ?_)
    | (with_reducible apply kept2_proj; first | with_reducible assumption | with_reducible apply kept2_foldl)
    | (with_reducible refine keptO_eq (by with_reducible assumption) ?_)
    | with_reducible apply kept_foldl
    | split
    | dsimp -zeta only
    | (with_reducible refine kept_mk rfl ?_ rfl rfl rfl rfl ?_ ?_ ?_ ?_ ?_ ?_ ?_ ?_ ?_ ?_ ?_ ?_ ?_ ?_ ?_ ?_ ?_ ?_ ?_ <;> first | with_reducible exact Or.inr rfl | exact Or.inl (by assumption) | with_reducible assumption | with_reducible exact keptO2_get (by with_reducible assumption) | (with_reducible refine kept2_eq (by with_reducible assumption) ?_) | (with_reducible refine keptO_eq (by with_reducible assumption) ?_) | with_reducible apply State.each_kept | with_reducible apply State.wrBit_kept)

theorem State.losePeer_kept {a1} (hregs : m.regs) (hout : m.out) (hhost : m.host) (hsvc : m.svc) (hbuf : m.buf) (hfab :
    m.fab) (h : Kept m z s) : Kept m z (State.losePeer s a1) := by
  unfold State.losePeer
  repeat' first
    | with_reducible assumption
    | intro _
    | subst x
    | (extract_lets +onlyGivenNames x; have hx : Kept m z x := ?_; clear_value x)
    | (extract_lets +onlyGivenNames x; have hx : Kept2 m z x := ?_; clear_value x)
    | (extract_lets +onlyGivenNames x; have hx : KeptO m z x := ?_; clear_value x)
    | (extract_lets +onlyGivenNames x; clear_value x)
    | (extract_lets +onlyGivenNames w; revert w; intro w0)
    | with_reducible apply kept_ite
    | with_reducible apply State.complete_kept
    | with_reducible apply State.each_kept
    | with_reducible apply State.event_kept
    | with_reducible apply kept2_mk
    | with_reducible apply keptO_some
    | with_reducible apply keptO_none
    | with_reducible exact keptO2_get (by with_reducible assumption)
    | (with_reducible refine kept2_eq (by with_reducible assumption) ?_)
    | (with_reducible apply kept2_proj; first | with_reducible assumption | with_reducible apply kept2_foldl)
    | (with_reducible refine keptO_eq (by with_reducible assumption) ?_)
    | with_reducible apply kept_foldl
    | split
    | dsimp -zeta only
    | (with_reducible refine kept_mk rfl ?_ rfl rfl rfl rfl ?_ ?_ ?_ ?_ ?_ ?_ ?_ ?_ ?_ ?_ ?_ ?_ ?_ ?_ ?_ ?_ ?_ ?_ ?_ <;> first | with_reducible exact Or.inr rfl | exact Or.inl (by assumption) | with_reducible assumption | with_reducible exact keptO2_get (by with_reducible assumption) | (with_reducible refine kept2_eq (by with_reducible assumption) ?_) | (with_reducible refine keptO_eq (by with_reducible assumption) ?_) | with_reducible apply State.complete_kept | with_reducible apply State.each_kept | with_reducible apply State.event_kept)

theorem State.findPeer_kept {a1} (hregs : m.regs) (hout : m.out) (hhost : m.host) (hbuf : m.buf) (hfab : m.fab) (h :
    Kept m z s) : Kept m z (State.findPeer s a1) := by
  unfold State.findPeer
  repeat' first
    | with_reducible assumption
    | intro _
    | subst x
    | (extract_lets +onlyGivenNames x; have hx : Kept m z x := ?_; clear_value x)
    | (extract_lets +onlyGivenNames x; have hx : Kept2 m z x := ?_; clear_value x)
    | (extract_lets +onlyGivenNames x; have hx : KeptO m z x := ?_; clear_value x)
    | (extract_lets +onlyGivenNames x; clear_value x)
    | (extract_lets +onlyGivenNames w; revert w; intro w0)
    | with_reducible apply kept_ite
    | with_reducible apply State.event_kept
    | with_reducible apply kept2_mk
    | with_reducible apply keptO_some
    | with_reducible apply keptO_none
    | with_reducible exact keptO2_get (by with_reducible assumption)
    | (with_reducible refine kept2_eq (by with_reducible assumption) ?_)
    | (with_reducible apply kept2_proj; first | with_reducible assumption | with_reducible apply kept2_foldl)
    | (with_reducible refine keptO_eq (by with_reducible assumption) ?_)
    | with_reducible apply kept_foldl
    | split
    | dsimp -zeta only
    | (with_reducible refine kept_mk rfl ?_ rfl rfl rfl rfl ?_ ?_ ?_ ?_ ?_ ?_ ?_ ?_ ?_ ?_ ?_ ?_ ?_ ?_ ?_ ?_ ?_ ?_ ?_ <;> first | with_reducible exact Or.inr rfl | exact Or.inl (by assumption) | with_reducible assumption | with_reducible exact keptO2_get (by with_reducible assumption) | (with_reducible refine kept2_eq (by with_reducible assumption) ?_) | (with_reducible refine keptO_eq (by with_reducible assumption) ?_) | with_reducible apply State.event_kept)

theorem State.reachSync_kept (hregs : m.regs) (hout : m.out) (hhost : m.host) (hsvc : m.svc) (hbuf : m.buf) (hfab :
    m.fab) (h : Kept m z s) : Kept m z (State.reachSync s) := by
  unfold State.reachSync
  repeat' first
    | with_reducible assumption
    | intro _
    | subst x
    | (extract_lets +onlyGivenNames x; have hx : Kept m z x := ?_; clear_value x)
    | (extract_lets +onlyGivenNames x; clear_value x)
    | (extract_lets +onlyGivenNames w; revert w; intro w0)
    | with_reducible apply kept_ite
    | with_reducible apply State.each_kept
    | with_reducible apply State.findPeer_kept
    | with_reducible apply State.losePeer_kept
    | with_reducible apply State.newSets_kept
    | with_reducible apply State.wr_kept
    | with_reducible apply kept_foldl
    | split
    | dsimp -zeta only

theorem State.addShare_kept {a1 a2 a3} (hfab : m.fab) (h : Kept m z s) : Kept m z (State.addShare s a1 a2 a3) := by
  unfold State.addShare
  repeat' first
    | with_reducible assumption
    | intro _
    | subst x
    | (extract_lets +onlyGivenNames x; have hx : Kept m z x := ?_; clear_value x)
    | (extract_lets +onlyGivenNames x; have hx : Kept2 m z x := ?_; clear_value x)
    | (extract_lets +onlyGivenNames x; have hx : KeptO m z x := ?_; clear_value x)
    | (extract_lets +onlyGivenNames x; clear_value x)
    | (extract_lets +onlyGivenNames w; revert w; intro w0)
    | with_reducible apply kept_ite
    | with_reducible apply kept2_mk
    | with_reducible apply keptO_some
    | with_reducible apply keptO_none
    | with_reducible exact keptO2_get (by with_reducible assumption)
    | (with_reducible refine kept2_eq (by with_reducible assumption) ?_)
    | (with_reducible apply kept2_proj; first | with_reducible assumption | with_reducible apply kept2_foldl)
    | (with_reducible refine keptO_eq (by with_reducible assumption) ?_)
    | with_reducible apply kept_foldl
    | split
    | dsimp -zeta only
    | (with_reducible refine kept_mk rfl ?_ rfl rfl rfl rfl ?_ ?_ ?_ ?_ ?_ ?_ ?_ ?_ ?_ ?_ ?_ ?_ ?_ ?_ ?_ ?_ ?_ ?_ ?_ <;> first | with_reducible exact Or.inr rfl | exact Or.inl (by assumption) | with_reducible assumption | with_reducible exact keptO2_get (by with_reducible assumption) | (with_reducible refine kept2_eq (by with_reducible assumption) ?_) | (with_reducible refine keptO_eq (by with_reducible assumption) ?_))

theorem State.queueCell_kept {a1 a2} (hfab : m.fab) (h : Kept m z s) : Kept m z (State.queueCell s a1 a2) := by
  unfold State.queueCell
  repeat' first
    | with_reducible assumption
    | intro _
    | subst x
    | (extract_lets +onlyGivenNames x; have hx : Kept m z x := ?_; clear_value x)
    | (extract_lets +onlyGivenNames x; clear_value x)
    | (extract_lets +onlyGivenNames w; revert w; intro w0)
    | with_reducible apply State.setLink_kept
    | dsimp -zeta only

theorem State.countHop_kept {a1 a2} (hfab : m.fab) (h : Kept m z s) : Kept m z (State.countHop s a1 a2) := by
  unfold State.countHop
  repeat' first
    | with_reducible assumption
    | intro _
    | subst x
    | (extract_lets +onlyGivenNames x; have hx : Kept m z x := ?_; clear_value x)
    | (extract_lets +onlyGivenNames x; have hx : Kept2 m z x := ?_; clear_value x)
    | (extract_lets +onlyGivenNames x; have hx : KeptO m z x := ?_; clear_value x)
    | (extract_lets +onlyGivenNames x; clear_value x)
    | (extract_lets +onlyGivenNames w; revert w; intro w0)
    | with_reducible apply kept_ite
    | with_reducible apply kept2_mk
    | with_reducible apply keptO_some
    | with_reducible apply keptO_none
    | with_reducible exact keptO2_get (by with_reducible assumption)
    | (with_reducible refine kept2_eq (by with_reducible assumption) ?_)
    | (with_reducible apply kept2_proj; first | with_reducible assumption | with_reducible apply kept2_foldl)
    | (with_reducible refine keptO_eq (by with_reducible assumption) ?_)
    | with_reducible apply kept_foldl
    | split
    | dsimp -zeta only
    | (with_reducible refine kept_mk rfl ?_ rfl rfl rfl rfl ?_ ?_ ?_ ?_ ?_ ?_ ?_ ?_ ?_ ?_ ?_ ?_ ?_ ?_ ?_ ?_ ?_ ?_ ?_ <;> first | with_reducible exact Or.inr rfl | exact Or.inl (by assumption) | with_reducible assumption | with_reducible exact keptO2_get (by with_reducible assumption) | (with_reducible refine kept2_eq (by with_reducible assumption) ?_) | (with_reducible refine keptO_eq (by with_reducible assumption) ?_))

theorem State.setOut_kept {a1 a2} (hfab : m.fab) (h : Kept m z s) : Kept m z (State.setOut s a1 a2) := by
  unfold State.setOut
  repeat' first
    | with_reducible assumption
    | intro _
    | subst x
    | (extract_lets +onlyGivenNames x; have hx : Kept m z x := ?_; clear_value x)
    | (extract_lets +onlyGivenNames x; have hx : Kept2 m z x := ?_; clear_value x)
    | (extract_lets +onlyGivenNames x; have hx : KeptO m z x := ?_; clear_value x)
    | (extract_lets +onlyGivenNames x; clear_value x)
    | (extract_lets +onlyGivenNames w; revert w; intro w0)
    | with_reducible apply kept_ite
    | with_reducible apply kept2_mk
    | with_reducible apply keptO_some
    | with_reducible apply keptO_none
    | with_reducible exact keptO2_get (by with_reducible assumption)
    | (with_reducible refine kept2_eq (by with_reducible assumption) ?_)
    | (with_reducible apply kept2_proj; first | with_reducible assumption | with_reducible apply kept2_foldl)
    | (with_reducible refine keptO_eq (by with_reducible assumption) ?_)
    | with_reducible apply kept_foldl
    | split
    | dsimp -zeta only
    | (with_reducible refine kept_mk rfl ?_ rfl rfl rfl rfl ?_ ?_ ?_ ?_ ?_ ?_ ?_ ?_ ?_ ?_ ?_ ?_ ?_ ?_ ?_ ?_ ?_ ?_ ?_ <;> first | with_reducible exact Or.inr rfl | exact Or.inl (by assumption) | with_reducible assumption | with_reducible exact keptO2_get (by with_reducible assumption) | (with_reducible refine kept2_eq (by with_reducible assumption) ?_) | (with_reducible refine keptO_eq (by with_reducible assumption) ?_))

theorem State.sendData_kept {a1 a2 a3} (hfab : m.fab) (h : Kept m z s) : Kept m z (State.sendData s a1 a2 a3) := by
  unfold State.sendData
  repeat' first
    | with_reducible assumption
    | intro _
    | subst x
    | (extract_lets +onlyGivenNames x; have hx : Kept m z x := ?_; clear_value x)
    | (extract_lets +onlyGivenNames x; clear_value x)
    | (extract_lets +onlyGivenNames w; revert w; intro w0)
    | with_reducible apply State.addShare_kept
    | with_reducible apply State.countHop_kept
    | with_reducible apply State.queueCell_kept
    | with_reducible apply State.setOut_kept
    | dsimp -zeta only

theorem State.fillCells_kept {a0 a1} (hfab : m.fab) (h : Kept m z s) : Kept m z (State.fillCells a0 a1 s) := by
  induction a1 generalizing a0 s
  all_goals
    unfold State.fillCells
    repeat' first
      | with_reducible assumption
      | intro _
      | subst x
      | (extract_lets +onlyGivenNames x; have hx : Kept m z x := ?_; clear_value x)
      | (extract_lets +onlyGivenNames x; clear_value x)
      | (extract_lets +onlyGivenNames w; revert w; intro w0)
      | with_reducible apply kept_ite
      | with_reducible apply_assumption
      | with_reducible apply State.sendData_kept
      | split
      | dsimp -zeta only

theorem State.fillStreams_kept (hfab : m.fab) (h : Kept m z s) : Kept m z (State.fillStreams s) := by
  unfold State.fillStreams
  repeat' first
    | with_reducible assumption
    | intro _
    | with_reducible apply State.each_kept
    | with_reducible apply State.fillCells_kept

theorem State.cutGroup_kept {a1 a2} (hfab : m.fab) (h : Kept m z s) : Kept2 m z (State.cutGroup s a1 a2) := by
  unfold State.cutGroup
  repeat' first
    | with_reducible assumption
    | intro _
    | subst x
    | (extract_lets +onlyGivenNames x; have hx : Kept m z x := ?_; clear_value x)
    | (extract_lets +onlyGivenNames x; have hx : Kept2 m z x := ?_; clear_value x)
    | (extract_lets +onlyGivenNames x; clear_value x)
    | (extract_lets +onlyGivenNames w; revert w; intro w0)
    | with_reducible apply State.setLink_kept
    | with_reducible apply State.setOut_kept
    | with_reducible apply kept2_mk
    | with_reducible apply kept2_mk
    | (with_reducible apply kept2_proj; first | with_reducible assumption | with_reducible apply kept2_foldl)
    | dsimp -zeta only

theorem State.sendGroup_kept {a0 a1} (hfab : m.fab) (h : Kept m z s) : Kept m z (State.sendGroup a0 a1 s) := by
  induction a1 generalizing a0 s
  all_goals
    unfold State.sendGroup
    repeat' first
      | with_reducible assumption
      | intro _
      | subst x
      | (extract_lets +onlyGivenNames x; have hx : Kept m z x := ?_; clear_value x)
      | (extract_lets +onlyGivenNames x; have hx : Kept2 m z x := ?_; clear_value x)
      | (extract_lets +onlyGivenNames x; clear_value x)
      | (extract_lets +onlyGivenNames w; revert w; intro w0)
      | with_reducible apply kept_ite
      | with_reducible apply_assumption
      | with_reducible apply State.cutGroup_kept
      | with_reducible apply State.queueCell_kept
      | (with_reducible refine kept2_eq (by with_reducible assumption) ?_)
      | (with_reducible apply kept2_proj; first | with_reducible assumption | with_reducible apply kept2_foldl | with_reducible apply State.cutGroup_kept)
      | split
      | dsimp -zeta only

theorem State.spreadCtl_kept (hregs : m.regs) (hfab : m.fab) (h : Kept m z s) : Kept m z (State.spreadCtl s) := by
  unfold State.spreadCtl
  repeat' first
    | with_reducible assumption
    | intro _
    | subst x
    | (extract_lets +onlyGivenNames x; have hx : Kept m z x := ?_; clear_value x)
    | (extract_lets +onlyGivenNames x; have hx : Kept2 m z x := ?_; clear_value x)
    | (extract_lets +onlyGivenNames x; have hx : KeptO m z x := ?_; clear_value x)
    | (extract_lets +onlyGivenNames x; clear_value x)
    | (extract_lets +onlyGivenNames w; revert w; intro w0)
    | with_reducible apply kept_ite
    | with_reducible apply State.addShare_kept
    | with_reducible apply State.each_kept
    | with_reducible apply State.setLink_kept
    | with_reducible apply State.wr_kept
    | with_reducible apply kept2_mk
    | with_reducible apply keptO_some
    | with_reducible apply keptO_none
    | with_reducible exact keptO2_get (by with_reducible assumption)
    | (with_reducible refine kept2_eq (by with_reducible assumption) ?_)
    | (with_reducible apply kept2_proj; first | with_reducible assumption | with_reducible apply kept2_foldl)
    | (with_reducible refine keptO_eq (by with_reducible assumption) ?_)
    | with_reducible apply kept_foldl
    | split
    | dsimp -zeta only
    | (with_reducible refine kept_mk rfl ?_ rfl rfl rfl rfl ?_ ?_ ?_ ?_ ?_ ?_ ?_ ?_ ?_ ?_ ?_ ?_ ?_ ?_ ?_ ?_ ?_ ?_ ?_ <;> first | with_reducible exact Or.inr rfl | exact Or.inl (by assumption) | with_reducible assumption | with_reducible exact keptO2_get (by with_reducible assumption) | (with_reducible refine kept2_eq (by with_reducible assumption) ?_) | (with_reducible refine keptO_eq (by with_reducible assumption) ?_) | with_reducible apply State.addShare_kept | with_reducible apply State.each_kept | with_reducible apply State.setLink_kept | with_reducible apply State.wr_kept)

theorem State.moveQueue_kept {a1 a2} (hregs : m.regs) (hout : m.out) (hhost : m.host) (hfab : m.fab) (h : Kept m z s) :
    Kept m z (State.moveQueue s a1 a2) := by
  unfold State.moveQueue
  repeat' first
    | with_reducible assumption
    | intro _
    | subst x
    | (extract_lets +onlyGivenNames x; have hx : Kept m z x := ?_; clear_value x)
    | (extract_lets +onlyGivenNames x; have hx : Kept2 m z x := ?_; clear_value x)
    | (extract_lets +onlyGivenNames x; have hx : KeptO m z x := ?_; clear_value x)
    | (extract_lets +onlyGivenNames x; clear_value x)
    | (extract_lets +onlyGivenNames w; revert w; intro w0)
    | with_reducible apply kept_ite
    | with_reducible apply State.addShare_kept
    | with_reducible apply State.count_kept
    | with_reducible apply State.each_kept
    | with_reducible apply State.event_kept
    | with_reducible apply State.onlyIf_kept
    | with_reducible apply State.queueCell_kept
    | with_reducible apply State.setLink_kept
    | with_reducible apply State.spreadCtl_kept
    | with_reducible apply kept2_mk
    | with_reducible apply keptO_some
    | with_reducible apply keptO_none
    | with_reducible exact keptO2_get (by with_reducible assumption)
    | (with_reducible refine kept2_eq (by with_reducible assumption) ?_)
    | (with_reducible apply kept2_proj; first | with_reducible assumption | with_reducible apply kept2_foldl)
    | (with_reducible refine keptO_eq (by with_reducible assumption) ?_)
    | with_reducible apply kept_foldl
    | split
    | dsimp -zeta only
    | (with_reducible refine kept_mk rfl ?_ rfl rfl rfl rfl ?_ ?_ ?_ ?_ ?_ ?_ ?_ ?_ ?_ ?_ ?_ ?_ ?_ ?_ ?_ ?_ ?_ ?_ ?_ <;> first | with_reducible exact Or.inr rfl | exact Or.inl (by assumption) | with_reducible assumption | with_reducible exact keptO2_get (by with_reducible assumption) | (with_reducible refine kept2_eq (by with_reducible assumption) ?_) | (with_reducible refine keptO_eq (by with_reducible assumption) ?_) | with_reducible apply State.addShare_kept | with_reducible apply State.count_kept | with_reducible apply State.each_kept | with_reducible apply State.event_kept | with_reducible apply State.onlyIf_kept | with_reducible apply State.queueCell_kept | with_reducible apply State.setLink_kept | with_reducible apply State.spreadCtl_kept)

theorem State.spareCheck_kept {a1} (hregs : m.regs) (hout : m.out) (hhost : m.host) (h : Kept m z s) : Kept m z
    (State.spareCheck s a1) := by
  unfold State.spareCheck
  repeat' first
    | with_reducible assumption
    | intro _
    | with_reducible apply State.event_kept
    | with_reducible apply State.onlyIf_kept

theorem State.isolate_kept {a1} (hregs : m.regs) (hout : m.out) (hhost : m.host) (hsvc : m.svc) (hbuf : m.buf) (hfab :
    m.fab) (h : Kept m z s) : Kept m z (State.isolate s a1) := by
  unfold State.isolate
  repeat' first
    | with_reducible assumption
    | intro _
    | subst x
    | (extract_lets +onlyGivenNames x; have hx : Kept m z x := ?_; clear_value x)
    | (extract_lets +onlyGivenNames x; clear_value x)
    | (extract_lets +onlyGivenNames w; revert w; intro w0)
    | with_reducible apply State.event_kept
    | with_reducible apply State.moveQueue_kept
    | with_reducible apply State.reachSync_kept
    | with_reducible apply State.setLc_kept
    | with_reducible apply State.spareCheck_kept
    | with_reducible apply State.wr_kept
    | dsimp -zeta only

theorem State.degrade_kept {a1} (hregs : m.regs) (hout : m.out) (hhost : m.host) (hfab : m.fab) (h : Kept m z s) : Kept
    m z (State.degrade s a1) := by
  unfold State.degrade
  repeat' first
    | with_reducible assumption
    | intro _
    | subst x
    | (extract_lets +onlyGivenNames x; have hx : Kept m z x := ?_; clear_value x)
    | (extract_lets +onlyGivenNames x; clear_value x)
    | (extract_lets +onlyGivenNames w; revert w; intro w0)
    | with_reducible apply State.event_kept
    | with_reducible apply State.moveQueue_kept
    | with_reducible apply State.newSets_kept
    | with_reducible apply State.spareCheck_kept
    | with_reducible apply State.wr_kept
    | dsimp -zeta only

theorem State.setErrors_kept {a1 a2 a3} (hregs : m.regs) (hout : m.out) (hhost : m.host) (hsvc : m.svc) (hbuf : m.buf)
    (hfab : m.fab) (h : Kept m z s) : Kept m z (State.setErrors s a1 a2 a3) := by
  unfold State.setErrors
  repeat' first
    | with_reducible assumption
    | intro _
    | subst x
    | (extract_lets +onlyGivenNames x; have hx : Kept m z x := ?_; clear_value x)
    | (extract_lets +onlyGivenNames x; have hx : KeptO m z x := ?_; clear_value x)
    | (extract_lets +onlyGivenNames x; clear_value x)
    | (extract_lets +onlyGivenNames w; revert w; intro w0)
    | with_reducible apply kept_ite
    | with_reducible apply State.degrade_kept
    | with_reducible apply State.isolate_kept
    | with_reducible apply State.setLink_kept
    | with_reducible apply State.wr_kept
    | split
    | dsimp -zeta only

theorem State.goodCell_kept {a1} (hregs : m.regs) (hout : m.out) (hhost : m.host) (hsvc : m.svc) (hbuf : m.buf) (hfab :
    m.fab) (h : Kept m z s) : Kept m z (State.goodCell s a1) := by
  unfold State.goodCell
  repeat' first
    | with_reducible assumption
    | intro _
    | subst x
    | (extract_lets +onlyGivenNames x; have hx : Kept m z x := ?_; clear_value x)
    | (extract_lets +onlyGivenNames x; clear_value x)
    | (extract_lets +onlyGivenNames w; revert w; intro w0)
    | with_reducible apply kept_ite
    | with_reducible apply State.setErrors_kept
    | with_reducible apply State.setLink_kept
    | split
    | dsimp -zeta only

theorem State.badCell_kept {a1} (hregs : m.regs) (hout : m.out) (hhost : m.host) (hsvc : m.svc) (hbuf : m.buf) (hfab :
    m.fab) (h : Kept m z s) : Kept m z (State.badCell s a1) := by
  unfold State.badCell
  repeat' first
    | with_reducible assumption
    | intro _
    | subst x
    | (extract_lets +onlyGivenNames x; have hx : Kept m z x := ?_; clear_value x)
    | (extract_lets +onlyGivenNames x; clear_value x)
    | (extract_lets +onlyGivenNames w; revert w; intro w0)
    | with_reducible apply State.bump_kept
    | with_reducible apply State.setErrors_kept
    | with_reducible apply State.setLink_kept
    | dsimp -zeta only

theorem State.startLink_kept {a1} (hregs : m.regs) (hsvc : m.svc) (hfab : m.fab) (h : Kept m z s) : Kept m z
    (State.startLink s a1) := by
  unfold State.startLink
  repeat' first
    | with_reducible assumption
    | intro _
    | subst x
    | (extract_lets +onlyGivenNames x; have hx : Kept m z x := ?_; clear_value x)
    | (extract_lets +onlyGivenNames x; clear_value x)
    | (extract_lets +onlyGivenNames w; revert w; intro w0)
    | with_reducible apply kept_ite
    | with_reducible apply State.setLink_kept
    | with_reducible apply State.takeTrims_kept
    | with_reducible apply State.wrWord_kept
    | split
    | dsimp -zeta only

theorem State.peerSync_kept (hregs : m.regs) (h : Kept m z s) : Kept m z (State.peerSync s) := by
  unfold State.peerSync
  repeat' first
    | with_reducible assumption
    | intro _
    | subst x
    | (extract_lets +onlyGivenNames x; have hx : Kept m z x := ?_; clear_value x)
    | (extract_lets +onlyGivenNames x; clear_value x)
    | (extract_lets +onlyGivenNames w; revert w; intro w0)
    | with_reducible apply State.wr_kept
    | with_reducible apply kept_foldl
    | split
    | dsimp -zeta only

end Sys2Proof.Machine
end

