-- ==== Sys2Proof/Laws/KeptFabricTx.lean ====
section
/-!
SUPPORT. Laws/KeptFabricTx.lean: what the operations of Machine/FabricTx.lean keep (Laws/Kept.lean).
-/

namespace Sys2Proof.Machine

set_option linter.all false

variable {m : Mask} {z s : State}

theorem State.landCopy_kept {a1} (hregs : m.regs) (hbuf : m.buf) (hmem : m.mem) (hfab : m.fab) (h : Kept m z s) : Kept2
    m z (State.landCopy s a1) := by
  unfold State.landCopy
  repeat' first
    | with_reducible assumption
    | intro _
    | subst x
    | (extract_lets +onlyGivenNames x; have hx : Kept m z x := ?_; clear_value x)
    | (extract_lets +onlyGivenNames x; have hx : Kept2 m z x := ?_; clear_value x)
    | (extract_lets +onlyGivenNames x; have hx : KeptO m z x := ?_; clear_value x)
    | (extract_lets +onlyGivenNames x; have hx : KeptO2 m z x := ?_; clear_value x)
    | (extract_lets +onlyGivenNames x; clear_value x)
    | (extract_lets +onlyGivenNames w; revert w; intro w0)
    | with_reducible apply State.setStored_kept
    | with_reducible apply State.takeCells_kept
    | with_reducible apply State.toEgress_kept
    | with_reducible apply kept2_mk
    | with_reducible apply kept2_mk
    | with_reducible apply keptO2_some
    | with_reducible apply keptO2_none
    | with_reducible exact keptO2_get (by with_reducible assumption)
    | (with_reducible refine kept2_eq (by with_reducible assumption) ?_)
    | (with_reducible apply kept2_proj; first | with_reducible assumption | with_reducible apply kept2_foldl)
    | (with_reducible refine keptO2_eq (by with_reducible assumption) ?_)
    | (with_reducible refine keptO2_eqp (by with_reducible assumption) ?_)
    | split
    | dsimp -zeta only
    | (with_reducible refine kept_mk rfl ?_ rfl rfl rfl rfl ?_ ?_ ?_ ?_ ?_ ?_ ?_ ?_ ?_ ?_ ?_ ?_ ?_ ?_ ?_ ?_ ?_ ?_ ?_ <;> first | with_reducible exact Or.inr rfl | exact Or.inl (by assumption) | with_reducible assumption | with_reducible exact keptO2_get (by with_reducible assumption) | (with_reducible refine kept2_eq (by with_reducible assumption) ?_) | (with_reducible refine keptO_eq (by with_reducible assumption) ?_) | (with_reducible refine keptO2_eq (by with_reducible assumption) ?_) | (with_reducible refine keptO2_eqp (by with_reducible assumption) ?_) | with_reducible apply State.setStored_kept | with_reducible apply State.takeCells_kept | with_reducible apply State.toEgress_kept)

theorem State.twin_kept {a1} (hbuf : m.buf) (h : Kept m z s) : KeptO2 m z (State.twin s a1) := by
  unfold State.twin
  repeat' first
    | with_reducible assumption
    | intro _
    | with_reducible apply kept_ite
    | with_reducible apply State.takeName_kept
    | with_reducible apply kept2_mk
    | with_reducible apply keptO2_some
    | with_reducible apply keptO2_none
    | with_reducible exact keptO2_get (by with_reducible assumption)
    | (with_reducible refine kept2_eq (by with_reducible assumption) ?_)
    | (with_reducible apply kept2_proj; first | with_reducible assumption | with_reducible apply kept2_foldl)
    | (with_reducible refine keptO2_eq (by with_reducible assumption) ?_)
    | (with_reducible refine keptO2_eqp (by with_reducible assumption) ?_)
    | with_reducible apply keptO2_map2
    | with_reducible apply keptO2_map3
    | with_reducible apply keptO2_map
    | split
    | dsimp -zeta only

theorem State.nameCopies_kept {a0 a1} (hbuf : m.buf) (h : Kept m z s) : Kept2 m z (State.nameCopies a0 a1 s) := by
  induction a1 generalizing a0 s
  all_goals
    unfold State.nameCopies
    repeat' first
      | with_reducible assumption
      | intro _
      | subst x
      | (extract_lets +onlyGivenNames x; have hx : Kept m z x := ?_; clear_value x)
      | (extract_lets +onlyGivenNames x; have hx : Kept2 m z x := ?_; clear_value x)
      | (extract_lets +onlyGivenNames x; have hx : KeptO m z x := ?_; clear_value x)
      | (extract_lets +onlyGivenNames x; have hx : KeptO2 m z x := ?_; clear_value x)
      | (extract_lets +onlyGivenNames x; clear_value x)
      | (extract_lets +onlyGivenNames w; revert w; intro w0)
      | with_reducible apply_assumption
      | with_reducible apply State.twin_kept
      | with_reducible apply kept2_mk
      | with_reducible apply kept2_mk
      | with_reducible apply keptO2_some
      | with_reducible apply keptO2_none
      | with_reducible exact keptO2_get (by with_reducible assumption)
      | (with_reducible refine kept2_eq (by with_reducible assumption) ?_)
      | (with_reducible apply kept2_proj; first | with_reducible assumption | with_reducible apply kept2_foldl)
      | (with_reducible refine keptO2_eq (by with_reducible assumption) ?_)
      | (with_reducible refine keptO2_eqp (by with_reducible assumption) ?_)
      | split
      | dsimp -zeta only

theorem State.toSelf_kept {a1 a2} (hregs : m.regs) (hout : m.out) (hhost : m.host) (hcnt : m.cnt) (hbuf : m.buf) (hlif
    : m.lif) (hmem : m.mem) (hfab : m.fab) (h : Kept m z s) : Kept m z (State.toSelf s a1 a2) := by
  unfold State.toSelf
  repeat' first
    | with_reducible assumption
    | intro _
    | subst x
    | (extract_lets +onlyGivenNames x; have hx : Kept m z x := ?_; clear_value x)
    | (extract_lets +onlyGivenNames x; have hx : Kept2 m z x := ?_; clear_value x)
    | (extract_lets +onlyGivenNames x; have hx : KeptO m z x := ?_; clear_value x)
    | (extract_lets +onlyGivenNames x; clear_value x)
    | (extract_lets +onlyGivenNames w; revert w; intro w0)
    | with_reducible apply kept_ite
    | with_reducible apply State.dropQueue_kept
    | with_reducible apply State.each_kept
    | with_reducible apply State.enqueueEgress_kept
    | with_reducible apply State.landCopy_kept
    | with_reducible apply State.nameCopies_kept
    | with_reducible apply State.release_kept
    | with_reducible apply kept2_mk
    | (with_reducible refine kept2_eq (by with_reducible assumption) ?_)
    | (with_reducible apply kept2_proj; first | with_reducible assumption | with_reducible apply kept2_foldl | with_reducible apply State.landCopy_kept | with_reducible apply State.nameCopies_kept)
    | split
    | dsimp -zeta only

theorem State.append_kept {a1 a2 a3} (hfab : m.fab) (h : Kept m z s) : Kept m z (State.append s a1 a2 a3) := by
  unfold State.append
  repeat' first
    | with_reducible assumption
    | intro _
    | subst x
    | (extract_lets +onlyGivenNames x; have hx : Kept m z x := ?_; clear_value x)
    | (extract_lets +onlyGivenNames x; have hx : KeptO m z x := ?_; clear_value x)
    | (extract_lets +onlyGivenNames x; clear_value x)
    | (extract_lets +onlyGivenNames w; revert w; intro w0)
    | with_reducible apply State.setOut_kept
    | dsimp -zeta only

theorem State.toDevice_kept {a1 a2} (hfab : m.fab) (h : Kept m z s) : Kept m z (State.toDevice s a1 a2) := by
  unfold State.toDevice
  repeat' first
    | with_reducible assumption
    | intro _
    | subst x
    | (extract_lets +onlyGivenNames x; have hx : Kept m z x := ?_; clear_value x)
    | (extract_lets +onlyGivenNames x; clear_value x)
    | (extract_lets +onlyGivenNames w; revert w; intro w0)
    | with_reducible apply State.append_kept
    | with_reducible apply State.fillCells_kept
    | dsimp -zeta only

theorem State.toGroup_kept {a1 a2} (hregs : m.regs) (hfab : m.fab) (h : Kept m z s) : Kept m z (State.toGroup s a1 a2)
    := by
  unfold State.toGroup
  repeat' first
    | with_reducible assumption
    | intro _
    | subst x
    | (extract_lets +onlyGivenNames x; have hx : Kept m z x := ?_; clear_value x)
    | (extract_lets +onlyGivenNames x; clear_value x)
    | (extract_lets +onlyGivenNames w; revert w; intro w0)
    | with_reducible apply kept_ite
    | with_reducible apply State.append_kept
    | with_reducible apply State.bump_kept
    | with_reducible apply State.each_kept
    | with_reducible apply State.sendGroup_kept
    | with_reducible apply State.toDevice_kept
    | split
    | dsimp -zeta only

theorem State.cameIn_kept {a1 a2 a3 a4} (hfab : m.fab) (h : Kept m z s) : Kept m z (State.cameIn s a1 a2 a3 a4) := by
  unfold State.cameIn
  repeat' first
    | with_reducible assumption
    | intro _
    | subst x
    | (extract_lets +onlyGivenNames x; have hx : Kept m z x := ?_; clear_value x)
    | (extract_lets +onlyGivenNames x; have hx : Kept2 m z x := ?_; clear_value x)
    | (extract_lets +onlyGivenNames x; have hx : KeptO m z x := ?_; clear_value x)
    | (extract_lets +onlyGivenNames x; clear_value x)
    | (extract_lets +onlyGivenNames w; revert w; intro w0)
    | with_reducible apply kept_ite
    | with_reducible apply kept2_mk
    | with_reducible apply keptO_some
    | with_reducible apply keptO_none
    | with_reducible exact keptO2_get (by with_reducible assumption)
    | (with_reducible refine kept2_eq (by with_reducible assumption) ?_)
    | (with_reducible apply kept2_proj; first | with_reducible assumption | with_reducible apply kept2_foldl)
    | (with_reducible refine keptO_eq (by with_reducible assumption) ?_)
    | with_reducible apply kept_foldl
    | split
    | dsimp -zeta only
    | (with_reducible refine kept_mk rfl ?_ rfl rfl rfl rfl ?_ ?_ ?_ ?_ ?_ ?_ ?_ ?_ ?_ ?_ ?_ ?_ ?_ ?_ ?_ ?_ ?_ ?_ ?_ <;> first | with_reducible exact Or.inr rfl | exact Or.inl (by assumption) | with_reducible assumption | with_reducible exact keptO2_get (by with_reducible assumption) | (with_reducible refine kept2_eq (by with_reducible assumption) ?_) | (with_reducible refine keptO_eq (by with_reducible assumption) ?_))

theorem State.sendCopy_kept {a1 a2 a3} (hregs : m.regs) (hout : m.out) (hhost : m.host) (hcnt : m.cnt) (hbuf : m.buf)
    (hlif : m.lif) (hmem : m.mem) (hfab : m.fab) (h : Kept m z s) : Kept m z (State.sendCopy s a1 a2 a3) := by
  unfold State.sendCopy
  repeat' first
    | with_reducible assumption
    | intro _
    | subst x
    | (extract_lets +onlyGivenNames x; have hx : Kept m z x := ?_; clear_value x)
    | (extract_lets +onlyGivenNames x; have hx : Kept2 m z x := ?_; clear_value x)
    | (extract_lets +onlyGivenNames x; have hx : KeptO m z x := ?_; clear_value x)
    | (extract_lets +onlyGivenNames x; clear_value x)
    | (extract_lets +onlyGivenNames w; revert w; intro w0)
    | with_reducible apply kept_ite
    | with_reducible apply State.cameIn_kept
    | with_reducible apply State.countQueue_kept
    | with_reducible apply State.onlyIf_kept
    | with_reducible apply State.readBody_kept
    | with_reducible apply State.readBodyIf_kept
    | with_reducible apply State.releaseWith_kept
    | with_reducible apply State.setQueue_kept
    | with_reducible apply State.toDevice_kept
    | with_reducible apply State.toGroup_kept
    | with_reducible apply State.toSelf_kept
    | with_reducible apply State.uncharge_kept
    | with_reducible apply kept2_mk
    | with_reducible apply keptO_some
    | with_reducible apply keptO_none
    | with_reducible exact keptO2_get (by with_reducible assumption)
    | (with_reducible refine kept2_eq (by with_reducible assumption) ?_)
    | (with_reducible apply kept2_proj; first | with_reducible assumption | with_reducible apply kept2_foldl | with_reducible apply State.readBody_kept | with_reducible apply State.readBodyIf_kept)
    | (with_reducible refine keptO_eq (by with_reducible assumption) ?_)
    | with_reducible apply kept_foldl
    | split
    | dsimp -zeta only

theorem State.payRelease_kept {a1 a2} (hbuf : m.buf) (h : Kept m z s) : Kept m z (State.payRelease s a1 a2) := by
  unfold State.payRelease
  repeat' first
    | with_reducible assumption
    | intro _
    | subst x
    | (extract_lets +onlyGivenNames x; have hx : Kept m z x := ?_; clear_value x)
    | (extract_lets +onlyGivenNames x; have hx : Kept2 m z x := ?_; clear_value x)
    | (extract_lets +onlyGivenNames x; have hx : KeptO m z x := ?_; clear_value x)
    | (extract_lets +onlyGivenNames x; clear_value x)
    | (extract_lets +onlyGivenNames w; revert w; intro w0)
    | with_reducible apply kept_ite
    | with_reducible apply kept2_mk
    | with_reducible apply keptO_some
    | with_reducible apply keptO_none
    | with_reducible exact keptO2_get (by with_reducible assumption)
    | (with_reducible refine kept2_eq (by with_reducible assumption) ?_)
    | (with_reducible apply kept2_proj; first | with_reducible assumption | with_reducible apply kept2_foldl)
    | (with_reducible refine keptO_eq (by with_reducible assumption) ?_)
    | with_reducible apply kept_foldl
    | split
    | dsimp -zeta only
    | (with_reducible refine kept_mk rfl ?_ rfl rfl rfl rfl ?_ ?_ ?_ ?_ ?_ ?_ ?_ ?_ ?_ ?_ ?_ ?_ ?_ ?_ ?_ ?_ ?_ ?_ ?_ <;> first | with_reducible exact Or.inr rfl | exact Or.inl (by assumption) | with_reducible assumption | with_reducible exact keptO2_get (by with_reducible assumption) | (with_reducible refine kept2_eq (by with_reducible assumption) ?_) | (with_reducible refine keptO_eq (by with_reducible assumption) ?_))

theorem State.visit_kept {a0 a1 a2 a3} (hregs : m.regs) (hout : m.out) (hhost : m.host) (hcnt : m.cnt) (hbuf : m.buf)
    (hlif : m.lif) (hmem : m.mem) (hfab : m.fab) (h : Kept m z s) : Kept m z (State.visit a0 a1 a2 a3 s) := by
  induction a1 generalizing a0 a2 a3 s
  all_goals
    unfold State.visit
    repeat' first
      | with_reducible assumption
      | intro _
      | subst x
      | (extract_lets +onlyGivenNames x; have hx : Kept m z x := ?_; clear_value x)
      | (extract_lets +onlyGivenNames x; have hx : Kept2 m z x := ?_; clear_value x)
      | (extract_lets +onlyGivenNames x; have hx : KeptO2 m z x := ?_; clear_value x)
      | (extract_lets +onlyGivenNames x; clear_value x)
      | (extract_lets +onlyGivenNames w; revert w; intro w0)
      | with_reducible apply kept_ite
      | with_reducible apply_assumption
      | with_reducible apply State.badPtr_kept
      | with_reducible apply State.dropHead_kept
      | with_reducible apply State.payRelease_kept
      | with_reducible apply State.popHead_kept
      | with_reducible apply State.sendCopy_kept
      | with_reducible apply keptO2_some
      | with_reducible apply keptO2_none
      | with_reducible exact keptO2_get (by with_reducible assumption)
      | (with_reducible refine kept2_eq (by with_reducible assumption) ?_)
      | (with_reducible apply kept2_proj; first | with_reducible assumption | with_reducible apply kept2_foldl)
      | (with_reducible refine keptO2_eq (by with_reducible assumption) ?_)
      | (with_reducible refine keptO2_eqp (by with_reducible assumption) ?_)
      | split
      | dsimp -zeta only

theorem State.dropAll_kept {a0 a1} (hregs : m.regs) (hout : m.out) (hhost : m.host) (hcnt : m.cnt) (hbuf : m.buf) (hlif
    : m.lif) (hmem : m.mem) (h : Kept m z s) : Kept m z (State.dropAll a0 a1 s) := by
  induction a1 generalizing a0 s
  all_goals
    unfold State.dropAll
    repeat' first
      | with_reducible assumption
      | intro _
      | subst x
      | (extract_lets +onlyGivenNames x; have hx : Kept m z x := ?_; clear_value x)
      | (extract_lets +onlyGivenNames x; have hx : Kept2 m z x := ?_; clear_value x)
      | (extract_lets +onlyGivenNames x; have hx : KeptO2 m z x := ?_; clear_value x)
      | (extract_lets +onlyGivenNames x; clear_value x)
      | (extract_lets +onlyGivenNames w; revert w; intro w0)
      | with_reducible apply_assumption
      | with_reducible apply State.dropHead_kept
      | with_reducible apply State.popHead_kept
      | with_reducible apply kept2_mk
      | with_reducible apply keptO2_some
      | with_reducible apply keptO2_none
      | with_reducible exact keptO2_get (by with_reducible assumption)
      | (with_reducible refine kept2_eq (by with_reducible assumption) ?_)
      | (with_reducible apply kept2_proj; first | with_reducible assumption | with_reducible apply kept2_foldl)
      | (with_reducible refine keptO2_eq (by with_reducible assumption) ?_)
      | (with_reducible refine keptO2_eqp (by with_reducible assumption) ?_)
      | split
      | dsimp -zeta only

theorem execVoqVisit_kept {a0} (hregs : m.regs) (hout : m.out) (hhost : m.host) (hcnt : m.cnt) (hbuf : m.buf) (hlif
    : m.lif) (hmem : m.mem) (hfab : m.fab) (h : Kept m z s) : KeptX m z (execVoqVisit a0 s) := by
  unfold execVoqVisit
  repeat' first
    | with_reducible assumption
    | intro _
    | subst x
    | (extract_lets +onlyGivenNames x; have hx : Kept m z x := ?_; clear_value x)
    | (extract_lets +onlyGivenNames x; have hx : Kept2 m z x := ?_; clear_value x)
    | (extract_lets +onlyGivenNames x; have hx : KeptO m z x := ?_; clear_value x)
    | (extract_lets +onlyGivenNames x; clear_value x)
    | (extract_lets +onlyGivenNames w; revert w; intro w0)
    | with_reducible apply kept_ite
    | with_reducible apply State.bufSync_kept
    | with_reducible apply State.bump_kept
    | with_reducible apply State.dropAll_kept
    | with_reducible apply State.pmuAs_kept
    | with_reducible apply State.strikeQueue_kept
    | with_reducible apply State.upsetQueue_kept
    | with_reducible apply State.visit_kept
    | with_reducible apply keptX_ok
    | with_reducible apply kept2_mk
    | with_reducible apply keptO_some
    | with_reducible apply keptO_none
    | with_reducible exact keptO2_get (by with_reducible assumption)
    | (with_reducible refine kept2_eq (by with_reducible assumption) ?_)
    | (with_reducible apply kept2_proj; first | with_reducible assumption | with_reducible apply kept2_foldl)
    | (with_reducible refine keptO_eq (by with_reducible assumption) ?_)
    | with_reducible apply kept_foldl
    | split
    | dsimp -zeta only
    | (with_reducible refine kept_mk rfl ?_ rfl rfl rfl rfl ?_ ?_ ?_ ?_ ?_ ?_ ?_ ?_ ?_ ?_ ?_ ?_ ?_ ?_ ?_ ?_ ?_ ?_ ?_ <;> first | with_reducible exact Or.inr rfl | exact Or.inl (by assumption) | with_reducible assumption | with_reducible exact keptO2_get (by with_reducible assumption) | (with_reducible refine kept2_eq (by with_reducible assumption) ?_) | (with_reducible refine keptO_eq (by with_reducible assumption) ?_) | with_reducible apply State.bufSync_kept | with_reducible apply State.bump_kept | with_reducible apply State.dropAll_kept | with_reducible apply State.pmuAs_kept | with_reducible apply State.strikeQueue_kept | with_reducible apply State.visit_kept)

theorem State.takeCredits_kept {a1} (hfab : m.fab) (h : Kept m z s) : Kept2 m z (State.takeCredits s a1) := by
  unfold State.takeCredits
  repeat' first
    | with_reducible assumption
    | intro _
    | subst x
    | (extract_lets +onlyGivenNames x; have hx : Kept m z x := ?_; clear_value x)
    | (extract_lets +onlyGivenNames x; have hx : Kept2 m z x := ?_; clear_value x)
    | (extract_lets +onlyGivenNames x; clear_value x)
    | (extract_lets +onlyGivenNames w; revert w; intro w0)
    | with_reducible apply State.setLink_kept
    | with_reducible apply kept2_mk
    | with_reducible apply kept2_mk
    | (with_reducible apply kept2_proj; first | with_reducible assumption | with_reducible apply kept2_foldl)
    | dsimp -zeta only

theorem State.emitCells_kept {a1 a2} (hout : m.out) (h : Kept m z s) : Kept m z (State.emitCells s a1 a2) := by
  unfold State.emitCells
  repeat' first
    | with_reducible assumption
    | intro _
    | with_reducible apply State.each_kept
    | with_reducible apply State.emit_kept

theorem State.sendMarker_kept {a1} (hout : m.out) (hfab : m.fab) (h : Kept m z s) : Kept m z (State.sendMarker s a1) :=
    by
  unfold State.sendMarker
  repeat' first
    | with_reducible assumption
    | intro _
    | subst x
    | (extract_lets +onlyGivenNames x; have hx : Kept m z x := ?_; clear_value x)
    | (extract_lets +onlyGivenNames x; clear_value x)
    | (extract_lets +onlyGivenNames w; revert w; intro w0)
    | with_reducible apply kept_ite
    | with_reducible apply State.emit_kept
    | with_reducible apply State.setLink_kept
    | split
    | dsimp -zeta only

theorem State.putCell_kept {a1 a2} (hregs : m.regs) (hout : m.out) (hhost : m.host) (hsvc : m.svc) (hcnt : m.cnt) (hbuf
    : m.buf) (hfab : m.fab) (h : Kept m z s) : Kept m z (State.putCell s a1 a2) := by
  unfold State.putCell
  repeat' first
    | with_reducible assumption
    | intro _
    | subst x
    | (extract_lets +onlyGivenNames x; have hx : Kept m z x := ?_; clear_value x)
    | (extract_lets +onlyGivenNames x; have hx : Kept2 m z x := ?_; clear_value x)
    | (extract_lets +onlyGivenNames x; clear_value x)
    | (extract_lets +onlyGivenNames w; revert w; intro w0)
    | with_reducible apply kept_ite
    | with_reducible apply State.diceDraw_kept
    | with_reducible apply State.diceHold_kept
    | with_reducible apply State.diceRelease_kept
    | with_reducible apply State.emit_kept
    | with_reducible apply State.emitCells_kept
    | with_reducible apply State.onlyIf_kept
    | with_reducible apply State.pmuAs_kept
    | with_reducible apply State.setErrors_kept
    | with_reducible apply State.setLink_kept
    | with_reducible apply State.takeCredits_kept
    | (with_reducible refine kept2_eq (by with_reducible assumption) ?_)
    | (with_reducible apply kept2_proj; first | with_reducible assumption | with_reducible apply kept2_foldl | with_reducible apply State.diceDraw_kept | with_reducible apply State.diceRelease_kept | with_reducible apply State.takeCredits_kept)
    | split
    | dsimp -zeta only

theorem State.controlCell_kept {a1} (hfab : m.fab) (h : Kept m z s) : KeptO2 m z (State.controlCell s a1) := by
  unfold State.controlCell
  repeat' first
    | with_reducible assumption
    | intro _
    | subst x
    | (extract_lets +onlyGivenNames x; have hx : Kept m z x := ?_; clear_value x)
    | (extract_lets +onlyGivenNames x; have hx : Kept2 m z x := ?_; clear_value x)
    | (extract_lets +onlyGivenNames x; have hx : KeptO m z x := ?_; clear_value x)
    | (extract_lets +onlyGivenNames x; have hx : KeptO2 m z x := ?_; clear_value x)
    | (extract_lets +onlyGivenNames x; clear_value x)
    | (extract_lets +onlyGivenNames w; revert w; intro w0)
    | with_reducible apply kept_ite
    | with_reducible apply State.setLink_kept
    | with_reducible apply kept2_mk
    | with_reducible apply keptO2_some
    | with_reducible apply keptO2_none
    | with_reducible exact keptO2_get (by with_reducible assumption)
    | (with_reducible refine kept2_eq (by with_reducible assumption) ?_)
    | (with_reducible apply kept2_proj; first | with_reducible assumption | with_reducible apply kept2_foldl)
    | (with_reducible refine keptO2_eq (by with_reducible assumption) ?_)
    | (with_reducible refine keptO2_eqp (by with_reducible assumption) ?_)
    | with_reducible apply kept_foldl
    | with_reducible apply keptO2_map2
    | with_reducible apply keptO2_map3
    | with_reducible apply keptO2_map
    | split
    | dsimp -zeta only
    | (with_reducible refine kept_mk rfl ?_ rfl rfl rfl rfl ?_ ?_ ?_ ?_ ?_ ?_ ?_ ?_ ?_ ?_ ?_ ?_ ?_ ?_ ?_ ?_ ?_ ?_ ?_ <;> first | with_reducible exact Or.inr rfl | exact Or.inl (by assumption) | with_reducible assumption | with_reducible exact keptO2_get (by with_reducible assumption) | (with_reducible refine kept2_eq (by with_reducible assumption) ?_) | (with_reducible refine keptO_eq (by with_reducible assumption) ?_) | (with_reducible refine keptO2_eq (by with_reducible assumption) ?_) | (with_reducible refine keptO2_eqp (by with_reducible assumption) ?_) | with_reducible apply State.setLink_kept)

theorem State.dataCell_kept {a1} (hfab : m.fab) (h : Kept m z s) : KeptO2 m z (State.dataCell s a1) := by
  unfold State.dataCell
  repeat' first
    | with_reducible assumption
    | intro _
    | subst x
    | (extract_lets +onlyGivenNames x; have hx : Kept m z x := ?_; clear_value x)
    | (extract_lets +onlyGivenNames x; have hx : Kept2 m z x := ?_; clear_value x)
    | (extract_lets +onlyGivenNames x; have hx : KeptO m z x := ?_; clear_value x)
    | (extract_lets +onlyGivenNames x; have hx : KeptO2 m z x := ?_; clear_value x)
    | (extract_lets +onlyGivenNames x; clear_value x)
    | (extract_lets +onlyGivenNames w; revert w; intro w0)
    | with_reducible apply kept_ite
    | with_reducible apply State.addShare_kept
    | with_reducible apply State.countHop_kept
    | with_reducible apply State.cutGroup_kept
    | with_reducible apply State.fillStreams_kept
    | with_reducible apply State.setLink_kept
    | with_reducible apply State.setOut_kept
    | with_reducible apply kept2_mk
    | with_reducible apply keptO2_some
    | with_reducible apply keptO2_none
    | with_reducible exact keptO2_get (by with_reducible assumption)
    | (with_reducible refine kept2_eq (by with_reducible assumption) ?_)
    | (with_reducible apply kept2_proj; first | with_reducible assumption | with_reducible apply kept2_foldl | with_reducible apply State.cutGroup_kept)
    | (with_reducible refine keptO2_eq (by with_reducible assumption) ?_)
    | (with_reducible refine keptO2_eqp (by with_reducible assumption) ?_)
    | with_reducible apply keptO2_map2
    | with_reducible apply keptO2_map3
    | with_reducible apply keptO2_map
    | split
    | dsimp -zeta only
    | (with_reducible refine kept_mk rfl ?_ rfl rfl rfl rfl ?_ ?_ ?_ ?_ ?_ ?_ ?_ ?_ ?_ ?_ ?_ ?_ ?_ ?_ ?_ ?_ ?_ ?_ ?_ <;> first | with_reducible exact Or.inr rfl | exact Or.inl (by assumption) | with_reducible assumption | with_reducible exact keptO2_get (by with_reducible assumption) | (with_reducible refine kept2_eq (by with_reducible assumption) ?_) | (with_reducible refine keptO_eq (by with_reducible assumption) ?_) | (with_reducible refine keptO2_eq (by with_reducible assumption) ?_) | (with_reducible refine keptO2_eqp (by with_reducible assumption) ?_) | with_reducible apply State.addShare_kept | with_reducible apply State.countHop_kept | with_reducible apply State.cutGroup_kept | with_reducible apply State.fillStreams_kept | with_reducible apply State.setLink_kept | with_reducible apply State.setOut_kept)

theorem execCellTransmit_kept {a0} (hregs : m.regs) (hout : m.out) (hhost : m.host) (hsvc : m.svc) (hcnt : m.cnt) (hbuf
    : m.buf) (hfab : m.fab) (h : Kept m z s) : KeptX m z (execCellTransmit a0 s) := by
  unfold execCellTransmit
  repeat' first
    | with_reducible assumption
    | intro _
    | subst x
    | (extract_lets +onlyGivenNames x; have hx : Kept m z x := ?_; clear_value x)
    | (extract_lets +onlyGivenNames x; have hx : Kept2 m z x := ?_; clear_value x)
    | (extract_lets +onlyGivenNames x; have hx : KeptO2 m z x := ?_; clear_value x)
    | (extract_lets +onlyGivenNames x; have hx : ∀ t a, Kept m z t → Kept m z (x t a) := ?_; clear_value x)
    | (extract_lets +onlyGivenNames x; clear_value x)
    | (extract_lets +onlyGivenNames w; revert w; intro w0)
    | with_reducible apply kept_ite
    | with_reducible apply State.controlCell_kept
    | with_reducible apply State.dataCell_kept
    | with_reducible apply State.putCell_kept
    | with_reducible apply State.sendMarker_kept
    | with_reducible apply State.setLink_kept
    | with_reducible apply State.spreadCtl_kept
    | with_reducible apply keptX_ok
    | with_reducible apply keptO2_some
    | with_reducible apply keptO2_none
    | with_reducible exact keptO2_get (by with_reducible assumption)
    | (with_reducible refine kept2_eq (by with_reducible assumption) ?_)
    | (with_reducible apply kept2_proj; first | with_reducible assumption | with_reducible apply kept2_foldl)
    | (with_reducible refine keptO2_eq (by with_reducible assumption) ?_)
    | (with_reducible refine keptO2_eqp (by with_reducible assumption) ?_)
    | apply_assumption
    | split
    | dsimp -zeta only

end Sys2Proof.Machine
end

