-- ==== Sys2Proof/Laws/KeptFabricRx.lean ====
section
/-!
SUPPORT. Laws/KeptFabricRx.lean: what the operations of Machine/FabricRx.lean keep (Laws/Kept.lean).
-/

namespace Sys2Proof.Machine

set_option linter.all false

variable {m : Mask} {z s : State}

theorem State.setIn_kept {a1 a2} (hfab : m.fab) (h : Kept m z s) : Kept m z (State.setIn s a1 a2) := by
  unfold State.setIn
  repeat' first
    | with_reducible assumption
    | intro _
    | subst x
    | (extract_lets +onlyGivenNames x; have hx : Kept m z x := ?_; clear_value x)
    | (extract_lets +onlyGivenNames x; have hx : Kept2 m z x := ?_; clear_value x)
    | (extract_lets +onlyGivenNames x; have hx : KeptO m z x := ?_; clear_value x)
    | (extract_lets +onlyGivenNames x; clear_value x)
    | (extract_lets +onlyGivenNames w; revert w; intro w0)
    | with_reducible apply kept_ite
    | with_reducible apply kept2_mk
    | with_reducible apply keptO_some
    | with_reducible apply keptO_none
    | with_reducible exact keptO2_get (by with_reducible assumption)
    | (with_reducible refine kept2_eq (by with_reducible assumption) ?_)
    | (with_reducible apply kept2_proj; first | with_reducible assumption | with_reducible apply kept2_foldl)
    | (with_reducible refine keptO_eq (by with_reducible assumption) ?_)
    | with_reducible apply kept_foldl
    | split
    | dsimp -zeta only
    | (with_reducible refine kept_mk rfl ?_ rfl rfl rfl rfl ?_ ?_ ?_ ?_ ?_ ?_ ?_ ?_ ?_ ?_ ?_ ?_ ?_ ?_ ?_ ?_ ?_ ?_ ?_ <;> first | with_reducible exact Or.inr rfl | exact Or.inl (by assumption) | with_reducible assumption | with_reducible exact keptO2_get (by with_reducible assumption) | (with_reducible refine kept2_eq (by with_reducible assumption) ?_) | (with_reducible refine keptO_eq (by with_reducible assumption) ?_))

theorem State.freeTaken_kept {a0 a1} (hregs : m.regs) (hout : m.out) (hhost : m.host) (hbuf : m.buf) (h : Kept m z s) :
    Kept2 m z (State.freeTaken a0 a1 s) := by
  induction a1 generalizing a0 s
  all_goals
    unfold State.freeTaken
    repeat' first
      | with_reducible assumption
      | intro _
      | with_reducible apply kept_ite
      | with_reducible apply_assumption
      | with_reducible apply State.freeCell_kept
      | with_reducible apply kept2_mk
      | with_reducible apply kept2_mk
      | (with_reducible refine kept2_eq (by with_reducible assumption) ?_)
      | (with_reducible apply kept2_proj; first | with_reducible assumption | with_reducible apply kept2_foldl)
      | split
      | dsimp -zeta only

theorem State.took_kept {a1 a2} (hregs : m.regs) (hout : m.out) (hhost : m.host) (hbuf : m.buf) (hfab : m.fab) (h :
    Kept m z s) : Kept m z (State.took s a1 a2) := by
  unfold State.took
  repeat' first
    | with_reducible assumption
    | intro _
    | subst x
    | (extract_lets +onlyGivenNames x; have hx : Kept m z x := ?_; clear_value x)
    | (extract_lets +onlyGivenNames x; have hx : Kept2 m z x := ?_; clear_value x)
    | (extract_lets +onlyGivenNames x; clear_value x)
    | (extract_lets +onlyGivenNames w; revert w; intro w0)
    | with_reducible apply State.freeTaken_kept
    | with_reducible apply State.setIn_kept
    | (with_reducible apply kept2_proj; first | with_reducible assumption | with_reducible apply kept2_foldl | with_reducible apply State.freeTaken_kept)
    | dsimp -zeta only

theorem State.takeBytes_kept {a1 a2 a3 a4} (hregs : m.regs) (hout : m.out) (hhost : m.host) (hbuf : m.buf) (hfab :
    m.fab) (h : Kept m z s) : Kept m z (State.takeBytes s a1 a2 a3 a4) := by
  unfold State.takeBytes
  repeat' first
    | with_reducible assumption
    | intro _
    | subst x
    | (extract_lets +onlyGivenNames x; have hx : Kept m z x := ?_; clear_value x)
    | (extract_lets +onlyGivenNames x; have hx : Kept2 m z x := ?_; clear_value x)
    | (extract_lets +onlyGivenNames x; clear_value x)
    | (extract_lets +onlyGivenNames w; revert w; intro w0)
    | with_reducible apply kept_ite
    | with_reducible apply State.bump_kept
    | with_reducible apply State.freeCell_kept
    | with_reducible apply State.onlyIf_kept
    | with_reducible apply State.setIn_kept
    | with_reducible apply kept2_mk
    | (with_reducible refine kept2_eq (by with_reducible assumption) ?_)
    | (with_reducible apply kept2_proj; first | with_reducible assumption | with_reducible apply kept2_foldl)
    | split
    | dsimp -zeta only

theorem State.loseCell_kept {a1 a2 a3} (hregs : m.regs) (hout : m.out) (hhost : m.host) (hcnt : m.cnt) (hbuf : m.buf)
    (hfab : m.fab) (h : Kept m z s) : Kept m z (State.loseCell s a1 a2 a3) := by
  unfold State.loseCell
  repeat' first
    | with_reducible assumption
    | intro _
    | subst x
    | (extract_lets +onlyGivenNames x; have hx : Kept m z x := ?_; clear_value x)
    | (extract_lets +onlyGivenNames x; clear_value x)
    | (extract_lets +onlyGivenNames w; revert w; intro w0)
    | with_reducible apply kept_ite
    | with_reducible apply State.bump_kept
    | with_reducible apply State.dropEgress_kept
    | with_reducible apply State.onlyIf_kept
    | with_reducible apply State.setIn_kept
    | with_reducible apply State.took_kept
    | split
    | dsimp -zeta only

theorem State.receiveMsgs_kept {a1} (hfab : m.fab) (h : Kept m z s) : Kept m z (State.receiveMsgs s a1) := by
  unfold State.receiveMsgs
  repeat' first
    | with_reducible assumption
    | intro _
    | subst x
    | (extract_lets +onlyGivenNames x; have hx : Kept m z x := ?_; clear_value x)
    | (extract_lets +onlyGivenNames x; have hx : Kept2 m z x := ?_; clear_value x)
    | (extract_lets +onlyGivenNames x; have hx : KeptO m z x := ?_; clear_value x)
    | (extract_lets +onlyGivenNames x; clear_value x)
    | (extract_lets +onlyGivenNames w; revert w; intro w0)
    | with_reducible apply kept_ite
    | with_reducible apply kept2_mk
    | with_reducible apply keptO_some
    | with_reducible apply keptO_none
    | with_reducible exact keptO2_get (by with_reducible assumption)
    | (with_reducible refine kept2_eq (by with_reducible assumption) ?_)
    | (with_reducible apply kept2_proj; first | with_reducible assumption | with_reducible apply kept2_foldl)
    | (with_reducible refine keptO_eq (by with_reducible assumption) ?_)
    | with_reducible apply kept_foldl
    | split
    | dsimp -zeta only
    | (with_reducible refine kept_mk rfl ?_ rfl rfl rfl rfl ?_ ?_ ?_ ?_ ?_ ?_ ?_ ?_ ?_ ?_ ?_ ?_ ?_ ?_ ?_ ?_ ?_ ?_ ?_ <;> first | with_reducible exact Or.inr rfl | exact Or.inl (by assumption) | with_reducible assumption | with_reducible exact keptO2_get (by with_reducible assumption) | (with_reducible refine kept2_eq (by with_reducible assumption) ?_) | (with_reducible refine keptO_eq (by with_reducible assumption) ?_))

theorem State.takeControl_kept {a1 a2} (hfab : m.fab) (h : Kept m z s) : Kept m z (State.takeControl s a1 a2) := by
  unfold State.takeControl
  repeat' first
    | with_reducible assumption
    | intro _
    | with_reducible apply kept_ite
    | with_reducible apply State.receiveMsgs_kept
    | split

theorem State.countGap_kept (hregs : m.regs) (hcnt : m.cnt) (h : Kept m z s) : Kept m z (State.countGap s) := by
  unfold State.countGap
  repeat' first
    | with_reducible assumption
    | intro _
    | with_reducible apply State.bump_kept
    | with_reducible apply State.pmuAs_kept

theorem State.drain_kept {a0 a1 a2 a3} (hregs : m.regs) (hout : m.out) (hhost : m.host) (hcnt : m.cnt) (hbuf : m.buf)
    (hfab : m.fab) (h : Kept m z s) : Kept m z (State.drain a0 a1 a2 a3 s) := by
  induction a3 generalizing a0 a1 a2 s
  all_goals
    unfold State.drain
    repeat' first
      | with_reducible assumption
      | intro _
      | subst x
      | (extract_lets +onlyGivenNames x; have hx : Kept m z x := ?_; clear_value x)
      | (extract_lets +onlyGivenNames x; clear_value x)
      | (extract_lets +onlyGivenNames w; revert w; intro w0)
      | with_reducible apply kept_ite
      | with_reducible apply_assumption
      | with_reducible apply State.countGap_kept
      | with_reducible apply State.loseCell_kept
      | with_reducible apply State.onlyIf_kept
      | with_reducible apply State.setIn_kept
      | with_reducible apply State.takeBytes_kept
      | with_reducible apply State.takeControl_kept
      | split
      | dsimp -zeta only

theorem State.accept_kept {a1 a2 a3} (hregs : m.regs) (hout : m.out) (hhost : m.host) (hcnt : m.cnt) (hbuf : m.buf)
    (hmem : m.mem) (hfab : m.fab) (h : Kept m z s) : Kept m z (State.accept s a1 a2 a3) := by
  unfold State.accept
  repeat' first
    | with_reducible assumption
    | intro _
    | subst x
    | (extract_lets +onlyGivenNames x; have hx : Kept m z x := ?_; clear_value x)
    | (extract_lets +onlyGivenNames x; have hx : Kept2 m z x := ?_; clear_value x)
    | (extract_lets +onlyGivenNames x; have hx : KeptO m z x := ?_; clear_value x)
    | (extract_lets +onlyGivenNames x; have hx : KeptO2 m z x := ?_; clear_value x)
    | (extract_lets +onlyGivenNames x; clear_value x)
    | (extract_lets +onlyGivenNames w; revert w; intro w0)
    | with_reducible apply kept_ite
    | with_reducible apply State.bump_kept
    | with_reducible apply State.countGap_kept
    | with_reducible apply State.drain_kept
    | with_reducible apply State.onlyIf_kept
    | with_reducible apply State.setIn_kept
    | with_reducible apply State.takeCell_kept
    | with_reducible apply kept2_mk
    | with_reducible apply keptO2_some
    | with_reducible apply keptO2_none
    | with_reducible exact keptO2_get (by with_reducible assumption)
    | (with_reducible refine kept2_eq (by with_reducible assumption) ?_)
    | (with_reducible apply kept2_proj; first | with_reducible assumption | with_reducible apply kept2_foldl)
    | (with_reducible refine keptO2_eq (by with_reducible assumption) ?_)
    | (with_reducible refine keptO2_eqp (by with_reducible assumption) ?_)
    | split
    | dsimp -zeta only

theorem State.acceptGroup_kept {a1 a2} (hregs : m.regs) (hout : m.out) (hhost : m.host) (hcnt : m.cnt) (hbuf : m.buf)
    (hmem : m.mem) (hfab : m.fab) (h : Kept m z s) : Kept m z (State.acceptGroup s a1 a2) := by
  unfold State.acceptGroup
  extract_lets +onlyGivenNames y
  clear_value y
  extract_lets +onlyGivenNames gap
  clear_value gap
  extract_lets +onlyGivenNames s1
  have h1 : Kept m z s1 := State.setIn_kept hfab h
  clear_value s1
  extract_lets +onlyGivenNames lost
  clear_value lost
  extract_lets +onlyGivenNames y2
  clear_value y2
  extract_lets +onlyGivenNames s2
  have h2 : Kept m z s2 := State.setIn_kept hfab h1
  clear_value s2
  extract_lets +onlyGivenNames s3
  have h3 : Kept m z s3 := State.onlyIf_kept h2 fun t ht =>
    State.each_kept (State.count_kept hregs ht) fun k u hu => by apply State.loseCell_kept <;> assumption
  clear_value s3
  extract_lets +onlyGivenNames k
  clear_value k
  extract_lets +onlyGivenNames r
  have hr : Kept2 m z r := by
    subst r
    split
    · exact kept2_mk h3
    · split
      · exact kept2_mk (keptO2_eq (by assumption) (by apply State.takeCell_kept <;> assumption))
      · exact kept2_mk h3
  clear_value r
  have hr2 : Kept m z r.2 := hr
  apply State.takeBytes_kept <;> assumption

theorem State.relayCell_kept {a1} (hregs : m.regs) (hfab : m.fab) (h : Kept m z s) : Kept m z (State.relayCell s a1) :=
    by
  unfold State.relayCell
  repeat' first
    | with_reducible assumption
    | intro _
    | subst x
    | (extract_lets +onlyGivenNames x; have hx : Kept m z x := ?_; clear_value x)
    | (extract_lets +onlyGivenNames x; have hx : Kept2 m z x := ?_; clear_value x)
    | (extract_lets +onlyGivenNames x; have hx : KeptO m z x := ?_; clear_value x)
    | (extract_lets +onlyGivenNames x; clear_value x)
    | (extract_lets +onlyGivenNames w; revert w; intro w0)
    | with_reducible apply kept_ite
    | with_reducible apply State.bump_kept
    | with_reducible apply kept2_mk
    | with_reducible apply keptO_some
    | with_reducible apply keptO_none
    | with_reducible exact keptO2_get (by with_reducible assumption)
    | (with_reducible refine kept2_eq (by with_reducible assumption) ?_)
    | (with_reducible apply kept2_proj; first | with_reducible assumption | with_reducible apply kept2_foldl)
    | (with_reducible refine keptO_eq (by with_reducible assumption) ?_)
    | with_reducible apply kept_foldl
    | split
    | dsimp -zeta only
    | (with_reducible refine kept_mk rfl ?_ rfl rfl rfl rfl ?_ ?_ ?_ ?_ ?_ ?_ ?_ ?_ ?_ ?_ ?_ ?_ ?_ ?_ ?_ ?_ ?_ ?_ ?_ <;> first | with_reducible exact Or.inr rfl | exact Or.inl (by assumption) | with_reducible assumption | with_reducible exact keptO2_get (by with_reducible assumption) | (with_reducible refine kept2_eq (by with_reducible assumption) ?_) | (with_reducible refine keptO_eq (by with_reducible assumption) ?_) | with_reducible apply State.bump_kept)

theorem State.useCell_kept {a1 a2} (hregs : m.regs) (hout : m.out) (hhost : m.host) (hcnt : m.cnt) (hbuf : m.buf) (hmem
    : m.mem) (hfab : m.fab) (h : Kept m z s) : Kept m z (State.useCell s a1 a2) := by
  unfold State.useCell
  repeat' first
    | with_reducible assumption
    | intro _
    | subst x
    | (extract_lets +onlyGivenNames x; have hx : Kept m z x := ?_; clear_value x)
    | (extract_lets +onlyGivenNames x; clear_value x)
    | (extract_lets +onlyGivenNames w; revert w; intro w0)
    | with_reducible apply kept_ite
    | with_reducible apply State.accept_kept
    | with_reducible apply State.acceptGroup_kept
    | with_reducible apply State.pmuAs_kept
    | with_reducible apply State.receiveMsgs_kept
    | with_reducible apply State.relayCell_kept
    | with_reducible apply State.setLink_kept
    | split
    | dsimp -zeta only

theorem execCellReceive_kept {a0 a1 a2} (hregs : m.regs) (hout : m.out) (hhost : m.host) (hsvc : m.svc) (hcnt : m.cnt)
    (hbuf : m.buf) (hmem : m.mem) (hfab : m.fab) (h : Kept m z s) : KeptX m z (execCellReceive a0 a1 a2 s) := by
  unfold execCellReceive
  repeat' first
    | with_reducible assumption
    | intro _
    | subst x
    | (extract_lets +onlyGivenNames x; have hx : Kept m z x := ?_; clear_value x)
    | (extract_lets +onlyGivenNames x; clear_value x)
    | (extract_lets +onlyGivenNames w; revert w; intro w0)
    | with_reducible apply kept_ite
    | with_reducible apply State.badCell_kept
    | with_reducible apply State.goodCell_kept
    | with_reducible apply State.setLink_kept
    | with_reducible apply State.useCell_kept
    | with_reducible apply keptX_ok
    | split
    | dsimp -zeta only

theorem execReorderGapTimeout_kept {a0 a1} (hregs : m.regs) (hout : m.out) (hhost : m.host) (hcnt : m.cnt) (hbuf :
    m.buf) (hfab : m.fab) (h : Kept m z s) : KeptX m z (execReorderGapTimeout a0 a1 s) := by
  unfold execReorderGapTimeout
  repeat' first
    | with_reducible assumption
    | intro _
    | subst x
    | (extract_lets +onlyGivenNames x; have hx : Kept m z x := ?_; clear_value x)
    | (extract_lets +onlyGivenNames x; have hx : KeptO m z x := ?_; clear_value x)
    | (extract_lets +onlyGivenNames x; clear_value x)
    | (extract_lets +onlyGivenNames w; revert w; intro w0)
    | with_reducible apply kept_ite
    | with_reducible apply State.drain_kept
    | with_reducible apply State.setIn_kept
    | with_reducible apply keptX_ok
    | with_reducible apply kept_foldl
    | split
    | dsimp -zeta only

theorem State.passCopy_kept {a1 a2 a3 a4} (hregs : m.regs) (hout : m.out) (hhost : m.host) (hcnt : m.cnt) (hbuf :
    m.buf) (hlif : m.lif) (hmem : m.mem) (hfab : m.fab) (h : Kept m z s) : Kept m z (State.passCopy s a1 a2 a3 a4) :=
    by
  unfold State.passCopy
  repeat' first
    | with_reducible assumption
    | intro _
    | subst x
    | (extract_lets +onlyGivenNames x; have hx : Kept m z x := ?_; clear_value x)
    | (extract_lets +onlyGivenNames x; have hx : Kept2 m z x := ?_; clear_value x)
    | (extract_lets +onlyGivenNames x; have hx : KeptO m z x := ?_; clear_value x)
    | (extract_lets +onlyGivenNames x; clear_value x)
    | (extract_lets +onlyGivenNames w; revert w; intro w0)
    | with_reducible apply kept_ite
    | with_reducible apply State.bump_kept
    | with_reducible apply State.cameIn_kept
    | with_reducible apply State.event_kept
    | with_reducible apply State.onlyIf_kept
    | with_reducible apply State.toSelf_kept
    | with_reducible apply kept2_mk
    | with_reducible apply keptO_some
    | with_reducible apply keptO_none
    | with_reducible exact keptO2_get (by with_reducible assumption)
    | (with_reducible refine kept2_eq (by with_reducible assumption) ?_)
    | (with_reducible apply kept2_proj; first | with_reducible assumption | with_reducible apply kept2_foldl)
    | (with_reducible refine keptO_eq (by with_reducible assumption) ?_)
    | with_reducible apply kept_foldl
    | split
    | dsimp -zeta only

theorem execReassemblyDeliver_kept {a0 a1} (hregs : m.regs) (hout : m.out) (hhost : m.host) (hcnt : m.cnt) (hbuf :
    m.buf) (hlif : m.lif) (hmem : m.mem) (hfab : m.fab) (h : Kept m z s) : KeptX m z (execReassemblyDeliver a0 a1 s)
    := by
  unfold execReassemblyDeliver
  repeat' first
    | with_reducible assumption
    | intro _
    | subst x
    | (extract_lets +onlyGivenNames x; have hx : Kept m z x := ?_; clear_value x)
    | (extract_lets +onlyGivenNames x; clear_value x)
    | (extract_lets +onlyGivenNames w; revert w; intro w0)
    | with_reducible apply kept_ite
    | with_reducible apply State.bufSync_kept
    | with_reducible apply State.passCopy_kept
    | with_reducible apply State.setIn_kept
    | with_reducible apply State.took_kept
    | with_reducible apply keptX_ok
    | split
    | dsimp -zeta only

theorem execTagReportApply_kept {a0} (hfab : m.fab) (h : Kept m z s) : KeptX m z (execTagReportApply a0 s) := by
  unfold execTagReportApply
  repeat' first
    | with_reducible assumption
    | intro _
    | subst x
    | (extract_lets +onlyGivenNames x; have hx : Kept m z x := ?_; clear_value x)
    | (extract_lets +onlyGivenNames x; have hx : Kept2 m z x := ?_; clear_value x)
    | (extract_lets +onlyGivenNames x; have hx : KeptO m z x := ?_; clear_value x)
    | (extract_lets +onlyGivenNames x; clear_value x)
    | (extract_lets +onlyGivenNames w; revert w; intro w0)
    | with_reducible apply kept_ite
    | with_reducible apply keptX_ok
    | with_reducible apply kept2_mk
    | with_reducible apply keptO_some
    | with_reducible apply keptO_none
    | with_reducible exact keptO2_get (by with_reducible assumption)
    | (with_reducible refine kept2_eq (by with_reducible assumption) ?_)
    | (with_reducible apply kept2_proj; first | with_reducible assumption | with_reducible apply kept2_foldl)
    | (with_reducible refine keptO_eq (by with_reducible assumption) ?_)
    | with_reducible apply kept_foldl
    | split
    | dsimp -zeta only
    | (with_reducible refine kept_mk rfl ?_ rfl rfl rfl rfl ?_ ?_ ?_ ?_ ?_ ?_ ?_ ?_ ?_ ?_ ?_ ?_ ?_ ?_ ?_ ?_ ?_ ?_ ?_ <;> first | with_reducible exact Or.inr rfl | exact Or.inl (by assumption) | with_reducible assumption | with_reducible exact keptO2_get (by with_reducible assumption) | (with_reducible refine kept2_eq (by with_reducible assumption) ?_) | (with_reducible refine keptO_eq (by with_reducible assumption) ?_))

end Sys2Proof.Machine
end

