-- ==== Sys2Proof/Laws/KeptOtn.lean ====
section
/-!
SUPPORT. Laws/KeptOtn.lean: what the operations of Machine/Otn.lean keep (Laws/Kept.lean).
-/

namespace Sys2Proof.Machine

set_option linter.all false

variable {m : Mask} {z s : State}

theorem State.setLayer_kept {a1 a2} (hlif : m.lif) (h : Kept m z s) : Kept m z (State.setLayer s a1 a2) := by
  unfold State.setLayer
  repeat' first
    | with_reducible assumption
    | intro _
    | subst x
    | (extract_lets +onlyGivenNames x; have hx : Kept m z x := ?_; clear_value x)
    | (extract_lets +onlyGivenNames x; have hx : Kept2 m z x := ?_; clear_value x)
    | (extract_lets +onlyGivenNames x; have hx : KeptO m z x := ?_; clear_value x)
    | (extract_lets +onlyGivenNames x; clear_value x)
    | (extract_lets +onlyGivenNames w; revert w; intro w0)
    | with_reducible apply kept_ite
    | with_reducible apply kept2_mk
    | with_reducible apply keptO_some
    | with_reducible apply keptO_none
    | with_reducible exact keptO2_get (by with_reducible assumption)
    | (with_reducible refine kept2_eq (by with_reducible assumption) ?_)
    | (with_reducible apply kept2_proj; first | with_reducible assumption | with_reducible apply kept2_foldl)
    | (with_reducible refine keptO_eq (by with_reducible assumption) ?_)
    | with_reducible apply kept_foldl
    | split
    | dsimp -zeta only
    | (with_reducible refine kept_mk rfl ?_ rfl rfl rfl rfl ?_ ?_ ?_ ?_ ?_ ?_ ?_ ?_ ?_ ?_ ?_ ?_ ?_ ?_ ?_ ?_ ?_ ?_ ?_ <;> first | with_reducible exact Or.inr rfl | exact Or.inl (by assumption) | with_reducible assumption | with_reducible exact keptO2_get (by with_reducible assumption) | (with_reducible refine kept2_eq (by with_reducible assumption) ?_) | (with_reducible refine keptO_eq (by with_reducible assumption) ?_))

theorem State.align_kept {a1 a2} (hregs : m.regs) (hlif : m.lif) (h : Kept m z s) : Kept m z (State.align s a1 a2) :=
    by
  unfold State.align
  repeat' first
    | with_reducible assumption
    | intro _
    | subst x
    | (extract_lets +onlyGivenNames x; have hx : Kept m z x := ?_; clear_value x)
    | (extract_lets +onlyGivenNames x; have hx : Kept2 m z x := ?_; clear_value x)
    | (extract_lets +onlyGivenNames x; have hx : KeptO m z x := ?_; clear_value x)
    | (extract_lets +onlyGivenNames x; clear_value x)
    | (extract_lets +onlyGivenNames w; revert w; intro w0)
    | with_reducible apply kept_ite
    | with_reducible apply State.onlyIf_kept
    | with_reducible apply State.wr_kept
    | with_reducible apply State.wrBit_kept
    | with_reducible apply kept2_mk
    | with_reducible apply keptO_some
    | with_reducible apply keptO_none
    | with_reducible exact keptO2_get (by with_reducible assumption)
    | (with_reducible refine kept2_eq (by with_reducible assumption) ?_)
    | (with_reducible apply kept2_proj; first | with_reducible assumption | with_reducible apply kept2_foldl)
    | (with_reducible refine keptO_eq (by with_reducible assumption) ?_)
    | with_reducible apply kept_foldl
    | split
    | dsimp -zeta only
    | (with_reducible refine kept_mk rfl ?_ rfl rfl rfl rfl ?_ ?_ ?_ ?_ ?_ ?_ ?_ ?_ ?_ ?_ ?_ ?_ ?_ ?_ ?_ ?_ ?_ ?_ ?_ <;> first | with_reducible exact Or.inr rfl | exact Or.inl (by assumption) | with_reducible assumption | with_reducible exact keptO2_get (by with_reducible assumption) | (with_reducible refine kept2_eq (by with_reducible assumption) ?_) | (with_reducible refine keptO_eq (by with_reducible assumption) ?_) | with_reducible apply State.onlyIf_kept | with_reducible apply State.wr_kept | with_reducible apply State.wrBit_kept)

theorem State.parity_kept {a1 a2 a3 a4 a5 a6 a7} (hregs : m.regs) (hlif : m.lif) (h : Kept m z s) : Kept m z
    (State.parity s a1 a2 a3 a4 a5 a6 a7) := by
  unfold State.parity
  repeat' first
    | with_reducible assumption
    | intro _
    | subst x
    | (extract_lets +onlyGivenNames x; have hx : Kept m z x := ?_; clear_value x)
    | (extract_lets +onlyGivenNames x; clear_value x)
    | (extract_lets +onlyGivenNames w; revert w; intro w0)
    | with_reducible apply kept_ite
    | with_reducible apply State.count_kept
    | with_reducible apply State.onlyIf_kept
    | with_reducible apply State.setLayer_kept
    | split
    | dsimp -zeta only

theorem State.trailByte_kept {a1 a2 a3} (hlif : m.lif) (h : Kept m z s) : Kept m z (State.trailByte s a1 a2 a3) := by
  unfold State.trailByte
  repeat' first
    | with_reducible assumption
    | intro _
    | subst x
    | (extract_lets +onlyGivenNames x; have hx : Kept m z x := ?_; clear_value x)
    | (extract_lets +onlyGivenNames x; have hx : KeptO m z x := ?_; clear_value x)
    | (extract_lets +onlyGivenNames x; clear_value x)
    | (extract_lets +onlyGivenNames w; revert w; intro w0)
    | with_reducible apply kept_ite
    | with_reducible apply State.setLayer_kept
    | split
    | dsimp -zeta only

theorem State.ptByte_kept {a1 a2} (hlif : m.lif) (h : Kept m z s) : Kept m z (State.ptByte s a1 a2) := by
  unfold State.ptByte
  repeat' first
    | with_reducible assumption
    | intro _
    | subst x
    | (extract_lets +onlyGivenNames x; have hx : Kept m z x := ?_; clear_value x)
    | (extract_lets +onlyGivenNames x; have hx : KeptO m z x := ?_; clear_value x)
    | (extract_lets +onlyGivenNames x; clear_value x)
    | (extract_lets +onlyGivenNames w; revert w; intro w0)
    | with_reducible apply kept_ite
    | with_reducible apply State.setLayer_kept
    | split
    | dsimp -zeta only

theorem State.msi_kept {a1 a2} (hregs : m.regs) (h : Kept m z s) : Kept m z (State.msi s a1 a2) := by
  unfold State.msi
  repeat' first
    | with_reducible assumption
    | intro _
    | subst x
    | (extract_lets +onlyGivenNames x; have hx : Kept m z x := ?_; clear_value x)
    | (extract_lets +onlyGivenNames x; have hx : KeptO m z x := ?_; clear_value x)
    | (extract_lets +onlyGivenNames x; clear_value x)
    | (extract_lets +onlyGivenNames w; revert w; intro w0)
    | with_reducible apply kept_ite
    | with_reducible apply State.each_kept
    | with_reducible apply State.wrBit_kept
    | split
    | dsimp -zeta only

theorem State.sliceBdi_kept {a1 a2} (hlif : m.lif) (h : Kept m z s) : Kept m z (State.sliceBdi s a1 a2) := by
  unfold State.sliceBdi
  repeat' first
    | with_reducible assumption
    | intro _
    | subst x
    | (extract_lets +onlyGivenNames x; have hx : Kept m z x := ?_; clear_value x)
    | (extract_lets +onlyGivenNames x; clear_value x)
    | (extract_lets +onlyGivenNames w; revert w; intro w0)
    | with_reducible apply State.setLayer_kept
    | dsimp -zeta only

theorem State.clientBdi_kept {a1} (hlif : m.lif) (h : Kept m z s) : Kept m z (State.clientBdi s a1) := by
  unfold State.clientBdi
  repeat' first
    | with_reducible assumption
    | intro _
    | subst x
    | (extract_lets +onlyGivenNames x; have hx : Kept m z x := ?_; clear_value x)
    | (extract_lets +onlyGivenNames x; clear_value x)
    | (extract_lets +onlyGivenNames w; revert w; intro w0)
    | with_reducible apply State.setLayer_kept
    | dsimp -zeta only

theorem State.clientOh_kept {a1 a2} (hregs : m.regs) (hlif : m.lif) (h : Kept m z s) : Kept m z (State.clientOh s a1
    a2) := by
  unfold State.clientOh
  repeat' first
    | with_reducible assumption
    | intro _
    | subst x
    | (extract_lets +onlyGivenNames x; have hx : Kept m z x := ?_; clear_value x)
    | (extract_lets +onlyGivenNames x; clear_value x)
    | (extract_lets +onlyGivenNames w; revert w; intro w0)
    | with_reducible apply kept_ite
    | with_reducible apply State.parity_kept
    | with_reducible apply State.ptByte_kept
    | with_reducible apply State.setLayer_kept
    | with_reducible apply State.trailByte_kept
    | with_reducible apply State.wr_kept
    | with_reducible apply State.wrBit_kept
    | split
    | dsimp -zeta only

theorem State.overhead_kept {a1 a2 a3} (hregs : m.regs) (hlif : m.lif) (h : Kept m z s) : Kept m z (State.overhead s a1
    a2 a3) := by
  unfold State.overhead
  repeat' first
    | with_reducible assumption
    | intro _
    | subst x
    | (extract_lets +onlyGivenNames x; have hx : Kept m z x := ?_; clear_value x)
    | (extract_lets +onlyGivenNames x; clear_value x)
    | (extract_lets +onlyGivenNames w; revert w; intro w0)
    | with_reducible apply kept_ite
    | with_reducible apply State.clientOh_kept
    | with_reducible apply State.each_kept
    | with_reducible apply State.msi_kept
    | with_reducible apply State.parity_kept
    | with_reducible apply State.ptByte_kept
    | with_reducible apply State.setLayer_kept
    | with_reducible apply State.trailByte_kept
    | with_reducible apply State.wr_kept
    | with_reducible apply State.wrBit_kept
    | split
    | dsimp -zeta only

theorem State.showLink_kept {a1 a2} (hregs : m.regs) (h : Kept m z s) : Kept m z (State.showLink s a1 a2) := by
  unfold State.showLink
  repeat' first
    | with_reducible assumption
    | intro _
    | with_reducible apply State.onlyIf_kept
    | with_reducible apply State.wrBit_kept

theorem State.otnLinks_kept {a1} (hregs : m.regs) (hlif : m.lif) (h : Kept m z s) : Kept m z (State.otnLinks s a1) :=
    by
  unfold State.otnLinks
  repeat' first
    | with_reducible assumption
    | intro _
    | subst x
    | (extract_lets +onlyGivenNames x; have hx : Kept m z x := ?_; clear_value x)
    | (extract_lets +onlyGivenNames x; have hx : Kept2 m z x := ?_; clear_value x)
    | (extract_lets +onlyGivenNames x; have hx : KeptO m z x := ?_; clear_value x)
    | (extract_lets +onlyGivenNames x; clear_value x)
    | (extract_lets +onlyGivenNames w; revert w; intro w0)
    | with_reducible apply kept_ite
    | with_reducible apply State.clientBdi_kept
    | with_reducible apply State.each_kept
    | with_reducible apply State.showLink_kept
    | with_reducible apply kept2_mk
    | with_reducible apply keptO_some
    | with_reducible apply keptO_none
    | with_reducible exact keptO2_get (by with_reducible assumption)
    | (with_reducible refine kept2_eq (by with_reducible assumption) ?_)
    | (with_reducible apply kept2_proj; first | with_reducible assumption | with_reducible apply kept2_foldl)
    | (with_reducible refine keptO_eq (by with_reducible assumption) ?_)
    | with_reducible apply kept_foldl
    | split
    | dsimp -zeta only

theorem State.lostSlice_kept {a1 a2} (hlif : m.lif) (h : Kept m z s) : Kept m z (State.lostSlice s a1 a2) := by
  unfold State.lostSlice
  repeat' first
    | with_reducible assumption
    | intro _
    | subst x
    | (extract_lets +onlyGivenNames x; have hx : Kept m z x := ?_; clear_value x)
    | (extract_lets +onlyGivenNames x; clear_value x)
    | (extract_lets +onlyGivenNames w; revert w; intro w0)
    | with_reducible apply State.each_kept
    | with_reducible apply State.setLayer_kept
    | dsimp -zeta only

theorem execOtnFrameReceive_kept {a0 a1} (hregs : m.regs) (hclk : m.clk) (hlif : m.lif) (h : Kept m z s) : KeptX m z
    (execOtnFrameReceive a0 a1 s) := by
  unfold execOtnFrameReceive
  repeat' first
    | with_reducible assumption
    | intro _
    | subst x
    | (extract_lets +onlyGivenNames x; have hx : Kept m z x := ?_; clear_value x)
    | (extract_lets +onlyGivenNames x; clear_value x)
    | (extract_lets +onlyGivenNames w; revert w; intro w0)
    | with_reducible apply kept_ite
    | with_reducible apply State.align_kept
    | with_reducible apply State.lostSlice_kept
    | with_reducible apply State.otnLinks_kept
    | with_reducible apply State.overhead_kept
    | with_reducible apply State.rclkSync_kept
    | with_reducible apply State.sliceBdi_kept
    | with_reducible apply State.wrBit_kept
    | with_reducible apply keptX_ok
    | with_reducible apply kept_foldl
    | split
    | dsimp -zeta only

theorem execOtnDefectTimer_kept {a0} (hregs : m.regs) (hlif : m.lif) (h : Kept m z s) : KeptX m z (execOtnDefectTimer
    a0 s) := by
  unfold execOtnDefectTimer
  repeat' first
    | with_reducible assumption
    | intro _
    | subst x
    | (extract_lets +onlyGivenNames x; have hx : Kept m z x := ?_; clear_value x)
    | (extract_lets +onlyGivenNames x; clear_value x)
    | (extract_lets +onlyGivenNames w; revert w; intro w0)
    | with_reducible apply kept_ite
    | with_reducible apply State.otnLinks_kept
    | with_reducible apply State.sliceBdi_kept
    | with_reducible apply State.wr_kept
    | with_reducible apply State.wrBit_kept
    | with_reducible apply keptX_ok
    | with_reducible apply kept_foldl
    | split
    | dsimp -zeta only

theorem State.demapPeriod_kept {a1 a2 a3} (hregs : m.regs) (hlif : m.lif) (h : Kept m z s) : Kept m z
    (State.demapPeriod s a1 a2 a3) := by
  unfold State.demapPeriod
  repeat' first
    | with_reducible assumption
    | intro _
    | subst x
    | (extract_lets +onlyGivenNames x; have hx : Kept m z x := ?_; clear_value x)
    | (extract_lets +onlyGivenNames x; have hx : Kept2 m z x := ?_; clear_value x)
    | (extract_lets +onlyGivenNames x; have hx : KeptO m z x := ?_; clear_value x)
    | (extract_lets +onlyGivenNames x; clear_value x)
    | (extract_lets +onlyGivenNames w; revert w; intro w0)
    | with_reducible apply kept_ite
    | with_reducible apply State.bump_kept
    | with_reducible apply State.onlyIf_kept
    | with_reducible apply kept2_mk
    | with_reducible apply keptO_some
    | with_reducible apply keptO_none
    | with_reducible exact keptO2_get (by with_reducible assumption)
    | (with_reducible refine kept2_eq (by with_reducible assumption) ?_)
    | (with_reducible apply kept2_proj; first | with_reducible assumption | with_reducible apply kept2_foldl)
    | (with_reducible refine keptO_eq (by with_reducible assumption) ?_)
    | with_reducible apply kept_foldl
    | split
    | dsimp -zeta only
    | (with_reducible refine kept_mk rfl ?_ rfl rfl rfl rfl ?_ ?_ ?_ ?_ ?_ ?_ ?_ ?_ ?_ ?_ ?_ ?_ ?_ ?_ ?_ ?_ ?_ ?_ ?_ <;> first | with_reducible exact Or.inr rfl | exact Or.inl (by assumption) | with_reducible assumption | with_reducible exact keptO2_get (by with_reducible assumption) | (with_reducible refine kept2_eq (by with_reducible assumption) ?_) | (with_reducible refine keptO_eq (by with_reducible assumption) ?_) | with_reducible apply State.bump_kept | with_reducible apply State.onlyIf_kept)

theorem execGmpJcPeriod_kept {a0 a1 a2 a3} (hregs : m.regs) (hlif : m.lif) (h : Kept m z s) : KeptX m z
    (execGmpJcPeriod a0 a1 a2 a3 s) := by
  unfold execGmpJcPeriod
  repeat' first
    | with_reducible assumption
    | intro _
    | subst x
    | (extract_lets +onlyGivenNames x; have hx : Kept m z x := ?_; clear_value x)
    | (extract_lets +onlyGivenNames x; have hx : Kept2 m z x := ?_; clear_value x)
    | (extract_lets +onlyGivenNames x; have hx : KeptO m z x := ?_; clear_value x)
    | (extract_lets +onlyGivenNames x; clear_value x)
    | (extract_lets +onlyGivenNames w; revert w; intro w0)
    | with_reducible apply kept_ite
    | with_reducible apply State.demapPeriod_kept
    | with_reducible apply State.otnLinks_kept
    | with_reducible apply keptX_ok
    | with_reducible apply kept2_mk
    | with_reducible apply keptO_some
    | with_reducible apply keptO_none
    | with_reducible exact keptO2_get (by with_reducible assumption)
    | (with_reducible refine kept2_eq (by with_reducible assumption) ?_)
    | (with_reducible apply kept2_proj; first | with_reducible assumption | with_reducible apply kept2_foldl)
    | (with_reducible refine keptO_eq (by with_reducible assumption) ?_)
    | with_reducible apply kept_foldl
    | split
    | dsimp -zeta only
    | (with_reducible refine kept_mk rfl ?_ rfl rfl rfl rfl ?_ ?_ ?_ ?_ ?_ ?_ ?_ ?_ ?_ ?_ ?_ ?_ ?_ ?_ ?_ ?_ ?_ ?_ ?_ <;> first | with_reducible exact Or.inr rfl | exact Or.inl (by assumption) | with_reducible assumption | with_reducible exact keptO2_get (by with_reducible assumption) | (with_reducible refine kept2_eq (by with_reducible assumption) ?_) | (with_reducible refine keptO_eq (by with_reducible assumption) ?_) | with_reducible apply State.demapPeriod_kept | with_reducible apply State.otnLinks_kept)

theorem execCmPageWrite_kept {a0 a1 a2 a3 a4} (hregs : m.regs) (hout : m.out) (hhost : m.host) (h : Kept m z s) : KeptX
    m z (execCmPageWrite a0 a1 a2 a3 a4 s) := by
  unfold execCmPageWrite
  repeat' first
    | with_reducible assumption
    | intro _
    | subst x
    | (extract_lets +onlyGivenNames x; have hx : Kept m z x := ?_; clear_value x)
    | (extract_lets +onlyGivenNames x; clear_value x)
    | (extract_lets +onlyGivenNames w; revert w; intro w0)
    | with_reducible apply kept_ite
    | with_reducible apply State.hostWrite_kept
    | with_reducible apply State.lateErr_kept
    | with_reducible apply State.mergeReg_kept
    | with_reducible apply keptX_ok
    | split
    | dsimp -zeta only

theorem execTsiSwapArm_kept {a0 a1 a2} (hregs : m.regs) (hout : m.out) (hsched : m.sched) (hhost : m.host) (h : Kept m
    z s) : KeptX m z (execTsiSwapArm a0 a1 a2 s) := by
  unfold execTsiSwapArm
  repeat' first
    | with_reducible assumption
    | intro _
    | subst x
    | (extract_lets +onlyGivenNames x; have hx : Kept m z x := ?_; clear_value x)
    | (extract_lets +onlyGivenNames x; clear_value x)
    | (extract_lets +onlyGivenNames w; revert w; intro w0)
    | with_reducible apply kept_ite
    | with_reducible apply State.hostWrite_kept
    | with_reducible apply State.mergeReg_kept
    | with_reducible apply State.schedTake_kept
    | with_reducible apply State.wr_kept
    | with_reducible apply keptX_ok
    | split
    | dsimp -zeta only

theorem State.withdrawTsi_kept {a1 a2} (hregs : m.regs) (hsched : m.sched) (h : Kept m z s) : Kept m z
    (State.withdrawTsi s a1 a2) := by
  unfold State.withdrawTsi
  repeat' first
    | with_reducible assumption
    | intro _
    | with_reducible apply State.schedFree_kept
    | with_reducible apply State.wr_kept

theorem execTsiSwapCancel_kept {a0 a1 a2} (hregs : m.regs) (hout : m.out) (hsched : m.sched) (hhost : m.host) (h : Kept
    m z s) : KeptX m z (execTsiSwapCancel a0 a1 a2 s) := by
  unfold execTsiSwapCancel
  repeat' first
    | with_reducible assumption
    | intro _
    | subst x
    | (extract_lets +onlyGivenNames x; have hx : Kept m z x := ?_; clear_value x)
    | (extract_lets +onlyGivenNames x; clear_value x)
    | (extract_lets +onlyGivenNames w; revert w; intro w0)
    | with_reducible apply kept_ite
    | with_reducible apply State.hostWrite_kept
    | with_reducible apply State.mergeReg_kept
    | with_reducible apply State.withdrawTsi_kept
    | with_reducible apply State.wr_kept
    | with_reducible apply keptX_ok
    | split
    | dsimp -zeta only

theorem State.swapDone_kept (hregs : m.regs) (hout : m.out) (hhost : m.host) (h : Kept m z s) : Kept m z
    (State.swapDone s) := by
  unfold State.swapDone
  repeat' first
    | with_reducible assumption
    | intro _
    | with_reducible apply kept_ite
    | with_reducible apply State.event_kept
    | with_reducible apply State.wr_kept
    | split

theorem State.newOdus_kept {a1} (hlif : m.lif) (h : Kept m z s) : Kept m z (State.newOdus s a1) := by
  unfold State.newOdus
  repeat' first
    | with_reducible assumption
    | intro _
    | subst x
    | (extract_lets +onlyGivenNames x; have hx : Kept m z x := ?_; clear_value x)
    | (extract_lets +onlyGivenNames x; have hx : Kept2 m z x := ?_; clear_value x)
    | (extract_lets +onlyGivenNames x; have hx : KeptO m z x := ?_; clear_value x)
    | (extract_lets +onlyGivenNames x; clear_value x)
    | (extract_lets +onlyGivenNames w; revert w; intro w0)
    | with_reducible apply kept_ite
    | with_reducible apply kept2_mk
    | with_reducible apply keptO_some
    | with_reducible apply keptO_none
    | with_reducible exact keptO2_get (by with_reducible assumption)
    | (with_reducible refine kept2_eq (by with_reducible assumption) ?_)
    | (with_reducible apply kept2_proj; first | with_reducible assumption | with_reducible apply kept2_foldl)
    | (with_reducible refine keptO_eq (by with_reducible assumption) ?_)
    | with_reducible apply kept_foldl
    | split
    | dsimp -zeta only
    | (with_reducible refine kept_mk rfl ?_ rfl rfl rfl rfl ?_ ?_ ?_ ?_ ?_ ?_ ?_ ?_ ?_ ?_ ?_ ?_ ?_ ?_ ?_ ?_ ?_ ?_ ?_ <;> first | with_reducible exact Or.inr rfl | exact Or.inl (by assumption) | with_reducible assumption | with_reducible exact keptO2_get (by with_reducible assumption) | (with_reducible refine kept2_eq (by with_reducible assumption) ?_) | (with_reducible refine keptO_eq (by with_reducible assumption) ?_))

theorem State.pageChanged_kept {a1} (hregs : m.regs) (hout : m.out) (hhost : m.host) (hlif : m.lif) (h : Kept m z s) :
    Kept m z (State.pageChanged s a1) := by
  unfold State.pageChanged
  repeat' first
    | with_reducible assumption
    | intro _
    | subst x
    | (extract_lets +onlyGivenNames x; have hx : Kept m z x := ?_; clear_value x)
    | (extract_lets +onlyGivenNames x; have hx : Kept2 m z x := ?_; clear_value x)
    | (extract_lets +onlyGivenNames x; have hx : KeptO m z x := ?_; clear_value x)
    | (extract_lets +onlyGivenNames x; clear_value x)
    | (extract_lets +onlyGivenNames w; revert w; intro w0)
    | with_reducible apply kept_ite
    | with_reducible apply State.newOdus_kept
    | with_reducible apply State.swapDone_kept
    | with_reducible apply State.wr_kept
    | with_reducible apply kept2_mk
    | with_reducible apply keptO_some
    | with_reducible apply keptO_none
    | with_reducible exact keptO2_get (by with_reducible assumption)
    | (with_reducible refine kept2_eq (by with_reducible assumption) ?_)
    | (with_reducible apply kept2_proj; first | with_reducible assumption | with_reducible apply kept2_foldl)
    | (with_reducible refine keptO_eq (by with_reducible assumption) ?_)
    | with_reducible apply kept_foldl
    | split
    | dsimp -zeta only
    | (with_reducible refine kept_mk rfl ?_ rfl rfl rfl rfl ?_ ?_ ?_ ?_ ?_ ?_ ?_ ?_ ?_ ?_ ?_ ?_ ?_ ?_ ?_ ?_ ?_ ?_ ?_ <;> first | with_reducible exact Or.inr rfl | exact Or.inl (by assumption) | with_reducible assumption | with_reducible exact keptO2_get (by with_reducible assumption) | (with_reducible refine kept2_eq (by with_reducible assumption) ?_) | (with_reducible refine keptO_eq (by with_reducible assumption) ?_) | with_reducible apply State.newOdus_kept | with_reducible apply State.swapDone_kept | with_reducible apply State.wr_kept)

theorem State.fireTsi_kept {a1} (hregs : m.regs) (hout : m.out) (hsched : m.sched) (hhost : m.host) (hlif : m.lif) (h :
    Kept m z s) : Kept m z (State.fireTsi s a1) := by
  unfold State.fireTsi
  repeat' first
    | with_reducible assumption
    | intro _
    | subst x
    | (extract_lets +onlyGivenNames x; have hx : Kept m z x := ?_; clear_value x)
    | (extract_lets +onlyGivenNames x; have hx : Kept2 m z x := ?_; clear_value x)
    | (extract_lets +onlyGivenNames x; have hx : KeptO m z x := ?_; clear_value x)
    | (extract_lets +onlyGivenNames x; clear_value x)
    | (extract_lets +onlyGivenNames w; revert w; intro w0)
    | with_reducible apply kept_ite
    | with_reducible apply State.each_kept
    | with_reducible apply State.newOdus_kept
    | with_reducible apply State.schedFree_kept
    | with_reducible apply State.swapDone_kept
    | with_reducible apply State.wr_kept
    | with_reducible apply kept2_mk
    | with_reducible apply keptO_some
    | with_reducible apply keptO_none
    | with_reducible exact keptO2_get (by with_reducible assumption)
    | (with_reducible refine kept2_eq (by with_reducible assumption) ?_)
    | (with_reducible apply kept2_proj; first | with_reducible assumption | with_reducible apply kept2_foldl)
    | (with_reducible refine keptO_eq (by with_reducible assumption) ?_)
    | with_reducible apply kept_foldl
    | split
    | dsimp -zeta only
    | (with_reducible refine kept_mk rfl ?_ rfl rfl rfl rfl ?_ ?_ ?_ ?_ ?_ ?_ ?_ ?_ ?_ ?_ ?_ ?_ ?_ ?_ ?_ ?_ ?_ ?_ ?_ <;> first | with_reducible exact Or.inr rfl | exact Or.inl (by assumption) | with_reducible assumption | with_reducible exact keptO2_get (by with_reducible assumption) | (with_reducible refine kept2_eq (by with_reducible assumption) ?_) | (with_reducible refine keptO_eq (by with_reducible assumption) ?_) | with_reducible apply State.each_kept | with_reducible apply State.newOdus_kept | with_reducible apply State.schedFree_kept | with_reducible apply State.swapDone_kept | with_reducible apply State.wr_kept)

theorem execTsiPortPageChange_kept {a0} (hregs : m.regs) (hout : m.out) (hhost : m.host) (hlif : m.lif) (h : Kept m z
    s) : KeptX m z (execTsiPortPageChange a0 s) := by
  unfold execTsiPortPageChange
  repeat' first
    | with_reducible assumption
    | intro _
    | with_reducible apply State.pageChanged_kept
    | with_reducible apply keptX_ok

end Sys2Proof.Machine
end

