-- ==== Sys2Proof/Laws/KeptStage.lean ====
section
/-!
SUPPORT. Laws/KeptStage.lean: what the operations of Machine/Stage.lean keep (Laws/Kept.lean).
-/

namespace Sys2Proof.Machine

set_option linter.all false

variable {m : Mask} {z s : State}

theorem State.takeOrder_kept {a1} (hfd : m.fd) (h : Kept m z s) : Kept1 m z (State.takeOrder s a1) := by
  unfold State.takeOrder
  repeat' first
    | with_reducible assumption
    | intro _
    | subst x
    | (extract_lets +onlyGivenNames x; have hx : Kept m z x := ?_; clear_value x)
    | (extract_lets +onlyGivenNames x; have hx : Kept1 m z x := ?_; clear_value x)
    | (extract_lets +onlyGivenNames x; have hx : Kept2 m z x := ?_; clear_value x)
    | (extract_lets +onlyGivenNames x; have hx : KeptO m z x := ?_; clear_value x)
    | (extract_lets +onlyGivenNames x; clear_value x)
    | (extract_lets +onlyGivenNames w; revert w; intro w0)
    | with_reducible apply kept_ite
    | with_reducible apply kept2_mk
    | with_reducible apply kept1_mk
    | with_reducible apply keptO_some
    | with_reducible apply keptO_none
    | with_reducible exact keptO2_get (by with_reducible assumption)
    | (with_reducible refine kept1_eq (by with_reducible assumption) ?_)
    | (with_reducible apply kept1_proj; first | with_reducible assumption)
    | (with_reducible refine kept2_eq (by with_reducible assumption) ?_)
    | (with_reducible apply kept2_proj; first | with_reducible assumption | with_reducible apply kept2_foldl)
    | (with_reducible refine keptO_eq (by with_reducible assumption) ?_)
    | with_reducible apply kept_foldl
    | split
    | dsimp -zeta only
    | (with_reducible refine kept_mk rfl ?_ rfl rfl rfl rfl ?_ ?_ ?_ ?_ ?_ ?_ ?_ ?_ ?_ ?_ ?_ ?_ ?_ ?_ ?_ ?_ ?_ ?_ ?_ <;> first | with_reducible exact Or.inr rfl | exact Or.inl (by assumption) | with_reducible assumption | with_reducible exact keptO2_get (by with_reducible assumption) | (with_reducible refine kept1_eq (by with_reducible assumption) ?_) | (with_reducible refine kept2_eq (by with_reducible assumption) ?_) | (with_reducible refine keptO_eq (by with_reducible assumption) ?_))

theorem execStageIssue_kept {a0 a1 a2 a3} (hregs : m.regs) (htxf : m.txf) (hfd : m.fd) (hcnt : m.cnt) (h : Kept m z s)
    : KeptX m z (execStageIssue a0 a1 a2 a3 s) := by
  unfold execStageIssue
  repeat' first
    | with_reducible assumption
    | intro _
    | subst x
    | (extract_lets +onlyGivenNames x; have hx : Kept m z x := ?_; clear_value x)
    | (extract_lets +onlyGivenNames x; have hx : Kept1 m z x := ?_; clear_value x)
    | (extract_lets +onlyGivenNames x; have hx : Kept2 m z x := ?_; clear_value x)
    | (extract_lets +onlyGivenNames x; have hx : KeptO m z x := ?_; clear_value x)
    | (extract_lets +onlyGivenNames x; have hx : KeptO2 m z x := ?_; clear_value x)
    | (extract_lets +onlyGivenNames x; clear_value x)
    | (extract_lets +onlyGivenNames w; revert w; intro w0)
    | with_reducible apply kept_ite
    | with_reducible apply State.bump_kept
    | with_reducible apply State.setPkt_kept
    | with_reducible apply State.starve_kept
    | with_reducible apply State.takeNumber_kept
    | with_reducible apply State.takeOrder_kept
    | with_reducible apply State.withPkt_kept
    | with_reducible apply keptX_ok
    | with_reducible apply keptO2_some
    | with_reducible apply keptO2_none
    | with_reducible exact keptO2_get (by with_reducible assumption)
    | (with_reducible refine kept1_eq (by with_reducible assumption) ?_)
    | (with_reducible apply kept1_proj; first | with_reducible assumption | with_reducible apply State.takeOrder_kept)
    | (with_reducible refine kept2_eq (by with_reducible assumption) ?_)
    | (with_reducible apply kept2_proj; first | with_reducible assumption | with_reducible apply kept2_foldl)
    | (with_reducible refine keptO2_eq (by with_reducible assumption) ?_)
    | (with_reducible refine keptO2_eqp (by with_reducible assumption) ?_)
    | split
    | dsimp -zeta only

theorem State.countLook_kept {a1 a2} (hregs : m.regs) (hcnt : m.cnt) (h : Kept m z s) : Kept m z (State.countLook s a1
    a2) := by
  unfold State.countLook
  repeat' first
    | with_reducible assumption
    | intro _
    | subst x
    | (extract_lets +onlyGivenNames x; have hx : Kept m z x := ?_; clear_value x)
    | (extract_lets +onlyGivenNames x; clear_value x)
    | (extract_lets +onlyGivenNames w; revert w; intro w0)
    | with_reducible apply kept_ite
    | with_reducible apply State.each_kept
    | with_reducible apply State.pmuAs_kept
    | split
    | dsimp -zeta only

theorem State.readLook_kept {a1 a2 a3} (hregs : m.regs) (hout : m.out) (hhost : m.host) (hcnt : m.cnt) (hmem : m.mem)
    (h : Kept m z s) : Kept2 m z (State.readLook s a1 a2 a3) := by
  unfold State.readLook
  repeat' first
    | with_reducible assumption
    | intro _
    | subst x
    | (extract_lets +onlyGivenNames x; have hx : Kept m z x := ?_; clear_value x)
    | (extract_lets +onlyGivenNames x; have hx : Kept2 m z x := ?_; clear_value x)
    | (extract_lets +onlyGivenNames x; clear_value x)
    | (extract_lets +onlyGivenNames w; revert w; intro w0)
    | with_reducible apply State.readBuckets_kept
    | with_reducible apply kept2_mk
    | with_reducible apply kept2_mk
    | (with_reducible refine kept2_eq (by with_reducible assumption) ?_)
    | (with_reducible apply kept2_proj; first | with_reducible assumption | with_reducible apply kept2_foldl | with_reducible apply State.readBuckets_kept)
    | with_reducible apply kept_foldl
    | split
    | dsimp -zeta only

theorem State.refresh_kept {a1 a2} (hregs : m.regs) (hout : m.out) (hhost : m.host) (htab : m.tab) (hcnt : m.cnt) (hmem
    : m.mem) (h : Kept m z s) : Kept m z (State.refresh s a1 a2) := by
  unfold State.refresh
  repeat' first
    | with_reducible assumption
    | intro _
    | subst x
    | (extract_lets +onlyGivenNames x; have hx : Kept m z x := ?_; clear_value x)
    | (extract_lets +onlyGivenNames x; have hx : Kept2 m z x := ?_; clear_value x)
    | (extract_lets +onlyGivenNames x; have hx : KeptO m z x := ?_; clear_value x)
    | (extract_lets +onlyGivenNames x; clear_value x)
    | (extract_lets +onlyGivenNames w; revert w; intro w0)
    | with_reducible apply kept_ite
    | with_reducible apply State.putExm_kept
    | with_reducible apply kept2_mk
    | with_reducible apply keptO_some
    | with_reducible apply keptO_none
    | with_reducible exact keptO2_get (by with_reducible assumption)
    | (with_reducible refine kept2_eq (by with_reducible assumption) ?_)
    | (with_reducible apply kept2_proj; first | with_reducible assumption | with_reducible apply kept2_foldl)
    | (with_reducible refine keptO_eq (by with_reducible assumption) ?_)
    | with_reducible apply kept_foldl
    | split
    | dsimp -zeta only

theorem execStageLookupReturn_kept {a0 a1 a2} (hregs : m.regs) (hout : m.out) (hhost : m.host) (htab : m.tab) (hfd :
    m.fd) (hcnt : m.cnt) (hmem : m.mem) (h : Kept m z s) : KeptX m z (execStageLookupReturn a0 a1 a2 s) := by
  unfold execStageLookupReturn
  repeat' first
    | with_reducible assumption
    | intro _
    | subst x
    | (extract_lets +onlyGivenNames x; have hx : Kept m z x := ?_; clear_value x)
    | (extract_lets +onlyGivenNames x; have hx : Kept2 m z x := ?_; clear_value x)
    | (extract_lets +onlyGivenNames x; clear_value x)
    | (extract_lets +onlyGivenNames w; revert w; intro w0)
    | with_reducible apply kept_ite
    | with_reducible apply State.bump_kept
    | with_reducible apply State.countLook_kept
    | with_reducible apply State.countReads_kept
    | with_reducible apply State.onlyIf_kept
    | with_reducible apply State.readLook_kept
    | with_reducible apply State.refresh_kept
    | with_reducible apply State.setPkt_kept
    | with_reducible apply State.strike_kept
    | with_reducible apply State.uncorrectable_kept
    | with_reducible apply State.withPkt_kept
    | with_reducible apply keptX_ok
    | with_reducible apply kept2_mk
    | (with_reducible refine kept2_eq (by with_reducible assumption) ?_)
    | (with_reducible apply kept2_proj; first | with_reducible assumption | with_reducible apply kept2_foldl | with_reducible apply State.readLook_kept)
    | split
    | dsimp -zeta only

theorem State.joinTxn_kept {a1} (hregs : m.regs) (hfd : m.fd) (h : Kept m z s) : Kept m z (State.joinTxn s a1) := by
  unfold State.joinTxn
  repeat' first
    | with_reducible assumption
    | intro _
    | subst x
    | (extract_lets +onlyGivenNames x; have hx : Kept m z x := ?_; clear_value x)
    | (extract_lets +onlyGivenNames x; have hx : KeptO m z x := ?_; clear_value x)
    | (extract_lets +onlyGivenNames x; clear_value x)
    | (extract_lets +onlyGivenNames w; revert w; intro w0)
    | with_reducible apply State.bump_kept
    | with_reducible apply State.onlyIf_kept
    | with_reducible apply State.setPkt_kept
    | dsimp -zeta only

theorem State.issueIntent_kept {a1 a2 a3 a4 a5} (hregs : m.regs) (htxf : m.txf) (hfd : m.fd) (hcnt : m.cnt) (h : Kept m
    z s) : Kept m z (State.issueIntent s a1 a2 a3 a4 a5) := by
  unfold State.issueIntent
  repeat' first
    | with_reducible assumption
    | intro _
    | subst x
    | (extract_lets +onlyGivenNames x; have hx : Kept m z x := ?_; clear_value x)
    | (extract_lets +onlyGivenNames x; have hx : Kept2 m z x := ?_; clear_value x)
    | (extract_lets +onlyGivenNames x; have hx : KeptO m z x := ?_; clear_value x)
    | (extract_lets +onlyGivenNames x; clear_value x)
    | (extract_lets +onlyGivenNames w; revert w; intro w0)
    | with_reducible apply kept_ite
    | with_reducible apply State.bump_kept
    | with_reducible apply State.joinTxn_kept
    | with_reducible apply State.pmuAs_kept
    | with_reducible apply kept2_mk
    | with_reducible apply keptO_some
    | with_reducible apply keptO_none
    | with_reducible exact keptO2_get (by with_reducible assumption)
    | (with_reducible refine kept2_eq (by with_reducible assumption) ?_)
    | (with_reducible apply kept2_proj; first | with_reducible assumption | with_reducible apply kept2_foldl)
    | (with_reducible refine keptO_eq (by with_reducible assumption) ?_)
    | with_reducible apply kept_foldl
    | split
    | dsimp -zeta only
    | (with_reducible refine kept_mk rfl ?_ rfl rfl rfl rfl ?_ ?_ ?_ ?_ ?_ ?_ ?_ ?_ ?_ ?_ ?_ ?_ ?_ ?_ ?_ ?_ ?_ ?_ ?_ <;> first | with_reducible exact Or.inr rfl | exact Or.inl (by assumption) | with_reducible assumption | with_reducible exact keptO2_get (by with_reducible assumption) | (with_reducible refine kept2_eq (by with_reducible assumption) ?_) | (with_reducible refine keptO_eq (by with_reducible assumption) ?_) | with_reducible apply State.bump_kept | with_reducible apply State.joinTxn_kept | with_reducible apply State.pmuAs_kept)

theorem State.runWord_kept {a1 a2 a3 a4} (hregs : m.regs) (htxf : m.txf) (hfd : m.fd) (hcnt : m.cnt) (h : Kept m z s) :
    Kept m z (State.runWord s a1 a2 a3 a4) := by
  unfold State.runWord
  repeat' first
    | with_reducible assumption
    | intro _
    | subst x
    | (extract_lets +onlyGivenNames x; have hx : Kept m z x := ?_; clear_value x)
    | (extract_lets +onlyGivenNames x; clear_value x)
    | (extract_lets +onlyGivenNames w; revert w; intro w0)
    | with_reducible apply kept_ite
    | with_reducible apply State.each_kept
    | with_reducible apply State.issueIntent_kept
    | with_reducible apply State.setPkt_kept
    | with_reducible apply State.withPkt_kept
    | split
    | dsimp -zeta only

theorem State.moveLanes_kept {a1 a2} (hregs : m.regs) (hout : m.out) (hhost : m.host) (h : Kept m z s) : Kept m z
    (State.moveLanes s a1 a2) := by
  unfold State.moveLanes
  repeat' first
    | with_reducible assumption
    | intro _
    | subst x
    | (extract_lets +onlyGivenNames x; have hx : Kept m z x := ?_; clear_value x)
    | (extract_lets +onlyGivenNames x; clear_value x)
    | (extract_lets +onlyGivenNames w; revert w; intro w0)
    | with_reducible apply State.setLc_kept
    | with_reducible apply State.wr_kept
    | dsimp -zeta only

theorem State.retire_kept {a1 a2} (hregs : m.regs) (hout : m.out) (hhost : m.host) (h : Kept m z s) : Kept m z
    (State.retire s a1 a2) := by
  unfold State.retire
  repeat' first
    | with_reducible assumption
    | intro _
    | with_reducible apply kept_ite
    | with_reducible apply State.event_kept
    | with_reducible apply State.moveLanes_kept
    | split

theorem State.machineCheck_kept {a1 a2 a3 a4 a5} (hregs : m.regs) (hout : m.out) (hhost : m.host) (hfd : m.fd) (hcnt :
    m.cnt) (h : Kept m z s) : Kept m z (State.machineCheck s a1 a2 a3 a4 a5) := by
  unfold State.machineCheck
  repeat' first
    | with_reducible assumption
    | intro _
    | subst x
    | (extract_lets +onlyGivenNames x; have hx : Kept m z x := ?_; clear_value x)
    | (extract_lets +onlyGivenNames x; clear_value x)
    | (extract_lets +onlyGivenNames w; revert w; intro w0)
    | with_reducible apply kept_ite
    | with_reducible apply State.bump_kept
    | with_reducible apply State.event_kept
    | with_reducible apply State.markWord_kept
    | with_reducible apply State.mcLogEntry_kept
    | with_reducible apply State.pmuAs_kept
    | with_reducible apply State.retire_kept
    | with_reducible apply State.wr_kept
    | split
    | dsimp -zeta only

theorem execStageAction_kept {a0 a1 a2} (hregs : m.regs) (hout : m.out) (hhost : m.host) (htxf : m.txf) (hfd : m.fd)
    (hcnt : m.cnt) (h : Kept m z s) : KeptX m z (execStageAction a0 a1 a2 s) := by
  unfold execStageAction
  repeat' first
    | with_reducible assumption
    | intro _
    | subst x
    | (extract_lets +onlyGivenNames x; have hx : Kept m z x := ?_; clear_value x)
    | (extract_lets +onlyGivenNames x; clear_value x)
    | (extract_lets +onlyGivenNames w; revert w; intro w0)
    | with_reducible apply kept_ite
    | with_reducible apply State.bump_kept
    | with_reducible apply State.flipWord_kept
    | with_reducible apply State.machineCheck_kept
    | with_reducible apply State.onlyIf_kept
    | with_reducible apply State.runWord_kept
    | with_reducible apply State.setPkt_kept
    | with_reducible apply State.withPkt_kept
    | with_reducible apply keptX_ok
    | split
    | dsimp -zeta only

theorem execControlWordReloadDone_kept {a0 a1 a2 a3 a4 a5} (hregs : m.regs) (hout : m.out) (hhost : m.host) (hfd :
    m.fd) (h : Kept m z s) : KeptX m z (execControlWordReloadDone a0 a1 a2 a3 a4 a5 s) := by
  unfold execControlWordReloadDone
  repeat' first
    | with_reducible assumption
    | intro _
    | subst x
    | (extract_lets +onlyGivenNames x; have hx : Kept m z x := ?_; clear_value x)
    | (extract_lets +onlyGivenNames x; have hx : Kept2 m z x := ?_; clear_value x)
    | (extract_lets +onlyGivenNames x; have hx : KeptO m z x := ?_; clear_value x)
    | (extract_lets +onlyGivenNames x; clear_value x)
    | (extract_lets +onlyGivenNames w; revert w; intro w0)
    | with_reducible apply kept_ite
    | with_reducible apply State.bump_kept
    | with_reducible apply State.closeLog_kept
    | with_reducible apply State.markWord_kept
    | with_reducible apply State.onlyIf_kept
    | with_reducible apply State.retire_kept
    | with_reducible apply State.rewriteWords_kept
    | with_reducible apply keptX_ok
    | with_reducible apply kept2_mk
    | with_reducible apply keptO_some
    | with_reducible apply keptO_none
    | with_reducible exact keptO2_get (by with_reducible assumption)
    | (with_reducible refine kept2_eq (by with_reducible assumption) ?_)
    | (with_reducible apply kept2_proj; first | with_reducible assumption | with_reducible apply kept2_foldl)
    | (with_reducible refine keptO_eq (by with_reducible assumption) ?_)
    | with_reducible apply kept_foldl
    | split
    | dsimp -zeta only
    | (with_reducible refine kept_mk rfl ?_ rfl rfl rfl rfl ?_ ?_ ?_ ?_ ?_ ?_ ?_ ?_ ?_ ?_ ?_ ?_ ?_ ?_ ?_ ?_ ?_ ?_ ?_ <;> first | with_reducible exact Or.inr rfl | exact Or.inl (by assumption) | with_reducible assumption | with_reducible exact keptO2_get (by with_reducible assumption) | (with_reducible refine kept2_eq (by with_reducible assumption) ?_) | (with_reducible refine keptO_eq (by with_reducible assumption) ?_) | with_reducible apply State.bump_kept | with_reducible apply State.closeLog_kept | with_reducible apply State.markWord_kept | with_reducible apply State.onlyIf_kept | with_reducible apply State.retire_kept | with_reducible apply State.rewriteWords_kept)

theorem execControlStorePatrol_kept {a0 a1 a2 a3 a4 a5} (hregs : m.regs) (hfd : m.fd) (h : Kept m z s) : KeptX m z
    (execControlStorePatrol a0 a1 a2 a3 a4 a5 s) := by
  unfold execControlStorePatrol
  repeat' first
    | with_reducible assumption
    | intro _
    | subst x
    | (extract_lets +onlyGivenNames x; have hx : Kept m z x := ?_; clear_value x)
    | (extract_lets +onlyGivenNames x; have hx : Kept2 m z x := ?_; clear_value x)
    | (extract_lets +onlyGivenNames x; have hx : KeptO m z x := ?_; clear_value x)
    | (extract_lets +onlyGivenNames x; clear_value x)
    | (extract_lets +onlyGivenNames w; revert w; intro w0)
    | with_reducible apply kept_ite
    | with_reducible apply State.flipWord_kept
    | with_reducible apply State.mcLogEntry_kept
    | with_reducible apply State.onlyIf_kept
    | with_reducible apply State.wr_kept
    | with_reducible apply keptX_ok
    | with_reducible apply kept2_mk
    | with_reducible apply keptO_some
    | with_reducible apply keptO_none
    | with_reducible exact keptO2_get (by with_reducible assumption)
    | (with_reducible refine kept2_eq (by with_reducible assumption) ?_)
    | (with_reducible apply kept2_proj; first | with_reducible assumption | with_reducible apply kept2_foldl)
    | (with_reducible refine keptO_eq (by with_reducible assumption) ?_)
    | with_reducible apply kept_foldl
    | split
    | dsimp -zeta only
    | (with_reducible refine kept_mk rfl ?_ rfl rfl rfl rfl ?_ ?_ ?_ ?_ ?_ ?_ ?_ ?_ ?_ ?_ ?_ ?_ ?_ ?_ ?_ ?_ ?_ ?_ ?_ <;> first | with_reducible exact Or.inr rfl | exact Or.inl (by assumption) | with_reducible assumption | with_reducible exact keptO2_get (by with_reducible assumption) | (with_reducible refine kept2_eq (by with_reducible assumption) ?_) | (with_reducible refine keptO_eq (by with_reducible assumption) ?_) | with_reducible apply State.flipWord_kept | with_reducible apply State.mcLogEntry_kept | with_reducible apply State.onlyIf_kept | with_reducible apply State.wr_kept)

theorem State.startReload_kept {a1} (hregs : m.regs) (h : Kept m z s) : Kept m z (State.startReload s a1) := by
  unfold State.startReload
  repeat' first
    | with_reducible assumption
    | intro _
    | with_reducible apply State.wrBit_kept

theorem execPipelineDrainDone_kept {a0} (hregs : m.regs) (hout : m.out) (hhost : m.host) (h : Kept m z s) : KeptX m z
    (execPipelineDrainDone a0 s) := by
  unfold execPipelineDrainDone
  repeat' first
    | with_reducible assumption
    | intro _
    | subst x
    | (extract_lets +onlyGivenNames x; have hx : Kept m z x := ?_; clear_value x)
    | (extract_lets +onlyGivenNames x; clear_value x)
    | (extract_lets +onlyGivenNames w; revert w; intro w0)
    | with_reducible apply kept_ite
    | with_reducible apply State.event_kept
    | with_reducible apply State.lcEndDrain_kept
    | with_reducible apply State.onlyIf_kept
    | with_reducible apply State.startReload_kept
    | with_reducible apply keptX_ok
    | split
    | dsimp -zeta only

theorem execLaneReturnComplete_kept {a0} (hfd : m.fd) (h : Kept m z s) : KeptX m z (execLaneReturnComplete a0 s) := by
  unfold execLaneReturnComplete
  repeat' first
    | with_reducible assumption
    | intro _
    | subst x
    | (extract_lets +onlyGivenNames x; have hx : Kept m z x := ?_; clear_value x)
    | (extract_lets +onlyGivenNames x; have hx : Kept2 m z x := ?_; clear_value x)
    | (extract_lets +onlyGivenNames x; have hx : KeptO m z x := ?_; clear_value x)
    | (extract_lets +onlyGivenNames x; clear_value x)
    | (extract_lets +onlyGivenNames w; revert w; intro w0)
    | with_reducible apply kept_ite
    | with_reducible apply keptX_ok
    | with_reducible apply kept2_mk
    | with_reducible apply keptO_some
    | with_reducible apply keptO_none
    | with_reducible exact keptO2_get (by with_reducible assumption)
    | (with_reducible refine kept2_eq (by with_reducible assumption) ?_)
    | (with_reducible apply kept2_proj; first | with_reducible assumption | with_reducible apply kept2_foldl)
    | (with_reducible refine keptO_eq (by with_reducible assumption) ?_)
    | with_reducible apply kept_foldl
    | split
    | dsimp -zeta only
    | (with_reducible refine kept_mk rfl ?_ rfl rfl rfl rfl ?_ ?_ ?_ ?_ ?_ ?_ ?_ ?_ ?_ ?_ ?_ ?_ ?_ ?_ ?_ ?_ ?_ ?_ ?_ <;> first | with_reducible exact Or.inr rfl | exact Or.inl (by assumption) | with_reducible assumption | with_reducible exact keptO2_get (by with_reducible assumption) | (with_reducible refine kept2_eq (by with_reducible assumption) ?_) | (with_reducible refine keptO_eq (by with_reducible assumption) ?_))

theorem execPipelineEnable_kept {a0 a1 a2} (hregs : m.regs) (hout : m.out) (hhost : m.host) (h : Kept m z s) : KeptX m
    z (execPipelineEnable a0 a1 a2 s) := by
  unfold execPipelineEnable
  repeat' first
    | with_reducible assumption
    | intro _
    | with_reducible apply kept_ite
    | with_reducible apply State.hostWrite_kept
    | with_reducible apply State.lcWrite_kept
    | with_reducible apply State.startReload_kept
    | with_reducible apply keptX_ok
    | split

theorem execPipelineDisable_kept {a0 a1 a2} (hregs : m.regs) (hout : m.out) (hhost : m.host) (h : Kept m z s) : KeptX m
    z (execPipelineDisable a0 a1 a2 s) := by
  unfold execPipelineDisable
  repeat' first
    | with_reducible assumption
    | intro _
    | with_reducible apply kept_ite
    | with_reducible apply State.hostWrite_kept
    | with_reducible apply State.lateErr_kept
    | with_reducible apply State.lcWrite_kept
    | with_reducible apply State.moveLanes_kept
    | with_reducible apply State.startReload_kept
    | with_reducible apply keptX_ok
    | split

theorem execPipelineReloadDone_kept {a0} (hregs : m.regs) (hout : m.out) (hhost : m.host) (hfd : m.fd) (h : Kept m z s)
    : KeptX m z (execPipelineReloadDone a0 s) := by
  unfold execPipelineReloadDone
  repeat' first
    | with_reducible assumption
    | intro _
    | subst x
    | (extract_lets +onlyGivenNames x; have hx : Kept m z x := ?_; clear_value x)
    | (extract_lets +onlyGivenNames x; have hx : Kept2 m z x := ?_; clear_value x)
    | (extract_lets +onlyGivenNames x; have hx : KeptO m z x := ?_; clear_value x)
    | (extract_lets +onlyGivenNames x; clear_value x)
    | (extract_lets +onlyGivenNames w; revert w; intro w0)
    | with_reducible apply kept_ite
    | with_reducible apply State.rewriteWords_kept
    | with_reducible apply State.setLc_kept
    | with_reducible apply State.wr_kept
    | with_reducible apply keptX_ok
    | with_reducible apply kept2_mk
    | with_reducible apply keptO_some
    | with_reducible apply keptO_none
    | with_reducible exact keptO2_get (by with_reducible assumption)
    | (with_reducible refine kept2_eq (by with_reducible assumption) ?_)
    | (with_reducible apply kept2_proj; first | with_reducible assumption | with_reducible apply kept2_foldl)
    | (with_reducible refine keptO_eq (by with_reducible assumption) ?_)
    | with_reducible apply kept_foldl
    | split
    | dsimp -zeta only

end Sys2Proof.Machine
end

