-- ==== Sys2Proof/Laws/KeptSections.lean ====
section
/-!
SUPPORT. Laws/KeptSections.lean: what the operations of Machine/Sections.lean keep (Laws/Kept.lean).
-/

namespace Sys2Proof.Machine

set_option linter.all false

variable {m : Mask} {z s : State}

theorem State.captureSamples_kept {a1} (hcnt : m.cnt) (h : Kept m z s) : Kept m z (State.captureSamples s a1) := by
  unfold State.captureSamples
  repeat' first
    | with_reducible assumption
    | intro _
    | subst x
    | (extract_lets +onlyGivenNames x; have hx : Kept m z x := ?_; clear_value x)
    | (extract_lets +onlyGivenNames x; have hx : Kept2 m z x := ?_; clear_value x)
    | (extract_lets +onlyGivenNames x; have hx : KeptO m z x := ?_; clear_value x)
    | (extract_lets +onlyGivenNames x; clear_value x)
    | (extract_lets +onlyGivenNames w; revert w; intro w0)
    | with_reducible apply kept_ite
    | with_reducible apply State.each_kept
    | with_reducible apply State.free_kept
    | with_reducible apply kept2_mk
    | with_reducible apply keptO_some
    | with_reducible apply keptO_none
    | with_reducible exact keptO2_get (by with_reducible assumption)
    | (with_reducible refine kept2_eq (by with_reducible assumption) ?_)
    | (with_reducible apply kept2_proj; first | with_reducible assumption | with_reducible apply kept2_foldl | with_reducible apply State.free_kept)
    | (with_reducible refine keptO_eq (by with_reducible assumption) ?_)
    | with_reducible apply kept_foldl
    | split
    | dsimp -zeta only
    | (with_reducible refine kept_mk rfl ?_ rfl rfl rfl rfl ?_ ?_ ?_ ?_ ?_ ?_ ?_ ?_ ?_ ?_ ?_ ?_ ?_ ?_ ?_ ?_ ?_ ?_ ?_ <;> first | with_reducible exact Or.inr rfl | exact Or.inl (by assumption) | with_reducible assumption | with_reducible exact keptO2_get (by with_reducible assumption) | (with_reducible refine kept2_eq (by with_reducible assumption) ?_) | (with_reducible refine keptO_eq (by with_reducible assumption) ?_) | with_reducible apply State.each_kept | with_reducible apply State.free_kept)

theorem State.finishIngress_kept {a1 a2} (hregs : m.regs) (hout : m.out) (htab : m.tab) (htxf : m.txf) (hfd : m.fd)
    (hcnt : m.cnt) (hbrg : m.brg) (hlif : m.lif) (h : Kept m z s) : Kept m z (State.finishIngress s a1 a2) := by
  unfold State.finishIngress
  repeat' first
    | with_reducible assumption
    | intro _
    | subst x
    | (extract_lets +onlyGivenNames x; have hx : Kept m z x := ?_; clear_value x)
    | (extract_lets +onlyGivenNames x; have hx : Kept2 m z x := ?_; clear_value x)
    | (extract_lets +onlyGivenNames x; have hx : KeptO m z x := ?_; clear_value x)
    | (extract_lets +onlyGivenNames x; clear_value x)
    | (extract_lets +onlyGivenNames w; revert w; intro w0)
    | with_reducible apply kept_ite
    | with_reducible apply State.delPkt_kept
    | with_reducible apply State.dropPkt_kept
    | with_reducible apply State.endTxn_kept
    | with_reducible apply State.setPkt_kept
    | with_reducible apply kept2_mk
    | with_reducible apply keptO_some
    | with_reducible apply keptO_none
    | with_reducible exact keptO2_get (by with_reducible assumption)
    | (with_reducible refine kept2_eq (by with_reducible assumption) ?_)
    | (with_reducible apply kept2_proj; first | with_reducible assumption | with_reducible apply kept2_foldl)
    | (with_reducible refine keptO_eq (by with_reducible assumption) ?_)
    | with_reducible apply kept_foldl
    | split
    | dsimp -zeta only
    | (with_reducible refine kept_mk rfl ?_ rfl rfl rfl rfl ?_ ?_ ?_ ?_ ?_ ?_ ?_ ?_ ?_ ?_ ?_ ?_ ?_ ?_ ?_ ?_ ?_ ?_ ?_ <;> first | with_reducible exact Or.inr rfl | exact Or.inl (by assumption) | with_reducible assumption | with_reducible exact keptO2_get (by with_reducible assumption) | (with_reducible refine kept2_eq (by with_reducible assumption) ?_) | (with_reducible refine keptO_eq (by with_reducible assumption) ?_) | with_reducible apply State.delPkt_kept | with_reducible apply State.dropPkt_kept | with_reducible apply State.endTxn_kept | with_reducible apply State.setPkt_kept)

theorem State.lateFcs_kept {a1} (hregs : m.regs) (hout : m.out) (htab : m.tab) (htxf : m.txf) (hfd : m.fd) (hcnt :
    m.cnt) (hbrg : m.brg) (hlif : m.lif) (h : Kept m z s) : Kept m z (State.lateFcs s a1) := by
  unfold State.lateFcs
  repeat' first
    | with_reducible assumption
    | intro _
    | with_reducible apply State.bump_kept
    | with_reducible apply State.endPkt_kept
    | with_reducible apply State.endTxn_kept

theorem State.leaveDropped_kept {a1 a2} (hregs : m.regs) (hout : m.out) (htab : m.tab) (htxf : m.txf) (hfd : m.fd)
    (hcnt : m.cnt) (hbrg : m.brg) (hlif : m.lif) (h : Kept m z s) : Kept m z (State.leaveDropped s a1 a2) := by
  unfold State.leaveDropped
  repeat' first
    | with_reducible assumption
    | intro _
    | subst x
    | (extract_lets +onlyGivenNames x; have hx : Kept m z x := ?_; clear_value x)
    | (extract_lets +onlyGivenNames x; clear_value x)
    | (extract_lets +onlyGivenNames w; revert w; intro w0)
    | with_reducible apply State.dropPkt_kept
    | with_reducible apply State.endTxn_kept
    | dsimp -zeta only

theorem execIngressSectionExit_kept {a0} (hregs : m.regs) (hout : m.out) (htab : m.tab) (htxf : m.txf) (hfd : m.fd)
    (hcnt : m.cnt) (hbrg : m.brg) (hlif : m.lif) (h : Kept m z s) : KeptX m z (execIngressSectionExit a0 s) := by
  unfold execIngressSectionExit
  repeat' first
    | with_reducible assumption
    | intro _
    | subst x
    | (extract_lets +onlyGivenNames x; have hx : Kept m z x := ?_; clear_value x)
    | (extract_lets +onlyGivenNames x; clear_value x)
    | (extract_lets +onlyGivenNames w; revert w; intro w0)
    | with_reducible apply kept_ite
    | with_reducible apply State.captureSamples_kept
    | with_reducible apply State.finishIngress_kept
    | with_reducible apply State.lateFcs_kept
    | with_reducible apply State.leaveDropped_kept
    | with_reducible apply State.setPkt_kept
    | with_reducible apply State.withPkt_kept
    | with_reducible apply keptX_ok
    | split
    | dsimp -zeta only

theorem execEopStatusArrive_kept {a0 a1} (hregs : m.regs) (hout : m.out) (htab : m.tab) (htxf : m.txf) (hfd : m.fd)
    (hcnt : m.cnt) (hbrg : m.brg) (hlif : m.lif) (h : Kept m z s) : KeptX m z (execEopStatusArrive a0 a1 s) := by
  unfold execEopStatusArrive
  repeat' first
    | with_reducible assumption
    | intro _
    | subst x
    | (extract_lets +onlyGivenNames x; have hx : Kept m z x := ?_; clear_value x)
    | (extract_lets +onlyGivenNames x; clear_value x)
    | (extract_lets +onlyGivenNames w; revert w; intro w0)
    | with_reducible apply kept_ite
    | with_reducible apply State.finishIngress_kept
    | with_reducible apply State.lateFcs_kept
    | with_reducible apply State.leaveDropped_kept
    | with_reducible apply State.setPkt_kept
    | with_reducible apply State.withPkt_kept
    | with_reducible apply keptX_ok
    | split
    | dsimp -zeta only

theorem execVerdictReceive_kept {a0 a1} (hregs : m.regs) (htab : m.tab) (htxf : m.txf) (hfd : m.fd) (hcnt : m.cnt)
    (hbrg : m.brg) (h : Kept m z s) : KeptX m z (execVerdictReceive a0 a1 s) := by
  unfold execVerdictReceive
  repeat' first
    | with_reducible assumption
    | intro _
    | subst x
    | (extract_lets +onlyGivenNames x; have hx : Kept m z x := ?_; clear_value x)
    | (extract_lets +onlyGivenNames x; have hx : Kept2 m z x := ?_; clear_value x)
    | (extract_lets +onlyGivenNames x; have hx : KeptO m z x := ?_; clear_value x)
    | (extract_lets +onlyGivenNames x; clear_value x)
    | (extract_lets +onlyGivenNames w; revert w; intro w0)
    | with_reducible apply kept_ite
    | with_reducible apply State.bump_kept
    | with_reducible apply State.delPkt_kept
    | with_reducible apply State.endTxn_kept
    | with_reducible apply State.wr_kept
    | with_reducible apply keptX_ok
    | with_reducible apply kept2_mk
    | with_reducible apply keptO_some
    | with_reducible apply keptO_none
    | with_reducible exact keptO2_get (by with_reducible assumption)
    | (with_reducible refine kept2_eq (by with_reducible assumption) ?_)
    | (with_reducible apply kept2_proj; first | with_reducible assumption | with_reducible apply kept2_foldl)
    | (with_reducible refine keptO_eq (by with_reducible assumption) ?_)
    | with_reducible apply kept_foldl
    | split
    | dsimp -zeta only
    | (with_reducible refine kept_mk rfl ?_ rfl rfl rfl rfl ?_ ?_ ?_ ?_ ?_ ?_ ?_ ?_ ?_ ?_ ?_ ?_ ?_ ?_ ?_ ?_ ?_ ?_ ?_ <;> first | with_reducible exact Or.inr rfl | exact Or.inl (by assumption) | with_reducible assumption | with_reducible exact keptO2_get (by with_reducible assumption) | (with_reducible refine kept2_eq (by with_reducible assumption) ?_) | (with_reducible refine keptO_eq (by with_reducible assumption) ?_) | with_reducible apply State.bump_kept | with_reducible apply State.delPkt_kept | with_reducible apply State.endTxn_kept | with_reducible apply State.wr_kept)

theorem execEgressSectionExit_kept {a0} (hregs : m.regs) (hout : m.out) (htab : m.tab) (htxf : m.txf) (hfd : m.fd)
    (hcnt : m.cnt) (hbrg : m.brg) (hlif : m.lif) (h : Kept m z s) : KeptX m z (execEgressSectionExit a0 s) := by
  unfold execEgressSectionExit
  repeat' first
    | with_reducible assumption
    | intro _
    | subst x
    | (extract_lets +onlyGivenNames x; have hx : Kept m z x := ?_; clear_value x)
    | (extract_lets +onlyGivenNames x; have hx : KeptO m z x := ?_; clear_value x)
    | (extract_lets +onlyGivenNames x; clear_value x)
    | (extract_lets +onlyGivenNames w; revert w; intro w0)
    | with_reducible apply kept_ite
    | with_reducible apply State.captureSamples_kept
    | with_reducible apply State.endTxn_kept
    | with_reducible apply State.leaveDropped_kept
    | with_reducible apply State.setPkt_kept
    | with_reducible apply State.withPkt_kept
    | with_reducible apply keptX_ok
    | split
    | dsimp -zeta only

theorem State.dropMsg_kept {a1} (htxf : m.txf) (h : Kept m z s) : Kept m z (State.dropMsg s a1) := by
  unfold State.dropMsg
  repeat' first
    | with_reducible assumption
    | intro _
    | subst x
    | (extract_lets +onlyGivenNames x; have hx : Kept m z x := ?_; clear_value x)
    | (extract_lets +onlyGivenNames x; have hx : Kept2 m z x := ?_; clear_value x)
    | (extract_lets +onlyGivenNames x; have hx : KeptO m z x := ?_; clear_value x)
    | (extract_lets +onlyGivenNames x; clear_value x)
    | (extract_lets +onlyGivenNames w; revert w; intro w0)
    | with_reducible apply kept_ite
    | with_reducible apply kept2_mk
    | with_reducible apply keptO_some
    | with_reducible apply keptO_none
    | with_reducible exact keptO2_get (by with_reducible assumption)
    | (with_reducible refine kept2_eq (by with_reducible assumption) ?_)
    | (with_reducible apply kept2_proj; first | with_reducible assumption | with_reducible apply kept2_foldl)
    | (with_reducible refine keptO_eq (by with_reducible assumption) ?_)
    | with_reducible apply kept_foldl
    | split
    | dsimp -zeta only
    | (with_reducible refine kept_mk rfl ?_ rfl rfl rfl rfl ?_ ?_ ?_ ?_ ?_ ?_ ?_ ?_ ?_ ?_ ?_ ?_ ?_ ?_ ?_ ?_ ?_ ?_ ?_ <;> first | with_reducible exact Or.inr rfl | exact Or.inl (by assumption) | with_reducible assumption | with_reducible exact keptO2_get (by with_reducible assumption) | (with_reducible refine kept2_eq (by with_reducible assumption) ?_) | (with_reducible refine keptO_eq (by with_reducible assumption) ?_))

theorem State.returnResult_kept {a1 a2} (hfd : m.fd) (h : Kept m z s) : Kept m z (State.returnResult s a1 a2) := by
  unfold State.returnResult
  repeat' first
    | with_reducible assumption
    | intro _
    | subst x
    | (extract_lets +onlyGivenNames x; have hx : Kept m z x := ?_; clear_value x)
    | (extract_lets +onlyGivenNames x; have hx : Kept2 m z x := ?_; clear_value x)
    | (extract_lets +onlyGivenNames x; clear_value x)
    | (extract_lets +onlyGivenNames w; revert w; intro w0)
    | with_reducible apply kept_ite
    | with_reducible apply State.setPkt_kept
    | with_reducible apply State.withPkt_kept
    | with_reducible apply kept2_mk
    | (with_reducible refine kept2_eq (by with_reducible assumption) ?_)
    | (with_reducible apply kept2_proj; first | with_reducible assumption | with_reducible apply kept2_foldl)
    | split
    | dsimp -zeta only

theorem State.failPkt_kept {a1 a2} (hfd : m.fd) (h : Kept m z s) : Kept m z (State.failPkt s a1 a2) := by
  unfold State.failPkt
  repeat' first
    | with_reducible assumption
    | intro _
    | with_reducible apply State.setPkt_kept
    | with_reducible apply State.withPkt_kept

theorem State.poisonedEntry_kept {a1} (hregs : m.regs) (htxf : m.txf) (hfd : m.fd) (h : Kept m z s) : Kept m z
    (State.poisonedEntry s a1) := by
  unfold State.poisonedEntry
  repeat' first
    | with_reducible assumption
    | intro _
    | subst x
    | (extract_lets +onlyGivenNames x; have hx : Kept m z x := ?_; clear_value x)
    | (extract_lets +onlyGivenNames x; have hx : Kept2 m z x := ?_; clear_value x)
    | (extract_lets +onlyGivenNames x; have hx : KeptO m z x := ?_; clear_value x)
    | (extract_lets +onlyGivenNames x; clear_value x)
    | (extract_lets +onlyGivenNames w; revert w; intro w0)
    | with_reducible apply kept_ite
    | with_reducible apply State.bump_kept
    | with_reducible apply State.dropMsg_kept
    | with_reducible apply State.failPkt_kept
    | with_reducible apply State.onlyIf_kept
    | with_reducible apply kept2_mk
    | with_reducible apply keptO_some
    | with_reducible apply keptO_none
    | with_reducible exact keptO2_get (by with_reducible assumption)
    | (with_reducible refine kept2_eq (by with_reducible assumption) ?_)
    | (with_reducible apply kept2_proj; first | with_reducible assumption | with_reducible apply kept2_foldl)
    | (with_reducible refine keptO_eq (by with_reducible assumption) ?_)
    | with_reducible apply kept_foldl
    | split
    | dsimp -zeta only
    | (with_reducible refine kept_mk rfl ?_ rfl rfl rfl rfl ?_ ?_ ?_ ?_ ?_ ?_ ?_ ?_ ?_ ?_ ?_ ?_ ?_ ?_ ?_ ?_ ?_ ?_ ?_ <;> first | with_reducible exact Or.inr rfl | exact Or.inl (by assumption) | with_reducible assumption | with_reducible exact keptO2_get (by with_reducible assumption) | (with_reducible refine kept2_eq (by with_reducible assumption) ?_) | (with_reducible refine keptO_eq (by with_reducible assumption) ?_) | with_reducible apply State.bump_kept | with_reducible apply State.dropMsg_kept | with_reducible apply State.failPkt_kept | with_reducible apply State.onlyIf_kept)

theorem State.runMsg_kept {a1 a2} (hregs : m.regs) (htxf : m.txf) (hfd : m.fd) (hcnt : m.cnt) (h : Kept m z s) : Kept m
    z (State.runMsg s a1 a2) := by
  unfold State.runMsg
  repeat' first
    | with_reducible assumption
    | intro _
    | subst x
    | (extract_lets +onlyGivenNames x; have hx : Kept m z x := ?_; clear_value x)
    | (extract_lets +onlyGivenNames x; have hx : Kept1 m z x := ?_; clear_value x)
    | (extract_lets +onlyGivenNames x; have hx : Kept2 m z x := ?_; clear_value x)
    | (extract_lets +onlyGivenNames x; clear_value x)
    | (extract_lets +onlyGivenNames w; revert w; intro w0)
    | with_reducible apply kept_ite
    | with_reducible apply State.dropMsg_kept
    | with_reducible apply State.execute_kept
    | with_reducible apply State.poisonedEntry_kept
    | with_reducible apply State.returnResult_kept
    | (with_reducible refine kept1_eq (by with_reducible assumption) ?_)
    | (with_reducible apply kept1_proj; first | with_reducible assumption | with_reducible apply State.execute_kept)
    | (with_reducible refine kept2_eq (by with_reducible assumption) ?_)
    | (with_reducible apply kept2_proj; first | with_reducible assumption | with_reducible apply kept2_foldl)
    | split
    | dsimp -zeta only

theorem execIntentExecute_kept {a0 a1 a2 a3} (hregs : m.regs) (htxf : m.txf) (hfd : m.fd) (hcnt : m.cnt) (h : Kept m z
    s) : KeptX m z (execIntentExecute a0 a1 a2 a3 s) := by
  unfold execIntentExecute
  repeat' first
    | with_reducible assumption
    | intro _
    | subst x
    | (extract_lets +onlyGivenNames x; have hx : Kept m z x := ?_; clear_value x)
    | (extract_lets +onlyGivenNames x; have hx : Kept2 m z x := ?_; clear_value x)
    | (extract_lets +onlyGivenNames x; have hx : KeptO m z x := ?_; clear_value x)
    | (extract_lets +onlyGivenNames x; clear_value x)
    | (extract_lets +onlyGivenNames w; revert w; intro w0)
    | with_reducible apply kept_ite
    | with_reducible apply State.bump_kept
    | with_reducible apply State.runMsg_kept
    | with_reducible apply keptX_ok
    | with_reducible apply kept2_mk
    | with_reducible apply keptO_some
    | with_reducible apply keptO_none
    | with_reducible exact keptO2_get (by with_reducible assumption)
    | (with_reducible refine kept2_eq (by with_reducible assumption) ?_)
    | (with_reducible apply kept2_proj; first | with_reducible assumption | with_reducible apply kept2_foldl)
    | (with_reducible refine keptO_eq (by with_reducible assumption) ?_)
    | with_reducible apply kept_foldl
    | split
    | dsimp -zeta only
    | (with_reducible refine kept_mk rfl ?_ rfl rfl rfl rfl ?_ ?_ ?_ ?_ ?_ ?_ ?_ ?_ ?_ ?_ ?_ ?_ ?_ ?_ ?_ ?_ ?_ ?_ ?_ <;> first | with_reducible exact Or.inr rfl | exact Or.inl (by assumption) | with_reducible assumption | with_reducible exact keptO2_get (by with_reducible assumption) | (with_reducible refine kept2_eq (by with_reducible assumption) ?_) | (with_reducible refine keptO_eq (by with_reducible assumption) ?_) | with_reducible apply State.bump_kept | with_reducible apply State.runMsg_kept)

theorem execChainWaitTimeout_kept {a0 a1 a2} (hregs : m.regs) (htxf : m.txf) (hfd : m.fd) (h : Kept m z s) : KeptX m z
    (execChainWaitTimeout a0 a1 a2 s) := by
  unfold execChainWaitTimeout
  repeat' first
    | with_reducible assumption
    | intro _
    | subst x
    | (extract_lets +onlyGivenNames x; have hx : Kept m z x := ?_; clear_value x)
    | (extract_lets +onlyGivenNames x; clear_value x)
    | (extract_lets +onlyGivenNames w; revert w; intro w0)
    | with_reducible apply kept_ite
    | with_reducible apply State.bump_kept
    | with_reducible apply State.dropMsg_kept
    | with_reducible apply State.failPkt_kept
    | with_reducible apply State.onlyIf_kept
    | with_reducible apply keptX_ok
    | split
    | dsimp -zeta only

theorem execChainRoomResume_kept {a0 a1 a2} (hregs : m.regs) (htxf : m.txf) (hfd : m.fd) (hcnt : m.cnt) (h : Kept m z
    s) : KeptX m z (execChainRoomResume a0 a1 a2 s) := by
  unfold execChainRoomResume
  repeat' first
    | with_reducible assumption
    | intro _
    | with_reducible apply kept_ite
    | with_reducible apply State.runMsg_kept
    | with_reducible apply keptX_ok
    | split

theorem execIntentSettle_kept {a0 a1 a2} (htxf : m.txf) (h : Kept m z s) : KeptX m z (execIntentSettle a0 a1 a2 s) :=
    by
  unfold execIntentSettle
  repeat' first
    | with_reducible assumption
    | intro _
    | subst x
    | (extract_lets +onlyGivenNames x; have hx : Kept m z x := ?_; clear_value x)
    | (extract_lets +onlyGivenNames x; have hx : Kept2 m z x := ?_; clear_value x)
    | (extract_lets +onlyGivenNames x; have hx : KeptO m z x := ?_; clear_value x)
    | (extract_lets +onlyGivenNames x; clear_value x)
    | (extract_lets +onlyGivenNames w; revert w; intro w0)
    | with_reducible apply kept_ite
    | with_reducible apply keptX_ok
    | with_reducible apply kept2_mk
    | with_reducible apply keptO_some
    | with_reducible apply keptO_none
    | with_reducible exact keptO2_get (by with_reducible assumption)
    | (with_reducible refine kept2_eq (by with_reducible assumption) ?_)
    | (with_reducible apply kept2_proj; first | with_reducible assumption | with_reducible apply kept2_foldl)
    | (with_reducible refine keptO_eq (by with_reducible assumption) ?_)
    | with_reducible apply kept_foldl
    | split
    | dsimp -zeta only
    | (with_reducible refine kept_mk rfl ?_ rfl rfl rfl rfl ?_ ?_ ?_ ?_ ?_ ?_ ?_ ?_ ?_ ?_ ?_ ?_ ?_ ?_ ?_ ?_ ?_ ?_ ?_ <;> first | with_reducible exact Or.inr rfl | exact Or.inl (by assumption) | with_reducible assumption | with_reducible exact keptO2_get (by with_reducible assumption) | (with_reducible refine kept2_eq (by with_reducible assumption) ?_) | (with_reducible refine keptO_eq (by with_reducible assumption) ?_))

end Sys2Proof.Machine
end

