-- ==== Sys2Proof/Laws/KeptLine.lean ====
section
/-!
SUPPORT. Laws/KeptLine.lean: what the operations of Machine/Line.lean keep (Laws/Kept.lean).
-/

namespace Sys2Proof.Machine

set_option linter.all false

variable {m : Mask} {z s : State}

theorem State.setPause_kept {a1 a2 a3} (hregs : m.regs) (hlif : m.lif) (h : Kept m z s) : Kept m z (State.setPause s a1
    a2 a3) := by
  unfold State.setPause
  repeat' first
    | with_reducible assumption
    | intro _
    | subst x
    | (extract_lets +onlyGivenNames x; have hx : Kept m z x := ?_; clear_value x)
    | (extract_lets +onlyGivenNames x; have hx : Kept2 m z x := ?_; clear_value x)
    | (extract_lets +onlyGivenNames x; have hx : KeptO m z x := ?_; clear_value x)
    | (extract_lets +onlyGivenNames x; clear_value x)
    | (extract_lets +onlyGivenNames w; revert w; intro w0)
    | with_reducible apply kept_ite
    | with_reducible apply State.wr_kept
    | with_reducible apply kept2_mk
    | with_reducible apply keptO_some
    | with_reducible apply keptO_none
    | with_reducible exact keptO2_get (by with_reducible assumption)
    | (with_reducible refine kept2_eq (by with_reducible assumption) ?_)
    | (with_reducible apply kept2_proj; first | with_reducible assumption | with_reducible apply kept2_foldl)
    | (with_reducible refine keptO_eq (by with_reducible assumption) ?_)
    | with_reducible apply kept_foldl
    | split
    | dsimp -zeta only
    | (with_reducible refine kept_mk rfl ?_ rfl rfl rfl rfl ?_ ?_ ?_ ?_ ?_ ?_ ?_ ?_ ?_ ?_ ?_ ?_ ?_ ?_ ?_ ?_ ?_ ?_ ?_ <;> first | with_reducible exact Or.inr rfl | exact Or.inl (by assumption) | with_reducible assumption | with_reducible exact keptO2_get (by with_reducible assumption) | (with_reducible refine kept2_eq (by with_reducible assumption) ?_) | (with_reducible refine keptO_eq (by with_reducible assumption) ?_) | with_reducible apply State.wr_kept)

theorem State.takeQuanta_kept {a1 a2 a3} (hregs : m.regs) (hlif : m.lif) (h : Kept m z s) : Kept m z (State.takeQuanta
    s a1 a2 a3) := by
  unfold State.takeQuanta
  repeat' first
    | with_reducible assumption
    | intro _
    | with_reducible apply kept_ite
    | with_reducible apply State.setPause_kept
    | split

theorem State.macControl_kept {a1 a2} (hregs : m.regs) (hlif : m.lif) (h : Kept m z s) : Kept m z (State.macControl s
    a1 a2) := by
  unfold State.macControl
  repeat' first
    | with_reducible assumption
    | intro _
    | subst x
    | (extract_lets +onlyGivenNames x; have hx : Kept m z x := ?_; clear_value x)
    | (extract_lets +onlyGivenNames x; clear_value x)
    | (extract_lets +onlyGivenNames w; revert w; intro w0)
    | with_reducible apply kept_ite
    | with_reducible apply State.bump_kept
    | with_reducible apply State.each_kept
    | with_reducible apply State.takeQuanta_kept
    | split
    | dsimp -zeta only

theorem execPfcFrameReceive_kept {a0 a1} (hregs : m.regs) (hlif : m.lif) (h : Kept m z s) : KeptX m z
    (execPfcFrameReceive a0 a1 s) := by
  unfold execPfcFrameReceive
  repeat' first
    | with_reducible assumption
    | intro _
    | with_reducible apply kept_ite
    | with_reducible apply State.macControl_kept
    | with_reducible apply keptX_ok
    | split

theorem execPfcPauseExpire_kept {a0 a1} (hregs : m.regs) (hlif : m.lif) (h : Kept m z s) : KeptX m z
    (execPfcPauseExpire a0 a1 s) := by
  unfold execPfcPauseExpire
  repeat' first
    | with_reducible assumption
    | intro _
    | with_reducible apply kept_ite
    | with_reducible apply State.setPause_kept
    | with_reducible apply keptX_ok
    | split

theorem State.pfcXoff_kept {a1 a2} (hregs : m.regs) (hout : m.out) (hlif : m.lif) (h : Kept m z s) : Kept m z
    (State.pfcXoff s a1 a2) := by
  unfold State.pfcXoff
  repeat' first
    | with_reducible assumption
    | intro _
    | subst x
    | (extract_lets +onlyGivenNames x; have hx : Kept m z x := ?_; clear_value x)
    | (extract_lets +onlyGivenNames x; have hx : Kept2 m z x := ?_; clear_value x)
    | (extract_lets +onlyGivenNames x; have hx : KeptO m z x := ?_; clear_value x)
    | (extract_lets +onlyGivenNames x; clear_value x)
    | (extract_lets +onlyGivenNames w; revert w; intro w0)
    | with_reducible apply kept_ite
    | with_reducible apply State.bump_kept
    | with_reducible apply State.emit_kept
    | with_reducible apply State.wr_kept
    | with_reducible apply kept2_mk
    | with_reducible apply keptO_some
    | with_reducible apply keptO_none
    | with_reducible exact keptO2_get (by with_reducible assumption)
    | (with_reducible refine kept2_eq (by with_reducible assumption) ?_)
    | (with_reducible apply kept2_proj; first | with_reducible assumption | with_reducible apply kept2_foldl)
    | (with_reducible refine keptO_eq (by with_reducible assumption) ?_)
    | with_reducible apply kept_foldl
    | split
    | dsimp -zeta only
    | (with_reducible refine kept_mk rfl ?_ rfl rfl rfl rfl ?_ ?_ ?_ ?_ ?_ ?_ ?_ ?_ ?_ ?_ ?_ ?_ ?_ ?_ ?_ ?_ ?_ ?_ ?_ <;> first | with_reducible exact Or.inr rfl | exact Or.inl (by assumption) | with_reducible assumption | with_reducible exact keptO2_get (by with_reducible assumption) | (with_reducible refine kept2_eq (by with_reducible assumption) ?_) | (with_reducible refine keptO_eq (by with_reducible assumption) ?_) | with_reducible apply State.bump_kept | with_reducible apply State.emit_kept | with_reducible apply State.wr_kept)

theorem execPfcXoffRepeat_kept {a0 a1} (hregs : m.regs) (hout : m.out) (hlif : m.lif) (h : Kept m z s) : KeptX m z
    (execPfcXoffRepeat a0 a1 s) := by
  unfold execPfcXoffRepeat
  repeat' first
    | with_reducible assumption
    | intro _
    | with_reducible apply kept_ite
    | with_reducible apply State.pfcXoff_kept
    | with_reducible apply keptX_ok
    | split

theorem State.charge407_kept {a1 a2 a3} (hregs : m.regs) (hout : m.out) (hlif : m.lif) (h : Kept m z s) : Kept m z
    (State.charge407 s a1 a2 a3) := by
  unfold State.charge407
  repeat' first
    | with_reducible assumption
    | intro _
    | subst x
    | (extract_lets +onlyGivenNames x; have hx : Kept m z x := ?_; clear_value x)
    | (extract_lets +onlyGivenNames x; have hx : Kept2 m z x := ?_; clear_value x)
    | (extract_lets +onlyGivenNames x; have hx : KeptO m z x := ?_; clear_value x)
    | (extract_lets +onlyGivenNames x; clear_value x)
    | (extract_lets +onlyGivenNames w; revert w; intro w0)
    | with_reducible apply kept_ite
    | with_reducible apply State.pfcXoff_kept
    | with_reducible apply kept2_mk
    | with_reducible apply keptO_some
    | with_reducible apply keptO_none
    | with_reducible exact keptO2_get (by with_reducible assumption)
    | (with_reducible refine kept2_eq (by with_reducible assumption) ?_)
    | (with_reducible apply kept2_proj; first | with_reducible assumption | with_reducible apply kept2_foldl)
    | (with_reducible refine keptO_eq (by with_reducible assumption) ?_)
    | with_reducible apply kept_foldl
    | split
    | dsimp -zeta only
    | (with_reducible refine kept_mk rfl ?_ rfl rfl rfl rfl ?_ ?_ ?_ ?_ ?_ ?_ ?_ ?_ ?_ ?_ ?_ ?_ ?_ ?_ ?_ ?_ ?_ ?_ ?_ <;> first | with_reducible exact Or.inr rfl | exact Or.inl (by assumption) | with_reducible assumption | with_reducible exact keptO2_get (by with_reducible assumption) | (with_reducible refine kept2_eq (by with_reducible assumption) ?_) | (with_reducible refine keptO_eq (by with_reducible assumption) ?_) | with_reducible apply State.pfcXoff_kept)

theorem State.touch_kept {a1} (hlif : m.lif) (h : Kept m z s) : Kept m z (State.touch s a1) := by
  unfold State.touch
  repeat' first
    | with_reducible assumption
    | intro _
    | subst x
    | (extract_lets +onlyGivenNames x; have hx : Kept m z x := ?_; clear_value x)
    | (extract_lets +onlyGivenNames x; have hx : Kept2 m z x := ?_; clear_value x)
    | (extract_lets +onlyGivenNames x; have hx : KeptO m z x := ?_; clear_value x)
    | (extract_lets +onlyGivenNames x; clear_value x)
    | (extract_lets +onlyGivenNames w; revert w; intro w0)
    | with_reducible apply kept_ite
    | with_reducible apply kept2_mk
    | with_reducible apply keptO_some
    | with_reducible apply keptO_none
    | with_reducible exact keptO2_get (by with_reducible assumption)
    | (with_reducible refine kept2_eq (by with_reducible assumption) ?_)
    | (with_reducible apply kept2_proj; first | with_reducible assumption | with_reducible apply kept2_foldl)
    | (with_reducible refine keptO_eq (by with_reducible assumption) ?_)
    | with_reducible apply kept_foldl
    | split
    | dsimp -zeta only
    | (with_reducible refine kept_mk rfl ?_ rfl rfl rfl rfl ?_ ?_ ?_ ?_ ?_ ?_ ?_ ?_ ?_ ?_ ?_ ?_ ?_ ?_ ?_ ?_ ?_ ?_ ?_ <;> first | with_reducible exact Or.inr rfl | exact Or.inl (by assumption) | with_reducible assumption | with_reducible exact keptO2_get (by with_reducible assumption) | (with_reducible refine kept2_eq (by with_reducible assumption) ?_) | (with_reducible refine keptO_eq (by with_reducible assumption) ?_))

theorem State.enterFifo_kept {a1 a2 a3 a4 a5 a6} (hregs : m.regs) (hout : m.out) (hfd : m.fd) (hlif : m.lif) (h : Kept
    m z s) : Kept m z (State.enterFifo s a1 a2 a3 a4 a5 a6) := by
  unfold State.enterFifo
  repeat' first
    | with_reducible assumption
    | intro _
    | subst x
    | (extract_lets +onlyGivenNames x; have hx : Kept m z x := ?_; clear_value x)
    | (extract_lets +onlyGivenNames x; have hx : Kept2 m z x := ?_; clear_value x)
    | (extract_lets +onlyGivenNames x; have hx : KeptO m z x := ?_; clear_value x)
    | (extract_lets +onlyGivenNames x; clear_value x)
    | (extract_lets +onlyGivenNames w; revert w; intro w0)
    | with_reducible apply kept_ite
    | with_reducible apply State.addPkt_kept
    | with_reducible apply State.bump_kept
    | with_reducible apply State.charge407_kept
    | with_reducible apply State.touch_kept
    | with_reducible apply kept2_mk
    | with_reducible apply keptO_some
    | with_reducible apply keptO_none
    | with_reducible exact keptO2_get (by with_reducible assumption)
    | (with_reducible refine kept2_eq (by with_reducible assumption) ?_)
    | (with_reducible apply kept2_proj; first | with_reducible assumption | with_reducible apply kept2_foldl)
    | (with_reducible refine keptO_eq (by with_reducible assumption) ?_)
    | with_reducible apply kept_foldl
    | split
    | dsimp -zeta only
    | (with_reducible refine kept_mk rfl ?_ rfl rfl rfl rfl ?_ ?_ ?_ ?_ ?_ ?_ ?_ ?_ ?_ ?_ ?_ ?_ ?_ ?_ ?_ ?_ ?_ ?_ ?_ <;> first | with_reducible exact Or.inr rfl | exact Or.inl (by assumption) | with_reducible assumption | with_reducible exact keptO2_get (by with_reducible assumption) | (with_reducible refine kept2_eq (by with_reducible assumption) ?_) | (with_reducible refine keptO_eq (by with_reducible assumption) ?_) | with_reducible apply State.addPkt_kept | with_reducible apply State.bump_kept | with_reducible apply State.charge407_kept | with_reducible apply State.touch_kept)

theorem State.receiveFrame_kept {a1 a2 a3 a4 a5} (hregs : m.regs) (hout : m.out) (hfd : m.fd) (hlif : m.lif) (h : Kept
    m z s) : Kept m z (State.receiveFrame s a1 a2 a3 a4 a5) := by
  unfold State.receiveFrame
  repeat' first
    | with_reducible assumption
    | intro _
    | subst x
    | (extract_lets +onlyGivenNames x; have hx : Kept m z x := ?_; clear_value x)
    | (extract_lets +onlyGivenNames x; clear_value x)
    | (extract_lets +onlyGivenNames w; revert w; intro w0)
    | with_reducible apply kept_ite
    | with_reducible apply State.bump_kept
    | with_reducible apply State.enterFifo_kept
    | with_reducible apply State.macControl_kept
    | with_reducible apply State.onlyIf_kept
    | split
    | dsimp -zeta only

theorem execFrameReceive_kept {a0 a1 a2 a3 a4 a5} (hregs : m.regs) (hout : m.out) (hfd : m.fd) (hlif : m.lif) (h : Kept
    m z s) : KeptX m z (execFrameReceive a0 a1 a2 a3 a4 a5 s) := by
  unfold execFrameReceive
  repeat' first
    | with_reducible assumption
    | intro _
    | subst x
    | (extract_lets +onlyGivenNames x; have hx : Kept m z x := ?_; clear_value x)
    | (extract_lets +onlyGivenNames x; clear_value x)
    | (extract_lets +onlyGivenNames w; revert w; intro w0)
    | with_reducible apply kept_ite
    | with_reducible apply State.bump_kept
    | with_reducible apply State.count_kept
    | with_reducible apply State.receiveFrame_kept
    | with_reducible apply keptX_ok
    | split
    | dsimp -zeta only

theorem State.startSlice_kept {a1} (hregs : m.regs) (hlif : m.lif) (h : Kept m z s) : Kept m z (State.startSlice s a1)
    := by
  unfold State.startSlice
  repeat' first
    | with_reducible assumption
    | intro _
    | subst x
    | (extract_lets +onlyGivenNames x; have hx : Kept m z x := ?_; clear_value x)
    | (extract_lets +onlyGivenNames x; have hx : Kept2 m z x := ?_; clear_value x)
    | (extract_lets +onlyGivenNames x; have hx : KeptO m z x := ?_; clear_value x)
    | (extract_lets +onlyGivenNames x; clear_value x)
    | (extract_lets +onlyGivenNames w; revert w; intro w0)
    | with_reducible apply kept_ite
    | with_reducible apply State.wr_kept
    | with_reducible apply State.wrWord_kept
    | with_reducible apply kept2_mk
    | with_reducible apply keptO_some
    | with_reducible apply keptO_none
    | with_reducible exact keptO2_get (by with_reducible assumption)
    | (with_reducible refine kept2_eq (by with_reducible assumption) ?_)
    | (with_reducible apply kept2_proj; first | with_reducible assumption | with_reducible apply kept2_foldl)
    | (with_reducible refine keptO_eq (by with_reducible assumption) ?_)
    | with_reducible apply kept_foldl
    | split
    | dsimp -zeta only
    | (with_reducible refine kept_mk rfl ?_ rfl rfl rfl rfl ?_ ?_ ?_ ?_ ?_ ?_ ?_ ?_ ?_ ?_ ?_ ?_ ?_ ?_ ?_ ?_ ?_ ?_ ?_ <;> first | with_reducible exact Or.inr rfl | exact Or.inl (by assumption) | with_reducible assumption | with_reducible exact keptO2_get (by with_reducible assumption) | (with_reducible refine kept2_eq (by with_reducible assumption) ?_) | (with_reducible refine keptO_eq (by with_reducible assumption) ?_) | with_reducible apply State.wr_kept | with_reducible apply State.wrWord_kept)

theorem State.portStarts_kept {a1} (hregs : m.regs) (hsvc : m.svc) (hlif : m.lif) (h : Kept m z s) : Kept m z
    (State.portStarts s a1) := by
  unfold State.portStarts
  repeat' first
    | with_reducible assumption
    | intro _
    | subst x
    | (extract_lets +onlyGivenNames x; have hx : Kept m z x := ?_; clear_value x)
    | (extract_lets +onlyGivenNames x; clear_value x)
    | (extract_lets +onlyGivenNames w; revert w; intro w0)
    | with_reducible apply kept_ite
    | with_reducible apply State.each_kept
    | with_reducible apply State.startSlice_kept
    | with_reducible apply State.takeTrims_kept
    | split
    | dsimp -zeta only

theorem State.enablePort_kept {a1 a2} (hregs : m.regs) (hout : m.out) (hhost : m.host) (hsvc : m.svc) (hlif : m.lif) (h
    : Kept m z s) : Kept m z (State.enablePort s a1 a2) := by
  unfold State.enablePort
  repeat' first
    | with_reducible assumption
    | intro _
    | subst x
    | (extract_lets +onlyGivenNames x; have hx : Kept m z x := ?_; clear_value x)
    | (extract_lets +onlyGivenNames x; clear_value x)
    | (extract_lets +onlyGivenNames w; revert w; intro w0)
    | with_reducible apply kept_ite
    | with_reducible apply State.lateErr_kept
    | with_reducible apply State.lcWrite_kept
    | with_reducible apply State.onlyIf_kept
    | with_reducible apply State.portStarts_kept
    | split
    | dsimp -zeta only

theorem execPortEnable_kept {a0 a1 a2} (hregs : m.regs) (hout : m.out) (hhost : m.host) (hsvc : m.svc) (hlif : m.lif)
    (h : Kept m z s) : KeptX m z (execPortEnable a0 a1 a2 s) := by
  unfold execPortEnable
  repeat' first
    | with_reducible assumption
    | intro _
    | with_reducible apply kept_ite
    | with_reducible apply State.enablePort_kept
    | with_reducible apply State.hostWrite_kept
    | with_reducible apply keptX_ok
    | split

theorem State.linkDownAs_kept {a1 a2 a3 a4} (hregs : m.regs) (hclk : m.clk) (h : Kept m z s) : Kept m z
    (State.linkDownAs s a1 a2 a3 a4) := by
  unfold State.linkDownAs
  repeat' first
    | with_reducible assumption
    | intro _
    | subst x
    | (extract_lets +onlyGivenNames x; have hx : Kept m z x := ?_; clear_value x)
    | (extract_lets +onlyGivenNames x; clear_value x)
    | (extract_lets +onlyGivenNames w; revert w; intro w0)
    | with_reducible apply State.rclkSync_kept
    | with_reducible apply State.wr_kept
    | with_reducible apply State.wrBit_kept
    | dsimp -zeta only

theorem State.portDown_kept {a1} (hregs : m.regs) (hout : m.out) (hclk : m.clk) (hhost : m.host) (hlif : m.lif) (h :
    Kept m z s) : Kept m z (State.portDown s a1) := by
  unfold State.portDown
  repeat' first
    | with_reducible assumption
    | intro _
    | subst x
    | (extract_lets +onlyGivenNames x; have hx : Kept m z x := ?_; clear_value x)
    | (extract_lets +onlyGivenNames x; clear_value x)
    | (extract_lets +onlyGivenNames w; revert w; intro w0)
    | with_reducible apply State.each_kept
    | with_reducible apply State.linkDownAs_kept
    | with_reducible apply State.pageChanged_kept
    | with_reducible apply State.setPause_kept
    | dsimp -zeta only

theorem execPortDisable_kept {a0 a1 a2} (hregs : m.regs) (hout : m.out) (hclk : m.clk) (hhost : m.host) (hlif : m.lif)
    (h : Kept m z s) : KeptX m z (execPortDisable a0 a1 a2 s) := by
  unfold execPortDisable
  repeat' first
    | with_reducible assumption
    | intro _
    | subst x
    | (extract_lets +onlyGivenNames x; have hx : Kept m z x := ?_; clear_value x)
    | (extract_lets +onlyGivenNames x; clear_value x)
    | (extract_lets +onlyGivenNames w; revert w; intro w0)
    | with_reducible apply kept_ite
    | with_reducible apply State.hostWrite_kept
    | with_reducible apply State.lcWrite_kept
    | with_reducible apply State.onlyIf_kept
    | with_reducible apply State.portDown_kept
    | with_reducible apply keptX_ok
    | split
    | dsimp -zeta only

theorem execPortDrainDone_kept {a0} (hregs : m.regs) (hout : m.out) (hclk : m.clk) (hhost : m.host) (hsvc : m.svc)
    (hlif : m.lif) (h : Kept m z s) : KeptX m z (execPortDrainDone a0 s) := by
  unfold execPortDrainDone
  repeat' first
    | with_reducible assumption
    | intro _
    | subst x
    | (extract_lets +onlyGivenNames x; have hx : Kept m z x := ?_; clear_value x)
    | (extract_lets +onlyGivenNames x; clear_value x)
    | (extract_lets +onlyGivenNames w; revert w; intro w0)
    | with_reducible apply kept_ite
    | with_reducible apply State.lcEndDrain_kept
    | with_reducible apply State.onlyIf_kept
    | with_reducible apply State.portDown_kept
    | with_reducible apply State.portStarts_kept
    | with_reducible apply keptX_ok
    | split
    | dsimp -zeta only

theorem State.portUp_kept {a1} (hregs : m.regs) (hout : m.out) (hhost : m.host) (hbuf : m.buf) (h : Kept m z s) : Kept
    m z (State.portUp s a1) := by
  unfold State.portUp
  repeat' first
    | with_reducible assumption
    | intro _
    | subst x
    | (extract_lets +onlyGivenNames x; have hx : Kept m z x := ?_; clear_value x)
    | (extract_lets +onlyGivenNames x; clear_value x)
    | (extract_lets +onlyGivenNames w; revert w; intro w0)
    | with_reducible apply kept_ite
    | with_reducible apply State.fillBuckets_kept
    | with_reducible apply State.onlyIf_kept
    | with_reducible apply State.setLc_kept
    | split
    | dsimp -zeta only

theorem execLineLinkUp_kept {a0} (hregs : m.regs) (hclk : m.clk) (h : Kept m z s) : KeptX m z (execLineLinkUp a0 s) :=
    by
  unfold execLineLinkUp
  repeat' first
    | with_reducible assumption
    | intro _
    | subst x
    | (extract_lets +onlyGivenNames x; have hx : Kept m z x := ?_; clear_value x)
    | (extract_lets +onlyGivenNames x; clear_value x)
    | (extract_lets +onlyGivenNames w; revert w; intro w0)
    | with_reducible apply kept_ite
    | with_reducible apply State.rclkSync_kept
    | with_reducible apply State.wr_kept
    | with_reducible apply State.wrBit_kept
    | with_reducible apply keptX_ok
    | split
    | dsimp -zeta only

theorem execLineLinkDown_kept {a0 a1 a2 a3} (hregs : m.regs) (hclk : m.clk) (h : Kept m z s) : KeptX m z
    (execLineLinkDown a0 a1 a2 a3 s) := by
  unfold execLineLinkDown
  repeat' first
    | with_reducible assumption
    | intro _
    | with_reducible apply kept_ite
    | with_reducible apply State.linkDownAs_kept
    | with_reducible apply keptX_ok
    | split

theorem State.pushStamp_kept {a1 a2 a3} (hregs : m.regs) (hlif : m.lif) (h : Kept m z s) : Kept m z (State.pushStamp s
    a1 a2 a3) := by
  unfold State.pushStamp
  repeat' first
    | with_reducible assumption
    | intro _
    | subst x
    | (extract_lets +onlyGivenNames x; have hx : Kept m z x := ?_; clear_value x)
    | (extract_lets +onlyGivenNames x; have hx : Kept2 m z x := ?_; clear_value x)
    | (extract_lets +onlyGivenNames x; have hx : KeptO m z x := ?_; clear_value x)
    | (extract_lets +onlyGivenNames x; clear_value x)
    | (extract_lets +onlyGivenNames w; revert w; intro w0)
    | with_reducible apply kept_ite
    | with_reducible apply State.wr_kept
    | with_reducible apply kept2_mk
    | with_reducible apply keptO_some
    | with_reducible apply keptO_none
    | with_reducible exact keptO2_get (by with_reducible assumption)
    | (with_reducible refine kept2_eq (by with_reducible assumption) ?_)
    | (with_reducible apply kept2_proj; first | with_reducible assumption | with_reducible apply kept2_foldl)
    | (with_reducible refine keptO_eq (by with_reducible assumption) ?_)
    | with_reducible apply kept_foldl
    | split
    | dsimp -zeta only
    | (with_reducible refine kept_mk rfl ?_ rfl rfl rfl rfl ?_ ?_ ?_ ?_ ?_ ?_ ?_ ?_ ?_ ?_ ?_ ?_ ?_ ?_ ?_ ?_ ?_ ?_ ?_ <;> first | with_reducible exact Or.inr rfl | exact Or.inl (by assumption) | with_reducible assumption | with_reducible exact keptO2_get (by with_reducible assumption) | (with_reducible refine kept2_eq (by with_reducible assumption) ?_) | (with_reducible refine keptO_eq (by with_reducible assumption) ?_) | with_reducible apply State.wr_kept)

theorem State.macSend_kept {a1 a2 a3 a4} (hregs : m.regs) (hout : m.out) (hfd : m.fd) (hcnt : m.cnt) (hlif : m.lif) (h
    : Kept m z s) : Kept m z (State.macSend s a1 a2 a3 a4) := by
  unfold State.macSend
  repeat' first
    | with_reducible assumption
    | intro _
    | subst x
    | (extract_lets +onlyGivenNames x; have hx : Kept m z x := ?_; clear_value x)
    | (extract_lets +onlyGivenNames x; clear_value x)
    | (extract_lets +onlyGivenNames w; revert w; intro w0)
    | with_reducible apply kept_ite
    | with_reducible apply State.bump_kept
    | with_reducible apply State.countAs_kept
    | with_reducible apply State.delPkt_kept
    | with_reducible apply State.emit_kept
    | with_reducible apply State.onlyIf_kept
    | with_reducible apply State.pushStamp_kept
    | with_reducible apply State.touch_kept
    | split
    | dsimp -zeta only

theorem State.toMac_kept {a1 a2 a3 a4 a5} (hregs : m.regs) (hout : m.out) (hfd : m.fd) (hcnt : m.cnt) (hbrg : m.brg)
    (hlif : m.lif) (h : Kept m z s) : Kept m z (State.toMac s a1 a2 a3 a4 a5) := by
  unfold State.toMac
  repeat' first
    | with_reducible assumption
    | intro _
    | subst x
    | (extract_lets +onlyGivenNames x; have hx : Kept m z x := ?_; clear_value x)
    | (extract_lets +onlyGivenNames x; have hx : KeptO m z x := ?_; clear_value x)
    | (extract_lets +onlyGivenNames x; clear_value x)
    | (extract_lets +onlyGivenNames w; revert w; intro w0)
    | with_reducible apply kept_ite
    | with_reducible apply State.bump_kept
    | with_reducible apply State.delPkt_kept
    | with_reducible apply State.dropEgress_kept
    | with_reducible apply State.dropPkt_kept
    | with_reducible apply State.macSend_kept
    | split
    | dsimp -zeta only

theorem State.sendHeld_kept {a1} (hregs : m.regs) (hout : m.out) (hfd : m.fd) (hcnt : m.cnt) (hbrg : m.brg) (hlif :
    m.lif) (h : Kept m z s) : Kept m z (State.sendHeld s a1) := by
  unfold State.sendHeld
  repeat' first
    | with_reducible assumption
    | intro _
    | with_reducible apply State.each_kept
    | with_reducible apply State.toMac_kept
    | with_reducible apply State.withPkt_kept

theorem execFrameTransmit_kept {a0 a1 a2} (hregs : m.regs) (hout : m.out) (hfd : m.fd) (hcnt : m.cnt) (hbrg : m.brg)
    (hlif : m.lif) (hfab : m.fab) (h : Kept m z s) : KeptX m z (execFrameTransmit a0 a1 a2 s) := by
  unfold execFrameTransmit
  repeat' first
    | with_reducible assumption
    | intro _
    | subst x
    | (extract_lets +onlyGivenNames x; have hx : Kept m z x := ?_; clear_value x)
    | (extract_lets +onlyGivenNames x; have hx : Kept2 m z x := ?_; clear_value x)
    | (extract_lets +onlyGivenNames x; have hx : KeptO m z x := ?_; clear_value x)
    | (extract_lets +onlyGivenNames x; clear_value x)
    | (extract_lets +onlyGivenNames w; revert w; intro w0)
    | with_reducible apply kept_ite
    | with_reducible apply State.diceDraw_kept
    | with_reducible apply State.diceHold_kept
    | with_reducible apply State.diceRelease_kept
    | with_reducible apply State.dropPkt_kept
    | with_reducible apply State.sendHeld_kept
    | with_reducible apply State.setPkt_kept
    | with_reducible apply State.toMac_kept
    | with_reducible apply State.withPkt_kept
    | with_reducible apply keptX_ok
    | (with_reducible refine kept2_eq (by with_reducible assumption) ?_)
    | (with_reducible apply kept2_proj; first | with_reducible assumption | with_reducible apply kept2_foldl | with_reducible apply State.diceDraw_kept | with_reducible apply State.diceRelease_kept)
    | split
    | dsimp -zeta only

theorem execTsFifoPop_kept {a0 a1 a2} (hregs : m.regs) (hout : m.out) (hhost : m.host) (hlif : m.lif) (h : Kept m z s)
    : KeptX m z (execTsFifoPop a0 a1 a2 s) := by
  unfold execTsFifoPop
  repeat' first
    | with_reducible assumption
    | intro _
    | subst x
    | (extract_lets +onlyGivenNames x; have hx : Kept m z x := ?_; clear_value x)
    | (extract_lets +onlyGivenNames x; have hx : Kept2 m z x := ?_; clear_value x)
    | (extract_lets +onlyGivenNames x; have hx : KeptO m z x := ?_; clear_value x)
    | (extract_lets +onlyGivenNames x; clear_value x)
    | (extract_lets +onlyGivenNames w; revert w; intro w0)
    | with_reducible apply kept_ite
    | with_reducible apply State.emit_kept
    | with_reducible apply State.hostRead_kept
    | with_reducible apply State.tsPop_kept
    | with_reducible apply keptX_ok
    | with_reducible apply kept2_mk
    | with_reducible apply keptO_some
    | with_reducible apply keptO_none
    | with_reducible exact keptO2_get (by with_reducible assumption)
    | (with_reducible refine kept2_eq (by with_reducible assumption) ?_)
    | (with_reducible apply kept2_proj; first | with_reducible assumption | with_reducible apply kept2_foldl)
    | (with_reducible refine keptO_eq (by with_reducible assumption) ?_)
    | with_reducible apply kept_foldl
    | split
    | dsimp -zeta only

theorem execClientFrameDemap_kept {a0 a1 a2 a3 a4} (hregs : m.regs) (hout : m.out) (hfd : m.fd) (hlif : m.lif) (h :
    Kept m z s) : KeptX m z (execClientFrameDemap a0 a1 a2 a3 a4 s) := by
  unfold execClientFrameDemap
  repeat' first
    | with_reducible assumption
    | intro _
    | subst x
    | (extract_lets +onlyGivenNames x; have hx : Kept m z x := ?_; clear_value x)
    | (extract_lets +onlyGivenNames x; clear_value x)
    | (extract_lets +onlyGivenNames w; revert w; intro w0)
    | with_reducible apply kept_ite
    | with_reducible apply State.bump_kept
    | with_reducible apply State.onlyIf_kept
    | with_reducible apply State.receiveFrame_kept
    | with_reducible apply keptX_ok
    | split
    | dsimp -zeta only

end Sys2Proof.Machine
end

