-- ==== Sys2Proof/Laws/KeptLinks.lean ====
section
/-!
SUPPORT. Laws/KeptLinks.lean: what the operations of Machine/Links.lean keep (Laws/Kept.lean).
-/

namespace Sys2Proof.Machine

set_option linter.all false

variable {m : Mask} {z s : State}

theorem State.enableLink_kept {a1 a2} (hregs : m.regs) (hout : m.out) (hhost : m.host) (hsvc : m.svc) (hfab : m.fab) (h
    : Kept m z s) : Kept m z (State.enableLink s a1 a2) := by
  unfold State.enableLink
  repeat' first
    | with_reducible assumption
    | intro _
    | subst x
    | (extract_lets +onlyGivenNames x; have hx : Kept m z x := ?_; clear_value x)
    | (extract_lets +onlyGivenNames x; clear_value x)
    | (extract_lets +onlyGivenNames w; revert w; intro w0)
    | with_reducible apply kept_ite
    | with_reducible apply State.lateErr_kept
    | with_reducible apply State.lcWrite_kept
    | with_reducible apply State.startLink_kept
    | split
    | dsimp -zeta only

theorem execLinkEnable_kept {a0 a1 a2} (hregs : m.regs) (hout : m.out) (hhost : m.host) (hsvc : m.svc) (hfab : m.fab)
    (h : Kept m z s) : KeptX m z (execLinkEnable a0 a1 a2 s) := by
  unfold execLinkEnable
  repeat' first
    | with_reducible assumption
    | intro _
    | with_reducible apply kept_ite
    | with_reducible apply State.enableLink_kept
    | with_reducible apply State.hostWrite_kept
    | with_reducible apply keptX_ok
    | split

theorem execLinkDisable_kept {a0 a1 a2} (hregs : m.regs) (hout : m.out) (hhost : m.host) (hsvc : m.svc) (hbuf : m.buf)
    (hfab : m.fab) (h : Kept m z s) : KeptX m z (execLinkDisable a0 a1 a2 s) := by
  unfold execLinkDisable
  repeat' first
    | with_reducible assumption
    | intro _
    | subst x
    | (extract_lets +onlyGivenNames x; have hx : Kept m z x := ?_; clear_value x)
    | (extract_lets +onlyGivenNames x; clear_value x)
    | (extract_lets +onlyGivenNames w; revert w; intro w0)
    | with_reducible apply kept_ite
    | with_reducible apply State.hostWrite_kept
    | with_reducible apply State.lcWrite_kept
    | with_reducible apply State.reachSync_kept
    | with_reducible apply keptX_ok
    | split
    | dsimp -zeta only

theorem execLinkDrainDone_kept {a0} (hregs : m.regs) (hout : m.out) (hhost : m.host) (hsvc : m.svc) (hbuf : m.buf)
    (hfab : m.fab) (h : Kept m z s) : KeptX m z (execLinkDrainDone a0 s) := by
  unfold execLinkDrainDone
  repeat' first
    | with_reducible assumption
    | intro _
    | subst x
    | (extract_lets +onlyGivenNames x; have hx : Kept m z x := ?_; clear_value x)
    | (extract_lets +onlyGivenNames x; have hx : KeptO m z x := ?_; clear_value x)
    | (extract_lets +onlyGivenNames x; clear_value x)
    | (extract_lets +onlyGivenNames w; revert w; intro w0)
    | with_reducible apply kept_ite
    | with_reducible apply State.lcEndDrain_kept
    | with_reducible apply State.reachSync_kept
    | with_reducible apply State.setLink_kept
    | with_reducible apply State.spareCheck_kept
    | with_reducible apply State.startLink_kept
    | with_reducible apply State.wr_kept
    | with_reducible apply keptX_ok
    | split
    | dsimp -zeta only

theorem execLaneMarkerCheck_kept {a0 a1} (hregs : m.regs) (hfab : m.fab) (h : Kept m z s) : KeptX m z
    (execLaneMarkerCheck a0 a1 s) := by
  unfold execLaneMarkerCheck
  repeat' first
    | with_reducible assumption
    | intro _
    | subst x
    | (extract_lets +onlyGivenNames x; have hx : Kept m z x := ?_; clear_value x)
    | (extract_lets +onlyGivenNames x; clear_value x)
    | (extract_lets +onlyGivenNames w; revert w; intro w0)
    | with_reducible apply kept_ite
    | with_reducible apply State.setLink_kept
    | with_reducible apply State.wr_kept
    | with_reducible apply keptX_ok
    | split
    | dsimp -zeta only

theorem execHelloSend_kept {a0} (hfab : m.fab) (h : Kept m z s) : KeptX m z (execHelloSend a0 s) := by
  unfold execHelloSend
  repeat' first
    | with_reducible assumption
    | intro _
    | subst x
    | (extract_lets +onlyGivenNames x; have hx : Kept m z x := ?_; clear_value x)
    | (extract_lets +onlyGivenNames x; clear_value x)
    | (extract_lets +onlyGivenNames w; revert w; intro w0)
    | with_reducible apply kept_ite
    | with_reducible apply State.setLink_kept
    | with_reducible apply keptX_ok
    | split
    | dsimp -zeta only

theorem State.takeMsg_kept {a1} (hfab : m.fab) (h : Kept m z s) : KeptO2 m z (State.takeMsg s a1) := by
  unfold State.takeMsg
  repeat' first
    | with_reducible assumption
    | intro _
    | subst x
    | (extract_lets +onlyGivenNames x; have hx : Kept m z x := ?_; clear_value x)
    | (extract_lets +onlyGivenNames x; have hx : Kept2 m z x := ?_; clear_value x)
    | (extract_lets +onlyGivenNames x; have hx : KeptO2 m z x := ?_; clear_value x)
    | (extract_lets +onlyGivenNames x; clear_value x)
    | (extract_lets +onlyGivenNames w; revert w; intro w0)
    | with_reducible apply kept2_mk
    | with_reducible apply keptO2_some
    | with_reducible apply keptO2_none
    | with_reducible exact keptO2_get (by with_reducible assumption)
    | (with_reducible apply kept2_proj; first | with_reducible assumption | with_reducible apply kept2_foldl)
    | (with_reducible refine keptO2_eq (by with_reducible assumption) ?_)
    | (with_reducible refine keptO2_eqp (by with_reducible assumption) ?_)
    | with_reducible apply keptO2_map2
    | with_reducible apply keptO2_map3
    | with_reducible apply keptO2_map
    | dsimp -zeta only
    | (with_reducible refine kept_mk rfl ?_ rfl rfl rfl rfl ?_ ?_ ?_ ?_ ?_ ?_ ?_ ?_ ?_ ?_ ?_ ?_ ?_ ?_ ?_ ?_ ?_ ?_ ?_ <;> first | with_reducible exact Or.inr rfl | exact Or.inl (by assumption) | with_reducible assumption | with_reducible exact keptO2_get (by with_reducible assumption) | (with_reducible refine kept2_eq (by with_reducible assumption) ?_) | (with_reducible refine keptO_eq (by with_reducible assumption) ?_) | (with_reducible refine keptO2_eq (by with_reducible assumption) ?_) | (with_reducible refine keptO2_eqp (by with_reducible assumption) ?_))

theorem execHelloReceive_kept {a0} (hregs : m.regs) (hout : m.out) (hhost : m.host) (hsvc : m.svc) (hbuf : m.buf) (hfab
    : m.fab) (h : Kept m z s) : KeptX m z (execHelloReceive a0 s) := by
  unfold execHelloReceive
  repeat' first
    | with_reducible assumption
    | intro _
    | subst x
    | (extract_lets +onlyGivenNames x; have hx : Kept m z x := ?_; clear_value x)
    | (extract_lets +onlyGivenNames x; have hx : Kept2 m z x := ?_; clear_value x)
    | (extract_lets +onlyGivenNames x; have hx : KeptO2 m z x := ?_; clear_value x)
    | (extract_lets +onlyGivenNames x; clear_value x)
    | (extract_lets +onlyGivenNames w; revert w; intro w0)
    | with_reducible apply kept_ite
    | with_reducible apply State.onlyIf_kept
    | with_reducible apply State.peerSync_kept
    | with_reducible apply State.reachSync_kept
    | with_reducible apply State.setLc_kept
    | with_reducible apply State.setLink_kept
    | with_reducible apply State.takeMsg_kept
    | with_reducible apply State.wr_kept
    | with_reducible apply State.wrBit_kept
    | with_reducible apply keptX_ok
    | with_reducible apply keptO2_some
    | with_reducible apply keptO2_none
    | with_reducible exact keptO2_get (by with_reducible assumption)
    | (with_reducible refine kept2_eq (by with_reducible assumption) ?_)
    | (with_reducible apply kept2_proj; first | with_reducible assumption | with_reducible apply kept2_foldl)
    | (with_reducible refine keptO2_eq (by with_reducible assumption) ?_)
    | (with_reducible refine keptO2_eqp (by with_reducible assumption) ?_)
    | split
    | dsimp -zeta only
    | (with_reducible refine kept_mk rfl ?_ rfl rfl rfl rfl ?_ ?_ ?_ ?_ ?_ ?_ ?_ ?_ ?_ ?_ ?_ ?_ ?_ ?_ ?_ ?_ ?_ ?_ ?_ <;> first | with_reducible exact Or.inr rfl | exact Or.inl (by assumption) | with_reducible assumption | with_reducible exact keptO2_get (by with_reducible assumption) | (with_reducible refine kept2_eq (by with_reducible assumption) ?_) | (with_reducible refine keptO_eq (by with_reducible assumption) ?_) | (with_reducible refine keptO2_eq (by with_reducible assumption) ?_) | (with_reducible refine keptO2_eqp (by with_reducible assumption) ?_) | with_reducible apply State.onlyIf_kept | with_reducible apply State.peerSync_kept | with_reducible apply State.reachSync_kept | with_reducible apply State.setLc_kept | with_reducible apply State.setLink_kept | with_reducible apply State.takeMsg_kept | with_reducible apply State.wr_kept | with_reducible apply State.wrBit_kept)

theorem execHelloTimeout_kept {a0} (hregs : m.regs) (hout : m.out) (hhost : m.host) (hsvc : m.svc) (hbuf : m.buf) (hfab
    : m.fab) (h : Kept m z s) : KeptX m z (execHelloTimeout a0 s) := by
  unfold execHelloTimeout
  repeat' first
    | with_reducible assumption
    | intro _
    | with_reducible apply kept_ite
    | with_reducible apply State.isolate_kept
    | with_reducible apply keptX_ok
    | split

theorem execReachReceive_kept {a0} (hregs : m.regs) (hout : m.out) (hhost : m.host) (hsvc : m.svc) (hbuf : m.buf) (hfab
    : m.fab) (h : Kept m z s) : KeptX m z (execReachReceive a0 s) := by
  unfold execReachReceive
  repeat' first
    | with_reducible assumption
    | intro _
    | subst x
    | (extract_lets +onlyGivenNames x; have hx : Kept m z x := ?_; clear_value x)
    | (extract_lets +onlyGivenNames x; have hx : Kept2 m z x := ?_; clear_value x)
    | (extract_lets +onlyGivenNames x; have hx : KeptO2 m z x := ?_; clear_value x)
    | (extract_lets +onlyGivenNames x; clear_value x)
    | (extract_lets +onlyGivenNames w; revert w; intro w0)
    | with_reducible apply kept_ite
    | with_reducible apply State.each_kept
    | with_reducible apply State.reachSync_kept
    | with_reducible apply State.setLink_kept
    | with_reducible apply State.takeMsg_kept
    | with_reducible apply keptX_ok
    | with_reducible apply keptO2_some
    | with_reducible apply keptO2_none
    | with_reducible exact keptO2_get (by with_reducible assumption)
    | (with_reducible refine kept2_eq (by with_reducible assumption) ?_)
    | (with_reducible apply kept2_proj; first | with_reducible assumption | with_reducible apply kept2_foldl)
    | (with_reducible refine keptO2_eq (by with_reducible assumption) ?_)
    | (with_reducible refine keptO2_eqp (by with_reducible assumption) ?_)
    | split
    | dsimp -zeta only
    | (with_reducible refine kept_mk rfl ?_ rfl rfl rfl rfl ?_ ?_ ?_ ?_ ?_ ?_ ?_ ?_ ?_ ?_ ?_ ?_ ?_ ?_ ?_ ?_ ?_ ?_ ?_ <;> first | with_reducible exact Or.inr rfl | exact Or.inl (by assumption) | with_reducible assumption | with_reducible exact keptO2_get (by with_reducible assumption) | (with_reducible refine kept2_eq (by with_reducible assumption) ?_) | (with_reducible refine keptO_eq (by with_reducible assumption) ?_) | (with_reducible refine keptO2_eq (by with_reducible assumption) ?_) | (with_reducible refine keptO2_eqp (by with_reducible assumption) ?_) | with_reducible apply State.each_kept | with_reducible apply State.reachSync_kept | with_reducible apply State.setLink_kept | with_reducible apply State.takeMsg_kept)

theorem execReachLapse_kept {a0} (hregs : m.regs) (hout : m.out) (hhost : m.host) (hsvc : m.svc) (hbuf : m.buf) (hfab :
    m.fab) (h : Kept m z s) : KeptX m z (execReachLapse a0 s) := by
  unfold execReachLapse
  repeat' first
    | with_reducible assumption
    | intro _
    | subst x
    | (extract_lets +onlyGivenNames x; have hx : Kept m z x := ?_; clear_value x)
    | (extract_lets +onlyGivenNames x; clear_value x)
    | (extract_lets +onlyGivenNames w; revert w; intro w0)
    | with_reducible apply kept_ite
    | with_reducible apply State.reachSync_kept
    | with_reducible apply State.setLink_kept
    | with_reducible apply keptX_ok
    | split
    | dsimp -zeta only

theorem execLinkStatusSend_kept {a0} (hfab : m.fab) (h : Kept m z s) : KeptX m z (execLinkStatusSend a0 s) := by
  unfold execLinkStatusSend
  repeat' first
    | with_reducible assumption
    | intro _
    | subst x
    | (extract_lets +onlyGivenNames x; have hx : Kept m z x := ?_; clear_value x)
    | (extract_lets +onlyGivenNames x; clear_value x)
    | (extract_lets +onlyGivenNames w; revert w; intro w0)
    | with_reducible apply kept_ite
    | with_reducible apply State.setLink_kept
    | with_reducible apply keptX_ok
    | split
    | dsimp -zeta only

theorem execLinkStatusReceive_kept {a0} (hregs : m.regs) (hout : m.out) (hhost : m.host) (hsvc : m.svc) (hbuf : m.buf)
    (hfab : m.fab) (h : Kept m z s) : KeptX m z (execLinkStatusReceive a0 s) := by
  unfold execLinkStatusReceive
  repeat' first
    | with_reducible assumption
    | intro _
    | with_reducible apply State.setErrors_kept
    | with_reducible apply State.takeMsg_kept
    | with_reducible apply keptX_ok
    | with_reducible apply keptO2_some
    | with_reducible apply keptO2_none
    | with_reducible exact keptO2_get (by with_reducible assumption)
    | (with_reducible refine kept2_eq (by with_reducible assumption) ?_)
    | (with_reducible apply kept2_proj; first | with_reducible assumption | with_reducible apply kept2_foldl)
    | (with_reducible refine keptO2_eq (by with_reducible assumption) ?_)
    | (with_reducible refine keptO2_eqp (by with_reducible assumption) ?_)
    | split

theorem execLinkRecover_kept {a0} (hregs : m.regs) (hout : m.out) (hhost : m.host) (hfab : m.fab) (h : Kept m z s) :
    KeptX m z (execLinkRecover a0 s) := by
  unfold execLinkRecover
  repeat' first
    | with_reducible assumption
    | intro _
    | subst x
    | (extract_lets +onlyGivenNames x; have hx : Kept m z x := ?_; clear_value x)
    | (extract_lets +onlyGivenNames x; clear_value x)
    | (extract_lets +onlyGivenNames w; revert w; intro w0)
    | with_reducible apply kept_ite
    | with_reducible apply State.event_kept
    | with_reducible apply State.newSets_kept
    | with_reducible apply State.setLink_kept
    | with_reducible apply State.wr_kept
    | with_reducible apply keptX_ok
    | split
    | dsimp -zeta only

theorem execLinkAutoRestart_kept {a0} (hregs : m.regs) (hout : m.out) (hhost : m.host) (hsvc : m.svc) (hfab : m.fab) (h
    : Kept m z s) : KeptX m z (execLinkAutoRestart a0 s) := by
  unfold execLinkAutoRestart
  repeat' first
    | with_reducible assumption
    | intro _
    | subst x
    | (extract_lets +onlyGivenNames x; have hx : Kept m z x := ?_; clear_value x)
    | (extract_lets +onlyGivenNames x; have hx : Kept2 m z x := ?_; clear_value x)
    | (extract_lets +onlyGivenNames x; have hx : KeptO m z x := ?_; clear_value x)
    | (extract_lets +onlyGivenNames x; clear_value x)
    | (extract_lets +onlyGivenNames w; revert w; intro w0)
    | with_reducible apply kept_ite
    | with_reducible apply State.enableLink_kept
    | with_reducible apply keptX_ok
    | with_reducible apply kept2_mk
    | with_reducible apply keptO_some
    | with_reducible apply keptO_none
    | with_reducible exact keptO2_get (by with_reducible assumption)
    | (with_reducible refine kept2_eq (by with_reducible assumption) ?_)
    | (with_reducible apply kept2_proj; first | with_reducible assumption | with_reducible apply kept2_foldl)
    | (with_reducible refine keptO_eq (by with_reducible assumption) ?_)
    | with_reducible apply kept_foldl
    | split
    | dsimp -zeta only
    | (with_reducible refine kept_mk rfl ?_ rfl rfl rfl rfl ?_ ?_ ?_ ?_ ?_ ?_ ?_ ?_ ?_ ?_ ?_ ?_ ?_ ?_ ?_ ?_ ?_ ?_ ?_ <;> first | with_reducible exact Or.inr rfl | exact Or.inl (by assumption) | with_reducible assumption | with_reducible exact keptO2_get (by with_reducible assumption) | (with_reducible refine kept2_eq (by with_reducible assumption) ?_) | (with_reducible refine keptO_eq (by with_reducible assumption) ?_) | with_reducible apply State.enableLink_kept)

end Sys2Proof.Machine
end

