-- ==== Sys2Proof/Laws/KeptRecipe.lean ====
section
/-!
SUPPORT. Laws/KeptRecipe.lean: what the operations of Machine/Recipe.lean keep (Laws/Kept.lean).
-/

namespace Sys2Proof.Machine

set_option linter.all false

variable {m : Mask} {z s : State}

theorem State.setSlot_kept {a1 a2} (hregs : m.regs) (hout : m.out) (hhost : m.host) (h : Kept m z s) : Kept m z
    (State.setSlot s a1 a2) := by
  unfold State.setSlot
  repeat' first
    | with_reducible assumption
    | intro _
    | with_reducible apply kept_ite
    | with_reducible apply State.event_kept
    | with_reducible apply State.svcUpdate_kept
    | with_reducible apply State.wr_kept
    | split

theorem State.setSlotImage_kept {a1 a2} (hrecipe : m.recipe) (h : Kept m z s) : Kept m z (State.setSlotImage s a1 a2)
    := by
  unfold State.setSlotImage
  repeat' first
    | with_reducible assumption
    | intro _
    | subst x
    | (extract_lets +onlyGivenNames x; have hx : Kept m z x := ?_; clear_value x)
    | (extract_lets +onlyGivenNames x; have hx : Kept2 m z x := ?_; clear_value x)
    | (extract_lets +onlyGivenNames x; have hx : KeptO m z x := ?_; clear_value x)
    | (extract_lets +onlyGivenNames x; clear_value x)
    | (extract_lets +onlyGivenNames w; revert w; intro w0)
    | with_reducible apply kept_ite
    | with_reducible apply kept2_mk
    | with_reducible apply keptO_some
    | with_reducible apply keptO_none
    | with_reducible exact keptO2_get (by with_reducible assumption)
    | (with_reducible refine kept2_eq (by with_reducible assumption) ?_)
    | (with_reducible apply kept2_proj; first | with_reducible assumption | with_reducible apply kept2_foldl)
    | (with_reducible refine keptO_eq (by with_reducible assumption) ?_)
    | with_reducible apply kept_foldl
    | split
    | dsimp -zeta only
    | (with_reducible refine kept_mk rfl ?_ rfl rfl rfl rfl ?_ ?_ ?_ ?_ ?_ ?_ ?_ ?_ ?_ ?_ ?_ ?_ ?_ ?_ ?_ ?_ ?_ ?_ ?_ <;> first | with_reducible exact Or.inr rfl | exact Or.inl (by assumption) | with_reducible assumption | with_reducible exact keptO2_get (by with_reducible assumption) | (with_reducible refine kept2_eq (by with_reducible assumption) ?_) | (with_reducible refine keptO_eq (by with_reducible assumption) ?_))

theorem State.syncBanks_kept (hregs : m.regs) (h : Kept m z s) : Kept m z (State.syncBanks s) := by
  unfold State.syncBanks
  repeat' first
    | with_reducible assumption
    | intro _
    | subst x
    | (extract_lets +onlyGivenNames x; have hx : Kept m z x := ?_; clear_value x)
    | (extract_lets +onlyGivenNames x; clear_value x)
    | (extract_lets +onlyGivenNames w; revert w; intro w0)
    | with_reducible apply kept_ite
    | with_reducible apply State.each_kept
    | with_reducible apply State.wr_kept
    | with_reducible apply State.wrBit_kept
    | split
    | dsimp -zeta only

theorem State.syncSets_kept {a1} (hregs : m.regs) (h : Kept m z s) : Kept m z (State.syncSets s a1) := by
  unfold State.syncSets
  repeat' first
    | with_reducible assumption
    | intro _
    | subst x
    | (extract_lets +onlyGivenNames x; have hx : Kept m z x := ?_; clear_value x)
    | (extract_lets +onlyGivenNames x; clear_value x)
    | (extract_lets +onlyGivenNames w; revert w; intro w0)
    | with_reducible apply kept_ite
    | with_reducible apply State.each_kept
    | with_reducible apply State.wr_kept
    | split
    | dsimp -zeta only

theorem State.loadTable_kept {a1 a2} (hregs : m.regs) (hout : m.out) (hhost : m.host) (htab : m.tab) (hcnt : m.cnt)
    (hmem : m.mem) (h : Kept m z s) : KeptO m z (State.loadTable s a1 a2) := by
  unfold State.loadTable
  repeat' first
    | with_reducible assumption
    | intro _
    | subst x
    | (extract_lets +onlyGivenNames x; have hx : Kept m z x := ?_; clear_value x)
    | (extract_lets +onlyGivenNames x; have hx : Kept2 m z x := ?_; clear_value x)
    | (extract_lets +onlyGivenNames x; have hx : KeptO m z x := ?_; clear_value x)
    | (extract_lets +onlyGivenNames x; clear_value x)
    | (extract_lets +onlyGivenNames w; revert w; intro w0)
    | with_reducible apply kept_ite
    | with_reducible apply State.clearPart_kept
    | with_reducible apply State.onlyIf_kept
    | with_reducible apply State.setAsm_kept
    | with_reducible apply State.setExm_kept
    | with_reducible apply State.wr_kept
    | with_reducible apply kept2_mk
    | with_reducible apply keptO_some
    | with_reducible apply keptO_none
    | with_reducible exact keptO2_get (by with_reducible assumption)
    | (with_reducible refine kept2_eq (by with_reducible assumption) ?_)
    | (with_reducible apply kept2_proj; first | with_reducible assumption | with_reducible apply kept2_foldl)
    | (with_reducible refine keptO_eq (by with_reducible assumption) ?_)
    | with_reducible apply kept_foldl
    | with_reducible apply keptO_mapO3
    | with_reducible apply keptO_mapO2
    | with_reducible apply keptO_map1
    | with_reducible apply keptO_map
    | with_reducible apply keptO_bind
    | split
    | dsimp -zeta only

theorem State.loadArray_kept {a1 a2} (htxf : m.txf) (h : Kept m z s) : KeptO m z (State.loadArray s a1 a2) := by
  unfold State.loadArray
  repeat' first
    | with_reducible assumption
    | intro _
    | subst x
    | (extract_lets +onlyGivenNames x; have hx : Kept m z x := ?_; clear_value x)
    | (extract_lets +onlyGivenNames x; have hx : Kept2 m z x := ?_; clear_value x)
    | (extract_lets +onlyGivenNames x; have hx : KeptO m z x := ?_; clear_value x)
    | (extract_lets +onlyGivenNames x; clear_value x)
    | (extract_lets +onlyGivenNames w; revert w; intro w0)
    | with_reducible apply kept_ite
    | with_reducible apply kept2_mk
    | with_reducible apply keptO_some
    | with_reducible apply keptO_none
    | with_reducible exact keptO2_get (by with_reducible assumption)
    | (with_reducible refine kept2_eq (by with_reducible assumption) ?_)
    | (with_reducible apply kept2_proj; first | with_reducible assumption | with_reducible apply kept2_foldl)
    | (with_reducible refine keptO_eq (by with_reducible assumption) ?_)
    | with_reducible apply kept_foldl
    | with_reducible apply keptO_mapO3
    | with_reducible apply keptO_mapO2
    | with_reducible apply keptO_map1
    | with_reducible apply keptO_map
    | with_reducible apply keptO_bind
    | split
    | dsimp -zeta only
    | (with_reducible refine kept_mk rfl ?_ rfl rfl rfl rfl ?_ ?_ ?_ ?_ ?_ ?_ ?_ ?_ ?_ ?_ ?_ ?_ ?_ ?_ ?_ ?_ ?_ ?_ ?_ <;> first | with_reducible exact Or.inr rfl | exact Or.inl (by assumption) | with_reducible assumption | with_reducible exact keptO2_get (by with_reducible assumption) | (with_reducible refine kept2_eq (by with_reducible assumption) ?_) | (with_reducible refine keptO_eq (by with_reducible assumption) ?_))

theorem State.loadStorage_kept {a1 a2} (hregs : m.regs) (hout : m.out) (hhost : m.host) (htab : m.tab) (htxf : m.txf)
    (hcnt : m.cnt) (hmem : m.mem) (h : Kept m z s) : KeptO m z (State.loadStorage s a1 a2) :=
  keptO_bind (keptO_foldl (keptO_some h) fun _ _ ht => by apply State.loadTable_kept <;> assumption) fun _ ht =>
    keptO_foldl (keptO_some ht) fun _ _ hu => by apply State.loadArray_kept <;> assumption

theorem State.freeSlot_kept {a1} (hregs : m.regs) (hrecipe : m.recipe) (htab : m.tab) (htxf : m.txf) (htxns : m.txns)
    (h : Kept m z s) : Kept m z (State.freeSlot s a1) := by
  unfold State.freeSlot
  repeat' first
    | with_reducible assumption
    | intro _
    | subst x
    | (extract_lets +onlyGivenNames x; have hx : Kept m z x := ?_; clear_value x)
    | (extract_lets +onlyGivenNames x; have hx : Kept2 m z x := ?_; clear_value x)
    | (extract_lets +onlyGivenNames x; have hx : KeptO m z x := ?_; clear_value x)
    | (extract_lets +onlyGivenNames x; clear_value x)
    | (extract_lets +onlyGivenNames w; revert w; intro w0)
    | with_reducible apply kept_ite
    | with_reducible apply State.each_kept
    | with_reducible apply State.rewriteAsm_kept
    | with_reducible apply State.setSlotImage_kept
    | with_reducible apply State.syncAsm_kept
    | with_reducible apply State.syncBanks_kept
    | with_reducible apply State.syncExm_kept
    | with_reducible apply State.syncSets_kept
    | with_reducible apply kept2_mk
    | with_reducible apply keptO_some
    | with_reducible apply keptO_none
    | with_reducible exact keptO2_get (by with_reducible assumption)
    | (with_reducible refine kept2_eq (by with_reducible assumption) ?_)
    | (with_reducible apply kept2_proj; first | with_reducible assumption | with_reducible apply kept2_foldl)
    | (with_reducible refine keptO_eq (by with_reducible assumption) ?_)
    | with_reducible apply kept_foldl
    | split
    | dsimp -zeta only
    | (with_reducible refine kept_mk rfl ?_ rfl rfl rfl rfl ?_ ?_ ?_ ?_ ?_ ?_ ?_ ?_ ?_ ?_ ?_ ?_ ?_ ?_ ?_ ?_ ?_ ?_ ?_ <;> first | with_reducible exact Or.inr rfl | exact Or.inl (by assumption) | with_reducible assumption | with_reducible exact keptO2_get (by with_reducible assumption) | (with_reducible refine kept2_eq (by with_reducible assumption) ?_) | (with_reducible refine keptO_eq (by with_reducible assumption) ?_) | with_reducible apply State.each_kept | with_reducible apply State.rewriteAsm_kept | with_reducible apply State.setSlotImage_kept | with_reducible apply State.syncAsm_kept | with_reducible apply State.syncBanks_kept | with_reducible apply State.syncExm_kept | with_reducible apply State.syncSets_kept)

theorem State.installInitial_kept {a1 a2} (hregs : m.regs) (hout : m.out) (hhost : m.host) (htab : m.tab) (hcnt :
    m.cnt) (hmem : m.mem) (h : Kept m z s) : Kept m z (State.installInitial s a1 a2) := by
  unfold State.installInitial
  repeat' first
    | with_reducible assumption
    | intro _
    | subst x
    | (extract_lets +onlyGivenNames x; have hx : Kept m z x := ?_; clear_value x)
    | (extract_lets +onlyGivenNames x; clear_value x)
    | (extract_lets +onlyGivenNames w; revert w; intro w0)
    | with_reducible apply kept_ite
    | with_reducible apply State.each_kept
    | with_reducible apply State.setAsm_kept
    | with_reducible apply State.setExm_kept
    | with_reducible apply kept_foldl
    | split
    | dsimp -zeta only

theorem State.setLoad_kept {a1 a2} (hrecipe : m.recipe) (h : Kept m z s) : Kept m z (State.setLoad s a1 a2) := by
  unfold State.setLoad
  repeat' first
    | with_reducible assumption
    | intro _
    | subst x
    | (extract_lets +onlyGivenNames x; have hx : Kept m z x := ?_; clear_value x)
    | (extract_lets +onlyGivenNames x; have hx : Kept2 m z x := ?_; clear_value x)
    | (extract_lets +onlyGivenNames x; have hx : KeptO m z x := ?_; clear_value x)
    | (extract_lets +onlyGivenNames x; clear_value x)
    | (extract_lets +onlyGivenNames w; revert w; intro w0)
    | with_reducible apply kept_ite
    | with_reducible apply kept2_mk
    | with_reducible apply keptO_some
    | with_reducible apply keptO_none
    | with_reducible exact keptO2_get (by with_reducible assumption)
    | (with_reducible refine kept2_eq (by with_reducible assumption) ?_)
    | (with_reducible apply kept2_proj; first | with_reducible assumption | with_reducible apply kept2_foldl)
    | (with_reducible refine keptO_eq (by with_reducible assumption) ?_)
    | with_reducible apply kept_foldl
    | split
    | dsimp -zeta only
    | (with_reducible refine kept_mk rfl ?_ rfl rfl rfl rfl ?_ ?_ ?_ ?_ ?_ ?_ ?_ ?_ ?_ ?_ ?_ ?_ ?_ ?_ ?_ ?_ ?_ ?_ ?_ <;> first | with_reducible exact Or.inr rfl | exact Or.inl (by assumption) | with_reducible assumption | with_reducible exact keptO2_get (by with_reducible assumption) | (with_reducible refine kept2_eq (by with_reducible assumption) ?_) | (with_reducible refine keptO_eq (by with_reducible assumption) ?_))

theorem State.loadFails_kept {a1 a2} (hregs : m.regs) (hout : m.out) (hhost : m.host) (hrecipe : m.recipe) (htab :
    m.tab) (htxf : m.txf) (htxns : m.txns) (hfab : m.fab) (h : Kept m z s) : Kept m z (State.loadFails s a1 a2) := by
  unfold State.loadFails
  repeat' first
    | with_reducible assumption
    | intro _
    | subst x
    | (extract_lets +onlyGivenNames x; have hx : Kept m z x := ?_; clear_value x)
    | (extract_lets +onlyGivenNames x; clear_value x)
    | (extract_lets +onlyGivenNames w; revert w; intro w0)
    | with_reducible apply State.complete_kept
    | with_reducible apply State.event_kept
    | with_reducible apply State.freeSlot_kept
    | with_reducible apply State.setLoad_kept
    | with_reducible apply State.setSlot_kept
    | with_reducible apply State.wr_kept
    | split
    | dsimp -zeta only

theorem State.beginLoad_kept {a1 a2 a3 a4 a5 a6} (hregs : m.regs) (hout : m.out) (hhost : m.host) (hrecipe : m.recipe)
    (htab : m.tab) (htxf : m.txf) (htxns : m.txns) (h : Kept m z s) : Kept m z (State.beginLoad s a1 a2 a3 a4 a5 a6) :=
    by
  unfold State.beginLoad
  repeat' first
    | with_reducible assumption
    | intro _
    | subst x
    | (extract_lets +onlyGivenNames x; have hx : Kept m z x := ?_; clear_value x)
    | (extract_lets +onlyGivenNames x; have hx : KeptO m z x := ?_; clear_value x)
    | (extract_lets +onlyGivenNames x; clear_value x)
    | (extract_lets +onlyGivenNames w; revert w; intro w0)
    | with_reducible apply State.freeSlot_kept
    | with_reducible apply State.setLoad_kept
    | with_reducible apply State.setSlot_kept
    | dsimp -zeta only

theorem execRecipeLoad_kept {a0 a1 a2 a3 a4 a5 a6} (hregs : m.regs) (hout : m.out) (hhost : m.host) (hrecipe :
    m.recipe) (htab : m.tab) (htxf : m.txf) (htxns : m.txns) (hfab : m.fab) (h : Kept m z s) : KeptX m z
    (execRecipeLoad a0 a1 a2 a3 a4 a5 a6 s) := by
  unfold execRecipeLoad
  repeat' first
    | with_reducible assumption
    | intro _
    | with_reducible apply kept_ite
    | with_reducible apply State.beginLoad_kept
    | with_reducible apply State.command_kept
    | with_reducible apply State.complete_kept
    | with_reducible apply keptX_ok
    | with_reducible apply kept2_mk
    | (with_reducible apply kept2_proj; first | with_reducible assumption | with_reducible apply kept2_foldl)
    | split
    | dsimp -zeta only

theorem execRecipeFetchDone_kept {a0 a1} (hregs : m.regs) (hout : m.out) (hhost : m.host) (hrecipe : m.recipe) (htab :
    m.tab) (htxf : m.txf) (htxns : m.txns) (hcnt : m.cnt) (hmem : m.mem) (hfab : m.fab) (h : Kept m z s) : KeptX m z
    (execRecipeFetchDone a0 a1 s) := by
  unfold execRecipeFetchDone
  repeat' first
    | with_reducible assumption
    | intro _
    | subst x
    | (extract_lets +onlyGivenNames x; have hx : Kept m z x := ?_; clear_value x)
    | (extract_lets +onlyGivenNames x; have hx : KeptO m z x := ?_; clear_value x)
    | (extract_lets +onlyGivenNames x; clear_value x)
    | (extract_lets +onlyGivenNames w; revert w; intro w0)
    | with_reducible apply kept_ite
    | with_reducible apply State.loadFails_kept
    | with_reducible apply State.loadStorage_kept
    | with_reducible apply State.secLog_kept
    | with_reducible apply State.setLoad_kept
    | with_reducible apply State.setSlotImage_kept
    | with_reducible apply keptX_ok
    | with_reducible apply keptO_some
    | with_reducible apply keptO_none
    | (with_reducible refine keptO_eq (by with_reducible assumption) ?_)
    | split
    | dsimp -zeta only

theorem execRecipeAuthFailComplete_kept {a0} (hregs : m.regs) (hout : m.out) (hhost : m.host) (hrecipe : m.recipe)
    (htab : m.tab) (htxf : m.txf) (htxns : m.txns) (hfab : m.fab) (h : Kept m z s) : KeptX m z
    (execRecipeAuthFailComplete a0 s) := by
  unfold execRecipeAuthFailComplete
  repeat' first
    | with_reducible assumption
    | intro _
    | with_reducible apply kept_ite
    | with_reducible apply State.loadFails_kept
    | with_reducible apply keptX_ok
    | split

theorem State.actSync_kept (hregs : m.regs) (h : Kept m z s) : Kept m z (State.actSync s) := by
  unfold State.actSync
  repeat' first
    | with_reducible assumption
    | intro _
    | with_reducible apply State.wr_kept
    | with_reducible apply State.wrBit_kept
    | split

theorem State.scheduleRecipe_kept {a1 a2 a3 a4} (hregs : m.regs) (hsched : m.sched) (hrecipe : m.recipe) (h : Kept m z
    s) : Kept m z (State.scheduleRecipe s a1 a2 a3 a4) := by
  unfold State.scheduleRecipe
  repeat' first
    | with_reducible assumption
    | intro _
    | subst x
    | (extract_lets +onlyGivenNames x; have hx : Kept m z x := ?_; clear_value x)
    | (extract_lets +onlyGivenNames x; have hx : Kept2 m z x := ?_; clear_value x)
    | (extract_lets +onlyGivenNames x; have hx : KeptO m z x := ?_; clear_value x)
    | (extract_lets +onlyGivenNames x; clear_value x)
    | (extract_lets +onlyGivenNames w; revert w; intro w0)
    | with_reducible apply kept_ite
    | with_reducible apply State.actSync_kept
    | with_reducible apply State.schedTake_kept
    | with_reducible apply kept2_mk
    | with_reducible apply keptO_some
    | with_reducible apply keptO_none
    | with_reducible exact keptO2_get (by with_reducible assumption)
    | (with_reducible refine kept2_eq (by with_reducible assumption) ?_)
    | (with_reducible apply kept2_proj; first | with_reducible assumption | with_reducible apply kept2_foldl)
    | (with_reducible refine keptO_eq (by with_reducible assumption) ?_)
    | with_reducible apply kept_foldl
    | split
    | dsimp -zeta only
    | (with_reducible refine kept_mk rfl ?_ rfl rfl rfl rfl ?_ ?_ ?_ ?_ ?_ ?_ ?_ ?_ ?_ ?_ ?_ ?_ ?_ ?_ ?_ ?_ ?_ ?_ ?_ <;> first | with_reducible exact Or.inr rfl | exact Or.inl (by assumption) | with_reducible assumption | with_reducible exact keptO2_get (by with_reducible assumption) | (with_reducible refine kept2_eq (by with_reducible assumption) ?_) | (with_reducible refine keptO_eq (by with_reducible assumption) ?_) | with_reducible apply State.actSync_kept | with_reducible apply State.schedTake_kept)

theorem execRecipeSlotReady_kept {a0} (hregs : m.regs) (hout : m.out) (hsched : m.sched) (hhost : m.host) (hrecipe :
    m.recipe) (htab : m.tab) (hfd : m.fd) (hcnt : m.cnt) (hmem : m.mem) (hfab : m.fab) (h : Kept m z s) : KeptX m z
    (execRecipeSlotReady a0 s) := by
  unfold execRecipeSlotReady
  repeat' first
    | with_reducible assumption
    | intro _
    | subst x
    | (extract_lets +onlyGivenNames x; have hx : Kept m z x := ?_; clear_value x)
    | (extract_lets +onlyGivenNames x; have hx : Kept2 m z x := ?_; clear_value x)
    | (extract_lets +onlyGivenNames x; have hx : KeptO m z x := ?_; clear_value x)
    | (extract_lets +onlyGivenNames x; clear_value x)
    | (extract_lets +onlyGivenNames w; revert w; intro w0)
    | with_reducible apply kept_ite
    | with_reducible apply State.complete_kept
    | with_reducible apply State.installInitial_kept
    | with_reducible apply State.scheduleRecipe_kept
    | with_reducible apply State.setLoad_kept
    | with_reducible apply State.setSlot_kept
    | with_reducible apply State.syncBanks_kept
    | with_reducible apply State.syncSets_kept
    | with_reducible apply State.wr_kept
    | with_reducible apply State.writeBank_kept
    | with_reducible apply keptX_ok
    | with_reducible apply kept2_mk
    | with_reducible apply keptO_some
    | with_reducible apply keptO_none
    | with_reducible exact keptO2_get (by with_reducible assumption)
    | (with_reducible refine kept2_eq (by with_reducible assumption) ?_)
    | (with_reducible apply kept2_proj; first | with_reducible assumption | with_reducible apply kept2_foldl)
    | (with_reducible refine keptO_eq (by with_reducible assumption) ?_)
    | with_reducible apply kept_foldl
    | split
    | dsimp -zeta only
    | (with_reducible refine kept_mk rfl ?_ rfl rfl rfl rfl ?_ ?_ ?_ ?_ ?_ ?_ ?_ ?_ ?_ ?_ ?_ ?_ ?_ ?_ ?_ ?_ ?_ ?_ ?_ <;> first | with_reducible exact Or.inr rfl | exact Or.inl (by assumption) | with_reducible assumption | with_reducible exact keptO2_get (by with_reducible assumption) | (with_reducible refine kept2_eq (by with_reducible assumption) ?_) | (with_reducible refine keptO_eq (by with_reducible assumption) ?_) | with_reducible apply State.complete_kept | with_reducible apply State.installInitial_kept | with_reducible apply State.scheduleRecipe_kept | with_reducible apply State.setLoad_kept | with_reducible apply State.setSlot_kept | with_reducible apply State.syncBanks_kept | with_reducible apply State.syncSets_kept | with_reducible apply State.wr_kept | with_reducible apply State.writeBank_kept)

theorem execRecipeStoreWriteDone_kept {a0} (hregs : m.regs) (hout : m.out) (hhost : m.host) (hrecipe : m.recipe) (h :
    Kept m z s) : KeptX m z (execRecipeStoreWriteDone a0 s) := by
  unfold execRecipeStoreWriteDone
  repeat' first
    | with_reducible assumption
    | intro _
    | subst x
    | (extract_lets +onlyGivenNames x; have hx : Kept m z x := ?_; clear_value x)
    | (extract_lets +onlyGivenNames x; have hx : Kept2 m z x := ?_; clear_value x)
    | (extract_lets +onlyGivenNames x; have hx : KeptO m z x := ?_; clear_value x)
    | (extract_lets +onlyGivenNames x; clear_value x)
    | (extract_lets +onlyGivenNames w; revert w; intro w0)
    | with_reducible apply kept_ite
    | with_reducible apply State.event_kept
    | with_reducible apply State.wr_kept
    | with_reducible apply State.wr64_kept
    | with_reducible apply keptX_ok
    | with_reducible apply kept2_mk
    | with_reducible apply keptO_some
    | with_reducible apply keptO_none
    | with_reducible exact keptO2_get (by with_reducible assumption)
    | (with_reducible refine kept2_eq (by with_reducible assumption) ?_)
    | (with_reducible apply kept2_proj; first | with_reducible assumption | with_reducible apply kept2_foldl)
    | (with_reducible refine keptO_eq (by with_reducible assumption) ?_)
    | with_reducible apply kept_foldl
    | split
    | dsimp -zeta only
    | (with_reducible refine kept_mk rfl ?_ rfl rfl rfl rfl ?_ ?_ ?_ ?_ ?_ ?_ ?_ ?_ ?_ ?_ ?_ ?_ ?_ ?_ ?_ ?_ ?_ ?_ ?_ <;> first | with_reducible exact Or.inr rfl | exact Or.inl (by assumption) | with_reducible assumption | with_reducible exact keptO2_get (by with_reducible assumption) | (with_reducible refine kept2_eq (by with_reducible assumption) ?_) | (with_reducible refine keptO_eq (by with_reducible assumption) ?_) | with_reducible apply State.event_kept | with_reducible apply State.wr_kept | with_reducible apply State.wr64_kept)

theorem execRecipeActivate_kept {a0 a1 a2} (hregs : m.regs) (hsched : m.sched) (hhost : m.host) (hrecipe : m.recipe)
    (hfab : m.fab) (h : Kept m z s) : KeptX m z (execRecipeActivate a0 a1 a2 s) := by
  unfold execRecipeActivate
  repeat' first
    | with_reducible assumption
    | intro _
    | subst x
    | (extract_lets +onlyGivenNames x; have hx : Kept m z x := ?_; clear_value x)
    | (extract_lets +onlyGivenNames x; have hx : KeptO m z x := ?_; clear_value x)
    | (extract_lets +onlyGivenNames x; clear_value x)
    | (extract_lets +onlyGivenNames w; revert w; intro w0)
    | with_reducible apply kept_ite
    | with_reducible apply State.accepted_kept
    | with_reducible apply State.command_kept
    | with_reducible apply State.complete_kept
    | with_reducible apply State.scheduleRecipe_kept
    | with_reducible apply keptX_ok
    | split
    | dsimp -zeta only

theorem State.unreserve_kept {a1} (hrecipe : m.recipe) (h : Kept m z s) : Kept m z (State.unreserve s a1) := by
  unfold State.unreserve
  repeat' first
    | with_reducible assumption
    | intro _
    | subst x
    | (extract_lets +onlyGivenNames x; have hx : Kept m z x := ?_; clear_value x)
    | (extract_lets +onlyGivenNames x; have hx : Kept2 m z x := ?_; clear_value x)
    | (extract_lets +onlyGivenNames x; have hx : KeptO m z x := ?_; clear_value x)
    | (extract_lets +onlyGivenNames x; clear_value x)
    | (extract_lets +onlyGivenNames w; revert w; intro w0)
    | with_reducible apply kept_ite
    | with_reducible apply kept2_mk
    | with_reducible apply keptO_some
    | with_reducible apply keptO_none
    | with_reducible exact keptO2_get (by with_reducible assumption)
    | (with_reducible refine kept2_eq (by with_reducible assumption) ?_)
    | (with_reducible apply kept2_proj; first | with_reducible assumption | with_reducible apply kept2_foldl)
    | (with_reducible refine keptO_eq (by with_reducible assumption) ?_)
    | with_reducible apply kept_foldl
    | split
    | dsimp -zeta only
    | (with_reducible refine kept_mk rfl ?_ rfl rfl rfl rfl ?_ ?_ ?_ ?_ ?_ ?_ ?_ ?_ ?_ ?_ ?_ ?_ ?_ ?_ ?_ ?_ ?_ ?_ ?_ <;> first | with_reducible exact Or.inr rfl | exact Or.inl (by assumption) | with_reducible assumption | with_reducible exact keptO2_get (by with_reducible assumption) | (with_reducible refine kept2_eq (by with_reducible assumption) ?_) | (with_reducible refine keptO_eq (by with_reducible assumption) ?_))

theorem State.unscheduleRecipe_kept {a1} (hregs : m.regs) (hrecipe : m.recipe) (h : Kept m z s) : Kept m z
    (State.unscheduleRecipe s a1) := by
  unfold State.unscheduleRecipe
  repeat' first
    | with_reducible assumption
    | intro _
    | subst x
    | (extract_lets +onlyGivenNames x; have hx : Kept m z x := ?_; clear_value x)
    | (extract_lets +onlyGivenNames x; have hx : Kept2 m z x := ?_; clear_value x)
    | (extract_lets +onlyGivenNames x; have hx : KeptO m z x := ?_; clear_value x)
    | (extract_lets +onlyGivenNames x; clear_value x)
    | (extract_lets +onlyGivenNames w; revert w; intro w0)
    | with_reducible apply kept_ite
    | with_reducible apply State.actSync_kept
    | with_reducible apply State.unreserve_kept
    | with_reducible apply kept2_mk
    | with_reducible apply keptO_some
    | with_reducible apply keptO_none
    | with_reducible exact keptO2_get (by with_reducible assumption)
    | (with_reducible refine kept2_eq (by with_reducible assumption) ?_)
    | (with_reducible apply kept2_proj; first | with_reducible assumption | with_reducible apply kept2_foldl)
    | (with_reducible refine keptO_eq (by with_reducible assumption) ?_)
    | with_reducible apply kept_foldl
    | split
    | dsimp -zeta only

theorem execRecipeActivateCancel_kept {a0 a1} (hregs : m.regs) (hsched : m.sched) (hhost : m.host) (hrecipe : m.recipe)
    (hfab : m.fab) (h : Kept m z s) : KeptX m z (execRecipeActivateCancel a0 a1 s) := by
  unfold execRecipeActivateCancel
  repeat' first
    | with_reducible assumption
    | intro _
    | with_reducible apply kept_ite
    | with_reducible apply State.command_kept
    | with_reducible apply State.complete_kept
    | with_reducible apply State.completeOpt_kept
    | with_reducible apply State.schedFree_kept
    | with_reducible apply State.unscheduleRecipe_kept
    | with_reducible apply keptX_ok
    | split

theorem execRecipeAutostart_kept (hregs : m.regs) (hout : m.out) (hhost : m.host) (hrecipe : m.recipe) (htab : m.tab)
    (htxf : m.txf) (htxns : m.txns) (h : Kept m z s) : KeptX m z (execRecipeAutostart s) := by
  unfold execRecipeAutostart
  repeat' first
    | with_reducible assumption
    | intro _
    | subst x
    | (extract_lets +onlyGivenNames x; have hx : Kept m z x := ?_; clear_value x)
    | (extract_lets +onlyGivenNames x; have hx : KeptO m z x := ?_; clear_value x)
    | (extract_lets +onlyGivenNames x; clear_value x)
    | (extract_lets +onlyGivenNames w; revert w; intro w0)
    | with_reducible apply kept_ite
    | with_reducible apply State.beginLoad_kept
    | with_reducible apply State.event_kept
    | with_reducible apply State.wr_kept
    | with_reducible apply keptX_ok
    | split
    | dsimp -zeta only

theorem execMinSerialWrite_kept {a0 a1 a2 a3} (hregs : m.regs) (hout : m.out) (hhost : m.host) (h : Kept m z s) : KeptX
    m z (execMinSerialWrite a0 a1 a2 a3 s) := by
  unfold execMinSerialWrite
  repeat' first
    | with_reducible assumption
    | intro _
    | subst x
    | (extract_lets +onlyGivenNames x; have hx : Kept m z x := ?_; clear_value x)
    | (extract_lets +onlyGivenNames x; clear_value x)
    | (extract_lets +onlyGivenNames w; revert w; intro w0)
    | with_reducible apply kept_ite
    | with_reducible apply State.applyPair_kept
    | with_reducible apply State.hostWrite_kept
    | with_reducible apply State.lateErr_kept
    | with_reducible apply State.wr64_kept
    | with_reducible apply keptX_ok
    | split
    | dsimp -zeta only

theorem execRecipeBootWrite_kept {a0 a1 a2} (hregs : m.regs) (hout : m.out) (hhost : m.host) (h : Kept m z s) : KeptX m
    z (execRecipeBootWrite a0 a1 a2 s) := by
  unfold execRecipeBootWrite
  repeat' first
    | with_reducible assumption
    | intro _
    | subst x
    | (extract_lets +onlyGivenNames x; have hx : Kept m z x := ?_; clear_value x)
    | (extract_lets +onlyGivenNames x; clear_value x)
    | (extract_lets +onlyGivenNames w; revert w; intro w0)
    | with_reducible apply kept_ite
    | with_reducible apply State.hostWrite_kept
    | with_reducible apply State.lateErr_kept
    | with_reducible apply State.mergeReg_kept
    | with_reducible apply State.wr_kept
    | with_reducible apply keptX_ok
    | split
    | dsimp -zeta only

end Sys2Proof.Machine
end

