-- ==== Sys2Proof/Laws/KeptTxn.lean ====
section
/-!
SUPPORT. Laws/KeptTxn.lean: what the operations of Machine/Txn.lean keep (Laws/Kept.lean).
-/

namespace Sys2Proof.Machine

set_option linter.all false

variable {m : Mask} {z s : State}

theorem State.setTx_kept {a1 a2} (hregs : m.regs) (h : Kept m z s) : Kept m z (State.setTx s a1 a2) := by
  unfold State.setTx
  repeat' first
    | with_reducible assumption
    | intro _
    | with_reducible apply State.wr_kept

theorem State.setUpd_kept {a1 a2} (hregs : m.regs) (htxns : m.txns) (h : Kept m z s) : Kept m z (State.setUpd s a1 a2)
    := by
  unfold State.setUpd
  repeat' first
    | with_reducible assumption
    | intro _
    | subst x
    | (extract_lets +onlyGivenNames x; have hx : Kept m z x := ?_; clear_value x)
    | (extract_lets +onlyGivenNames x; have hx : Kept2 m z x := ?_; clear_value x)
    | (extract_lets +onlyGivenNames x; have hx : KeptO m z x := ?_; clear_value x)
    | (extract_lets +onlyGivenNames x; clear_value x)
    | (extract_lets +onlyGivenNames w; revert w; intro w0)
    | with_reducible apply kept_ite
    | with_reducible apply State.wr_kept
    | with_reducible apply kept2_mk
    | with_reducible apply keptO_some
    | with_reducible apply keptO_none
    | with_reducible exact keptO2_get (by with_reducible assumption)
    | (with_reducible refine kept2_eq (by with_reducible assumption) ?_)
    | (with_reducible apply kept2_proj; first | with_reducible assumption | with_reducible apply kept2_foldl)
    | (with_reducible refine keptO_eq (by with_reducible assumption) ?_)
    | with_reducible apply kept_foldl
    | split
    | dsimp -zeta only
    | (with_reducible refine kept_mk rfl ?_ rfl rfl rfl rfl ?_ ?_ ?_ ?_ ?_ ?_ ?_ ?_ ?_ ?_ ?_ ?_ ?_ ?_ ?_ ?_ ?_ ?_ ?_ <;> first | with_reducible exact Or.inr rfl | exact Or.inl (by assumption) | with_reducible assumption | with_reducible exact keptO2_get (by with_reducible assumption) | (with_reducible refine kept2_eq (by with_reducible assumption) ?_) | (with_reducible refine keptO_eq (by with_reducible assumption) ?_) | with_reducible apply State.wr_kept)

theorem State.txDone_kept {a1 a2 a3} (hregs : m.regs) (hhost : m.host) (hfab : m.fab) (h : Kept m z s) : Kept m z
    (State.txDone s a1 a2 a3) := by
  unfold State.txDone
  repeat' first
    | with_reducible assumption
    | intro _
    | with_reducible apply State.complete_kept
    | with_reducible apply State.wr_kept

theorem State.freeTx_kept {a1} (hregs : m.regs) (htxns : m.txns) (h : Kept m z s) : Kept m z (State.freeTx s a1) := by
  unfold State.freeTx
  repeat' first
    | with_reducible assumption
    | intro _
    | with_reducible apply State.setTx_kept
    | with_reducible apply State.setUpd_kept

theorem State.txCommand_kept {a1 a2 a3 a4 a5 k6} (hregs : m.regs) (hhost : m.host) (htxns : m.txns) (hfab : m.fab) (h :
    Kept m z s) (hk6 : ∀ t, Kept m z t → Kept m z (k6 t)) : Kept m z (State.txCommand s a1 a2 a3 a4 a5 k6) := by
  unfold State.txCommand
  repeat' first
    | with_reducible assumption
    | intro _
    | subst x
    | (extract_lets +onlyGivenNames x; have hx : Kept m z x := ?_; clear_value x)
    | (extract_lets +onlyGivenNames x; clear_value x)
    | (extract_lets +onlyGivenNames w; revert w; intro w0)
    | with_reducible apply hk6
    | with_reducible apply kept_ite
    | with_reducible apply State.command_kept
    | with_reducible apply State.complete_kept
    | with_reducible apply State.freeTx_kept
    | with_reducible apply State.refuse_kept
    | with_reducible apply State.txDone_kept
    | split
    | dsimp -zeta only

theorem execTxnOpen_kept {a0 a1} (hregs : m.regs) (hhost : m.host) (htxns : m.txns) (hfab : m.fab) (h : Kept m z s) :
    KeptX m z (execTxnOpen a0 a1 s) := by
  unfold execTxnOpen
  repeat' first
    | with_reducible assumption
    | intro _
    | subst x
    | (extract_lets +onlyGivenNames x; have hx : Kept m z x := ?_; clear_value x)
    | (extract_lets +onlyGivenNames x; clear_value x)
    | (extract_lets +onlyGivenNames w; revert w; intro w0)
    | with_reducible apply kept_ite
    | with_reducible apply State.setTx_kept
    | with_reducible apply State.setUpd_kept
    | with_reducible apply State.txCommand_kept
    | with_reducible apply State.txDone_kept
    | with_reducible apply State.wr_kept
    | with_reducible apply State.wr64_kept
    | with_reducible apply State.wrBit_kept
    | with_reducible apply keptX_ok
    | split
    | dsimp -zeta only

theorem State.stage_kept {a1 a2 a3 a4 a5} (hregs : m.regs) (hhost : m.host) (htxns : m.txns) (hfab : m.fab) (h : Kept m
    z s) : Kept m z (State.stage s a1 a2 a3 a4 a5) := by
  unfold State.stage
  repeat' first
    | with_reducible assumption
    | intro _
    | subst x
    | (extract_lets +onlyGivenNames x; have hx : Kept m z x := ?_; clear_value x)
    | (extract_lets +onlyGivenNames x; clear_value x)
    | (extract_lets +onlyGivenNames w; revert w; intro w0)
    | with_reducible apply kept_ite
    | with_reducible apply State.setUpd_kept
    | with_reducible apply State.txCommand_kept
    | with_reducible apply State.txDone_kept
    | split
    | dsimp -zeta only

theorem execTxnStageAsmInsert_kept {a0 a1 a2 a3 a4 a5 a6 a7 a8 a9 a10} (hregs : m.regs) (hhost : m.host) (htxns :
    m.txns) (hfab : m.fab) (h : Kept m z s) : KeptX m z (execTxnStageAsmInsert a0 a1 a2 a3 a4 a5 a6 a7 a8 a9 a10 s) :=
    by
  unfold execTxnStageAsmInsert
  repeat' first
    | with_reducible assumption
    | intro _
    | with_reducible apply State.stage_kept
    | with_reducible apply keptX_ok
    | with_reducible apply kept2_mk
    | (with_reducible apply kept2_proj; first | with_reducible assumption | with_reducible apply kept2_foldl)
    | dsimp -zeta only

theorem execTxnStageAsmDelete_kept {a0 a1 a2 a3 a4 a5 a6 a7 a8 a9} (hregs : m.regs) (hhost : m.host) (htxns : m.txns)
    (hfab : m.fab) (h : Kept m z s) : KeptX m z (execTxnStageAsmDelete a0 a1 a2 a3 a4 a5 a6 a7 a8 a9 s) := by
  unfold execTxnStageAsmDelete
  repeat' first
    | with_reducible assumption
    | intro _
    | with_reducible apply State.stage_kept
    | with_reducible apply keptX_ok
    | with_reducible apply kept2_mk
    | (with_reducible apply kept2_proj; first | with_reducible assumption | with_reducible apply kept2_foldl)
    | dsimp -zeta only

theorem execTxnStageAsmModify_kept {a0 a1 a2 a3 a4 a5 a6 a7 a8 a9 a10} (hregs : m.regs) (hhost : m.host) (htxns :
    m.txns) (hfab : m.fab) (h : Kept m z s) : KeptX m z (execTxnStageAsmModify a0 a1 a2 a3 a4 a5 a6 a7 a8 a9 a10 s) :=
    by
  unfold execTxnStageAsmModify
  repeat' first
    | with_reducible assumption
    | intro _
    | with_reducible apply State.stage_kept
    | with_reducible apply keptX_ok
    | with_reducible apply kept2_mk
    | (with_reducible apply kept2_proj; first | with_reducible assumption | with_reducible apply kept2_foldl)
    | dsimp -zeta only

theorem execTxnStageAsmRewrite_kept {a0 a1 a2 a3 a4 a5 a6 a7 a8 a9} (hregs : m.regs) (hhost : m.host) (htxns : m.txns)
    (hfab : m.fab) (h : Kept m z s) : KeptX m z (execTxnStageAsmRewrite a0 a1 a2 a3 a4 a5 a6 a7 a8 a9 s) := by
  unfold execTxnStageAsmRewrite
  repeat' first
    | with_reducible assumption
    | intro _
    | with_reducible apply State.stage_kept
    | with_reducible apply keptX_ok
    | with_reducible apply kept2_mk
    | (with_reducible apply kept2_proj; first | with_reducible assumption | with_reducible apply kept2_foldl)
    | dsimp -zeta only

theorem State.stageExm_kept {a1 a2 a3 a4 a5 a6 a7} (hregs : m.regs) (hhost : m.host) (htxns : m.txns) (hfab : m.fab) (h
    : Kept m z s) : Kept m z (State.stageExm s a1 a2 a3 a4 a5 a6 a7) := by
  unfold State.stageExm
  repeat' first
    | with_reducible assumption
    | intro _
    | with_reducible apply kept_ite
    | with_reducible apply State.stage_kept
    | with_reducible apply State.txCommand_kept
    | with_reducible apply State.txDone_kept
    | split

theorem execTxnStageExmInsert_kept {a0 a1 a2 a3 a4 a5} (hregs : m.regs) (hhost : m.host) (htxns : m.txns) (hfab :
    m.fab) (h : Kept m z s) : KeptX m z (execTxnStageExmInsert a0 a1 a2 a3 a4 a5 s) := by
  unfold execTxnStageExmInsert
  repeat' first
    | with_reducible assumption
    | intro _
    | with_reducible apply State.stageExm_kept
    | with_reducible apply keptX_ok

theorem execTxnStageExmDelete_kept {a0 a1 a2 a3 a4 a5} (hregs : m.regs) (hhost : m.host) (htxns : m.txns) (hfab :
    m.fab) (h : Kept m z s) : KeptX m z (execTxnStageExmDelete a0 a1 a2 a3 a4 a5 s) := by
  unfold execTxnStageExmDelete
  repeat' first
    | with_reducible assumption
    | intro _
    | with_reducible apply State.stageExm_kept
    | with_reducible apply keptX_ok

theorem execTxnStageExmModify_kept {a0 a1 a2 a3 a4 a5} (hregs : m.regs) (hhost : m.host) (htxns : m.txns) (hfab :
    m.fab) (h : Kept m z s) : KeptX m z (execTxnStageExmModify a0 a1 a2 a3 a4 a5 s) := by
  unfold execTxnStageExmModify
  repeat' first
    | with_reducible assumption
    | intro _
    | with_reducible apply State.stageExm_kept
    | with_reducible apply keptX_ok

theorem execTxnStageArrayWrite_kept {a0 a1 a2 a3 a4 a5 a6} (hregs : m.regs) (hhost : m.host) (htxns : m.txns) (hfab :
    m.fab) (h : Kept m z s) : KeptX m z (execTxnStageArrayWrite a0 a1 a2 a3 a4 a5 a6 s) := by
  unfold execTxnStageArrayWrite
  repeat' first
    | with_reducible assumption
    | intro _
    | subst x
    | (extract_lets +onlyGivenNames x; have hx : Kept m z x := ?_; clear_value x)
    | (extract_lets +onlyGivenNames x; have hx : Kept2 m z x := ?_; clear_value x)
    | (extract_lets +onlyGivenNames x; clear_value x)
    | (extract_lets +onlyGivenNames w; revert w; intro w0)
    | with_reducible apply kept_ite
    | with_reducible apply State.stage_kept
    | with_reducible apply keptX_ok
    | with_reducible apply kept2_mk
    | (with_reducible refine kept2_eq (by with_reducible assumption) ?_)
    | (with_reducible apply kept2_proj; first | with_reducible assumption | with_reducible apply kept2_foldl)
    | split
    | dsimp -zeta only

theorem execTxnStageArrayClear_kept {a0 a1 a2 a3 a4} (hregs : m.regs) (hhost : m.host) (htxns : m.txns) (hfab : m.fab)
    (h : Kept m z s) : KeptX m z (execTxnStageArrayClear a0 a1 a2 a3 a4 s) := by
  unfold execTxnStageArrayClear
  repeat' first
    | with_reducible assumption
    | intro _
    | with_reducible apply kept_ite
    | with_reducible apply State.stage_kept
    | with_reducible apply keptX_ok
    | split

theorem execTxnStageTdWrite_kept {a0 a1 a2 a3 a4 a5} (hregs : m.regs) (hhost : m.host) (htxns : m.txns) (hfab : m.fab)
    (h : Kept m z s) : KeptX m z (execTxnStageTdWrite a0 a1 a2 a3 a4 a5 s) := by
  unfold execTxnStageTdWrite
  repeat' first
    | with_reducible assumption
    | intro _
    | with_reducible apply State.stage_kept
    | with_reducible apply keptX_ok
    | with_reducible apply kept2_mk
    | (with_reducible apply kept2_proj; first | with_reducible assumption | with_reducible apply kept2_foldl)
    | dsimp -zeta only

theorem State.placeWrite_kept {a1 a2} (hregs : m.regs) (hout : m.out) (hhost : m.host) (htab : m.tab) (hcnt : m.cnt)
    (hmem : m.mem) (h : Kept m z s) : KeptE m z (State.placeWrite s a1 a2) := by
  unfold State.placeWrite
  repeat' first
    | with_reducible assumption
    | intro _
    | subst x
    | (extract_lets +onlyGivenNames x; have hx : Kept m z x := ?_; clear_value x)
    | (extract_lets +onlyGivenNames x; have hx : KeptE m z x := ?_; clear_value x)
    | (extract_lets +onlyGivenNames x; have hx : KeptO m z x := ?_; clear_value x)
    | (extract_lets +onlyGivenNames x; clear_value x)
    | (extract_lets +onlyGivenNames w; revert w; intro w0)
    | with_reducible apply kept_ite
    | with_reducible apply State.count_kept
    | with_reducible apply State.countPlaced_kept
    | with_reducible apply State.setAsm_kept
    | with_reducible apply State.setExm_kept
    | with_reducible apply keptE_ok
    | with_reducible apply keptE_error
    | (with_reducible refine keptE_eq (by with_reducible assumption) ?_)
    | split
    | dsimp -zeta only

theorem State.placeAll_kept {a1 a2} (hregs : m.regs) (hout : m.out) (hhost : m.host) (htab : m.tab) (hcnt : m.cnt)
    (hmem : m.mem) (h : Kept m z s) : KeptE m z (State.placeAll s a1 a2) := by
  induction a2 generalizing s a1
  all_goals
    unfold State.placeAll
    repeat' first
      | with_reducible assumption
      | intro _
      | with_reducible apply_assumption
      | with_reducible apply State.placeWrite_kept
      | with_reducible apply keptE_ok
      | with_reducible apply keptE_error
      | (with_reducible refine keptE_eq (by with_reducible assumption) ?_)
      | split

theorem State.unprepare_kept {a1} (hregs : m.regs) (hout : m.out) (hhost : m.host) (htab : m.tab) (hcnt : m.cnt) (hmem
    : m.mem) (h : Kept m z s) : Kept m z (State.unprepare s a1) := by
  unfold State.unprepare
  repeat' first
    | with_reducible assumption
    | intro _
    | subst x
    | (extract_lets +onlyGivenNames x; have hx : Kept m z x := ?_; clear_value x)
    | (extract_lets +onlyGivenNames x; have hx : KeptO m z x := ?_; clear_value x)
    | (extract_lets +onlyGivenNames x; clear_value x)
    | (extract_lets +onlyGivenNames w; revert w; intro w0)
    | with_reducible apply kept_ite
    | with_reducible apply State.each_kept
    | with_reducible apply State.setAsm_kept
    | with_reducible apply State.setExm_kept
    | split
    | dsimp -zeta only

theorem execTxnPrepare_kept {a0 a1} (hregs : m.regs) (hhost : m.host) (htxns : m.txns) (hfab : m.fab) (h : Kept m z s)
    : KeptX m z (execTxnPrepare a0 a1 s) := by
  unfold execTxnPrepare
  repeat' first
    | with_reducible assumption
    | intro _
    | subst x
    | (extract_lets +onlyGivenNames x; have hx : Kept m z x := ?_; clear_value x)
    | (extract_lets +onlyGivenNames x; have hx : KeptO m z x := ?_; clear_value x)
    | (extract_lets +onlyGivenNames x; clear_value x)
    | (extract_lets +onlyGivenNames w; revert w; intro w0)
    | with_reducible apply kept_ite
    | with_reducible apply State.setTx_kept
    | with_reducible apply State.setUpd_kept
    | with_reducible apply State.txCommand_kept
    | with_reducible apply State.txDone_kept
    | with_reducible apply keptX_ok
    | split
    | dsimp -zeta only

theorem execTxnPrepareComplete_kept {a0} (hregs : m.regs) (hout : m.out) (hhost : m.host) (htab : m.tab) (htxns :
    m.txns) (hcnt : m.cnt) (hmem : m.mem) (hfab : m.fab) (h : Kept m z s) : KeptX m z (execTxnPrepareComplete a0 s) :=
    by
  unfold execTxnPrepareComplete
  repeat' first
    | with_reducible assumption
    | intro _
    | subst x
    | (extract_lets +onlyGivenNames x; have hx : Kept m z x := ?_; clear_value x)
    | (extract_lets +onlyGivenNames x; have hx : KeptE m z x := ?_; clear_value x)
    | (extract_lets +onlyGivenNames x; have hx : ∀ t a, Kept m z t → Kept m z (x t a) := ?_; clear_value x)
    | (extract_lets +onlyGivenNames x; clear_value x)
    | (extract_lets +onlyGivenNames w; revert w; intro w0)
    | with_reducible apply kept_ite
    | with_reducible apply State.bump_kept
    | with_reducible apply State.each_kept
    | with_reducible apply State.onlyIf_kept
    | with_reducible apply State.placeAll_kept
    | with_reducible apply State.setTx_kept
    | with_reducible apply State.setUpd_kept
    | with_reducible apply State.txDone_kept
    | with_reducible apply keptX_ok
    | with_reducible apply keptE_ok
    | with_reducible apply keptE_error
    | (with_reducible refine keptE_eq (by with_reducible assumption) ?_)
    | apply_assumption
    | split
    | dsimp -zeta only

theorem execTxnCommit_kept {a0 a1 a2} (hregs : m.regs) (hsched : m.sched) (hhost : m.host) (htxns : m.txns) (hfab :
    m.fab) (h : Kept m z s) : KeptX m z (execTxnCommit a0 a1 a2 s) := by
  unfold execTxnCommit
  repeat' first
    | with_reducible assumption
    | intro _
    | subst x
    | (extract_lets +onlyGivenNames x; have hx : Kept m z x := ?_; clear_value x)
    | (extract_lets +onlyGivenNames x; have hx : KeptO m z x := ?_; clear_value x)
    | (extract_lets +onlyGivenNames x; clear_value x)
    | (extract_lets +onlyGivenNames w; revert w; intro w0)
    | with_reducible apply kept_ite
    | with_reducible apply State.accepted_kept
    | with_reducible apply State.schedTake_kept
    | with_reducible apply State.setTx_kept
    | with_reducible apply State.setUpd_kept
    | with_reducible apply State.txCommand_kept
    | with_reducible apply State.txDone_kept
    | with_reducible apply State.wr_kept
    | with_reducible apply State.wr64_kept
    | with_reducible apply State.wrBit_kept
    | with_reducible apply keptX_ok
    | split
    | dsimp -zeta only

theorem State.withdrawCommit_kept {a1 a2 a3} (hregs : m.regs) (hsched : m.sched) (hhost : m.host) (htxns : m.txns)
    (hfab : m.fab) (h : Kept m z s) : Kept m z (State.withdrawCommit s a1 a2 a3) := by
  unfold State.withdrawCommit
  repeat' first
    | with_reducible assumption
    | intro _
    | subst x
    | (extract_lets +onlyGivenNames x; have hx : Kept m z x := ?_; clear_value x)
    | (extract_lets +onlyGivenNames x; clear_value x)
    | (extract_lets +onlyGivenNames w; revert w; intro w0)
    | with_reducible apply State.completeOpt_kept
    | with_reducible apply State.schedFree_kept
    | with_reducible apply State.setTx_kept
    | with_reducible apply State.setUpd_kept
    | with_reducible apply State.wr_kept
    | dsimp -zeta only

theorem execTxnCommitCancel_kept {a0 a1} (hregs : m.regs) (hsched : m.sched) (hhost : m.host) (htxns : m.txns) (hfab :
    m.fab) (h : Kept m z s) : KeptX m z (execTxnCommitCancel a0 a1 s) := by
  unfold execTxnCommitCancel
  repeat' first
    | with_reducible assumption
    | intro _
    | with_reducible apply kept_ite
    | with_reducible apply State.txCommand_kept
    | with_reducible apply State.txDone_kept
    | with_reducible apply State.withdrawCommit_kept
    | with_reducible apply keptX_ok
    | split

theorem execTxnAbort_kept {a0 a1} (hregs : m.regs) (hout : m.out) (hsched : m.sched) (hhost : m.host) (htab : m.tab)
    (htxns : m.txns) (hcnt : m.cnt) (hmem : m.mem) (hfab : m.fab) (h : Kept m z s) : KeptX m z (execTxnAbort a0 a1 s)
    := by
  unfold execTxnAbort
  repeat' first
    | with_reducible assumption
    | intro _
    | subst x
    | (extract_lets +onlyGivenNames x; have hx : Kept m z x := ?_; clear_value x)
    | (extract_lets +onlyGivenNames x; clear_value x)
    | (extract_lets +onlyGivenNames w; revert w; intro w0)
    | with_reducible apply kept_ite
    | with_reducible apply State.freeTx_kept
    | with_reducible apply State.txCommand_kept
    | with_reducible apply State.txDone_kept
    | with_reducible apply State.unprepare_kept
    | with_reducible apply State.withdrawCommit_kept
    | with_reducible apply keptX_ok
    | split
    | dsimp -zeta only

theorem State.failCommit_kept {a1 a2} (hregs : m.regs) (hout : m.out) (hsched : m.sched) (hhost : m.host) (htab :
    m.tab) (htxns : m.txns) (hcnt : m.cnt) (hmem : m.mem) (hfab : m.fab) (h : Kept m z s) : Kept m z (State.failCommit
    s a1 a2) := by
  unfold State.failCommit
  repeat' first
    | with_reducible assumption
    | intro _
    | subst x
    | (extract_lets +onlyGivenNames x; have hx : Kept m z x := ?_; clear_value x)
    | (extract_lets +onlyGivenNames x; clear_value x)
    | (extract_lets +onlyGivenNames w; revert w; intro w0)
    | with_reducible apply kept_ite
    | with_reducible apply State.bump_kept
    | with_reducible apply State.completeOpt_kept
    | with_reducible apply State.event_kept
    | with_reducible apply State.schedFree_kept
    | with_reducible apply State.setTx_kept
    | with_reducible apply State.setUpd_kept
    | with_reducible apply State.unprepare_kept
    | with_reducible apply State.wr_kept
    | split
    | dsimp -zeta only

theorem State.verifyCommit_kept {a1 a2 a3} (hregs : m.regs) (hout : m.out) (hsched : m.sched) (hhost : m.host) (htab :
    m.tab) (htxns : m.txns) (hcnt : m.cnt) (hmem : m.mem) (hfab : m.fab) (h : Kept m z s) : Kept m z
    (State.verifyCommit s a1 a2 a3) := by
  unfold State.verifyCommit
  repeat' first
    | with_reducible assumption
    | intro _
    | subst x
    | (extract_lets +onlyGivenNames x; have hx : Kept m z x := ?_; clear_value x)
    | (extract_lets +onlyGivenNames x; clear_value x)
    | (extract_lets +onlyGivenNames w; revert w; intro w0)
    | with_reducible apply kept_ite
    | with_reducible apply State.failCommit_kept
    | with_reducible apply State.setUpd_kept
    | split
    | dsimp -zeta only

theorem State.openAsm_kept {a1 a2} (hregs : m.regs) (htab : m.tab) (h : Kept m z s) : Kept m z (State.openAsm s a1 a2)
    := by
  unfold State.openAsm
  repeat' first
    | with_reducible assumption
    | intro _
    | with_reducible apply State.setAsm_kept
    | with_reducible apply State.wr64_kept
    | split

theorem State.openExm_kept {a1 a2} (hregs : m.regs) (hout : m.out) (hhost : m.host) (htab : m.tab) (hcnt : m.cnt) (hmem
    : m.mem) (h : Kept m z s) : Kept m z (State.openExm s a1 a2) := by
  unfold State.openExm
  repeat' first
    | with_reducible assumption
    | intro _
    | with_reducible apply State.each_kept
    | with_reducible apply State.setExm_kept
    | split

theorem State.tdCommit_kept {a1 a2 a3 a4} (hbuf : m.buf) (h : Kept m z s) : Kept m z (State.tdCommit s a1 a2 a3 a4) :=
    by
  unfold State.tdCommit
  repeat' first
    | with_reducible assumption
    | intro _
    | subst x
    | (extract_lets +onlyGivenNames x; have hx : Kept m z x := ?_; clear_value x)
    | (extract_lets +onlyGivenNames x; clear_value x)
    | (extract_lets +onlyGivenNames w; revert w; intro w0)
    | with_reducible apply kept_ite
    | with_reducible apply State.fillBuckets_kept
    | with_reducible apply State.onlyIf_kept
    | with_reducible apply State.setNodeSt_kept
    | with_reducible apply State.tdPut_kept
    | split
    | dsimp -zeta only

theorem State.commitWrite_kept {a1 a2 a3 a4} (hregs : m.regs) (hout : m.out) (hhost : m.host) (htab : m.tab) (htxf :
    m.txf) (hcnt : m.cnt) (hbuf : m.buf) (hmem : m.mem) (h : Kept m z s) : Kept m z (State.commitWrite s a1 a2 a3 a4)
    := by
  unfold State.commitWrite
  repeat' first
    | with_reducible assumption
    | intro _
    | subst x
    | (extract_lets +onlyGivenNames x; have hx : Kept m z x := ?_; clear_value x)
    | (extract_lets +onlyGivenNames x; have hx : Kept1 m z x := ?_; clear_value x)
    | (extract_lets +onlyGivenNames x; have hx : Kept2 m z x := ?_; clear_value x)
    | (extract_lets +onlyGivenNames x; have hx : KeptO m z x := ?_; clear_value x)
    | (extract_lets +onlyGivenNames x; clear_value x)
    | (extract_lets +onlyGivenNames w; revert w; intro w0)
    | with_reducible apply kept_ite
    | with_reducible apply State.each_kept
    | with_reducible apply State.execute_kept
    | with_reducible apply State.openAsm_kept
    | with_reducible apply State.openExm_kept
    | with_reducible apply State.rewrite_kept
    | with_reducible apply State.setAsm_kept
    | with_reducible apply State.setExm_kept
    | with_reducible apply State.settle_kept
    | with_reducible apply State.tdCommit_kept
    | with_reducible apply kept2_mk
    | with_reducible apply keptO_some
    | with_reducible apply keptO_none
    | with_reducible exact keptO2_get (by with_reducible assumption)
    | (with_reducible refine kept1_eq (by with_reducible assumption) ?_)
    | (with_reducible apply kept1_proj; first | with_reducible assumption | with_reducible apply State.execute_kept)
    | (with_reducible refine kept2_eq (by with_reducible assumption) ?_)
    | (with_reducible apply kept2_proj; first | with_reducible assumption | with_reducible apply kept2_foldl)
    | (with_reducible refine keptO_eq (by with_reducible assumption) ?_)
    | with_reducible apply kept_foldl
    | split
    | dsimp -zeta only
    | (with_reducible refine kept_mk rfl ?_ rfl rfl rfl rfl ?_ ?_ ?_ ?_ ?_ ?_ ?_ ?_ ?_ ?_ ?_ ?_ ?_ ?_ ?_ ?_ ?_ ?_ ?_ <;> first | with_reducible exact Or.inr rfl | exact Or.inl (by assumption) | with_reducible assumption | with_reducible exact keptO2_get (by with_reducible assumption) | (with_reducible refine kept1_eq (by with_reducible assumption) ?_) | (with_reducible refine kept2_eq (by with_reducible assumption) ?_) | (with_reducible refine keptO_eq (by with_reducible assumption) ?_) | with_reducible apply State.each_kept | with_reducible apply State.execute_kept | with_reducible apply State.openAsm_kept | with_reducible apply State.openExm_kept | with_reducible apply State.rewrite_kept | with_reducible apply State.setAsm_kept | with_reducible apply State.setExm_kept | with_reducible apply State.settle_kept | with_reducible apply State.tdCommit_kept)

theorem State.fireCommit_kept {a1 a2 a3 a4} (hregs : m.regs) (hout : m.out) (hhost : m.host) (htab : m.tab) (htxf :
    m.txf) (htxns : m.txns) (hcnt : m.cnt) (hbuf : m.buf) (hmem : m.mem) (hfab : m.fab) (h : Kept m z s) : Kept m z
    (State.fireCommit s a1 a2 a3 a4) := by
  unfold State.fireCommit
  repeat' first
    | with_reducible assumption
    | intro _
    | subst x
    | (extract_lets +onlyGivenNames x; have hx : Kept m z x := ?_; clear_value x)
    | (extract_lets +onlyGivenNames x; clear_value x)
    | (extract_lets +onlyGivenNames w; revert w; intro w0)
    | with_reducible apply State.commitWrite_kept
    | with_reducible apply State.completeOpt_kept
    | with_reducible apply State.each_kept
    | with_reducible apply State.freeTx_kept
    | with_reducible apply State.wr_kept
    | split
    | dsimp -zeta only

theorem State.abortAllTxns_kept (hregs : m.regs) (hout : m.out) (hsched : m.sched) (hhost : m.host) (htab : m.tab)
    (htxns : m.txns) (hcnt : m.cnt) (hmem : m.mem) (hfab : m.fab) (h : Kept m z s) : Kept m z (State.abortAllTxns s) :=
    by
  unfold State.abortAllTxns
  repeat' first
    | with_reducible assumption
    | intro _
    | subst x
    | (extract_lets +onlyGivenNames x; have hx : Kept m z x := ?_; clear_value x)
    | (extract_lets +onlyGivenNames x; clear_value x)
    | (extract_lets +onlyGivenNames w; revert w; intro w0)
    | with_reducible apply kept_ite
    | with_reducible apply State.completeOpt_kept
    | with_reducible apply State.each_kept
    | with_reducible apply State.onlyIf_kept
    | with_reducible apply State.schedFree_kept
    | with_reducible apply State.setTx_kept
    | with_reducible apply State.setUpd_kept
    | with_reducible apply State.unprepare_kept
    | with_reducible apply State.wr_kept
    | split
    | dsimp -zeta only

end Sys2Proof.Machine
end

