-- ==== Sys2Proof/Laws/KeptSearch.lean ====
section
/-!
SUPPORT. Laws/KeptSearch.lean: what the operations of Machine/Search.lean keep (Laws/Kept.lean).
-/

namespace Sys2Proof.Machine

set_option linter.all false

variable {m : Mask} {z s : State}

theorem State.putResult_kept {a1 a2 a3} (hout : m.out) (h : Kept m z s) : Kept m z (State.putResult s a1 a2 a3) := by
  unfold State.putResult
  repeat' first
    | with_reducible assumption
    | intro _
    | with_reducible apply State.emit_kept
    | split

theorem State.readPoisoned_kept {a1 a2} (hregs : m.regs) (hout : m.out) (hhost : m.host) (hmem : m.mem) (h : Kept m z
    s) : Kept m z (State.readPoisoned s a1 a2) := by
  unfold State.readPoisoned
  repeat' first
    | with_reducible assumption
    | intro _
    | subst x
    | (extract_lets +onlyGivenNames x; have hx : Kept m z x := ?_; clear_value x)
    | (extract_lets +onlyGivenNames x; clear_value x)
    | (extract_lets +onlyGivenNames w; revert w; intro w0)
    | with_reducible apply kept_ite
    | with_reducible apply State.count_kept
    | with_reducible apply State.each_kept
    | with_reducible apply State.onlyIf_kept
    | with_reducible apply State.uncorrectable_kept
    | split
    | dsimp -zeta only

theorem execSearch_kept {a0 a1 a2 a3 a4 a5 a6 a7 a8} (hregs : m.regs) (hout : m.out) (hhost : m.host) (hcnt : m.cnt)
    (hmem : m.mem) (hfab : m.fab) (h : Kept m z s) : KeptX m z (execSearch a0 a1 a2 a3 a4 a5 a6 a7 a8 s) := by
  unfold execSearch
  repeat' first
    | with_reducible assumption
    | intro _
    | subst x
    | (extract_lets +onlyGivenNames x; have hx : Kept m z x := ?_; clear_value x)
    | (extract_lets +onlyGivenNames x; have hx : Kept2 m z x := ?_; clear_value x)
    | (extract_lets +onlyGivenNames x; have hx : ∀ t, Kept m z t → Kept m z (x t) := ?_; clear_value x)
    | (extract_lets +onlyGivenNames x; clear_value x)
    | (extract_lets +onlyGivenNames w; revert w; intro w0)
    | with_reducible apply kept_ite
    | with_reducible apply State.bump_kept
    | with_reducible apply State.command_kept
    | with_reducible apply State.complete_kept
    | with_reducible apply State.countReads_kept
    | with_reducible apply State.onlyIf_kept
    | with_reducible apply State.putResult_kept
    | with_reducible apply State.readBuckets_kept
    | with_reducible apply State.readPoisoned_kept
    | with_reducible apply keptX_ok
    | with_reducible apply kept2_mk
    | (with_reducible refine kept2_eq (by with_reducible assumption) ?_)
    | (with_reducible apply kept2_proj; first | with_reducible assumption | with_reducible apply kept2_foldl | with_reducible apply State.readBuckets_kept)
    | with_reducible apply kept_foldl
    | apply_assumption
    | split
    | dsimp -zeta only

theorem State.setIter_kept {a1 a2} (hregs : m.regs) (htab : m.tab) (h : Kept m z s) : Kept m z (State.setIter s a1 a2)
    := by
  unfold State.setIter
  repeat' first
    | with_reducible assumption
    | intro _
    | subst x
    | (extract_lets +onlyGivenNames x; have hx : Kept m z x := ?_; clear_value x)
    | (extract_lets +onlyGivenNames x; have hx : Kept2 m z x := ?_; clear_value x)
    | (extract_lets +onlyGivenNames x; have hx : KeptO m z x := ?_; clear_value x)
    | (extract_lets +onlyGivenNames x; clear_value x)
    | (extract_lets +onlyGivenNames w; revert w; intro w0)
    | with_reducible apply kept_ite
    | with_reducible apply State.wrBit_kept
    | with_reducible apply kept2_mk
    | with_reducible apply keptO_some
    | with_reducible apply keptO_none
    | with_reducible exact keptO2_get (by with_reducible assumption)
    | (with_reducible refine kept2_eq (by with_reducible assumption) ?_)
    | (with_reducible apply kept2_proj; first | with_reducible assumption | with_reducible apply kept2_foldl)
    | (with_reducible refine keptO_eq (by with_reducible assumption) ?_)
    | with_reducible apply kept_foldl
    | split
    | dsimp -zeta only
    | (with_reducible refine kept_mk rfl ?_ rfl rfl rfl rfl ?_ ?_ ?_ ?_ ?_ ?_ ?_ ?_ ?_ ?_ ?_ ?_ ?_ ?_ ?_ ?_ ?_ ?_ ?_ <;> first | with_reducible exact Or.inr rfl | exact Or.inl (by assumption) | with_reducible assumption | with_reducible exact keptO2_get (by with_reducible assumption) | (with_reducible refine kept2_eq (by with_reducible assumption) ?_) | (with_reducible refine keptO_eq (by with_reducible assumption) ?_) | with_reducible apply State.wrBit_kept)

theorem State.iterate_kept {a1 a2 a3 a4 a5 a6 a7 a8 a9} (hregs : m.regs) (hout : m.out) (hhost : m.host) (htab : m.tab)
    (hcnt : m.cnt) (hmem : m.mem) (hfab : m.fab) (h : Kept m z s) : Kept m z (State.iterate s a1 a2 a3 a4 a5 a6 a7 a8
    a9) := by
  unfold State.iterate
  repeat' first
    | with_reducible assumption
    | intro _
    | subst x
    | (extract_lets +onlyGivenNames x; have hx : Kept m z x := ?_; clear_value x)
    | (extract_lets +onlyGivenNames x; have hx : Kept2 m z x := ?_; clear_value x)
    | (extract_lets +onlyGivenNames x; have hx : KeptO m z x := ?_; clear_value x)
    | (extract_lets +onlyGivenNames x; clear_value x)
    | (extract_lets +onlyGivenNames w; revert w; intro w0)
    | with_reducible apply kept_ite
    | with_reducible apply State.complete_kept
    | with_reducible apply State.putResult_kept
    | with_reducible apply State.readBuckets_kept
    | with_reducible apply State.readPoisoned_kept
    | with_reducible apply State.setIter_kept
    | (with_reducible refine kept2_eq (by with_reducible assumption) ?_)
    | (with_reducible apply kept2_proj; first | with_reducible assumption | with_reducible apply kept2_foldl | with_reducible apply State.readBuckets_kept)
    | split
    | dsimp -zeta only

theorem execNext_kept {a0 a1 a2 a3 a4 a5 a6 a7 a8} (hregs : m.regs) (hout : m.out) (hhost : m.host) (htab : m.tab)
    (hcnt : m.cnt) (hmem : m.mem) (hfab : m.fab) (h : Kept m z s) : KeptX m z (execNext a0 a1 a2 a3 a4 a5 a6 a7 a8 s)
    := by
  unfold execNext
  repeat' first
    | with_reducible assumption
    | intro _
    | subst x
    | (extract_lets +onlyGivenNames x; have hx : Kept m z x := ?_; clear_value x)
    | (extract_lets +onlyGivenNames x; have hx : Kept2 m z x := ?_; clear_value x)
    | (extract_lets +onlyGivenNames x; clear_value x)
    | (extract_lets +onlyGivenNames w; revert w; intro w0)
    | with_reducible apply kept_ite
    | with_reducible apply State.command_kept
    | with_reducible apply State.complete_kept
    | with_reducible apply State.iterate_kept
    | with_reducible apply State.putResult_kept
    | with_reducible apply State.setIter_kept
    | with_reducible apply keptX_ok
    | with_reducible apply kept2_mk
    | (with_reducible refine kept2_eq (by with_reducible assumption) ?_)
    | (with_reducible apply kept2_proj; first | with_reducible assumption | with_reducible apply kept2_foldl)
    | split
    | dsimp -zeta only

theorem execIterationContextExpire_kept {a0} (hregs : m.regs) (htab : m.tab) (h : Kept m z s) : KeptX m z
    (execIterationContextExpire a0 s) := by
  unfold execIterationContextExpire
  repeat' first
    | with_reducible assumption
    | intro _
    | with_reducible apply kept_ite
    | with_reducible apply State.setIter_kept
    | with_reducible apply keptX_ok
    | split

theorem execFlushPort_kept {a0 a1 a2 a3 a4 a5} (hregs : m.regs) (hout : m.out) (hhost : m.host) (htab : m.tab) (hcnt :
    m.cnt) (hmem : m.mem) (hfab : m.fab) (h : Kept m z s) : KeptX m z (execFlushPort a0 a1 a2 a3 a4 a5 s) := by
  unfold execFlushPort
  repeat' first
    | with_reducible assumption
    | intro _
    | with_reducible apply kept_ite
    | with_reducible apply State.accepted_kept
    | with_reducible apply State.command_kept
    | with_reducible apply State.complete_kept
    | with_reducible apply State.setExm_kept
    | with_reducible apply keptX_ok
    | with_reducible apply kept2_mk
    | (with_reducible refine kept2_eq (by with_reducible assumption) ?_)
    | (with_reducible apply kept2_proj; first | with_reducible assumption | with_reducible apply kept2_foldl)
    | split
    | dsimp -zeta only

theorem execFlushPortDone_kept {a0} (hregs : m.regs) (hout : m.out) (hhost : m.host) (htab : m.tab) (hcnt : m.cnt)
    (hmem : m.mem) (hfab : m.fab) (h : Kept m z s) : KeptX m z (execFlushPortDone a0 s) := by
  unfold execFlushPortDone
  repeat' first
    | with_reducible assumption
    | intro _
    | subst x
    | (extract_lets +onlyGivenNames x; have hx : Kept m z x := ?_; clear_value x)
    | (extract_lets +onlyGivenNames x; have hx : Kept2 m z x := ?_; clear_value x)
    | (extract_lets +onlyGivenNames x; clear_value x)
    | (extract_lets +onlyGivenNames w; revert w; intro w0)
    | with_reducible apply kept_ite
    | with_reducible apply State.complete_kept
    | with_reducible apply State.putResult_kept
    | with_reducible apply State.setExm_kept
    | with_reducible apply keptX_ok
    | with_reducible apply kept2_mk
    | (with_reducible refine kept2_eq (by with_reducible assumption) ?_)
    | (with_reducible apply kept2_proj; first | with_reducible assumption | with_reducible apply kept2_foldl)
    | split
    | dsimp -zeta only

end Sys2Proof.Machine
end

