-- ==== Sys2Proof/Laws/KeptRestart.lean ====
section
/-!
SUPPORT. Laws/KeptRestart.lean: what the operations of Machine/Restart.lean keep (Laws/Kept.lean).
-/

namespace Sys2Proof.Machine

set_option linter.all false

variable {m : Mask} {z s : State}

theorem State.factoryTrims_kept (hregs : m.regs) (hsvc : m.svc) (h : Kept m z s) : Kept m z (State.factoryTrims s) :=
    by
  unfold State.factoryTrims
  repeat' first
    | with_reducible assumption
    | intro _
    | subst x
    | (extract_lets +onlyGivenNames x; have hx : Kept m z x := ?_; clear_value x)
    | (extract_lets +onlyGivenNames x; clear_value x)
    | (extract_lets +onlyGivenNames w; revert w; intro w0)
    | with_reducible apply State.each_kept
    | with_reducible apply State.takeTrims_kept
    | with_reducible apply State.wrWord_kept
    | dsimp -zeta only

theorem State.showFlash_kept (hregs : m.regs) (h : Kept m z s) : Kept m z (State.showFlash s) := by
  unfold State.showFlash
  repeat' first
    | with_reducible assumption
    | intro _
    | with_reducible apply State.each_kept
    | with_reducible apply State.fwSync_kept
    | with_reducible apply State.stgSync_kept
    | with_reducible apply State.wr_kept

theorem canonical_foldl {α : Type} {l : List α} {f : Sparse Word → α → Sparse Word} {m : Sparse Word} (h : canonical regReset m = true)
    (hf : ∀ m x, canonical regReset m = true → canonical regReset (f m x) = true) : canonical regReset (l.foldl f m) = true := by
  induction l generalizing m with
  | nil => exact h
  | cons x l ih => exact ih (hf m x h)

theorem canonical_regsKept {regs : Sparse Word} {keep : Nat → Word → Option Word} : canonical regReset (regsKept regs keep) = true := by
  unfold regsKept
  refine canonical_foldl rfl fun m x h => ?_
  split
  · exact canonical_swrite h
  · exact h

theorem State.powerOn_kept (hregs : m.regs) (hturn : m.turn) (htime : m.time) (hclk : m.clk) (hsched : m.sched) (hhost
    : m.host) (hsvc : m.svc) (hfw : m.fw) (hflash : m.flash) (hrecipe : m.recipe) (htab : m.tab) (htxf : m.txf) (htxns
    : m.txns) (hfd : m.fd) (hcnt : m.cnt) (hbrg : m.brg) (hbuf : m.buf) (hlif : m.lif) (hmem : m.mem) (hfab : m.fab) (h
    : Kept m z s) : Kept m z (State.powerOn s) := by
  unfold State.powerOn
  extract_lets +onlyGivenNames z0
  extract_lets +onlyGivenNames tm
  extract_lets +onlyGivenNames sv
  extract_lets +onlyGivenNames mm
  extract_lets +onlyGivenNames t
  have ht : Kept m z t := by
      subst t
      exact h.trans ⟨rfl, List.prefix_rfl, fun _ => (by dsimp only; exact canonical_regsKept), Nat.le_refl _, Nat.le_refl _, .inl hregs, .inr rfl, .inl hturn, .inl htime, .inl hclk, .inl hsched,
    .inl hhost, .inl hsvc, .inl hfw, .inl hflash, .inl hrecipe, .inl htab, .inl htxf, .inl htxns, .inl hfd, .inl hcnt, .inl hbrg, .inl hbuf,
    .inl hlif, .inl hmem, .inl hfab⟩
  clear_value t
  exact State.factoryTrims_kept (by assumption) (by assumption) (State.showFlash_kept hregs (State.wr_kept hregs ht))

theorem State.abortReads_kept (hout : m.out) (h : Kept m z s) : Kept m z (State.abortReads s) := by
  unfold State.abortReads
  repeat' first
    | with_reducible assumption
    | intro _
    | subst x
    | (extract_lets +onlyGivenNames x; have hx : Kept m z x := ?_; clear_value x)
    | (extract_lets +onlyGivenNames x; clear_value x)
    | (extract_lets +onlyGivenNames w; revert w; intro w0)
    | with_reducible apply State.each_kept
    | with_reducible apply State.emit_kept
    | dsimp -zeta only

theorem State.warmReset_kept {a1} (hregs : m.regs) (hout : m.out) (hturn : m.turn) (htime : m.time) (hclk : m.clk)
    (hsched : m.sched) (hhost : m.host) (hsvc : m.svc) (hfw : m.fw) (hflash : m.flash) (hrecipe : m.recipe) (htab :
    m.tab) (htxf : m.txf) (htxns : m.txns) (hfd : m.fd) (hcnt : m.cnt) (hbrg : m.brg) (hbuf : m.buf) (hlif : m.lif)
    (hmem : m.mem) (hfab : m.fab) (h : Kept m z s) : Kept m z (State.warmReset s a1) := by
  unfold State.warmReset
  split
  · exact h
  · extract_lets +onlyGivenNames s1
    extract_lets +onlyGivenNames z0
    extract_lets +onlyGivenNames mg
    extract_lets +onlyGivenNames tm
    extract_lets +onlyGivenNames sv
    extract_lets +onlyGivenNames mm
    extract_lets +onlyGivenNames t
    have h1 : Kept m z s1 := State.abortReads_kept hout h
    have ht : Kept m z t := by
      subst t
      exact h1.trans ⟨rfl, List.prefix_rfl, fun _ => (by dsimp only; exact canonical_regsKept), Nat.le_refl _, Nat.le_refl _, .inl hregs, .inr rfl, .inl hturn, .inl htime, .inl hclk, .inl hsched,
      .inl hhost, .inl hsvc, .inl hfw, .inl hflash, .inl hrecipe, .inl htab, .inl htxf, .inl htxns, .inl hfd, .inl hcnt, .inl hbrg, .inl hbuf,
      .inl hlif, .inl hmem, .inl hfab⟩
    clear_value t s1
    repeat' first
      | with_reducible assumption
      | intro _
      | with_reducible apply kept_ite
      | with_reducible apply State.takeTrims_kept
      | with_reducible apply State.each_kept
      | with_reducible apply State.wr_kept
      | with_reducible apply State.bump_kept
      | with_reducible apply State.showFlash_kept
      | with_reducible apply State.showGroups_kept
      | extract_lets

theorem execWarmResetRequest_kept {a0 a1 a2} (hregs : m.regs) (hout : m.out) (hturn : m.turn) (htime : m.time) (hclk :
    m.clk) (hsched : m.sched) (hhost : m.host) (hsvc : m.svc) (hfw : m.fw) (hflash : m.flash) (hrecipe : m.recipe)
    (htab : m.tab) (htxf : m.txf) (htxns : m.txns) (hfd : m.fd) (hcnt : m.cnt) (hbrg : m.brg) (hbuf : m.buf) (hlif :
    m.lif) (hmem : m.mem) (hfab : m.fab) (h : Kept m z s) : KeptX m z (execWarmResetRequest a0 a1 a2 s) := by
  unfold execWarmResetRequest
  repeat' first
    | with_reducible assumption
    | intro _
    | with_reducible apply kept_ite
    | with_reducible apply State.hostWrite_kept
    | with_reducible apply State.lateErr_kept
    | with_reducible apply State.warmReset_kept
    | with_reducible apply keptX_ok
    | split

theorem execI2cWarmResetRequest_kept {a0} (hregs : m.regs) (hout : m.out) (hturn : m.turn) (htime : m.time) (hclk :
    m.clk) (hsched : m.sched) (hhost : m.host) (hsvc : m.svc) (hfw : m.fw) (hflash : m.flash) (hrecipe : m.recipe)
    (htab : m.tab) (htxf : m.txf) (htxns : m.txns) (hfd : m.fd) (hcnt : m.cnt) (hbrg : m.brg) (hbuf : m.buf) (hlif :
    m.lif) (hmem : m.mem) (hfab : m.fab) (h : Kept m z s) : KeptX m z (execI2cWarmResetRequest a0 s) := by
  unfold execI2cWarmResetRequest
  repeat' first
    | with_reducible assumption
    | intro _
    | with_reducible apply kept_ite
    | with_reducible apply State.warmReset_kept
    | with_reducible apply keptX_ok
    | split

theorem execBootWatchdogExpire_kept (hregs : m.regs) (hout : m.out) (hturn : m.turn) (htime : m.time) (hclk : m.clk)
    (hsched : m.sched) (hhost : m.host) (hsvc : m.svc) (hfw : m.fw) (hflash : m.flash) (hrecipe : m.recipe) (htab :
    m.tab) (htxf : m.txf) (htxns : m.txns) (hfd : m.fd) (hcnt : m.cnt) (hbrg : m.brg) (hbuf : m.buf) (hlif : m.lif)
    (hmem : m.mem) (hfab : m.fab) (h : Kept m z s) : KeptX m z (execBootWatchdogExpire s) := by
  unfold execBootWatchdogExpire
  repeat' first
    | with_reducible assumption
    | intro _
    | with_reducible apply kept_ite
    | with_reducible apply State.bump_kept
    | with_reducible apply State.warmReset_kept
    | with_reducible apply keptX_ok
    | split

theorem execRecoveryReboot_kept {a0 a1 a2} (hregs : m.regs) (hout : m.out) (hturn : m.turn) (htime : m.time) (hclk :
    m.clk) (hsched : m.sched) (hhost : m.host) (hsvc : m.svc) (hfw : m.fw) (hflash : m.flash) (hrecipe : m.recipe)
    (htab : m.tab) (htxf : m.txf) (htxns : m.txns) (hfd : m.fd) (hcnt : m.cnt) (hbrg : m.brg) (hbuf : m.buf) (hlif :
    m.lif) (hmem : m.mem) (hfab : m.fab) (h : Kept m z s) : KeptX m z (execRecoveryReboot a0 a1 a2 s) := by
  unfold execRecoveryReboot
  repeat' first
    | with_reducible assumption
    | intro _
    | with_reducible apply kept_ite
    | with_reducible apply State.hostWrite_kept
    | with_reducible apply State.warmReset_kept
    | with_reducible apply keptX_ok
    | split

theorem execMgmtRebootFrame_kept {a0} (hregs : m.regs) (hout : m.out) (hturn : m.turn) (htime : m.time) (hclk : m.clk)
    (hsched : m.sched) (hhost : m.host) (hsvc : m.svc) (hfw : m.fw) (hflash : m.flash) (hrecipe : m.recipe) (htab :
    m.tab) (htxf : m.txf) (htxns : m.txns) (hfd : m.fd) (hcnt : m.cnt) (hbrg : m.brg) (hbuf : m.buf) (hlif : m.lif)
    (hmem : m.mem) (hfab : m.fab) (h : Kept m z s) : KeptX m z (execMgmtRebootFrame a0 s) := by
  unfold execMgmtRebootFrame
  repeat' first
    | with_reducible assumption
    | intro _
    | subst x
    | (extract_lets +onlyGivenNames x; have hx : Kept m z x := ?_; clear_value x)
    | (extract_lets +onlyGivenNames x; have hx : Kept2 m z x := ?_; clear_value x)
    | (extract_lets +onlyGivenNames x; clear_value x)
    | (extract_lets +onlyGivenNames w; revert w; intro w0)
    | with_reducible apply kept_ite
    | with_reducible apply State.free_kept
    | with_reducible apply State.warmReset_kept
    | with_reducible apply keptX_ok
    | (with_reducible apply kept2_proj; first | with_reducible assumption | with_reducible apply kept2_foldl | with_reducible apply State.free_kept)
    | split
    | dsimp -zeta only

theorem execPorRelease_kept {a0 a1 a2} (hregs : m.regs) (hsvc : m.svc) (h : Kept m z s) : KeptX m z (execPorRelease
    a0 a1 a2 s) := by
  unfold execPorRelease
  repeat' first
    | with_reducible assumption
    | intro _
    | subst x
    | (extract_lets +onlyGivenNames x; have hx : Kept m z x := ?_; clear_value x)
    | (extract_lets +onlyGivenNames x; have hx : Kept2 m z x := ?_; clear_value x)
    | (extract_lets +onlyGivenNames x; have hx : KeptO m z x := ?_; clear_value x)
    | (extract_lets +onlyGivenNames x; clear_value x)
    | (extract_lets +onlyGivenNames w; revert w; intro w0)
    | with_reducible apply kept_ite
    | with_reducible apply State.wr_kept
    | with_reducible apply State.wrBit_kept
    | with_reducible apply keptX_ok
    | with_reducible apply kept2_mk
    | with_reducible apply keptO_some
    | with_reducible apply keptO_none
    | with_reducible exact keptO2_get (by with_reducible assumption)
    | (with_reducible refine kept2_eq (by with_reducible assumption) ?_)
    | (with_reducible apply kept2_proj; first | with_reducible assumption | with_reducible apply kept2_foldl)
    | (with_reducible refine keptO_eq (by with_reducible assumption) ?_)
    | with_reducible apply kept_foldl
    | split
    | dsimp -zeta only
    | (with_reducible refine kept_mk rfl ?_ rfl rfl rfl rfl ?_ ?_ ?_ ?_ ?_ ?_ ?_ ?_ ?_ ?_ ?_ ?_ ?_ ?_ ?_ ?_ ?_ ?_ ?_ <;> first | with_reducible exact Or.inr rfl | exact Or.inl (by assumption) | with_reducible assumption | with_reducible exact keptO2_get (by with_reducible assumption) | (with_reducible refine kept2_eq (by with_reducible assumption) ?_) | (with_reducible refine keptO_eq (by with_reducible assumption) ?_) | with_reducible apply State.wr_kept | with_reducible apply State.wrBit_kept)

theorem execBrownout_kept {a0} (hregs : m.regs) (hturn : m.turn) (htime : m.time) (hclk : m.clk) (hsched : m.sched)
    (hhost : m.host) (hsvc : m.svc) (hfw : m.fw) (hflash : m.flash) (hrecipe : m.recipe) (htab : m.tab) (htxf : m.txf)
    (htxns : m.txns) (hfd : m.fd) (hcnt : m.cnt) (hbrg : m.brg) (hbuf : m.buf) (hlif : m.lif) (hmem : m.mem) (hfab :
    m.fab) (h : Kept m z s) : KeptX m z (execBrownout a0 s) := by
  unfold execBrownout
  repeat' first
    | with_reducible assumption
    | intro _
    | subst x
    | (extract_lets +onlyGivenNames x; have hx : Kept m z x := ?_; clear_value x)
    | (extract_lets +onlyGivenNames x; have hx : Kept2 m z x := ?_; clear_value x)
    | (extract_lets +onlyGivenNames x; have hx : KeptO m z x := ?_; clear_value x)
    | (extract_lets +onlyGivenNames x; clear_value x)
    | (extract_lets +onlyGivenNames w; revert w; intro w0)
    | with_reducible apply kept_ite
    | with_reducible apply State.powerOn_kept
    | with_reducible apply State.wr_kept
    | with_reducible apply State.wrBit_kept
    | with_reducible apply State.wrWord_kept
    | with_reducible apply keptX_ok
    | with_reducible apply kept2_mk
    | with_reducible apply keptO_some
    | with_reducible apply keptO_none
    | with_reducible exact keptO2_get (by with_reducible assumption)
    | (with_reducible refine kept2_eq (by with_reducible assumption) ?_)
    | (with_reducible apply kept2_proj; first | with_reducible assumption | with_reducible apply kept2_foldl)
    | (with_reducible refine keptO_eq (by with_reducible assumption) ?_)
    | with_reducible apply kept_foldl
    | split
    | dsimp -zeta only
    | (with_reducible refine kept_mk rfl ?_ rfl rfl rfl rfl ?_ ?_ ?_ ?_ ?_ ?_ ?_ ?_ ?_ ?_ ?_ ?_ ?_ ?_ ?_ ?_ ?_ ?_ ?_ <;> first | with_reducible exact Or.inr rfl | exact Or.inl (by assumption) | with_reducible assumption | with_reducible exact keptO2_get (by with_reducible assumption) | (with_reducible refine kept2_eq (by with_reducible assumption) ?_) | (with_reducible refine keptO_eq (by with_reducible assumption) ?_) | with_reducible apply State.powerOn_kept | with_reducible apply State.wr_kept | with_reducible apply State.wrBit_kept | with_reducible apply State.wrWord_kept)

theorem execRailRecovery_kept (hregs : m.regs) (hsvc : m.svc) (h : Kept m z s) : KeptX m z (execRailRecovery s) := by
  unfold execRailRecovery
  repeat' first
    | with_reducible assumption
    | intro _
    | subst x
    | (extract_lets +onlyGivenNames x; have hx : Kept m z x := ?_; clear_value x)
    | (extract_lets +onlyGivenNames x; have hx : Kept2 m z x := ?_; clear_value x)
    | (extract_lets +onlyGivenNames x; have hx : KeptO m z x := ?_; clear_value x)
    | (extract_lets +onlyGivenNames x; clear_value x)
    | (extract_lets +onlyGivenNames w; revert w; intro w0)
    | with_reducible apply kept_ite
    | with_reducible apply State.wr_kept
    | with_reducible apply keptX_ok
    | with_reducible apply kept2_mk
    | with_reducible apply keptO_some
    | with_reducible apply keptO_none
    | with_reducible exact keptO2_get (by with_reducible assumption)
    | (with_reducible refine kept2_eq (by with_reducible assumption) ?_)
    | (with_reducible apply kept2_proj; first | with_reducible assumption | with_reducible apply kept2_foldl)
    | (with_reducible refine keptO_eq (by with_reducible assumption) ?_)
    | with_reducible apply kept_foldl
    | split
    | dsimp -zeta only
    | (with_reducible refine kept_mk rfl ?_ rfl rfl rfl rfl ?_ ?_ ?_ ?_ ?_ ?_ ?_ ?_ ?_ ?_ ?_ ?_ ?_ ?_ ?_ ?_ ?_ ?_ ?_ <;> first | with_reducible exact Or.inr rfl | exact Or.inl (by assumption) | with_reducible assumption | with_reducible exact keptO2_get (by with_reducible assumption) | (with_reducible refine kept2_eq (by with_reducible assumption) ?_) | (with_reducible refine keptO_eq (by with_reducible assumption) ?_) | with_reducible apply State.wr_kept)

theorem execPowerLoss_kept (hregs : m.regs) (hturn : m.turn) (htime : m.time) (hclk : m.clk) (hsched : m.sched) (hhost
    : m.host) (hsvc : m.svc) (hfw : m.fw) (hflash : m.flash) (hrecipe : m.recipe) (htab : m.tab) (htxf : m.txf) (htxns
    : m.txns) (hfd : m.fd) (hcnt : m.cnt) (hbrg : m.brg) (hbuf : m.buf) (hlif : m.lif) (hmem : m.mem) (hfab : m.fab) (h
    : Kept m z s) : KeptX m z (execPowerLoss s) := by
  unfold execPowerLoss
  repeat' first
    | with_reducible assumption
    | intro _
    | subst x
    | (extract_lets +onlyGivenNames x; have hx : Kept m z x := ?_; clear_value x)
    | (extract_lets +onlyGivenNames x; have hx : Kept2 m z x := ?_; clear_value x)
    | (extract_lets +onlyGivenNames x; have hx : KeptO m z x := ?_; clear_value x)
    | (extract_lets +onlyGivenNames x; clear_value x)
    | (extract_lets +onlyGivenNames w; revert w; intro w0)
    | with_reducible apply kept_ite
    | with_reducible apply State.powerOn_kept
    | with_reducible apply State.wr_kept
    | with_reducible apply keptX_ok
    | with_reducible apply kept2_mk
    | with_reducible apply keptO_some
    | with_reducible apply keptO_none
    | with_reducible exact keptO2_get (by with_reducible assumption)
    | (with_reducible refine kept2_eq (by with_reducible assumption) ?_)
    | (with_reducible apply kept2_proj; first | with_reducible assumption | with_reducible apply kept2_foldl)
    | (with_reducible refine keptO_eq (by with_reducible assumption) ?_)
    | with_reducible apply kept_foldl
    | split
    | dsimp -zeta only
    | (with_reducible refine kept_mk rfl ?_ rfl rfl rfl rfl ?_ ?_ ?_ ?_ ?_ ?_ ?_ ?_ ?_ ?_ ?_ ?_ ?_ ?_ ?_ ?_ ?_ ?_ ?_ <;> first | with_reducible exact Or.inr rfl | exact Or.inl (by assumption) | with_reducible assumption | with_reducible exact keptO2_get (by with_reducible assumption) | (with_reducible refine kept2_eq (by with_reducible assumption) ?_) | (with_reducible refine keptO_eq (by with_reducible assumption) ?_) | with_reducible apply State.powerOn_kept | with_reducible apply State.wr_kept)

theorem execI2cBrownoutClear_kept {a0} (hregs : m.regs) (h : Kept m z s) : KeptX m z (execI2cBrownoutClear a0 s) := by
  unfold execI2cBrownoutClear
  repeat' first
    | with_reducible assumption
    | intro _
    | with_reducible apply kept_ite
    | with_reducible apply State.wr_kept
    | with_reducible apply keptX_ok
    | split

end Sys2Proof.Machine
end

