-- ==== Sys2Proof/Laws/KeptCounters.lean ====
section
/-!
SUPPORT. Laws/KeptCounters.lean: what the operations of Machine/Counters.lean keep (Laws/Kept.lean).
-/

namespace Sys2Proof.Machine

set_option linter.all false

variable {m : Mask} {z s : State}

theorem execCounterSelect_kept {a0 a1 a2 a3} (hregs : m.regs) (hout : m.out) (hhost : m.host) (hcnt : m.cnt) (h : Kept
    m z s) : KeptX m z (execCounterSelect a0 a1 a2 a3 s) := by
  unfold execCounterSelect
  repeat' first
    | with_reducible assumption
    | intro _
    | subst x
    | (extract_lets +onlyGivenNames x; have hx : Kept m z x := ?_; clear_value x)
    | (extract_lets +onlyGivenNames x; clear_value x)
    | (extract_lets +onlyGivenNames w; revert w; intro w0)
    | with_reducible apply kept_ite
    | with_reducible apply State.bump_kept
    | with_reducible apply State.each_kept
    | with_reducible apply State.hostWrite_kept
    | with_reducible apply State.lateErr_kept
    | with_reducible apply State.mergeReg_kept
    | with_reducible apply State.onlyIf_kept
    | with_reducible apply State.setCtr_kept
    | with_reducible apply State.wr_kept
    | with_reducible apply State.wr64_kept
    | with_reducible apply State.wrBit_kept
    | with_reducible apply keptX_ok
    | split
    | dsimp -zeta only

theorem State.counterOp_kept {a1 a2 a3 a4 a5} (hregs : m.regs) (hout : m.out) (hhost : m.host) (hcnt : m.cnt) (h : Kept
    m z s) : Kept m z (State.counterOp s a1 a2 a3 a4 a5) := by
  unfold State.counterOp
  repeat' first
    | with_reducible assumption
    | intro _
    | subst x
    | (extract_lets +onlyGivenNames x; have hx : Kept m z x := ?_; clear_value x)
    | (extract_lets +onlyGivenNames x; clear_value x)
    | (extract_lets +onlyGivenNames w; revert w; intro w0)
    | with_reducible apply kept_ite
    | with_reducible apply State.each_kept
    | with_reducible apply State.hostWrite_kept
    | with_reducible apply State.setCtr_kept
    | split
    | dsimp -zeta only

theorem execCounterWrite_kept {a0 a1 a2} (hregs : m.regs) (hout : m.out) (hhost : m.host) (hcnt : m.cnt) (h : Kept m z
    s) : KeptX m z (execCounterWrite a0 a1 a2 s) := by
  unfold execCounterWrite
  repeat' first
    | with_reducible assumption
    | intro _
    | subst x
    | (extract_lets +onlyGivenNames x; have hx : Kept m z x := ?_; clear_value x)
    | (extract_lets +onlyGivenNames x; clear_value x)
    | (extract_lets +onlyGivenNames w; revert w; intro w0)
    | with_reducible apply State.counterOp_kept
    | with_reducible apply keptX_ok
    | dsimp -zeta only

theorem execCounterClear_kept {a0 a1 a2} (hregs : m.regs) (hout : m.out) (hhost : m.host) (hcnt : m.cnt) (h : Kept m z
    s) : KeptX m z (execCounterClear a0 a1 a2 s) := by
  unfold execCounterClear
  repeat' first
    | with_reducible assumption
    | intro _
    | with_reducible apply State.counterOp_kept
    | with_reducible apply keptX_ok

theorem execCounterClearStripe_kept {a0 a1 a2} (hregs : m.regs) (hout : m.out) (hhost : m.host) (hcnt : m.cnt) (h :
    Kept m z s) : KeptX m z (execCounterClearStripe a0 a1 a2 s) := by
  unfold execCounterClearStripe
  repeat' first
    | with_reducible assumption
    | intro _
    | with_reducible apply State.counterOp_kept
    | with_reducible apply keptX_ok

theorem State.snapSync_kept (hregs : m.regs) (h : Kept m z s) : Kept m z (State.snapSync s) := by
  unfold State.snapSync
  repeat' first
    | with_reducible assumption
    | intro _
    | with_reducible apply State.wr_kept
    | with_reducible apply State.wrBit_kept

theorem execSnapAt_kept {a0 a1 a2 a3 a4 a5} (hregs : m.regs) (hsched : m.sched) (hhost : m.host) (hcnt : m.cnt) (hfab :
    m.fab) (h : Kept m z s) : KeptX m z (execSnapAt a0 a1 a2 a3 a4 a5 s) := by
  unfold execSnapAt
  repeat' first
    | with_reducible assumption
    | intro _
    | subst x
    | (extract_lets +onlyGivenNames x; have hx : Kept m z x := ?_; clear_value x)
    | (extract_lets +onlyGivenNames x; have hx : Kept2 m z x := ?_; clear_value x)
    | (extract_lets +onlyGivenNames x; have hx : KeptO m z x := ?_; clear_value x)
    | (extract_lets +onlyGivenNames x; clear_value x)
    | (extract_lets +onlyGivenNames w; revert w; intro w0)
    | with_reducible apply kept_ite
    | with_reducible apply State.accepted_kept
    | with_reducible apply State.command_kept
    | with_reducible apply State.complete_kept
    | with_reducible apply State.schedTake_kept
    | with_reducible apply State.snapSync_kept
    | with_reducible apply keptX_ok
    | with_reducible apply kept2_mk
    | with_reducible apply keptO_some
    | with_reducible apply keptO_none
    | with_reducible exact keptO2_get (by with_reducible assumption)
    | (with_reducible refine kept2_eq (by with_reducible assumption) ?_)
    | (with_reducible apply kept2_proj; first | with_reducible assumption | with_reducible apply kept2_foldl)
    | (with_reducible refine keptO_eq (by with_reducible assumption) ?_)
    | with_reducible apply kept_foldl
    | split
    | dsimp -zeta only
    | (with_reducible refine kept_mk rfl ?_ rfl rfl rfl rfl ?_ ?_ ?_ ?_ ?_ ?_ ?_ ?_ ?_ ?_ ?_ ?_ ?_ ?_ ?_ ?_ ?_ ?_ ?_ <;> first | with_reducible exact Or.inr rfl | exact Or.inl (by assumption) | with_reducible assumption | with_reducible exact keptO2_get (by with_reducible assumption) | (with_reducible refine kept2_eq (by with_reducible assumption) ?_) | (with_reducible refine keptO_eq (by with_reducible assumption) ?_) | with_reducible apply State.accepted_kept | with_reducible apply State.command_kept | with_reducible apply State.complete_kept | with_reducible apply State.schedTake_kept | with_reducible apply State.snapSync_kept)

theorem State.openSnap_kept {a1} (hregs : m.regs) (hcnt : m.cnt) (h : Kept m z s) : Kept m z (State.openSnap s a1) :=
    by
  unfold State.openSnap
  repeat' first
    | with_reducible assumption
    | intro _
    | subst x
    | (extract_lets +onlyGivenNames x; have hx : Kept m z x := ?_; clear_value x)
    | (extract_lets +onlyGivenNames x; have hx : Kept2 m z x := ?_; clear_value x)
    | (extract_lets +onlyGivenNames x; have hx : KeptO m z x := ?_; clear_value x)
    | (extract_lets +onlyGivenNames x; clear_value x)
    | (extract_lets +onlyGivenNames w; revert w; intro w0)
    | with_reducible apply kept_ite
    | with_reducible apply State.snapSync_kept
    | with_reducible apply kept2_mk
    | with_reducible apply keptO_some
    | with_reducible apply keptO_none
    | with_reducible exact keptO2_get (by with_reducible assumption)
    | (with_reducible refine kept2_eq (by with_reducible assumption) ?_)
    | (with_reducible apply kept2_proj; first | with_reducible assumption | with_reducible apply kept2_foldl)
    | (with_reducible refine keptO_eq (by with_reducible assumption) ?_)
    | with_reducible apply kept_foldl
    | split
    | dsimp -zeta only
    | (with_reducible refine kept_mk rfl ?_ rfl rfl rfl rfl ?_ ?_ ?_ ?_ ?_ ?_ ?_ ?_ ?_ ?_ ?_ ?_ ?_ ?_ ?_ ?_ ?_ ?_ ?_ <;> first | with_reducible exact Or.inr rfl | exact Or.inl (by assumption) | with_reducible assumption | with_reducible exact keptO2_get (by with_reducible assumption) | (with_reducible refine kept2_eq (by with_reducible assumption) ?_) | (with_reducible refine keptO_eq (by with_reducible assumption) ?_) | with_reducible apply State.snapSync_kept)

theorem execSnapshotFinal_kept {a0} (hregs : m.regs) (hcnt : m.cnt) (h : Kept m z s) : KeptX m z (execSnapshotFinal a0
    s) := by
  unfold execSnapshotFinal
  repeat' first
    | with_reducible assumption
    | intro _
    | subst x
    | (extract_lets +onlyGivenNames x; have hx : Kept m z x := ?_; clear_value x)
    | (extract_lets +onlyGivenNames x; have hx : Kept2 m z x := ?_; clear_value x)
    | (extract_lets +onlyGivenNames x; have hx : KeptO m z x := ?_; clear_value x)
    | (extract_lets +onlyGivenNames x; clear_value x)
    | (extract_lets +onlyGivenNames w; revert w; intro w0)
    | with_reducible apply kept_ite
    | with_reducible apply State.count_kept
    | with_reducible apply State.snapSync_kept
    | with_reducible apply State.wr64_kept
    | with_reducible apply keptX_ok
    | with_reducible apply kept2_mk
    | with_reducible apply keptO_some
    | with_reducible apply keptO_none
    | with_reducible exact keptO2_get (by with_reducible assumption)
    | (with_reducible refine kept2_eq (by with_reducible assumption) ?_)
    | (with_reducible apply kept2_proj; first | with_reducible assumption | with_reducible apply kept2_foldl)
    | (with_reducible refine keptO_eq (by with_reducible assumption) ?_)
    | with_reducible apply kept_foldl
    | split
    | dsimp -zeta only
    | (with_reducible refine kept_mk rfl ?_ rfl rfl rfl rfl ?_ ?_ ?_ ?_ ?_ ?_ ?_ ?_ ?_ ?_ ?_ ?_ ?_ ?_ ?_ ?_ ?_ ?_ ?_ <;> first | with_reducible exact Or.inr rfl | exact Or.inl (by assumption) | with_reducible assumption | with_reducible exact keptO2_get (by with_reducible assumption) | (with_reducible refine kept2_eq (by with_reducible assumption) ?_) | (with_reducible refine keptO_eq (by with_reducible assumption) ?_) | with_reducible apply State.count_kept | with_reducible apply State.snapSync_kept | with_reducible apply State.wr64_kept)

theorem execSnapshotWriteDone_kept {a0} (hregs : m.regs) (hout : m.out) (hhost : m.host) (hcnt : m.cnt) (hfab : m.fab)
    (h : Kept m z s) : KeptX m z (execSnapshotWriteDone a0 s) := by
  unfold execSnapshotWriteDone
  repeat' first
    | with_reducible assumption
    | intro _
    | subst x
    | (extract_lets +onlyGivenNames x; have hx : Kept m z x := ?_; clear_value x)
    | (extract_lets +onlyGivenNames x; have hx : Kept2 m z x := ?_; clear_value x)
    | (extract_lets +onlyGivenNames x; have hx : KeptO m z x := ?_; clear_value x)
    | (extract_lets +onlyGivenNames x; clear_value x)
    | (extract_lets +onlyGivenNames w; revert w; intro w0)
    | with_reducible apply kept_ite
    | with_reducible apply State.completeWith_kept
    | with_reducible apply State.putResult_kept
    | with_reducible apply State.raiseVec_kept
    | with_reducible apply State.snapSync_kept
    | with_reducible apply keptX_ok
    | with_reducible apply kept2_mk
    | with_reducible apply keptO_some
    | with_reducible apply keptO_none
    | with_reducible exact keptO2_get (by with_reducible assumption)
    | (with_reducible refine kept2_eq (by with_reducible assumption) ?_)
    | (with_reducible apply kept2_proj; first | with_reducible assumption | with_reducible apply kept2_foldl)
    | (with_reducible refine keptO_eq (by with_reducible assumption) ?_)
    | with_reducible apply kept_foldl
    | split
    | dsimp -zeta only
    | (with_reducible refine kept_mk rfl ?_ rfl rfl rfl rfl ?_ ?_ ?_ ?_ ?_ ?_ ?_ ?_ ?_ ?_ ?_ ?_ ?_ ?_ ?_ ?_ ?_ ?_ ?_ <;> first | with_reducible exact Or.inr rfl | exact Or.inl (by assumption) | with_reducible assumption | with_reducible exact keptO2_get (by with_reducible assumption) | (with_reducible refine kept2_eq (by with_reducible assumption) ?_) | (with_reducible refine keptO_eq (by with_reducible assumption) ?_) | with_reducible apply State.completeWith_kept | with_reducible apply State.putResult_kept | with_reducible apply State.raiseVec_kept | with_reducible apply State.snapSync_kept)

theorem execPmuEvselWrite_kept {a0 a1 a2 a3 a4} (hregs : m.regs) (hout : m.out) (hhost : m.host) (h : Kept m z s) :
    KeptX m z (execPmuEvselWrite a0 a1 a2 a3 a4 s) := by
  unfold execPmuEvselWrite
  repeat' first
    | with_reducible assumption
    | intro _
    | subst x
    | (extract_lets +onlyGivenNames x; have hx : Kept m z x := ?_; clear_value x)
    | (extract_lets +onlyGivenNames x; clear_value x)
    | (extract_lets +onlyGivenNames w; revert w; intro w0)
    | with_reducible apply kept_ite
    | with_reducible apply State.hostWrite_kept
    | with_reducible apply State.lateErr_kept
    | with_reducible apply State.mergeReg_kept
    | with_reducible apply keptX_ok
    | split
    | dsimp -zeta only

theorem execPmuCounterWrite_kept {a0 a1 a2 a3 a4 a5} (hregs : m.regs) (hout : m.out) (hhost : m.host) (h : Kept m z s)
    : KeptX m z (execPmuCounterWrite a0 a1 a2 a3 a4 a5 s) := by
  unfold execPmuCounterWrite
  repeat' first
    | with_reducible assumption
    | intro _
    | subst x
    | (extract_lets +onlyGivenNames x; have hx : Kept m z x := ?_; clear_value x)
    | (extract_lets +onlyGivenNames x; clear_value x)
    | (extract_lets +onlyGivenNames w; revert w; intro w0)
    | with_reducible apply kept_ite
    | with_reducible apply State.applyPair_kept
    | with_reducible apply State.hostWrite_kept
    | with_reducible apply State.wr_kept
    | with_reducible apply keptX_ok
    | split
    | dsimp -zeta only

theorem execSampleRecordDeliver_kept (hregs : m.regs) (hout : m.out) (hhost : m.host) (hcnt : m.cnt) (h : Kept m z s) :
    KeptX m z (execSampleRecordDeliver s) := by
  unfold execSampleRecordDeliver
  repeat' first
    | with_reducible assumption
    | intro _
    | subst x
    | (extract_lets +onlyGivenNames x; have hx : Kept m z x := ?_; clear_value x)
    | (extract_lets +onlyGivenNames x; have hx : Kept2 m z x := ?_; clear_value x)
    | (extract_lets +onlyGivenNames x; have hx : KeptO m z x := ?_; clear_value x)
    | (extract_lets +onlyGivenNames x; clear_value x)
    | (extract_lets +onlyGivenNames w; revert w; intro w0)
    | with_reducible apply kept_ite
    | with_reducible apply State.bump_kept
    | with_reducible apply State.emit_kept
    | with_reducible apply State.raiseVec_kept
    | with_reducible apply State.wr_kept
    | with_reducible apply keptX_ok
    | with_reducible apply kept2_mk
    | with_reducible apply keptO_some
    | with_reducible apply keptO_none
    | with_reducible exact keptO2_get (by with_reducible assumption)
    | (with_reducible refine kept2_eq (by with_reducible assumption) ?_)
    | (with_reducible apply kept2_proj; first | with_reducible assumption | with_reducible apply kept2_foldl)
    | (with_reducible refine keptO_eq (by with_reducible assumption) ?_)
    | with_reducible apply kept_foldl
    | split
    | dsimp -zeta only
    | (with_reducible refine kept_mk rfl ?_ rfl rfl rfl rfl ?_ ?_ ?_ ?_ ?_ ?_ ?_ ?_ ?_ ?_ ?_ ?_ ?_ ?_ ?_ ?_ ?_ ?_ ?_ <;> first | with_reducible exact Or.inr rfl | exact Or.inl (by assumption) | with_reducible assumption | with_reducible exact keptO2_get (by with_reducible assumption) | (with_reducible refine kept2_eq (by with_reducible assumption) ?_) | (with_reducible refine keptO_eq (by with_reducible assumption) ?_) | with_reducible apply State.bump_kept | with_reducible apply State.emit_kept | with_reducible apply State.raiseVec_kept | with_reducible apply State.wr_kept)

theorem State.pmuArm_kept {a1 a2 a3 a4} (hregs : m.regs) (hout : m.out) (hsched : m.sched) (hhost : m.host) (h : Kept m
    z s) : Kept m z (State.pmuArm s a1 a2 a3 a4) := by
  unfold State.pmuArm
  repeat' first
    | with_reducible assumption
    | intro _
    | subst x
    | (extract_lets +onlyGivenNames x; have hx : Kept m z x := ?_; clear_value x)
    | (extract_lets +onlyGivenNames x; clear_value x)
    | (extract_lets +onlyGivenNames w; revert w; intro w0)
    | with_reducible apply kept_ite
    | with_reducible apply State.hostWrite_kept
    | with_reducible apply State.mergeReg_kept
    | with_reducible apply State.schedTake_kept
    | with_reducible apply State.wr_kept
    | with_reducible apply State.wrBit_kept
    | split
    | dsimp -zeta only

theorem execPmuFreezeArm_kept {a0 a1 a2} (hregs : m.regs) (hout : m.out) (hsched : m.sched) (hhost : m.host) (h : Kept
    m z s) : KeptX m z (execPmuFreezeArm a0 a1 a2 s) := by
  unfold execPmuFreezeArm
  repeat' first
    | with_reducible assumption
    | intro _
    | with_reducible apply State.pmuArm_kept
    | with_reducible apply keptX_ok

theorem execPmuResumeArm_kept {a0 a1 a2} (hregs : m.regs) (hout : m.out) (hsched : m.sched) (hhost : m.host) (h : Kept
    m z s) : KeptX m z (execPmuResumeArm a0 a1 a2 s) := by
  unfold execPmuResumeArm
  repeat' first
    | with_reducible assumption
    | intro _
    | with_reducible apply State.pmuArm_kept
    | with_reducible apply keptX_ok

theorem execPmuFreezeCancel_kept {a0 a1 a2} (hregs : m.regs) (hout : m.out) (hsched : m.sched) (hhost : m.host) (h :
    Kept m z s) : KeptX m z (execPmuFreezeCancel a0 a1 a2 s) := by
  unfold execPmuFreezeCancel
  repeat' first
    | with_reducible assumption
    | intro _
    | subst x
    | (extract_lets +onlyGivenNames x; have hx : Kept m z x := ?_; clear_value x)
    | (extract_lets +onlyGivenNames x; clear_value x)
    | (extract_lets +onlyGivenNames w; revert w; intro w0)
    | with_reducible apply kept_ite
    | with_reducible apply State.hostWrite_kept
    | with_reducible apply State.mergeReg_kept
    | with_reducible apply State.schedFree_kept
    | with_reducible apply State.wr_kept
    | with_reducible apply keptX_ok
    | split
    | dsimp -zeta only

theorem State.firePmu_kept {a1} (hregs : m.regs) (h : Kept m z s) : Kept m z (State.firePmu s a1) := by
  unfold State.firePmu
  repeat' first
    | with_reducible assumption
    | intro _
    | with_reducible apply kept_ite
    | with_reducible apply State.each_kept
    | with_reducible apply State.wr_kept
    | split

theorem State.restFront_kept {a1 a2} (hregs : m.regs) (h : Kept m z s) : Kept m z (State.restFront s a1 a2) := by
  unfold State.restFront
  repeat' first
    | with_reducible assumption
    | intro _
    | subst x
    | (extract_lets +onlyGivenNames x; have hx : Kept m z x := ?_; clear_value x)
    | (extract_lets +onlyGivenNames x; clear_value x)
    | (extract_lets +onlyGivenNames w; revert w; intro w0)
    | with_reducible apply kept_ite
    | with_reducible apply State.wr64_kept
    | split
    | dsimp -zeta only

theorem execPmuFreezeFinal_kept (hregs : m.regs) (h : Kept m z s) : KeptX m z (execPmuFreezeFinal s) := by
  unfold execPmuFreezeFinal
  repeat' first
    | with_reducible assumption
    | intro _
    | subst x
    | (extract_lets +onlyGivenNames x; have hx : Kept m z x := ?_; clear_value x)
    | (extract_lets +onlyGivenNames x; clear_value x)
    | (extract_lets +onlyGivenNames w; revert w; intro w0)
    | with_reducible apply kept_ite
    | with_reducible apply State.each_kept
    | with_reducible apply State.onlyIf_kept
    | with_reducible apply State.restFront_kept
    | with_reducible apply State.wr_kept
    | with_reducible apply keptX_ok
    | split
    | dsimp -zeta only

theorem execPmuRunWrite_kept {a0 a1 a2 a3} (hregs : m.regs) (hout : m.out) (hhost : m.host) (h : Kept m z s) : KeptX m
    z (execPmuRunWrite a0 a1 a2 a3 s) := by
  unfold execPmuRunWrite
  repeat' first
    | with_reducible assumption
    | intro _
    | subst x
    | (extract_lets +onlyGivenNames x; have hx : Kept m z x := ?_; clear_value x)
    | (extract_lets +onlyGivenNames x; clear_value x)
    | (extract_lets +onlyGivenNames w; revert w; intro w0)
    | with_reducible apply kept_ite
    | with_reducible apply State.hostWrite_kept
    | with_reducible apply State.mergeReg_kept
    | with_reducible apply State.wr_kept
    | with_reducible apply keptX_ok
    | split
    | dsimp -zeta only

end Sys2Proof.Machine
end

