-- ==== Sys2Proof/Laws/KeptWithdraw.lean ====
section
/-!
SUPPORT. Laws/KeptWithdraw.lean: what the operations of Machine/Withdraw.lean keep (Laws/Kept.lean).
-/

namespace Sys2Proof.Machine

set_option linter.all false

variable {m : Mask} {z s : State}

theorem State.withdrawSnap_kept {a1 a2 a3} (hregs : m.regs) (hsched : m.sched) (hhost : m.host) (hcnt : m.cnt) (hfab :
    m.fab) (h : Kept m z s) : Kept m z (State.withdrawSnap s a1 a2 a3) := by
  unfold State.withdrawSnap
  repeat' first
    | with_reducible assumption
    | intro _
    | subst x
    | (extract_lets +onlyGivenNames x; have hx : Kept m z x := ?_; clear_value x)
    | (extract_lets +onlyGivenNames x; have hx : Kept2 m z x := ?_; clear_value x)
    | (extract_lets +onlyGivenNames x; have hx : KeptO m z x := ?_; clear_value x)
    | (extract_lets +onlyGivenNames x; clear_value x)
    | (extract_lets +onlyGivenNames w; revert w; intro w0)
    | with_reducible apply kept_ite
    | with_reducible apply State.completeOpt_kept
    | with_reducible apply State.schedFree_kept
    | with_reducible apply State.snapSync_kept
    | with_reducible apply kept2_mk
    | with_reducible apply keptO_some
    | with_reducible apply keptO_none
    | with_reducible exact keptO2_get (by with_reducible assumption)
    | (with_reducible refine kept2_eq (by with_reducible assumption) ?_)
    | (with_reducible apply kept2_proj; first | with_reducible assumption | with_reducible apply kept2_foldl)
    | (with_reducible refine keptO_eq (by with_reducible assumption) ?_)
    | with_reducible apply kept_foldl
    | split
    | dsimp -zeta only
    | (with_reducible refine kept_mk rfl ?_ rfl rfl rfl rfl ?_ ?_ ?_ ?_ ?_ ?_ ?_ ?_ ?_ ?_ ?_ ?_ ?_ ?_ ?_ ?_ ?_ ?_ ?_ <;> first | with_reducible exact Or.inr rfl | exact Or.inl (by assumption) | with_reducible assumption | with_reducible exact keptO2_get (by with_reducible assumption) | (with_reducible refine kept2_eq (by with_reducible assumption) ?_) | (with_reducible refine keptO_eq (by with_reducible assumption) ?_) | with_reducible apply State.completeOpt_kept | with_reducible apply State.schedFree_kept | with_reducible apply State.snapSync_kept)

theorem State.withdrawEvent_kept {a1 a2} (hregs : m.regs) (hout : m.out) (hsched : m.sched) (hhost : m.host) (hrecipe :
    m.recipe) (htxns : m.txns) (hcnt : m.cnt) (hbuf : m.buf) (hfab : m.fab) (h : Kept m z s) : Kept m z
    (State.withdrawEvent s a1 a2) := by
  unfold State.withdrawEvent
  repeat' first
    | with_reducible assumption
    | intro _
    | with_reducible apply State.completeOpt_kept
    | with_reducible apply State.fwSync_kept
    | with_reducible apply State.schedFree_kept
    | with_reducible apply State.unscheduleRecipe_kept
    | with_reducible apply State.withdrawCommit_kept
    | with_reducible apply State.withdrawDice_kept
    | with_reducible apply State.withdrawHold_kept
    | with_reducible apply State.withdrawRelease_kept
    | with_reducible apply State.withdrawSnap_kept
    | with_reducible apply State.withdrawTsi_kept
    | with_reducible apply State.wr_kept
    | split

theorem State.withdrawWhere_kept {a1 a2} (hregs : m.regs) (hout : m.out) (hsched : m.sched) (hhost : m.host) (hrecipe :
    m.recipe) (htxns : m.txns) (hcnt : m.cnt) (hbuf : m.buf) (hfab : m.fab) (h : Kept m z s) : Kept m z
    (State.withdrawWhere s a1 a2) := by
  unfold State.withdrawWhere
  repeat' first
    | with_reducible assumption
    | intro _
    | with_reducible apply kept_ite
    | with_reducible apply State.each_kept
    | with_reducible apply State.withdrawEvent_kept
    | split

end Sys2Proof.Machine
end

