-- ==== Sys2Proof/Laws/KeptBoot.lean ====
section
/-!
SUPPORT. Laws/KeptBoot.lean: what the operations of Machine/Boot.lean keep (Laws/Kept.lean).
-/

namespace Sys2Proof.Machine

set_option linter.all false

variable {m : Mask} {z s : State}

theorem State.enterRecovery_kept {a1} (hregs : m.regs) (hsvc : m.svc) (hflash : m.flash) (h : Kept m z s) : Kept m z
    (State.enterRecovery s a1) := by
  unfold State.enterRecovery
  repeat' first
    | with_reducible assumption
    | intro _
    | subst x
    | (extract_lets +onlyGivenNames x; have hx : Kept m z x := ?_; clear_value x)
    | (extract_lets +onlyGivenNames x; have hx : Kept2 m z x := ?_; clear_value x)
    | (extract_lets +onlyGivenNames x; have hx : KeptO m z x := ?_; clear_value x)
    | (extract_lets +onlyGivenNames x; clear_value x)
    | (extract_lets +onlyGivenNames w; revert w; intro w0)
    | with_reducible apply kept_ite
    | with_reducible apply State.emptyStaging_kept
    | with_reducible apply State.wr_kept
    | with_reducible apply kept2_mk
    | with_reducible apply keptO_some
    | with_reducible apply keptO_none
    | with_reducible exact keptO2_get (by with_reducible assumption)
    | (with_reducible refine kept2_eq (by with_reducible assumption) ?_)
    | (with_reducible apply kept2_proj; first | with_reducible assumption | with_reducible apply kept2_foldl)
    | (with_reducible refine keptO_eq (by with_reducible assumption) ?_)
    | with_reducible apply kept_foldl
    | split
    | dsimp -zeta only
    | (with_reducible refine kept_mk rfl ?_ rfl rfl rfl rfl ?_ ?_ ?_ ?_ ?_ ?_ ?_ ?_ ?_ ?_ ?_ ?_ ?_ ?_ ?_ ?_ ?_ ?_ ?_ <;> first | with_reducible exact Or.inr rfl | exact Or.inl (by assumption) | with_reducible assumption | with_reducible exact keptO2_get (by with_reducible assumption) | (with_reducible refine kept2_eq (by with_reducible assumption) ?_) | (with_reducible refine keptO_eq (by with_reducible assumption) ?_) | with_reducible apply State.emptyStaging_kept | with_reducible apply State.wr_kept)

theorem State.bankFails_kept {a1 a2} (hregs : m.regs) (hflash : m.flash) (h : Kept m z s) : Kept m z (State.bankFails s
    a1 a2) := by
  unfold State.bankFails
  repeat' first
    | with_reducible assumption
    | intro _
    | subst x
    | (extract_lets +onlyGivenNames x; have hx : Kept m z x := ?_; clear_value x)
    | (extract_lets +onlyGivenNames x; clear_value x)
    | (extract_lets +onlyGivenNames w; revert w; intro w0)
    | with_reducible apply kept_ite
    | with_reducible apply State.secLog_kept
    | with_reducible apply State.setBank_kept
    | with_reducible apply State.wr_kept
    | split
    | dsimp -zeta only

theorem State.bootBank_kept {a1} (hregs : m.regs) (hsvc : m.svc) (hfw : m.fw) (hflash : m.flash) (h : Kept m z s) :
    Kept m z (State.bootBank s a1) := by
  unfold State.bootBank
  repeat' first
    | with_reducible assumption
    | intro _
    | subst x
    | (extract_lets +onlyGivenNames x; have hx : Kept m z x := ?_; clear_value x)
    | (extract_lets +onlyGivenNames x; have hx : Kept2 m z x := ?_; clear_value x)
    | (extract_lets +onlyGivenNames x; have hx : KeptO m z x := ?_; clear_value x)
    | (extract_lets +onlyGivenNames x; clear_value x)
    | (extract_lets +onlyGivenNames w; revert w; intro w0)
    | with_reducible apply kept_ite
    | with_reducible apply State.onlyIf_kept
    | with_reducible apply State.patchUcode_kept
    | with_reducible apply State.runImage_kept
    | with_reducible apply State.setBank_kept
    | with_reducible apply State.wr_kept
    | with_reducible apply kept2_mk
    | with_reducible apply keptO_some
    | with_reducible apply keptO_none
    | with_reducible exact keptO2_get (by with_reducible assumption)
    | (with_reducible refine kept2_eq (by with_reducible assumption) ?_)
    | (with_reducible apply kept2_proj; first | with_reducible assumption | with_reducible apply kept2_foldl)
    | (with_reducible refine keptO_eq (by with_reducible assumption) ?_)
    | with_reducible apply kept_foldl
    | split
    | dsimp -zeta only
    | (with_reducible refine kept_mk rfl ?_ rfl rfl rfl rfl ?_ ?_ ?_ ?_ ?_ ?_ ?_ ?_ ?_ ?_ ?_ ?_ ?_ ?_ ?_ ?_ ?_ ?_ ?_ <;> first | with_reducible exact Or.inr rfl | exact Or.inl (by assumption) | with_reducible assumption | with_reducible exact keptO2_get (by with_reducible assumption) | (with_reducible refine kept2_eq (by with_reducible assumption) ?_) | (with_reducible refine keptO_eq (by with_reducible assumption) ?_) | with_reducible apply State.onlyIf_kept | with_reducible apply State.patchUcode_kept | with_reducible apply State.runImage_kept | with_reducible apply State.setBank_kept | with_reducible apply State.wr_kept)

theorem State.tryBank_kept {a1 a2 k3} (hregs : m.regs) (hsvc : m.svc) (hfw : m.fw) (hflash : m.flash) (h : Kept m z s)
    (hk3 : ∀ t, Kept m z t → Kept m z (k3 t)) : Kept m z (State.tryBank s a1 a2 k3) := by
  unfold State.tryBank
  repeat' first
    | with_reducible assumption
    | intro _
    | with_reducible apply hk3
    | with_reducible apply State.bankFails_kept
    | with_reducible apply State.bootBank_kept
    | split

theorem State.tryBanks_kept {a1 a2 a3} (hregs : m.regs) (hsvc : m.svc) (hfw : m.fw) (hflash : m.flash) (h : Kept m z s)
    : Kept m z (State.tryBanks s a1 a2 a3) := by
  unfold State.tryBanks
  repeat' first
    | with_reducible assumption
    | intro _
    | with_reducible apply State.enterRecovery_kept
    | with_reducible apply State.tryBank_kept

theorem execPllLock_kept {a0 a1} (hregs : m.regs) (hsvc : m.svc) (hfw : m.fw) (hflash : m.flash) (h : Kept m z s) :
    KeptX m z (execPllLock a0 a1 s) := by
  unfold execPllLock
  dsimp only
  repeat' first
    | with_reducible assumption
    | intro _
    | subst x
    | (extract_lets +onlyGivenNames x; have hx : Kept m z x := ?_; clear_value x)
    | (extract_lets +onlyGivenNames x; have hx : Kept2 m z x := ?_; clear_value x)
    | (extract_lets +onlyGivenNames x; have hx : KeptO m z x := ?_; clear_value x)
    | (extract_lets +onlyGivenNames x; clear_value x)
    | (extract_lets +onlyGivenNames w; revert w; intro w0)
    | with_reducible apply kept_ite
    | with_reducible apply State.enterRecovery_kept
    | with_reducible apply State.onlyIf_kept
    | with_reducible apply State.tryBanks_kept
    | with_reducible apply State.wr_kept
    | with_reducible apply State.wrBit_kept
    | with_reducible apply keptX_ok
    | with_reducible apply kept2_mk
    | with_reducible apply keptO_some
    | with_reducible apply keptO_none
    | with_reducible exact keptO2_get (by with_reducible assumption)
    | (with_reducible refine kept2_eq (by with_reducible assumption) ?_)
    | (with_reducible apply kept2_proj; first | with_reducible assumption | with_reducible apply kept2_foldl)
    | (with_reducible refine keptO_eq (by with_reducible assumption) ?_)
    | with_reducible apply kept_foldl
    | split
    | dsimp -zeta only
    | (with_reducible refine kept_mk rfl ?_ rfl rfl rfl rfl ?_ ?_ ?_ ?_ ?_ ?_ ?_ ?_ ?_ ?_ ?_ ?_ ?_ ?_ ?_ ?_ ?_ ?_ ?_ <;> first | with_reducible exact Or.inr rfl | exact Or.inl (by assumption) | with_reducible assumption | with_reducible exact keptO2_get (by with_reducible assumption) | (with_reducible refine kept2_eq (by with_reducible assumption) ?_) | (with_reducible refine keptO_eq (by with_reducible assumption) ?_) | with_reducible apply State.enterRecovery_kept | with_reducible apply State.onlyIf_kept | with_reducible apply State.tryBanks_kept | with_reducible apply State.wr_kept | with_reducible apply State.wrBit_kept)

theorem State.bootReg_kept {a1 a2} (hregs : m.regs) (hout : m.out) (hhost : m.host) (h : Kept m z s) : Kept m z
    (State.bootReg s a1 a2) := by
  unfold State.bootReg
  repeat' first
    | with_reducible assumption
    | intro _
    | subst x
    | (extract_lets +onlyGivenNames x; have hx : Kept m z x := ?_; clear_value x)
    | (extract_lets +onlyGivenNames x; clear_value x)
    | (extract_lets +onlyGivenNames w; revert w; intro w0)
    | with_reducible apply State.lateErr_kept
    | with_reducible apply State.wrWord_kept
    | split
    | dsimp -zeta only

theorem State.bootEarly_kept (hregs : m.regs) (hout : m.out) (hhost : m.host) (h : Kept m z s) : Kept m z
    (State.bootEarly s) := by
  unfold State.bootEarly
  repeat' first
    | with_reducible assumption
    | intro _
    | subst x
    | (extract_lets +onlyGivenNames x; have hx : Kept m z x := ?_; clear_value x)
    | (extract_lets +onlyGivenNames x; clear_value x)
    | (extract_lets +onlyGivenNames w; revert w; intro w0)
    | with_reducible apply State.bootReg_kept
    | with_reducible apply State.wrWord_kept
    | dsimp -zeta only

theorem State.bootLinks_kept (hregs : m.regs) (hout : m.out) (hhost : m.host) (hsvc : m.svc) (hbuf : m.buf) (hfab :
    m.fab) (h : Kept m z s) : Kept m z (State.bootLinks s) := by
  unfold State.bootLinks
  repeat' first
    | with_reducible assumption
    | intro _
    | subst x
    | (extract_lets +onlyGivenNames x; have hx : Kept m z x := ?_; clear_value x)
    | (extract_lets +onlyGivenNames x; clear_value x)
    | (extract_lets +onlyGivenNames w; revert w; intro w0)
    | with_reducible apply State.each_kept
    | with_reducible apply State.enableLink_kept
    | with_reducible apply State.enableRes_kept
    | split
    | dsimp -zeta only

theorem State.bootGen_kept {a1 a2} (hregs : m.regs) (hout : m.out) (hhost : m.host) (h : Kept m z s) : Kept m z
    (State.bootGen s a1 a2) := by
  unfold State.bootGen
  repeat' first
    | with_reducible assumption
    | intro _
    | subst x
    | (extract_lets +onlyGivenNames x; have hx : Kept m z x := ?_; clear_value x)
    | (extract_lets +onlyGivenNames x; clear_value x)
    | (extract_lets +onlyGivenNames w; revert w; intro w0)
    | with_reducible apply State.lateErr_kept
    | with_reducible apply State.wrWord_kept
    | split
    | dsimp -zeta only

theorem State.bootLate_kept (hregs : m.regs) (hout : m.out) (hturn : m.turn) (htime : m.time) (hsched : m.sched) (hhost
    : m.host) (hsvc : m.svc) (hrecipe : m.recipe) (htab : m.tab) (htxns : m.txns) (hcnt : m.cnt) (hbuf : m.buf) (hlif :
    m.lif) (hfab : m.fab) (h : Kept m z s) : Kept m z (State.bootLate s) := by
  unfold State.bootLate
  repeat' first
    | with_reducible assumption
    | intro _
    | subst x
    | (extract_lets +onlyGivenNames x; have hx : Kept m z x := ?_; clear_value x)
    | (extract_lets +onlyGivenNames x; clear_value x)
    | (extract_lets +onlyGivenNames w; revert w; intro w0)
    | with_reducible apply State.bootGen_kept
    | with_reducible apply State.bootLinks_kept
    | with_reducible apply State.bootReg_kept
    | with_reducible apply State.each_kept
    | with_reducible apply State.enablePort_kept
    | with_reducible apply State.setSource_kept
    | with_reducible apply State.setTurnLen_kept
    | split
    | dsimp -zeta only

theorem State.applyRoles_kept (hregs : m.regs) (h : Kept m z s) : Kept m z (State.applyRoles s) := by
  unfold State.applyRoles
  repeat' first
    | with_reducible assumption
    | intro _
    | subst x
    | (extract_lets +onlyGivenNames x; have hx : Kept m z x := ?_; clear_value x)
    | (extract_lets +onlyGivenNames x; clear_value x)
    | (extract_lets +onlyGivenNames w; revert w; intro w0)
    | with_reducible apply kept_ite
    | with_reducible apply State.countSpares_kept
    | with_reducible apply State.each_kept
    | with_reducible apply State.wr_kept
    | with_reducible apply State.wrBit_kept
    | split
    | dsimp -zeta only

theorem execFirmwareRunning_kept (hregs : m.regs) (hout : m.out) (hhost : m.host) (hsvc : m.svc) (h : Kept m z s) :
    KeptX m z (execFirmwareRunning s) := by
  unfold execFirmwareRunning
  repeat' first
    | with_reducible assumption
    | intro _
    | subst x
    | (extract_lets +onlyGivenNames x; have hx : Kept m z x := ?_; clear_value x)
    | (extract_lets +onlyGivenNames x; have hx : Kept2 m z x := ?_; clear_value x)
    | (extract_lets +onlyGivenNames x; have hx : KeptO m z x := ?_; clear_value x)
    | (extract_lets +onlyGivenNames x; clear_value x)
    | (extract_lets +onlyGivenNames w; revert w; intro w0)
    | with_reducible apply kept_ite
    | with_reducible apply State.applyRoles_kept
    | with_reducible apply State.bootEarly_kept
    | with_reducible apply State.each_kept
    | with_reducible apply State.takeDelays_kept
    | with_reducible apply State.wr_kept
    | with_reducible apply keptX_ok
    | with_reducible apply kept2_mk
    | with_reducible apply keptO_some
    | with_reducible apply keptO_none
    | with_reducible exact keptO2_get (by with_reducible assumption)
    | (with_reducible refine kept2_eq (by with_reducible assumption) ?_)
    | (with_reducible apply kept2_proj; first | with_reducible assumption | with_reducible apply kept2_foldl)
    | (with_reducible refine keptO_eq (by with_reducible assumption) ?_)
    | with_reducible apply kept_foldl
    | split
    | dsimp -zeta only
    | (with_reducible refine kept_mk rfl ?_ rfl rfl rfl rfl ?_ ?_ ?_ ?_ ?_ ?_ ?_ ?_ ?_ ?_ ?_ ?_ ?_ ?_ ?_ ?_ ?_ ?_ ?_ <;> first | with_reducible exact Or.inr rfl | exact Or.inl (by assumption) | with_reducible assumption | with_reducible exact keptO2_get (by with_reducible assumption) | (with_reducible refine kept2_eq (by with_reducible assumption) ?_) | (with_reducible refine keptO_eq (by with_reducible assumption) ?_) | with_reducible apply State.applyRoles_kept | with_reducible apply State.bootEarly_kept | with_reducible apply State.each_kept | with_reducible apply State.takeDelays_kept | with_reducible apply State.wr_kept)

theorem State.startPipes_kept (hregs : m.regs) (h : Kept m z s) : Kept m z (State.startPipes s) := by
  unfold State.startPipes
  repeat' first
    | with_reducible assumption
    | intro _
    | with_reducible apply State.each_kept
    | with_reducible apply State.wr_kept

theorem State.releaseCore_kept (hregs : m.regs) (hout : m.out) (hturn : m.turn) (htime : m.time) (hsched : m.sched)
    (hhost : m.host) (hsvc : m.svc) (hrecipe : m.recipe) (htab : m.tab) (htxns : m.txns) (hcnt : m.cnt) (hbuf : m.buf)
    (hlif : m.lif) (hfab : m.fab) (h : Kept m z s) : Kept m z (State.releaseCore s) := by
  unfold State.releaseCore
  repeat' first
    | with_reducible assumption
    | intro _
    | subst x
    | (extract_lets +onlyGivenNames x; have hx : Kept m z x := ?_; clear_value x)
    | (extract_lets +onlyGivenNames x; have hx : Kept2 m z x := ?_; clear_value x)
    | (extract_lets +onlyGivenNames x; have hx : KeptO m z x := ?_; clear_value x)
    | (extract_lets +onlyGivenNames x; clear_value x)
    | (extract_lets +onlyGivenNames w; revert w; intro w0)
    | with_reducible apply kept_ite
    | with_reducible apply State.bootLate_kept
    | with_reducible apply State.onlyIf_kept
    | with_reducible apply State.startPipes_kept
    | with_reducible apply State.svcUpdate_kept
    | with_reducible apply State.wr_kept
    | with_reducible apply kept2_mk
    | with_reducible apply keptO_some
    | with_reducible apply keptO_none
    | with_reducible exact keptO2_get (by with_reducible assumption)
    | (with_reducible refine kept2_eq (by with_reducible assumption) ?_)
    | (with_reducible apply kept2_proj; first | with_reducible assumption | with_reducible apply kept2_foldl)
    | (with_reducible refine keptO_eq (by with_reducible assumption) ?_)
    | with_reducible apply kept_foldl
    | split
    | dsimp -zeta only
    | (with_reducible refine kept_mk rfl ?_ rfl rfl rfl rfl ?_ ?_ ?_ ?_ ?_ ?_ ?_ ?_ ?_ ?_ ?_ ?_ ?_ ?_ ?_ ?_ ?_ ?_ ?_ <;> first | with_reducible exact Or.inr rfl | exact Or.inl (by assumption) | with_reducible assumption | with_reducible exact keptO2_get (by with_reducible assumption) | (with_reducible refine kept2_eq (by with_reducible assumption) ?_) | (with_reducible refine keptO_eq (by with_reducible assumption) ?_) | with_reducible apply State.bootLate_kept | with_reducible apply State.onlyIf_kept | with_reducible apply State.startPipes_kept | with_reducible apply State.svcUpdate_kept | with_reducible apply State.wr_kept)

theorem execMemoryFillDone_kept {a0 a1} (hregs : m.regs) (hout : m.out) (hturn : m.turn) (htime : m.time) (hsched :
    m.sched) (hhost : m.host) (hsvc : m.svc) (hrecipe : m.recipe) (htab : m.tab) (htxns : m.txns) (hcnt : m.cnt) (hbuf
    : m.buf) (hlif : m.lif) (hmem : m.mem) (hfab : m.fab) (h : Kept m z s) : KeptX m z (execMemoryFillDone a0 a1 s) :=
    by
  unfold execMemoryFillDone
  repeat' first
    | with_reducible assumption
    | intro _
    | subst x
    | (extract_lets +onlyGivenNames x; have hx : Kept m z x := ?_; clear_value x)
    | (extract_lets +onlyGivenNames x; clear_value x)
    | (extract_lets +onlyGivenNames w; revert w; intro w0)
    | with_reducible apply kept_ite
    | with_reducible apply State.each_kept
    | with_reducible apply State.eventOn_kept
    | with_reducible apply State.fillRetire_kept
    | with_reducible apply State.releaseCore_kept
    | with_reducible apply State.wr_kept
    | with_reducible apply keptX_ok
    | split
    | dsimp -zeta only

end Sys2Proof.Machine
end

