-- ==== Sys2Proof/Laws/KeptTdReset.lean ====
section
/-!
SUPPORT. Laws/KeptTdReset.lean: what the operations of Machine/TdReset.lean keep (Laws/Kept.lean).
-/

namespace Sys2Proof.Machine

set_option linter.all false

variable {m : Mask} {z s : State}

theorem State.dropBridge_kept (hregs : m.regs) (hout : m.out) (htab : m.tab) (htxf : m.txf) (hfd : m.fd) (hcnt : m.cnt)
    (hbrg : m.brg) (hlif : m.lif) (h : Kept m z s) : Kept m z (State.dropBridge s) := by
  unfold State.dropBridge
  repeat' first
    | with_reducible assumption
    | intro _
    | subst x
    | (extract_lets +onlyGivenNames x; have hx : Kept m z x := ?_; clear_value x)
    | (extract_lets +onlyGivenNames x; have hx : Kept2 m z x := ?_; clear_value x)
    | (extract_lets +onlyGivenNames x; have hx : KeptO m z x := ?_; clear_value x)
    | (extract_lets +onlyGivenNames x; clear_value x)
    | (extract_lets +onlyGivenNames w; revert w; intro w0)
    | with_reducible apply kept_ite
    | with_reducible apply State.dropIngress_kept
    | with_reducible apply State.dropPkt_kept
    | with_reducible apply State.each_kept
    | with_reducible apply State.endTxn_kept
    | with_reducible apply State.uncharge_kept
    | with_reducible apply kept2_mk
    | with_reducible apply keptO_some
    | with_reducible apply keptO_none
    | with_reducible exact keptO2_get (by with_reducible assumption)
    | (with_reducible refine kept2_eq (by with_reducible assumption) ?_)
    | (with_reducible apply kept2_proj; first | with_reducible assumption | with_reducible apply kept2_foldl)
    | (with_reducible refine keptO_eq (by with_reducible assumption) ?_)
    | with_reducible apply kept_foldl
    | split
    | dsimp -zeta only
    | (with_reducible refine kept_mk rfl ?_ rfl rfl rfl rfl ?_ ?_ ?_ ?_ ?_ ?_ ?_ ?_ ?_ ?_ ?_ ?_ ?_ ?_ ?_ ?_ ?_ ?_ ?_ <;> first | with_reducible exact Or.inr rfl | exact Or.inl (by assumption) | with_reducible assumption | with_reducible exact keptO2_get (by with_reducible assumption) | (with_reducible refine kept2_eq (by with_reducible assumption) ?_) | (with_reducible refine keptO_eq (by with_reducible assumption) ?_) | with_reducible apply State.dropIngress_kept | with_reducible apply State.dropPkt_kept | with_reducible apply State.each_kept | with_reducible apply State.endTxn_kept | with_reducible apply State.uncharge_kept)

theorem State.dropScans_kept (hregs : m.regs) (hout : m.out) (hfd : m.fd) (hcnt : m.cnt) (hbrg : m.brg) (hlif : m.lif)
    (h : Kept m z s) : Kept m z (State.dropScans s) := by
  unfold State.dropScans
  repeat' first
    | with_reducible assumption
    | intro _
    | with_reducible apply State.bump_kept
    | with_reducible apply State.dropPkt_kept
    | with_reducible apply State.each_kept
    | split

theorem State.dropSnaps_kept (hregs : m.regs) (hhost : m.host) (hfab : m.fab) (h : Kept m z s) : Kept m z
    (State.dropSnaps s) := by
  unfold State.dropSnaps
  repeat' first
    | with_reducible assumption
    | intro _
    | subst x
    | (extract_lets +onlyGivenNames x; have hx : Kept m z x := ?_; clear_value x)
    | (extract_lets +onlyGivenNames x; clear_value x)
    | (extract_lets +onlyGivenNames w; revert w; intro w0)
    | with_reducible apply State.complete_kept
    | with_reducible apply State.each_kept
    | dsimp -zeta only

theorem State.dropRemotes_kept {a1} (hregs : m.regs) (hhost : m.host) (hfab : m.fab) (h : Kept m z s) : Kept m z
    (State.dropRemotes s a1) := by
  unfold State.dropRemotes
  repeat' first
    | with_reducible assumption
    | intro _
    | subst x
    | (extract_lets +onlyGivenNames x; have hx : Kept m z x := ?_; clear_value x)
    | (extract_lets +onlyGivenNames x; have hx : Kept2 m z x := ?_; clear_value x)
    | (extract_lets +onlyGivenNames x; have hx : KeptO m z x := ?_; clear_value x)
    | (extract_lets +onlyGivenNames x; clear_value x)
    | (extract_lets +onlyGivenNames w; revert w; intro w0)
    | with_reducible apply kept_ite
    | with_reducible apply State.complete_kept
    | with_reducible apply State.each_kept
    | with_reducible apply kept2_mk
    | with_reducible apply keptO_some
    | with_reducible apply keptO_none
    | with_reducible exact keptO2_get (by with_reducible assumption)
    | (with_reducible refine kept2_eq (by with_reducible assumption) ?_)
    | (with_reducible apply kept2_proj; first | with_reducible assumption | with_reducible apply kept2_foldl)
    | (with_reducible refine keptO_eq (by with_reducible assumption) ?_)
    | with_reducible apply kept_foldl
    | split
    | dsimp -zeta only
    | (with_reducible refine kept_mk rfl ?_ rfl rfl rfl rfl ?_ ?_ ?_ ?_ ?_ ?_ ?_ ?_ ?_ ?_ ?_ ?_ ?_ ?_ ?_ ?_ ?_ ?_ ?_ <;> first | with_reducible exact Or.inr rfl | exact Or.inl (by assumption) | with_reducible assumption | with_reducible exact keptO2_get (by with_reducible assumption) | (with_reducible refine kept2_eq (by with_reducible assumption) ?_) | (with_reducible refine keptO_eq (by with_reducible assumption) ?_) | with_reducible apply State.complete_kept | with_reducible apply State.each_kept)

theorem State.endRequests_kept (hregs : m.regs) (hout : m.out) (hsched : m.sched) (hhost : m.host) (hrecipe : m.recipe)
    (htab : m.tab) (htxf : m.txf) (htxns : m.txns) (hfd : m.fd) (hcnt : m.cnt) (hbrg : m.brg) (hbuf : m.buf) (hlif :
    m.lif) (hmem : m.mem) (hfab : m.fab) (h : Kept m z s) : Kept m z (State.endRequests s) := by
  unfold State.endRequests
  repeat' first
    | with_reducible assumption
    | intro _
    | subst x
    | (extract_lets +onlyGivenNames x; have hx : Kept m z x := ?_; clear_value x)
    | (extract_lets +onlyGivenNames x; clear_value x)
    | (extract_lets +onlyGivenNames w; revert w; intro w0)
    | with_reducible apply State.abortAllTxns_kept
    | with_reducible apply State.dropBridge_kept
    | with_reducible apply State.dropRemotes_kept
    | with_reducible apply State.dropScans_kept
    | with_reducible apply State.dropSnaps_kept
    | with_reducible apply State.each_kept
    | with_reducible apply State.loadFails_kept
    | with_reducible apply State.withdrawWhere_kept
    | dsimp -zeta only

theorem State.loseTd_kept (hsvc : m.svc) (htab : m.tab) (hcnt : m.cnt) (hbuf : m.buf) (hmem : m.mem) (hfab : m.fab) (h
    : Kept m z s) : Kept m z (State.loseTd s) :=
  kept_mk rfl h rfl rfl rfl rfl (.inr rfl) (.inr rfl) (.inr rfl) (.inr rfl) (.inr rfl) (.inl hsvc) (.inr rfl) (.inr rfl) (.inr rfl) (.inl htab)
    (.inr rfl) (.inr rfl) (.inr rfl) (.inl hcnt) (.inr rfl) (.inl hbuf) (.inr rfl) (.inl hmem) (.inl hfab)

theorem State.endCharges_kept (hregs : m.regs) (hout : m.out) (hlif : m.lif) (h : Kept m z s) : Kept m z
    (State.endCharges s) := by
  unfold State.endCharges
  repeat' first
    | with_reducible assumption
    | intro _
    | with_reducible apply State.each_kept
    | with_reducible apply State.uncharge_kept

theorem State.resetTdRegs_kept (hregs : m.regs) (h : Kept m z s) : Kept m z (State.resetTdRegs s) := by
  unfold State.resetTdRegs
  repeat' first
    | with_reducible assumption
    | intro _
    | with_reducible apply State.resetRegs_kept

theorem State.tdReset_kept {a1} (hregs : m.regs) (hout : m.out) (hsched : m.sched) (hhost : m.host) (hsvc : m.svc)
    (hrecipe : m.recipe) (htab : m.tab) (htxf : m.txf) (htxns : m.txns) (hfd : m.fd) (hcnt : m.cnt) (hbrg : m.brg)
    (hbuf : m.buf) (hlif : m.lif) (hmem : m.mem) (hfab : m.fab) (h : Kept m z s) : Kept m z (State.tdReset s a1) := by
  unfold State.tdReset
  repeat' first
    | with_reducible assumption
    | intro _
    | subst x
    | (extract_lets +onlyGivenNames x; have hx : Kept m z x := ?_; clear_value x)
    | (extract_lets +onlyGivenNames x; clear_value x)
    | (extract_lets +onlyGivenNames w; revert w; intro w0)
    | with_reducible apply kept_ite
    | with_reducible apply State.applyRoles_kept
    | with_reducible apply State.bump_kept
    | with_reducible apply State.endCharges_kept
    | with_reducible apply State.endRequests_kept
    | with_reducible apply State.eventOn_kept
    | with_reducible apply State.fwSync_kept
    | with_reducible apply State.loseTd_kept
    | with_reducible apply State.onlyIf_kept
    | with_reducible apply State.resetTdRegs_kept
    | with_reducible apply State.schedCounts_kept
    | with_reducible apply State.showGroups_kept
    | with_reducible apply State.svcUpdate_kept
    | with_reducible apply State.wr_kept
    | split
    | dsimp -zeta only

theorem execTdResetRequest_kept {a0 a1 a2} (hregs : m.regs) (hout : m.out) (hsched : m.sched) (hhost : m.host) (hsvc :
    m.svc) (hrecipe : m.recipe) (htab : m.tab) (htxf : m.txf) (htxns : m.txns) (hfd : m.fd) (hcnt : m.cnt) (hbrg :
    m.brg) (hbuf : m.buf) (hlif : m.lif) (hmem : m.mem) (hfab : m.fab) (h : Kept m z s) : KeptX m z (execTdResetRequest
    a0 a1 a2 s) := by
  unfold execTdResetRequest
  repeat' first
    | with_reducible assumption
    | intro _
    | with_reducible apply kept_ite
    | with_reducible apply State.hostWrite_kept
    | with_reducible apply State.lateErr_kept
    | with_reducible apply State.tdReset_kept
    | with_reducible apply keptX_ok
    | split

theorem execI2cTdResetRequest_kept {a0} (hregs : m.regs) (hout : m.out) (hsched : m.sched) (hhost : m.host) (hsvc :
    m.svc) (hrecipe : m.recipe) (htab : m.tab) (htxf : m.txf) (htxns : m.txns) (hfd : m.fd) (hcnt : m.cnt) (hbrg :
    m.brg) (hbuf : m.buf) (hlif : m.lif) (hmem : m.mem) (hfab : m.fab) (h : Kept m z s) : KeptX m z
    (execI2cTdResetRequest a0 s) := by
  unfold execI2cTdResetRequest
  repeat' first
    | with_reducible assumption
    | intro _
    | with_reducible apply kept_ite
    | with_reducible apply State.tdReset_kept
    | with_reducible apply keptX_ok
    | split

theorem execTdHeartbeat_kept (hsvc : m.svc) (h : Kept m z s) : KeptX m z (execTdHeartbeat s) := by
  unfold execTdHeartbeat
  repeat' first
    | with_reducible assumption
    | intro _
    | subst x
    | (extract_lets +onlyGivenNames x; have hx : Kept m z x := ?_; clear_value x)
    | (extract_lets +onlyGivenNames x; have hx : Kept2 m z x := ?_; clear_value x)
    | (extract_lets +onlyGivenNames x; have hx : KeptO m z x := ?_; clear_value x)
    | (extract_lets +onlyGivenNames x; clear_value x)
    | (extract_lets +onlyGivenNames w; revert w; intro w0)
    | with_reducible apply kept_ite
    | with_reducible apply keptX_ok
    | with_reducible apply kept2_mk
    | with_reducible apply keptO_some
    | with_reducible apply keptO_none
    | with_reducible exact keptO2_get (by with_reducible assumption)
    | (with_reducible refine kept2_eq (by with_reducible assumption) ?_)
    | (with_reducible apply kept2_proj; first | with_reducible assumption | with_reducible apply kept2_foldl)
    | (with_reducible refine keptO_eq (by with_reducible assumption) ?_)
    | with_reducible apply kept_foldl
    | split
    | dsimp -zeta only
    | (with_reducible refine kept_mk rfl ?_ rfl rfl rfl rfl ?_ ?_ ?_ ?_ ?_ ?_ ?_ ?_ ?_ ?_ ?_ ?_ ?_ ?_ ?_ ?_ ?_ ?_ ?_ <;> first | with_reducible exact Or.inr rfl | exact Or.inl (by assumption) | with_reducible assumption | with_reducible exact keptO2_get (by with_reducible assumption) | (with_reducible refine kept2_eq (by with_reducible assumption) ?_) | (with_reducible refine keptO_eq (by with_reducible assumption) ?_))

theorem execTdWatchdogExpire_kept (hregs : m.regs) (hout : m.out) (hsched : m.sched) (hhost : m.host) (hsvc : m.svc)
    (hrecipe : m.recipe) (htab : m.tab) (htxf : m.txf) (htxns : m.txns) (hfd : m.fd) (hcnt : m.cnt) (hbrg : m.brg)
    (hbuf : m.buf) (hlif : m.lif) (hmem : m.mem) (hfab : m.fab) (h : Kept m z s) : KeptX m z (execTdWatchdogExpire s)
    := by
  unfold execTdWatchdogExpire
  repeat' first
    | with_reducible assumption
    | intro _
    | with_reducible apply kept_ite
    | with_reducible apply State.tdReset_kept
    | with_reducible apply keptX_ok
    | split

theorem State.rewriteCopies_kept (hregs : m.regs) (hout : m.out) (hhost : m.host) (hfd : m.fd) (h : Kept m z s) : Kept
    m z (State.rewriteCopies s) := by
  unfold State.rewriteCopies
  repeat' first
    | with_reducible assumption
    | intro _
    | with_reducible apply kept_ite
    | with_reducible apply State.closeLog_kept
    | with_reducible apply State.each_kept
    | with_reducible apply State.markWord_kept
    | with_reducible apply State.retire_kept
    | split

theorem execTdRestartDone_kept (hregs : m.regs) (hout : m.out) (hturn : m.turn) (htime : m.time) (hsched : m.sched)
    (hhost : m.host) (hsvc : m.svc) (hrecipe : m.recipe) (htab : m.tab) (htxns : m.txns) (hfd : m.fd) (hcnt : m.cnt)
    (hbuf : m.buf) (hlif : m.lif) (hfab : m.fab) (h : Kept m z s) : KeptX m z (execTdRestartDone s) := by
  unfold execTdRestartDone
  repeat' first
    | with_reducible assumption
    | intro _
    | subst x
    | (extract_lets +onlyGivenNames x; have hx : Kept m z x := ?_; clear_value x)
    | (extract_lets +onlyGivenNames x; have hx : Kept2 m z x := ?_; clear_value x)
    | (extract_lets +onlyGivenNames x; have hx : KeptO m z x := ?_; clear_value x)
    | (extract_lets +onlyGivenNames x; clear_value x)
    | (extract_lets +onlyGivenNames w; revert w; intro w0)
    | with_reducible apply kept_ite
    | with_reducible apply State.bootLinks_kept
    | with_reducible apply State.onlyIf_kept
    | with_reducible apply State.releaseCore_kept
    | with_reducible apply State.rewriteCopies_kept
    | with_reducible apply State.wr_kept
    | with_reducible apply keptX_ok
    | with_reducible apply kept2_mk
    | with_reducible apply keptO_some
    | with_reducible apply keptO_none
    | with_reducible exact keptO2_get (by with_reducible assumption)
    | (with_reducible refine kept2_eq (by with_reducible assumption) ?_)
    | (with_reducible apply kept2_proj; first | with_reducible assumption | with_reducible apply kept2_foldl)
    | (with_reducible refine keptO_eq (by with_reducible assumption) ?_)
    | with_reducible apply kept_foldl
    | split
    | dsimp -zeta only
    | (with_reducible refine kept_mk rfl ?_ rfl rfl rfl rfl ?_ ?_ ?_ ?_ ?_ ?_ ?_ ?_ ?_ ?_ ?_ ?_ ?_ ?_ ?_ ?_ ?_ ?_ ?_ <;> first | with_reducible exact Or.inr rfl | exact Or.inl (by assumption) | with_reducible assumption | with_reducible exact keptO2_get (by with_reducible assumption) | (with_reducible refine kept2_eq (by with_reducible assumption) ?_) | (with_reducible refine keptO_eq (by with_reducible assumption) ?_) | with_reducible apply State.bootLinks_kept | with_reducible apply State.onlyIf_kept | with_reducible apply State.releaseCore_kept | with_reducible apply State.rewriteCopies_kept | with_reducible apply State.wr_kept)

end Sys2Proof.Machine
end

