-- ==== Sys2Proof/Laws/KeptBlockReset.lean ====
section
/-!
SUPPORT. Laws/KeptBlockReset.lean: what the operations of Machine/BlockReset.lean keep (Laws/Kept.lean).
-/

namespace Sys2Proof.Machine

set_option linter.all false

variable {m : Mask} {z s : State}

theorem State.resetBlockRegs_kept {a1} (hregs : m.regs) (h : Kept m z s) : Kept m z (State.resetBlockRegs s a1) :=
  h.trans ⟨rfl, List.prefix_rfl, fun _ => (by unfold State.resetBlockRegs; dsimp only; exact canonical_regsKept), Nat.le_refl _,
    Nat.le_refl _, .inl hregs, .inr rfl, .inr rfl, .inr rfl, .inr rfl, .inr rfl, .inr rfl, .inr rfl, .inr rfl, .inr rfl, .inr rfl, .inr rfl,
    .inr rfl, .inr rfl, .inr rfl, .inr rfl, .inr rfl, .inr rfl, .inr rfl, .inr rfl, .inr rfl⟩

theorem State.dropFifos_kept (hregs : m.regs) (hout : m.out) (hfd : m.fd) (hbrg : m.brg) (hlif : m.lif) (h : Kept m z
    s) : Kept m z (State.dropFifos s) := by
  unfold State.dropFifos
  repeat' first
    | with_reducible assumption
    | intro _
    | with_reducible apply State.each_kept
    | with_reducible apply State.endPkt_kept

theorem State.dropHolds_kept (hregs : m.regs) (hout : m.out) (hsched : m.sched) (hhost : m.host) (hrecipe : m.recipe)
    (htxns : m.txns) (hcnt : m.cnt) (hbuf : m.buf) (hfab : m.fab) (h : Kept m z s) : Kept m z (State.dropHolds s) := by
  unfold State.dropHolds
  repeat' first
    | with_reducible assumption
    | intro _
    | with_reducible apply State.withdrawWhere_kept
    | split

theorem State.resetBlockState_kept {a1} (hregs : m.regs) (hout : m.out) (hsched : m.sched) (hhost : m.host) (hsvc :
    m.svc) (hrecipe : m.recipe) (htxns : m.txns) (hfd : m.fd) (hcnt : m.cnt) (hbrg : m.brg) (hbuf : m.buf) (hlif :
    m.lif) (hfab : m.fab) (h : Kept m z s) : Kept m z (State.resetBlockState s a1) := by
  unfold State.resetBlockState
  repeat' first
    | with_reducible assumption
    | intro _
    | subst x
    | (extract_lets +onlyGivenNames x; have hx : Kept m z x := ?_; clear_value x)
    | (extract_lets +onlyGivenNames x; have hx : Kept2 m z x := ?_; clear_value x)
    | (extract_lets +onlyGivenNames x; have hx : KeptO m z x := ?_; clear_value x)
    | (extract_lets +onlyGivenNames x; clear_value x)
    | (extract_lets +onlyGivenNames w; revert w; intro w0)
    | with_reducible apply kept_ite
    | with_reducible apply State.dropFifos_kept
    | with_reducible apply State.dropHolds_kept
    | with_reducible apply State.dropRemotes_kept
    | with_reducible apply kept2_mk
    | with_reducible apply keptO_some
    | with_reducible apply keptO_none
    | with_reducible exact keptO2_get (by with_reducible assumption)
    | (with_reducible refine kept2_eq (by with_reducible assumption) ?_)
    | (with_reducible apply kept2_proj; first | with_reducible assumption | with_reducible apply kept2_foldl)
    | (with_reducible refine keptO_eq (by with_reducible assumption) ?_)
    | with_reducible apply kept_foldl
    | split
    | dsimp -zeta only
    | (with_reducible refine kept_mk rfl ?_ rfl rfl rfl rfl ?_ ?_ ?_ ?_ ?_ ?_ ?_ ?_ ?_ ?_ ?_ ?_ ?_ ?_ ?_ ?_ ?_ ?_ ?_ <;> first | with_reducible exact Or.inr rfl | exact Or.inl (by assumption) | with_reducible assumption | with_reducible exact keptO2_get (by with_reducible assumption) | (with_reducible refine kept2_eq (by with_reducible assumption) ?_) | (with_reducible refine keptO_eq (by with_reducible assumption) ?_) | with_reducible apply State.dropFifos_kept | with_reducible apply State.dropHolds_kept | with_reducible apply State.dropRemotes_kept)

theorem State.resetBlock_kept {a1} (hregs : m.regs) (hout : m.out) (hsched : m.sched) (hhost : m.host) (hsvc : m.svc)
    (hrecipe : m.recipe) (htxns : m.txns) (hfd : m.fd) (hcnt : m.cnt) (hbrg : m.brg) (hbuf : m.buf) (hlif : m.lif)
    (hfab : m.fab) (h : Kept m z s) : Kept m z (State.resetBlock s a1) := by
  unfold State.resetBlock
  repeat' first
    | with_reducible assumption
    | intro _
    | subst x
    | (extract_lets +onlyGivenNames x; have hx : Kept m z x := ?_; clear_value x)
    | (extract_lets +onlyGivenNames x; have hx : Kept2 m z x := ?_; clear_value x)
    | (extract_lets +onlyGivenNames x; have hx : KeptO m z x := ?_; clear_value x)
    | (extract_lets +onlyGivenNames x; clear_value x)
    | (extract_lets +onlyGivenNames w; revert w; intro w0)
    | with_reducible apply kept_ite
    | with_reducible apply State.resetBlockRegs_kept
    | with_reducible apply State.resetBlockState_kept
    | with_reducible apply State.svcUpdate_kept
    | with_reducible apply State.wr_kept
    | with_reducible apply kept2_mk
    | with_reducible apply keptO_some
    | with_reducible apply keptO_none
    | with_reducible exact keptO2_get (by with_reducible assumption)
    | (with_reducible refine kept2_eq (by with_reducible assumption) ?_)
    | (with_reducible apply kept2_proj; first | with_reducible assumption | with_reducible apply kept2_foldl)
    | (with_reducible refine keptO_eq (by with_reducible assumption) ?_)
    | with_reducible apply kept_foldl
    | split
    | dsimp -zeta only
    | (with_reducible refine kept_mk rfl ?_ rfl rfl rfl rfl ?_ ?_ ?_ ?_ ?_ ?_ ?_ ?_ ?_ ?_ ?_ ?_ ?_ ?_ ?_ ?_ ?_ ?_ ?_ <;> first | with_reducible exact Or.inr rfl | exact Or.inl (by assumption) | with_reducible assumption | with_reducible exact keptO2_get (by with_reducible assumption) | (with_reducible refine kept2_eq (by with_reducible assumption) ?_) | (with_reducible refine keptO_eq (by with_reducible assumption) ?_) | with_reducible apply State.resetBlockRegs_kept | with_reducible apply State.resetBlockState_kept | with_reducible apply State.svcUpdate_kept | with_reducible apply State.wr_kept)

theorem execBlockReset_kept {a0 a1 a2} (hregs : m.regs) (hout : m.out) (hsched : m.sched) (hhost : m.host) (hsvc :
    m.svc) (hrecipe : m.recipe) (htxns : m.txns) (hfd : m.fd) (hcnt : m.cnt) (hbrg : m.brg) (hbuf : m.buf) (hlif :
    m.lif) (hfab : m.fab) (h : Kept m z s) : KeptX m z (execBlockReset a0 a1 a2 s) := by
  unfold execBlockReset
  repeat' first
    | with_reducible assumption
    | intro _
    | subst x
    | (extract_lets +onlyGivenNames x; have hx : Kept m z x := ?_; clear_value x)
    | (extract_lets +onlyGivenNames x; clear_value x)
    | (extract_lets +onlyGivenNames w; revert w; intro w0)
    | with_reducible apply State.each_kept
    | with_reducible apply State.hostWrite_kept
    | with_reducible apply State.lateErr_kept
    | with_reducible apply State.onlyIf_kept
    | with_reducible apply State.resetBlock_kept
    | with_reducible apply keptX_ok
    | dsimp -zeta only

theorem execBlockResetDone_kept (hregs : m.regs) (h : Kept m z s) : KeptX m z (execBlockResetDone s) := by
  unfold execBlockResetDone
  repeat' first
    | with_reducible assumption
    | intro _
    | with_reducible apply State.wrWord_kept
    | with_reducible apply keptX_ok

end Sys2Proof.Machine
end

