-- ==== Sys2Proof/Laws/KeptRelease.lean ====
section
/-!
SUPPORT. Laws/KeptRelease.lean: what the operations of Machine/Release.lean keep (Laws/Kept.lean).
-/

namespace Sys2Proof.Machine

set_option linter.all false

variable {m : Mask} {z s : State}

theorem execAsmOverlapClose_kept {a0} (hregs : m.regs) (htab : m.tab) (h : Kept m z s) : KeptX m z (execAsmOverlapClose
    a0 s) := by
  unfold execAsmOverlapClose
  repeat' first
    | with_reducible assumption
    | intro _
    | subst x
    | (extract_lets +onlyGivenNames x; have hx : Kept m z x := ?_; clear_value x)
    | (extract_lets +onlyGivenNames x; clear_value x)
    | (extract_lets +onlyGivenNames w; revert w; intro w0)
    | with_reducible apply kept_ite
    | with_reducible apply State.setAsm_kept
    | with_reducible apply State.wr_kept
    | with_reducible apply keptX_ok
    | split
    | dsimp -zeta only

theorem execExmOverlapClose_kept {a0} (hregs : m.regs) (hout : m.out) (hhost : m.host) (htab : m.tab) (hcnt : m.cnt)
    (hmem : m.mem) (h : Kept m z s) : KeptX m z (execExmOverlapClose a0 s) := by
  unfold execExmOverlapClose
  repeat' first
    | with_reducible assumption
    | intro _
    | with_reducible apply kept_ite
    | with_reducible apply State.each_kept
    | with_reducible apply State.setExm_kept
    | with_reducible apply keptX_ok
    | split

theorem execRecipeSlotRelease_kept (hregs : m.regs) (hout : m.out) (hhost : m.host) (hrecipe : m.recipe) (htab : m.tab)
    (htxf : m.txf) (htxns : m.txns) (h : Kept m z s) : KeptX m z (execRecipeSlotRelease s) := by
  unfold execRecipeSlotRelease
  repeat' first
    | with_reducible assumption
    | intro _
    | subst x
    | (extract_lets +onlyGivenNames x; have hx : Kept m z x := ?_; clear_value x)
    | (extract_lets +onlyGivenNames x; have hx : Kept2 m z x := ?_; clear_value x)
    | (extract_lets +onlyGivenNames x; have hx : KeptO m z x := ?_; clear_value x)
    | (extract_lets +onlyGivenNames x; clear_value x)
    | (extract_lets +onlyGivenNames w; revert w; intro w0)
    | with_reducible apply kept_ite
    | with_reducible apply State.freeSlot_kept
    | with_reducible apply State.setSlot_kept
    | with_reducible apply State.unreserve_kept
    | with_reducible apply State.wr64_kept
    | with_reducible apply keptX_ok
    | with_reducible apply kept2_mk
    | with_reducible apply keptO_some
    | with_reducible apply keptO_none
    | with_reducible exact keptO2_get (by with_reducible assumption)
    | (with_reducible refine kept2_eq (by with_reducible assumption) ?_)
    | (with_reducible apply kept2_proj; first | with_reducible assumption | with_reducible apply kept2_foldl)
    | (with_reducible refine keptO_eq (by with_reducible assumption) ?_)
    | with_reducible apply kept_foldl
    | split
    | dsimp -zeta only

end Sys2Proof.Machine
end

