-- ==== Sys2Proof/Laws/KeptWindow.lean ====
section
/-!
SUPPORT. Laws/KeptWindow.lean: what the operations of Machine/Window.lean keep (Laws/Kept.lean).
-/

namespace Sys2Proof.Machine

set_option linter.all false

variable {m : Mask} {z s : State}

theorem State.bar2Err_kept {a1 a2 a3 a4} (hregs : m.regs) (hout : m.out) (hhost : m.host) (h : Kept m z s) : Kept m z
    (State.bar2Err s a1 a2 a3 a4) := by
  unfold State.bar2Err
  repeat' first
    | with_reducible assumption
    | intro _
    | with_reducible apply State.lateErr_kept

theorem State.bar2Write_kept {a1 a2 k3} (hregs : m.regs) (hout : m.out) (hhost : m.host) (h : Kept m z s) (hk3 : ∀ x t,
    Kept m z t → Kept m z (k3 x t)) : Kept m z (State.bar2Write s a1 a2 k3) := by
  unfold State.bar2Write
  repeat' first
    | with_reducible assumption
    | intro _
    | subst x
    | (extract_lets +onlyGivenNames x; have hx : Kept m z x := ?_; clear_value x)
    | (extract_lets +onlyGivenNames x; clear_value x)
    | (extract_lets +onlyGivenNames w; revert w; intro w0)
    | with_reducible apply hk3
    | with_reducible apply kept_ite
    | with_reducible apply State.acceptWrite_kept
    | with_reducible apply State.bar2Err_kept
    | with_reducible apply State.secLog_kept
    | split
    | dsimp -zeta only

theorem execBucketLock_kept {a0 a1 a2} (hregs : m.regs) (hout : m.out) (hhost : m.host) (htab : m.tab) (hcnt : m.cnt)
    (hmem : m.mem) (h : Kept m z s) : KeptX m z (execBucketLock a0 a1 a2 s) := by
  unfold execBucketLock
  repeat' first
    | with_reducible assumption
    | intro _
    | with_reducible apply kept_ite
    | with_reducible apply State.bar2Err_kept
    | with_reducible apply State.bar2Write_kept
    | with_reducible apply State.setExm_kept
    | with_reducible apply keptX_ok
    | split

theorem State.windowWrite_kept {a1 a2 a3} (hregs : m.regs) (hsvc : m.svc) (h : Kept m z s) : Kept m z
    (State.windowWrite s a1 a2 a3) := by
  unfold State.windowWrite
  repeat' first
    | with_reducible assumption
    | intro _
    | subst x
    | (extract_lets +onlyGivenNames x; have hx : Kept m z x := ?_; clear_value x)
    | (extract_lets +onlyGivenNames x; have hx : Kept2 m z x := ?_; clear_value x)
    | (extract_lets +onlyGivenNames x; have hx : KeptO m z x := ?_; clear_value x)
    | (extract_lets +onlyGivenNames x; clear_value x)
    | (extract_lets +onlyGivenNames w; revert w; intro w0)
    | with_reducible apply kept_ite
    | with_reducible apply State.acceptWrite_kept
    | with_reducible apply State.fillWindow_kept
    | with_reducible apply kept2_mk
    | with_reducible apply keptO_some
    | with_reducible apply keptO_none
    | with_reducible exact keptO2_get (by with_reducible assumption)
    | (with_reducible refine kept2_eq (by with_reducible assumption) ?_)
    | (with_reducible apply kept2_proj; first | with_reducible assumption | with_reducible apply kept2_foldl)
    | (with_reducible refine keptO_eq (by with_reducible assumption) ?_)
    | with_reducible apply kept_foldl
    | split
    | dsimp -zeta only
    | (with_reducible refine kept_mk rfl ?_ rfl rfl rfl rfl ?_ ?_ ?_ ?_ ?_ ?_ ?_ ?_ ?_ ?_ ?_ ?_ ?_ ?_ ?_ ?_ ?_ ?_ ?_ <;> first | with_reducible exact Or.inr rfl | exact Or.inl (by assumption) | with_reducible assumption | with_reducible exact keptO2_get (by with_reducible assumption) | (with_reducible refine kept2_eq (by with_reducible assumption) ?_) | (with_reducible refine keptO_eq (by with_reducible assumption) ?_) | with_reducible apply State.acceptWrite_kept)

theorem State.bucketWrite_kept {a1 a2 a3} (hregs : m.regs) (hout : m.out) (hhost : m.host) (hsvc : m.svc) (htab :
    m.tab) (hcnt : m.cnt) (hmem : m.mem) (h : Kept m z s) : Kept m z (State.bucketWrite s a1 a2 a3) := by
  unfold State.bucketWrite
  repeat' first
    | with_reducible assumption
    | intro _
    | subst x
    | (extract_lets +onlyGivenNames x; have hx : Kept m z x := ?_; clear_value x)
    | (extract_lets +onlyGivenNames x; have hx : KeptO m z x := ?_; clear_value x)
    | (extract_lets +onlyGivenNames x; clear_value x)
    | (extract_lets +onlyGivenNames w; revert w; intro w0)
    | with_reducible apply kept_ite
    | with_reducible apply State.bar2Err_kept
    | with_reducible apply State.bar2Write_kept
    | with_reducible apply State.setExm_kept
    | with_reducible apply State.windowWrite_kept
    | split
    | dsimp -zeta only

theorem execBucketStagingWrite_kept {a0 a1 a2} (hregs : m.regs) (hout : m.out) (hhost : m.host) (hsvc : m.svc) (htab :
    m.tab) (hcnt : m.cnt) (hmem : m.mem) (h : Kept m z s) : KeptX m z (execBucketStagingWrite a0 a1 a2 s) := by
  unfold execBucketStagingWrite
  repeat' first
    | with_reducible assumption
    | intro _
    | with_reducible apply State.bucketWrite_kept
    | with_reducible apply keptX_ok

theorem execBucketEntryWrite_kept {a0 a1 a2} (hregs : m.regs) (hout : m.out) (hhost : m.host) (hsvc : m.svc) (htab :
    m.tab) (hcnt : m.cnt) (hmem : m.mem) (h : Kept m z s) : KeptX m z (execBucketEntryWrite a0 a1 a2 s) := by
  unfold execBucketEntryWrite
  repeat' first
    | with_reducible assumption
    | intro _
    | with_reducible apply State.bucketWrite_kept
    | with_reducible apply keptX_ok

theorem State.unlock_kept {a1 a2 a3 a4} (hregs : m.regs) (hout : m.out) (hhost : m.host) (htab : m.tab) (hcnt : m.cnt)
    (hmem : m.mem) (h : Kept m z s) : Kept m z (State.unlock s a1 a2 a3 a4) := by
  unfold State.unlock
  repeat' first
    | with_reducible assumption
    | intro _
    | with_reducible apply kept_ite
    | with_reducible apply State.bar2Err_kept
    | with_reducible apply State.bar2Write_kept
    | with_reducible apply State.setExm_kept
    | split

theorem execBucketUnlockCommit_kept {a0 a1 a2} (hregs : m.regs) (hout : m.out) (hhost : m.host) (htab : m.tab) (hcnt :
    m.cnt) (hmem : m.mem) (h : Kept m z s) : KeptX m z (execBucketUnlockCommit a0 a1 a2 s) := by
  unfold execBucketUnlockCommit
  repeat' first
    | with_reducible assumption
    | intro _
    | with_reducible apply State.unlock_kept
    | with_reducible apply keptX_ok

theorem execBucketUnlockDiscard_kept {a0 a1 a2} (hregs : m.regs) (hout : m.out) (hhost : m.host) (htab : m.tab) (hcnt :
    m.cnt) (hmem : m.mem) (h : Kept m z s) : KeptX m z (execBucketUnlockDiscard a0 a1 a2 s) := by
  unfold execBucketUnlockDiscard
  repeat' first
    | with_reducible assumption
    | intro _
    | with_reducible apply State.unlock_kept
    | with_reducible apply keptX_ok

theorem execBucketLockExpire_kept {a0 a1 a2} (hregs : m.regs) (hout : m.out) (hhost : m.host) (htab : m.tab) (hcnt :
    m.cnt) (hmem : m.mem) (h : Kept m z s) : KeptX m z (execBucketLockExpire a0 a1 a2 s) := by
  unfold execBucketLockExpire
  repeat' first
    | with_reducible assumption
    | intro _
    | subst x
    | (extract_lets +onlyGivenNames x; have hx : Kept m z x := ?_; clear_value x)
    | (extract_lets +onlyGivenNames x; clear_value x)
    | (extract_lets +onlyGivenNames w; revert w; intro w0)
    | with_reducible apply kept_ite
    | with_reducible apply State.bar2Err_kept
    | with_reducible apply State.bump_kept
    | with_reducible apply State.event_kept
    | with_reducible apply State.setExm_kept
    | with_reducible apply keptX_ok
    | split
    | dsimp -zeta only

theorem State.publishBuckets_kept {a1} (hregs : m.regs) (hout : m.out) (hhost : m.host) (htab : m.tab) (hcnt : m.cnt)
    (hmem : m.mem) (h : Kept m z s) : Kept m z (State.publishBuckets s a1) := by
  unfold State.publishBuckets
  repeat' first
    | with_reducible assumption
    | intro _
    | subst x
    | (extract_lets +onlyGivenNames x; have hx : Kept m z x := ?_; clear_value x)
    | (extract_lets +onlyGivenNames x; clear_value x)
    | (extract_lets +onlyGivenNames w; revert w; intro w0)
    | with_reducible apply kept_ite
    | with_reducible apply State.each_kept
    | with_reducible apply State.putExm_kept
    | with_reducible apply kept_foldl
    | split
    | dsimp -zeta only

theorem execBar2Read_kept {a0 a1 a2} (hregs : m.regs) (hout : m.out) (hhost : m.host) (hcnt : m.cnt) (hmem : m.mem) (h
    : Kept m z s) : KeptX m z (execBar2Read a0 a1 a2 s) := by
  unfold execBar2Read
  repeat' first
    | with_reducible assumption
    | intro _
    | subst x
    | (extract_lets +onlyGivenNames x; have hx : Kept m z x := ?_; clear_value x)
    | (extract_lets +onlyGivenNames x; have hx : Kept2 m z x := ?_; clear_value x)
    | (extract_lets +onlyGivenNames x; have hx : KeptO m z x := ?_; clear_value x)
    | (extract_lets +onlyGivenNames x; clear_value x)
    | (extract_lets +onlyGivenNames w; revert w; intro w0)
    | with_reducible apply kept_ite
    | with_reducible apply State.bar2Err_kept
    | with_reducible apply State.bump_kept
    | with_reducible apply State.emit_kept
    | with_reducible apply State.readBucket_kept
    | with_reducible apply State.secLog_kept
    | with_reducible apply keptX_ok
    | with_reducible apply kept2_mk
    | with_reducible apply keptO_some
    | with_reducible apply keptO_none
    | with_reducible exact keptO2_get (by with_reducible assumption)
    | (with_reducible refine kept2_eq (by with_reducible assumption) ?_)
    | (with_reducible apply kept2_proj; first | with_reducible assumption | with_reducible apply kept2_foldl | with_reducible apply State.readBucket_kept)
    | (with_reducible refine keptO_eq (by with_reducible assumption) ?_)
    | with_reducible apply kept_foldl
    | split
    | dsimp -zeta only
    | (with_reducible refine kept_mk rfl ?_ rfl rfl rfl rfl ?_ ?_ ?_ ?_ ?_ ?_ ?_ ?_ ?_ ?_ ?_ ?_ ?_ ?_ ?_ ?_ ?_ ?_ ?_ <;> first | with_reducible exact Or.inr rfl | exact Or.inl (by assumption) | with_reducible assumption | with_reducible exact keptO2_get (by with_reducible assumption) | (with_reducible refine kept2_eq (by with_reducible assumption) ?_) | (with_reducible refine keptO_eq (by with_reducible assumption) ?_) | with_reducible apply State.bar2Err_kept | with_reducible apply State.bump_kept | with_reducible apply State.emit_kept | with_reducible apply State.readBucket_kept | with_reducible apply State.secLog_kept)

theorem execShadowCompareStart_kept {a0 a1 a2} (hregs : m.regs) (hout : m.out) (hhost : m.host) (htab : m.tab) (h :
    Kept m z s) : KeptX m z (execShadowCompareStart a0 a1 a2 s) := by
  unfold execShadowCompareStart
  repeat' first
    | with_reducible assumption
    | intro _
    | subst x
    | (extract_lets +onlyGivenNames x; have hx : Kept m z x := ?_; clear_value x)
    | (extract_lets +onlyGivenNames x; have hx : Kept2 m z x := ?_; clear_value x)
    | (extract_lets +onlyGivenNames x; have hx : KeptO m z x := ?_; clear_value x)
    | (extract_lets +onlyGivenNames x; clear_value x)
    | (extract_lets +onlyGivenNames w; revert w; intro w0)
    | with_reducible apply kept_ite
    | with_reducible apply State.hostWrite_kept
    | with_reducible apply State.lateErr_kept
    | with_reducible apply State.mergeReg_kept
    | with_reducible apply State.secLog_kept
    | with_reducible apply State.wr_kept
    | with_reducible apply keptX_ok
    | with_reducible apply kept2_mk
    | with_reducible apply keptO_some
    | with_reducible apply keptO_none
    | with_reducible exact keptO2_get (by with_reducible assumption)
    | (with_reducible refine kept2_eq (by with_reducible assumption) ?_)
    | (with_reducible apply kept2_proj; first | with_reducible assumption | with_reducible apply kept2_foldl)
    | (with_reducible refine keptO_eq (by with_reducible assumption) ?_)
    | with_reducible apply kept_foldl
    | split
    | dsimp -zeta only
    | (with_reducible refine kept_mk rfl ?_ rfl rfl rfl rfl ?_ ?_ ?_ ?_ ?_ ?_ ?_ ?_ ?_ ?_ ?_ ?_ ?_ ?_ ?_ ?_ ?_ ?_ ?_ <;> first | with_reducible exact Or.inr rfl | exact Or.inl (by assumption) | with_reducible assumption | with_reducible exact keptO2_get (by with_reducible assumption) | (with_reducible refine kept2_eq (by with_reducible assumption) ?_) | (with_reducible refine keptO_eq (by with_reducible assumption) ?_) | with_reducible apply State.hostWrite_kept | with_reducible apply State.lateErr_kept | with_reducible apply State.mergeReg_kept | with_reducible apply State.secLog_kept | with_reducible apply State.wr_kept)

theorem execShadowCompareDone_kept {a0} (hregs : m.regs) (hout : m.out) (htab : m.tab) (h : Kept m z s) : KeptX m z
    (execShadowCompareDone a0 s) := by
  unfold execShadowCompareDone
  repeat' first
    | with_reducible assumption
    | intro _
    | subst x
    | (extract_lets +onlyGivenNames x; have hx : Kept m z x := ?_; clear_value x)
    | (extract_lets +onlyGivenNames x; have hx : Kept2 m z x := ?_; clear_value x)
    | (extract_lets +onlyGivenNames x; have hx : KeptO m z x := ?_; clear_value x)
    | (extract_lets +onlyGivenNames x; clear_value x)
    | (extract_lets +onlyGivenNames w; revert w; intro w0)
    | with_reducible apply kept_ite
    | with_reducible apply State.emit_kept
    | with_reducible apply State.wr_kept
    | with_reducible apply keptX_ok
    | with_reducible apply kept2_mk
    | with_reducible apply keptO_some
    | with_reducible apply keptO_none
    | with_reducible exact keptO2_get (by with_reducible assumption)
    | (with_reducible refine kept2_eq (by with_reducible assumption) ?_)
    | (with_reducible apply kept2_proj; first | with_reducible assumption | with_reducible apply kept2_foldl)
    | (with_reducible refine keptO_eq (by with_reducible assumption) ?_)
    | with_reducible apply kept_foldl
    | split
    | dsimp -zeta only
    | (with_reducible refine kept_mk rfl ?_ rfl rfl rfl rfl ?_ ?_ ?_ ?_ ?_ ?_ ?_ ?_ ?_ ?_ ?_ ?_ ?_ ?_ ?_ ?_ ?_ ?_ ?_ <;> first | with_reducible exact Or.inr rfl | exact Or.inl (by assumption) | with_reducible assumption | with_reducible exact keptO2_get (by with_reducible assumption) | (with_reducible refine kept2_eq (by with_reducible assumption) ?_) | (with_reducible refine keptO_eq (by with_reducible assumption) ?_) | with_reducible apply State.emit_kept | with_reducible apply State.wr_kept)

end Sys2Proof.Machine
end

