-- ==== Sys2Proof/Laws/KeptBoundary.lean ====
section
/-!
SUPPORT. Laws/KeptBoundary.lean: what the operations of Machine/Boundary.lean keep (Laws/Kept.lean).
-/

namespace Sys2Proof.Machine

set_option linter.all false

variable {m : Mask} {z s : State}

theorem State.fireRecipe_kept {a1 a2} (hregs : m.regs) (hout : m.out) (hhost : m.host) (hrecipe : m.recipe) (hfab :
    m.fab) (h : Kept m z s) : Kept m z (State.fireRecipe s a1 a2) := by
  unfold State.fireRecipe
  repeat' first
    | with_reducible assumption
    | intro _
    | subst x
    | (extract_lets +onlyGivenNames x; have hx : Kept m z x := ?_; clear_value x)
    | (extract_lets +onlyGivenNames x; have hx : Kept2 m z x := ?_; clear_value x)
    | (extract_lets +onlyGivenNames x; have hx : KeptO m z x := ?_; clear_value x)
    | (extract_lets +onlyGivenNames x; clear_value x)
    | (extract_lets +onlyGivenNames w; revert w; intro w0)
    | with_reducible apply kept_ite
    | with_reducible apply State.actSync_kept
    | with_reducible apply State.complete_kept
    | with_reducible apply State.onlyIf_kept
    | with_reducible apply State.setSlot_kept
    | with_reducible apply State.unreserve_kept
    | with_reducible apply State.wr_kept
    | with_reducible apply State.wr64_kept
    | with_reducible apply kept2_mk
    | with_reducible apply keptO_some
    | with_reducible apply keptO_none
    | with_reducible exact keptO2_get (by with_reducible assumption)
    | (with_reducible refine kept2_eq (by with_reducible assumption) ?_)
    | (with_reducible apply kept2_proj; first | with_reducible assumption | with_reducible apply kept2_foldl)
    | (with_reducible refine keptO_eq (by with_reducible assumption) ?_)
    | with_reducible apply kept_foldl
    | split
    | dsimp -zeta only
    | (with_reducible refine kept_mk rfl ?_ rfl rfl rfl rfl ?_ ?_ ?_ ?_ ?_ ?_ ?_ ?_ ?_ ?_ ?_ ?_ ?_ ?_ ?_ ?_ ?_ ?_ ?_ <;> first | with_reducible exact Or.inr rfl | exact Or.inl (by assumption) | with_reducible assumption | with_reducible exact keptO2_get (by with_reducible assumption) | (with_reducible refine kept2_eq (by with_reducible assumption) ?_) | (with_reducible refine keptO_eq (by with_reducible assumption) ?_) | with_reducible apply State.actSync_kept | with_reducible apply State.complete_kept | with_reducible apply State.onlyIf_kept | with_reducible apply State.setSlot_kept | with_reducible apply State.unreserve_kept | with_reducible apply State.wr_kept | with_reducible apply State.wr64_kept)

theorem State.fireEvent_kept {a1 a2} (hregs : m.regs) (hout : m.out) (hsched : m.sched) (hhost : m.host) (hsvc : m.svc)
    (hflash : m.flash) (hrecipe : m.recipe) (htab : m.tab) (htxf : m.txf) (htxns : m.txns) (hcnt : m.cnt) (hbuf :
    m.buf) (hlif : m.lif) (hmem : m.mem) (hfab : m.fab) (h : Kept m z s) : Kept m z (State.fireEvent s a1 a2) := by
  unfold State.fireEvent
  repeat' first
    | with_reducible assumption
    | intro _
    | with_reducible apply State.diceStart_kept
    | with_reducible apply State.fireCommit_kept
    | with_reducible apply State.fireFirmware_kept
    | with_reducible apply State.fireHoldStart_kept
    | with_reducible apply State.fireHoldStop_kept
    | with_reducible apply State.firePmu_kept
    | with_reducible apply State.fireRecipe_kept
    | with_reducible apply State.fireTsi_kept
    | with_reducible apply State.openSnap_kept
    | with_reducible apply State.schedFree_kept
    | split

theorem State.fireAll_kept {a1} (hregs : m.regs) (hout : m.out) (hsched : m.sched) (hhost : m.host) (hsvc : m.svc)
    (hflash : m.flash) (hrecipe : m.recipe) (htab : m.tab) (htxf : m.txf) (htxns : m.txns) (hcnt : m.cnt) (hbuf :
    m.buf) (hlif : m.lif) (hmem : m.mem) (hfab : m.fab) (h : Kept m z s) : Kept m z (State.fireAll s a1) := by
  unfold State.fireAll
  repeat' first
    | with_reducible assumption
    | intro _
    | subst x
    | (extract_lets +onlyGivenNames x; have hx : Kept m z x := ?_; clear_value x)
    | (extract_lets +onlyGivenNames x; clear_value x)
    | (extract_lets +onlyGivenNames w; revert w; intro w0)
    | with_reducible apply kept_ite
    | with_reducible apply State.each_kept
    | with_reducible apply State.fireEvent_kept
    | split
    | dsimp -zeta only

theorem State.endDice_kept {a1} (hregs : m.regs) (hout : m.out) (hsched : m.sched) (hfd : m.fd) (hcnt : m.cnt) (hbrg :
    m.brg) (hlif : m.lif) (hfab : m.fab) (h : Kept m z s) : Kept m z (State.endDice s a1) := by
  unfold State.endDice
  repeat' first
    | with_reducible assumption
    | intro _
    | subst x
    | (extract_lets +onlyGivenNames x; have hx : Kept m z x := ?_; clear_value x)
    | (extract_lets +onlyGivenNames x; have hx : Kept2 m z x := ?_; clear_value x)
    | (extract_lets +onlyGivenNames x; clear_value x)
    | (extract_lets +onlyGivenNames w; revert w; intro w0)
    | with_reducible apply kept_ite
    | with_reducible apply State.diceEnd_kept
    | with_reducible apply State.each_kept
    | with_reducible apply State.emitCells_kept
    | with_reducible apply State.schedFree_kept
    | with_reducible apply State.sendHeld_kept
    | with_reducible apply State.unitsBack_kept
    | (with_reducible refine kept2_eq (by with_reducible assumption) ?_)
    | (with_reducible apply kept2_proj; first | with_reducible assumption | with_reducible apply kept2_foldl | with_reducible apply State.diceEnd_kept)
    | split
    | dsimp -zeta only

theorem State.countTurns_kept {a1} (hregs : m.regs) (hcnt : m.cnt) (h : Kept m z s) : Kept m z (State.countTurns s a1)
    := by
  unfold State.countTurns
  repeat' first
    | with_reducible assumption
    | intro _
    | with_reducible apply kept_ite
    | with_reducible apply State.countQueue_kept
    | with_reducible apply State.each_kept
    | split

theorem State.classify_kept (hbuf : m.buf) (h : Kept m z s) : Kept m z (State.classify s) := by
  unfold State.classify
  repeat' first
    | with_reducible assumption
    | intro _
    | subst x
    | (extract_lets +onlyGivenNames x; have hx : Kept m z x := ?_; clear_value x)
    | (extract_lets +onlyGivenNames x; clear_value x)
    | (extract_lets +onlyGivenNames w; revert w; intro w0)
    | with_reducible apply State.each_kept
    | with_reducible apply State.setQueue_kept
    | dsimp -zeta only

theorem State.queuesUp_kept {a1} (hregs : m.regs) (hout : m.out) (hhost : m.host) (hbuf : m.buf) (h : Kept m z s) :
    Kept m z (State.queuesUp s a1) := by
  unfold State.queuesUp
  repeat' first
    | with_reducible assumption
    | intro _
    | subst x
    | (extract_lets +onlyGivenNames x; have hx : Kept m z x := ?_; clear_value x)
    | (extract_lets +onlyGivenNames x; clear_value x)
    | (extract_lets +onlyGivenNames w; revert w; intro w0)
    | with_reducible apply State.each_kept
    | with_reducible apply State.fillBuckets_kept
    | with_reducible apply State.onlyIf_kept
    | with_reducible apply State.setQueue_kept
    | with_reducible apply State.setQueueLc_kept
    | dsimp -zeta only

theorem State.setsUp_kept (hregs : m.regs) (hout : m.out) (hhost : m.host) (h : Kept m z s) : Kept m z (State.setsUp s)
    := by
  unfold State.setsUp
  repeat' first
    | with_reducible assumption
    | intro _
    | with_reducible apply State.each_kept
    | with_reducible apply State.onlyIf_kept
    | with_reducible apply State.setLc_kept

theorem State.lanesBack_kept (hregs : m.regs) (hfd : m.fd) (h : Kept m z s) : Kept m z (State.lanesBack s) := by
  unfold State.lanesBack
  repeat' first
    | with_reducible assumption
    | intro _
    | subst x
    | (extract_lets +onlyGivenNames x; have hx : Kept m z x := ?_; clear_value x)
    | (extract_lets +onlyGivenNames x; have hx : Kept2 m z x := ?_; clear_value x)
    | (extract_lets +onlyGivenNames x; have hx : KeptO m z x := ?_; clear_value x)
    | (extract_lets +onlyGivenNames x; clear_value x)
    | (extract_lets +onlyGivenNames w; revert w; intro w0)
    | with_reducible apply kept_ite
    | with_reducible apply State.each_kept
    | with_reducible apply State.wr_kept
    | with_reducible apply kept2_mk
    | with_reducible apply keptO_some
    | with_reducible apply keptO_none
    | with_reducible exact keptO2_get (by with_reducible assumption)
    | (with_reducible refine kept2_eq (by with_reducible assumption) ?_)
    | (with_reducible apply kept2_proj; first | with_reducible assumption | with_reducible apply kept2_foldl)
    | (with_reducible refine keptO_eq (by with_reducible assumption) ?_)
    | with_reducible apply kept_foldl
    | split
    | dsimp -zeta only
    | (with_reducible refine kept_mk rfl ?_ rfl rfl rfl rfl ?_ ?_ ?_ ?_ ?_ ?_ ?_ ?_ ?_ ?_ ?_ ?_ ?_ ?_ ?_ ?_ ?_ ?_ ?_ <;> first | with_reducible exact Or.inr rfl | exact Or.inl (by assumption) | with_reducible assumption | with_reducible exact keptO2_get (by with_reducible assumption) | (with_reducible refine kept2_eq (by with_reducible assumption) ?_) | (with_reducible refine keptO_eq (by with_reducible assumption) ?_) | with_reducible apply State.each_kept | with_reducible apply State.wr_kept)

theorem State.clearChecks_kept (hregs : m.regs) (h : Kept m z s) : Kept m z (State.clearChecks s) := by
  unfold State.clearChecks
  repeat' first
    | with_reducible assumption
    | intro _
    | with_reducible apply State.each_kept
    | with_reducible apply State.wr_kept

theorem State.verifyAll_kept {a1 a2} (hregs : m.regs) (hout : m.out) (hsched : m.sched) (hhost : m.host) (htab : m.tab)
    (htxns : m.txns) (hcnt : m.cnt) (hmem : m.mem) (hfab : m.fab) (h : Kept m z s) : Kept m z (State.verifyAll s a1 a2)
    := by
  unfold State.verifyAll
  repeat' first
    | with_reducible assumption
    | intro _
    | with_reducible apply State.each_kept
    | with_reducible apply State.verifyCommit_kept
    | split

theorem State.boundary_kept {a1} (hregs : m.regs) (hout : m.out) (hturn : m.turn) (htime : m.time) (hsched : m.sched)
    (hhost : m.host) (hsvc : m.svc) (hflash : m.flash) (hrecipe : m.recipe) (htab : m.tab) (htxf : m.txf) (htxns :
    m.txns) (hfd : m.fd) (hcnt : m.cnt) (hbrg : m.brg) (hbuf : m.buf) (hlif : m.lif) (hmem : m.mem) (hfab : m.fab) (h :
    Kept m z s) : Kept m z (State.boundary s a1) := by
  unfold State.boundary
  repeat' first
    | with_reducible assumption
    | intro _
    | subst x
    | (extract_lets +onlyGivenNames x; have hx : Kept m z x := ?_; clear_value x)
    | (extract_lets +onlyGivenNames x; have hx : Kept2 m z x := ?_; clear_value x)
    | (extract_lets +onlyGivenNames x; have hx : KeptO m z x := ?_; clear_value x)
    | (extract_lets +onlyGivenNames w; revert w; intro w0)
    | with_reducible apply kept_ite
    | with_reducible apply State.auditBoundary_kept
    | with_reducible apply State.classify_kept
    | with_reducible apply State.clearChecks_kept
    | with_reducible apply State.countTurns_kept
    | with_reducible apply State.each_kept
    | with_reducible apply State.endDice_kept
    | with_reducible apply State.fireAll_kept
    | with_reducible apply State.holdBoundary_kept
    | with_reducible apply State.lanesBack_kept
    | with_reducible apply State.markTurn_kept
    | with_reducible apply State.onlyIf_kept
    | with_reducible apply State.portUp_kept
    | with_reducible apply State.publishBuckets_kept
    | with_reducible apply State.publishLearns_kept
    | with_reducible apply State.queuesUp_kept
    | with_reducible apply State.setsUp_kept
    | with_reducible apply State.verifyAll_kept
    | with_reducible apply kept2_mk
    | with_reducible apply keptO_some
    | with_reducible apply keptO_none
    | with_reducible exact keptO2_get (by with_reducible assumption)
    | (with_reducible refine kept2_eq (by with_reducible assumption) ?_)
    | (with_reducible apply kept2_proj; first | with_reducible assumption | with_reducible apply kept2_foldl)
    | (with_reducible refine keptO_eq (by with_reducible assumption) ?_)
    | with_reducible apply kept_foldl
    | split
    | dsimp -zeta only
    | (with_reducible refine kept_mk rfl ?_ rfl rfl rfl rfl ?_ ?_ ?_ ?_ ?_ ?_ ?_ ?_ ?_ ?_ ?_ ?_ ?_ ?_ ?_ ?_ ?_ ?_ ?_ <;> first | with_reducible exact Or.inr rfl | exact Or.inl (by assumption) | with_reducible assumption | with_reducible exact keptO2_get (by with_reducible assumption) | (with_reducible refine kept2_eq (by with_reducible assumption) ?_) | (with_reducible refine keptO_eq (by with_reducible assumption) ?_) | with_reducible apply State.auditBoundary_kept | with_reducible apply State.classify_kept | with_reducible apply State.clearChecks_kept | with_reducible apply State.countTurns_kept | with_reducible apply State.each_kept | with_reducible apply State.endDice_kept | with_reducible apply State.fireAll_kept | with_reducible apply State.holdBoundary_kept | with_reducible apply State.lanesBack_kept | with_reducible apply State.markTurn_kept | with_reducible apply State.onlyIf_kept | with_reducible apply State.portUp_kept | with_reducible apply State.publishBuckets_kept | with_reducible apply State.publishLearns_kept | with_reducible apply State.queuesUp_kept | with_reducible apply State.setsUp_kept | with_reducible apply State.verifyAll_kept)

theorem execTurnBoundary_kept {a0} (hregs : m.regs) (hout : m.out) (hturn : m.turn) (htime : m.time) (hsched : m.sched)
    (hhost : m.host) (hsvc : m.svc) (hflash : m.flash) (hrecipe : m.recipe) (htab : m.tab) (htxf : m.txf) (htxns :
    m.txns) (hfd : m.fd) (hcnt : m.cnt) (hbrg : m.brg) (hbuf : m.buf) (hlif : m.lif) (hmem : m.mem) (hfab : m.fab) (h :
    Kept m z s) : KeptX m z (execTurnBoundary a0 s) := by
  unfold execTurnBoundary
  repeat' first
    | with_reducible assumption
    | intro _
    | subst x
    | (extract_lets +onlyGivenNames x; have hx : Kept m z x := ?_; clear_value x)
    | (extract_lets +onlyGivenNames x; clear_value x)
    | (extract_lets +onlyGivenNames w; revert w; intro w0)
    | with_reducible apply kept_ite
    | with_reducible apply State.boundary_kept
    | with_reducible apply State.cycles_kept
    | with_reducible apply State.pass_kept
    | with_reducible apply keptX_ok
    | split
    | dsimp -zeta only

theorem State.tick_kept (hregs : m.regs) (hout : m.out) (hturn : m.turn) (htime : m.time) (hsched : m.sched) (hhost :
    m.host) (hsvc : m.svc) (hflash : m.flash) (hrecipe : m.recipe) (htab : m.tab) (htxf : m.txf) (htxns : m.txns) (hfd
    : m.fd) (hcnt : m.cnt) (hbrg : m.brg) (hbuf : m.buf) (hlif : m.lif) (hmem : m.mem) (hfab : m.fab) (h : Kept m z s)
    : Kept m z (State.tick s) := by
  unfold State.tick
  repeat' first
    | with_reducible assumption
    | intro _
    | with_reducible apply kept_ite
    | with_reducible apply State.boundary_kept
    | with_reducible apply State.cycles_kept
    | with_reducible apply State.pass_kept
    | split

end Sys2Proof.Machine
end

