-- ==== Sys2Proof/Laws/KeptParser.lean ====
section
/-!
SUPPORT. Laws/KeptParser.lean: what the operations of Machine/Parser.lean keep (Laws/Kept.lean).
-/

namespace Sys2Proof.Machine

set_option linter.all false

variable {m : Mask} {z s : State}

theorem execParseAccept_kept {a0} (hregs : m.regs) (hfd : m.fd) (hcnt : m.cnt) (h : Kept m z s) : KeptX m z
    (execParseAccept a0 s) := by
  unfold execParseAccept
  repeat' first
    | with_reducible assumption
    | intro _
    | subst x
    | (extract_lets +onlyGivenNames x; have hx : Kept m z x := ?_; clear_value x)
    | (extract_lets +onlyGivenNames x; clear_value x)
    | (extract_lets +onlyGivenNames w; revert w; intro w0)
    | with_reducible apply kept_ite
    | with_reducible apply State.countAs_kept
    | with_reducible apply State.setPkt_kept
    | with_reducible apply State.withPkt_kept
    | with_reducible apply keptX_ok
    | split
    | dsimp -zeta only

theorem State.capture_kept {a1 a2} (hregs : m.regs) (h : Kept m z s) : Kept m z (State.capture s a1 a2) := by
  unfold State.capture
  repeat' first
    | with_reducible assumption
    | intro _
    | subst x
    | (extract_lets +onlyGivenNames x; have hx : Kept m z x := ?_; clear_value x)
    | (extract_lets +onlyGivenNames x; clear_value x)
    | (extract_lets +onlyGivenNames w; revert w; intro w0)
    | with_reducible apply kept_ite
    | with_reducible apply State.each_kept
    | with_reducible apply State.wr_kept
    | with_reducible apply State.wr64_kept
    | split
    | dsimp -zeta only

theorem State.handOff_kept {a1 a2 a3 a4 a5 a6} (hregs : m.regs) (hfd : m.fd) (h : Kept m z s) : Kept m z (State.handOff
    s a1 a2 a3 a4 a5 a6) := by
  unfold State.handOff
  repeat' first
    | with_reducible assumption
    | intro _
    | subst x
    | (extract_lets +onlyGivenNames x; have hx : Kept m z x := ?_; clear_value x)
    | (extract_lets +onlyGivenNames x; have hx : KeptO m z x := ?_; clear_value x)
    | (extract_lets +onlyGivenNames x; clear_value x)
    | (extract_lets +onlyGivenNames w; revert w; intro w0)
    | with_reducible apply kept_ite
    | with_reducible apply State.bump_kept
    | with_reducible apply State.setPkt_kept
    | split
    | dsimp -zeta only

theorem execParseComplete_kept {a0} (hregs : m.regs) (hout : m.out) (hfd : m.fd) (hcnt : m.cnt) (hbrg : m.brg) (hlif :
    m.lif) (h : Kept m z s) : KeptX m z (execParseComplete a0 s) := by
  unfold execParseComplete
  repeat' first
    | with_reducible assumption
    | intro _
    | subst x
    | (extract_lets +onlyGivenNames x; have hx : Kept m z x := ?_; clear_value x)
    | (extract_lets +onlyGivenNames x; clear_value x)
    | (extract_lets +onlyGivenNames w; revert w; intro w0)
    | with_reducible apply kept_ite
    | with_reducible apply State.bump_kept
    | with_reducible apply State.capture_kept
    | with_reducible apply State.dropMirror_kept
    | with_reducible apply State.dropPkt_kept
    | with_reducible apply State.handOff_kept
    | with_reducible apply State.onlyIf_kept
    | with_reducible apply State.pmuFd_kept
    | with_reducible apply State.setPkt_kept
    | with_reducible apply State.withPkt_kept
    | with_reducible apply keptX_ok
    | split
    | dsimp -zeta only

theorem execCaptureArm_kept {a0 a1 a2 a3} (hregs : m.regs) (hout : m.out) (hhost : m.host) (h : Kept m z s) : KeptX m z
    (execCaptureArm a0 a1 a2 a3 s) := by
  unfold execCaptureArm
  repeat' first
    | with_reducible assumption
    | intro _
    | with_reducible apply kept_ite
    | with_reducible apply State.hostWrite_kept
    | with_reducible apply State.mergeReg_kept
    | with_reducible apply keptX_ok
    | split

theorem execPortStartWrite_kept {a0 a1 a2 a3} (hregs : m.regs) (hout : m.out) (hhost : m.host) (hfd : m.fd) (h : Kept m
    z s) : KeptX m z (execPortStartWrite a0 a1 a2 a3 s) := by
  unfold execPortStartWrite
  repeat' first
    | with_reducible assumption
    | intro _
    | subst x
    | (extract_lets +onlyGivenNames x; have hx : Kept m z x := ?_; clear_value x)
    | (extract_lets +onlyGivenNames x; have hx : Kept2 m z x := ?_; clear_value x)
    | (extract_lets +onlyGivenNames x; have hx : KeptO m z x := ?_; clear_value x)
    | (extract_lets +onlyGivenNames x; clear_value x)
    | (extract_lets +onlyGivenNames w; revert w; intro w0)
    | with_reducible apply kept_ite
    | with_reducible apply State.hostWrite_kept
    | with_reducible apply State.mergeReg_kept
    | with_reducible apply keptX_ok
    | with_reducible apply kept2_mk
    | with_reducible apply keptO_some
    | with_reducible apply keptO_none
    | with_reducible exact keptO2_get (by with_reducible assumption)
    | (with_reducible refine kept2_eq (by with_reducible assumption) ?_)
    | (with_reducible apply kept2_proj; first | with_reducible assumption | with_reducible apply kept2_foldl)
    | (with_reducible refine keptO_eq (by with_reducible assumption) ?_)
    | with_reducible apply kept_foldl
    | split
    | dsimp -zeta only
    | (with_reducible refine kept_mk rfl ?_ rfl rfl rfl rfl ?_ ?_ ?_ ?_ ?_ ?_ ?_ ?_ ?_ ?_ ?_ ?_ ?_ ?_ ?_ ?_ ?_ ?_ ?_ <;> first | with_reducible exact Or.inr rfl | exact Or.inl (by assumption) | with_reducible assumption | with_reducible exact keptO2_get (by with_reducible assumption) | (with_reducible refine kept2_eq (by with_reducible assumption) ?_) | (with_reducible refine keptO_eq (by with_reducible assumption) ?_) | with_reducible apply State.hostWrite_kept | with_reducible apply State.mergeReg_kept)

theorem State.endScan_kept {a1 a2 a3 a4} (hfd : m.fd) (h : Kept m z s) : Kept m z (State.endScan s a1 a2 a3 a4) := by
  unfold State.endScan
  repeat' first
    | with_reducible assumption
    | intro _
    | with_reducible apply State.setPkt_kept

theorem execScanShift_kept {a0 a1 a2} (hregs : m.regs) (hout : m.out) (hhost : m.host) (hfd : m.fd) (hcnt : m.cnt)
    (hmem : m.mem) (h : Kept m z s) : KeptX m z (execScanShift a0 a1 a2 s) := by
  unfold execScanShift
  repeat' first
    | with_reducible assumption
    | intro _
    | subst x
    | (extract_lets +onlyGivenNames x; have hx : Kept m z x := ?_; clear_value x)
    | (extract_lets +onlyGivenNames x; have hx : Kept2 m z x := ?_; clear_value x)
    | (extract_lets +onlyGivenNames x; have hx : KeptO m z x := ?_; clear_value x)
    | (extract_lets +onlyGivenNames x; clear_value x)
    | (extract_lets +onlyGivenNames w; revert w; intro w0)
    | with_reducible apply kept_ite
    | with_reducible apply State.badPtr_kept
    | with_reducible apply State.bump_kept
    | with_reducible apply State.endScan_kept
    | with_reducible apply State.onlyIf_kept
    | with_reducible apply State.pmuFd_kept
    | with_reducible apply State.setPkt_kept
    | with_reducible apply State.uncorrectable_kept
    | with_reducible apply State.withPkt_kept
    | with_reducible apply keptX_ok
    | with_reducible apply kept2_mk
    | (with_reducible refine kept2_eq (by with_reducible assumption) ?_)
    | (with_reducible apply kept2_proj; first | with_reducible assumption | with_reducible apply kept2_foldl)
    | split
    | dsimp -zeta only

theorem execScanStallResume_kept {a0 a1 a2} (hfd : m.fd) (h : Kept m z s) : KeptX m z (execScanStallResume a0 a1 a2 s)
    := by
  unfold execScanStallResume
  repeat' first
    | with_reducible assumption
    | intro _
    | subst x
    | (extract_lets +onlyGivenNames x; have hx : Kept m z x := ?_; clear_value x)
    | (extract_lets +onlyGivenNames x; have hx : KeptO m z x := ?_; clear_value x)
    | (extract_lets +onlyGivenNames x; clear_value x)
    | (extract_lets +onlyGivenNames w; revert w; intro w0)
    | with_reducible apply State.setPkt_kept
    | with_reducible apply State.withPkt_kept
    | with_reducible apply keptX_ok
    | split
    | dsimp -zeta only

theorem execScanTimeout_kept {a0} (hregs : m.regs) (hout : m.out) (hfd : m.fd) (hcnt : m.cnt) (hbrg : m.brg) (hlif :
    m.lif) (h : Kept m z s) : KeptX m z (execScanTimeout a0 s) := by
  unfold execScanTimeout
  repeat' first
    | with_reducible assumption
    | intro _
    | subst x
    | (extract_lets +onlyGivenNames x; have hx : Kept m z x := ?_; clear_value x)
    | (extract_lets +onlyGivenNames x; clear_value x)
    | (extract_lets +onlyGivenNames w; revert w; intro w0)
    | with_reducible apply kept_ite
    | with_reducible apply State.bump_kept
    | with_reducible apply State.dropMirror_kept
    | with_reducible apply State.dropPkt_kept
    | with_reducible apply State.endScan_kept
    | with_reducible apply State.withPkt_kept
    | with_reducible apply keptX_ok
    | split
    | dsimp -zeta only

theorem execScannerRelease_kept {a0} (hfd : m.fd) (h : Kept m z s) : KeptX m z (execScannerRelease a0 s) := by
  unfold execScannerRelease
  repeat' first
    | with_reducible assumption
    | intro _
    | with_reducible apply kept_ite
    | with_reducible apply State.setPkt_kept
    | with_reducible apply State.withPkt_kept
    | with_reducible apply keptX_ok
    | split

theorem State.pushSet_kept {a1 a2} (hfd : m.fd) (h : Kept m z s) : Kept m z (State.pushSet s a1 a2) := by
  unfold State.pushSet
  repeat' first
    | with_reducible assumption
    | intro _
    | subst x
    | (extract_lets +onlyGivenNames x; have hx : Kept m z x := ?_; clear_value x)
    | (extract_lets +onlyGivenNames x; have hx : Kept2 m z x := ?_; clear_value x)
    | (extract_lets +onlyGivenNames x; have hx : KeptO m z x := ?_; clear_value x)
    | (extract_lets +onlyGivenNames x; clear_value x)
    | (extract_lets +onlyGivenNames w; revert w; intro w0)
    | with_reducible apply kept_ite
    | with_reducible apply kept2_mk
    | with_reducible apply keptO_some
    | with_reducible apply keptO_none
    | with_reducible exact keptO2_get (by with_reducible assumption)
    | (with_reducible refine kept2_eq (by with_reducible assumption) ?_)
    | (with_reducible apply kept2_proj; first | with_reducible assumption | with_reducible apply kept2_foldl)
    | (with_reducible refine keptO_eq (by with_reducible assumption) ?_)
    | with_reducible apply kept_foldl
    | split
    | dsimp -zeta only
    | (with_reducible refine kept_mk rfl ?_ rfl rfl rfl rfl ?_ ?_ ?_ ?_ ?_ ?_ ?_ ?_ ?_ ?_ ?_ ?_ ?_ ?_ ?_ ?_ ?_ ?_ ?_ <;> first | with_reducible exact Or.inr rfl | exact Or.inl (by assumption) | with_reducible assumption | with_reducible exact keptO2_get (by with_reducible assumption) | (with_reducible refine kept2_eq (by with_reducible assumption) ?_) | (with_reducible refine keptO_eq (by with_reducible assumption) ?_))

theorem State.setLcWrite_kept {a1 a2 a3 a4} (hregs : m.regs) (hout : m.out) (hhost : m.host) (hfd : m.fd) (h : Kept m z
    s) : Kept m z (State.setLcWrite s a1 a2 a3 a4) := by
  unfold State.setLcWrite
  repeat' first
    | with_reducible assumption
    | intro _
    | subst x
    | (extract_lets +onlyGivenNames x; have hx : Kept m z x := ?_; clear_value x)
    | (extract_lets +onlyGivenNames x; clear_value x)
    | (extract_lets +onlyGivenNames w; revert w; intro w0)
    | with_reducible apply kept_ite
    | with_reducible apply State.hostWrite_kept
    | with_reducible apply State.lcWrite_kept
    | with_reducible apply State.pushSet_kept
    | split
    | dsimp -zeta only

theorem execSetEnable_kept {a0 a1 a2} (hregs : m.regs) (hout : m.out) (hhost : m.host) (hfd : m.fd) (h : Kept m z s) :
    KeptX m z (execSetEnable a0 a1 a2 s) := by
  unfold execSetEnable
  repeat' first
    | with_reducible assumption
    | intro _
    | with_reducible apply State.setLcWrite_kept
    | with_reducible apply keptX_ok

theorem execSetDisable_kept {a0 a1 a2} (hregs : m.regs) (hout : m.out) (hhost : m.host) (hfd : m.fd) (h : Kept m z s) :
    KeptX m z (execSetDisable a0 a1 a2 s) := by
  unfold execSetDisable
  repeat' first
    | with_reducible assumption
    | intro _
    | with_reducible apply State.setLcWrite_kept
    | with_reducible apply keptX_ok

theorem execSetDrainDone_kept {a0} (hregs : m.regs) (hout : m.out) (hhost : m.host) (hfd : m.fd) (h : Kept m z s) :
    KeptX m z (execSetDrainDone a0 s) := by
  unfold execSetDrainDone
  repeat' first
    | with_reducible assumption
    | intro _
    | subst x
    | (extract_lets +onlyGivenNames x; have hx : Kept m z x := ?_; clear_value x)
    | (extract_lets +onlyGivenNames x; clear_value x)
    | (extract_lets +onlyGivenNames w; revert w; intro w0)
    | with_reducible apply kept_ite
    | with_reducible apply State.lcEndDrain_kept
    | with_reducible apply State.pushSet_kept
    | with_reducible apply keptX_ok
    | split
    | dsimp -zeta only

end Sys2Proof.Machine
end

