-- ==== Sys2Proof/Laws/KeptRemote.lean ====
section
/-!
SUPPORT. Laws/KeptRemote.lean: what the operations of Machine/Remote.lean keep (Laws/Kept.lean).
-/

namespace Sys2Proof.Machine

set_option linter.all false

variable {m : Mask} {z s : State}

theorem State.issueRemote_kept {a1 a2 a3 a4 a5 a6 a7} (hregs : m.regs) (hhost : m.host) (hfab : m.fab) (h : Kept m z s)
    : Kept m z (State.issueRemote s a1 a2 a3 a4 a5 a6 a7) := by
  unfold State.issueRemote
  repeat' first
    | with_reducible assumption
    | intro _
    | subst x
    | (extract_lets +onlyGivenNames x; have hx : Kept m z x := ?_; clear_value x)
    | (extract_lets +onlyGivenNames x; have hx : Kept2 m z x := ?_; clear_value x)
    | (extract_lets +onlyGivenNames x; have hx : KeptO m z x := ?_; clear_value x)
    | (extract_lets +onlyGivenNames x; clear_value x)
    | (extract_lets +onlyGivenNames w; revert w; intro w0)
    | with_reducible apply kept_ite
    | with_reducible apply State.complete_kept
    | with_reducible apply State.sendCtl_kept
    | with_reducible apply kept2_mk
    | with_reducible apply keptO_some
    | with_reducible apply keptO_none
    | with_reducible exact keptO2_get (by with_reducible assumption)
    | (with_reducible refine kept2_eq (by with_reducible assumption) ?_)
    | (with_reducible apply kept2_proj; first | with_reducible assumption | with_reducible apply kept2_foldl)
    | (with_reducible refine keptO_eq (by with_reducible assumption) ?_)
    | with_reducible apply kept_foldl
    | split
    | dsimp -zeta only
    | (with_reducible refine kept_mk rfl ?_ rfl rfl rfl rfl ?_ ?_ ?_ ?_ ?_ ?_ ?_ ?_ ?_ ?_ ?_ ?_ ?_ ?_ ?_ ?_ ?_ ?_ ?_ <;> first | with_reducible exact Or.inr rfl | exact Or.inl (by assumption) | with_reducible assumption | with_reducible exact keptO2_get (by with_reducible assumption) | (with_reducible refine kept2_eq (by with_reducible assumption) ?_) | (with_reducible refine keptO_eq (by with_reducible assumption) ?_) | with_reducible apply State.complete_kept | with_reducible apply State.sendCtl_kept)

theorem execRemoteRd_kept {a0 a1 a2 a3 a4} (hregs : m.regs) (hhost : m.host) (hfab : m.fab) (h : Kept m z s) : KeptX m
    z (execRemoteRd a0 a1 a2 a3 a4 s) := by
  unfold execRemoteRd
  repeat' first
    | with_reducible assumption
    | intro _
    | with_reducible apply kept_ite
    | with_reducible apply State.command_kept
    | with_reducible apply State.complete_kept
    | with_reducible apply State.issueRemote_kept
    | with_reducible apply keptX_ok
    | with_reducible apply kept2_mk
    | (with_reducible apply kept2_proj; first | with_reducible assumption | with_reducible apply kept2_foldl)
    | split
    | dsimp -zeta only

theorem execRemoteWr_kept {a0 a1 a2 a3 a4 a5} (hregs : m.regs) (hhost : m.host) (hfab : m.fab) (h : Kept m z s) : KeptX
    m z (execRemoteWr a0 a1 a2 a3 a4 a5 s) := by
  unfold execRemoteWr
  repeat' first
    | with_reducible assumption
    | intro _
    | with_reducible apply kept_ite
    | with_reducible apply State.command_kept
    | with_reducible apply State.complete_kept
    | with_reducible apply State.issueRemote_kept
    | with_reducible apply keptX_ok
    | with_reducible apply kept2_mk
    | (with_reducible apply kept2_proj; first | with_reducible assumption | with_reducible apply kept2_foldl)
    | split
    | dsimp -zeta only

theorem execRemoteWrCommand_kept {a0 a1 a2 a3 a4} (hregs : m.regs) (hhost : m.host) (hfab : m.fab) (h : Kept m z s) :
    KeptX m z (execRemoteWrCommand a0 a1 a2 a3 a4 s) := by
  unfold execRemoteWrCommand
  repeat' first
    | with_reducible assumption
    | intro _
    | with_reducible apply kept_ite
    | with_reducible apply State.command_kept
    | with_reducible apply State.complete_kept
    | with_reducible apply State.issueRemote_kept
    | with_reducible apply keptX_ok
    | with_reducible apply kept2_mk
    | (with_reducible apply kept2_proj; first | with_reducible assumption | with_reducible apply kept2_foldl)
    | split
    | dsimp -zeta only

theorem execRemoteRspReceive_kept (hregs : m.regs) (hout : m.out) (hhost : m.host) (hfab : m.fab) (h : Kept m z s) :
    KeptX m z (execRemoteRspReceive s) := by
  unfold execRemoteRspReceive
  repeat' first
    | with_reducible assumption
    | intro _
    | subst x
    | (extract_lets +onlyGivenNames x; have hx : Kept m z x := ?_; clear_value x)
    | (extract_lets +onlyGivenNames x; have hx : Kept2 m z x := ?_; clear_value x)
    | (extract_lets +onlyGivenNames x; have hx : KeptO2 m z x := ?_; clear_value x)
    | (extract_lets +onlyGivenNames x; clear_value x)
    | (extract_lets +onlyGivenNames w; revert w; intro w0)
    | with_reducible apply kept_ite
    | with_reducible apply State.bump_kept
    | with_reducible apply State.complete_kept
    | with_reducible apply State.completeWith_kept
    | with_reducible apply State.putResult_kept
    | with_reducible apply State.takeMsg_kept
    | with_reducible apply keptX_ok
    | with_reducible apply keptO2_some
    | with_reducible apply keptO2_none
    | with_reducible exact keptO2_get (by with_reducible assumption)
    | (with_reducible refine kept2_eq (by with_reducible assumption) ?_)
    | (with_reducible apply kept2_proj; first | with_reducible assumption | with_reducible apply kept2_foldl)
    | (with_reducible refine keptO2_eq (by with_reducible assumption) ?_)
    | (with_reducible refine keptO2_eqp (by with_reducible assumption) ?_)
    | split
    | dsimp -zeta only
    | (with_reducible refine kept_mk rfl ?_ rfl rfl rfl rfl ?_ ?_ ?_ ?_ ?_ ?_ ?_ ?_ ?_ ?_ ?_ ?_ ?_ ?_ ?_ ?_ ?_ ?_ ?_ <;> first | with_reducible exact Or.inr rfl | exact Or.inl (by assumption) | with_reducible assumption | with_reducible exact keptO2_get (by with_reducible assumption) | (with_reducible refine kept2_eq (by with_reducible assumption) ?_) | (with_reducible refine keptO_eq (by with_reducible assumption) ?_) | (with_reducible refine keptO2_eq (by with_reducible assumption) ?_) | (with_reducible refine keptO2_eqp (by with_reducible assumption) ?_) | with_reducible apply State.bump_kept | with_reducible apply State.complete_kept | with_reducible apply State.completeWith_kept | with_reducible apply State.putResult_kept | with_reducible apply State.takeMsg_kept)

theorem execRemoteTimeout_kept {a0} (hregs : m.regs) (hhost : m.host) (hfab : m.fab) (h : Kept m z s) : KeptX m z
    (execRemoteTimeout a0 s) := by
  unfold execRemoteTimeout
  repeat' first
    | with_reducible assumption
    | intro _
    | subst x
    | (extract_lets +onlyGivenNames x; have hx : Kept m z x := ?_; clear_value x)
    | (extract_lets +onlyGivenNames x; have hx : Kept2 m z x := ?_; clear_value x)
    | (extract_lets +onlyGivenNames x; have hx : KeptO m z x := ?_; clear_value x)
    | (extract_lets +onlyGivenNames x; clear_value x)
    | (extract_lets +onlyGivenNames w; revert w; intro w0)
    | with_reducible apply kept_ite
    | with_reducible apply State.complete_kept
    | with_reducible apply keptX_ok
    | with_reducible apply kept2_mk
    | with_reducible apply keptO_some
    | with_reducible apply keptO_none
    | with_reducible exact keptO2_get (by with_reducible assumption)
    | (with_reducible refine kept2_eq (by with_reducible assumption) ?_)
    | (with_reducible apply kept2_proj; first | with_reducible assumption | with_reducible apply kept2_foldl)
    | (with_reducible refine keptO_eq (by with_reducible assumption) ?_)
    | with_reducible apply kept_foldl
    | split
    | dsimp -zeta only
    | (with_reducible refine kept_mk rfl ?_ rfl rfl rfl rfl ?_ ?_ ?_ ?_ ?_ ?_ ?_ ?_ ?_ ?_ ?_ ?_ ?_ ?_ ?_ ?_ ?_ ?_ ?_ <;> first | with_reducible exact Or.inr rfl | exact Or.inl (by assumption) | with_reducible assumption | with_reducible exact keptO2_get (by with_reducible assumption) | (with_reducible refine kept2_eq (by with_reducible assumption) ?_) | (with_reducible refine keptO_eq (by with_reducible assumption) ?_) | with_reducible apply State.complete_kept)

theorem execLateErrReceive_kept (hregs : m.regs) (hout : m.out) (hhost : m.host) (hfab : m.fab) (h : Kept m z s) :
    KeptX m z (execLateErrReceive s) := by
  unfold execLateErrReceive
  repeat' first
    | with_reducible assumption
    | intro _
    | with_reducible apply State.lateErrAs_kept
    | with_reducible apply State.takeMsg_kept
    | with_reducible apply keptX_ok
    | with_reducible apply keptO2_some
    | with_reducible apply keptO2_none
    | with_reducible exact keptO2_get (by with_reducible assumption)
    | (with_reducible refine kept2_eq (by with_reducible assumption) ?_)
    | (with_reducible apply kept2_proj; first | with_reducible assumption | with_reducible apply kept2_foldl)
    | (with_reducible refine keptO2_eq (by with_reducible assumption) ?_)
    | (with_reducible refine keptO2_eqp (by with_reducible assumption) ?_)
    | split

theorem State.respond_kept {a1 a2 a3 a4 a5} (hfab : m.fab) (h : Kept m z s) : Kept m z (State.respond s a1 a2 a3 a4 a5)
    := by
  unfold State.respond
  repeat' first
    | with_reducible assumption
    | intro _
    | with_reducible apply State.sendCtl_kept

theorem State.readFor_kept {a1 a2} (hregs : m.regs) (hlif : m.lif) (h : Kept m z s) : Kept2 m z (State.readFor s a1 a2)
    := by
  unfold State.readFor
  repeat' first
    | with_reducible assumption
    | intro _
    | subst x
    | (extract_lets +onlyGivenNames x; have hx : Kept m z x := ?_; clear_value x)
    | (extract_lets +onlyGivenNames x; have hx : Kept2 m z x := ?_; clear_value x)
    | (extract_lets +onlyGivenNames x; have hx : KeptO m z x := ?_; clear_value x)
    | (extract_lets +onlyGivenNames x; clear_value x)
    | (extract_lets +onlyGivenNames w; revert w; intro w0)
    | with_reducible apply kept_ite
    | with_reducible apply State.readIn_kept
    | with_reducible apply State.readOut_kept
    | with_reducible apply kept2_mk
    | with_reducible apply kept2_mk
    | (with_reducible refine kept2_eq (by with_reducible assumption) ?_)
    | (with_reducible apply kept2_proj; first | with_reducible assumption | with_reducible apply kept2_foldl)
    | split
    | dsimp -zeta only

theorem State.readAll_kept {a0 a1 a2} (hregs : m.regs) (hlif : m.lif) (h : Kept m z s) : Kept3 m z (State.readAll a0 a1
    a2 s) := by
  induction a2 generalizing a0 a1 s
  all_goals
    unfold State.readAll
    repeat' first
      | with_reducible assumption
      | intro _
      | subst x
      | (extract_lets +onlyGivenNames x; have hx : Kept m z x := ?_; clear_value x)
      | (extract_lets +onlyGivenNames x; have hx : Kept2 m z x := ?_; clear_value x)
      | (extract_lets +onlyGivenNames x; have hx : Kept3 m z x := ?_; clear_value x)
      | (extract_lets +onlyGivenNames x; clear_value x)
      | (extract_lets +onlyGivenNames w; revert w; intro w0)
      | with_reducible apply_assumption
      | with_reducible apply State.readFor_kept
      | with_reducible apply kept2_mk
      | with_reducible apply kept3_mk
      | (with_reducible refine kept2_eq (by with_reducible assumption) ?_)
      | (with_reducible apply kept2_proj; first | with_reducible assumption | with_reducible apply kept2_foldl | with_reducible apply State.readFor_kept)
      | (with_reducible refine kept3_eq (by with_reducible assumption) ?_)
      | (with_reducible apply kept3_proj; first | with_reducible assumption)
      | split
      | dsimp -zeta only

/-- Outputs taken back to those of an earlier state. -/
theorem kept_outHost {t : State} {x : HostSt} (hout : m.out) (hhost : m.host) (h : Kept m z s) (ht : Kept m z t) :
    Kept m z { t with out := s.out, host := x } :=
  ⟨ht.pending, h.adds, ht.canon, ht.elapsed, ht.freeCtr, ht.regs, .inl hout, ht.turn, ht.time, ht.clk, ht.sched, .inl hhost, ht.svc, ht.fw,
    ht.flash, ht.recipe, ht.tab, ht.txf, ht.txns, ht.fd, ht.cnt, ht.brg, ht.buf, ht.lif, ht.mem, ht.fab⟩

theorem State.writeFor_kept {a1 a2 a3} (hregs : m.regs) (hout : m.out) (hclk : m.clk) (hhost : m.host) (h : Kept m z s)
    : Kept2 m z (State.writeFor s a1 a2 a3) := by
  unfold State.writeFor
  extract_lets i t
  have ht : Kept m z t := State.checkedWrite_kept (by assumption) (by assumption) (by assumption) h fun u hu =>
    State.plainWrite_kept (by assumption) (by assumption) (by assumption) (by assumption) hu
  clear_value t
  split
  · exact kept2_mk ht
  · exact kept2_mk (kept_outHost hout hhost h (State.each_kept ht fun a u hu => State.wrWord_kept hregs hu))

theorem State.writeAll_kept {a0 a1 a2 a3 a4} (hregs : m.regs) (hout : m.out) (hclk : m.clk) (hhost : m.host) (hfab :
    m.fab) (h : Kept m z s) : Kept m z (State.writeAll a0 a1 a2 a3 a4 s) := by
  induction a4 generalizing a0 a1 a2 a3 s
  all_goals
    unfold State.writeAll
    repeat' first
      | with_reducible assumption
      | intro _
      | subst x
      | (extract_lets +onlyGivenNames x; have hx : Kept m z x := ?_; clear_value x)
      | (extract_lets +onlyGivenNames x; have hx : Kept2 m z x := ?_; clear_value x)
      | (extract_lets +onlyGivenNames x; clear_value x)
      | (extract_lets +onlyGivenNames w; revert w; intro w0)
      | with_reducible apply_assumption
      | with_reducible apply State.sendCtl_kept
      | with_reducible apply State.writeFor_kept
      | (with_reducible refine kept2_eq (by with_reducible assumption) ?_)
      | (with_reducible apply kept2_proj; first | with_reducible assumption | with_reducible apply kept2_foldl | with_reducible apply State.writeFor_kept)
      | split
      | dsimp -zeta only

theorem execRemoteReqReceive_kept (hregs : m.regs) (hout : m.out) (hclk : m.clk) (hhost : m.host) (hlif : m.lif) (hfab
    : m.fab) (h : Kept m z s) : KeptX m z (execRemoteReqReceive s) := by
  unfold execRemoteReqReceive
  repeat' first
    | with_reducible assumption
    | intro _
    | subst x
    | (extract_lets +onlyGivenNames x; have hx : Kept m z x := ?_; clear_value x)
    | (extract_lets +onlyGivenNames x; have hx : Kept2 m z x := ?_; clear_value x)
    | (extract_lets +onlyGivenNames x; have hx : Kept3 m z x := ?_; clear_value x)
    | (extract_lets +onlyGivenNames x; have hx : KeptO m z x := ?_; clear_value x)
    | (extract_lets +onlyGivenNames x; have hx : KeptO2 m z x := ?_; clear_value x)
    | (extract_lets +onlyGivenNames x; clear_value x)
    | (extract_lets +onlyGivenNames w; revert w; intro w0)
    | with_reducible apply kept_ite
    | with_reducible apply State.complete_kept
    | with_reducible apply State.readAll_kept
    | with_reducible apply State.refuse_kept
    | with_reducible apply State.respond_kept
    | with_reducible apply State.secLog_kept
    | with_reducible apply State.takeMsg_kept
    | with_reducible apply State.writeAll_kept
    | with_reducible apply keptX_ok
    | with_reducible apply kept2_mk
    | with_reducible apply keptO2_some
    | with_reducible apply keptO2_none
    | with_reducible exact keptO2_get (by with_reducible assumption)
    | (with_reducible refine kept2_eq (by with_reducible assumption) ?_)
    | (with_reducible apply kept2_proj; first | with_reducible assumption | with_reducible apply kept2_foldl)
    | (with_reducible refine kept3_eq (by with_reducible assumption) ?_)
    | (with_reducible apply kept3_proj; first | with_reducible assumption | with_reducible apply State.readAll_kept)
    | (with_reducible refine keptO2_eq (by with_reducible assumption) ?_)
    | (with_reducible refine keptO2_eqp (by with_reducible assumption) ?_)
    | split
    | dsimp -zeta only
    | (with_reducible refine kept_mk rfl ?_ rfl rfl rfl rfl ?_ ?_ ?_ ?_ ?_ ?_ ?_ ?_ ?_ ?_ ?_ ?_ ?_ ?_ ?_ ?_ ?_ ?_ ?_ <;> first | with_reducible exact Or.inr rfl | exact Or.inl (by assumption) | with_reducible assumption | with_reducible exact keptO2_get (by with_reducible assumption) | (with_reducible refine kept2_eq (by with_reducible assumption) ?_) | (with_reducible refine kept3_eq (by with_reducible assumption) ?_) | (with_reducible refine keptO_eq (by with_reducible assumption) ?_) | (with_reducible refine keptO2_eq (by with_reducible assumption) ?_) | (with_reducible refine keptO2_eqp (by with_reducible assumption) ?_) | with_reducible apply State.complete_kept | with_reducible apply State.readAll_kept | with_reducible apply State.refuse_kept | with_reducible apply State.respond_kept | with_reducible apply State.secLog_kept | with_reducible apply State.takeMsg_kept | with_reducible apply State.writeAll_kept)

end Sys2Proof.Machine
end

