-- ==== Sys2Proof/Laws/State.lean ====
section
/-!
SUPPORT. Laws/State.lean: one lemma for each field of the state and each shared operation that leaves it alone, so that no later proof
unfolds a record update.
-/

namespace Sys2Proof.Machine

variable {s : State}

/-- Nothing but regs may change. -/
abbrev Mask.onlyRegs : Mask :=
  ⟨True, False, False, False, False, False, False, False, False, False, False, False, False, False, False, False, False, False, False, False, False⟩

/-- Nothing but out, host may change. -/
abbrev Mask.onlyOutHost : Mask :=
  ⟨False, True, False, False, False, False, True, False, False, False, False, False, False, False, False, False, False, False, False, False, False⟩

/-- Nothing but host may change. -/
abbrev Mask.onlyHost : Mask :=
  ⟨False, False, False, False, False, False, True, False, False, False, False, False, False, False, False, False, False, False, False, False, False⟩

/-- Nothing but regs, out, host may change. -/
abbrev Mask.onlyRegsOutHost : Mask :=
  ⟨True, True, False, False, False, False, True, False, False, False, False, False, False, False, False, False, False, False, False, False, False⟩

/-- Nothing but regs, host, fab may change. -/
abbrev Mask.onlyRegsHostFab : Mask :=
  ⟨True, False, False, False, False, False, True, False, False, False, False, False, False, False, False, False, False, False, False, False, True⟩

/-! ### wrWord -/

@[simp] theorem wrWord_pending {a : Nat} {w : Word} : (s.wrWord a w).pending = s.pending := rfl
@[simp] theorem wrWord_out {a : Nat} {w : Word} : (s.wrWord a w).out = s.out := rfl
@[simp] theorem wrWord_freeCtr {a : Nat} {w : Word} : (s.wrWord a w).freeCtr = s.freeCtr := rfl
@[simp] theorem wrWord_time {a : Nat} {w : Word} : (s.wrWord a w).time = s.time := rfl
@[simp] theorem wrWord_clk {a : Nat} {w : Word} : (s.wrWord a w).clk = s.clk := rfl
@[simp] theorem wrWord_sched {a : Nat} {w : Word} : (s.wrWord a w).sched = s.sched := rfl
@[simp] theorem wrWord_host {a : Nat} {w : Word} : (s.wrWord a w).host = s.host := rfl
@[simp] theorem wrWord_svc {a : Nat} {w : Word} : (s.wrWord a w).svc = s.svc := rfl
@[simp] theorem wrWord_fw {a : Nat} {w : Word} : (s.wrWord a w).fw = s.fw := rfl
@[simp] theorem wrWord_flash {a : Nat} {w : Word} : (s.wrWord a w).flash = s.flash := rfl
@[simp] theorem wrWord_recipe {a : Nat} {w : Word} : (s.wrWord a w).recipe = s.recipe := rfl
@[simp] theorem wrWord_tab {a : Nat} {w : Word} : (s.wrWord a w).tab = s.tab := rfl
@[simp] theorem wrWord_txf {a : Nat} {w : Word} : (s.wrWord a w).txf = s.txf := rfl
@[simp] theorem wrWord_txns {a : Nat} {w : Word} : (s.wrWord a w).txns = s.txns := rfl
@[simp] theorem wrWord_fd {a : Nat} {w : Word} : (s.wrWord a w).fd = s.fd := rfl
@[simp] theorem wrWord_cnt {a : Nat} {w : Word} : (s.wrWord a w).cnt = s.cnt := rfl
@[simp] theorem wrWord_brg {a : Nat} {w : Word} : (s.wrWord a w).brg = s.brg := rfl
@[simp] theorem wrWord_buf {a : Nat} {w : Word} : (s.wrWord a w).buf = s.buf := rfl
@[simp] theorem wrWord_lif {a : Nat} {w : Word} : (s.wrWord a w).lif = s.lif := rfl
@[simp] theorem wrWord_mem {a : Nat} {w : Word} : (s.wrWord a w).mem = s.mem := rfl
@[simp] theorem wrWord_fab {a : Nat} {w : Word} : (s.wrWord a w).fab = s.fab := rfl

/-! ### wr -/

@[simp] theorem wr_pending {f : Fld} {v : Nat} : (s.wr f v).pending = s.pending := rfl
@[simp] theorem wr_out {f : Fld} {v : Nat} : (s.wr f v).out = s.out := rfl
@[simp] theorem wr_freeCtr {f : Fld} {v : Nat} : (s.wr f v).freeCtr = s.freeCtr := rfl
@[simp] theorem wr_time {f : Fld} {v : Nat} : (s.wr f v).time = s.time := rfl
@[simp] theorem wr_clk {f : Fld} {v : Nat} : (s.wr f v).clk = s.clk := rfl
@[simp] theorem wr_sched {f : Fld} {v : Nat} : (s.wr f v).sched = s.sched := rfl
@[simp] theorem wr_host {f : Fld} {v : Nat} : (s.wr f v).host = s.host := rfl
@[simp] theorem wr_svc {f : Fld} {v : Nat} : (s.wr f v).svc = s.svc := rfl
@[simp] theorem wr_fw {f : Fld} {v : Nat} : (s.wr f v).fw = s.fw := rfl
@[simp] theorem wr_flash {f : Fld} {v : Nat} : (s.wr f v).flash = s.flash := rfl
@[simp] theorem wr_recipe {f : Fld} {v : Nat} : (s.wr f v).recipe = s.recipe := rfl
@[simp] theorem wr_tab {f : Fld} {v : Nat} : (s.wr f v).tab = s.tab := rfl
@[simp] theorem wr_txf {f : Fld} {v : Nat} : (s.wr f v).txf = s.txf := rfl
@[simp] theorem wr_txns {f : Fld} {v : Nat} : (s.wr f v).txns = s.txns := rfl
@[simp] theorem wr_fd {f : Fld} {v : Nat} : (s.wr f v).fd = s.fd := rfl
@[simp] theorem wr_cnt {f : Fld} {v : Nat} : (s.wr f v).cnt = s.cnt := rfl
@[simp] theorem wr_brg {f : Fld} {v : Nat} : (s.wr f v).brg = s.brg := rfl
@[simp] theorem wr_buf {f : Fld} {v : Nat} : (s.wr f v).buf = s.buf := rfl
@[simp] theorem wr_lif {f : Fld} {v : Nat} : (s.wr f v).lif = s.lif := rfl
@[simp] theorem wr_mem {f : Fld} {v : Nat} : (s.wr f v).mem = s.mem := rfl
@[simp] theorem wr_fab {f : Fld} {v : Nat} : (s.wr f v).fab = s.fab := rfl

/-! ### wrBit -/

@[simp] theorem wrBit_pending {f : Fld} {b : Bool} : (s.wrBit f b).pending = s.pending := rfl
@[simp] theorem wrBit_out {f : Fld} {b : Bool} : (s.wrBit f b).out = s.out := rfl
@[simp] theorem wrBit_freeCtr {f : Fld} {b : Bool} : (s.wrBit f b).freeCtr = s.freeCtr := rfl
@[simp] theorem wrBit_time {f : Fld} {b : Bool} : (s.wrBit f b).time = s.time := rfl
@[simp] theorem wrBit_clk {f : Fld} {b : Bool} : (s.wrBit f b).clk = s.clk := rfl
@[simp] theorem wrBit_sched {f : Fld} {b : Bool} : (s.wrBit f b).sched = s.sched := rfl
@[simp] theorem wrBit_host {f : Fld} {b : Bool} : (s.wrBit f b).host = s.host := rfl
@[simp] theorem wrBit_svc {f : Fld} {b : Bool} : (s.wrBit f b).svc = s.svc := rfl
@[simp] theorem wrBit_fw {f : Fld} {b : Bool} : (s.wrBit f b).fw = s.fw := rfl
@[simp] theorem wrBit_flash {f : Fld} {b : Bool} : (s.wrBit f b).flash = s.flash := rfl
@[simp] theorem wrBit_recipe {f : Fld} {b : Bool} : (s.wrBit f b).recipe = s.recipe := rfl
@[simp] theorem wrBit_tab {f : Fld} {b : Bool} : (s.wrBit f b).tab = s.tab := rfl
@[simp] theorem wrBit_txf {f : Fld} {b : Bool} : (s.wrBit f b).txf = s.txf := rfl
@[simp] theorem wrBit_txns {f : Fld} {b : Bool} : (s.wrBit f b).txns = s.txns := rfl
@[simp] theorem wrBit_fd {f : Fld} {b : Bool} : (s.wrBit f b).fd = s.fd := rfl
@[simp] theorem wrBit_cnt {f : Fld} {b : Bool} : (s.wrBit f b).cnt = s.cnt := rfl
@[simp] theorem wrBit_brg {f : Fld} {b : Bool} : (s.wrBit f b).brg = s.brg := rfl
@[simp] theorem wrBit_buf {f : Fld} {b : Bool} : (s.wrBit f b).buf = s.buf := rfl
@[simp] theorem wrBit_lif {f : Fld} {b : Bool} : (s.wrBit f b).lif = s.lif := rfl
@[simp] theorem wrBit_mem {f : Fld} {b : Bool} : (s.wrBit f b).mem = s.mem := rfl
@[simp] theorem wrBit_fab {f : Fld} {b : Bool} : (s.wrBit f b).fab = s.fab := rfl

/-! ### count -/

@[simp] theorem count_pending {f : Fld} {n : Nat} : (s.count f n).pending = s.pending := rfl
@[simp] theorem count_out {f : Fld} {n : Nat} : (s.count f n).out = s.out := rfl
@[simp] theorem count_freeCtr {f : Fld} {n : Nat} : (s.count f n).freeCtr = s.freeCtr := rfl
@[simp] theorem count_time {f : Fld} {n : Nat} : (s.count f n).time = s.time := rfl
@[simp] theorem count_clk {f : Fld} {n : Nat} : (s.count f n).clk = s.clk := rfl
@[simp] theorem count_sched {f : Fld} {n : Nat} : (s.count f n).sched = s.sched := rfl
@[simp] theorem count_host {f : Fld} {n : Nat} : (s.count f n).host = s.host := rfl
@[simp] theorem count_svc {f : Fld} {n : Nat} : (s.count f n).svc = s.svc := rfl
@[simp] theorem count_fw {f : Fld} {n : Nat} : (s.count f n).fw = s.fw := rfl
@[simp] theorem count_flash {f : Fld} {n : Nat} : (s.count f n).flash = s.flash := rfl
@[simp] theorem count_recipe {f : Fld} {n : Nat} : (s.count f n).recipe = s.recipe := rfl
@[simp] theorem count_tab {f : Fld} {n : Nat} : (s.count f n).tab = s.tab := rfl
@[simp] theorem count_txf {f : Fld} {n : Nat} : (s.count f n).txf = s.txf := rfl
@[simp] theorem count_txns {f : Fld} {n : Nat} : (s.count f n).txns = s.txns := rfl
@[simp] theorem count_fd {f : Fld} {n : Nat} : (s.count f n).fd = s.fd := rfl
@[simp] theorem count_cnt {f : Fld} {n : Nat} : (s.count f n).cnt = s.cnt := rfl
@[simp] theorem count_brg {f : Fld} {n : Nat} : (s.count f n).brg = s.brg := rfl
@[simp] theorem count_buf {f : Fld} {n : Nat} : (s.count f n).buf = s.buf := rfl
@[simp] theorem count_lif {f : Fld} {n : Nat} : (s.count f n).lif = s.lif := rfl
@[simp] theorem count_mem {f : Fld} {n : Nat} : (s.count f n).mem = s.mem := rfl
@[simp] theorem count_fab {f : Fld} {n : Nat} : (s.count f n).fab = s.fab := rfl

/-! ### bump -/

@[simp] theorem bump_pending {f : Fld} : (s.bump f).pending = s.pending := rfl
@[simp] theorem bump_out {f : Fld} : (s.bump f).out = s.out := rfl
@[simp] theorem bump_freeCtr {f : Fld} : (s.bump f).freeCtr = s.freeCtr := rfl
@[simp] theorem bump_time {f : Fld} : (s.bump f).time = s.time := rfl
@[simp] theorem bump_clk {f : Fld} : (s.bump f).clk = s.clk := rfl
@[simp] theorem bump_sched {f : Fld} : (s.bump f).sched = s.sched := rfl
@[simp] theorem bump_host {f : Fld} : (s.bump f).host = s.host := rfl
@[simp] theorem bump_svc {f : Fld} : (s.bump f).svc = s.svc := rfl
@[simp] theorem bump_fw {f : Fld} : (s.bump f).fw = s.fw := rfl
@[simp] theorem bump_flash {f : Fld} : (s.bump f).flash = s.flash := rfl
@[simp] theorem bump_recipe {f : Fld} : (s.bump f).recipe = s.recipe := rfl
@[simp] theorem bump_tab {f : Fld} : (s.bump f).tab = s.tab := rfl
@[simp] theorem bump_txf {f : Fld} : (s.bump f).txf = s.txf := rfl
@[simp] theorem bump_txns {f : Fld} : (s.bump f).txns = s.txns := rfl
@[simp] theorem bump_fd {f : Fld} : (s.bump f).fd = s.fd := rfl
@[simp] theorem bump_cnt {f : Fld} : (s.bump f).cnt = s.cnt := rfl
@[simp] theorem bump_brg {f : Fld} : (s.bump f).brg = s.brg := rfl
@[simp] theorem bump_buf {f : Fld} : (s.bump f).buf = s.buf := rfl
@[simp] theorem bump_lif {f : Fld} : (s.bump f).lif = s.lif := rfl
@[simp] theorem bump_mem {f : Fld} : (s.bump f).mem = s.mem := rfl
@[simp] theorem bump_fab {f : Fld} : (s.bump f).fab = s.fab := rfl

/-! ### less -/

@[simp] theorem less_pending {f : Fld} {n : Nat} : (s.less f n).pending = s.pending := rfl
@[simp] theorem less_out {f : Fld} {n : Nat} : (s.less f n).out = s.out := rfl
@[simp] theorem less_freeCtr {f : Fld} {n : Nat} : (s.less f n).freeCtr = s.freeCtr := rfl
@[simp] theorem less_time {f : Fld} {n : Nat} : (s.less f n).time = s.time := rfl
@[simp] theorem less_clk {f : Fld} {n : Nat} : (s.less f n).clk = s.clk := rfl
@[simp] theorem less_sched {f : Fld} {n : Nat} : (s.less f n).sched = s.sched := rfl
@[simp] theorem less_host {f : Fld} {n : Nat} : (s.less f n).host = s.host := rfl
@[simp] theorem less_svc {f : Fld} {n : Nat} : (s.less f n).svc = s.svc := rfl
@[simp] theorem less_fw {f : Fld} {n : Nat} : (s.less f n).fw = s.fw := rfl
@[simp] theorem less_flash {f : Fld} {n : Nat} : (s.less f n).flash = s.flash := rfl
@[simp] theorem less_recipe {f : Fld} {n : Nat} : (s.less f n).recipe = s.recipe := rfl
@[simp] theorem less_tab {f : Fld} {n : Nat} : (s.less f n).tab = s.tab := rfl
@[simp] theorem less_txf {f : Fld} {n : Nat} : (s.less f n).txf = s.txf := rfl
@[simp] theorem less_txns {f : Fld} {n : Nat} : (s.less f n).txns = s.txns := rfl
@[simp] theorem less_fd {f : Fld} {n : Nat} : (s.less f n).fd = s.fd := rfl
@[simp] theorem less_cnt {f : Fld} {n : Nat} : (s.less f n).cnt = s.cnt := rfl
@[simp] theorem less_brg {f : Fld} {n : Nat} : (s.less f n).brg = s.brg := rfl
@[simp] theorem less_buf {f : Fld} {n : Nat} : (s.less f n).buf = s.buf := rfl
@[simp] theorem less_lif {f : Fld} {n : Nat} : (s.less f n).lif = s.lif := rfl
@[simp] theorem less_mem {f : Fld} {n : Nat} : (s.less f n).mem = s.mem := rfl
@[simp] theorem less_fab {f : Fld} {n : Nat} : (s.less f n).fab = s.fab := rfl

/-! ### wr64 -/

@[simp] theorem wr64_pending {f g : Fld} {v : Nat} : (s.wr64 f g v).pending = s.pending := rfl
@[simp] theorem wr64_out {f g : Fld} {v : Nat} : (s.wr64 f g v).out = s.out := rfl
@[simp] theorem wr64_freeCtr {f g : Fld} {v : Nat} : (s.wr64 f g v).freeCtr = s.freeCtr := rfl
@[simp] theorem wr64_time {f g : Fld} {v : Nat} : (s.wr64 f g v).time = s.time := rfl
@[simp] theorem wr64_clk {f g : Fld} {v : Nat} : (s.wr64 f g v).clk = s.clk := rfl
@[simp] theorem wr64_sched {f g : Fld} {v : Nat} : (s.wr64 f g v).sched = s.sched := rfl
@[simp] theorem wr64_host {f g : Fld} {v : Nat} : (s.wr64 f g v).host = s.host := rfl
@[simp] theorem wr64_svc {f g : Fld} {v : Nat} : (s.wr64 f g v).svc = s.svc := rfl
@[simp] theorem wr64_fw {f g : Fld} {v : Nat} : (s.wr64 f g v).fw = s.fw := rfl
@[simp] theorem wr64_flash {f g : Fld} {v : Nat} : (s.wr64 f g v).flash = s.flash := rfl
@[simp] theorem wr64_recipe {f g : Fld} {v : Nat} : (s.wr64 f g v).recipe = s.recipe := rfl
@[simp] theorem wr64_tab {f g : Fld} {v : Nat} : (s.wr64 f g v).tab = s.tab := rfl
@[simp] theorem wr64_txf {f g : Fld} {v : Nat} : (s.wr64 f g v).txf = s.txf := rfl
@[simp] theorem wr64_txns {f g : Fld} {v : Nat} : (s.wr64 f g v).txns = s.txns := rfl
@[simp] theorem wr64_fd {f g : Fld} {v : Nat} : (s.wr64 f g v).fd = s.fd := rfl
@[simp] theorem wr64_cnt {f g : Fld} {v : Nat} : (s.wr64 f g v).cnt = s.cnt := rfl
@[simp] theorem wr64_brg {f g : Fld} {v : Nat} : (s.wr64 f g v).brg = s.brg := rfl
@[simp] theorem wr64_buf {f g : Fld} {v : Nat} : (s.wr64 f g v).buf = s.buf := rfl
@[simp] theorem wr64_lif {f g : Fld} {v : Nat} : (s.wr64 f g v).lif = s.lif := rfl
@[simp] theorem wr64_mem {f g : Fld} {v : Nat} : (s.wr64 f g v).mem = s.mem := rfl
@[simp] theorem wr64_fab {f g : Fld} {v : Nat} : (s.wr64 f g v).fab = s.fab := rfl

/-! ### resetRegs -/

@[simp] theorem resetRegs_pending {a b : Nat} {k : Nat → Bool} : (s.resetRegs a b k).pending = s.pending := rfl
@[simp] theorem resetRegs_out {a b : Nat} {k : Nat → Bool} : (s.resetRegs a b k).out = s.out := rfl
@[simp] theorem resetRegs_freeCtr {a b : Nat} {k : Nat → Bool} : (s.resetRegs a b k).freeCtr = s.freeCtr := rfl
@[simp] theorem resetRegs_time {a b : Nat} {k : Nat → Bool} : (s.resetRegs a b k).time = s.time := rfl
@[simp] theorem resetRegs_clk {a b : Nat} {k : Nat → Bool} : (s.resetRegs a b k).clk = s.clk := rfl
@[simp] theorem resetRegs_sched {a b : Nat} {k : Nat → Bool} : (s.resetRegs a b k).sched = s.sched := rfl
@[simp] theorem resetRegs_host {a b : Nat} {k : Nat → Bool} : (s.resetRegs a b k).host = s.host := rfl
@[simp] theorem resetRegs_svc {a b : Nat} {k : Nat → Bool} : (s.resetRegs a b k).svc = s.svc := rfl
@[simp] theorem resetRegs_fw {a b : Nat} {k : Nat → Bool} : (s.resetRegs a b k).fw = s.fw := rfl
@[simp] theorem resetRegs_flash {a b : Nat} {k : Nat → Bool} : (s.resetRegs a b k).flash = s.flash := rfl
@[simp] theorem resetRegs_recipe {a b : Nat} {k : Nat → Bool} : (s.resetRegs a b k).recipe = s.recipe := rfl
@[simp] theorem resetRegs_tab {a b : Nat} {k : Nat → Bool} : (s.resetRegs a b k).tab = s.tab := rfl
@[simp] theorem resetRegs_txf {a b : Nat} {k : Nat → Bool} : (s.resetRegs a b k).txf = s.txf := rfl
@[simp] theorem resetRegs_txns {a b : Nat} {k : Nat → Bool} : (s.resetRegs a b k).txns = s.txns := rfl
@[simp] theorem resetRegs_fd {a b : Nat} {k : Nat → Bool} : (s.resetRegs a b k).fd = s.fd := rfl
@[simp] theorem resetRegs_cnt {a b : Nat} {k : Nat → Bool} : (s.resetRegs a b k).cnt = s.cnt := rfl
@[simp] theorem resetRegs_brg {a b : Nat} {k : Nat → Bool} : (s.resetRegs a b k).brg = s.brg := rfl
@[simp] theorem resetRegs_buf {a b : Nat} {k : Nat → Bool} : (s.resetRegs a b k).buf = s.buf := rfl
@[simp] theorem resetRegs_lif {a b : Nat} {k : Nat → Bool} : (s.resetRegs a b k).lif = s.lif := rfl
@[simp] theorem resetRegs_mem {a b : Nat} {k : Nat → Bool} : (s.resetRegs a b k).mem = s.mem := rfl
@[simp] theorem resetRegs_fab {a b : Nat} {k : Nat → Bool} : (s.resetRegs a b k).fab = s.fab := rfl

/-! ### acceptWrite -/

@[simp] theorem acceptWrite_pending {fn : Nat} : (s.acceptWrite fn).pending = s.pending := rfl
@[simp] theorem acceptWrite_out {fn : Nat} : (s.acceptWrite fn).out = s.out := rfl
@[simp] theorem acceptWrite_freeCtr {fn : Nat} : (s.acceptWrite fn).freeCtr = s.freeCtr := rfl
@[simp] theorem acceptWrite_time {fn : Nat} : (s.acceptWrite fn).time = s.time := rfl
@[simp] theorem acceptWrite_clk {fn : Nat} : (s.acceptWrite fn).clk = s.clk := rfl
@[simp] theorem acceptWrite_sched {fn : Nat} : (s.acceptWrite fn).sched = s.sched := rfl
@[simp] theorem acceptWrite_host {fn : Nat} : (s.acceptWrite fn).host = s.host := rfl
@[simp] theorem acceptWrite_svc {fn : Nat} : (s.acceptWrite fn).svc = s.svc := rfl
@[simp] theorem acceptWrite_fw {fn : Nat} : (s.acceptWrite fn).fw = s.fw := rfl
@[simp] theorem acceptWrite_flash {fn : Nat} : (s.acceptWrite fn).flash = s.flash := rfl
@[simp] theorem acceptWrite_recipe {fn : Nat} : (s.acceptWrite fn).recipe = s.recipe := rfl
@[simp] theorem acceptWrite_tab {fn : Nat} : (s.acceptWrite fn).tab = s.tab := rfl
@[simp] theorem acceptWrite_txf {fn : Nat} : (s.acceptWrite fn).txf = s.txf := rfl
@[simp] theorem acceptWrite_txns {fn : Nat} : (s.acceptWrite fn).txns = s.txns := rfl
@[simp] theorem acceptWrite_fd {fn : Nat} : (s.acceptWrite fn).fd = s.fd := rfl
@[simp] theorem acceptWrite_cnt {fn : Nat} : (s.acceptWrite fn).cnt = s.cnt := rfl
@[simp] theorem acceptWrite_brg {fn : Nat} : (s.acceptWrite fn).brg = s.brg := rfl
@[simp] theorem acceptWrite_buf {fn : Nat} : (s.acceptWrite fn).buf = s.buf := rfl
@[simp] theorem acceptWrite_lif {fn : Nat} : (s.acceptWrite fn).lif = s.lif := rfl
@[simp] theorem acceptWrite_mem {fn : Nat} : (s.acceptWrite fn).mem = s.mem := rfl
@[simp] theorem acceptWrite_fab {fn : Nat} : (s.acceptWrite fn).fab = s.fab := rfl

/-! ### emit -/

@[simp] theorem emit_pending {o : Output} : (s.emit o).pending = s.pending := rfl
@[simp] theorem emit_regs {o : Output} : (s.emit o).regs = s.regs := rfl
@[simp] theorem emit_freeCtr {o : Output} : (s.emit o).freeCtr = s.freeCtr := rfl
@[simp] theorem emit_time {o : Output} : (s.emit o).time = s.time := rfl
@[simp] theorem emit_clk {o : Output} : (s.emit o).clk = s.clk := rfl
@[simp] theorem emit_sched {o : Output} : (s.emit o).sched = s.sched := rfl
@[simp] theorem emit_host {o : Output} : (s.emit o).host = s.host := rfl
@[simp] theorem emit_svc {o : Output} : (s.emit o).svc = s.svc := rfl
@[simp] theorem emit_fw {o : Output} : (s.emit o).fw = s.fw := rfl
@[simp] theorem emit_flash {o : Output} : (s.emit o).flash = s.flash := rfl
@[simp] theorem emit_recipe {o : Output} : (s.emit o).recipe = s.recipe := rfl
@[simp] theorem emit_tab {o : Output} : (s.emit o).tab = s.tab := rfl
@[simp] theorem emit_txf {o : Output} : (s.emit o).txf = s.txf := rfl
@[simp] theorem emit_txns {o : Output} : (s.emit o).txns = s.txns := rfl
@[simp] theorem emit_fd {o : Output} : (s.emit o).fd = s.fd := rfl
@[simp] theorem emit_cnt {o : Output} : (s.emit o).cnt = s.cnt := rfl
@[simp] theorem emit_brg {o : Output} : (s.emit o).brg = s.brg := rfl
@[simp] theorem emit_buf {o : Output} : (s.emit o).buf = s.buf := rfl
@[simp] theorem emit_lif {o : Output} : (s.emit o).lif = s.lif := rfl
@[simp] theorem emit_mem {o : Output} : (s.emit o).mem = s.mem := rfl
@[simp] theorem emit_fab {o : Output} : (s.emit o).fab = s.fab := rfl

/-! ### secLog -/

@[simp] theorem secLog_pending {r f a o : Nat} {d : Option Nat} : (s.secLog r f a o d).pending = s.pending :=
  (State.secLog_kept trivial (Kept.refl Mask.onlyRegs s)).pending
@[simp] theorem secLog_out {r f a o : Nat} {d : Option Nat} : (s.secLog r f a o d).out = s.out :=
  (State.secLog_kept trivial (Kept.refl Mask.onlyRegs s)).out.resolve_left id
@[simp] theorem secLog_time {r f a o : Nat} {d : Option Nat} : (s.secLog r f a o d).time = s.time :=
  (State.secLog_kept trivial (Kept.refl Mask.onlyRegs s)).time.resolve_left id
@[simp] theorem secLog_clk {r f a o : Nat} {d : Option Nat} : (s.secLog r f a o d).clk = s.clk :=
  (State.secLog_kept trivial (Kept.refl Mask.onlyRegs s)).clk.resolve_left id
@[simp] theorem secLog_sched {r f a o : Nat} {d : Option Nat} : (s.secLog r f a o d).sched = s.sched :=
  (State.secLog_kept trivial (Kept.refl Mask.onlyRegs s)).sched.resolve_left id
@[simp] theorem secLog_host {r f a o : Nat} {d : Option Nat} : (s.secLog r f a o d).host = s.host :=
  (State.secLog_kept trivial (Kept.refl Mask.onlyRegs s)).host.resolve_left id
@[simp] theorem secLog_svc {r f a o : Nat} {d : Option Nat} : (s.secLog r f a o d).svc = s.svc :=
  (State.secLog_kept trivial (Kept.refl Mask.onlyRegs s)).svc.resolve_left id
@[simp] theorem secLog_fw {r f a o : Nat} {d : Option Nat} : (s.secLog r f a o d).fw = s.fw :=
  (State.secLog_kept trivial (Kept.refl Mask.onlyRegs s)).fw.resolve_left id
@[simp] theorem secLog_flash {r f a o : Nat} {d : Option Nat} : (s.secLog r f a o d).flash = s.flash :=
  (State.secLog_kept trivial (Kept.refl Mask.onlyRegs s)).flash.resolve_left id
@[simp] theorem secLog_recipe {r f a o : Nat} {d : Option Nat} : (s.secLog r f a o d).recipe = s.recipe :=
  (State.secLog_kept trivial (Kept.refl Mask.onlyRegs s)).recipe.resolve_left id
@[simp] theorem secLog_tab {r f a o : Nat} {d : Option Nat} : (s.secLog r f a o d).tab = s.tab :=
  (State.secLog_kept trivial (Kept.refl Mask.onlyRegs s)).tab.resolve_left id
@[simp] theorem secLog_txf {r f a o : Nat} {d : Option Nat} : (s.secLog r f a o d).txf = s.txf :=
  (State.secLog_kept trivial (Kept.refl Mask.onlyRegs s)).txf.resolve_left id
@[simp] theorem secLog_txns {r f a o : Nat} {d : Option Nat} : (s.secLog r f a o d).txns = s.txns :=
  (State.secLog_kept trivial (Kept.refl Mask.onlyRegs s)).txns.resolve_left id
@[simp] theorem secLog_fd {r f a o : Nat} {d : Option Nat} : (s.secLog r f a o d).fd = s.fd :=
  (State.secLog_kept trivial (Kept.refl Mask.onlyRegs s)).fd.resolve_left id
@[simp] theorem secLog_cnt {r f a o : Nat} {d : Option Nat} : (s.secLog r f a o d).cnt = s.cnt :=
  (State.secLog_kept trivial (Kept.refl Mask.onlyRegs s)).cnt.resolve_left id
@[simp] theorem secLog_brg {r f a o : Nat} {d : Option Nat} : (s.secLog r f a o d).brg = s.brg :=
  (State.secLog_kept trivial (Kept.refl Mask.onlyRegs s)).brg.resolve_left id
@[simp] theorem secLog_buf {r f a o : Nat} {d : Option Nat} : (s.secLog r f a o d).buf = s.buf :=
  (State.secLog_kept trivial (Kept.refl Mask.onlyRegs s)).buf.resolve_left id
@[simp] theorem secLog_lif {r f a o : Nat} {d : Option Nat} : (s.secLog r f a o d).lif = s.lif :=
  (State.secLog_kept trivial (Kept.refl Mask.onlyRegs s)).lif.resolve_left id
@[simp] theorem secLog_mem {r f a o : Nat} {d : Option Nat} : (s.secLog r f a o d).mem = s.mem :=
  (State.secLog_kept trivial (Kept.refl Mask.onlyRegs s)).mem.resolve_left id
@[simp] theorem secLog_fab {r f a o : Nat} {d : Option Nat} : (s.secLog r f a o d).fab = s.fab :=
  (State.secLog_kept trivial (Kept.refl Mask.onlyRegs s)).fab.resolve_left id

/-! ### raiseVec -/

@[simp] theorem raiseVec_pending {f v : Nat} : (s.raiseVec f v).pending = s.pending :=
  (State.raiseVec_kept trivial trivial (Kept.refl Mask.onlyOutHost s)).pending
@[simp] theorem raiseVec_regs {f v : Nat} : (s.raiseVec f v).regs = s.regs :=
  (State.raiseVec_kept trivial trivial (Kept.refl Mask.onlyOutHost s)).regs.resolve_left id
@[simp] theorem raiseVec_time {f v : Nat} : (s.raiseVec f v).time = s.time :=
  (State.raiseVec_kept trivial trivial (Kept.refl Mask.onlyOutHost s)).time.resolve_left id
@[simp] theorem raiseVec_clk {f v : Nat} : (s.raiseVec f v).clk = s.clk :=
  (State.raiseVec_kept trivial trivial (Kept.refl Mask.onlyOutHost s)).clk.resolve_left id
@[simp] theorem raiseVec_sched {f v : Nat} : (s.raiseVec f v).sched = s.sched :=
  (State.raiseVec_kept trivial trivial (Kept.refl Mask.onlyOutHost s)).sched.resolve_left id
@[simp] theorem raiseVec_svc {f v : Nat} : (s.raiseVec f v).svc = s.svc :=
  (State.raiseVec_kept trivial trivial (Kept.refl Mask.onlyOutHost s)).svc.resolve_left id
@[simp] theorem raiseVec_fw {f v : Nat} : (s.raiseVec f v).fw = s.fw :=
  (State.raiseVec_kept trivial trivial (Kept.refl Mask.onlyOutHost s)).fw.resolve_left id
@[simp] theorem raiseVec_flash {f v : Nat} : (s.raiseVec f v).flash = s.flash :=
  (State.raiseVec_kept trivial trivial (Kept.refl Mask.onlyOutHost s)).flash.resolve_left id
@[simp] theorem raiseVec_recipe {f v : Nat} : (s.raiseVec f v).recipe = s.recipe :=
  (State.raiseVec_kept trivial trivial (Kept.refl Mask.onlyOutHost s)).recipe.resolve_left id
@[simp] theorem raiseVec_tab {f v : Nat} : (s.raiseVec f v).tab = s.tab :=
  (State.raiseVec_kept trivial trivial (Kept.refl Mask.onlyOutHost s)).tab.resolve_left id
@[simp] theorem raiseVec_txf {f v : Nat} : (s.raiseVec f v).txf = s.txf :=
  (State.raiseVec_kept trivial trivial (Kept.refl Mask.onlyOutHost s)).txf.resolve_left id
@[simp] theorem raiseVec_txns {f v : Nat} : (s.raiseVec f v).txns = s.txns :=
  (State.raiseVec_kept trivial trivial (Kept.refl Mask.onlyOutHost s)).txns.resolve_left id
@[simp] theorem raiseVec_fd {f v : Nat} : (s.raiseVec f v).fd = s.fd :=
  (State.raiseVec_kept trivial trivial (Kept.refl Mask.onlyOutHost s)).fd.resolve_left id
@[simp] theorem raiseVec_cnt {f v : Nat} : (s.raiseVec f v).cnt = s.cnt :=
  (State.raiseVec_kept trivial trivial (Kept.refl Mask.onlyOutHost s)).cnt.resolve_left id
@[simp] theorem raiseVec_brg {f v : Nat} : (s.raiseVec f v).brg = s.brg :=
  (State.raiseVec_kept trivial trivial (Kept.refl Mask.onlyOutHost s)).brg.resolve_left id
@[simp] theorem raiseVec_buf {f v : Nat} : (s.raiseVec f v).buf = s.buf :=
  (State.raiseVec_kept trivial trivial (Kept.refl Mask.onlyOutHost s)).buf.resolve_left id
@[simp] theorem raiseVec_lif {f v : Nat} : (s.raiseVec f v).lif = s.lif :=
  (State.raiseVec_kept trivial trivial (Kept.refl Mask.onlyOutHost s)).lif.resolve_left id
@[simp] theorem raiseVec_mem {f v : Nat} : (s.raiseVec f v).mem = s.mem :=
  (State.raiseVec_kept trivial trivial (Kept.refl Mask.onlyOutHost s)).mem.resolve_left id
@[simp] theorem raiseVec_fab {f v : Nat} : (s.raiseVec f v).fab = s.fab :=
  (State.raiseVec_kept trivial trivial (Kept.refl Mask.onlyOutHost s)).fab.resolve_left id

/-! ### queueEvent -/

@[simp] theorem queueEvent_pending {f : Nat} {r : EvRec} : (s.queueEvent f r).pending = s.pending :=
  (State.queueEvent_kept trivial (Kept.refl Mask.onlyHost s)).pending
@[simp] theorem queueEvent_regs {f : Nat} {r : EvRec} : (s.queueEvent f r).regs = s.regs :=
  (State.queueEvent_kept trivial (Kept.refl Mask.onlyHost s)).regs.resolve_left id
@[simp] theorem queueEvent_out {f : Nat} {r : EvRec} : (s.queueEvent f r).out = s.out :=
  (State.queueEvent_kept trivial (Kept.refl Mask.onlyHost s)).out.resolve_left id
@[simp] theorem queueEvent_time {f : Nat} {r : EvRec} : (s.queueEvent f r).time = s.time :=
  (State.queueEvent_kept trivial (Kept.refl Mask.onlyHost s)).time.resolve_left id
@[simp] theorem queueEvent_clk {f : Nat} {r : EvRec} : (s.queueEvent f r).clk = s.clk :=
  (State.queueEvent_kept trivial (Kept.refl Mask.onlyHost s)).clk.resolve_left id
@[simp] theorem queueEvent_sched {f : Nat} {r : EvRec} : (s.queueEvent f r).sched = s.sched :=
  (State.queueEvent_kept trivial (Kept.refl Mask.onlyHost s)).sched.resolve_left id
@[simp] theorem queueEvent_svc {f : Nat} {r : EvRec} : (s.queueEvent f r).svc = s.svc :=
  (State.queueEvent_kept trivial (Kept.refl Mask.onlyHost s)).svc.resolve_left id
@[simp] theorem queueEvent_fw {f : Nat} {r : EvRec} : (s.queueEvent f r).fw = s.fw :=
  (State.queueEvent_kept trivial (Kept.refl Mask.onlyHost s)).fw.resolve_left id
@[simp] theorem queueEvent_flash {f : Nat} {r : EvRec} : (s.queueEvent f r).flash = s.flash :=
  (State.queueEvent_kept trivial (Kept.refl Mask.onlyHost s)).flash.resolve_left id
@[simp] theorem queueEvent_recipe {f : Nat} {r : EvRec} : (s.queueEvent f r).recipe = s.recipe :=
  (State.queueEvent_kept trivial (Kept.refl Mask.onlyHost s)).recipe.resolve_left id
@[simp] theorem queueEvent_tab {f : Nat} {r : EvRec} : (s.queueEvent f r).tab = s.tab :=
  (State.queueEvent_kept trivial (Kept.refl Mask.onlyHost s)).tab.resolve_left id
@[simp] theorem queueEvent_txf {f : Nat} {r : EvRec} : (s.queueEvent f r).txf = s.txf :=
  (State.queueEvent_kept trivial (Kept.refl Mask.onlyHost s)).txf.resolve_left id
@[simp] theorem queueEvent_txns {f : Nat} {r : EvRec} : (s.queueEvent f r).txns = s.txns :=
  (State.queueEvent_kept trivial (Kept.refl Mask.onlyHost s)).txns.resolve_left id
@[simp] theorem queueEvent_fd {f : Nat} {r : EvRec} : (s.queueEvent f r).fd = s.fd :=
  (State.queueEvent_kept trivial (Kept.refl Mask.onlyHost s)).fd.resolve_left id
@[simp] theorem queueEvent_cnt {f : Nat} {r : EvRec} : (s.queueEvent f r).cnt = s.cnt :=
  (State.queueEvent_kept trivial (Kept.refl Mask.onlyHost s)).cnt.resolve_left id
@[simp] theorem queueEvent_brg {f : Nat} {r : EvRec} : (s.queueEvent f r).brg = s.brg :=
  (State.queueEvent_kept trivial (Kept.refl Mask.onlyHost s)).brg.resolve_left id
@[simp] theorem queueEvent_buf {f : Nat} {r : EvRec} : (s.queueEvent f r).buf = s.buf :=
  (State.queueEvent_kept trivial (Kept.refl Mask.onlyHost s)).buf.resolve_left id
@[simp] theorem queueEvent_lif {f : Nat} {r : EvRec} : (s.queueEvent f r).lif = s.lif :=
  (State.queueEvent_kept trivial (Kept.refl Mask.onlyHost s)).lif.resolve_left id
@[simp] theorem queueEvent_mem {f : Nat} {r : EvRec} : (s.queueEvent f r).mem = s.mem :=
  (State.queueEvent_kept trivial (Kept.refl Mask.onlyHost s)).mem.resolve_left id
@[simp] theorem queueEvent_fab {f : Nat} {r : EvRec} : (s.queueEvent f r).fab = s.fab :=
  (State.queueEvent_kept trivial (Kept.refl Mask.onlyHost s)).fab.resolve_left id

/-! ### eventOn -/

@[simp] theorem eventOn_pending {v d r : Nat} {b : Bool} : (s.eventOn v d r b).pending = s.pending :=
  (State.eventOn_kept trivial trivial trivial (Kept.refl Mask.onlyRegsOutHost s)).pending
@[simp] theorem eventOn_time {v d r : Nat} {b : Bool} : (s.eventOn v d r b).time = s.time :=
  (State.eventOn_kept trivial trivial trivial (Kept.refl Mask.onlyRegsOutHost s)).time.resolve_left id
@[simp] theorem eventOn_clk {v d r : Nat} {b : Bool} : (s.eventOn v d r b).clk = s.clk :=
  (State.eventOn_kept trivial trivial trivial (Kept.refl Mask.onlyRegsOutHost s)).clk.resolve_left id
@[simp] theorem eventOn_sched {v d r : Nat} {b : Bool} : (s.eventOn v d r b).sched = s.sched :=
  (State.eventOn_kept trivial trivial trivial (Kept.refl Mask.onlyRegsOutHost s)).sched.resolve_left id
@[simp] theorem eventOn_svc {v d r : Nat} {b : Bool} : (s.eventOn v d r b).svc = s.svc :=
  (State.eventOn_kept trivial trivial trivial (Kept.refl Mask.onlyRegsOutHost s)).svc.resolve_left id
@[simp] theorem eventOn_fw {v d r : Nat} {b : Bool} : (s.eventOn v d r b).fw = s.fw :=
  (State.eventOn_kept trivial trivial trivial (Kept.refl Mask.onlyRegsOutHost s)).fw.resolve_left id
@[simp] theorem eventOn_flash {v d r : Nat} {b : Bool} : (s.eventOn v d r b).flash = s.flash :=
  (State.eventOn_kept trivial trivial trivial (Kept.refl Mask.onlyRegsOutHost s)).flash.resolve_left id
@[simp] theorem eventOn_recipe {v d r : Nat} {b : Bool} : (s.eventOn v d r b).recipe = s.recipe :=
  (State.eventOn_kept trivial trivial trivial (Kept.refl Mask.onlyRegsOutHost s)).recipe.resolve_left id
@[simp] theorem eventOn_tab {v d r : Nat} {b : Bool} : (s.eventOn v d r b).tab = s.tab :=
  (State.eventOn_kept trivial trivial trivial (Kept.refl Mask.onlyRegsOutHost s)).tab.resolve_left id
@[simp] theorem eventOn_txf {v d r : Nat} {b : Bool} : (s.eventOn v d r b).txf = s.txf :=
  (State.eventOn_kept trivial trivial trivial (Kept.refl Mask.onlyRegsOutHost s)).txf.resolve_left id
@[simp] theorem eventOn_txns {v d r : Nat} {b : Bool} : (s.eventOn v d r b).txns = s.txns :=
  (State.eventOn_kept trivial trivial trivial (Kept.refl Mask.onlyRegsOutHost s)).txns.resolve_left id
@[simp] theorem eventOn_fd {v d r : Nat} {b : Bool} : (s.eventOn v d r b).fd = s.fd :=
  (State.eventOn_kept trivial trivial trivial (Kept.refl Mask.onlyRegsOutHost s)).fd.resolve_left id
@[simp] theorem eventOn_cnt {v d r : Nat} {b : Bool} : (s.eventOn v d r b).cnt = s.cnt :=
  (State.eventOn_kept trivial trivial trivial (Kept.refl Mask.onlyRegsOutHost s)).cnt.resolve_left id
@[simp] theorem eventOn_brg {v d r : Nat} {b : Bool} : (s.eventOn v d r b).brg = s.brg :=
  (State.eventOn_kept trivial trivial trivial (Kept.refl Mask.onlyRegsOutHost s)).brg.resolve_left id
@[simp] theorem eventOn_buf {v d r : Nat} {b : Bool} : (s.eventOn v d r b).buf = s.buf :=
  (State.eventOn_kept trivial trivial trivial (Kept.refl Mask.onlyRegsOutHost s)).buf.resolve_left id
@[simp] theorem eventOn_lif {v d r : Nat} {b : Bool} : (s.eventOn v d r b).lif = s.lif :=
  (State.eventOn_kept trivial trivial trivial (Kept.refl Mask.onlyRegsOutHost s)).lif.resolve_left id
@[simp] theorem eventOn_mem {v d r : Nat} {b : Bool} : (s.eventOn v d r b).mem = s.mem :=
  (State.eventOn_kept trivial trivial trivial (Kept.refl Mask.onlyRegsOutHost s)).mem.resolve_left id
@[simp] theorem eventOn_fab {v d r : Nat} {b : Bool} : (s.eventOn v d r b).fab = s.fab :=
  (State.eventOn_kept trivial trivial trivial (Kept.refl Mask.onlyRegsOutHost s)).fab.resolve_left id

/-! ### event -/

@[simp] theorem event_pending {v r : Nat} : (s.event v r).pending = s.pending :=
  (State.event_kept trivial trivial trivial (Kept.refl Mask.onlyRegsOutHost s)).pending
@[simp] theorem event_time {v r : Nat} : (s.event v r).time = s.time :=
  (State.event_kept trivial trivial trivial (Kept.refl Mask.onlyRegsOutHost s)).time.resolve_left id
@[simp] theorem event_clk {v r : Nat} : (s.event v r).clk = s.clk :=
  (State.event_kept trivial trivial trivial (Kept.refl Mask.onlyRegsOutHost s)).clk.resolve_left id
@[simp] theorem event_sched {v r : Nat} : (s.event v r).sched = s.sched :=
  (State.event_kept trivial trivial trivial (Kept.refl Mask.onlyRegsOutHost s)).sched.resolve_left id
@[simp] theorem event_svc {v r : Nat} : (s.event v r).svc = s.svc :=
  (State.event_kept trivial trivial trivial (Kept.refl Mask.onlyRegsOutHost s)).svc.resolve_left id
@[simp] theorem event_fw {v r : Nat} : (s.event v r).fw = s.fw :=
  (State.event_kept trivial trivial trivial (Kept.refl Mask.onlyRegsOutHost s)).fw.resolve_left id
@[simp] theorem event_flash {v r : Nat} : (s.event v r).flash = s.flash :=
  (State.event_kept trivial trivial trivial (Kept.refl Mask.onlyRegsOutHost s)).flash.resolve_left id
@[simp] theorem event_recipe {v r : Nat} : (s.event v r).recipe = s.recipe :=
  (State.event_kept trivial trivial trivial (Kept.refl Mask.onlyRegsOutHost s)).recipe.resolve_left id
@[simp] theorem event_tab {v r : Nat} : (s.event v r).tab = s.tab :=
  (State.event_kept trivial trivial trivial (Kept.refl Mask.onlyRegsOutHost s)).tab.resolve_left id
@[simp] theorem event_txf {v r : Nat} : (s.event v r).txf = s.txf :=
  (State.event_kept trivial trivial trivial (Kept.refl Mask.onlyRegsOutHost s)).txf.resolve_left id
@[simp] theorem event_txns {v r : Nat} : (s.event v r).txns = s.txns :=
  (State.event_kept trivial trivial trivial (Kept.refl Mask.onlyRegsOutHost s)).txns.resolve_left id
@[simp] theorem event_fd {v r : Nat} : (s.event v r).fd = s.fd :=
  (State.event_kept trivial trivial trivial (Kept.refl Mask.onlyRegsOutHost s)).fd.resolve_left id
@[simp] theorem event_cnt {v r : Nat} : (s.event v r).cnt = s.cnt :=
  (State.event_kept trivial trivial trivial (Kept.refl Mask.onlyRegsOutHost s)).cnt.resolve_left id
@[simp] theorem event_brg {v r : Nat} : (s.event v r).brg = s.brg :=
  (State.event_kept trivial trivial trivial (Kept.refl Mask.onlyRegsOutHost s)).brg.resolve_left id
@[simp] theorem event_buf {v r : Nat} : (s.event v r).buf = s.buf :=
  (State.event_kept trivial trivial trivial (Kept.refl Mask.onlyRegsOutHost s)).buf.resolve_left id
@[simp] theorem event_lif {v r : Nat} : (s.event v r).lif = s.lif :=
  (State.event_kept trivial trivial trivial (Kept.refl Mask.onlyRegsOutHost s)).lif.resolve_left id
@[simp] theorem event_mem {v r : Nat} : (s.event v r).mem = s.mem :=
  (State.event_kept trivial trivial trivial (Kept.refl Mask.onlyRegsOutHost s)).mem.resolve_left id
@[simp] theorem event_fab {v r : Nat} : (s.event v r).fab = s.fab :=
  (State.event_kept trivial trivial trivial (Kept.refl Mask.onlyRegsOutHost s)).fab.resolve_left id

/-! ### lateErrAs -/

@[simp] theorem lateErrAs_pending {q f b a r : Nat} {i : Bool} {m : Option Nat} : (s.lateErrAs q f b a r i m).pending = s.pending :=
  (State.lateErrAs_kept trivial trivial trivial (Kept.refl Mask.onlyRegsOutHost s)).pending
@[simp] theorem lateErrAs_time {q f b a r : Nat} {i : Bool} {m : Option Nat} : (s.lateErrAs q f b a r i m).time = s.time :=
  (State.lateErrAs_kept trivial trivial trivial (Kept.refl Mask.onlyRegsOutHost s)).time.resolve_left id
@[simp] theorem lateErrAs_clk {q f b a r : Nat} {i : Bool} {m : Option Nat} : (s.lateErrAs q f b a r i m).clk = s.clk :=
  (State.lateErrAs_kept trivial trivial trivial (Kept.refl Mask.onlyRegsOutHost s)).clk.resolve_left id
@[simp] theorem lateErrAs_sched {q f b a r : Nat} {i : Bool} {m : Option Nat} : (s.lateErrAs q f b a r i m).sched = s.sched :=
  (State.lateErrAs_kept trivial trivial trivial (Kept.refl Mask.onlyRegsOutHost s)).sched.resolve_left id
@[simp] theorem lateErrAs_svc {q f b a r : Nat} {i : Bool} {m : Option Nat} : (s.lateErrAs q f b a r i m).svc = s.svc :=
  (State.lateErrAs_kept trivial trivial trivial (Kept.refl Mask.onlyRegsOutHost s)).svc.resolve_left id
@[simp] theorem lateErrAs_fw {q f b a r : Nat} {i : Bool} {m : Option Nat} : (s.lateErrAs q f b a r i m).fw = s.fw :=
  (State.lateErrAs_kept trivial trivial trivial (Kept.refl Mask.onlyRegsOutHost s)).fw.resolve_left id
@[simp] theorem lateErrAs_flash {q f b a r : Nat} {i : Bool} {m : Option Nat} : (s.lateErrAs q f b a r i m).flash = s.flash :=
  (State.lateErrAs_kept trivial trivial trivial (Kept.refl Mask.onlyRegsOutHost s)).flash.resolve_left id
@[simp] theorem lateErrAs_recipe {q f b a r : Nat} {i : Bool} {m : Option Nat} : (s.lateErrAs q f b a r i m).recipe = s.recipe :=
  (State.lateErrAs_kept trivial trivial trivial (Kept.refl Mask.onlyRegsOutHost s)).recipe.resolve_left id
@[simp] theorem lateErrAs_tab {q f b a r : Nat} {i : Bool} {m : Option Nat} : (s.lateErrAs q f b a r i m).tab = s.tab :=
  (State.lateErrAs_kept trivial trivial trivial (Kept.refl Mask.onlyRegsOutHost s)).tab.resolve_left id
@[simp] theorem lateErrAs_txf {q f b a r : Nat} {i : Bool} {m : Option Nat} : (s.lateErrAs q f b a r i m).txf = s.txf :=
  (State.lateErrAs_kept trivial trivial trivial (Kept.refl Mask.onlyRegsOutHost s)).txf.resolve_left id
@[simp] theorem lateErrAs_txns {q f b a r : Nat} {i : Bool} {m : Option Nat} : (s.lateErrAs q f b a r i m).txns = s.txns :=
  (State.lateErrAs_kept trivial trivial trivial (Kept.refl Mask.onlyRegsOutHost s)).txns.resolve_left id
@[simp] theorem lateErrAs_fd {q f b a r : Nat} {i : Bool} {m : Option Nat} : (s.lateErrAs q f b a r i m).fd = s.fd :=
  (State.lateErrAs_kept trivial trivial trivial (Kept.refl Mask.onlyRegsOutHost s)).fd.resolve_left id
@[simp] theorem lateErrAs_cnt {q f b a r : Nat} {i : Bool} {m : Option Nat} : (s.lateErrAs q f b a r i m).cnt = s.cnt :=
  (State.lateErrAs_kept trivial trivial trivial (Kept.refl Mask.onlyRegsOutHost s)).cnt.resolve_left id
@[simp] theorem lateErrAs_brg {q f b a r : Nat} {i : Bool} {m : Option Nat} : (s.lateErrAs q f b a r i m).brg = s.brg :=
  (State.lateErrAs_kept trivial trivial trivial (Kept.refl Mask.onlyRegsOutHost s)).brg.resolve_left id
@[simp] theorem lateErrAs_buf {q f b a r : Nat} {i : Bool} {m : Option Nat} : (s.lateErrAs q f b a r i m).buf = s.buf :=
  (State.lateErrAs_kept trivial trivial trivial (Kept.refl Mask.onlyRegsOutHost s)).buf.resolve_left id
@[simp] theorem lateErrAs_lif {q f b a r : Nat} {i : Bool} {m : Option Nat} : (s.lateErrAs q f b a r i m).lif = s.lif :=
  (State.lateErrAs_kept trivial trivial trivial (Kept.refl Mask.onlyRegsOutHost s)).lif.resolve_left id
@[simp] theorem lateErrAs_mem {q f b a r : Nat} {i : Bool} {m : Option Nat} : (s.lateErrAs q f b a r i m).mem = s.mem :=
  (State.lateErrAs_kept trivial trivial trivial (Kept.refl Mask.onlyRegsOutHost s)).mem.resolve_left id
@[simp] theorem lateErrAs_fab {q f b a r : Nat} {i : Bool} {m : Option Nat} : (s.lateErrAs q f b a r i m).fab = s.fab :=
  (State.lateErrAs_kept trivial trivial trivial (Kept.refl Mask.onlyRegsOutHost s)).fab.resolve_left id

/-! ### lateErr -/

@[simp] theorem lateErr_pending {f b a r : Nat} {i : Bool} : (s.lateErr f b a r i).pending = s.pending :=
  (State.lateErr_kept trivial trivial trivial (Kept.refl Mask.onlyRegsOutHost s)).pending
@[simp] theorem lateErr_time {f b a r : Nat} {i : Bool} : (s.lateErr f b a r i).time = s.time :=
  (State.lateErr_kept trivial trivial trivial (Kept.refl Mask.onlyRegsOutHost s)).time.resolve_left id
@[simp] theorem lateErr_clk {f b a r : Nat} {i : Bool} : (s.lateErr f b a r i).clk = s.clk :=
  (State.lateErr_kept trivial trivial trivial (Kept.refl Mask.onlyRegsOutHost s)).clk.resolve_left id
@[simp] theorem lateErr_sched {f b a r : Nat} {i : Bool} : (s.lateErr f b a r i).sched = s.sched :=
  (State.lateErr_kept trivial trivial trivial (Kept.refl Mask.onlyRegsOutHost s)).sched.resolve_left id
@[simp] theorem lateErr_svc {f b a r : Nat} {i : Bool} : (s.lateErr f b a r i).svc = s.svc :=
  (State.lateErr_kept trivial trivial trivial (Kept.refl Mask.onlyRegsOutHost s)).svc.resolve_left id
@[simp] theorem lateErr_fw {f b a r : Nat} {i : Bool} : (s.lateErr f b a r i).fw = s.fw :=
  (State.lateErr_kept trivial trivial trivial (Kept.refl Mask.onlyRegsOutHost s)).fw.resolve_left id
@[simp] theorem lateErr_flash {f b a r : Nat} {i : Bool} : (s.lateErr f b a r i).flash = s.flash :=
  (State.lateErr_kept trivial trivial trivial (Kept.refl Mask.onlyRegsOutHost s)).flash.resolve_left id
@[simp] theorem lateErr_recipe {f b a r : Nat} {i : Bool} : (s.lateErr f b a r i).recipe = s.recipe :=
  (State.lateErr_kept trivial trivial trivial (Kept.refl Mask.onlyRegsOutHost s)).recipe.resolve_left id
@[simp] theorem lateErr_tab {f b a r : Nat} {i : Bool} : (s.lateErr f b a r i).tab = s.tab :=
  (State.lateErr_kept trivial trivial trivial (Kept.refl Mask.onlyRegsOutHost s)).tab.resolve_left id
@[simp] theorem lateErr_txf {f b a r : Nat} {i : Bool} : (s.lateErr f b a r i).txf = s.txf :=
  (State.lateErr_kept trivial trivial trivial (Kept.refl Mask.onlyRegsOutHost s)).txf.resolve_left id
@[simp] theorem lateErr_txns {f b a r : Nat} {i : Bool} : (s.lateErr f b a r i).txns = s.txns :=
  (State.lateErr_kept trivial trivial trivial (Kept.refl Mask.onlyRegsOutHost s)).txns.resolve_left id
@[simp] theorem lateErr_fd {f b a r : Nat} {i : Bool} : (s.lateErr f b a r i).fd = s.fd :=
  (State.lateErr_kept trivial trivial trivial (Kept.refl Mask.onlyRegsOutHost s)).fd.resolve_left id
@[simp] theorem lateErr_cnt {f b a r : Nat} {i : Bool} : (s.lateErr f b a r i).cnt = s.cnt :=
  (State.lateErr_kept trivial trivial trivial (Kept.refl Mask.onlyRegsOutHost s)).cnt.resolve_left id
@[simp] theorem lateErr_brg {f b a r : Nat} {i : Bool} : (s.lateErr f b a r i).brg = s.brg :=
  (State.lateErr_kept trivial trivial trivial (Kept.refl Mask.onlyRegsOutHost s)).brg.resolve_left id
@[simp] theorem lateErr_buf {f b a r : Nat} {i : Bool} : (s.lateErr f b a r i).buf = s.buf :=
  (State.lateErr_kept trivial trivial trivial (Kept.refl Mask.onlyRegsOutHost s)).buf.resolve_left id
@[simp] theorem lateErr_lif {f b a r : Nat} {i : Bool} : (s.lateErr f b a r i).lif = s.lif :=
  (State.lateErr_kept trivial trivial trivial (Kept.refl Mask.onlyRegsOutHost s)).lif.resolve_left id
@[simp] theorem lateErr_mem {f b a r : Nat} {i : Bool} : (s.lateErr f b a r i).mem = s.mem :=
  (State.lateErr_kept trivial trivial trivial (Kept.refl Mask.onlyRegsOutHost s)).mem.resolve_left id
@[simp] theorem lateErr_fab {f b a r : Nat} {i : Bool} : (s.lateErr f b a r i).fab = s.fab :=
  (State.lateErr_kept trivial trivial trivial (Kept.refl Mask.onlyRegsOutHost s)).fab.resolve_left id

/-! ### sendCtl -/

@[simp] theorem sendCtl_pending {d u : Nat} {b : List Byte} : (s.sendCtl d u b).pending = s.pending := rfl
@[simp] theorem sendCtl_regs {d u : Nat} {b : List Byte} : (s.sendCtl d u b).regs = s.regs := rfl
@[simp] theorem sendCtl_out {d u : Nat} {b : List Byte} : (s.sendCtl d u b).out = s.out := rfl
@[simp] theorem sendCtl_freeCtr {d u : Nat} {b : List Byte} : (s.sendCtl d u b).freeCtr = s.freeCtr := rfl
@[simp] theorem sendCtl_time {d u : Nat} {b : List Byte} : (s.sendCtl d u b).time = s.time := rfl
@[simp] theorem sendCtl_clk {d u : Nat} {b : List Byte} : (s.sendCtl d u b).clk = s.clk := rfl
@[simp] theorem sendCtl_sched {d u : Nat} {b : List Byte} : (s.sendCtl d u b).sched = s.sched := rfl
@[simp] theorem sendCtl_host {d u : Nat} {b : List Byte} : (s.sendCtl d u b).host = s.host := rfl
@[simp] theorem sendCtl_svc {d u : Nat} {b : List Byte} : (s.sendCtl d u b).svc = s.svc := rfl
@[simp] theorem sendCtl_fw {d u : Nat} {b : List Byte} : (s.sendCtl d u b).fw = s.fw := rfl
@[simp] theorem sendCtl_flash {d u : Nat} {b : List Byte} : (s.sendCtl d u b).flash = s.flash := rfl
@[simp] theorem sendCtl_recipe {d u : Nat} {b : List Byte} : (s.sendCtl d u b).recipe = s.recipe := rfl
@[simp] theorem sendCtl_tab {d u : Nat} {b : List Byte} : (s.sendCtl d u b).tab = s.tab := rfl
@[simp] theorem sendCtl_txf {d u : Nat} {b : List Byte} : (s.sendCtl d u b).txf = s.txf := rfl
@[simp] theorem sendCtl_txns {d u : Nat} {b : List Byte} : (s.sendCtl d u b).txns = s.txns := rfl
@[simp] theorem sendCtl_fd {d u : Nat} {b : List Byte} : (s.sendCtl d u b).fd = s.fd := rfl
@[simp] theorem sendCtl_cnt {d u : Nat} {b : List Byte} : (s.sendCtl d u b).cnt = s.cnt := rfl
@[simp] theorem sendCtl_brg {d u : Nat} {b : List Byte} : (s.sendCtl d u b).brg = s.brg := rfl
@[simp] theorem sendCtl_buf {d u : Nat} {b : List Byte} : (s.sendCtl d u b).buf = s.buf := rfl
@[simp] theorem sendCtl_lif {d u : Nat} {b : List Byte} : (s.sendCtl d u b).lif = s.lif := rfl
@[simp] theorem sendCtl_mem {d u : Nat} {b : List Byte} : (s.sendCtl d u b).mem = s.mem := rfl

/-! ### completeWith -/

@[simp] theorem completeWith_pending {c : Cmd} {t d : Nat} {n : Option Nat} : (s.completeWith c t d n).pending = s.pending :=
  (State.completeWith_kept trivial trivial trivial (Kept.refl Mask.onlyRegsHostFab s)).pending
@[simp] theorem completeWith_out {c : Cmd} {t d : Nat} {n : Option Nat} : (s.completeWith c t d n).out = s.out :=
  (State.completeWith_kept trivial trivial trivial (Kept.refl Mask.onlyRegsHostFab s)).out.resolve_left id
@[simp] theorem completeWith_time {c : Cmd} {t d : Nat} {n : Option Nat} : (s.completeWith c t d n).time = s.time :=
  (State.completeWith_kept trivial trivial trivial (Kept.refl Mask.onlyRegsHostFab s)).time.resolve_left id
@[simp] theorem completeWith_clk {c : Cmd} {t d : Nat} {n : Option Nat} : (s.completeWith c t d n).clk = s.clk :=
  (State.completeWith_kept trivial trivial trivial (Kept.refl Mask.onlyRegsHostFab s)).clk.resolve_left id
@[simp] theorem completeWith_sched {c : Cmd} {t d : Nat} {n : Option Nat} : (s.completeWith c t d n).sched = s.sched :=
  (State.completeWith_kept trivial trivial trivial (Kept.refl Mask.onlyRegsHostFab s)).sched.resolve_left id
@[simp] theorem completeWith_svc {c : Cmd} {t d : Nat} {n : Option Nat} : (s.completeWith c t d n).svc = s.svc :=
  (State.completeWith_kept trivial trivial trivial (Kept.refl Mask.onlyRegsHostFab s)).svc.resolve_left id
@[simp] theorem completeWith_fw {c : Cmd} {t d : Nat} {n : Option Nat} : (s.completeWith c t d n).fw = s.fw :=
  (State.completeWith_kept trivial trivial trivial (Kept.refl Mask.onlyRegsHostFab s)).fw.resolve_left id
@[simp] theorem completeWith_flash {c : Cmd} {t d : Nat} {n : Option Nat} : (s.completeWith c t d n).flash = s.flash :=
  (State.completeWith_kept trivial trivial trivial (Kept.refl Mask.onlyRegsHostFab s)).flash.resolve_left id
@[simp] theorem completeWith_recipe {c : Cmd} {t d : Nat} {n : Option Nat} : (s.completeWith c t d n).recipe = s.recipe :=
  (State.completeWith_kept trivial trivial trivial (Kept.refl Mask.onlyRegsHostFab s)).recipe.resolve_left id
@[simp] theorem completeWith_tab {c : Cmd} {t d : Nat} {n : Option Nat} : (s.completeWith c t d n).tab = s.tab :=
  (State.completeWith_kept trivial trivial trivial (Kept.refl Mask.onlyRegsHostFab s)).tab.resolve_left id
@[simp] theorem completeWith_txf {c : Cmd} {t d : Nat} {n : Option Nat} : (s.completeWith c t d n).txf = s.txf :=
  (State.completeWith_kept trivial trivial trivial (Kept.refl Mask.onlyRegsHostFab s)).txf.resolve_left id
@[simp] theorem completeWith_txns {c : Cmd} {t d : Nat} {n : Option Nat} : (s.completeWith c t d n).txns = s.txns :=
  (State.completeWith_kept trivial trivial trivial (Kept.refl Mask.onlyRegsHostFab s)).txns.resolve_left id
@[simp] theorem completeWith_fd {c : Cmd} {t d : Nat} {n : Option Nat} : (s.completeWith c t d n).fd = s.fd :=
  (State.completeWith_kept trivial trivial trivial (Kept.refl Mask.onlyRegsHostFab s)).fd.resolve_left id
@[simp] theorem completeWith_cnt {c : Cmd} {t d : Nat} {n : Option Nat} : (s.completeWith c t d n).cnt = s.cnt :=
  (State.completeWith_kept trivial trivial trivial (Kept.refl Mask.onlyRegsHostFab s)).cnt.resolve_left id
@[simp] theorem completeWith_brg {c : Cmd} {t d : Nat} {n : Option Nat} : (s.completeWith c t d n).brg = s.brg :=
  (State.completeWith_kept trivial trivial trivial (Kept.refl Mask.onlyRegsHostFab s)).brg.resolve_left id
@[simp] theorem completeWith_buf {c : Cmd} {t d : Nat} {n : Option Nat} : (s.completeWith c t d n).buf = s.buf :=
  (State.completeWith_kept trivial trivial trivial (Kept.refl Mask.onlyRegsHostFab s)).buf.resolve_left id
@[simp] theorem completeWith_lif {c : Cmd} {t d : Nat} {n : Option Nat} : (s.completeWith c t d n).lif = s.lif :=
  (State.completeWith_kept trivial trivial trivial (Kept.refl Mask.onlyRegsHostFab s)).lif.resolve_left id
@[simp] theorem completeWith_mem {c : Cmd} {t d : Nat} {n : Option Nat} : (s.completeWith c t d n).mem = s.mem :=
  (State.completeWith_kept trivial trivial trivial (Kept.refl Mask.onlyRegsHostFab s)).mem.resolve_left id

/-! ### complete -/

@[simp] theorem complete_pending {c : Cmd} {t : Nat} : (s.complete c t).pending = s.pending :=
  (State.complete_kept trivial trivial trivial (Kept.refl Mask.onlyRegsHostFab s)).pending
@[simp] theorem complete_out {c : Cmd} {t : Nat} : (s.complete c t).out = s.out :=
  (State.complete_kept trivial trivial trivial (Kept.refl Mask.onlyRegsHostFab s)).out.resolve_left id
@[simp] theorem complete_time {c : Cmd} {t : Nat} : (s.complete c t).time = s.time :=
  (State.complete_kept trivial trivial trivial (Kept.refl Mask.onlyRegsHostFab s)).time.resolve_left id
@[simp] theorem complete_clk {c : Cmd} {t : Nat} : (s.complete c t).clk = s.clk :=
  (State.complete_kept trivial trivial trivial (Kept.refl Mask.onlyRegsHostFab s)).clk.resolve_left id
@[simp] theorem complete_sched {c : Cmd} {t : Nat} : (s.complete c t).sched = s.sched :=
  (State.complete_kept trivial trivial trivial (Kept.refl Mask.onlyRegsHostFab s)).sched.resolve_left id
@[simp] theorem complete_svc {c : Cmd} {t : Nat} : (s.complete c t).svc = s.svc :=
  (State.complete_kept trivial trivial trivial (Kept.refl Mask.onlyRegsHostFab s)).svc.resolve_left id
@[simp] theorem complete_fw {c : Cmd} {t : Nat} : (s.complete c t).fw = s.fw :=
  (State.complete_kept trivial trivial trivial (Kept.refl Mask.onlyRegsHostFab s)).fw.resolve_left id
@[simp] theorem complete_flash {c : Cmd} {t : Nat} : (s.complete c t).flash = s.flash :=
  (State.complete_kept trivial trivial trivial (Kept.refl Mask.onlyRegsHostFab s)).flash.resolve_left id
@[simp] theorem complete_recipe {c : Cmd} {t : Nat} : (s.complete c t).recipe = s.recipe :=
  (State.complete_kept trivial trivial trivial (Kept.refl Mask.onlyRegsHostFab s)).recipe.resolve_left id
@[simp] theorem complete_tab {c : Cmd} {t : Nat} : (s.complete c t).tab = s.tab :=
  (State.complete_kept trivial trivial trivial (Kept.refl Mask.onlyRegsHostFab s)).tab.resolve_left id
@[simp] theorem complete_txf {c : Cmd} {t : Nat} : (s.complete c t).txf = s.txf :=
  (State.complete_kept trivial trivial trivial (Kept.refl Mask.onlyRegsHostFab s)).txf.resolve_left id
@[simp] theorem complete_txns {c : Cmd} {t : Nat} : (s.complete c t).txns = s.txns :=
  (State.complete_kept trivial trivial trivial (Kept.refl Mask.onlyRegsHostFab s)).txns.resolve_left id
@[simp] theorem complete_fd {c : Cmd} {t : Nat} : (s.complete c t).fd = s.fd :=
  (State.complete_kept trivial trivial trivial (Kept.refl Mask.onlyRegsHostFab s)).fd.resolve_left id
@[simp] theorem complete_cnt {c : Cmd} {t : Nat} : (s.complete c t).cnt = s.cnt :=
  (State.complete_kept trivial trivial trivial (Kept.refl Mask.onlyRegsHostFab s)).cnt.resolve_left id
@[simp] theorem complete_brg {c : Cmd} {t : Nat} : (s.complete c t).brg = s.brg :=
  (State.complete_kept trivial trivial trivial (Kept.refl Mask.onlyRegsHostFab s)).brg.resolve_left id
@[simp] theorem complete_buf {c : Cmd} {t : Nat} : (s.complete c t).buf = s.buf :=
  (State.complete_kept trivial trivial trivial (Kept.refl Mask.onlyRegsHostFab s)).buf.resolve_left id
@[simp] theorem complete_lif {c : Cmd} {t : Nat} : (s.complete c t).lif = s.lif :=
  (State.complete_kept trivial trivial trivial (Kept.refl Mask.onlyRegsHostFab s)).lif.resolve_left id
@[simp] theorem complete_mem {c : Cmd} {t : Nat} : (s.complete c t).mem = s.mem :=
  (State.complete_kept trivial trivial trivial (Kept.refl Mask.onlyRegsHostFab s)).mem.resolve_left id

/-! ### accepted -/

@[simp] theorem accepted_pending {c : Cmd} {t : Nat} : (s.accepted c t).pending = s.pending :=
  (State.accepted_kept trivial trivial trivial (Kept.refl Mask.onlyRegsHostFab s)).pending
@[simp] theorem accepted_out {c : Cmd} {t : Nat} : (s.accepted c t).out = s.out :=
  (State.accepted_kept trivial trivial trivial (Kept.refl Mask.onlyRegsHostFab s)).out.resolve_left id
@[simp] theorem accepted_time {c : Cmd} {t : Nat} : (s.accepted c t).time = s.time :=
  (State.accepted_kept trivial trivial trivial (Kept.refl Mask.onlyRegsHostFab s)).time.resolve_left id
@[simp] theorem accepted_clk {c : Cmd} {t : Nat} : (s.accepted c t).clk = s.clk :=
  (State.accepted_kept trivial trivial trivial (Kept.refl Mask.onlyRegsHostFab s)).clk.resolve_left id
@[simp] theorem accepted_sched {c : Cmd} {t : Nat} : (s.accepted c t).sched = s.sched :=
  (State.accepted_kept trivial trivial trivial (Kept.refl Mask.onlyRegsHostFab s)).sched.resolve_left id
@[simp] theorem accepted_svc {c : Cmd} {t : Nat} : (s.accepted c t).svc = s.svc :=
  (State.accepted_kept trivial trivial trivial (Kept.refl Mask.onlyRegsHostFab s)).svc.resolve_left id
@[simp] theorem accepted_fw {c : Cmd} {t : Nat} : (s.accepted c t).fw = s.fw :=
  (State.accepted_kept trivial trivial trivial (Kept.refl Mask.onlyRegsHostFab s)).fw.resolve_left id
@[simp] theorem accepted_flash {c : Cmd} {t : Nat} : (s.accepted c t).flash = s.flash :=
  (State.accepted_kept trivial trivial trivial (Kept.refl Mask.onlyRegsHostFab s)).flash.resolve_left id
@[simp] theorem accepted_recipe {c : Cmd} {t : Nat} : (s.accepted c t).recipe = s.recipe :=
  (State.accepted_kept trivial trivial trivial (Kept.refl Mask.onlyRegsHostFab s)).recipe.resolve_left id
@[simp] theorem accepted_tab {c : Cmd} {t : Nat} : (s.accepted c t).tab = s.tab :=
  (State.accepted_kept trivial trivial trivial (Kept.refl Mask.onlyRegsHostFab s)).tab.resolve_left id
@[simp] theorem accepted_txf {c : Cmd} {t : Nat} : (s.accepted c t).txf = s.txf :=
  (State.accepted_kept trivial trivial trivial (Kept.refl Mask.onlyRegsHostFab s)).txf.resolve_left id
@[simp] theorem accepted_txns {c : Cmd} {t : Nat} : (s.accepted c t).txns = s.txns :=
  (State.accepted_kept trivial trivial trivial (Kept.refl Mask.onlyRegsHostFab s)).txns.resolve_left id
@[simp] theorem accepted_fd {c : Cmd} {t : Nat} : (s.accepted c t).fd = s.fd :=
  (State.accepted_kept trivial trivial trivial (Kept.refl Mask.onlyRegsHostFab s)).fd.resolve_left id
@[simp] theorem accepted_cnt {c : Cmd} {t : Nat} : (s.accepted c t).cnt = s.cnt :=
  (State.accepted_kept trivial trivial trivial (Kept.refl Mask.onlyRegsHostFab s)).cnt.resolve_left id
@[simp] theorem accepted_brg {c : Cmd} {t : Nat} : (s.accepted c t).brg = s.brg :=
  (State.accepted_kept trivial trivial trivial (Kept.refl Mask.onlyRegsHostFab s)).brg.resolve_left id
@[simp] theorem accepted_buf {c : Cmd} {t : Nat} : (s.accepted c t).buf = s.buf :=
  (State.accepted_kept trivial trivial trivial (Kept.refl Mask.onlyRegsHostFab s)).buf.resolve_left id
@[simp] theorem accepted_lif {c : Cmd} {t : Nat} : (s.accepted c t).lif = s.lif :=
  (State.accepted_kept trivial trivial trivial (Kept.refl Mask.onlyRegsHostFab s)).lif.resolve_left id
@[simp] theorem accepted_mem {c : Cmd} {t : Nat} : (s.accepted c t).mem = s.mem :=
  (State.accepted_kept trivial trivial trivial (Kept.refl Mask.onlyRegsHostFab s)).mem.resolve_left id

/-! ### setLc -/

@[simp] theorem setLc_pending {a t : Nat} : (s.setLc a t).pending = s.pending :=
  (State.setLc_kept trivial trivial trivial (Kept.refl Mask.onlyRegsOutHost s)).pending
@[simp] theorem setLc_time {a t : Nat} : (s.setLc a t).time = s.time :=
  (State.setLc_kept trivial trivial trivial (Kept.refl Mask.onlyRegsOutHost s)).time.resolve_left id
@[simp] theorem setLc_clk {a t : Nat} : (s.setLc a t).clk = s.clk :=
  (State.setLc_kept trivial trivial trivial (Kept.refl Mask.onlyRegsOutHost s)).clk.resolve_left id
@[simp] theorem setLc_sched {a t : Nat} : (s.setLc a t).sched = s.sched :=
  (State.setLc_kept trivial trivial trivial (Kept.refl Mask.onlyRegsOutHost s)).sched.resolve_left id
@[simp] theorem setLc_svc {a t : Nat} : (s.setLc a t).svc = s.svc :=
  (State.setLc_kept trivial trivial trivial (Kept.refl Mask.onlyRegsOutHost s)).svc.resolve_left id
@[simp] theorem setLc_fw {a t : Nat} : (s.setLc a t).fw = s.fw :=
  (State.setLc_kept trivial trivial trivial (Kept.refl Mask.onlyRegsOutHost s)).fw.resolve_left id
@[simp] theorem setLc_flash {a t : Nat} : (s.setLc a t).flash = s.flash :=
  (State.setLc_kept trivial trivial trivial (Kept.refl Mask.onlyRegsOutHost s)).flash.resolve_left id
@[simp] theorem setLc_recipe {a t : Nat} : (s.setLc a t).recipe = s.recipe :=
  (State.setLc_kept trivial trivial trivial (Kept.refl Mask.onlyRegsOutHost s)).recipe.resolve_left id
@[simp] theorem setLc_tab {a t : Nat} : (s.setLc a t).tab = s.tab :=
  (State.setLc_kept trivial trivial trivial (Kept.refl Mask.onlyRegsOutHost s)).tab.resolve_left id
@[simp] theorem setLc_txf {a t : Nat} : (s.setLc a t).txf = s.txf :=
  (State.setLc_kept trivial trivial trivial (Kept.refl Mask.onlyRegsOutHost s)).txf.resolve_left id
@[simp] theorem setLc_txns {a t : Nat} : (s.setLc a t).txns = s.txns :=
  (State.setLc_kept trivial trivial trivial (Kept.refl Mask.onlyRegsOutHost s)).txns.resolve_left id
@[simp] theorem setLc_fd {a t : Nat} : (s.setLc a t).fd = s.fd :=
  (State.setLc_kept trivial trivial trivial (Kept.refl Mask.onlyRegsOutHost s)).fd.resolve_left id
@[simp] theorem setLc_cnt {a t : Nat} : (s.setLc a t).cnt = s.cnt :=
  (State.setLc_kept trivial trivial trivial (Kept.refl Mask.onlyRegsOutHost s)).cnt.resolve_left id
@[simp] theorem setLc_brg {a t : Nat} : (s.setLc a t).brg = s.brg :=
  (State.setLc_kept trivial trivial trivial (Kept.refl Mask.onlyRegsOutHost s)).brg.resolve_left id
@[simp] theorem setLc_buf {a t : Nat} : (s.setLc a t).buf = s.buf :=
  (State.setLc_kept trivial trivial trivial (Kept.refl Mask.onlyRegsOutHost s)).buf.resolve_left id
@[simp] theorem setLc_lif {a t : Nat} : (s.setLc a t).lif = s.lif :=
  (State.setLc_kept trivial trivial trivial (Kept.refl Mask.onlyRegsOutHost s)).lif.resolve_left id
@[simp] theorem setLc_mem {a t : Nat} : (s.setLc a t).mem = s.mem :=
  (State.setLc_kept trivial trivial trivial (Kept.refl Mask.onlyRegsOutHost s)).mem.resolve_left id
@[simp] theorem setLc_fab {a t : Nat} : (s.setLc a t).fab = s.fab :=
  (State.setLc_kept trivial trivial trivial (Kept.refl Mask.onlyRegsOutHost s)).fab.resolve_left id

/-! ### lcWrite -/

@[simp] theorem lcWrite_pending {a : Nat} {e d : Bool} : (s.lcWrite a e d).pending = s.pending :=
  (State.lcWrite_kept trivial trivial trivial (Kept.refl Mask.onlyRegsOutHost s)).pending
@[simp] theorem lcWrite_time {a : Nat} {e d : Bool} : (s.lcWrite a e d).time = s.time :=
  (State.lcWrite_kept trivial trivial trivial (Kept.refl Mask.onlyRegsOutHost s)).time.resolve_left id
@[simp] theorem lcWrite_clk {a : Nat} {e d : Bool} : (s.lcWrite a e d).clk = s.clk :=
  (State.lcWrite_kept trivial trivial trivial (Kept.refl Mask.onlyRegsOutHost s)).clk.resolve_left id
@[simp] theorem lcWrite_sched {a : Nat} {e d : Bool} : (s.lcWrite a e d).sched = s.sched :=
  (State.lcWrite_kept trivial trivial trivial (Kept.refl Mask.onlyRegsOutHost s)).sched.resolve_left id
@[simp] theorem lcWrite_svc {a : Nat} {e d : Bool} : (s.lcWrite a e d).svc = s.svc :=
  (State.lcWrite_kept trivial trivial trivial (Kept.refl Mask.onlyRegsOutHost s)).svc.resolve_left id
@[simp] theorem lcWrite_fw {a : Nat} {e d : Bool} : (s.lcWrite a e d).fw = s.fw :=
  (State.lcWrite_kept trivial trivial trivial (Kept.refl Mask.onlyRegsOutHost s)).fw.resolve_left id
@[simp] theorem lcWrite_flash {a : Nat} {e d : Bool} : (s.lcWrite a e d).flash = s.flash :=
  (State.lcWrite_kept trivial trivial trivial (Kept.refl Mask.onlyRegsOutHost s)).flash.resolve_left id
@[simp] theorem lcWrite_recipe {a : Nat} {e d : Bool} : (s.lcWrite a e d).recipe = s.recipe :=
  (State.lcWrite_kept trivial trivial trivial (Kept.refl Mask.onlyRegsOutHost s)).recipe.resolve_left id
@[simp] theorem lcWrite_tab {a : Nat} {e d : Bool} : (s.lcWrite a e d).tab = s.tab :=
  (State.lcWrite_kept trivial trivial trivial (Kept.refl Mask.onlyRegsOutHost s)).tab.resolve_left id
@[simp] theorem lcWrite_txf {a : Nat} {e d : Bool} : (s.lcWrite a e d).txf = s.txf :=
  (State.lcWrite_kept trivial trivial trivial (Kept.refl Mask.onlyRegsOutHost s)).txf.resolve_left id
@[simp] theorem lcWrite_txns {a : Nat} {e d : Bool} : (s.lcWrite a e d).txns = s.txns :=
  (State.lcWrite_kept trivial trivial trivial (Kept.refl Mask.onlyRegsOutHost s)).txns.resolve_left id
@[simp] theorem lcWrite_fd {a : Nat} {e d : Bool} : (s.lcWrite a e d).fd = s.fd :=
  (State.lcWrite_kept trivial trivial trivial (Kept.refl Mask.onlyRegsOutHost s)).fd.resolve_left id
@[simp] theorem lcWrite_cnt {a : Nat} {e d : Bool} : (s.lcWrite a e d).cnt = s.cnt :=
  (State.lcWrite_kept trivial trivial trivial (Kept.refl Mask.onlyRegsOutHost s)).cnt.resolve_left id
@[simp] theorem lcWrite_brg {a : Nat} {e d : Bool} : (s.lcWrite a e d).brg = s.brg :=
  (State.lcWrite_kept trivial trivial trivial (Kept.refl Mask.onlyRegsOutHost s)).brg.resolve_left id
@[simp] theorem lcWrite_buf {a : Nat} {e d : Bool} : (s.lcWrite a e d).buf = s.buf :=
  (State.lcWrite_kept trivial trivial trivial (Kept.refl Mask.onlyRegsOutHost s)).buf.resolve_left id
@[simp] theorem lcWrite_lif {a : Nat} {e d : Bool} : (s.lcWrite a e d).lif = s.lif :=
  (State.lcWrite_kept trivial trivial trivial (Kept.refl Mask.onlyRegsOutHost s)).lif.resolve_left id
@[simp] theorem lcWrite_mem {a : Nat} {e d : Bool} : (s.lcWrite a e d).mem = s.mem :=
  (State.lcWrite_kept trivial trivial trivial (Kept.refl Mask.onlyRegsOutHost s)).mem.resolve_left id
@[simp] theorem lcWrite_fab {a : Nat} {e d : Bool} : (s.lcWrite a e d).fab = s.fab :=
  (State.lcWrite_kept trivial trivial trivial (Kept.refl Mask.onlyRegsOutHost s)).fab.resolve_left id

/-! ### lcEndDrain -/

@[simp] theorem lcEndDrain_pending {a : Nat} : (s.lcEndDrain a).pending = s.pending :=
  (State.lcEndDrain_kept trivial trivial trivial (Kept.refl Mask.onlyRegsOutHost s)).pending
@[simp] theorem lcEndDrain_time {a : Nat} : (s.lcEndDrain a).time = s.time :=
  (State.lcEndDrain_kept trivial trivial trivial (Kept.refl Mask.onlyRegsOutHost s)).time.resolve_left id
@[simp] theorem lcEndDrain_clk {a : Nat} : (s.lcEndDrain a).clk = s.clk :=
  (State.lcEndDrain_kept trivial trivial trivial (Kept.refl Mask.onlyRegsOutHost s)).clk.resolve_left id
@[simp] theorem lcEndDrain_sched {a : Nat} : (s.lcEndDrain a).sched = s.sched :=
  (State.lcEndDrain_kept trivial trivial trivial (Kept.refl Mask.onlyRegsOutHost s)).sched.resolve_left id
@[simp] theorem lcEndDrain_svc {a : Nat} : (s.lcEndDrain a).svc = s.svc :=
  (State.lcEndDrain_kept trivial trivial trivial (Kept.refl Mask.onlyRegsOutHost s)).svc.resolve_left id
@[simp] theorem lcEndDrain_fw {a : Nat} : (s.lcEndDrain a).fw = s.fw :=
  (State.lcEndDrain_kept trivial trivial trivial (Kept.refl Mask.onlyRegsOutHost s)).fw.resolve_left id
@[simp] theorem lcEndDrain_flash {a : Nat} : (s.lcEndDrain a).flash = s.flash :=
  (State.lcEndDrain_kept trivial trivial trivial (Kept.refl Mask.onlyRegsOutHost s)).flash.resolve_left id
@[simp] theorem lcEndDrain_recipe {a : Nat} : (s.lcEndDrain a).recipe = s.recipe :=
  (State.lcEndDrain_kept trivial trivial trivial (Kept.refl Mask.onlyRegsOutHost s)).recipe.resolve_left id
@[simp] theorem lcEndDrain_tab {a : Nat} : (s.lcEndDrain a).tab = s.tab :=
  (State.lcEndDrain_kept trivial trivial trivial (Kept.refl Mask.onlyRegsOutHost s)).tab.resolve_left id
@[simp] theorem lcEndDrain_txf {a : Nat} : (s.lcEndDrain a).txf = s.txf :=
  (State.lcEndDrain_kept trivial trivial trivial (Kept.refl Mask.onlyRegsOutHost s)).txf.resolve_left id
@[simp] theorem lcEndDrain_txns {a : Nat} : (s.lcEndDrain a).txns = s.txns :=
  (State.lcEndDrain_kept trivial trivial trivial (Kept.refl Mask.onlyRegsOutHost s)).txns.resolve_left id
@[simp] theorem lcEndDrain_fd {a : Nat} : (s.lcEndDrain a).fd = s.fd :=
  (State.lcEndDrain_kept trivial trivial trivial (Kept.refl Mask.onlyRegsOutHost s)).fd.resolve_left id
@[simp] theorem lcEndDrain_cnt {a : Nat} : (s.lcEndDrain a).cnt = s.cnt :=
  (State.lcEndDrain_kept trivial trivial trivial (Kept.refl Mask.onlyRegsOutHost s)).cnt.resolve_left id
@[simp] theorem lcEndDrain_brg {a : Nat} : (s.lcEndDrain a).brg = s.brg :=
  (State.lcEndDrain_kept trivial trivial trivial (Kept.refl Mask.onlyRegsOutHost s)).brg.resolve_left id
@[simp] theorem lcEndDrain_buf {a : Nat} : (s.lcEndDrain a).buf = s.buf :=
  (State.lcEndDrain_kept trivial trivial trivial (Kept.refl Mask.onlyRegsOutHost s)).buf.resolve_left id
@[simp] theorem lcEndDrain_lif {a : Nat} : (s.lcEndDrain a).lif = s.lif :=
  (State.lcEndDrain_kept trivial trivial trivial (Kept.refl Mask.onlyRegsOutHost s)).lif.resolve_left id
@[simp] theorem lcEndDrain_mem {a : Nat} : (s.lcEndDrain a).mem = s.mem :=
  (State.lcEndDrain_kept trivial trivial trivial (Kept.refl Mask.onlyRegsOutHost s)).mem.resolve_left id
@[simp] theorem lcEndDrain_fab {a : Nat} : (s.lcEndDrain a).fab = s.fab :=
  (State.lcEndDrain_kept trivial trivial trivial (Kept.refl Mask.onlyRegsOutHost s)).fab.resolve_left id

/-! ### mergeReg -/

@[simp] theorem mergeReg_pending {a v b : Nat} : (s.mergeReg a v b).pending = s.pending :=
  (State.mergeReg_kept trivial (Kept.refl Mask.onlyRegs s)).pending
@[simp] theorem mergeReg_out {a v b : Nat} : (s.mergeReg a v b).out = s.out :=
  (State.mergeReg_kept trivial (Kept.refl Mask.onlyRegs s)).out.resolve_left id
@[simp] theorem mergeReg_time {a v b : Nat} : (s.mergeReg a v b).time = s.time :=
  (State.mergeReg_kept trivial (Kept.refl Mask.onlyRegs s)).time.resolve_left id
@[simp] theorem mergeReg_clk {a v b : Nat} : (s.mergeReg a v b).clk = s.clk :=
  (State.mergeReg_kept trivial (Kept.refl Mask.onlyRegs s)).clk.resolve_left id
@[simp] theorem mergeReg_sched {a v b : Nat} : (s.mergeReg a v b).sched = s.sched :=
  (State.mergeReg_kept trivial (Kept.refl Mask.onlyRegs s)).sched.resolve_left id
@[simp] theorem mergeReg_host {a v b : Nat} : (s.mergeReg a v b).host = s.host :=
  (State.mergeReg_kept trivial (Kept.refl Mask.onlyRegs s)).host.resolve_left id
@[simp] theorem mergeReg_svc {a v b : Nat} : (s.mergeReg a v b).svc = s.svc :=
  (State.mergeReg_kept trivial (Kept.refl Mask.onlyRegs s)).svc.resolve_left id
@[simp] theorem mergeReg_fw {a v b : Nat} : (s.mergeReg a v b).fw = s.fw :=
  (State.mergeReg_kept trivial (Kept.refl Mask.onlyRegs s)).fw.resolve_left id
@[simp] theorem mergeReg_flash {a v b : Nat} : (s.mergeReg a v b).flash = s.flash :=
  (State.mergeReg_kept trivial (Kept.refl Mask.onlyRegs s)).flash.resolve_left id
@[simp] theorem mergeReg_recipe {a v b : Nat} : (s.mergeReg a v b).recipe = s.recipe :=
  (State.mergeReg_kept trivial (Kept.refl Mask.onlyRegs s)).recipe.resolve_left id
@[simp] theorem mergeReg_tab {a v b : Nat} : (s.mergeReg a v b).tab = s.tab :=
  (State.mergeReg_kept trivial (Kept.refl Mask.onlyRegs s)).tab.resolve_left id
@[simp] theorem mergeReg_txf {a v b : Nat} : (s.mergeReg a v b).txf = s.txf :=
  (State.mergeReg_kept trivial (Kept.refl Mask.onlyRegs s)).txf.resolve_left id
@[simp] theorem mergeReg_txns {a v b : Nat} : (s.mergeReg a v b).txns = s.txns :=
  (State.mergeReg_kept trivial (Kept.refl Mask.onlyRegs s)).txns.resolve_left id
@[simp] theorem mergeReg_fd {a v b : Nat} : (s.mergeReg a v b).fd = s.fd :=
  (State.mergeReg_kept trivial (Kept.refl Mask.onlyRegs s)).fd.resolve_left id
@[simp] theorem mergeReg_cnt {a v b : Nat} : (s.mergeReg a v b).cnt = s.cnt :=
  (State.mergeReg_kept trivial (Kept.refl Mask.onlyRegs s)).cnt.resolve_left id
@[simp] theorem mergeReg_brg {a v b : Nat} : (s.mergeReg a v b).brg = s.brg :=
  (State.mergeReg_kept trivial (Kept.refl Mask.onlyRegs s)).brg.resolve_left id
@[simp] theorem mergeReg_buf {a v b : Nat} : (s.mergeReg a v b).buf = s.buf :=
  (State.mergeReg_kept trivial (Kept.refl Mask.onlyRegs s)).buf.resolve_left id
@[simp] theorem mergeReg_lif {a v b : Nat} : (s.mergeReg a v b).lif = s.lif :=
  (State.mergeReg_kept trivial (Kept.refl Mask.onlyRegs s)).lif.resolve_left id
@[simp] theorem mergeReg_mem {a v b : Nat} : (s.mergeReg a v b).mem = s.mem :=
  (State.mergeReg_kept trivial (Kept.refl Mask.onlyRegs s)).mem.resolve_left id
@[simp] theorem mergeReg_fab {a v b : Nat} : (s.mergeReg a v b).fab = s.fab :=
  (State.mergeReg_kept trivial (Kept.refl Mask.onlyRegs s)).fab.resolve_left id

/-! ### svcUpdate -/

@[simp] theorem svcUpdate_pending : (s.svcUpdate).pending = s.pending :=
  (State.svcUpdate_kept trivial trivial trivial (Kept.refl Mask.onlyRegsOutHost s)).pending
@[simp] theorem svcUpdate_time : (s.svcUpdate).time = s.time :=
  (State.svcUpdate_kept trivial trivial trivial (Kept.refl Mask.onlyRegsOutHost s)).time.resolve_left id
@[simp] theorem svcUpdate_clk : (s.svcUpdate).clk = s.clk :=
  (State.svcUpdate_kept trivial trivial trivial (Kept.refl Mask.onlyRegsOutHost s)).clk.resolve_left id
@[simp] theorem svcUpdate_sched : (s.svcUpdate).sched = s.sched :=
  (State.svcUpdate_kept trivial trivial trivial (Kept.refl Mask.onlyRegsOutHost s)).sched.resolve_left id
@[simp] theorem svcUpdate_svc : (s.svcUpdate).svc = s.svc :=
  (State.svcUpdate_kept trivial trivial trivial (Kept.refl Mask.onlyRegsOutHost s)).svc.resolve_left id
@[simp] theorem svcUpdate_fw : (s.svcUpdate).fw = s.fw :=
  (State.svcUpdate_kept trivial trivial trivial (Kept.refl Mask.onlyRegsOutHost s)).fw.resolve_left id
@[simp] theorem svcUpdate_flash : (s.svcUpdate).flash = s.flash :=
  (State.svcUpdate_kept trivial trivial trivial (Kept.refl Mask.onlyRegsOutHost s)).flash.resolve_left id
@[simp] theorem svcUpdate_recipe : (s.svcUpdate).recipe = s.recipe :=
  (State.svcUpdate_kept trivial trivial trivial (Kept.refl Mask.onlyRegsOutHost s)).recipe.resolve_left id
@[simp] theorem svcUpdate_tab : (s.svcUpdate).tab = s.tab :=
  (State.svcUpdate_kept trivial trivial trivial (Kept.refl Mask.onlyRegsOutHost s)).tab.resolve_left id
@[simp] theorem svcUpdate_txf : (s.svcUpdate).txf = s.txf :=
  (State.svcUpdate_kept trivial trivial trivial (Kept.refl Mask.onlyRegsOutHost s)).txf.resolve_left id
@[simp] theorem svcUpdate_txns : (s.svcUpdate).txns = s.txns :=
  (State.svcUpdate_kept trivial trivial trivial (Kept.refl Mask.onlyRegsOutHost s)).txns.resolve_left id
@[simp] theorem svcUpdate_fd : (s.svcUpdate).fd = s.fd :=
  (State.svcUpdate_kept trivial trivial trivial (Kept.refl Mask.onlyRegsOutHost s)).fd.resolve_left id
@[simp] theorem svcUpdate_cnt : (s.svcUpdate).cnt = s.cnt :=
  (State.svcUpdate_kept trivial trivial trivial (Kept.refl Mask.onlyRegsOutHost s)).cnt.resolve_left id
@[simp] theorem svcUpdate_brg : (s.svcUpdate).brg = s.brg :=
  (State.svcUpdate_kept trivial trivial trivial (Kept.refl Mask.onlyRegsOutHost s)).brg.resolve_left id
@[simp] theorem svcUpdate_buf : (s.svcUpdate).buf = s.buf :=
  (State.svcUpdate_kept trivial trivial trivial (Kept.refl Mask.onlyRegsOutHost s)).buf.resolve_left id
@[simp] theorem svcUpdate_lif : (s.svcUpdate).lif = s.lif :=
  (State.svcUpdate_kept trivial trivial trivial (Kept.refl Mask.onlyRegsOutHost s)).lif.resolve_left id
@[simp] theorem svcUpdate_mem : (s.svcUpdate).mem = s.mem :=
  (State.svcUpdate_kept trivial trivial trivial (Kept.refl Mask.onlyRegsOutHost s)).mem.resolve_left id
@[simp] theorem svcUpdate_fab : (s.svcUpdate).fab = s.fab :=
  (State.svcUpdate_kept trivial trivial trivial (Kept.refl Mask.onlyRegsOutHost s)).fab.resolve_left id

end Sys2Proof.Machine
end

