-- ==== Sys2Proof/Laws/Regs.lean ====
section
/-!
SUPPORT. Laws/Regs.lean: reads after writes, for sparse lists, for the fields of a word and for the registers: a read of what was
written gives it back, modulo the field's width, and a write leaves every other address and every other field alone.
-/

namespace Sys2Proof.Machine

/-- An entry put into a list without its key is found there, and every other key reads as before. -/
theorem mget_mins {α : Type} {l : Sparse α} {k k' : Nat} {v : α} (h : ∀ e ∈ l, e.1 ≠ k) :
    mget (mins l k v) k' = if k = k' then some v else mget l k' := by
  induction l with
  | nil => simp [mins, mget]
  | cons e t ih =>
    obtain ⟨j, w⟩ := e
    have hj : j ≠ k := h (j, w) (List.mem_cons_self ..)
    have ih := ih fun e he => h e (List.mem_cons_of_mem _ he)
    simp only [mins]
    split
    · simp [mget]
    · simp only [mget, ih]
      split <;> split <;> simp_all

theorem mget_mdel {α : Type} {l : Sparse α} {k k' : Nat} : mget (mdel l k) k' = if k = k' then none else mget l k' := by
  induction l with
  | nil => simp [mdel, mget]
  | cons e t ih =>
    obtain ⟨j, w⟩ := e
    simp only [mdel, List.filter_cons] at ih ⊢
    split
    · simp only [mget, ih]
      split <;> split <;> simp_all
    · rename_i h
      have hj : j = k := by simpa using h
      subst hj
      rw [ih]; simp only [mget]
      split <;> rfl

theorem mem_mdel {α : Type} {l : Sparse α} {k : Nat} {e : Nat × α} (h : e ∈ mdel l k) : e.1 ≠ k := by
  simpa [mdel] using (List.mem_filter.mp h).2

theorem mget_mput {α : Type} {l : Sparse α} {k k' : Nat} {v : α} :
    mget (mput l k v) k' = if k = k' then some v else mget l k' := by
  rw [mput, mget_mins fun e he => mem_mdel he, mget_mdel]
  split <;> simp_all

theorem sread_swrite {α : Type} [DecidableEq α] {d : Nat → α} {l : Sparse α} {k k' : Nat} {v : α} :
    sread d (swrite d l k v) k' = if k = k' then v else sread d l k' := by
  unfold sread swrite
  split
  · rename_i h
    rw [mget_mdel]; split
    · rename_i e; subst e; simp [h]
    · rfl
  · rw [mget_mput]; split <;> rfl

theorem testBit_wordGet {w : Word} {l n i : Nat} : (wordGet w l n).testBit i = (decide (i < n) && w.getLsbD (l + i)) := by
  simp [wordGet, Nat.testBit_mod_two_pow, Nat.testBit_shiftRight, BitVec.getLsbD]

theorem getLsbD_wordMask {l n i : Nat} : (wordMask l n).getLsbD i = (decide (i < 32) && (decide (l ≤ i) && decide (i < l + n))) := by
  simp only [wordMask, BitVec.getLsbD_ofNat, Nat.testBit_mul_two_pow, Nat.testBit_two_pow_sub_one]
  by_cases h1 : i < 32 <;> by_cases h2 : l ≤ i <;> simp [h1, h2]
  omega

theorem getLsbD_wordPut {w : Word} {l n v i : Nat} :
    (wordPut w l n v).getLsbD i = (decide (i < 32) && if l ≤ i ∧ i < l + n then v.testBit (i - l) else w.getLsbD i) := by
  simp only [wordPut, BitVec.getLsbD_or, BitVec.getLsbD_and, BitVec.getLsbD_not, getLsbD_wordMask, BitVec.getLsbD_ofNat,
    Nat.testBit_mul_two_pow]
  by_cases h1 : i < 32 <;> by_cases h2 : l ≤ i <;> by_cases h3 : i < l + n <;> simp [h1, h2, h3]

theorem wordGet_wordPut {w : Word} {l n v : Nat} (h : l + n ≤ 32) : wordGet (wordPut w l n v) l n = v % 2 ^ n := by
  refine Nat.eq_of_testBit_eq fun i => ?_
  rw [testBit_wordGet, getLsbD_wordPut, Nat.testBit_mod_two_pow]
  by_cases hi : i < n
  · have h1 : l + i < 32 := by omega
    have h2 : l + i < l + n := by omega
    simp [hi, h1]
  · simp [hi]

theorem wordGet_wordPut_disj {w : Word} {l n v l' n' : Nat} (h : l' + n' ≤ l ∨ l + n ≤ l') :
    wordGet (wordPut w l n v) l' n' = wordGet w l' n' := by
  refine Nat.eq_of_testBit_eq fun i => ?_
  rw [testBit_wordGet, testBit_wordGet, getLsbD_wordPut]
  by_cases hi : i < n'
  · by_cases h1 : l' + i < 32
    · have h2 : ¬ (l ≤ l' + i ∧ l' + i < l + n) := by omega
      simp [hi, h1, h2]
    · have : w.getLsbD (l' + i) = false := BitVec.getLsbD_of_ge _ _ (by omega)
      simp [hi, h1, this]
  · simp [hi]
theorem wordGet_lt {w : Word} {l n : Nat} : wordGet w l n < 2 ^ n := Nat.mod_lt _ (Nat.two_pow_pos n)

/-! ### Registers and fields -/

@[simp] theorem rdWord_wrWord {s : State} {a b : Nat} {w : Word} :
    (s.wrWord a w).rdWord b = if a = b then w else s.rdWord b := sread_swrite

theorem rdWord_wr {s : State} {f : Fld} {v b : Nat} :
    (s.wr f v).rdWord b = if f.addr = b then wordPut (s.rdWord b) f.lsb f.width v else s.rdWord b := by
  unfold State.wr; rw [rdWord_wrWord]; split
  · rename_i h; subst h; rfl
  · rfl

theorem rdWord_wr_ne {s : State} {f : Fld} {v b : Nat} (h : f.addr ≠ b) : (s.wr f v).rdWord b = s.rdWord b := by
  rw [rdWord_wr, if_neg h]

/-- A field reads back what was written to it. -/
theorem rd_wr {s : State} {f : Fld} {v : Nat} (h : f.lsb + f.width ≤ 32) : (s.wr f v).rd f = v % 2 ^ f.width := by
  unfold State.rd; rw [rdWord_wr, if_pos rfl, wordGet_wordPut h]

/-- Whether two fields share no bit. -/
abbrev Fld.apart (f g : Fld) : Prop := f.addr ≠ g.addr ∨ f.lsb + f.width ≤ g.lsb ∨ g.lsb + g.width ≤ f.lsb

/-- A field reads as before after a write to a field that shares no bit with it. -/
theorem rd_wr_apart {s : State} {f g : Fld} {v : Nat} (h : f.apart g) : (s.wr f v).rd g = s.rd g := by
  unfold State.rd
  rw [rdWord_wr]
  split
  · rename_i e
    rcases h with h | h | h
    · exact absurd e h
    · exact wordGet_wordPut_disj (.inr h)
    · exact wordGet_wordPut_disj (.inl h)
  · rfl

theorem rd_wrWord_ne {s : State} {f : Fld} {a : Nat} {w : Word} (h : a ≠ f.addr) : (s.wrWord a w).rd f = s.rd f := by
  unfold State.rd; rw [rdWord_wrWord, if_neg h]

theorem rd_wrWord {s : State} {f : Fld} {w : Word} : (s.wrWord f.addr w).rd f = wordGet w f.lsb f.width := by
  unfold State.rd; rw [rdWord_wrWord, if_pos rfl]

theorem rd_lt {s : State} {f : Fld} : s.rd f < 2 ^ f.width := wordGet_lt

/-! ### Compound writes -/

theorem on_eq {s : State} {f : Fld} : s.on f = (s.rd f == 1) := rfl

theorem rd_wrBit {s : State} {f : Fld} {b : Bool} (h : f.lsb + f.width ≤ 32) (hw : 0 < f.width) :
    (s.wrBit f b).rd f = bit01 b := by
  unfold State.wrBit
  rw [rd_wr h]
  have : 2 ≤ 2 ^ f.width := Nat.le_self_pow (by omega) 2
  have hb : bit01 b ≤ 1 := by cases b <;> decide
  exact Nat.mod_eq_of_lt (by omega)

theorem rd_count {s : State} {f : Fld} {n : Nat} (h : f.lsb + f.width ≤ 32) : (s.count f n).rd f = satAdd f.width (s.rd f) n := by
  unfold State.count
  rw [rd_wr h]
  have : 0 < 2 ^ f.width := Nat.two_pow_pos _
  exact Nat.mod_eq_of_lt (by unfold satAdd; omega)

/-- A saturating counter goes up by one until it is full. -/
theorem rd_bump {s : State} {f : Fld} (h : f.lsb + f.width ≤ 32) : (s.bump f).rd f = satAdd f.width (s.rd f) 1 := rd_count h

theorem rd_less {s : State} {f : Fld} {n : Nat} (h : f.lsb + f.width ≤ 32) : (s.less f n).rd f = s.rd f - n := by
  unfold State.less
  rw [rd_wr h]
  exact Nat.mod_eq_of_lt (Nat.lt_of_le_of_lt (Nat.sub_le ..) rd_lt)

theorem rd_wrBit_apart {s : State} {f g : Fld} {b : Bool} (h : f.apart g) : (s.wrBit f b).rd g = s.rd g := rd_wr_apart h
theorem rd_count_apart {s : State} {f g : Fld} {n : Nat} (h : f.apart g) : (s.count f n).rd g = s.rd g := rd_wr_apart h
theorem rd_bump_apart {s : State} {f g : Fld} (h : f.apart g) : (s.bump f).rd g = s.rd g := rd_wr_apart h
theorem rd_less_apart {s : State} {f g : Fld} {n : Nat} (h : f.apart g) : (s.less f n).rd g = s.rd g := rd_wr_apart h
theorem rdWord_wrBit_ne {s : State} {f : Fld} {v : Bool} {b : Nat} (h : f.addr ≠ b) : (s.wrBit f v).rdWord b = s.rdWord b :=
  rdWord_wr_ne h
theorem rdWord_count_ne {s : State} {f : Fld} {n b : Nat} (h : f.addr ≠ b) : (s.count f n).rdWord b = s.rdWord b := rdWord_wr_ne h
theorem rdWord_bump_ne {s : State} {f : Fld} {b : Nat} (h : f.addr ≠ b) : (s.bump f).rdWord b = s.rdWord b := rdWord_wr_ne h
theorem rdWord_less_ne {s : State} {f : Fld} {n b : Nat} (h : f.addr ≠ b) : (s.less f n).rdWord b = s.rdWord b := rdWord_wr_ne h
theorem rdWord_wrWord_ne {s : State} {a b : Nat} {w : Word} (h : a ≠ b) : (s.wrWord a w).rdWord b = s.rdWord b := by
  rw [rdWord_wrWord, if_neg h]
theorem rdWord_wr64_ne {s : State} {f g : Fld} {v b : Nat} (h : f.addr ≠ b) (h' : g.addr ≠ b) :
    (s.wr64 f g v).rdWord b = s.rdWord b := by
  unfold State.wr64; rw [rdWord_wr_ne h', rdWord_wr_ne h]

theorem rd_wr64_apart {s : State} {f g x : Fld} {v : Nat} (h : f.apart x) (h' : g.apart x) : (s.wr64 f g v).rd x = s.rd x := by
  unfold State.wr64; rw [rd_wr_apart h', rd_wr_apart h]

theorem rd_wr64_lo {s : State} {f g : Fld} {v : Nat} (h : f.lsb + f.width ≤ 32) (h' : g.apart f) :
    (s.wr64 f g v).rd f = v % 2 ^ 32 % 2 ^ f.width := by
  unfold State.wr64; rw [rd_wr_apart h', rd_wr h]

theorem rd_wr64_hi {s : State} {f g : Fld} {v : Nat} (h : g.lsb + g.width ≤ 32) :
    (s.wr64 f g v).rd g = v / 2 ^ 32 % 2 ^ 32 % 2 ^ g.width := by
  unfold State.wr64; rw [rd_wr h]

/-- A pair reads back what was written to it. -/
theorem rd64_wr64 {s : State} {f g : Fld} {v : Nat} (hf : f.lsb = 0 ∧ f.width = 32) (hg : g.lsb = 0 ∧ g.width = 32)
    (h : g.apart f) : (s.wr64 f g v).rd64 f g = v % 2 ^ 64 := by
  unfold State.rd64
  rw [rd_wr64_lo (by omega) h, rd_wr64_hi (by omega), hf.2, hg.2]
  omega

theorem wrFld {s : State} {f : Fld} {v : Nat} : s.wr f v = s.wrWord f.addr (wordPut (s.rdWord f.addr) f.lsb f.width v) := rfl

/-! ### Merged writes -/

theorem rdWord_mergeReg_ne {s : State} {a b val be : Nat} (h : a ≠ b) : (s.mergeReg a val be).rdWord b = s.rdWord b := by
  unfold State.mergeReg
  split
  · exact rdWord_wrWord_ne h
  · rfl

theorem rd_mergeReg_ne {s : State} {a val be : Nat} {f : Fld} (h : a ≠ f.addr) : (s.mergeReg a val be).rd f = s.rd f := by
  unfold State.rd; rw [rdWord_mergeReg_ne h]

/-- Whether every bit of a field carries a 1 in a mask. -/
def coversFld (m : Word) (f : Fld) : Bool := (List.range f.width).all fun i => m.getLsbD (f.lsb + i)

theorem coversFld_iff {m : Word} {f : Fld} : coversFld m f = true ↔ ∀ i, i < f.width → m.getLsbD (f.lsb + i) = true := by
  simp [coversFld]

/-- The bits of a register that a write sets. -/
def rwMask (fs : List FieldDesc) : Word := BitVec.ofNat 32 (accessMask fs fun a => a == .rw || a == .rws)
def w1cMask (fs : List FieldDesc) : Word := BitVec.ofNat 32 (accessMask fs fun a => a == .w1c)
def w1sMask (fs : List FieldDesc) : Word := BitVec.ofNat 32 (accessMask fs fun a => a == .w1s)

/-- A field that software writes takes the value written, where its bytes are enabled. -/
theorem rd_mergeReg {s : State} {val be : Nat} {f : Fld} {r : RegDesc} (h : regAt f.addr = some r) (hb : coversFld (beMask be) f = true)
    (hrw : coversFld (rwMask r.fields) f = true) (hc : coversFld (~~~ w1cMask r.fields) f = true)
    (hs : coversFld (~~~ w1sMask r.fields) f = true) :
    (s.mergeReg f.addr val be).rd f = wordGet (BitVec.ofNat 32 val) f.lsb f.width := by
  unfold State.mergeReg State.rd
  rw [h]
  simp only [rdWord_wrWord, if_pos]
  refine Nat.eq_of_testBit_eq fun i => ?_
  rw [testBit_wordGet, testBit_wordGet]
  by_cases hi : i < f.width
  · have h1 := coversFld_iff.mp hb i hi
    have h2 := coversFld_iff.mp hrw i hi
    have h3 := coversFld_iff.mp hc i hi
    have h4 := coversFld_iff.mp hs i hi
    simp only [BitVec.getLsbD_not, Bool.and_eq_true, Bool.not_eq_true', decide_eq_true_eq] at h3 h4
    obtain ⟨h5, h3⟩ := h3
    obtain ⟨-, h4⟩ := h4
    unfold rwMask at h2
    unfold w1cMask at h3
    unfold w1sMask at h4
    simp [mergeWrite, hi, h1, h2, h3, h4]
    intro _; omega
  · simp [hi]

theorem rdWord_applyPair_ne {s : State} {fn low hi be b : Nat} {lv : Option Nat} (h : low ≠ b) (h' : low + 4 ≠ b) :
    (s.applyPair fn low lv hi be).rdWord b = s.rdWord b := by
  unfold State.applyPair
  dsimp only
  rw [rdWord_wrWord_ne h', rdWord_wrWord_ne h]
  rfl

theorem rd_applyPair_ne {s : State} {fn low hi be : Nat} {f : Fld} {lv : Option Nat} (h : low ≠ f.addr) (h' : low + 4 ≠ f.addr) :
    (s.applyPair fn low lv hi be).rd f = s.rd f := by
  unfold State.rd; rw [rdWord_applyPair_ne h h']

/-- The low word of a pair applied with its own low word (R435). -/
theorem applyPair_lo {s : State} {fn low hi be v : Nat} : 
    (s.applyPair fn low (some v) hi be).rdWord low = writable low (s.rdWord low) (BitVec.ofNat 32 v) 15 := by
  unfold State.applyPair
  dsimp only
  rw [rdWord_wrWord_ne (by omega)]
  rw [rdWord_wrWord, if_pos rfl]; rfl
/-- The high word of a pair applied (R435). -/
theorem applyPair_hi {s : State} {fn low hi be : Nat} {v : Option Nat} : 
    (s.applyPair fn low v hi be).rdWord (low + 4) = writable (low + 4) (s.rdWord (low + 4)) (BitVec.ofNat 32 hi) be := by
  unfold State.applyPair
  dsimp only
  rw [rdWord_wrWord, if_pos rfl]
  congr 1
  rw [rdWord_wrWord_ne (by omega)]; rfl
/-- A field that software writes takes the value of the word that a pair applies. -/
theorem rd_writable {w v : Word} {be : Nat} {f : Fld} {r : RegDesc} (h : regAt f.addr = some r) (hb : coversFld (beMask be) f = true)
    (hrw : coversFld (rwMask r.fields) f = true) (hc : coversFld (~~~ w1cMask r.fields) f = true)
    (hs : coversFld (~~~ w1sMask r.fields) f = true) :
    wordGet (writable f.addr w v be) f.lsb f.width = wordGet v f.lsb f.width := by
  have := rd_mergeReg (s := { State.reset with regs := swrite regReset [] f.addr w }) (val := v.toNat) h hb hrw hc hs
  unfold State.mergeReg State.rd at this
  rw [h] at this
  simp only [rdWord_wrWord, if_pos, BitVec.ofNat_toNat, BitVec.setWidth_eq] at this
  have h2 : State.rdWord { State.reset with regs := swrite regReset [] f.addr w } f.addr = w := by
    unfold State.rdWord; dsimp only; rw [sread_swrite, if_pos rfl]
  rw [h2] at this
  unfold writable; rw [h]; exact this

/-! ### An event leaves every register alone but HAC_CRIT_PEND and GLB_INT_STATUS -/

@[simp] theorem rdWord_emit {s : State} {o : Output} {a : Nat} : (s.emit o).rdWord a = s.rdWord a := rfl

@[simp] theorem rdWord_raiseVec {s : State} {fn v a : Nat} : (s.raiseVec fn v).rdWord a = s.rdWord a := by
  unfold State.raiseVec; split <;> rfl

@[simp] theorem rdWord_queueEvent {s : State} {fn a : Nat} {r : EvRec} : (s.queueEvent fn r).rdWord a = s.rdWord a := by
  unfold State.queueEvent; split <;> rfl

theorem rdWord_eventOn {s : State} {sev die r a : Nat} {sec : Bool} (h : a ≠ R.HAC_CRIT_PEND) (h' : a ≠ R.GLB_INT_STATUS) :
    (s.eventOn sev die r sec).rdWord a = s.rdWord a := by
  have h1 : R.GLB_INT_STATUS_crit.addr ≠ a := fun e => h' e.symm
  have h2 : R.GLB_INT_STATUS_err_fd.addr ≠ a := fun e => h' e.symm
  have h3 : R.GLB_INT_STATUS_err_td.addr ≠ a := fun e => h' e.symm
  have h4 : R.HAC_CRIT_PEND ≠ a := fun e => h e.symm
  unfold State.eventOn
  dsimp only
  repeat' split
  all_goals simp [rdWord_wr_ne, h1, h2, h3, h4]

theorem rdWord_event {s : State} {sev r a : Nat} (h : a ≠ R.HAC_CRIT_PEND) (h' : a ≠ R.GLB_INT_STATUS) :
    (s.event sev r).rdWord a = s.rdWord a := rdWord_eventOn h h'

@[simp] theorem rdWord_event_info {s : State} {r a : Nat} : (s.event sevInfo r).rdWord a = s.rdWord a := by
  unfold State.event State.eventOn
  simp only [sevInfo, sevCrit, sevErr]
  repeat' split
  all_goals simp_all

theorem rd_event {s : State} {sev r : Nat} {f : Fld} (h : f.addr ≠ R.HAC_CRIT_PEND) (h' : f.addr ≠ R.GLB_INT_STATUS) :
    (s.event sev r).rd f = s.rd f := by unfold State.rd; rw [rdWord_event h h']

@[simp] theorem rd_event_info {s : State} {r : Nat} {f : Fld} : (s.event sevInfo r).rd f = s.rd f := by
  unfold State.rd; rw [rdWord_event_info]

theorem rdWord_onlyIf {s : State} {c : Bool} {f : State → State} {a : Nat} (h : (f s).rdWord a = s.rdWord a) :
    (s.onlyIf c f).rdWord a = s.rdWord a := by
  unfold State.onlyIf; split
  · exact h
  · rfl

/-- The service stage's own register is all that bringing it in line changes. -/
theorem rdWord_svcUpdate {s : State} {a : Nat} (h : a ≠ R.GLB_SERVICE) : s.svcUpdate.rdWord a = s.rdWord a := by
  have hs : ∀ (t : State) (f : Fld) (v : Nat), f.addr = R.GLB_SERVICE → (t.wr f v).rdWord a = t.rdWord a :=
    fun t f v e => rdWord_wr_ne (by rw [e]; exact fun e => h e.symm)
  have hb : ∀ (t : State) (f : Fld) (v : Bool), f.addr = R.GLB_SERVICE → (t.wrBit f v).rdWord a = t.rdWord a :=
    fun t f v e => hs t f _ e
  unfold State.svcUpdate
  extract_lets s1 s2 s3 s4 full stage
  have e4 : s4.rdWord a = s.rdWord a := by
    rw [hb _ _ _ rfl, hb _ _ _ rfl, hb _ _ _ rfl, hb _ _ _ rfl]
  clear_value s4
  split
  · rw [hs _ _ _ rfl, e4]
  · split
    · rw [rdWord_event_info, hs _ _ _ rfl, e4]
    · split
      · rw [rdWord_event_info, hs _ _ _ rfl, e4]
      · exact e4

theorem rd_svcUpdate {s : State} {f : Fld} (h : f.addr ≠ R.GLB_SERVICE) : s.svcUpdate.rd f = s.rd f := by
  unfold State.rd; rw [rdWord_svcUpdate h]

/-! ### Lifecycle registers -/

theorem rdWord_setLc {s : State} {r st a : Nat} (h : a ≠ r) : (s.setLc r st).rdWord a = s.rdWord a := by
  unfold State.setLc
  split
  · rfl
  · rw [rdWord_event_info]; exact rdWord_wr_ne fun e => h e.symm

/-- A lifecycle state reads back what it was set to. -/
theorem rd_setLc {s : State} {r st : Nat} (h : st < 4) : (s.setLc r st).rd (lcFld r) = st := by
  unfold State.setLc
  split
  · rename_i e; exact e
  · rw [rd_event_info, rd_wr (by decide : 0 + 2 ≤ 32)]; exact Nat.mod_eq_of_lt h

theorem rd_setLc_apart {s : State} {r st : Nat} {f : Fld} (h : (lcFld r).apart f) : (s.setLc r st).rd f = s.rd f := by
  unfold State.setLc
  split
  · rfl
  · rw [rd_event_info, rd_wr_apart h]

/-- A write of enable or disable leaves the lifecycle register as R503 says. -/
theorem rd_lcWrite {s : State} {r : Nat} {e d : Bool} :
    (s.lcWrite r e d).rd (lcFld r) = (lcRequest (s.rd (lcFld r)) (s.on (lcPend r)) e d).1 ∧
    (s.lcWrite r e d).on (lcPend r) = (lcRequest (s.rd (lcFld r)) (s.on (lcPend r)) e d).2 := by
  have hlt : (lcRequest (s.rd (lcFld r)) (s.on (lcPend r)) e d).1 < 4 := by
    have : s.rd (lcFld r) < 4 := rd_lt
    unfold lcRequest lcStarting lcDown lcDraining
    repeat' split
    all_goals simp_all
  have hap : (lcFld r).apart (lcPend r) := by unfold Fld.apart lcFld lcPend; simp
  unfold State.lcWrite
  refine ⟨rd_setLc hlt, ?_⟩
  rw [on_eq, rd_setLc_apart hap, rd_wrBit (by decide : 2 + 1 ≤ 32) (by decide : 0 < 1)]
  cases (lcRequest (s.rd (lcFld r)) (s.on (lcPend r)) e d).2 <;> rfl

theorem rdWord_lcWrite {s : State} {r a : Nat} {e d : Bool} (h : a ≠ r) : (s.lcWrite r e d).rdWord a = s.rdWord a := by
  unfold State.lcWrite
  rw [rdWord_setLc h, rdWord_wrBit_ne fun e => h e.symm]

theorem rd_lcEndDrain {s : State} {r : Nat} :
    (s.lcEndDrain r).rd (lcFld r) = lcDrained (s.on (lcPend r)) ∧ (s.lcEndDrain r).on (lcPend r) = false := by
  have hap : (lcFld r).apart (lcPend r) := by unfold Fld.apart lcFld lcPend; simp
  have hw : ∀ t : State, (t.wr (lcPend r) 0).on (lcPend r) = false := fun t => by
    rw [on_eq, rd_wr (by decide : 2 + 1 ≤ 32)]; rfl
  unfold State.lcEndDrain lcDrained
  dsimp only
  split
  · exact ⟨rd_setLc (by decide), by rw [on_eq, rd_setLc_apart hap, rd_setLc_apart hap]; exact hw s⟩
  · exact ⟨rd_setLc (by decide), by rw [on_eq, rd_setLc_apart hap]; exact hw s⟩

theorem rdWord_lcEndDrain {s : State} {r a : Nat} (h : a ≠ r) : (s.lcEndDrain r).rdWord a = s.rdWord a := by
  unfold State.lcEndDrain
  dsimp only
  split
  · rw [rdWord_setLc h, rdWord_setLc h, rdWord_wr_ne fun e => h e.symm]
  · rw [rdWord_setLc h, rdWord_wr_ne fun e => h e.symm]

/-! ### Completions and logs -/

/-- A completion changes no register but the count of completions lost to an endpoint reset. -/
theorem rdWord_completeWith {s : State} {c : Cmd} {st d a : Nat} {n : Option Nat} (h : a ≠ R.GLB_LOST_CPL) :
    (s.completeWith c st d n).rdWord a = s.rdWord a := by
  unfold State.completeWith
  split
  · split
    · dsimp only
      exact rdWord_bump_ne fun e => h e.symm
    · rfl
  · split <;> rfl
  · rfl

theorem rdWord_complete {s : State} {c : Cmd} {st a : Nat} (h : a ≠ R.GLB_LOST_CPL) :
    (s.complete c st).rdWord a = s.rdWord a := rdWord_completeWith h

theorem rdWord_accepted {s : State} {c : Cmd} {n a : Nat} (h : a ≠ R.GLB_LOST_CPL) :
    (s.accepted c n).rdWord a = s.rdWord a := rdWord_completeWith h

theorem rdWord_completeOpt {s : State} {c : Option Cmd} {st a : Nat} (h : a ≠ R.GLB_LOST_CPL) :
    (s.completeOpt c st).rdWord a = s.rdWord a := by
  cases c
  · rfl
  · exact rdWord_complete h

theorem rd_completeWith {s : State} {c : Cmd} {st d : Nat} {n : Option Nat} {f : Fld} (h : f.addr ≠ R.GLB_LOST_CPL) :
    (s.completeWith c st d n).rd f = s.rd f := by
  unfold State.rd; rw [rdWord_completeWith h]

theorem rd_complete {s : State} {c : Cmd} {st : Nat} {f : Fld} (h : f.addr ≠ R.GLB_LOST_CPL) :
    (s.complete c st).rd f = s.rd f := rd_completeWith h

theorem rd_accepted {s : State} {c : Cmd} {n : Nat} {f : Fld} (h : f.addr ≠ R.GLB_LOST_CPL) :
    (s.accepted c n).rd f = s.rd f := rd_completeWith h

theorem rd_completeOpt {s : State} {c : Option Cmd} {st : Nat} {f : Fld} (h : f.addr ≠ R.GLB_LOST_CPL) :
    (s.completeOpt c st).rd f = s.rd f := by
  unfold State.rd; rw [rdWord_completeOpt h]

/-- The words of the late-error log, its control register and the interrupt bits are all that an entry changes. -/
theorem rdWord_lateErrAs {s : State} {q fn b r w a : Nat} {i : Bool} {m : Option Nat}
    (h : ¬ (R.HAC_LEL_CTRL ≤ a ∧ a < R.HAC_LEL 64 0)) : (s.lateErrAs q fn b r w i m).rdWord a = s.rdWord a := by
  have hi : s.rd R.HAC_LEL_CTRL_next < 64 := rd_lt
  have h0 : ∀ k, k < 8 → R.HAC_LEL (s.rd R.HAC_LEL_CTRL_next) k ≠ a := fun k hk e => h (by
    rw [← e]; unfold R.HAC_LEL R.HAC_LEL_CTRL; omega)
  have h1 : R.HAC_LEL_CTRL_next.addr ≠ a := fun e => h (by rw [← e]; decide)
  have h2 : R.HAC_LEL_CTRL_wrapped.addr ≠ a := fun e => h (by rw [← e]; decide)
  unfold State.lateErrAs
  simp only [rdWord_raiseVec]
  rw [rdWord_wr_ne h1]
  split
  · rw [rdWord_wr_ne h2, rdWord_wrWord_ne (h0 5 (by decide)), rdWord_wrWord_ne (h0 4 (by decide)),
      rdWord_wrWord_ne (h0 3 (by decide)), rdWord_wrWord_ne (h0 2 (by decide)), rdWord_wrWord_ne (h0 1 (by decide)),
      rdWord_wrWord_ne (h0 0 (by decide))]
  · rw [rdWord_wrWord_ne (h0 5 (by decide)), rdWord_wrWord_ne (h0 4 (by decide)),
      rdWord_wrWord_ne (h0 3 (by decide)), rdWord_wrWord_ne (h0 2 (by decide)), rdWord_wrWord_ne (h0 1 (by decide)),
      rdWord_wrWord_ne (h0 0 (by decide))]

theorem rd_lateErrAs {s : State} {q fn b r w : Nat} {i : Bool} {m : Option Nat} {f : Fld}
    (h : ¬ (R.HAC_LEL_CTRL ≤ f.addr ∧ f.addr < R.HAC_LEL 64 0)) : (s.lateErrAs q fn b r w i m).rd f = s.rd f := by
  unfold State.rd; rw [rdWord_lateErrAs h]

theorem rd_lateErr {s : State} {fn b r w : Nat} {i : Bool} {f : Fld}
    (h : ¬ (R.HAC_LEL_CTRL ≤ f.addr ∧ f.addr < R.HAC_LEL 64 0)) : (s.lateErr fn b r w i).rd f = s.rd f := rd_lateErrAs h

end Sys2Proof.Machine
end

