-- ==== Sys2Proof/Laws/Taken.lean ====
section
/-!
SUPPORT. Laws/Taken.lean: what a host access does when its checks pass: a taken write is numbered and has its effect, and the number
is the only register it changes on the way; a taken read is answered.
-/

namespace Sys2Proof.Machine

theorem notWseq {fn a : Nat} (h : a % 0x10000000 ≠ 0x200000) : a ≠ R.HAC_WSEQ fn := by
  intro e; apply h; rw [e]; unfold R.HAC_WSEQ; omega

theorem rdWord_acceptWrite {s : State} {fn a : Nat} (h : a ≠ R.HAC_WSEQ fn) : (s.acceptWrite fn).rdWord a = s.rdWord a :=
  rdWord_wr_ne fun e => h e.symm

theorem rd_acceptWrite {s : State} {fn : Nat} {f : Fld} (h : f.addr % 0x10000000 ≠ 0x200000) :
    (s.acceptWrite fn).rd f = s.rd f := by
  unfold State.rd; rw [rdWord_acceptWrite (notWseq h)]

/-- The number of a posted write: 1 first, wrapping from 0xFFFF_FFFF to 1 (R440). -/
theorem wseq_acceptWrite {s : State} {fn : Nat} :
    (s.acceptWrite fn).wseq fn = if s.wseq fn + 1 < 2 ^ 32 then s.wseq fn + 1 else 1 := by
  have h : (s.acceptWrite fn).wseq fn = (if s.wseq fn + 1 < 2 ^ 32 then s.wseq fn + 1 else 1) % 2 ^ 32 :=
    rd_wr (by decide : 0 + 32 ≤ 32)
  rw [h]
  split
  · rename_i h; exact Nat.mod_eq_of_lt h
  · rfl

theorem stopped_acceptWrite {s : State} {fn : Nat} : (s.acceptWrite fn).stopped = s.stopped := by
  unfold State.stopped State.on
  rw [rd_acceptWrite (by decide), acceptWrite_svc]

theorem tdDown_acceptWrite {s : State} {fn : Nat} : (s.acceptWrite fn).tdDown = s.tdDown := by
  unfold State.tdDown State.on
  rw [rd_acceptWrite (by decide), stopped_acceptWrite]

theorem clockRuns_acceptWrite {s : State} {fn b : Nat} : (s.acceptWrite fn).clockRuns b = s.clockRuns b := by
  unfold State.clockRuns
  rw [rd_acceptWrite (by decide)]

theorem pf1Denied_acceptWrite {s : State} {fn a : Nat} {w : Bool} : (s.acceptWrite fn).pf1Denied a w = s.pf1Denied a w := by
  unfold State.pf1Denied
  rw [show (s.acceptWrite fn).rd (if w then R.HAC_PF1_BLK_WR_blocks else R.HAC_PF1_BLK_RD_blocks)
      = s.rd (if w then R.HAC_PF1_BLK_WR_blocks else R.HAC_PF1_BLK_RD_blocks) from by
    cases w <;> exact rd_acceptWrite (by decide)]

/-- What the checks that a taken write passes come to. -/
theorem writeTaken_iff {s : State} {fn a be : Nat} {tr : Bool} : WriteTaken s fn a be tr ↔
    s.answers fn = true ∧ (tr && be != 15) = false ∧ ∃ b, blockOf a = some b ∧
      (if fn = 1 then s.pf1Denied a true else none) = none ∧ (decide (16 ≤ accessBit a b.bit) && s.tdDown) = false ∧
      s.clockRuns (accessBit a b.bit) = true := by
  unfold WriteTaken writeTaken
  cases blockOf a with
  | none => simp
  | some b =>
    simp only [Bool.and_eq_true, Bool.not_eq_true', Option.isNone_iff_eq_none, Option.some.injEq, exists_eq_left', and_assoc]

theorem readTaken_iff {s : State} {fn a : Nat} : ReadTaken s fn a ↔
    s.answers fn = true ∧ ∃ b, blockOf a = some b ∧
      (if fn = 1 then s.pf1Denied a false else none) = none ∧ (decide (16 ≤ accessBit a b.bit) && s.tdDown) = false ∧
      s.clockRuns (accessBit a b.bit) = true := by
  unfold ReadTaken readTaken
  cases blockOf a with
  | none => simp
  | some b =>
    simp only [Bool.and_eq_true, Bool.not_eq_true', Option.isNone_iff_eq_none, Option.some.injEq, exists_eq_left', and_assoc]

theorem checkedWrite_taken {s : State} {fn a be : Nat} {tr : Bool} {k : State → State} (h : WriteTaken s fn a be tr) :
    (s.acceptWrite fn).checkedWrite fn a be tr k = k (s.acceptWrite fn) := by
  obtain ⟨-, ht, b, hb, hp, hd, hc⟩ := writeTaken_iff.mp h
  unfold State.checkedWrite
  simp only [hb, pf1Denied_acceptWrite, tdDown_acceptWrite, clockRuns_acceptWrite, hp, hd, hc, ht]
  rfl

/-- A taken write is numbered and has its effect. -/
theorem hostWrite_taken {s : State} {fn a be : Nat} {tr : Bool} {k : State → State} (h : WriteTaken s fn a be tr) :
    s.hostWrite fn a be tr k = k (s.acceptWrite fn) := by
  unfold State.hostWrite
  rw [if_pos (writeTaken_iff.mp h).1, checkedWrite_taken h]

/-- A taken read is answered. -/
theorem hostRead_taken {s : State} {fn a : Nat} {k : State → State} (h : ReadTaken s fn a) : s.hostRead fn a k = k s := by
  obtain ⟨ha, b, hb, hp, hd, hc⟩ := readTaken_iff.mp h
  unfold State.hostRead
  simp only [ha, hb, hp, hd, hc]
  rfl

/-- A command that is a taken write runs to its effect. -/
theorem runs_hostWrite {c : Instr} {s : State} {fn a be : Nat} {tr : Bool} {k : State → State} {P : State → Prop}
    (h : WriteTaken s fn a be tr) (e : exec c s = ok (s.hostWrite fn a be tr k)) (hp : P (k (s.acceptWrite fn))) : Runs c s P :=
  ⟨_, by rw [e, hostWrite_taken h]; rfl, hp⟩

/-- A command that is a taken read runs to its effect. -/
theorem runs_hostRead {c : Instr} {s : State} {fn a : Nat} {k : State → State} {P : State → Prop}
    (h : ReadTaken s fn a) (e : exec c s = ok (s.hostRead fn a k)) (hp : P (k s)) : Runs c s P :=
  ⟨_, by rw [e, hostRead_taken h]; rfl, hp⟩

theorem runs_ok {c : Instr} {s t : State} {P : State → Prop} (e : exec c s = ok t) (hp : P t) : Runs c s P := ⟨t, e, hp⟩

end Sys2Proof.Machine
end

