-- ==== Sys2Proof/WellFormed.lean ====
section
/-!
DEFINITION. WellFormed.lean: which operands a command can carry at all: the widths of register words, byte enables and
descriptor fields (R433, R449 to R453, R127, R149, R223), and the numbers of the device's units (R15 to R17, chapters 2 to 18).
The meanings are total and do not rely on it: an operand of a host command that is well formed but names no object is
answered as the spec says. Operands that the environment decides and the spec does not bound are not checked.
-/

namespace Sys2Proof

open Machine

/-- A number below a bound. -/
def below (n v : Nat) : Bool := v < n

/-- A number of a width. -/
def fits (w v : Nat) : Bool := v < 2 ^ w

/-- A PCI Express function of the device: PF0 or PF1. -/
def fnOk (fn : Nat) : Bool := fn < 2

/-- The byte enables of an access of one word (R433). -/
def beOk (be : Nat) : Bool := be < 16

/-- A register word. -/
def wordOk (v : Nat) : Bool := v < 2 ^ 32

/-- The low word of a pair written with one 8-byte access (R435), if there is one. -/
def optWordOk (v : Option Nat) : Bool := v.all wordOk

/-- The source of a command: a ring of a function and a 16-bit tag (R449, R451), or a remote device and its request (R386). -/
def cmdOk (c : Cmd) : Bool :=
  match c.src with
  | .ring f r t => f < 2 && r < 2 && t < 2 ^ 16
  | .remote d i f => d < 512 && i < 2 ^ 32 && f < 2
  | .firmware => true

/-- A command descriptor: 64 bytes (R449). -/
def blockOk (bs : List Byte) : Bool := bs.length == 64

/-- A key hash: SHA-384, 48 bytes (R519). -/
def hashOk (bs : List Byte) : Bool := bs.length == 48

/-- A fetched Recipe image: the SHA-384 values that the hash unit finds (R68, R70, R71). -/
def imageOk (m : Image) : Bool := m.hashes.all hashOk && hashOk m.signed && hashOk m.vendorHash

/-- Whether a command's operands are ones it can carry. -/
def Instr.wf : Instr → Bool
  | .bridgeUnitReceive g _ _ => below 24 g
  | .bridgeReplayRequest g => below 24 g
  | .bridgeLaneFailure g => below 24 g
  | .spareLaneSwitchDone g => below 24 g
  | .tdTimeTransfer => true
  | .frameReceive port _ _ _ _ _ => below 128 port
  | .pfcXoffRepeat port priority => below 128 port && below 8 priority
  | .pfcFrameReceive port _ => below 128 port
  | .pfcPauseExpire port priority => below 128 port && below 8 priority
  | .eopStatusArrive _ _ => true
  | .parseAccept _ => true
  | .parseComplete _ => true
  | .captureArm fn be pl val => fnOk fn && beOk be && below 8 pl && wordOk val
  | .portStartWrite fn be port val => fnOk fn && beOk be && below 128 port && wordOk val
  | .scanShift _ _ _ => true
  | .scanStallResume _ _ _ => true
  | .scanTimeout _ => true
  | .scannerRelease _ => true
  | .setEnable fn be set => fnOk fn && beOk be && below 8 set
  | .setDisable fn be set => fnOk fn && beOk be && below 8 set
  | .setDrainDone set => below 8 set
  | .stageIssue pl stage _ cause => below 8 pl && below 36 stage && below 4096 cause
  | .stageLookupReturn _ _ _ => true
  | .stageAction _ _ _ => true
  | .pipelineDrainDone pl => below 8 pl
  | .laneReturnComplete pl => below 8 pl
  | .pipelineEnable fn be pl => fnOk fn && beOk be && below 8 pl
  | .pipelineDisable fn be pl => fnOk fn && beOk be && below 8 pl
  | .pipelineReloadDone pl => below 8 pl
  | .controlWordReloadDone pl stage bank word _ _ => below 8 pl && below 36 stage && below 2 bank && below 4096 word
  | .controlStorePatrol pl stage bank word _ _ => below 8 pl && below 36 stage && below 2 bank && below 4096 word
  | .ingressSectionExit _ => true
  | .egressSectionExit _ => true
  | .intentExecute _ stage _ _ => below 36 stage
  | .intentSettle arr _ _ => below 64 arr
  | .chainWaitTimeout _ stage _ => below 36 stage
  | .chainRoomResume _ stage _ => below 36 stage
  | .verdictReceive _ _ => true
  | .txnOpen c handle => cmdOk c && fits 8 handle
  | .txnStageAsmInsert c handle slot table vrf len key mask prio result param => cmdOk c && fits 8 handle && below 2 slot && fits 16 table && fits 16 vrf && fits 8 len && fits 320 key && fits 320 mask && fits 16 prio && fits 24 result && fits 64 param
  | .txnStageAsmDelete c handle slot table vrf len key mask prio param => cmdOk c && fits 8 handle && below 2 slot && fits 16 table && fits 16 vrf && fits 8 len && fits 320 key && fits 320 mask && fits 16 prio && fits 64 param
  | .txnStageAsmModify c handle slot table vrf len key mask prio result param => cmdOk c && fits 8 handle && below 2 slot && fits 16 table && fits 16 vrf && fits 8 len && fits 320 key && fits 320 mask && fits 16 prio && fits 24 result && fits 64 param
  | .txnStageAsmRewrite c handle slot table vrf len key mask prio param => cmdOk c && fits 8 handle && below 2 slot && fits 16 table && fits 16 vrf && fits 8 len && fits 320 key && fits 320 mask && fits 16 prio && fits 64 param
  | .txnStageExmInsert c handle slot table param _ => cmdOk c && fits 8 handle && below 2 slot && fits 16 table && fits 64 param
  | .txnStageExmDelete c handle slot table param _ => cmdOk c && fits 8 handle && below 2 slot && fits 16 table && fits 64 param
  | .txnStageExmModify c handle slot table param _ => cmdOk c && fits 8 handle && below 2 slot && fits 16 table && fits 64 param
  | .txnStageArrayWrite c handle slot array index param _ => cmdOk c && fits 8 handle && below 2 slot && fits 16 array && fits 32 index && fits 64 param
  | .txnStageArrayClear c handle slot array index => cmdOk c && fits 8 handle && below 2 slot && fits 16 array && fits 32 index
  | .txnStageTdWrite c handle table index param _ => cmdOk c && fits 8 handle && fits 16 table && fits 32 index && fits 64 param
  | .txnPrepare c handle => cmdOk c && fits 8 handle
  | .txnPrepareComplete handle => fits 8 handle
  | .txnCommit c handle turn => cmdOk c && fits 8 handle && fits 64 turn
  | .txnCommitCancel c handle => cmdOk c && fits 8 handle
  | .txnAbort c handle => cmdOk c && fits 8 handle
  | .asmOverlapClose t => below 64 t
  | .asmWalkerVisit bank unit addr _ _ => below 32 bank && below 8192 unit && fits 64 addr
  | .search c slot table pipe _ key keyAddr resultAddr _ => cmdOk c && below 2 slot && fits 16 table && below 8 pipe && fits 4096 key && fits 64 keyAddr && fits 64 resultAddr
  | .next c slot table pipe count context resultAddr _ _ => cmdOk c && below 2 slot && fits 16 table && below 8 pipe && fits 8 count && fits 16 context && fits 64 resultAddr
  | .iterationContextExpire k => below 16 k
  | .flushPort c slot table port _ resultAddr => cmdOk c && below 2 slot && fits 16 table && fits 8 port && fits 64 resultAddr
  | .flushPortDone t => below 64 t
  | .learnPlace _ _ => true
  | .learnStateAlways _ _ => true
  | .ageingSweepVisit t copy _ => below 64 t && below 8 copy
  | .ageLimitWrite fn be t val => fnOk fn && beOk be && below 64 t && wordOk val
  | .learnRecordDeliver => true
  | .hostRingTailWrite fn addr be val => fnOk fn && fits 64 addr && beOk be && wordOk val
  | .bucketLock fn addr be => fnOk fn && fits 64 addr && beOk be
  | .bucketStagingWrite fn addr _ => fnOk fn && fits 48 addr
  | .bucketUnlockCommit fn addr be => fnOk fn && fits 64 addr && beOk be
  | .bucketUnlockDiscard fn addr be => fnOk fn && fits 64 addr && beOk be
  | .bucketLockExpire t copy _ => below 64 t && below 8 copy
  | .bucketEntryWrite fn addr _ => fnOk fn && fits 64 addr
  | .bar2Read fn addr _ => fnOk fn && fits 64 addr
  | .shadowCompareStart fn be val => fnOk fn && beOk be && wordOk val
  | .shadowCompareDone _ => true
  | .poolSizeWrite fn be pool val => fnOk fn && beOk be && below 4 pool && wordOk val
  | .poolLimitWrite fn be pool val _ => fnOk fn && beOk be && below 4 pool && wordOk val
  | .bodyStagingWrite _ _ => true
  | .discardNotice _ => true
  | .stagingExpire _ => true
  | .admissionDecision _ engine _ => below 128 engine
  | .queueStateCapture fn be val => fnOk fn && beOk be && wordOk val
  | .wredSeedWrite fn be val => fnOk fn && beOk be && wordOk val
  | .auditStart fn be val => fnOk fn && beOk be && wordOk val
  | .auditDone => true
  | .dequeueDecision port _ _ => below 128 port
  | .tileReadReturn q _ _ _ _ _ => fits 24 q
  | .caParityError stack rank => below 6 stack && below 128 rank
  | .migrationDone stack => below 6 stack
  | .rankCeWindowEnd stack => below 6 stack
  | .rankEnable fn be stack rank => fnOk fn && beOk be && below 6 stack && below 128 rank
  | .rankDisable fn be stack rank => fnOk fn && beOk be && below 6 stack && below 128 rank
  | .rankTestDone stack rank _ => below 6 stack && below 128 rank
  | .hbmPatrolVisit stack _ _ => below 6 stack
  | .sramPatrolVisit kind _ addr _ _ => below 6 kind && fits 64 addr
  | .patrolRecordDeliver => true
  | .hbmTempBandChange stack band => below 6 stack && below 8 band
  | .hbmDelayApply stack => below 6 stack
  | .hbmMapWrite fn be val => fnOk fn && beOk be && wordOk val
  | .hbmPartWrite fn be val => fnOk fn && beOk be && wordOk val
  | .diagReadRaw fn be val _ => fnOk fn && beOk be && wordOk val
  | .diagWriteRaw fn be val _ => fnOk fn && beOk be && wordOk val
  | .diagWriteEncoded fn be val _ => fnOk fn && beOk be && wordOk val
  | .diagDone => true
  | .rsvPortEnable fn be n => fnOk fn && beOk be && below 8 n
  | .rsvPortDisable fn be n => fnOk fn && beOk be && below 8 n
  | .rsvPortFillDone n => below 8 n
  | .rsvPortDrainDone n => below 8 n
  | .rsvPortLoss n => below 8 n
  | .reservoirPageCopy q => fits 24 q
  | .holdDest c entry device _ port tcMask limit turn => cmdOk c && fits 8 entry && fits 16 device && fits 8 port && fits 8 tcMask && fits 16 limit && fits 64 turn
  | .holdDestCancel c entry => cmdOk c && fits 8 entry
  | .releaseDest c entry turn rate => cmdOk c && fits 8 entry && fits 64 turn && fits 32 rate
  | .releaseDestCancel c entry => cmdOk c && fits 8 entry
  | .shaperRefill level => below 5 level
  | .voqVisit v => fits 24 v.q
  | .queueEnable fn be => fnOk fn && beOk be
  | .queueDisable fn be => fnOk fn && beOk be
  | .queueDisableFlush fn be => fnOk fn && beOk be
  | .queueDrainDone q => fits 24 q
  | .queueLcSelect fn be val => fnOk fn && beOk be && wordOk val
  | .nodeStateCapture fn be val => fnOk fn && beOk be && wordOk val
  | .refillIntervalWrite fn be val => fnOk fn && beOk be && wordOk val
  | .linkEnable fn be l => fnOk fn && beOk be && below 160 l
  | .linkDisable fn be l => fnOk fn && beOk be && below 160 l
  | .linkDrainDone l => below 160 l
  | .laneMarkerCheck l _ => below 160 l
  | .helloSend l => below 160 l
  | .helloReceive l => below 160 l
  | .helloTimeout l => below 160 l
  | .cellTransmit l => below 160 l
  | .cellReceive l _ _ => below 160 l
  | .reorderGapTimeout src _ => below 512 src
  | .reassemblyDeliver src _ => below 512 src
  | .exchangeSetSend d => below 512 d
  | .exchangeSetReceive src => below 512 src
  | .tagReportApply src => below 512 src
  | .creditGenerate port => below 128 port
  | .voqCreditReturn q => fits 24 q
  | .grantForgive src => below 512 src
  | .reachReceive l => below 160 l
  | .reachLapse l => below 160 l
  | .linkStatusSend l => below 160 l
  | .linkStatusReceive l => below 160 l
  | .linkRecover l => below 160 l
  | .linkAutoRestart l => below 160 l
  | .remoteRd c device count offset result => cmdOk c && fits 16 device && fits 8 count && fits 32 offset && fits 64 result
  | .remoteWr c device count offset param _ => cmdOk c && fits 16 device && fits 8 count && fits 32 offset && fits 64 param
  | .remoteWrCommand c device param result desc => cmdOk c && fits 16 device && fits 64 param && fits 64 result && blockOk desc
  | .remoteReqReceive => true
  | .remoteRspReceive => true
  | .remoteTimeout _ => true
  | .lateErrReceive => true
  | .levelSend => true
  | .levelReceive => true
  | .peerForget peer => below 2560 peer
  | .diceArm fn be unit val => fnOk fn && beOk be && fits 28 unit && wordOk val
  | .diceCancel fn be w => fnOk fn && beOk be && fits 28 w.unit && wordOk w.val
  | .portEnable fn be p => fnOk fn && beOk be && below 128 p
  | .portDisable fn be p => fnOk fn && beOk be && below 128 p
  | .portDrainDone p => below 128 p
  | .lineLinkUp p => below 128 p
  | .lineLinkDown p _ _ _ => below 128 p
  | .frameTransmit _ _ _ => true
  | .tsFifoPop fn be p => fnOk fn && beOk be && below 128 p
  | .otnFrameReceive slice _ => below 256 slice
  | .otnDefectTimer slice => below 256 slice
  | .gmpJcPeriod slot _ _ _ => below 5120 slot
  | .clientFrameDemap client _ _ _ _ => below 128 client
  | .cmPageWrite fn be page slot val => fnOk fn && beOk be && below 2 page && below 5120 slot && wordOk val
  | .tsiSwapArm fn be val => fnOk fn && beOk be && wordOk val
  | .tsiSwapCancel fn be val => fnOk fn && beOk be && wordOk val
  | .tsiPortPageChange p => below 128 p
  | .tbsCtrlWrite fn be val => fnOk fn && beOk be && wordOk val
  | .todArm fn be val low => fnOk fn && beOk be && wordOk val && optWordOk low
  | .ppsPulse _ => true
  | .servoOffsetWrite fn be val => fnOk fn && beOk be && wordOk val
  | .phaseAdjust fn be val => fnOk fn && beOk be && wordOk val
  | .timeStep fn be val low => fnOk fn && beOk be && wordOk val && optWordOk low
  | .turnLengthWrite fn be val => fnOk fn && beOk be && wordOk val
  | .measurementTimeout => true
  | .unlockTimeout => true
  | .turnBoundary _ => true
  | .timeCapture fn be val => fnOk fn && beOk be && wordOk val
  | .clkmonPeriodEnd _ _ _ _ => true
  | .clkmonSelect fn be val => fnOk fn && beOk be && wordOk val
  | .fmeasStart fn be val => fnOk fn && beOk be && wordOk val
  | .fmeasGateEnd _ _ => true
  | .clockEnableWrite fn be val => fnOk fn && beOk be && wordOk val
  | .clockStatusSettle => true
  | .recipeLoad c slot source store entry addr length => cmdOk c && below 2 slot && below 2 source && below 2 store && below 4 entry && fits 64 addr && fits 32 length
  | .recipeFetchDone slot fetched => below 2 slot && imageOk fetched
  | .recipeAuthFailComplete slot => below 2 slot
  | .recipeSlotReady slot => below 2 slot
  | .recipeStoreWriteDone entry => below 4 entry
  | .recipeActivate c slot turn => cmdOk c && below 2 slot && fits 64 turn
  | .recipeActivateCancel c slot => cmdOk c && below 2 slot
  | .recipeSlotRelease => true
  | .recipeAutostart => true
  | .minSerialWrite fn be val low => fnOk fn && beOk be && wordOk val && optWordOk low
  | .recipeBootWrite fn be val => fnOk fn && beOk be && wordOk val
  | .replayStart fn be val => fnOk fn && beOk be && wordOk val
  | .replayTailWrite fn be val => fnOk fn && beOk be && wordOk val
  | .replayRecordFetch _ => true
  | .replayRecordRelease => true
  | .registerWrite fn bar addr be val high => fnOk fn && below 4 bar && fits 32 addr && below 256 be && wordOk val && optWordOk high
  | .registerReadClear fn bar addr be => fnOk fn && below 4 bar && fits 64 addr && beOk be
  | .pairLowRead fn addr be _ => fnOk fn && fits 64 addr && beOk be
  | .pairHighRead fn addr be => fnOk fn && fits 64 addr && beOk be
  | .hostAccessTimeout fn addr _ => fnOk fn && fits 64 addr
  | .fenceRead fn be => fnOk fn && beOk be
  | .fenceComplete fn => fnOk fn
  | .ruleWrite fn addr be val => fnOk fn && fits 64 addr && beOk be && wordOk val
  | .commandTailDoorbell fn ring be val => fnOk fn && below 2 ring && beOk be && wordOk val
  | .completionHeadDoorbell fn ring be val => fnOk fn && below 2 ring && beOk be && wordOk val
  | .commandFetch fn ring desc _ => fnOk fn && below 2 ring && blockOk desc
  | .completionPost fn ring => fnOk fn && below 2 ring
  | .refusalComplete => true
  | .eventRecordDeliver fn => fnOk fn
  | .critPendClear fn be val => fnOk fn && beOk be && wordOk val
  | .functionLevelReset fn => fnOk fn
  | .counterSelect fn be val _ => fnOk fn && beOk be && wordOk val
  | .counterWrite fn be _ => fnOk fn && beOk be
  | .counterClear fn be _ => fnOk fn && beOk be
  | .counterClearStripe fn be _ => fnOk fn && beOk be
  | .snapAt c mask turn dest arrMask len => cmdOk c && fits 32 mask && fits 64 turn && fits 64 dest && fits 64 arrMask && fits 32 len
  | .snapshotFinal buf => below 2 buf
  | .snapshotWriteDone buf => below 2 buf
  | .pmuEvselWrite fn be d k val => fnOk fn && beOk be && below 2 d && below 16 k && wordOk val
  | .pmuCounterWrite fn be d k val low => fnOk fn && beOk be && below 2 d && below 16 k && wordOk val && optWordOk low
  | .sampleRecordDeliver => true
  | .pmuFreezeArm fn be val => fnOk fn && beOk be && wordOk val
  | .pmuResumeArm fn be val => fnOk fn && beOk be && wordOk val
  | .pmuFreezeCancel fn be val => fnOk fn && beOk be && wordOk val
  | .pmuFreezeFinal => true
  | .pmuRunWrite fn be d val => fnOk fn && beOk be && below 2 d && wordOk val
  | .porRelease _ _ _ => true
  | .brownout rail => below 10 rail
  | .powerLoss => true
  | .pllLock _ _ => true
  | .firmwareRunning => true
  | .bootWatchdogExpire => true
  | .memoryFillDone which _ => below 3 which
  | .warmResetRequest fn be val => fnOk fn && beOk be && wordOk val
  | .tdResetRequest fn be val => fnOk fn && beOk be && wordOk val
  | .perstAssert => true
  | .tdHeartbeat => true
  | .tdWatchdogExpire => true
  | .tdRestartDone => true
  | .blockReset fn be val => fnOk fn && beOk be && wordOk val
  | .blockResetDone => true
  | .i2cWarmResetRequest val => wordOk val
  | .i2cTdResetRequest val => wordOk val
  | .i2cBrownoutClear val => wordOk val
  | .fwCrumb c addr _ => cmdOk c && fits 64 addr
  | .fwCrumbRestart c addr _ => cmdOk c && fits 64 addr
  | .inbandCrumbReceive _ => true
  | .fwVerifyQuery c dest => cmdOk c && fits 64 dest
  | .fwVerify c => cmdOk c
  | .fwVerifyAuthFail => true
  | .fwBankWriteDone => true
  | .fwActivate c turn => cmdOk c && fits 64 turn
  | .fwActivateCancel c => cmdOk c
  | .fwShadowReady => true
  | .dataPathPauseEnd => true
  | .fwMgmtResume => true
  | .fwRevert c turn => cmdOk c && fits 64 turn
  | .fwRevertCancel c => cmdOk c
  | .arbRaise fn be val => fnOk fn && beOk be && wordOk val
  | .keyProgram fn be val hash => fnOk fn && beOk be && wordOk val && hashOk hash
  | .keyRevoke fn be val => fnOk fn && beOk be && wordOk val
  | .fuseOperationDone => true
  | .recoveryGo fn be val _ => fnOk fn && beOk be && wordOk val
  | .recoveryVerify fn be val _ => fnOk fn && beOk be && wordOk val
  | .recoveryVerifyDone => true
  | .recoveryReboot fn be val => fnOk fn && beOk be && wordOk val
  | .mgmtCrumbFrame _ => true
  | .mgmtQueryFrame _ => true
  | .mgmtVerifyFrame _ _ => true
  | .mgmtRebootFrame _ => true
  | .bootConfigStore fn be val _ => fnOk fn && beOk be && wordOk val
  | .bootConfigStoreDone => true
  | .sensorUpdate _ _ => true
  | .thermalTrip _ => true
  | .ledFrameShift => true
  | .calibrationUserWrite fn be k val => fnOk fn && beOk be && below 1166 k && wordOk val
  | .exmOverlapClose t => below 64 t
  | .cxlLinkTrainingDone n _ _ _ _ => below 8 n
  | .perstRelease => true
  | .railRecovery => true
  | .stagedImageCheckDone _ => true

end Sys2Proof
end

