-- ==== Sys2Proof/Tests/Slice0.lean ====
section
/-!
SUPPORT. Tests/Slice0.lean: the smoke tests of WellFormed, one term that each check refuses; worked examples of the spec and
of the standards it cites; and for every obligation with premises a theorem that concrete states and operands meet those of each clause.
-/

namespace Sys2Proof.Tests

set_option Elab.async false
set_option linter.unusedVariables false

open Sys2Proof Sys2Proof.Machine

/-! ### WellFormed -/

/-- A unit's number beyond the last (R15): bridge group 24. -/
theorem test_wf_refuses_group : (Instr.bridgeReplayRequest 24).wf = false := by decide

/-- A third function. -/
theorem test_wf_refuses_function : (Instr.pipelineEnable 2 15 0).wf = false := by decide

/-- Five byte enables for four bytes (R433). -/
theorem test_wf_refuses_byte_enables : (Instr.pipelineEnable 0 16 0).wf = false := by decide

/-- A ninth pipeline. -/
theorem test_wf_refuses_pipeline : (Instr.pipelineEnable 0 15 8).wf = false := by decide

/-- 33 bits for a word. -/
theorem test_wf_refuses_word : (Instr.captureArm 0 15 0 (2 ^ 32)).wf = false := by decide

/-- A low word of 33 bits (R435). -/
theorem test_wf_refuses_low_word : (Instr.todArm 0 15 0 (some (2 ^ 32))).wf = false := by decide

/-- An address of 65 bits. -/
theorem test_wf_refuses_address : (Instr.bucketLock 0 (2 ^ 64) 15).wf = false := by decide

/-- A third ring, a tag of 17 bits (R449, R451), and a device beyond 511 (R386). -/
theorem test_wf_refuses_source :
    cmdOk ⟨.ring 0 2 0, false⟩ = false ∧ cmdOk ⟨.ring 0 0 (2 ^ 16), false⟩ = false ∧ cmdOk ⟨.remote 512 0 0, false⟩ = false ∧
      cmdOk ⟨.firmware, false⟩ = true := by decide

/-- A descriptor of 63 bytes (R449), a key hash of 47 (R519), and an image whose digest under its signature is a byte short (R70). -/
theorem test_wf_refuses_lengths :
    blockOk (List.replicate 63 0) = false ∧ hashOk (List.replicate 47 0) = false ∧
      imageOk ⟨[], [], [], 0, [], List.replicate 47 0, List.replicate 48 0, [], [], true,
        ⟨[], [], [], [], [], [], [], [], [], [], ⟨0, 0, 0⟩, [], [], [], [], [], [], [], 0, 0⟩⟩ = false := by decide

/-- Terms at the edges of what the checks take. -/
theorem test_wf_takes_edges :
    (Instr.bridgeReplayRequest 23).wf = true ∧ (Instr.pipelineEnable 1 15 7).wf = true ∧
      (Instr.captureArm 1 0 7 (2 ^ 32 - 1)).wf = true ∧ (Instr.bucketLock 1 (2 ^ 64 - 1) 15).wf = true := by decide

/-! ### Worked examples -/

/-- The cells of the examples under R238. -/
theorem test_cell_bytes : [60, 300, 1496, 4200, 9212].map cellBytes = [128, 512, 2048, 4224, 10240] := by decide

/-- The overlay of lane 37 (chapter 19). -/
theorem test_overlay : effWord 37 0xF0065804 0x200AF6FE = 0xFF104E02 := by decide

/-- The refills of the rate change of chapter 12: 2,560 bytes at 10 Gb/s in 2,048 ns, 256 at 1 Gb/s; the bucket stops at its burst. -/
theorem test_refill :
    refilled (-1344 * 2 ^ 40) 1 0x000E2710 65536 11 = 1216 * 2 ^ 40 ∧ refilled (-704 * 2 ^ 40) 1 0x000C2710 65536 11 = -448 * 2 ^ 40 ∧
      refilled (65000 * 2 ^ 40) 1 0x000E2710 65536 11 = 65536 * 2 ^ 40 := by decide

/-- The profile of the coupled RFC 4115 meter of chapter 12. -/
def coupled : List Byte := [0x0E, 0, 0, 0] ++ leBytes 4 0x000C2710 ++ leBytes 4 10000 ++ leBytes 4 0x000C4E20 ++ leBytes 4 20000 ++ List.replicate 12 0

/-- A meter entry with two buckets of whole bytes and a time. -/
def meterEntry (t1 t2 last : Nat) : Nat := t1 * 65536 + t2 * 65536 * 2 ^ 48 + last * 2 ^ 96

/-- P1, P2 and P3 of that example. -/
theorem test_coupled_meter :
    meterStep coupled (meterEntry 10000 15000 1000) 1800 1000 0 = (meterEntry 9000 15300 1800, 0) ∧
      meterStep coupled (meterEntry 9000 15300 1800) 2600 1000 1 = (meterEntry 9100 14500 2600, 1) ∧
      meterStep coupled (meterEntry 9100 14500 2600) 3400 1000 2 = (meterEntry 9200 14700 3400, 2) := by decide

/-- A route of the split of chapter 5, under 198.51.0.0/16. -/
def route (third len : Nat) : ASlot := ⟨.always, len, 0xC6330000 + 256 * third, 0, none, 0⟩

/-- The 33 routes of that example, the new /25 among them. -/
def splitRoutes : List ASlot :=
  [route 96 19] ++ (List.range 24).map (fun i => route (96 + i) 24) ++ [route 0 24, route 1 24, route 2 24, route 3 24, route 4 22, route 8 21, route 16 20] ++
    [⟨.new, 25, 0xC6336480, 0x4A17, none, 0⟩]

/-- The descent of that example stops at 198.51.96.0/20, with 17 routes under it. -/
theorem test_split :
    splitNode 32 32 0xC6330000 16 splitRoutes = (0xC6336000, 20) ∧ (underNode 32 0xC6336000 20 splitRoutes).length = 17 := by decide

/-- The check value of CRC-32C, of the bytes "123456789" (R144). -/
theorem test_crc32c : crc32c [0x31, 0x32, 0x33, 0x34, 0x35, 0x36, 0x37, 0x38, 0x39] = 0xE3069283 := by decide +kernel

/-- SHA-384 of the bytes "abc", of the examples of FIPS 180-4 (R66). -/
theorem test_sha384 :
    beNat (sha384 [0x61, 0x62, 0x63]) =
      0xCB00753F45A35E8BB5A03D699AC65007272C32AB0EDED1631A8B605A43FF5BED8086072BA1E7CC2358BAECA134C825A7 := by
  decide +kernel

/-- The public key and the signature of the message "sample" of RFC 6979, A.2.6, with P-384 and SHA-384 (R70); with one bit of it changed
it does not verify. -/
theorem test_ecdsa :
    let pub := [4] ++ beBytes 48 0xEC3A4E415B4E19A4568618029F427FA5DA9A8BC4AE92E02E06AAE5286B300C64DEF8F0EA9055866064A254515480BC13 ++
      beBytes 48 0x8015D9B72D7D57244EA8EF9AC0C621896708A59367F9DFB9F54CA84B3F1C9DB1288B231C3AE0D4FE7344FD2533264720
    let r := beBytes 48 0x94EDBB92A5ECB8AAD4736E56C691916B3F88140666CE9FA73D64C4EA95AD133C81A648152E44ACF96E36DD1E80FABE46
    let s := 0x99EF4AEB15F178CEA1FE40DB2603138F130E740A19624526203B6351D0A3A94FA329C145786E679E7B82C71A38628AC8
    let z := sha384 [0x73, 0x61, 0x6D, 0x70, 0x6C, 0x65]
    ecdsaVerify pub z (r ++ beBytes 48 s) = true ∧ ecdsaVerify pub z (r ++ beBytes 48 (s + 1)) = false := by
  decide +kernel

/-- The example of RFC 1624, which R567 cites; equal words leave the checksum as it is. -/
theorem test_checksum_update : csum64 0xDD2F 0x5555 0x3285 = 0 ∧ csum64 0xDD2F 0x5555 0x5555 = 0xDD2F := by decide

/-- The ring index of rank 1 at reset (R325): 16. -/
theorem test_rank_reset : State.reset.rd (R.HBC_RANK_LC_ring_index 0 1) = 16 := by decide


/-! ### States the premises are met in -/

/-- A state with register fields set. -/
def put (s : State) (l : List (Fld × Nat)) : State := l.foldl (fun t e => t.wr e.1 e.2) s

/-- A device at work, both dies out of reset. -/
def up : State :=
  put { State.reset with svc := { State.reset.svc with fwRunning := true, coreRun := true, pllLocked := true } }
    [(⟨R.GLB_CLKSTAT, 0, 32⟩, 2 ^ 32 - 1), (R.GLB_SERVICE_td_down, 0), (R.GLB_SERVICE_stage, 6)]

/-- The same device after a thousand seconds and at turn 1,000. -/
def later : State := { up with time := { up.time with elapsed := 10 ^ 12, sysNs := 10 ^ 12, turn := 1000, tdNs := 10 ^ 12 } }

/-- A command of PF0's ring 0, and the device with a window of host memory for it. -/
def cmd : Cmd := ⟨.ring 0 0 7, false⟩
/-- The device at work with a window of host memory for that command. -/
def win : State := put up [(R.HAC_DMAW_w0_en 0 0, 1), (R.HAC_DMAW_w2_limit_lo 0 0, 2 ^ 20 - 1)]

/-- A Recipe with nothing in it, an image of it, and a device that runs it. -/
def recipe : Recipe :=
  { states := [], starts := [], headers := [], phv := [], inserts := [], customerWritable := [], customerEdit := [], profiles := [],
    sets := [], drops := [], timeout := ⟨0, 0, 0⟩, stages := [], tables := [], arrays := [], classes := [], seeds := [], words := [],
    initial := [], punt := 0, parsePunt := 0 }
/-- A key of P-384, its signature of a digest, a chain of trust that begins with it, and a device that is fused with it; digests of SHA-384
stand as numbers. -/
def key : List Byte := 4 :: (beBytes 48 p384G.x ++ beBytes 48 p384G.y)
def sign (z : List Byte) : List Byte := beBytes 48 (p384G.x % p384N) ++ beBytes 48 ((beNat z + p384G.x) % p384N)
def signer : List Byte := leBytes 4 0 ++ leBytes 2 3 ++ leBytes 2 0 ++ key
def chain (z : List Byte) : List Byte :=
  leBytes 4 512 ++ leBytes 2 1 ++ leBytes 2 0 ++ key ++ List.replicate 3 0 ++ signer ++ List.replicate 3 0 ++ 
    sign (beBytes 48 0xCE14AC034E176D0ADC0323033428E7FD05597C5600805AA058721CEEAE298D0929D8B2AACD4C6BE34521A17D37E5F955) ++
    sign z ++ List.replicate 104 0
def keySum : List Byte := beBytes 48 0x8C4F262412B7F9ED867606705A130DE5212FD048FBAF8C3842F4A240F4B45BA0C90F82194CCDDA3ED89C96B0AFE1D51D
def fused (s : State) : State :=
  put (put s ((List.range 12).flatMap fun j =>
    [(R.FWS_VKEY_HASH_hash j, leAt keySum (4 * j) 4), (R.FWS_CKEY_HASH_hash 0 j, leAt keySum (4 * j) 4)]))
    [(R.FWS_KEY_STATUS_programmed, 1)]
/-- An image of a Recipe. -/
def image (r : Recipe) : Image :=
  { header := [], sections := [], sigBlock := [], fetched := 0, hashes := [], signed := [], vendorHash := [], vendorHead := [],
    trailer := [], gcmOk := true, recipe := r }
/-- A device that runs a Recipe from slot A. -/
def runs (r : Recipe) (s : State) : State := { s with recipe := { s.recipe with slotA := some (image r) } }

/-- A packet of 64 bytes, wholly arrived, at a place of the pipelines, and a device that holds it. -/
def packet (k : PktAt) : Packet :=
  { id := 5, egress := false, port := 0, pipe := 0, bytes := List.replicate 64 0, arrived := 64, staged := 64, eop := 0, stamp := 0,
    tag := 0, seq := 0, version := 0, inPort := 0, place := k, hv := [], stack := [], payload := 0, emit := 0, profile := 0,
    scan := none, lookups := [], keyNext := 0, skipTo := none, drop := none, hardDrop := false, results := [], txn := none, cls := none,
    poison := false, copyOf := none, begun := 0, slots := [], elapsed := 0, order := 0, bodyBad := false,
    ucode := 0, since := 0 }
/-- A device that holds a packet. -/
def holds (p : Packet) (s : State) : State := { s with fd := { s.fd with pkts := [p] } }

/-- The state a command leaves, and that it leaves one. -/
def after (c : Instr) (s : State) : State := match exec c s with | .next t => t | _ => s
def proceeds (c : Instr) (s : State) : Bool := match exec c s with | .next _ => true | _ => false
theorem exec_after {c : Instr} {s : State} (h : proceeds c s = true) : exec c s = .next (after c s) := by
  unfold proceeds at h
  unfold after
  split at h
  · next hx => rw [hx]
  · cases h
/-- The device with a command waiting. -/
def waiting (c : Instr) : State := { up with pending := [c] }

/-- A Recipe whose only parse state ends at once. -/
def plain : Recipe := { recipe with states := [⟨none, none, [], [], 0⟩], starts := [some 0] }
/-- A Recipe that drops every malformed packet. -/
def strict : Recipe := { recipe with drops := List.replicate 12 ⟨1, 0, 0⟩ }
/-- A scan of the whole packet. -/
def scan : Scan :=
  { sets := 1, start := 0, stop := 64, at_ := 0, stopped := 0, res := [], began := 0, limit := 0, stalled := false, bad := false }

/-- A Recipe whose first stage has one binding, and a packet that waits for its lookup. -/
def bound : Recipe := { plain with stages := [⟨[], 0, [⟨3, 1, false, 0, 0, false⟩], 0, false⟩] }
def looking : Packet := { packet (.lookup 0) with lookups := [⟨0, 9, false, false, 0, 0, false⟩] }

/-- A 64-bit register array, an intent on it and its message on its way from stage 0. -/
def array : ArrInst := ⟨1, ⟨2, .register, 64, 16, 0, 0, false, none, 0⟩, [], []⟩
def intent : Intent := ⟨2, 3, ⟨0, 0, 0, 0, 0⟩, 0, 0, 1, none, 0, 0, 0, false⟩
def txf (s : State) (ms : List IntentMsg) (ch : List Intent) : State :=
  { s with txf := { s.txf with arrays := [(2, array)], msgs := ms, chain := ch } }
def out (k : PktAt) (eop : Nat) : Packet := { packet k with eop := eop }

/-- A classifier with one rule, and an exact-match table of one bucket with one static entry. -/
def asmDecl : TableDecl := ⟨4, .asm (.ternary 1) 80 [0], 8192, false, false, 0⟩
def asmTable : AsmTable := ⟨1, asmDecl, [], [⟨5, 7, 1, .always, 9, none, 0⟩], none, none⟩
def exmDecl : ExmDecl := ⟨16, 64, 1, false, 0, 1, false, 0, none, none, ⟨[], 0⟩, 1, 2, none, 0, 0⟩
def exmTable : ExmTable := ⟨1, ⟨6, .exm exmDecl, 4, false, false, 0⟩, [(0, ⟨5, 1, true, 0, 0, 0, ⟨0, 0, 0, 0, 0⟩⟩)], none, none, [], [], [], [], 0, []⟩
def tables (s : State) (a : AsmTable) (e : ExmTable) : State := { s with tab := { s.tab with asm := [(0, a)], exm := [(0, e)] } }
/-- Handle 63 in a state, with the tables and arrays of an ACTIVE slot A. -/
def handle (st : Nat) : State :=
  put (txf (tables win asmTable exmTable) [] []) [(R.TXT_TXN_w0_state 63, st), (R.FWS_RCP_STATUS_slot_a_state, slActive)]
/-- The same handle with a command that prepares it, a write staged, and a scheduled commit. -/
def staged (st : Nat) (w : List Staged) : State := { handle st with txns := [(63, ⟨w, some cmd, 0⟩)] }
def event (e : SchedEv) (turn : Nat) : SlotEv := ⟨e, turn, false, 0, some cmd, some 0, some 0⟩
def sched (s : State) (x : SlotEv) : State := { s with sched := [x] }
def placed (h : Nat) (s : State) : State := match s.placeAll h (s.upd h).writes with | .ok u => u | .error _ => s
def places (h : Nat) (s : State) : Bool := match s.placeAll h (s.upd h).writes with | .ok _ => true | .error _ => false
theorem placeAll_placed {h : Nat} {s : State} (hp : places h s = true) : s.placeAll h (s.upd h).writes = .ok (placed h s) := by
  unfold places at hp
  unfold placed
  split at hp
  · next hx => rw [hx]
  · cases hp

/-- A learning table in DMA mode, a learn of copy 7, and a device that holds both. -/
def lnTable : ExmTable :=
  ⟨1, ⟨6, .exm { exmDecl with learning := true, delay := 2, ageing := some 8, port := some ⟨16, 8⟩ }, 4, true, false, 0⟩, [], none, none,
   [], [], [], [], 0, []⟩
def learn : Learn := ⟨3, 7, 5, 0, ⟨0, 0, 0, 0, 0⟩⟩
def learns (t : ExmTable) (s : State) : State :=
  put { s with tab := { s.tab with exm := [(3, t)], learns := [learn] } } [(R.PPL_LC_state 7, lcUp)]
def ord : OrderKey := ⟨0, 0, 0, 0, 0⟩
def keep (c : ECell) : ExmTable := { lnTable with cells := [(cellAt 7 0 0, c)] }
/-- A table with a port field, and the device with BAR2 on a learning table. -/
def ptTable : ExmTable := { exmTable with decl := ⟨6, .exm { exmDecl with port := some ⟨16, 8⟩ }, 4, false, false, 0⟩ }
def bar2 (t : ExmTable) : State := put (learns t { win with time := later.time }) [(R.EXM_WIN_table 0, 3)]
def locked : ExmTable := { lnTable with locks := [⟨0, 0, 0, 0, [], none⟩] }

/-- A descriptor of packet 5 that waits for the verdict of its first copy, and a device that holds it. -/
def desc (bad : Bool) : Desc := ⟨5, List.replicate 64 0, 0, 0, 0, 0, 0, 0, 0, true, [.primary, .punt], false, 0, bad, false⟩
def descs (d : Desc) : State := { up with brg := { up.brg with descs := [d] } }
/-- The device with its VOQ 0 draining. -/
def draining : State := { descs (desc false) with buf := { up.buf with queues := [(0, { Queue.idle with lc := lcDraining })] } }
def body : Staging := ⟨5, [], false, false, true, 0⟩
def long : Packet := { packet .parsing with bytes := List.replicate 600 0, arrived := 600, staged := 512 }

/-- The device with a queue whose reservoir tier holds its pages. -/
def tiered (x : Queue) : State := { up with buf := { up.buf with queues := [(9, x)] } }
def resQueue : Queue := { Queue.idle with rpages := [⟨0, 0, false⟩], rst := ⟨[], 0, 512, .none, [], .none, 0⟩ }
def hbmQueue : Queue := { Queue.idle with rst := ⟨List.range 64, 0, 2 ^ 20, .none, [], .none, 0⟩ }
/-- The same with a page free in the reservoir. -/
def roomy : State := { put (tiered hbmQueue) [(R.RSV_PORT_LC_state 0, lcUp), (R.RSV_PORT_CAP_pages 0, 1), (R.RSV_PORT_STATUS_link_up 0, 1)] with
  svc := up.svc }
/-- The device with a reservoir port UP and hold entry 63 in a state. -/
def hold (st : Nat) : State := put win [(R.RSV_PORT_LC_state 7, lcUp), (R.RSV_HOLD_w0_state 63, st)]

/-- The device with two ranks of stack 5 set: rank 127 and rank 0. -/
def ranks (st ro st0 ro0 : Nat) : State :=
  put win [(R.HBC_RANK_LC_state 5 127, st), (R.HBC_RANK_LC_role 5 127, ro), (R.HBC_RANK_LC_state 5 0, st0), (R.HBC_RANK_LC_role 5 0, ro0)]
def patrol : State := put up [(R.MIF_PATROL_CFG_en, 1), (R.MIF_PATROL_CFG_hbm_en, 1), (R.HBC_PART_table_pages, 1), (R.ASM_WALK_CFG_en, 1)]
/-- The same with a stripe whose first two segments hold an equal error. -/
def struck : State :=
  { patrol with mem := { patrol.mem with segs := (List.range 10).map fun j =>
    (segKey 5 31 j, List.replicate 72 (if j < 2 then (1 : Byte) else 0)) } }

/-- The device with one copy in an egress queue of port 0, and what a decision for that port does. -/
def copy (q : Nat) : Copy := ⟨none, 0, q, List.replicate 64 0, 0, 0, 0, 0, 0, 0, false, none, 0, none⟩
def queued (q : Nat) (s : State) : State := { s with buf := { s.buf with queues := [(q, { Queue.idle with ondie := [copy q] })] } }
def ready : State := put (runs plain (queued voqs up)) [(R.LIF_PORT_LC_state 0, lcUp)]
def descent : Option (List (Nat × Nat × Nat)) × State :=
  State.descend ((ready.refreshPort 0).activeTree 0) 4 0 0 (ready.refreshPort 0)
def chosen : Nat := voqs + ((descent.1.getD []).getLast?.map (·.2.1)).getD 0
def popped : Option Copy × State := State.nextCopy chosen ((descent.2.queue chosen).copies + 1) descent.2

/-- The device with link 159 in a state, what the link holds, and a message received on it. -/
def link (st : Nat) (x : LinkSt) (s : State) : State :=
  put { s with fab := { s.fab with links := [(159, x)] } } [(R.FAB_LINK_LC_state 159, st), (R.FAB_LINK_CFG_gen 159, 2)]
def inbox (m : InMsg) (s : State) : State := { s with fab := { s.fab with inbox := [m] } }
def hello : InMsg := ⟨159, 5, 1, [0, 2, 0, 0, 0, 0, 0, 0, 0, 0, 0, 0, 1], 0⟩
def unicast (seq : Nat) : Cell := ⟨ceUnicast, false, 0, 5, 0, seq, none, [1, 2, 3], none⟩
def ctlCell : Cell := ⟨ceControl, false, 0, 5, 7, 0, none, [3, 0, 0, 0], none⟩
def sending : State := link lcUp { LinkSt.idle with queue := [{ unicast 9 with dest := 7 }] } later
def stream (k : Nat) (x : InStream) (s : State) : State := { s with fab := { s.fab with ins := [(k, x)] } }
/-- The device with a VOQ that has credits for its copy, towards a device it reaches. -/
def voq (x : Queue) : State :=
  put { later with buf := { up.buf with queues := [(5 * 1024, x)] } } [(R.FAB_REACH_devices 0, 2 ^ 5)]
def wanted : State :=
  { voq Queue.idle with fab := { up.fab with gens := [(127, ⟨1638400000, 0, false⟩)], demand := [((127 * 8 + 7) * 512 + 5, 100)] } }

/-- The device with a window of host memory, that reaches device 511, which takes remote requests. -/
def far (s : State) : State := put { s with fab := { s.fab with feats := [(511, 2 ^ 2)] } } [(R.FAB_REACH_devices 15, 2 ^ 31)]
def request (op : Nat) : RemoteReq := ⟨9, cmd, 511, op, 1, 0, 64, 0, 0, false⟩
def asked (op : Nat) (s : State) : State := { s with fab := { s.fab with remotes := [request op] } }
def said (kind : Nat) (body : List Byte) : InMsg := ⟨159, 511, kind, body, 0⟩
/-- The device with Dice unit 23 of the bridge. -/
def unit : Nat := diceGroup 23

/-- The device with bridge group 23 in service, with retries. -/
def bridge (n : Nat) (replay : List Nat) : State :=
  put { holds { packet (.stageWait 0) with egress := true } up with
    brg := { up.brg with retry := [(23, n)], replay := replay, verdicts := [⟨5, true, 0, 0, false⟩] } } [(brgUp 23, 1)]

/-- The device with port 127 a 10G Ethernet port in a state, its link up. -/
def port (st : Nat) : State := put up [(R.LIF_PORT_CFG_mode 127, 9), (R.LIF_PORT_LC_state 127, st), (R.LIF_PORT_STATUS_link_up 127, 1)]
/-- A PFC frame that pauses priority 7. -/
def pfc : List Byte :=
  beBytes 6 0x0180C2000001 ++ List.replicate 6 0 ++ beBytes 2 0x8808 ++ beBytes 2 0x0101 ++ [0, 0x80] ++ List.replicate 14 0 ++ [0, 5]
/-- A frame that waits for its transmission on port 0. -/
def leaving : Packet := { packet .txQueue with egress := true }
/-- Port 127 as an OTN port of one slice, in a state of that slice, and a frame received in order. -/
def otn (st : Nat) (x : OtnSlice) (s : State) : State :=
  put { s with lif := { s.lif with slices := [(254, x)] } }
    [(R.LIF_PORT_CFG_mode 127, 11), (R.LIF_PORT_LC_state 127, st), (R.OTN_PORT_CFG_n 127, 1), (R.OTN_RX_SLOT_valid 5080, 1),
     (R.OTN_SLICE_STATUS_oof 254, 0), (R.OTN_SLICE_STATUS_oom 254, 0)]
def slice0 : OtnSlice := ⟨0, 0, 0, 0, 0, 0, 0, 0, false⟩
def otnFrame (fas : Bool) : OtnFrame :=
  ⟨false, false, fas, 0, 0, 0, 0, false, false, 0, 0, 0, false, 1, 0, none, none, []⟩
/-- A packet client on port 127 that maps its frames into OTN port 126. -/
def client : State :=
  put up [(R.LIF_PORT_CFG_mode 127, 12), (R.LIF_PORT_LC_state 127, lcUp), (R.OTN_CLIENT_w0_en 127, 1), (R.OTN_CLIENT_w0_map 127, 1), (R.OTN_CLIENT_w0_otn_port 127, 126), (R.LIF_PORT_CFG_mode 126, 11)]

/-- An image that passes the checks of its load, and what is free and what is loading. -/
def entry (t o n : Nat) : List Byte :=
  leBytes 2 t ++ leBytes 2 (if t = 6 then 1 else 0) ++ leBytes 4 o ++ leBytes 4 n ++ List.replicate 52 0
def good : Image :=
  { image plain with
    header := [0x4F, 0x52, 0x51, 0x31] ++ leBytes 2 1 ++ leBytes 2 256 ++ leBytes 4 8848960 ++ leBytes 2 8 ++ leBytes 2 0 ++
      leBytes 2 0x7260 ++ [0xB0, 0xB0] ++ List.replicate 36 0 ++ leBytes 4 256 ++ leBytes 4 8848704 ++ List.replicate 192 0,
    sections := [entry 1 768 0, entry 2 768 0, entry 3 768 0, entry 4 768 0, entry 6 768 8847936, entry 9 8848704 0,
      entry 0xA 8848704 0, entry 0xB 8848704 0],
    sigBlock := leBytes 4 256 ++ key ++ List.replicate 3 0 ++ sign [] ++ List.replicate 56 0, fetched := 8848960,
    hashes := List.replicate 8 (List.replicate 48 0), vendorHead := List.replicate 28 0 ++ leBytes 4 8847360 ++ List.replicate 32 0,
    trailer := chain [] }
def loading (j : LoadJob) : State :=
  put (fused { later with recipe := { up.recipe with loads := [j], slotB := some good } })
    [(R.FWS_RCP_STATUS_slot_b_state, slLoading)]
def job (n : Nat) : LoadJob := ⟨1, none, some cmd, n, 0, none, 0, 8848960⟩
/-- A window of host memory with a READY slot B. -/
def ready_b : State := put win [(R.FWS_RCP_STATUS_slot_b_state, slReady)]

/-- The device with what its host interface holds replaced. -/
def host (s : State) (h : HostSt) : State := { s with host := h }
/-- The descriptor of a TXN_OPEN, and an event. -/
def open_ : List Byte := [0x10, 0, 7, 0] ++ List.replicate 60 0
def info : EvRec := ⟨0, 0, 2, 0x200000, 0, 0, 0⟩
def pf1 : State := put up [(R.HAC_PF1_BLK_WR_blocks, 2 ^ 32 - 1)]

/-- A snapshot of every set in a stage, and a device that takes it. -/
def snap (stage : Nat) : Snap := ⟨cmd, 4, 31, false, false, 0, 0, 2 ^ 30, stage, 0, 0, [], [], false, [], []⟩
def snapping (x : Snap) : State := { later with cnt := { up.cnt with snaps := [(1, x)] } }

/-- A firmware image of four empty components. -/
def part (k : Nat) : List Byte :=
  leBytes 2 k ++ leBytes 2 1 ++ leBytes 4 (448 + 64 * k) ++ leBytes 4 64 ++ leBytes 4 0 ++ 
    beBytes 48 0xC516AA8D3B457C636C6826937099C0D23A13F2C3701A388B3C8FE4BC2073281B0C4462610369884C4ABABA8E97B6DEBE
def fwBody (code : Nat) : List Byte :=
  [0x53, 0x46, 0x57, 0x31] ++ leBytes 2 1 ++ leBytes 2 256 ++ leBytes 4 1280 ++ leBytes 2 4 ++ leBytes 2 0 ++ leBytes 2 code ++
    [0, 255] ++ List.replicate 36 0 ++ leBytes 4 256 ++ leBytes 4 768 ++ List.replicate 192 0 ++ part 1 ++ part 2 ++ part 3 ++ part 4 ++
    List.replicate 256 0
def fw : List Byte :=
  fwBody 0x7260 ++ chain (beBytes 48 0x306D275D1D934F4493586365C1E995CCB7B97339E1A3AA2A097781173A07A2BCE2178510F44E73F55CFD52A897F91382)
def checks : FwChecks := ⟨true⟩
/-- A device whose service part is replaced, and one whose PLL is about to lock with an image in bank 0. -/
def svc (s : State) (x : ServiceSt) : State := { s with svc := x }
def booting (recover expiries : Nat) : State :=
  put (fused { State.reset with flash := { State.reset.flash with banks := [(0, fw)] } })
    [(R.GLB_STRAPS_recovery_n, recover), (R.FWS_BOOT_STATUS_expiries, expiries)]
/-- A device in recovery mode. -/
def rec : State := svc later { up.svc with recovery := true }
/-- A management frame with an opcode, and that it is one. -/
def frame (op : Byte) (m : List Byte) : List Byte :=
  beBytes 6 (Config.macAddress % 2 ^ 48) ++ (beBytes 6 9 ++ (beBytes 2 0x88B5 ++ ([op, 0, 0, 0] ++ m)))
theorem leNat_leBytes (k n : Nat) : leNat (leBytes k n) = n % 256 ^ k := by
  induction k generalizing n with
  | zero => simp [leBytes, leNat, Nat.mod_one]
  | succ k ih => simp [leBytes, leNat, ih, Nat.pow_succ', Nat.mod_mul]
theorem leBytes_length (k n : Nat) : (leBytes k n).length = k := by
  induction k generalizing n with
  | zero => rfl
  | succ k ih => simp [leBytes, ih]
theorem frame_dest (op : Byte) (m : List Byte) : beAt (frame op m) 0 6 = Config.macAddress % 2 ^ 48 := by
  have h : slice (frame op m) 0 6 = beBytes 6 (Config.macAddress % 2 ^ 48) := by
    simp [slice, frame, beBytes, leBytes_length]
  simp [beAt, h, beNat, beBytes, leNat_leBytes]
theorem frame_drop (op : Byte) (m : List Byte) : frame op m = beBytes 6 (Config.macAddress % 2 ^ 48) ++ (frame op m).drop 6 := by
  simp [frame, beBytes, leBytes_length]
theorem frame_rest (op : Byte) (m : List Byte) :
    (frame op m).drop 6 = beBytes 6 9 ++ (beBytes 2 0x88B5 ++ ([op, 0, 0, 0] ++ m)) := by
  simp [frame, beBytes, leBytes_length]
theorem frame_ok {s : State} {op : Byte} {m : List Byte} (hr : s.svc.recovery = true) (hm : m.length ≤ 4270) :
    s.mgmtFrame (frame op m) op.toNat = true := by
  have h1 : beAt (frame op m) 12 2 = 0x88B5 := by
    have : slice (frame op m) 12 2 = beBytes 2 0x88B5 := by
      have : (frame op m).drop 12 = beBytes 2 0x88B5 ++ ([op, 0, 0, 0] ++ m) := by
        rw [show (12 : Nat) = 6 + 6 from rfl, ← List.drop_drop, frame_rest]; simp [beBytes, leBytes_length]
      simp [slice, this, beBytes, leBytes_length]
    simp [beAt, this]; decide
  have h2 : byteAt (frame op m) 14 = op.toNat := by
    have : (frame op m).getD 14 0 = ((frame op m).drop 6).getD 8 0 := by simp
    rw [byteAt, this, frame_rest]; simp [beBytes, leBytes]
  have h3 : (frame op m).length = 18 + m.length := by simp [frame, beBytes, leBytes_length]; omega
  simp [State.mgmtFrame, hr, h1, h2, h3, frame_dest]; omega
theorem frame_payload (op : Byte) (m : List Byte) : (frame op m).drop 18 = m := by
  rw [show (18 : Nat) = 6 + 12 from rfl, ← List.drop_drop, frame_rest]; simp [beBytes, leBytes]

/-- The only crumb of an image, and a device that stages the firmware image whole. -/
def crumbHead : List Byte := [0x53, 0x43, 0x52, 0x42] ++ List.replicate 16 0 ++ leBytes 4 0 ++ leBytes 4 1 ++ leBytes 4 1
def crumb : List Byte := crumbHead ++ leBytes 4 (crc32c (crumbHead ++ [9])) ++ List.replicate 28 0 ++ [9]
def flash (s : State) (x : FlashSt) : State := { s with flash := x }
def stages (m : List Byte) (s : State) : State := fused (flash s { s.flash with binding := some ([], 1), crumbs := [(0, m)] })
def whole (s : State) : State := stages fw s
def checkingOf (m : List Byte) (ask : FwAsk) (stage : Nat) : State :=
  flash (stages m later) { (stages m later).flash with job := some ⟨ask, stage, 0, 1⟩ }
def checking (ask : FwAsk) (stage : Nat) : State := checkingOf fw ask stage
/-- A firmware image of another part, and one whose first component's digest is not its own. -/
def foreign : List Byte :=
  fwBody 0x7261 ++ chain (beBytes 48 0xD7FDAE8BDC81846887D878AE4892D3A623D498F786B8C59A315EAFB9C7025D58761927AB89E254EA822CEE652B952D13)
def broken : List Byte := overlay fw 272 [1]
/-- The device with an image in each bank, bank 1 in a state. -/
def banks (st : Nat) (old : List Byte) : State := flash win { up.flash with banks := [(0, old), (1, fw)], states := [(0, bkActive), (1, st)] }
def firm (u r : Bool) (turn : Nat) : SlotEv := event (.firmware 1 u r) turn
def bcfg (r : List Byte) : State := svc up { up.svc with bcfgJob := some r }
def recBody : List Byte :=
  List.replicate 12 0 ++ leBytes 4 0 ++ leBytes 4 14 ++ List.replicate 32 0 ++
    (List.replicate 128 (leBytes 4 (regReset (R.LIF_PORT_CFG 0)).toNat ++ List.replicate 12 0)).flatten ++ List.replicate 1984 0
def record : List Byte := [0x53, 0x42, 0x43, 0x46, 1, 0, 0, 0] ++ (leBytes 4 (crc32c recBody) ++ recBody)
theorem crcBit_lt {c : Nat} (h : c < 2 ^ 32) : crcBit c < 2 ^ 32 := by
  unfold crcBit
  split
  · exact Nat.xor_lt_two_pow (by omega) (by decide)
  · omega
theorem crc32c_lt (bs : List Byte) : crc32c bs < 2 ^ 32 := by
  have h : ∀ c, c < 2 ^ 32 → bs.foldl (fun c b => crcByte c b.toNat) c < 2 ^ 32 := by
    induction bs with
    | nil => intro c hc; exact hc
    | cons b bs ih =>
      intro c hc
      refine ih _ ?_
      unfold crcByte
      iterate 8 refine crcBit_lt ?_
      exact Nat.xor_lt_two_pow hc (by omega)
  exact Nat.xor_lt_two_pow (h _ (by decide)) (by decide)
theorem record_crc : (crc32c (record.drop 12) == leAt record 8 4) = true := by
  have h : record.drop 12 = recBody := by simp [record, leBytes]
  have h' : slice record 8 4 = leBytes 4 (crc32c recBody) := by simp [slice, record, leBytes]
  have := crc32c_lt recBody
  simp only [leAt, h, h', leNat_leBytes, beq_iff_eq]
  omega
theorem record_ok : bootCfgOk record = true := by
  unfold bootCfgOk
  simp only [record_crc, Bool.and_eq_true]
  and_intros
  all_goals decide +kernel
/-- The device with a window and its recovery mode, the crumb in the download window. -/
def recWin : State :=
  svc win { up.svc with recovery := true,
                        window := (List.range crumb.length).filterMap fun k => if crumb.getD k 0 = 0 then none else some (k, crumb.getD k 0) }

/-! ### The premises of the obligations -/

/-- The premises of Obligations.StepRunsTheFrontCommand are met, clause by clause. -/
theorem test_step_runs_the_front_command_premises :
    (∃ (c : Instr) (rest : List Instr) (s : State), s.pending = c :: rest) :=
  ⟨.perstRelease, [.blockResetDone], { up with pending := [.perstRelease, .blockResetDone] }, by decide +kernel⟩

/-- The premises of Obligations.AnEmptyQueuePassesTime are met, clause by clause. -/
theorem test_an_empty_queue_passes_time_premises :
    (∃ (s : State), s.pending = []) ∧
    (∃ (s : State), s.pending = []) :=
  ⟨⟨up, by decide +kernel⟩,
   ⟨up, by decide +kernel⟩⟩

/-- The premises of Obligations.ResetIsWellKept are met, clause by clause. -/
theorem test_reset_is_well_kept_premises :
    (∃ p, p < 128) ∧
    (∃ l, l < 160) ∧
    (∃ fn, fn < 2) :=
  ⟨⟨127, by decide +kernel⟩,
   ⟨159, by decide +kernel⟩,
   ⟨1, by decide +kernel⟩⟩

/-- The premises of Obligations.EveryStepKeepsRegistersCanonical are met, clause by clause. -/
theorem test_every_step_keeps_registers_canonical_premises :
    (∃ (s : State) (t : State), RegsCanonical s ∧ step s = .next t) :=
  ⟨up, up.tick, (show canonical regReset up.regs = true by decide +kernel), rfl⟩

/-- The premises of Obligations.CommandsChangeOnlyTheirParts are met, clause by clause. -/
theorem test_commands_change_only_their_parts_premises :
    (∃ (c : Instr) (s : State) (t : State), exec c s = .next t) ∧
    (∃ (c : Instr) (s : State) (t : State), exec c s = .next t) :=
  ⟨⟨.powerLoss, up, after .powerLoss up, exec_after (by decide +kernel)⟩,
   ⟨.ledFrameShift, up, after .ledFrameShift up, exec_after (by decide +kernel)⟩⟩

/-- The premises of Obligations.TimeOnlyMovesByItsCommands are met, clause by clause. -/
theorem test_time_only_moves_by_its_commands_premises :
    (∃ (s : State) (t : State), step s = .next t) ∧
    (∃ (c : Instr) (s : State) (t : State), c.movesTurn = false ∧ exec c s = .next t) :=
  ⟨⟨up, up.tick, rfl⟩,
   ⟨.tdTimeTransfer, later, after .tdTimeTransfer later, by decide +kernel, exec_after (by decide +kernel)⟩⟩

/-- The premises of Obligations.PostedWritesAreNumbered are met, clause by clause. -/
theorem test_posted_writes_are_numbered_premises :
    (∃ fn, fn < 2) ∧
    (∃ (fn : Nat) (addr : Nat) (be : Nat) (val : Nat) (high : Option Nat) (s : State) (t : State), fn < 2 ∧ s.answers fn = true ∧
      (exec (.registerWrite fn 0 addr be val high) s = .next t ∨ exec (.registerWrite fn 2 addr be val high) s = .next t)) ∧
    (∃ (fn : Nat) (ring : Nat) (be : Nat) (val : Nat) (s : State) (t : State), fn < 2 ∧ s.answers fn = true ∧
      (exec (.commandTailDoorbell fn ring be val) s = .next t ∨ exec (.completionHeadDoorbell fn ring be val) s = .next t)) ∧
    (∃ (fn : Nat) (addr : Nat) (data : List Byte) (s : State) (t : State), fn < 2 ∧ s.answers fn = true ∧
      exec (.bucketStagingWrite fn addr data) s = .next t) ∧
    (∃ (fn : Nat) (s : State), fn < 2 ∧ ReadTaken s fn (R.HAC_WSEQ 0)) :=
  ⟨⟨1, by decide +kernel⟩,
   ⟨0, R.TBS_SERVO_OFFSET, 15, 7, none, put up [(R.HAC_WSEQ_seq 0, 2 ^ 32 - 1)],
     after (.registerWrite 0 2 R.TBS_SERVO_OFFSET 15 7 none) (put up [(R.HAC_WSEQ_seq 0, 2 ^ 32 - 1)]), by decide +kernel,
     by decide +kernel, .inr (exec_after (by decide +kernel))⟩,
   ⟨1, 0, 15, 3, up, after (.commandTailDoorbell 1 0 15 3) up, by decide +kernel, by decide +kernel, .inl (exec_after (by decide +kernel))⟩,
   ⟨0, 64, [1], up, after (.bucketStagingWrite 0 64 [1]) up, by decide +kernel, by decide +kernel, exec_after (by decide +kernel)⟩,
   ⟨1, put up [(R.HAC_PF1_BLK_RD_blocks, 2 ^ 32 - 1)], by decide +kernel⟩⟩

/-- The premises of Obligations.BytesOutsideRegisters are met, clause by clause. -/
theorem test_bytes_outside_registers_premises :
    (∃ (fn : Nat) (addr : Nat) (be : Nat) (val : Nat) (s : State), fn < 2 ∧ s.answers fn = true ∧ blockOf addr = none) ∧
    (∃ (fn : Nat) (addr : Nat) (be : Nat) (val : Nat) (s : State), fn < 2 ∧ s.answers fn = true ∧ blockOf addr = none) ∧
    (∃ (fn : Nat) (addr : Nat) (be : Nat) (s : State), fn < 2 ∧ addr % 4 = 0 ∧ regAt (s.banked fn addr) = none ∧ ReadTaken s fn addr) ∧
    (∃ (fn : Nat) (addr : Nat) (be : Nat) (val : Nat) (s : State), fn < 2 ∧ regAt (s.banked fn addr) = none ∧
      WriteTaken s fn addr be false) ∧
    (∃ (addr : Nat) (be : Nat) (val : Nat) (why : Nat) (s : State), s.answers 1 = true ∧ (blockOf addr).isSome = true ∧
      regAt (s.banked 1 addr) = none ∧ s.pf1Denied addr true = some why) ∧
    (∃ (addr : Nat) (be : Nat) (val : Nat) (why : Nat) (s : State), s.answers 1 = true ∧ (blockOf addr).isSome = true ∧
      regAt (s.banked 1 addr) = none ∧ s.pf1Denied addr false = some why) ∧
    (∃ (fn : Nat) (addr : Nat) (be : Nat) (val : Nat) (b : Blk) (s : State), fn < 2 ∧ s.answers fn = true ∧ blockOf addr = some b ∧
      regAt (s.banked fn addr) = none ∧ (decide (16 ≤ accessBit addr b.bit) && s.tdDown) = false ∧
      s.clockRuns (accessBit addr b.bit) = false ∧ ((fn = 1 → s.pf1Denied addr true = none))) ∧
    (∃ (fn : Nat) (addr : Nat) (be : Nat) (val : Nat) (b : Blk) (s : State), fn < 2 ∧ s.answers fn = true ∧ blockOf addr = some b ∧
      regAt (s.banked fn addr) = none ∧ (decide (16 ≤ accessBit addr b.bit) && s.tdDown) = false ∧
      s.clockRuns (accessBit addr b.bit) = false ∧ ((fn = 1 → s.pf1Denied addr false = none))) :=
  ⟨⟨1, 0xAC00000, 15, 1, up, by decide +kernel⟩,
   ⟨0, 0xFFFFFFC, 15, 1, up, by decide +kernel⟩,
   ⟨0, 0x2FFFFC, 15, up, by decide +kernel⟩,
   ⟨0, 0x2FFFFC, 15, 9, up, by decide +kernel⟩,
   ⟨0x2FFFFC, 15, 9, secRight, up, by decide +kernel⟩,
   ⟨0x2FFFFC, 15, 9, secRight, up, by decide +kernel⟩,
   ⟨0, 0x2FFFFC, 15, 9, ⟨2, 0x200000, 0x300000⟩, put up [(⟨R.GLB_CLKSTAT, 2, 1⟩, 0)], by decide +kernel⟩,
   ⟨0, 0x2FFFFC, 15, 9, ⟨2, 0x200000, 0x300000⟩, put up [(⟨R.GLB_CLKSTAT, 2, 1⟩, 0)], by decide +kernel⟩⟩

/-- The premises of Obligations.TimeBaseCommandsTakeEffect are met, clause by clause. -/
theorem test_time_base_premises :
    (∃ (s : State), s.tdDown = false) ∧
    (∃ (fn : Nat) (val : Nat) (low : Option Nat) (s : State), WriteTaken s fn R.TBS_TOD_NEXT_SEC_HI 15 true) ∧
    (∃ (offset : Int) (s : State), s.rd R.TBS_CTRL_src_sel = 1 ∧ s.time.todArmed = true ∧ s.turnState = tsFree) ∧
    (∃ (offset : Int) (s : State), s.rd R.TBS_CTRL_src_sel = 1 ∧ (¬ (s.time.todArmed = true ∧ s.turnState = tsFree))) ∧
    (∃ (fn : Nat) (val : Nat) (s : State), WriteTaken s fn R.TBS_PHASE_ADJ 15 true) ∧
    (∃ (fn : Nat) (val : Nat) (lo : Nat) (s : State), WriteTaken s fn R.TBS_STEP_HI 15 true ∧ s.turnState = tsFree) ∧
    (∃ (fn : Nat) (val : Nat) (low : Option Nat) (s : State), WriteTaken s fn R.TBS_STEP_HI 15 true ∧ s.turnState ≠ tsFree) ∧
    (∃ (fn : Nat) (val : Nat) (s : State), WriteTaken s fn R.TBS_CAPTURE 15 true ∧ bitAt val 0 = true) :=
  ⟨⟨up, by decide +kernel⟩,
   ⟨0, 5, some 7, up, by decide +kernel⟩,
   ⟨-7, put { up with time := { up.time with todArmed := true } } [(R.TBS_CTRL_src_sel, 1)], by decide +kernel⟩,
   ⟨9, put up [(R.TBS_CTRL_src_sel, 1)], by decide +kernel⟩,
   ⟨0, 5, up, by decide +kernel⟩,
   ⟨0, 5, 1, up, by decide +kernel⟩,
   ⟨0, 5, none, put up [(R.TBS_TURN_STATUS_turn_state, 2)], by decide +kernel⟩,
   ⟨0, 1, up, by decide +kernel⟩⟩

/-- The premises of Obligations.TurnStateCommandsTakeEffect are met, clause by clause. -/
theorem test_turn_state_premises :
    (∃ (fn : Nat) (be : Nat) (val : Nat) (s : State), WriteTaken s fn R.TBS_CTRL be false ∧ bitAt be 0 = true ∧ val % 4 ≠ 3) ∧
    (∃ (fn : Nat) (be : Nat) (val : Nat) (s : State), WriteTaken s fn R.TBS_CTRL be false ∧ bitAt be 0 = true ∧ val % 4 = 3) ∧
    (∃ (fn : Nat) (val : Nat) (s : State), WriteTaken s fn R.TBS_SERVO_OFFSET 15 false ∧ s.rd R.TBS_CTRL_src_sel = 2) ∧
    (∃ (s : State), s.rd R.TBS_CTRL_src_sel ≠ 0 ∧ s.time.lastMeas + 2000000000 ≤ s.time.elapsed) ∧
    (∃ (s : State), s.turnState = tsLocking ∧ s.time.lastGood + s.rd R.TBS_LOCK_CFG_unlock_timeout * 1000000000 ≤ s.time.elapsed) ∧
    (∃ (fn : Nat) (val : Nat) (s : State), WriteTaken s fn R.TBS_TURN_LEN_LOG2 15 false ∧ s.turnState = tsFree ∧ s.sched = [] ∧
      s.renumberBlocked = false ∧ 10 ≤ val % 32 ∧ val % 32 ≤ 20 ∧ val % 32 ≠ s.turnLog) ∧
    (∃ (fn : Nat) (val : Nat) (s : State), WriteTaken s fn R.TBS_TURN_LEN_LOG2 15 false ∧
      ((s.turnState ≠ tsFree ∨ s.sched ≠ [] ∨ s.renumberBlocked = true ∨ val % 32 < 10 ∨ 20 < val % 32))) ∧
    (∃ (causes : List (Nat × Nat)) (s : State), s.stopped = false) :=
  ⟨⟨0, 1, 2, up, by decide +kernel⟩,
   ⟨0, 15, 3, up, by decide +kernel⟩,
   ⟨0, 40, put up [(R.TBS_CTRL_src_sel, 2)], by decide +kernel⟩,
   ⟨put later [(R.TBS_CTRL_src_sel, 1)], by decide +kernel⟩,
   ⟨put later [(R.TBS_TURN_STATUS_turn_state, tsLocking)], by decide +kernel⟩,
   ⟨0, 20, up, by decide +kernel⟩,
   ⟨0, 9, up, by decide +kernel⟩,
   ⟨[], up, by decide +kernel⟩⟩

/-- The premises of Obligations.ClockCommandsTakeEffect are met, clause by clause. -/
theorem test_clock_premises :
    (∃ (ref0 : Int) (ref1 : Int) (tref : Int) (xtal : Int) (s : State), s.srcFailed 3 = false ∧ xtal.natAbs ≤ 20000000 ∧
      s.srcFailed 0 = false ∧ s.rd R.TBS_CLKMON_CFG_window_ppm * 1000 < ref0.natAbs) ∧
    (∃ (fn : Nat) (val : Nat) (s : State), WriteTaken s fn R.TBS_CLKMON_SEL 15 false ∧ bitAt val 1 = false) ∧
    (∃ (fn : Nat) (m : Nat) (r : Nat) (g : Nat) (s : State), WriteTaken s fn R.TBS_FMEAS_CTRL 15 true ∧
      s.on R.TBS_FMEAS_STATUS_busy = false ∧ m < 256 ∧ fmeasCode m = true ∧ r < 256 ∧ fmeasCode r = true ∧ 10 ≤ g ∧ g ≤ 26) ∧
    (∃ (count : Nat) (stopped : Bool) (s : State), s.on R.TBS_FMEAS_STATUS_busy = true) ∧
    (∃ (fn : Nat) (be : Nat) (val : Nat) (s : State), WriteTaken s fn R.GLB_CLKEN be false) :=
  ⟨⟨2000000000, 0, 0, 20000000, up, by decide +kernel⟩,
   ⟨0, 0, up, by decide +kernel⟩,
   ⟨0, 0, 1, 26, up, by decide +kernel⟩,
   ⟨9, false, put up [(R.TBS_FMEAS_STATUS_busy, 1)], by decide +kernel⟩,
   ⟨0, 1, 3, up, by decide +kernel⟩⟩

/-- The premises of Obligations.ParserCommandsTakeEffect are met, clause by clause. -/
theorem test_parser_premises :
    (∃ (id : Nat) (p : Packet) (s : State), s.pkt id = some p ∧ (s.pktRecipe p).isSome = true ∧ p.place = .fifo ∧ p.egress = false ∧
      min 512 p.len ≤ p.arrived ∧ s.fdOpen = true ∧ s.fifoHeld p.port = false ∧ (s.oldestOf p (fun q => q.place == .fifo) = true)) ∧
    (∃ (id : Nat) (p : Packet) (r : Recipe) (s : State), s.pkt id = some p ∧ s.pktRecipe p = some r ∧
      (p.place = .parsing ∨ p.place = .stalled) ∧ p.poison = false ∧
      ((r.parse p.bytes p.len (inForce (sread (fun _ => []) s.fd.starts p.port) 0 p.tag)).cls = 0) ∧ s.holdCount p.pipe < 128) ∧
    (∃ (id : Nat) (p : Packet) (r : Recipe) (s : State), s.pkt id = some p ∧ s.pktRecipe p = some r ∧
      (p.place = .parsing ∨ p.place = .stalled) ∧ p.poison = false ∧
      ((r.parse p.bytes p.len (inForce (sread (fun _ => []) s.fd.starts p.port) 0 p.tag)).cls ≠ 0) ∧
      ((r.clsAction (r.parse p.bytes p.len (inForce (sread (fun _ => []) s.fd.starts p.port) 0 p.tag)).cls).code ≤ 2)) ∧
    (∃ (fn : Nat) (be : Nat) (pl : Nat) (s : State), pl < 8 ∧ WriteTaken s fn (R.PRS_CAP_CTRL pl) be false ∧ bitAt be 0 = true) ∧
    (∃ (fn : Nat) (be : Nat) (port : Nat) (val : Nat) (s : State), port < 128 ∧ WriteTaken s fn (R.PRS_PORT_START port) be false ∧
      bitAt be 0 = true) :=
  ⟨⟨5, packet .fifo, runs plain (holds (packet .fifo) up), by decide +kernel⟩,
   ⟨5, packet .parsing, plain, runs plain (holds (packet .parsing) up), by decide +kernel⟩,
   ⟨5, packet .stalled, strict, runs strict (holds (packet .stalled) up), by decide +kernel⟩,
   ⟨0, 1, 7, up, by decide +kernel⟩,
   ⟨0, 15, 127, 9, up, by decide +kernel⟩⟩

/-- The premises of Obligations.ScannerCommandsTakeEffect are met, clause by clause. -/
theorem test_scanner_premises :
    (∃ (id : Nat) (p : Packet) (r : Recipe) (sc : Scan) (s : State), s.pkt id = some p ∧ s.pktRecipe p = some r ∧ p.scan = some sc ∧
      p.place = .scanning ∧ sc.stalled = false ∧ p.readable (min (sc.at_ + 64) sc.stop) = true) ∧
    (∃ (id : Nat) (p : Packet) (r : Recipe) (sc : Scan) (s : State), s.pkt id = some p ∧ s.pktRecipe p = some r ∧ p.scan = some sc ∧
      p.place = .scanning ∧ sc.stalled = false ∧ p.readable (min (sc.at_ + 64) sc.stop) = false) ∧
    (∃ (id : Nat) (arrived : Nat) (staged : Nat) (p : Packet) (s : State), s.pkt id = some p) ∧
    (∃ (id : Nat) (p : Packet) (r : Recipe) (sc : Scan) (s : State), s.pkt id = some p ∧ s.pktRecipe p = some r ∧ p.scan = some sc ∧
      p.place = .scanning ∧ sc.began + sc.limit ≤ s.time.elapsed) ∧
    (∃ (id : Nat) (p : Packet) (s : State), s.pkt id = some p ∧ p.place = .holdDone ∧ (s.oldestOf p (fun q => q.place.early) = true)) ∧
    (∃ (fn : Nat) (set : Nat) (s : State), set < 8 ∧ WriteTaken s fn (R.PRS_SET_LC set) 15 true) ∧
    (∃ (fn : Nat) (set : Nat) (s : State), set < 8 ∧ WriteTaken s fn (R.PRS_SET_LC set) 15 true) ∧
    (∃ (set : Nat) (s : State), set < 8 ∧ s.rd (R.PRS_SET_LC_state set) = lcDraining ∧ s.fd.pkts = []) :=
  ⟨⟨5, { packet .scanning with scan := some scan }, plain, scan, runs plain (holds ({ packet .scanning with scan := some scan }) up),
    by decide +kernel⟩,
   ⟨5, { packet .scanning with scan := some scan, arrived := 63 }, plain, scan,
     runs plain (holds ({ packet .scanning with scan := some scan, arrived := 63 }) up), by decide +kernel⟩,
   ⟨5, 70, 64, packet .fifo, runs plain (holds (packet .fifo) up), by decide +kernel⟩,
   ⟨5, { packet .scanning with scan := some scan }, plain, scan, runs plain (holds ({ packet .scanning with scan := some scan }) up),
     by decide +kernel⟩,
   ⟨5, packet .holdDone, runs plain (holds (packet .holdDone) up), by decide +kernel⟩,
   ⟨0, 7, up, by decide +kernel⟩,
   ⟨0, 0, up, by decide +kernel⟩,
   ⟨0, put up [(R.PRS_SET_LC_state 0, lcDraining)], by decide +kernel⟩⟩

/-- The premises of Obligations.StageCommandsTakeEffect are met, clause by clause. -/
theorem test_stage_premises :
    (∃ (pl : Nat) (stage : Nat) (cause : Nat) (s : State), pl < 8 ∧ stage < 24 ∧ s.fdRuns = true ∧ 0x020 ≤ cause ∧ cause ≤ 0x022 ∧
      s.pmuRuns 0 = true) ∧
    (∃ (pl : Nat) (stage : Nat) (id : Nat) (cause : Nat) (k : Nat) (p : Packet) (r : Recipe) (s : State), pl < 8 ∧ stage < 24 ∧
      s.fdRuns = true ∧ k = stage ∧ 0 < k ∧ s.pkt id = some p ∧ s.pktRecipe p = some r ∧ p.pipe = pl ∧ p.egress = false ∧
      p.place = .stageWait k ∧ s.inTurn p (3 * k) = true ∧ s.intentWait p k = false ∧ s.holdClosed r pl stage = false) ∧
    (∃ (id : Nat) (i : Nat) (k : Nat) (p : Packet) (l : Lookup) (b : Binding) (f : Found) (s : State) (u : State), s.pkt id = some p ∧
      p.place = .lookup k ∧ p.lookups[i]? = some l ∧ s.bindingOf p k l.binding = some b ∧ l.done = false ∧ u = s.countLook p b.table ∧
      f = u.look p b.table l.key ∧ ((f.reads.all fun x => x.2.2 < 2) = true) ∧
      ((u.findAsm p.version b.table).isSome = true ∨ (u.readLook p b.table l.key).1 = false)) ∧
    (∃ (id : Nat) (k : Nat) (p : Packet) (r : Recipe) (s : State), s.pkt id = some p ∧ s.pktRecipe p = some r ∧ p.place = .action k ∧
      s.inTurn p (3 * k + 2) = true ∧ s.fdRuns = true ∧ p.drop = none ∧
      s.fd.badWords.contains (ctlKey p.pipe p.version (p.stageNo k) (wordAddr (r.stages.getD (p.stageNo k) ⟨[], 0, [], 0,
      false⟩) p.lookups)) = false ∧ parityHolds (s.storedAt r p.pipe p.version (p.stageNo k) (wordAddr (r.stages.getD (p.stageNo k) ⟨[], 0,
      [], 0, false⟩) p.lookups)) = true ∧ wordKind (s.storedAt r p.pipe p.version (p.stageNo k) (wordAddr (r.stages.getD (p.stageNo k) ⟨[],
      0, [], 0, false⟩) p.lookups) % 2 ^ 640) ≠ 1) ∧
    (∃ (id : Nat) (k : Nat) (word : Nat) (upset : Nat) (p : Packet) (r : Recipe) (s : State), s.pkt id = some p ∧ s.pktRecipe p = some r ∧
      p.place = .action k ∧ s.inTurn p (3 * k + 2) = true ∧ s.fdRuns = true ∧ p.drop = none ∧
      word = wordAddr (r.stages.getD (p.stageNo k) ⟨[], 0, [], 0, false⟩) p.lookups ∧
      s.fd.badWords.contains (ctlKey p.pipe p.version (p.stageNo k) word) = false ∧ upset ≠ 0 ∧
      parityHolds ((s.flipWord (ctlKey p.pipe p.version (p.stageNo k) word) upset).storedAt r p.pipe p.version (p.stageNo k) word) = false) :=
  ⟨⟨7, 23, 0x22, put up [(R.PMx_CTRL_run 0, 1)], by decide +kernel⟩,
   ⟨0, 23, 5, 0, 23, packet (.stageWait 23), plain, runs plain (holds (packet (.stageWait 23)) up), by decide +kernel⟩,
   ⟨5, 0, 0, looking, ⟨0, 9, false, false, 0, 0, false⟩, ⟨3, 1, false, 0, 0, false⟩, (runs bound (holds looking up)).look looking 3 9,
     runs bound (holds looking up), (runs bound (holds looking up)).countLook looking 3, by decide +kernel⟩,
   ⟨5, 0, packet (.action 0), plain, runs plain (holds (packet (.action 0)) up), by decide +kernel⟩,
   ⟨5, 23, 0, 1, packet (.action 23), plain, runs plain (holds (packet (.action 23)) up), by decide +kernel⟩⟩

/-- The premises of Obligations.PipelineCommandsTakeEffect are met, clause by clause. -/
theorem test_pipeline_premises :
    (∃ (pl : Nat) (stage : Nat) (bank : Nat) (word : Nat) (s : State), pl < 8 ∧ s.tdDown = false ∧
      s.fd.badWords.contains (ctlKey pl bank stage word) = true) ∧
    (∃ (pl : Nat) (stage : Nat) (bank : Nat) (word : Nat) (s : State), pl < 8 ∧ stage < 36 ∧ bank < 2 ∧ word < 4096 ∧
      s.on (R.PPL_MC_CFG_patrol_en pl) = true ∧ (sread (fun _ => 0) s.fd.flips (ctlKey pl bank stage word) = 0)) ∧
    (∃ (fn : Nat) (pl : Nat) (s : State), pl < 8 ∧ WriteTaken s fn (R.PPL_LC pl) 15 true ∧ s.rd (R.PPL_LC_state pl) = lcDown) ∧
    (∃ (fn : Nat) (pl : Nat) (s : State), pl < 8 ∧ WriteTaken s fn (R.PPL_LC pl) 15 true ∧ s.rd (R.PPL_LC_state pl) = lcUp ∧
      s.rd (R.PPL_LC_state (buddy pl)) = lcUp) ∧
    (∃ (pl : Nat) (s : State), pl < 8 ∧ s.rd (R.PPL_LC_state pl) = lcStarting ∧ s.tdDown = false) ∧
    (∃ (pl : Nat) (s : State), pl < 8 ∧ s.rd (R.PPL_LC_state pl) = lcDraining ∧ s.pipeBusy pl = false) ∧
    (∃ (pl : Nat) (s : State), s.fd.pkts = []) :=
  ⟨⟨7, 35, 1, 4095, { up with fd := { up.fd with badWords := [ctlKey 7 1 35 4095] } }, by decide +kernel⟩,
   ⟨7, 35, 1, 4095, put up [(R.PPL_MC_CFG_patrol_en 7, 1)], by decide +kernel⟩,
   ⟨0, 7, put up [(R.PPL_LC_state 7, lcDown)], by decide +kernel⟩,
   ⟨0, 0, put up [(R.PPL_LC_state 0, lcUp), (R.PPL_LC_state 1, lcUp)], by decide +kernel⟩,
   ⟨7, put up [(R.PPL_LC_state 7, lcStarting)], by decide +kernel⟩,
   ⟨7, put up [(R.PPL_LC_state 7, lcDraining)], by decide +kernel⟩,
   ⟨3, { up with fd := { up.fd with returning := [3] } }, by decide +kernel⟩⟩

/-- The premises of Obligations.SectionEndCommandsTakeEffect are met, clause by clause. -/
theorem test_section_end_premises :
    (∃ (id : Nat) (p : Packet) (r : Recipe) (s : State), s.pkt id = some p ∧ s.pktRecipe p = some r ∧ s.leaves p false = true ∧
      p.drop = none ∧ p.eop ≠ 1 ∧ p.eop ≠ 3 ∧ s.tdDown = false) ∧
    (∃ (id : Nat) (p : Packet) (r : Recipe) (s : State), s.pkt id = some p ∧ s.pktRecipe p = some r ∧ s.leaves p false = true ∧
      p.drop = none ∧ p.eop = 1) ∧
    (∃ (id : Nat) (good : Bool) (p : Packet) (s : State), s.pkt id = some p ∧ p.egress = false ∧ p.eop = 1 ∧ p.place ≠ .eopHold) ∧
    (∃ (id : Nat) (p : Packet) (r : Recipe) (s : State), s.pkt id = some p ∧ s.pktRecipe p = some r ∧ p.egress = false ∧ p.eop = 1 ∧
      p.place = .eopHold ∧ p.drop = none ∧ s.tdDown = false) ∧
    (∃ (id : Nat) (p : Packet) (r : Recipe) (s : State), s.pkt id = some p ∧ s.pktRecipe p = some r ∧ p.egress = false ∧ p.eop = 1 ∧
      p.place = .eopHold ∧ p.drop = none ∧ s.tdDown = false) ∧
    (∃ (id : Nat) (v : Verdict) (p : Packet) (s : State), s.nextVerdict = some v ∧ v.pkt = id ∧ v.bad = false ∧ s.pkt id = some p ∧
      p.place = .verdict) ∧
    (∃ (id : Nat) (poisoned : Bool) (v : Verdict) (s : State), s.nextVerdict = some v ∧ v.pkt = id ∧ (poisoned || v.bad) = true) ∧
    (∃ (id : Nat) (p : Packet) (r : Recipe) (s : State), s.pkt id = some p ∧ s.pktRecipe p = some r ∧ s.leaves p true = true ∧
      p.drop = none ∧ (deparse r p.bytes (p.land 1000).hv p.stack p.payload p.emit).length + 4 ≤ s.rd (R.LIF_PORT_MTU_tx_mtu p.port)) ∧
    (∃ (id : Nat) (p : Packet) (r : Recipe) (s : State), s.pkt id = some p ∧ s.pktRecipe p = some r ∧ s.leaves p true = true ∧
      p.drop = none ∧ s.rd (R.LIF_PORT_MTU_tx_mtu p.port) < (deparse r p.bytes (p.land 1000).hv p.stack p.payload p.emit).length + 4) :=
  ⟨⟨5, packet .leaving, plain, runs plain (holds (packet .leaving) up), by decide +kernel⟩,
   ⟨5, out .leaving 1, plain, runs plain (holds (out .leaving 1) up), by decide +kernel⟩,
   ⟨5, true, out .leaving 1, runs plain (holds (out .leaving 1) up), by decide +kernel⟩,
   ⟨5, out .eopHold 1, plain, runs plain (holds (out .eopHold 1) up), by decide +kernel⟩,
   ⟨5, out .eopHold 1, plain, runs plain (holds (out .eopHold 1) up), by decide +kernel⟩,
   ⟨5, ⟨5, true, 0, 0, false⟩, packet .verdict,
     { runs plain (holds (packet .verdict) up) with brg := { up.brg with verdicts := [⟨5, true, 0, 0, false⟩] } }, by decide +kernel⟩,
   ⟨5, true, ⟨5, true, 0, 0, false⟩, { up with brg := { up.brg with verdicts := [⟨5, true, 0, 0, false⟩] } }, by decide +kernel⟩,
   ⟨5, { packet .leaving with egress := true }, plain, runs plain (holds ({ packet .leaving with egress := true }) up), by decide +kernel⟩,
   ⟨5, { packet .leaving with egress := true }, plain,
     put (runs plain (holds { packet .leaving with egress := true } up)) [(R.LIF_PORT_MTU_tx_mtu 0, 0)], by decide +kernel⟩⟩

/-- The premises of Obligations.StateUnitCommandsTakeEffect are met, clause by clause. -/
theorem test_state_unit_premises :
    (∃ (id : Nat) (stage : Nat) (num : Nat) (m : IntentMsg) (a : ArrInst) (s : State), s.msgOf id stage num = some m ∧ m.waiting = none ∧
      s.chainRoom m.intent = true ∧ s.arr m.intent.arr = some a ∧ mget a.poison m.intent.index = none) ∧
    (∃ (id : Nat) (stage : Nat) (num : Nat) (poison : Bool) (m : IntentMsg) (s : State), s.msgOf id stage num = some m ∧ m.waiting = none ∧
      s.chainRoom m.intent = false) ∧
    (∃ (id : Nat) (stage : Nat) (num : Nat) (m : IntentMsg) (a : ArrInst) (s : State), s.msgOf id stage num = some m ∧
      m.waiting.isSome = true ∧ s.chainRoom m.intent = true ∧ s.arr m.intent.arr = some a ∧ mget a.poison m.intent.index = none) ∧
    (∃ (id : Nat) (stage : Nat) (num : Nat) (τ : Nat) (m : IntentMsg) (p : Packet) (s : State), s.msgOf id stage num = some m ∧
      s.pkt id = some p ∧ m.waiting = some τ ∧ τ + 36 ≤ s.time.elapsed ∧ (s.txnClass p).drop = true) ∧
    (∃ (arr : Nat) (index : Nat) (replay : Option Nat) (a : ArrInst) (x : Intent) (ys : List Intent) (s : State), s.arr arr = some a ∧
      s.chainOf arr index = x :: ys ∧ x.committed = true ∧ s.settled x (24 ≤ x.key.stage) replay = true ∧ mget a.poison index = none) :=
  ⟨⟨5, 0, 0, ⟨5, false, intent, none, none⟩, array, txf up [⟨5, false, intent, none, none⟩] [], by decide +kernel⟩,
   ⟨5, 0, 0, false, ⟨5, false, intent, none, none⟩, txf up [⟨5, false, intent, none, none⟩] (List.replicate 32 intent), by decide +kernel⟩,
   ⟨5, 0, 0, ⟨5, false, intent, none, some 0⟩, array, txf up [⟨5, false, intent, none, some 0⟩] [], by decide +kernel⟩,
   ⟨5, 0, 0, 0, ⟨5, false, intent, none, some 0⟩, packet (.action 0),
     txf (runs { plain with classes := [⟨true, true, 0⟩] } (holds (packet (.action 0)) later)) [⟨5, false, intent, none, some 0⟩] [],
     by decide +kernel⟩,
   ⟨2, 3, none, array, { intent with committed := true }, [], txf later [] [{ intent with committed := true }], by decide +kernel⟩⟩

/-- The premises of Obligations.StagingCommandsTakeEffect are met, clause by clause. -/
theorem test_staging_premises :
    (∃ (c : Cmd) (h : Nat) (slot : Nat) (table : Nat) (vrf : Nat) (len : Nat) (key : Nat) (mask : Nat) (prio : Nat) (result : Nat) (param : Nat) (s : State), TxnTaken s c h 0x11 (s.tableGrant slot table) [(param, 80)] ∧ s.txState h = txOpen ∧ s.stagedOk (.asm slot 0 table vrf len key mask prio result) = true) ∧
    (∃ (c : Cmd) (h : Nat) (slot : Nat) (table : Nat) (vrf : Nat) (len : Nat) (key : Nat) (mask : Nat) (prio : Nat) (result : Nat) (param : Nat) (s : State), TxnTaken s c h 0x11 (s.tableGrant slot table) [(param, 80)] ∧ s.txState h = txOpen ∧ s.stagedOk (.asm slot 1 table vrf len key mask prio 0) = true) ∧
    (∃ (c : Cmd) (h : Nat) (slot : Nat) (table : Nat) (vrf : Nat) (len : Nat) (key : Nat) (mask : Nat) (prio : Nat) (result : Nat) (param : Nat) (s : State), TxnTaken s c h 0x11 (s.tableGrant slot table) [(param, 80)] ∧ s.txState h = txOpen ∧ s.stagedOk (.asm slot 2 table vrf len key mask prio result) = true) ∧
    (∃ (c : Cmd) (h : Nat) (slot : Nat) (table : Nat) (vrf : Nat) (len : Nat) (key : Nat) (mask : Nat) (prio : Nat) (result : Nat) (param : Nat) (s : State), TxnTaken s c h 0x11 (s.tableGrant slot table) [(param, 80)] ∧ s.txState h = txOpen ∧ s.stagedOk (.asm slot 3 table vrf len key mask prio 0) = true) ∧
    (∃ (c : Cmd) (h : Nat) (slot : Nat) (table : Nat) (param : Nat) (bits : Nat) (s : State),
      TxnTaken s c h 0x11 (s.tableGrant slot table) (s.entryExtent slot table param) ∧ s.txState h = txOpen ∧ param % 64 = 0 ∧
      s.stagedOk (.exm slot 0 table bits) = true) ∧
    (∃ (c : Cmd) (h : Nat) (slot : Nat) (table : Nat) (param : Nat) (bits : Nat) (s : State),
      TxnTaken s c h 0x11 (s.tableGrant slot table) (s.entryExtent slot table param) ∧ s.txState h = txOpen ∧ param % 64 = 0 ∧
      s.stagedOk (.exm slot 1 table bits) = true) ∧
    (∃ (c : Cmd) (h : Nat) (slot : Nat) (table : Nat) (param : Nat) (bits : Nat) (s : State),
      TxnTaken s c h 0x11 (s.tableGrant slot table) (s.entryExtent slot table param) ∧ s.txState h = txOpen ∧ param % 64 = 0 ∧
      s.stagedOk (.exm slot 2 table bits) = true) ∧
    (∃ (c : Cmd) (h : Nat) (slot : Nat) (table : Nat) (param : Nat) (bits : Nat) (s : State),
      TxnTaken s c h 0x11 (s.tableGrant slot table) (s.entryExtent slot table param) ∧ param % 64 ≠ 0) ∧
    (∃ (c : Cmd) (h : Nat) (slot : Nat) (table : Nat) (param : Nat) (bits : Nat) (s : State),
      TxnTaken s c h 0x11 (s.tableGrant slot table) (s.entryExtent slot table param) ∧ param % 64 ≠ 0) ∧
    (∃ (c : Cmd) (h : Nat) (slot : Nat) (table : Nat) (param : Nat) (bits : Nat) (s : State),
      TxnTaken s c h 0x11 (s.tableGrant slot table) (s.entryExtent slot table param) ∧ param % 64 ≠ 0) ∧
    (∃ (c : Cmd) (h : Nat) (slot : Nat) (index : Nat) (param : Nat) (value : Nat) (s : State),
      TxnTaken s c h 0x11 (arrayGrant 0x200) [(param, 32)] ∧ s.txState h = txOpen ∧ s.stagedOk (.profile index (leBytes 32 value)) = true) ∧
    (∃ (c : Cmd) (h : Nat) (slot : Nat) (array : Nat) (index : Nat) (param : Nat) (value : Nat) (e : Nat × ArrInst) (s : State),
      array ≠ 0x200 ∧ s.findArr slot array = some e ∧ TxnTaken s c h 0x11 (arrayGrant array) [(param, ceilDiv e.2.decl.width 8)] ∧
      s.txState h = txOpen ∧ s.stagedOk (.arr slot 0 array index value) = true) ∧
    (∃ (c : Cmd) (h : Nat) (slot : Nat) (array : Nat) (index : Nat) (s : State), array ≠ 0x200 ∧
      TxnTaken s c h 0x11 (arrayGrant array) [] ∧ s.txState h = txOpen ∧ s.stagedOk (.arr slot 1 array index 0) = true) ∧
    (∃ (c : Cmd) (h : Nat) (table : Nat) (index : Nat) (param : Nat) (rec : List Byte) (s : State),
      TxnTaken s c h 0x11 (grantTdt table).toList [(param, rec.length)] ∧ s.txState h = txOpen ∧ s.stagedOk (.td table index rec) = true) :=
  ⟨⟨cmd, 63, 0, 4, 0, 0, 6, 7, 1, 9, 0, handle txOpen, by decide +kernel⟩,
   ⟨cmd, 63, 0, 4, 0, 0, 5, 7, 1, 9, 0, handle txOpen, by decide +kernel⟩,
   ⟨cmd, 63, 0, 4, 0, 0, 5, 7, 1, 10, 0, handle txOpen, by decide +kernel⟩,
   ⟨cmd, 63, 0, 4, 0, 0, 5, 7, 1, 9, 0, handle txOpen, by decide +kernel⟩,
   ⟨cmd, 63, 0, 6, 0, 65542, handle txOpen, by decide +kernel⟩,
   ⟨cmd, 63, 0, 6, 0, 5, handle txOpen, by decide +kernel⟩,
   ⟨cmd, 63, 0, 6, 0, 65541, handle txOpen, by decide +kernel⟩,
   ⟨cmd, 63, 0, 6, 64 + 8, 65542, handle txOpen, by decide +kernel⟩,
   ⟨cmd, 63, 0, 6, 8, 65542, handle txOpen, by decide +kernel⟩,
   ⟨cmd, 63, 0, 6, 8, 65542, handle txOpen, by decide +kernel⟩,
   ⟨cmd, 63, 0, 4095, 0, 0, handle txOpen, by decide +kernel⟩,
   ⟨cmd, 63, 0, 2, 15, 0, 2 ^ 32 - 1, (2, array), handle txOpen, by decide +kernel⟩,
   ⟨cmd, 63, 0, 2, 15, handle txOpen, by decide +kernel⟩,
   ⟨cmd, 63, 0x100, 0, 0, List.replicate 8 0, handle txOpen, by decide +kernel⟩⟩

/-- The premises of Obligations.TransactionCommandsTakeEffect are met, clause by clause. -/
theorem test_transaction_premises :
    (∃ (c : Cmd) (h : Nat) (s : State), TxnTaken s c h 0x10 [] [] ∧ s.txState h = txFree) ∧
    (∃ (c : Cmd) (h : Nat) (s : State), TxnTaken s c h 0x12 [] [] ∧ s.txState h = txOpen) ∧
    (∃ (c : Cmd) (h : Nat) (s : State) (u : State), s.txState h = txPreparing ∧ (s.upd h).cmd = some c ∧ s.slotLacks .tsiSwap = false ∧
      s.slotLacks (.holdStart 0) = false ∧ s.placeAll h (s.upd h).writes = .ok u ∧ h < 64) ∧
    (∃ (c : Cmd) (h : Nat) (st : Nat) (s : State), s.txState h = txPreparing ∧ (s.upd h).cmd = some c ∧ s.slotLacks .tsiSwap = false ∧
      s.slotLacks (.holdStart 0) = false ∧ s.placeAll h (s.upd h).writes = .error st ∧ h < 64) ∧
    (∃ (c : Cmd) (h : Nat) (turn : Nat) (s : State), TxnTaken s c h 0x13 [] [] ∧ s.txState h = txPrepared ∧
      s.schedCheck (.txnCommit h) c.system turn = stDone) ∧
    (∃ (c : Cmd) (h : Nat) (turn : Nat) (s : State), TxnTaken s c h 0x13 [] [] ∧ s.txState h = txPrepared ∧
      s.schedCheck (.txnCommit h) c.system turn ≠ stDone) ∧
    (∃ (c : Cmd) (h : Nat) (x : SlotEv) (s : State), TxnTaken s c h 0x13 [] [] ∧ s.txEvent h = some x ∧ s.inTime x.turn = true) ∧
    (∃ (c : Cmd) (h : Nat) (x : SlotEv) (s : State), TxnTaken s c h 0x13 [] [] ∧ s.txEvent h = some x ∧ s.inTime x.turn = false) ∧
    (∃ (c : Cmd) (h : Nat) (s : State), TxnTaken s c h 0x14 [] [] ∧ (s.txState h = txOpen ∨ s.txState h = txPrepared) ∧
      s.txEvent h = none) :=
  ⟨⟨cmd, 63, handle txFree, by decide +kernel⟩,
   ⟨cmd, 63, handle txOpen, by decide +kernel⟩,
   ⟨cmd, 63, staged txPreparing [.exm 0 2 6 65541], placed 63 (staged txPreparing [.exm 0 2 6 65541]), by decide +kernel,
     by decide +kernel, by decide +kernel, by decide +kernel, placeAll_placed (by decide +kernel), by decide +kernel⟩,
   ⟨cmd, 63, stInvalid, staged txPreparing [.exm 0 0 7 1], by decide +kernel, by decide +kernel, by decide +kernel, by decide +kernel, rfl,
     by decide +kernel⟩,
   ⟨cmd, 63, 4, handle txPrepared, by decide +kernel⟩,
   ⟨cmd, 63, 3, handle txPrepared, by decide +kernel⟩,
   ⟨cmd, 63, event (.txnCommit 63) 3, sched (handle txScheduled) (event (.txnCommit 63) 3), by decide +kernel⟩,
   ⟨cmd, 63, event (.txnCommit 63) 2, sched (handle txScheduled) (event (.txnCommit 63) 2), by decide +kernel⟩,
   ⟨cmd, 63, handle txPrepared, by decide +kernel⟩⟩

/-- The premises of Obligations.OverlapCommandsTakeEffect are met, clause by clause. -/
theorem test_overlap_premises :
    (∃ (i : Nat) (n : Nat) (a : AsmTable) (s : State), i < 32 ∧ mget s.tab.asm i = some a ∧ a.overlap = some n ∧
      s.passedTurn n (s.boundEgress a.slots a.decl.id none) = true) ∧
    (∃ (i : Nat) (n : Nat) (a : AsmTable) (s : State), mget s.tab.asm i = some a ∧ a.overlap = some n ∧
      s.passedTurn n (s.boundEgress a.slots a.decl.id none) = false) ∧
    (∃ (i : Nat) (n : Nat) (a : ExmTable) (s : State), mget s.tab.exm i = some a ∧ a.overlap = some n ∧ a.d.subOf = none ∧
      s.passedTurn n (s.boundEgress a.slots a.decl.id none) = true) ∧
    (∃ (slot : Nat) (s : State), s.retiring = some slot ∧ (s.ingressOld (fun v _ => v == slot) = 0) ∧
      (s.egressOld (fun v _ => v == slot) = 0) ∧ s.sourcesOld s.actTurn = 0) :=
  ⟨⟨31, 0, { asmTable with overlap := some 0 }, { up with tab := { up.tab with asm := [(31, { asmTable with overlap := some 0 })] } },
    by decide +kernel⟩,
   ⟨31, 1, { asmTable with overlap := some 1 }, { up with tab := { up.tab with asm := [(31, { asmTable with overlap := some 1 })] } },
     by decide +kernel⟩,
   ⟨63, 0, { exmTable with overlap := some 0 }, { up with tab := { up.tab with exm := [(63, { exmTable with overlap := some 0 })] } },
     by decide +kernel⟩,
   ⟨1, put up [(R.FWS_RCP_STATUS_slot_b_state, slRetiring)], by decide +kernel⟩⟩

/-- The premises of Obligations.LearningCommandsTakeEffect are met, clause by clause. -/
theorem test_learning_premises :
    (∃ (k : Nat) (l : Learn) (t : ExmTable) (s : State), s.tab.learns[k]? = some l ∧
      (((s.tab.learns.take k).any fun x => x.table == l.table && x.copy == l.copy) = false) ∧ mget s.tab.exm l.table = some t ∧
      s.copyServes t l.copy = true) ∧
    (∃ (k : Nat) (P : Nat) (l : Learn) (t : ExmTable) (ws : List (Nat × ECell)) (s : State), s.tab.learns[k]? = some l ∧
      (((s.tab.learns.take k).any fun x => x.table == l.table && x.copy == l.copy) = false) ∧ mget s.tab.exm l.table = some t ∧
      s.copyServes t l.copy = true ∧ s.holdsFor l.table t l = .nothing ∧ t.d.delay ≠ 0 ∧
      P = (if l.tag + t.d.delay ≤ s.time.turn then s.time.turn + 1 else l.tag + t.d.delay) ∧ t.plan l.copy ⟨l.bits, 4, false, P % 4096,
      s.tickOf t.d l.tag, l.tag, l.order⟩ = .done ws) ∧
    (∃ (k : Nat) (l : Learn) (t : ExmTable) (s : State), s.tab.learns[k]? = some l ∧
      (((s.tab.learns.take k).any fun x => x.table == l.table && x.copy == l.copy) = false) ∧ mget s.tab.exm l.table = some t ∧
      s.copyServes t l.copy = true ∧ s.holdsFor l.table t l = .static) ∧
    (∃ (i : Nat) (a : Nat) (t : ExmTable) (c : ECell) (s : State), mget s.tab.exm i = some t ∧ mget t.cells a = some c ∧ c.state = 5 ∧
      t.locked (cellCopy a) (cellBucket a) = false ∧ t.shows s.time.turn c = false ∧ ((∀ x ∈ t.cells, x.2.state ≠ 4))) ∧
    (∃ (i : Nat) (a : Nat) (t : ExmTable) (c : ECell) (s : State), mget s.tab.exm i = some t ∧ mget t.cells a = some c ∧ c.state = 4 ∧
      t.locked (cellCopy a) (cellBucket a) = false ∧ t.shows s.time.turn c = true ∧ ((∀ x ∈ t.cells, x.2.state ≠ 5)) ∧
      s.tab.learnFifo.length < 65536) ∧
    (∃ (i : Nat) (copy : Nat) (bucket : Nat) (t : ExmTable) (s : State), mget s.tab.exm i = some t ∧ t.d.ageing.isNone = false ∧
      t.locked copy bucket = false ∧ s.copyServes t copy = true ∧ (s.ageRule i s.time.turn).2 = false) ∧
    (∃ (fn : Nat) (be : Nat) (i : Nat) (val : Nat) (s : State), i < 64 ∧ WriteTaken s fn (R.EXM_AGE i) be false ∧ be = 15 ∧
      1 ≤ val / 256 % 256 ∧ val / 256 % 256 ≤ 254) ∧
    (∃ (r : List Byte) (rest : List (List Byte)) (s : State), s.tab.learnFifo = r :: rest ∧ s.on R.EXM_LFIFO_CFG_en = true ∧
      ringFull (s.rd R.EXM_LFIFO_CFG_size_log2) (s.rd R.EXM_LFIFO_HEAD_head) (s.rd R.EXM_LFIFO_TAIL_tail) = false ∧
      s.rd R.EXM_LFIFO_CFG_size_log2 ≤ 20) :=
  ⟨⟨0, learn, lnTable, learns lnTable later, by decide +kernel⟩,
   ⟨0, 1001, learn, lnTable, [(cellAt 7 0 0, ⟨5, 4, false, 1001, 0, 0, ord⟩)], learns lnTable later, by decide +kernel⟩,
   ⟨0, learn, keep ⟨5, 1, true, 0, 0, 0, ord⟩, learns (keep ⟨5, 1, true, 0, 0, 0, ord⟩) later, by decide +kernel⟩,
   ⟨3, cellAt 7 0 0, keep ⟨5, 5, false, 0, 0, 0, ord⟩, ⟨5, 5, false, 0, 0, 0, ord⟩, learns (keep ⟨5, 5, false, 0, 0, 0, ord⟩) later,
     by decide +kernel⟩,
   ⟨3, cellAt 7 0 0, keep ⟨5, 4, false, 0, 0, 0, ord⟩, ⟨5, 4, false, 0, 0, 0, ord⟩, learns (keep ⟨5, 4, false, 0, 0, 0, ord⟩) later,
     by decide +kernel⟩,
   ⟨3, 7, 0, lnTable, learns lnTable later, by decide +kernel⟩,
   ⟨0, 15, 63, 254 * 256 + 1, up, by decide +kernel⟩,
   ⟨[1], [], put { up with tab := { up.tab with learnFifo := [[1]] } } [(R.EXM_LFIFO_CFG_en, 1), (R.EXM_LFIFO_CFG_size_log2, 20)],
     by decide +kernel⟩⟩

/-- The premises of Obligations.SearchCommandsTakeEffect are met, clause by clause. -/
theorem test_search_premises :
    (∃ (c : Cmd) (slot : Nat) (table : Nat) (pipe : Nat) (key : Nat) (keyAddr : Nat) (resultAddr : Nat) (f : Nat) (r : Nat) (n : Nat) (i : Nat) (all : Bool) (poison : List Nat) (t : AsmTable) (s : State), c.src = .ring f r n ∧ s.findAsm slot table = some (i, t) ∧ s.findExm slot table = none ∧ t.decl.dma = false ∧ CommandTaken s c 0x01 (s.tableGrant slot table) [(keyAddr, 40), (resultAddr, 32 + 96 * (if all then 8 else 1))] ∧ (t.search s.time.turn key).hit = true ∧ s.tab.upsets = []) ∧
    (∃ (c : Cmd) (slot : Nat) (table : Nat) (pipe : Nat) (key : Nat) (keyAddr : Nat) (resultAddr : Nat) (f : Nat) (r : Nat) (n : Nat) (i : Nat) (poison : List Nat) (t : ExmTable) (s : State), c.src = .ring f r n ∧ s.findAsm slot table = none ∧ s.findExm slot table = some (i, t) ∧ t.decl.dma = false ∧ CommandTaken s c 0x01 (s.tableGrant slot table) [(keyAddr, ceilDiv t.d.keyBits 8), (resultAddr, 128)] ∧ s.exmFind i t (t.copyOf (pipe % 8)) s.time.turn (key % 2 ^ t.d.keyBits) = none) ∧
    (∃ (c : Cmd) (slot : Nat) (table : Nat) (pipe : Nat) (key : Nat) (keyAddr : Nat) (resultAddr : Nat) (f : Nat) (r : Nat) (n : Nat) (i : Nat) (a : Nat) (x : ECell) (t : ExmTable) (s : State), c.src = .ring f r n ∧ s.findAsm slot table = none ∧ s.findExm slot table = some (i, t) ∧ t.decl.dma = false ∧ CommandTaken s c 0x01 (s.tableGrant slot table) [(keyAddr, ceilDiv t.d.keyBits 8), (resultAddr, 128)] ∧ s.exmFind i t (t.copyOf (pipe % 8)) s.time.turn (key % 2 ^ t.d.keyBits) = some (a, x)) ∧
    (∃ (c : Cmd) (slot : Nat) (table : Nat) (pipe : Nat) (count : Nat) (k : Nat) (resultAddr : Nat) (i : Nat) (after : Option (Nat × Nat × Nat)) (t : ExmTable) (x : IterCtx) (s : State), s.findAsm slot table = none ∧ s.findExm slot table = some (i, t) ∧ t.decl.dma = false ∧ 1 ≤ count ∧ count ≤ 64 ∧ k < 16 ∧ CommandTaken s c 0x02 (s.tableGrant slot table) [(resultAddr, 32 + 96 * count)] ∧ mget s.tab.iters k = some x ∧ x.table = i ∧ x.copy = t.copyOf (pipe % 8) ∧ x.overflow = false) ∧
    (∃ (k : Nat) (x : IterCtx) (s : State), k < 16 ∧ mget s.tab.iters k = some x ∧ x.used + 1000000000 ≤ s.time.elapsed) ∧
    (∃ (c : Cmd) (slot : Nat) (table : Nat) (port : Nat) (resultAddr : Nat) (i : Nat) (incl : Bool) (t : ExmTable) (s : State),
      s.findExm slot table = some (i, t) ∧ CommandTaken s c 0x03 (rightOf 0x03 ++ s.tableGrant slot table) [(resultAddr, 32)] ∧
      t.decl.dma = false ∧ mget s.tab.exm i = some t ∧ t.d.port.isNone = false ∧ port ≤ 127 ∧ t.flushes.length < 4) ∧
    (∃ (i : Nat) (pub : Nat) (x : ExmTable) (f : EFlush) (rest : List EFlush) (s : State), mget s.tab.exm i = some x ∧
      x.flushes = f :: rest ∧ pub = (s.time.turn + 1) % 4096 ∧
      (((x.cells.filter fun e => f.takes x.d pub e.2).any fun e => x.locked (cellCopy e.1) (cellBucket e.1)) = false) ∧ x.overlap = none) :=
  ⟨⟨cmd, 0, 4, 0, 5, 0, 64, 0, 0, 7, 0, true, [], asmTable, handle txOpen, by decide +kernel⟩,
   ⟨cmd, 0, 6, 7, 4, 0, 64, 0, 0, 7, 0, [], exmTable, handle txOpen, by decide +kernel⟩,
   ⟨cmd, 0, 6, 7, 5, 0, 64, 0, 0, 7, 0, 0, ⟨5, 1, true, 0, 0, 0, ord⟩, exmTable, handle txOpen, by decide +kernel⟩,
   ⟨cmd, 0, 6, 0, 64, 15, 0, 0, none, exmTable, ⟨0, 0, 0, [], [], false, 0⟩,
     { handle txOpen with tab := { (handle txOpen).tab with iters := [(15, ⟨0, 0, 0, [], [], false, 0⟩)] } }, by decide +kernel⟩,
   ⟨15, ⟨0, 0, 0, [], [], false, 0⟩, { later with tab := { up.tab with iters := [(15, ⟨0, 0, 0, [], [], false, 0⟩)] } }, by decide +kernel⟩,
   ⟨cmd, 0, 6, 127, 0, 0, true, ptTable, tables win asmTable ptTable, by decide +kernel⟩,
   ⟨0, 1, { ptTable with flushes := [⟨0, 0, true, 0, cmd⟩] }, ⟨0, 0, true, 0, cmd⟩, [],
     tables win asmTable { ptTable with flushes := [⟨0, 0, true, 0, cmd⟩] }, by decide +kernel⟩⟩

/-- The premises of Obligations.WindowCommandsTakeEffect are met, clause by clause. -/
theorem test_window_premises :
    (∃ (fn : Nat) (addr : Nat) (w : Win) (s : State), Bar2Taken s fn addr w ∧ w.off = 16 ∧ w.lock = none ∧ w.table.locks.length < 64) ∧
    (∃ (fn : Nat) (addr : Nat) (data : List Byte) (l : ELock) (w : Win) (s : State), Bar2Taken s fn addr w ∧ s.svc.recovery = false ∧
      w.lock = some l ∧ l.owner = fn ∧ l.commit = none) ∧
    (∃ (fn : Nat) (addr : Nat) (l : ELock) (w : Win) (s : State), Bar2Taken s fn addr w ∧ w.off = 16 ∧ w.lock = some l ∧ l.owner = fn ∧
      l.commit = none) ∧
    (∃ (fn : Nat) (addr : Nat) (l : ELock) (w : Win) (s : State), Bar2Taken s fn addr w ∧ w.off = 16 ∧ w.lock = some l ∧ l.owner = fn ∧
      l.commit = none) ∧
    (∃ (fn : Nat) (addr : Nat) (data : List Byte) (w : Win) (s : State), Bar2Taken s fn addr w ∧ s.svc.recovery = false ∧ w.lock = none ∧
      data.length = 64 ∧ w.off % 64 = 0 ∧ w.table.locks.length < 64) ∧
    (∃ (fn : Nat) (addr : Nat) (data : List Byte) (s : State), s.answers fn = true ∧ s.svc.recovery = true ∧ addr + data.length ≤ 2 ^ 26) ∧
    (∃ (fn : Nat) (addr : Nat) (data : List Byte) (s : State), s.answers fn = true ∧ s.svc.recovery = true ∧ addr + data.length ≤ 2 ^ 26) ∧
    (∃ (i : Nat) (copy : Nat) (bucket : Nat) (t : ExmTable) (l : ELock) (s : State), i < 64 ∧ mget s.tab.exm i = some t ∧
      (t.locks.find? (fun l => l.copy == copy && l.bucket == bucket) = some l) ∧ l.start + 100000 ≤ s.time.elapsed) ∧
    (∃ (fn : Nat) (addr : Nat) (w : Win) (s : State) (u : State), s.answers fn = true ∧ s.clockRuns (blockBit (R.EXM_WIN 0)) = true ∧
      s.rd (R.HAC_BAR2_SEL_target fn) ≠ 1 ∧ s.window fn (addr / 64 * 64) = some w ∧ ((fn = 1 → s.on (grantExm w.index) = true)) ∧
      (w.table.d.hbm && s.tdDown) = false ∧ w.lock = none ∧ s.readBucket w.table w.copy w.bucket = (false, u)) ∧
    (∃ (fn : Nat) (addr : Nat) (s : State), s.answers fn = true ∧ s.clockRuns (blockBit (R.EXM_WIN 0)) = true ∧
      s.rd (R.HAC_BAR2_SEL_target fn) = 1 ∧ s.tab.upsets = []) ∧
    (∃ (fn : Nat) (val : Nat) (first : Nat) (count : Nat) (i : Nat) (t : ExmTable) (s : State), WriteTaken s fn R.EXM_CMP_CTRL 15 true ∧
      s.on R.EXM_CMP_STATUS_busy = false ∧ val % 2 = 1 ∧ i = val / 4 % 64 ∧ mget s.tab.exm i = some t ∧
      bitAt t.slots (val / 256 % 2) = true ∧ first = s.rd R.EXM_CMP_FIRST_bucket ∧ count = s.rd R.EXM_CMP_COUNT_buckets ∧
      first + count ≤ t.d.buckets + 32 ∧ fn ≠ 1 ∧ s.inWindow fn (s.pairAt R.EXM_CMP_SRC_LO) (count * t.d.stride) = true ∧
      s.inWindow fn (s.pairAt R.EXM_CMP_OUT_LO) (16 * s.rd R.EXM_CMP_OUT_LEN_records) = true) ∧
    (∃ (shadow : List Byte) (j : CmpJob) (t : ExmTable) (s : State), s.tab.compare = some j ∧ mget s.tab.exm j.table = some t ∧
      (((List.range j.count).filterMap fun k => t.compareBucket j (j.first + k) s.time.turn (slice shadow (k * t.d.stride) t.d.stride)).length ≤ s.rd R.EXM_CMP_OUT_LEN_records)) :=
  ⟨⟨0, 16, ⟨3, lnTable, 0, 0, 16⟩, bar2 lnTable, by decide +kernel⟩,
   ⟨0, 64, [1, 2], ⟨0, 0, 0, 0, [], none⟩, ⟨3, locked, 0, 0, 64⟩, bar2 locked, by decide +kernel⟩,
   ⟨0, 16, ⟨0, 0, 0, 0, [], none⟩, ⟨3, locked, 0, 0, 16⟩, bar2 locked, by decide +kernel⟩,
   ⟨0, 16, ⟨0, 0, 0, 0, [], none⟩, ⟨3, locked, 0, 0, 16⟩, bar2 locked, by decide +kernel⟩,
   ⟨0, 64, List.replicate 64 0, ⟨3, lnTable, 0, 0, 64⟩, bar2 lnTable, by decide +kernel⟩,
   ⟨0, 2 ^ 26 - 2, [1, 2], { up with svc := { up.svc with recovery := true } }, by decide +kernel⟩,
   ⟨0, 2 ^ 26 - 2, [1, 2], { up with svc := { up.svc with recovery := true } }, by decide +kernel⟩,
   ⟨3, 0, 0, locked, ⟨0, 0, 0, 0, [], none⟩, bar2 locked, by decide +kernel⟩,
   ⟨0, 16, ⟨3, lnTable, 0, 0, 0⟩, bar2 lnTable, bar2 lnTable, by decide +kernel⟩,
   ⟨0, 320, put up [(R.HAC_BAR2_SEL_target 0, 1)], by decide +kernel⟩,
   ⟨0, 13, 0, 33, 3, lnTable, put (bar2 lnTable) [(R.EXM_CMP_COUNT_buckets, 33)], by decide +kernel⟩,
   ⟨[], ⟨0, 3, 0, false, 0, 0⟩, lnTable, { bar2 lnTable with tab := { (bar2 lnTable).tab with compare := some ⟨0, 3, 0, false, 0, 0⟩ } },
     by decide +kernel⟩⟩

/-- The premises of Obligations.BufferCommandsTakeEffect are met, clause by clause. -/
theorem test_buffer_premises :
    (∃ (fn : Nat) (pool : Nat) (n : Nat) (s : State), pool < 4 ∧ WriteTaken s fn (R.BPM_POOL_w0 pool) 15 false ∧
      s.on R.BPM_STATUS_empty = true ∧ 1 ≤ n ∧ n ≤ poolMax pool) ∧
    (∃ (fn : Nat) (pool : Nat) (n : Nat) (s : State), pool < 4 ∧ WriteTaken s fn (R.BPM_POOL_w3 pool) 15 false ∧ n < 2 ^ 19) ∧
    (∃ (fn : Nat) (pool : Nat) (n : Nat) (s : State), pool < 4 ∧ WriteTaken s fn (R.BPM_POOL_w4 pool) 15 false ∧ n < 2 ^ 19) ∧
    (∃ (id : Nat) (upto : Nat) (p : Packet) (s : State), s.pkt id = some p ∧ p.egress = false ∧ 512 < upto ∧ p.staged < upto ∧
      upto ≤ p.len ∧ s.tdStill = false) ∧
    (∃ (id : Nat) (s : State), s.brg.notices.contains id = true ∧ ((s.brg.descs.any fun d => d.pkt == id) = false)) ∧
    (∃ (id : Nat) (b : Staging) (s : State), s.stagedBody id = some b ∧ b.whole = true ∧ b.marked = false ∧ b.expired = false ∧
      b.last + 64000 ≤ s.time.elapsed ∧ ((s.brg.descs.any fun d => d.pkt == id && s.deliverable d) = false) ∧ b.cells.Nodup ∧
      ((∀ p ∈ b.cells, s.ptrFault p true = none))) ∧
    (∃ (fn : Nat) (val : Nat) (s : State), WriteTaken s fn R.BPM_AUDIT_CTRL 15 true ∧ bitAt val 0 = true ∧
      s.on R.BPM_STATUS_audit_busy = false) ∧
    (∃ (l : List Nat) (s : State), s.buf.audit = some l ∧ ((∀ p ∈ l, (mget s.buf.cells p).isSome = true → s.ptrFault p true = none))) :=
  ⟨⟨0, 3, 59, put up [(R.BPM_STATUS_empty, 1)], by decide +kernel⟩,
   ⟨0, 3, 2 ^ 19 - 1, up, by decide +kernel⟩,
   ⟨0, 0, 0, up, by decide +kernel⟩,
   ⟨5, 600, long, runs plain (holds long up), by decide +kernel⟩,
   ⟨5, { up with brg := { up.brg with notices := [5] } }, by decide +kernel⟩,
   ⟨5, { body with cells := [cellSize 0] },
     { later with buf := { up.buf with staging := [{ body with cells := [cellSize 0] }], cells := [(cellSize 0, 1)] } }, by decide +kernel⟩,
   ⟨0, 1, put up [(R.BPM_STATUS_audit_busy, 0)], by decide +kernel⟩,
   ⟨[cellSize 0], { up with buf := { up.buf with audit := some [cellSize 0], cells := [(cellSize 0, 1)] } }, by decide +kernel⟩⟩

/-- The premises of Obligations.AdmissionCommandsTakeEffect are met, clause by clause. -/
theorem test_admission_premises :
    (∃ (id : Nat) (engine : Nat) (ptr : Option Nat) (d : Desc) (ds : List Desc) (k : CopyKind) (rest : List CopyKind) (s : State),
      s.tdHalted = false ∧ s.brg.descs = d :: ds ∧ d ∉ ds ∧ s.deliverable d = true ∧ d.pkt = id ∧ d.bad = false ∧ d.todo = k :: rest) ∧
    (∃ (id : Nat) (engine : Nat) (ptr : Option Nat) (d : Desc) (ds : List Desc) (rest : List CopyKind) (u : State) (s : State),
      s.tdHalted = false ∧ s.brg.descs = d :: ds ∧ s.deliverable d = true ∧ d.pkt = id ∧ d.bad = false ∧ d.todo = .primary :: rest ∧
      d.waits = true ∧ (s.takeDesc d).bufSync.storeDesc { d with taken := true } = (none, u) ∧
      (u.queue (u.copyTo d .primary).1).lc ≠ lcUp) ∧
    (∃ (id : Nat) (engine : Nat) (ptr : Option Nat) (d : Desc) (ds : List Desc) (s : State), s.tdHalted = false ∧ s.brg.descs = d :: ds ∧
      d ∉ ds ∧ s.deliverable d = true ∧ d.pkt = id ∧ d.bad = true) ∧
    (∃ (fn : Nat) (val : Nat) (q : Nat) (s : State), WriteTaken s fn R.QMG_QSEL 15 true ∧ q = val % 2 ^ 19) ∧
    (∃ (fn : Nat) (val : Nat) (s : State), WriteTaken s fn R.QMG_WRED_SEED 15 false ∧ val % 2 ^ 32 ≠ 0) ∧
    (∃ (fn : Nat) (val : Nat) (s : State), WriteTaken s fn R.QMG_WRED_SEED 15 false ∧ val % 2 ^ 32 = 0) :=
  ⟨⟨5, 0, none, desc false, [], .primary, [.punt], descs (desc false), by decide +kernel⟩,
   ⟨5, 0, none, desc false, [], [.punt], ((draining.takeDesc (desc false)).bufSync.storeDesc { desc false with taken := true }).2,
     draining, by decide +kernel⟩,
   ⟨5, 0, none, desc true, [], descs (desc true), by decide +kernel⟩,
   ⟨0, 2 ^ 19 - 1, 2 ^ 19 - 1, up, by decide +kernel⟩,
   ⟨0, 1, up, by decide +kernel⟩,
   ⟨0, 2 ^ 32, up, by decide +kernel⟩⟩

/-- The premises of Obligations.HbmCommandsTakeEffect are met, clause by clause. -/
theorem test_hbm_premises :
    (∃ (q : Nat) (tile : Nat) (p : ResPage) (flips : List (List Byte)) (media : Bool) (s : State), s.tdDown = false ∧
      (s.queue q).rbase ≤ 512 * tile ∧ 512 * tile + 512 ≤ (s.queue q).rst.pos ∧
      512 * tile < (s.queue q).rbase + 2 ^ 20 * (s.queue q).rpages.length ∧
      (s.queue q).rpages[(512 * tile - (s.queue q).rbase) / 2 ^ 20]? = some p) ∧
    (∃ (q : Nat) (tile : Nat) (p : ResPage) (flips : List (List Byte)) (media : Bool) (s : State), s.tdDown = false ∧
      (s.queue q).rbase ≤ 512 * tile ∧ 512 * tile + 512 ≤ (s.queue q).rst.pos ∧
      512 * tile < (s.queue q).rbase + 2 ^ 20 * (s.queue q).rpages.length ∧
      (s.queue q).rpages[(512 * tile - (s.queue q).rbase) / 2 ^ 20]? = some p) ∧
    (∃ (q : Nat) (p : ResPage) (u : State) (s : State), s.tdDown = false ∧ 64 ≤ (s.queue q).rst.pages.length ∧
      (s.queue q).rst.base + 2 ^ 20 ≤ (s.queue q).rst.pos ∧ s.takeResPage = some (p, u)) ∧
    (∃ (fn : Nat) (val : Nat) (s : State), WriteTaken s fn R.HBC_MAP 15 false ∧ val % 4 ≠ 3) ∧
    (∃ (fn : Nat) (n : Nat) (s : State), WriteTaken s fn R.HBC_PART 15 false ∧ s.mapFree = true ∧ s.tablePagesMin ≤ n ∧ n ≤ 3250585) ∧
    (∃ (stack : Nat) (band : Nat) (s : State), stack < 6 ∧ band < 8 ∧ s.tdDown = false ∧ s.clockRuns 18 = true) ∧
    (∃ (stack : Nat) (band : Nat) (s : State), stack < 6 ∧ band < 8 ∧ s.tdDown = false ∧ mget s.mem.bands stack = some band) :=
  ⟨⟨9, 0, ⟨0, 0, false⟩, [], true, tiered resQueue, by decide +kernel⟩,
   ⟨9, 0, ⟨0, 0, false⟩, [], true, tiered resQueue, by decide +kernel⟩,
   ⟨9, ⟨0, 0, false⟩, ((roomy.takeResPage).getD (⟨0, 0, false⟩, roomy)).2, roomy, by decide +kernel⟩,
   ⟨0, 2, up, by decide +kernel⟩,
   ⟨0, 3250585, up, by decide +kernel⟩,
   ⟨5, 7, up, by decide +kernel⟩,
   ⟨5, 7, { up with mem := { up.mem with bands := [(5, 7)] } }, by decide +kernel⟩⟩

/-- The premises of Obligations.ReservoirCommandsTakeEffect are met, clause by clause. -/
theorem test_reservoir_premises :
    (∃ (fn : Nat) (n : Nat) (s : State), n < 8 ∧ WriteTaken s fn (R.RSV_PORT_LC n) 15 true ∧ s.rd (R.RSV_PORT_LC_state n) = lcDown) ∧
    (∃ (fn : Nat) (n : Nat) (s : State), n < 8 ∧ WriteTaken s fn (R.RSV_PORT_LC n) 15 true ∧ s.rd (R.RSV_PORT_LC_state n) = lcUp) ∧
    (∃ (n : Nat) (pages : Nat) (x4 : Bool) (gt32 : Bool) (s : State), n < 8 ∧ s.rd (R.RSV_PORT_LC_state n) = lcStarting ∧
      s.tdDown = false) ∧
    (∃ (n : Nat) (pages : Nat) (x4 : Bool) (gt32 : Bool) (s : State), n < 8 ∧ s.rd (R.RSV_PORT_LC_state n) = lcStarting ∧
      s.tdDown = false) ∧
    (∃ (n : Nat) (s : State), n < 8 ∧ s.rd (R.RSV_PORT_LC_state n) = lcStarting ∧ s.on (R.RSV_PORT_STATUS_link_up n) = true) ∧
    (∃ (n : Nat) (s : State), n < 8 ∧ s.rd (R.RSV_PORT_LC_state n) = lcDraining ∧ (s.resPort n).used = []) ∧
    (∃ (n : Nat) (s : State), n < 8 ∧ s.rd (R.RSV_PORT_LC_state n) ≠ lcDown) :=
  ⟨⟨0, 7, put up [(R.RSV_PORT_LC_state 7, lcDown)], by decide +kernel⟩,
   ⟨0, 7, put up [(R.RSV_PORT_LC_state 7, lcUp)], by decide +kernel⟩,
   ⟨7, 5000000, true, false, put up [(R.RSV_PORT_LC_state 7, lcStarting)], by decide +kernel⟩,
   ⟨7, 5, true, true, put up [(R.RSV_PORT_LC_state 7, lcStarting)], by decide +kernel⟩,
   ⟨7, put up [(R.RSV_PORT_LC_state 7, lcStarting), (R.RSV_PORT_STATUS_link_up 7, 1)], by decide +kernel⟩,
   ⟨7, put up [(R.RSV_PORT_LC_state 7, lcDraining)], by decide +kernel⟩,
   ⟨7, put up [(R.RSV_PORT_LC_state 7, lcUp)], by decide +kernel⟩⟩

/-- The premises of Obligations.HoldCommandsTakeEffect are met, clause by clause. -/
theorem test_hold_premises :
    (∃ (c : Cmd) (e : Nat) (device : Nat) (port : Nat) (tcs : Nat) (limit : Nat) (turn : Nat) (portOk : Bool) (s : State), e < 64 ∧
      device < 512 ∧ port < 128 ∧ 0 < tcs ∧ tcs < 256 ∧ 0 < limit ∧ limit ≤ 600 ∧ CommandTaken s c 0x28 (rightOf 0x28) [] ∧
      s.holdReady = true ∧ s.holdState e = lcDown ∧ s.holdTwin e device portOk port tcs = false ∧
      s.schedCheck (.holdStart e) c.system turn = stDone) ∧
    (∃ (c : Cmd) (e : Nat) (device : Nat) (port : Nat) (tcs : Nat) (limit : Nat) (turn : Nat) (portOk : Bool) (s : State), e < 64 ∧
      device < 512 ∧ port < 128 ∧ 0 < tcs ∧ tcs < 256 ∧ 0 < limit ∧ limit ≤ 600 ∧ CommandTaken s c 0x28 (rightOf 0x28) [] ∧
      s.tdDown = false ∧ s.holdReady = true ∧ s.holdState e = lcUp) ∧
    (∃ (c : Cmd) (e : Nat) (x : SlotEv) (s : State), e < 64 ∧ CommandTaken s c 0x28 (rightOf 0x28) [] ∧ s.tdDown = false ∧
      s.holdEvent (.holdStart e) = some x ∧ s.inTime x.turn = true) ∧
    (∃ (c : Cmd) (e : Nat) (x : SlotEv) (s : State), e < 64 ∧ CommandTaken s c 0x28 (rightOf 0x28) [] ∧ s.tdDown = false ∧
      s.holdEvent (.holdStart e) = some x ∧ s.inTime x.turn = false) ∧
    (∃ (c : Cmd) (e : Nat) (turn : Nat) (rate : Nat) (s : State), e < 64 ∧ 10 ≤ rate ∧ rate ≤ 32000 ∧
      CommandTaken s c 0x29 (rightOf 0x29) [] ∧ s.holdState e = lcUp ∧ s.holdEvent (.holdStop e) = none ∧
      s.schedCheck (.holdStop e) c.system turn = stDone) ∧
    (∃ (c : Cmd) (e : Nat) (turn : Nat) (rate : Nat) (s : State), e < 64 ∧ 10 ≤ rate ∧ rate ≤ 32000 ∧
      CommandTaken s c 0x29 (rightOf 0x29) [] ∧ s.tdDown = false ∧ s.holdState e = lcDown) ∧
    (∃ (c : Cmd) (e : Nat) (x : SlotEv) (s : State), e < 64 ∧ CommandTaken s c 0x29 (rightOf 0x29) [] ∧ s.tdDown = false ∧
      s.holdEvent (.holdStop e) = some x ∧ s.inTime x.turn = true) :=
  ⟨⟨cmd, 63, 511, 127, 255, 600, 4, true, hold lcDown, by decide +kernel⟩,
   ⟨cmd, 63, 511, 127, 1, 1, 4, true, hold lcUp, by decide +kernel⟩,
   ⟨cmd, 63, event (.holdStart 63) 3, sched (hold lcStarting) (event (.holdStart 63) 3), by decide +kernel⟩,
   ⟨cmd, 63, event (.holdStart 63) 2, sched (hold lcStarting) (event (.holdStart 63) 2), by decide +kernel⟩,
   ⟨cmd, 63, 4, 32000, hold lcUp, by decide +kernel⟩,
   ⟨cmd, 63, 4, 10, hold lcDown, by decide +kernel⟩,
   ⟨cmd, 63, event (.holdStop 63) 3, sched (hold lcUp) (event (.holdStop 63) 3), by decide +kernel⟩⟩

/-- The premises of Obligations.RankCommandsTakeEffect are met, clause by clause. -/
theorem test_rank_premises :
    (∃ (k : Nat) (r : Nat) (x : Nat) (s : State), k < 6 ∧ r < 128 ∧ s.tdDown = false ∧ s.role k r = roRing ∧
      s.rd (R.HBC_RANK_LC_state k r) = lcUp ∧ s.isErased k r = false ∧ s.rd (R.HBC_SPARES_erased k) < 2 ∧ s.freeSpare k = some x) ∧
    (∃ (k : Nat) (r : Nat) (x : Nat) (s : State), k < 6 ∧ r < 128 ∧ x < 128 ∧ r ≠ x ∧ (s.mem.migs.find? (fun m => m.1 == k) = some (k, r,
      x)) ∧ (s.mem.deferred.find? (fun d => d.1 == k) = none) ∧ s.rd (R.HBC_RANK_LC_state k r) = lcDraining) ∧
    (∃ (k : Nat) (w : Nat) (s : State), k < 6 ∧ w = s.rd (R.HBC_RANK_CFG_window_s k) * Config.nsPerSec ∧ w ≠ 0 ∧
      (sread (fun _ => 0) s.mem.ceAt k / w < s.time.elapsed / w)) ∧
    (∃ (fn : Nat) (k : Nat) (r : Nat) (s : State), k < 6 ∧ r < 128 ∧ WriteTaken s fn (R.HBC_RANK_LC k r) 15 true ∧
      s.rd (R.HBC_RANK_LC_state k r) = lcDown) ∧
    (∃ (fn : Nat) (k : Nat) (r : Nat) (s : State), k < 6 ∧ r < 128 ∧ WriteTaken s fn (R.HBC_RANK_LC k r) 15 true ∧
      s.rd (R.HBC_RANK_LC_state k r) = lcUp ∧ s.role k r = roSpare) ∧
    (∃ (k : Nat) (r : Nat) (s : State), k < 6 ∧ r < 128 ∧ s.rd (R.HBC_RANK_LC_state k r) = lcStarting) ∧
    (∃ (k : Nat) (r : Nat) (s : State), k < 6 ∧ r < 128 ∧ s.rd (R.HBC_RANK_LC_state k r) = lcStarting) :=
  ⟨⟨5, 127, 0, ranks lcUp roRing lcUp roSpare, by decide +kernel⟩,
   ⟨5, 127, 0, { ranks lcDraining roRing lcUp roSpare with mem := { up.mem with migs := [(5, 127, 0)] } }, by decide +kernel⟩,
   ⟨5, 10 ^ 9, put later [(R.HBC_RANK_CFG_window_s 5, 1)], by decide +kernel⟩,
   ⟨0, 5, 127, ranks lcDown roRing lcUp roSpare, by decide +kernel⟩,
   ⟨0, 5, 127, ranks lcUp roSpare lcUp roRing, by decide +kernel⟩,
   ⟨5, 127, ranks lcStarting roSpare lcUp roRing, by decide +kernel⟩,
   ⟨5, 127, ranks lcStarting roSpare lcUp roRing, by decide +kernel⟩⟩

/-- The premises of Obligations.PatrolCommandsTakeEffect are met, clause by clause. -/
theorem test_patrol_premises :
    (∃ (bank : Nat) (unit : Nat) (addr : Nat) (loc : Nat) (upsets : List Upset) (s : State) (u : State), s.on R.ASM_WALK_CFG_en = true ∧
      loc = bank * 8192 + unit ∧ u = s.strike upsets ∧ worstFlips 12 (u.upset .copy loc) ≤ 1 ∧ u.upset .units loc ≠ 0) ∧
    (∃ (unit : Nat) (addr : Nat) (loc : Nat) (s : State), s.on R.ASM_WALK_CFG_en = true ∧ loc = 31 * 8192 + unit ∧
      worstFlips 12 (s.upset .copy loc) = 0 ∧ s.upset .units loc = 0) ∧
    (∃ (k : Nat) (stripe : Nat) (flips : List (List Byte)) (s : State) (u : State), k < 6 ∧ stripe < 32 * s.rd R.HBC_PART_table_pages ∧
      s.on R.MIF_PATROL_CFG_hbm_en = true ∧ s.tdDown = false ∧ u = s.strikeStripe k stripe flips ∧
      (decodeStripe (u.erasedSegs k stripe) (u.stripeAt k stripe)).verdict = .uncorrectable) ∧
    (∃ (kind : Nat) (unit : Nat) (addr : Nat) (holds : WordUse) (s : State), kind < 6 ∧ s.on R.MIF_PATROL_CFG_en = true) ∧
    (∃ (kind : Nat) (unit : Nat) (addr : Nat) (a : Nat) (i : Nat) (x : ArrInst) (s : State), kind < 6 ∧ s.on R.MIF_PATROL_CFG_en = true ∧
      mget s.txf.arrays a = some x ∧ mget x.poison i = none) ∧
    (∃ (r : List Byte) (rest : List (List Byte)) (s : State), s.mem.patrol = r :: rest ∧ s.on R.MIF_PR_CFG_en = true ∧
      s.rd R.MIF_PR_CFG_size_log2 ≤ 16 ∧
      ringFull (s.rd R.MIF_PR_CFG_size_log2) (s.rd R.MIF_PR_HEAD_head) (s.rd R.MIF_PR_TAIL_tail) = false) :=
  ⟨⟨3, 0, 8191, 3 * 8192, [⟨.units, 3 * 8192, 2⟩], patrol, patrol.strike [⟨.units, 3 * 8192, 2⟩], by decide +kernel⟩,
   ⟨0, 0, 31 * 8192, patrol, by decide +kernel⟩,
   ⟨5, 31, [], struck, struck, by decide +kernel⟩,
   ⟨5, 3, 9, .unused, patrol, by decide +kernel⟩,
   ⟨5, 3, 9, 2, 15, array, { patrol with txf := (txf up [] []).txf }, by decide +kernel⟩,
   ⟨[1], [], put { up with mem := { up.mem with patrol := [[1]] } } [(R.MIF_PR_CFG_en, 1), (R.MIF_PR_CFG_size_log2, 16)],
     by decide +kernel⟩⟩

/-- The premises of Obligations.DiagnosticCommandsTakeEffect are met, clause by clause. -/
theorem test_diagnostic_premises :
    (∃ (fn : Nat) (memory : Nat) (mask : Nat) (data : List Byte) (s : State), WriteTaken s fn R.MIF_DIAG_CTRL 15 true ∧ memory < 8 ∧
      mask < 2 ^ 10 ∧ s.on R.MIF_DIAG_STATUS_busy = false ∧ s.inWindow fn (s.pairAt R.MIF_DIAG_BUF_LO) 1024 = true) ∧
    (∃ (fn : Nat) (memory : Nat) (mask : Nat) (data : List Byte) (s : State), WriteTaken s fn R.MIF_DIAG_CTRL 15 true ∧ memory < 8 ∧
      mask < 2 ^ 10 ∧ s.on R.MIF_DIAG_STATUS_busy = false ∧ s.inWindow fn (s.pairAt R.MIF_DIAG_BUF_LO) 1024 = true) ∧
    (∃ (fn : Nat) (memory : Nat) (mask : Nat) (data : List Byte) (s : State), WriteTaken s fn R.MIF_DIAG_CTRL 15 true ∧ memory < 8 ∧
      mask < 2 ^ 10 ∧ s.on R.MIF_DIAG_STATUS_busy = false ∧ s.inWindow fn (s.pairAt R.MIF_DIAG_BUF_LO) 1024 = true) ∧
    (∃ (o : DiagOp) (k : Nat) (x : Nat) (s : State), s.mem.diag = some o ∧ diagInside o.kind o.addr = true ∧ o.kind < 6 ∧
      k = wordKey o.kind o.unit o.addr ∧ (x = sread (fun _ => 0) s.mem.flips k)) ∧
    (∃ (o : DiagOp) (s : State), s.mem.diag = some o ∧ diagInside 6 o.addr = true ∧ o.kind = 6) ∧
    (∃ (o : DiagOp) (s : State), s.mem.diag = some o ∧ diagInside o.kind o.addr = false) :=
  ⟨⟨0, 7, 2 ^ 10 - 1, [], win, by decide +kernel⟩,
   ⟨0, 7, 2 ^ 10 - 1, [], win, by decide +kernel⟩,
   ⟨0, 7, 2 ^ 10 - 1, [], win, by decide +kernel⟩,
   ⟨⟨0, 0, 0, 12582911, 0, 1, []⟩, wordKey 0 0 12582911, 0,
     { win with mem := { up.mem with diag := some ⟨0, 0, 0, 12582911, 0, 1, []⟩, words := [(wordKey 0 0 12582911, (7, 9))] } },
     by decide +kernel⟩,
   ⟨⟨0, 0, 6, 5 * 2 ^ 27 + 7, 0, 1, []⟩, { win with mem := { up.mem with diag := some ⟨0, 0, 6, 5 * 2 ^ 27 + 7, 0, 1, []⟩ } },
     by decide +kernel⟩,
   ⟨⟨0, 0, 0, 12582912, 0, 1, []⟩, { win with mem := { up.mem with diag := some ⟨0, 0, 0, 12582912, 0, 1, []⟩ } }, by decide +kernel⟩⟩

/-- The premises of Obligations.SchedulerCommandsTakeEffect are met, clause by clause. -/
theorem test_scheduler_premises :
    (∃ (port : Nat) (s : State) (u : State), port < 128 ∧ s.tdHalted = false ∧ u = s.refreshPort port ∧ ((∀ i, i < 16 →
      (u.peakOk 0 (port / 16 * 16 + i) && u.portAlive (port / 16 * 16 + i)) = false)) ∧ u.flushedQueues port = []) ∧
    (∃ (port : Nat) (q : Nat) (path : List (Nat × Nat × Nat)) (c : Copy) (m : Image) (u : State) (v : State) (w : State) (s : State),
      port < 128 ∧ s.tdHalted = false ∧ u = s.refreshPort port ∧ (u.peakOk 0 port && u.portAlive port) = true ∧ u.flushedQueues port = [] ∧
      State.descend (u.activeTree port) 4 0 port u = (some path, v) ∧ q = voqs + (path.getLast?.map (·.2.1)).getD 0 ∧
      State.nextCopy q ((v.queue q).copies + 1) v = (some c, w) ∧ (if c.version = 0 then s.recipe.slotA else s.recipe.slotB) = some m) ∧
    (∃ (level : Nat) (k : Nat) (last : Nat) (now : Nat) (cuts : List Nat) (s : State), level < 5 ∧ s.tdDown = false ∧
      (last = sread (fun _ => 0) s.buf.rr (100 + level) / 2 ^ s.refillLog2 level) ∧ now = s.time.elapsed / 2 ^ s.refillLog2 level ∧
      last < now ∧ k ∈ s.refillNodes level ∧ (cuts = (s.refillCuts level k (s.refillLog2 level)).filter (fun j => last < j && j < now))) ∧
    (∃ (fn : Nat) (val : Nat) (s : State), WriteTaken s fn R.SCH_CFG 15 false ∧ ((∀ p, p < 128 → s.rd (R.LIF_PORT_LC_state p) ≠ lcUp)) ∧
      ((∀ k, k < 5 → 6 ≤ val / 2 ^ (4 * k) % 16 ∧ val / 2 ^ (4 * k) % 16 ≤ 14))) ∧
    (∃ (fn : Nat) (s : State), WriteTaken s fn R.SCH_LC 15 true) ∧
    (∃ (fn : Nat) (s : State), WriteTaken s fn R.SCH_LC 15 true) ∧
    (∃ (fn : Nat) (s : State), WriteTaken s fn R.SCH_LC 15 true) ∧
    (∃ (q : Nat) (s : State), (s.queue q).lc = lcDraining ∧ (s.queue q).copies = 0) ∧
    (∃ (fn : Nat) (index : Nat) (kind : Nat) (s : State), WriteTaken s fn R.SCH_LC_SEL 15 true ∧ index < 2 ^ 20 ∧ kind < 2 ∧ ((kind = 0 →
      index < voqs))) ∧
    (∃ (fn : Nat) (index : Nat) (level : Nat) (s : State), WriteTaken s fn R.SCH_NSEL 15 true ∧ level < 5 ∧ index < levelSize level) :=
  ⟨⟨127, up, up.refreshPort 127, by decide +kernel⟩,
   ⟨0, chosen, descent.1.getD [], copy voqs, image plain, ready.refreshPort 0, descent.2, popped.2, ready, by decide +kernel⟩,
   ⟨4, 1048575, 0, 10 ^ 12 / 2 ^ (later.refillLog2 4), [],
     { later with buf := { up.buf with nodes := [(2 ^ 20 * 4 + 1048575, ⟨0, 0, 0, 0, 0, 0, [], false, false, false⟩)] } },
     by decide +kernel⟩,
   ⟨0, 6 + 14 * 16 + 6 * 256 + 6 * 4096 + 14 * 65536, up, by decide +kernel⟩,
   ⟨0, up, by decide +kernel⟩,
   ⟨0, up, by decide +kernel⟩,
   ⟨0, up, by decide +kernel⟩,
   ⟨voqs, { up with buf := { up.buf with queues := [(voqs, { Queue.idle with lc := lcDraining })] } }, by decide +kernel⟩,
   ⟨0, 2 ^ 20 - 1, 1, up, by decide +kernel⟩,
   ⟨0, 1048575, 4, up, by decide +kernel⟩⟩

/-- The premises of Obligations.FabricLinkCommandsTakeEffect are met, clause by clause. -/
theorem test_fabric_link_premises :
    (∃ (fn : Nat) (l : Nat) (s : State), l < 160 ∧ WriteTaken s fn (R.FAB_LINK_LC l) 15 true ∧ s.on R.FAB_CFG_dev_valid = true ∧
      s.linkState l = lcDown) ∧
    (∃ (fn : Nat) (l : Nat) (s : State), l < 160 ∧ WriteTaken s fn (R.FAB_LINK_LC l) 15 true ∧ s.linkState l = lcUp) ∧
    (∃ (l : Nat) (s : State), l < 160 ∧ s.linkState l = lcDraining ∧ (s.link l).queue = [] ∧ (s.link l).ctl = []) ∧
    (∃ (l : Nat) (slot : List Byte) (s : State), l < 160 ∧ s.linkState l ≠ lcDown ∧ s.tdDown = false ∧ (s.link l).hits = 2 ∧
      isMarker (s.linkGen l) slot = true) ∧
    (∃ (l : Nat) (slot : List Byte) (s : State), l < 160 ∧ s.linkState l ≠ lcDown ∧ s.tdDown = false ∧ (s.link l).misses = 2 ∧
      isMarker (s.linkGen l) slot = false) ∧
    (∃ (l : Nat) (s : State), l < 160 ∧ s.tdDown = false ∧ s.linkState l = lcUp ∧ (s.link l).sentHello + 10000 ≤ s.time.elapsed) ∧
    (∃ (l : Nat) (m : InMsg) (s : State), l < 160 ∧ (s.fab.inbox.find? (fun m => m.link == l && m.kind == 1) = some m) ∧
      s.linkState l = lcStarting ∧ s.on (R.FAB_LINK_STATUS_fec_lock l) = true ∧
      s.wrongPeer l (byteAt m.body 0) (byteAt m.body 1) (leAt m.body 2 2 % 2 ^ 11) = false ∧ bitAt (byteAt m.body 12) 0 = true) ∧
    (∃ (l : Nat) (s : State), l < 160 ∧ s.linkState l = lcUp ∧ (s.link l).lastHello + 50000 ≤ s.time.elapsed) ∧
    (∃ (l : Nat) (s : State), l < 160 ∧ s.linkState l = lcUp ∧ (s.link l).statusAt + 10000 ≤ s.time.elapsed) ∧
    (∃ (l : Nat) (m : InMsg) (s : State), l < 160 ∧ (s.fab.inbox.find? (fun m => m.link == l && m.kind == 3) = some m)) ∧
    (∃ (l : Nat) (τ : Nat) (s : State), l < 160 ∧ (s.link l).lowSince = some τ ∧ s.linkState l = lcUp ∧
      s.on (R.FAB_LINK_STATUS_degraded l) = true ∧ τ + 1000000 * s.rd R.FAB_ERR_CFG_recover_ms ≤ s.time.elapsed) ∧
    (∃ (l : Nat) (τ : Nat) (s : State), l < 160 ∧ (s.link l).downAt = some τ ∧ s.on R.FAB_SPARE_CFG_auto_restart = true ∧
      s.on R.FAB_CFG_dev_valid = true ∧ s.linkState l = lcDown ∧ τ + 100000000 ≤ s.time.elapsed) :=
  ⟨⟨0, 159, put (link lcDown LinkSt.idle up) [(R.FAB_CFG_dev_valid, 1)], by decide +kernel⟩,
   ⟨0, 159, link lcUp LinkSt.idle up, by decide +kernel⟩,
   ⟨159, link lcDraining LinkSt.idle up, by decide +kernel⟩,
   ⟨159, markerBytes 2 7, link lcStarting { LinkSt.idle with hits := 2 } up, by decide +kernel⟩,
   ⟨159, [], link lcUp { LinkSt.idle with misses := 2 } up, by decide +kernel⟩,
   ⟨159, link lcUp LinkSt.idle later, by decide +kernel⟩,
   ⟨159, hello, put (inbox hello (link lcStarting LinkSt.idle up)) [(R.FAB_LINK_STATUS_fec_lock 159, 1)], by decide +kernel⟩,
   ⟨159, link lcUp LinkSt.idle later, by decide +kernel⟩,
   ⟨159, link lcUp { LinkSt.idle with discards := 3 } later, by decide +kernel⟩,
   ⟨159, ⟨159, 5, 3, [0, 0, 3], 0⟩, inbox ⟨159, 5, 3, [0, 0, 3], 0⟩ up, by decide +kernel⟩,
   ⟨159, 0, put (link lcUp { LinkSt.idle with lowSince := some 0 } later) [(R.FAB_LINK_STATUS_degraded 159, 1)], by decide +kernel⟩,
   ⟨159, 0, put (link lcDown { LinkSt.idle with downAt := some 0 } later) [(R.FAB_SPARE_CFG_auto_restart, 1), (R.FAB_CFG_dev_valid, 1)],
     by decide +kernel⟩⟩

/-- The premises of Obligations.ReachabilityCommandsTakeEffect are met, clause by clause. -/
theorem test_reachability_premises :
    (∃ (l : Nat) (m : InMsg) (s : State), (s.fab.inbox.find? (fun m => m.link == l && m.kind == 2) = some m)) ∧
    (∃ (l : Nat) (s : State), l < 160 ∧ s.on R.FAB_CFG_mesh = false ∧ (s.link l).reach ≠ 0 ∧
      (s.link l).reachAt + 3000 * s.rd R.FAB_REACH_CFG_period_us ≤ s.time.elapsed) ∧
    (∃ (src : Nat) (r : TagReport) (s : State), mget s.fab.waiting src = some r ∧
      (ahead (s.inStream (inData src)).next r.seq = 0 ∨ 2 ^ 19 ≤ ahead (s.inStream (inData src)).next r.seq) ∧
      (s.inStream (inData src)).ready = []) ∧
    (∃ (src : Nat) (τ : Nat) (s : State), mget s.fab.lostAt src = some τ ∧ τ + 16000 ≤ s.time.elapsed) :=
  ⟨⟨159, ⟨159, 5, 2, [1, 2, 3], 0⟩, inbox ⟨159, 5, 2, [1, 2, 3], 0⟩ up, by decide +kernel⟩,
   ⟨159, put (link lcUp { LinkSt.idle with reach := 7 } later) [(R.FAB_CFG_mesh, 0)], by decide +kernel⟩,
   ⟨511, ⟨9, 0⟩, { up with fab := { up.fab with waiting := [(511, ⟨9, 0⟩)] } }, by decide +kernel⟩,
   ⟨511, 0, { later with fab := { up.fab with lostAt := [(511, 0)] } }, by decide +kernel⟩⟩

/-- The premises of Obligations.CellCommandsTakeEffect are met, clause by clause. -/
theorem test_cell_premises :
    (∃ (l : Nat) (s : State), l < 160 ∧ s.linkState l = lcStarting ∧ s.tdStill = false ∧ (s.sendMarker l).spreadCtl.controlCell l = none) ∧
    (∃ (l : Nat) (c : Cell) (u : State) (v : State) (s : State), l < 160 ∧ s.linkState l = lcUp ∧ s.tdStill = false ∧
      u = (s.sendMarker l).spreadCtl ∧ u.controlCell l = none ∧ u.dataCell l = some (c, v) ∧ c.kind ≠ ceIdle ∧
      s.rd (R.DICE_STATUS_state (diceLink l)) ≠ diRunning) ∧
    (∃ (l : Nat) (bytes : List Byte) (s : State), l < 160 ∧ s.linkState l ≠ lcDown ∧ s.tdStill = false) ∧
    (∃ (l : Nat) (dcr : Nat) (ccr : Nat) (bytes : List Byte) (c : Cell) (s : State), l < 160 ∧ s.linkState l = lcStarting ∧
      s.tdStill = false ∧ decodeCell (s.linkGen l) bytes = some (c, dcr, ccr) ∧ c.kind = ceControl ∧ 1 ≤ byteAt c.payload 0 ∧
      byteAt c.payload 0 ≤ 3 ∧ (s.link l).good ≠ 255) ∧
    (∃ (l : Nat) (dcr : Nat) (ccr : Nat) (bytes : List Byte) (c : Cell) (s : State), l < 160 ∧ s.linkState l = lcUp ∧
      s.on (R.FAB_LINK_STATUS_fec_lock l) = true ∧ s.tdStill = false ∧ decodeCell (s.linkGen l) bytes = some (c, dcr, ccr) ∧
      c.kind = ceUnicast ∧ c.dest = s.self ∧ (s.link l).good ≠ 255 ∧ ahead (s.inStream (inData c.src)).next c.seq ≤ 65535 ∧
      c.seq ≠ (s.inStream (inData c.src)).next ∧ ((∀ r ∈ (s.inStream (inData c.src)).cells, r.seq ≠ c.seq ∧
      r.seq ≠ (s.inStream (inData c.src)).next))) ∧
    (∃ (src : Nat) (c : RxCell) (s : State), src < 512 ∧ (s.inStream (inCtl src)).cells = [c] ∧ c.fate = 0 ∧ c.seq < 2 ^ 20 ∧
      (s.inStream (inCtl src)).next < 2 ^ 20 ∧ ahead (s.inStream (inCtl src)).next c.seq = 1 ∧
      c.at_ + 1000 * s.rd R.FAB_REORDER_CFG_timeout_us ≤ s.time.elapsed) ∧
    (∃ (src : Nat) (bs : List Byte) (poison : Bool) (tc : Nat) (r : List (List Byte × Bool × Nat)) (s : State), src < 512 ∧
      s.tdDown = false ∧ (s.inStream (inData src)).ready = (bs, poison, tc) :: r) :=
  ⟨⟨159, link lcStarting LinkSt.idle up, by decide +kernel⟩,
   ⟨159, { unicast 9 with dest := 7 }, (sending.sendMarker 159).spreadCtl,
     (((sending.sendMarker 159).spreadCtl.dataCell 159).getD (unicast 9, up)).2, sending, by decide +kernel⟩,
   ⟨159, [], link lcStarting LinkSt.idle up, by decide +kernel⟩,
   ⟨159, 3, 4, Cell.encode ctlCell 2 3 4, ctlCell, link lcStarting LinkSt.idle up, by decide +kernel⟩,
   ⟨159, 3, 4, Cell.encode (unicast 65535) 2 3 4, unicast 65535, put (link lcUp LinkSt.idle up) [(R.FAB_LINK_STATUS_fec_lock 159, 1)],
     by decide +kernel⟩,
   ⟨5, ⟨1, 0, 0, ctlCell, none⟩, stream (inCtl 5) { InStream.idle with cells := [⟨1, 0, 0, ctlCell, none⟩] } later, by decide +kernel⟩,
   ⟨5, [1, 2], false, 3, [], stream (inData 5) { InStream.idle with ready := [([1, 2], false, 3)] } up, by decide +kernel⟩⟩

/-- The premises of Obligations.CreditCommandsTakeEffect are met, clause by clause. -/
theorem test_credit_premises :
    (∃ (q : Nat) (c : Copy) (s : State), q < voqs ∧ s.tdHalted = false ∧ (s.queue q).ondie = [c] ∧ (s.queue q).hbm = [] ∧
      (s.queue q).res = [] ∧ s.voqHeld q = false ∧ (s.queue q).lc = lcUp ∧ s.voqReachable q = true ∧ voqDevice q ≠ s.self ∧
      fwdMcast (c.carried % 2 ^ 64) = false ∧ s.headDrop q c = none ∧ s.copyCost q c ≤ (s.queue q).balance ∧ c.acct = none ∧
      s.selects q = true ∧ s.releasing q = none ∧ s.readFails c none = none) ∧
    (∃ (d : Nat) (s : State), d < 512 ∧ s.reachable d = true ∧ s.tdDown = false ∧ (sread (fun _ => 0) s.fab.exchAt d ≤ s.time.elapsed)) ∧
    (∃ (src : Nat) (m : InMsg) (s : State), src < 512 ∧ (s.fab.inbox.find? (fun m => m.src == src && m.kind == 0x100) = some m) ∧
      bitAt (byteAt m.body 11) 0 = true) ∧
    (∃ (port : Nat) (tc : Nat) (src : Nat) (made : Nat) (s : State), port < 128 ∧ s.tdStill = false ∧ ((if (sread (fun _ => (⟨0, 0,
      false⟩ : GenSt)) s.fab.gens port).stopped then s.overHalf port else s.overLimit port) = false) ∧
      (made = min (max (sread (fun _ => (⟨0, 0, false⟩ : GenSt)) s.fab.gens port).made 1638400000) ((sread (fun _ => (⟨0, 0,
      false⟩ : GenSt)) s.fab.gens port).made + (s.time.elapsed - (sread (fun _ => (⟨0, 0,
      false⟩ : GenSt)) s.fab.gens port).upTo) * s.portRate port * s.rd R.FAB_CREDIT_CFG_rate_pct)) ∧ 1638400000 ≤ made ∧ ((([7, 6, 5, 4, 3,
      2, 1, 0] : List Nat).findSome? fun tc => (nextSource (sread (fun _ => 511) s.fab.served (port * 8 + tc)) (s.wanting port tc)).map fun d => (tc, d)) = some (tc, src))) ∧
    (∃ (q : Nat) (s : State), q < voqs ∧ (s.queue q).copies = 0 ∧ 2048 ≤ (s.queue q).balance ∧
      (s.queue q).emptyAt + 8000 ≤ s.time.elapsed ∧ s.tdStill = false ∧ voqDevice q ≠ s.self) :=
  ⟨⟨5 * 1024, copy (5 * 1024), { voq { Queue.idle with ondie := [copy (5 * 1024)], balance := 88 } with time := up.time },
    by decide +kernel⟩,
   ⟨5, voq Queue.idle, by decide +kernel⟩,
   ⟨5, ⟨159, 5, 0x100, List.replicate 11 0 ++ [1], 0⟩, inbox ⟨159, 5, 0x100, List.replicate 11 0 ++ [1], 0⟩ (voq Queue.idle),
     by decide +kernel⟩,
   ⟨127, 7, 5, 1638400000, wanted, by decide +kernel⟩,
   ⟨5 * 1024, voq { Queue.idle with balance := 2048 }, by decide +kernel⟩⟩

/-- The premises of Obligations.RemoteCommandsTakeEffect are met, clause by clause. -/
theorem test_remote_premises :
    (∃ (c : Cmd) (device : Nat) (count : Nat) (offset : Nat) (result : Nat) (s : State), device < 512 ∧ remoteRange count offset = true ∧
      CommandTaken s c 0x40 (rightOf 0x40) [(result, 4 * count)] ∧ s.reachable device = true ∧ bitAt (s.features device) ftRemote = true ∧
      ((s.fab.remotes.filter fun r => !r.done).length < 64)) ∧
    (∃ (c : Cmd) (device : Nat) (count : Nat) (offset : Nat) (param : Nat) (data : List Byte) (s : State), device < 512 ∧
      remoteRange count offset = true ∧ CommandTaken s c 0x41 (rightOf 0x41) [(param, 4 * count)] ∧ s.reachable device = true ∧
      bitAt (s.features device) ftRemote = true ∧ ((s.fab.remotes.filter fun r => !r.done).length < 64)) ∧
    (∃ (c : Cmd) (device : Nat) (param : Nat) (result : Nat) (desc : List Byte) (s : State), device < 512 ∧
      CommandTaken s c 0x41 (rightOf 0x41) [(param, 64), (result, 16)] ∧ s.reachable device = true ∧
      bitAt (s.features device) ftRemote = true ∧ ((s.fab.remotes.filter fun r => !r.done).length < 64)) ∧
    (∃ (m : InMsg) (s : State), (s.fab.inbox.find? (fun m => m.kind == 0x10) = some m) ∧ s.allowsRemote m.src = false) ∧
    (∃ (m : InMsg) (s : State), (s.fab.inbox.find? (fun m => m.kind == 0x10) = some m) ∧ s.allowsRemote m.src = true ∧
      byteAt m.body 4 = 0) ∧
    (∃ (m : InMsg) (r : RemoteReq) (s : State), (s.fab.inbox.find? (fun m => m.kind == 0x11) = some m) ∧
      (s.fab.remotes.find? (fun r => r.id == leAt m.body 0 4 && r.device == m.src && !r.done) = some r) ∧ byteAt m.body 4 = stDone ∧
      r.op = 0) ∧
    (∃ (id : Nat) (r : RemoteReq) (s : State), (s.fab.remotes.find? (fun r => r.id == id && !r.done) = some r) ∧
      r.issued + 1000 * s.rd R.FAB_REMOTE_CFG_timeout_us ≤ s.time.elapsed) ∧
    (∃ (m : InMsg) (r : RemoteReq) (s : State), (s.fab.inbox.find? (fun m => m.kind == 0x12) = some m) ∧
      (s.fab.remotes.find? (fun r => r.id == leAt m.body 0 4 && r.device == m.src && r.op == 1) = some r)) :=
  ⟨⟨cmd, 511, 16, 0xFFFFFC0, 64, far win, by decide +kernel⟩,
   ⟨cmd, 511, 1, 0, 64, [1, 2, 3, 4], far win, by decide +kernel⟩,
   ⟨cmd, 511, 64, 256, List.replicate 64 0, far win, by decide +kernel⟩,
   ⟨said 0x10 (List.replicate 32 0), inbox (said 0x10 (List.replicate 32 0)) up, by decide +kernel⟩,
   ⟨said 0x10 (List.replicate 32 0), put (inbox (said 0x10 (List.replicate 32 0)) up) [(R.FAB_REMOTE_CFG_accept, 1),
     (R.FAB_REMOTE_ALLOW_devices 15, 2 ^ 31)], by decide +kernel⟩,
   ⟨said 0x11 (leBytes 4 9 ++ [0, 0, 0, 0, 1, 2, 3, 4]), request 0, inbox (said 0x11 (leBytes 4 9 ++ [0, 0, 0, 0, 1, 2, 3,
     4])) (asked 0 win), by decide +kernel⟩,
   ⟨9, request 1, asked 1 later, by decide +kernel⟩,
   ⟨said 0x12 (leBytes 4 9 ++ [0, 0, 0, 0, 1]), request 1, inbox (said 0x12 (leBytes 4 9 ++ [0, 0, 0, 0, 1])) (asked 1 up),
     by decide +kernel⟩⟩

/-- The premises of Obligations.LevelCommandsTakeEffect are met, clause by clause. -/
theorem test_level_premises :
    (∃ (s : State), s.svc.fwRunning = true ∧ s.tdDown = false ∧ s.fab.levelAt ≤ s.time.elapsed) ∧
    (∃ (m : InMsg) (s : State), (s.fab.inbox.find? (fun m => m.kind == 0x20) = some m)) ∧
    (∃ (peer : Nat) (p : PeerSt) (s : State), mget s.fab.peers peer = some p ∧
      p.heard + s.rd R.FWS_PEER_CFG_forget_s * 1000000000 ≤ s.time.elapsed) :=
  ⟨⟨up, by decide +kernel⟩,
   ⟨said 0x20 [5, 0, 5, 0, 5, 0], inbox (said 0x20 [5, 0, 5, 0, 5, 0]) up, by decide +kernel⟩,
   ⟨511, ⟨5, 5, 5, 0⟩, { later with fab := { up.fab with peers := [(511, ⟨5, 5, 5, 0⟩)] } }, by decide +kernel⟩⟩

/-- The premises of Obligations.DiceCommandsTakeEffect are met, clause by clause. -/
theorem test_dice_premises :
    (∃ (fn : Nat) (unit : Nat) (val : Nat) (s : State), isDice unit = true ∧ WriteTaken s fn (R.DICE_CTRL unit) 15 true ∧
      s.rd (R.DICE_STATUS_state unit) = diIdle ∧ bitsAt val 4 2 ≠ 3 ∧ bitAt val 0 = true ∧
      s.rd64 (R.DICE_START_LO_turn_lo unit) (R.DICE_START_HI_turn_hi unit) ≤ s.diceLast unit ∧
      s.schedCheck (.dice unit) (bitAt val 18) (s.rd64 (R.DICE_START_LO_turn_lo unit) (R.DICE_START_HI_turn_hi unit)) = stDone) ∧
    (∃ (fn : Nat) (unit : Nat) (val : Nat) (s : State), isDice unit = true ∧ WriteTaken s fn (R.DICE_CTRL unit) 15 true ∧
      s.rd (R.DICE_STATUS_state unit) = diIdle ∧ bitsAt val 4 2 ≠ 3 ∧ bitAt val 0 = true ∧
      s.rd64 (R.DICE_START_LO_turn_lo unit) (R.DICE_START_HI_turn_hi unit) ≤ s.diceLast unit ∧
      s.schedCheck (.dice unit) (bitAt val 18) (s.rd64 (R.DICE_START_LO_turn_lo unit) (R.DICE_START_HI_turn_hi unit)) ≠ stDone) ∧
    (∃ (fn : Nat) (unit : Nat) (val : Nat) (x : SlotEv) (s : State), isDice unit = true ∧ WriteTaken s fn (R.DICE_CTRL unit) 15 true ∧
      bitAt val 19 = true ∧ (bitsAt val 4 2 ≠ 3 ∨ s.rd (R.DICE_STATUS_state unit) = diScheduled) ∧
      s.rd (R.DICE_STATUS_state unit) ≠ diRunning ∧ s.diceEvent unit = some x ∧ s.inTime x.turn = true) ∧
    (∃ (fn : Nat) (unit : Nat) (val : Nat) (s : State), isDice unit = true ∧ WriteTaken s fn (R.DICE_CTRL unit) 15 true ∧
      bitAt val 19 = true ∧ bitsAt val 4 2 ≠ 3 ∧ s.rd (R.DICE_STATUS_state unit) ≠ diRunning ∧
      s.rd (R.DICE_STATUS_state unit) ≠ diScheduled ∧ s.diceEvent unit = none) ∧
    (∃ (fn : Nat) (unit : Nat) (val : Nat) (s : State), isDice unit = true ∧ WriteTaken s fn (R.DICE_CTRL unit) 15 true ∧
      bitAt val 19 = true ∧ s.rd (R.DICE_STATUS_state unit) = diRunning) :=
  ⟨⟨0, unit, 3, put up [(R.DICE_START_LO_turn_lo unit, 4), (R.DICE_END_LO_turn_lo unit, 4)], by decide +kernel⟩,
   ⟨0, unit, 3, put up [(R.DICE_START_LO_turn_lo unit, 3), (R.DICE_END_LO_turn_lo unit, 3)], by decide +kernel⟩,
   ⟨0, unit, 2 ^ 19, event (.dice unit) 3, sched (put up [(R.DICE_STATUS_state unit, diScheduled)]) (event (.dice unit) 3),
     by decide +kernel⟩,
   ⟨0, unit, 2 ^ 19, up, by decide +kernel⟩,
   ⟨0, unit, 2 ^ 19, put up [(R.DICE_STATUS_state unit, diRunning)], by decide +kernel⟩⟩

/-- The premises of Obligations.BridgeCommandsTakeEffect are met, clause by clause. -/
theorem test_bridge_premises :
    (∃ (g : Nat) (x : BrgLoad) (s : State), g < 24 ∧ s.on (brgUp g) = true ∧ s.brg.replay.contains g = false ∧ s.tdDown = false ∧
      x.fits g = true ∧ s.onBridge g x = true ∧ ((mget s.brg.under g).any (fun y => y != x) = false) ∧
      s.rd (R.DICE_STATUS_state (diceGroup g)) ≠ diRunning ∧ (s.dice (diceGroup g)).held = []) ∧
    (∃ (g : Nat) (x : BrgLoad) (s : State), g < 24 ∧ s.on (brgUp g) = true ∧ s.brg.replay.contains g = false ∧ s.tdDown = false ∧
      x.fits g = true ∧ s.onBridge g x = true ∧ ((mget s.brg.under g).any (fun y => y != x) = false) ∧
      s.rd (R.DICE_STATUS_state (diceGroup g)) ≠ diRunning ∧ (s.dice (diceGroup g)).held = [] ∧ s.brgRetries g < 7) ∧
    (∃ (g : Nat) (x : BrgLoad) (s : State), g < 24 ∧ s.on (brgUp g) = true ∧ s.brg.replay.contains g = false ∧ s.tdDown = false ∧
      x.fits g = true ∧ s.onBridge g x = true ∧ ((mget s.brg.under g).any (fun y => y != x) = false) ∧
      s.rd (R.DICE_STATUS_state (diceGroup g)) ≠ diRunning ∧ (s.dice (diceGroup g)).held = [] ∧ 7 ≤ s.brgRetries g) ∧
    (∃ (g : Nat) (s : State), s.brg.replay.contains g = true) ∧
    (∃ (g : Nat) (s : State), g < 24 ∧ s.tdDown = false ∧ s.on (brgUp g) = true ∧ s.rd (R.TGL_BRG_GRP_spares_used g) < 2) ∧
    (∃ (g : Nat) (s : State), g < 24 ∧ s.tdDown = false ∧ s.on (brgUp g) = true ∧ 2 ≤ s.rd (R.TGL_BRG_GRP_spares_used g)) ∧
    (∃ (g : Nat) (s : State), g < 24 ∧ s.brg.switching.contains g = true) :=
  ⟨⟨23, .verdict 5, bridge 3 [], by decide +kernel⟩,
   ⟨23, .bytes 5, bridge 6 [], by decide +kernel⟩,
   ⟨23, .bytes 5, bridge 7 [], by decide +kernel⟩,
   ⟨23, bridge 1 [23], by decide +kernel⟩,
   ⟨23, put (bridge 1 []) [(R.TGL_BRG_GRP_spares_used 23, 1)], by decide +kernel⟩,
   ⟨23, put (bridge 1 []) [(R.TGL_BRG_GRP_spares_used 23, 2)], by decide +kernel⟩,
   ⟨23, { up with brg := { up.brg with switching := [23] } }, by decide +kernel⟩⟩

/-- The premises of Obligations.PortCommandsTakeEffect are met, clause by clause. -/
theorem test_port_premises :
    (∃ (fn : Nat) (p : Nat) (s : State), p < 128 ∧ WriteTaken s fn (R.LIF_PORT_LC p) 15 true ∧ s.isPort p = true ∧
      s.rd (R.LIF_PORT_LC_state p) = lcDown) ∧
    (∃ (fn : Nat) (p : Nat) (s : State), p < 128 ∧ WriteTaken s fn (R.LIF_PORT_LC p) 15 true ∧ s.rd (R.LIF_PORT_LC_state p) = lcUp) ∧
    (∃ (p : Nat) (s : State), p < 128 ∧ s.rd (R.LIF_PORT_LC_state p) = lcDraining ∧ s.heldQueues p = [] ∧
      ((s.fd.pkts.any fun x => x.egress && x.port == p) = false)) ∧
    (∃ (p : Nat) (s : State), p < 128 ∧ isEther (s.mode p) = true ∧ s.rd (R.LIF_PORT_LC_state p) ≠ lcDown) ∧
    (∃ (p : Nat) (lock : Bool) (fec : Bool) (hiSer : Bool) (s : State), p < 128 ∧ s.rd (R.LIF_PORT_LC_state p) ≠ lcDown) :=
  ⟨⟨0, 127, port lcDown, by decide +kernel⟩,
   ⟨0, 127, port lcUp, by decide +kernel⟩,
   ⟨127, port lcDraining, by decide +kernel⟩,
   ⟨127, port lcStarting, by decide +kernel⟩,
   ⟨127, true, false, true, port lcUp, by decide +kernel⟩⟩

/-- The premises of Obligations.ReceiveCommandsTakeEffect are met, clause by clause. -/
theorem test_receive_premises :
    (∃ (port : Nat) (bytes : List Byte) (s : State), port < 128 ∧ isEther (s.mode port) = true ∧ s.refsDead = false ∧
      s.rd (R.LIF_PORT_LC_state port) = lcUp ∧ s.on (R.LIF_PORT_STATUS_link_up port) = true ∧ 60 ≤ bytes.length ∧ bytes.length ≤ 508 ∧
      bytes.length + 4 ≤ s.rd (R.LIF_PORT_CFG_max_frame port) ∧ beAt bytes 12 2 ≠ 0x8808 ∧
      s.fifoUsed port + bytes.length ≤ s.fifoSize port) ∧
    (∃ (port : Nat) (arrived : Nat) (bytes : List Byte) (fcsOk : Bool) (s : State), port < 128 ∧ isEther (s.mode port) = true ∧
      s.refsDead = false ∧ s.rd (R.LIF_PORT_LC_state port) = lcUp ∧ s.on (R.LIF_PORT_STATUS_link_up port) = true ∧ bytes.length < 60) ∧
    (∃ (c : Nat) (gfp : GfpHead) (bytes : List Byte) (s : State), c < 128 ∧ s.clientBound c = true ∧ s.refsDead = false ∧
      s.clientAis c = false ∧ s.on (R.OTN_CLIENT_w0_map c) = true ∧ s.on (R.OTN_CLIENT_w1_plm c) = false ∧
      s.rd (R.LIF_PORT_LC_state c) = lcUp ∧ 60 ≤ bytes.length ∧ bytes.length ≤ 508 ∧ bytes.length + 4 ≤ s.rd (R.LIF_PORT_CFG_max_frame c) ∧
      beAt bytes 12 2 ≠ 0x8808 ∧ s.fifoUsed c + bytes.length ≤ s.fifoSize c) ∧
    (∃ (port : Nat) (k : Nat) (bytes : List Byte) (s : State), port < 128 ∧ k < 8 ∧ isEther (s.mode port) = true ∧
      s.rd (R.LIF_PORT_LC_state port) = lcUp ∧ beAt bytes 12 2 = 0x8808 ∧ beAt bytes 0 6 = 0x0180C2000001 ∧ beAt bytes 14 2 = 0x0101 ∧
      bitAt (byteAt bytes 17) k = true ∧ bitAt (s.rd (R.LIF_PFC_CFG_rx_en port)) k = true ∧ beAt bytes (18 + 2 * k) 2 ≠ 0) ∧
    (∃ (port : Nat) (k : Nat) (τ : Nat) (s : State), port < 128 ∧ k < 8 ∧ mget s.lif.pauses (port * 8 + k) = some τ ∧ τ ≤ s.time.elapsed) ∧
    (∃ (port : Nat) (k : Nat) (τ : Nat) (s : State), port < 128 ∧ k < 8 ∧ mget s.lif.repeats (port * 8 + k) = some τ ∧ τ ≤ s.time.elapsed ∧
      bitAt (s.rd (R.LIF_PFC_CFG_tx_en port)) k = true ∧ s.rd (R.LIF_PORT_LC_state port) = lcUp ∧
      (256 * s.rd (R.LIF_PFC_XOFF_level port) < sread (fun _ => 0) s.lif.accounts (port * 8 + k))) :=
  ⟨⟨127, List.replicate 508 0, port lcUp, by decide +kernel⟩,
   ⟨127, 59, List.replicate 59 0, true, port lcUp, by decide +kernel⟩,
   ⟨127, ⟨false, false, 0, 0, true, false, true⟩, List.replicate 60 0, client, by decide +kernel⟩,
   ⟨127, 7, pfc, put (port lcUp) [(R.LIF_PFC_CFG_rx_en 127, 0x80)], by decide +kernel⟩,
   ⟨127, 7, 5, { later with lif := { up.lif with pauses := [(1023, 5)] } }, by decide +kernel⟩,
   ⟨127, 7, 5, put { port lcUp with time := later.time, lif := { up.lif with repeats := [(1023, 5)], accounts := [(1023, 2 ^ 40)] } } [(R.LIF_PFC_CFG_tx_en 127, 0x80)], by decide +kernel⟩⟩

/-- The premises of Obligations.TransmitCommandsTakeEffect are met, clause by clause. -/
theorem test_transmit_premises :
    (∃ (id : Nat) (p : Packet) (s : State), s.pkt id = some p ∧ p.egress = true ∧ p.place = .txQueue ∧ s.fdRuns = true ∧
      (s.oldestOf p (fun q => q.place == .txQueue) = true) ∧ s.rd (R.DICE_STATUS_state (dicePort p.port)) ≠ diRunning ∧
      s.rd (R.LIF_PORT_LC_state p.port) = lcUp ∧ s.on (R.LIF_PORT_STATUS_link_up p.port) = true ∧ p.poison = false ∧ (tsOp p.hv).op = 0) ∧
    (∃ (fn : Nat) (p : Nat) (tag : Nat) (ns : Nat) (frac : Nat) (rest : List (Nat × Nat × Nat)) (s : State), p < 128 ∧
      ReadTaken s fn (R.LIF_TS_POP p) ∧ (sread (fun _ => []) s.lif.tsFifo p = (tag, ns, frac) :: rest)) :=
  ⟨⟨5, leaving, put (holds leaving up) [(R.LIF_PORT_LC_state 0, lcUp), (R.LIF_PORT_STATUS_link_up 0, 1)], by decide +kernel⟩,
   ⟨0, 127, 9, 10, 11, [], { up with lif := { up.lif with tsFifo := [(127, [(9, 10, 11)])] } }, by decide +kernel⟩⟩

/-- The premises of Obligations.OtnCommandsTakeEffect are met, clause by clause. -/
theorem test_otn_premises :
    (∃ (i : Nat) (p : Nat) (f : OtnFrame) (s : State), i < 256 ∧ s.portOfSlice i = some p ∧ s.rd (R.LIF_PORT_LC_state p) ≠ lcDown ∧
      s.on (R.OTN_SLICE_STATUS_oof i) = false ∧ s.on (R.OTN_SLICE_STATUS_oom i) = false ∧ f.fasOk = true ∧ f.mfas = (s.otnSlice i).mfas ∧
      f.flexoLost = false) ∧
    (∃ (i : Nat) (p : Nat) (f : OtnFrame) (s : State), i < 256 ∧ s.portOfSlice i = some p ∧ s.rd (R.LIF_PORT_LC_state p) ≠ lcDown ∧
      s.on (R.OTN_SLICE_STATUS_oof i) = false ∧ f.fasOk = false ∧ (s.otnSlice i).badFas = 4) ∧
    (∃ (i : Nat) (p : Nat) (s : State), i < 256 ∧ s.portOfSlice i = some p ∧ (s.otnSlice i).oofAt + 3000000 ≤ s.time.elapsed) ∧
    (∃ (g : Nat) (p : Nat) (cm : Nat) (s : State), g < 5120 ∧ s.portOfSlot g = some p ∧ s.rd (R.LIF_PORT_LC_state p) ≠ lcDown ∧
      s.on (R.OTN_RX_SLOT_valid g) = true) ∧
    (∃ (g : Nat) (p : Nat) (cm : Nat) (good : Bool) (s : State), g < 5120 ∧ s.portOfSlot g = some p ∧
      s.rd (R.LIF_PORT_LC_state p) ≠ lcDown ∧ (s.gmp (8192 + g)).cm = none) ∧
    (∃ (fn : Nat) (page : Nat) (g : Nat) (val : Nat) (s : State), page < 2 ∧ g < 5120 ∧
      WriteTaken s fn (if page = 0 then R.OTN_CM_A g else R.OTN_CM_B g) 15 false ∧ page ≠ s.cmPage ∧
      s.rd R.OTN_TSI_STATUS_state = tsiIdle) ∧
    (∃ (fn : Nat) (val : Nat) (s : State), WriteTaken s fn R.OTN_TSI_CTRL 15 true ∧ bitAt val 0 = true ∧
      s.rd R.OTN_TSI_STATUS_state = tsiIdle ∧ s.schedCheck .tsiSwap (bitAt val 2) s.tsiTurn = stDone ∧ s.pageOk (1 - s.cmPage) = true) ∧
    (∃ (fn : Nat) (val : Nat) (x : SlotEv) (s : State), WriteTaken s fn R.OTN_TSI_CTRL 15 true ∧
      (s.schedFind (fun e => e == .tsiSwap) = some x) ∧ s.time.turn + 3 ≤ x.turn) ∧
    (∃ (p : Nat) (s : State), s.lif.swapping = [p] ∧ s.rd R.OTN_TSI_STATUS_state = tsiSwapping) :=
  ⟨⟨254, 127, otnFrame true, otn lcUp slice0 up, by decide +kernel⟩,
   ⟨254, 127, otnFrame false, otn lcUp { slice0 with badFas := 4 } up, by decide +kernel⟩,
   ⟨254, 127, otn lcUp slice0 later, by decide +kernel⟩,
   ⟨5080, 127, 9, otn lcUp slice0 up, by decide +kernel⟩,
   ⟨5080, 127, 9, false, otn lcUp slice0 up, by decide +kernel⟩,
   ⟨0, 1, 5119, 7, up, by decide +kernel⟩,
   ⟨0, 1, put up [(R.OTN_TSI_TURN_LO_turn_lo, 4)], by decide +kernel⟩,
   ⟨0, 8, event .tsiSwap 3, sched (put up [(R.OTN_TSI_STATUS_state, tsiScheduled)]) (event .tsiSwap 3), by decide +kernel⟩,
   ⟨127, put { up with lif := { up.lif with swapping := [127] } } [(R.OTN_TSI_STATUS_state, tsiSwapping)], by decide +kernel⟩⟩

/-- The premises of Obligations.RecipeLoadCommandsTakeEffect are met, clause by clause. -/
theorem test_recipe_load_premises :
    (∃ (c : Cmd) (slot : Nat) (source : Nat) (entry : Nat) (addr : Nat) (length : Nat) (s : State), slot < 2 ∧ source < 2 ∧ entry < 3 ∧
      CommandTaken s c 0x30 (rightOf 0x30) (if source = 0 then [(addr, length)] else []) ∧ s.fwChanging = false ∧
      s.slotState slot = slEmpty ∧ (s.schedFind (fun e => e == .recipe slot) = none) ∧ ((source = 0 → addr % 64 = 0)) ∧ ((source = 1 →
      s.on (R.FWS_RCP_STORE_w0_valid entry) = true))) ∧
    (∃ (c : Cmd) (slot : Nat) (source : Nat) (entry : Nat) (addr : Nat) (length : Nat) (s : State), slot < 2 ∧ source < 2 ∧ entry < 3 ∧
      CommandTaken s c 0x30 (rightOf 0x30) (if source = 0 then [(addr, length)] else []) ∧ s.fwChanging = false ∧
      s.slotState slot = slEmpty ∧ (s.schedFind (fun e => e == .recipe slot) = none) ∧ ((source = 0 → addr % 64 = 0)) ∧ ((source = 1 →
      s.on (R.FWS_RCP_STORE_w0_valid entry) = true))) ∧
    (∃ (slot : Nat) (j : LoadJob) (m : Image) (v : State) (s : State), s.loadOf slot = some j ∧ j.stage = 0 ∧
      s.authFailure (j.fetch m) = none ∧ s.compatible (j.fetch m) = true ∧ s.contentFits (j.fetch m).recipe = true ∧
      s.loadStorage slot (j.fetch m).recipe = some v) ∧
    (∃ (slot : Nat) (why : Nat) (j : LoadJob) (m : Image) (s : State), s.loadOf slot = some j ∧ j.stage = 0 ∧
      s.authFailure (j.fetch m) = some why) ∧
    (∃ (slot : Nat) (j : LoadJob) (c : Cmd) (s : State), slot < 2 ∧ s.loadOf slot = some j ∧ j.stage = 1 ∧ j.due ≤ s.time.elapsed ∧
      j.cmd = some c) ∧
    (∃ (slot : Nat) (j : LoadJob) (r : Recipe) (c : Cmd) (s : State), slot < 2 ∧ s.loadOf slot = some j ∧ s.slotRecipe slot = some r ∧
      j.stage = 2 ∧ j.store = none ∧ j.cmd = some c) ∧
    (∃ (entry : Nat) (m : Image) (s : State), entry < 3 ∧ mget s.recipe.writing entry = some m) ∧
    (∃ (m : Image) (s : State), s.rd R.GLB_SERVICE_stage = 4 ∧ s.slotState 0 = slEmpty ∧ s.on R.FWS_RCP_BOOT_autostart = true ∧
      s.on R.GLB_SERVICE_autostart_failed = false ∧ mget s.recipe.store (s.rd R.FWS_RCP_BOOT_entry) = some m) :=
  ⟨⟨cmd, 1, 0, 2, 64, 4096, win, by decide +kernel⟩,
   ⟨cmd, 1, 1, 2, 1, 0, put win [(R.FWS_RCP_STORE_w0_valid 2, 1)], by decide +kernel⟩,
   ⟨1, job 0, good, ((loading (job 0)).loadStorage 1 plain).getD up, loading (job 0), by decide +kernel⟩,
   ⟨1, secDigest, job 0, { good with hashes := [] }, loading (job 0), by decide +kernel⟩,
   ⟨1, job 1, cmd, loading (job 1), by decide +kernel⟩,
   ⟨1, job 2, plain, cmd, loading (job 2), by decide +kernel⟩,
   ⟨2, good, { up with recipe := { up.recipe with writing := [(2, good)] } }, by decide +kernel⟩,
   ⟨good, put { up with recipe := { up.recipe with store := [(2, good)] } } [(R.GLB_SERVICE_stage, 4), (R.FWS_RCP_BOOT_entry, 2)],
     by decide +kernel⟩⟩

/-- The premises of Obligations.RecipeActivateCommandsTakeEffect are met, clause by clause. -/
theorem test_recipe_activate_premises :
    (∃ (c : Cmd) (slot : Nat) (turn : Nat) (s : State), slot < 2 ∧ CommandTaken s c 0x31 (rightOf 0x31) [] ∧ s.slotState slot = slReady ∧
      s.slotState (1 - slot) ≠ slRetiring ∧ s.canReserve slot = true ∧ s.schedCheck (.recipe slot) c.system turn = stDone) ∧
    (∃ (c : Cmd) (slot : Nat) (x : SlotEv) (s : State), CommandTaken s c 0x31 (rightOf 0x31) [] ∧
      (s.schedFind (fun e => e == .recipe slot) = some x) ∧ s.time.turn + 3 ≤ x.turn) ∧
    (∃ (fn : Nat) (val : Nat) (lo : Nat) (s : State), WriteTaken s fn R.FWS_RCP_MIN_SERIAL_HI 15 false) ∧
    (∃ (fn : Nat) (val : Nat) (s : State), WriteTaken s fn R.FWS_RCP_BOOT 15 false ∧ val % 4 < 3 ∧
      s.on (R.FWS_RCP_STORE_w0_valid (val % 4)) = true ∧ s.on (R.FWS_RCP_STORE_w0_writing (val % 4)) = false) :=
  ⟨⟨cmd, 1, 4, ready_b, by decide +kernel⟩,
   ⟨cmd, 1, event (.recipe 1) 3, sched ready_b (event (.recipe 1) 3), by decide +kernel⟩,
   ⟨0, 5, 6, up, by decide +kernel⟩,
   ⟨0, 2, put up [(R.FWS_RCP_STORE_w0_valid 2, 1)], by decide +kernel⟩⟩

/-- The premises of Obligations.ReplayCommandsTakeEffect are met, clause by clause. -/
theorem test_replay_premises :
    (∃ (fn : Nat) (val : Nat) (s : State), WriteTaken s fn R.TXF_RPL_CTRL 15 true ∧ s.on R.TXF_RPL_CTRL_en = true ∧ bitAt val 0 = true ∧
      bitAt val 1 = true ∧ 6 ≤ val / 4 % 32 ∧ val / 4 % 32 ≤ 24) ∧
    (∃ (fn : Nat) (val : Nat) (s : State), WriteTaken s fn R.TXF_RPL_TAIL 15 false) ∧
    (∃ (data : List Byte) (s : State), s.on R.TXF_RPL_CTRL_en = true ∧ s.on R.TXF_RPL_CTRL_start = true ∧
      s.rd R.TXF_RPL_HEAD_head ≠ s.rd R.TXF_RPL_TAIL_tail ∧ byteAt data 10 < 128 ∧
      bitAt (s.rd (R.TXF_RPL_PORTS_ports (byteAt data 10 / 32))) (byteAt data 10 % 32) = true ∧
      s.rd (R.LIF_PORT_LC_state (byteAt data 10)) = lcDown ∧ mget s.fd.replayLast (byteAt data 10) = none) ∧
    (∃ (r : Nat × List Byte) (s : State), (s.fd.replay.find? (fun r => r.1 ≤ s.time.sysNs) = some r) ∧ byteAt r.2 10 < 128 ∧
      s.fifoUsed (byteAt r.2 10) + min 512 (slice r.2 64 (leAt r.2 12 2)).length ≤ s.fifoSize (byteAt r.2 10)) :=
  ⟨⟨0, 3 + 4 * 24, put up [(R.TXF_RPL_CTRL_en, 1)], by decide +kernel⟩,
   ⟨0, 2 ^ 20, up, by decide +kernel⟩,
   ⟨List.replicate 10 0 ++ [127] ++ List.replicate 53 0, put up [(R.TXF_RPL_CTRL_en, 1), (R.TXF_RPL_CTRL_start, 1), (R.TXF_RPL_TAIL_tail,
     64), (R.TXF_RPL_PORTS_ports 3, 2 ^ 31)], by decide +kernel⟩,
   ⟨(0, List.replicate 10 0 ++ [127] ++ List.replicate 117 0),
     { up with fd := { up.fd with replay := [(0, List.replicate 10 0 ++ [127] ++ List.replicate 117 0)] } }, by decide +kernel⟩⟩

/-- The premises of Obligations.RegisterAccessCommandsTakeEffect are met, clause by clause. -/
theorem test_register_access_premises :
    (∃ (fn : Nat) (addr : Nat) (be : Nat) (val : Nat) (r : RegDesc) (s : State), WriteTaken s fn addr be (triggerAt (s.banked fn addr)) ∧
      regAt (s.banked fn addr) = some r ∧ r.pair = .single ∧ ownWrite (s.banked fn addr) = false ∧ s.banked fn addr ≠ R.HAC_WSEQ fn ∧
      ((s.hostRings.find? fun h => h.en.addr == s.banked fn addr) = none) ∧
      s.valueRefused (s.banked fn addr) (mergeWrite r.fields (s.rdWord (s.banked fn addr)) (BitVec.ofNat 32 val) be) = none) ∧
    (∃ (fn : Nat) (addr : Nat) (lo : Nat) (hi : Nat) (s : State), WriteTaken s fn addr 15 false ∧
      ((regAt (s.banked fn addr)).map (fun r => r.pair) = some .low) ∧ ownWrite (s.banked fn addr + 4) = false ∧
      s.banked fn addr + 4 ≠ R.HAC_WSEQ fn ∧ s.banked fn addr ≠ R.HAC_WSEQ fn ∧
      ((s.hostRings.find? fun h => h.low == s.banked fn addr) = none) ∧ s.valueRefused (s.banked fn addr) 0 ≠ some leWrongState ∧
      (s.applyPair fn (s.banked fn addr) (some lo) hi 15).pairAt (s.banked fn addr) % baseAlign (s.banked fn addr) = 0) ∧
    (∃ (fn : Nat) (v : Nat) (be : Nat) (val : Nat) (s : State), s.answers fn = true ∧ v < 64 ∧ bitAt be 0 = true) ∧
    (∃ (fn : Nat) (addr : Nat) (be : Nat) (s : State), ReadTaken s fn addr ∧ (be ≠ 15 ∨ (∀ p, p < 128 →
      s.banked fn addr ≠ R.LIF_TS_POP p))) ∧
    (∃ (fn : Nat) (p : Nat) (s : State), p < 128 ∧ ReadTaken s fn (R.LIF_TS_POP p)) ∧
    (∃ (fn : Nat) (addr : Nat) (s : State), ReadTaken s fn addr ∧ ((regAt (s.banked fn addr)).map (fun r => r.pair) = some .low)) ∧
    (∃ (fn : Nat) (addr : Nat) (w : Word) (s : State), ReadTaken s fn addr ∧ mget s.host.latches (pairKey fn (addr - 4)) = some w) :=
  ⟨⟨0, R.GLB_LED_CFG, 1, 1, (regAt R.GLB_LED_CFG).get (by decide +kernel), up, by decide +kernel⟩,
   ⟨0, R.FWS_BCFG_ADDR_LO, 5, 6, up, by decide +kernel⟩,
   ⟨1, 63, 15, 1, up, by decide +kernel⟩,
   ⟨0, R.GLB_LED_CFG, 15, up, by decide +kernel⟩,
   ⟨0, 127, up, by decide +kernel⟩,
   ⟨0, R.FWS_BCFG_ADDR_LO, up, by decide +kernel⟩,
   ⟨0, R.FWS_BCFG_ADDR_HI, 9, host up { up.host with latches := [(pairKey 0 R.FWS_BCFG_ADDR_LO, 9)] }, by decide +kernel⟩⟩

/-- The premises of Obligations.HostControlCommandsTakeEffect are met, clause by clause. -/
theorem test_host_control_premises :
    (∃ (fn : Nat) (addr : Nat) (s : State), 16 ≤ blockBit addr ∧ ReadTaken s fn addr) ∧
    (∃ (fn : Nat) (addr : Nat) (s : State), 16 ≤ blockBit addr ∧ WriteTaken s fn addr 15 false) ∧
    (∃ (fn : Nat) (s : State), ReadTaken s fn (R.HAC_FENCE 0)) ∧
    (∃ (fn : Nat) (e : Nat × Nat) (s : State), (s.host.fences.find? (fun e => e.1 == fn) = some e)) ∧
    (∃ (fn : Nat) (addr : Nat) (be : Nat) (val : Nat) (r : RegDesc) (s : State), ruleReg addr = true ∧ regAt addr = some r ∧
      WriteTaken s fn addr be false) ∧
    (∃ (fn : Nat) (val : Nat) (s : State), WriteTaken s fn R.HAC_CRIT_PEND 15 false) ∧
    (∃ (fn : Nat) (val : Nat) (f : Fld) (s : State), f ∈ [R.EXM_LFIFO_TAIL_tail, R.MIF_PR_TAIL_tail, R.PMF_SMP_TAIL_tail] ∧
      WriteTaken s fn f.addr 15 false) ∧
    (∃ (fn : Nat) (val : Nat) (s : State), fn < 2 ∧ WriteTaken s fn (R.HAC_EVQ_TAIL 0) 15 false) ∧
    (∃ (fn : Nat) (s : State), fn < 2 ∧ s.answers fn = true) :=
  ⟨⟨0, R.BPM_STATUS, up, by decide +kernel⟩,
   ⟨0, R.BPM_STATUS, up, by decide +kernel⟩,
   ⟨0, up, by decide +kernel⟩,
   ⟨1, (1, 7), host up { up.host with fences := [(1, 7)] }, by decide +kernel⟩,
   ⟨0, R.HAC_DMAW_w0 1 7, 15, 1, (regAt (R.HAC_DMAW_w0 1 7)).get (by decide +kernel), up, by decide +kernel⟩,
   ⟨0, 2 ^ 31, up, by decide +kernel⟩,
   ⟨0, 5, R.PMF_SMP_TAIL_tail, up, by decide +kernel⟩,
   ⟨1, 5, pf1, by decide +kernel⟩,
   ⟨1, up, by decide +kernel⟩⟩

/-- The premises of Obligations.RingCommandsTakeEffect are met, clause by clause. -/
theorem test_ring_premises :
    (∃ (fn : Nat) (ring : Nat) (val : Nat) (s : State), s.answers fn = true ∧ ring < 2 ∧ val < 4096 ∧
      ((s.ring fn ring).tail + 4096 - s.rd (R.HAC_RING_head fn ring)) % 4096 + (val + 4096 - (s.ring fn ring).tail) % 4096 < 4096) ∧
    (∃ (fn : Nat) (ring : Nat) (val : Nat) (s : State), s.answers fn = true ∧ ring < 2 ∧ val < 4096 ∧
      (val + 4096 - (s.ring fn ring).cplHead) % 4096 ≤ (s.ring fn ring).cplUsed) ∧
    (∃ (fn : Nat) (ring : Nat) (desc : List Byte) (otherWaits : Bool) (fields : List (Nat × Nat)) (s : State), fn < 2 ∧ ring < 2 ∧
      desc.length = 64 ∧ s.ringReady fn ring = true ∧ s.ringReady fn (1 - ring) = false ∧
      (bitAt (byteAt desc 1) 1 && s.ringBusy fn ring) = false ∧ s.descFields desc = some fields ∧
      s.hasRights ⟨.ring fn ring (leAt desc 2 2), bitAt (byteAt desc 1) 0⟩ (rightOf (byteAt desc 0) ++ s.descGrants desc) = true ∧
      s.hasWindows ⟨.ring fn ring (leAt desc 2 2), bitAt (byteAt desc 1) 0⟩ (s.descExtents desc) = true ∧ descClean desc fields = true ∧
      stageOpOk desc = true ∧ s.tooEarly (byteAt desc 0) = false ∧ s.svc.handover = false) ∧
    (∃ (fn : Nat) (ring : Nat) (c : Cpl) (s : State), (s.host.cplQueue.find? (fun c => c.fn == fn && c.ring == ring) = some c) ∧
      s.ringHeld fn ring = false) ∧
    (∃ (r : Refusing) (s : State), (s.host.refusing.find? (fun r => r.due ≤ s.time.elapsed) = some r)) ∧
    (∃ (fn : Nat) (r : EvRec) (s : State), (s.host.evPend.find? (fun e => e.1 == fn) = some (fn, r)) ∧ s.on (R.HAC_EVQ_CFG_en fn) = true ∧
      ringFull (s.rd (R.HAC_EVQ_CFG_size_log2 fn)) (s.rd (R.HAC_EVQ_HEAD_head fn)) (s.rd (R.HAC_EVQ_TAIL_tail fn)) = false) :=
  ⟨⟨1, 1, 4095, up, by decide +kernel⟩,
   ⟨1, 1, 4, host up { up.host with rings := [(3, ⟨0, 4095, 5, true, []⟩)] }, by decide +kernel⟩,
   ⟨0, 0, open_, false, [(128, 8)], put (host win { up.host with rings := [(0, ⟨1, 0, 0, true, []⟩)] }) [(R.HAC_RING_en 0 0, 1)],
     by decide +kernel⟩,
   ⟨1, 1, ⟨1, 1, 7, 0, 0, none, true⟩, host up { up.host with cplQueue := [⟨1, 1, 7, 0, 0, none, true⟩] }, by decide +kernel⟩,
   ⟨⟨1, 5000, some (1, 7)⟩, host later { up.host with refusing := [⟨1, 5000, some (1, 7)⟩] }, by decide +kernel⟩,
   ⟨1, info, put (host up { up.host with evPend := [(1, info)] }) [(R.HAC_EVQ_CFG_en 1, 1), (R.HAC_EVQ_CFG_size_log2 1, 6)],
     by decide +kernel⟩⟩

/-- The premises of Obligations.CounterCommandsTakeEffect are met, clause by clause. -/
theorem test_counter_premises :
    (∃ (fn : Nat) (set : Nat) (index : Nat) (slot : Nat) (s : State), WriteTaken s fn R.CNT_SEL 15 true ∧ set < 5 ∧
      index < (setShape set).1 ∧ slot < (setShape set).2) ∧
    (∃ (fn : Nat) (set : Nat) (index : Nat) (slot : Nat) (s : State), WriteTaken s fn R.CNT_SEL 15 true ∧ set < 5 ∧
      index < (setShape set).1 ∧ slot < (setShape set).2) ∧
    (∃ (fn : Nat) (wrap : Bool) (s : State), WriteTaken s fn R.CNT_OP 15 true) ∧
    (∃ (fn : Nat) (wrap : Bool) (s : State), WriteTaken s fn R.CNT_OP 15 true) ∧
    (∃ (fn : Nat) (wrap : Bool) (s : State), WriteTaken s fn R.CNT_OP 15 true) :=
  ⟨⟨0, 4, (setShape 4).1 - 1, (setShape 4).2 - 1, up, by decide +kernel⟩,
   ⟨0, 0, 0, 0, up, by decide +kernel⟩,
   ⟨0, true, up, by decide +kernel⟩,
   ⟨0, false, up, by decide +kernel⟩,
   ⟨0, false, up, by decide +kernel⟩⟩

/-- The premises of Obligations.SnapshotCommandsTakeEffect are met, clause by clause. -/
theorem test_snapshot_premises :
    (∃ (c : Cmd) (mask : Nat) (turn : Nat) (dest : Nat) (arrMask : Nat) (len : Nat) (buf : Nat) (s : State),
      CommandTaken s c 0x20 (rightOf 0x20) [(dest, len)] ∧ 0 < mask ∧ mask < 32 ∧ dest % 64 = 0 ∧ padded (s.snapLen mask false []) ≤ len ∧
      s.schedCheck (.snapshot 0) c.system turn = stDone ∧
      ((s.cnt.snaps.any fun e => e.2.stage ≤ 1 && (max turn e.2.turn - min turn e.2.turn) * 2 ^ s.rd R.TBS_TURN_LEN_LOG2_t < 16000) = false) ∧ s.cnt.snaps.length < 2 ∧ buf = (if (mget s.cnt.snaps 0).isNone then 0 else 1)) ∧
    (∃ (buf : Nat) (x : Snap) (s : State), mget s.cnt.snaps buf = some x ∧ x.stage = 1 ∧ x.pmu = false ∧ x.opened + 8000 ≤ s.time.elapsed) ∧
    (∃ (buf : Nat) (x : Snap) (s : State), mget s.cnt.snaps buf = some x ∧ x.stage = 2) :=
  ⟨⟨cmd, 31, 4, 64, 0, 2 ^ 31, 0, win, by decide +kernel⟩,
   ⟨1, snap 1, snapping (snap 1), by decide +kernel⟩,
   ⟨1, { snap 2 with mask := 1 }, snapping { snap 2 with mask := 1 }, by decide +kernel⟩⟩

/-- The premises of Obligations.PmuCommandsTakeEffect are met, clause by clause. -/
theorem test_pmu_premises :
    (∃ (fn : Nat) (d : Nat) (i : Nat) (val : Nat) (s : State), d < 2 ∧ i < 16 ∧ WriteTaken s fn (R.PMx_EVSEL d i) 15 false ∧
      pmuCode d (val % 2 ^ 10) = true ∧ pmuFilter d (val / 2 ^ 10 % 2 ^ 4) (val / 2 ^ 14 % 2 ^ 6) = true) ∧
    (∃ (fn : Nat) (d : Nat) (i : Nat) (val : Nat) (lo : Nat) (s : State), d < 2 ∧ i < 16 ∧ WriteTaken s fn (R.PMx_CNT_HI d i) 15 false) ∧
    (∃ (r : List Byte) (rest : List (List Byte)) (s : State), s.cnt.recs = r :: rest ∧ s.on R.PMF_SMP_CFG_en = true ∧
      ringFull (s.rd R.PMF_SMP_CFG_size_log2) (s.rd R.PMF_SMP_HEAD_head) (s.rd R.PMF_SMP_TAIL_tail) = false) ∧
    (∃ (fn : Nat) (val : Nat) (s : State), WriteTaken s fn (R.PMx_FRZ_CTRL 0) 15 true ∧
      s.schedCheck (.pmu false none) (bitAt val 2) (s.rd64 (R.PMx_FRZ_TURN_LO_turn_lo 0) (R.PMx_FRZ_TURN_HI_turn_hi 0)) = stDone) ∧
    (∃ (fn : Nat) (val : Nat) (s : State), WriteTaken s fn (R.PMx_FRZ_CTRL 0) 15 true ∧
      s.schedCheck (.pmu true none) (bitAt val 2) (s.rd64 (R.PMx_FRZ_TURN_LO_turn_lo 0) (R.PMx_FRZ_TURN_HI_turn_hi 0)) = stDone) ∧
    (∃ (fn : Nat) (val : Nat) (x : SlotEv) (s : State), WriteTaken s fn (R.PMx_FRZ_CTRL 0) 15 true ∧ s.armedPmu = some x ∧
      s.time.turn + 3 ≤ x.turn) ∧
    (∃ (s : State), s.on (R.PMx_CTRL_frozen 0) = true ∧ s.on (R.PMx_CTRL_frozen 1) = true ∧
      ((s.fd.pkts.any fun p => !p.slots.isEmpty) = false)) ∧
    (∃ (fn : Nat) (d : Nat) (val : Nat) (s : State), d < 2 ∧ WriteTaken s fn (R.PMx_CTRL d) 15 false ∧ bitAt val 0 = true) :=
  ⟨⟨0, 1, 15, 0x128, up, by decide +kernel⟩,
   ⟨0, 1, 15, 2 ^ 31 + 5, 6, up, by decide +kernel⟩,
   ⟨[1], [], put { up with cnt := { up.cnt with recs := [[1]] } } [(R.PMF_SMP_CFG_en, 1), (R.PMF_SMP_CFG_size_log2, 6)], by decide +kernel⟩,
   ⟨0, 1, put up [(R.PMx_FRZ_TURN_LO_turn_lo 0, 4)], by decide +kernel⟩,
   ⟨0, 1, put up [(R.PMx_FRZ_TURN_LO_turn_lo 0, 4)], by decide +kernel⟩,
   ⟨0, 8, event (.pmu true none) 3, sched up (event (.pmu true none) 3), by decide +kernel⟩,
   ⟨put up [(R.PMx_CTRL_frozen 0, 1), (R.PMx_CTRL_frozen 1, 1)], by decide +kernel⟩,
   ⟨0, 1, 1, up, by decide +kernel⟩⟩

/-- The premises of Obligations.BootCommandsTakeEffect are met, clause by clause. -/
theorem test_boot_premises :
    (∃ (r : Bool) (test : Bool) (a : BitVec 2) (s : State), s.svc.porLow = true) ∧
    (∃ (rail : Nat) (s : State), 0 < rail ∧ rail < 10 ∧ s.svc.porLow = false) ∧
    (∃ (s : State), s.svc.browned = true) ∧
    (∃ (val : Nat) (s : State), bitAt val 16 = true ∧ s.svc.porLow = false) ∧
    (∃ (a : FwChecks) (b : FwChecks) (n : Bool) (s : State), s.svc.pllLocked = false ∧ s.stopped = false ∧ s.heldByPerst = false ∧
      s.svc.testMode = false ∧ (if s.rd R.GLB_SERVICE_stage = 2 then n else s.on R.GLB_STRAPS_recovery_n) = false) ∧
    (∃ (a : FwChecks) (b : FwChecks) (n : Bool) (s : State), s.svc.pllLocked = false ∧ s.stopped = false ∧ s.heldByPerst = false ∧
      s.svc.testMode = false ∧ (if s.rd R.GLB_SERVICE_stage = 2 then n else s.on R.GLB_STRAPS_recovery_n) = true ∧
      s.rd R.FWS_BOOT_STATUS_expiries = 3) ∧
    (∃ (a : FwChecks) (b : FwChecks) (n : Bool) (s : State), s.svc.pllLocked = false ∧ s.stopped = false ∧ s.heldByPerst = false ∧
      s.svc.testMode = false ∧ (if s.rd R.GLB_SERVICE_stage = 2 then n else s.on R.GLB_STRAPS_recovery_n) = true ∧
      s.rd R.FWS_BOOT_STATUS_expiries ≠ 3 ∧ s.fwFailure (s.bankImage s.bootFirst) (if s.bootFirst = 0 then a else b) = none) ∧
    (∃ (s : State), s.rd R.GLB_SERVICE_stage = 2 ∧ s.svc.pllLocked = true ∧ s.svc.fwRunning = false ∧ s.stopped = false ∧
      s.heldByPerst = false) ∧
    (∃ (which : Nat) (failed : List (Nat × Nat)) (s : State), which < 3 ∧ s.svc.fwRunning = true ∧ s.stopped = false ∧
      s.rd R.GLB_SERVICE_stage = 3) :=
  ⟨⟨true, true, 1, svc up { up.svc with porLow := true }, by decide +kernel⟩,
   ⟨9, up, by decide +kernel⟩,
   ⟨svc up { up.svc with browned := true }, by decide +kernel⟩,
   ⟨2 ^ 16, up, by decide +kernel⟩,
   ⟨checks, checks, false, booting 0 0, by decide +kernel⟩,
   ⟨checks, checks, true, booting 1 3, by decide +kernel⟩,
   ⟨checks, checks, true, booting 1 0, by decide +kernel⟩,
   ⟨put (svc up { State.reset.svc with pllLocked := true }) [(R.GLB_SERVICE_stage, 2)], by decide +kernel⟩,
   ⟨2, [], put (svc up { up.svc with coreRun := false }) [(R.GLB_SERVICE_stage, 3)], by decide +kernel⟩⟩

/-- The premises of Obligations.ResetCommandsTakeEffect are met, clause by clause. -/
theorem test_reset_premises :
    (∃ (fn : Nat) (val : Nat) (s : State), RegsCanonical s ∧ s.stopped = false ∧ s.rd R.GLB_SERVICE_stage ≠ 1 ∧
      WriteTaken s fn R.GLB_RESET_CTRL 15 true ∧ bitAt val 0 = true ∧ val / 65536 % 65536 = resetKey) ∧
    (∃ (val : Nat) (s : State), RegsCanonical s ∧ s.stopped = false ∧ s.rd R.GLB_SERVICE_stage ≠ 1 ∧ bitAt val 0 = true ∧
      val / 65536 % 65536 = resetKey) ∧
    (∃ (s : State), RegsCanonical s ∧ s.stopped = false ∧ s.rd R.GLB_SERVICE_stage ≠ 1 ∧ s.svc.wdRunning = true ∧
      s.svc.wdStart + 5000000000 ≤ s.time.elapsed) ∧
    (∃ (s : State), RegsCanonical s ∧ s.stopped = false ∧ s.rd R.GLB_SERVICE_stage ≠ 1 ∧ s.on R.GLB_RESET_CFG_perst_full = true) ∧
    (∃ (fn : Nat) (val : Nat) (s : State), RegsCanonical s ∧ s.stopped = false ∧ s.rd R.GLB_SERVICE_stage ≠ 1 ∧
      WriteTaken s fn R.FWS_REC_CTRL 15 true ∧ s.svc.recovery = true ∧ bitAt val 2 = true) ∧
    (∃ (bytes : List Byte) (s : State), s.mgmtFrame bytes 4 = true ∧ s.stopped = false ∧ s.rd R.GLB_SERVICE_stage ≠ 1) ∧
    (∃ (s : State), s.stopped = false ∧ s.on R.GLB_RESET_CFG_perst_full = false) ∧
    (∃ (s : State), s.svc.perst = true) :=
  ⟨⟨0, 1 + 65536 * resetKey, up, (show canonical regReset _ = true by decide +kernel), by decide +kernel, by decide +kernel,
    by decide +kernel, by decide +kernel, by decide +kernel⟩,
   ⟨1 + 65536 * resetKey, up, (show canonical regReset _ = true by decide +kernel), by decide +kernel, by decide +kernel,
     by decide +kernel, by decide +kernel⟩,
   ⟨svc later { up.svc with wdRunning := true }, (show canonical regReset _ = true by decide +kernel), by decide +kernel,
     by decide +kernel, by decide +kernel, by decide +kernel⟩,
   ⟨put up [(R.GLB_RESET_CFG_perst_full, 1)], (show canonical regReset _ = true by decide +kernel), by decide +kernel, by decide +kernel,
     by decide +kernel⟩,
   ⟨0, 4, rec, (show canonical regReset _ = true by decide +kernel), by decide +kernel, by decide +kernel, by decide +kernel,
     by decide +kernel, by decide +kernel⟩,
   ⟨frame 4 [], rec, frame_ok (by decide +kernel) (by decide +kernel), by decide +kernel, by decide +kernel⟩,
   ⟨up, by decide +kernel⟩,
   ⟨svc up { up.svc with perst := true }, by decide +kernel⟩⟩

/-- The premises of Obligations.PartResetCommandsTakeEffect are met, clause by clause. -/
theorem test_part_reset_premises :
    (∃ (fn : Nat) (val : Nat) (s : State), s.stopped = false ∧ s.svc.fwRunning = true ∧ ((∀ x ∈ s.sched, ∀ u, x.ev = .dice u →
      0x3400000 ≤ u)) ∧ WriteTaken s fn R.GLB_RESET_CTRL 15 true ∧ bitAt val 1 = true ∧ val / 65536 % 65536 = resetKey) ∧
    (∃ (val : Nat) (s : State), s.stopped = false ∧ s.svc.fwRunning = true ∧ ((∀ x ∈ s.sched, ∀ u, x.ev = .dice u → 0x3400000 ≤ u)) ∧
      bitAt val 1 = true ∧ val / 65536 % 65536 = resetKey) ∧
    (∃ (s : State), s.stopped = false ∧ s.svc.fwRunning = true ∧ ((∀ x ∈ s.sched, ∀ u, x.ev = .dice u → 0x3400000 ≤ u)) ∧
      s.tdDown = false ∧ s.on R.GLB_RESET_CFG_td_wd_en = true ∧ s.svc.heartbeat + 100000000 ≤ s.time.elapsed) ∧
    (∃ (s : State), s.svc.fwRunning = true ∧ s.tdDown = false) ∧
    (∃ (s : State), s.on R.GLB_SERVICE_td_down = true ∧ s.stopped = false ∧ s.on R.MIF_STATUS_td_fill_done = true ∧
      s.on R.MIF_STATUS_hbm_fill_done = true) ∧
    (∃ (fn : Nat) (b : Nat) (s : State), b ∈ resettable ∧ WriteTaken s fn R.GLB_BLKRST 15 true ∧ s.mayReset b = true) :=
  ⟨⟨0, 2 + 65536 * resetKey, up, by decide +kernel, by decide +kernel, fun x hx => (List.not_mem_nil hx).elim, by decide +kernel,
    by decide +kernel, by decide +kernel⟩,
   ⟨2 + 65536 * resetKey, up, by decide +kernel, by decide +kernel, fun x hx => (List.not_mem_nil hx).elim, by decide +kernel,
     by decide +kernel⟩,
   ⟨put later [(R.GLB_RESET_CFG_td_wd_en, 1)], by decide +kernel, by decide +kernel, fun x hx => (List.not_mem_nil hx).elim,
     by decide +kernel, by decide +kernel, by decide +kernel⟩,
   ⟨up, by decide +kernel⟩,
   ⟨put up [(R.GLB_SERVICE_td_down, 1), (R.MIF_STATUS_td_fill_done, 1), (R.MIF_STATUS_hbm_fill_done, 1)], by decide +kernel⟩,
   ⟨0, 26, up, by decide +kernel⟩⟩

/-- The premises of Obligations.FirmwareStagingCommandsTakeEffect are met, clause by clause. -/
theorem test_firmware_staging_premises :
    (∃ (m : List Byte) (s : State) (c : Cmd) (addr : Nat), crumbOk m = true ∧ s.flash.job = none ∧ s.fwChanging = false ∧
      ((s.flash.binding = none ∨ s.flash.binding = some (crumbId m, crumbCount m))) ∧ mget s.flash.crumbs (crumbIndex m) = none ∧
      addr % 64 = 0 ∧ CommandTaken s c 0x38 (rightOf 0x38 ++ []) [(addr, 64 + 4096)]) ∧
    (∃ (m : List Byte) (s : State), crumbOk m = true ∧ s.flash.job = none ∧ s.fwChanging = false ∧
      ((s.flash.binding = none ∨ s.flash.binding = some (crumbId m, crumbCount m))) ∧ mget s.flash.crumbs (crumbIndex m) = none ∧
      s.on R.FWS_INB_CFG_en = true ∧ s.svc.fwRunning = true ∧ s.svc.handover = false ∧
      (if s.flash.rate.1 = s.time.elapsed / 1000000000 then s.flash.rate.2 else 0) < 20000) ∧
    (∃ (m : List Byte) (s : State) (bytes : List Byte), crumbOk m = true ∧ s.flash.job = none ∧ s.fwChanging = false ∧
      ((s.flash.binding = none ∨ s.flash.binding = some (crumbId m, crumbCount m))) ∧ mget s.flash.crumbs (crumbIndex m) = none ∧
      s.mgmtFrame bytes 1 = true ∧ bytes.drop 18 = m) ∧
    (∃ (m : List Byte) (s : State) (fn : Nat) (val : Nat) (w : List Byte), crumbOk m = true ∧ s.flash.job = none ∧ s.fwChanging = false ∧
      ((s.flash.binding = none ∨ s.flash.binding = some (crumbId m, crumbCount m))) ∧ mget s.flash.crumbs (crumbIndex m) = none ∧
      WriteTaken s fn R.FWS_REC_CTRL 15 true ∧ s.svc.recovery = true ∧ bitAt val 0 = true ∧ s.rd R.FWS_REC_COUNT_crumbs = 1 ∧
      w.length ≤ 2 ^ 26 ∧ (s.fillWindow 0 w).windowCrumb 0 = m) ∧
    (∃ (c : Cmd) (addr : Nat) (m : List Byte) (s : State), addr % 64 = 0 ∧ s.flash.job = none ∧ s.fwChanging = false ∧
      CommandTaken s c 0x38 (rightOf 0x38 ++ rightOf 0x3A) [(addr, 64 + 4096)] ∧ crumbOk m = true) ∧
    (∃ (c : Cmd) (addr : Nat) (m : List Byte) (s : State), addr % 64 = 0 ∧ s.flash.job = none ∧ s.fwChanging = false ∧
      CommandTaken s c 0x38 (rightOf 0x38 ++ rightOf 0x3A) [(addr, 64 + 4096)] ∧ crumbOk m = false) ∧
    (∃ (c : Cmd) (dest : Nat) (s : State), CommandTaken s c 0x39 (rightOf 0x39) [(dest, 3840)] ∧ s.fwChanging = false) ∧
    (∃ (c : Cmd) (s : State), CommandTaken s c 0x39 (rightOf 0x39) [] ∧ s.fwChanging = false ∧ s.flash.job = none ∧ s.stgComplete = true) ∧
    (∃ (c : Cmd) (s : State), CommandTaken s c 0x39 (rightOf 0x39) [] ∧ s.fwChanging = false ∧ s.flash.job = none ∧ s.stgComplete = false) ∧
    (∃ (c : Cmd) (due : Nat) (b : Nat) (x : FwChecks) (s : State), s.flash.job = some ⟨.cmd c, 0, due, b⟩ ∧ s.fwFailure s.staged x = none ∧
      s.libsFit s.staged = true) ∧
    (∃ (c : Cmd) (due : Nat) (b : Nat) (x : FwChecks) (s : State) (why : Nat), s.flash.job = some ⟨.cmd c, 0, due, b⟩ ∧
      s.fwFailure s.staged x = some (.auth why)) ∧
    (∃ (c : Cmd) (due : Nat) (b : Nat) (x : FwChecks) (s : State), s.flash.job = some ⟨.cmd c, 0, due, b⟩ ∧
      s.fwFailure s.staged x = some .unfit) ∧
    (∃ (c : Cmd) (due : Nat) (b : Nat) (s : State), s.flash.job = some ⟨.cmd c, 1, due, b⟩ ∧ due ≤ s.time.elapsed) ∧
    (∃ (c : Cmd) (due : Nat) (b : Nat) (s : State), s.flash.job = some ⟨.cmd c, 2, due, b⟩) :=
  ⟨⟨crumb, win, cmd, 64, by decide +kernel⟩,
   ⟨crumb, put later [(R.FWS_INB_CFG_en, 1)], by decide +kernel⟩,
   ⟨crumb, rec, frame 1 crumb, by decide +kernel, by decide +kernel, by decide +kernel, by decide +kernel, by decide +kernel,
     frame_ok (by decide +kernel) (by decide +kernel), frame_payload 1 crumb⟩,
   ⟨crumb, put recWin [(R.FWS_REC_COUNT_crumbs, 1)], 0, 1, crumb.take 20, by decide +kernel⟩,
   ⟨cmd, 64, crumb, win, by decide +kernel⟩,
   ⟨cmd, 64, [], win, by decide +kernel⟩,
   ⟨cmd, 64, win, by decide +kernel⟩,
   ⟨cmd, whole win, by decide +kernel⟩,
   ⟨cmd, win, by decide +kernel⟩,
   ⟨cmd, 0, 1, checks, checking (.cmd cmd) 0, by decide +kernel⟩,
   ⟨cmd, 0, 1, checks, checkingOf broken (.cmd cmd) 0, secDigest, by decide +kernel⟩,
   ⟨cmd, 0, 1, checks, checkingOf foreign (.cmd cmd) 0, by decide +kernel⟩,
   ⟨cmd, 0, 1, checking (.cmd cmd) 1, by decide +kernel⟩,
   ⟨cmd, 0, 1, checking (.cmd cmd) 2, by decide +kernel⟩⟩

/-- The premises of Obligations.FirmwareActivationCommandsTakeEffect are met, clause by clause. -/
theorem test_firmware_activation_premises :
    (∃ (c : Cmd) (turn : Nat) (u : Bool) (s : State), CommandTaken s c 0x3A (rightOf 0x3A) [] ∧ s.bankState s.standby = bkStaged ∧
      (((List.range 3).any fun k => s.on (R.FWS_RCP_STORE_w0_writing k)) = false) ∧ s.recipe.loads = [] ∧
      s.rd R.FWS_FW_SECVER_arb_count ≤ fwSecVer (s.bankImage s.standby) ∧ s.peerAgainst (s.bankImage s.standby) = none ∧
      s.slotsAccept (fwInterop (s.bankImage s.standby)) = true ∧ u = changesUcode (s.bankImage s.standby) (s.bankImage s.activeBank) ∧
      s.schedCheck (.firmware s.standby u false) c.system turn = stDone ∧ ((u = true →
      s.time.sysNs + 25000000 ≤ turn * 2 ^ s.rd R.TBS_TURN_LEN_LOG2_t))) ∧
    (∃ (c : Cmd) (turn : Nat) (u : Bool) (s : State), CommandTaken s c 0x3B (rightOf 0x3B) [] ∧ s.bankState s.standby = bkPrevious ∧
      (((List.range 3).any fun k => s.on (R.FWS_RCP_STORE_w0_writing k)) = false) ∧ s.recipe.loads = [] ∧
      s.rd R.FWS_FW_SECVER_arb_count ≤ fwSecVer (s.bankImage s.standby) ∧ s.peerAgainst (s.bankImage s.standby) = none ∧
      s.slotsAccept (fwInterop (s.bankImage s.standby)) = true ∧ u = changesUcode (s.bankImage s.standby) (s.bankImage s.activeBank) ∧
      s.schedCheck (.firmware s.standby u true) c.system turn = stDone ∧ ((u = true →
      s.time.sysNs + 25000000 ≤ turn * 2 ^ s.rd R.TBS_TURN_LEN_LOG2_t))) ∧
    (∃ (c : Cmd) (x : SlotEv) (s : State), CommandTaken s c 0x3A (rightOf 0x3A) [] ∧
      (s.schedFind (fun e => match e with | .firmware _ _ r => r == false | _ => false) = some x) ∧ s.time.turn + 3 ≤ x.turn) ∧
    (∃ (c : Cmd) (x : SlotEv) (s : State), CommandTaken s c 0x3B (rightOf 0x3B) [] ∧
      (s.schedFind (fun e => match e with | .firmware _ _ r => r == true | _ => false) = some x) ∧ s.time.turn + 3 ≤ x.turn) ∧
    (∃ (s : State), ((s.sched.any fun x => match x.ev with | .firmware _ u _ => u | _ => false) = true)) ∧
    (∃ (h : FwHand) (s : State), s.flash.hand = some h ∧ s.svc.dpPaused = true) ∧
    (∃ (h : FwHand) (s : State), s.flash.hand = some h ∧ h.bank ≠ s.activeBank) :=
  ⟨⟨cmd, 1526, true, banks bkStaged [], by decide +kernel⟩,
   ⟨cmd, 4, false, banks bkPrevious fw, by decide +kernel⟩,
   ⟨cmd, firm true false 3, sched (banks bkStaged fw) (firm true false 3), by decide +kernel⟩,
   ⟨cmd, firm false true 3, sched (banks bkPrevious fw) (firm false true 3), by decide +kernel⟩,
   ⟨sched (banks bkStaged fw) (firm true false 3), by decide +kernel⟩,
   ⟨⟨some cmd, 1, false, 0⟩, flash (svc up { up.svc with dpPaused := true }) { up.flash with hand := some ⟨some cmd, 1, false, 0⟩ },
     by decide +kernel⟩,
   ⟨⟨some cmd, 1, false, 0⟩,
     flash (svc up { up.svc with handover := true }) { up.flash with hand := some ⟨some cmd, 1, false, 0⟩, banks := [(1, fw)] },
     by decide +kernel⟩⟩

/-- The premises of Obligations.RecoveryCommandsTakeEffect are met, clause by clause. -/
theorem test_recovery_premises :
    (∃ (fn : Nat) (val : Nat) (s : State), WriteTaken s fn R.FWS_ARB_RAISE 15 true ∧ val / 65536 % 65536 = 0x3C96 ∧
      s.rd R.FWS_FW_SECVER_arb_count ≤ val % 128 ∧ val % 128 ≤ s.fw.secVer ∧ s.flash.fuse = none) ∧
    (∃ (fn : Nat) (val : Nat) (hash : List Byte) (s : State), WriteTaken s fn R.FWS_KEY_CTRL 15 true ∧ val / 65536 % 65536 = 0x96E1 ∧
      s.flash.fuse = none ∧ bitAt val 2 = true ∧ bitAt (s.rd R.FWS_KEY_STATUS_programmed) (val % 4) = false ∧
      s.inWindow fn (s.rd64 R.FWS_KEY_BUF_LO_addr_lo R.FWS_KEY_BUF_HI_addr_hi) 48 = true) ∧
    (∃ (fn : Nat) (val : Nat) (hash : List Byte) (s : State), WriteTaken s fn R.FWS_KEY_CTRL 15 true ∧ val / 65536 % 65536 = 0x96E1 ∧
      s.flash.fuse = none ∧ bitAt val 3 = true) ∧
    (∃ (f : FuseOp) (s : State), s.flash.fuse = some f) ∧
    (∃ (x : FwChecks) (b : Nat) (s : State) (fn : Nat) (val : Nat), s.flash.job = none ∧ s.stgComplete = true ∧
      s.fwFailure s.staged x = none ∧ (b = (([0,
      1] : List Nat).find? fun b => s.bankState b == bkEmpty || s.bankState b == bkInvalid).getD (1 - s.flash.boot)) ∧
      WriteTaken s fn R.FWS_REC_CTRL 15 true ∧ s.svc.recovery = true ∧ bitAt val 1 = true) ∧
    (∃ (x : FwChecks) (b : Nat) (s : State) (bytes : List Byte), s.flash.job = none ∧ s.stgComplete = true ∧
      s.fwFailure s.staged x = none ∧ (b = (([0,
      1] : List Nat).find? fun b => s.bankState b == bkEmpty || s.bankState b == bkInvalid).getD (1 - s.flash.boot)) ∧
      s.mgmtFrame bytes 3 = true) ∧
    (∃ (j : FwJob) (s : State), s.flash.job = some j ∧ ((∀ c, j.ask ≠ .cmd c)) ∧ j.stage = 2) ∧
    (∃ (j : FwJob) (s : State), s.flash.job = some j ∧ ((∀ c, j.ask ≠ .cmd c)) ∧ j.stage = 1 ∧ j.due ≤ s.time.elapsed) ∧
    (∃ (bytes : List Byte) (s : State), s.mgmtFrame bytes 2 = true) ∧
    (∃ (fn : Nat) (val : Nat) (record : List Byte) (s : State), WriteTaken s fn R.FWS_BCFG_CTRL 15 true ∧ bitAt val 0 = true ∧
      s.on R.FWS_BCFG_CTRL_busy = false ∧ s.rd64 R.FWS_BCFG_ADDR_LO_addr_lo R.FWS_BCFG_ADDR_HI_addr_hi % 64 = 0 ∧
      s.inWindow fn (s.rd64 R.FWS_BCFG_ADDR_LO_addr_lo R.FWS_BCFG_ADDR_HI_addr_hi) 4096 = true) ∧
    (∃ (r : List Byte) (s : State), s.svc.bcfgJob = some r ∧ bootCfgOk r = true) ∧
    (∃ (r : List Byte) (s : State), s.svc.bcfgJob = some r ∧ bootCfgOk r = false) :=
  ⟨⟨0, 0x3C960000 + 64, { up with fw := { up.fw with secVer := 64 } }, by decide +kernel⟩,
   ⟨0, 0x96E10000 + 4 + 3, List.replicate 48 1, win, by decide +kernel⟩,
   ⟨0, 0x96E10000 + 8 + 3, [], up, by decide +kernel⟩,
   ⟨⟨0, 64, [], 0⟩, flash up { up.flash with fuse := some ⟨0, 64, [], 0⟩ }, by decide +kernel⟩,
   ⟨checks, 0, whole recWin, 0, 2, by decide +kernel⟩,
   ⟨checks, 0, whole rec, frame 3 [], by decide +kernel, by decide +kernel, by decide +kernel, by decide +kernel,
     frame_ok (by decide +kernel) (by decide +kernel)⟩,
   ⟨⟨.window, 2, 0, 1⟩, checking .window 2, by decide +kernel, nofun, by decide +kernel⟩,
   ⟨⟨.mgmt 5, 1, 0, 1⟩, checking (.mgmt 5) 1, by decide +kernel, nofun, by decide +kernel, by decide +kernel⟩,
   ⟨frame 2 [], rec, frame_ok (by decide +kernel) (by decide +kernel)⟩,
   ⟨0, 1, record, win, by decide +kernel⟩,
   ⟨record, bcfg record, rfl, record_ok⟩,
   ⟨[], bcfg [], by decide +kernel⟩⟩

/-- The premises of Obligations.PinCommandsTakeEffect are met, clause by clause. -/
theorem test_pin_premises :
    (∃ (temps : List Int) (rails : List Nat) (s : State), s.stopped = false ∧ temps.length = 26 ∧ rails.length = 10) ∧
    (∃ (temps : List Int) (s : State), s.svc.porLow = false ∧ temps.length = 26 ∧
      (((List.range 26).any fun x => 16 * (if hbmSensor x then (105 : Int) else 115) ≤ s.tripTemp x (temps.getD x 0)) = true)) ∧
    (∃ (s : State), s.on R.GLB_LED_CFG_en = true ∧ s.svc.fwRunning = true) ∧
    (∃ (fn : Nat) (k : Nat) (val : Nat) (s : State), k < 1166 ∧ WriteTaken s fn (R.FWS_CAL_USER k) 15 false) :=
  ⟨⟨List.replicate 26 1840, List.replicate 10 0, up, by decide +kernel⟩,
   ⟨List.replicate 26 1840, up, by decide +kernel⟩,
   ⟨put up [(R.GLB_LED_CFG_en, 1)], by decide +kernel⟩,
   ⟨0, 1165, 7, up, by decide +kernel⟩⟩

end Sys2Proof.Tests
end

section
/-! SUPPORT. Host accesses (chapter 15): what an entry of the late-error log leaves in the registers (R441), what a host access does that
fails one of its checks (R62, R429, R437, R457), and that bytes which hold no register are shown as zero and take no write (R437). Then the
statements about posted writes (R440) and about bytes outside registers (R437). -/

namespace Sys2Proof.Machine

/-! ### What the two logs leave in the registers -/

theorem rd_raiseVec {s : State} {fn v : Nat} {f : Fld} : (s.raiseVec fn v).rd f = s.rd f := by
  unfold State.rd; rw [rdWord_raiseVec]

/-- The entries of the security log and its control register are all that an entry changes (R541). -/
theorem rdWord_secLog {s : State} {why fn x op a : Nat} {d : Option Nat}
    (h : ¬ (R.FWS_SLOG_CTRL ≤ a ∧ a < R.FWS_SLOG_w0 256)) : (s.secLog why fn x op d).rdWord a = s.rdWord a := by
  have hi : s.rd R.FWS_SLOG_CTRL_next < 256 := rd_lt
  have h0 : R.FWS_SLOG_w0 (s.rd R.FWS_SLOG_CTRL_next) ≠ a := by unfold R.FWS_SLOG_w0 R.FWS_SLOG_CTRL at *; omega
  have h1 : R.FWS_SLOG_w1 (s.rd R.FWS_SLOG_CTRL_next) ≠ a := by unfold R.FWS_SLOG_w0 R.FWS_SLOG_CTRL R.FWS_SLOG_w1 at *; omega
  have h2 : R.FWS_SLOG_LO (s.rd R.FWS_SLOG_CTRL_next) ≠ a := by unfold R.FWS_SLOG_w0 R.FWS_SLOG_CTRL R.FWS_SLOG_LO at *; omega
  have h3 : R.FWS_SLOG_HI (s.rd R.FWS_SLOG_CTRL_next) ≠ a := by unfold R.FWS_SLOG_w0 R.FWS_SLOG_CTRL R.FWS_SLOG_HI at *; omega
  have hc : R.FWS_SLOG_CTRL ≠ a := fun e => h (by rw [← e]; decide)
  unfold State.secLog
  extract_lets i old s1 s2 s3 s4 s5 s6 s7 s8 s9
  have e3 : s3.rdWord a = s.rdWord a := by
    rw [rdWord_wr_ne h0, rdWord_wr_ne h0, rdWord_wrWord_ne h0]
  have e4 : s4.rdWord a = s3.rdWord a := by
    unfold s4
    cases d with
    | none => rfl
    | some d => exact (rdWord_wr_ne h0).trans (rdWord_wr_ne h0)
  have e8 : s8.rdWord a = s4.rdWord a := by
    rw [rdWord_wr64_ne h2 h3, rdWord_wr_ne h1, rdWord_wr_ne h0, rdWord_wr_ne h0]
  have e9 : s9.rdWord a = s8.rdWord a := by
    unfold s9
    split
    · exact rdWord_wr_ne hc
    · rfl
  rw [rdWord_wr_ne hc, e9, e8, e4, e3]

theorem rd_secLog {s : State} {why fn x op : Nat} {d : Option Nat} {f : Fld}
    (h : ¬ (R.FWS_SLOG_CTRL ≤ f.addr ∧ f.addr < R.FWS_SLOG_w0 256)) : (s.secLog why fn x op d).rd f = s.rd f := by
  unfold State.rd; rw [rdWord_secLog h]

/-- The log's next entry moves on by one of its 64 (R441). -/
theorem rd_lateErr_next {s : State} {fn bar a why : Nat} {isRead : Bool} :
    (s.lateErr fn bar a why isRead).rd R.HAC_LEL_CTRL_next = (s.rd R.HAC_LEL_CTRL_next + 1) % 64 := by
  unfold State.lateErr State.lateErrAs
  dsimp only
  rw [rd_raiseVec, rd_wr (by decide)]
  exact Nat.mod_mod _ 64

/-- The reason of an entry of an access to this device stands in the low byte of its third word (R441, R464). -/
theorem rd_lateErr_reason {s : State} {fn bar a why : Nat} {isRead : Bool} :
    (s.lateErr fn bar a why isRead).rd ⟨R.HAC_LEL (s.rd R.HAC_LEL_CTRL_next) 2, 0, 8⟩ = why % 256 := by
  have hw : ∀ k, 2 < k → R.HAC_LEL (s.rd R.HAC_LEL_CTRL_next) k ≠ R.HAC_LEL (s.rd R.HAC_LEL_CTRL_next) 2 := fun k hk => by
    unfold R.HAC_LEL; omega
  have hc : R.HAC_LEL_CTRL ≠ R.HAC_LEL (s.rd R.HAC_LEL_CTRL_next) 2 := by unfold R.HAC_LEL_CTRL R.HAC_LEL; omega
  have hlow : ∀ m n : Nat, wordGet (BitVec.ofNat 32 (why % 256 + 2 ^ 8 * m + 0 + 2 ^ 19 * n)) 0 8 = why % 256 := fun m n => by
    simp only [wordGet, BitVec.ushiftRight_zero, BitVec.toNat_ofNat]; omega
  unfold State.lateErr State.lateErrAs
  extract_lets i old dev s1 s2 s3 s4 s5 s6 s7
  have e3 : wordGet (s3.rdWord (R.HAC_LEL i 2)) 0 8 = why % 256 := by
    unfold s3
    rw [rdWord_wrWord, if_pos rfl]
    exact hlow _ _
  have e7 : s7.rdWord (R.HAC_LEL i 2) = s3.rdWord (R.HAC_LEL i 2) := by
    have e6 : s6.rdWord (R.HAC_LEL i 2) = s3.rdWord (R.HAC_LEL i 2) := by
      rw [rdWord_wrWord_ne (hw 5 (by decide)), rdWord_wrWord_ne (hw 4 (by decide)), rdWord_wrWord_ne (hw 3 (by decide))]
    unfold s7
    split
    · rw [rdWord_wr_ne hc, e6]
    · exact e6
  rw [rd_raiseVec]
  unfold State.rd
  rw [rdWord_wr_ne hc]
  exact (congrArg (wordGet · 0 8) e7).trans e3

/-- An entry sends nothing but what its vector sends, behind what was sent before. -/
theorem lateErr_adds {s : State} {fn bar a why : Nat} {isRead : Bool} : s.out <+: (s.lateErr fn bar a why isRead).out :=
  (State.lateErr_kept trivial trivial trivial (Kept.refl Mask.onlyRegsOutHost s)).adds

/-- An access is logged where the log of the state before it was to go on, whatever else of the state has changed since. -/
theorem lateErr_logs {s t : State} {fn bar a why : Nat} {isRead : Bool} (h : t.rd R.HAC_LEL_CTRL_next = s.rd R.HAC_LEL_CTRL_next)
    (hw : why < 256) :
    (t.lateErr fn bar a why isRead).rd R.HAC_LEL_CTRL_next = (s.rd R.HAC_LEL_CTRL_next + 1) % 64 ∧
      (t.lateErr fn bar a why isRead).rd ⟨R.HAC_LEL (s.rd R.HAC_LEL_CTRL_next) 2, 0, 8⟩ = why := by
  rw [← h]
  exact ⟨rd_lateErr_next, rd_lateErr_reason.trans (Nat.mod_eq_of_lt hw)⟩

/-! ### Host accesses that fail a check -/

section
variable {s : State} {fn a be why : Nat} {b : Blk} {tr : Bool} {k : State → State}

/-- A write to bytes of no block is numbered and ignored (R437). -/
theorem hostWrite_noBlock (ha : s.answers fn = true) (hb : blockOf a = none) : s.hostWrite fn a be tr k = s.acceptWrite fn := by
  unfold State.hostWrite State.checkedWrite
  rw [if_pos ha, hb]

/-- A write of PF1 without the right is dropped and logged in both logs (R457). -/
theorem hostWrite_denied (ha : s.answers 1 = true) (hb : blockOf a = some b) (hp : s.pf1Denied a true = some why) :
    s.hostWrite 1 a be tr k = ((s.acceptWrite 1).secLog why 1 a 0 none).lateErr 1 0 a leRefused false := by
  unfold State.hostWrite State.checkedWrite
  simp only [ha, hb, pf1Denied_acceptWrite, hp, if_true]

/-- A write to a block whose clock stands is dropped and logged (R62). -/
theorem hostWrite_gated (ha : s.answers fn = true) (hb : blockOf a = some b) (hp : fn = 1 → s.pf1Denied a true = none)
    (hd : (decide (16 ≤ accessBit a b.bit) && s.tdDown) = false) (hc : s.clockRuns (accessBit a b.bit) = false) :
    s.hostWrite fn a be tr k = (s.acceptWrite fn).lateErr fn 0 a leGated false := by
  have hp : (if fn = 1 then s.pf1Denied a true else none) = none := ite_eq_right_iff.mpr hp
  unfold State.hostWrite State.checkedWrite
  simp only [ha, hb, pf1Denied_acceptWrite, tdDown_acceptWrite, clockRuns_acceptWrite, hp, hd, hc]
  rfl

/-- Bytes of no block read as zero (R437). -/
theorem hostRead_noBlock (ha : s.answers fn = true) (hb : blockOf a = none) : s.hostRead fn a k = s.emit (.read fn 0) := by
  unfold State.hostRead
  rw [if_pos ha, hb]

/-- A read of PF1 without the right is logged in the security log, and answered 5 us later (R457). -/
theorem hostRead_denied (ha : s.answers 1 = true) (hb : blockOf a = some b) (hp : s.pf1Denied a false = some why) :
    s.hostRead 1 a k =
      { s.secLog why 1 a 0 none with host := { s.host with refusing := s.host.refusing ++ [⟨1, s.time.elapsed + 5000, none⟩] } } := by
  unfold State.hostRead
  simp only [ha, hb, hp, if_true, secLog_host, secLog_time]

/-- A read of a block whose clock stands is aborted and logged (R62). -/
theorem hostRead_gated (ha : s.answers fn = true) (hb : blockOf a = some b) (hp : fn = 1 → s.pf1Denied a false = none)
    (hd : (decide (16 ≤ accessBit a b.bit) && s.tdDown) = false) (hc : s.clockRuns (accessBit a b.bit) = false) :
    s.hostRead fn a k = (s.lateErr fn 0 a leGated true).emit (.abort fn) := by
  have hp : (if fn = 1 then s.pf1Denied a false else none) = none := ite_eq_right_iff.mpr hp
  unfold State.hostRead
  simp only [ha, hb, hp, hd, hc]
  rfl

end

/-! ### The plain accesses to BAR0 -/

/-- What a read of BAR0 does that passes its checks: the value is answered, with the register's side effects on a full read (R432). -/
def State.answerRead (s : State) (fn addr be : Nat) : State :=
  let a := s.banked fn addr
  let t := if be = 15 then s.readIn a else s
  (if be = 15 then t.readOut a else t).emit (.read fn (enabled (t.liveRead fn a) be))

theorem exec_registerRead {s : State} {fn addr be : Nat} :
    exec (.registerReadClear fn 0 addr be) s = ok (s.hostRead fn addr fun t => t.answerRead fn addr be) := rfl

theorem exec_registerWrite {s : State} {fn addr be val : Nat} :
    exec (.registerWrite fn 0 addr be val none) s =
      ok (s.hostWrite fn addr be (triggerAt (s.banked fn addr)) fun t => t.plainWrite fn addr be val) := rfl

/-! ### Bytes that hold no register -/

theorem triggerAt_noReg {a : Nat} (h : regAt a = none) : triggerAt a = false := by
  unfold triggerAt; rw [h]

theorem plainWrite_noReg {s : State} {fn addr be val : Nat} (h : regAt (s.banked fn addr) = none) :
    s.plainWrite fn addr be val = s := by
  unfold State.plainWrite; simp only [h]

theorem readable_noReg {s : State} {a : Nat} (h : regAt a = none) : s.readable a = 0 := by
  unfold State.readable; rw [h]

theorem readClear_noReg {s : State} {a : Nat} (h : regAt a = none) : s.readClear a = s := by
  unfold State.readClear; rw [h]

/-- Every block lies below 2^28 (R430), so that no BAR0 address is taken for a register kept for function 1. -/
theorem lt_of_blockOf {a : Nat} {b : Blk} (h : blockOf a = some b) : a < 0x10000000 := by
  have hm : b.stop ≤ 0xAC00000 := (by decide : ∀ b ∈ blockMap, b.stop ≤ 0xAC00000) b (List.mem_of_find?_eq_some h)
  have hb : (decide (b.base ≤ a) && decide (a < b.stop)) = true := List.find?_some (p := fun b : Blk => b.base ≤ a && a < b.stop) h
  simp only [Bool.and_eq_true, decide_eq_true_eq] at hb
  omega

theorem ne_of_noReg {a r : Nat} (h : regAt a = none) (hr : (regAt r).isSome = true) : a ≠ r := by
  rintro rfl; rw [h] at hr; exact Bool.noConfusion hr

theorem banked_mod {s : State} {fn addr : Nat} (h : addr < 0x10000000) : s.banked fn addr % 0x10000000 = addr := by
  unfold State.banked; split <;> omega

/-- The registers kept per function stand for both functions alike (R464). -/
theorem regAt_perFunction :
    (∀ i < 2, (regAt (0x200000 + 4 * i + 0x10000000)).isSome = (regAt (0x200000 + 4 * i)).isSome) ∧
    (∀ i < 32, (regAt (0x200400 + 4 * i + 0x10000000)).isSome = (regAt (0x200400 + 4 * i)).isSome) ∧
    (∀ i < 6, (regAt (0x200600 + 4 * i + 0x10000000)).isSome = (regAt (0x200600 + 4 * i)).isSome) := by decide +kernel

/-- Where a function sees no register, none stands at the address itself. -/
theorem regAt_of_banked {s : State} {fn addr : Nat} (ha : addr % 4 = 0) (h : regAt (s.banked fn addr) = none) : regAt addr = none := by
  unfold State.banked at h
  split at h
  · rename_i hc
    simp only [Bool.and_eq_true, Bool.or_eq_true, decide_eq_true_eq] at hc
    have same : (regAt (addr + 0x10000000)).isSome = (regAt addr).isSome := by
      obtain ⟨h2, h32, h6⟩ := regAt_perFunction
      obtain ⟨-, (⟨hl, hu⟩ | ⟨hl, hu⟩) | ⟨hl, hu⟩⟩ := hc
      · obtain ⟨i, rfl⟩ : ∃ i, addr = 0x200000 + 4 * i := ⟨(addr - 0x200000) / 4, by omega⟩
        exact h2 i (by omega)
      · obtain ⟨i, rfl⟩ : ∃ i, addr = 0x200400 + 4 * i := ⟨(addr - 0x200400) / 4, by omega⟩
        exact h32 i (by omega)
      · obtain ⟨i, rfl⟩ : ∃ i, addr = 0x200600 + 4 * i := ⟨(addr - 0x200600) / 4, by omega⟩
        exact h6 i (by omega)
    rw [h] at same
    exact Option.not_isSome_iff_eq_none.mp fun e => Bool.noConfusion (same.trans e)
  · exact h

/-- Bytes without a register are none of a family of registers. -/
theorem noReg_outside {a base stride n : Nat} (h : regAt a = none) (hr : ∀ i < n, (regAt (base + stride * i)).isSome = true) :
    (decide (base ≤ a) && decide (a < base + stride * n) && (a - base) % stride == 0) = false := by
  refine Bool.eq_false_iff.mpr fun hc => ?_
  simp only [Bool.and_eq_true, decide_eq_true_eq, beq_iff_eq] at hc
  obtain ⟨⟨hl, hu⟩, hm⟩ := hc
  have hi : (a - base) / stride < n := Nat.div_lt_of_lt_mul (by omega)
  have he : a = base + stride * ((a - base) / stride) := by
    have := Nat.div_add_mod (a - base) stride; omega
  exact ne_of_noReg h (hr _ hi) he

/-- Bytes without a register are none of the words in which a pipeline's stages show what they hold (R201). -/
theorem noReg_outside_hold {a : Nat} (ha : a % 4 = 0) (h : regAt a = none) :
    (decide (R.PPL_HOLD 0 0 ≤ a) && decide (a < R.PPL_HOLD 8 0) && decide (R.PPL_HOLD 0 0 % 0x200000 ≤ a % 0x200000) &&
      decide (a % 0x200000 < R.PPL_HOLD 0 36 % 0x200000)) = false := by
  have hr : ∀ p < 8, ∀ i < 36, (regAt (R.PPL_HOLD p i)).isSome = true := by decide +kernel
  refine Bool.eq_false_iff.mpr fun hc => ?_
  simp only [Bool.and_eq_true, decide_eq_true_eq] at hc
  unfold R.PPL_HOLD at hc
  obtain ⟨⟨⟨hl, hu⟩, hm⟩, hn⟩ := hc
  refine ne_of_noReg h (hr ((a - 0x1000000) / 0x200000) (by omega) ((a % 0x200000 - 0x400) / 4) (by omega)) ?_
  unfold R.PPL_HOLD; omega

/-- The registers outside every family whose value can be worked out when they are read (R91, R543, R565). -/
def computedAlone : List Nat :=
  [R.FWS_RCP_OLD_INGRESS, R.FWS_RCP_OLD_EGRESS, R.FWS_RCP_OLD_SOURCES, R.PMx_FRZ_TURN_LO 1, R.PMx_FRZ_TURN_HI 1, R.GLB_GPIO_IN,
    R.FWS_SEC_STATUS, R.FWS_REC_CTRL, R.FWS_REC_COUNT]

theorem regAt_computedAlone : ∀ r ∈ computedAlone, (regAt r).isSome = true := by decide +kernel

/-- No value is worked out for bytes without a register: each register that `computed` names stands in the tables. -/
theorem computed_noReg {s : State} {a : Nat} (ha : a % 4 = 0) (h : regAt a = none) : s.computed a = none := by
  have hne : ∀ r ∈ computedAlone, a ≠ r := fun r hr => ne_of_noReg h (regAt_computedAlone r hr)
  simp only [computedAlone, List.forall_mem_cons, List.not_mem_nil, false_imp_iff, implies_true, and_true] at hne
  obtain ⟨h1, h2, h3, h4, h5, h6, h7, h8, h9⟩ := hne
  have scan := noReg_outside (base := R.PRS_SCAN_OCC 0) (stride := 0x20) (n := 8) h (by decide +kernel)
  have reload := noReg_outside (base := R.PPL_RELOAD_PEND 0) (stride := 0x200000) (n := 8) h (by decide +kernel)
  have inflight := noReg_outside (base := R.TXF_PL_INFLIGHT 0) (stride := 0x20) (n := 8) h (by decide +kernel)
  have chain := noReg_outside (base := R.TXF_SU 0) (stride := 4) (n := 64) h (by decide +kernel)
  have held := noReg_outside (base := R.RSV_HOLD_w0 0) (stride := 4) (n := 256) h (by decide +kernel)
  have fill := noReg_outside (base := R.RSV_PORT_STATUS 0) (stride := 0x40) (n := 8) h (by decide +kernel)
  have mig := noReg_outside (base := R.HBC_MIG_STATUS 0) (stride := 0x40000) (n := 6) h (by decide +kernel)
  have reads := noReg_outside (base := R.HBC_RD_OUT 0) (stride := 0x40000) (n := 6) h (by decide +kernel)
  unfold State.computed
  simp only [h1, h2, h3, h4, h5, h6, h7, beq_eq_false_iff_ne.mpr h8, beq_eq_false_iff_ne.mpr h9, scan, reload, inflight, chain, held,
    fill, mig, reads, noReg_outside_hold ha h, false_and, or_self, if_false, Bool.or_self, Bool.false_and, Bool.false_eq_true]

/-- A read of bytes without a register shows zero (R437). -/
theorem liveRead_noReg {s : State} {fn addr : Nat} (ha : addr % 4 = 0) (hlt : addr < 0x10000000)
    (h : regAt (s.banked fn addr) = none) : s.liveRead fn (s.banked fn addr) = 0 := by
  have h0 := regAt_of_banked ha h
  have hr : s.regRead fn (s.banked fn addr) = 0 := by
    have hd : addr ≠ R.HAC_RULE_DRAINED := ne_of_noReg h0 (by decide +kernel)
    unfold State.regRead
    simp only [banked_mod hlt, hd, if_false, readable_noReg h, ite_self]
  unfold State.liveRead
  simp only [banked_mod hlt, computed_noReg ha h0, hr, ite_self]

theorem readIn_noReg {s : State} {fn addr : Nat} (ha : addr % 4 = 0) (hlt : addr < 0x10000000)
    (h : regAt (s.banked fn addr) = none) : s.readIn (s.banked fn addr) = s := by
  have hr : ∀ p < 128, (regAt (R.LIF_TS_POP p)).isSome = true := by decide +kernel
  unfold State.readIn
  simp only [banked_mod hlt]
  refine if_neg fun hc => ?_
  simp only [Bool.and_eq_true, decide_eq_true_eq, beq_iff_eq] at hc
  obtain ⟨⟨-, hp⟩, he⟩ := hc
  exact ne_of_noReg (regAt_of_banked ha h) (hr _ hp) he

theorem readOut_noReg {s : State} {a : Nat} (h : regAt a = none) : s.readOut a = s := by
  have hr : ∀ k < 4, (regAt (R.BPM_POOL_w7 k)).isSome = true := by decide +kernel
  have hf : (List.range 4).find? (fun k => R.BPM_POOL_w7 k == a) = none := List.find?_eq_none.mpr fun k hk e =>
    ne_of_noReg h (hr k (List.mem_range.mp hk)) (beq_iff_eq.mp e).symm
  unfold State.readOut
  simp only [readClear_noReg h, hf]

/-- A read of bytes without a register that passes its checks answers zero and does nothing else (R437). -/
theorem answerRead_noReg {s : State} {fn addr be : Nat} (ha : addr % 4 = 0) (hlt : addr < 0x10000000)
    (h : regAt (s.banked fn addr) = none) : s.answerRead fn addr be = s.emit (.read fn 0) := by
  have hv : enabled 0 be = 0 := by simp [enabled]
  unfold State.answerRead
  simp only [readIn_noReg ha hlt h, readOut_noReg h, liveRead_noReg ha hlt h, hv, ite_self]

/-! ### R437: bytes outside registers -/

/-- Settles O8, clause by clause: each failing check has its own outcome, the same for every register, and an access that passes meets no
register. -/
theorem bytesOutsideRegisters : Obligations.BytesOutsideRegisters := by
  unfold Obligations.BytesOutsideRegisters
  refine ⟨?noBlock, ?read, ?write, ?denied, ?gated⟩
  case noBlock =>
    intro fn addr be val s _ ha hb
    rw [exec_registerRead, exec_registerWrite, hostRead_noBlock ha hb, hostWrite_noBlock ha hb]
    exact ⟨rfl, rfl⟩
  case read =>
    intro fn addr be s _ h4 hr ht
    obtain ⟨-, b, hb, -⟩ := readTaken_iff.mp ht
    rw [exec_registerRead, hostRead_taken ht, answerRead_noReg h4 (lt_of_blockOf hb) hr]
    rfl
  case write =>
    intro fn addr be val s _ hr ht
    rw [exec_registerWrite, triggerAt_noReg hr, hostWrite_taken ht]
    exact congrArg ok (plainWrite_noReg hr)
  case denied =>
    intro addr be val why s ha hb hr
    obtain ⟨b, hb⟩ := Option.isSome_iff_exists.mp hb
    constructor
    · intro hp
      have hnext : ((s.acceptWrite 1).secLog why 1 addr 0 none).rd R.HAC_LEL_CTRL_next = s.rd R.HAC_LEL_CTRL_next :=
        (rd_secLog (by decide)).trans (rd_acceptWrite (by decide))
      exact runs_ok (exec_registerWrite.trans (congrArg ok (hostWrite_denied ha hb hp)))
        (lateErr_logs hnext (by decide : leRefused < 256))
    · intro hp
      have hout : (s.secLog why 1 addr 0 none).out = s.out := secLog_out
      exact runs_ok (exec_registerRead.trans (congrArg ok (hostRead_denied ha hb hp))) ⟨hout, rfl⟩
  case gated =>
    intro fn addr be val b s _ ha hb hr hd hc
    constructor
    · intro hp
      have hnext : (s.acceptWrite fn).rd R.HAC_LEL_CTRL_next = s.rd R.HAC_LEL_CTRL_next := rd_acceptWrite (by decide)
      exact runs_ok (exec_registerWrite.trans (congrArg ok (hostWrite_gated ha hb hp hd hc)))
        (lateErr_logs hnext (by decide : leGated < 256))
    · intro hp
      obtain ⟨hnext, hwhy⟩ := lateErr_logs (fn := fn) (bar := 0) (a := addr) (isRead := true)
        (rfl : s.rd _ = s.rd _) (by decide : leGated < 256)
      obtain ⟨xs, hxs⟩ := lateErr_adds (s := s) (fn := fn) (bar := 0) (a := addr) (why := leGated) (isRead := true)
      exact runs_ok (exec_registerRead.trans (congrArg ok (hostRead_gated ha hb hp hd hc)))
        ⟨hnext, hwhy, xs, congrArg (· ++ [Output.abort fn]) hxs.symm⟩

/-! ### R440: posted writes -/

/-- A state whose register list names PF0's HAC_WSEQ at its reset value 0; no state in canonical form lists a register so. -/
def wseqListed : State := { State.reset with regs := [(R.HAC_WSEQ 0, 0)] }

theorem wseqListed_readTaken : ReadTaken wseqListed 0 (R.HAC_WSEQ 0) := by decide +kernel

/-- A full read writes the register back with its RC bits clear; HAC_WSEQ has none and the value stays, but the list loses the entry at
the reset value. -/
theorem wseqListed_read_regs : (wseqListed.answerRead 0 (R.HAC_WSEQ 0) 15).regs = [] := by decide +kernel

/-- Refutes O7: its last clause asks of every state that a read of HAC_WSEQ leaves the list that holds the registers as it is, and the
statement does not ask that the list be in canonical form. On `wseqListed` the read writes HAC_WSEQ back at its reset value, and its entry
leaves the list. -/
theorem not_postedWritesAreNumbered : ¬ Obligations.PostedWritesAreNumbered := by
  unfold Obligations.PostedWritesAreNumbered
  rintro ⟨-, -, -, -, hread⟩
  obtain ⟨t, ht, -, hregs⟩ := hread 0 wseqListed (by decide) wseqListed_readTaken
  rw [exec_registerRead, hostRead_taken wseqListed_readTaken] at ht
  cases ht
  rw [wseqListed_read_regs] at hregs
  exact List.cons_ne_nil _ _ hregs.symm

end Sys2Proof.Machine
end
